-- ==== Sys2Proof/Word.lean ====
section
/-! DEFINITION. The word types of the CQ46 (spec/00 R2, spec/09 R239) and their plainest arithmetic. -/

namespace Sys2Proof

/-- A 32-bit register word (spec/05 R144). -/
abbrev Word := BitVec 32

/-- A 64-bit register pair, address or record word (spec/10 R276). -/
abbrev DWord := BitVec 64

/-- One byte of a location. -/
abbrev Byte := BitVec 8

/-- A program counter: 57-bit virtual address (spec/00 R1, spec/10 R278). -/
abbrev Pc := BitVec 57

/-- The low word of a 64-bit value. -/
def DWord.lo (d : DWord) : Word := BitVec.ofNat 32 d.toNat

/-- The high word of a 64-bit value. -/
def DWord.hi (d : DWord) : Word := BitVec.ofNat 32 (d.toNat / 2 ^ 32)

/-- A register pair read as one value: `lo` is the low word (spec/00 notation, spec/10 R276). -/
def pairOf (hi lo : Word) : DWord := BitVec.ofNat 64 (hi.toNat * 2 ^ 32 + lo.toNat)

@[simp] theorem pairOf_lo (hi lo : Word) : (pairOf hi lo).lo = lo := by
  apply BitVec.eq_of_toNat_eq
  simp only [DWord.lo, pairOf, BitVec.toNat_ofNat]; omega

@[simp] theorem pairOf_hi (hi lo : Word) : (pairOf hi lo).hi = hi := by
  apply BitVec.eq_of_toNat_eq
  simp only [DWord.hi, pairOf, BitVec.toNat_ofNat]; omega

end Sys2Proof
end

