-- ==== Sys2Proof/Config.lean ====
section
/-! DEFINITION. What an implementation fixes and the manual leaves open: the figures of spec/00 R1 and the free
values (opaque constants, of which no proof can know a value). -/

namespace Sys2Proof.Config

/-- FREE VALUE (log 4): the n-th undefined value of spec/00 R5 drawn by a run. -/
opaque freeWord : Nat → Word

/-- FREE VALUE (log 20): the raw result a special function of spec/14 R349 gives for an input. The model keeps it only
where it lies inside the bound of spec/09 R257. -/
opaque sfRaw : Nat → Word → Word

/-- FREE VALUES (log 131): the silicon stepping and the serial number that port 0's function shows in endpoint mode (spec/01 R29), and
the bytes of the boot ROM (spec/02 R73). -/
opaque stepping : BitVec 8
opaque serial : DWord
opaque romByte : Nat → Byte

/-- Cores, groves, and cores of one grove (spec/00 R1). -/
def cores : Nat := 4608
def groves : Nat := 192
def coresPerGrove : Nat := 24
def coresPerDie : Nat := 1152
def grovesPerDie : Nat := 48

/-- Glades of a core and the default aging limit (spec/05 R152). -/
def glades : Nat := 64
def defaultAge : Nat := 256

/-- Sump entries and page records of a core (spec/06 R193). -/
def sumpThreads : Nat := 64
def sumpRecords : Nat := 16

/-- TLB entries of a core and of a grove (spec/06 R187). -/
def coreTlb : Nat := 64
def groveTlb : Nat := 2048

/-- Table pointers that a die's page walker holds (spec/06 R187). -/
def walkPtrs : Nat := 256

/-- Pages of the tier-miss filter (spec/06 R192). -/
def filterPages : Nat := 16

/-- Bytes of one slice of the chamber, and of the gallery granted to waves (spec/04 R120). -/
def chamberSlice : Nat := 16384
def galleryBytes : Nat := 126976

/-- Scratchpad bytes of a core (spec/00 R1). -/
def scratchBytes : Nat := 262144

/-- Package physical map (spec/02 R73). -/
def cavernBase : Nat := 0x100000000
def cavernSize : Nat := 0x100000000
def pcie0Base : Nat := 0x4000000000
def pcie1Base : Nat := 0x8000000000
def pcieWindow : Nat := 0x4000000000
def cxlBase : Nat := 0x8000000000000
def cxlSize : Nat := 0x1000000000000
def regBase : Nat := 0x30000000
def launchBase : Nat := 0x31000000
def mailboxBase : Nat := 0x31100000

/-- Ticks of the 100 MHz time base (spec/02 R81) in 1 us, 10 ms and 50 ms. -/
def ticksUs : Nat := 100
def ticks10ms : Nat := 1000000
def ticks50ms : Nat := 5000000

/-- Arithmetic cycles in a microsecond of a figure that is stated for the cores: it holds at 1.7 GHz and scales with the clock (spec/01
R13). -/
def cyclesUs : Nat := 1700

end Sys2Proof.Config
end

