-- ==== Sys2Proof/Syntax.lean ====
section
/-! DEFINITION. The instructions and the steps of the CQ46: one constructor for each row of spec/opcode_table.json.
The first 150 are the instruction words of spec/10 R281; the others are the operations and events of the rest of the
package, which have no encoding. -/

namespace Sys2Proof

/-- A 9-bit operand specifier that names a register (spec/10 R276). -/
inductive Spec where
  | v (n : BitVec 8)
  | c (k : BitVec 3)
  | x0
  | x1
  | zero
deriving DecidableEq, Repr

/-- The fields STALL, FLAG and LOOK of an instruction word (spec/10 R270). -/
structure Hdr where
  stall : BitVec 3
  flag : BitVec 4
  look : BitVec 4
deriving DecidableEq, Repr

/-- Scope suffixes `.t .q .w .k .g .d .p .x` (spec/00 notation, spec/07 R207). -/
inductive Scope where
  | t | q | w | k | g | d | p | x
deriving DecidableEq, Repr

/-- Saturation of `add sub mul mad` (spec/13 R320): mods 0, 2 and 3. -/
inductive Sat where
  | wrap | i32 | n32
deriving DecidableEq, Repr

/-- Condition codes of `cmp` (spec/13 R327). -/
inductive Cond where
  | eq | ne | lt | le | gt | ge | ltu | leu | gtu | geu
deriving DecidableEq, Repr

/-- Condition codes of `fcmp` (spec/14 R342). -/
inductive FCond where
  | eq | ne | lt | le | gt | ge | un | num
deriving DecidableEq, Repr

/-- Modes of `shfl` (spec/13 R330). -/
inductive ShMode where
  | idx | up | down | xor
deriving DecidableEq, Repr

/-- Kinds of `vote` (spec/13 R330). -/
inductive VoteKind where
  | ballot | any | all | eq
deriving DecidableEq, Repr

/-- Type codes of `fcvt` (spec/14 R344). -/
inductive FType where
  | f32 | f16 | bf16 | fp19 | i32 | n32
deriving DecidableEq, Repr

/-- Rounding choice of `frnd` (spec/14 R344). -/
inductive RndMode where
  | cur | rn | rz | up | dn
deriving DecidableEq, Repr

/-- Source types of `cvtq` and `bscale` (spec/14 R354). -/
inductive QSrc where
  | f32 | bf16 | f16
deriving DecidableEq, Repr

/-- Patterns, widths and kinds of `topk` (spec/14 R351). -/
inductive TkPat where
  | p14 | p24 | p28 | p48
deriving DecidableEq, Repr

inductive TkWidth where
  | w4 | w8 | w16
deriving DecidableEq, Repr

inductive TkKind where
  | sm | s | u
deriving DecidableEq, Repr

/-- Access sizes of loads and stores (spec/15 R362). -/
inductive MSize where
  | b32 | i8 | n8 | i16 | n16 | b64 | b128
deriving DecidableEq, Repr

/-- Operations and types of `atom` and `red` (spec/15 R370). -/
inductive AOp where
  | add | min | max | and | or | xor | xchg | cas
deriving DecidableEq, Repr

inductive AType where
  | i32 | n32 | f32 | b64
deriving DecidableEq, Repr

/-- Semantics of `fence` (spec/15 R373). -/
inductive FSem where
  | ar | rel | acq
deriving DecidableEq, Repr

/-- Modes of `tdrain` (spec/16 R388). -/
inductive DMode where
  | ow | add | aon
deriving DecidableEq, Repr

/-- Where a barrier's count comes from (spec/12 R297): the immediate field, or a register. -/
inductive BarCnt where
  | imm (n : BitVec 16)
  | reg (k : Spec)
deriving DecidableEq, Repr

/-- The set of queues of a `qfence` (spec/17 R414). -/
structure QSet where
  c : Bool
  m : Bool
  s : Bool
  p : Bool
  a : Bool
  r : Bool
deriving DecidableEq, Repr

/-- What a message of the fabric carries (spec/01 R38; spec/17 R431; spec/04 R132, R135; spec/22 R447, R449). -/
inductive Payload where
  | sig (chan : Nat) (value : Word) (tid uid : Nat)
  | sigAck (tid uid : Nat)
  | barArrive (num count arrivals phase : Nat)
  | barRelease (num phase : Nat)
  | barRefuse (num count : Nat)
  | barWithdraw (num : Nat)
  | drainToken (launch : Nat) (all : Bool) (left : List Nat)
  | chunk (cid toRank seq c seg off : Nat) (gather : Bool) (red ty : Nat) (bytes : List Byte)
  | token (cid toRank fromRank c : Nat)
  | refused (cid toRank fromRank seq circuit c : Nat)
  | ringTok (cid toRank fromRank seq circuit : Nat)
  | put (cid toRank fromRank eid c dst red ty : Nat) (last rsig : Bool) (rctr : Nat) (bytes : List Byte)
  | wake (core : Nat)
  | failure (cid toRank seq cause : Nat)
  | putFail (cid toRank eid cause : Nat)
  | bulkReq (id off len : Nat) (write : Bool) (bytes : List Byte)
  | bulkRsp (id : Nat) (ok : Bool) (bytes : List Byte)
  | bulkAtom (id off : Nat) (op : AOp) (ty : AType) (ops : List (Nat × Nat))
deriving DecidableEq, Repr

/-- A fabric message: devices, traffic class and virtual channel (spec/01 R38, R44). -/
structure Msg where
  src : Nat
  dst : Nat
  cls : Nat
  vc : Nat
  body : Payload
deriving DecidableEq, Repr

/-- Flit types (spec/01 R33, R34): payload of a channel, a header alone, and a header that asks for a replay. DESIGN CHOICE
(log 128): the spec names the field and not its values. -/
inductive FlitKind where
  | data | idle | replay
deriving DecidableEq, Repr

/-- A 256-byte flit (spec/01 R33): its type, virtual channel and sequence number, the hold bits and the acknowledgement that it
brings back, whether its FEC blocks could be corrected and its CRC holds as it arrives, and the message it completes, if it is
the last of one. -/
structure Flit where
  kind : FlitKind := .data
  vc : Nat
  seq : Nat
  hold : BitVec 8
  ack : Nat
  fecOk : Bool := true
  crcOk : Bool := true
  last : Option Msg
deriving DecidableEq, Repr

/-- An inbound PCIe request (spec/01 R14, R25-R30): its port (0 and 1 the PCIe ports, 2 to 13 the CXL.io of CXL ports 0 to 11), read or
write of bytes, the address (an offset of BAR0 where the host sends it in endpoint mode, or of the configuration space with
`cfg`), the answer of the port's IOMMU (absent: the IOMMU faults it), and the mark that makes it an unsupported request. -/
structure PcieReq where
  port : Nat
  write : Bool
  translated : Bool
  addr : Nat
  iommu : Option Nat
  len : Nat
  bytes : List Byte
  cfg : Bool := false
deriving DecidableEq, Repr

/-- The address of an AtomicOp (spec/01 R24, R25): the mark that says it is translated already, the address, and the answer of the
port's IOMMU. -/
structure PcieAddr where
  translated : Bool
  addr : Nat
  iommu : Option Nat
deriving DecidableEq, Repr

/-- PCIe AtomicOps (spec/01 R24). -/
inductive PcieOp where
  | fetchAdd | swap | cas
deriving DecidableEq, Repr

/-- What an answer of a CXL device concerns (spec/01 R20, R22): an outstanding operation of a thread, or, for every requester, the
64-byte line at an address. -/
inductive CxlWho where
  | access (tid oid : Nat)
  | line (pa : Nat)
deriving DecidableEq, Repr

/-- What the training of a CXL link brings (spec/01 R15, R23): its width, and the replays that the link has made since it was up. -/
structure CxlLink where
  width : Nat
  replays : Nat := 0
deriving DecidableEq, Repr

/-- A change of the dynamic-capacity log behind a CXL port (spec/01 R22): whether an event is pending there. -/
structure CxlEvent where
  port : Nat
  pending : Bool
deriving DecidableEq, Repr

/-- A link that is late for a collective entry (spec/01 R66): that of this device, or one further on the entry's path. -/
structure CollOut where
  eid : Nat
  far : Bool
deriving DecidableEq, Repr

/-- What a control core does (spec/02 R69, R73, R81): a store, a load or a fetch of the physical map, a read of its `time` CSR, writes of
`stimecmp` and `vstimecmp`, or a read of its pending timer interrupts. -/
inductive HartOp where
  | store | load | fetch | time | stimecmp | vstimecmp | pending
deriving DecidableEq, Repr

/-- An access of a control core: the hart, its operation, whether it runs in M-mode, the length of a load, the bytes of a store, and whether the line that it consumes from its caches is in error (spec/02 R93). -/
structure HartReq where
  hart : Nat := 0
  op : HartOp := .store
  mmode : Bool := true
  len : Nat := 0
  bytes : List Byte := []
  cacheBad : Bool := false
deriving DecidableEq, Repr

/-- THE INSTRUCTIONS AND STEPS: one constructor per row of spec/opcode_table.json. -/
inductive Instr where
  -- control (spec/12 R296)
  | bra (h : Hdr) (off : BitVec 33)
  | brz (h : Hdr) (r : Spec) (off : BitVec 33)
  | brnz (h : Hdr) (r : Spec) (off : BitVec 33)
  | brx (h : Hdr) (a : Spec)
  | callDirect (h : Hdr) (off : BitVec 33)
  | callReg (h : Hdr) (a : Spec)
  | ret (h : Hdr)
  | reform (h : Hdr)
  | yield (h : Hdr)
  | exit (h : Hdr)
  | bar (h : Hdr) (lvl : BitVec 3) (num : BitVec 5) (cnt : BarCnt)
  | bara (h : Hdr) (lvl : BitVec 3) (num : BitVec 5) (cnt : BarCnt)
  | barw (h : Hdr) (lvl : BitVec 3) (num : BitVec 5)
  | spawn (h : Hdr) (d a b c : Spec)
  | join (h : Hdr)
  | nop (h : Hdr)
  | brk (h : Hdr) (n : BitVec 24)
  -- integer arithmetic (spec/13 R320)
  | add (h : Hdr) (m : Sat) (d a b : Spec)
  | sub (h : Hdr) (m : Sat) (d a b : Spec)
  | mul (h : Hdr) (m : Sat) (d a b : Spec)
  | mulh (h : Hdr) (u : Bool) (d a b : Spec)
  | mad (h : Hdr) (m : Sat) (d a b c : Spec)
  | madw (h : Hdr) (u : Bool) (d a b c : Spec)
  | addc (h : Hdr) (d a b c : Spec)
  | subb (h : Hdr) (d a b c : Spec)
  | min (h : Hdr) (u : Bool) (d a b : Spec)
  | max (h : Hdr) (u : Bool) (d a b : Spec)
  | abs (h : Hdr) (sat : Bool) (d a : Spec)
  | neg (h : Hdr) (sat : Bool) (d a : Spec)
  | addImm (h : Hdr) (d a : Spec) (imm : BitVec 24)
  | subImm (h : Hdr) (d a : Spec) (imm : BitVec 24)
  | mulImm (h : Hdr) (d a : Spec) (imm : BitVec 24)
  | mulhImm (h : Hdr) (d a : Spec) (imm : BitVec 24)
  | minImm (h : Hdr) (d a : Spec) (imm : BitVec 24)
  | maxImm (h : Hdr) (d a : Spec) (imm : BitVec 24)
  -- logic and shifts (spec/13 R323)
  | and (h : Hdr) (d a b : Spec)
  | or (h : Hdr) (d a b : Spec)
  | xor (h : Hdr) (d a b : Spec)
  | andn (h : Hdr) (d a b : Spec)
  | not (h : Hdr) (d a : Spec)
  | shl (h : Hdr) (d a b : Spec)
  | shr (h : Hdr) (d a b : Spec)
  | sar (h : Hdr) (d a b : Spec)
  | rot (h : Hdr) (d a b : Spec)
  | shf (h : Hdr) (d a b c : Spec)
  | andImm (h : Hdr) (d a : Spec) (imm : BitVec 24)
  | orImm (h : Hdr) (d a : Spec) (imm : BitVec 24)
  | xorImm (h : Hdr) (d a : Spec) (imm : BitVec 24)
  | andnImm (h : Hdr) (d a : Spec) (imm : BitVec 24)
  | shlImm (h : Hdr) (d a : Spec) (n : BitVec 5)
  | shrImm (h : Hdr) (d a : Spec) (n : BitVec 5)
  | sarImm (h : Hdr) (d a : Spec) (n : BitVec 5)
  | rotImm (h : Hdr) (d a : Spec) (n : BitVec 5)
  -- bit fields and counts (spec/13 R325)
  | bfx (h : Hdr) (i : Bool) (d a b : Spec)
  | bfi (h : Hdr) (d a b c : Spec)
  | popc (h : Hdr) (d a : Spec)
  | clz (h : Hdr) (d a : Spec)
  | ctz (h : Hdr) (d a : Spec)
  | brev (h : Hdr) (d a : Spec)
  -- select, compare, address, move, lanes, special registers (spec/13 R326-R335)
  | sel (h : Hdr) (d a b c : Spec)
  | cmp (h : Hdr) (cc : Cond) (d a b : Spec)
  | lea (h : Hdr) (sh : BitVec 2) (u : Bool) (d a b : Spec)
  | mov (h : Hdr) (w64 : Bool) (d a : Spec)
  | cmpImm (h : Hdr) (cc : Cond) (d a : Spec) (imm : BitVec 20)
  | leaImm (h : Hdr) (d a : Spec) (imm : BitVec 24)
  | movi (h : Hdr) (d : Spec) (imm : BitVec 32)
  | shfl (h : Hdr) (m : ShMode) (z : Bool) (d a b : Spec)
  | vote (h : Hdr) (k : VoteKind) (d a : Spec)
  | rdsr (h : Hdr) (d : Spec) (idx : BitVec 8)
  | wrsr (h : Hdr) (a : Spec) (idx : BitVec 8)
  -- float (spec/14 R340-R346)
  | fadd (h : Hdr) (d a b : Spec)
  | fsub (h : Hdr) (d a b : Spec)
  | fmul (h : Hdr) (d a b : Spec)
  | ffma (h : Hdr) (d a b c : Spec)
  | fmin (h : Hdr) (num : Bool) (d a b : Spec)
  | fmax (h : Hdr) (num : Bool) (d a b : Spec)
  | fcmp (h : Hdr) (cc : FCond) (d a b : Spec)
  | fclass (h : Hdr) (d a : Spec)
  | fscale (h : Hdr) (d a b : Spec)
  | fcvt (h : Hdr) (dt st : FType) (d a : Spec)
  | frnd (h : Hdr) (m : RndMode) (d a : Spec)
  | fpack (h : Hdr) (bf : Bool) (d a b : Spec)
  | fdot2 (h : Hdr) (bf : Bool) (d a b c : Spec)
  | fdot4 (h : Hdr) (e5 : Bool) (d a b c : Spec)
  -- special functions (spec/14 R349)
  | sfe2 (h : Hdr) (d a : Spec)
  | sfl2 (h : Hdr) (d a : Spec)
  | sfrcp (h : Hdr) (d a : Spec)
  | sfrsq (h : Hdr) (d a : Spec)
  | sfsqr (h : Hdr) (d a : Spec)
  | sfsin (h : Hdr) (d a : Spec)
  | sfcos (h : Hdr) (d a : Spec)
  | sftanh (h : Hdr) (d a : Spec)
  | sfsig (h : Hdr) (d a : Spec)
  | sfsilu (h : Hdr) (d a : Spec)
  -- top-k, transformed mean, narrow conversion (spec/14 R351-R359)
  | topkGroup (h : Hdr) (p : TkPat) (w : TkWidth) (k : TkKind) (a b c : Spec)
  | topkRow (h : Hdr) (w : TkWidth) (k : TkKind) (d a b c : Spec)
  | tment (h : Hdr) (d a : Spec)
  | tmred (h : Hdr) (d a : Spec)
  | tmmrg (h : Hdr) (d a b : Spec)
  | tmscl (h : Hdr) (d a b : Spec)
  | tmext (h : Hdr) (d a : Spec)
  | tmld (h : Hdr) (p : BitVec 2) (a : Spec) (off : BitVec 15)
  | cvtq (h : Hdr) (st : QSrc) (sl : BitVec 3) (d a b c : Spec)
  | rquant (h : Hdr) (sl : BitVec 3) (d a b c : Spec)
  | bscale (h : Hdr) (st : QSrc) (sl : BitVec 3) (d a : Spec)
  -- memory (spec/15)
  | ld (h : Hdr) (sz : MSize) (tm : Bool) (sc : Scope) (d a : Spec) (off : BitVec 15)
  | st (h : Hdr) (sz : MSize) (tm : Bool) (sc : Scope) (d a : Spec) (off : BitVec 15)
  | lds (h : Hdr) (sz : MSize) (sc : Scope) (d a : Spec) (off : BitVec 15)
  | sts (h : Hdr) (sz : MSize) (sc : Scope) (d a : Spec) (off : BitVec 15)
  | ldt (h : Hdr) (sz : BitVec 3) (md : Bool) (d a : Spec) (off : BitVec 15)
  | stt (h : Hdr) (sz : BitVec 3) (aon : Bool) (d a : Spec) (off : BitVec 15)
  | atom (h : Hdr) (op : AOp) (ty : AType) (sc : Scope) (d a b : Spec)
  | red (h : Hdr) (op : AOp) (ty : AType) (sc : Scope) (a b : Spec)
  | fence (h : Hdr) (sem : FSem) (sc : Scope)
  | prf (h : Hdr) (tm : Bool) (sc : Scope) (a : Spec) (off : BitVec 15)
  | gjoin (h : Hdr) (a : Spec)
  | gleave (h : Hdr)
  | fibld (h : Hdr) (clr : Bool) (d a b : Spec)
  | fibprb (h : Hdr) (m : Option Spec) (d a : Spec)
  -- matrix (spec/16 R388)
  | mma (h : Hdr) (z : Bool) (acc : BitVec 6) (a b : Spec) (sA sB : BitVec 3)
  | mmas (h : Hdr) (pat : BitVec 3) (acc : BitVec 6) (a b m : Spec) (sA sB : BitVec 3)
  | mmaj (h : Hdr) (z : Bool) (tag : BitVec 4) (acc : BitVec 6) (a b : Spec) (sA sB : BitVec 3)
  | mmx (h : Hdr) (a : Spec)
  | mmr (h : Hdr) (a : Spec)
  | tdrain (h : Hdr) (m : DMode) (q : Bool) (qt : BitVec 2) (z i : Bool) (acc : BitVec 6) (a b : Spec) (s : BitVec 3)
  | tzero (h : Hdr) (q : Bool) (qt : BitVec 2) (acc : BitVec 6)
  -- engines, collectives, hashed index (spec/17 R407)
  | cpy (h : Hdr) (ds ss : Bool) (a b c : Spec)
  | cpyp (h : Hdr) (a b c : Spec)
  | qfence (h : Hdr) (q : BitVec 6) (set : QSet) (d : Spec)
  | qpost (h : Hdr) (q : BitVec 6) (a : Spec)
  | rlinv (h : Hdr) (q : BitVec 6) (a : Spec)
  | ctrset (h : Hdr) (a b : Spec)
  | ctradd (h : Hdr) (a b : Spec)
  | ctrwait (h : Hdr) (a b : Spec)
  | stcfg (h : Hdr) (e : BitVec 2) (a : Spec)
  | rwait (h : Hdr) (r : BitVec 4) (d : Spec)
  | rdone (h : Hdr) (r : BitVec 4) (a : Spec)
  | rclose (h : Hdr) (r : BitVec 4)
  | sigld (h : Hdr) (hs : BitVec 4) (a b : Spec)
  | kstore (h : Hdr) (nt : Bool) (sc : Scope) (hs : BitVec 4) (a b c : Spec)
  | qsig (h : Hdr) (hs : BitVec 4) (d b : Spec)
  | bprobe (h : Hdr) (nt : Bool) (sc : Scope) (d b c : Spec)
  -- system (spec/17 R429)
  | trap (h : Hdr) (n : BitVec 24)
  | sysc (h : Hdr) (n : BitVec 24)
  | sig (h : Hdr) (sc : Scope) (a b : Spec)
  | tret (h : Hdr)
  | tretEnd (h : Hdr)
  | csave (h : Hdr) (d a : Spec)
  | crest (h : Hdr) (a b : Spec)
  | rdclk (h : Hdr) (d : Spec)
  -- STEPS OF THE PACKAGE: boot, power
  | resetNRelease
  | bootHostImageLoad
  | powerSample (mw : DWord) (rails : List DWord)
  | thermalThrottle (temps : List Int)
  | thermtrip (sensor : Nat)
  | registerWrite (pa : Nat) (w64 : Bool) (v : DWord)
  -- steps the table lists last
  | fabricLinkDown (n : Nat)
  | controlCoreStore (pa : Nat) (r : HartReq)
  | resetNAssert
  | pcieIntxInput (src : Nat) (level : Bool)
  | collFailureArrive (n : Nat)
  -- CXL (spec/01 R14-R23)
  | cxldCommit (d : Nat) (v : Word)
  | cxldUncommit (d : Nat) (v : Word)
  | cxlLinkTrain (p speed : Nat) (link : CxlLink) (flit256 : Bool)
  | cxlLinkDown (p : Nat)
  | cxlMemError (p : Nat) (who : CxlWho) (bad : Bool)
  | cxlDcEvent (e : CxlEvent)
  | cxlpPoisonClear (p : Nat)
  | cxlpLdownClear (p : Nat)
  | cxlpReplaysClear (p : Nat)
  -- PCIe (spec/01 R24-R32)
  | pcieLinkTrain (p width speed : Nat)
  | pcieInboundRequest (r : PcieReq)
  | pcieAtomicop (p : Nat) (a : PcieAddr) (op : PcieOp) (size : Nat) (x cmp : DWord)
  | pcieFlr
  | hostWindowAccess (off : Nat) (write : Bool) (bytes : List Byte) (ok : Bool)
  | hostWindowTimeout (off : Nat)
  -- fabric (spec/01 R33-R47)
  | fabricLinkTrain (n rttNs ver peer req rsp : Nat)
  | flitReceive (n : Nat) (f : Flit)
  | flitReplay (n seq : Nat)
  | flitSend (n : Nat)
  | linkReplayRetrain (n : Nat)
  | fabricPassThrough (n vc : Nat)
  | fportCtlWrite (n : Nat) (v : Word)
  | fportRetrain (n : Nat)
  | fportErrClear (n : Nat) (v : Word)
  | routeEntryWrite (id : Nat) (v : DWord)
  -- collectives (spec/01 R48-R67, spec/22)
  | collEntryStart (rcb pair : Nat)
  | collOpen (eid : Nat)
  | collClose (eid : Nat)
  | collPut (eid : Nat)
  | collPutr (eid : Nat)
  | ringReduceScatter (eid : Nat)
  | ringAllGather (eid : Nat)
  | ringAllReduce (eid : Nat)
  | ringBroadcast (eid : Nat)
  | ringBarrierToken (eid : Nat)
  | ringTokenArrive (n : Nat)
  | chunkSend (n : Nat)
  | chunkArrive (n vc : Nat)
  | chunkWaitClosedCid (n vc : Nat)
  | completionTokenArrive (n : Nat)
  | tokenRefused (n : Nat)
  | tokenResend (k : Nat)
  | putArrive (n vc : Nat)
  | collEntryRetire (eid : Nat)
  | collLinkTimeout (w : CollOut)
  -- control cores, interrupts, timers, system calls, mailboxes (spec/02)
  | pkgRunWrite (v : DWord)
  | dieResetDone (d : Nat)
  | intRouteWrite (i : Nat) (v : DWord)
  | sigpendRead (c : Nat)
  | timeBaseTick
  | regionTimerFire (k : Nat)
  | rtmrFiredClear (k : Nat)
  | rtmrCtrerrClear (k : Nat)
  | sysqCfgWrite (q : Nat) (v : DWord)
  | syscallEntryWrite (q : Nat)
  | sysqCplWrite (q : Nat) (v : DWord)
  | mailboxInbellWrite (m : Nat) (v : Word)
  | mailboxInbellRead (m : Nat)
  | mailboxOutbellWrite (m : Nat) (v : Word)
  | mailboxOutbellRead (m : Nat)
  | coreClockGate (k : Nat)
  | corePowerGate (k : Nat)
  | coreWake (k : Nat)
  | grvPwrWrite (g : Nat) (v : DWord)
  | grvPwrErrClear (g : Nat)
  | grovePowerTransition (g : Nat)
  | pkgPlimitWrite (v : DWord)
  | preemptWrite (v : DWord)
  | secntClear (k : Nat)
  | cavernPatrol
  | i3cSetdasa (a : BitVec 7)
  | i3cEntdaa (a : BitVec 7)
  | i3cPrivateRead (off n : Nat)
  | i3cPrivateWrite (off : Nat) (v : DWord)
  -- launches and scheduling (spec/03, spec/04)
  | lpPost (p : Nat)
  | lpStsFullClear (p : Nat)
  | lpKill (p : Nat) (tag : DWord)
  | launchAccept (p : Nat)
  | launchRetire (l : Nat)
  | waveDispatch (core : Nat)
  | issuePick (core : Nat)
  | shuttleLoad (core : Nat)
  | shuttleEvictLongWait (core qid : Nat)
  | shuttleEvictForWaiting (core : Nat)
  | barrierArrivalNode
  | domainBarrierMessage (n : Nat)
  | barrierRelease (tid : Nat)
  | quiescenceDrainDetect (l : Nat)
  | drainSweepToken (l : Nat)
  | dispatchPreemptRequest (g : Nat)
  | preemptSave (rcb : Nat)
  | regionResume (rcb : Nat)
  | gladeAgeExpire (gid : Nat)
  | widenFrameGrant (call : Nat)
  | gatherFrameGrant (call : Nat)
  -- faults, accesses, engines, traps
  | faultEntryPost (fd : Nat)
  | faultQueueHeaderStore (fd : Nat)
  | invalidationDone (fd : Nat)
  | remoteAccessRequest (n vc : Nat)
  | remoteAccessTimeout (tid oid : Nat)
  | accessPerform (tid oid : Nat) (install : Bool)
  | readCacheDrop (core fd line : Nat)
  | engineStep (core q : Nat)
  | instructionComplete (tid uid : Nat)
  | trapEntry (gid : Nat)
  | alcoveBind (core : Nat)
  | watchdogExpire (tid : Nat)
  | mmajJointStart (k : Nat)
  | mmajPartnerTimeout (k : Nat)
  | macroOpStep (core : Nat)
  | mmrStepBoundary (core : Nat)
  | mmrIdleCheck (core : Nat)
  | streamFillStep (core e : Nat)
  | streamDrainStep (core e : Nat)
  | kstoreLinkStep (tid oid : Nat)
  | sigRemoteArrive (n : Nat)
  | sigAckArrive (n : Nat)
  | sigAckTimeout (tid uid : Nat)
deriving DecidableEq, Repr

end Sys2Proof
end

