-- ==== Sys2Proof/WellFormed.lean ====
section
/-! DEFINITION. Which instructions are well formed: the static checks of spec/10 R274-R277 and of the chapters of the
instructions, on the instruction as syntax. The decoder refuses a word whose fields fail one of them. -/

namespace Sys2Proof

/-- Engine ports (spec/04 R127, spec/10 R280). -/
inductive Port where
  | sf | mem | mat | async
deriving DecidableEq, Repr

/-- How an instruction uses an operand: read, written, or the status register that follows a `.tm` access's data
(spec/15 R367). -/
inductive Role where
  | src | dst | stat
deriving DecidableEq, Repr

/-- One use of `n` consecutive registers from the specifier `s` (spec/10 R276, spec/14 R356, spec/15 R364). -/
structure OpUse where
  role : Role
  n : Nat
  s : Spec
deriving DecidableEq, Repr

/-- Data registers of an access size (spec/15 R364). -/
def MSize.regs : MSize → Nat
  | .b32 | .i8 | .n8 | .i16 | .n16 => 1
  | .b64 => 2
  | .b128 => 4

/-- Bytes of an access size (spec/15 R363). -/
def MSize.bytes : MSize → Nat
  | .i8 | .n8 => 1
  | .i16 | .n16 => 2
  | .b32 => 4
  | .b64 => 8
  | .b128 => 16

/-- Registers and bytes of an atomic's operand (spec/15 R370). -/
def AType.regs : AType → Nat
  | .b64 => 2
  | _ => 1

def AType.bytes (t : AType) : Nat := 4 * t.regs

/-- The status register of a `.tm` access (spec/15 R367). -/
def statUse (tm : Bool) (sz : MSize) (d : Spec) : List OpUse :=
  if tm then [⟨.stat, sz.regs, d⟩] else []

/-- The count register of a barrier (spec/12 R297). -/
def BarCnt.uses : BarCnt → List OpUse
  | .imm _ => []
  | .reg k => [⟨.src, 1, k⟩]

/-- The static half of the operand checks of spec/10 R276: what a specifier may be in this position. `vN` is checked
against the thread's register count when the instruction would issue. -/
def OpUse.ok (u : OpUse) : Bool :=
  match u.s with
  | .v _ => true
  | .c k => if u.role = .stat then k.toNat + u.n < 8 else k.toNat + u.n ≤ 8
  | .x0 | .x1 => u.role = .src ∧ u.n = 1
  | .zero => u.role ≠ .stat ∧ u.n ≠ 3

/-- The dynamic half: `vN` against the register count (spec/05 R144, spec/10 R276). -/
def OpUse.inRg (rg : Nat) (u : OpUse) : Bool :=
  match u.s with
  | .v k => if u.role = .stat then k.toNat + u.n < rg else k.toNat + u.n ≤ rg
  | _ => true

/-- Every operand use of an instruction word, from its encoding table (spec/12 to spec/17). The steps of the package have
no operand. -/
def Instr.uses : Instr → List OpUse
  | .bra _ _ => []
  | .brz _ r _ => [⟨.src, 1, r⟩]
  | .brnz _ r _ => [⟨.src, 1, r⟩]
  | .brx _ a => [⟨.src, 2, a⟩]
  | .callDirect _ _ => []
  | .callReg _ a => [⟨.src, 2, a⟩]
  | .ret _ => []
  | .reform _ => []
  | .yield _ => []
  | .exit _ => []
  | .join _ => []
  | .nop _ => []
  | .gleave _ => []
  | .tret _ => []
  | .tretEnd _ => []
  | .bar _ _ _ c => c.uses
  | .bara _ _ _ c => c.uses
  | .barw _ _ _ => []
  | .spawn _ d a b c => [⟨.dst, 1, d⟩, ⟨.src, 2, a⟩, ⟨.src, 1, b⟩, ⟨.src, 2, c⟩]
  | .brk _ _ => []
  | .add _ _ d a b => [⟨.dst, 1, d⟩, ⟨.src, 1, a⟩, ⟨.src, 1, b⟩]
  | .sub _ _ d a b => [⟨.dst, 1, d⟩, ⟨.src, 1, a⟩, ⟨.src, 1, b⟩]
  | .mul _ _ d a b => [⟨.dst, 1, d⟩, ⟨.src, 1, a⟩, ⟨.src, 1, b⟩]
  | .mulh _ _ d a b => [⟨.dst, 1, d⟩, ⟨.src, 1, a⟩, ⟨.src, 1, b⟩]
  | .min _ _ d a b => [⟨.dst, 1, d⟩, ⟨.src, 1, a⟩, ⟨.src, 1, b⟩]
  | .max _ _ d a b => [⟨.dst, 1, d⟩, ⟨.src, 1, a⟩, ⟨.src, 1, b⟩]
  | .mad _ _ d a b c => [⟨.dst, 1, d⟩, ⟨.src, 1, a⟩, ⟨.src, 1, b⟩, ⟨.src, 1, c⟩]
  | .madw _ _ d a b c => [⟨.dst, 2, d⟩, ⟨.src, 1, a⟩, ⟨.src, 1, b⟩, ⟨.src, 2, c⟩]
  | .addc _ d a b c => [⟨.dst, 2, d⟩, ⟨.src, 1, a⟩, ⟨.src, 1, b⟩, ⟨.src, 1, c⟩]
  | .subb _ d a b c => [⟨.dst, 2, d⟩, ⟨.src, 1, a⟩, ⟨.src, 1, b⟩, ⟨.src, 1, c⟩]
  | .abs _ _ d a => [⟨.dst, 1, d⟩, ⟨.src, 1, a⟩]
  | .neg _ _ d a => [⟨.dst, 1, d⟩, ⟨.src, 1, a⟩]
  | .addImm _ d a _ => [⟨.dst, 1, d⟩, ⟨.src, 1, a⟩]
  | .subImm _ d a _ => [⟨.dst, 1, d⟩, ⟨.src, 1, a⟩]
  | .mulImm _ d a _ => [⟨.dst, 1, d⟩, ⟨.src, 1, a⟩]
  | .mulhImm _ d a _ => [⟨.dst, 1, d⟩, ⟨.src, 1, a⟩]
  | .minImm _ d a _ => [⟨.dst, 1, d⟩, ⟨.src, 1, a⟩]
  | .maxImm _ d a _ => [⟨.dst, 1, d⟩, ⟨.src, 1, a⟩]
  | .andImm _ d a _ => [⟨.dst, 1, d⟩, ⟨.src, 1, a⟩]
  | .orImm _ d a _ => [⟨.dst, 1, d⟩, ⟨.src, 1, a⟩]
  | .xorImm _ d a _ => [⟨.dst, 1, d⟩, ⟨.src, 1, a⟩]
  | .andnImm _ d a _ => [⟨.dst, 1, d⟩, ⟨.src, 1, a⟩]
  | .shlImm _ d a _ => [⟨.dst, 1, d⟩, ⟨.src, 1, a⟩]
  | .shrImm _ d a _ => [⟨.dst, 1, d⟩, ⟨.src, 1, a⟩]
  | .sarImm _ d a _ => [⟨.dst, 1, d⟩, ⟨.src, 1, a⟩]
  | .rotImm _ d a _ => [⟨.dst, 1, d⟩, ⟨.src, 1, a⟩]
  | .and _ d a b => [⟨.dst, 1, d⟩, ⟨.src, 1, a⟩, ⟨.src, 1, b⟩]
  | .or _ d a b => [⟨.dst, 1, d⟩, ⟨.src, 1, a⟩, ⟨.src, 1, b⟩]
  | .xor _ d a b => [⟨.dst, 1, d⟩, ⟨.src, 1, a⟩, ⟨.src, 1, b⟩]
  | .andn _ d a b => [⟨.dst, 1, d⟩, ⟨.src, 1, a⟩, ⟨.src, 1, b⟩]
  | .shl _ d a b => [⟨.dst, 1, d⟩, ⟨.src, 1, a⟩, ⟨.src, 1, b⟩]
  | .shr _ d a b => [⟨.dst, 1, d⟩, ⟨.src, 1, a⟩, ⟨.src, 1, b⟩]
  | .sar _ d a b => [⟨.dst, 1, d⟩, ⟨.src, 1, a⟩, ⟨.src, 1, b⟩]
  | .rot _ d a b => [⟨.dst, 1, d⟩, ⟨.src, 1, a⟩, ⟨.src, 1, b⟩]
  | .not _ d a => [⟨.dst, 1, d⟩, ⟨.src, 1, a⟩]
  | .shf _ d a b c => [⟨.dst, 1, d⟩, ⟨.src, 1, a⟩, ⟨.src, 1, b⟩, ⟨.src, 1, c⟩]
  | .bfx _ _ d a b => [⟨.dst, 1, d⟩, ⟨.src, 1, a⟩, ⟨.src, 1, b⟩]
  | .bfi _ d a b c => [⟨.dst, 1, d⟩, ⟨.src, 1, a⟩, ⟨.src, 1, b⟩, ⟨.src, 1, c⟩]
  | .popc _ d a => [⟨.dst, 1, d⟩, ⟨.src, 1, a⟩]
  | .clz _ d a => [⟨.dst, 1, d⟩, ⟨.src, 1, a⟩]
  | .ctz _ d a => [⟨.dst, 1, d⟩, ⟨.src, 1, a⟩]
  | .brev _ d a => [⟨.dst, 1, d⟩, ⟨.src, 1, a⟩]
  | .fclass _ d a => [⟨.dst, 1, d⟩, ⟨.src, 1, a⟩]
  | .sfe2 _ d a => [⟨.dst, 1, d⟩, ⟨.src, 1, a⟩]
  | .sfl2 _ d a => [⟨.dst, 1, d⟩, ⟨.src, 1, a⟩]
  | .sfrcp _ d a => [⟨.dst, 1, d⟩, ⟨.src, 1, a⟩]
  | .sfrsq _ d a => [⟨.dst, 1, d⟩, ⟨.src, 1, a⟩]
  | .sfsqr _ d a => [⟨.dst, 1, d⟩, ⟨.src, 1, a⟩]
  | .sfsin _ d a => [⟨.dst, 1, d⟩, ⟨.src, 1, a⟩]
  | .sfcos _ d a => [⟨.dst, 1, d⟩, ⟨.src, 1, a⟩]
  | .sftanh _ d a => [⟨.dst, 1, d⟩, ⟨.src, 1, a⟩]
  | .sfsig _ d a => [⟨.dst, 1, d⟩, ⟨.src, 1, a⟩]
  | .sfsilu _ d a => [⟨.dst, 1, d⟩, ⟨.src, 1, a⟩]
  | .sel _ d a b c => [⟨.dst, 1, d⟩, ⟨.src, 1, a⟩, ⟨.src, 1, b⟩, ⟨.src, 1, c⟩]
  | .cmp _ _ d a b => [⟨.dst, 1, d⟩, ⟨.src, 1, a⟩, ⟨.src, 1, b⟩]
  | .lea _ _ _ d a b => [⟨.dst, 2, d⟩, ⟨.src, 2, a⟩, ⟨.src, 1, b⟩]
  | .mov _ w d a => if w then [⟨.dst, 2, d⟩, ⟨.src, 2, a⟩] else [⟨.dst, 1, d⟩, ⟨.src, 1, a⟩]
  | .cmpImm _ _ d a _ => [⟨.dst, 1, d⟩, ⟨.src, 1, a⟩]
  | .leaImm _ d a _ => [⟨.dst, 2, d⟩, ⟨.src, 2, a⟩]
  | .movi _ d _ => [⟨.dst, 1, d⟩]
  | .shfl _ _ _ d a b => [⟨.dst, 1, d⟩, ⟨.src, 1, a⟩, ⟨.src, 1, b⟩]
  | .vote _ _ d a => [⟨.dst, 1, d⟩, ⟨.src, 1, a⟩]
  | .rdsr _ d _ => [⟨.dst, 1, d⟩]
  | .wrsr _ a _ => [⟨.src, 1, a⟩]
  | .fadd _ d a b => [⟨.dst, 1, d⟩, ⟨.src, 1, a⟩, ⟨.src, 1, b⟩]
  | .fsub _ d a b => [⟨.dst, 1, d⟩, ⟨.src, 1, a⟩, ⟨.src, 1, b⟩]
  | .fmul _ d a b => [⟨.dst, 1, d⟩, ⟨.src, 1, a⟩, ⟨.src, 1, b⟩]
  | .fscale _ d a b => [⟨.dst, 1, d⟩, ⟨.src, 1, a⟩, ⟨.src, 1, b⟩]
  | .ffma _ d a b c => [⟨.dst, 1, d⟩, ⟨.src, 1, a⟩, ⟨.src, 1, b⟩, ⟨.src, 1, c⟩]
  | .fmin _ _ d a b => [⟨.dst, 1, d⟩, ⟨.src, 1, a⟩, ⟨.src, 1, b⟩]
  | .fmax _ _ d a b => [⟨.dst, 1, d⟩, ⟨.src, 1, a⟩, ⟨.src, 1, b⟩]
  | .fcmp _ _ d a b => [⟨.dst, 1, d⟩, ⟨.src, 1, a⟩, ⟨.src, 1, b⟩]
  | .fpack _ _ d a b => [⟨.dst, 1, d⟩, ⟨.src, 1, a⟩, ⟨.src, 1, b⟩]
  | .fcvt _ _ _ d a => [⟨.dst, 1, d⟩, ⟨.src, 1, a⟩]
  | .frnd _ _ d a => [⟨.dst, 1, d⟩, ⟨.src, 1, a⟩]
  | .fdot2 _ _ d a b c => [⟨.dst, 1, d⟩, ⟨.src, 1, a⟩, ⟨.src, 1, b⟩, ⟨.src, 1, c⟩]
  | .fdot4 _ _ d a b c => [⟨.dst, 1, d⟩, ⟨.src, 1, a⟩, ⟨.src, 1, b⟩, ⟨.src, 1, c⟩]
  | .topkGroup _ _ _ _ a b c => [⟨.src, 1, a⟩, ⟨.src, 1, b⟩, ⟨.src, 1, c⟩]
  | .topkRow _ _ _ d a b c => [⟨.dst, 1, d⟩, ⟨.src, 1, a⟩, ⟨.src, 1, b⟩, ⟨.src, 1, c⟩]
  | .tment _ d a => [⟨.dst, 3, d⟩, ⟨.src, 1, a⟩]
  | .tmred _ d a => [⟨.dst, 3, d⟩, ⟨.src, 3, a⟩]
  | .tmmrg _ d a b => [⟨.dst, 3, d⟩, ⟨.src, 3, a⟩, ⟨.src, 3, b⟩]
  | .tmscl _ d a b => [⟨.dst, 1, d⟩, ⟨.src, 3, a⟩, ⟨.src, 3, b⟩]
  | .tmext _ d a => [⟨.dst, 1, d⟩, ⟨.src, 3, a⟩]
  | .tmld _ _ a _ => [⟨.src, 2, a⟩]
  | .cvtq _ _ _ d a b c => [⟨.dst, 1, d⟩, ⟨.src, 1, a⟩, ⟨.src, 1, b⟩, ⟨.src, 1, c⟩]
  | .rquant _ _ d a b c => [⟨.dst, 1, d⟩, ⟨.src, 1, a⟩, ⟨.src, 1, b⟩, ⟨.src, 1, c⟩]
  | .bscale _ _ _ d a => [⟨.dst, 1, d⟩, ⟨.src, 1, a⟩]
  | .ld _ sz tm _ d a _ => ⟨.dst, sz.regs, d⟩ :: ⟨.src, 2, a⟩ :: statUse tm sz d
  | .st _ sz tm _ d a _ => ⟨.src, sz.regs, d⟩ :: ⟨.src, 2, a⟩ :: statUse tm sz d
  | .lds _ sz _ d a _ => [⟨.dst, sz.regs, d⟩, ⟨.src, 1, a⟩]
  | .sts _ sz _ d a _ => [⟨.src, sz.regs, d⟩, ⟨.src, 1, a⟩]
  | .ldt _ _ _ d a _ => [⟨.src, 1, d⟩, ⟨.src, 2, a⟩]
  | .stt _ _ _ d a _ => [⟨.src, 1, d⟩, ⟨.src, 2, a⟩]
  | .atom _ op ty _ d a b => ⟨.dst, ty.regs, d⟩ :: ⟨.src, 2, a⟩ :: ⟨.src, ty.regs, b⟩ :: (if op = .cas then [⟨.src, ty.regs, d⟩] else [])
  | .red _ _ ty _ a b => [⟨.src, 2, a⟩, ⟨.src, ty.regs, b⟩]
  | .fence _ _ _ => []
  | .prf _ _ _ a _ => [⟨.src, 2, a⟩]
  | .gjoin _ a => [⟨.src, 1, a⟩]
  | .fibld _ _ d a b => [⟨.dst, 1, d⟩, ⟨.src, 1, a⟩, ⟨.src, 1, b⟩]
  | .fibprb _ m d a => ⟨.dst, 2, d⟩ :: ⟨.src, 1, a⟩ :: (match m with | some k => [⟨.src, 1, k⟩] | none => [])
  | .mma _ _ _ a b _ _ => [⟨.src, 1, a⟩, ⟨.src, 1, b⟩]
  | .mmas _ _ _ a b m _ _ => [⟨.src, 1, a⟩, ⟨.src, 1, b⟩, ⟨.src, 1, m⟩]
  | .mmaj _ _ _ _ a b _ _ => [⟨.src, 1, a⟩, ⟨.src, 1, b⟩]
  | .mmx _ a => [⟨.src, 2, a⟩]
  | .mmr _ a => [⟨.src, 2, a⟩]
  | .tdrain _ _ _ _ _ _ _ a b _ => [⟨.src, 2, a⟩, ⟨.src, 1, b⟩]
  | .tzero _ _ _ _ => []
  | .cpy _ ds ss a b c => [⟨.src, if ds then 1 else 2, a⟩, ⟨.src, if ss then 1 else 2, b⟩, ⟨.src, 1, c⟩]
  | .cpyp _ a b c => [⟨.src, 2, a⟩, ⟨.src, 2, b⟩, ⟨.src, 1, c⟩]
  | .qfence _ _ s d => if s.r then [⟨.dst, 4, d⟩] else []
  | .qpost _ _ a => [⟨.src, 1, a⟩]
  | .rlinv _ _ a => [⟨.src, 2, a⟩]
  | .ctrset _ a b => [⟨.src, 1, a⟩, ⟨.src, 1, b⟩]
  | .ctradd _ a b => [⟨.src, 1, a⟩, ⟨.src, 1, b⟩]
  | .ctrwait _ a b => [⟨.src, 1, a⟩, ⟨.src, 1, b⟩]
  | .stcfg _ _ a => [⟨.src, 2, a⟩]
  | .rwait _ _ d => [⟨.dst, 2, d⟩]
  | .rdone _ _ a => [⟨.src, 1, a⟩]
  | .rclose _ _ => []
  | .sigld _ _ a b => [⟨.src, 2, a⟩, ⟨.src, 1, b⟩]
  | .kstore _ _ _ _ a b c => [⟨.src, 1, a⟩, ⟨.src, 2, b⟩, ⟨.src, 1, c⟩]
  | .qsig _ _ d b => [⟨.dst, 1, d⟩, ⟨.src, 1, b⟩]
  | .bprobe _ _ _ d b c => [⟨.dst, 1, d⟩, ⟨.src, 2, b⟩, ⟨.src, 2, c⟩]
  | .trap _ _ => []
  | .sysc _ _ => []
  | .sig _ _ a b => [⟨.src, 1, a⟩, ⟨.src, 1, b⟩]
  | .csave _ d a => [⟨.dst, 1, d⟩, ⟨.src, 1, a⟩]
  | .crest _ a b => [⟨.src, 1, a⟩, ⟨.src, 1, b⟩]
  | .rdclk _ d => [⟨.dst, 2, d⟩]
  | _ => []

/-- The fields STALL, FLAG and LOOK of an instruction word; the steps of the package have none. -/
def Instr.hdr : Instr → Option Hdr
  | .bra h _ => some h
  | .brz h _ _ => some h
  | .brnz h _ _ => some h
  | .brx h _ => some h
  | .callDirect h _ => some h
  | .callReg h _ => some h
  | .ret h => some h
  | .reform h => some h
  | .yield h => some h
  | .exit h => some h
  | .join h => some h
  | .nop h => some h
  | .gleave h => some h
  | .tret h => some h
  | .tretEnd h => some h
  | .bar h _ _ _ => some h
  | .bara h _ _ _ => some h
  | .barw h _ _ => some h
  | .spawn h _ _ _ _ => some h
  | .brk h _ => some h
  | .add h _ _ _ _ => some h
  | .sub h _ _ _ _ => some h
  | .mul h _ _ _ _ => some h
  | .mulh h _ _ _ _ => some h
  | .min h _ _ _ _ => some h
  | .max h _ _ _ _ => some h
  | .mad h _ _ _ _ _ => some h
  | .madw h _ _ _ _ _ => some h
  | .addc h _ _ _ _ => some h
  | .subb h _ _ _ _ => some h
  | .abs h _ _ _ => some h
  | .neg h _ _ _ => some h
  | .addImm h _ _ _ => some h
  | .subImm h _ _ _ => some h
  | .mulImm h _ _ _ => some h
  | .mulhImm h _ _ _ => some h
  | .minImm h _ _ _ => some h
  | .maxImm h _ _ _ => some h
  | .andImm h _ _ _ => some h
  | .orImm h _ _ _ => some h
  | .xorImm h _ _ _ => some h
  | .andnImm h _ _ _ => some h
  | .shlImm h _ _ _ => some h
  | .shrImm h _ _ _ => some h
  | .sarImm h _ _ _ => some h
  | .rotImm h _ _ _ => some h
  | .and h _ _ _ => some h
  | .or h _ _ _ => some h
  | .xor h _ _ _ => some h
  | .andn h _ _ _ => some h
  | .shl h _ _ _ => some h
  | .shr h _ _ _ => some h
  | .sar h _ _ _ => some h
  | .rot h _ _ _ => some h
  | .not h _ _ => some h
  | .shf h _ _ _ _ => some h
  | .bfx h _ _ _ _ => some h
  | .bfi h _ _ _ _ => some h
  | .popc h _ _ => some h
  | .clz h _ _ => some h
  | .ctz h _ _ => some h
  | .brev h _ _ => some h
  | .fclass h _ _ => some h
  | .sfe2 h _ _ => some h
  | .sfl2 h _ _ => some h
  | .sfrcp h _ _ => some h
  | .sfrsq h _ _ => some h
  | .sfsqr h _ _ => some h
  | .sfsin h _ _ => some h
  | .sfcos h _ _ => some h
  | .sftanh h _ _ => some h
  | .sfsig h _ _ => some h
  | .sfsilu h _ _ => some h
  | .sel h _ _ _ _ => some h
  | .cmp h _ _ _ _ => some h
  | .lea h _ _ _ _ _ => some h
  | .mov h _ _ _ => some h
  | .cmpImm h _ _ _ _ => some h
  | .leaImm h _ _ _ => some h
  | .movi h _ _ => some h
  | .shfl h _ _ _ _ _ => some h
  | .vote h _ _ _ => some h
  | .rdsr h _ _ => some h
  | .wrsr h _ _ => some h
  | .fadd h _ _ _ => some h
  | .fsub h _ _ _ => some h
  | .fmul h _ _ _ => some h
  | .fscale h _ _ _ => some h
  | .ffma h _ _ _ _ => some h
  | .fmin h _ _ _ _ => some h
  | .fmax h _ _ _ _ => some h
  | .fcmp h _ _ _ _ => some h
  | .fpack h _ _ _ _ => some h
  | .fcvt h _ _ _ _ => some h
  | .frnd h _ _ _ => some h
  | .fdot2 h _ _ _ _ _ => some h
  | .fdot4 h _ _ _ _ _ => some h
  | .topkGroup h _ _ _ _ _ _ => some h
  | .topkRow h _ _ _ _ _ _ => some h
  | .tment h _ _ => some h
  | .tmred h _ _ => some h
  | .tmmrg h _ _ _ => some h
  | .tmscl h _ _ _ => some h
  | .tmext h _ _ => some h
  | .tmld h _ _ _ => some h
  | .cvtq h _ _ _ _ _ _ => some h
  | .rquant h _ _ _ _ _ => some h
  | .bscale h _ _ _ _ => some h
  | .ld h _ _ _ _ _ _ => some h
  | .st h _ _ _ _ _ _ => some h
  | .lds h _ _ _ _ _ => some h
  | .sts h _ _ _ _ _ => some h
  | .ldt h _ _ _ _ _ => some h
  | .stt h _ _ _ _ _ => some h
  | .atom h _ _ _ _ _ _ => some h
  | .red h _ _ _ _ _ => some h
  | .fence h _ _ => some h
  | .prf h _ _ _ _ => some h
  | .gjoin h _ => some h
  | .fibld h _ _ _ _ => some h
  | .fibprb h _ _ _ => some h
  | .mma h _ _ _ _ _ _ => some h
  | .mmas h _ _ _ _ _ _ _ => some h
  | .mmaj h _ _ _ _ _ _ _ => some h
  | .mmx h _ => some h
  | .mmr h _ => some h
  | .tdrain h _ _ _ _ _ _ _ _ _ => some h
  | .tzero h _ _ _ => some h
  | .cpy h _ _ _ _ _ => some h
  | .cpyp h _ _ _ => some h
  | .qfence h _ _ _ => some h
  | .qpost h _ _ => some h
  | .rlinv h _ _ => some h
  | .ctrset h _ _ => some h
  | .ctradd h _ _ => some h
  | .ctrwait h _ _ => some h
  | .stcfg h _ _ => some h
  | .rwait h _ _ => some h
  | .rdone h _ _ => some h
  | .rclose h _ => some h
  | .sigld h _ _ _ => some h
  | .kstore h _ _ _ _ _ _ => some h
  | .qsig h _ _ _ => some h
  | .bprobe h _ _ _ _ _ => some h
  | .trap h _ => some h
  | .sysc h _ => some h
  | .sig h _ _ _ => some h
  | .csave h _ _ => some h
  | .crest h _ _ => some h
  | .rdclk h _ => some h
  | _ => none

/-- The engine port an instruction needs (spec/10 R280, spec/16 R388). The instructions that need one are the
long-latency ones (spec/10 R274). -/
def Instr.port : Instr → Option Port
  | .sfe2 _ _ _ => some .sf
  | .sfl2 _ _ _ => some .sf
  | .sfrcp _ _ _ => some .sf
  | .sfrsq _ _ _ => some .sf
  | .sfsqr _ _ _ => some .sf
  | .sfsin _ _ _ => some .sf
  | .sfcos _ _ _ => some .sf
  | .sftanh _ _ _ => some .sf
  | .sfsig _ _ _ => some .sf
  | .sfsilu _ _ _ => some .sf
  | .topkGroup _ _ _ _ _ _ _ => some .sf
  | .topkRow _ _ _ _ _ _ _ => some .sf
  | .tment _ _ _ => some .sf
  | .tmred _ _ _ => some .sf
  | .tmmrg _ _ _ _ => some .sf
  | .tmscl _ _ _ _ => some .sf
  | .tmext _ _ _ => some .sf
  | .tmld _ _ _ _ => some .sf
  | .cvtq _ _ _ _ _ _ _ => some .sf
  | .rquant _ _ _ _ _ _ => some .sf
  | .bscale _ _ _ _ _ => some .sf
  | .ld _ _ _ _ _ _ _ => some .mem
  | .st _ _ _ _ _ _ _ => some .mem
  | .lds _ _ _ _ _ _ => some .mem
  | .sts _ _ _ _ _ _ => some .mem
  | .ldt _ _ _ _ _ _ => some .mem
  | .stt _ _ _ _ _ _ => some .mem
  | .atom _ _ _ _ _ _ _ => some .mem
  | .red _ _ _ _ _ _ => some .mem
  | .fence _ _ _ => some .mem
  | .prf _ _ _ _ _ => some .mem
  | .gjoin _ _ => some .mem
  | .gleave _ => some .mem
  | .fibld _ _ _ _ _ => some .mem
  | .fibprb _ _ _ _ => some .mem
  | .mma _ _ _ _ _ _ _ => some .mat
  | .mmas _ _ _ _ _ _ _ _ => some .mat
  | .mmaj _ _ _ _ _ _ _ _ => some .mat
  | .tdrain _ _ _ _ _ _ _ _ _ _ => some .mat
  | .tzero _ _ _ _ => some .mat
  | .mmx _ _ => some .async
  | .mmr _ _ => some .async
  | .cpy _ _ _ _ _ _ => some .async
  | .cpyp _ _ _ _ => some .async
  | .qfence _ _ _ _ => some .async
  | .qpost _ _ _ => some .async
  | .rlinv _ _ _ => some .async
  | .ctrset _ _ _ => some .async
  | .ctradd _ _ _ => some .async
  | .ctrwait _ _ _ => some .async
  | .stcfg _ _ _ => some .async
  | .rwait _ _ _ => some .async
  | .rdone _ _ _ => some .async
  | .rclose _ _ => some .async
  | .sigld _ _ _ _ => some .async
  | .kstore _ _ _ _ _ _ _ => some .async
  | .qsig _ _ _ _ => some .async
  | .bprobe _ _ _ _ _ _ => some .async
  | _ => none

/-- The instructions that end their clause (spec/05 R150). -/
def Instr.endsClause : Instr → Bool
  | .bra _ _ => true
  | .brz _ _ _ => true
  | .brnz _ _ _ => true
  | .brx _ _ => true
  | .callDirect _ _ => true
  | .callReg _ _ => true
  | .ret _ => true
  | .reform _ => true
  | .yield _ => true
  | .exit _ => true
  | .bar _ _ _ _ => true
  | .bara _ _ _ _ => true
  | .barw _ _ _ => true
  | .spawn _ _ _ _ _ => true
  | .join _ => true
  | .sysc _ _ => true
  | .tret _ => true
  | .tretEnd _ => true
  | _ => false

/-- The types `fcvt` takes (spec/14 R344): not both integer. -/
def fcvtOk (dt st : FType) : Bool :=
  !((dt == .i32 || dt == .n32) && (st == .i32 || st == .n32))

/-- The combinations of OP and TYPE of spec/15 R370. -/
def atomOk (op : AOp) (ty : AType) : Bool :=
  match op, ty with
  | .add, _ => true
  | .min, .b64 | .max, .b64 => false
  | .min, _ | .max, _ => true
  | _, .f32 => false
  | _, _ => true

/-- `red` has neither `xchg` nor `cas` (spec/15 R370). -/
def redOk (op : AOp) (ty : AType) : Bool :=
  atomOk op ty && op != .xchg && op != .cas

/-- Highest barrier number of a level (spec/04 R130, spec/12 R297). -/
def barTop (lvl : Nat) : Nat :=
  if lvl = 0 then 3 else if lvl = 1 then 31 else if lvl = 2 then 15 else if lvl = 3 then 15 else 7

/-- LEVEL and NUM of a barrier (spec/12 R297). -/
def barOk (lvl : BitVec 3) (num : BitVec 5) : Bool :=
  lvl.toNat ≤ 4 && num.toNat ≤ barTop lvl.toNat

/-- At LEVEL 4 the count comes from a register (spec/12 R297). -/
def barCntOk (lvl : BitVec 3) (num : BitVec 5) (c : BarCnt) : Bool :=
  barOk lvl num && (match c with
    | .imm _ => lvl.toNat ≠ 4
    | .reg k => k ≠ .zero)

/-- A `qfence` names a queue, R needs P, the queue field is zero unless P is set, and D stands only with R
(spec/17 R407, R414; spec/10 R277). -/
def qsetOk (q : BitVec 6) (s : QSet) : Bool :=
  (s.c || s.m || s.s || s.p || s.a) && (!s.r || s.p) && (s.p || q == 0)

/-- The checks of an instruction's other fields, those that take cause 0x02. -/
def Instr.modsOk : Instr → Bool
  | .fcvt _ dt sty _ _ => fcvtOk dt sty
  | .atom _ op ty _ _ _ _ => atomOk op ty
  | .red _ op ty _ _ _ => redOk op ty
  | .bar _ l n c | .bara _ l n c => barCntOk l n c
  | .barw _ l n => barOk l n
  | .qfence _ q s d => qsetOk q s && (s.r || d == .zero)
  | .ldt _ sz _ _ _ _ | .stt _ sz _ _ _ _ => sz != 7
  | _ => true

/-- FLAG is 0 to 12, and LOOK is zero in an instruction that needs no port (spec/10 R270, R274). -/
def Instr.hdrOk (i : Instr) : Bool :=
  match i.hdr with
  | some h => h.flag.toNat ≤ 12 && (i.port.isSome || h.look == 0)
  | none => true

/-- The static operand checks. -/
def Instr.specsOk (i : Instr) : Bool := i.uses.all OpUse.ok

/-- An instruction word: it has the header fields; the others are steps of the package. -/
def Instr.isWord (i : Instr) : Bool := i.hdr.isSome

/-- WELL FORMED: an instruction word that passes every static check. -/
def Instr.wf (i : Instr) : Bool := i.isWord && i.hdrOk && i.modsOk && i.specsOk

end Sys2Proof
end

