-- ==== Sys2Proof/Decode.lean ====
section
/-! DEFINITION. The decoder of spec/10 (R266-R284), total on every word, and the encoder written from the same tables. -/

namespace Sys2Proof

/-- Bits `lo` to `lo + n - 1` of a number. -/
def fld (b lo n : Nat) : BitVec n := BitVec.ofNat n (b / 2 ^ lo)

/-- One bit of a number. -/
def bit (b i : Nat) : Bool := b / 2 ^ i % 2 == 1

/-- Fields of the body formats (spec/10 R275). -/
def fD (b : Nat) : BitVec 9 := fld b 33 9
def fA (b : Nat) : BitVec 9 := fld b 24 9
def fB (b : Nat) : BitVec 9 := fld b 15 9
def fC (b : Nat) : BitVec 9 := fld b 6 9
def fM (b : Nat) : Nat := (fld b 0 6).toNat
def fI (b : Nat) : BitVec 24 := fld b 0 24
def fOff (b : Nat) : BitVec 15 := fld b 9 15
def fSc (b : Nat) : BitVec 3 := fld b 6 3
def fX (b : Nat) : BitVec 6 := fld b 36 6
def fXa (b : Nat) : BitVec 9 := fld b 27 9
def fXb (b : Nat) : BitVec 9 := fld b 18 9
def fXsA (b : Nat) : BitVec 3 := fld b 15 3
def fXsB (b : Nat) : BitVec 3 := fld b 12 3
def fXp (b : Nat) : BitVec 3 := fld b 9 3
def fXm (b : Nat) : BitVec 9 := fld b 0 9
def fQc (b : Nat) : BitVec 9 := fld b 9 9

/-- The bodies the encoder lays out (spec/10 R275). -/
def bodyA (d a b c : BitVec 9) (m : BitVec 6) : Nat :=
  d.toNat * 2 ^ 33 + a.toNat * 2 ^ 24 + b.toNat * 2 ^ 15 + c.toNat * 2 ^ 6 + m.toNat
def bodyI (d a : BitVec 9) (i : BitVec 24) : Nat := d.toNat * 2 ^ 33 + a.toNat * 2 ^ 24 + i.toNat
def bodyL (d : BitVec 9) (i : BitVec 32) : Nat := d.toNat * 2 ^ 33 + i.toNat
def bodyM (d a : BitVec 9) (off : BitVec 15) (sc : BitVec 3) (m : BitVec 6) : Nat :=
  d.toNat * 2 ^ 33 + a.toNat * 2 ^ 24 + off.toNat * 2 ^ 9 + sc.toNat * 2 ^ 6 + m.toNat
def bodyX (acc : BitVec 6) (a b : BitVec 9) (sA sB p : BitVec 3) (m : BitVec 9) : Nat :=
  acc.toNat * 2 ^ 36 + a.toNat * 2 ^ 27 + b.toNat * 2 ^ 18 + sA.toNat * 2 ^ 15 + sB.toNat * 2 ^ 12
    + p.toNat * 2 ^ 9 + m.toNat
def bodyB (r : BitVec 9) (off : BitVec 33) : Nat := r.toNat * 2 ^ 33 + off.toNat
def bodyQ (q : BitVec 6) (a b c m : BitVec 9) : Nat :=
  q.toNat * 2 ^ 36 + a.toNat * 2 ^ 27 + b.toNat * 2 ^ 18 + c.toNat * 2 ^ 9 + m.toNat

/-- An operand specifier (spec/10 R276); the values 0x10B to 0x1FF are reserved. -/
def sp (n : BitVec 9) : Option Spec :=
  if n.toNat < 256 then some (.v (BitVec.ofNat 8 n.toNat))
  else if n.toNat < 264 then some (.c (BitVec.ofNat 3 (n.toNat - 256)))
  else if n.toNat = 264 then some .x0
  else if n.toNat = 265 then some .x1
  else if n.toNat = 266 then some .zero
  else none

/-- The value of a specifier (spec/10 R276). -/
def Spec.bits : Spec → BitVec 9
  | .v n => BitVec.ofNat 9 n.toNat
  | .c k => BitVec.ofNat 9 (256 + k.toNat)
  | .x0 => 264
  | .x1 => 265
  | .zero => 266

/-- An operand field the minor does not use holds 0x10A (spec/10 R277). -/
def nil (n : BitVec 9) : Option Unit := if n = 266 then some () else none

/-- The specifier of an unused field. -/
abbrev noOp : BitVec 9 := 266

/-- What the per-major decoders answer: `none` for cause 0x02, `some none` for cause 0x05, else the instruction. -/
abbrev Dec := Option (Option Instr)

/-- A check that takes cause 0x02 (spec/10 R279, order 4), then the operand fields (order 6). -/
def chk (c : Bool) (r : Option Instr) : Dec := if c then some r else none

/-- Destination and sources of format A, the unused ones 0x10A. -/
def a4 (b : Nat) (k : Spec → Spec → Spec → Spec → Instr) : Option Instr := do
  return k (← sp (fD b)) (← sp (fA b)) (← sp (fB b)) (← sp (fC b))
def a3 (b : Nat) (k : Spec → Spec → Spec → Instr) : Option Instr := do
  nil (fC b); return k (← sp (fD b)) (← sp (fA b)) (← sp (fB b))
def a2 (b : Nat) (k : Spec → Spec → Instr) : Option Instr := do
  nil (fB b); nil (fC b); return k (← sp (fD b)) (← sp (fA b))
def a0 (b : Nat) (i : Instr) : Option Instr := do
  nil (fD b); nil (fA b); nil (fB b); nil (fC b); return i
/-- Format A with the destination unused and one, two or three sources. -/
def s1 (b : Nat) (k : Spec → Instr) : Option Instr := do
  nil (fD b); nil (fB b); nil (fC b); return k (← sp (fA b))
def s2 (b : Nat) (k : Spec → Spec → Instr) : Option Instr := do
  nil (fD b); nil (fC b); return k (← sp (fA b)) (← sp (fB b))
def s3 (b : Nat) (k : Spec → Spec → Spec → Instr) : Option Instr := do
  nil (fD b); return k (← sp (fA b)) (← sp (fB b)) (← sp (fC b))
/-- Destination alone. -/
def d1 (b : Nat) (k : Spec → Instr) : Option Instr := do
  nil (fA b); nil (fB b); nil (fC b); return k (← sp (fD b))
/-- Destination and source of formats I and M; neither. -/
def i2 (b : Nat) (k : Spec → Spec → Instr) : Option Instr := do return k (← sp (fD b)) (← sp (fA b))
def i0 (b : Nat) (i : Instr) : Option Instr := do nil (fD b); nil (fA b); return i
/-- Operands a, b, c of formats X and Q. -/
def q3 (b : Nat) (k : Spec → Spec → Spec → Instr) : Option Instr := do
  return k (← sp (fXa b)) (← sp (fXb b)) (← sp (fQc b))
def q2 (b : Nat) (k : Spec → Spec → Instr) : Option Instr := do
  nil (fQc b); return k (← sp (fXa b)) (← sp (fXb b))
def q1 (b : Nat) (k : Spec → Instr) : Option Instr := do
  nil (fXb b); nil (fQc b); return k (← sp (fXa b))
def q0 (b : Nat) (i : Instr) : Option Instr := do
  nil (fXa b); nil (fXb b); nil (fQc b); return i
def x2 (b : Nat) (k : Spec → Spec → Instr) : Option Instr := do return k (← sp (fXa b)) (← sp (fXb b))

/-- Codes of spec/13 R320. -/
def Sat.code : Sat → Nat
  | .wrap => 0
  | .i32 => 2
  | .n32 => 3
def Sat.ofCode : Nat → Option Sat
  | 0 => some .wrap
  | 2 => some .i32
  | 3 => some .n32
  | _ => none

/-- Codes of spec/13 R327. -/
def Cond.code : Cond → Nat
  | .eq => 0
  | .ne => 1
  | .lt => 2
  | .le => 3
  | .gt => 4
  | .ge => 5
  | .ltu => 6
  | .leu => 7
  | .gtu => 8
  | .geu => 9
def Cond.ofCode : Nat → Option Cond
  | 0 => some .eq
  | 1 => some .ne
  | 2 => some .lt
  | 3 => some .le
  | 4 => some .gt
  | 5 => some .ge
  | 6 => some .ltu
  | 7 => some .leu
  | 8 => some .gtu
  | 9 => some .geu
  | _ => none

/-- Codes of spec/14 R342. -/
def FCond.code : FCond → Nat
  | .eq => 0
  | .ne => 1
  | .lt => 2
  | .le => 3
  | .gt => 4
  | .ge => 5
  | .un => 6
  | .num => 7
def FCond.ofCode : Nat → Option FCond
  | 0 => some .eq
  | 1 => some .ne
  | 2 => some .lt
  | 3 => some .le
  | 4 => some .gt
  | 5 => some .ge
  | 6 => some .un
  | 7 => some .num
  | _ => none

/-- Codes of spec/13 R330. -/
def ShMode.code : ShMode → Nat
  | .idx => 0
  | .up => 1
  | .down => 2
  | .xor => 3
def ShMode.ofCode : Nat → Option ShMode
  | 0 => some .idx
  | 1 => some .up
  | 2 => some .down
  | 3 => some .xor
  | _ => none

/-- Codes of spec/13 R330. -/
def VoteKind.code : VoteKind → Nat
  | .ballot => 0
  | .any => 1
  | .all => 2
  | .eq => 3
def VoteKind.ofCode : Nat → Option VoteKind
  | 0 => some .ballot
  | 1 => some .any
  | 2 => some .all
  | 3 => some .eq
  | _ => none

/-- Codes of spec/14 R344. -/
def FType.code : FType → Nat
  | .f32 => 0
  | .f16 => 1
  | .bf16 => 2
  | .fp19 => 3
  | .i32 => 4
  | .n32 => 5
def FType.ofCode : Nat → Option FType
  | 0 => some .f32
  | 1 => some .f16
  | 2 => some .bf16
  | 3 => some .fp19
  | 4 => some .i32
  | 5 => some .n32
  | _ => none

/-- Codes of spec/14 R344. -/
def RndMode.code : RndMode → Nat
  | .cur => 0
  | .rn => 1
  | .rz => 2
  | .up => 3
  | .dn => 4
def RndMode.ofCode : Nat → Option RndMode
  | 0 => some .cur
  | 1 => some .rn
  | 2 => some .rz
  | 3 => some .up
  | 4 => some .dn
  | _ => none

/-- Codes of spec/14 R354. -/
def QSrc.code : QSrc → Nat
  | .f32 => 0
  | .bf16 => 1
  | .f16 => 2
def QSrc.ofCode : Nat → Option QSrc
  | 0 => some .f32
  | 1 => some .bf16
  | 2 => some .f16
  | _ => none

/-- Codes of spec/14 R351. -/
def TkPat.code : TkPat → Nat
  | .p14 => 0
  | .p24 => 1
  | .p28 => 2
  | .p48 => 3
def TkPat.ofCode : Nat → Option TkPat
  | 0 => some .p14
  | 1 => some .p24
  | 2 => some .p28
  | 3 => some .p48
  | _ => none

/-- Codes of spec/14 R351. -/
def TkWidth.code : TkWidth → Nat
  | .w4 => 0
  | .w8 => 1
  | .w16 => 2
def TkWidth.ofCode : Nat → Option TkWidth
  | 0 => some .w4
  | 1 => some .w8
  | 2 => some .w16
  | _ => none

/-- Codes of spec/14 R351. -/
def TkKind.code : TkKind → Nat
  | .sm => 0
  | .s => 1
  | .u => 2
def TkKind.ofCode : Nat → Option TkKind
  | 0 => some .sm
  | 1 => some .s
  | 2 => some .u
  | _ => none

/-- Codes of spec/15 R362. -/
def MSize.code : MSize → Nat
  | .b32 => 0
  | .i8 => 1
  | .n8 => 2
  | .i16 => 3
  | .n16 => 4
  | .b64 => 5
  | .b128 => 6
def MSize.ofCode : Nat → Option MSize
  | 0 => some .b32
  | 1 => some .i8
  | 2 => some .n8
  | 3 => some .i16
  | 4 => some .n16
  | 5 => some .b64
  | 6 => some .b128
  | _ => none

/-- Codes of spec/15 R370. -/
def AOp.code : AOp → Nat
  | .add => 0
  | .min => 1
  | .max => 2
  | .and => 3
  | .or => 4
  | .xor => 5
  | .xchg => 6
  | .cas => 7
def AOp.ofCode : Nat → Option AOp
  | 0 => some .add
  | 1 => some .min
  | 2 => some .max
  | 3 => some .and
  | 4 => some .or
  | 5 => some .xor
  | 6 => some .xchg
  | 7 => some .cas
  | _ => none

/-- Codes of spec/15 R370. -/
def AType.code : AType → Nat
  | .i32 => 0
  | .n32 => 1
  | .f32 => 2
  | .b64 => 3
def AType.ofCode : Nat → Option AType
  | 0 => some .i32
  | 1 => some .n32
  | 2 => some .f32
  | 3 => some .b64
  | _ => none

/-- Codes of spec/15 R373. -/
def FSem.code : FSem → Nat
  | .ar => 0
  | .rel => 1
  | .acq => 2
def FSem.ofCode : Nat → Option FSem
  | 0 => some .ar
  | 1 => some .rel
  | 2 => some .acq
  | _ => none

/-- Codes of spec/16 R388. -/
def DMode.code : DMode → Nat
  | .ow => 0
  | .add => 1
  | .aon => 2
def DMode.ofCode : Nat → Option DMode
  | 0 => some .ow
  | 1 => some .add
  | 2 => some .aon
  | _ => none

/-- Codes of spec/10 R275. -/
def Scope.code : Scope → Nat
  | .t => 0
  | .q => 1
  | .w => 2
  | .k => 3
  | .g => 4
  | .d => 5
  | .p => 6
  | .x => 7
def Scope.ofCode : Nat → Option Scope
  | 0 => some .t
  | 1 => some .q
  | 2 => some .w
  | 3 => some .k
  | 4 => some .g
  | 5 => some .d
  | 6 => some .p
  | 7 => some .x
  | _ => none

/-- The modifiers a code selects, or cause 0x02; then the operand fields. -/
def opt {α : Type} (c : Option α) (k : α → Option Instr) : Dec := c.map k

/-- The scope of format M and of format Q (spec/10 R275: all eight values are defined). -/
def scM (b : Nat) : Option Scope := Scope.ofCode (fSc b).toNat
def scQ (b : Nat) : Option Scope := Scope.ofCode (b % 8)

/-- LEVEL, NUM and CNT of a barrier's immediate (spec/12 R297). -/
def bLvl (b : Nat) : BitVec 3 := fld b 21 3
def bNum (b : Nat) : BitVec 5 := fld b 16 5
def bCnt (b : Nat) : BitVec 16 := fld b 0 16

/-- `bar` and `bara`: the count in the immediate or in a register (spec/12 R297). -/
def decBar (b : Nat) (k : BarCnt → Instr) : Dec :=
  if fA b = noOp then chk (barOk (bLvl b) (bNum b) && bLvl b ≠ 4) (do nil (fD b); return k (.imm (bCnt b)))
  else chk (barOk (bLvl b) (bNum b) && bCnt b = 0) (do nil (fD b); return k (.reg (← sp (fA b))))

/-- Major 0x00: spec/12 R296. -/
def dec00 (mi : Nat) (h : Hdr) (b : Nat) : Dec :=
  match mi with
  | 0 => chk true (do nil (fD b); return .bra h (fld b 0 33))
  | 1 => chk true (do return .brz h (← sp (fD b)) (fld b 0 33))
  | 2 => chk true (do return .brnz h (← sp (fD b)) (fld b 0 33))
  | _ => none

/-- Major 0x01: spec/12 R296. -/
def dec01 (mi : Nat) (h : Hdr) (b : Nat) : Dec :=
  match mi with
  | 0 => chk (fM b == 0) (s1 b (.brx h))
  | _ => none

/-- Major 0x02: spec/12 R296. -/
def dec02 (mi : Nat) (h : Hdr) (b : Nat) : Dec :=
  match mi with
  | 0 => chk true (do nil (fD b); return .callDirect h (fld b 0 33))
  | 1 => chk (fM b == 0) (s1 b (.callReg h))
  | _ => none

/-- Major 0x03: spec/12 R296. -/
def dec03 (mi : Nat) (h : Hdr) (b : Nat) : Dec :=
  match mi with
  | 0 => chk (fM b == 0) (a0 b (.ret h))
  | 1 => chk (fM b == 0) (a0 b (.reform h))
  | 2 => chk (fM b == 0) (a0 b (.yield h))
  | 3 => chk (fM b == 0) (a0 b (.exit h))
  | _ => none

/-- Major 0x04: spec/12 R296, R297. -/
def dec04 (mi : Nat) (h : Hdr) (b : Nat) : Dec :=
  match mi with
  | 0 => decBar b (.bar h (bLvl b) (bNum b))
  | 1 => decBar b (.bara h (bLvl b) (bNum b))
  | 2 => chk (barOk (bLvl b) (bNum b) && bCnt b == 0) (i0 b (.barw h (bLvl b) (bNum b)))
  | _ => none

/-- Major 0x05: spec/12 R296. -/
def dec05 (mi : Nat) (h : Hdr) (b : Nat) : Dec :=
  match mi with
  | 0 => chk (fM b == 0) (a4 b (.spawn h))
  | 1 => chk (fM b == 0) (a0 b (.join h))
  | _ => none

/-- Major 0x06: spec/12 R296. -/
def dec06 (mi : Nat) (h : Hdr) (b : Nat) : Dec :=
  match mi with
  | 0 => chk (fI b == 0) (i0 b (.nop h))
  | 1 => chk true (i0 b (.brk h (fI b)))
  | _ => none

/-- Major 0x10: spec/13 R320. -/
def dec10 (mi : Nat) (h : Hdr) (b : Nat) : Dec :=
  match mi with
  | 0 => opt (Sat.ofCode (fM b)) (fun m => a3 b (.add h m))
  | 1 => opt (Sat.ofCode (fM b)) (fun m => a3 b (.sub h m))
  | 2 => opt (Sat.ofCode (fM b)) (fun m => a3 b (.mul h m))
  | 3 => chk (decide (fM b < 2)) (a3 b (.mulh h (bit b 0)))
  | 4 => opt (Sat.ofCode (fM b)) (fun m => a4 b (.mad h m))
  | 5 => chk (decide (fM b < 2)) (a4 b (.madw h (bit b 0)))
  | 6 => chk (fM b == 0) (a4 b (.addc h))
  | 7 => chk (fM b == 0) (a4 b (.subb h))
  | 8 => chk (decide (fM b < 2)) (a3 b (.min h (bit b 0)))
  | 9 => chk (decide (fM b < 2)) (a3 b (.max h (bit b 0)))
  | 10 => chk (fM b == 0 || fM b == 2) (a2 b (.abs h (bit b 1)))
  | 11 => chk (fM b == 0 || fM b == 2) (a2 b (.neg h (bit b 1)))
  | _ => none

/-- Major 0x11: spec/13 R320, R322. -/
def dec11 (mi : Nat) (h : Hdr) (b : Nat) : Dec :=
  match mi with
  | 0 => chk true (i2 b (fun d a => .addImm h d a (fI b)))
  | 1 => chk true (i2 b (fun d a => .subImm h d a (fI b)))
  | 2 => chk true (i2 b (fun d a => .mulImm h d a (fI b)))
  | 3 => chk true (i2 b (fun d a => .mulhImm h d a (fI b)))
  | 8 => chk true (i2 b (fun d a => .minImm h d a (fI b)))
  | 9 => chk true (i2 b (fun d a => .maxImm h d a (fI b)))
  | _ => none

/-- Major 0x12: spec/13 R323. -/
def dec12 (mi : Nat) (h : Hdr) (b : Nat) : Dec :=
  match mi with
  | 0 => chk (fM b == 0) (a3 b (.and h))
  | 1 => chk (fM b == 0) (a3 b (.or h))
  | 2 => chk (fM b == 0) (a3 b (.xor h))
  | 3 => chk (fM b == 0) (a3 b (.andn h))
  | 4 => chk (fM b == 0) (a2 b (.not h))
  | 5 => chk (fM b == 0) (a3 b (.shl h))
  | 6 => chk (fM b == 0) (a3 b (.shr h))
  | 7 => chk (fM b == 0) (a3 b (.sar h))
  | 8 => chk (fM b == 0) (a3 b (.rot h))
  | 9 => chk (fM b == 0) (a4 b (.shf h))
  | _ => none

/-- Major 0x13: spec/13 R323. -/
def dec13 (mi : Nat) (h : Hdr) (b : Nat) : Dec :=
  match mi with
  | 0 => chk true (i2 b (fun d a => .andImm h d a (fI b)))
  | 1 => chk true (i2 b (fun d a => .orImm h d a (fI b)))
  | 2 => chk true (i2 b (fun d a => .xorImm h d a (fI b)))
  | 3 => chk true (i2 b (fun d a => .andnImm h d a (fI b)))
  | 5 => chk (decide ((fI b).toNat < 32)) (i2 b (fun d a => .shlImm h d a (fld b 0 5)))
  | 6 => chk (decide ((fI b).toNat < 32)) (i2 b (fun d a => .shrImm h d a (fld b 0 5)))
  | 7 => chk (decide ((fI b).toNat < 32)) (i2 b (fun d a => .sarImm h d a (fld b 0 5)))
  | 8 => chk (decide ((fI b).toNat < 32)) (i2 b (fun d a => .rotImm h d a (fld b 0 5)))
  | _ => none

/-- Major 0x14: spec/13 R325. -/
def dec14 (mi : Nat) (h : Hdr) (b : Nat) : Dec :=
  match mi with
  | 0 => chk (decide (fM b < 2)) (a3 b (.bfx h (bit b 0)))
  | 1 => chk (fM b == 0) (a4 b (.bfi h))
  | 2 => chk (fM b == 0) (a2 b (.popc h))
  | 3 => chk (fM b == 0) (a2 b (.clz h))
  | 4 => chk (fM b == 0) (a2 b (.ctz h))
  | 5 => chk (fM b == 0) (a2 b (.brev h))
  | _ => none

/-- Major 0x15: spec/13 R326. -/
def dec15 (mi : Nat) (h : Hdr) (b : Nat) : Dec :=
  match mi with
  | 0 => chk (fM b == 0) (a4 b (.sel h))
  | 1 => opt (Cond.ofCode (fM b)) (fun c => a3 b (.cmp h c))
  | 2 => chk (decide (fM b < 8)) (a3 b (.lea h (fld b 0 2) (bit b 2)))
  | 3 => chk (decide (fM b < 2)) (a2 b (.mov h (bit b 0)))
  | _ => none

/-- Major 0x16: spec/13 R327. -/
def dec16 (mi : Nat) (h : Hdr) (b : Nat) : Dec :=
  match mi with
  | 1 => opt (Cond.ofCode (fld b 20 4).toNat) (fun c => i2 b (fun d a => .cmpImm h c d a (fld b 0 20)))
  | 2 => chk true (i2 b (fun d a => .leaImm h d a (fI b)))
  | _ => none

/-- Major 0x17: spec/13 R329. -/
def dec17 (mi : Nat) (h : Hdr) (b : Nat) : Dec :=
  match mi with
  | 0 => chk (!bit b 32) (do return .movi h (← sp (fD b)) (fld b 0 32))
  | _ => none

/-- Major 0x18: spec/13 R330. -/
def dec18 (mi : Nat) (h : Hdr) (b : Nat) : Dec :=
  match mi with
  | 0 => if fM b < 8 then opt (ShMode.ofCode (fM b % 4)) (fun m => a3 b (.shfl h m (bit b 2))) else none
  | 1 => opt (VoteKind.ofCode (fM b)) (fun k => a2 b (.vote h k))
  | _ => none

/-- Major 0x19: spec/13 R334. -/
def dec19 (mi : Nat) (h : Hdr) (b : Nat) : Dec :=
  match mi with
  | 0 => chk (decide ((fI b).toNat < 256)) (do nil (fA b); return .rdsr h (← sp (fD b)) (fld b 0 8))
  | 1 => chk (decide ((fI b).toNat < 256)) (do nil (fD b); return .wrsr h (← sp (fA b)) (fld b 0 8))
  | _ => none

/-- Major 0x30: spec/14 R340. -/
def dec30 (mi : Nat) (h : Hdr) (b : Nat) : Dec :=
  match mi with
  | 0 => chk (fM b == 0) (a3 b (.fadd h))
  | 1 => chk (fM b == 0) (a3 b (.fsub h))
  | 2 => chk (fM b == 0) (a3 b (.fmul h))
  | 3 => chk (fM b == 0) (a4 b (.ffma h))
  | 4 => chk (decide (fM b < 2)) (a3 b (.fmin h (bit b 0)))
  | 5 => chk (decide (fM b < 2)) (a3 b (.fmax h (bit b 0)))
  | 6 => opt (FCond.ofCode (fM b)) (fun c => a3 b (.fcmp h c))
  | 7 => chk (fM b == 0) (a2 b (.fclass h))
  | 8 => chk (fM b == 0) (a3 b (.fscale h))
  | _ => none

/-- Major 0x31: spec/14 R344. -/
def dec31 (mi : Nat) (h : Hdr) (b : Nat) : Dec :=
  match mi with
  | 0 => (match FType.ofCode (fM b % 8), FType.ofCode (fM b / 8) with
    | some dt, some sty => chk (fcvtOk dt sty) (a2 b (.fcvt h dt sty))
    | _, _ => none)
  | 1 => opt (RndMode.ofCode (fM b)) (fun m => a2 b (.frnd h m))
  | 2 => chk (decide (fM b < 2)) (a3 b (.fpack h (bit b 0)))
  | _ => none

/-- Major 0x32: spec/14 R346. -/
def dec32 (mi : Nat) (h : Hdr) (b : Nat) : Dec :=
  match mi with
  | 0 => chk (decide (fM b < 2)) (a4 b (.fdot2 h (bit b 0)))
  | 1 => chk (decide (fM b < 2)) (a4 b (.fdot4 h (bit b 0)))
  | _ => none

/-- Major 0x40: spec/14 R349. -/
def dec40 (mi : Nat) (h : Hdr) (b : Nat) : Dec :=
  match mi with
  | 0 => chk (fM b == 0) (a2 b (.sfe2 h))
  | 1 => chk (fM b == 0) (a2 b (.sfl2 h))
  | 2 => chk (fM b == 0) (a2 b (.sfrcp h))
  | 3 => chk (fM b == 0) (a2 b (.sfrsq h))
  | 4 => chk (fM b == 0) (a2 b (.sfsqr h))
  | 5 => chk (fM b == 0) (a2 b (.sfsin h))
  | 6 => chk (fM b == 0) (a2 b (.sfcos h))
  | 7 => chk (fM b == 0) (a2 b (.sftanh h))
  | 8 => chk (fM b == 0) (a2 b (.sfsig h))
  | 9 => chk (fM b == 0) (a2 b (.sfsilu h))
  | _ => none

/-- Major 0x41: spec/14 R351. -/
def dec41 (mi : Nat) (h : Hdr) (b : Nat) : Dec :=
  match mi with
  | 0 => (match TkPat.ofCode (fM b % 4), TkWidth.ofCode (fM b / 4 % 4), TkKind.ofCode (fM b / 16) with
    | some p, some w, some k => chk true (s3 b (.topkGroup h p w k))
    | _, _, _ => none)
  | 1 => (match TkWidth.ofCode (fM b / 4 % 4), TkKind.ofCode (fM b / 16) with
    | some w, some k => chk (fM b % 4 == 0) (a4 b (.topkRow h w k))
    | _, _ => none)
  | _ => none

/-- Major 0x48: spec/14 R356. -/
def dec48 (mi : Nat) (h : Hdr) (b : Nat) : Dec :=
  match mi with
  | 0 => chk (fM b == 0) (a2 b (.tment h))
  | 1 => chk (fM b == 0) (a2 b (.tmred h))
  | 2 => chk (fM b == 0) (a3 b (.tmmrg h))
  | 3 => chk (fM b == 0) (a3 b (.tmscl h))
  | 4 => chk (fM b == 0) (a2 b (.tmext h))
  | _ => none

/-- Major 0x49: spec/14 R359. -/
def dec49 (mi : Nat) (h : Hdr) (b : Nat) : Dec :=
  match mi with
  | 0 => chk (decide (fM b < 4) && fSc b == 0) (do nil (fD b); return .tmld h (fld b 0 2) (← sp (fA b)) (fOff b))
  | _ => none

/-- Major 0x4C: spec/14 R354. -/
def dec4C (mi : Nat) (h : Hdr) (b : Nat) : Dec :=
  match mi with
  | 0 => opt (QSrc.ofCode (fM b / 8)) (fun t => a4 b (.cvtq h t (fld b 0 3)))
  | 1 => chk (decide (fM b < 8)) (a4 b (.rquant h (fld b 0 3)))
  | 2 => opt (QSrc.ofCode (fM b / 8)) (fun t => a2 b (.bscale h t (fld b 0 3)))
  | _ => none

/-- Major 0x50: spec/15 R362. -/
def dec50 (mi : Nat) (h : Hdr) (b : Nat) : Dec :=
  match mi with
  | 0 => (match MSize.ofCode (fM b % 8), scM b with
    | some sz, some sc => chk (decide (fM b < 16)) (i2 b (fun d a => .ld h sz (bit b 3) sc d a (fOff b)))
    | _, _ => none)
  | 1 => (match MSize.ofCode (fM b % 8), scM b with
    | some sz, some sc => chk (decide (fM b < 16)) (i2 b (fun d a => .st h sz (bit b 3) sc d a (fOff b)))
    | _, _ => none)
  | _ => none

/-- Major 0x51: spec/15 R362. -/
def dec51 (mi : Nat) (h : Hdr) (b : Nat) : Dec :=
  match mi with
  | 0 => (match MSize.ofCode (fM b), scM b with
    | some sz, some sc => chk true (i2 b (fun d a => .lds h sz sc d a (fOff b)))
    | _, _ => none)
  | 1 => (match MSize.ofCode (fM b), scM b with
    | some sz, some sc => chk true (i2 b (fun d a => .sts h sz sc d a (fOff b)))
    | _, _ => none)
  | _ => none

/-- Major 0x52: spec/15 R376. -/
def dec52 (mi : Nat) (h : Hdr) (b : Nat) : Dec :=
  match mi with
  | 0 => chk (decide (fM b < 16) && fM b % 8 != 7 && fSc b == 0) (i2 b (fun d a => .ldt h (fld b 0 3) (bit b 3) d a (fOff b)))
  | 1 => chk (decide (fM b < 32) && fM b % 8 != 7 && !bit b 3 && fSc b == 0) (i2 b (fun d a => .stt h (fld b 0 3) (bit b 4) d a (fOff b)))
  | _ => none

/-- Major 0x53: spec/15 R369, R370. -/
def dec53 (mi : Nat) (h : Hdr) (b : Nat) : Dec :=
  match mi with
  | 0 => (match AOp.ofCode (fM b % 16), AType.ofCode (fM b / 16), scM b with
    | some op, some ty, some sc => chk (atomOk op ty && (fld b 9 6).toNat == 0) (do
        return .atom h op ty sc (← sp (fD b)) (← sp (fA b)) (← sp (fB b)))
    | _, _, _ => none)
  | 1 => (match AOp.ofCode (fM b % 16), AType.ofCode (fM b / 16), scM b with
    | some op, some ty, some sc => chk (redOk op ty && (fld b 9 6).toNat == 0) (do
        nil (fD b); return .red h op ty sc (← sp (fA b)) (← sp (fB b)))
    | _, _, _ => none)
  | _ => none

/-- Major 0x54: spec/15 R373, R374. -/
def dec54 (mi : Nat) (h : Hdr) (b : Nat) : Dec :=
  match mi with
  | 0 => (match FSem.ofCode (fM b), scM b with
    | some sem, some sc => chk (fOff b == 0) (i0 b (.fence h sem sc))
    | _, _ => none)
  | 1 => opt (scM b) (fun sc => do nil (fD b); return .prf h (bit b 3) sc (← sp (fA b)) (fOff b)) |> fun r =>
      if fM b == 0 || fM b == 8 then r else none
  | _ => none

/-- Major 0x55: spec/15 R379, R380. -/
def dec55 (mi : Nat) (h : Hdr) (b : Nat) : Dec :=
  match mi with
  | 0 => chk (fM b == 0) (s1 b (.gjoin h))
  | 1 => chk (fM b == 0) (a0 b (.gleave h))
  | _ => none

/-- Major 0x56: spec/15 R382, R383. -/
def dec56 (mi : Nat) (h : Hdr) (b : Nat) : Dec :=
  match mi with
  | 0 => chk (decide (fM b < 2)) (a3 b (.fibld h (bit b 0)))
  | 1 => if fM b = 0 then chk true (a2 b (.fibprb h none))
    else if fM b = 1 then chk true (a3 b (fun d a m => .fibprb h (some m) d a)) else none
  | _ => none

/-- Major 0x60: spec/16 R388. -/
def dec60 (mi : Nat) (h : Hdr) (b : Nat) : Dec :=
  match mi with
  | 0 => chk (decide ((fXm b).toNat < 2) && fXp b == 0) (x2 b (fun p q => .mma h (bit b 0) (fX b) p q (fXsA b) (fXsB b)))
  | _ => none

/-- Major 0x61: spec/16 R388. -/
def dec61 (mi : Nat) (h : Hdr) (b : Nat) : Dec :=
  match mi with
  | 0 => chk true (do return .mmas h (fXp b) (fX b) (← sp (fXa b)) (← sp (fXb b)) (← sp (fXm b)) (fXsA b) (fXsB b))
  | _ => none

/-- Major 0x62: spec/16 R388. -/
def dec62 (mi : Nat) (h : Hdr) (b : Nat) : Dec :=
  match mi with
  | 0 => chk (decide ((fXm b).toNat < 32) && fXp b == 0) (x2 b (fun p q => .mmaj h (bit b 4) (fld b 0 4) (fX b) p q (fXsA b) (fXsB b)))
  | _ => none

/-- Major 0x63: spec/16 R388. -/
def dec63 (mi : Nat) (h : Hdr) (b : Nat) : Dec :=
  match mi with
  | 0 => chk (fX b == 0 && fXm b == 0) (q1 b (.mmx h))
  | 1 => chk (fX b == 0 && fXm b == 0) (q1 b (.mmr h))
  | _ => none

/-- Major 0x64: spec/16 R388. -/
def dec64 (mi : Nat) (h : Hdr) (b : Nat) : Dec :=
  match mi with
  | 0 => (match DMode.ofCode (fXp b).toNat with
    | some m => chk (decide ((fXm b).toNat < 32) && fXsB b == 0)
        (x2 b (fun p q => .tdrain h m (bit b 0) (fld b 1 2) (bit b 3) (bit b 4) (fX b) p q (fXsA b)))
    | none => none)
  | 1 => chk (decide ((fXm b).toNat < 8) && fXp b == 0 && fXsA b == 0 && fXsB b == 0)
      (do nil (fXa b); nil (fXb b); return .tzero h (bit b 0) (fld b 1 2) (fX b))
  | _ => none

/-- Major 0x70: spec/17 R407. -/
def dec70 (mi : Nat) (h : Hdr) (b : Nat) : Dec :=
  match mi with
  | 0 => chk (fX b == 0 && decide ((fXm b).toNat < 4)) (q3 b (.cpy h (bit b 0) (bit b 1)))
  | 1 => chk (fX b == 0 && fXm b == 0) (q3 b (.cpyp h))
  | _ => none

/-- Major 0x71: spec/17 R407, R414. -/
def dec71 (mi : Nat) (h : Hdr) (b : Nat) : Dec :=
  match mi with
  | 0 => let s : QSet := ⟨bit b 0, bit b 1, bit b 2, bit b 3, bit b 4, bit b 5⟩
    chk (decide ((fXm b).toNat < 64) && qsetOk (fX b) s)
      (if s.r then q1 b (.qfence h (fX b) s) else q0 b (.qfence h (fX b) s .zero))
  | 1 => chk (fXm b == 0) (q1 b (.qpost h (fX b)))
  | 2 => chk (fXm b == 0) (q1 b (.rlinv h (fX b)))
  | _ => none

/-- Major 0x72: spec/17 R407. -/
def dec72 (mi : Nat) (h : Hdr) (b : Nat) : Dec :=
  match mi with
  | 0 => chk (fX b == 0 && fXm b == 0) (q2 b (.ctrset h))
  | 1 => chk (fX b == 0 && fXm b == 0) (q2 b (.ctradd h))
  | 2 => chk (fX b == 0 && fXm b == 0) (q2 b (.ctrwait h))
  | _ => none

/-- Major 0x73: spec/17 R407. -/
def dec73 (mi : Nat) (h : Hdr) (b : Nat) : Dec :=
  match mi with
  | 0 => chk (decide ((fX b).toNat < 4) && fXm b == 0) (q1 b (.stcfg h (fld b 36 2)))
  | 1 => chk (decide ((fX b).toNat < 16) && fXm b == 0) (q1 b (.rwait h (fld b 36 4)))
  | 2 => chk (decide ((fX b).toNat < 16) && fXm b == 0) (q1 b (.rdone h (fld b 36 4)))
  | 3 => chk (decide ((fX b).toNat < 16) && fXm b == 0) (q0 b (.rclose h (fld b 36 4)))
  | _ => none

/-- Major 0x76: spec/17 R407. -/
def dec76 (mi : Nat) (h : Hdr) (b : Nat) : Dec :=
  match mi with
  | 0 => chk (decide ((fX b).toNat < 16) && fXm b == 0) (q2 b (.sigld h (fld b 36 4)))
  | 1 => (match scQ b with
    | some sc => chk (decide ((fX b).toNat < 16) && decide ((fXm b).toNat < 16)) (q3 b (.kstore h (bit b 3) sc (fld b 36 4)))
    | none => none)
  | _ => none

/-- Major 0x77: spec/17 R407. -/
def dec77 (mi : Nat) (h : Hdr) (b : Nat) : Dec :=
  match mi with
  | 0 => chk (decide ((fX b).toNat < 16) && fXm b == 0) (q2 b (.qsig h (fld b 36 4)))
  | 1 => (match scQ b with
    | some sc => chk (fX b == 0 && decide ((fXm b).toNat < 16)) (q3 b (.bprobe h (bit b 3) sc))
    | none => none)
  | _ => none

/-- Major 0x78: spec/17 R429. -/
def dec78 (mi : Nat) (h : Hdr) (b : Nat) : Dec :=
  match mi with
  | 0 => chk true (i0 b (.trap h (fI b)))
  | 1 => chk true (i0 b (.sysc h (fI b)))
  | _ => none

/-- Major 0x79: spec/17 R429. -/
def dec79 (mi : Nat) (h : Hdr) (b : Nat) : Dec :=
  match mi with
  | 0 => (match Scope.ofCode (fM b) with
    | some sc => chk true (s2 b (.sig h sc))
    | none => none)
  | _ => none

/-- Major 0x7A: spec/17 R429. -/
def dec7A (mi : Nat) (h : Hdr) (b : Nat) : Dec :=
  match mi with
  | 0 => chk (fM b == 0) (a0 b (.tret h))
  | 1 => chk (fM b == 0) (a0 b (.tretEnd h))
  | 2 => chk (fM b == 0) (a2 b (.csave h))
  | 3 => chk (fM b == 0) (s2 b (.crest h))
  | _ => none

/-- Major 0x7B: spec/17 R429. -/
def dec7B (mi : Nat) (h : Hdr) (b : Nat) : Dec :=
  match mi with
  | 0 => chk (fM b == 0) (d1 b (.rdclk h))
  | _ => none

/-- The first encoding version a major is assigned in; `none` where no version assigns it (spec/10 R281, R282). -/
def majorVer (mj : Nat) : Option Nat :=
  if mj = 0x41 ∨ mj = 0x61 then some 2
  else if mj = 0x48 ∨ mj = 0x49 ∨ mj = 0x62 ∨ mj = 0x76 ∨ mj = 0x77 then some 3
  else if mj ≤ 0x06 ∨ (0x10 ≤ mj ∧ mj ≤ 0x19) ∨ (0x30 ≤ mj ∧ mj ≤ 0x32) ∨ mj = 0x40 ∨ mj = 0x4C
      ∨ (0x50 ≤ mj ∧ mj ≤ 0x56) ∨ mj = 0x60 ∨ mj = 0x63 ∨ mj = 0x64 ∨ (0x70 ≤ mj ∧ mj ≤ 0x73)
      ∨ (0x78 ≤ mj ∧ mj ≤ 0x7B) then some 1
  else none

/-- Majors whose instructions need an engine port, so that LOOK means something (spec/10 R274, R280). -/
def majorPort (mj : Nat) : Bool := 0x40 ≤ mj && mj ≤ 0x77

/-- The opcode map (spec/10 R281). -/
def decBody (mj mi : Nat) (h : Hdr) (b : Nat) : Dec :=
  match mj with
  | 0x00 => dec00 mi h b
  | 0x01 => dec01 mi h b
  | 0x02 => dec02 mi h b
  | 0x03 => dec03 mi h b
  | 0x04 => dec04 mi h b
  | 0x05 => dec05 mi h b
  | 0x06 => dec06 mi h b
  | 0x10 => dec10 mi h b
  | 0x11 => dec11 mi h b
  | 0x12 => dec12 mi h b
  | 0x13 => dec13 mi h b
  | 0x14 => dec14 mi h b
  | 0x15 => dec15 mi h b
  | 0x16 => dec16 mi h b
  | 0x17 => dec17 mi h b
  | 0x18 => dec18 mi h b
  | 0x19 => dec19 mi h b
  | 0x30 => dec30 mi h b
  | 0x31 => dec31 mi h b
  | 0x32 => dec32 mi h b
  | 0x40 => dec40 mi h b
  | 0x41 => dec41 mi h b
  | 0x48 => dec48 mi h b
  | 0x49 => dec49 mi h b
  | 0x4C => dec4C mi h b
  | 0x50 => dec50 mi h b
  | 0x51 => dec51 mi h b
  | 0x52 => dec52 mi h b
  | 0x53 => dec53 mi h b
  | 0x54 => dec54 mi h b
  | 0x55 => dec55 mi h b
  | 0x56 => dec56 mi h b
  | 0x60 => dec60 mi h b
  | 0x61 => dec61 mi h b
  | 0x62 => dec62 mi h b
  | 0x63 => dec63 mi h b
  | 0x64 => dec64 mi h b
  | 0x70 => dec70 mi h b
  | 0x71 => dec71 mi h b
  | 0x72 => dec72 mi h b
  | 0x73 => dec73 mi h b
  | 0x76 => dec76 mi h b
  | 0x77 => dec77 mi h b
  | 0x78 => dec78 mi h b
  | 0x79 => dec79 mi h b
  | 0x7A => dec7A mi h b
  | 0x7B => dec7B mi h b
  | _ => none

/-- THE DECODER: checks 2 to 6 of spec/10 R279 in their order, under an encoding version; the error is the cause. -/
def decodeWord (ver : Nat) (w : DWord) : Except Nat Instr :=
  let n := w.toNat
  let mj := n / 2 ^ 57
  let h : Hdr := ⟨fld n 50 3, fld n 46 4, fld n 42 4⟩
  match majorVer mj with
  | none => .error 0x01
  | some v =>
    if ver < v then .error 0x03
    else match decBody mj (fld n 53 4).toNat h (n % 2 ^ 42) with
      | none => .error 0x02
      | some r =>
        if !majorPort mj && h.look != 0 then .error 0x02
        else if h.flag.toNat > 12 then .error 0x08
        else match r with
          | none => .error 0x05
          | some i => if i.specsOk then .ok i else .error 0x05

/-- The fields of a clause header (spec/10 R267). -/
structure ClauseHdr where
  eclass : BitVec 4
  count : BitVec 4
  wait : BitVec 12
  uni : Bool
  tail : Bool
deriving DecidableEq, Repr

/-- A word with bits [63:57] equal to 0x7F is a clause header and never an instruction (spec/10 R266). -/
def isHeader (w : DWord) : Bool := w.toNat / 2 ^ 57 == 0x7F

/-- Instruction words of the clause. -/
def ClauseHdr.words (c : ClauseHdr) : Nat := c.count.toNat + 1

/-- The fields of a clause header. -/
def clauseHdr (w : DWord) : ClauseHdr :=
  ⟨fld w.toNat 53 4, fld w.toNat 49 4, fld w.toNat 37 12, bit w.toNat 36, bit w.toNat 35⟩

/-- The header's own checks of spec/10 R269; the two about TAIL need the last instruction. -/
def headerFieldsOk (w : DWord) : Bool := w.toNat % 2 ^ 35 == 0 && decide ((clauseHdr w).eclass.toNat ≤ 8)

/-- The ports a clause's ECLASS permits (spec/10 R268). -/
def eclassAllows (e : Nat) (p : Port) : Bool :=
  match e, p with
  | 1, .mem | 2, .mat | 3, .sf | 4, .async => true
  | 5, .mem | 5, .mat | 6, .mem | 6, .async | 7, .mem | 7, .sf => true
  | 8, _ => true
  | _, _ => false

/-- THE ENCODER. Layout of an instruction word (spec/10 R270). -/
def word (mj mi : Nat) (h : Hdr) (body : Nat) : DWord :=
  BitVec.ofNat 64 (mj * 2 ^ 57 + mi * 2 ^ 53 + h.stall.toNat * 2 ^ 50 + h.flag.toNat * 2 ^ 46
    + h.look.toNat * 2 ^ 42 + body)

/-- A Boolean as a bit, and a code as a modifier field. -/
def b2n (b : Bool) : Nat := if b then 1 else 0
abbrev m6 (n : Nat) : BitVec 6 := BitVec.ofNat 6 n
abbrev m9 (n : Nat) : BitVec 9 := BitVec.ofNat 9 n

def Scope.bits (s : Scope) : BitVec 3 := BitVec.ofNat 3 s.code

/-- The queue field of an instruction that names a number below 16 or below 4. -/
abbrev q6 {n : Nat} (r : BitVec n) : BitVec 6 := BitVec.ofNat 6 r.toNat

/-- The immediate of a barrier (spec/12 R297). -/
def barImm (l : BitVec 3) (n : BitVec 5) (c : BitVec 16) : BitVec 24 :=
  BitVec.ofNat 24 (l.toNat * 2 ^ 21 + n.toNat * 2 ^ 16 + c.toNat)

/-- `bar` and `bara`. -/
def encBar (mi : Nat) (h : Hdr) (l : BitVec 3) (n : BitVec 5) : BarCnt → DWord
  | .imm k => word 0x04 mi h (bodyI noOp noOp (barImm l n k))
  | .reg r => word 0x04 mi h (bodyI noOp r.bits (barImm l n 0))

/-- The mods of a `qfence` (spec/17 R414). -/
def QSet.code (s : QSet) : Nat := b2n s.c + 2 * b2n s.m + 4 * b2n s.s + 8 * b2n s.p + 16 * b2n s.a + 32 * b2n s.r

/-- The word of an instruction (spec/12 to spec/17, the encoding tables); the steps of the package have none. -/
def encode : Instr → Option DWord
  | .bra h o => some (word 0x00 0 h (bodyB noOp o))
  | .brz h r o => some (word 0x00 1 h (bodyB r.bits o))
  | .brnz h r o => some (word 0x00 2 h (bodyB r.bits o))
  | .brx h a => some (word 0x01 0 h (bodyA noOp a.bits noOp noOp 0))
  | .callDirect h o => some (word 0x02 0 h (bodyB noOp o))
  | .callReg h a => some (word 0x02 1 h (bodyA noOp a.bits noOp noOp 0))
  | .ret h => some (word 0x03 0 h (bodyA noOp noOp noOp noOp 0))
  | .reform h => some (word 0x03 1 h (bodyA noOp noOp noOp noOp 0))
  | .yield h => some (word 0x03 2 h (bodyA noOp noOp noOp noOp 0))
  | .exit h => some (word 0x03 3 h (bodyA noOp noOp noOp noOp 0))
  | .bar h l n c => some (encBar 0 h l n c)
  | .bara h l n c => some (encBar 1 h l n c)
  | .barw h l n => some (word 0x04 2 h (bodyI noOp noOp (barImm l n 0)))
  | .spawn h d a b c => some (word 0x05 0 h (bodyA d.bits a.bits b.bits c.bits 0))
  | .join h => some (word 0x05 1 h (bodyA noOp noOp noOp noOp 0))
  | .nop h => some (word 0x06 0 h (bodyI noOp noOp 0))
  | .brk h n => some (word 0x06 1 h (bodyI noOp noOp n))
  | .add h m d a b => some (word 0x10 0 h (bodyA d.bits a.bits b.bits noOp (m6 m.code)))
  | .sub h m d a b => some (word 0x10 1 h (bodyA d.bits a.bits b.bits noOp (m6 m.code)))
  | .mul h m d a b => some (word 0x10 2 h (bodyA d.bits a.bits b.bits noOp (m6 m.code)))
  | .mulh h u d a b => some (word 0x10 3 h (bodyA d.bits a.bits b.bits noOp (m6 (b2n u))))
  | .mad h m d a b c => some (word 0x10 4 h (bodyA d.bits a.bits b.bits c.bits (m6 m.code)))
  | .madw h u d a b c => some (word 0x10 5 h (bodyA d.bits a.bits b.bits c.bits (m6 (b2n u))))
  | .addc h d a b c => some (word 0x10 6 h (bodyA d.bits a.bits b.bits c.bits 0))
  | .subb h d a b c => some (word 0x10 7 h (bodyA d.bits a.bits b.bits c.bits 0))
  | .min h u d a b => some (word 0x10 8 h (bodyA d.bits a.bits b.bits noOp (m6 (b2n u))))
  | .max h u d a b => some (word 0x10 9 h (bodyA d.bits a.bits b.bits noOp (m6 (b2n u))))
  | .abs h s d a => some (word 0x10 10 h (bodyA d.bits a.bits noOp noOp (m6 (2 * b2n s))))
  | .neg h s d a => some (word 0x10 11 h (bodyA d.bits a.bits noOp noOp (m6 (2 * b2n s))))
  | .addImm h d a i => some (word 0x11 0 h (bodyI d.bits a.bits i))
  | .subImm h d a i => some (word 0x11 1 h (bodyI d.bits a.bits i))
  | .mulImm h d a i => some (word 0x11 2 h (bodyI d.bits a.bits i))
  | .mulhImm h d a i => some (word 0x11 3 h (bodyI d.bits a.bits i))
  | .minImm h d a i => some (word 0x11 8 h (bodyI d.bits a.bits i))
  | .maxImm h d a i => some (word 0x11 9 h (bodyI d.bits a.bits i))
  | .and h d a b => some (word 0x12 0 h (bodyA d.bits a.bits b.bits noOp 0))
  | .or h d a b => some (word 0x12 1 h (bodyA d.bits a.bits b.bits noOp 0))
  | .xor h d a b => some (word 0x12 2 h (bodyA d.bits a.bits b.bits noOp 0))
  | .andn h d a b => some (word 0x12 3 h (bodyA d.bits a.bits b.bits noOp 0))
  | .not h d a => some (word 0x12 4 h (bodyA d.bits a.bits noOp noOp 0))
  | .shl h d a b => some (word 0x12 5 h (bodyA d.bits a.bits b.bits noOp 0))
  | .shr h d a b => some (word 0x12 6 h (bodyA d.bits a.bits b.bits noOp 0))
  | .sar h d a b => some (word 0x12 7 h (bodyA d.bits a.bits b.bits noOp 0))
  | .rot h d a b => some (word 0x12 8 h (bodyA d.bits a.bits b.bits noOp 0))
  | .shf h d a b c => some (word 0x12 9 h (bodyA d.bits a.bits b.bits c.bits 0))
  | .andImm h d a i => some (word 0x13 0 h (bodyI d.bits a.bits i))
  | .orImm h d a i => some (word 0x13 1 h (bodyI d.bits a.bits i))
  | .xorImm h d a i => some (word 0x13 2 h (bodyI d.bits a.bits i))
  | .andnImm h d a i => some (word 0x13 3 h (bodyI d.bits a.bits i))
  | .shlImm h d a n => some (word 0x13 5 h (bodyI d.bits a.bits (BitVec.ofNat 24 n.toNat)))
  | .shrImm h d a n => some (word 0x13 6 h (bodyI d.bits a.bits (BitVec.ofNat 24 n.toNat)))
  | .sarImm h d a n => some (word 0x13 7 h (bodyI d.bits a.bits (BitVec.ofNat 24 n.toNat)))
  | .rotImm h d a n => some (word 0x13 8 h (bodyI d.bits a.bits (BitVec.ofNat 24 n.toNat)))
  | .bfx h i d a b => some (word 0x14 0 h (bodyA d.bits a.bits b.bits noOp (m6 (b2n i))))
  | .bfi h d a b c => some (word 0x14 1 h (bodyA d.bits a.bits b.bits c.bits 0))
  | .popc h d a => some (word 0x14 2 h (bodyA d.bits a.bits noOp noOp 0))
  | .clz h d a => some (word 0x14 3 h (bodyA d.bits a.bits noOp noOp 0))
  | .ctz h d a => some (word 0x14 4 h (bodyA d.bits a.bits noOp noOp 0))
  | .brev h d a => some (word 0x14 5 h (bodyA d.bits a.bits noOp noOp 0))
  | .sel h d a b c => some (word 0x15 0 h (bodyA d.bits a.bits b.bits c.bits 0))
  | .cmp h c d a b => some (word 0x15 1 h (bodyA d.bits a.bits b.bits noOp (m6 c.code)))
  | .lea h s u d a b => some (word 0x15 2 h (bodyA d.bits a.bits b.bits noOp (m6 (s.toNat + 4 * b2n u))))
  | .mov h w d a => some (word 0x15 3 h (bodyA d.bits a.bits noOp noOp (m6 (b2n w))))
  | .cmpImm h c d a i => some (word 0x16 1 h (bodyI d.bits a.bits (BitVec.ofNat 24 (c.code * 2 ^ 20 + i.toNat))))
  | .leaImm h d a i => some (word 0x16 2 h (bodyI d.bits a.bits i))
  | .movi h d i => some (word 0x17 0 h (bodyL d.bits i))
  | .shfl h m z d a b => some (word 0x18 0 h (bodyA d.bits a.bits b.bits noOp (m6 (m.code + 4 * b2n z))))
  | .vote h k d a => some (word 0x18 1 h (bodyA d.bits a.bits noOp noOp (m6 k.code)))
  | .rdsr h d i => some (word 0x19 0 h (bodyI d.bits noOp (BitVec.ofNat 24 i.toNat)))
  | .wrsr h a i => some (word 0x19 1 h (bodyI noOp a.bits (BitVec.ofNat 24 i.toNat)))
  | .fadd h d a b => some (word 0x30 0 h (bodyA d.bits a.bits b.bits noOp 0))
  | .fsub h d a b => some (word 0x30 1 h (bodyA d.bits a.bits b.bits noOp 0))
  | .fmul h d a b => some (word 0x30 2 h (bodyA d.bits a.bits b.bits noOp 0))
  | .ffma h d a b c => some (word 0x30 3 h (bodyA d.bits a.bits b.bits c.bits 0))
  | .fmin h n d a b => some (word 0x30 4 h (bodyA d.bits a.bits b.bits noOp (m6 (b2n n))))
  | .fmax h n d a b => some (word 0x30 5 h (bodyA d.bits a.bits b.bits noOp (m6 (b2n n))))
  | .fcmp h c d a b => some (word 0x30 6 h (bodyA d.bits a.bits b.bits noOp (m6 c.code)))
  | .fclass h d a => some (word 0x30 7 h (bodyA d.bits a.bits noOp noOp 0))
  | .fscale h d a b => some (word 0x30 8 h (bodyA d.bits a.bits b.bits noOp 0))
  | .fcvt h dt sty d a => some (word 0x31 0 h (bodyA d.bits a.bits noOp noOp (m6 (dt.code + 8 * sty.code))))
  | .frnd h m d a => some (word 0x31 1 h (bodyA d.bits a.bits noOp noOp (m6 m.code)))
  | .fpack h f d a b => some (word 0x31 2 h (bodyA d.bits a.bits b.bits noOp (m6 (b2n f))))
  | .fdot2 h f d a b c => some (word 0x32 0 h (bodyA d.bits a.bits b.bits c.bits (m6 (b2n f))))
  | .fdot4 h f d a b c => some (word 0x32 1 h (bodyA d.bits a.bits b.bits c.bits (m6 (b2n f))))
  | .sfe2 h d a => some (word 0x40 0 h (bodyA d.bits a.bits noOp noOp 0))
  | .sfl2 h d a => some (word 0x40 1 h (bodyA d.bits a.bits noOp noOp 0))
  | .sfrcp h d a => some (word 0x40 2 h (bodyA d.bits a.bits noOp noOp 0))
  | .sfrsq h d a => some (word 0x40 3 h (bodyA d.bits a.bits noOp noOp 0))
  | .sfsqr h d a => some (word 0x40 4 h (bodyA d.bits a.bits noOp noOp 0))
  | .sfsin h d a => some (word 0x40 5 h (bodyA d.bits a.bits noOp noOp 0))
  | .sfcos h d a => some (word 0x40 6 h (bodyA d.bits a.bits noOp noOp 0))
  | .sftanh h d a => some (word 0x40 7 h (bodyA d.bits a.bits noOp noOp 0))
  | .sfsig h d a => some (word 0x40 8 h (bodyA d.bits a.bits noOp noOp 0))
  | .sfsilu h d a => some (word 0x40 9 h (bodyA d.bits a.bits noOp noOp 0))
  | .topkGroup h p w k a b c => some (word 0x41 0 h (bodyA noOp a.bits b.bits c.bits (m6 (p.code + 4 * w.code + 16 * k.code))))
  | .topkRow h w k d a b c => some (word 0x41 1 h (bodyA d.bits a.bits b.bits c.bits (m6 (4 * w.code + 16 * k.code))))
  | .tment h d a => some (word 0x48 0 h (bodyA d.bits a.bits noOp noOp 0))
  | .tmred h d a => some (word 0x48 1 h (bodyA d.bits a.bits noOp noOp 0))
  | .tmmrg h d a b => some (word 0x48 2 h (bodyA d.bits a.bits b.bits noOp 0))
  | .tmscl h d a b => some (word 0x48 3 h (bodyA d.bits a.bits b.bits noOp 0))
  | .tmext h d a => some (word 0x48 4 h (bodyA d.bits a.bits noOp noOp 0))
  | .tmld h p a o => some (word 0x49 0 h (bodyM noOp a.bits o 0 (m6 p.toNat)))
  | .cvtq h t s d a b c => some (word 0x4C 0 h (bodyA d.bits a.bits b.bits c.bits (m6 (s.toNat + 8 * t.code))))
  | .rquant h s d a b c => some (word 0x4C 1 h (bodyA d.bits a.bits b.bits c.bits (m6 s.toNat)))
  | .bscale h t s d a => some (word 0x4C 2 h (bodyA d.bits a.bits noOp noOp (m6 (s.toNat + 8 * t.code))))
  | .ld h sz tm sc d a o => some (word 0x50 0 h (bodyM d.bits a.bits o sc.bits (m6 (sz.code + 8 * b2n tm))))
  | .st h sz tm sc d a o => some (word 0x50 1 h (bodyM d.bits a.bits o sc.bits (m6 (sz.code + 8 * b2n tm))))
  | .lds h sz sc d a o => some (word 0x51 0 h (bodyM d.bits a.bits o sc.bits (m6 sz.code)))
  | .sts h sz sc d a o => some (word 0x51 1 h (bodyM d.bits a.bits o sc.bits (m6 sz.code)))
  | .ldt h sz md d a o => some (word 0x52 0 h (bodyM d.bits a.bits o 0 (m6 (sz.toNat + 8 * b2n md))))
  | .stt h sz an d a o => some (word 0x52 1 h (bodyM d.bits a.bits o 0 (m6 (sz.toNat + 16 * b2n an))))
  | .atom h op ty sc d a b => some (word 0x53 0 h (bodyM d.bits a.bits (BitVec.ofNat 15 (b.bits.toNat * 2 ^ 6)) sc.bits (m6 (op.code + 16 * ty.code))))
  | .red h op ty sc a b => some (word 0x53 1 h (bodyM noOp a.bits (BitVec.ofNat 15 (b.bits.toNat * 2 ^ 6)) sc.bits (m6 (op.code + 16 * ty.code))))
  | .fence h sem sc => some (word 0x54 0 h (bodyM noOp noOp 0 sc.bits (m6 sem.code)))
  | .prf h tm sc a o => some (word 0x54 1 h (bodyM noOp a.bits o sc.bits (m6 (8 * b2n tm))))
  | .gjoin h a => some (word 0x55 0 h (bodyA noOp a.bits noOp noOp 0))
  | .gleave h => some (word 0x55 1 h (bodyA noOp noOp noOp noOp 0))
  | .fibld h cl d a b => some (word 0x56 0 h (bodyA d.bits a.bits b.bits noOp (m6 (b2n cl))))
  | .fibprb h none d a => some (word 0x56 1 h (bodyA d.bits a.bits noOp noOp 0))
  | .fibprb h (some m) d a => some (word 0x56 1 h (bodyA d.bits a.bits m.bits noOp 1))
  | .mma h z acc a b sA sB => some (word 0x60 0 h (bodyX acc a.bits b.bits sA sB 0 (m9 (b2n z))))
  | .mmas h p acc a b m sA sB => some (word 0x61 0 h (bodyX acc a.bits b.bits sA sB p m.bits))
  | .mmaj h z t acc a b sA sB => some (word 0x62 0 h (bodyX acc a.bits b.bits sA sB 0 (m9 (t.toNat + 16 * b2n z))))
  | .mmx h a => some (word 0x63 0 h (bodyQ 0 a.bits noOp noOp 0))
  | .mmr h a => some (word 0x63 1 h (bodyQ 0 a.bits noOp noOp 0))
  | .tdrain h m q t z i acc a b s => some (word 0x64 0 h (bodyX acc a.bits b.bits s 0 (BitVec.ofNat 3 m.code) (m9 (b2n q + 2 * t.toNat + 8 * b2n z + 16 * b2n i))))
  | .tzero h q t acc => some (word 0x64 1 h (bodyX acc noOp noOp 0 0 0 (m9 (b2n q + 2 * t.toNat))))
  | .cpy h ds ss a b c => some (word 0x70 0 h (bodyQ 0 a.bits b.bits c.bits (m9 (b2n ds + 2 * b2n ss))))
  | .cpyp h a b c => some (word 0x70 1 h (bodyQ 0 a.bits b.bits c.bits 0))
  | .qfence h q s d => some (word 0x71 0 h (bodyQ q d.bits noOp noOp (m9 s.code)))
  | .qpost h q a => some (word 0x71 1 h (bodyQ q a.bits noOp noOp 0))
  | .rlinv h q a => some (word 0x71 2 h (bodyQ q a.bits noOp noOp 0))
  | .ctrset h a b => some (word 0x72 0 h (bodyQ 0 a.bits b.bits noOp 0))
  | .ctradd h a b => some (word 0x72 1 h (bodyQ 0 a.bits b.bits noOp 0))
  | .ctrwait h a b => some (word 0x72 2 h (bodyQ 0 a.bits b.bits noOp 0))
  | .stcfg h e a => some (word 0x73 0 h (bodyQ (q6 e) a.bits noOp noOp 0))
  | .rwait h r d => some (word 0x73 1 h (bodyQ (q6 r) d.bits noOp noOp 0))
  | .rdone h r a => some (word 0x73 2 h (bodyQ (q6 r) a.bits noOp noOp 0))
  | .rclose h r => some (word 0x73 3 h (bodyQ (q6 r) noOp noOp noOp 0))
  | .sigld h s a b => some (word 0x76 0 h (bodyQ (q6 s) a.bits b.bits noOp 0))
  | .kstore h nt sc s a b c => some (word 0x76 1 h (bodyQ (q6 s) a.bits b.bits c.bits (m9 (sc.code + 8 * b2n nt))))
  | .qsig h s d b => some (word 0x77 0 h (bodyQ (q6 s) d.bits b.bits noOp 0))
  | .bprobe h nt sc d b c => some (word 0x77 1 h (bodyQ 0 d.bits b.bits c.bits (m9 (sc.code + 8 * b2n nt))))
  | .trap h n => some (word 0x78 0 h (bodyI noOp noOp n))
  | .sysc h n => some (word 0x78 1 h (bodyI noOp noOp n))
  | .sig h sc a b => some (word 0x79 0 h (bodyA noOp a.bits b.bits noOp (m6 sc.code)))
  | .tret h => some (word 0x7A 0 h (bodyA noOp noOp noOp noOp 0))
  | .tretEnd h => some (word 0x7A 1 h (bodyA noOp noOp noOp noOp 0))
  | .csave h d a => some (word 0x7A 2 h (bodyA d.bits a.bits noOp noOp 0))
  | .crest h a b => some (word 0x7A 3 h (bodyA noOp a.bits b.bits noOp 0))
  | .rdclk h d => some (word 0x7B 0 h (bodyA d.bits noOp noOp noOp 0))
  | _ => none

/-- What the decoder reads from a table row's bits under version 3, the version that assigns every major (spec/10 R284).
An instruction is one 64-bit word (spec/10 R270), so a longer row is none of this table. -/
def decodeTableWord (nbits w : Nat) : Option Instr :=
  if nbits ≤ 64 then
    match decodeWord 3 (BitVec.ofNat 64 (w % 2 ^ nbits)) with
    | .ok i => some i
    | .error _ => none
  else none

end Sys2Proof
end

