-- ==== Sys2Proof/Machine/State.lean ====
section
/-! DEFINITION. The state of the machine: plain data. Memory and its canonical form, threads, quarters, waves and
launches, the units of a core and of a grove, the engines and collectives, the registers of the package, and the order of
steps still to come. State.reset is the machine right after power-on reset. -/

namespace Sys2Proof.Machine

/-- Reasons a step stops with a fault: there are none, since every fault of the spec is one that the machine goes on from. -/
inductive Fault
deriving DecidableEq, Repr

/-- Reasons a step is refused. -/
inductive Refusal where
  /-- Raised by the arm of an instruction that has no meaning yet. Safe. -/
  | notModelled (mnemonic : String)
  /-- Raised by an access of a control core to a window whose registers the spec does not lay out: the two APLIC domains
  (spec/02 R73, R76), and the ECAM window of a root port, which reaches other devices (spec/01 R24). Safe: the run stops
  where the package goes on. -/
  | deviceWindow (pa : Nat)
deriving DecidableEq, Repr

/-! ### Memory -/

/-- The bytes of every location (spec/06 R176, spec/02 R73), keyed by location number, strictly rising, no zero byte listed. -/
abbrev Memory := List Host.Cell

/-- What an unlisted location reads as: zero. The cavern by spec/02 R70, scratch by spec/02 R89; every other space is a
DESIGN CHOICE (log 5), unsafe. -/
def Memory.unlisted : Byte := 0

/-- THE CANONICAL FORM: addresses strictly rising, no entry equal to what an unlisted address reads as. -/
def Memory.wf : Memory → Bool
  | [] => true
  | [c] => c.2 != Memory.unlisted
  | c :: d :: r => c.2 != Memory.unlisted && decide (c.1 < d.1) && Memory.wf (d :: r)

/-- One byte. -/
def Memory.read : Memory → Nat → Byte
  | [], _ => Memory.unlisted
  | c :: r, a => if c.1 = a then c.2 else if a < c.1 then Memory.unlisted else Memory.read r a

/-- Writing one byte keeps the canonical form. -/
def Memory.write : Memory → Nat → Byte → Memory
  | [], a, b => if b = Memory.unlisted then [] else [(a, b)]
  | c :: r, a, b =>
    if c.1 = a then (if b = Memory.unlisted then r else (a, b) :: r)
    else if a < c.1 then (if b = Memory.unlisted then c :: r else (a, b) :: c :: r)
    else c :: Memory.write r a b

/-! ### Threads -/

/-- A position of `x` or `c` (spec/05 R148): undefined, waiting for a result in flight, or a value. -/
inductive XPos where
  | undef
  | pend (uid : Nat)
  | val (w : Word)
deriving DecidableEq, Repr

/-- A return-stack entry (spec/12 R304). -/
structure RetEntry where
  retva : Pc := 0
  kind : Nat := 0
  k : Nat := 0
  state : Nat := 0
deriving DecidableEq, Repr

/-- State of a barrier of a thread (spec/12 R310); `count` is the count the thread named and `root` its ROOT; `node` is 1
when a release is on its way to the thread, 2 a refusal; `own` marks the arrival of a waiting `bar` itself. -/
inductive BarPhase where
  | arrived | released | refused
deriving DecidableEq, Repr

structure BarSlot where
  level : Nat
  num : Nat
  phase : BarPhase
  count : Nat
  root : Nat := 0
  node : Nat := 0
  forwarded : Bool := false
  own : Bool := false
deriving DecidableEq, Repr

/-- What an operation of the pending set does when it performs (spec/07 R202, R205). -/
inductive OpKind where
  | load (cached : Bool)
  | store (bytes : List Byte)
  | atom (op : AOp) (ty : AType) (b cmp : Nat)
  | red (op : AOp) (ty : AType) (b : Nat)
  | fence (rel acq : Bool)
  | fetchLine (cached : Bool)   -- a prefetch of a line (spec/15 R374)
  | move                 -- bytes from `loc` to `loc2` in one step (tiles, spec/15 R378)
  | wide                 -- a step that the instruction of its flight describes
deriving DecidableEq, Repr

/-- A release on a location (spec/07 R208): its wave, the phase after it, its scope, and whether it is that of a release fence
that an atomic of its thread has published. -/
structure Rel where
  wave : Nat
  ph : Nat
  scope : Nat
  fence : Bool := false
deriving DecidableEq, Repr

/-- What a synchronising step acts on (spec/07 R202, R208): a location, a counter of a region block, a slot of a ring, a barrier, an
engine or submission queue, a thread or launch, or nothing (a fence). -/
inductive SyncAt where
  | loc (a : Nat)
  | ctr (rcb idx : Nat)
  | slot (core ring k : Nat)
  | barrier (level num : Nat)
  | queue (core : Nat)
  | thread (id : Nat)
  | launch (id : Nat)
  | none
deriving DecidableEq, Repr

/-- A step of the synchronisation order S (spec/07 R202): the acting thread, its scope, its parts, and what it acts on. -/
structure SyncStep where
  tid : Nat
  scope : Nat
  rel : Bool
  acq : Bool
  at_ : SyncAt
deriving DecidableEq, Repr

/-- An operation that has issued and not performed: its key, its flight, its global line for the read cache, the bytes it
touches (a move reads `loc` and writes `loc2`), its scope, whether it has a release or acquire part, and whether what it
writes is race-checked (spec/07 R202-R208, R221). `tag` says which piece of its flight's data it is, `parts` lists
further ranges of it (address, location, length); `reads` and `writes` say
what a move or a wide step does to global memory; `sent` is the tick at which its request went to another device (spec/06 R188),
with the choice of installing the line that comes back from the host; `win` says that a tile move reaches scratch through a sharing
window, and `tries` counts its retries against an all-or-nothing store (spec/07 R216). -/
structure PendOp where
  oid : Nat
  uid : Nat
  kind : OpKind
  tag : Nat := 0
  loc : Nat := 0
  len : Nat := 0
  loc2 : Nat := 0
  len2 : Nat := 0
  stampOn : Bool := false
  line : Option (Nat × Nat) := none
  scope : Scope := .t
  rel : Bool := false
  acq : Bool := false
  issued : Nat := 0
  va : Nat := 0
  parts : List (Nat × Nat × Nat) := []
  reads : Bool := true
  writes : Bool := true
  sent : Option (Nat × Bool) := none
  win : Bool := false
  tries : Nat := 0
deriving DecidableEq, Repr

/-- Where a callee's frame or a return-combining buffer is stored (spec/05 R167): the gallery, an offset of its core's scratchpad, or
an address of its caller's thread-local stack. -/
inductive Place where
  | gallery
  | scratch (off : Nat)
  | stack (va : Nat)
deriving DecidableEq, Repr

/-- Where a thread executes an instruction: its address and clause, the thread's `x` and `c` there, and the flag that it names. -/
structure Site where
  pc : Pc
  hdr : Option (Pc × DWord)
  x0 : XPos
  x1 : XPos
  c : List XPos
  flag : Nat := 0
deriving DecidableEq, Repr

/-- A widen or gather call in progress (spec/05 R160-R169); `sites` holds where each caller called. -/
structure Call where
  id : Nat
  core : Nat
  launch : Nat
  caller : Nat
  gather : Bool
  w : Nat
  k : Nat
  f : Nat
  argc : Nat
  retc : Nat
  red : Nat
  age : Nat
  grant : Nat
  entry : Pc
  sites : List (Nat × Site) := []
  buf : List (Nat × List Word) := []
  bufAt : Place := .gallery
  live : List Nat := []
  args : List Word := []
  fmode : Word := 0
  tmshape : Word := 0
  mute : Bool := false
  callers : List Nat := []
  lent : Bool := false
  waiting : Bool := false
  framesHeld : Nat := 0
  iter : Nat := 0
  outer : List Nat := []
deriving DecidableEq, Repr

/-- What an instruction that sent a thread has changed for it, to be put back where its target fails (spec/12 R299): the stack, the width
values, a barrier's slot, and for the end of a fold or of a call the registers, the modes and the call. -/
structure Undo where
  rets : List RetEntry
  stk : List (Nat × Nat × Nat)
  tlsTop : Nat
  widths : List Nat
  widthDepth : Nat
  bar : Option BarSlot := none
  regs : Option (List Word) := none
  modes : Option (Word × Word × Bool) := none
  call : Option Call := none
deriving DecidableEq, Repr

/-- The instruction that sent a thread to its pc, and what it would undo (spec/12 R299). -/
structure Sender extends Site where
  isTret : Bool := false
  undo : Option Undo := none
deriving DecidableEq, Repr

/-- Where a thread is (spec/05 R153, spec/06 R193, spec/08 R228). -/
inductive TStat where
  | run (q : Nat)                  -- in a quarter
  | filing                         -- filed in this cycle (spec/05 R153)
  | filed (g : Nat)                -- waiting in a glade
  | parked (r : Nat)               -- in a sump record
  | suspended (call : Nat)         -- caller of a call that runs elsewhere
  | syscall (q : Nat) (slot : Option Nat)
  | trapping (g : Nat)             -- trap taken, handler not yet left
  | held (grp : Nat)               -- in a handler group held in the alcove (spec/12 R313)
  | waiting                        -- `ret`, spawn or call step that waits for a frame
  | ended
deriving DecidableEq, Repr

/-- Why a held error was reported (spec/08 R234). -/
inductive EQueue where
  | copy | mop | stream (e : Nat) | pair (q : Nat) | sigUnit | remoteSig
deriving DecidableEq, Repr

structure HeldErr where
  q : EQueue
  cause : Nat
  va : Nat
  ctr : Option Nat := none
deriving DecidableEq, Repr

/-- What a thread is: a root or spawned thread, a callee, or the handler of a thread (spec/05, spec/08). -/
inductive Role where
  | plain
  | widen (call : Nat)
  | gather (call : Nat)
  | handler (served : Nat) (group : Nat)
deriving DecidableEq, Repr

/-- A thread (spec/05 R144). `parity` lists its registers with a parity error, and whether a second read is good (spec/06 R198); `ctxBad`
says that its context, where it was parked, suspended or saved, holds an uncorrectable word (spec/08 R238). `carry` is the instruction whose flag it counts before it issues again (spec/10
R273), and `lastIssue` the cycle of its latest issue before it left a quarter (R270). `stk` lists what its thread-local stack holds, the latest push first: kind (0 a spilled return
entry, 1 a save of registers, 2 a return-combining buffer, 3 a callee's frame), address, length. `place` is where the frame of a
callee stands, and `startAt` the cycle before which the first instruction of its wave does not issue. -/
structure Thread where
  id : Nat := 0
  tid : Nat := 0
  path : List Nat := []
  role : Role := .plain
  launch : Nat := 0
  wave : Nat := 0
  core : Nat := 0
  homeQ : Nat := 0
  stat : TStat := .ended
  pc : Pc := 0
  hdr : Option (Pc × DWord) := none
  clause : Nat := 0
  rg : Nat := 16
  rgv : Nat := 16
  regs : List Word := []
  flags : List Nat := List.replicate 12 0
  rets : List RetEntry := []
  tlsBase : Nat := 0
  tlsLimit : Nat := 0
  tlsTop : Nat := 0
  stk : List (Nat × Nat × Nat) := []
  fmode : Word := 0
  tmshape : Word := 0
  mute : Bool := false
  widx : Nat := 0
  wcnt : Nat := 1
  wfold : Nat := 1
  gmask : Nat := 1
  gslot : Nat := 1
  sameDepth : Nat := 0
  widthDepth : Nat := 0
  spawnDepth : Nat := 0
  clockLatch : Option Word := none
  x0 : XPos := .undef
  x1 : XPos := .undef
  c : List XPos := List.replicate 8 .undef
  carry : Option (Pc × Nat) := none
  lastIssue : Option Nat := none
  parity : List (Nat × Bool) := []
  ctxBad : Bool := false
  pend : List PendOp := []
  errs : List HeldErr := []
  bars : List BarSlot := []
  kids : List Nat := []
  posts : List Nat := []
  sender : Option Sender := none
  waitSince : Option Nat := none
  place : Place := .gallery
  startAt : Nat := 0
  fenceRel : List Rel := []
  readRel : List Rel := []
  trapc : Word := 0
  trappc : Word := 0
  trapva : DWord := 0
deriving DecidableEq, Repr

/-! ### Quarters, waves, launches -/

/-- Why a quarter waits (spec/04 R122, R124): `counter` lists the counters that it names with their thresholds, `fault` what its threads
need of the sump (page, at level 4, cause, locked), and `queue` a submission queue with the places it needs. -/
inductive Wait where
  | barrier (level num : Nat)
  | counter (need : List (Nat × Nat))
  | ring (r : Nat)
  | join
  | fault (need : List (Nat × Bool × Nat × Bool))
  | tile (t : Nat)
  | mmaj (set : Nat)
  | queue (q n : Nat)
  | flags
deriving DecidableEq, Repr

/-- A long-latency instruction of the current clause with its lookahead (spec/10 R274). -/
structure Look where
  iss : Nat
  left : Nat
deriving DecidableEq, Repr

/-- A quarter (spec/05 R146): its slots, its place (a chamber slice or the gallery), pc and clause. `code` holds the words of its clause
as fetched (spec/03 R104), where they are, `startAt` the cycle before which its wave's first instruction does not issue, and `steps` how
many instructions it has issued in its gang (spec/05 R151). -/
structure Quarter where
  id : Nat
  core : Nat
  launch : Nat
  slots : List (Option Nat)
  rg : Nat
  slice : Option Nat := none
  pc : Pc
  hdr : Option (Pc × DWord) := none
  entered : Nat := 0
  lastIssue : Option Nat := none
  order : Nat := 0
  readySince : Nat := 0
  wait : Option Wait := none
  gang : Option Nat := none
  steps : Nat := 0
  fresh : Option Nat := none
  yieldUntil : Nat := 0
  startAt : Nat := 0
  code : List (Option DWord) := []
  looks : List Look := []
  handler : Option Nat := none
deriving DecidableEq, Repr

/-- Glade keys and glades (spec/05 R152): its waiting threads with the cycles of their filing; `reform` says that all of them were filed at a
reform point. -/
structure Glade where
  id : Nat
  core : Nat
  launch : Nat
  pc : Pc
  rg : Nat
  gather : Bool
  threads : List (Nat × Nat) := []
  reform : Bool := true
  call : Nat := 0
deriving DecidableEq, Repr

/-- A wave (spec/03 R108, spec/12 R314): waiting for a core, or placed. `floors` holds a floor for each barrier level: the level, the
numbers of its members, and F (spec/07 R223). -/
structure Wave where
  id : Nat
  launch : Nat
  number : Nat
  qpw : Nat
  regs : Nat
  scr : Nat
  entry : Pc
  arg : DWord
  baseTid : Nat
  since : Nat
  hint : Nat := 0xFFFF
  core : Option Nat := none
  scrBase : Nat := 0
  parent : Option Nat := none
  spawnDepth : Nat := 0
  live : Nat := 0
  exited : Bool := false
  ph : Nat := 0
  view : List (Nat × Nat) := []
  floors : List (Nat × List Nat × Nat) := []
  inexact : Bool := false
deriving DecidableEq, Repr

/-- Effective values of a region control block (spec/03 R109, R111). -/
structure Eff where
  prio : Nat := 0
  race : Bool := false
  fdom : Nat := 0
  fqbase : Nat := 0
  fqlog2 : Nat := 4
  evq : Nat := 0
  evqbase : Nat := 0
  evqlog2 : Nat := 4
  sysq : Nat := 0
  groves : Nat := 0
  frames : Nat := 0
  scrkb : Nat := 0
  galkb : Nat := 0
  qpairs : Nat := 0
  saveva : Nat := 0
  traph : Nat := 0
  dfbh : Nat := 0
  domh : Nat := 0
  wdog : Nat := 0
deriving DecidableEq, Repr

/-- An accepted launch (spec/03 R99-R113). `chain` holds each block of the chain with its effective values. -/
structure Launch where
  id : Nat := 0
  port : Nat := 0
  tag : DWord := 0
  rcb : Nat := 0
  eff : Eff := {}
  chain : List (Nat × Eff) := []
  khva : Nat := 0
  entry : Nat := 0
  codelen : Nat := 0
  tls : Nat := 0
  ver : Nat := 3
  regs : Nat := 2
  scr : Nat := 0
  qpw : Nat := 0
  nwaves : Nat := 1
  argva : DWord := 0
  tlsva : DWord := 0
  cplva : Nat := 0
  donectr : Nat := 0xFFFF
  fslots : List DWord := List.replicate 8 0
  grvbar : Nat := 0
  diebar : Nat := 0
  pkgbar : Nat := 0
  dombar : Nat := 0
  placeva : Nat := 0
  profva : Nat := 0
  maxph : Nat := 0
  phase : Nat := 0
  prof : List (Nat × Nat × Nat × Nat) := []
  profLost : Nat := 0
  order : Nat := 0
  spawns : Nat := 0
  ending : Option (Nat × Nat) := none
  retired : Bool := false
  wait : Option Nat := none
deriving DecidableEq, Repr

/-- A thread filed in this cycle: the pc it goes to, whether at a reform point, and for a gather caller the call that it makes. -/
structure Filing where
  tid : Nat
  pc : Pc
  reform : Bool := false
  call : Option Call := none
deriving DecidableEq, Repr

/-! ### Instructions in flight -/

/-- What remains to be done by a long-latency instruction when its operations have performed; `failed` is the cause and address
of an operation that failed, raised when the other threads of the issue have performed (spec/06 R190). `back` is what each thread of
a tile operation goes back to when it is withdrawn from its wait (spec/04 R124, spec/16 R396). -/
structure Flight where
  uid : Nat
  iss : Nat
  owner : Nat
  tids : List Nat
  qid : Nat
  core : Nat
  launch : Nat
  instr : Instr
  pc : Pc
  hdr : Option (Pc × DWord)
  clauses : List (Nat × Nat) := []
  flag : Nat := 0
  stage : Nat := 0
  nums : List Nat := []
  got : List (Nat × List Byte) := []
  writes : List (Nat × List (Spec × Word)) := []
  xres : List (Nat × Word) := []
  done : Bool := false
  failed : Option (Nat × Nat) := none
  back : List (Nat × Site) := []
deriving DecidableEq, Repr

/-! ### Units of a core and a grove -/

/-- Power states of a core (spec/02 R89). -/
inductive CPower where
  | c0 | c1 | c2 | c3
deriving DecidableEq, Repr

/-- Issue stage, shuttle, alcove and power of a core (spec/04 R126-R128, spec/08 R231, spec/02 R89). `move` lists the contexts on their
way: quarter, slice, first cycle and cycle after the last; `wake` holds a wake that came while it was gated (spec/02 R90); `busy` the launches that have issued, or had a macro-op step, in this
cycle. -/
structure CoreSt where
  core : Nat
  sliceUntil : List Nat := [0, 0, 0, 0]
  portUntil : List Nat := [0, 0, 0, 0]
  pickedAt : Option Nat := none
  move : List (Nat × Nat × Nat × Nat) := []
  alcove : Option Nat := none
  power : CPower := .c0
  idleSince : Nat := 0
  gatedSince : Nat := 0
  wake : Bool := false
  busy : List Nat := []
deriving DecidableEq, Repr

/-- A page record of a sump (spec/06 R193). `keep` holds each parked thread with its fetch or
access address and the flag that its instruction names. -/
structure SumpRec where
  id : Nat
  core : Nat
  fdom : Nat
  page : Nat
  cause : Nat
  lock : Bool
  kind : Nat
  level : Nat
  fetch : Bool
  write : Bool
  va : Nat
  rcb : Nat
  threads : List Nat := []
  keep : List (Nat × Nat × Nat) := []
  seq : Option Nat := none
  answer : Option (Option Nat) := none
deriving DecidableEq, Repr

/-- A fault or event entry waiting to be posted, or the claim of an engine step (spec/06 R183, spec/17 R408). `owner` names
the sump record, engine operation, launch port or collective entry that waits for the answer. -/
inductive FOwner where
  | sump (r : Nat) | engine (e : Nat) | port (p : Nat) | retire (l : Nat) | coll (e : Nat) | remote (e : Nat)
deriving DecidableEq, Repr

structure FaultPost where
  fdom : Nat
  owner : FOwner
  cause : Nat
  kind : Nat
  level : Nat
  fetch : Bool
  write : Bool
  nthr : Nat
  core : Nat
  rcb : Nat
  va : Nat
  seq : Option Nat := none
deriving DecidableEq, Repr

/-- A fault domain: where its queue is, the accepted HEAD once the queue is in use, header stores observed and not yet
acted on, and the invalidation in progress with the accesses it waits for (spec/06 R181-R187); `stopped` says that its header's
uncorrectable word has been found, and logged (spec/08 R238). `rcNew` lists the
frames, with their lengths, whose stamps the end of the invalidation clears, but for those of the 4 KiB frames `rcKeep`, which RC
covered before (spec/06 R197). -/
structure FaultDom where
  fdom : Nat
  base : Nat
  log2 : Nat
  accepted : Nat
  invSeen : Nat
  seen : List (Nat × Nat × Nat) := []
  inv : Option (Nat × Nat) := none
  waits : List Nat := []
  used : Bool := false
  stopped : Bool := false
  rcNew : List (Nat × Nat) := []
  rcKeep : List Nat := []
deriving DecidableEq, Repr

/-- A translation held by a TLB (spec/06 R187): `core` is 0 to 4,607, or 4,608 plus the grove for a second-level TLB. `ptrs` are the
table pointers that its walk has read: level, address bits above the table's reach, and the table. -/
structure TlbEnt where
  core : Nat
  fdom : Nat
  page : Nat
  shift : Nat
  attr : Nat
  frame : Nat
  ptrs : List (Nat × Nat × Nat) := []
deriving DecidableEq, Repr

/-- A table pointer that a die's page walker holds (spec/06 R187): the pointer of level 1 or 2 for the addresses with tag `tag`. -/
structure WalkEnt where
  die : Nat
  fdom : Nat
  level : Nat
  tag : Nat
  table : Nat
deriving DecidableEq, Repr

/-- A copy in a core's read cache (spec/06 R180); `err` is 1 with a single-bit error in it, 2 with an uncorrectable one (spec/06
R198, R199). -/
structure CopyLine where
  core : Nat
  fdom : Nat
  line : Nat
  bytes : List Byte
  err : Nat := 0
deriving DecidableEq, Repr

/-- A trap taken by threads of one quarter (spec/08 R228): waiting for pending writes, queued, or bound to the alcove. -/
inductive TrapPhase where
  | entering | queued | bound
deriving DecidableEq, Repr

structure TrapGroup where
  id : Nat
  core : Nat
  took : Nat := 0                     -- the cycle in which the trap was taken
  launch : Nat
  cause : Nat
  impr : Bool := false
  waitBit : Bool := false
  pc : Pc
  hdr : Option (Pc × DWord)
  flag : Nat
  members : List (Nat × Nat × Nat)   -- slot, thread, TRAPVA
  resume : List (Nat × Nat)          -- thread, resume address
  phase : TrapPhase := .entering
  handlers : List Nat := []
  left : List Nat := []
deriving DecidableEq, Repr

/-- Engine operations of the copy, stream and macro-op queues (spec/07 R213, spec/16 R400, spec/17 R409-R421). -/
inductive EngKind where
  | cpy (dstScr srcScr : Bool) (dst src len ctr : Nat)
  | cpyp (va frame ctr : Nat)
  | stream (e : Nat) (record : Nat)
  | mop (mmr : Bool) (desc : Nat)
  | sigld (slot src shape : Nat)
deriving DecidableEq, Repr

/-- An operation with its poster and its progress. `nums` is the step state of the kind, `got` what its 64-byte reads since its last step
point have found, and `lines` the lines of other devices that this step has read or written there: location, whether written, and 0, or
the cause of the failure. -/
structure EngOp where
  id : Nat
  core : Nat
  kind : EngKind
  poster : Nat
  wave : Nat
  launch : Nat
  fdom : Nat
  rcb : Nat
  stamp : Nat
  scrBase : Nat
  scrLen : Nat
  stage : Nat := 0
  i : Nat := 0
  nums : List Nat := []
  got : List (List Byte) := []
  lines : List (Nat × Bool × Nat) := []
  fault : Option Nat := none
  answer : Option Nat := none
deriving DecidableEq, Repr

/-- Who asked for an access to another device that is no operation of a pending set (spec/06 R188): an engine operation, the
instruction fetch of a core (thread 0) or a stack access of a thread, for a fault domain and an address, or a unit of the package. -/
inductive FarFor where
  | engine (e : Nat)
  | core (core fdom tid : Nat)
  | unit (fdom key : Nat)
  | hart (h : Nat)
deriving DecidableEq, Repr

/-- Such a request, or one to the host (spec/01 R32), which waits for its response: its key, its location, the address it was translated from, whether it writes, and the
tick at which it was sent. -/
structure FarReq where
  id : Nat
  who : FarFor
  loc : Nat
  va : Nat
  write : Bool
  at_ : Nat
deriving DecidableEq, Repr

/-- A line of another device, or of the host, that a core has read for its instruction fetch (thread 0) or for a stack access of a thread: its
address / 64, its location, and 0 or the cause of the failure. Its bytes stand in memory. -/
structure FarLine where
  core : Nat
  fdom : Nat
  tid : Nat
  line : Nat
  loc : Nat
  cause : Nat
deriving DecidableEq, Repr

/-- A destination range on a core's scoreboard (spec/07 R215). -/
structure Range where
  core : Nat
  op : Nat
  fdom : Nat := 0
  lo : Nat
  len : Nat
  scratch : Bool
deriving DecidableEq, Repr

/-- Ring slots and rings (spec/17 R420-R422). -/
inductive SlotSt where
  | empty | full | held (wave : Nat)
deriving DecidableEq, Repr

structure RingSlot where
  st : SlotSt := .empty
  valid : Nat := 0
  prod : Nat := 0
  last : Bool := false
  rel : List (Nat × Nat) := []
  many : Bool := false
deriving DecidableEq, Repr

structure Ring where
  core : Nat
  num : Nat
  launch : Nat
  owner : Nat
  drain : Bool
  slotOff : Nat
  slotBytes : Nat
  nprod : Nat
  prods : List Nat := []
  marks : List Nat := []
  slots : List RingSlot
  fillAt : Nat := 0
  takeAt : Nat := 0
  closed : Bool := false
deriving DecidableEq, Repr

/-- A wave-tile that is not all zero and free (spec/16 R385, R386); `err` is 1 with a single-bit error in it, 2 with an uncorrectable one
(spec/06 R198, R199). -/
structure Tile where
  core : Nat
  t : Nat
  holder : Option Nat
  words : List Word
  err : Nat := 0
deriving DecidableEq, Repr

/-- A transformed-mean pair slot, family 4 + p (spec/09 R264). -/
structure PairTab where
  core : Nat
  p : Nat
  launch : Nat
  bytes : List Byte
deriving DecidableEq, Repr

/-- The fibre CAM of a core (spec/15 R381). -/
structure Cam where
  core : Nat
  launch : Nat
  entries : List (Option (Word × Word))
deriving DecidableEq, Repr

/-- A sharing table (spec/06 R178): member number and wave. `closing` lists the members whose withdrawal is in progress: a `gleave`,
or the exit of the wave (spec/06 R179). -/
structure ShareTab where
  grove : Nat
  launch : Nat
  members : List (Nat × Nat)
  closing : List (Nat × Nat) := []
deriving DecidableEq, Repr

/-- A signature slot of a grove (spec/17 R423). -/
structure SigSlot where
  grove : Nat
  slot : Nat
  launch : Nat
  sb : Nat
  d : Nat
  mat : List (BitVec 16)
deriving DecidableEq, Repr

/-- A partner set of `mmaj` (spec/16 R394, R395). -/
structure MmajPartner where
  pos : Nat
  uid : Nat
  acc : Nat
  z : Bool
  sA : Nat
  sB : Nat
deriving DecidableEq, Repr

structure MmajSet where
  id : Nat
  launch : Nat
  copse : Nat
  lane : Nat
  quarter : Nat
  tag : Nat
  since : Nat
  partners : List MmajPartner
deriving DecidableEq, Repr

/-- A barrier node (spec/04 R131): `place` is the core, grove, die, 0, or the root device's id at the levels 0 to 4; at the
wave level `place` is the wave. An arrival is a unit, with its phase for the race checker. -/
structure BarNode where
  level : Nat
  place : Nat
  num : Nat
  launch : Nat
  count : Nat
  units : List (Nat × Nat) := []
  remote : List (Nat × Nat) := []
deriving DecidableEq, Repr

/-- Arrivals on their way up (spec/04 R131, R132): level, place, number, unit, count, launch, phase, root, and the cycle and core in
which they were made. -/
structure BarMsg where
  level : Nat
  place : Nat
  num : Nat
  unit : Nat
  count : Nat
  launch : Nat
  ph : Nat
  root : Nat
  cycle : Nat := 0
  core : Nat := 0
deriving DecidableEq, Repr

/-- Counters bound to a region block (spec/17 R416): only those that are not 0 or have releasing waves are listed. -/
structure Ctr where
  rcb : Nat
  idx : Nat
  val : Nat
  rel : List (Nat × Nat) := []
  many : Bool := false
deriving DecidableEq, Repr

/-! ### Collectives (spec/01 R48-R67, R447-R451) -/

/-- A posted work entry, or an `rlinv` (spec/17 R415), of a submission queue: its bytes or descriptor address, its poster, the
stamp of the poster's phase, whether it has been armed (spec/01 R56), and a fault that its start waits for. -/
structure SubEnt where
  eid : Nat
  rlinv : Bool
  bytes : List Byte
  desc : Nat
  poster : Nat
  wave : Nat
  launch : Nat
  fdom : Nat
  stamp : Nat := 0
  armed : Bool := false
  fault : Option Nat := none
  answer : Option Nat := none
deriving DecidableEq, Repr

structure RetRec where
  tag : DWord
  op : Nat
  outcome : Nat
deriving DecidableEq, Repr

structure QPair where
  rcb : Nat
  q : Nat
  subs : List SubEnt := []
  rets : List RetRec := []
deriving DecidableEq, Repr

/-- A started entry on its ring sequencer (spec/01 R48-R64): the fields of its work entry, its descriptor, its communicator, the
rank and device it sends to; the chunks of its own that it has begun, the chunks it has sent and written, and the next element of a `putr` to this device; the barrier tokens it
has sent (spec/22 R447); when it was served last; and a fault that its step waits for. -/
structure CollEnt where
  eid : Nat
  rcb : Nat
  q : Nat
  poster : Nat
  wave : Nat
  launch : Nat
  fdom : Nat
  stamp : Nat
  port : Nat
  op : Nat
  tag : DWord
  dsc : Nat
  cid : Nat
  rank : Nat
  nrank : Nat
  seq : Nat
  len : Nat
  dst : Nat
  src : Nat
  rctr : Nat
  peer : Nat
  donectr : Nat
  rsig : Bool
  prio : Nat
  ty : Nat
  red : Nat
  succ : Nat
  sdev : Nat
  own : Nat := 0
  sent : Nat := 0
  wrote : Nat := 0
  elem : Nat := 0
  toks : Nat := 0
  served : Nat := 0
  fault : Option Nat := none
  answer : Option Nat := none
deriving DecidableEq, Repr

/-- A chunk that has arrived from the predecessor and is not consumed: in the landing reserve (`parked`, its bytes in memory;
spec/01 R63, R450), or waiting for its turn. -/
structure InChunk where
  seq : Nat
  c : Nat
  seg : Nat
  off : Nat
  len : Nat
  gather : Bool
  src : Nat
  parked : Bool := false
  bytes : List Byte := []
deriving DecidableEq, Repr

/-- A token that its receiver refused (spec/22 R449): a completion token of chunk `c` (circuit 0) or a barrier token, with the
device and rank it goes to and the tick from which it is sent again. -/
structure KeptTok where
  dev : Nat
  rank : Nat
  seq : Nat
  circuit : Nat
  c : Nat
  at_ : Nat
deriving DecidableEq, Repr

/-- An open communicator of a rank of this device (spec/01 R50-R52). `gen` is the GEN of its list as last read and `dgen` that of its
descriptor, `cached` is the part of its rank list in the cache, `place` the entries that it has room for there, `reread`
says that an `rlinv` has named it; `sent` counts the chunks sent to each successor rank, `acked` lists the chunks whose tokens
came back and still open a place; `chunks` are the arrived ones in arrival order, `toks` the barrier tokens (SEQ, circuit) that
wait, `elems` the next element of a `putr` that arrives on a channel, `failed` the failed SEQs with their causes, `badPuts` the puts that have failed here, `untold` the
failures that its successor has not been told of; `fault` names the port and channel
whose head waits for an answer. -/
structure Comm where
  id : Nat
  cid : Nat
  rank : Nat
  nrank : Nat
  gen : Nat
  dgen : Nat := 0
  vc : Nat
  win : Nat
  landva : Nat
  rlva : Nat
  rcb : Nat
  eff : Eff
  cached : List Nat := []
  place : Nat := 0
  reread : Bool := false
  succDev : Option Nat := none
  maxSeq : Option Nat := none
  sent : List (Nat × Nat) := []
  acked : List (Nat × Nat) := []
  chunks : List InChunk := []
  toks : List (Nat × Nat) := []
  kept : List KeptTok := []
  failed : List (Nat × Nat) := []
  badPuts : List (Nat × Nat) := []
  untold : List (Nat × Nat) := []
  elems : List (Nat × Nat) := []
  fault : Option (Nat × Nat) := none
  answer : Option Nat := none
deriving DecidableEq, Repr

/-! ### Pre-emption and quiescence -/

/-- The scratch of a wave of a saved region: bytes, the stamp of each sector, and release sequences by offset. -/
structure SavedScr where
  wave : Nat
  bytes : List Byte
  stamps : List Nat
  rel : List (Nat × List Rel)
deriving DecidableEq, Repr

/-- A region being saved (stage 1), saved (stage 2) or restored (stage 3) (spec/04 R136-R143); `again` says that a timer's request has
come while it is restored (R143). `drained` lists its launches whose drain is
declared; the rest is what its cores hold of it while it is saved: scratch with its stamps and release sequences by wave, and
the records of the units. -/
structure Preempt where
  rcb : Nat
  reason : Nat
  since : Nat
  stage : Nat := 1
  saveva : Nat := 0
  savedAt : Nat := 0
  drained : List Nat := []
  again : Bool := false
  scr : List SavedScr := []
  tiles : List Tile := []
  pairs : List PairTab := []
  cams : List Cam := []
  sigs : List SigSlot := []
  shares : List ShareTab := []
  rings : List Ring := []
  sump : List SumpRec := []
  engines : List EngOp := []
  ranges : List Range := []
  alcoves : List (Nat × Nat) := []
  bars : List BarNode := []
  barMsgs : List BarMsg := []
deriving DecidableEq, Repr

/-- A lane of the quiescence tree, bound to a launch (spec/04 R134, R135): since which cycle its AND has been true,
whether a token of a domain sweep of it is on its way, and the domain barriers whose sweeps have come back true. -/
structure Lane where
  launch : Nat
  since : Option Nat := none
  sweep : Bool := false
  swept : List Nat := []
deriving DecidableEq, Repr

/-- A launch port (spec/03 R95). -/
structure LPort where
  staged : List Byte := List.replicate 256 0
  queue : List (List Byte) := []
  full : Bool := false
  posted : Nat := 0
  retired : Nat := 0
  fault : Option Nat := none
  answer : Option Nat := none
deriving DecidableEq, Repr

/-- Registers of a system-call queue (spec/02 R83-R87); the calls parked at its slots (slot, thread, flag of the `sysc`), the
callers that wait for a slot (thread, number, flag), and completions kept for a saved region. -/
structure SysQ where
  base : Nat := 0
  en : Bool := false
  log2 : Nat := 0
  tail : Nat := 0
  slots : List (Nat × Nat × Nat) := []
  waiting : List (Nat × Nat × Nat) := []
  kept : List (Nat × Bool) := []
deriving DecidableEq, Repr

/-- An entry of the error log (spec/02 R93). -/
structure ErrRec where
  cause : Nat
  unit : Nat
  pa : Nat
deriving DecidableEq, Repr

/-- An HDM decoder (spec/01 R18). -/
structure CDec where
  base : Nat := 0
  size : Nat := 0
  target : Nat := 0
  ways : Nat := 0
  gran : Nat := 0
  committed : Bool := false
  err : Bool := false
  lostPorts : List Nat := []
deriving DecidableEq, Repr

/-- THE COMPUTE PART: memory, threads, the units of cores and groves, engines, collectives and launch ports. `ilines` lists the
lines (core, fault domain, address / 64) that are present in instruction caches, the latest use first, and `ierrs` those with an error: 1 a
single-bit one, 2 an uncorrectable one (spec/06 R198, R199). `cxlFail` lists the lines
for which their CXL device or the host answers with an error (spec/01 R20, R22, R32), `pe0ep` is the strap (R28), `far` is empty
between steps: it collects what an engine step writes to other devices (location, address, bytes); `rcOn` lists the pages that have been
written under RC (fault domain, address and frame, in 4 KiB pages; spec/06 R197); `lateFails` keeps failures (CID,
SEQ, cause) of communicators that are not open here yet (R67), `closed` the CIDs closed here with the highest SEQ started under each, and `sigOld` has the
ORs of this cycle: channel, its value before them, and what they set (spec/02 R80). -/
structure Mach where
  cycle : Nat := 0
  free : Nat := 0
  next : Nat := 1
  latch : List Nat := []
  cur : Nat := 0
  fired : List Nat := []
  mem : Memory := []
  decs : List CDec := List.replicate 32 {}
  cxlFail : List Nat := []
  pe0ep : Bool := false
  hostwin : Nat := 0
  stamps : List (Nat × Nat) := []
  relAt : List (Nat × List Rel) := []
  order : List SyncStep := []
  eccSingle : List Nat := []
  eccDouble : List Nat := []
  threads : List Thread := []
  quarters : List Quarter := []
  glades : List Glade := []
  filing : List Filing := []
  waves : List Wave := []
  launches : List Launch := []
  calls : List Call := []
  flights : List Flight := []
  cores : List CoreSt := []
  sump : List SumpRec := []
  posts : List FaultPost := []
  doms : List FaultDom := []
  filters : List (Nat × Nat × Nat) := []
  tlbs : List TlbEnt := []
  walks : List WalkEnt := []
  copies : List CopyLine := []
  ilines : List (Nat × Nat × Nat) := []
  ierrs : List (Nat × Nat × Nat × Nat) := []
  traps : List TrapGroup := []
  engines : List EngOp := []
  ranges : List Range := []
  reqs : List FarReq := []
  far : List (Nat × Nat × List Byte) := []
  farLines : List FarLine := []
  rcOn : List (Nat × Nat × Nat) := []
  rings : List Ring := []
  tiles : List Tile := []
  pairs : List PairTab := []
  cams : List Cam := []
  shares : List ShareTab := []
  sigs : List SigSlot := []
  mmajs : List MmajSet := []
  bars : List BarNode := []
  barMsgs : List BarMsg := []
  ctrs : List Ctr := []
  bound : List (Nat × Nat) := []
  qpairs : List QPair := []
  colls : List CollEnt := []
  comms : List Comm := []
  lateFails : List (Nat × Nat × Nat) := []
  closed : List (Nat × Nat) := []
  out : List Msg := []
  preempts : List Preempt := []
  lanes : List Lane := []
  lports : List LPort := List.replicate 16 {}
  sysqs : List SysQ := List.replicate 16 {}
  sigpend : List Word := List.replicate 16 0
  sigOld : List (Nat × Word × Word) := []
  secnt : List (Nat × Nat × Nat) := []
  errLog : List ErrRec := []
  errOver : Nat := 0
  cxlErrs : List Nat := []
  sigWaits : List (Nat × Nat × Nat) := []
  dispatchAt : List (Nat × Nat) := []
deriving DecidableEq, Repr

/-! ### The package -/

/-- A fabric port (spec/01 R33-R47): registers, the input and output of its eight virtual channels, link state. `outq` lists
the flits to send: each with its channel, and with the message that it completes, if it is the last of one; `replay` lists the
flits sent and not acknowledged; `recent` the ticks of the latest replays; `vc0At` the flit times of the latest class-0 flits;
`ask` says that a replay is to be asked for, `askedAt` the tick at which one that has not begun was asked for, and `wire` is the flit sent in the latest flit time. -/
structure FPort where
  ctlEn : Bool := true
  maxver : Nat := 3
  bulkReq : Nat := 5
  bulkRsp : Nat := 6
  useReq : Nat := 5
  useRsp : Nat := 6
  weight : Nat := 0x111111
  state : Nat := 0
  ver : Nat := 0
  peer : Nat := 0
  rtt : Nat := 0
  hold : Nat := 0
  replays : Nat := 0
  err : Nat := 0
  inq : List (Nat × Msg) := []
  inFlits : List Nat := List.replicate 8 0
  holding : List Nat := []
  outq : List (Nat × Option Msg) := []
  txSeq : Nat := 0
  rxSeq : Nat := 0
  replay : List (Nat × Nat × Option Msg) := []
  recent : List Nat := []
  flitTime : Nat := 0
  vc0At : List Nat := []
  turn : Nat := 1
  left : Nat := 1
  vc7 : Nat := 0
  downSince : Option Nat := none
  replayFrom : Option Nat := none
  ask : Bool := false
  askedAt : Option Nat := none
  wire : Option Flit := none
deriving DecidableEq, Repr

/-- A CXL port (spec/01 R23). -/
structure CPort where
  state : Nat := 0
  speed : Nat := 0
  width : Nat := 0
  poison : Bool := false
  ldown : Bool := false
  dcevt : Bool := false
  replays : Nat := 0
deriving DecidableEq, Repr

/-- A PCIe port (spec/01 R24-R32). -/
structure PPort where
  up : Bool := false
  width : Nat := 0
  speed : Nat := 0
  iommuLog : List Nat := []
  unsupported : Nat := 0
deriving DecidableEq, Repr

/-- A region timer (spec/02 R82), with the tick of its latest firing. -/
structure RTimer where
  cmp : Nat := 0
  per : Nat := 0
  rcb : Nat := 0
  en : Bool := false
  fired : Bool := false
  pre : Bool := false
  int : Bool := false
  ctrerr : Bool := false
  ctr : Nat := 0xFFFF
  firedAt : Option Nat := none
deriving DecidableEq, Repr

/-- Interrupt route entries and delivery (spec/02 R76-R79). -/
structure IRoute where
  en : Bool := false
  pend : Bool := false
  hart : Nat := 0
  file : Nat := 0
  eiid : Nat := 0
deriving DecidableEq, Repr

/-- Interrupt state: route entries not at their reset value, pending identities (hart, file, identity), wired inputs,
MSI-X vectors raised to the host, MSI-X enable (bit 1) and function mask (bit 0), the vectors whose mask bit is 0 and those that are pending (spec/01 R30), and the function-level
resets that the control cores have been interrupted for (spec/01 R31, log 97). -/
structure Irq where
  routes : List (Nat × IRoute) := []
  imsic : List (Nat × Nat × Nat) := []
  wired : List Nat := []
  msix : List Nat := []
  msixCtl : Nat := 0
  msixOpen : List Nat := []
  msixPend : List Nat := []
  flrs : Nat := 0
deriving DecidableEq, Repr

/-- A route entry (spec/02 R75). -/
structure Route where
  v : Bool := false
  prim : Nat := 0
  alt1 : Nat := 31
  alt2 : Nat := 31
  alt3 : Nat := 31
deriving DecidableEq, Repr

/-- A grove's power register (spec/02 R91). -/
structure GPwr where
  err : Bool := false
  idle : Nat := 100
  tgt : Nat := 0
  state : Nat := 0
deriving DecidableEq, Repr

/-- A mailbox's doorbells (spec/02 R88); its RAM stands in memory. -/
structure Mbox where
  inbell : Word := 0
  outbell : Word := 0
deriving DecidableEq, Repr

/-- A control core as the package sees it (spec/02 R70): `run` is its jump to the image's entry in M-mode, with `a0` and `a1`. -/
inductive HartSt where
  | reset | rom | wfi | run (entry a0 a1 : Nat) | halted
deriving DecidableEq, Repr

/-- A compute die (spec/02 R72): held in reset, resetting since a tick, or running since a cycle. -/
inductive DieSt where
  | held | resetting | run (origin : Nat)
deriving DecidableEq, Repr

/-- THE PACKAGE PART: what the control cores, the board, the host and the link partners see. `hartFaults` lists the access faults that
control cores have taken (spec/02 R73, R93): hart and address. `pe0pin` and `idpins` are the levels of the straps PE0_EP and DEVID[11:0], sampled at power-on reset (spec/01 R28, spec/13 R335). `epCmd` and `epBar` are the command register and BAR0 of port 0's function
in endpoint mode (spec/01 R29). -/
structure Sys where
  powerGood : Bool := false
  thermtrip : Bool := false
  pe0pin : Bool := false
  idpins : BitVec 12 := 0
  devid : Nat := 0
  fuses : List Byte := []
  flash : List Byte := []
  harts : List HartSt := List.replicate 16 .reset
  dies : List DieSt := List.replicate 4 .held
  bootErr : Bool := false
  bootHost : Bool := false
  ticks : Nat := 0
  mtimeOff : Nat := 0
  mtimecmp : List Nat := List.replicate 16 0
  stimecmp : List Nat := List.replicate 16 0
  vstimecmp : List Nat := List.replicate 16 0
  hartFaults : List (Nat × Nat) := []
  pkgRun : Nat := 0
  plimit : Nat := 3400
  seThr : Nat := 0xFFFF
  seFired : List Nat := []
  pkgPwr : Nat := 0
  rails : List Nat := List.replicate 4 0
  temps : List Int := List.replicate 64 0
  clkf : Nat := 1700
  throtPwr : Bool := false
  throtTherm : Bool := false
  pwrWindow : List Nat := []
  fports : List FPort := List.replicate 18 {}
  cports : List CPort := List.replicate 12 {}
  pports : List PPort := List.replicate 2 {}
  routes : List (Nat × Route) := []
  irq : Irq := {}
  rtimers : List RTimer := List.replicate 16 {}
  gpwr : List (Nat × GPwr) := []
  mboxes : List Mbox := List.replicate 16 {}
  i3cAddr : Option Nat := none
  epCmd : Nat := 0
  epBar : Nat := 0
  lastRead : DWord := 0
  lastBytes : List Byte := []
  nack : Bool := false
deriving DecidableEq, Repr

/-- What is still to come (log 1): a step of the package, the passing of arithmetic cycles, a level of the strap PE0_EP, or the levels of the
straps DEVID[11:0]. -/
inductive Turn where
  | ev (i : Instr)
  | tick (n : Nat)
  | strap (ep : Bool)
  | strapId (id : BitVec 12)
deriving DecidableEq, Repr

end Sys2Proof.Machine

namespace Sys2Proof.Machine

/-- THE STATE. -/
structure State where
  mach : Mach
  sys : Sys
  agenda : List Turn
deriving DecidableEq, Repr

/-- THE MACHINE RIGHT AFTER POWER-ON RESET (spec/02 R70): RESET_N is still low, every core and die is held, every register
at its reset value, memory with nothing listed. -/
def State.reset : State := { mach := {}, sys := {}, agenda := [] }

end Sys2Proof.Machine
end

