-- ==== Sys2Proof/Machine/Util.lean ====
section
/-! DEFINITION. Bit fields of numbers, little-endian bytes (spec/01 R50), and sparse tables with a default value. -/

namespace Sys2Proof.Machine

/-- Bits `lo` to `lo + w - 1` of a number. -/
def bits (n lo w : Nat) : Nat := n / 2 ^ lo % 2 ^ w

/-- Bit `i` of a number. -/
def tbit (n i : Nat) : Bool := n / 2 ^ i % 2 == 1

/-- The number with bit `i` set or cleared. -/
def setBit (n i : Nat) (b : Bool) : Nat :=
  if tbit n i = b then n else if b then n + 2 ^ i else n - 2 ^ i

/-- Bytes as a little-endian number. -/
def ofBytes : List Byte → Nat
  | [] => 0
  | b :: r => b.toNat + 256 * ofBytes r

/-- The low `len` bytes of a number, lowest first. -/
def toBytes : Nat → Nat → List Byte
  | _, 0 => []
  | n, len + 1 => BitVec.ofNat 8 n :: toBytes (n / 256) len

/-- Words as bytes, and bytes as words. -/
def wordsBytes (ws : List Word) : List Byte := ws.flatMap fun w => toBytes w.toNat 4

def bytesWords : Nat → List Byte → List Word
  | 0, _ => []
  | n + 1, bs => BitVec.ofNat 32 (ofBytes (bs.take 4)) :: bytesWords n (bs.drop 4)

/-- A word of a list by index, zero beyond its end. -/
def nth {α : Type} [Inhabited α] (l : List α) (i : Nat) : α := l.getD i default

/-- The elements with their positions. -/
def enum {α : Type} (l : List α) : List (Nat × α) := (List.range l.length).zip l

/-- Updating one position. -/
def modAt {α : Type} (l : List α) (i : Nat) (f : α → α) : List α := l.mapIdx fun j x => if j = i then f x else x

/-- A sparse table: the value of a key, or the default. -/
def look {α : Type} (d : α) (l : List (Nat × α)) (k : Nat) : α :=
  match l.find? (fun p => p.1 == k) with
  | some p => p.2
  | none => d

/-- The table with the value of a key replaced. -/
def put {α : Type} (l : List (Nat × α)) (k : Nat) (v : α) : List (Nat × α) :=
  (k, v) :: l.filter fun p => p.1 != k

/-- Two's-complement reading of `w` bits. -/
def sInt (w n : Nat) : Int := if n % 2 ^ w < 2 ^ (w - 1) then (n % 2 ^ w : Int) else (n % 2 ^ w : Int) - 2 ^ w

/-- An integer modulo 2^w. -/
def uMod (w : Nat) (i : Int) : Nat := (i % (2 ^ w : Int)).toNat

/-- An integer as a word, modulo 2^32. -/
def wI (i : Int) : Word := BitVec.ofInt 32 i
def wN (n : Nat) : Word := BitVec.ofNat 32 n

/-- `u(w)` and `s(w)` of spec/13 R319. -/
def uW (w : Word) : Int := w.toNat
def sW (w : Word) : Int := w.toInt

/-- All of a list hold. -/
def nodup : List Nat → Bool
  | [] => true
  | a :: r => !r.contains a && nodup r

/-- Insertion into a list sorted by a key; sorting. -/
def insertBy {α : Type} (le : α → α → Bool) (a : α) : List α → List α
  | [] => [a]
  | b :: r => if le a b then a :: b :: r else b :: insertBy le a r

def sortBy {α : Type} (le : α → α → Bool) : List α → List α
  | [] => []
  | a :: r => insertBy le a (sortBy le r)

/-- The least element under an order, the first among equals. -/
def minBy {α : Type} (lt : α → α → Bool) : List α → Option α
  | [] => none
  | a :: r =>
    match minBy lt r with
    | none => some a
    | some b => if lt b a then some b else some a

/-- Lexicographic order of lists of numbers, a prefixing list first (spec/05 R145). -/
def lexLt : List Nat → List Nat → Bool
  | [], [] => false
  | [], _ :: _ => true
  | _ :: _, [] => false
  | a :: r, b :: t => if a = b then lexLt r t else decide (a < b)

/-- Number of one bits below `n`. -/
def popBelow (x : Nat) : Nat → Nat
  | 0 => 0
  | n + 1 => popBelow x n + (if tbit x n then 1 else 0)

end Sys2Proof.Machine
end

