-- ==== Sys2Proof/Machine/Flags.lean ====
section
/-! DEFINITION. The completion flags of a thread (spec/10 R271-R273). No instruction of this machine sets an arithmetic
flag: carries and borrows travel in registers (spec/13 R321). -/

namespace Sys2Proof.Machine

def Thread.flagUp (t : Thread) (f : Nat) : Thread :=
  if f = 0 then t else { t with flags := modAt t.flags (f - 1) (· + 1) }
def Thread.flagDown (t : Thread) (f : Nat) : Thread :=
  if f = 0 then t else { t with flags := modAt t.flags (f - 1) (· - 1) }
def Thread.flag (t : Thread) (f : Nat) : Nat := if f = 0 then 0 else nth t.flags (f - 1)

/-- The instruction at `pc` is one that the thread re-issues and whose count is outstanding. -/
def Thread.carries (t : Thread) (pc : Pc) : Bool := t.carry.any fun c => c.1 == pc

/-- The count of the instruction at `pc` is outstanding: added once, and carried by a retry or replay (spec/10 R273). -/
def Thread.carryFlag (t : Thread) (pc : Pc) (f : Nat) : Thread :=
  if f = 0 then t else if t.carries pc then t else { t.flagUp f with carry := some (pc, f) }

/-- An instruction that completes at issue removes a count it carried. -/
def Thread.uncarry (t : Thread) (pc : Pc) (f : Nat) : Thread :=
  if f ≠ 0 && t.carries pc then { t.flagDown f with carry := none } else t

/-- The instruction that a thread re-issues has completed: the count that it carried is removed. -/
def Thread.uncarried (t : Thread) : Thread :=
  match t.carry with
  | some c => { t.flagDown c.2 with carry := none }
  | none => t

/-- Every flag of the thread is signalled, but for the count of the instruction that it re-issues. -/
def Thread.flagsClear (t : Thread) : Bool := t.uncarried.flags.all fun n => n == 0

/-- The FLAG field of a word, where it names a flag. -/
def wordFlag (w : DWord) : Nat := let f := bits w.toNat 46 4; if f ≤ 12 then f else 0

/-- The wait mask of a clause header is met (spec/10 R271): bit f - 1 of WAIT stands for flag f. -/
def Thread.maskMet (t : Thread) (wait : BitVec 12) : Bool :=
  (enum t.flags).all fun p => !tbit wait.toNat p.1 || p.2 == 0

/-- The flag can take one more instruction, or the instruction at `pc` already carries its count (spec/10 R271). -/
def Thread.flagRoom (t : Thread) (pc : Pc) (f : Nat) : Bool := f == 0 || t.carries pc || decide (t.flag f < 15)

end Sys2Proof.Machine
end

