-- ==== Sys2Proof/Machine/Ops.lean ====
section
/-! DEFINITION. The named operations over the state: locations and bytes, the tables of threads, quarters and waves,
the advance of a quarter, filing (spec/05 R152-R156), ending a launch, and taking an exception (spec/08 R227, R228). -/

namespace Sys2Proof.Machine

/-! ### Locations -/

/-- Byte `o` of the scratchpad of core `k`. -/
def scrLoc (k o : Nat) : Nat := 2 ^ 66 + k * 2 ^ 18 + o

/-- Package physical address `pa` of device `d` other than this one. -/
def remLoc (d pa : Nat) : Nat := 2 ^ 52 * (1 + d) + pa

/-- Is the location in a scratchpad; in another device. -/
def isScr (loc : Nat) : Bool := 2 ^ 66 ≤ loc
def isRem (loc : Nat) : Bool := 2 ^ 52 ≤ loc && !isScr loc

/-- What a package physical address is (spec/02 R73). -/
inductive PKind where
  | cavern | pcie (p : Nat) | cxl | regs | other
deriving DecidableEq, Repr

def pkind (pa : Nat) : PKind :=
  if Config.cavernBase ≤ pa ∧ pa < Config.cavernBase + Config.cavernSize then .cavern
  else if Config.pcie0Base ≤ pa ∧ pa < Config.pcie0Base + Config.pcieWindow then .pcie 0
  else if Config.pcie1Base ≤ pa ∧ pa < Config.pcie1Base + Config.pcieWindow then .pcie 1
  else if Config.cxlBase ≤ pa ∧ pa < Config.cxlBase + Config.cxlSize then .cxl
  else if Config.regBase ≤ pa ∧ pa < Config.regBase + 0x1000000 then .regs
  else .other

/-- The range lies wholly in cavern. -/
def inCavern (pa len : Nat) : Bool := Config.cavernBase ≤ pa && pa + len ≤ Config.cavernBase + Config.cavernSize

/-- CORE of an access that no core makes (spec/17 R408): a launch port's, the control cores', the host's or another device's; no TLB
holds anything for it, and no soft-error count counts for it. -/
def portCore : Nat := 0xFFFF

/-- The key under which the device writes its tables (spec/04 R118, R141) to another device. -/
def tableKey : Nat := 1023

def coreGrove (k : Nat) : Nat := k / Config.coresPerGrove
def coreDie (k : Nat) : Nat := k / Config.coresPerDie
def groveDie (g : Nat) : Nat := g / Config.grovesPerDie

/-! ### Bytes -/

/-- `len` bytes from a location. -/
def Memory.bytes (mem : Memory) (a : Nat) : Nat → List Byte
  | 0 => []
  | n + 1 => mem.read a :: Memory.bytes mem (a + 1) n

/-- Writing bytes from a location on. -/
def Memory.put (mem : Memory) : Nat → List Byte → Memory
  | _, [] => mem
  | a, b :: r => Memory.put (mem.write a b) (a + 1) r

/-! ### The CXL window (spec/01 R16-R21) -/

/-- Way counts of WAYS; none refuses a commit (spec/01 R18). -/
def waysOf : Nat → Option Nat
  | 0 => some 1
  | 1 => some 2
  | 2 => some 4
  | 3 => some 8
  | 8 => some 3
  | 9 => some 6
  | 10 => some 12
  | _ => none

def CDec.port (d : CDec) (way : Nat) : Nat := bits d.target (4 * way) 4

def CDec.granule (d : CDec) : Nat := 256 * 2 ^ d.gran

def CDec.nways (d : CDec) : Nat := (waysOf d.ways).getD 1

/-- The committed decoder that covers an address (spec/01 R17). -/
def Mach.decoder (m : Mach) (pa : Nat) : Option CDec :=
  m.decs.find? fun d => d.committed && d.base ≤ pa && decide (pa < d.base + d.size)

/-- The port an address of the CXL window maps to (spec/01 R16). -/
def CDec.portOf (d : CDec) (pa : Nat) : Nat := d.port ((pa - d.base) / d.granule % d.nways)

/-- The device physical address behind an address of the CXL window (spec/01 R16). -/
def CDec.dpa (d : CDec) (pa : Nat) : Nat :=
  let off := pa - d.base
  off / (d.granule * d.nways) * d.granule + off % d.granule

/-- A byte of the memory behind a CXL port. -/
def cxlLoc (port dpa : Nat) : Nat := 2 ^ 65 + port * 2 ^ 53 + dpa

/-- A byte of host memory, at a bus address of 64 bits (spec/01 R32). -/
def hostLoc (bus : Nat) : Nat := 2 ^ 65 + 2 ^ 64 + bus % 2 ^ 64

/-- The location lies in the host window (spec/01 R32). -/
def Mach.inHost (m : Mach) (loc : Nat) : Bool := m.pe0ep && pkind loc == .pcie 0

/-- Where the byte of a location stands: an address that a committed decoder covers names a byte of a CXL device (spec/01 R16), and one
of the host window a byte of host memory (R32). -/
def Mach.home (m : Mach) (loc : Nat) : Nat :=
  if m.inHost loc then hostLoc (m.hostwin + (loc - Config.pcie0Base))
  else match m.decoder loc with
  | some d => if pkind loc == .cxl then cxlLoc (d.portOf loc) (d.dpa loc) else loc
  | none => loc

/-- A location whose bytes stand under another key. -/
def Mach.mapped (m : Mach) (loc : Nat) : Bool := pkind loc == .cxl || m.inHost loc

/-- An access to a line whose way maps to a port that went down completes as an uncorrectable error (spec/01 R21), and so does one
to a line for which its device or the host answers with poison or an error (spec/01 R20, R22, R32). -/
def Mach.cxlBad (m : Mach) (loc : Nat) : Bool :=
  m.mapped loc && (m.cxlFail.contains (m.home loc / 64)
    || pkind loc == .cxl && (m.decoder loc).any fun d => d.lostPorts.contains (d.portOf loc))

/-! ### Memory of the machine -/

def Mach.bytes (m : Mach) (a len : Nat) : List Byte :=
  if m.mapped a then (List.range len).map fun i => m.mem.read (m.home (a + i)) else m.mem.bytes a len
def Mach.num (m : Mach) (a len : Nat) : Nat := ofBytes (m.bytes a len)

/-! ### Tables -/

def Mach.thr? (m : Mach) (id : Nat) : Option Thread := m.threads.find? fun t => t.id == id
def Mach.thr (m : Mach) (id : Nat) : Thread := (m.thr? id).getD {}
def Mach.setThr (m : Mach) (t : Thread) : Mach :=
  { m with threads := m.threads.map fun u => if u.id == t.id then t else u }
def Mach.modThr (m : Mach) (id : Nat) (f : Thread → Thread) : Mach := m.setThr (f (m.thr id))

def Mach.quarter? (m : Mach) (id : Nat) : Option Quarter := m.quarters.find? fun q => q.id == id
def Mach.setQ (m : Mach) (q : Quarter) : Mach :=
  { m with quarters := m.quarters.map fun u => if u.id == q.id then q else u }
def Mach.dropQ (m : Mach) (id : Nat) : Mach := { m with quarters := m.quarters.filter fun q => q.id != id }

def Mach.wave? (m : Mach) (id : Nat) : Option Wave := m.waves.find? fun w => w.id == id
def Mach.setWave (m : Mach) (w : Wave) : Mach :=
  { m with waves := m.waves.map fun u => if u.id == w.id then w else u }
def Mach.modWave (m : Mach) (id : Nat) (f : Wave → Wave) : Mach :=
  match m.wave? id with
  | some w => m.setWave (f w)
  | none => m

def Mach.launch? (m : Mach) (id : Nat) : Option Launch := m.launches.find? fun l => l.id == id
def Mach.launch (m : Mach) (id : Nat) : Launch := (m.launch? id).getD {}
def Mach.setLaunch (m : Mach) (l : Launch) : Mach :=
  { m with launches := m.launches.map fun u => if u.id == l.id then l else u }
def Mach.modLaunch (m : Mach) (id : Nat) (f : Launch → Launch) : Mach :=
  match m.launch? id with
  | some l => m.setLaunch (f l)
  | none => m

def Mach.call? (m : Mach) (id : Nat) : Option Call := m.calls.find? fun c => c.id == id
def Mach.setCall (m : Mach) (c : Call) : Mach :=
  { m with calls := m.calls.map fun u => if u.id == c.id then c else u }
def Mach.dropCall (m : Mach) (id : Nat) : Mach := { m with calls := m.calls.filter fun c => c.id != id }

def Mach.glade? (m : Mach) (id : Nat) : Option Glade := m.glades.find? fun g => g.id == id
def Mach.setGlade (m : Mach) (g : Glade) : Mach :=
  { m with glades := m.glades.map fun u => if u.id == g.id then g else u }

def Mach.flight? (m : Mach) (uid : Nat) : Option Flight := m.flights.find? fun f => f.uid == uid
def Mach.setFlight (m : Mach) (f : Flight) : Mach :=
  { m with flights := m.flights.map fun u => if u.uid == f.uid then f else u }

def Mach.trap? (m : Mach) (id : Nat) : Option TrapGroup := m.traps.find? fun g => g.id == id
def Mach.setTrap (m : Mach) (g : TrapGroup) : Mach :=
  { m with traps := m.traps.map fun u => if u.id == g.id then g else u }

def Mach.coreSt (m : Mach) (k : Nat) : CoreSt := (m.cores.find? fun c => c.core == k).getD { core := k }
def Mach.setCore (m : Mach) (c : CoreSt) : Mach :=
  { m with cores := c :: m.cores.filter fun u => u.core != c.core }
def Mach.modCore (m : Mach) (k : Nat) (f : CoreSt → CoreSt) : Mach := m.setCore (f (m.coreSt k))

def Mach.engine? (m : Mach) (id : Nat) : Option EngOp := m.engines.find? fun e => e.id == id
def Mach.setEngine (m : Mach) (e : EngOp) : Mach :=
  { m with engines := m.engines.map fun u => if u.id == e.id then e else u }
def Mach.dropEngine (m : Mach) (id : Nat) : Mach := { m with engines := m.engines.filter fun e => e.id != id }

/-- A macro-op that has begun reserves its tiles until it retires (spec/16 R387); `nums` starts with its descriptor. -/
def EngOp.holdsTile (e : EngOp) (core t : Nat) : Bool :=
  match e.kind with
  | .mop _ _ =>
    let d := nth e.nums 0
    e.core == core && decide (1 ≤ e.stage) && decide (bits d 380 6 ≤ t) && decide (t < bits d 380 6 + bits d 386 7)
  | _ => false

/-- A macro-op stands between two step points (spec/16 R406): some reads of a K-block, or some rows of a drain, are made. `nums` holds the
rows at place 13. -/
def EngOp.midStep (e : EngOp) : Bool := decide (1 ≤ e.stage) && (e.got != [] || nth e.nums 13 != 0)

/-- The slot that an `rwait` would obtain is there, or the ring is closed (spec/17 R421, R422). -/
def Ring.ready (g : Ring) : Bool :=
  g.closed || (if g.drain then (g.slots.getD g.fillAt {}).st == .empty else (g.slots.getD g.takeAt {}).st == .full)

def Mach.tileReserved (m : Mach) (core t : Nat) : Bool := m.engines.any fun e => e.holdsTile core t

/-- An interrupt source that fired inside the step (spec/02 R77); delivered when the step ends (log 14). -/
def Mach.fire (m : Mach) (r : Nat) : Mach := { m with fired := m.fired ++ [r] }

/-- A key of its own (log 1). -/
def Mach.take (m : Mach) (n : Nat) : Mach := { m with next := m.next + n }

/-- Thread order (spec/05 R145). -/
def Thread.lt (a b : Thread) : Bool := if a.tid = b.tid then lexLt a.path b.path else decide (a.tid < b.tid)

/-- Thread ids in ascending thread order. -/
def Mach.inOrder (m : Mach) (ids : List Nat) : List Nat :=
  sortBy (fun a b => !(Thread.lt (m.thr b) (m.thr a))) ids

/-- The active threads of a quarter with their slots, lowest slot first (spec/05 R146). -/
def Quarter.active (q : Quarter) : List (Nat × Nat) :=
  (enum q.slots).filterMap fun p => p.2.map fun t => (p.1, t)

/-- The lowest active slot's thread. -/
def Quarter.lowest (q : Quarter) : Nat :=
  match q.active with
  | [] => 0
  | p :: _ => p.2

def Quarter.tids (q : Quarter) : List Nat := q.active.map fun p => p.2

/-- Is the thread a handler; the thread whose registers and context it serves (spec/08 R229). -/
def Thread.isHandler (t : Thread) : Bool :=
  match t.role with
  | .handler _ _ => true
  | _ => false

def Thread.served (t : Thread) : Option Nat :=
  match t.role with
  | .handler s _ => some s
  | _ => none

/-- The thread against which what it posts is held: a handler's posts are those of the thread that it serves (spec/08 R229; log 139). -/
def Thread.poster (t : Thread) : Nat := t.served.getD t.id

def Thread.isCallee (t : Thread) : Bool :=
  match t.role with
  | .widen _ => true
  | .gather _ => true
  | _ => false

/-- A format slot of a launch (spec/03 R100). -/
def Mach.fslot (m : Mach) (launch sl : Nat) : DWord := nth (m.launch launch).fslots sl

/-- Effective values of the region of a launch (spec/03 R111). -/
def Mach.eff (m : Mach) (l : Nat) : Eff := (m.launch l).eff

/-! ### Errors in memory (spec/06 R198-R200, spec/02 R93) -/

/-- The error log appends a record and fires route entry 209; a full log overwrites its oldest record. -/
def Mach.logErr (m : Mach) (cause unit pa : Nat) : Mach :=
  let r : ErrRec := ⟨cause, unit, pa⟩
  let m := if m.errLog.length < 64 then { m with errLog := m.errLog ++ [r] }
    else { m with errLog := modAt m.errLog (m.errOver % 64) fun _ => r, errOver := m.errOver + 1 }
  let m := if pkind pa == .cxl then { m with cxlErrs := m.cxlErrs ++ [pa] } else m
  m.fire 209

/-- Aligned 64-bit words that a range touches. -/
def wordsOf (loc len : Nat) : List Nat :=
  if len = 0 then [] else (List.range ((loc + len - 1) / 8 - loc / 8 + 1)).map fun i => (loc / 8 + i) * 8

/-- A word of the range holds an uncorrectable error. -/
def Mach.eccBad (m : Mach) (loc len : Nat) : Bool := (wordsOf loc len).any fun w => m.eccDouble.contains w

/-- One corrected error, or one replay, is counted for a core (spec/06 R198). -/
def Mach.count1 (m : Mach) (core : Nat) (replay : Bool) : Mach :=
  let old := look (0, 0) m.secnt core
  let up (n k : Nat) : Nat := Nat.min 0xFFFFFFFF (n + k)
  { m with secnt := put m.secnt core (if replay then (old.1, up old.2 1) else (up old.1 1, old.2)) }

/-- A read corrects single-bit errors, writes them back and counts them for the requesting core, where one requests it (spec/06
R198). -/
def Mach.eccFix (m : Mach) (core loc len : Nat) : Mach :=
  let hit := (wordsOf loc len).filter fun w => m.eccSingle.contains w
  if hit = [] then m
  else
    let old := look (0, 0) m.secnt core
    { m with
      eccSingle := m.eccSingle.filter fun w => !hit.contains w
      secnt := if core < Config.cores then put m.secnt core (Nat.min 0xFFFFFFFF (old.1 + hit.length), old.2) else m.secnt }

/-- A write of a whole 64-bit word replaces a word in error (spec/06 R200). -/
def Mach.eccClear (m : Mach) (loc len : Nat) : Mach :=
  { m with
    eccDouble := m.eccDouble.filter fun w => !(decide (loc ≤ w) && decide (w + 8 ≤ loc + len))
    eccSingle := m.eccSingle.filter fun w => !(decide (loc ≤ w) && decide (w + 8 ≤ loc + len)) }

/-- A narrower write into a word in error needs a read of the word (spec/06 R200). -/
def Mach.eccBlocks (m : Mach) (loc len : Nat) : Bool :=
  (wordsOf loc len).any fun w => m.eccDouble.contains w && !(decide (loc ≤ w) && decide (w + 8 ≤ loc + len))

/-! ### Stamps (spec/06 R197, spec/07 R221) -/

/-- The cleared stamp. -/
def clearStamp : Nat := 0xFFFFFF00

def Mach.stamp (m : Mach) (sector : Nat) : Nat := look clearStamp m.stamps sector

def Mach.setStamp (m : Mach) (sector v : Nat) : Mach :=
  { m with stamps := if v = clearStamp then m.stamps.filter fun p => p.1 != sector else put m.stamps sector v }

/-- Sectors of a range. -/
def sectorsOf (loc len : Nat) : List Nat :=
  if len = 0 then [] else (List.range ((loc + len - 1) / 64 - loc / 64 + 1)).map fun i => loc / 64 + i

def Mach.stampRange (m : Mach) (loc len v : Nat) : Mach :=
  (sectorsOf loc len).foldl (fun m s => m.setStamp s v) m

/-- The stamp a thread's writes take: its wave's number and phase. -/
def Mach.threadStamp (m : Mach) (t : Thread) : Nat :=
  match m.wave? t.wave with
  | some w => w.number * 256 + w.ph % 256
  | none => clearStamp

/-! ### Stores -/

/-- A store to the watched line of a fault queue header is observed (spec/06 R182): what its INVSEQ and HEAD now hold. -/
def Mach.observe (m : Mach) (loc len : Nat) : Mach :=
  { m with doms := m.doms.map fun d =>
      if loc < d.base + 64 ∧ d.base < loc + len then
        { d with seen := d.seen ++ [(m.num (d.base + 24) 4, m.num (d.base + 16) 8, m.num (d.base + 4) 4)] }
      else d }

/-- Bytes written to M by the device itself: the engine's own stores are not observed (spec/06 R182). -/
def Mach.devStore (m : Mach) (loc : Nat) (bs : List Byte) : Mach :=
  let mem := if m.mapped loc then (enum bs).foldl (fun mem b => mem.write (m.home (loc + b.1)) b.2) m.mem
    else m.mem.put loc bs
  ({ m with mem := mem }).eccClear loc bs.length

/-- Bytes written to M by any other requester, with the stamp its writer leaves. -/
def Mach.store (m : Mach) (loc : Nat) (bs : List Byte) (stamp : Option Nat) : Mach :=
  let m := m.devStore loc bs
  let m := match stamp with
    | some v => m.stampRange loc bs.length v
    | none => m
  m.observe loc bs.length

/-! ### Quarters -/

/-- Every `x` and `c` of a thread becomes undefined at a clause boundary (spec/05 R148). -/
def Thread.boundary (t : Thread) : Thread :=
  { t with x0 := .undef, x1 := .undef, c := List.replicate 8 .undef, clause := t.clause + 1, hdr := none }

/-- Instruction words of the quarter's clause; the position of the word at pc in it (spec/10 R266). -/
def Quarter.words (q : Quarter) : Nat :=
  match q.hdr with
  | some h => (clauseHdr h.2).words
  | none => 0

def Quarter.pos (q : Quarter) : Nat :=
  match q.hdr with
  | some h => (q.pc - h.1).toNat / 8
  | none => 0

def Quarter.isLast (q : Quarter) : Bool := q.pos == q.words

/-- The word at pc as the quarter holds it of its clause (spec/03 R104), and the flag that it names. -/
def Quarter.held? (q : Quarter) : Option DWord := q.code.getD (q.pos - 1) none
def Quarter.flag (q : Quarter) : Nat := q.held?.elim 0 wordFlag

/-- The quarter's lookahead that an issue holds is released (spec/10 R274). -/
def Mach.unlook (m : Mach) (iss : Nat) : Mach :=
  if m.flights.any fun f => f.iss == iss then m
  else { m with quarters := m.quarters.map fun (q : Quarter) => { q with looks := q.looks.filter fun l => l.iss != iss } }

/-- Where a thread of the quarter stands. -/
def siteOf (q : Quarter) (t : Thread) : Site := { pc := q.pc, hdr := q.hdr, x0 := t.x0, x1 := t.x1, c := t.c, flag := q.flag }

/-- The thread is back at a site. -/
def Thread.atSite (t : Thread) (s : Site) : Thread := { t with pc := s.pc, hdr := s.hdr, x0 := s.x0, x1 := s.x1, c := s.c }

/-- Threads end. One with accesses that have not performed stays as an ended thread until they have (spec/03 R106, R107):
launches alone end threads that have any. -/
def Mach.removeThreads (m : Mach) (ids : List Nat) : Mach :=
  { m with
    threads := (m.threads.filter fun t => !ids.contains t.id || t.pend != []).map fun t =>
      if ids.contains t.id then { t with stat := .ended, bars := [], errs := [], kids := [] } else t
    quarters := (m.quarters.map fun q =>
      { q with slots := q.slots.map fun s => if s.any ids.contains then none else s }).filter fun q =>
        q.slots.any Option.isSome
    glades := (m.glades.map fun g => { g with threads := g.threads.filter fun p => !ids.contains p.1 }).filter fun g =>
        g.threads != []
    flights := m.flights.filter fun f => !ids.contains f.owner || (m.thr f.owner).pend.any fun o => o.uid == f.uid
    sump := (m.sump.map fun r => { r with threads := r.threads.filter fun t => !ids.contains t }).filter fun r =>
        r.threads != [] || r.seq.isSome }

/-- The quarter has issued: the cycle and the order of its issue, one instruction of every lookahead used up, no wait. -/
def Quarter.issued (q : Quarter) (cycle ord : Nat) : Quarter :=
  { q with
    lastIssue := some cycle, order := ord, wait := none, fresh := none, steps := q.steps + 1,
    looks := q.looks.map fun l => { l with left := l.left - 1 } }

/-- The later of two issues. -/
def maxIssue (a b : Option Nat) : Option Nat :=
  match a, b with
  | some x, some y => some (Nat.max x y)
  | some x, none => some x
  | none, y => y

/-- Every active thread forgets the instruction that sent it (its target was a clause header, spec/12 R299), its wait, and
a count it carried. -/
def Thread.settled (t : Thread) : Thread := { t with sender := none, waitSince := none, carry := none }

def Mach.modAll (m : Mach) (ids : List Nat) (f : Thread → Thread) : Mach :=
  { m with threads := m.threads.map fun t => if ids.contains t.id then f t else t }

/-- Trap groups of an ending launch of which no handler runs on are gone, with the threads that they serve, and their alcoves are free
(spec/08 R231, R237). -/
def Mach.freeAlcoves (m : Mach) (l : Nat) : Mach :=
  let alive (g : TrapGroup) : Bool := m.threads.any fun t => g.handlers.contains t.id && t.stat != .ended
  let dead := m.traps.filter fun g => g.launch == l && !alive g
  let gone := dead.map fun g => g.id
  let m := m.removeThreads (dead.flatMap fun g => g.members.map fun p => p.2.1)
  { m with
    traps := m.traps.filter fun g => !gone.contains g.id
    cores := m.cores.map fun c => if c.alcove.any gone.contains then { c with alcove := none } else c
    preempts := m.preempts.map fun p => { p with alcoves := p.alcoves.filter fun a => !gone.contains a.2 } }

/-- Threads of a launch that is ending stop. -/
def Mach.stopThreads (m : Mach) (ids : List Nat) (launch : Nat) : Mach := (m.removeThreads ids).freeAlcoves launch

/-- Threads of a launch that is ending are removed at a clause boundary (spec/03 R107). -/
def Mach.sweep (m : Mach) (ids : List Nat) (launch : Nat) : Mach :=
  if (m.launch launch).ending.isSome then m.stopThreads ids launch else m

/-- The quarter of an instruction that does not end its clause moves to the next word; after the last word of the clause it
stands at a clause boundary (spec/05 R148, spec/10 R266). -/
def Mach.advance (m : Mach) (q : Quarter) : Mach :=
  let q' := q.issued m.cycle m.next
  let m := (m.take 1).modAll q.tids Thread.settled
  if q.isLast then
    ((m.modAll q.tids Thread.boundary).setQ { q' with pc := q.pc + 8, hdr := none, looks := [] }).sweep q.tids q.launch
  else m.setQ { q' with pc := q.pc + 8 }

/-- The current quarter. -/
def Mach.withQ (m : Mach) (f : Quarter → Mach) : Mach :=
  match m.quarter? m.cur with
  | some q => f q
  | none => m

/-- A wait of an instruction inside its clause: a quarter of a launch that is ending goes on from it to the end of the clause. The others
follow the completion of an instruction that has ended its clause (spec/12 R298, spec/05 R150). -/
def Wait.goesOn : Wait → Bool
  | .barrier _ _ | .join => false
  | _ => true

/-- The quarter enters a wait; its instruction has not issued (spec/04 R122, R124). Threads of a launch that is ending stop there
(spec/03 R107). A wait that goes on keeps the cycle since which its threads wait (spec/08 R235). -/
def Mach.waitQ (m : Mach) (q : Quarter) (w : Wait) : Mach :=
  if (m.launch q.launch).ending.isSome && !w.goesOn then m.stopThreads q.tids q.launch
  else
  let m := m.setQ { q with wait := some w }
  m.modAll q.tids fun t => { t with waitSince := some (if q.wait = some w then t.waitSince.getD m.cycle else m.cycle) }

/-- The core has issued a quarter of the launch, or has a macro-op step of it in flight, in this cycle (spec/04 R118). -/
def Mach.markBusy (m : Mach) (core launch : Nat) : Mach :=
  m.modCore core fun c => if c.busy.contains launch then c else { c with busy := launch :: c.busy }

/-- A wake that comes to a core in C1 or C2 is held until the core has come up (spec/02 R89, R90). -/
def Mach.wakeCore (m : Mach) (core : Nat) : Mach :=
  match (m.coreSt core).power with
  | .c1 | .c2 => m.modCore core fun c => { c with wake := true }
  | _ => m

/-- An access to bytes of a scratchpad wakes its core. -/
def Mach.wakeAt (m : Mach) (loc : Nat) : Mach := if isScr loc then m.wakeCore ((loc - 2 ^ 66) / 2 ^ 18) else m

/-! ### Filing (spec/05 R152-R156) -/

/-- `detach(t)`: the thread leaves its quarter, which ends when no thread remains (spec/05 R153, R155). -/
def Mach.detach (m : Mach) (tid : Nat) : Mach :=
  let m := match m.quarters.find? fun q => q.tids.contains tid with
    | some q => m.modThr tid fun t => { t with lastIssue := q.lastIssue }
    | none => m
  { m with quarters := (m.quarters.map fun q =>
      { q with slots := q.slots.map fun s => if s = some tid then none else s }).filter fun q =>
        q.slots.any Option.isSome }

/-- The thread leaves its quarter by the instruction that issues in this cycle, which completes a count that it carried (spec/10 R270,
R273, spec/04 R118). -/
def Mach.detachIssued (m : Mach) (tid : Nat) : Mach :=
  ((m.detach tid).modThr tid fun t => { t.uncarried with lastIssue := some m.cycle }).markBusy (m.thr tid).core (m.thr tid).launch

/-- The thread is filed in this cycle: it enters its glade as the cycle ends (`Mach.flush`). -/
def Mach.enterFiling (m : Mach) (tid : Nat) (f : Filing) : Mach :=
  { m.modThr tid fun t => { t with stat := .filing, pc := f.pc } with filing := m.filing ++ [f] }

/-- `file_thread(t, pc)` at a clause boundary: `x` and `c` become undefined. -/
def Mach.fileAt (m : Mach) (tid : Nat) (pc : Pc) (reform : Bool := false) : Mach :=
  let t := m.thr tid
  if (m.launch t.launch).ending.isSome then m.removeThreads [tid]
  else (m.modThr tid fun t => { t.boundary with waitSince := none }).enterFiling tid
    { tid := tid, pc := pc, reform := reform }

/-- Filing a thread back at an instruction inside its clause, with its own `x` and `c` (spec/06 R195, spec/08 R232). -/
def Mach.fileMid (m : Mach) (tid : Nat) (pc : Pc) : Mach :=
  let t := m.thr tid
  if (m.launch t.launch).ending.isSome then m.removeThreads [tid]
  else (m.modThr tid fun t => { t with waitSince := none }).enterFiling tid { tid := tid, pc := pc }

/-- Every copy of the core's read cache is dropped (spec/07 R205, R206). -/
def Mach.dropCopies (m : Mach) (core : Nat) : Mach := { m with copies := m.copies.filter fun c => c.core != core }

/-! ### Ending a launch (spec/03 R105-R107, spec/08 R228, R233) -/

/-- Removing barrier arrivals, joint sets, calls and waves of threads that are gone; joint sets stay while quarters run on inside their
clauses. -/
def Mach.forgetLaunch (m : Mach) (l : Nat) (runsOn : Bool) : Mach :=
  { m.freeAlcoves l with
    mmajs := m.mmajs.filter fun s => runsOn || s.launch != l
    calls := m.calls.filter fun c => c.launch != l
    bars := m.bars.filter fun b => b.launch != l
    barMsgs := m.barMsgs.filter fun b => b.launch != l
    waves := m.waves.filter fun w => w.launch != l || (w.core.isSome && w.live > 0 && !w.exited) }

/-- The launch ends with a status and a cause. Callers that wait for a slot of a system-call queue leave it, and completions kept for the
launch are discarded (spec/02 R87). Under status 7 its threads stop at once; under LP_KILL a quarter that is
inside a clause, or whose instruction there waits, runs to the clause's end (spec/03 R107), and so do the contexts that a handler inside a
clause serves. Nothing of a saved region runs on (spec/04 R143). -/
def Mach.endLaunch (m : Mach) (l status cause : Nat) : Mach :=
  let la := m.launch l
  if la.ending.isSome && status != 7 then m
  else
    let m := m.modLaunch l fun la => { la with ending := some (la.ending.getD (status, cause)) }
    let saved := m.preempts.any fun p => p.rcb == la.rcb && p.stage == 2
    let on := if status = 8 && !saved then
        (m.quarters.filter fun q => q.launch == l && q.hdr.isSome && q.wait.all Wait.goesOn).flatMap Quarter.tids
      else []
    let inside := on ++ (m.traps.filter fun g => g.handlers.any on.contains).flatMap fun g => g.members.map fun p => p.2.1
    let ids := (m.threads.filter fun t => t.launch == l && !inside.contains t.id).map fun t => t.id
    let mine (t : Nat) : Bool := (m.thr t).launch == l
    let m : Mach := { m with sysqs := m.sysqs.map fun (s : SysQ) =>
      let done (k : Nat) : Bool := (s.kept.any fun p => p.1 == k) && s.slots.any fun p => p.1 == k && mine p.2.1
      { s with
        waiting := s.waiting.filter fun w => !mine w.1
        slots := s.slots.filter fun p => !done p.1
        kept := s.kept.filter fun p => !done p.1 } }
    (m.removeThreads ids).forgetLaunch l (on != [])

/-! ### TAKING AN EXCEPTION (spec/08 R227, R228)

`raise` takes a precise or imprecise cause in some threads of one quarter: they leave it, their instruction's count stays
outstanding, and a trap group waits for their pending writes. TRAP_ENTRY and ALCOVE_BIND (Traps.lean) finish the entry. -/

/-- The thread leaves wherever it is: its quarter, its glade, its sump record. -/
def Mach.pull (m : Mach) (tid : Nat) : Mach :=
  let m := m.detach tid
  { m with
    glades := (m.glades.map fun g => { g with threads := g.threads.filter fun p => p.1 != tid }).filter fun g =>
      g.threads != []
    sump := m.sump.map fun r => { r with threads := r.threads.filter fun t => t != tid } }

/-- Traps of a core queue in the order in which they are taken; those of one cycle by their lowest thread, in thread order (spec/08 R228). -/
def Mach.addTrap (m : Mach) (g : TrapGroup) : Mach :=
  let low (g : TrapGroup) : Nat := (m.inOrder (g.members.map fun p => p.2.1)).headD 0
  let after (u : TrapGroup) : Bool := u.core == g.core && u.took == g.took && Thread.lt (m.thr (low g)) (m.thr (low u))
  { m with traps := (m.traps.filter fun u => !after u) ++ g :: m.traps.filter after }

/-- The handler of a cause: DOMH for 0x41, DFBH for 0x71, else TRAPH (spec/08 R228). -/
def handlerOf (e : Eff) (cause : Nat) : Nat :=
  if cause = 0x41 ∧ e.domh ≠ 0 then e.domh
  else if cause = 0x71 ∧ e.dfbh ≠ 0 then e.dfbh
  else e.traph

/-- TAKE THE CAUSE in threads `who` (slot, thread, TRAPVA) at the instruction at `pc` of the clause `hdr`. A trap inside a
handler ends the launch (spec/08 R233); threads of a launch that is ending stop instead (spec/03 R107). -/
def Mach.raise (m : Mach) (core launch : Nat) (who : List (Nat × Nat × Nat)) (cause : Nat) (pc : Pc)
    (hdr : Option (Pc × DWord)) (flag : Nat) (impr waitBit : Bool := false) : Mach :=
  let who := who.filter fun p => (m.thr p.2.1).stat != .ended
  if who = [] then m
  else if (m.launch launch).ending.isSome then m.stopThreads (who.map fun p => p.2.1) launch
  else if who.any fun p => (m.thr p.2.1).isHandler then m.endLaunch launch 7 0x77
  else
    let ids := who.map fun p => p.2.1
    let g : TrapGroup := { id := m.next, core := core, took := m.cycle, launch := launch, cause := cause, impr := impr, waitBit := waitBit,
                           pc := pc, hdr := hdr, flag := flag, members := who,
                           resume := ids.map fun t => (t, pc.toNat) }
    let gangs := (m.quarters.filter fun q => q.tids.any ids.contains).filterMap fun q => q.gang
    let m := ids.foldl Mach.pull m
    let m := m.modAll ids fun t => { (t.carryFlag pc flag) with stat := .trapping g.id, pc := pc, hdr := hdr,
                                                                 waitSince := none }
    let m := m.addTrap g
    let m := { m with
      next := m.next + 1
      quarters := m.quarters.map fun q => if q.gang.any gangs.contains then { q with gang := none } else q }
    m

/-- The whole active quarter takes a cause, with the faulting address of each thread (spec/06 R190, spec/08 R230). -/
def Mach.raiseQ (m : Mach) (q : Quarter) (cause : Nat) (flag : Nat) (va : Nat → Nat) : Mach :=
  m.raise q.core q.launch (q.active.map fun p => (p.1, p.2, va p.2)) cause q.pc q.hdr flag

/-- Some threads of the quarter take a per-thread cause; the rest of the quarter goes on. -/
def Mach.raiseT (m : Mach) (q : Quarter) (ids : List Nat) (cause : Nat) (flag : Nat) (va : Nat → Nat) : Mach :=
  m.raise q.core q.launch ((q.active.filter fun p => ids.contains p.2).map fun p => (p.1, p.2, va p.2)) cause q.pc q.hdr
    flag

/-- An imprecise cause, delivered at the instruction that covers the error's queue (spec/08 R234). -/
def Mach.raiseHeld (m : Mach) (q : Quarter) (tid cause va flag : Nat) : Mach :=
  m.raise q.core q.launch ((q.active.filter fun p => p.2 == tid).map fun p => (p.1, p.2, va)) cause q.pc q.hdr flag true

end Sys2Proof.Machine
end

