-- ==== Sys2Proof/Machine/Operands.lean ====
section
/-! DEFINITION. Every operand form of spec/10 R276: reading and writing `v`, `c`, `x0`, `x1` and `zero`, singly, in pairs,
states and quads; the shift of `x` (spec/05 R148); and the shape of an instruction that works on registers alone
(spec/13 R319). -/

namespace Sys2Proof.Machine

/-- The value of a position of `x` or `c`. An undefined position, or one whose result has not landed, is a free value
(spec/05 R148, spec/00 R5; log 4): the `fr`-th of the run. -/
def XPos.read (p : XPos) (fr : Nat) : Word :=
  match p with
  | .val w => w
  | .undef => Config.freeWord fr
  | .pend _ => Config.freeWord fr

/-- Register `j` after the one that `s` names, as a source. -/
def Thread.rdAt (t : Thread) (fr : Nat) (s : Spec) (j : Nat) : Word :=
  match s with
  | .v n => t.regs.getD (n.toNat + j) 0
  | .c k => (t.c.getD (k.toNat + j) .undef).read (fr + j)
  | .x0 => t.x0.read fr
  | .x1 => t.x1.read fr
  | .zero => 0

/-- A source word, a source pair, and a source state or quad as a list, lowest register first. -/
def Thread.rd (t : Thread) (fr : Nat) (s : Spec) : Word := t.rdAt fr s 0
def Thread.rdPair (t : Thread) (fr : Nat) (s : Spec) : DWord := pairOf (t.rdAt fr s 1) (t.rdAt fr s 0)
def Thread.rdN (t : Thread) (fr : Nat) (s : Spec) (n : Nat) : List Word := (List.range n).map (t.rdAt fr s)

/-- Writing register `j` after the one that `s` names. `zero` discards the result; `x0` and `x1` are no destination. -/
def Thread.wrAt (t : Thread) (s : Spec) (j : Nat) (w : Word) : Thread :=
  match s with
  | .v n => { t with regs := t.regs.set (n.toNat + j) w }
  | .c k => { t with c := t.c.set (k.toNat + j) (.val w) }
  | .x0 => t
  | .x1 => t
  | .zero => t

/-- Writing consecutive registers from `s`, the lowest first. -/
def Thread.wrFrom (t : Thread) (s : Spec) : Nat → List Word → Thread
  | _, [] => t
  | j, w :: r => Thread.wrFrom (t.wrAt s j w) s (j + 1) r

def Thread.wr (t : Thread) (s : Spec) (ws : List Word) : Thread := t.wrFrom s 0 ws

/-- The shift of `x`. -/
def Thread.shift (t : Thread) (p : XPos) : Thread := { t with x1 := t.x0, x0 := p }

/-- The result of an instruction that completes at issue: its destination is written, and `x` shifts when the instruction
names no flag (spec/05 R148). -/
def Thread.put (t : Thread) (h : Hdr) (d : Spec) (ws : List Word) : Thread :=
  let t := t.wr d ws
  if h.flag = 0 then t.shift (.val (ws.headD 0)) else t

/-- Where the free values of the thread in slot `sl` begin in this step. -/
def Mach.fr (m : Mach) (sl : Nat) : Nat := m.free + 32 * sl

/-- Free values drawn by the step are not drawn again. -/
def Mach.used (m : Mach) : Mach := { m with free := m.free + 256 }

/-- Each active thread of the quarter is rewritten on its own, then the quarter advances. `f` sees the slot, where the
thread's free values begin, and the thread as the instruction found it; the instruction completes at issue, so a count
that it carried is signalled (spec/10 R271). -/
def Mach.onEach (m : Mach) (q : Quarter) (h : Hdr) (f : Nat → Nat → Thread → Thread) : Mach :=
  let m' := q.active.foldl
    (fun m' p => m'.setThr (f p.1 (m.fr p.1) ((m.thr p.2).uncarry q.pc h.flag.toNat))) m
  (m'.used).advance q

/-- AN INSTRUCTION ON REGISTERS ALONE with a destination (spec/13 R319, spec/14 R339): `f` gives the words of the result,
lowest register first, from the slot, the free values and the thread. -/
def Mach.regOp (m : Mach) (h : Hdr) (d : Spec) (f : Nat → Nat → Thread → List Word) : Mach :=
  m.withQ fun q => m.onEach q h fun sl fr t => t.put h d (f sl fr t)

/-- One source, two, three. -/
def Mach.reg1 (m : Mach) (h : Hdr) (d a : Spec) (f : Word → Word) : Mach :=
  m.regOp h d fun _ fr t => [f (t.rd fr a)]
def Mach.reg2 (m : Mach) (h : Hdr) (d a b : Spec) (f : Word → Word → Word) : Mach :=
  m.regOp h d fun _ fr t => [f (t.rd fr a) (t.rd (fr + 4) b)]
def Mach.reg3 (m : Mach) (h : Hdr) (d a b c : Spec) (f : Word → Word → Word → Word) : Mach :=
  m.regOp h d fun _ fr t => [f (t.rd fr a) (t.rd (fr + 4) b) (t.rd (fr + 8) c)]

/-! ### The end of a step -/

/-- Interrupt sources that fired in the step are delivered at its end (spec/02 R79; log 14): an enabled entry writes its
identity to the target file, another sets PEND. Entries 230 to 255 are never raised. -/
def Irq.deliver (q : Irq) (i : Nat) : Irq :=
  let r := look ({} : IRoute) q.routes i
  if r.en then
    { q with
      imsic := if q.imsic.contains (r.hart, r.file, r.eiid) then q.imsic else q.imsic ++ [(r.hart, r.file, r.eiid)]
      routes := put q.routes i { r with pend := false } }
  else { q with routes := put q.routes i { r with pend := true } }

/-- POISON of the port that an address in error maps to; route entry 211 fires as it is set (spec/01 R20, spec/02 R77). -/
def Mach.setPoison (m : Mach) (r : Sys × List Nat) (pa : Nat) : Sys × List Nat :=
  match m.decoder pa with
  | none => r
  | some d =>
    let p := d.portOf pa
    if (r.1.cports.getD p {}).poison then r
    else ({ r.1 with cports := modAt r.1.cports p fun c => { c with poison := true } }, r.2 ++ [211])

/-- Soft-error counts that have reached SE_THR: each core has two (spec/02 R94, R77; spec/06 R201). -/
def seHigh (sys : Sys) (m : Mach) : List Nat :=
  m.secnt.flatMap fun c => (if sys.seThr ≤ c.2.1 then [2 * c.1] else []) ++ if sys.seThr ≤ c.2.2 then [2 * c.1 + 1] else []

/-- The end of a step: errors behind CXL ports set POISON, counts that reach SE_THR fire route entry 210, and what fired is
delivered. -/
def State.settle (s : State) : State :=
  let r := s.mach.cxlErrs.foldl s.mach.setPoison (s.sys, [])
  let high := seHigh s.sys s.mach
  let se := if high.all s.sys.seFired.contains then [] else [210]
  { s with
    mach := { s.mach with fired := [], cxlErrs := [] }
    sys := { r.1 with irq := (s.mach.fired ++ r.2 ++ se).foldl Irq.deliver r.1.irq, seFired := high } }

/-- THE SHAPE OF EVERY STEP OF THE COMPUTE PART: the compute part changes, seeing the package; of the package only the
interrupt state, and what `settle` notes of errors, changes. -/
def onMach (f : Sys → Mach → Mach) (s : State) : Host.Outcome State Fault Refusal :=
  .next ({ s with mach := f s.sys s.mach } : State).settle

/-- THE SHAPE OF A STEP that changes the package and the compute part. -/
def onAll (f : Sys → Mach → Sys × Mach) (s : State) : Host.Outcome State Fault Refusal :=
  .next ({ s with sys := (f s.sys s.mach).1, mach := (f s.sys s.mach).2 } : State).settle

end Sys2Proof.Machine
end

