-- ==== Sys2Proof/Machine/Translate.lean ====
section
/-! DEFINITION. Translation of global addresses (spec/06 R181-R188), scratch and sharing windows (R176-R179), and the
checks 1 to 6 of one access (R189, R190). -/

namespace Sys2Proof.Machine

/-! ### Errors of a range -/

/-- Reading the range meets an uncorrectable error. -/
def badRange (m : Mach) (loc len : Nat) : Bool :=
  m.eccBad loc len || (m.mapped loc && (sectorsOf loc len).any fun s => m.cxlBad (64 * s))

/-- Writing the range meets one: a word that is written in part, or a line behind a CXL port that fails (spec/06 R200, spec/01 R20,
R21). -/
def badWrite (m : Mach) (loc len : Nat) : Bool :=
  m.eccBlocks loc len || (m.mapped loc && (sectorsOf loc len).any fun s => m.cxlBad (64 * s))

/-! ### Page tables (spec/06 R184-R187) -/

def pteV (e : Nat) : Bool := tbit e 63
def pteLeaf (e : Nat) : Bool := tbit e 62
def pteSplit (e : Nat) : Bool := tbit e 61
def pteFar (e : Nat) : Bool := tbit e 60
def pteTm (e : Nat) : Bool := tbit e 59
def pteRc (e : Nat) : Bool := tbit e 58
def pteC32 (e : Nat) : Bool := tbit e 57
def pteRem (e : Nat) : Bool := tbit e 56
def pteLock (e : Nat) : Bool := tbit e 55
def pteX (e : Nat) : Bool := tbit e 54
def pteW (e : Nat) : Bool := tbit e 53
def pteR (e : Nat) : Bool := tbit e 52
def pteAddr (e : Nat) : Nat := e / 2 ^ 7 % 2 ^ 45 * 2 ^ 7

/-- Effective bits [63:52] of a translation, as a number with bit 0 for R. -/
def pteAttr (e : Nat) : Nat := e / 2 ^ 52

def attrR (a : Nat) : Bool := tbit a 0
def attrW (a : Nat) : Bool := tbit a 1
def attrX (a : Nat) : Bool := tbit a 2
def attrLock (a : Nat) : Bool := tbit a 3
def attrRem (a : Nat) : Bool := tbit a 4
def attrRc (a : Nat) : Bool := tbit a 6
def attrTm (a : Nat) : Bool := tbit a 7
def attrFar (a : Nat) : Bool := tbit a 8

/-- Outcome of a walk. `fault`: the KIND, LEVEL and page of a replayable fault (spec/06 R195). -/
inductive Walk where
  | ok (e : TlbEnt)
  | fault (kind level page : Nat)
  | range                 -- frame outside the map, or no decoder: 0x22 before the malformed check
  | ecc (pa : Nat)        -- the entry's word is in error
deriving DecidableEq, Repr

/-- A walk that went on through a table pointer. -/
def Walk.via (w : Walk) (level tag table : Nat) : Walk :=
  match w with
  | .ok e => .ok { e with ptrs := e.ptrs ++ [(level, tag, table)] }
  | w => w

/-- A frame outside the ranges of the map, or a CXL address that no decoder covers (spec/02 R73, spec/01 R17). -/
def frameBad (m : Mach) (frame pa : Nat) : Bool :=
  match pkind frame with
  | .cavern => false
  | .pcie _ => false
  | .cxl => (m.decoder pa).isNone
  | _ => true

/-- Where a leaf's frame must lie (spec/06 R186): near frames in cavern, far frames not. -/
def farMismatch (far : Bool) (frame : Nat) : Bool := far == (pkind frame == .cavern)

/-- The checks of a level-2 or level-3 leaf's bits (spec/06 R186). -/
def leafMalformed (e lowBits : Nat) (frame : Nat) : Bool :=
  e % 2 ^ 7 != 0 || pteAddr e % 2 ^ lowBits != 0 || (pteTm e && !pteFar e)
    || (pteRem e && (pteFar e || pteSplit e)) || (!pteRem e && farMismatch (pteFar e) frame)

/-- A table pointer at level 1 or 2 (spec/06 R186). -/
def pointerMalformed (e : Nat) : Bool :=
  e % 2 ^ 7 != 0 || pteAddr e % 2 ^ 18 != 0 || bits e 52 10 != 0 || !inCavern (pteAddr e) (2 ^ 18)

/-- The 64 KiB page and the 4 KiB subpage of an address (spec/06 R193). -/
def page64 (va : Nat) : Nat := va / 2 ^ 16 * 2 ^ 16
def page4 (va : Nat) : Nat := va / 2 ^ 12 * 2 ^ 12

/-- Frame and location of a level-3 leaf: a remote frame lies in another device's cavern, or in this one's
(spec/06 R186, R188). -/
def leafFrame (sys : Sys) (e : Nat) : Nat :=
  if pteRem e then
    let d := bits e 40 12
    let pa := Config.cavernBase + bits e 16 16 * 2 ^ 16
    if d = sys.devid then pa else remLoc d pa
  else pteAddr e

/-- The 32 aligned neighbours of a level-3 entry that carries C32 form one 2 MiB translation (spec/06 R187). -/
def c32Run (m : Mach) (table idx : Nat) : Option Nat :=
  let base := idx / 32 * 32
  let e0 := m.num (table + 8 * base) 8
  let good := (List.range 32).all fun i =>
    let e := m.num (table + 8 * (base + i)) 8
    pteV e && pteLeaf e && pteC32 e && !pteSplit e && !pteRem e && pteAttr e == pteAttr e0
      && pteAddr e == pteAddr e0 + i * 2 ^ 16
  if good && pteAddr e0 % 2 ^ 21 == 0 then some (pteAddr e0) else none

/-- The subpage entry of a split leaf: FAR, TM and LOCK of the parent, the rest its own (spec/06 R186). -/
def walkSub (m : Mach) (core fdom va parent : Nat) : Walk :=
  let at_ := pteAddr parent + 8 * bits va 12 4
  if m.eccBad at_ 8 then .ecc at_
  else
    let e := m.num at_ 8
    if !pteV e then .fault 0 4 (page4 va)
    else if frameBad m (pteAddr e) (pteAddr e + va % 2 ^ 12) then .range
    else if e % 2 ^ 7 != 0 || pteAddr e % 2 ^ 12 != 0 || !pteLeaf e || pteSplit e || pteC32 e || pteFar e || pteTm e
        || pteRem e || pteLock e || farMismatch (pteFar parent) (pteAddr e) then .fault 1 4 (page4 va)
    else
      let a := pteAttr e + (if pteFar parent then 2 ^ 8 else 0) + (if pteTm parent then 2 ^ 7 else 0)
        + (if pteLock parent then 2 ^ 3 else 0)
      .ok ⟨core, fdom, va / 2 ^ 12, 12, a, pteAddr e, []⟩

def walk3 (sys : Sys) (m : Mach) (core fdom va table : Nat) : Walk :=
  let at_ := table + 8 * bits va 16 15
  if m.eccBad at_ 8 then .ecc at_
  else
    let e := m.num at_ 8
    if !pteV e then .fault 0 3 (page64 va)
    else if !pteLeaf e then .fault 1 3 (page64 va)
    else if pteSplit e then
      if e % 2 ^ 7 != 0 || pteRem e || (pteTm e && !pteFar e) || !inCavern (pteAddr e) 128 then .fault 1 3 (page64 va)
      else walkSub m core fdom va e
    else if !pteRem e && frameBad m (pteAddr e) (pteAddr e + va % 2 ^ 16) then .range
    else if leafMalformed e 16 (pteAddr e) || (pteRem e && bits e 32 8 != 0) then .fault 1 3 (page64 va)
    else
      match (if pteC32 e then c32Run m table (bits va 16 15) else none) with
      | some f => .ok ⟨core, fdom, va / 2 ^ 21, 21, pteAttr e, f, []⟩
      | none => .ok ⟨core, fdom, va / 2 ^ 16, 16, pteAttr e, leafFrame sys e, []⟩

def walk2 (sys : Sys) (m : Mach) (core fdom va table : Nat) : Walk :=
  let at_ := table + 8 * bits va 31 15
  if m.eccBad at_ 8 then .ecc at_
  else
    let e := m.num at_ 8
    if !pteV e then .fault 0 2 (page64 va)
    else if pteLeaf e then
      if frameBad m (pteAddr e) (pteAddr e + va % 2 ^ 31) then .range
      else if leafMalformed e 31 (pteAddr e) || pteSplit e || pteC32 e || pteRem e then .fault 1 2 (page64 va)
      else .ok ⟨core, fdom, va / 2 ^ 31, 31, pteAttr e, pteAddr e, []⟩
    else if pointerMalformed e then .fault 1 2 (page64 va)
    else (walk3 sys m core fdom va (pteAddr e)).via 2 (va / 2 ^ 31) (pteAddr e)

/-- The walk from PTROOT (spec/06 R181, R184). -/
def walkRoot (sys : Sys) (m : Mach) (core : Nat) (e : Eff) (va : Nat) : Walk :=
  let hdr := e.fqbase * 4096
  if m.eccBad (hdr + 8) 8 then .ecc (hdr + 8)
  else
    let root := m.num (hdr + 8) 8
    if root = 0 then .fault 3 0 (page64 va)
    else if root % 2 ^ 14 ≠ 0 ∨ root ≥ 2 ^ 52 ∨ !inCavern root (2 ^ 14) then .fault 1 0 (page64 va)
    else
      let at_ := root + 8 * bits va 46 11
      if m.eccBad at_ 8 then .ecc at_
      else
        let p := m.num at_ 8
        if !pteV p then .fault 0 1 (page64 va)
        else if pteLeaf p || pointerMalformed p then .fault 1 1 (page64 va)
        else (walk2 sys m core e.fdom va (pteAddr p)).via 1 (va / 2 ^ 46) (pteAddr p)

/-- The table that a pointer of a level leads to, as the walker of the core's die holds it (spec/06 R187). -/
def Mach.heldTable (m : Mach) (core fdom level tag : Nat) : Option Nat :=
  (m.walks.find? fun w => w.die == coreDie core && w.fdom == fdom && w.level == level && w.tag == tag).map fun w => w.table

/-- THE WALK: from the lowest pointer that the walker holds, else from PTROOT. -/
def walk (sys : Sys) (m : Mach) (core : Nat) (e : Eff) (va : Nat) : Walk :=
  match m.heldTable core e.fdom 2 (va / 2 ^ 31) with
  | some table => walk3 sys m core e.fdom va table
  | none => match m.heldTable core e.fdom 1 (va / 2 ^ 46) with
    | some table => walk2 sys m core e.fdom va table
    | none => walkRoot sys m core e va

/-- A cached translation of the core, else of its grove (spec/06 R187). -/
def Mach.tlbHit (m : Mach) (core fdom va : Nat) : Option TlbEnt :=
  match m.tlbs.find? fun t => t.core == core && t.fdom == fdom && t.page == va / 2 ^ t.shift with
  | some t => some t
  | none => m.tlbs.find? fun t => t.core == Config.cores + coreGrove core && t.fdom == fdom && t.page == va / 2 ^ t.shift

def translate (sys : Sys) (m : Mach) (core : Nat) (e : Eff) (va : Nat) : Walk :=
  match m.tlbHit core e.fdom va with
  | some t => .ok t
  | none => walk sys m core e va

/-- The translation enters the TLBs of the core and of its grove; a full one gives up its oldest entry (log 17). -/
def Mach.fillOne (m : Mach) (k cap : Nat) (t : TlbEnt) : Mach :=
  let t := { t with core := k, ptrs := [] }
  if m.tlbs.contains t then m
  else
    let mine := m.tlbs.filter fun u => u.core == k
    let rest := m.tlbs.filter fun u => u.core != k
    { m with tlbs := t :: mine.take (cap - 1) ++ rest }

/-- The pointers of a walk that succeeded enter the cache of the core's die, which holds 256 (log 17). -/
def Mach.fillWalks (m : Mach) (core : Nat) (t : TlbEnt) : Mach :=
  t.ptrs.foldl (fun m p =>
    let w : WalkEnt := ⟨coreDie core, t.fdom, p.1, p.2.1, p.2.2⟩
    if m.walks.contains w then m
    else
      let mine := m.walks.filter fun u => u.die == w.die
      let rest := m.walks.filter fun u => u.die != w.die
      { m with walks := w :: mine.take (Config.walkPtrs - 1) ++ rest }) m

/-- What a walk that succeeded leaves: its translation and its pointers. -/
def Mach.fill (m : Mach) (core : Nat) (t : TlbEnt) : Mach :=
  ((m.fillOne core Config.coreTlb t).fillOne (Config.cores + coreGrove core) Config.groveTlb t).fillWalks core t

/-! The words that the walk of an address reads, as far as it goes (spec/06 R184, R187). -/

def seen3 (m : Mach) (va table : Nat) : List Nat :=
  let i := bits va 16 15
  let e := m.num (table + 8 * i) 8
  (table + 8 * i) ::
    if !pteV e || !pteLeaf e then [] else if pteSplit e then [pteAddr e + 8 * bits va 12 4]
    else if pteC32 e then (List.range 32).map fun j => table + 8 * (i / 32 * 32 + j) else []

def seen2 (m : Mach) (va table : Nat) : List Nat :=
  let at_ := table + 8 * bits va 31 15
  let e := m.num at_ 8
  at_ :: if pteV e && !pteLeaf e then seen3 m va (pteAddr e) else []

def seenRoot (m : Mach) (e : Eff) (va : Nat) : List Nat :=
  let root := m.num (e.fqbase * 4096 + 8) 8
  let at_ := root + 8 * bits va 46 11
  let p := m.num at_ 8
  (e.fqbase * 4096 + 8) :: if root = 0 then [] else at_ :: if pteV p && !pteLeaf p then seen2 m va (pteAddr p) else []

def walkSeen (m : Mach) (core : Nat) (e : Eff) (va : Nat) : List Nat :=
  match m.heldTable core e.fdom 2 (va / 2 ^ 31) with
  | some table => seen3 m va table
  | none => match m.heldTable core e.fdom 1 (va / 2 ^ 46) with
    | some table => seen2 m va table
    | none => seenRoot m e va

/-- A walk for an address corrects the single-bit errors of the words it reads (spec/06 R198). -/
def Mach.walkFix (m : Mach) (core : Nat) (e : Eff) (va : Nat) : Mach :=
  if m.eccSingle = [] || (m.tlbHit core e.fdom va).isSome then m
  else (walkSeen m core e va).foldl (fun m a => m.eccFix core a 8) m

/-- What a translation that an access has found leaves. -/
def Mach.walked (m : Mach) (core : Nat) (e : Eff) (va : Nat) (t : Option TlbEnt) : Mach :=
  match t with
  | some t => (m.walkFix core e va).fill core t
  | none => m

/-! ### The checks of one access (spec/06 R189) -/

/-- What an access needs (R189 step 4). -/
inductive Need where
  | r | w | rw | x
deriving DecidableEq, Repr

def Need.writes : Need → Bool
  | .w | .rw => true
  | _ => false

/-- Outcome of checks 1 to 6. -/
inductive Acc where
  | ok (loc : Nat) (attr : Nat) (t : Option TlbEnt)
  | trap (cause : Nat)
  | ecc (pa : Nat)
  | park (lock : Bool) (cause kind level page : Nat)
  | miss (transit : Bool)
deriving DecidableEq, Repr

def permits (n : Need) (a : Nat) : Bool :=
  match n with
  | .r => attrR a
  | .w => attrW a
  | .rw => attrR a && attrW a
  | .x => attrR a && attrX a

/-- Checks of a global access: alignment, address bits, walk, range and permission, LOCK, TM. Atomics on a host-window
frame take 0x22 (spec/01 R32). -/
def globalAcc (sys : Sys) (m : Mach) (core : Nat) (e : Eff) (va algn : Nat) (need : Need) (tm atomic : Bool) : Acc :=
  if va % algn ≠ 0 then .trap 0x2C
  else if va ≥ 2 ^ 57 then .trap 0x22
  else match translate sys m core e va with
    | .fault k l p => .park false 0x21 k l p
    | .range => .trap 0x22
    | .ecc pa => .ecc pa
    | .ok t =>
      let loc := t.frame + va % 2 ^ t.shift
      if !permits need t.attr then .trap 0x22
      else if atomic && m.inHost loc then .trap 0x22
      else if pkind loc == .cxl && (m.decoder loc).isNone then .trap 0x22
      else if attrLock t.attr then (if tm then .miss true else .park true 0x24 2 0 (page64 va))
      else if attrTm t.attr then (if tm then .miss false else .park false 0x24 2 0 (page64 va))
      else .ok loc t.attr (some t)

/-- Parts of an access that passes its checks. -/
def Acc.isOk : Acc → Bool
  | .ok _ _ _ => true
  | _ => false
def Acc.loc : Acc → Nat
  | .ok l _ _ => l
  | _ => 0
def Acc.attr : Acc → Nat
  | .ok _ a _ => a
  | _ => 0

/-- Base of a wave's scratch allocation and its bytes (spec/06 R176). -/
def Wave.scrAt (w : Wave) : Nat := scrLoc (w.core.getD 0) w.scrBase
def Wave.scrBytes (w : Wave) : Nat := w.scr * 256

/-- The table of a launch in a grove (spec/06 R178). -/
def Mach.share? (m : Mach) (g l : Nat) : Option ShareTab := m.shares.find? fun s => s.grove == g && s.launch == l

/-- Checks 1 and 2 of a scratch access of `len` bytes at a 32-bit offset (spec/06 R176, R179, R189). -/
def scratchAcc (m : Mach) (t : Thread) (off len algn : Nat) : Acc :=
  if off % algn ≠ 0 then .trap 0x2C
  else if off < 0x1000000 then
    match m.wave? t.wave with
    | some w => if off + len ≤ w.scrBytes then .ok (w.scrAt + off) 3 none else .trap 0x22
    | none => .trap 0x22
  else
    let mem := (off - 0x1000000) / 0x40000
    let o := (off - 0x1000000) % 0x40000
    if mem ≥ 24 then .trap 0x22
    else
      match (m.share? (coreGrove t.core) t.launch).bind fun s => s.members.find? fun p => p.1 == mem with
      | none => .trap 0x2A
      | some p =>
        match m.wave? p.2 with
        | some w => if o + len ≤ w.scrBytes then .ok (w.scrAt + o) 3 none else .trap 0x22
        | none => .trap 0x2A

/-! ### Routes (spec/01 R37, R44) -/

def fabricPorts : Nat := 18

def Sys.fport (sys : Sys) (n : Nat) : FPort := sys.fports.getD n {}

/-- The port by which a message leaves: the primary; class 2 takes the first alternate that is up while the primary is not. -/
def Sys.portFor (sys : Sys) (r : Route) (cls : Nat) : Nat :=
  if cls = 2 ∧ (sys.fport r.prim).state ≠ 2 then
    ([r.alt1, r.alt2, r.alt3].find? fun a => decide (a < fabricPorts) && (sys.fport a).state == 2).getD r.prim
  else r.prim

/-! ### Instruction fetch -/

inductive Fetch where
  | ok (w : DWord) (t : Option TlbEnt)
  | far (va loc : Nat)      -- a word outside the device whose line has to come first
  | trap (cause : Nat)
  | ecc (pa : Nat)
  | park (lock : Bool) (cause kind level page : Nat)
deriving DecidableEq, Repr

/-- What a core knows of a line of another device: nothing yet, or 0 or a cause (spec/06 R188). -/
def Mach.farLine (m : Mach) (core fdom tid va loc : Nat) : Option Nat :=
  (m.farLines.find? fun l => l.core == core && l.fdom == fdom && l.tid == tid && l.line == va / 64 && l.loc == loc / 64 * 64).map
    fun l => l.cause

/-- The bytes of a location stand outside the device: in another one, or with the host. -/
def Mach.away (m : Mach) (loc : Nat) : Bool := isRem loc || m.inHost loc

/-- The line of such a location: there, on its way, or the cause with which it failed (spec/06 R188, spec/01 R32). -/
def farState (sys : Sys) (m : Mach) (core fdom tid va loc : Nat) : Option Nat :=
  if isRem loc && !(look ({} : Route) sys.routes (loc / 2 ^ 52 - 1)).v then some 0x26 else m.farLine core fdom tid va loc

/-- What a unit that is no core knows of bytes outside the device that it reads: all of them, the first line that has not come, or a cause. -/
inductive FarRead where
  | ok
  | ask (va loc : Nat)
  | bad (cause loc : Nat)
deriving DecidableEq, Repr

/-- The lines of `len` bytes at an address, for the unit with a key. -/
def farRead (sys : Sys) (m : Mach) (fdom key va loc len : Nat) : FarRead :=
  (List.range ((va % 64 + len + 63) / 64)).foldl (fun r i => match r with
    | .ok =>
      let a := (va / 64 + i) * 64
      let l := (loc / 64 + i) * 64
      match farState sys m portCore fdom (2 * key) a l with
      | none => .ask a l
      | some 0 => .ok
      | some c => .bad c l
    | r => r) .ok

/-- One code word at a virtual address, fetched for a thread of the core (spec/03 R104, spec/06 R188, R189, R199). -/
def fetchWord (sys : Sys) (m : Mach) (core : Nat) (e : Eff) (va : Nat) : Fetch :=
  match globalAcc sys m core e (va % 2 ^ 57) 8 .x false false with
  | .ok loc _ t =>
    if m.away loc then match farState sys m core e.fdom 0 (va % 2 ^ 57) loc with
      | none => .far (va % 2 ^ 57) loc
      | some 0 => .ok (BitVec.ofNat 64 (m.num loc 8)) t
      | some c => if c = 0x30 then .ecc loc else .trap c
    else if badRange m loc 8 then .ecc loc else .ok (BitVec.ofNat 64 (m.num loc 8)) t
  | .trap c => .trap c
  | .ecc pa => .ecc pa
  | .park l c k lv p => .park l c k lv p
  | .miss _ => .trap 0x22

/-- Errors of an instruction-cache line are met as it is read: a single-bit error is corrected and counted for the core, and a line with an
uncorrectable one is fetched again with no trap (spec/06 R198, R199). -/
def Mach.ilineFix (m : Mach) (core fdom va : Nat) : Mach :=
  match m.ierrs.find? fun x => x.1 == core && x.2.1 == fdom && x.2.2.1 == va / 64 with
  | none => m
  | some x =>
    let m : Mach := { m with ierrs := m.ierrs.filter fun y => y != x }
    if x.2.2.2 = 1 then m.count1 core false else m

/-- The fetch of a code word corrects single-bit errors in it (spec/06 R198). -/
def Mach.fetchFix (sys : Sys) (m : Mach) (core : Nat) (e : Eff) (va : Nat) : Mach :=
  let m := m.ilineFix core e.fdom (va % 2 ^ 57)
  match globalAcc sys m core e (va % 2 ^ 57) 8 .x false false with
  | .ok loc _ _ => m.eccFix core loc 8
  | _ => m

/-- The words of a clause whose header stands at `at_` that lie outside the device and have not come: address and location. -/
def farWords (sys : Sys) (m : Mach) (core : Nat) (e : Eff) (at_ n : Nat) : List (Nat × Nat) :=
  (List.range (n + 1)).filterMap fun j => match fetchWord sys m core e (at_ + 8 * j) with
    | .far va loc => some (va, loc)
    | _ => none

/-- Failed lines have been met by the instruction that needed them: a later one asks again. -/
def Mach.forgetFar (m : Mach) (core tid : Nat) : Mach :=
  { m with farLines := m.farLines.filter fun l => !(l.core == core && l.tid == tid && l.cause != 0) }

/-- The word fetched, where the fetch passes its checks. -/
def Fetch.word? : Fetch → Option DWord
  | .ok w _ => some w
  | _ => none

end Sys2Proof.Machine
end

