-- ==== Sys2Proof/Machine/Budget.lean ====
section
/-! DEFINITION. What regions hold on a core, and the room there (spec/03 R113, spec/04 R114, R120, spec/05 R162, R167): gallery and
scratch bytes of waves, callee frames and return-combining buffers, and frames. -/

namespace Sys2Proof.Machine

/-- Is a launch under a block. -/
def Launch.under (l : Launch) (rcb : Nat) : Bool := l.chain.any fun c => c.1 == rcb

/-- Bytes of the gallery that a wave reserves: a place for every quarter context (spec/04 R114). -/
def Wave.galBytes (w : Wave) : Nat := (w.qpw + 1) * 256 * w.regs

/-- The region of a launch is saved: it holds nothing on its cores. -/
def Mach.isSaved (m : Mach) (rcb : Nat) : Bool := m.preempts.any fun p => p.rcb == rcb && p.stage == 2

def Mach.savedLaunch (m : Mach) (l : Nat) : Bool := m.isSaved (m.launch l).rcb

/-- Waves that hold a place on a core. -/
def Mach.placed (m : Mach) (core : Nat) : List Wave :=
  m.waves.filter fun w => w.core == some core && !w.exited && !m.savedLaunch w.launch

/-- A withdrawal of the wave's sharing entry is in progress (spec/06 R179). -/
def Mach.leaving (m : Mach) (wave : Nat) : Bool := m.shares.any fun s => s.closing.any fun p => p.2 == wave

/-- Bytes of a callee's frame, and of a call's return-combining buffer. -/
def Thread.frameBytes (t : Thread) : Nat := 4 * t.rg
def Call.bufBytes (c : Call) : Nat := if c.gather || c.waiting then 0 else 4 * c.w * c.retc

/-- Callees in frames of a core. -/
def Mach.framed (m : Mach) (core : Nat) : List Thread :=
  m.threads.filter fun t => t.core == core && t.isCallee && !m.savedLaunch t.launch

def Mach.buffers (m : Mach) (core : Nat) : List Call :=
  m.calls.filter fun c => c.core == core && !m.savedLaunch c.launch

/-- What is held of a core's gallery: launch and bytes. -/
def Mach.galHeld (m : Mach) (core : Nat) : List (Nat × Nat) :=
  ((m.placed core).map fun w => (w.launch, w.galBytes))
    ++ ((m.framed core).filter fun t => t.place == .gallery).map (fun t => (t.launch, t.frameBytes))
    ++ ((m.buffers core).filter fun c => c.bufAt == .gallery).map fun c => (c.launch, c.bufBytes)

/-- What is held of a core's scratchpad: launch, offset and bytes. The scratch of a wave that has exited is held until its sharing
entry is withdrawn. -/
def Mach.scrHeld (m : Mach) (core : Nat) : List (Nat × Nat × Nat) :=
  ((m.waves.filter fun w => w.core == some core && (!w.exited || m.leaving w.id) && !m.savedLaunch w.launch).map fun w =>
      (w.launch, w.scrBase, w.scrBytes))
    ++ ((m.framed core).filterMap fun t => match t.place with
      | .scratch o => some (t.launch, o, t.frameBytes)
      | _ => none)
    ++ (m.buffers core).filterMap fun c => match c.bufAt with
      | .scratch o => some (c.launch, o, c.bufBytes)
      | _ => none

/-- Bytes of the gallery and of scratch fit on a core, within every block of a launch's chain and within the core (spec/03 R113). -/
def Mach.budget (m : Mach) (core : Nat) (la : Launch) (gal scr : Nat) : Bool :=
  let gs := m.galHeld core
  let ss := m.scrHeld core
  decide ((gs.map fun g => g.2).sum + gal ≤ Config.galleryBytes)
    && la.chain.all fun b =>
      decide (((gs.filter fun g => (m.launch g.1).under b.1).map fun g => g.2).sum + gal ≤ b.2.galkb * 1024)
        && decide (((ss.filter fun s => (m.launch s.1).under b.1).map fun s => s.2.2).sum + scr ≤ b.2.scrkb * 1024)

/-- The lowest offset of a core's scratchpad at which `n` bytes are free of the ranges held: launch, offset and bytes. -/
def scrFit (held : List (Nat × Nat × Nat)) (n : Nat) : Option Nat :=
  (sortBy (fun a b : Nat => decide (a ≤ b)) (0 :: held.map fun h => (h.2.1 + h.2.2 + 255) / 256 * 256)).find? fun a =>
    decide (a + n ≤ Config.scratchBytes)
      && held.all fun h => h.2.2 == 0 || n == 0 || decide (a + n ≤ h.2.1) || decide (h.2.1 + h.2.2 ≤ a)

/-! ### Counters and submission queues (spec/17 R412, R416) -/

/-- Counters of a region. -/
def Eff.ctrs (e : Eff) : Nat := 64 * e.qpairs

def Mach.ctr? (m : Mach) (rcb idx : Nat) : Option Ctr := m.ctrs.find? fun c => c.rcb == rcb && c.idx == idx
def Mach.ctr (m : Mach) (rcb idx : Nat) : Ctr := (m.ctr? rcb idx).getD { rcb := rcb, idx := idx, val := 0 }


def Mach.pair? (m : Mach) (rcb q : Nat) : Option QPair := m.qpairs.find? fun p => p.rcb == rcb && p.q == q
def Mach.pair (m : Mach) (rcb q : Nat) : QPair := (m.pair? rcb q).getD { rcb := rcb, q := q }

/-- Places of a submission queue. -/
def subPlaces : Nat := 64

/-- A pair is used while an operation of it has not retired (DEDUCED, log 82). -/
def Mach.pairBusy (m : Mach) (rcb q : Nat) : Bool := (m.pair rcb q).subs != [] || m.colls.any fun e => e.rcb == rcb && e.q == q

/-- Pairs that the launches of a block and of all its descendants use. -/
def Mach.pairsUsed (m : Mach) (rcb : Nat) : Nat :=
  (m.qpairs.filter fun p => m.pairBusy p.rcb p.q && m.launches.any fun l => l.rcb == p.rcb && l.under rcb).length

/-- One more pair is within every block of a launch's chain (spec/03 R113). -/
def Mach.pairFits (m : Mach) (la : Launch) (q : Nat) : Bool :=
  m.pairBusy la.rcb q || la.chain.all fun b => decide (m.pairsUsed b.1 < b.2.qpairs)

/-- A launch has room for operations in a submission queue. -/
def Mach.subRoom (m : Mach) (la : Launch) (q n : Nat) : Bool :=
  decide ((m.pair la.rcb q).subs.length + n ≤ subPlaces) && m.pairFits la q

/-! ### Frames (spec/03 R113, spec/05 R162, R167) -/

def Mach.framesUsed (m : Mach) (core rcb : Nat) : Nat :=
  ((m.calls.filter fun c => c.core == core && (m.launch c.launch).under rcb && !m.savedLaunch c.launch).map fun c =>
    c.framesHeld).sum

/-- Frames that a launch can still be granted on a core, within every block of its chain. -/
def Mach.framesFree (m : Mach) (core launch : Nat) : Nat :=
  (m.launch launch).chain.foldl (fun n b => Nat.min n (b.2.frames - m.framesUsed core b.1)) 64

/-- `frames_grantable(region, core, W)`. -/
def Mach.grantable (m : Mach) (core launch w : Nat) : Nat := Nat.min w (m.framesFree core launch)

/-- Where items of these sizes are stored, one after another: the gallery within GALKB; the scratch that no placed wave holds, within
SCRKB; else the caller's stack, from `top` on. `gal` and `scr` are what the items before them have taken. -/
def Mach.placeItems (m : Mach) (core launch : Nat) : Nat → Nat → List (Nat × Nat × Nat) → List Nat → List Place
  | _, _, _, [] => []
  | top, gal, scr, n :: r =>
    let la := m.launch launch
    let taken := (scr.map fun s => s.2.2).sum
    if n = 0 || m.budget core la (gal + n) taken then .gallery :: m.placeItems core launch top (gal + n) scr r
    else match (if m.budget core la gal (taken + n) then scrFit (m.scrHeld core ++ scr) n else none) with
      | some o => .scratch o :: m.placeItems core launch top gal (scr ++ [(launch, o, n)]) r
      | none => .stack top :: m.placeItems core launch (top + n) gal scr r

/-- Bytes that placed items take of the caller's stack. -/
def stackBytes (ps : List Place) (sizes : List Nat) : Nat :=
  ((ps.zip sizes).map fun x => match x.1 with
    | .stack _ => x.2
    | _ => 0).sum

/-- An item goes onto a thread's stack, or leaves it. -/
def Thread.pushItem (t : Thread) (kind len : Nat) : Thread :=
  { t with stk := (kind, t.tlsTop, len) :: t.stk, tlsTop := t.tlsTop + len }

def Thread.pushPlaced (t : Thread) (kind len : Nat) (p : Place) : Thread :=
  match p with
  | .stack _ => t.pushItem kind len
  | _ => t

/-- The bits of FMODE and of TMSHAPE that are not reserved: the others are ignored on a write (spec/09 R246, R258). -/
def fmodeMask : Word := 0x7B
def tmshapeMask : Word := 0x7FFFF

/-- What remains on top after an item has left. -/
def Thread.retop (t : Thread) (stk : List (Nat × Nat × Nat)) : Thread :=
  { t with stk := stk, tlsTop := stk.foldl (fun a i => Nat.max a (i.2.1 + i.2.2)) t.tlsBase }

def Thread.popPlaced (t : Thread) (kind : Nat) (p : Place) : Thread :=
  match p with
  | .stack va => t.retop (t.stk.filter fun i => !(i.1 == kind && i.2.1 == va))
  | _ => t

end Sys2Proof.Machine
end

