-- ==== Sys2Proof/Machine/Glades.lean ====
section
/-! DEFINITION. Function headers (spec/05 R158, R159) and glades (spec/05 R152-R156): how the threads filed in a cycle enter them, and
how their threads leave as quarters. -/

namespace Sys2Proof.Machine

/-! ### Function headers (spec/05 R158, R159) -/

structure FnHdr where
  magic : Nat
  kind : Nat
  factor : Nat
  frame : Nat
  red : Nat
  retc : Nat
  argc : Nat
  age : Nat
  grant : Nat
  low : Nat
deriving DecidableEq, Repr

def fnHdr (w : DWord) : FnHdr :=
  let n := w.toNat
  { magic := bits n 56 8, kind := bits n 54 2, factor := bits n 48 6, frame := 8 * bits n 40 8, red := bits n 36 4,
    retc := bits n 32 4, argc := bits n 24 8, age := 256 * 2 ^ bits n 22 2, grant := bits n 20 2, low := bits n 0 20 }

def FnHdr.w (f : FnHdr) : Nat := if f.factor = 0 then 64 else f.factor

/-- The checks of a call against the header, in order, for callers with visible register counts and width depths
(spec/05 R159), under the launch's version (spec/10 R284): the cause of the first that fails. -/
def FnHdr.check (f : FnHdr) (ver : Nat) (entryIsHdr : Bool) (rgs depths : List Nat) : Option Nat :=
  let rgMin := rgs.foldl Nat.min 256
  let reservedBad := f.low != 0 || (f.kind == 0 && f.factor != 0) || (f.kind != 1 && f.grant != 0)
  let verBad := (ver < 2 && (f.kind != 0 || f.red != 0)) || (ver < 3 && f.red == 8)
  if !entryIsHdr || verBad || f.magic ≠ 0xFC || f.kind == 3 || f.grant == 3 || reservedBad then some 0x54
  else if f.kind = 1 ∧ f.factor = 1 then some 0x53
  else if f.kind = 2 ∧ (f.factor < 2 ∨ 8 < f.factor) then some 0x56
  else if f.frame < 16 ∨ 256 < f.frame then some 0x54
  else if f.kind ≠ 1 ∧ f.red ≠ 0 then some 0x54
  else if f.kind = 1 ∧ ((f.retc > 0 ∧ f.red = 0) ∨ f.red > 10 ∨ (f.red = 8 ∧ f.retc % 3 ≠ 0)) then some 0x54
  else if f.kind = 0 ∧ f.frame > rgMin then some 0x54
  else if f.kind = 1 ∧ (f.argc > f.frame ∨ f.retc > f.frame ∨ f.argc > rgMin ∨ f.retc > rgMin
      ∨ (f.grant = 2 ∧ f.frame > rgMin)) then some 0x54
  else if f.kind = 2 ∧ (f.argc * f.factor > f.frame ∨ f.retc * f.factor > f.frame ∨ f.argc > rgMin ∨ f.retc > rgMin) then
    some 0x54
  else if f.kind ≠ 0 ∧ depths.any (fun d => d ≥ 4) then some 0x55
  else none

/-- The aging limit of glades at a pc (spec/05 R152): the AGE field of the function header before it, for a function entry. -/
def Mach.ageAt (sys : Sys) (m : Mach) (core launch : Nat) (pc : Pc) : Nat :=
  match (fetchWord sys m core (m.eff launch) (pc - 8).toNat).word? with
  | some w => if (fnHdr w).magic = 0xFC then (fnHdr w).age else Config.defaultAge
  | none => Config.defaultAge

/-! ### Glades -/

/-- A fresh quarter still waits in its glade to gang (spec/05 R154). -/
def Mach.freshWaits (m : Mach) (limit : Nat) (q : Quarter) : Bool :=
  q.gang.isNone && q.fresh.any fun t => decide (m.cycle < t + limit)

/-- Four fresh quarters of one launch that wait in one glade leave together as a ganged wave. -/
def Mach.gangFresh (m : Mach) (core launch rg : Nat) (pc : Pc) (limit : Nat) : Mach :=
  let fr := m.quarters.filter fun u => u.core == core && u.launch == launch && u.pc == pc && u.rg == rg && m.freshWaits limit u
  if fr.length < 4 then m
  else
    let four := (fr.take 4).map fun u => u.id
    { m with
      quarters := m.quarters.map fun u =>
        if four.contains u.id then { u with gang := some m.next, steps := 0, fresh := none, readySince := m.cycle } else u
      next := m.next + 1 }

/-- The waiting threads of a glade leave as one quarter, slots in order of entry (spec/05 R153, R154). It stands inside the clause that any
of them has come back to, and STALL counts from the latest issue of them all (spec/10 R270). -/
def Mach.formQuarter (sys : Sys) (m : Mach) (g : Glade) : Mach :=
  let ids := g.threads.map fun p => p.1
  let full := g.threads.length == 8
  let start := ids.foldl (fun a id => Nat.max a (m.thr id).startAt) 0
  let q : Quarter :=
    { id := m.next, core := g.core, launch := g.launch,
      slots := (ids.map some) ++ List.replicate (8 - ids.length) none, rg := g.rg, pc := g.pc,
      hdr := ids.findSome? fun id => (m.thr id).hdr, lastIssue := ids.foldl (fun a id => maxIssue a (m.thr id).lastIssue) none,
      entered := m.cycle, readySince := m.cycle, startAt := start,
      fresh := if g.reform && full then some m.cycle else none }
  let m : Mach := { m with
    quarters := m.quarters ++ [q], next := m.next + 1
    threads := m.threads.map fun u => if ids.contains u.id then { u with stat := .run q.id } else u
    glades := m.glades.filter fun u => u.id != g.id }
  if q.fresh.isSome then m.gangFresh g.core g.launch g.rg g.pc (m.ageAt sys g.core g.launch g.pc) else m

/-- The callers of a gather glade leave it as one group, which waits to start its callee (spec/05 R168). -/
def Mach.formGroup (m : Mach) (g : Glade) : Mach :=
  let m := { m with glades := m.glades.filter fun u => u.id != g.id }
  match m.call? g.call with
  | none => m
  | some c =>
    let ids := g.threads.map fun p => p.1
    (m.modAll ids fun t => { t with stat := .suspended c.id }).setCall { c with callers := ids, caller := ids.headD 0, waiting := true }

/-- The waiting threads of a glade leave: as a quarter, or as a group of gather callers. -/
def Mach.yieldGlade (sys : Sys) (m : Mach) (g : Glade) : Mach := if g.gather then m.formGroup g else m.formQuarter sys g

/-- Keys of a core's fresh quarters that hold a glade with no waiting thread. -/
def Mach.freshKeys (sys : Sys) (m : Mach) (core : Nat) : List (Nat × Pc × Nat) :=
  ((m.quarters.filter fun q => q.core == core && q.fresh.isSome && !m.savedLaunch q.launch && m.freshWaits (m.ageAt sys core q.launch q.pc) q
      && !(m.glades.any fun g => g.core == core && g.launch == q.launch && g.pc == q.pc && g.rg == q.rg && !g.gather)).map fun q =>
    (q.launch, q.pc, q.rg)).eraseDups

/-- The fresh quarters of a glade leave it. -/
def Mach.leaveFresh (m : Mach) (core launch rg : Nat) (pc : Pc) : Mach :=
  { m with quarters := m.quarters.map fun (q : Quarter) =>
      if q.core = core ∧ q.launch = launch ∧ q.pc = pc ∧ q.rg = rg then { q with fresh := none } else q }

/-- A free glade on the core, made by letting the one whose oldest thread was filed first go (spec/05 R153), and its fresh quarters with it;
where only fresh quarters hold glades, those of the first leave (log 59). -/
def Mach.freeGlade (sys : Sys) (m : Mach) (core : Nat) : Mach :=
  let gs := m.glades.filter fun g => g.core == core && !m.savedLaunch g.launch
  let fs := m.freshKeys sys core
  if gs.length + fs.length < Config.glades then m
  else match minBy (fun a b => decide ((a.threads.headD (0, 0)).2 < (b.threads.headD (0, 0)).2)) gs with
    | some g =>
      let m := m.yieldGlade sys g
      if g.gather then m else m.leaveFresh core g.launch g.rg g.pc
    | none => match fs with
      | [] => m
      | k :: _ => m.leaveFresh core k.1 k.2.2 k.2.1

/-- Entering a thread into the glade with its key, which fresh quarters alone may hold; at eight threads a fresh quarter forms (spec/05
R153). The first gather caller makes the record of its group's call, and the others add where they have called. -/
def Mach.enterGlade (sys : Sys) (m : Mach) (f : Filing) : Mach :=
  let t := m.thr f.tid
  let gather := f.call.isSome
  let here := m.glades.find? fun g =>
    g.core == t.core && g.launch == t.launch && g.pc == f.pc && g.rg == t.rg && g.gather == gather
  let (m, g) := match here with
    | some g => (match f.call, m.call? g.call with
      | some c, some c' => m.setCall { c' with sites := c'.sites ++ c.sites }
      | _, _ => m, g)
    | none =>
      let m := if !gather && (m.freshKeys sys t.core).contains (t.launch, f.pc, t.rg) then m else m.freeGlade sys t.core
      let m : Mach := match f.call with
        | some c => { m with calls := m.calls ++ [{ c with id := m.next }], next := m.next + 1 }
        | none => m
      let g : Glade := { id := m.next, core := t.core, launch := t.launch, pc := f.pc, rg := t.rg, gather := gather,
                         call := if gather then m.next - 1 else 0 }
      ({ m with glades := m.glades ++ [g], next := m.next + 1 }, g)
  let g := { g with threads := g.threads ++ [(f.tid, m.cycle)], reform := g.reform && f.reform }
  let m := (m.setGlade g).modThr f.tid fun t => { t with stat := .filed g.id }
  let full := match f.call with
    | some c => c.w
    | none => 8
  if full ≤ g.threads.length then m.yieldGlade sys g else m

/-- The threads filed in a cycle enter their glades as it ends, in ascending thread order (spec/05 R153). The callers of a gather return are
filed in slot order (R169); filed in one cycle, they too enter in thread order (DESIGN CHOICE, log 139). -/
def Mach.flush (sys : Sys) (m : Mach) : Mach :=
  let fs := m.filing.filter fun f => (m.thr f.tid).stat == .filing
  ((m.inOrder (fs.map fun f => f.tid)).eraseDups).foldl (fun m id =>
    match fs.reverse.find? fun f => f.tid == id with
    | some f => m.enterGlade sys f
    | none => m) { m with filing := [] }

end Sys2Proof.Machine
end

