-- ==== Sys2Proof/Machine/Race.lean ====
section
/-! DEFINITION. The race checker (spec/07 R221-R225): phases, views, floors, what an acquire learns, and the judgement of
one access. -/

namespace Sys2Proof.Machine

/-- The code of a scope; the scopes `.k` and wider are 3 to 7 (spec/10 R275). -/
def scopeK (s : Scope) : Bool := 3 ≤ s.code

/-- The two waves pass the scope test of spec/07 R207 at these scopes, each in the other's unit. -/
def coreIn (s a b : Nat) : Bool :=
  if s ≤ 2 then false
  else if s = 3 then a == b
  else if s = 4 then coreGrove a == coreGrove b
  else if s = 5 then coreDie a == coreDie b
  else true

def scopePair (sA sB a b : Nat) : Bool := coreIn sA a b && coreIn sB b a

/-- `p before q` (spec/07 R224). -/
def phBefore (p q : Nat) : Bool := let d := (q + 256 - p) % 256; 1 ≤ d && d ≤ 128

/-- A pair enters a view, the later phase kept; the pair updated least recently is dropped beyond 32 (spec/07 R222). -/
def Wave.learnPair (w : Wave) (a q : Nat) : Wave :=
  if a = w.number then w
  else
    let q := match w.view.find? fun p => p.1 == a with
      | some p => if phBefore p.2 q then q else p.2
      | none => q
    let v : List (Nat × Nat) := (w.view.filter fun p => p.1 != a) ++ [(a, q)]
    if v.length > 32 then { w with view := v.drop (v.length - 32), inexact := true } else { w with view := v }

/-- Wave `b` synchronises with a release of wave `a` after which its phase was `q` (spec/07 R222). -/
def Mach.learn (m : Mach) (b a q : Nat) : Mach :=
  if a = b then m
  else match m.wave? a with
    | none => m.modWave b fun w => { w with inexact := true }
    | some wa => m.modWave b fun w =>
      let w := w.learnPair wa.number q
      if wa.exited then { w with inexact := true } else wa.view.foldl (fun w p => w.learnPair p.1 p.2) w

/-- Is the thread in a race-checked region (spec/03 R109). -/
def Mach.checked (m : Mach) (t : Thread) : Bool := (m.eff t.launch).race

/-- A release at scope `.k` or wider adds 1 to the wave's phase before it writes anything (spec/07 R221). -/
def Mach.bump (m : Mach) (t : Thread) (scope : Nat) : Mach :=
  if m.checked t && 3 ≤ scope then m.modWave t.wave fun w => { w with ph := (w.ph + 1) % 256 } else m

def Mach.phase (m : Mach) (wave : Nat) : Nat :=
  match m.wave? wave with
  | some w => w.ph
  | none => 0

/-- A synchronising step is appended to S (spec/07 R202). -/
def Mach.sync (m : Mach) (tid scope : Nat) (rel acq : Bool) (at_ : SyncAt) : Mach :=
  { m with order := m.order ++ [⟨tid, scope, rel, acq, at_⟩] }

/-- A release of a thread at a scope: a step of S, which adds to its wave's phase first. -/
def Mach.release (m : Mach) (t : Thread) (scope : Nat) (at_ : SyncAt) : Mach := (m.sync t.id scope true false at_).bump t scope

/-- An acquire of a thread at a scope. -/
def Mach.acquire (m : Mach) (tid scope : Nat) (at_ : SyncAt) : Mach := m.sync tid scope false true at_

/-- What has been released on the 4-byte word that holds a location. -/
def Mach.released (m : Mach) (loc : Nat) : List Rel := look [] m.relAt (loc / 4)

def Mach.setReleased (m : Mach) (loc : Nat) (l : List Rel) : Mach :=
  { m with relAt := if l = [] then m.relAt.filter fun p => p.1 != loc / 4 else put m.relAt (loc / 4) l }

/-- The later release of a wave at a scope replaces its earlier one of the same kind. -/
def addRel (l : List Rel) (r : Rel) : List Rel :=
  (l.filter fun p => !(p.wave == r.wave && p.scope == r.scope && p.fence == r.fence)) ++ [r]

/-- A plain write ends the release sequences of the words it writes (spec/07 R208). -/
def Mach.unrelease (m : Mach) (loc len : Nat) : Mach :=
  { m with relAt := m.relAt.filter fun p => !(decide (loc < 4 * p.1 + 4) && decide (4 * p.1 < loc + len)) }

/-- The thread learns from every release of the list within the scope test; a wave that is gone has exited, and is seen at package
scope and wider. -/
def Mach.learnAll (m : Mach) (t : Thread) (scope : Nat) (l : List Rel) : Mach :=
  l.foldl (fun m r =>
    match m.wave? r.wave with
    | some wa => if scopePair r.scope scope (wa.core.getD 0) t.core then m.learn t.wave r.wave r.ph else m
    | none => if 6 ≤ r.scope ∧ 6 ≤ scope then m.learn t.wave r.wave r.ph else m) m

/-- The synchronisation of an atomic of a thread on a location of `len` bytes (spec/07 R208, R221, R222), before it writes: its
release part, then for an `atom` what it acquires; the earlier release fences of the thread are published with it. An `atom` pairs
with atomics, an acquire fence with release fences. -/
def Mach.syncAtomic (m : Mach) (t : Thread) (scope loc len : Nat) (acquire : Bool) : Mach :=
  let m := m.sync t.id scope true acquire (.loc loc)
  if !m.checked t then m
  else
    let m := m.bump t scope
    let words := if len ≤ 4 then [loc] else [loc, loc + 4]
    let seen := (words.flatMap m.released).eraseDups
    let m := if acquire then
        (m.learnAll t scope (seen.filter fun r => !r.fence)).modThr t.id fun u => { u with
          readRel := (seen.filter fun r => r.fence).foldl addRel u.readRel }
      else m
    let mine := ⟨t.wave, m.phase t.wave, scope, false⟩ :: t.fenceRel
    words.foldl (fun m w => m.setReleased w (mine.foldl addRel (m.released w))) m

/-- A fence (spec/15 R373): its release part bumps the phase and stands for later atomics; its acquire part learns what the
thread's atomics have read. -/
def Mach.syncFence (m : Mach) (t : Thread) (scope : Nat) (rel acq : Bool) : Mach :=
  let m := m.sync t.id scope rel acq .none
  if !m.checked t then m
  else
    let m := if rel then
        let m := m.bump t scope
        let r : Rel := ⟨t.wave, m.phase t.wave, scope, true⟩
        m.modThr t.id fun u => { u with fenceRel := addRel u.fenceRel r }
      else m
    if acq then m.learnAll t scope t.readRel else m

/-- The wave is a member of a barrier at this level and place (spec/07 R223). -/
def Wave.memberAt (w : Wave) (level place : Nat) : Bool :=
  if level = 1 then w.core.any fun k => coreGrove k == place
  else if level = 2 then w.core.any fun k => coreDie k == place else true

/-- THE JUDGEMENT of one sector for a wave (spec/07 R224): ordered or not. -/
def Wave.ordered (w : Wave) (stamp : Nat) : Bool :=
  let a := stamp / 256
  let p := stamp % 256
  stamp == clearStamp || a == w.number
    || (w.view.any fun e => e.1 == a && phBefore p e.2)
    || (w.floors.any fun f => f.2.1.contains a && phBefore p f.2.2)

/-- Some sector of the range is not ordered for the thread's wave. -/
def Mach.racy (m : Mach) (t : Thread) (loc len : Nat) : Bool :=
  match m.wave? t.wave with
  | none => false
  | some w => (sectorsOf loc len).any fun s => !w.ordered (m.stamp s)

/-- A write under RC of `len` bytes notes its pages, which RC covers from then on (spec/06 R197). -/
def Mach.rcNote (m : Mach) (fd va loc len : Nat) : Mach :=
  if isScr loc || len == 0 then m
  else
    let ps := (List.range ((va % 4096 + len - 1) / 4096 + 1)).map fun i => (fd, va / 4096 + i, loc / 4096 + i)
    { m with rcOn := m.rcOn ++ ps.filter fun p => !m.rcOn.contains p }

/-- Is the location race-checked for a thread of a region (spec/06 R197): its scratch, or a near page with RC. -/
def raceLoc (loc attr : Nat) : Bool :=
  isScr loc || (attrRc attr && !attrFar attr && !attrRem attr)

end Sys2Proof.Machine
end

