-- ==== Sys2Proof/Machine/Sump.lean ====
section
/-! DEFINITION. The sump (spec/06 R193-R195), event queues (R183, R192), tier misses, and instruction pieces that wait. -/

namespace Sys2Proof.Machine

/-! ### Event queues -/

/-- Posting an event entry (spec/06 R183, R192): dropped when there is no room, which LOST counts; a header in error stops
posting (spec/08 R238). Answers whether the event was dropped. -/
def Mach.postEvent (m : Mach) (e : Eff) (ty core rcb va : Nat) : Mach × Bool :=
  let hdr := e.evqbase * 4096
  match (wordsOf hdr 64).find? m.eccDouble.contains with
  | some w => (m.logErr 0x30 core w, true)
  | none =>
    let tail := m.num hdr 4
    let head := m.num (hdr + 4) 4
    if (tail + 2 ^ 32 - head) % 2 ^ 32 < 2 ^ e.evqlog2 then
      let at_ := hdr + 64 + 32 * (tail % 2 ^ e.evqlog2)
      let m := m.devStore at_ (toBytes va 8 ++ toBytes rcb 8 ++ toBytes tail 4 ++ toBytes core 2 ++ [0, 0] ++ toBytes ty 8)
      ((m.devStore hdr (toBytes (tail + 1) 4)).fire (64 + e.evq), false)
    else (m.devStore (hdr + 32) (toBytes (m.num (hdr + 32) 4 + 1) 4), true)

/-- A `.tm` miss on a page (spec/06 R191, R192; MUTE, spec/13 R337): the event, the filter, and the status word. -/
def Mach.tierMiss (m : Mach) (t : Thread) (va : Nat) : Mach × Word :=
  if t.mute then (m, 1)
  else
    let e := m.eff t.launch
    let page := page64 va
    if m.filters.contains (t.core, e.fdom, page) then (m, 1)
    else
      let mine := m.filters.filter fun f => f.1 == t.core && f.2.1 == e.fdom
      let rest := m.filters.filter fun f => !(f.1 == t.core && f.2.1 == e.fdom)
      let kept := if mine.length ≥ Config.filterPages then mine.drop 1 else mine
      let m := { m with filters := rest ++ kept ++ [(t.core, e.fdom, page)] }
      let (m, lost) := m.postEvent e 1 t.core (m.launch t.launch).rcb page
      (m, if lost then 3 else 1)

/-! ### Parking -/

/-- What a replayable fault of one thread needs: its record's key, and its address. -/
structure ParkReq where
  tid : Nat
  lock : Bool
  cause : Nat
  kind : Nat
  level : Nat
  page : Nat
  fetch : Bool
  write : Bool
  va : Nat
deriving DecidableEq, Repr

/-- The record of a fault: one for each 64 KiB page, or each 4 KiB subpage for a fault at level 4 (spec/06 R193). -/
def ParkReq.keyIn (p : ParkReq) (core fdom : Nat) (r : SumpRec) : Bool :=
  r.core == core && r.fdom == fdom && r.page == p.page && (r.level == 4) == (p.level == 4) && r.cause == p.cause
    && r.lock == p.lock

/-- What a thread needs of the sump: its page, whether the fault is at level 4, its cause, and whether it is a lock. -/
def ParkReq.need (p : ParkReq) : Nat × Bool × Nat × Bool := (p.page, p.level == 4, p.cause, p.lock)

/-- The sump has entries for threads with these needs, and records for their pages (spec/06 R193). -/
def Mach.sumpFits (m : Mach) (core fdom : Nat) (ns : List (Nat × Bool × Nat × Bool)) : Bool :=
  let recs := m.sump.filter fun r => r.core == core
  let used := (recs.map fun r => r.threads.length).sum
  let fresh := ns.filter fun n => !(recs.any fun r =>
    r.fdom == fdom && r.page == n.1 && (r.level == 4) == n.2.1 && r.cause == n.2.2.1 && r.lock == n.2.2.2)
  decide (used + ns.length ≤ Config.sumpThreads) && decide (recs.length + fresh.eraseDups.length ≤ Config.sumpRecords)

def Mach.sumpRoom (m : Mach) (core fdom : Nat) (ps : List ParkReq) : Bool := m.sumpFits core fdom (ps.map ParkReq.need)

/-- One thread parks at its own pc (spec/06 R193): its record is found or created, it leaves its quarter, and a new record
that is not a lock record waits to be posted. -/
def Mach.parkOne (m : Mach) (core fdom flag : Nat) (p : ParkReq) : Mach :=
  let t := m.thr p.tid
  let m := (m.pull p.tid).walkFix core (m.eff t.launch) p.va
  match m.sump.find? (p.keyIn core fdom) with
  | some r =>
    let ids := m.inOrder (p.tid :: r.threads)
    let r' := if ids.headD 0 = p.tid then { r with va := p.va, write := p.write, rcb := (m.launch t.launch).rcb } else r
    { (m.modThr p.tid fun t => { t with stat := .parked r.id, waitSince := none }) with
      sump := m.sump.map fun u => if u.id == r.id then { r' with threads := ids, keep := (p.tid, p.va, flag) :: r.keep } else u }
  | none =>
    let r : SumpRec :=
      { id := m.next, core := core, fdom := fdom, page := p.page, cause := p.cause, lock := p.lock, kind := p.kind,
        level := p.level, fetch := p.fetch, write := p.write, va := p.va, rcb := (m.launch t.launch).rcb,
        threads := [p.tid], keep := [(p.tid, p.va, flag)] }
    let m := m.modThr p.tid fun t => { t with stat := .parked r.id, waitSince := none }
    { m with
      sump := m.sump ++ [r], next := m.next + 1
      posts := if p.lock then m.posts else m.posts ++
        [{ fdom := fdom, owner := .sump r.id, cause := p.cause, kind := p.kind, level := p.level, fetch := p.fetch,
           write := p.write, nthr := 0, core := core, rcb := r.rcb, va := p.va }] }

/-- The threads park in ascending thread order, each with its context at `pc` of the clause `hdr`; those of a launch that is ending are
removed instead (spec/03 R107). -/
def Mach.parkAll (m : Mach) (core fdom : Nat) (pc : Pc) (hdr : Option (Pc × DWord)) (flag : Nat) (ps : List ParkReq) :
    Mach :=
  (m.inOrder (ps.map fun p => p.tid)).foldl (fun m id =>
    match ps.find? fun p => p.tid == id with
    | some p =>
      if (m.launch (m.thr id).launch).ending.isSome then m.removeThreads [id]
      else (m.modThr id fun t => { (t.carryFlag pc flag) with pc := pc, hdr := hdr }).parkOne core fdom flag p
    | none => m) m

/-- A thread has instructions in flight (pending register writes or accesses). -/
def Mach.inFlight (m : Mach) (tid : Nat) : Bool := m.flights.any fun f => f.tids.contains tid

/-- A register of the thread still waits for a result (spec/04 R121, R122). -/
def Mach.landing (m : Mach) (tid : Nat) : Bool :=
  m.flights.any fun f => f.tids.contains tid && f.instr.uses.any fun u => u.role == .dst || u.role == .stat

/-- The quarter waits for room in the sump (spec/06 R193). -/
def Mach.waitSump (m : Mach) (q : Quarter) (ps : List ParkReq) : Mach := m.waitQ q (.fault (ps.map ParkReq.need))

/-! ### Sending a cause to one thread wherever it is -/

/-- The slot of a thread in its quarter; 0 when it is in none. -/
def Mach.slotOf (m : Mach) (tid : Nat) : Nat :=
  match (m.quarters.flatMap Quarter.active).find? fun p => p.2 == tid with
  | some p => p.1
  | none => 0

/-- A per-thread cause at an instruction that has issued (spec/08 R227): its flight and operations are gone, and its count
stays outstanding. -/
def Mach.failFlight (m : Mach) (tid : Nat) (f : Flight) (cause va : Nat) : Mach :=
  let m := ({ m with flights := m.flights.filter fun g => g.uid != f.uid } : Mach).unlook f.iss
  let m := m.modThr tid fun t => { t with pend := t.pend.filter fun o => o.uid != f.uid, carry := some (f.pc, f.flag) }
  m.raise f.core f.launch [(m.slotOf tid, tid, va)] cause f.pc f.hdr f.flag

/-- A cause of instructions that have issued, taken by every thread of their flights, which share their pc. -/
def Mach.failAll (m : Mach) (fs : List Flight) (cause : Nat) : Mach :=
  match fs with
  | [] => m
  | f :: _ =>
    let who := fs.flatMap fun g => g.tids.map fun t => (m.slotOf t, t, (g.failed.map fun x => x.2).getD 0)
    let m := ({ m with flights := m.flights.filter fun g => !fs.any fun u => u.uid == g.uid } : Mach).unlook f.iss
    let m := m.modAll (who.map fun p => p.2.1) fun t => { t with
      pend := t.pend.filter fun o => !fs.any fun u => u.uid == o.uid, carry := some (f.pc, f.flag) }
    m.raise f.core f.launch (sortBy (fun a b => decide (a.1 ≤ b.1)) who) cause f.pc f.hdr f.flag

/-- An operation of a flight fails: the flight's other operations are given up, and its cause is kept until the other threads of
the issue have performed (spec/06 R190). -/
def Mach.flightFail (m : Mach) (f : Flight) (cause va : Nat) : Mach :=
  let m := m.modThr f.owner fun t => { t with pend := t.pend.filter fun o => o.uid != f.uid }
  m.setFlight { f with failed := some (cause, va), done := false }

/-- The threads of an issue have all performed, or failed: the failed ones take their causes, equal causes together (log 65). -/
def Mach.settleIssue (m : Mach) (iss : Nat) : Mach :=
  let fs := m.flights.filter fun f => f.iss == iss
  let bad := fs.filter fun f => f.failed.isSome
  if bad = [] || fs.any (fun f => (m.thr f.owner).pend.any fun o => o.uid == f.uid) then m
  else ((bad.filterMap fun f => f.failed.map fun x => x.1).eraseDups).foldl
    (fun m c => m.failAll (bad.filter fun f => f.failed.any fun x => x.1 == c) c) m

end Sys2Proof.Machine
end

