-- ==== Sys2Proof/Machine/Alu.lean ====
section
/-! DEFINITION. The arithmetic of spec/13 on words: exact integers, narrowed at the end (spec/00 R6). -/

namespace Sys2Proof.Machine

/-- `clamp(r, lo, hi)` of spec/13 R319. -/
def clampI (r lo hi : Int) : Int := if r < lo then lo else if hi < r then hi else r

/-- A word read under the instruction's type: `s`, or `u` under `.n32` (spec/13 R321). -/
def satRead (m : Sat) (w : Word) : Int :=
  match m with
  | .n32 => uW w
  | _ => sW w

/-- The exact result narrowed: wrapped, or clamped to the range of i32 or n32 (spec/13 R321). -/
def satNarrow (m : Sat) (r : Int) : Word :=
  match m with
  | .wrap => wI r
  | .i32 => wI (clampI r (-(2 ^ 31)) (2 ^ 31 - 1))
  | .n32 => wI (clampI r 0 (2 ^ 32 - 1))

/-- A word as i32 or n32. -/
def rdU (u : Bool) (w : Word) : Int := if u then uW w else sW w

def aluAdd (m : Sat) (a b : Word) : Word := satNarrow m (satRead m a + satRead m b)
def aluSub (m : Sat) (a b : Word) : Word := satNarrow m (satRead m a - satRead m b)
def aluMul (m : Sat) (a b : Word) : Word := satNarrow m (satRead m a * satRead m b)
def aluMad (m : Sat) (a b c : Word) : Word := satNarrow m (satRead m a * satRead m b + satRead m c)
def aluMulh (u : Bool) (a b : Word) : Word := wI ((rdU u a * rdU u b) / 2 ^ 32)
def aluMin (u : Bool) (a b : Word) : Word := if rdU u a ≤ rdU u b then a else b
def aluMax (u : Bool) (a b : Word) : Word := if rdU u a ≥ rdU u b then a else b
def aluAbs (sat : Bool) (a : Word) : Word := satNarrow (if sat then .i32 else .wrap) (sW a).natAbs
def aluNeg (sat : Bool) (a : Word) : Word := satNarrow (if sat then .i32 else .wrap) (-(sW a))

/-- Low and high word of a 64-bit result. -/
def pairWords (d : DWord) : List Word := [d.lo, d.hi]

/-- `madw`: the c pair read as i64 or n64; modulo 2^64 both readings agree. -/
def aluMadw (u : Bool) (a b : Word) (c : DWord) : DWord := BitVec.ofInt 64 (rdU u a * rdU u b + c.toNat)

/-- `addc` and `subb`: the result and the carry or borrow out. -/
def aluAddc (a b c : Word) : List Word :=
  let t := a.toNat + b.toNat + c.toNat % 2
  [wN t, wN (t / 2 ^ 32)]
def aluSubb (a b c : Word) : List Word :=
  let t : Int := uW a - uW b - (c.toNat % 2 : Nat)
  [wI t, if t < 0 then 1 else 0]

/-- imm24 sign-extended and zero-extended (spec/13 R322, R323). -/
def immS (i : BitVec 24) : Word := i.signExtend 32
def immZ (i : BitVec 24) : Word := i.setWidth 32

/-- Shifts and rotations (spec/13 R324). -/
def aluShl (a : Word) (n : Nat) : Word := if n ≥ 32 then 0 else wN (a.toNat * 2 ^ n)
def aluShr (a : Word) (n : Nat) : Word := if n ≥ 32 then 0 else wN (a.toNat / 2 ^ n)
def aluSar (a : Word) (n : Nat) : Word := wI (sW a / 2 ^ Nat.min n 31)
def aluRot (a : Word) (n : Nat) : Word :=
  let m := n % 32
  wN (a.toNat * 2 ^ m + a.toNat / 2 ^ (32 - m))
def aluShf (a b c : Word) : Word := wN ((b.toNat * 2 ^ 32 + a.toNat) / 2 ^ (c.toNat % 32))

/-- POS and the effective length of a field specification word (spec/13 R325). -/
def fieldPos (s : Word) : Nat := s.toNat % 256
def fieldLen (s : Word) : Nat :=
  if fieldPos s ≥ 32 then 0 else Nat.min (s.toNat / 256 % 256) (32 - fieldPos s)

def aluBfx (i : Bool) (a s : Word) : Word :=
  let l := fieldLen s
  let f := a.toNat / 2 ^ fieldPos s % 2 ^ l
  if l = 0 then 0
  else if i && tbit f (l - 1) then wI ((f : Int) - 2 ^ l)
  else wN f

def aluBfi (a b s : Word) : Word :=
  let m : Word := wN ((2 ^ fieldLen s - 1) * 2 ^ fieldPos s)
  (b &&& ~~~m) ||| (wN (a.toNat * 2 ^ fieldPos s) &&& m)

/-- Counts (spec/13 R325). -/
def aluPopc (a : Word) : Word := wN (popBelow a.toNat 32)

/-- Zero bits below the lowest one, looking at bits from `i` up. -/
def ctzFrom (x : Nat) : Nat → Nat → Nat
  | _, 0 => 0
  | i, n + 1 => if tbit x i then 0 else 1 + ctzFrom x (i + 1) n

def aluCtz (a : Word) : Word := wN (ctzFrom a.toNat 0 32)

/-- Bit `i` of the result is bit 31 - i. -/
def revBits (x : Nat) : Nat → Nat
  | 0 => 0
  | n + 1 => (x % 2) * 2 ^ n + revBits (x / 2) n

def aluBrev (a : Word) : Word := wN (revBits a.toNat 32)
def aluClz (a : Word) : Word := aluCtz (aluBrev a)

/-- Conditions of `cmp` (spec/13 R327). -/
def condHolds (c : Cond) (a b : Word) : Bool :=
  match c with
  | .eq => a == b
  | .ne => a != b
  | .lt => decide (sW a < sW b)
  | .le => decide (sW a ≤ sW b)
  | .gt => decide (sW a > sW b)
  | .ge => decide (sW a ≥ sW b)
  | .ltu => decide (a.toNat < b.toNat)
  | .leu => decide (a.toNat ≤ b.toNat)
  | .gtu => decide (a.toNat > b.toNat)
  | .geu => decide (a.toNat ≥ b.toNat)

/-- A predicate's two words. -/
def maskW (b : Bool) : Word := if b then 0xFFFFFFFF else 0

/-- IMM20 of the immediate `cmp`: sign-extended, or zero-extended for the unsigned conditions (spec/13 R327). -/
def condImm (c : Cond) (i : BitVec 20) : Word :=
  match c with
  | .ltu | .leu | .gtu | .geu => i.setWidth 32
  | _ => i.signExtend 32

/-- `lea` (spec/13 R326). -/
def aluLea (sh : BitVec 2) (u : Bool) (a : DWord) (b : Word) : DWord :=
  a + BitVec.ofInt 64 (rdU u b * 2 ^ sh.toNat)

/-- The source slot of `shfl`, or none (spec/13 R331). -/
def shflSrc (m : ShMode) (sl n : Nat) : Option Nat :=
  let src : Int := match m with
    | .idx => n
    | .up => sl - n
    | .down => sl + n
    | .xor => if n ≤ 7 then (sl ^^^ n : Nat) else -1
  if 0 ≤ src ∧ src ≤ 7 then some src.toNat else none

end Sys2Proof.Machine
end

