-- ==== Sys2Proof/Machine/Num.lean ====
section
/-! DEFINITION. Number formats, exact values, rounding and conversion (spec/09 R239-R252). A value is exact until it is
rounded once into a format. -/

namespace Sys2Proof.Machine

/-- An exact value: NaN, an infinity, or (-1)^neg x m x 2^e. A zero keeps its sign. -/
inductive FV where
  | nan
  | inf (neg : Bool)
  | num (neg : Bool) (m : Nat) (e : Int)
deriving DecidableEq, Repr

/-- Special codes of a format (spec/09 R241, R243, R249). -/
inductive Specials where
  | ieee | nanTop | finite
deriving DecidableEq, Repr

/-- A floating format: sign present, exponent and mantissa bits, bias, specials (spec/09 R241, R243). -/
structure Fmt where
  sign : Bool := true
  eb : Nat
  mb : Nat
  bias : Int
  sp : Specials
deriving DecidableEq, Repr

def fp32 : Fmt := { eb := 8, mb := 23, bias := 127, sp := .ieee }
def fp19 : Fmt := { eb := 8, mb := 10, bias := 127, sp := .ieee }
def bf16 : Fmt := { eb := 8, mb := 7, bias := 127, sp := .ieee }
def fp16 : Fmt := { eb := 5, mb := 10, bias := 15, sp := .ieee }
def e5m2 : Fmt := { eb := 5, mb := 2, bias := 15, sp := .ieee }
def e4m3 : Fmt := { eb := 4, mb := 3, bias := 7, sp := .nanTop }
def e3m2 : Fmt := { eb := 3, mb := 2, bias := 3, sp := .finite }
def e2m3 : Fmt := { eb := 2, mb := 3, bias := 1, sp := .finite }
def e2m1 : Fmt := { eb := 2, mb := 1, bias := 1, sp := .finite }

/-- Bits below the sign; the sign's weight. -/
def Fmt.low (f : Fmt) : Nat := f.eb + f.mb

/-- Largest finite code without its sign. -/
def Fmt.maxCode (f : Fmt) : Nat :=
  match f.sp with
  | .ieee => (2 ^ f.eb - 2) * 2 ^ f.mb + (2 ^ f.mb - 1)
  | .nanTop => 2 ^ f.low - 2
  | .finite => 2 ^ f.low - 1

/-- The canonical NaN code; a format without NaN stores +0 (spec/09 R242, R249). -/
def Fmt.nanCode (f : Fmt) : Nat :=
  match f.sp with
  | .ieee => (2 ^ f.eb - 1) * 2 ^ f.mb + 2 ^ (f.mb - 1)
  | .nanTop => 2 ^ f.low - 1
  | .finite => 0

def Fmt.infCode (f : Fmt) : Nat := (2 ^ f.eb - 1) * 2 ^ f.mb

/-- Value of a code without its sign. -/
def Fmt.mag (f : Fmt) (c : Nat) : Nat × Int :=
  let e := c / 2 ^ f.mb % 2 ^ f.eb
  let m := c % 2 ^ f.mb
  if e = 0 then (m, 1 - f.bias - f.mb) else (2 ^ f.mb + m, (e : Int) - f.bias - f.mb)

/-- Value of a code (spec/09 R241, R243). -/
def Fmt.dec (f : Fmt) (code : Nat) : FV :=
  let neg := f.sign && tbit code f.low
  let c := code % 2 ^ f.low
  let sp := match f.sp with
    | .ieee => if c / 2 ^ f.mb = 2 ^ f.eb - 1 then (if c % 2 ^ f.mb = 0 then some (FV.inf neg) else some .nan) else none
    | .nanTop => if c = 2 ^ f.low - 1 then some .nan else none
    | .finite => none
  match sp with
  | some v => v
  | none => let p := f.mag c; .num neg p.1 p.2

/-- Is the value subnormal in the format (a nonzero code with exponent field 0). -/
def Fmt.isSub (f : Fmt) (code : Nat) : Bool := let c := code % 2 ^ f.low; c != 0 && decide (c < 2 ^ f.mb)

/-- Rounding the magnitude N / D to an integer under a mode (spec/09 R246: 0 RNE, 1 RTZ, 2 RUP, 3 RDN). -/
def roundQ (rm : Nat) (neg : Bool) (n d : Nat) : Nat :=
  let q := n / d
  let r := n % d
  if r = 0 then q
  else
    match rm with
    | 0 => if 2 * r < d then q else if d < 2 * r then q + 1 else q + q % 2
    | 1 => q
    | 2 => if neg then q else q + 1
    | _ => if neg then q + 1 else q

/-- N / D x 2^e as a quotient of naturals after scaling by 2^(-q). -/
def scaleQ (n d : Nat) (e : Int) : Nat × Nat := if 0 ≤ e then (n * 2 ^ e.toNat, d) else (n, d * 2 ^ (-e).toNat)

/-- floor(log2 (n / d)) for n, d > 0. -/
def ilog (n d : Nat) : Int :=
  let k : Int := (Nat.log2 n : Int) - Nat.log2 d
  let p := scaleQ n d (-k)
  if p.2 ≤ p.1 then k else k - 1

/-- The code of significand `sig` x 2^q without its sign, for a value that is not above the largest finite one. -/
def Fmt.pack (f : Fmt) (sig : Nat) (q : Int) : Nat :=
  if sig < 2 ^ f.mb then sig
  else if sig < 2 ^ (f.mb + 1) then (q + f.mb + f.bias).toNat * 2 ^ f.mb + (sig - 2 ^ f.mb)
  else (q + 1 + f.mb + f.bias).toNat * 2 ^ f.mb + (sig / 2 - 2 ^ f.mb)

/-- Outcome of rounding a magnitude into a format with unbounded exponent above: the code, or overflow. -/
def Fmt.roundMag (f : Fmt) (rm : Nat) (neg : Bool) (n d : Nat) (e : Int) : Option Nat :=
  if n = 0 then some 0
  else
    let ex := ilog n d + e
    let q := max (ex - f.mb) (1 - f.bias - f.mb)
    let p := scaleQ n d (e - q)
    let sig := roundQ rm neg p.1 p.2
    let mx := f.mag f.maxCode
    -- sig x 2^q > largest finite
    let a := scaleQ sig 1 (q - mx.2)
    if mx.1 * a.2 < a.1 then none else some (f.pack sig q)

def Fmt.withSign (f : Fmt) (neg : Bool) (c : Nat) : Nat := if f.sign && neg then c + 2 ^ f.low else c

/-- Overflow, or an infinite input, under the table of spec/09 R249. -/
def Fmt.over (f : Fmt) (rm : Nat) (nsat isInf neg : Bool) : Nat :=
  match f.sp with
  | .ieee =>
    if nsat then f.withSign neg f.maxCode
    else if isInf then f.withSign neg f.infCode
    else
      let toInf := match rm with
        | 0 => true
        | 1 => false
        | 2 => !neg
        | _ => neg
      f.withSign neg (if toInf then f.infCode else f.maxCode)
  | .nanTop => if nsat then f.withSign neg f.maxCode else f.nanCode
  | .finite => f.withSign neg f.maxCode

/-- CONVERSION of (-1)^neg x n / d x 2^e into a format: rounded once, then overflow (spec/09 R249). A format without a sign
stores negative values and -0 as +0. -/
def Fmt.convQ (f : Fmt) (rm : Nat) (nsat neg : Bool) (n d : Nat) (e : Int) : Nat :=
  if neg && !f.sign then 0
  else match f.roundMag rm neg n d e with
    | some c => f.withSign neg c
    | none => f.over rm nsat false neg

def Fmt.conv (f : Fmt) (rm : Nat) (nsat : Bool) : FV → Nat
  | .nan => f.nanCode
  | .inf neg => if neg && !f.sign then 0 else f.over rm nsat true neg
  | .num neg m e => f.convQ rm nsat neg m 1 e

/-- The format has 16 bits or more, so FTZI and FTZO act on it (spec/09 R247). -/
def Fmt.wide (f : Fmt) : Bool := decide (15 ≤ f.low)

/-! ### FMODE (spec/09 R246) -/

def fmRm (w : Word) : Nat := w.toNat % 4
def fmFtzi (w : Word) : Bool := tbit w.toNat 3
def fmFtzo (w : Word) : Bool := tbit w.toNat 4
def fmNsat (w : Word) : Bool := tbit w.toNat 5
def fmTmd (w : Word) : Bool := tbit w.toNat 6

/-- FTZO: a subnormal result becomes zero of its sign. -/
def Fmt.ftzo (f : Fmt) (fm : Word) (c : Nat) : Nat :=
  if fmFtzo fm && f.wide && f.isSub c then f.withSign (tbit c f.low) 0 else c

/-- `fround(x, fmt)` of spec/14 R339. -/
def fround (fm : Word) (f : Fmt) (x : FV) : Nat := f.ftzo fm (f.conv (fmRm fm) (fmNsat fm) x)

/-- A register input: FTZI reads a subnormal as zero of its sign (spec/14 R339). -/
def Fmt.input (f : Fmt) (fm : Word) (c : Nat) : FV :=
  if fmFtzi fm && f.wide && f.isSub c then .num (f.sign && tbit c f.low) 0 0 else f.dec c

def in32 (fm : Word) (w : Word) : FV := fp32.input fm w.toNat

/-! ### Exact arithmetic -/

def FV.neg : FV → FV
  | .nan => .nan
  | .inf s => .inf (!s)
  | .num s m e => .num (!s) m e

def FV.isNan : FV → Bool
  | .nan => true
  | _ => false

def FV.isZero : FV → Bool
  | .num _ 0 _ => true
  | _ => false

/-- Signed mantissa at exponent `e`. -/
def alignI (s : Bool) (m : Nat) (e tt : Int) : Int := (if s then -(m : Int) else m) * 2 ^ (e - tt).toNat

/-- Exact sum; an exact zero of opposite signs is +0, or -0 under RDN (spec/14 R339). -/
def FV.add (rm : Nat) : FV → FV → FV
  | .nan, _ | _, .nan => .nan
  | .inf a, .inf b => if a = b then .inf a else .nan
  | .inf a, _ => .inf a
  | _, .inf b => .inf b
  | .num a m e, .num b n f =>
    let lo := min e f
    let s := alignI a m e lo + alignI b n f lo
    if s = 0 then
      .num (if m = 0 ∧ n = 0 ∧ a = b then a else rm == 3) 0 0
    else .num (decide (s < 0)) s.natAbs lo

/-- Exact product. -/
def FV.mul : FV → FV → FV
  | .nan, _ | _, .nan => .nan
  | .inf a, .inf b => .inf (a != b)
  | .inf a, .num b n _ => if n = 0 then .nan else .inf (a != b)
  | .num a m _, .inf b => if m = 0 then .nan else .inf (a != b)
  | .num a m e, .num b n f => .num (a != b) (m * n) (e + f)

/-- Exact scaling by a power of two. -/
def FV.scale (x : FV) (k : Int) : FV :=
  match x with
  | .num s m e => .num s m (e + k)
  | v => v

/-- Exact order: less than, for values that are not NaN; the two zeros are equal. -/
def FV.lt : FV → FV → Bool
  | .nan, _ | _, .nan => false
  | .inf a, .inf b => a && !b
  | .inf a, .num _ _ _ => a
  | .num _ _ _, .inf b => !b
  | .num a m e, .num b n f => let lo := min e f; decide (alignI a m e lo < alignI b n f lo)

def FV.eq (x y : FV) : Bool := !x.isNan && !y.isNan && !x.lt y && !y.lt x

def FV.signBit : FV → Bool
  | .nan => false
  | .inf s => s
  | .num s _ _ => s

/-- IEEE 754 minimum and maximum with -0 below +0; a NaN wins (spec/14 R341, spec/05 R166). -/
def fvMin (x y : FV) : FV :=
  if x.isNan || y.isNan then .nan
  else if x.lt y then x else if y.lt x then y else if x.signBit then x else y
def fvMax (x y : FV) : FV :=
  if x.isNan || y.isNan then .nan
  else if x.lt y then y else if y.lt x then x else if x.signBit then y else x

/-! ### FP32 under round_ne, subnormals kept (spec/05 R166, spec/15 R371, spec/09 R247) -/

def dec32 (w : Word) : FV := fp32.dec w.toNat
def rne32 (x : FV) : Word := wN (fp32.conv 0 false x)
def addNe (a b : Word) : Word := rne32 (FV.add 0 (dec32 a) (dec32 b))
def subNe (a b : Word) : Word := rne32 (FV.add 0 (dec32 a) (dec32 b).neg)
def mulNe (a b : Word) : Word := rne32 (FV.mul (dec32 a) (dec32 b))
def minNe (a b : Word) : Word := rne32 (fvMin (dec32 a) (dec32 b))
def maxNe (a b : Word) : Word := rne32 (fvMax (dec32 a) (dec32 b))

/-- Quotient under round_ne. -/
def divFV (rm : Nat) (nsat : Bool) (f : Fmt) (x y : FV) : Nat :=
  match x, y with
  | .nan, _ | _, .nan => f.nanCode
  | .inf _, .inf _ => f.nanCode
  | .inf a, .num b _ _ => f.conv rm nsat (.inf (a != b))
  | .num a _ _, .inf b => f.conv rm nsat (.num (a != b) 0 0)
  | .num a m e, .num b n g =>
    if n = 0 then (if m = 0 then f.nanCode else f.conv rm nsat (.inf (a != b)))
    else f.convQ rm nsat (a != b) m n (e - g)
def divNe (a b : Word) : Word := wN (divFV 0 false fp32 (dec32 a) (dec32 b))

/-- An unsigned integer as an exact value. -/
def ofNatFV (n : Nat) : FV := .num false n 0
def ofIntFV (i : Int) : FV := .num (decide (i < 0)) i.natAbs 0

/-- Rounding a value to an integer under a mode, as a signed integer; clamped to the range; NaN gives 0
(spec/09 R249). -/
def toInt (rm : Nat) (lo hi : Int) : FV → Int
  | .nan => 0
  | .inf s => if s then lo else hi
  | .num s m e =>
    let p := scaleQ m 1 e
    let r := roundQ rm s p.1 p.2
    clampI (if s then -(r : Int) else r) lo hi

/-- The value rounded to an integral value, its sign kept (spec/14 R345). -/
def toIntegral (rm : Nat) : FV → FV
  | .num s m e =>
    let p := scaleQ m 1 e
    .num s (roundQ rm s p.1 p.2) 0
  | v => v

/-! ### Format slots (spec/09 R244, R245) -/

def slotFmt (s : DWord) : Nat := bits s.toNat 24 4
def slotBlk16 (s : DWord) : Bool := tbit s.toNat 23
def slotSkind (s : DWord) : Nat := bits s.toNat 20 3
def slotNfspec (s : DWord) : Nat := bits s.toNat 18 2
def slotNfsign (s : DWord) : Bool := tbit s.toNat 17
def slotNfe (s : DWord) : Nat := bits s.toNat 14 3
def slotNfm (s : DWord) : Nat := bits s.toNat 11 3
def slotNfbias (s : DWord) : Int := sInt 8 s.toNat
def slotTscale (s : DWord) : Nat := bits s.toNat 32 32
def slotNfWidth (s : DWord) : Nat := (if slotNfsign s then 1 else 0) + slotNfe s + slotNfm s

/-- A positive finite normal FP32 value. -/
def posNormal (c : Nat) : Bool := let e := c / 2 ^ 23; decide (1 ≤ e) && decide (e ≤ 254)

/-- The checks of R245 that hold whatever the instruction does with the slot. -/
def slotOk (s : DWord) : Bool :=
  let f := slotFmt s
  let k := slotSkind s
  decide (f ≤ 13) && bits s.toNat 28 4 == 0 && bits s.toNat 8 3 == 0 && decide (k ≤ 4)
    && !(decide (1 ≤ k) && decide (k ≤ 3) && decide (10 ≤ f)) && !(slotBlk16 s && (k == 0 || k == 4))
    && (if k = 3 ∨ k = 4 then posNormal (slotTscale s) else slotTscale s == 0)
    && (if f = 9 then slotNfe s != 0 && decide (slotNfWidth s ≤ 8)
          && !(slotNfspec s == 3 && (decide (slotNfe s < 2) || slotNfm s == 0))
        else bits s.toNat 11 9 == 0 && bits s.toNat 0 8 == 0)

/-- Conversion into an NF slot with NFSPEC 0 is not permitted (spec/09 R243). -/
def slotConvOk (s : DWord) : Bool := slotOk s && !(slotFmt s == 9 && slotNfspec s == 0)

/-- Element kinds of a slot: integers of a width, or a floating format. -/
inductive Elem where
  | int (signed : Bool) (w : Nat)
  | flt (f : Fmt)
deriving DecidableEq, Repr

def slotElem (s : DWord) : Elem :=
  match slotFmt s with
  | 0 => .int true 4
  | 1 => .int false 4
  | 2 => .int true 8
  | 3 => .int false 8
  | 4 => .flt e2m1
  | 5 => .flt e2m3
  | 6 => .flt e3m2
  | 7 => .flt e4m3
  | 8 => .flt e5m2
  | 9 => .flt { sign := slotNfsign s, eb := slotNfe s, mb := slotNfm s, bias := slotNfbias s,
                sp := match slotNfspec s with
                  | 2 => .nanTop
                  | 3 => .ieee
                  | _ => .finite }
  | 10 => .flt bf16
  | 11 => .flt fp16
  | 12 => .flt fp19
  | _ => .flt fp32

/-- Container bits of a slot's elements (spec/09 R240, R243). -/
def slotCont (s : DWord) : Nat :=
  match slotFmt s with
  | 0 | 1 | 4 => 4
  | 2 | 3 | 7 | 8 => 8
  | 5 | 6 => 6
  | 9 => if slotNfWidth s ≤ 4 then 4 else if slotNfWidth s ≤ 6 then 6 else 8
  | 10 | 11 => 16
  | _ => 32

/-- The slot's operand names a pair: offsets of the elements and of their scales (spec/16 R390). -/
def scaled (s : DWord) : Bool := decide (1 ≤ slotSkind s) && decide (slotSkind s ≤ 3)

/-- Elements of a 64-byte row (spec/09 R240). -/
def rowCap (cont : Nat) : Nat := 512 / cont

/-- Element bits inside a container: NF's upper container bits and FP19's low bits are ignored on read. -/
def elemCode (s : DWord) (c : Nat) : Nat :=
  match slotFmt s with
  | 9 => c % 2 ^ slotNfWidth s
  | 12 => c / 2 ^ 13
  | _ => c

/-- The container of an element code. -/
def elemCont (s : DWord) (c : Nat) : Nat := if slotFmt s = 12 then c * 2 ^ 13 else c

/-- Exact value of a container. -/
def slotDec (s : DWord) (c : Nat) : FV :=
  match slotElem s with
  | .int sg w => ofIntFV (if sg then sInt w c else (c % 2 ^ w : Nat))
  | .flt f => f.dec (elemCode s c)

def intLo (sg : Bool) (w : Nat) : Int := if sg then -(2 ^ (w - 1)) else 0
def intHi (sg : Bool) (w : Nat) : Int := if sg then 2 ^ (w - 1) - 1 else 2 ^ w - 1

/-- Conversion of n / d x 2^e into a slot's element, as a container (spec/09 R249): the second part says it saturated. -/
def slotConvQ (s : DWord) (rm : Nat) (nsat neg : Bool) (n d : Nat) (e : Int) : Nat × Bool :=
  match slotElem s with
  | .int sg w =>
    let p := scaleQ n d e
    let r : Int := roundQ rm neg p.1 p.2
    let v := if neg then -r else r
    (uMod w (clampI v (intLo sg w) (intHi sg w)), decide (v < intLo sg w) || decide (intHi sg w < v))
  | .flt f =>
    (elemCont s (f.convQ rm nsat neg n d e), !(neg && !f.sign) && (f.roundMag rm neg n d e).isNone)

def slotConv (s : DWord) (rm : Nat) (nsat : Bool) (x : FV) : Nat × Bool :=
  match x with
  | .num neg m e => slotConvQ s rm nsat neg m 1 e
  | .nan =>
    match slotElem s with
    | .int _ _ => (0, false)
    | .flt f => (elemCont s f.nanCode, false)
  | .inf neg =>
    match slotElem s with
    | .int sg w => (uMod w (if neg then intLo sg w else intHi sg w), true)
    | .flt f => (elemCont s (f.conv rm nsat (.inf neg)), true)

/-- Element `i` of packed bits (spec/09 R240), and replacing it. -/
def elemAt (row cont i : Nat) : Nat := bits row (cont * i) cont
def setElem (row cont i v : Nat) : Nat :=
  row - elemAt row cont i * 2 ^ (cont * i) + v % 2 ^ cont * 2 ^ (cont * i)

end Sys2Proof.Machine
end

