-- ==== Sys2Proof/Machine/Elem.lean ====
section
/-! DEFINITION. Elementary functions as fixed-point intervals of 400 bits, from which spec/09 R257 and R259 are decided: an
exact result is enclosed, and a rounded one is taken when both ends round alike. Every recursion runs on a count. -/

namespace Sys2Proof.Machine

/-- Fraction bits of the fixed-point numbers, their unit, and a bound on the error of every function below. -/
def fxP : Nat := 400
def fxOne : Int := 2 ^ 400
def fxErr : Int := 2 ^ 20

def fxMul (a b : Int) : Int := a * b / 2 ^ 400
def fxDiv (a b : Int) : Int := a * 2 ^ 400 / b

/-- ln 2 = sum of 1 / (k 2^k). -/
def ln2From : Nat → Nat → Int
  | _, 0 => 0
  | k, n + 1 => fxOne / (k * 2 ^ k : Nat) + ln2From (k + 1) n
def fxLn2 : Int := ln2From 1 410

/-- e^t for 0 <= t < 1, by its series. -/
def expFrom (t : Int) : Int → Nat → Nat → Int
  | _, _, 0 => 0
  | term, k, n + 1 => term + expFrom t (fxMul term t / k) (k + 1) n
def fxExp (t : Int) : Int := expFrom t fxOne 1 110

/-- 2^x as (k, m): x in fixed point, 2^x = m x 2^k with m in [1, 2). -/
def fxExp2 (x : Int) : Int × Int :=
  let k := x / fxOne
  (k, fxExp (fxMul (x - k * fxOne) fxLn2))

/-- atanh z for |z| <= 1/3. -/
def atanhFrom (z2 : Int) : Int → Nat → Nat → Int
  | _, _, 0 => 0
  | p, k, n + 1 => p / k + atanhFrom z2 (fxMul p z2) (k + 2) n
def fxAtanh (z : Int) : Int := atanhFrom (fxMul z z) z 1 140

/-- log2 (n / d) for n, d > 0. -/
def fxLog2 (n d : Nat) : Int :=
  let k := ilog n d
  let p := scaleQ n d (-k)
  let m : Int := (p.1 : Int) * fxOne / p.2
  k * fxOne + fxDiv (2 * fxAtanh (fxDiv (m - fxOne) (m + fxOne))) fxLn2

/-- atan (1 / q), and pi by Machin's formula. -/
def atanFrom (q2 : Int) : Int → Nat → Bool → Nat → Int
  | _, _, _, 0 => 0
  | p, k, neg, n + 1 => (if neg then -(p / k) else p / k) + atanFrom q2 (p / q2) (k + 2) (!neg) n
def fxAtanInv (q : Int) : Int := atanFrom (q * q) (fxOne / q) 1 false 180
def fxPi : Int := 4 * (4 * fxAtanInv 5 - fxAtanInv 239)

/-- sin and cos by their series, for |r| <= pi. -/
def trigFrom (r2 : Int) : Int → Nat → Nat → Int
  | _, _, 0 => 0
  | term, k, n + 1 => term + trigFrom r2 (-(fxMul term r2) / ((k + 1) * (k + 2) : Nat)) (k + 2) n
def fxSin (r : Int) : Int := trigFrom (fxMul r r) r 1 80
def fxCos (r : Int) : Int := trigFrom (fxMul r r) fxOne 0 80

/-- The remainder of x by 2 pi, in [-pi, pi]. -/
def fxReduce (x : Int) : Int :=
  let two := 2 * fxPi
  x - (x + fxPi) / two * two

/-- Integer square root, bit by bit. -/
def isqrtFrom (n : Nat) : Nat → Nat → Nat
  | r, 0 => r
  | r, b + 1 => isqrtFrom n (if (r + 2 ^ b) * (r + 2 ^ b) ≤ n then r + 2 ^ b else r) b
def isqrt (n : Nat) : Nat := isqrtFrom n 0 (Nat.log2 n / 2 + 1)

/-- An enclosure lo x 2^k <= value <= hi x 2^k, in units of 2^-400. -/
structure Encl where
  lo : Int
  hi : Int
  k : Int
deriving DecidableEq, Repr

def around (v k : Int) : Encl := ⟨v - fxErr, v + fxErr, k⟩

/-- An end of an enclosure as an exact value. -/
def endFV (v k : Int) : FV := .num (decide (v < 0)) v.natAbs (k - fxP)

/-- ROUNDED INTO FP32 under RNE: the code both ends give. Where they differ the exact value lies within 2^-370 of the
midpoint of two codes, and is taken to be that midpoint: the even code (log 20). -/
def Encl.rne (e : Encl) : Word :=
  let a := rne32 (endFV e.lo e.k)
  let b := rne32 (endFV e.hi e.k)
  if a = b then a else if a.toNat % 2 = 0 then a else b

/-- An exact dyadic as a fixed-point number; FP32 values are exact at 400 bits. -/
def toFx : FV → Int
  | .num s m e => (if s then -1 else 1) * (if 0 ≤ e + fxP then (m : Int) * 2 ^ (e + fxP).toNat else m / 2 ^ (-(e + fxP)).toNat)
  | _ => 0

/-- The integer an exact value is, if it is one. -/
def asInt : FV → Option Int
  | .num s m e =>
    let p := scaleQ m 1 e
    if p.1 % p.2 = 0 then some (if s then -((p.1 / p.2 : Nat) : Int) else (p.1 / p.2 : Nat)) else none
  | _ => none

/-- The exponent of an exact power of two. -/
def asPow2 : FV → Option Int
  | .num false m e => if m = 2 ^ Nat.log2 m ∧ m ≠ 0 then some (Nat.log2 m + e) else none
  | _ => none

/-- `tm_exp2` (spec/09 R259): 2^x rounded to FP32 under RNE, subnormals kept. -/
def tmExp2 (x : FV) : Word :=
  match x with
  | .nan => wN fp32.nanCode
  | .inf s => if s then 0 else wN fp32.infCode
  | .num s m e =>
    if x.lt (.num true 200 0) then 0
    else if (FV.num false 200 0).lt x then wN fp32.infCode
    else match asInt x with
      | some i => rne32 (.num false 1 i)
      | none => let p := fxExp2 (toFx (.num s m e)); (around p.2 p.1).rne

/-- `tm_log2` (spec/09 R259) of a value that is not negative. -/
def tmLog2 (x : FV) : Word :=
  match x with
  | .nan => wN fp32.nanCode
  | .inf s => if s then wN fp32.nanCode else wN fp32.infCode
  | .num s m e =>
    if m = 0 then wN (fp32.withSign true fp32.infCode)
    else if s then wN fp32.nanCode
    else match asPow2 x with
      | some i => rne32 (ofIntFV i)
      | none => let p := scaleQ m 1 e; (around (fxLog2 p.1 p.2) 0).rne

/-- (-1)^neg x (n x 2^e)^(a / b) x 2^r rounded once to FP32 under RNE, for n > 0: `tm_pow` with r = 0, and the exit of the
power mean (spec/09 R259, R261). `r` is in fixed point. -/
def powRne (neg : Bool) (n : Nat) (e : Int) (a : Int) (b : Nat) (r : Int) : Word :=
  let l := (fxLog2 n 1 + e * fxOne) * a / b + r
  let v : Word :=
    if 200 * fxOne < l then wN fp32.infCode
    else if l < -200 * fxOne then 0
    else let p := fxExp2 l; (⟨p.2 - 2 ^ 40, p.2 + 2 ^ 40, p.1⟩ : Encl).rne
  if neg then v ^^^ 0x80000000 else v

end Sys2Proof.Machine
end

