-- ==== Sys2Proof/Machine/TmMath.lean ====
section
/-! DEFINITION. The transformed mean (spec/09 R258-R264), the combining tree (spec/05 R165) and the reduce ops of a widen
call (spec/05 R166). -/

namespace Sys2Proof.Machine

/-- A transformed-mean state (spec/09 R258). -/
structure TmSt where
  s : Word := 0
  ref : Word := 0
  n : Nat := 0
deriving DecidableEq, Repr

def TmSt.words (t : TmSt) : List Word := [t.s, t.ref, wN t.n]
def tmOf (ws : List Word) : TmSt := ⟨ws.getD 0 0, ws.getD 1 0, (ws.getD 2 0).toNat⟩

/-- A NaN state: S or ref is a NaN (log 21). -/
def TmSt.isNan (t : TmSt) : Bool := (dec32 t.s).isNan || (dec32 t.ref).isNan

def tmNan (n : Nat) : TmSt := ⟨0x7FC00000, 0x7FC00000, n⟩

/-- Outcome of an operation of the transformed mean: a result, or a violation with n as counted (spec/09 R262). -/
inductive TmRes (α : Type) where
  | ok (v : α)
  | viol (n : Nat)
deriving DecidableEq, Repr

def tmFam (sh : Word) : Nat := bits sh.toNat 16 3
def tmPar (sh : Word) : Int := sInt 16 sh.toNat

/-- PARAM as an exact value: signed 8.8 fixed point. -/
def tmParFV (sh : Word) : FV := (ofIntFV (tmPar sh)).scale (-8)

/-- The shape itself violates: FAMILY 2 or 3, or family 1 with beta <= 0 (spec/09 R262). -/
def tmShapeBad (sh : Word) : Bool :=
  tmFam sh == 2 || tmFam sh == 3 || (tmFam sh == 1 && decide (tmPar sh ≤ 0))

/-- Power mean with p not 0, maximum or minimum; the other kinds of family 0. -/
def tmIsPow (sh : Word) : Bool := tmFam sh == 0 && tmPar sh != 0 && tmPar sh != 0x7FFF && tmPar sh != -0x8000
def tmIsGeo (sh : Word) : Bool := tmFam sh == 0 && tmPar sh == 0
def tmIsExt (sh : Word) : Bool := tmFam sh == 0 && (tmPar sh == 0x7FFF || tmPar sh == -0x8000)
def tmIsMin (sh : Word) : Bool := tmFam sh == 0 && tmPar sh == -0x8000

/-! ### Loaded pairs (spec/09 R263) -/

def pairWord (b : List Byte) (at_ : Nat) : Word := BitVec.ofNat 32 (ofBytes ((b.drop at_).take 4))

def isFinite (w : Word) : Bool := bits w.toNat 23 8 != 255

/-- A pair is well formed: LO below HI, every header word and coefficient finite, reserved bytes zero. -/
def pairGood (b : List Byte) : Bool :=
  let f (i : Nat) := dec32 (pairWord b i)
  (f 0).lt (f 4) && (f 8).lt (f 12) && ((b.drop 16).take 16).all (fun x => x == 0)
    && (List.range 4).all (fun i => isFinite (pairWord b (4 * i)))
    && (List.range 384).all (fun i => isFinite (pairWord b (32 + 4 * i)))

/-- `eval(tbl, x)`; `none` where x lies outside [LO, HI] or is a NaN. -/
def pairEval (b : List Byte) (exit : Bool) (x : Word) : Option Word :=
  let h := if exit then 8 else 0
  let c := if exit then 800 else 32
  let lo := pairWord b h
  let hi := pairWord b (h + 4)
  if (dec32 x).isNan || (dec32 x).lt (dec32 lo) || (dec32 hi).lt (dec32 x) then none
  else
    let t := mulNe (subNe x lo) (divNe 0x42800000 (subNe hi lo))
    let i := (toInt 3 0 63 (dec32 t)).toNat
    let u := subNe t (rne32 (ofNatFV i))
    let co (k : Nat) := pairWord b (c + 12 * i + 4 * k)
    some (addNe (co 0) (mulNe u (addNe (co 1) (mulNe u (co 2)))))

/-- Significand and exponent of a nonzero value with the significand read in [1, 2). -/
def tmSplit : FV → Bool × Nat × Int × Int
  | .num s m e => (s, m, -(Nat.log2 m : Int), Nat.log2 m + e)
  | _ => (false, 1, 0, 0)

/-- ENTRY of a term (spec/09 R259). `pair` is the loaded pair of the family. -/
def tmEntry (sh : Word) (pair : List Byte) (x : Word) : TmRes TmSt :=
  let v := dec32 x
  let inf := match v with
    | .inf _ => true
    | _ => false
  if tmShapeBad sh then .viol 1
  else if tmFam sh = 1 then
    match v with
    | .nan => .viol 1
    | .inf s => if s then .ok ⟨0, x, 1⟩ else .viol 1
    | _ => .ok ⟨0x3F800000, x, 1⟩
  else if tmFam sh ≥ 4 then
    match pairEval pair false x with
    | some y => .ok ⟨y, 0, 1⟩
    | none => .viol 1
  else if tmIsExt sh then (if v.isNan then .viol 1 else .ok ⟨0x3F800000, x, 1⟩)
  else if v.isNan || inf then .viol 1
  else if 0 < tmPar sh then
    if v.isZero then .ok ⟨0, rne32 (.num true 150 0), 1⟩
    else
      let p := tmSplit v
      let odd := tmPar sh % 512 == 256
      .ok ⟨powRne (odd && p.1) p.2.1 p.2.2.1 (tmPar sh) 256 0, rne32 (ofIntFV p.2.2.2), 1⟩
  else if v.isZero || v.signBit then .viol 1
  else
    let p := tmSplit v
    let s := if tmPar sh = 0 then tmLog2 (.num false p.2.1 p.2.2.1) else powRne false p.2.1 p.2.2.1 (tmPar sh) 256 0
    .ok ⟨s, rne32 (ofIntFV p.2.2.2), 1⟩

/-- The rescale factor of a state against the common ref (spec/09 R260). -/
def tmFactor (sh ref aref : Word) : Word :=
  if tmFam sh = 1 ∧ dec32 aref = .inf true then 0
  else tmExp2 (dec32 (rne32 (FV.mul (tmParFV sh) (dec32 (subNe aref ref)))))

def tmRef (sh : Word) (a b : TmSt) : Word := if tmIsMin sh then minNe a.ref b.ref else maxNe a.ref b.ref

def tmScaled (sh : Word) : Bool := tmIsPow sh || tmFam sh == 1

/-- `tm_merge(a, b)` (spec/09 R260), for a shape that does not violate. -/
def tmMergeOk (sh : Word) (a b : TmSt) : TmSt :=
  if a.n = 0 then b
  else if b.n = 0 then a
  else
    let n := Nat.min (a.n + b.n) 0xFFFFFFFF
    if a.isNan || b.isNan then tmNan n
    else
      let ref := tmRef sh a b
      if tmScaled sh then
        ⟨addNe (mulNe a.s (tmFactor sh ref a.ref)) (mulNe b.s (tmFactor sh ref b.ref)), ref, n⟩
      else if tmIsGeo sh then
        let part (x : TmSt) := addNe x.s (rne32 (FV.mul (ofNatFV x.n) (dec32 (subNe x.ref ref))))
        ⟨addNe (part a) (part b), ref, n⟩
      else if tmIsExt sh then ⟨0x3F800000, ref, n⟩
      else ⟨addNe a.s b.s, 0, n⟩

def tmMerge (sh : Word) (a b : TmSt) : TmRes TmSt :=
  if tmShapeBad sh then .viol (Nat.min (a.n + b.n) 0xFFFFFFFF) else .ok (tmMergeOk sh a b)

/-- `tmscl` (spec/14 R357). -/
def tmScl (sh : Word) (a b : TmSt) : TmRes Word :=
  if tmShapeBad sh then .viol 0
  else if a.n = 0 ∨ b.n = 0 then .ok 0x3F800000
  else if a.isNan || b.isNan then .ok 0x7FC00000
  else if tmScaled sh then .ok (tmFactor sh (tmRef sh a b) a.ref)
  else .ok 0x3F800000

/-- The exit of a power mean: sign(q) |q|^(1/p) 2^ref rounded once (spec/09 R261). -/
def tmExitPow (sh q ref : Word) : Word :=
  let p := tmPar sh
  let a : Int := if p < 0 then -256 else 256
  -- |q|^(1/p), as zero, infinity, or a finite value
  let big : Bool := match dec32 q with
    | .inf _ => decide (0 < p)
    | v => v.isZero && decide (p < 0)
  let small : Bool := match dec32 q with
    | .inf _ => decide (p < 0)
    | v => v.isZero && decide (0 < p)
  let neg := (dec32 q).signBit
  match dec32 q, dec32 ref with
  | .nan, _ | _, .nan => 0x7FC00000
  | .num _ m e, .num rs rm re =>
    if big then fp32.infCode |> wN
    else if small then 0
    else
      let k := FV.num rs rm re
      if k.lt (.num true 100000 0) then wN (fp32.withSign neg 0)
      else if (FV.num false 100000 0).lt k then wN (fp32.withSign neg fp32.infCode)
      else powRne neg m e a p.natAbs (toFx k)
  | _, .inf rneg =>
    if rneg then (if big then 0x7FC00000 else wN (fp32.withSign neg 0))
    else if small then 0x7FC00000 else wN (fp32.withSign neg fp32.infCode)
  | .inf _, .num _ _ _ => if big then wN (fp32.withSign neg fp32.infCode) else wN (fp32.withSign neg 0)

/-- EXIT of a state (spec/09 R261). -/
def tmExit (sh : Word) (pair : List Byte) (a : TmSt) : TmRes Word :=
  if tmShapeBad sh || a.n == 0 then .viol a.n
  else if a.isNan then .ok 0x7FC00000
  else
    let q := wN (divFV 0 false fp32 (dec32 a.s) (ofNatFV a.n))
    if tmIsPow sh then .ok (tmExitPow sh q a.ref)
    else if tmIsGeo sh then .ok (tmExp2 (dec32 (addNe a.ref q)))
    else if tmIsExt sh then .ok a.ref
    else if tmFam sh = 1 then
      if (dec32 q).isZero then .ok 0xFF800000
      else if (dec32 q).signBit then .viol a.n
      else .ok (addNe a.ref (wN (divFV 0 false fp32 (dec32 (tmLog2 (dec32 q))) (tmParFV sh))))
    else match pairEval pair true q with
      | some y => .ok y
      | none => .viol a.n

/-! ### The combining tree (spec/05 R165) -/

/-- One pass: neighbours are combined, an odd last value is carried. -/
def treePass {α : Type} (op : α → α → α) : List α → List α
  | a :: b :: r => op a b :: treePass op r
  | l => l

/-- Passes until one value is left; seven are enough for 64 values, and more change nothing. -/
def treeIter {α : Type} (op : α → α → α) : Nat → List α → List α
  | 0, l => l
  | n + 1, l => treeIter op n (treePass op l)

def treeReduce {α : Type} (op : α → α → α) (d : α) (l : List α) : α := (treeIter op 7 l).headD d

/-- Reduce ops 1 to 7, 9 and 10 on words (spec/05 R166). -/
def redWord (op : Nat) (a b : Word) : Word :=
  match op with
  | 1 => a + b
  | 2 => addNe a b
  | 3 => if sW a ≤ sW b then a else b
  | 4 => if sW a ≥ sW b then a else b
  | 5 => a &&& b
  | 6 => a ||| b
  | 7 => a ^^^ b
  | 9 => minNe a b
  | _ => maxNe a b

/-- The result columns of a widen return (spec/05 R163): `buf` holds the contributions by widen index. Under RED 8 a
violation yields the NaN state, and `viol` says that one occurred (spec/05 R453). -/
def reduceCols (red retc : Nat) (sh : Word) (buf : List (List Word)) : List Word × Bool :=
  if red = 0 then ([], false)
  else if red = 8 then
    let bad := tmShapeBad sh && decide (1 < buf.length) && decide (0 < retc)
    let cols := (List.range (retc / 3)).map fun c =>
      let ts := buf.map fun ws => tmOf (ws.drop (3 * c))
      if bad then tmNan (Nat.min (ts.foldl (fun n t => n + t.n) 0) 0xFFFFFFFF)
      else treeReduce (tmMergeOk sh) {} ts
    (cols.flatMap TmSt.words, bad)
  else ((List.range retc).map fun c => treeReduce (redWord red) 0 (buf.map fun ws => ws.getD c 0), false)

end Sys2Proof.Machine
end

