-- ==== Sys2Proof/Machine/Perform.lean ====
section
/-! DEFINITION. The ordering machine's perform step (spec/07 R203-R218): when an operation may perform, what each kind
does, and the landing of results. -/

namespace Sys2Proof.Machine

/-! ### Preconditions (spec/07 R204, R215) -/

def PendOp.isLoad (o : PendOp) : Bool :=
  match o.kind with
  | .load _ | .fetchLine _ | .atom _ _ _ _ => true
  | .move | .wide => o.reads
  | _ => false
def PendOp.isStore (o : PendOp) : Bool :=
  match o.kind with
  | .store _ | .red _ _ _ => true
  | .move | .wide => o.writes
  | _ => false
def OpKind.isAtom : OpKind → Bool
  | .atom _ _ _ _ => true
  | _ => false
def OpKind.isRed : OpKind → Bool
  | .red _ _ _ => true
  | _ => false
/-- The loads, atomics and reductions of a thread have performed, as an acquire needs (spec/07 R204). -/
def Thread.acquireReady (t : Thread) : Bool := t.pend.all fun o => !(o.isLoad || o.kind.isRed)

def OpKind.isFence : OpKind → Bool
  | .fence _ _ => true
  | _ => false

def overlap (a la b lb : Nat) : Bool := decide (a < b + lb) && decide (b < a + la)

/-- Locations that an operation touches; two operations overlap in at least one byte. -/
def PendOp.ranges (o : PendOp) : List (Nat × Nat) := (o.loc, o.len) :: (o.loc2, o.len2) :: o.parts.map fun r => (r.2.1, r.2.2)

/-- The operation reaches scratch through a sharing window (spec/06 R176). -/
def PendOp.window (o : PendOp) : Bool := o.win || (o.line.isNone && decide (0x1000000 ≤ o.va))

def PendOp.meets (o p : PendOp) : Bool := o.ranges.any fun r => p.ranges.any fun u => overlap r.1 r.2 u.1 u.2

/-- The table of spec/07 R204: the earlier operation `p` keeps `o` from performing. The sectors of one tile move in any order (spec/15
R378). Steps of the hashed index, whose bytes are found as they perform, count as overlapping (log 49). -/
def PendOp.blocks (o p : PendOp) : Bool :=
  (!o.kind.isFence && (p.acq || p.meets o))
    || (o.isStore && (p.isLoad || (p.kind.isFence && p.rel)) && !(o.kind == .move && p.uid == o.uid))
    || o.kind.isAtom || o.rel
    || (o.kind.isFence && o.acq && (p.isLoad || p.kind.isRed))
    || (o.kind == .wide && p.kind == .wide && o.len == 0 && p.len == 0)

/-- No earlier operation of the thread keeps the operation back. -/
def Thread.clear (t : Thread) (o : PendOp) : Bool :=
  (t.pend.takeWhile fun p => p.oid != o.oid).all fun p => !o.blocks p

/-- An operation not yet in the pending set would be the next to perform. -/
def Thread.clearNext (t : Thread) (o : PendOp) : Bool := t.pend.all fun p => !o.blocks p

/-- A destination range of a copy of the core holds the operation (spec/07 R215). -/
def Mach.rangeHolds (m : Mach) (core fdom : Nat) (o : PendOp) : Bool :=
  m.ranges.any fun r =>
    if r.scratch then overlap r.lo r.len o.loc o.len || overlap r.lo r.len o.loc2 o.len2
    else r.core == core && r.fdom == fdom && !o.kind.isFence && o.line.isSome
      && (overlap r.lo r.len o.va (Nat.max o.len o.len2) || o.parts.any fun p => overlap r.lo r.len p.1 p.2.2)

/-! ### Atomics (spec/15 R371) -/

/-- The new value of an atomic: `w` bits wide. -/
def atomNew (op : AOp) (ty : AType) (old b cmp : Nat) : Nat :=
  let w := 8 * ty.bytes
  match ty, op with
  | .f32, .add => (addNe (wN old) (wN b)).toNat
  | .f32, .min => (minNe (wN old) (wN b)).toNat
  | .f32, .max => (maxNe (wN old) (wN b)).toNat
  | .i32, .min => if sInt 32 old ≤ sInt 32 b then old else b
  | .i32, .max => if sInt 32 old ≥ sInt 32 b then old else b
  | _, .add => (old + b) % 2 ^ w
  | _, .min => Nat.min old b
  | _, .max => Nat.max old b
  | _, .and => old &&& b
  | _, .or => old ||| b
  | _, .xor => old ^^^ b
  | _, .xchg => b
  | _, .cas => if old = cmp then b else old

/-! ### Data -/

/-- The copies of a store's line that its own core holds are updated in the same step (spec/07 R205). -/
def CopyLine.patch (c : CopyLine) (va : Nat) (bs : List Byte) : CopyLine :=
  { c with bytes := c.bytes.mapIdx fun i b =>
      let a := c.line * 64 + i
      if va ≤ a ∧ a < va + bs.length then bs.getD (a - va) b else b }

def Mach.patchCopies (m : Mach) (core fdom va : Nat) (bs : List Byte) : Mach :=
  { m with copies := m.copies.map fun c => if c.core = core ∧ c.fdom = fdom then c.patch va bs else c }

def Mach.dropCopy (m : Mach) (core fdom line : Nat) : Mach :=
  { m with copies := m.copies.filter fun c => !(c.core == core && c.fdom == fdom && c.line == line) }

/-- The copy of a line that a core holds. -/
def Mach.copyAt (m : Mach) (core fdom line : Nat) : Option CopyLine :=
  m.copies.find? fun c => c.core == core && c.fdom == fdom && c.line == line

/-- A copy is installed. A cache holds 512 lines; a full one drops its oldest (log 18). -/
def Mach.install (m : Mach) (core fdom line : Nat) (bs : List Byte) : Mach :=
  let mine := m.copies.filter fun c => c.core == core
  let rest := m.copies.filter fun c => c.core != core
  { m with copies := rest ++ (if mine.length ≥ 512 then mine.drop 1 else mine) ++ [⟨core, fdom, line, bs, 0⟩] }

/-- Errors of a copy are met as it is read (spec/06 R198, R199): a single-bit error is corrected and counted for the core, and a
line with an uncorrectable one is dropped, to be fetched again with no trap. -/
def Mach.copyFix (m : Mach) (core fdom line : Nat) : Mach :=
  match m.copyAt core fdom line with
  | none => m
  | some c =>
    if c.err = 0 then m
    else if c.err = 1 then
      ({ m with copies := m.copies.map fun (u : CopyLine) => if u = c then { c with err := 0 } else u } : Mach).count1 core false
    else m.dropCopy core fdom line

/-- A plain global load reads the copy when one is present, else M, and may install the whole line (spec/07 R205), where no word of it is in
error: the cache marks no data as poisoned (spec/06 R200). -/
def Mach.readCached (m : Mach) (core fdom va loc len : Nat) (install : Bool) : Mach × List Byte :=
  let m := m.copyFix core fdom (va / 64)
  match m.copyAt core fdom (va / 64) with
  | some c => (m, (c.bytes.drop (va % 64)).take len)
  | none =>
    let bs := m.bytes loc len
    let line := loc / 64 * 64
    if install && !badRange m line 64 then ((m.eccFix core line 64).install core fdom (va / 64) (m.bytes line 64), bs) else (m, bs)

/-- A plain write of a thread: M, stamps, copies of its core, and the release sequences it ends. -/
def Mach.threadStore (m : Mach) (t : Thread) (fdom : Nat) (o : PendOp) (loc va : Nat) (bs : List Byte) : Mach :=
  let m := (m.store loc bs (if o.stampOn then some (m.threadStamp t) else none)).unrelease loc bs.length
  let m := if o.stampOn then m.rcNote fdom va loc bs.length else m
  if o.line.isSome && !isScr loc then m.patchCopies t.core fdom va bs else m

/-! ### One perform step -/

/-- The operation leaves the pending set; the bytes it read go to its flight. -/
def Mach.opDone (m : Mach) (t : Thread) (o : PendOp) (got : List Byte) : Mach :=
  let m := m.modThr t.id fun u => { u with pend := u.pend.filter fun p => p.oid != o.oid }
  match m.flight? o.uid with
  | some f => m.setFlight { f with got := f.got ++ [(o.tag, got)] }
  | none => m

def OpKind.isFetch : OpKind → Bool
  | .fetchLine _ => true
  | _ => false

/-- The operation fails when it performs (spec/06 R189 step 8); a prefetch drops its failure (spec/15 R374). -/
def Mach.opFail (m : Mach) (o : PendOp) (cause : Nat) : Mach :=
  match m.flight? o.uid with
  | some f => if o.kind.isFetch then m.opDone (m.thr f.owner) o [] else m.flightFail f cause o.va
  | none => m

/-- The operation meets an uncorrectable error: the word is logged and the threads of the instruction take
0x30 (spec/06 R199, R200). -/
def Mach.opEcc (m : Mach) (t : Thread) (o : PendOp) (loc : Nat) : Mach :=
  if o.kind.isFetch then m.opFail o 0x30 else (m.logErr 0x30 t.core loc).opFail o 0x30

/-- What an atomic writes, with its stamp. -/
def Mach.atomStore (m : Mach) (t : Thread) (fdom : Nat) (o : PendOp) (bs : List Byte) : Mach :=
  let m := m.store o.loc bs (if o.stampOn then some (m.threadStamp t) else none)
  if o.stampOn then m.rcNote fdom o.va o.loc bs.length else m

/-! ### Reader holds of tiles (spec/07 R216, spec/15 R375) -/

/-- The metadata line of the tile at an address. -/
def metaVa (va : Nat) : Nat := (va + 2 ^ 64 - 64) % 2 ^ 64

/-- Where the metadata line of a tile stands (spec/15 R375), as the issue translated it. -/
def PendOp.metaLoc (o : PendOp) (va : Nat) : Option Nat := (o.parts.find? fun p => p.1 == metaVa va).map fun p => p.2.1

/-- The operation is an `ldt` that reads the tile of a metadata line. -/
def PendOp.readsTile (o : PendOp) (ml : Nat) : Bool := o.kind == .move && o.metaLoc o.va == some ml

/-- An `ldt` of the tile has placed a reader hold, for which an all-or-nothing store waits. -/
def Mach.tileHeld (m : Mach) (ml : Nat) : Bool := m.threads.any fun t => t.pend.any fun o => o.readsTile ml && decide (8 ≤ o.tries)

/-- The value of HOLD while an `ldt` holds the tile; it is 0 otherwise (DESIGN CHOICE, log 63). -/
def holdWord : Nat := 1

/-- An all-or-nothing store of a tile makes each `ldt` that is reading it try again; the eighth retry places a reader hold (log 63). -/
def Mach.retryTile (m : Mach) (ml : Nat) : Mach :=
  let hit (t : Thread) (o : PendOp) : Bool := o.readsTile ml && t.clear o
  if !(m.threads.any fun t => t.pend.any (hit t)) then m
  else
    let again (t : Thread) (o : PendOp) : PendOp := if hit t o then { o with tries := o.tries + 1 } else o
    let m : Mach := { m with threads := m.threads.map fun t => { t with pend := t.pend.map (again t) } }
    if m.tileHeld ml then m.devStore (ml + 4) (toBytes holdWord 4) else m

/-- The `ldt` has read: its hold is gone. -/
def Mach.unholdTile (m : Mach) (o : PendOp) (ml : Nat) : Mach := if 8 ≤ o.tries then m.devStore (ml + 4) (toBytes 0 4) else m

/-- What an atomic leaves behind beside its data: an acquire drops the copies of its core, and its line is in no copy. -/
def Mach.atomDone (m : Mach) (t : Thread) (o : PendOp) (acquire : Bool) (old : List Byte) : Mach :=
  let m := if acquire && scopeK o.scope then m.dropCopies t.core else m
  (m.dropCopy t.core (m.eff t.launch).fdom (o.va / 64)).opDone t o (if acquire then old else [])

/-- What the operation does. `wide` is what a wide step does, and answers the bytes it leaves for its flight. -/
def Mach.act (m : Mach) (t : Thread) (o : PendOp) (install : Bool)
    (wide : Mach → Thread → Flight → PendOp → Mach) : Mach :=
  let fd := (m.eff t.launch).fdom
  match o.kind with
  | .load cached =>
    if cached && (m.copyAt t.core fd (o.va / 64)).any (fun c => c.err < 2) then
      let (m, bs) := m.readCached t.core fd o.va o.loc o.len false
      m.opDone t o bs
    else if badRange m o.loc o.len then m.opEcc t o o.loc
    else
      let m := m.eccFix t.core o.loc o.len
      if cached then
        let (m, bs) := m.readCached t.core fd o.va o.loc o.len install
        m.opDone t o bs
      else m.opDone t o (m.bytes o.loc o.len)
  | .fetchLine cached =>
    if badRange m o.loc o.len || !cached then m.opDone t o []
    else ((m.eccFix t.core o.loc o.len).readCached t.core fd o.va o.loc o.len install).1.opDone t o []
  | .store bs =>
    if badWrite m o.loc o.len then m.opEcc t o o.loc
    else (m.threadStore t fd o o.loc o.va bs).opDone t o []
  | .atom op ty b cmp =>
    if badRange m o.loc o.len then m.opEcc t o o.loc
    else
      let m := (m.eccFix t.core o.loc o.len).syncAtomic t o.scope.code o.loc o.len true
      let old := m.num o.loc o.len
      (m.atomStore t fd o (toBytes (atomNew op ty old b cmp) o.len)).atomDone t o true (toBytes old o.len)
  | .red op ty b =>
    if badRange m o.loc o.len then m.opEcc t o o.loc
    else
      let m := (m.eccFix t.core o.loc o.len).syncAtomic t o.scope.code o.loc o.len false
      let old := m.num o.loc o.len
      (m.atomStore t fd o (toBytes (atomNew op ty old b 0) o.len)).atomDone t o false []
  | .fence rel acq =>
    let m := m.syncFence t o.scope.code rel acq
    let m := if acq && scopeK o.scope then m.dropCopies t.core else m
    m.opDone t o []
  | .move =>
    if badRange m o.loc o.len then m.opEcc t o o.loc
    else if badWrite m o.loc2 o.len2 then m.opEcc t o o.loc2
    else
      let go (m : Mach) : Mach :=
        let m := m.eccFix t.core o.loc o.len
        (m.threadStore t fd o o.loc2 o.va (m.bytes o.loc o.len)).opDone t o []
      match o.metaLoc o.va with
      | none => go m
      | some ml => if m.eccBad ml 8 then m.opEcc t o ml else go ((m.eccFix t.core ml 8).unholdTile o ml)
  | .wide =>
    match m.flight? o.uid with
    | some f => wide m t f o
    | none => m

/-! ### Accesses to other devices (spec/06 R188, spec/01 R38, R39) -/

/-- The device of a location of another device, and its offset there. -/
def remDev (loc : Nat) : Nat := loc / 2 ^ 52 - 1
def remOff (loc : Nat) : Nat := loc % 2 ^ 52 - Config.cavernBase

/-- What the request of an operation asks for. DESIGN CHOICE (log 142): a load of a line of another device installs no copy of it. -/
def Mach.request (m : Mach) (o : PendOp) : Payload :=
  match o.kind with
  | .store bs => .bulkReq o.oid (remOff o.loc) bs.length true bs
  | .move =>
    if isRem o.loc2 then .bulkReq o.oid (remOff o.loc2) o.len2 true (m.bytes o.loc o.len)
    else .bulkReq o.oid (remOff o.loc) o.len false []
  | _ => .bulkReq o.oid (remOff o.loc) o.len false []

/-- The operator, type and operands of an atomic or reduction. -/
def OpKind.atomic? : OpKind → Option (AOp × AType × Nat × Nat)
  | .atom op ty b cmp => some (op, ty, b, cmp)
  | .red op ty b => some (op, ty, b, 0)
  | _ => none

/-- A class-2 message on the bulk request channel of the port that the route names. -/
def Mach.sendBulk (sys : Sys) (m : Mach) (d : Nat) (body : Payload) : Mach :=
  let p := sys.fport (sys.portFor (look {} sys.routes d) 2)
  { m with out := m.out ++ [⟨sys.devid, d, 2, p.useReq, body⟩] }

/-- A request goes to another device, or to the host, for what is no operation of a pending set. -/
def Mach.askFar (sys : Sys) (m : Mach) (who : FarFor) (loc va len : Nat) (write : Bool) (bs : List Byte) : Mach :=
  let m' : Mach := { m with reqs := m.reqs ++ [⟨m.next, who, loc, va, write, sys.ticks⟩], next := m.next + 1 }
  if isRem loc then m'.sendBulk sys (remDev loc) (.bulkReq m.next (remOff loc) len write bs) else m'

/-- A line is asked for, once, for the instruction fetch of a core (thread 0) or a stack access of a thread (spec/06 R188). -/
def Mach.askLine (sys : Sys) (m : Mach) (core fdom tid va loc : Nat) : Mach :=
  let va := va / 64 * 64
  if m.reqs.any fun r => r.who == .core core fdom tid && r.va == va && !r.write then m
  else m.askFar sys (.core core fdom tid) (loc / 64 * 64) va 64 false []

/-- A unit that is no core has such a request on its way: a line that it reads, or bytes that it writes. -/
def Mach.unitAsks (m : Mach) (fdom key va : Nat) : Bool := m.reqs.any fun r => r.who == .unit fdom key && r.va == va

/-- A unit asks once for a line outside the device, or for bytes to be written there; reads and writes have keys of their own. -/
def Mach.askUnit (sys : Sys) (m : Mach) (fdom key va loc : Nat) (wr : Option (List Byte)) : Mach :=
  if m.unitAsks fdom key va then m
  else match wr with
    | some bs => m.askFar sys (.unit fdom key) loc va bs.length true bs
    | none => m.askFar sys (.unit fdom key) loc va 64 false []

/-- What a unit has been answered is used up. -/
def Mach.unitDone (m : Mach) (key : Nat) : Mach :=
  { m with farLines := m.farLines.filter fun l => !(l.core == portCore && l.tid / 2 == key) }

/-- The operation goes to the host, which completes it (spec/01 R32). -/
def Mach.toHost (m : Mach) (o : PendOp) : Bool :=
  m.inHost o.loc || (m.inHost o.loc2 && o.len2 != 0)

/-- The operation waits for an answer from outside the device from now on. -/
def Mach.markSent (sys : Sys) (m : Mach) (t : Thread) (o : PendOp) (install : Bool) : Mach :=
  m.modThr t.id fun u => { u with pend := u.pend.map fun p =>
    if p.oid == o.oid then { p with sent := some (sys.ticks, install) } else p }

/-- The operation touches a location of another device. -/
def PendOp.remote (o : PendOp) : Bool := isRem o.loc || isRem o.loc2

def PendOp.far (o : PendOp) : Nat := if isRem o.loc2 then o.loc2 else o.loc

/-- The request of an operation leaves; without a route the operation fails (spec/06 R188). -/
def Mach.askRemote (sys : Sys) (m : Mach) (t : Thread) (o : PendOp) (install : Bool) : Mach :=
  if !(look ({} : Route) sys.routes (remDev o.far)).v then m.opFail o 0x26
  else if isRem o.loc2 && badRange m o.loc o.len then m.opEcc t o o.loc
  else
    let m := if isRem o.loc2 then m.eccFix t.core o.loc o.len else m
    (m.markSent sys t o install).sendBulk sys (remDev o.far) (m.request o)

/-- The atomics of one issue on one location of another device travel as one request, in ascending thread order (spec/15 R372). -/
def Mach.askAtomics (sys : Sys) (m : Mach) (ops : List (Nat × PendOp)) : Mach :=
  match ops with
  | [] => m
  | (_, o) :: _ => match o.kind.atomic? with
    | none => m
    | some a =>
      if !(look ({} : Route) sys.routes (remDev o.far)).v then ops.foldl (fun m p => m.opFail p.2 0x26) m
      else
        (ops.foldl (fun m p => m.markSent sys (m.thr p.1) p.2 false) m).sendBulk sys (remDev o.far)
          (.bulkAtom o.oid (remOff o.loc) a.1 a.2.1 (ops.filterMap fun p => p.2.kind.atomic?.map fun x => (x.2.2.1, x.2.2.2)))

/-- The answer of the other device: the operation has performed there. -/
def Mach.remoteAct (m : Mach) (t : Thread) (o : PendOp) (bs : List Byte) : Mach :=
  let fd := (m.eff t.launch).fdom
  match o.kind with
  | .fetchLine _ => m.opDone t o []
  | .store bs => (if o.line.isSome then m.patchCopies t.core fd o.va bs else m).opDone t o []
  | .atom _ _ _ _ => (m.syncAtomic t o.scope.code o.loc o.len true).atomDone t o true bs
  | .red _ _ _ => (m.syncAtomic t o.scope.code o.loc o.len false).atomDone t o false []
  | .move =>
    if isRem o.loc2 then m.opDone t o []
    else if badWrite m o.loc2 o.len2 then m.opEcc t o o.loc2
    else (m.threadStore t fd o o.loc2 o.va bs).opDone t o []
  | _ => m.opDone t o bs

/-- Every operation of the flight has performed: its follow-on effects happen, and its results can land. -/
def Mach.ifDone (m : Mach) (tid uid : Nat) (fin : Mach → Flight → Mach) : Mach :=
  if (m.thr tid).pend.any fun o => o.uid == uid then m
  else match m.flight? uid with
    | some f => if f.done || f.failed.isSome then m else fin (m.setFlight { f with done := true }) { f with done := true }
    | none => m

/-- The operations of one issue on one location that perform as consecutive steps with this atomic: thread and key, in
ascending thread order (spec/07 R218). Any other operation performs alone. -/
def Mach.combined (m : Mach) (tid : Nat) (o : PendOp) : List (Nat × PendOp) :=
  if o.kind.isAtom || o.kind.isRed then
    match m.flight? o.uid with
    | none => [(tid, o)]
    | some f =>
      let fs := m.flights.filter fun g => g.iss == f.iss
      (m.inOrder (fs.map fun g => g.owner)).flatMap fun id =>
        ((m.thr id).pend.filter fun p => p.loc == o.loc && fs.any fun g => g.uid == p.uid).map fun p => (id, p)
  else [(tid, o)]

/-- The instructions of the top-k unit (spec/14 R348). -/
def topkUnit : Instr → Bool
  | .topkGroup _ _ _ _ _ _ _ | .topkRow _ _ _ _ _ _ _ | .cvtq _ _ _ _ _ _ _ | .rquant _ _ _ _ _ _ | .bscale _ _ _ _ _ => true
  | _ => false

/-- The flight is at work in the top-k unit of a core. -/
def Flight.inUnit (f : Flight) (core : Nat) : Bool := f.core == core && topkUnit f.instr && !f.done && f.failed.isNone

/-- The top-k unit of a core handles the threads of its instruction in ascending slot order, the order of their flights. -/
def Mach.unitTurn (m : Mach) (o : PendOp) : Bool :=
  match m.flight? o.uid with
  | none => true
  | some f => !topkUnit f.instr || m.flights.all fun g => !g.inUnit f.core || decide (f.uid ≤ g.uid)

/-- The operation may perform next (spec/07 R204, R215, spec/14 R348). -/
def Mach.mayPerform (m : Mach) (tid : Nat) (o : PendOp) : Bool :=
  let t := m.thr tid
  t.clear o && !m.rangeHolds t.core (m.eff t.launch).fdom o && m.unitTurn o

/-- One operation performs: here, or with its request to the host or another device; one that waits for its response does nothing. A
plain load that finds a copy needs no request. -/
def Mach.performOne (sys : Sys) (m : Mach) (tid : Nat) (o : PendOp) (install : Bool)
    (wide : Mach → Thread → Flight → PendOp → Mach) : Mach :=
  let t := m.thr tid
  let copied := match o.kind with
    | .load true => (m.copyAt t.core (m.eff t.launch).fdom (o.va / 64)).any fun c => c.err < 2
    | .fetchLine c => !c
    | _ => false
  if (!o.remote && !m.toHost o) || copied then m.act t o install wide
  else if o.sent.isSome then m
  else if m.toHost o then m.markSent sys t o install
  else if o.kind == .wide then (match m.flight? o.uid with
    | some f => wide m t f o     -- it sends what it writes
    | none => m)
  else m.askRemote sys t o install

/-- PERFORM (spec/07 R203): one operation of a thread's pending set, when R204 and R215 let it; the atomics of one issue on
one location perform together. -/
def Mach.performOp (sys : Sys) (m : Mach) (tid oid : Nat) (install : Bool)
    (wide : Mach → Thread → Flight → PendOp → Mach) (fin : Mach → Flight → Mach) : Mach :=
  match (m.thr tid).pend.find? fun o => o.oid == oid with
  | none => m
  | some o =>
    let ops := m.combined tid o
    if ops.any fun p => !m.mayPerform p.1 p.2 then m
    else
      let iss := ((m.flight? o.uid).map fun f => f.iss).getD 0
      let m := if o.remote && o.kind.atomic?.isSome then (if o.sent.isSome then m else m.askAtomics sys ops)
        else ops.foldl (fun m p => (m.performOne sys p.1 p.2 install wide).ifDone p.1 p.2.uid fin) m
      m.settleIssue iss

/-- The response to a request of operations of threads: they have performed, or failed (spec/06 R188, R199). -/
def Mach.remoteRsp (m : Mach) (id : Nat) (ok : Bool) (bs : List Byte) (fin : Mach → Flight → Mach) : Mach :=
  match m.threads.find? fun t => t.pend.any fun o => o.oid == id && o.sent.isSome with
  | none => m
  | some t => match t.pend.find? fun o => o.oid == id with
    | none => m
    | some o =>
      let iss := ((m.flight? o.uid).map fun f => f.iss).getD 0
      let ops := if o.kind.atomic?.isSome then m.combined t.id o else [(t.id, o)]
      ((enum ops).foldl (fun m p =>
        let u := m.thr p.2.1
        let x := p.2.2
        let part := if o.kind.atomic?.isSome then (bs.drop (x.len * p.1)).take x.len else bs
        (if ok then m.remoteAct u x part else m.opEcc u x x.far).ifDone u.id x.uid fin) m).settleIssue iss

/-- No response to a request of operations of threads within its limit: each fails with a cause. -/
def Mach.lateRsp (m : Mach) (tid : Nat) (o : PendOp) (cause : Nat) (fin : Mach → Flight → Mach) : Mach :=
  let ops := if o.kind.atomic?.isSome && o.remote then m.combined tid o else [(tid, o)]
  (ops.foldl (fun m p => (m.opFail p.2 cause).ifDone p.1 p.2.uid fin) m).settleIssue (((m.flight? o.uid).map fun f => f.iss).getD 0)

/-- The host's completion of the request of a thread's operation (spec/01 R32): it has performed, or failed. -/
def Mach.hostRsp (m : Mach) (t : Thread) (o : PendOp) (ok : Bool) (wide : Mach → Thread → Flight → PendOp → Mach)
    (fin : Mach → Flight → Mach) : Mach :=
  let loc := if m.inHost o.loc then o.loc else o.loc2
  let iss := ((m.flight? o.uid).map fun f => f.iss).getD 0
  ((if ok then m.act t o (o.sent.any fun x => x.2) wide else m.opEcc t o loc).ifDone t.id o.uid fin).settleIssue iss

/-- All operations of a flight perform in order. -/
def Mach.performAll (sys : Sys) (m : Mach) (tid uid : Nat) (wide : Mach → Thread → Flight → PendOp → Mach)
    (fin : Mach → Flight → Mach) : Mach :=
  (((m.thr tid).pend.filter fun o => o.uid == uid).map fun o => o.oid).foldl
    (fun m oid => m.performOp sys tid oid true wide fin) m

/-! ### Landing (spec/10 R272, spec/05 R148) -/

/-- The register after the one a specifier names. -/
def spAt (s : Spec) (j : Nat) : Spec :=
  match s with
  | .v n => .v (n + BitVec.ofNat 8 j)
  | .c k => .c (k + BitVec.ofNat 3 j)
  | s => s

def spWords (s : Spec) (ws : List Word) : List (Spec × Word) := (enum ws).map fun p => (spAt s p.1, p.2)

/-- A result lands: `v` always, `c` only while the clause that issued it is the thread's clause. -/
def Thread.landOne (t : Thread) (clause : Nat) (w : Spec × Word) : Thread :=
  match w.1 with
  | .c _ => if t.clause = clause then t.wrAt w.1 0 w.2 else t
  | s => t.wrAt s 0 w.2

def XPos.fill (p : XPos) (uid : Nat) (w : Word) : XPos := if p = .pend uid then .val w else p

def Thread.land (t : Thread) (f : Flight) : Thread :=
  let ws := look [] f.writes t.id
  let t := ws.foldl (fun t w => t.landOne (look 0 f.clauses t.id) w) t
  let t := match f.xres.find? fun p => p.1 == t.id with
    | none => t
    | some p => { t with x0 := t.x0.fill f.uid p.2, x1 := t.x1.fill f.uid p.2 }
  t.flagDown f.flag

/-- INSTRUCTION COMPLETE: results land, the flag's count falls, and the lookahead of its clause is released. -/
def Mach.complete (m : Mach) (f : Flight) : Mach :=
  let m : Mach := { m with
    threads := m.threads.map fun t => if f.tids.contains t.id then t.land f else t
    flights := m.flights.filter fun g => g.uid != f.uid }
  m.unlook f.iss

/-! ### Issue of a long-latency instruction (spec/10 R271, R274; spec/15 R361) -/

/-- The operations of a flight get their keys, in order. -/
def numberOps (uid : Nat) (next : Nat) (cycle : Nat) (ops : List PendOp) : List PendOp :=
  (enum ops).map fun p => { p.2 with oid := next + p.1, uid := uid, issued := cycle }

/-- A flight of some threads of the quarter enters: `owner` holds its operations; with none it can complete at once unless
`wait` says that something else finishes it. `shift` tells whether `x` shifts (spec/05 R148). -/
def Mach.addFlight (m : Mach) (q : Quarter) (h : Hdr) (i : Instr) (iss owner : Nat) (tids : List Nat) (ops : List PendOp)
    (shift wait : Bool) (g : Flight → Flight) : Mach :=
  let uid := m.next
  let f : Flight :=
    { uid := uid, iss := iss, owner := owner, tids := tids, qid := q.id, core := q.core, launch := q.launch, instr := i,
      pc := q.pc, hdr := q.hdr, clauses := tids.map fun t => (t, (m.thr t).clause), flag := h.flag.toNat,
      done := ops == [] && !wait }
  let m := m.modAll tids fun t =>
    let t := { (t.carryFlag q.pc h.flag.toNat) with carry := none }
    if shift && h.flag.toNat == 0 then t.shift (.pend uid) else t
  let m := m.modThr owner fun t => { t with pend := t.pend ++ numberOps uid (uid + 1) m.cycle ops }
  { m with flights := m.flights ++ [g f], next := uid + 1 + ops.length }

/-- The quarter advances past a long-latency instruction; its LOOK begins to count (spec/10 R274). -/
def Mach.advanceLook (m : Mach) (q : Quarter) (iss look : Nat) : Mach :=
  let m := (m.used).advance q
  if q.isLast || !(m.flights.any fun f => f.iss == iss) then m
  else match m.quarter? q.id with
    | some q' => m.setQ { q' with looks := q'.looks ++ [{ iss := iss, left := look }] }
    | none => m

/-- The quarter goes on, if some of its threads are still in it. -/
def Mach.goOn (m : Mach) (qid iss look : Nat) : Mach :=
  match m.quarter? qid with
  | some q => m.advanceLook q iss look
  | none => m.used

/-- The flight carries a result for a thread: the destination's words, what else is written, and what `x` receives. -/
def Flight.answer (f : Flight) (tid : Nat) (d : Spec) (ws : List Word) (more : List (Spec × Word)) : Flight :=
  { f with writes := f.writes ++ [(tid, spWords d ws ++ more)], xres := f.xres ++ [(tid, ws.headD 0)] }

/-- AN INSTRUCTION OF A PORT ON REGISTERS ALONE: its results are computed from the operands read at issue and land when it
completes. `f` gives the destination's words. -/
def Mach.portOp (m : Mach) (h : Hdr) (i : Instr) (d : Spec) (f : Nat → Nat → Thread → List Word) : Mach :=
  m.withQ fun q =>
    let iss := m.next
    let m' := q.active.foldl (fun m' p =>
      m'.addFlight q h i iss p.2 [p.2] [] true false fun g => g.answer p.2 d (f p.1 (m.fr p.1) (m.thr p.2)) [])
      (m.take 1)
    m'.advanceLook q iss h.look.toNat

end Sys2Proof.Machine
end

