-- ==== Sys2Proof/Machine/Calls.lean ====
section
/-! DEFINITION. Calls (spec/05 R158-R171, R453; spec/12 R301-R305): the thread-local stack, widen and gather calls, folds, and
the returns. -/

namespace Sys2Proof.Machine

/-! ### Moving a quarter and sending threads away -/

/-- Width values of the thread's own level. -/
def Thread.widths (t : Thread) : List Nat := [t.widx, t.wcnt, t.wfold, t.gmask, t.gslot, t.sameDepth, t.rgv]

def Thread.setWidths (t : Thread) (l : List Nat) : Thread :=
  { t with widx := nth l 0, wcnt := nth l 1, wfold := nth l 2, gmask := nth l 3, gslot := nth l 4, sameDepth := nth l 5,
           rgv := nth l 6 }

/-- What gives a thread its stack and width values back. -/
def undoOf (t : Thread) : Undo :=
  { rets := t.rets, stk := t.stk, tlsTop := t.tlsTop, widths := t.widths, widthDepth := t.widthDepth }

/-- The instruction that sends a thread to its next pc (spec/12 R299). -/
def senderOf (q : Quarter) (t : Thread) (undo : Option Undo := none) : Sender := { toSite := siteOf q t, undo := undo }

/-- The quarter stands at a clause boundary at `pc`; `snd` says which threads an instruction sent there. -/
def Mach.jump (m : Mach) (qid : Nat) (pc : Pc) (snd : Nat → Option Sender) : Mach :=
  match m.quarter? qid with
  | none => m
  | some q =>
    let q' := q.issued m.cycle m.next
    let m := (m.take 1).modAll q.tids fun t => { t.uncarried.settled.boundary with sender := snd t.id }
    (m.setQ { q' with pc := pc, hdr := none, looks := [] }).sweep q.tids q.launch

/-- A ganged wave whose quarters part (spec/05 R151). -/
def Mach.ungang (m : Mach) (q : Quarter) : Mach :=
  match q.gang with
  | none => m
  | some g => { m with quarters := m.quarters.map fun u => if u.gang = some g then { u with gang := none } else u }

/-- A thread leaves its quarter for another pc: it is filed, or inside a handler held in the alcove, with the threads that go there with it
(spec/12 R313). -/
def Mach.sendAway (m : Mach) (tid : Nat) (pc : Pc) (snd : Option Sender) (reform : Bool := false) : Mach :=
  let m := m.detachIssued tid
  if (m.thr tid).isHandler then
    m.modThr tid fun t => { t.settled.boundary with stat := .held m.next, pc := pc, sender := snd }
  else (m.modThr tid fun t => { t.settled with sender := snd }).fileAt tid pc reform

/-- The active threads go to their own next pcs: those of `lead` stay as the quarter (spec/12 R300, R305). -/
def Mach.disperse (m : Mach) (q : Quarter) (nexts : List (Nat × Pc)) (lead : Pc) (snd : Nat → Pc → Option Sender) : Mach :=
  let away := nexts.filter fun p => p.2 != lead
  let m := if away = [] then m else m.ungang q
  let m := (m.inOrder (away.map fun p => p.1)).foldl
    (fun m id => let pc := look 0 away id; m.sendAway id pc (snd id pc)) m
  m.jump q.id lead fun id => snd id lead

/-! ### The thread-local stack (spec/05 R170, spec/12 R304) -/

def Thread.tlsFree (t : Thread) : Nat := t.tlsLimit - t.tlsTop

/-- Pieces of a stack range that lie in one line, with the outcome of their checks. -/
def tlsPieces (sys : Sys) (m : Mach) (t : Thread) (va len : Nat) : List (Nat × Nat × Acc) :=
  let rec go (va : Nat) : Nat → Nat → List (Nat × Nat)
    | 0, _ => []
    | n + 1, len =>
      if len = 0 then []
      else
        let k := Nat.min len (64 - va % 64)
        (va, k) :: go (va + k) n (len - k)
  (go va (len / 64 + 2) len).map fun p =>
    (p.1, p.2, globalAcc sys m t.core (m.eff t.launch) p.1 1 .rw false false)

/-- Why a stack access of a thread does not pass. -/
inductive TlsRes where
  | ok
  | trap (cause va : Nat)
  | ecc (pa va : Nat)
  | park (p : ParkReq)
deriving DecidableEq, Repr

/-- The checks of a stack range, first failure first: a read meets every word in error, a write those that it writes in part
(spec/06 R200). -/
def tlsCheck (sys : Sys) (m : Mach) (t : Thread) (va len : Nat) (reads : Bool := false) : TlsRes :=
  let bad := (tlsPieces sys m t va len).filterMap fun p =>
    match p.2.2 with
    | .ok loc _ _ =>
      if m.away loc then match farState sys m t.core (m.eff t.launch).fdom t.id p.1 loc with
        | some 0x30 => some (TlsRes.ecc loc p.1)
        | some (c + 1) => some (.trap (c + 1) p.1)
        | _ => none
      else if (if reads then badRange m loc p.2.1 else badWrite m loc p.2.1) then some (TlsRes.ecc loc p.1) else none
    | .trap c => some (.trap c p.1)
    | .ecc pa => some (.ecc pa p.1)
    | .park l c k lv pg => some (.park ⟨t.id, l, c, k, lv, pg, false, true, p.1⟩)
    | .miss _ => some (.trap 0x22 p.1)
  bad.headD .ok

/-- A piece of the stack lies outside the device, and its line has not come, or a write of it there is not answered (spec/06 R188). -/
def tlsAway (sys : Sys) (m : Mach) (t : Thread) (va loc : Nat) : Bool :=
  let fd := (m.eff t.launch).fdom
  m.away loc && ((farState sys m t.core fd t.id va loc).isNone
    || m.reqs.any fun r => r.who == .core t.core fd t.id && r.write && r.va / 64 == va / 64)

/-- An earlier access of the thread on the range has not performed, a copy whose destination it is has not retired (spec/07 R204,
R215), or it is not there yet. -/
def tlsHeld (sys : Sys) (m : Mach) (t : Thread) (va len : Nat) : Bool :=
  (tlsPieces sys m t va len).any fun p =>
    tlsAway sys m t p.1 p.2.2.loc ||
    let o : PendOp := { oid := 0, uid := 0, kind := .store [], loc := p.2.2.loc, len := p.2.1, va := p.1,
                        line := some ((m.eff t.launch).fdom, p.1 / 64) }
    m.rangeHolds t.core (m.eff t.launch).fdom o || t.pend.any fun x => x.meets o

/-- The lines of a stack range outside the device are asked for; its later reads and writes use them (log 142). -/
def tlsAsk (sys : Sys) (m : Mach) (t : Thread) (va len : Nat) : Mach :=
  (tlsPieces sys m t va len).foldl (fun m p =>
    if tlsAway sys m t p.1 p.2.2.loc then m.askLine sys t.core (m.eff t.launch).fdom t.id p.1 p.2.2.loc else m) m

/-- Lines of a stack access in another device have been used, or have failed. -/
def Mach.tlsUsed (m : Mach) (t : Thread) (va : Nat) : Mach :=
  { m with farLines := m.farLines.filter fun l => !(l.core == t.core && l.fdom == (m.eff t.launch).fdom && l.tid != 0 && l.line == va / 64) }

/-- Reading and writing a stack range that passes its checks. A write stamps (spec/07 R221). -/
def tlsRead (sys : Sys) (m : Mach) (t : Thread) (va len : Nat) : List Byte :=
  (tlsPieces sys m t va len).flatMap fun p =>
    match p.2.2 with
    | .ok loc _ _ => m.bytes loc p.2.1
    | _ => []

/-- A read of a stack range corrects the single-bit errors that it meets (spec/06 R198). -/
def tlsFix (sys : Sys) (m : Mach) (t : Thread) (va len : Nat) : Mach :=
  (tlsPieces sys m t va len).foldl (fun m p => match p.2.2 with
    | .ok loc _ _ => if m.away loc then m.tlsUsed t p.1 else (m.walkFix t.core (m.eff t.launch) p.1).eccFix t.core loc p.2.1
    | _ => m) m

/-- One piece of a stack write: here, or as a request to another device or to the host. -/
def tlsPut (sys : Sys) (m : Mach) (t : Thread) (va loc attr : Nat) (bs : List Byte) : Mach :=
  let fd := (m.eff t.launch).fdom
  if m.away loc then
    (({ m with mem := m.mem.put (m.home loc) bs } : Mach).tlsUsed t va).askFar sys (.core t.core fd t.id) loc va bs.length true bs
  else
    let on := m.checked t && raceLoc loc attr
    let m := ((m.walkFix t.core (m.eff t.launch) va).store loc bs (if on then some (m.threadStamp t) else none)).unrelease loc bs.length
    if on then m.rcNote fd va loc bs.length else m

def tlsWrite (sys : Sys) (m : Mach) (t : Thread) (va : Nat) (bs : List Byte) : Mach :=
  (tlsPieces sys m t va bs.length).foldl (fun m p =>
    match p.2.2 with
    | .ok loc at_ _ =>
      let part := (bs.drop (p.1 - va)).take p.2.1
      (tlsPut sys m t p.1 loc at_ part).patchCopies t.core (m.eff t.launch).fdom p.1 part
    | _ => m) m

/-- A return-stack entry as its 16 bytes, and back; an invalid record counts as an empty stack (spec/12 R304). -/
def RetEntry.bytes (e : RetEntry) : List Byte := toBytes (e.retva.toNat + e.kind * 2 ^ 57 + e.k * 2 ^ 64 + e.state * 2 ^ 71) 16

def retOf (n : Nat) : Option RetEntry :=
  let e : RetEntry := { retva := BitVec.ofNat 57 n, kind := bits n 57 2, k := bits n 64 7, state := bits n 71 57 }
  if e.kind = 3 ∨ e.k > 64 ∨ bits n 59 5 ≠ 0 then none else some e

/-- What a push of an entry needs on the stack: 16 bytes when eight entries are on chip. -/
def Thread.pushNeed (t : Thread) : Nat := if t.rets.length ≥ 8 then 16 else 0

/-- A push: the oldest on-chip entry is spilled when eight are there. -/
def pushRet (sys : Sys) (m : Mach) (tid : Nat) (e : RetEntry) : Mach :=
  let t := m.thr tid
  if t.rets.length ≥ 8 then
    let old := t.rets.getLastD {}
    let m := tlsWrite sys m t t.tlsTop old.bytes
    m.modThr tid fun t => { (t.pushItem 0 16) with rets := e :: t.rets.dropLast }
  else m.modThr tid fun t => { t with rets := e :: t.rets }

/-- Where the entry that a pop would refill stands. -/
def Thread.refillAt (t : Thread) : Option Nat :=
  match t.rets with
  | _ :: _ => none
  | [] => (t.stk.find? fun i => i.1 == 0).map fun i => i.2.1

/-- The stack with its top entry on chip, refilled if needed; an invalid record empties it. -/
def refill (sys : Sys) (m : Mach) (tid : Nat) : Mach :=
  let t := m.thr tid
  match t.refillAt with
  | none => m
  | some a =>
    let e := retOf (ofBytes (tlsRead sys m t a 16))
    let m := tlsFix sys m t a 16
    let stk := match e with
      | some _ => t.stk.eraseP fun i => i.1 == 0
      | none => t.stk.filter fun i => i.1 != 0
    m.modThr tid fun t => { (t.retop stk) with rets := e.toList }

/-- Registers `v0` to `vF-1`, FMODE and TMSHAPE saved on the stack (spec/05 R164), and read back. -/
def saveLen (f : Nat) : Nat := 4 * f + 8

def pushSave (sys : Sys) (m : Mach) (tid f : Nat) : Mach :=
  let t := m.thr tid
  let m := tlsWrite sys m t t.tlsTop (wordsBytes ((t.regs.take f) ++ [t.fmode, t.tmshape]))
  m.modThr tid fun t => t.pushItem 1 (saveLen f)

def Thread.saveAt (t : Thread) : Option (Nat × Nat) :=
  (t.stk.find? fun i => i.1 == 1).map fun i => (i.2.1, i.2.2)

def popSave (sys : Sys) (m : Mach) (tid f : Nat) : Mach :=
  let t := m.thr tid
  match t.saveAt with
  | none => m
  | some (a, len) =>
    let ws := bytesWords (len / 4) (tlsRead sys m t a len)
    (tlsFix sys m t a len).modThr tid fun t =>
      { (t.retop (t.stk.eraseP fun i => i.1 == 1)) with
        regs := ws.take f ++ t.regs.drop f, fmode := ws.getD f 0 &&& fmodeMask, tmshape := ws.getD (f + 1) 0 &&& tmshapeMask }

/-- A failed stack check of one thread at the instruction at the quarter's pc: the thread alone traps or parks, and will
do the instruction again. -/
def Mach.tlsFail (m : Mach) (q : Quarter) (tid flag : Nat) (r : TlsRes) : Mach :=
  match r with
  | .ok => m
  | .trap c va => (m.forgetFar q.core tid).raiseT q [tid] c flag fun _ => va
  | .ecc pa va => ((m.forgetFar q.core tid).logErr 0x30 q.core pa).raiseT q [tid] 0x30 flag fun _ => va
  | .park p => m.parkAll q.core (m.eff q.launch).fdom q.pc q.hdr flag [p]

/-- Where a caller of the call stands. -/
def Call.site (c : Call) (tid : Nat) : Option Site := (c.sites.find? fun p => p.1 == tid).map fun p => p.2

/-- A caller that waits for a frame takes the outcome of a stack check at its `call`, which performs nothing for it (spec/05 R170). -/
def Mach.siteFail (m : Mach) (c : Call) (tid : Nat) (r : TlsRes) : Mach :=
  match c.site tid with
  | none => m
  | some s =>
    let m := (m.forgetFar c.core tid).modThr tid fun t => t.atSite s
    match r with
    | .ok => m
    | .trap cause va => m.raise c.core c.launch [(0, tid, va)] cause s.pc s.hdr s.flag
    | .ecc pa va => (m.logErr 0x30 c.core pa).raise c.core c.launch [(0, tid, va)] 0x30 s.pc s.hdr s.flag
    | .park p => m.parkAll c.core (m.eff c.launch).fdom s.pc s.hdr s.flag [p]

/-- The outcome of a caller's stack check waits for room in the sump. -/
def Mach.siteWaits (m : Mach) (c : Call) (r : TlsRes) : Bool :=
  match r with
  | .park p => !m.sumpRoom c.core (m.eff c.launch).fdom [p]
  | _ => false

/-- A caller goes on at its return address with its results; where that is no clause header, its `call` takes the cause and has changed
nothing else for it (spec/12 R299; log 139). -/
def Mach.backFrom (m : Mach) (c : Call) (old : Thread) (ret : Pc) : Mach :=
  (m.modThr old.id fun u => { u with
    sender := (c.site old.id).map fun s => { toSite := s, undo := some { undoOf u with regs := some old.regs } } }).fileAt old.id ret

/-! ### Callee threads -/

/-- A callee of a caller with fresh registers (spec/05 R160). -/
def calleeOf (m : Mach) (caller : Thread) (role : Role) (f num : Nat) (args : List Word) : Thread :=
  { id := m.next, tid := caller.tid, path := caller.path ++ [num], role := role, launch := caller.launch,
    wave := caller.wave, core := caller.core, homeQ := caller.homeQ, rg := f, rgv := f,
    regs := args ++ List.replicate (f - args.length) 0, fmode := caller.fmode, tmshape := caller.tmshape,
    mute := caller.mute, widthDepth := caller.widthDepth + 1, spawnDepth := caller.spawnDepth }

/-- One widen callee, filed at the entry; `at_` is where its frame stands. -/
def Mach.fileWiden (m : Mach) (cl : Call) (caller : Thread) (j : Nat) (at_ : Place) : Mach :=
  let part := (caller.tlsLimit - caller.tlsTop) / (64 * cl.k) * 64
  let t := calleeOf m caller (.widen cl.id) cl.f j cl.args
  let t := { t with widx := j, wcnt := cl.w, wfold := cl.k, tlsBase := caller.tlsTop + j * part, place := at_,
                    tlsTop := caller.tlsTop + j * part, tlsLimit := caller.tlsTop + (j + 1) * part }
  let m := { m with threads := m.threads ++ [t], next := m.next + 1 }
  match m.call? cl.id with
  | some c => ((m.setCall { c with live := c.live ++ [t.id] }).fileAt t.id cl.entry)
  | none => m

def Mach.fileWidens (m : Mach) (cl : Call) (caller : Thread) (ps : List Place) : Mach :=
  (enum ps).foldl (fun m p => m.fileWiden cl caller p.1 p.2) m

/-- Registers, modes and width values of a fold iteration (spec/05 R164). -/
def Thread.foldStart (t : Thread) (cl : Call) (i : Nat) : Thread :=
  { t with
    regs := cl.args ++ List.replicate (cl.f - cl.args.length) 0 ++ t.regs.drop cl.f
    fmode := cl.fmode, tmshape := cl.tmshape, mute := cl.mute, rgv := cl.f, flags := List.replicate 12 0
    widx := i, wcnt := cl.w, wfold := 0, gmask := 1, gslot := 1, sameDepth := 0 }

/-- What a widen call of one caller takes (spec/05 R162, R167, R170): the frames granted, whether it folds, where the buffer and the
frames are stored, and the bytes that it pushes; a caller that waits for frames pushes nothing yet. -/
structure WidenPlan where
  k : Nat
  folds : Bool
  buf : Place
  frames : List Place
  need : Nat
deriving DecidableEq, Repr

/-- Places of a buffer and of `k` frames, with `push` bytes pushed between them, and the bytes of the stack that they take. -/
def Mach.widenPlaces (m : Mach) (t : Thread) (bufLen frame k push : Nat) : Place × List Place × Nat :=
  let buf := (m.placeItems t.core t.launch t.tlsTop 0 [] [bufLen]).headD .gallery
  let n := stackBytes [buf] [bufLen]
  let sizes := List.replicate k (4 * frame)
  let frames := match buf with
    | .gallery => m.placeItems t.core t.launch (t.tlsTop + push) bufLen [] sizes
    | .scratch o => m.placeItems t.core t.launch (t.tlsTop + push) 0 [(t.launch, o, bufLen)] sizes
    | .stack _ => m.placeItems t.core t.launch (t.tlsTop + n + push) 0 [] sizes
  (buf, frames, n + stackBytes frames sizes)

def Mach.widenPlan (m : Mach) (f : FnHdr) (t : Thread) : WidenPlan :=
  let free := m.grantable t.core t.launch f.w
  let k := if f.grant = 2 then 0 else if f.grant = 1 ∧ free < f.w then 0 else free
  let folds := k == 0 && decide (f.frame ≤ t.rgv)
  let bufLen := if k = 0 && !folds then 0 else 4 * f.w * f.retc
  let ps := m.widenPlaces t bufLen f.frame k t.pushNeed
  { k := k, folds := folds, buf := ps.1, frames := ps.2.1,
    need := if k = 0 && !folds then 0 else ps.2.2 + t.pushNeed + (if folds then saveLen f.frame else 0) }

/-- The frames on a caller's stack are pushed. -/
def Thread.pushFrames (t : Thread) (len : Nat) (ps : List Place) : Thread := ps.foldl (fun t p => t.pushPlaced 3 len p) t

/-- The call's frames are granted: the callees are filed. -/
def Mach.grantWiden (m : Mach) (id k : Nat) (buf : Place) (frames : List Place) : Mach :=
  match m.call? id with
  | none => m
  | some c =>
    let c := { c with k := k, waiting := false, framesHeld := k, bufAt := buf }
    let m := (m.setCall c).modThr c.caller fun t => t.pushFrames (4 * c.f) frames
    m.fileWidens c (m.thr c.caller) frames

/-- What a call's caller did precedes what its callees do, at core scope (spec/05 R160). -/
def Mach.callSync (m : Mach) (tid callee : Nat) : Mach := (m.sync tid 3 true true (.thread callee)).bump (m.thr tid) 3

/-- The buffer of a widen call is allocated and its entry pushed (spec/05 R162). -/
def widenPush (sys : Sys) (m : Mach) (cl : Call) (buf : Place) (k : Nat) (ret : Pc) : Mach :=
  pushRet sys ((m.callSync cl.caller cl.id).modThr cl.caller fun t => t.pushPlaced 2 (4 * cl.w * cl.retc) buf) cl.caller
    { retva := ret, kind := 1, k := k, state := cl.id % 2 ^ 57 }

/-- A widen call of one caller whose stack checks have passed (spec/05 R162): it leaves the quarter suspended, or folds and
stays. -/
def widenCaller (sys : Sys) (m : Mach) (q : Quarter) (f : FnHdr) (entry : Pc) (tid : Nat) : Mach :=
  let t := m.thr tid
  let w := m.widenPlan f t
  let cl : Call :=
    { id := m.next, core := t.core, launch := t.launch, caller := tid, gather := false, w := f.w, k := w.k, f := f.frame,
      argc := f.argc, retc := f.retc, red := f.red, age := f.age, grant := f.grant, entry := entry,
      sites := [(tid, siteOf q t)], args := t.regs.take f.argc, fmode := t.fmode, tmshape := t.tmshape, mute := t.mute,
      bufAt := w.buf, outer := t.widths, waiting := w.k = 0 && !w.folds }
  let m : Mach := { m with calls := m.calls ++ [cl], next := m.next + 1 }
  let m := if cl.waiting then m else widenPush sys m cl w.buf w.k (q.pc + 8)
  if w.folds then
    (pushSave sys m tid f.frame).modThr tid fun t => { (t.foldStart cl 0) with widthDepth := t.widthDepth + 1 }
  else
    let m := (m.detachIssued tid).modThr tid fun t => { t.settled with stat := .suspended cl.id }
    if (m.launch t.launch).ending.isSome then m.removeThreads [tid]
    else if cl.waiting then m else m.grantWiden cl.id w.k w.buf w.frames

/-- A widen caller that cannot fold takes the frames it waits for: its buffer is allocated and its entry pushed, or a check of its stack
fails at its `call` (spec/05 R162, R170). -/
def widenGrant (sys : Sys) (m : Mach) (c : Call) : Mach :=
  let t := m.thr c.caller
  let k := m.grantable c.core c.launch c.w
  let ps := m.widenPlaces t (4 * c.w * c.retc) c.f k t.pushNeed
  let need := ps.2.2 + t.pushNeed
  if k = 0 || (c.grant == 1 && decide (k < c.w)) then m
  else if tlsHeld sys m t t.tlsTop need then tlsAsk sys m t t.tlsTop need
  else
    let r := if t.tlsFree < need then .trap 0x57 0 else tlsCheck sys m t t.tlsTop need
    if r = .ok then
      (widenPush sys m c ps.1 k (((c.site t.id).map Site.pc).getD 0 + 8)).grantWiden c.id k ps.1 ps.2.1
    else if m.siteWaits c r then m
    else (m.dropCall c.id).siteFail c t.id r

/-! ### Gather calls (spec/05 R168, R169) -/

/-- Argument registers of a gather callee from its callers in slot order. -/
def gatherArgs (callers : List Thread) (argc g : Nat) : List Word :=
  (List.range (argc * g)).map fun i =>
    match callers[i % g]? with
    | some t => t.regs.getD (i / g) 0
    | none => 0

/-- The callers' releases of a gather call, and what the callee's wave learns from them (spec/05 R160). -/
def Mach.gatherSync (m : Mach) (c : Call) (wave : Nat) : Mach :=
  c.callers.foldl (fun m id =>
    let t := m.thr id
    let m := m.callSync id c.id
    if m.checked t then m.learn wave t.wave (m.phase t.wave) else m) m

/-- The caller in slot 0 leaves the group with the outcome of the check of the save that would lend its context: its `call` has pushed
nothing for it (spec/05 R170; log 139). The others go on as the group. -/
def Mach.leaveGroup (m : Mach) (c : Call) (tid : Nat) (r : TlsRes) : Mach :=
  let rest := c.callers.drop 1
  let m := if rest = [] then m.dropCall c.id else m.setCall { c with callers := rest, caller := rest.headD 0 }
  (m.modThr tid fun t => { t with rets := t.rets.drop 1 }).siteFail c tid r

/-- The group's callee starts: in a frame, in the slot-0 caller's own context, or it waits for a frame. -/
def gatherStart (sys : Sys) (m : Mach) (id : Nat) : Mach :=
  match m.call? id with
  | none => m
  | some c =>
    let callers := c.callers.map m.thr
    let t0 := callers.headD {}
    let n := c.callers.length
    let args := gatherArgs callers c.argc c.w
    let vals (t : Thread) (fold : Nat) : Thread := { t with widx := 0, wcnt := 1, wfold := fold, gmask := 2 ^ n - 1, gslot := n }
    let len := 4 * c.f
    let at_ := (m.placeItems t0.core t0.launch t0.tlsTop 0 [] [len]).headD .gallery
    if 1 ≤ m.grantable t0.core t0.launch 1 && decide (stackBytes [at_] [len] ≤ t0.tlsFree) then
      let m := (m.gatherSync c t0.wave).modThr t0.id fun t => t.pushPlaced 3 len at_
      let t0 := m.thr t0.id
      let t := vals (calleeOf m t0 (.gather id) c.f 0 args) 1
      let t := { t with tlsBase := t0.tlsTop, tlsTop := t0.tlsTop, tlsLimit := t0.tlsLimit, place := at_ }
      let m := { m with threads := m.threads ++ [t], next := m.next + 1 }
      (m.setCall { c with framesHeld := 1, live := [t.id], waiting := false }).fileAt t.id c.entry
    else if t0.rgv < c.f || t0.tlsFree < saveLen c.f then m
    else if tlsHeld sys m t0 t0.tlsTop (saveLen c.f) then tlsAsk sys m t0 t0.tlsTop (saveLen c.f)
    else
      let r := tlsCheck sys m t0 t0.tlsTop (saveLen c.f)
      if r ≠ .ok then (if m.siteWaits c r then m else m.leaveGroup c t0.id r)
      else
      let m := pushSave sys (m.gatherSync c t0.wave) t0.id c.f
      let m := m.modThr t0.id fun t =>
        { (vals t 0) with
          regs := args ++ List.replicate (c.f - args.length) 0 ++ t.regs.drop c.f
          rgv := c.f, flags := List.replicate 12 0, sameDepth := 0, widthDepth := t.widthDepth + 1 }
      (m.setCall { c with lent := true, waiting := false, outer := t0.widths, mute := t0.mute }).fileAt t0.id c.entry

/-- A gather caller is filed for the glade of its callee's entry with the gather role. -/
def gatherCaller (sys : Sys) (m : Mach) (q : Quarter) (f : FnHdr) (entry : Pc) (tid : Nat) : Mach :=
  let t := m.thr tid
  let m := pushRet sys m tid { retva := q.pc + 8, kind := 2 }
  let cl : Call :=
    { id := 0, core := t.core, launch := t.launch, caller := tid, gather := true, w := f.factor, k := 0, f := f.frame,
      argc := f.argc, retc := f.retc, red := 0, age := f.age, grant := 0, entry := entry, sites := [(tid, siteOf q t)] }
  if (m.launch t.launch).ending.isSome then m.removeThreads [tid]
  else ((m.detachIssued tid).modThr tid Thread.settled).enterFiling tid { tid := tid, pc := entry, call := some cl }

/-- Groups of gather callers that have just left their glade start their callees. -/
def Mach.startGroups (sys : Sys) (old m : Mach) : Mach :=
  (m.calls.filter fun c => c.gather && c.waiting && !(old.calls.any fun u => u.id == c.id && u.waiting)).foldl
    (fun m c => gatherStart sys m c.id) m

/-- THE END OF A CYCLE'S FILINGS: the threads filed enter their glades, and groups that this completes start. -/
def Mach.fileAll (sys : Sys) (m : Mach) : Mach :=
  if m.filing = [] then m
  else (m.filing.foldl (fun r f => r.wakeCore (m.thr f.tid).core) ((m.flush sys).startGroups sys m))

/-! ### Returns (spec/05 R163, R164, R169) -/

/-- The call that a fold, or a lent gather context, of a thread belongs to: the innermost. -/
def Mach.foldCall (m : Mach) (tid : Nat) : Option Call :=
  (m.calls.filter fun c => !c.gather && c.caller == tid && c.k == 0 && !c.waiting).getLast?
def Mach.lentCall (m : Mach) (tid : Nat) : Option Call :=
  (m.calls.filter fun c => c.gather && c.lent && c.caller == tid).getLast?

/-- Everything that a thread has issued has completed: flags signalled, pending writes landed, nothing pending. -/
def Mach.quiet (m : Mach) (t : Thread) : Bool := t.flagsClear && t.pend == [] && !m.inFlight t.id

/-- Waves that a thread has spawned and that have not exited. -/
def Mach.liveKids (m : Mach) (t : Thread) : Bool :=
  t.kids.any fun w => match m.wave? w with
    | some w => !w.exited
    | none => false

/-- Where the words of a widen index stand in a buffer on the caller's stack, and their bytes. -/
def Call.slotAt (c : Call) (i : Nat) : Option Nat :=
  match c.bufAt with
  | .stack va => if c.retc = 0 then none else some (va + 4 * c.retc * i)
  | _ => none

/-- A contribution enters the buffer of a call. -/
def putResult (sys : Sys) (m : Mach) (c : Call) (tid i : Nat) : Mach :=
  let t := m.thr tid
  let ws := t.regs.take c.retc
  match c.slotAt i with
  | some va => tlsWrite sys m t va (wordsBytes ws)
  | none => match m.call? c.id with
    | some c => m.setCall { c with buf := put c.buf i ws }
    | none => m

/-- The contributions of a call, by widen index. -/
def Mach.results (sys : Sys) (m : Mach) (c : Call) : List (List Word) :=
  (List.range c.w).map fun i => match c.slotAt i with
    | some va => bytesWords c.retc (tlsRead sys m (m.thr c.caller) va (4 * c.retc))
    | none => look [] c.buf i

/-- Results of a widen call in its caller (spec/05 R163, R453): the reduced columns, and the violation of RED 8. -/
def Mach.widenResult (m : Mach) (cl : Call) (buf : List (List Word)) : Mach × Bool :=
  let (ws, viol) := reduceCols cl.red cl.retc cl.tmshape buf
  if viol && !fmTmd cl.fmode then
    let free := (List.range cl.retc).map fun i => Config.freeWord (m.free + i)
    ((m.modThr cl.caller fun t => { t with regs := free ++ t.regs.drop cl.retc }).used, true)
  else (m.modThr cl.caller fun t => { t with regs := ws ++ t.regs.drop ws.length }, false)

/-- The buffer is freed and the kind-1 entry popped. -/
def Mach.closeCall (m : Mach) (cl : Call) : Mach :=
  (m.dropCall cl.id).modThr cl.caller fun t => { (t.popPlaced 2 cl.bufAt) with rets := t.rets.drop 1 }

/-- A violation in the tree of a call's return is taken at the `call` (spec/05 R453). -/
def Mach.domainFail (m : Mach) (cl : Call) : Mach :=
  match cl.site cl.caller with
  | none => m
  | some s => (m.modThr cl.caller fun t => t.atSite s).raise cl.core cl.launch [(m.slotOf cl.caller, cl.caller, 0)] 0x41 s.pc s.hdr s.flag

/-- The call is over: its entry is popped and its caller is filed at the return address, or takes 0x41 at the `call`. -/
def Mach.widenEnd (sys : Sys) (m : Mach) (cl : Call) : Mach :=
  let old := m.thr cl.caller
  let buf := m.results sys cl
  let m := match cl.slotAt 0 with
    | some va => tlsFix sys m (m.thr cl.caller) va cl.bufBytes
    | none => m
  let (m, viol) := m.widenResult cl buf
  let ret := ((m.thr cl.caller).rets.headD {}).retva
  let m := m.closeCall cl
  if viol then m.domainFail cl else m.backFrom cl old ret

/-- `return_widen(c)`: the contribution is kept; the callee covers its next index, or ends and releases its frame. -/
def returnWiden (sys : Sys) (m : Mach) (t : Thread) (call : Nat) : Mach :=
  let m := m.callSync t.id call
  match m.call? call with
  | none => m.removeThreads [t.id]
  | some cl =>
    let m := putResult sys m cl t.id t.widx
    if t.widx + cl.k < cl.w then
      let m := (m.detachIssued t.id).modThr t.id fun t =>
        { t.settled with
          widx := t.widx + cl.k, regs := cl.args ++ List.replicate (cl.f - cl.args.length) 0, fmode := cl.fmode,
          tmshape := cl.tmshape, mute := cl.mute }
      m.fileAt t.id cl.entry
    else
      let m := (m.removeThreads [t.id]).modThr cl.caller fun u => u.popPlaced 3 t.place
      match m.call? call with
      | none => m
      | some cl =>
        let cl := { cl with live := cl.live.filter fun i => i != t.id, framesHeld := cl.framesHeld - 1 }
        let m := m.setCall cl
        if cl.live = [] then m.widenEnd sys cl else m

/-- `return_gather(t)`: results go to the callers, the callee ends or the lent context is given back, and each caller pops
and is filed at its return address, in slot order. -/
def returnGather (sys : Sys) (m : Mach) (t : Thread) (call : Nat) : Mach :=
  match m.call? call with
  | none => m.removeThreads [t.id]
  | some c =>
    let res (j : Nat) : List Word := (List.range c.retc).map fun i => t.regs.getD (i * c.w + j) 0
    let m := m.callSync t.id call
    let ph := m.phase t.wave
    let m := if c.lent then
        (popSave sys (m.detachIssued t.id) t.id c.f).modThr t.id fun u =>
          { (u.setWidths c.outer) with mute := c.mute, widthDepth := u.widthDepth - 1 }
      else (m.removeThreads [t.id]).modThr (c.callers.headD 0) fun u => u.popPlaced 3 t.place
    let m := m.dropCall c.id
    (enum c.callers).foldl (fun m p =>
      let old := m.thr p.2
      let m := if m.checked t then m.learn old.wave t.wave ph else m
      let m := m.modThr p.2 fun u => { u.settled with rets := u.rets.drop 1, regs := res p.1 ++ u.regs.drop c.retc }
      m.backFrom c old (old.rets.headD {}).retva) m

/-- `end_fold_iteration(t)`: the next iteration from the entry, or the fold's end. Answers where the thread goes; `none`
when it has trapped (spec/05 R164, R453). -/
def endFold (sys : Sys) (m : Mach) (tid : Nat) (cl : Call) : Mach × Option Pc :=
  let m := putResult sys m cl tid cl.iter
  let cl := { (m.call? cl.id).getD cl with iter := cl.iter + 1 }
  let m := m.setCall cl
  if cl.iter < cl.w then (m.modThr tid fun t => t.foldStart cl cl.iter, some cl.entry)
  else
    let m := popSave sys m tid cl.f
    let m := m.modThr tid fun t => { (t.setWidths cl.outer) with mute := cl.mute, widthDepth := t.widthDepth - 1 }
    let rs := m.results sys cl
    let m := match cl.slotAt 0 with
      | some va => tlsFix sys m (m.thr tid) va cl.bufBytes
      | none => m
    let (m, viol) := m.widenResult cl rs
    let ret := ((m.thr tid).rets.headD {}).retva
    let m := (m.callSync tid cl.id).closeCall cl
    if viol then (m.domainFail cl, none) else (m, some ret)

end Sys2Proof.Machine
end

