-- ==== Sys2Proof/Machine/Memory.lean ====
section
/-! DEFINITION. Majors 0x50 to 0x56 (spec/15): loads, stores, tiles, atomics, fences, prefetch, sharing windows and the
fibre CAM. -/

namespace Sys2Proof.Machine

/-! ### One issue of accesses (spec/06 R190, spec/15 R361) -/

/-- What one thread's access is, before any thread performs: the outcome of checks 1 to 6, its address, whether it writes,
the ranges that are judged (R189 step 7), and its operations. -/
structure TPlan where
  acc : Acc
  va : Nat := 0
  write : Bool := false
  judge : List (Nat × Nat) := []
  ops : List PendOp := []

/-- The cause with which a thread stops the issue: checks 1, 2 and 4, else the judgement (spec/07 R224). -/
def Mach.planTrap (m : Mach) (tid : Nat) (p : TPlan) : Option Nat :=
  let t := m.thr tid
  match p.acc with
  | .trap c => some c
  | _ => if p.judge.any (fun r => m.racy t r.1 r.2) && !((m.wave? t.wave).any fun w => w.inexact) then some 0x28 else none

/-- An all-or-nothing store of a tile meets a reader hold (spec/15 R378). -/
def Mach.aonHeld (m : Mach) (o : PendOp) : Bool := o.kind == .wide && (o.metaLoc o.va).any m.tileHeld

/-- A judged access issues when it could perform at once (log 22). -/
def Mach.planHeld (m : Mach) (tid : Nat) (p : TPlan) : Bool :=
  let t := m.thr tid
  p.judge != [] && (p.ops.any fun o => !t.clearNext o || m.rangeHolds t.core (m.eff t.launch).fdom o || m.aonHeld o)

/-- A step-3, 5 or 6 failure parks the thread. -/
def TPlan.park (p : TPlan) (tid : Nat) : Option ParkReq :=
  match p.acc with
  | .park lock cause kind level page => some ⟨tid, lock, cause, kind, level, page, false, p.write, p.va⟩
  | _ => none

/-- Addresses that the walks of an access start from. -/
def TPlan.walks (p : TPlan) : List Nat :=
  p.va :: p.ops.flatMap fun o => if o.line.isSome then o.va :: o.parts.map fun r => r.1 else []

/-- What the walks of an access that passes its checks leave. -/
def Mach.planWalks (m : Mach) (q : Quarter) (p : TPlan) (t : Option TlbEnt) : Mach :=
  match t with
  | some t => (((p.walks.map page4).eraseDups).foldl (fun m va => m.walkFix q.core (m.eff q.launch) va) m).fill q.core t
  | none => m

/-- The quarter takes the cause of its lowest failing thread, precisely; a race posts its event (spec/06 R190, R192). -/
def Mach.planRaise (m : Mach) (q : Quarter) (h : Hdr) (id cause : Nat) (va : Nat → Nat) : Mach :=
  let t := m.thr id
  let m := if cause = 0x28 then (m.postEvent (m.eff q.launch) 2 t.core (m.launch q.launch).rcb (va id)).1 else m
  m.raiseQ q cause h.flag.toNat va

/-- The access of one thread that performs, or misses: its flight enters. `stat` is the status register of a `.tm` form. -/
def Mach.planIssue (m : Mach) (q : Quarter) (h : Hdr) (i : Instr) (iss : Nat) (shift : Bool) (stat : Option Spec)
    (g : Nat → Flight → Flight) (tid : Nat) (p : TPlan) : Mach :=
  match p.acc with
  | .ok _ _ e =>
    (m.planWalks q p e).addFlight q h i iss tid [tid] p.ops shift false (g tid)
  | .miss transit =>
    let (m, w) := if transit then (m, 5) else m.tierMiss (m.thr tid) p.va
    m.addFlight q h i iss tid [tid] [] shift false fun f =>
      { f with writes := match stat with
          | some s => [(tid, [(s, w)])]
          | none => [] }
  | _ => m

/-- Threads whose walk met an error take 0x30 once the others have performed (spec/06 R190, spec/08 R238). -/
def Mach.planEcc (m : Mach) (q : Quarter) (h : Hdr) (i : Instr) (iss tid : Nat) (p : TPlan) : Mach :=
  match p.acc with
  | .ecc pa => (m.logErr 0x30 q.core pa).addFlight q h i iss tid [tid] [] false true fun f => { f with failed := some (0x30, p.va) }
  | _ => m

/-- The judged accesses of an issue perform in it, in thread order (log 22). -/
def Mach.planPerform (sys : Sys) (m : Mach) (iss : Nat) (judged : List Nat)
    (wide : Mach → Thread → Flight → PendOp → Mach) (fin : Mach → Flight → Mach) : Mach :=
  let fs := m.flights.filter fun f => f.iss == iss && judged.contains f.owner
  fs.foldl (fun m f => m.performAll sys f.owner f.uid wide fin) m

/-- ONE ISSUE OF ACCESSES, one for each active thread. -/
def Mach.memIssue (sys : Sys) (m : Mach) (h : Hdr) (i : Instr) (shift : Bool) (stat : Option Spec)
    (plan : Nat → Thread → TPlan) (wide : Mach → Thread → Flight → PendOp → Mach) (fin : Mach → Flight → Mach)
    (g : Nat → Flight → Flight) : Mach :=
  m.withQ fun q =>
    let ps := q.active.map fun p => (p.2, plan (m.fr p.1) (m.thr p.2))
    let va := fun id => match ps.find? fun p => p.1 == id with
      | some p => p.2.va
      | none => 0
    if ps.any fun p => m.planHeld p.1 p.2 then m.waitQ q .flags
    else
      let bad := ps.filterMap fun p => (m.planTrap p.1 p.2).map fun c => (p.1, c)
      match m.inOrder (bad.map fun p => p.1) with
      | id :: _ => m.planRaise q h id (look 0 bad id) va
      | [] =>
        let parks := ps.filterMap fun p => p.2.park p.1
        if parks.any fun p => m.inFlight p.tid then m.waitQ q .flags
        else if parks ≠ [] ∧ !m.sumpRoom q.core (m.eff q.launch).fdom parks then m.waitSump q parks
        else
          let iss := m.next
          let m := (m.take 1).parkAll q.core (m.eff q.launch).fdom q.pc q.hdr h.flag.toNat parks
          let m := ps.foldl (fun m p => m.planIssue q h i iss shift stat g p.1 p.2) m
          let m := ps.foldl (fun m p => m.planEcc q h i iss p.1 p.2) m
          let m := m.planPerform sys iss ((ps.filter fun p => p.2.judge != []).map fun p => p.1) wide fin
          (if ps.all fun p => p.2.acc.isOk && p.2.judge == [] then m else m.settleIssue iss).goOn q.id iss h.look.toNat

/-- The lowest active thread (spec/05 R145; log 23). -/
def Mach.lowestOf (m : Mach) (q : Quarter) : Nat := (m.inOrder q.tids).headD 0

/-- ONE ISSUE FOR THE WHOLE QUARTER under the operands of its lowest active thread (spec/15 R376-R378): any failure is
taken by the whole quarter, and a replayable fault parks every active thread. -/
def Mach.tileIssue (sys : Sys) (m : Mach) (q : Quarter) (h : Hdr) (i : Instr) (shift : Bool) (p : TPlan)
    (wide : Mach → Thread → Flight → PendOp → Mach) (fin : Mach → Flight → Mach) (g : Flight → Flight) : Mach :=
  let id := m.lowestOf q
  if m.planHeld id p then m.waitQ q .flags
  else match m.planTrap id p with
    | some c => m.planRaise q h id c fun _ => p.va
    | none => match p.acc with
      | .ok _ _ e =>
        let iss := m.next
        let m := ((m.planWalks q p e).take 1).addFlight q h i iss id q.tids p.ops shift false g
        let m := if p.judge = [] then m else m.performAll sys id (iss + 1) wide fin
        m.goOn q.id iss h.look.toNat
      | .ecc pa => (m.logErr 0x30 q.core pa).raiseQ q 0x30 h.flag.toNat fun _ => p.va
      | _ =>
        let parks := q.tids.filterMap fun t => p.park t
        if q.tids.any m.inFlight then m.waitQ q .flags
        else if !m.sumpRoom q.core (m.eff q.launch).fdom parks then m.waitSump q parks
        else m.parkAll q.core (m.eff q.launch).fdom q.pc q.hdr h.flag.toNat parks

/-! ### Loads and stores (spec/15 R362-R368) -/

/-- A range cut at multiples of 8 bytes: address and length of each piece (spec/07 R205). -/
def words8 (va len : Nat) : List (Nat × Nat) :=
  if len = 0 then [(va, 0)]
  else (List.range ((va + len - 1) / 8 - va / 8 + 1)).map fun i =>
    let lo := Nat.max va (8 * (va / 8 + i))
    (lo, Nat.min (va + len) (8 * (va / 8 + i) + 8) - lo)

/-- Aligned pieces of at most 8 bytes (spec/07 R205). -/
def pieces (len : Nat) : List (Nat × Nat) := if len ≤ 8 then [(0, len)] else [(0, 8), (8, 8)]

/-- Effective addresses (spec/15 R363). -/
def eaGlobal (t : Thread) (fr : Nat) (a : Spec) (off : BitVec 15) : Nat := (t.rdPair fr a + off.signExtend 64).toNat
def eaScratch (t : Thread) (fr : Nat) (a : Spec) (off : BitVec 15) : Nat := (t.rd fr a + off.signExtend 32).toNat

/-- Loads at `.t`, `.q` and `.w` use the read cache (spec/15 R366). -/
def cachedAt (sc : Scope) : Bool := !scopeK sc

/-- The ranges of an access that are judged and stamped. -/
def Mach.judged (m : Mach) (t : Thread) (a : Acc) (len : Nat) : List (Nat × Nat) :=
  if m.checked t && a.isOk && raceLoc a.loc a.attr then [(a.loc, len)] else []

/-- Line of a global access (spec/06 R180). -/
def Mach.lineOf (m : Mach) (t : Thread) (va : Nat) : Option (Nat × Nat) := some ((m.eff t.launch).fdom, va / 64)

def Mach.globalPlan (sys : Sys) (m : Mach) (t : Thread) (va len : Nat) (need : Need) (tm : Bool) (kind : Nat → Nat → OpKind)
    (sc : Scope) : TPlan :=
  let acc := globalAcc sys m t.core (m.eff t.launch) va len need tm false
  let j := m.judged t acc len
  { acc := acc, va := va, write := need.writes, judge := j,
    ops := if acc.isOk then (pieces len).map fun p =>
        { oid := 0, uid := 0, kind := kind p.1 p.2, tag := p.1, loc := acc.loc + p.1, len := p.2, stampOn := j != [],
          line := m.lineOf t (va + p.1), scope := sc, va := va + p.1 }
      else [] }

def Mach.scratchPlan (m : Mach) (t : Thread) (off len : Nat) (write : Bool) (kind : Nat → Nat → OpKind) (sc : Scope) :
    TPlan :=
  let acc := scratchAcc m t off len len
  let j := m.judged t acc len
  { acc := acc, va := off, write := write, judge := j,
    ops := if acc.isOk then (pieces len).map fun p =>
        { oid := 0, uid := 0, kind := kind p.1 p.2, tag := p.1, loc := acc.loc + p.1, len := p.2, stampOn := j != [],
          scope := sc, va := off + p.1 }
      else [] }

/-- Data words of a loaded value (spec/15 R365). -/
def loadWords (sz : MSize) (bs : List Byte) : List Word :=
  match sz with
  | .i8 => [(BitVec.ofNat 8 (ofBytes bs)).signExtend 32]
  | .n8 => [wN (ofBytes (bs.take 1))]
  | .i16 => [(BitVec.ofNat 16 (ofBytes bs)).signExtend 32]
  | .n16 => [wN (ofBytes (bs.take 2))]
  | sz => bytesWords sz.regs bs

/-- The bytes a flight has read, pieces in order. -/
def Flight.bytes (f : Flight) : List Byte := (sortBy (fun a b => decide (a.1 ≤ b.1)) f.got).flatMap fun p => p.2

/-- The status register of a `.tm` form (spec/15 R367). -/
def statReg (tm : Bool) (sz : MSize) (d : Spec) : Option Spec := if tm then some (spAt d sz.regs) else none

def statZero (tm : Bool) (sz : MSize) (d : Spec) : List (Spec × Word) := if tm then [(spAt d sz.regs, 0)] else []

/-- The bytes of a store's data (spec/15 R365). -/
def storeBytes (t : Thread) (fr : Nat) (d : Spec) (sz : MSize) : List Byte := (wordsBytes (t.rdN fr d sz.regs)).take sz.bytes

/-- What the instructions of this chapter do when their operations have performed. -/
def memFin (m : Mach) (f : Flight) : Mach :=
  match f.instr with
  | .ld _ sz tm _ d _ _ => m.setFlight (f.answer f.owner d (loadWords sz f.bytes) (statZero tm sz d))
  | .lds _ sz _ d _ _ => m.setFlight (f.answer f.owner d (loadWords sz f.bytes) [])
  | .st _ sz tm _ d _ _ => m.setFlight { f with writes := [(f.owner, statZero tm sz d)] }
  | .atom _ _ ty _ d _ _ => m.setFlight (f.answer f.owner d (bytesWords ty.regs f.bytes) [])
  | _ => m

/-- A form without wide steps; a flight that needs nothing more. -/
def noWide (m : Mach) (_ : Thread) (_ : Flight) (_ : PendOp) : Mach := m
def keep (_ : Nat) (f : Flight) : Flight := f

def execLd (h : Hdr) (sz : MSize) (tm : Bool) (sc : Scope) (d a : Spec) (off : BitVec 15) := onMach fun sys mc =>
  mc.memIssue sys h (.ld h sz tm sc d a off) true (statReg tm sz d)
    (fun fr t => mc.globalPlan sys t (eaGlobal t fr a off) sz.bytes .r tm (fun _ _ => .load (cachedAt sc)) sc) noWide memFin keep

def execSt (h : Hdr) (sz : MSize) (tm : Bool) (sc : Scope) (d a : Spec) (off : BitVec 15) := onMach fun sys mc =>
  mc.memIssue sys h (.st h sz tm sc d a off) false (statReg tm sz d)
    (fun fr t => mc.globalPlan sys t (eaGlobal t fr a off) sz.bytes .w tm
      (fun j n => .store (((storeBytes t (fr + 8) d sz).drop j).take n)) sc) noWide memFin keep

def execLds (h : Hdr) (sz : MSize) (sc : Scope) (d a : Spec) (off : BitVec 15) := onMach fun sys mc =>
  mc.memIssue sys h (.lds h sz sc d a off) true none
    (fun fr t => mc.scratchPlan t (eaScratch t fr a off) sz.bytes false (fun _ _ => .load false) sc) noWide memFin keep

def execSts (h : Hdr) (sz : MSize) (sc : Scope) (d a : Spec) (off : BitVec 15) := onMach fun sys mc =>
  mc.memIssue sys h (.sts h sz sc d a off) false none
    (fun fr t => mc.scratchPlan t (eaScratch t fr a off) sz.bytes true
      (fun j n => .store (((storeBytes t (fr + 8) d sz).drop j).take n)) sc) noWide memFin keep

/-! ### Atomics, fences, prefetch (spec/15 R369-R374) -/

def Mach.atomPlan (sys : Sys) (m : Mach) (t : Thread) (va : Nat) (ty : AType) (kind : OpKind) (acq : Bool) (sc : Scope) :
    TPlan :=
  let acc := globalAcc sys m t.core (m.eff t.launch) va ty.bytes .rw false true
  { acc := acc, va := va, write := true,
    ops := if acc.isOk then
        [{ oid := 0, uid := 0, kind := kind, loc := acc.loc, len := ty.bytes,
           stampOn := m.checked t && raceLoc acc.loc acc.attr, line := m.lineOf t va, scope := sc, rel := true,
           acq := acq, va := va }]
      else [] }

/-- A register operand of an atomic as a number. -/
def atomWord (t : Thread) (fr : Nat) (s : Spec) (ty : AType) : Nat := ofBytes (wordsBytes (t.rdN fr s ty.regs))

def execAtom (h : Hdr) (op : AOp) (ty : AType) (sc : Scope) (d a b : Spec) := onMach fun sys mc =>
  mc.memIssue sys h (.atom h op ty sc d a b) true none
    (fun fr t => mc.atomPlan sys t (t.rdPair fr a).toNat ty
      (.atom op ty (atomWord t (fr + 8) b ty) (atomWord t (fr + 16) d ty)) true sc) noWide memFin keep

def execRed (h : Hdr) (op : AOp) (ty : AType) (sc : Scope) (a b : Spec) := onMach fun sys mc =>
  mc.memIssue sys h (.red h op ty sc a b) false none
    (fun fr t => mc.atomPlan sys t (t.rdPair fr a).toNat ty (.red op ty (atomWord t (fr + 8) b ty)) false sc) noWide memFin keep

def execFence (h : Hdr) (sem : FSem) (sc : Scope) := onMach fun sys mc =>
  mc.memIssue sys h (.fence h sem sc) false none
    (fun _ _ => { acc := .ok 0 0 none,
                  ops := [{ oid := 0, uid := 0, kind := .fence (sem != .acq) (sem != .rel), scope := sc,
                            rel := sem != .acq, acq := sem != .rel }] }) noWide memFin keep

/-- A prefetch (spec/15 R374): a failure is dropped, a tier-managed page posts its event under `.tm`, and otherwise the
line is loaded. -/
def Mach.prfPlan (sys : Sys) (m : Mach) (t : Thread) (va : Nat) (tm : Bool) (sc : Scope) : TPlan :=
  match globalAcc sys m t.core (m.eff t.launch) va 1 .r tm false with
  | .ok loc _ e =>
    { acc := .ok loc 0 e, va := va,
      ops := [{ oid := 0, uid := 0, kind := .fetchLine (cachedAt sc), loc := loc / 64 * 64, len := 64,
                line := m.lineOf t va, scope := sc, va := va / 64 * 64 }] }
  | .miss tr => { acc := .miss tr, va := va }
  | _ => { acc := .ok 0 0 none, va := va }

def execPrf (h : Hdr) (tm : Bool) (sc : Scope) (a : Spec) (off : BitVec 15) := onMach fun sys mc =>
  mc.memIssue sys h (.prf h tm sc a off) false none (fun fr t => mc.prfPlan sys t (eaGlobal t fr a off) tm sc) noWide memFin keep

/-! ### Tiles (spec/15 R375-R378) -/

def tileBytes (sz : BitVec 3) : Nat := 64 * 2 ^ sz.toNat

/-- The checks of several parts of one access, in the order of spec/06 R189 and R190: an alignment, then any other trap,
then an error in a walk, then a fault that parks, then all pass. -/
def accAll (as : List Acc) : Acc :=
  match as.find? fun a => a == .trap 0x2C with
  | some a => a
  | none => match as.find? fun a => match a with | .trap _ => true | _ => false with
    | some a => a
    | none => match as.find? fun a => match a with | .ecc _ => true | _ => false with
      | some a => a
      | none => match as.find? fun a => !a.isOk with
        | some a => a
        | none => as.headD (.trap 0x22)

/-- The address of the part whose outcome stands for all. -/
def vaOf (va : Nat) (ps : List (Nat × Acc)) : Nat :=
  let acc := accAll (ps.map fun p => p.2)
  ((ps.find? fun p => p.2 == acc).map fun p => p.1).getD va

/-- A tile with metadata lies in near memory (spec/15 R376). -/
def nearOnly (a : Acc) : Acc :=
  match a with
  | .ok l at_ e => if attrFar at_ || attrRem at_ then .trap 0x22 else .ok l at_ e
  | a => a

/-- Sector moves of a tile, one step each: a load and a store (spec/15 R378). -/
def tileOps (src dst len va : Nat) (line : Nat → Option (Nat × Nat)) (stamp win : Bool) : List PendOp :=
  (List.range (len / 64)).map fun j =>
    { oid := 0, uid := 0, kind := .move, tag := j, loc := src + 64 * j, len := 64, loc2 := dst + 64 * j, len2 := 64,
      stampOn := stamp, line := line (va + 64 * j), va := va + 64 * j, win := win }

/-- A scratch offset of a sharing window. -/
def inWindow (off : Nat) : Bool := decide (0x1000000 ≤ off)

def Mach.ldtPlan (sys : Sys) (m : Mach) (t : Thread) (va off : Nat) (sz : BitVec 3) (md : Bool) : TPlan :=
  let len := tileBytes sz
  let e := m.eff t.launch
  let g := globalAcc sys m t.core e va len .r false false
  let s := scratchAcc m t off len 64
  let ma := nearOnly (globalAcc sys m t.core e (metaVa va) 64 .r false false)
  let parts := if md then [(va, nearOnly g), (off, s), (metaVa va, ma)] else [(va, g), (off, s)]
  let acc := accAll (parts.map fun p => p.2)
  let js := m.judged t s len
  { acc := acc, va := vaOf va parts,
    judge := if acc.isOk then m.judged t g len ++ js else [],
    ops := if !acc.isOk then [] else if md then
        [{ oid := 0, uid := 0, kind := .move, loc := g.loc, len := len, loc2 := s.loc, len2 := len,
           stampOn := js != [], line := m.lineOf t va, va := va, win := inWindow off, parts := [(metaVa va, ma.loc, 64)] }]
      else tileOps g.loc s.loc len va (m.lineOf t) (js != []) (inWindow off) }

def Mach.sttPlan (sys : Sys) (m : Mach) (t : Thread) (va off : Nat) (sz : BitVec 3) (aon : Bool) : TPlan :=
  let len := tileBytes sz
  let e := m.eff t.launch
  let g := globalAcc sys m t.core e va len .w false false
  let s := scratchAcc m t off len 64
  let ma := nearOnly (globalAcc sys m t.core e (metaVa va) 64 .w false false)
  let parts := if aon then [(va, nearOnly g), (off, s), (metaVa va, ma)] else [(va, g), (off, s)]
  let acc := accAll (parts.map fun p => p.2)
  let jg := m.judged t g len
  { acc := acc, va := vaOf va parts, write := true,
    judge := if acc.isOk then jg ++ m.judged t s len else [],
    ops := if !acc.isOk then [] else if aon then
        [{ oid := 0, uid := 0, kind := .wide, loc := s.loc, len := len, loc2 := g.loc, len2 := len,
           stampOn := jg != [], line := m.lineOf t va, va := va, win := inWindow off, parts := [(metaVa va, ma.loc, 64)] }]
      else tileOps s.loc g.loc len va (m.lineOf t) (jg != []) (inWindow off) }

/-- VERSION plus 1, as an all-or-nothing store or drain of a thread leaves it (spec/07 R216). -/
def Mach.newVersion (m : Mach) (t : Thread) (o : PendOp) (vaddr meta_ : Nat) : Mach :=
  let m := m.eccFix t.core meta_ 8
  (m.threadStore t (m.eff t.launch).fdom o meta_ (metaVa vaddr) (toBytes (m.num meta_ 4 + 1) 4)).retryTile meta_

/-- An all-or-nothing store (spec/07 R216): every sector, and VERSION plus 1, in one step. -/
def Mach.storeAon (m : Mach) (t : Thread) (o : PendOp) (vaddr loc meta_ : Nat) (bs : List Byte) : Mach :=
  (m.threadStore t (m.eff t.launch).fdom o loc vaddr bs).newVersion t o vaddr meta_

/-- The one step of an all-or-nothing `stt`; it waits for an `ldt` that holds the tile (spec/15 R378). -/
def sttWide (m : Mach) (t : Thread) (_ : Flight) (o : PendOp) : Mach :=
  match o.metaLoc o.va with
  | none => m.opDone t o []
  | some ml =>
    if m.tileHeld ml then m
    else if badRange m o.loc o.len then m.opEcc t o o.loc
    else if m.eccBad ml 8 then m.opEcc t o ml
    else ((m.eccFix t.core o.loc o.len).storeAon t o o.va o.loc2 ml (m.bytes o.loc o.len)).opDone t o []

def execLdt (h : Hdr) (sz : BitVec 3) (md : Bool) (d a : Spec) (off : BitVec 15) := onMach fun sys mc =>
  mc.withQ fun q =>
    let t := mc.thr (mc.lowestOf q)
    mc.tileIssue sys q h (.ldt h sz md d a off) false
      (mc.ldtPlan sys t (eaGlobal t mc.free a off) (t.rd (mc.free + 8) d).toNat sz md) noWide memFin fun f => f

def execStt (h : Hdr) (sz : BitVec 3) (aon : Bool) (d a : Spec) (off : BitVec 15) := onMach fun sys mc =>
  mc.withQ fun q =>
    let t := mc.thr (mc.lowestOf q)
    mc.tileIssue sys q h (.stt h sz aon d a off) false
      (mc.sttPlan sys t (eaGlobal t mc.free a off) (t.rd (mc.free + 8) d).toNat sz aon) sttWide memFin fun f => f

/-! ### Sharing windows (spec/06 R178, R179; spec/15 R379, R380) -/

def Mach.setShare (m : Mach) (s : ShareTab) : Mach :=
  { m with shares := s :: m.shares.filter fun u => !(u.grove == s.grove && u.launch == s.launch) }

/-- The effect of a `gjoin` of a wave as member `k`: the new machine, or the cause. -/
def Mach.gjoin (m : Mach) (grove launch wave k : Nat) : Except Nat Mach :=
  if k > 23 then .error 0x22
  else match m.share? grove launch with
    | none =>
      if (m.shares.filter fun s => s.grove == grove).length ≥ 8 then .error 0x2B
      else .ok (m.setShare { grove := grove, launch := launch, members := [(k, wave)] })
    | some s => match s.members.find? fun p => p.2 == wave with
      | some p => if p.1 = k then .ok m else .error 0x2B
      | none =>
        if s.members.any (fun p => p.1 == k) || s.closing.any (fun p => p.1 == k) then .error 0x2B
        else .ok (m.setShare { s with members := s.members ++ [(k, wave)] })

def execGjoin (h : Hdr) (a : Spec) := onMach fun _ mc => mc.withQ fun q =>
  let id := mc.lowestOf q
  let t := mc.thr id
  if mc.leaving t.wave then mc.waitQ q .flags
  else match mc.gjoin (coreGrove q.core) q.launch t.wave (t.rd mc.free a).toNat with
    | .error c => mc.raiseQ q c h.flag.toNat fun _ => 0
    | .ok m =>
      let iss := m.next
      ((m.take 1).addFlight q h (.gjoin h a) iss id q.tids [] false false fun f => f).goOn q.id iss h.look.toNat

/-- A withdrawal of a wave's entry begins. -/
def Mach.withdraw (m : Mach) (wave : Nat) : Mach :=
  { m with shares := m.shares.map fun s => { s with closing := s.closing ++ s.members.filter fun p => p.2 == wave } }

/-- The withdrawal completes: no later access passes the window check, and the number is free again. -/
def Mach.withdrawn (m : Mach) (wave : Nat) : Mach :=
  { m with shares := m.shares.map fun s =>
      { s with members := s.members.filter fun p => p.2 != wave
               closing := s.closing.filter fun p => p.2 != wave } }

/-- Some access through a sharing window that has not performed touches the scratch of a wave. -/
def Mach.scratchBusy (m : Mach) (w : Wave) : Bool :=
  m.threads.any fun t => t.pend.any fun o => (t.wave != w.id || o.window) &&
    (overlap o.loc o.len w.scrAt w.scrBytes || overlap o.loc2 o.len2 w.scrAt w.scrBytes)

/-- A table whose launch has no wave left in the grove is freed (spec/06 R178). -/
def Mach.dropShares (m : Mach) : Mach :=
  { m with shares := m.shares.filter fun s => s.closing != [] || m.waves.any fun w =>
      w.launch == s.launch && !w.exited && w.core.any fun k => coreGrove k == s.grove }

/-- The withdrawals of waves that have exited complete, as a `gleave` does (spec/06 R179). -/
def Mach.closeShares (m : Mach) : Mach :=
  let ws := m.waves.filter fun w => w.exited && m.leaving w.id && !m.scratchBusy w
  if ws = [] then m else (ws.foldl (fun m w => m.withdrawn w.id) m).dropShares

/-- `gleave` performs when every access that was issued through the window has performed. -/
def gleaveWide (m : Mach) (t : Thread) (_ : Flight) (o : PendOp) : Mach :=
  match m.wave? t.wave with
  | some w => if m.scratchBusy w then m else (m.withdrawn w.id).opDone t o []
  | none => m.opDone t o []

def execGleave (h : Hdr) := onMach fun _ mc => mc.withQ fun q =>
  let id := mc.lowestOf q
  let iss := mc.next
  let m := (mc.take 1).withdraw (mc.thr id).wave
  let op : PendOp := { oid := 0, uid := 0, kind := .wide, reads := false, writes := false }
  (m.addFlight q h (.gleave h) iss id q.tids [op] false false fun f => f).goOn q.id iss h.look.toNat

/-! ### The fibre CAM (spec/15 R381-R384) -/

def Mach.cam? (m : Mach) (core : Nat) : Option Cam := m.cams.find? fun c => c.core == core

/-- The CAM of the core as its owner sees it; a launch that does not own it sees none. -/
def Mach.camOf (m : Mach) (core launch : Nat) : Option Cam := (m.cam? core).filter fun c => c.launch == launch

def Mach.setCam (m : Mach) (c : Cam) : Mach := { m with cams := c :: m.cams.filter fun u => u.core != c.core }

/-- Table entries from the bytes read. -/
def camEntries : Nat → List Byte → List (Option (Word × Word))
  | 0, _ => []
  | n + 1, bs =>
    let k := wN (ofBytes (bs.take 4))
    (if k = 0xFFFFFFFF then none else some (k, wN (ofBytes ((bs.drop 4).take 4)))) :: camEntries n (bs.drop 8)

/-- The load of `fibld` in one step: entries from FIRST on, the others kept or invalidated. -/
def camLoad (old : List (Option (Word × Word))) (first : Nat) (es : List (Option (Word × Word))) :
    List (Option (Word × Word)) :=
  (List.range 256).map fun i => if first ≤ i ∧ i < first + es.length then es.getD (i - first) none else old.getD i none

def camValid (es : List (Option (Word × Word))) : Nat := (es.filter Option.isSome).length

/-- `fibld` completes its reads: the CAM is replaced in one step and every active thread receives the count. -/
def fibldFin (m : Mach) (f : Flight) : Mach :=
  match f.instr with
  | .fibld _ clr d _ _ =>
    let first := nth f.nums 0
    let count := nth f.nums 1
    let old := match m.camOf f.core f.launch with
      | some c => if clr then [] else c.entries
      | none => []
    let es := camLoad old first (camEntries count f.bytes)
    let f := f.tids.foldl (fun f t => f.answer t d [wN (camValid es)] []) f
    (m.setCam { core := f.core, launch := f.launch, entries := es }).setFlight f
  | _ => m

def Mach.fibldPlan (m : Mach) (t : Thread) (off cw : Nat) : TPlan :=
  let first := bits cw 0 8
  let count := bits cw 8 9
  if first + count > 256 then { acc := .trap (if off % 8 = 0 then 0x22 else 0x2C), va := off }
  else if count = 0 then { acc := if off % 8 = 0 then .ok 0 0 none else .trap 0x2C, va := off,
                           ops := [{ oid := 0, uid := 0, kind := .load false }] }
  else
    let acc := scratchAcc m t off (8 * count) 8
    { acc := acc, va := off, judge := m.judged t acc (8 * count),
      ops := (words8 off (8 * count)).map fun p =>
        { oid := 0, uid := 0, kind := .load false, tag := p.1 - off, loc := acc.loc + (p.1 - off), len := p.2, va := p.1 } }

def execFibld (h : Hdr) (clr : Bool) (d a b : Spec) := onMach fun sys mc => mc.withQ fun q =>
  let t := mc.thr (mc.lowestOf q)
  let cw := (t.rd (mc.free + 4) b).toNat
  mc.tileIssue sys q h (.fibld h clr d a b) true (mc.fibldPlan t (t.rd mc.free a).toNat cw) noWide fibldFin
    fun f => { f with nums := [bits cw 0 8, bits cw 8 9] }

/-- The two words of a probe (spec/15 R383). -/
def camProbe (c : Option Cam) (key mask : Word) : List Word :=
  match c with
  | none => [0, wN (2 ^ 30)]
  | some c =>
    let hits := (enum c.entries).filterMap fun p => p.2.bind fun e =>
      if (e.1 ^^^ key) &&& mask = 0 then some (p.1, e.2) else none
    match hits with
    | [] => [0, 0]
    | h :: _ => [h.2, wN (2 ^ 31 + hits.length * 2 ^ 8 + h.1)]

def execFibprb (h : Hdr) (mk : Option Spec) (d a : Spec) := onMach fun _ mc =>
  mc.portOp h (.fibprb h mk d a) d fun _ fr t =>
    camProbe (mc.camOf t.core t.launch) (t.rd fr a) (match mk with | some k => t.rd (fr + 4) k | none => 0xFFFFFFFF)

end Sys2Proof.Machine
end

