-- ==== Sys2Proof/Machine/Control.lean ====
section
/-! DEFINITION. Majors 0x00 to 0x03, 0x05 and 0x06 (spec/12): branches, calls and returns, reform, yield, exit, spawn,
join, nop and breakpoints. -/

namespace Sys2Proof.Machine

/-- The target of a format-B branch (spec/10 R278). -/
def target (pc : Pc) (off : BitVec 33) : Pc := pc + 8 * off.signExtend 57

/-! ### Branches (spec/12 R299, R300) -/

/-- Threads that an instruction sends carry the record that a failing fetch would undo; a fall-through does not. -/
def Mach.sentFrom (m : Mach) (q : Quarter) (id : Nat) (pc : Pc) (fall : Bool) : Option Sender :=
  if fall && pc == q.pc + 8 then none else some (senderOf q (m.thr id))

/-- A branch whose active threads want `tgt`, with its lead. -/
def Mach.branch (m : Mach) (q : Quarter) (tgt : Nat → Pc) (lead : Pc) (fall : Bool) : Mach :=
  (m.used).disperse q (q.tids.map fun t => (t, tgt t)) lead fun id pc => m.sentFrom q id pc fall

/-- `brz` and `brnz`: `takes` says which words branch. The threads that fall through stay as the quarter; inside a handler those that go
where the lowest slot's does (spec/12 R300, R313). -/
def Mach.condBranch (m : Mach) (r : Spec) (off : BitVec 33) (takes : Word → Bool) : Mach :=
  m.withQ fun q =>
    let go := q.active.map fun p => (p.2, takes ((m.thr p.2).rd (m.fr p.1) r))
    let tgt := fun id => if look false go id then target q.pc off else q.pc + 8
    let lead := if (m.thr q.lowest).isHandler then tgt q.lowest
      else if go.any (fun p => !p.2) then q.pc + 8 else target q.pc off
    m.branch q tgt lead true

def execBra (_h : Hdr) (off : BitVec 33) := onMach fun _ mc => mc.withQ fun q =>
  mc.branch q (fun _ => target q.pc off) (target q.pc off) false
def execBrz (_h : Hdr) (r : Spec) (off : BitVec 33) := onMach fun _ mc => mc.condBranch r off fun w => w == 0
def execBrnz (_h : Hdr) (r : Spec) (off : BitVec 33) := onMach fun _ mc => mc.condBranch r off fun w => w != 0

/-- A pair of operands of each active thread. -/
def Mach.pairOps (m : Mach) (q : Quarter) (a : Spec) : List (Nat × DWord) :=
  q.active.map fun p => (p.2, (m.thr p.2).rdPair (m.fr p.1) a)

/-- A pair that is no program counter: a bit of [63:57] is set (spec/12 R299). -/
def badPc (d : DWord) : Bool := d.toNat ≥ 2 ^ 57
def toPc (d : DWord) : Pc := d.setWidth 57

/-- `brx`: the threads whose pair is no program counter take 0x0A at the `brx`; the others branch. -/
def execBrx (h : Hdr) (a : Spec) := onMach fun _ mc => mc.withQ fun q =>
  let ps := mc.pairOps q a
  let bad := (ps.filter fun p => badPc p.2).map fun p => p.1
  let m := if bad = [] then mc else mc.raiseT q bad 0x0A h.flag.toNat fun _ => 0
  match m.quarter? q.id with
  | none => m.used
  | some q => m.branch q (fun id => toPc (look 0 ps id)) (toPc (look 0 ps q.lowest)) false

/-! ### Calls (spec/12 R301-R303) -/

/-- The quarter takes what a fetch for all its threads failed with, at the instruction at its pc (spec/06 R190), or waits for a line of
another device. -/
def Mach.fetchFail (sys : Sys) (m : Mach) (q : Quarter) (flag va : Nat) (f : Fetch) : Mach :=
  match f with
  | .ok _ _ => m
  | .far va loc => (m.askLine sys q.core (m.eff q.launch).fdom 0 va loc).waitQ q .flags
  | .trap c => (m.forgetFar q.core 0).raiseQ q c flag fun _ => va
  | .ecc pa => ((m.forgetFar q.core 0).logErr 0x30 q.core pa).raiseQ q 0x30 flag fun _ => va
  | .park l c k lv pg =>
    let ps := q.tids.map fun t => (⟨t, l, c, k, lv, pg, true, false, va⟩ : ParkReq)
    if !m.sumpRoom q.core (m.eff q.launch).fdom ps then m.waitSump q ps
    else m.parkAll q.core (m.eff q.launch).fdom q.pc q.hdr flag ps

/-- What a caller must be able to push: its return entry, and for a widen call what its plan names. -/
def Mach.callNeed (m : Mach) (f : FnHdr) (t : Thread) : Nat := if f.kind = 1 then (m.widenPlan f t).need else t.pushNeed

/-- The stack checks of one caller: 0x57, then those of spec/06 R189. -/
def callTls (sys : Sys) (m : Mach) (f : FnHdr) (t : Thread) : TlsRes :=
  let need := m.callNeed f t
  if need = 0 then .ok
  else if t.tlsFree < need then .trap 0x57 0
  else tlsCheck sys m t t.tlsTop need

/-- The call of the callers of one quarter, all checks of the call itself passed: caller by caller. -/
def callEach (sys : Sys) (m : Mach) (q : Quarter) (h : Hdr) (f : FnHdr) (entry : Pc) : Mach :=
  let m := if f.kind = 0 then m else m.ungang q
  let m := (m.inOrder q.tids).foldl (fun m id =>
    match callTls sys m f (m.thr id) with
    | .ok =>
      if f.kind = 0 then
        (pushRet sys m id { retva := q.pc + 8, kind := 0 }).modThr id fun t => { t with sameDepth := t.sameDepth + 1 }
      else if f.kind = 1 then widenCaller sys m q f entry id
      else gatherCaller sys m q f entry id
    | r => m.tlsFail q id h.flag.toNat r) m
  m.jump q.id entry fun _ => none

/-- A call of a quarter whose callers name one entry. -/
def callAt (sys : Sys) (m : Mach) (q : Quarter) (h : Hdr) (entry : DWord) : Mach :=
  let e := m.eff q.launch
  let fl := h.flag.toNat
  if q.tids.any fun t => (m.thr t).isHandler then m.raiseQ q 0x76 fl fun _ => 0
  else if q.tids.any fun t => !m.quiet (m.thr t) then m.waitQ q .flags
  else match fetchWord sys m q.core e (q.pc + 8).toNat with
    | .ok w _ =>
      if !isHeader w then m.raiseQ q 0x0A fl fun _ => 0
      else if badPc entry then m.raiseQ q 0x54 fl fun _ => 0
      else
        let fh := fetchWord sys m q.core e (entry.toNat + 2 ^ 57 - 8)
        match fh, fetchWord sys m q.core e entry.toNat with
        | .ok wh _, .ok we _ =>
          let f := fnHdr wh
          match f.check (m.launch q.launch).ver (isHeader we) (q.tids.map fun t => (m.thr t).rgv) (q.tids.map fun t => (m.thr t).widthDepth) with
          | some c => m.raiseQ q c fl fun _ => 0
          | none =>
            -- a stack check of a caller that would park needs room in the sump
            let parks := q.tids.filterMap fun t => match callTls sys m f (m.thr t) with
              | .park p => some p
              | _ => none
            if parks ≠ [] ∧ !m.sumpRoom q.core e.fdom parks then m.waitSump q parks
            else if q.tids.any fun t => tlsHeld sys m (m.thr t) (m.thr t).tlsTop (m.callNeed f (m.thr t)) then
              (q.tids.foldl (fun m t => tlsAsk sys m (m.thr t) (m.thr t).tlsTop (m.callNeed f (m.thr t))) m).waitQ q .flags
            else callEach sys m q h f (toPc entry)
        | .ok _ _, fe => m.fetchFail sys q fl entry.toNat fe
        | fh, _ => m.fetchFail sys q fl (entry.toNat - 8) fh
    | f => m.fetchFail sys q fl (q.pc + 8).toNat f

def execCallDirect (h : Hdr) (off : BitVec 33) := onMach fun sys mc => mc.withQ fun q =>
  callAt sys mc q h ((target q.pc off).setWidth 64)

/-- `call vT`: callers of other entries than the lowest slot's are filed at the `call` itself (spec/12 R301). -/
def execCallReg (h : Hdr) (a : Spec) := onMach fun sys mc => mc.withQ fun q =>
  let ps := mc.pairOps q a
  let lead := look 0 ps q.lowest
  let away := (ps.filter fun p => p.2 != lead).map fun p => p.1
  if q.tids.any fun t => (mc.thr t).isHandler then mc.raiseQ q 0x76 h.flag.toNat fun _ => 0
  else
    let m := if away = [] then mc else mc.ungang q
    let m := (mc.inOrder away).foldl (fun m id =>
      ((m.detach id).modThr id fun t => { t with hdr := q.hdr }).fileMid id q.pc) m
    match m.quarter? q.id with
    | none => m
    | some q => (callAt sys m q h lead).used

/-! ### Passing a `join` (spec/05 R173) -/

/-- A `join` learns the pair and the view of each child at its exit (spec/07 R222). -/
def Mach.joinLearn (m : Mach) (t : Thread) : Mach :=
  if !m.checked t then m
  else t.kids.foldl (fun m k => match m.wave? k with
    | some w => m.modWave t.wave fun b => w.view.foldl (fun b p => b.learnPair p.1 p.2) (b.learnPair w.number w.ph)
    | none => m) m

/-- The thread passes its `join` (spec/05 R173, spec/07 R222). -/
def Mach.joinPass (m : Mach) (q : Quarter) (flag id : Nat) : Mach :=
  let t := m.thr id
  let m := t.kids.foldl (fun m k => m.acquire id 6 (.thread k)) m
  (m.joinLearn t).modThr id fun t => { (t.uncarry q.pc flag) with kids := [] }

/-! ### `ret` (spec/12 R305) -/

/-- What `ret` does for a thread. -/
inductive RetKind where
  | pop | widen (call : Nat) | gather (call : Nat) | fold (call : Nat) | bad
deriving DecidableEq, Repr

def Mach.retKind (m : Mach) (t : Thread) : RetKind :=
  match t.rets with
  | [] => match t.role with
    | .widen c => .widen c
    | .gather c => .gather c
    | _ => .bad
  | e :: _ =>
    if e.kind = 0 then .pop
    else if e.kind = 1 ∧ e.k = 0 then match m.foldCall t.id with
      | some c => .fold c.id
      | none => .bad
    else if e.kind = 2 then match m.lentCall t.id with
      | some c => .gather c.id
      | none => .bad
    else .bad

/-- A `ret` that ends a callee or an iteration waits for the thread's flags and pending writes. -/
def Mach.retWaits (m : Mach) (t : Thread) : Bool :=
  match m.retKind t with
  | .pop | .bad => false
  | _ => !m.quiet t

/-- A `ret` that ends a callee waits for the thread's live spawned waves (spec/12 R305). -/
def Mach.retJoins (m : Mach) (t : Thread) : Bool :=
  match m.retKind t with
  | .widen _ | .gather _ => true
  | _ => false

/-- The stack ranges that the end of a callee or of a fold iteration touches: its words of a buffer on the stack, and for the last
one the other words of the buffer; each with its length and whether it is read. -/
def Call.bufRanges (c : Call) (i : Nat) (last : Bool) : List (Nat × Nat × Bool) :=
  match c.slotAt i with
  | none => []
  | some va =>
    let n := 4 * c.retc
    (va, n, false) :: if last then [(va - n * i, n * i, true), (va + n, n * (c.w - 1 - i), true)] else []

/-- The stack accesses of a `ret`: its refill, or what the end of a callee, a fold or a lent context touches. -/
def Mach.retRanges (m : Mach) (t : Thread) : List (Nat × Nat × Bool) :=
  let save := (t.saveAt.map fun x => (x.1, x.2, true)).toList
  match t.refillAt with
  | some a => [(a, 16, true)]
  | none => match m.retKind t with
    | .fold c => match m.call? c with
      | some c => let last := decide (c.w ≤ c.iter + 1); c.bufRanges c.iter last ++ if last then save else []
      | none => []
    | .widen c => match m.call? c with
      | some c => c.bufRanges t.widx (decide (c.w ≤ t.widx + c.k) && c.live.all fun i => i == t.id)
      | none => []
    | .gather c => if (m.call? c).any fun c => c.lent then save else []
    | _ => []

def retTls (sys : Sys) (m : Mach) (t : Thread) : TlsRes :=
  (((m.retRanges t).map fun r => tlsCheck sys m t r.1 r.2.1 r.2.2).find? fun r => r != .ok).getD .ok

/-- `ret` for one thread: the machine, and its next pc with the record of the `ret` where it continues. -/
def retOne (sys : Sys) (m : Mach) (q : Quarter) (flag id : Nat) : Mach × Option (Pc × Option Sender) :=
  let t := m.thr id
  match m.retKind t with
  | .pop =>
    (m.modThr id fun t => { t with rets := t.rets.drop 1, sameDepth := t.sameDepth - 1 },
      some ((t.rets.headD {}).retva, some (senderOf q t (some (undoOf t)))))
  | .widen c => (returnWiden sys m t c, none)
  | .gather c => (returnGather sys m t c, none)
  | .fold c => match m.call? c with
    | some cl =>
      let u := { undoOf t with regs := some t.regs, modes := some (t.fmode, t.tmshape, t.mute), call := some cl }
      let (m, next) := endFold sys m id cl
      (m, next.map fun pc => (pc, some (senderOf q t (some u))))
    | none => (m, none)
  | .bad => (m.raiseT q [id] 0x5B flag fun _ => 0, none)

/-- Some threads of the quarter have their stack ranges checked: it waits, threads that fail take their outcome, and `k` goes on with the
rest. A thread that parks has no register result on its way (spec/06 R193). -/
def retStage (sys : Sys) (m : Mach) (q : Quarter) (fl : Nat) (ids : List Nat) (k : Mach → List Nat → Mach) : Mach :=
  let fails := ids.map fun t => (t, retTls sys m (m.thr t))
  let parks := fails.filterMap fun p => match p.2 with
    | .park r => some r
    | _ => none
  if ids.any fun t => (m.retRanges (m.thr t)).any fun r => tlsHeld sys m (m.thr t) r.1 r.2.1 then
    (ids.foldl (fun m t => (m.retRanges (m.thr t)).foldl (fun m r => tlsAsk sys m (m.thr t) r.1 r.2.1) m) m).waitQ q .flags
  else if parks.any fun p => m.inFlight p.tid then m.waitQ q .flags
  else if parks ≠ [] ∧ !m.sumpRoom q.core (m.eff q.launch).fdom parks then m.waitSump q parks
  else k (fails.foldl (fun m p => m.tlsFail q p.1 fl p.2) m) ((fails.filter fun p => p.2 == .ok).map fun p => p.1)

/-- The returns of the threads whose checks have passed; where others of the quarter wait for their children, all of them leave it. -/
def retAll (sys : Sys) (m : Mach) (q : Quarter) (fl : Nat) (late : Bool) (ok : List Nat) : Mach :=
  let m := if ok = [] then m else m.markBusy q.core q.launch
  let r := (m.inOrder ok).foldl (fun (r : Mach × List (Nat × Pc × Option Sender)) id =>
    let (m, n) := retOne sys r.1 q fl id
    (m, match n with
      | some n => r.2 ++ [(id, n)]
      | none => r.2)) (m, [])
  let m := r.1
  match m.quarter? q.id with
  | none => m
  | some q' =>
    let nexts := r.2.map fun n => (n.1, n.2.1)
    if late then
      let m := r.2.foldl (fun m n => m.sendAway n.1 n.2.1 n.2.2) (if nexts = [] then m else m.ungang q')
      match m.quarter? q.id with
      | none => m
      | some q' => m.waitQ q' .join
    else m.disperse q' nexts (look 0 nexts q'.lowest) fun id _ => look none (r.2.map fun n => (n.1, n.2.2)) id

/-- `ret`: refills first, so that what each thread's `ret` does is known; then it waits for what ends with a callee. Threads whose children
live wait as under `join`, and the others return (spec/12 R305, spec/05 R173). -/
def execRet (h : Hdr) := onMach fun sys mc => mc.withQ fun q =>
  let fl := h.flag.toNat
  let empty := q.tids.filter fun t => (mc.thr t).refillAt.isSome
  retStage sys mc q fl empty fun m ok =>
    let m := ok.foldl (fun m id => refill sys m id) m
    match m.quarter? q.id with
    | none => m
    | some q =>
      if q.tids.any fun t => m.retWaits (m.thr t) then m.waitQ q .flags
      else
        let late := q.tids.filter fun t => m.retJoins (m.thr t) && m.liveKids (m.thr t)
        let go := q.tids.filter fun t => !late.contains t
        retStage sys m q fl go fun m ok =>
          let js := ok.filter fun t => m.retJoins (m.thr t) && (m.thr t).kids != []
          let m := js.foldl (fun m id => m.joinPass q fl id) m
          let m := if js = [] then m else m.dropCopies q.core
          retAll sys m q fl (late != []) ok

/-! ### `reform`, `yield`, `exit` (spec/12 R306-R308) -/

/-- The slot a handler thread is bound to. -/
def Mach.boundSlot (m : Mach) (tid : Nat) : Nat :=
  match (m.thr tid).role with
  | .handler s g => match m.trap? g with
    | some t => match t.members.find? fun p => p.2.1 == s with
      | some p => p.1
      | none => 0
    | none => 0
  | _ => 0

/-- The held group that a handler thread is in, and its pc. -/
def Thread.heldIn (t : Thread) : Option (Nat × Pc) :=
  match t.stat with
  | .held g => some (g, t.pc)
  | _ => none

/-- Handler threads held in the alcove of a core, lowest slot first. -/
def Mach.heldHandlers (m : Mach) (core : Nat) : List Nat :=
  ((sortBy (fun a b : Nat × Nat => decide (a.1 ≤ b.1))
    ((m.threads.filter fun t => t.core == core && t.heldIn.isSome).map fun t => (m.boundSlot t.id, t.id)))).map fun p => p.2

/-- The held group with the lowest slot runs next, each thread in its own slot (spec/12 R313); the groups in `last` run when no other is
held. -/
def Mach.runHeld (m : Mach) (core : Nat) (last : List Nat) : Mach :=
  let held := m.heldHandlers core
  let first := match held.filter fun t => !last.contains t with
    | t :: _ => some t
    | [] => held.head?
  match first with
  | none => m
  | some t0 =>
    let t := m.thr t0
    let grp := held.filter fun u => (m.thr u).heldIn == t.heldIn
    let gid := match t.role with
      | .handler _ g => some g
      | _ => none
    let q : Quarter :=
      { id := m.next, core := core, launch := t.launch, rg := t.rg, pc := t.pc, hdr := t.hdr, entered := m.cycle,
        readySince := m.cycle, handler := gid, lastIssue := grp.foldl (fun a u => maxIssue a (m.thr u).lastIssue) none,
        slots := (List.range 8).map fun s => grp.find? fun t => m.boundSlot t == s }
    let m := m.modAll grp fun t => { t with stat := .run q.id }
    { m with quarters := m.quarters ++ [q], next := m.next + 1 }

/-- The groups that are held at a pc are one group (spec/12 R313). -/
def Mach.joinHeld (m : Mach) (core : Nat) (pc : Pc) : Mach × List Nat :=
  let ids := (m.heldHandlers core).filter fun t => (m.thr t).pc == pc
  (m.modAll ids fun t => { t with stat := .held m.next }, ids)

/-- `reform` files every active thread at a + 8; inside a handler the groups held there join the running one, and the next held one
runs. -/
def execReform (_h : Hdr) := onMach fun _ mc => mc.withQ fun q =>
  if q.tids.any fun t => (mc.thr t).isHandler then
    let m := q.tids.foldl (fun m id => m.sendAway id (q.pc + 8) none) mc
    let r := m.joinHeld q.core (q.pc + 8)
    (r.1.take 1).runHeld q.core r.2
  else (mc.inOrder q.tids).foldl (fun m id => m.sendAway id (q.pc + 8) (some (senderOf q (mc.thr id))) true) (mc.ungang q)

/-- `yield`: not ready for 32 cycles (spec/12 R307). -/
def execYield (h : Hdr) := onMach fun _ mc => mc.withQ fun q =>
  if q.tids.any fun t => (mc.thr t).isHandler then mc.raiseQ q 0x76 h.flag.toNat fun _ => 0
  else
    let m := mc.jump q.id (q.pc + 8) fun _ => none
    match m.quarter? q.id with
    | some q => m.setQ { q with yieldUntil := m.cycle + 33 }
    | none => m

/-- Live threads of a barrier unit: the wave's home quarter at level 0, else the wave (spec/12 R309). -/
def Mach.unitThreads (m : Mach) (wave homeQ level : Nat) : List Thread :=
  m.threads.filter fun t => t.wave == wave && t.role == .plain && (level != 0 || t.homeQ == homeQ)

/-- A barrier slot of a thread. -/
def Thread.bar? (t : Thread) (level num : Nat) : Option BarSlot := t.bars.find? fun b => b.level == level && b.num == num

def Thread.setBar (t : Thread) (b : BarSlot) : Thread :=
  { t with bars := b :: t.bars.filter fun u => !(u.level == b.level && u.num == b.num) }

def Thread.dropBar (t : Thread) (level num : Nat) : Thread :=
  { t with bars := t.bars.filter fun u => !(u.level == level && u.num == num) }

/-- The key of a unit at its node: the wave, with the home quarter at the wave level. -/
def unitKey (wave homeQ level : Nat) : Nat := if level = 0 then wave * 4 + homeQ else wave

/-- The place of the node that counts a level's barriers, seen from a core (spec/04 R130). -/
def barPlace (core wave level root : Nat) : Nat :=
  if level = 0 then wave else if level = 1 then coreGrove core else if level = 2 then coreDie core
  else if level = 3 then 0 else root

/-- The scope of a barrier's arrivals and releases (spec/07 R208): its level. -/
def barScope (level : Nat) : Nat := if level = 0 then 2 else level + 3

/-- A unit arrives once every one of its live threads has arrived (spec/12 R309): one message goes up, and the unit's
release counts once in its wave's phase (spec/07 R221, R223; log 24). -/
def Mach.unitCheck (m : Mach) (wave homeQ level num : Nat) : Mach :=
  let ts := m.unitThreads wave homeQ level
  let slots := ts.filterMap fun t => t.bar? level num
  match slots with
  | [] => m
  | b :: _ =>
    if slots.length < ts.length || slots.any fun b => b.phase != .arrived || b.forwarded || b.node != 0 then m
    else
      let t := ts.headD {}
      let m := m.release t (barScope level) (.barrier level num)
      let m := m.modAll (ts.map fun t => t.id) fun t => match t.bar? level num with
        | some b => t.setBar { b with forwarded := true }
        | none => t
      { m with barMsgs := m.barMsgs ++
          [{ level := level, place := barPlace t.core wave level b.root, num := num, unit := unitKey wave homeQ level,
             count := b.count, launch := t.launch, ph := m.phase wave, root := b.root, cycle := m.cycle, core := t.core }] }

/-- Every barrier that the units of a wave are arriving at, looked at again (a thread of them has ended). -/
def Mach.unitsCheck (m : Mach) (wave : Nat) : Mach :=
  let keys := ((m.threads.filter fun t => t.wave == wave && t.role == .plain).flatMap fun t =>
    t.bars.map fun b => (t.homeQ, b.level, b.num)).eraseDups
  keys.foldl (fun m k => m.unitCheck wave k.1 k.2.1 k.2.2) m

/-- The wave exits once its last thread has ended: its release is the last of the wave, its sharing entry is withdrawn, and
what it held on its core is free (spec/05 R157, spec/06 R179). -/
def Mach.waveExit (m : Mach) (wave : Nat) : Mach :=
  match m.wave? wave with
  | none => m
  | some w =>
    if w.live > 0 then m
    else
      let race := (m.eff w.launch).race
      let m := m.setWave { w with exited := true, ph := if race then (w.ph + 1) % 256 else w.ph }
      let m := ((m.withdraw wave).closeShares).dropShares
      { m with rings := m.rings.filter fun r => r.owner != wave }

/-- A thread ends (spec/05 R157). -/
def Mach.endThread (m : Mach) (tid : Nat) : Mach :=
  let w := (m.thr tid).wave
  let m := (m.markBusy (m.thr tid).core (m.thr tid).launch).removeThreads [tid]
  let m := m.modWave w fun w => { w with live := w.live - 1 }
  (m.unitsCheck w).waveExit w

/-- `exit`: 0x76 in a handler, 0x5C in a callee; it waits for flags and pending writes; a thread with children waits for them as under
`join`, one with a held error traps, and the others end (spec/05 R157, spec/08 R234). -/
def execExit (h : Hdr) := onMach fun _ mc => mc.withQ fun q =>
  let fl := h.flag.toNat
  if q.tids.any fun t => (mc.thr t).isHandler then mc.raiseQ q 0x76 fl fun _ => 0
  else if q.tids.any fun t => (mc.thr t).isCallee || (mc.thr t).widthDepth > 0 then mc.raiseQ q 0x5C fl fun _ => 0
  else if q.tids.any fun t => !mc.quiet (mc.thr t) then mc.waitQ q .flags
  else
    let m := (mc.inOrder (q.tids.filter fun t => !mc.liveKids (mc.thr t))).foldl (fun m id =>
      match (m.thr id).errs with
      | e :: r => (m.modThr id fun t => { t with errs := r }).raiseHeld q id e.cause e.va fl
      | [] => m.endThread id) (mc.ungang q)
    match m.quarter? q.id with
    | some q => m.waitQ q .join
    | none => m

/-! ### `spawn` and `join` (spec/12 R314-R316, spec/05 R172, R173) -/

/-- Why a spawn of one thread fails, or what its child wave is. -/
inductive SpawnRes where
  | trap (cause : Nat)
  | park (p : ParkReq)
  | ecc (pa : Nat)
  | far (va loc : Nat)
  | ok
deriving DecidableEq, Repr

def spawnCheck (sys : Sys) (m : Mach) (t : Thread) (entry : DWord) (shape : Nat) (s : Nat) : SpawnRes :=
  let la := m.launch t.launch
  let e := la.eff
  let qpw := bits shape 0 2
  let regs := bits shape 2 6
  let scr := bits shape 8 11
  let base := la.nwaves * (la.qpw + 1) * 8 + 32 * s
  if t.spawnDepth ≥ 8 then .trap 0x58
  else if base + 8 * (qpw + 1) - 1 > 0xFFFFFFFF then .trap 0x58
  else if e.race ∧ la.nwaves + s ≥ 0xFFFFFF then .trap 0x58
  else if shape / 2 ^ 19 ≠ 0 ∨ regs < 2 ∨ 32 < regs ∨ scr > 1024 ∨ 32 * 8 * regs * (qpw + 1) > e.galkb * 1024
      ∨ 256 * scr > e.scrkb * 1024 then .trap 0x59
  else if badPc entry then .trap 0x0A
  else match fetchWord sys m t.core e entry.toNat with
    | .ok w _ => if isHeader w then .ok else .trap 0x0A
    | .far va loc => .far va loc
    | .trap c => .trap c
    | .ecc pa => .ecc pa
    | .park l c k lv pg => .park ⟨t.id, l, c, k, lv, pg, true, false, entry.toNat⟩

/-- The child wave of a spawn: it waits for a core, with the parent's view and the pair that the `spawn` released. -/
def Mach.spawnWave (m : Mach) (t : Thread) (entry : DWord) (shape : Nat) (arg : DWord) : Mach × Word :=
  let la := m.launch t.launch
  let s := la.spawns
  let m := m.release t 6 (.thread m.next)
  let pw := (m.wave? t.wave).getD { id := 0, launch := 0, number := 0, qpw := 0, regs := 2, scr := 0, entry := 0, arg := 0,
                                    baseTid := 0, since := 0 }
  let w : Wave :=
    { id := m.next, launch := t.launch, number := la.nwaves + s, qpw := bits shape 0 2, regs := bits shape 2 6,
      scr := bits shape 8 11, entry := toPc entry, arg := arg, baseTid := la.nwaves * (la.qpw + 1) * 8 + 32 * s,
      since := m.cycle, parent := some t.id, spawnDepth := t.spawnDepth + 1, live := 8 * (bits shape 0 2 + 1),
      view := pw.view }
  let w := if m.checked t then w.learnPair pw.number pw.ph else w
  let m := (m.modLaunch t.launch fun l => { l with spawns := s + 1 }).modThr t.id fun t => { t with kids := t.kids ++ [w.id] }
  ({ m with waves := m.waves ++ [w], next := m.next + 1 }, wN w.number)

def execSpawn (h : Hdr) (d a b c : Spec) := onMach fun sys mc => mc.withQ fun q =>
  let fl := h.flag.toNat
  let ops := q.active.map fun p =>
    let t := mc.thr p.2
    (p.2, t.rdPair (mc.fr p.1) a, (t.rd (mc.fr p.1 + 4) b).toNat, t.rdPair (mc.fr p.1 + 8) c)
  if q.tids.any fun t => (mc.thr t).isHandler then mc.raiseQ q 0x76 fl fun _ => 0
  else if q.tids.any fun t => (mc.thr t).pend != [] then mc.waitQ q .flags
  else
    let parks := ops.filterMap fun o => match spawnCheck sys mc (mc.thr o.1) o.2.1 o.2.2.1 (mc.launch q.launch).spawns with
      | .park p => some p
      | _ => none
    let away := ops.filterMap fun o => match spawnCheck sys mc (mc.thr o.1) o.2.1 o.2.2.1 (mc.launch q.launch).spawns with
      | .far va loc => some (va, loc)
      | _ => none
    if away ≠ [] then (away.foldl (fun m p => m.askLine sys q.core (mc.eff q.launch).fdom 0 p.1 p.2) mc).waitQ q .flags
    else if parks.any fun p => mc.inFlight p.tid then mc.waitQ q .flags
    else if parks ≠ [] ∧ !mc.sumpRoom q.core (mc.eff q.launch).fdom parks then mc.waitSump q parks
    else
      let m := (mc.inOrder q.tids).foldl (fun m id =>
        match ops.find? fun o => o.1 == id with
        | none => m
        | some o =>
          match spawnCheck sys m (m.thr id) o.2.1 o.2.2.1 (m.launch q.launch).spawns with
          | .trap c => (m.forgetFar q.core 0).raiseT q [id] c fl fun _ => if 0x20 ≤ c ∧ c < 0x40 then o.2.1.toNat else 0
          | .ecc pa => ((m.forgetFar q.core 0).logErr 0x30 q.core pa).raiseT q [id] 0x30 fl fun _ => o.2.1.toNat
          | .far _ _ => m
          | .park p => m.parkAll q.core (m.eff q.launch).fdom q.pc q.hdr fl [p]
          | .ok =>
            let (m, n) := m.spawnWave (m.thr id) o.2.1 o.2.2.1 o.2.2.2
            m.modThr id fun t => (t.uncarry q.pc fl).put h d [n]) mc
      (m.used).jump q.id (q.pc + 8) fun _ => none

/-- `join`: threads with live children wait (spec/05 R173). Where others of the quarter pass, they are filed at a + 8 and the quarter waits
without them (DESIGN CHOICE, log 140). -/
def execJoin (h : Hdr) := onMach fun _ mc => mc.withQ fun q =>
  let late := q.tids.filter fun t => mc.liveKids (mc.thr t)
  let pass := q.tids.filter fun t => !late.contains t
  if q.tids.any fun t => (mc.thr t).isHandler then mc.raiseQ q 0x76 h.flag.toNat fun _ => 0
  else if pass = [] then mc.waitQ q .join
  else
    let m := (pass.foldl (fun m id => m.joinPass q h.flag.toNat id) mc).dropCopies q.core
    if late = [] then m.jump q.id (q.pc + 8) fun _ => none
    else
      let m := (m.inOrder pass).foldl (fun m id => m.sendAway id (q.pc + 8) none) (m.ungang q)
      match m.quarter? q.id with
      | some q => m.waitQ q .join
      | none => m

/-! ### `nop` and `brk` (spec/12 R317, R318) -/

def execNop (h : Hdr) := onMach fun _ mc => mc.withQ fun q => mc.onEach q h fun _ _ t => t

def execBrk (h : Hdr) (n : BitVec 24) := onMach fun _ mc => mc.withQ fun q =>
  mc.raiseQ q 0x74 h.flag.toNat fun _ => n.toNat

end Sys2Proof.Machine
end

