-- ==== Sys2Proof/Machine/Special.lean ====
section
/-! DEFINITION. The special functions of spec/14 R349 within the bounds and special values of spec/09 R257. The result inside
a bound is a free value of the implementation (log 20), the same for the same input on every core. -/

namespace Sys2Proof.Machine

/-- Absolute difference of two exact values is at most a bound. -/
def within (x y b : FV) : Bool :=
  let d := FV.add 0 x y.neg
  let d : FV := match d with
    | .num _ m e => .num false m e
    | v => v
  !b.lt d && !d.isNan

/-- One unit in the last place of an FP32 result of this magnitude. -/
def ulp32 (n : Nat) (e : Int) : FV := if n = 0 then .num false 1 (-149) else .num false 1 (max (ilog n 1 + e - 23) (-149))

/-- A bound: units in the last place, an absolute power of two, or the larger of both. -/
inductive Bound where
  | ulps (k : Nat) | abs (p : Int) | either (k : Nat) (p : Int)
deriving DecidableEq, Repr

def Bound.size (b : Bound) (lo : FV) : FV :=
  let u (k : Nat) : FV := match lo with
    | .num _ n e => match ulp32 n e with
      | .num _ m f => .num false (k * m) f
      | v => v
    | v => v
  match b with
  | .ulps k => u k
  | .abs p => .num false 1 p
  | .either k p => if (u k).lt (.num false 1 p) then .num false 1 p else u k

/-- THE RESULT INSIDE A BOUND: the implementation's own where it lies inside for the whole enclosure, else the nearest. -/
def pick (raw : Word) (e : Encl) (b : Bound) : Word :=
  let lo := endFV e.lo e.k
  let hi := endFV e.hi e.k
  let v := dec32 raw
  let small := if e.lo.natAbs ≤ e.hi.natAbs then lo else hi
  let near := e.rne
  if near.toNat % 2 ^ 31 = fp32.infCode then near
  else if !v.isNan && within v lo (b.size small) && within v hi (b.size small) then raw
  else near

/-- A value of [-1, 1] from any word; every value of [-1, 1] is its own (spec/09 R257, the last row of `sfsin`). -/
def unitFree (w : Word) : Word :=
  let v := dec32 w
  if !v.isNan && !(FV.num false 1 0).lt v && !v.lt (.num true 1 0) then w
  else wN (w.toNat / 2 ^ 31 * 2 ^ 31 + 126 * 2 ^ 23 + w.toNat % 2 ^ 23)

def cNan : Word := wN fp32.nanCode
def cInf : Word := wN fp32.infCode
def cNegInf : Word := 0xFF800000
def cOne : Word := 0x3F800000

/-- Is x below or at least an integer. -/
def ltI (x : FV) (i : Int) : Bool := x.lt (ofIntFV i)
def gtI (x : FV) (i : Int) : Bool := (ofIntFV i).lt x

/-- 2^x. -/
def sfE2 (raw : Word) (x : FV) : Word :=
  match x with
  | .nan => cNan
  | .inf s => if s then 0 else cInf
  | _ =>
    if !ltI x 128 then cInf
    else if ltI x (-149) then 0
    else match asInt x with
      | some i => rne32 (.num false 1 i)
      | none =>
        let p := fxExp2 (toFx x)
        pick raw (around p.2 p.1) (if ltI x (-126) then .abs (-149) else .ulps 1)

/-- log2 x. -/
def sfL2 (raw : Word) (x : FV) : Word :=
  match x with
  | .nan => cNan
  | .inf s => if s then cNan else cInf
  | .num s m e =>
    if m = 0 then cNegInf
    else if s then cNan
    else match asPow2 x with
      | some i => rne32 (ofIntFV i)
      | none =>
        let p := scaleQ m 1 e
        pick raw (around (fxLog2 p.1 p.2) 0)
          (if !x.lt (.num false 1 (-1)) && !gtI x 2 then .abs (-22) else .ulps 1)

/-- An enclosure of n / d x 2^e. -/
def ratio (neg : Bool) (n d : Nat) (e : Int) : Encl :=
  let k := ilog n d
  let p := scaleQ n d (-k)
  let v : Int := (p.1 : Int) * fxOne / p.2
  if neg then ⟨-v - 1, -v, k + e⟩ else ⟨v, v + 1, k + e⟩

/-- 1 / x. -/
def sfRcp (raw : Word) (x : FV) : Word :=
  match x with
  | .nan => cNan
  | .inf s => if s then 0x80000000 else 0
  | .num s m e =>
    if m = 0 then (if s then cNegInf else cInf)
    else match asPow2 (.num false m e) with
      | some i => rne32 (.num s 1 (-i))
      | none => pick raw (ratio s 1 m (-e)) (.ulps 1)

/-- Square root of m x 2^e as an enclosure, and whether it is a power of two (x = 4^n). -/
def sqrtEncl (m : Nat) (e : Int) : Encl :=
  let odd := e % 2 = 1
  let n := (if odd then 2 * m else m) * 2 ^ 800
  let k := (if odd then e - 1 else e) / 2
  let r := isqrt n
  ⟨r, r + 1, k⟩

def pow4 (x : FV) : Option Int := (asPow2 x).bind fun i => if i % 2 = 0 then some (i / 2) else none

def sfSqr (raw : Word) (x : FV) : Word :=
  match x with
  | .nan => cNan
  | .inf s => if s then cNan else cInf
  | .num s m e =>
    if m = 0 then (if s then 0x80000000 else 0)
    else if s then cNan
    else match pow4 x with
      | some i => rne32 (.num false 1 i)
      | none => pick raw (sqrtEncl m e) (.ulps 1)

/-- 1 / sqrt x. -/
def sfRsq (raw : Word) (x : FV) : Word :=
  match x with
  | .nan => cNan
  | .inf s => if s then cNan else 0
  | .num s m e =>
    if m = 0 then (if s then cNegInf else cInf)
    else if s then cNan
    else match pow4 x with
      | some i => rne32 (.num false 1 (-i))
      | none =>
        let q := sqrtEncl m e
        pick raw ⟨fxOne * fxOne / q.hi - 1, fxOne * fxOne / q.lo + 1, -q.k⟩ (.ulps 2)

/-- sin and cos in radians. -/
def sfTrig (sin : Bool) (raw : Word) (x : FV) : Word :=
  match x with
  | .nan => cNan
  | .inf _ => cNan
  | .num s m _ =>
    if m = 0 then (if sin then (if s then 0x80000000 else 0) else pick raw ⟨fxOne, fxOne, 0⟩ (.abs (-21)))
    else
      let v := toFx x
      if 2 ^ 16 * fxPi < v.natAbs then unitFree raw
      else
        let r := fxReduce v
        let y := if sin then fxSin r else fxCos r
        pick raw (around y 0) (if (v.natAbs : Int) ≤ fxPi then .abs (-21) else .abs (-19))

/-- e^x as (k, m), for x in fixed point. -/
def fxExpE (x : Int) : Int × Int := fxExp2 (fxDiv x fxLn2)

def sfTanh (raw : Word) (x : FV) : Word :=
  match x with
  | .nan => cNan
  | .inf s => if s then 0xBF800000 else cOne
  | .num s m _ =>
    if m = 0 then (if s then 0x80000000 else 0)
    else if !ltI x 10 then cOne
    else if !gtI x (-10) then 0xBF800000
    else
      let p := fxExpE (2 * toFx x)
      let y := if 0 ≤ p.1 then p.2 * 2 ^ p.1.toNat else p.2 / 2 ^ (-p.1).toNat
      pick raw (around (fxDiv (y - fxOne) (y + fxOne)) 0) (.ulps 2)

/-- 1 / (1 + e^-x) in fixed point. -/
def fxSig (v : Int) : Int :=
  let p := fxExpE (-v)
  let y := if 0 ≤ p.1 then p.2 * 2 ^ p.1.toNat else p.2 / 2 ^ (-p.1).toNat
  fxDiv fxOne (fxOne + y)

def sfSig (raw : Word) (x : FV) : Word :=
  match x with
  | .nan => cNan
  | .inf s => if s then 0 else cOne
  | _ =>
    if !ltI x 24 then cOne
    else if ltI x (-300) then pick raw ⟨0, 2 ^ 10, 0⟩ (.abs (-126))
    else pick raw (around (fxSig (toFx x)) 0) (if ltI x (-87) then .abs (-126) else .ulps 2)

/-- x sig(x). Between -88 and -64 the table states no bound: a free value (log 20). -/
def sfSilu (raw : Word) (x : FV) : Word :=
  match x with
  | .nan => cNan
  | .inf s => if s then pick raw ⟨0, 0, 0⟩ (.abs (-126)) else cInf
  | _ =>
    if gtI x 64 then rne32 x
    else if ltI x (-300) then pick raw ⟨-(2 ^ 10), 0, 0⟩ (.abs (-126))
    else
      let y := fxMul (toFx x) (fxSig (toFx x))
      if ltI x (-88) then pick raw (around y 0) (.abs (-126))
      else if ltI x (-64) then raw
      else pick raw (around y 0) (.either 3 (-24))

/-- The special functions by minor (spec/14 R349). -/
def sfFn (k : Nat) : Word → FV → Word :=
  match k with
  | 0 => sfE2
  | 1 => sfL2
  | 2 => sfRcp
  | 3 => sfRsq
  | 4 => sfSqr
  | 5 => sfTrig true
  | 6 => sfTrig false
  | 7 => sfTanh
  | 8 => sfSig
  | _ => sfSilu

/-- A free value that is no number is the one NaN that is ever produced (spec/09 R242). -/
def oneNan (w : Word) : Word := if (dec32 w).isNan then cNan else w

/-- A special-function instruction's result: FTZI on a, FTZO on d (spec/14 R349). -/
def sfWord (k : Nat) (fm a : Word) : Word :=
  wN (fp32.ftzo fm (sfFn k (oneNan (Config.sfRaw k a)) (in32 fm a)).toNat)

end Sys2Proof.Machine
end

