-- ==== Sys2Proof/Machine/Narrow.lean ====
section
/-! DEFINITION. Majors 0x40, 0x41, 0x48, 0x49 and 0x4C (spec/14 R347-R360): special functions, top-k, the transformed
mean and the narrow conversions. -/

namespace Sys2Proof.Machine

/-! ### Special functions (spec/14 R349) -/

def Mach.sfOp (m : Mach) (h : Hdr) (i : Instr) (k : Nat) (d a : Spec) : Mach :=
  m.portOp h i d fun _ fr t => [sfWord k t.fmode (t.rd fr a)]

def execSfe2 (h : Hdr) (d a : Spec) := onMach fun _ mc => mc.sfOp h (.sfe2 h d a) 0 d a
def execSfl2 (h : Hdr) (d a : Spec) := onMach fun _ mc => mc.sfOp h (.sfl2 h d a) 1 d a
def execSfrcp (h : Hdr) (d a : Spec) := onMach fun _ mc => mc.sfOp h (.sfrcp h d a) 2 d a
def execSfrsq (h : Hdr) (d a : Spec) := onMach fun _ mc => mc.sfOp h (.sfrsq h d a) 3 d a
def execSfsqr (h : Hdr) (d a : Spec) := onMach fun _ mc => mc.sfOp h (.sfsqr h d a) 4 d a
def execSfsin (h : Hdr) (d a : Spec) := onMach fun _ mc => mc.sfOp h (.sfsin h d a) 5 d a
def execSfcos (h : Hdr) (d a : Spec) := onMach fun _ mc => mc.sfOp h (.sfcos h d a) 6 d a
def execSftanh (h : Hdr) (d a : Spec) := onMach fun _ mc => mc.sfOp h (.sftanh h d a) 7 d a
def execSfsig (h : Hdr) (d a : Spec) := onMach fun _ mc => mc.sfOp h (.sfsig h d a) 8 d a
def execSfsilu (h : Hdr) (d a : Spec) := onMach fun _ mc => mc.sfOp h (.sfsilu h d a) 9 d a

/-! ### Scratch parts of a row instruction (spec/14 R350) -/

/-- Checks 1 and 2 of a range that may be empty. -/
def scrPart (m : Mach) (t : Thread) (off len algn : Nat) : Acc :=
  if len = 0 then (if off % algn ≠ 0 then .trap 0x2C else .ok 0 0 none) else scratchAcc m t off len algn

/-- The steps of a row instruction on one of its ranges: 8 bytes each (spec/07 R205), tagged by the number of the range and the offset
in it. A write step replaces its bytes by those that the flight's reads lead to. -/
def rowOps (kind : OpKind) (part : Nat) (a : Acc) (len va : Nat) (stamp : Bool) : List PendOp :=
  (words8 va len).map fun p =>
    { oid := 0, uid := 0, kind := kind, tag := 2 ^ 20 * part + (p.1 - va), loc := a.loc + (p.1 - va), len := p.2, stampOn := stamp,
      va := p.1, reads := false }

def rowReads (part : Nat) (a : Acc) (len va : Nat) : List PendOp := rowOps (.load false) part a len va false


/-- The range of an operation of a row instruction, and its offset there. -/
def PendOp.part (o : PendOp) : Nat := o.tag / 2 ^ 20
def PendOp.off (o : PendOp) : Nat := o.tag % 2 ^ 20

/-- The bytes of one range of a flight. -/
def Flight.piece (f : Flight) (part : Nat) : List Byte :=
  (sortBy (fun a b => decide (a.1 ≤ b.1)) (f.got.filter fun g => g.1 / 2 ^ 20 == part)).flatMap fun g => g.2

/-- The write of a row step: stamps and releases as `sts`. -/
def Mach.rowWrite (m : Mach) (t : Thread) (o : PendOp) (loc : Nat) (bs : List Byte) : Mach :=
  m.threadStore t (m.eff t.launch).fdom o loc o.va bs

/-- A step that writes bytes made from the flight's data over its own range; a narrower write than a word in error needs a
read of it (spec/06 R200). -/
def Mach.rowStep (m : Mach) (t : Thread) (o : PendOp) (bs : List Byte) : Mach :=
  if m.eccBlocks o.loc bs.length then m.opEcc t o o.loc else (m.rowWrite t o o.loc bs).opDone t o []

/-- A step of a range whose bytes are all known. -/
def Mach.rowPiece (m : Mach) (t : Thread) (o : PendOp) (bs : List Byte) : Mach := m.rowStep t o ((bs.drop o.off).take o.len)

/-! ### Top-k (spec/14 R351-R353, spec/09 R265) -/

def tkBits : TkWidth → Nat
  | .w4 => 4
  | .w8 => 8
  | .w16 => 16

/-- N and M of a pattern. -/
def tkNm : TkPat → Nat × Nat
  | .p14 => (1, 4)
  | .p24 => (2, 4)
  | .p28 => (2, 8)
  | .p48 => (4, 8)

def tkMag (k : TkKind) (w code : Nat) : Nat :=
  match k with
  | .sm => code % 2 ^ (w - 1)
  | .s => (sInt w code).natAbs
  | .u => code

/-- Indices ranked first to last: larger magnitude, then lower index. -/
def tkRank (mags : List Nat) : List Nat :=
  (sortBy (fun a b : Nat × Nat => decide (b.2 < a.2) || (a.2 == b.2 && decide (a.1 ≤ b.1))) (enum mags)).map fun p => p.1

/-- Kept indices of a group, ascending. -/
def tkKeep (mags : List Nat) (n : Nat) : List Nat := sortBy (fun a b => decide (a ≤ b)) ((tkRank mags).take n)

/-- Elements packed at `w` bits, and back. -/
def packBits (w : Nat) : List Nat → Nat
  | [] => 0
  | c :: r => c % 2 ^ w + 2 ^ w * packBits w r

def elems (w n : Nat) (row : Nat) : List Nat := (List.range n).map fun i => elemAt row w i

/-- Values and metadata of the group form on a row (spec/14 R352). -/
def topkGroups (p : TkPat) (w : Nat) (k : TkKind) (row : Nat) : Nat × Nat :=
  let n := (tkNm p).1
  let mm := (tkNm p).2
  let gs : List (List Nat × List Nat) := (List.range (512 / w / mm)).map fun g =>
    let es := (List.range mm).map fun j => elemAt row w (g * mm + j)
    let keep := tkKeep (es.map fun c => tkMag k w c) n
    (keep.map fun i => es.getD i 0, keep)
  (packBits w (gs.flatMap fun g => g.1), packBits (Nat.log2 mm) (gs.flatMap fun g => g.2))

/-- Bytes of the metadata of the group form: whole 32-bit words. -/
def topkMeta (p : TkPat) (w : Nat) : Nat := (512 / w / (tkNm p).2 * (tkNm p).1 * Nat.log2 (tkNm p).2 + 31) / 32 * 4

def Mach.topkPlan (m : Mach) (t : Thread) (p : TkPat) (w a b c : Nat) : TPlan :=
  let vlen := 64 * (tkNm p).1 / (tkNm p).2
  let mlen := topkMeta p w
  let pa := scrPart m t a 64 64
  let pb := scrPart m t b vlen vlen
  let pc := scrPart m t c mlen 4
  let acc := accAll [pa, pb, pc]
  let st := m.checked t
  { acc := acc, va := a,
    judge := if acc.isOk then m.judged t pa 64 ++ m.judged t pb vlen ++ m.judged t pc mlen else [],
    ops := if acc.isOk then
        rowReads 0 pa 64 a ++ rowOps .wide 1 pb vlen b st ++ rowOps .wide 2 pc mlen c st else [] }

/-- Kept places of the row form, and whether k is larger than L. -/
def topkRow (w : Nat) (k : TkKind) (l n : Nat) (row : Nat) : List (Nat × Nat) :=
  let es := elems w l row
  let top := (tkRank (es.map fun c => tkMag k w c)).take n
  (top.map fun i => (es.getD i 0, i)) ++ List.replicate (n - l) (0, 0xFFFF)

def rowBytes (w n : Nat) : Nat := (n * w + 7) / 8
def idxAt (w n : Nat) : Nat := 4 * ((n * w + 31) / 32)

/-- The access at a place further on. -/
def Acc.shift (a : Acc) (k : Nat) : Acc :=
  match a with
  | .ok l at_ e => .ok (l + k) at_ e
  | a => a

def Mach.topkRowPlan (m : Mach) (t : Thread) (w a b l n : Nat) : TPlan :=
  let la := rowBytes w l
  let lb := if n = 0 then 0 else idxAt w n + 2 * n
  let pa := scrPart m t a la 4
  let pb := scrPart m t b lb 4
  let acc := accAll [pa, pb]
  { acc := acc, va := a,
    judge := if acc.isOk then m.judged t pa la ++ (if n = 0 then [] else m.judged t pb (rowBytes w n) ++ m.judged t (pb.shift (idxAt w n)) (2 * n))
      else [],
    ops := if acc.isOk then rowReads 0 pa la a ++ (if n = 0 then [] else
        rowOps .wide 1 pb (rowBytes w n) b (m.checked t) ++ rowOps .wide 2 (pb.shift (idxAt w n)) (2 * n) (b + idxAt w n) (m.checked t))
      else [] }

/-- The write steps of `topk`. The bytes between the values and the indices of the row form are not written. -/
def topkWide (m : Mach) (t : Thread) (f : Flight) (o : PendOp) : Mach :=
  let row := ofBytes (f.piece 0)
  match f.instr with
  | .topkGroup _ p w k _ _ _ =>
    let r := topkGroups p (tkBits w) k row
    m.rowPiece t o (if o.part = 1 then toBytes r.1 (64 * (tkNm p).1 / (tkNm p).2) else toBytes r.2 (topkMeta p (tkBits w)))
  | .topkRow _ w k _ _ _ _ =>
    let n := nth f.nums 1
    let ps := topkRow (tkBits w) k (nth f.nums 0) n row
    m.rowPiece t o (if o.part = 1 then toBytes (packBits (tkBits w) (ps.map fun p => p.1)) (rowBytes (tkBits w) n)
      else toBytes (packBits 16 (ps.map fun p => p.2)) (2 * n))
  | _ => m

def topkFin (m : Mach) (f : Flight) : Mach :=
  match f.instr with
  | .topkRow _ _ _ d _ _ _ => m.setFlight (f.answer f.owner d [if nth f.nums 0 < nth f.nums 1 then 1 else 0] [])
  | _ => m

def execTopkGroup (h : Hdr) (p : TkPat) (w : TkWidth) (k : TkKind) (a b c : Spec) := onMach fun sys mc =>
  mc.memIssue sys h (.topkGroup h p w k a b c) false none
    (fun fr t => mc.topkPlan t p (tkBits w) (t.rd fr a).toNat (t.rd (fr + 4) b).toNat (t.rd (fr + 8) c).toNat)
    topkWide topkFin keep

def execTopkRow (h : Hdr) (w : TkWidth) (k : TkKind) (d a b c : Spec) := onMach fun sys mc =>
  let cw (t : Nat) : Nat := match mc.quarter? mc.cur with
    | some q => (((mc.thr t).rd (mc.fr ((look 0 (q.active.map fun p => (p.2, p.1)) t)) + 8) c)).toNat
    | none => 0
  mc.memIssue sys h (.topkRow h w k d a b c) true none
    (fun fr t => mc.topkRowPlan t (tkBits w) (t.rd fr a).toNat (t.rd (fr + 4) b).toNat
      ((t.rd (fr + 8) c).toNat % 65536) ((t.rd (fr + 8) c).toNat / 65536))
    topkWide topkFin fun t f => { f with nums := [cw t % 65536, cw t / 65536] }

/-! ### Narrow conversion (spec/14 R354, R355; spec/09 R249-R252) -/

def srcFmt : QSrc → Fmt
  | .f32 => fp32
  | .bf16 => bf16
  | .f16 => fp16

def srcBytes : QSrc → Nat
  | .f32 => 4
  | _ => 2

def slotBlock (s : DWord) : Nat := if slotBlk16 s then 16 else 32

/-- Source elements as values, FTZI applied. -/
def srcElems (st : QSrc) (fm : Word) (bs : List Byte) (n : Nat) : List FV :=
  (elems (8 * (srcBytes st)) n (ofBytes bs)).map fun c => (srcFmt st).input fm c

/-- The largest magnitude of a block; a NaN ranks above infinity. -/
def amaxOf (xs : List FV) : FV :=
  xs.foldl (fun m x =>
    match m, x with
    | .nan, _ => .nan
    | _, .nan => .nan
    | .inf _, _ => .inf false
    | _, .inf _ => .inf false
    | .num _ ma ea, .num _ mb eb => if (FV.num false ma ea).lt (.num false mb eb) then .num false mb eb else .num false ma ea)
    (.num false 0 0)

/-- Largest finite element of a slot's format, and its exponent (spec/09 R250). -/
def slotTop (s : DWord) : FV :=
  match slotElem s with
  | .int sg w => ofIntFV (intHi sg w)
  | .flt f => f.dec f.maxCode

def slotEmax (s : DWord) : Int :=
  match slotElem s with
  | .int sg w => if sg then (w : Int) - 2 else (w : Int) - 1
  | .flt f => match f.dec f.maxCode with
    | .num _ m e => (Nat.log2 m : Int) + e
    | _ => 0

/-- Quotient of finite positive values as n / d x 2^e. -/
def quot (x y : FV) : Nat × Nat × Int :=
  match x, y with
  | .num _ m e, .num _ n f => (m, n, e - f)
  | _, _ => (0, 1, 0)

def tscaleFV (s : DWord) : FV := fp32.dec (slotTscale s)

/-- The E4M3 scale: amax over the largest element (and TSCALE), rounded up, saturated at 448 (spec/09 R250; a NaN by R249). -/
def e4m3Scale (amax den : FV) : Nat :=
  match amax with
  | .nan => 0x7F
  | .inf _ => 0x7E
  | .num _ m _ => if m = 0 then 0 else let q := quot amax den; e4m3.convQ 2 true false q.1 q.2.1 q.2.2

/-- The scale code of a block (spec/09 R250); 0 when no scale is chosen. -/
def scaleCode (s : DWord) (amax : FV) : Nat :=
  match slotSkind s with
  | 1 => match amax with
    | .num _ m e => if m = 0 then 0x7F else (127 + clampI ((Nat.log2 m : Int) + e - slotEmax s) (-127) 127).toNat
    | _ => 0xFF
  | 2 => e4m3Scale amax (slotTop s)
  | 3 => e4m3Scale amax (FV.mul (slotTop s) (tscaleFV s))
  | _ => 0

/-- The effective scale; `nan` for E8M0 0xFF. -/
def effScale (s : DWord) (code : Nat) : FV :=
  match slotSkind s with
  | 1 => if code = 0xFF then .nan else .num false 1 ((code : Int) - 127)
  | 2 => e4m3.dec code
  | 3 => FV.mul (e4m3.dec code) (tscaleFV s)
  | _ => tscaleFV s

/-- FTZO on a 16-bit or wider element. -/
def slotFtzo (s : DWord) (fm : Word) (c : Nat) : Nat :=
  match slotElem s with
  | .flt f => elemCont s (f.ftzo fm (elemCode s c))
  | _ => c

/-- One element of `cvtq`. -/
def cvtqElem (s : DWord) (fm : Word) (code : Nat) (x : FV) : Nat :=
  if slotSkind s = 0 then slotFtzo s fm (slotConv s (fmRm fm) (fmNsat fm) x).1
  else match effScale s code, x with
    | .num _ 0 _, _ => 0
    | .nan, _ => (slotConv s (fmRm fm) true .nan).1
    | y, .num neg m e => let q := quot (.num false m e) y; slotFtzo s fm (slotConvQ s (fmRm fm) true neg q.1 q.2.1 q.2.2).1
    | _, x => (slotConv s (fmRm fm) true x).1

/-! The containers of `n` elements of a row from `e0` on, `c` bits each, and the padding of a row of 6-bit containers: what the row write of
a thread changes (spec/14 R355). -/

/-- The first byte, and the byte after the last one. -/
def contLo (c e0 : Nat) : Nat := e0 * c / 8
def contHi (c e0 n : Nat) : Nat := ((e0 + n) * c + 7) / 8

/-- The containers change a word of the row, or replace it as a whole. -/
def contTouch (c e0 n w : Nat) : Bool := (decide (e0 * c < 64 * (w + 1)) && decide (64 * w < (e0 + n) * c)) || (c == 6 && w == 7)
def contWhole (c e0 n w : Nat) : Bool :=
  decide (e0 * c ≤ 64 * w) && decide (64 * (w + 1) ≤ if c = 6 ∧ e0 + n = 85 then 512 else (e0 + n) * c)

/-- A word of the row at a location that the row write changes in part is in error. -/
def Mach.contBad (m : Mach) (loc c e0 n : Nat) : Bool :=
  (List.range 8).any fun w => contTouch c e0 n w && !contWhole c e0 n w && m.eccDouble.contains (loc + 8 * w)

/-- The row write of a thread: one step, which changes the bytes of its containers, and the last byte of a row with padding. -/
def rowCont (part : Nat) (a : Acc) (va c e0 n : Nat) (stamp : Bool) : PendOp :=
  { oid := 0, uid := 0, kind := .wide, tag := 2 ^ 20 * part, loc := a.loc + contLo c e0, len := contHi c e0 n - contLo c e0,
    loc2 := if c = 6 then a.loc + 63 else 0, len2 := if c = 6 then 1 else 0, stampOn := stamp, va := va + contLo c e0, reads := false }

/-- A row with elements replaced from `e0` on, its padding zero. -/
def setElems (row cont : Nat) : Nat → List Nat → Nat
  | _, [] => if cont = 6 then row % 2 ^ 510 else row
  | e, v :: r => setElems (setElem row cont e v) cont (e + 1) r

/-- One element of `rquant`: the new container and whether it saturated (spec/09 R252). -/
def rquantElem (s : DWord) (fm : Word) (old new c : Nat) : Nat × Bool :=
  if old = 0xFF ∨ new = 0xFF then ((slotConv s (fmRm fm) true .nan).1, false)
  else slotConv s (fmRm fm) true ((slotDec s c).scale ((old : Int) - new))

def Mach.cvtqPlan (m : Mach) (t : Thread) (s : DWord) (st : QSrc) (a b e0 : Nat) : TPlan :=
  let n := slotBlock s
  let len := n * (srcBytes st)
  let pa := scrPart m t a len (srcBytes st)
  let pb := scrPart m t b 64 64
  let acc := accAll ([pa, pb] ++ if e0 + n > rowCap (slotCont s) then [.trap 0x22] else [])
  { acc := acc, va := a,
    judge := if acc.isOk then m.judged t pa len ++ m.judged t pb 64 else [],
    ops := if acc.isOk then rowReads 0 pa len a ++ [rowCont 1 pb b (slotCont s) e0 n (m.checked t)] else [] }

/-- Elements of a `cvtq` or `bscale` block with their scale code. -/
def blockOf (s : DWord) (fm : Word) (st : QSrc) (bs : List Byte) : Nat × List FV :=
  let xs := srcElems st fm bs (slotBlock s)
  (scaleCode s (amaxOf xs), xs)

/-- The row write of `cvtq` or `rquant`: its elements go into the row as it stands, whose word in error it must not change in part. -/
def Mach.contStep (m : Mach) (t : Thread) (o : PendOp) (c e0 : Nat) (es : List Nat) : Mach :=
  let at_ := o.loc - contLo c e0
  if m.contBad at_ c e0 es.length then m.opEcc t o o.loc
  else
    let m := ((List.range 8).filter (contTouch c e0 es.length)).foldl (fun m w => m.eccFix t.core (at_ + 8 * w) 8) m
    let bs := toBytes (setElems (m.num at_ 64) c e0 es) 64
    let m := m.rowWrite t o o.loc ((bs.drop (contLo c e0)).take o.len)
    (if c = 6 then m.rowWrite t o (at_ + 63) (bs.drop 63) else m).opDone t o []

/-- The new containers of `rquant`, and how many saturated. The row words that it has read begin at the byte of its first container. -/
def rquantRow (s : DWord) (f : Flight) : List Nat × Nat :=
  let fm := wN (nth f.nums 0)
  let e0 := nth f.nums 1
  let row := ofBytes (f.piece 0) * 2 ^ (8 * contLo (slotCont s) e0)
  let ys := (List.range (slotBlock s)).map fun j =>
    rquantElem s fm (nth f.nums 2) (nth f.nums 3) (elemAt row (slotCont s) (e0 + j))
  (ys.map fun y => y.1, (ys.filter fun y => y.2).length)

/-- The row writes of `cvtq` and `rquant`, each one step. `nums` holds FMODE at issue, e0, and the scale codes. -/
def narrowWide (m : Mach) (t : Thread) (f : Flight) (o : PendOp) : Mach :=
  let fm := wN (nth f.nums 0)
  match f.instr with
  | .cvtq _ st sl _ _ _ _ =>
    let s := m.fslot f.launch sl.toNat
    let (code, xs) := blockOf s fm st (f.piece 0)
    m.contStep t o (slotCont s) (nth f.nums 1) (xs.map fun x => cvtqElem s fm code x)
  | .rquant _ sl _ _ _ _ =>
    let s := m.fslot f.launch sl.toNat
    m.contStep t o (slotCont s) (nth f.nums 1) (rquantRow s f).1
  | _ => m

def narrowFin (m : Mach) (f : Flight) : Mach :=
  match f.instr with
  | .cvtq _ st sl d _ _ _ =>
    m.setFlight (f.answer f.owner d [wN (blockOf (m.fslot f.launch sl.toNat) (wN (nth f.nums 0)) st (f.piece 0)).1] [])
  | .rquant _ sl d _ _ _ => m.setFlight (f.answer f.owner d [wN (rquantRow (m.fslot f.launch sl.toNat) f).2] [])
  | .bscale _ st sl d _ =>
    m.setFlight (f.answer f.owner d [wN (blockOf (m.fslot f.launch sl.toNat) (wN (nth f.nums 0)) st (f.piece 0)).1] [])
  | _ => m

/-- The quarter takes a cause of the instruction itself, before it performs. -/
def Mach.orTrap (m : Mach) (h : Hdr) (cause : Nat) (bad : Quarter → Bool) (k : Mach) : Mach :=
  m.withQ fun q => if bad q then m.raiseQ q cause h.flag.toNat fun _ => 0 else k

def Mach.thrFr (m : Mach) (tid : Nat) : Nat := m.fr (m.slotOf tid)

def execCvtq (h : Hdr) (st : QSrc) (sl : BitVec 3) (d a b c : Spec) := onMach fun sys mc =>
  mc.orTrap h 0x42 (fun q => !slotConvOk (mc.fslot q.launch sl.toNat))
    (mc.memIssue sys h (.cvtq h st sl d a b c) true none
      (fun fr t => mc.cvtqPlan t (mc.fslot t.launch sl.toNat) st (t.rd fr a).toNat (t.rd (fr + 4) b).toNat
        (t.rd (fr + 8) c).toNat)
      narrowWide narrowFin fun id f =>
        { f with nums := [(mc.thr id).fmode.toNat, ((mc.thr id).rd (mc.thrFr id + 8) c).toNat] })

def Mach.rquantPlan (m : Mach) (t : Thread) (s : DWord) (a e0 : Nat) : TPlan :=
  let pa := scrPart m t a 64 64
  let c := slotCont s
  let n := slotBlock s
  let acc := accAll (pa :: if e0 + n > rowCap c then [.trap 0x22] else [])
  { acc := acc, va := a, judge := if acc.isOk then m.judged t pa 64 else [],
    ops := if acc.isOk then rowReads 0 (pa.shift (contLo c e0)) (contHi c e0 n - contLo c e0) (a + contLo c e0) ++
        [rowCont 1 pa a c e0 n (m.checked t)] else [] }

def execRquant (h : Hdr) (sl : BitVec 3) (d a b c : Spec) := onMach fun sys mc =>
  mc.orTrap h 0x42 (fun q => let s := mc.fslot q.launch sl.toNat; !slotConvOk s || slotSkind s != 1)
    (mc.memIssue sys h (.rquant h sl d a b c) true none
      (fun fr t => mc.rquantPlan t (mc.fslot t.launch sl.toNat) (t.rd fr a).toNat (t.rd (fr + 4) b).toNat)
      narrowWide narrowFin fun id f =>
        let t := mc.thr id
        let cw := (t.rd (mc.thrFr id + 8) c).toNat
        { f with nums := [t.fmode.toNat, (t.rd (mc.thrFr id + 4) b).toNat, bits cw 0 8, bits cw 8 8] })

def Mach.bscalePlan (m : Mach) (t : Thread) (s : DWord) (st : QSrc) (a : Nat) : TPlan :=
  let len := slotBlock s * (srcBytes st)
  let pa := scrPart m t a len (srcBytes st)
  { acc := pa, va := a, judge := m.judged t pa len,
    ops := if pa.isOk then rowReads 0 pa len a else [] }

def execBscale (h : Hdr) (st : QSrc) (sl : BitVec 3) (d a : Spec) := onMach fun sys mc =>
  mc.orTrap h 0x42 (fun q => !slotOk (mc.fslot q.launch sl.toNat))
    (mc.memIssue sys h (.bscale h st sl d a) true none
      (fun fr t => mc.bscalePlan t (mc.fslot t.launch sl.toNat) st (t.rd fr a).toNat)
      narrowWide narrowFin fun id f => { f with nums := [(mc.thr id).fmode.toNat] })

/-! ### Transformed mean (spec/14 R356-R360, spec/09 R258-R264) -/

/-- The pair a launch finds on a core for a family; families 0 to 3 have none. -/
def Mach.pairOf? (m : Mach) (core launch fam : Nat) : Option (List Byte) :=
  if fam < 4 then some []
  else (m.pairs.find? fun p => p.core == core && p.p == fam - 4 && p.launch == launch).map fun p => p.bytes

/-- An operation of one thread: its words, or a cause. With TMD set a violation gives the NaN result. -/
def tmThread (m : Mach) (t : Thread) (f : List Byte → TmRes (List Word)) (nan : Nat → List Word) : Except Nat (List Word) :=
  match m.pairOf? t.core t.launch (tmFam t.tmshape) with
  | none => .error 0x44
  | some p => match f p with
    | .ok ws => .ok ws
    | .viol n => if fmTmd t.fmode then .ok (nan n) else .error 0x41

def TmRes.map {α β : Type} (f : α → β) : TmRes α → TmRes β
  | .ok v => .ok (f v)
  | .viol n => .viol n

/-- A port instruction that fails in single threads: those take their cause alone and the others go on (spec/08 R227). -/
def Mach.portTrapOp (m : Mach) (h : Hdr) (i : Instr) (d : Spec) (f : Nat → Thread → Except Nat (List Word)) : Mach :=
  m.withQ fun q =>
    let iss := m.next
    let rs := q.active.map fun p => (p.2, f (m.fr p.1) (m.thr p.2))
    let m' := rs.foldl (fun m' r => match r.2 with
      | .ok ws => m'.addFlight q h i iss r.1 [r.1] [] true false fun g => g.answer r.1 d ws []
      | .error _ => m') (m.take 1)
    let fails (c : Nat) := rs.filterMap fun r => match r.2 with
      | .error k => if k = c then some r.1 else none
      | .ok _ => none
    let m' := m'.raiseT q (fails 0x41) 0x41 h.flag.toNat fun _ => 0
    let m' := m'.raiseT q (fails 0x44) 0x44 h.flag.toNat fun _ => 0
    m'.goOn q.id iss h.look.toNat

def nanState (n : Nat) : List Word := (tmNan n).words
def nanWord (_ : Nat) : List Word := [0x7FC00000]

def execTment (h : Hdr) (d a : Spec) := onMach fun _ mc => mc.portTrapOp h (.tment h d a) d fun fr t =>
  tmThread mc t (fun p => (tmEntry t.tmshape p (t.rd fr a)).map TmSt.words) nanState
def execTmmrg (h : Hdr) (d a b : Spec) := onMach fun _ mc => mc.portTrapOp h (.tmmrg h d a b) d fun fr t =>
  tmThread mc t (fun _ => (tmMerge t.tmshape (tmOf (t.rdN fr a 3)) (tmOf (t.rdN (fr + 4) b 3))).map TmSt.words) nanState
def execTmscl (h : Hdr) (d a b : Spec) := onMach fun _ mc => mc.portTrapOp h (.tmscl h d a b) d fun fr t =>
  tmThread mc t (fun _ => (tmScl t.tmshape (tmOf (t.rdN fr a 3)) (tmOf (t.rdN (fr + 4) b 3))).map fun w => [w]) nanWord
def execTmext (h : Hdr) (d a : Spec) := onMach fun _ mc => mc.portTrapOp h (.tmext h d a) d fun fr t =>
  tmThread mc t (fun p => (tmExit t.tmshape p (tmOf (t.rdN fr a 3))).map fun w => [w]) nanWord

/-- The state of every slot of the quarter, the empty state where none is active. -/
def Mach.slotStates (m : Mach) (q : Quarter) (a : Spec) : List TmSt :=
  (enum q.slots).map fun p => match p.2 with
    | some t => tmOf ((m.thr t).rdN (m.fr p.1) a 3)
    | none => {}

/-- `tmred` (spec/14 R358): one reduction under the lowest active thread's TMSHAPE and TMD. -/
def execTmred (h : Hdr) (d a : Spec) := onMach fun _ mc => mc.withQ fun q =>
  let t0 := mc.thr (mc.lowestOf q)
  let sts := mc.slotStates q a
  let all := treeReduce (tmMergeOk t0.tmshape) {} sts
  match tmThread mc t0 (fun _ => if tmShapeBad t0.tmshape then .viol (Nat.min (sts.foldl (fun n s => n + s.n) 0) 0xFFFFFFFF)
      else .ok all.words) nanState with
  | .error c => mc.raiseQ q c h.flag.toNat fun _ => 0
  | .ok ws => mc.portOp h (.tmred h d a) d fun _ _ _ => ws

/-- Line pieces of a range of global addresses. -/
def linePieces (va : Nat) : Nat → Nat → List (Nat × Nat)
  | 0, _ => []
  | n + 1, len =>
    if len = 0 then []
    else
      let k := Nat.min len (64 - va % 64)
      (va, k) :: linePieces (va + k) n (len - k)

/-- `tmld` reads 1,568 bytes as a plain load of the lowest active thread (spec/14 R359). -/
def Mach.tmldPlan (sys : Sys) (m : Mach) (t : Thread) (va : Nat) : TPlan :=
  let e := m.eff t.launch
  let ps := linePieces va 26 1568
  let as := ps.map fun p => globalAcc sys m t.core e p.1 (if p.1 = va then 8 else 1) .r false false
  let acc := accAll as
  let za := ps.zip as
  { acc := acc, va := vaOf va (za.map fun p => (p.1.1, p.2)),
    judge := if acc.isOk then za.flatMap fun p => m.judged t p.2 p.1.2 else [],
    ops := if acc.isOk then za.flatMap fun p => (words8 p.1.1 p.1.2).map fun w =>
        { oid := 0, uid := 0, kind := .load true, tag := w.1 - va, loc := p.2.loc + (w.1 - p.1.1), len := w.2,
          line := m.lineOf t w.1, va := w.1 }
      else [] }

def tmldFin (m : Mach) (f : Flight) : Mach :=
  match f.instr with
  | .tmld _ p _ _ =>
    if pairGood f.bytes then
      { m with pairs := { core := f.core, p := p.toNat, launch := f.launch, bytes := f.bytes } ::
          m.pairs.filter fun x => !(x.core == f.core && x.p == p.toNat) }
    else m.failAll [f] 0x41
  | _ => m

def execTmld (h : Hdr) (p : BitVec 2) (a : Spec) (off : BitVec 15) := onMach fun sys mc => mc.withQ fun q =>
  let t := mc.thr (mc.lowestOf q)
  mc.tileIssue sys q h (.tmld h p a off) false (mc.tmldPlan sys t (eaGlobal t mc.free a off)) noWide tmldFin fun f => f

end Sys2Proof.Machine
end

