-- ==== Sys2Proof/Machine/Faults.lean ====
section
/-! DEFINITION. Fault queues (spec/06 R181-R183, R193-R196): posting, the header line that is watched, invalidations (R187),
and the resuming of parked threads; accesses that perform, copies that drop, instructions that complete. -/

namespace Sys2Proof.Machine

/-! ### Fault domains -/

def Mach.dom? (m : Mach) (fd : Nat) : Option FaultDom := m.doms.find? fun d => d.fdom == fd
def Mach.setDom (m : Mach) (d : FaultDom) : Mach :=
  { m with doms := d :: m.doms.filter fun u => u.fdom != d.fdom }

/-- The domain of a launch as it is accepted: its header line is watched from now on. -/
def Mach.openDom (m : Mach) (e : Eff) : Mach :=
  let base := e.fqbase * 4096
  if m.doms.any fun d => d.fdom == e.fdom && d.base == base && d.log2 == e.fqlog2 then m
  else m.setDom { fdom := e.fdom, base := base, log2 := e.fqlog2, accepted := 0, invSeen := m.num (base + 24) 4 }

/-! ### Posting (spec/06 R183, R195) -/

/-- The fields of a fault-queue entry as a number. -/
def faultEntry (p : FaultPost) (seq : Nat) : Nat :=
  p.va % 2 ^ 64 + p.rcb % 2 ^ 64 * 2 ^ 64 + seq % 2 ^ 32 * 2 ^ 128 + p.core % 2 ^ 16 * 2 ^ 160 + p.cause % 2 ^ 7 * 2 ^ 176
    + (if p.write then 2 ^ 183 else 0) + (if p.fetch then 2 ^ 184 else 0) + p.level % 8 * 2 ^ 185 + p.kind % 16 * 2 ^ 188
    + p.nthr % 256 * 2 ^ 192

/-- What a post says when it is written: a sump record's lowest thread and its thread count. FETCH, KIND and LEVEL are those of the fault
that made the record, WRITE that of the lowest thread (DESIGN CHOICE, log 141): the spec settles VA and RCB alone for a thread that joins
it before the entry is posted. -/
def Mach.fresh (m : Mach) (p : FaultPost) : Option FaultPost :=
  match p.owner with
  | .sump r => (m.sump.find? fun u => u.id == r).map fun u =>
      { p with nthr := u.threads.length, va := u.va, write := u.write, rcb := u.rcb }
  | _ => some p

/-- FAULT_ENTRY_POST: the oldest waiting entry of the domain is written, if there is room. A header in error stops posting (spec/08 R238). -/
def execFaultEntryPost (fd : Nat) := onMach fun _ mc =>
  match mc.dom? fd, mc.posts.find? (fun p => p.fdom == fd && p.seq.isNone) with
  | some d, some p =>
    match mc.fresh p with
    | none => { mc with posts := mc.posts.erase p }
    | some p' =>
      match (wordsOf d.base 64).find? mc.eccDouble.contains with
      | some w => if d.stopped then mc else (mc.setDom { d with stopped := true }).logErr 0x30 portCore w
      | none =>
        let d := { d with stopped := false }
        let d := if d.used then d else { d with used := true, accepted := mc.num (d.base + 4) 4 }
        let tail := mc.num d.base 4
        if (tail + 2 ^ 32 - d.accepted) % 2 ^ 32 < 2 ^ d.log2 then
          let m := mc.devStore (d.base + 64 + 32 * (tail % 2 ^ d.log2)) (toBytes (faultEntry p' tail) 32)
          let m := ((m.devStore d.base (toBytes (tail + 1) 4)).setDom d).fire fd
          match p.owner with
          | .sump r => { m with
              posts := m.posts.erase p
              sump := m.sump.map fun u => if u.id == r then { u with seq := some tail } else u }
          | _ => { m with posts := m.posts.map fun u => if u == p then { p' with seq := some tail } else u }
        else if (mc.dom? fd).any (fun d => d.used) then mc else mc.setDom d
  | _, _ => mc

/-! ### Answers (spec/06 R194, R195) -/

/-- One parked thread is filed at the instruction that faulted, or takes the cause there. -/
def Mach.unpark (m : Mach) (r : SumpRec) (tid : Nat) (cause : Option Nat) : Mach :=
  let t := m.thr tid
  match cause with
  | none => if t.isHandler then m.modThr tid fun t => { t with stat := .held r.id, waitSince := none } else m.fileMid tid t.pc
  | some c =>
    let k := (r.keep.find? fun k => k.1 == tid).getD (tid, 0, 0)
    let m := if c = 0x28 then (m.postEvent (m.eff t.launch) 2 r.core (m.launch t.launch).rcb k.2.1).1 else m
    m.raise r.core t.launch [(0, tid, k.2.1)] c t.pc t.hdr k.2.2

/-- A record is resumed: its threads in ascending thread order, copies dropped (spec/07 R206); the record is free. -/
def Mach.resumeRec (m : Mach) (r : SumpRec) (cause : Option Nat) : Mach :=
  let m := { m with sump := m.sump.filter fun u => u.id != r.id }
  let m := (m.inOrder r.threads).foldl (fun m t => (m.acquire t 6 .none).unpark r t cause) (m.dropCopies r.core)
  -- handler threads that replay run on in the alcove (spec/08 R231)
  let back := (m.heldHandlers r.core).filter r.threads.contains
  if back = [] || m.quarters.any (fun q => q.core == r.core && q.handler.isSome) then m
  else m.runHeld r.core ((m.heldHandlers r.core).filter fun t => !back.contains t)

/-- The records parked on the lock of a page are resumed (spec/06 R194). -/
def Mach.resumeLocks (m : Mach) (fd page : Nat) : Mach :=
  (m.sump.filter fun r => r.fdom == fd && r.lock && r.page == page).foldl (fun m r => m.resumeRec r none) m

/-- The answer of an engine's, port's or entry's post goes to its owner: 0 for RESP 0, else the cause that RESP 1 delivers. -/
def Mach.answerOwner (m : Mach) (o : FOwner) (resp : Nat) : Mach :=
  match o with
  | .engine e => { m with engines := m.engines.map fun u => if u.id == e then { u with answer := some resp } else u }
  | .port p => { m with lports := modAt m.lports p fun l => { l with answer := some resp } }
  | .coll e => { m with
      colls := m.colls.map fun u => if u.eid == e then { u with answer := some resp } else u
      comms := m.comms.map fun u => if u.id == e then { u with answer := some resp } else u
      qpairs := m.qpairs.map fun (p : QPair) =>
        { p with subs := p.subs.map fun (u : SubEnt) => if u.eid == e then { u with answer := some resp } else u } }
  | .retire l => m.modLaunch l fun u => { u with wait := some (resp + 2) }
  | _ => m

/-- The record is served: it is resumed as the cycle ends, so that a thread that detaches in the same cycle has joined it (spec/19 R436). -/
def Mach.answerRec (m : Mach) (r : SumpRec) (cause : Option Nat) : Mach :=
  { m with sump := (m.sump.filter fun u => u.id != r.id) ++ [{ r with answer := some cause }] }

/-- The cycle ends: the records that have been served in it are resumed, in the order of their entries. -/
def Mach.resumeServed (m : Mach) : Mach :=
  (m.sump.filter fun r => r.answer.isSome).foldl (fun m r => m.resumeRec r r.answer.join) m

/-- One served entry of the queue. -/
def Mach.serve (m : Mach) (d : FaultDom) (pos : Nat) : Mach :=
  let e := m.num (d.base + 64 + 32 * (pos % 2 ^ d.log2)) 32
  let seq := bits e 128 32
  let core := bits e 160 16
  let resp := bits e 200 1
  let rc := bits e 208 7
  let cause := if resp = 0 then none else some (if 0x20 ≤ rc ∧ rc < 0x40 then rc else 0x22)
  match m.sump.find? fun r => r.fdom == d.fdom && r.core == core && r.seq == some seq && !r.lock && r.answer.isNone with
  | some r => m.answerRec r cause
  | none => match m.posts.find? fun p => p.fdom == d.fdom && p.seq == some seq && p.core == core with
    | some p => ({ m with posts := m.posts.erase p } : Mach).answerOwner p.owner (cause.getD 0)
    | none => m

/-! ### Invalidation (spec/06 R187) -/

/-- Does an invalidation command name an address of the domain? -/
def invNames (cmd va : Nat) : Bool :=
  tbit cmd 63 || (decide (bits cmd 16 41 * 2 ^ 16 ≤ va) && decide (va < bits cmd 16 41 * 2 ^ 16 + bits cmd 0 16 * 2 ^ 16))

/-- A cached translation overlaps what a command names. -/
def TlbEnt.named (t : TlbEnt) (fd cmd : Nat) : Bool :=
  t.fdom == fd && (tbit cmd 63 || bits cmd 0 16 != 0 &&
    overlap (t.page * 2 ^ t.shift) (2 ^ t.shift) (bits cmd 16 41 * 2 ^ 16) (bits cmd 0 16 * 2 ^ 16))

/-- Indexes of the valid entries of a table of `n` entries. -/
def Mach.validIdx (m : Mach) (table n : Nat) : List Nat :=
  (m.mem.filter fun c => decide (table ≤ c.1) && decide (c.1 < table + 8 * n) && c.1 % 8 == 7 && tbit c.2.toNat 7).map fun c =>
    (c.1 - table) / 8

/-- An address in every leaf of the level-1 and level-2 tables of a domain, and in every level-3 entry. -/
def Mach.leaves (m : Mach) (root : Nat) : List Nat :=
  (m.validIdx root 2048).flatMap fun i =>
    let t2 := pteAddr (m.num (root + 8 * i) 8)
    (m.validIdx t2 32768).flatMap fun j =>
      let p := m.num (t2 + 8 * j) 8
      let va := i * 2 ^ 46 + j * 2 ^ 31
      if pteLeaf p then [va] else (m.validIdx (pteAddr p) 32768).map fun k => va + k * 2 ^ 16

/-- The ranges that RC covers now of the page at an address, or of the `whole` leaf: the page's, or those of its subpages: address, frame and
length (spec/06 R186, R197). -/
def Mach.rcFrames (sys : Sys) (m : Mach) (d : FaultDom) (whole : Bool) (va : Nat) : List (Nat × Nat × Nat) :=
  let e : Eff := { fdom := d.fdom, fqbase := d.base / 4096 }
  let one (a : Nat) : List (Nat × Nat × Nat) :=
    match walkRoot sys m 0 e a with
    | .ok t => if attrRc t.attr && !attrFar t.attr && !attrRem t.attr then
        (if whole then [(t.page * 2 ^ t.shift, t.frame, 2 ^ t.shift)]
         else [(a, t.frame + a % 2 ^ t.shift, if t.shift = 12 then 4096 else 65536)]) else []
    | _ => []
  match walkRoot sys m 0 e va with
  | .ok t => if t.shift = 12 then (List.range 16).flatMap fun i => one (va + 4096 * i) else one va
  | .fault _ 4 _ => (List.range 16).flatMap fun i => one (va + 4096 * i)
  | _ => []

/-- Ranges of the named pages that RC covers now. -/
def Mach.rcNow (sys : Sys) (m : Mach) (d : FaultDom) (cmd : Nat) : List (Nat × Nat × Nat) :=
  let pages := if tbit cmd 63 then m.leaves (m.num (d.base + 8) 8)
    else (List.range (bits cmd 0 16)).map fun i => (bits cmd 16 41 + i) * 2 ^ 16
  pages.flatMap (m.rcFrames sys d (tbit cmd 63))

/-- A page that has been written under RC is still covered at the same frame. -/
def rcStill (p : Nat × Nat × Nat) (rs : List (Nat × Nat × Nat)) : Bool :=
  rs.any fun r => decide (r.1 ≤ 4096 * p.2.1) && decide (4096 * p.2.1 < r.1 + r.2.2) && 4096 * p.2.2 + r.1 == r.2.1 + 4096 * p.2.1

/-- An invalidation of a domain names these pages: those that RC covers newly will have their stamps cleared, and those that it covers no
more are forgotten (spec/06 R197; log 28). -/
def Mach.rcTurn (sys : Sys) (m : Mach) (d : FaultDom) (cmd : Nat) : Mach × FaultDom :=
  let rs := m.rcNow sys d cmd
  let mine := m.rcOn.filter fun p => p.1 == d.fdom && invNames cmd (4096 * p.2.1)
  let kept := mine.filter fun p => rcStill p rs
  ({ m with rcOn := m.rcOn.filter fun p => !mine.contains p || kept.contains p },
    { d with rcNew := d.rcNew ++ rs.map fun r => r.2, rcKeep := d.rcKeep ++ kept.map fun p => p.2.2 })

/-- A held table pointer leads to what a command names. -/
def WalkEnt.named (w : WalkEnt) (fd cmd : Nat) : Bool :=
  let sh := if w.level = 1 then 46 else 31
  w.fdom == fd && (tbit cmd 63 || bits cmd 0 16 != 0 && overlap (w.tag * 2 ^ sh) (2 ^ sh) (bits cmd 16 41 * 2 ^ 16) (bits cmd 0 16 * 2 ^ 16))

/-- The engine operation works on an address that it has translated in an earlier step: a paging operation past its walk. -/
def EngOp.holdsPage (e : EngOp) (fd cmd : Nat) : Bool :=
  match e.kind with
  | .cpyp va _ _ => e.fdom == fd && decide (1 ≤ e.stage) && invNames cmd va
  | _ => false

/-- The request was made for a fault domain. -/
def Mach.reqIn (m : Mach) (r : FarReq) (fd : Nat) : Bool :=
  match r.who with
  | .engine i => (m.engine? i).any fun e => e.fdom == fd
  | .core _ f _ => f == fd
  | .unit f _ => f == fd
  | .hart _ => false

/-- Translations, copies and filter entries of the named pages are dropped; the accesses that used them and have not
performed are answered. -/
def Mach.dropPages (m : Mach) (fd cmd : Nat) : Mach × List Nat :=
  let waits := (m.threads.filter fun t => (m.eff t.launch).fdom == fd).flatMap fun t =>
    (t.pend.filter fun o => o.line.isSome && (invNames cmd o.va || o.parts.any fun p => invNames cmd p.1)).map fun o => o.oid
  let engs := (m.engines.filter fun e => e.holdsPage fd cmd).map fun e => e.id
  let reqs := (m.reqs.filter fun r => m.reqIn r fd && invNames cmd r.va).map fun r => r.id
  ({ m with
      tlbs := m.tlbs.filter fun t => !t.named fd cmd
      walks := m.walks.filter fun w => !w.named fd cmd
      copies := m.copies.filter fun c => !(c.fdom == fd && invNames cmd (c.line * 64))
      ilines := m.ilines.filter fun c => !(c.2.1 == fd && invNames cmd (c.2.2 * 64))
      farLines := m.farLines.filter fun c => !(c.fdom == fd && invNames cmd (c.line * 64))
      filters := m.filters.filter fun f => !(f.2.1 == fd && invNames cmd f.2.2) }, waits ++ engs ++ reqs)

/-- Some of these operations have not performed. -/
def Mach.awaits (m : Mach) (ids : List Nat) : Bool :=
  (m.threads.any fun t => t.pend.any fun o => ids.contains o.oid) || (m.engines.any fun e => ids.contains e.id)
    || m.reqs.any fun r => ids.contains r.id

/-- Stamps of a range of frames are cleared, but for those of some 4 KiB frames. -/
def Mach.clearStamps (m : Mach) (frame len : Nat) (keep : List Nat := []) : Mach :=
  { m with stamps := m.stamps.filter fun s =>
      !(decide (frame / 64 ≤ s.1) && decide (s.1 < (frame + len) / 64)) || keep.contains (s.1 / 64) }

/-- FAULT_QUEUE_HEADER_STORE: the oldest observed store of the header line is acted on: a changed INVSEQ first, then a
changed HEAD that is accepted. A command that a later one has replaced is not performed (spec/06 R187). -/
def execFaultQueueHeaderStore (fd : Nat) := onMach fun sys mc =>
  match mc.dom? fd with
  | none => mc
  | some d => match d.seen with
    | [] => mc
    | (seq, cmd, head) :: rest =>
      let d := { d with seen := rest }
      let (m, d) := if seq = d.invSeen || rest.any (fun s => s.1 != seq) then (mc, d)
        else
          let (m, waits) := mc.dropPages fd cmd
          m.rcTurn sys { d with invSeen := seq, inv := some (seq, cmd), waits := d.waits ++ waits } cmd
      let m := m.setDom d
      let tail := m.num d.base 4
      let k := (head + 2 ^ 32 - d.accepted) % 2 ^ 32
      if d.used && k != 0 && decide (k ≤ (tail + 2 ^ 32 - d.accepted) % 2 ^ 32) then
        (List.range k).foldl (fun m i => m.serve d ((d.accepted + i) % 2 ^ 32)) (m.setDom { d with accepted := head })
      else m

/-- INVALIDATION_DONE: every access through a dropped translation has performed. -/
def execInvalidationDone (fd : Nat) := onMach fun _ mc =>
  match mc.dom? fd with
  | none => mc
  | some d => match d.inv with
    | none => mc
    | some (seq, _) =>
      if mc.awaits d.waits then mc
      else
        let m := mc.devStore (d.base + 28) (toBytes seq 4)
        let m := d.rcNew.foldl (fun m f => m.clearStamps f.1 f.2 d.rcKeep) m
        m.setDom { d with inv := none, waits := [], rcNew := [], rcKeep := [] }

end Sys2Proof.Machine
end

