-- ==== Sys2Proof/Machine/Engine.lean ====
section
/-! DEFINITION. Counters (spec/17 R416-R418), posts to the engines (spec/07 R213-R215, spec/17 R407, R408), and the copy
queue (spec/17 R409-R411). -/

namespace Sys2Proof.Machine

/-! ### Counters -/

/-- Work entries of a region that are armed now stay armed (spec/01 R56); an index that names no counter is not waited on. -/
def Mach.arm (m : Mach) (rcb : Nat) : Mach :=
  let now (e : SubEnt) : Bool :=
    let n := ofBytes e.bytes
    let c := bits n 32 16
    e.armed || e.rlinv || decide ((m.eff e.launch).ctrs ≤ c) || decide (bits n 64 32 ≤ (m.ctr rcb c).val)
  { m with qpairs := m.qpairs.map fun (p : QPair) =>
      if p.rcb == rcb then { p with subs := p.subs.map fun (e : SubEnt) => { e with armed := now e } } else p }

def Mach.setCtr (m : Mach) (c : Ctr) : Mach :=
  let rest := m.ctrs.filter fun u => !(u.rcb == c.rcb && u.idx == c.idx)
  ({ m with ctrs := if c.val = 0 ∧ c.rel = [] ∧ c.many = false then rest else c :: rest } : Mach).arm c.rcb

/-- A release of a wave enters the last eight distinct waves of a counter or slot (spec/07 R222). -/
def relKeep (rel : List (Nat × Nat)) (r : Nat × Nat) : List (Nat × Nat) × Bool :=
  let l := (rel.filter fun p => p.1 != r.1) ++ [r]
  if l.length > 8 then (l.drop (l.length - 8), true) else (l, false)

/-- A release enters a slot of a ring. -/
def RingSlot.released (s : RingSlot) (r : Option (Nat × Nat)) : RingSlot :=
  match r with
  | some r => { s with rel := (relKeep s.rel r).1, many := s.many || (relKeep s.rel r).2 }
  | none => s

/-- The release of a wave that an operation of a race-checked region leaves. -/
def Mach.relOf (m : Mach) (launch wave : Nat) : Option (Nat × Nat) :=
  if (m.eff launch).race then some (wave, m.phase wave) else none

/-- `counter := (counter + b) mod 2^32`, with release. -/
def Mach.ctrAdd (m : Mach) (rcb idx b : Nat) (r : Option (Nat × Nat)) : Mach :=
  let c := m.ctr rcb idx
  let p := match r with
    | some r => relKeep c.rel r
    | none => (c.rel, false)
  m.setCtr { c with val := (c.val + b) % 2 ^ 32, rel := p.1, many := c.many || p.2 }

/-- A release of one more wave on a counter. -/
def Mach.ctrRelease (m : Mach) (rcb idx : Nat) (r : Nat × Nat) : Mach :=
  let c := m.ctr rcb idx
  m.setCtr { c with rel := (relKeep c.rel r).1, many := c.many || (relKeep c.rel r).2 }

def Mach.ctrSet (m : Mach) (rcb idx b : Nat) (r : Option (Nat × Nat)) : Mach :=
  m.setCtr { rcb := rcb, idx := idx, val := b % 2 ^ 32, rel := r.toList, many := false }

/-- A wait that passes learns every wave that has released (spec/07 R222). -/
def Mach.relLearn (m : Mach) (t : Thread) (rel : List (Nat × Nat)) (many : Bool) : Mach :=
  if !m.checked t then m
  else
    let m := rel.foldl (fun m r => m.learn t.wave r.1 r.2) m
    if many then m.modWave t.wave fun w => { w with inexact := true } else m

/-- An index names a counter of the region, or none (spec/17 R418). -/
def ctrNamed (e : Eff) (idx : Nat) : Bool := idx == 0xFFFF || decide (idx < e.ctrs)

/-! ### Posts -/

/-- A post issues when the earlier accesses of its threads have performed: it is a release (spec/07 R208; log 29). -/
def Mach.postWaits (m : Mach) (ids : List Nat) : Bool := ids.any fun t => (m.thr t).pend != []

/-- A post accepted for the whole quarter: its flight has nothing left to do (spec/10 R272). -/
def Mach.accepted (m : Mach) (q : Quarter) (h : Hdr) (i : Instr) : Mach :=
  let iss := m.next
  ((m.take 1).addFlight q h i iss (m.lowestOf q) q.tids [] false false fun f => f).goOn q.id iss h.look.toNat

/-- A POST OF THE LOWEST ACTIVE THREAD (spec/17 R407). -/
def Mach.lowPost (m : Mach) (h : Hdr) (i : Instr) (f : Mach → Thread → Nat → Mach) : Mach :=
  m.withQ fun q =>
    let id := m.lowestOf q
    if m.postWaits [id] then m.waitQ q .flags
    else (f m (m.thr id) (m.thrFr id)).accepted q h i

/-- A POST OF EACH ACTIVE THREAD, in ascending thread order. -/
def Mach.eachPost (m : Mach) (h : Hdr) (i : Instr) (f : Mach → Thread → Nat → Mach) : Mach :=
  m.withQ fun q =>
    if m.postWaits q.tids then m.waitQ q .flags
    else ((m.inOrder q.tids).foldl (fun m' id => f m' (m'.thr id) (m.thrFr id)) m).accepted q h i

/-- An operation enters an engine queue; its release, which `sigld` has not, bumps the poster's phase after the stamp of the engine's
writes is taken (spec/07 R208, R221; log 30). -/
def Mach.postEng (m : Mach) (t : Thread) (k : EngKind) (rel : Bool := true) : Mach × EngOp :=
  let w := m.wave? t.wave
  let e : EngOp :=
    { id := m.next, core := t.core, kind := k, poster := t.poster, wave := t.wave, launch := t.launch,
      fdom := (m.eff t.launch).fdom, rcb := (m.launch t.launch).rcb, stamp := m.threadStamp t,
      scrBase := (w.map fun w => w.scrBase).getD 0, scrLen := (w.map fun w => w.scrBytes).getD 0 }
  let m := if rel then m.release t 3 (.queue t.core) else m
  ({ m with engines := m.engines ++ [e], next := m.next + 1 }, e)

/-! ### Engine steps -/

/-- An error is held against the thread that posted the operation (spec/08 R234). -/
def Mach.holdErr (m : Mach) (tid : Nat) (e : HeldErr) : Mach := m.modThr tid fun t => { t with errs := t.errs ++ [e] }

/-- The queue of an operation and the counter that it would increment. -/
def EngOp.queue (e : EngOp) : EQueue :=
  match e.kind with
  | .cpy _ _ _ _ _ _ => .copy
  | .cpyp _ _ _ => .copy
  | .stream k _ => .stream k
  | .mop _ _ => .mop
  | .sigld _ _ _ => .sigUnit

def EngOp.ctr (e : EngOp) : Option Nat :=
  let some_ (c : Nat) : Option Nat := if c = 0xFFFF then none else some c
  match e.kind with
  | .cpy _ _ _ _ _ c => some_ c
  | .cpyp _ _ c => some_ (c % 65536)
  | .mop _ _ => (e.nums[12]?).bind some_
  | _ => none

/-- The operation leaves its queue, and its ranges the scoreboard. -/
def Mach.engGone (m : Mach) (e : EngOp) : Mach :=
  let m := m.dropEngine e.id
  { m with
    ranges := m.ranges.filter fun r => r.op != e.id
    posts := m.posts.filter fun p => p.owner != .engine e.id
    reqs := m.reqs.filter fun r => r.who != .engine e.id }

/-- A failed operation keeps its steps, increments no counter, and is reported (spec/17 R408). -/
def Mach.engFail (m : Mach) (e : EngOp) (cause va : Nat) : Mach :=
  (m.engGone e).holdErr e.poster { q := e.queue, cause := cause, va := va, ctr := e.ctr }

/-- An operation increments a counter, a release at `.p` (spec/21 R443). -/
def Mach.engAdd (m : Mach) (e : EngOp) (idx : Nat) : Mach :=
  if idx = 0xFFFF then m else (m.sync e.poster 6 true false (.ctr e.rcb idx)).ctrAdd e.rcb idx 1 (m.relOf e.launch e.wave)

/-- The operation retires: its counter is incremented. -/
def Mach.engRetire (m : Mach) (e : EngOp) (idx : Nat) : Mach := (m.engGone e).engAdd e idx

/-- The step waits for the answer to its fault (spec/17 R408). -/
def Mach.engPost (m : Mach) (e : EngOp) (va cause kind level : Nat) (write fetch : Bool) : Mach :=
  let m := m.setEngine { e with fault := some va, answer := none }
  { m with posts := m.posts ++
      [{ fdom := e.fdom, owner := .engine e.id, cause := cause, kind := kind, level := level, fetch := fetch, write := write,
         nthr := 0, core := e.core, rcb := e.rcb, va := va }] }

/-- A location of an engine's access, with the effective bits of its page and the address that it was translated from. -/
abbrev ELoc := Nat × Nat × Nat

/-- A location of scratch. -/
def scrEnd (loc : Nat) : ELoc := (loc, 3, 0)

/-- The address of a location, in the page that its access was translated in. -/
def ELoc.va (l : ELoc) : Nat := page4 l.2.2 + l.1 % 4096

/-- A read of an engine corrects the single-bit errors that its walk and its words meet (spec/06 R198). -/
def Mach.locFix (m : Mach) (e : EngOp) (l : ELoc) (len : Nat) : Mach :=
  (if isScr l.1 then m else m.walkFix e.core (m.eff e.launch) (ELoc.va l)).eccFix e.core l.1 len

/-- What the step knows of a location of another device. -/
def EngOp.farAt (e : EngOp) (loc : Nat) (write : Bool) : Option Nat :=
  (e.lines.find? fun l => l.1 == loc && l.2.1 == write).map fun l => l.2.2

/-- An access of a step to another device, or to the host (spec/01 R32): a read asks for its line first, and a failure of either is the operation's. -/
def Mach.engFar (sys : Sys) (m : Mach) (e : EngOp) (va loc at_ : Nat) (write : Bool) : Except Mach ELoc :=
  if isRem loc && !(look ({} : Route) sys.routes (remDev loc)).v then .error (m.engFail e 0x26 va)
  else match e.farAt (if write then loc else loc / 64 * 64) write with
    | some 0 => .ok (loc, at_, va)
    | some c => .error (m.engFail e c va)
    | none => if write then .ok (loc, at_, va)
      else .error (m.askFar sys (.engine e.id) (loc / 64 * 64) (va / 64 * 64) 64 false [])

/-- The checks of one access of a step: its location, or what becomes of the machine instead. -/
def Mach.engAcc (sys : Sys) (m : Mach) (e : EngOp) (va : Nat) (need : Need) : Except Mach ELoc :=
  match globalAcc sys m e.core (m.eff e.launch) va 1 need false false with
  | .ok loc at_ _ =>
    if m.away loc then m.engFar sys e va loc at_ need.writes
    else if need.writes && m.cxlBad loc then .error ((m.logErr 0x30 e.core loc).engFail e 0x30 va)
    else .ok (loc, at_, va)
  | .park true _ _ _ _ => .error m
  | .park false c k lv _ => .error (m.engPost e va c k lv need.writes false)
  | .ecc pa => .error ((m.logErr 0x30 e.core pa).engFail e 0x30 va)
  | _ => .error (m.engFail e 0x67 va)

/-- A scratch offset of the posting wave, its own or a window's (spec/06 R176). -/
def Mach.engScr (m : Mach) (e : EngOp) (off len : Nat) : Option Nat :=
  if off < 0x1000000 then (if off + len ≤ e.scrLen then some (scrLoc e.core (e.scrBase + off)) else none)
  else match scratchAcc m { wave := e.wave, core := e.core, launch := e.launch } off len 1 with
    | .ok l _ _ => some l
    | _ => none

/-- Bytes written by an engine: no copy is updated; a race-checked sector takes the stamp of the post (spec/07 R213, R221). Those outside the
device are collected, to be sent there. -/
def Mach.engStore (m : Mach) (e : EngOp) (l : ELoc) (bs : List Byte) : Mach :=
  let va := ELoc.va l
  let m := if m.away l.1 then { m with far := m.far ++ [(l.1, va, bs)] } else m
  if isRem l.1 then m
  else
    let on := (m.eff e.launch).race && raceLoc l.1 l.2.1
    let m := if isScr l.1 then m else m.walkFix e.core (m.eff e.launch) va
    let m := (m.store l.1 bs (if on then some e.stamp else none)).unrelease l.1 bs.length
    if on then m.rcNote e.fdom va l.1 bs.length else m

/-- One step of an operation. What it writes to other devices goes there first, and the step is made when all of it has been written there. -/
def Mach.engStep (sys : Sys) (m : Mach) (e : EngOp) (f : Mach → EngOp → Mach) : Mach :=
  let asked (m : Mach) : Bool := m.reqs.any fun r => r.who == .engine e.id
  if asked m then m
  else
    let m' := f m e
    match m'.far.filter fun w => (e.farAt w.1 true).isNone with
    | [] =>
      let m' := { m' with far := [] }
      if asked m' then m'
      else { m' with engines := m'.engines.map fun (u : EngOp) => if u.id = e.id then { u with lines := [] } else u }
    | ws => ws.foldl (fun m w => m.askFar sys (.engine e.id) w.1 w.2.1 w.2.2.length true w.2.2) m

/-- The response to a request of an engine step, of a core's fetch, or of a stack access of a thread. What another request has written
stands in memory as this device knows it. -/
def Mach.farRsp (m : Mach) (id : Nat) (cause : Nat) (bs : List Byte) : Mach :=
  match m.reqs.find? fun r => r.id == id with
  | none => m
  | some r =>
    let m := if cause = 0 && !r.write then { m with mem := m.mem.put r.loc bs } else m
    let m : Mach := { m with reqs := m.reqs.filter fun q => q.id != id }
    match r.who with
    | .engine i => { m with
        engines := m.engines.map fun (e : EngOp) => if e.id = i then { e with lines := (r.loc, r.write, cause) :: e.lines } else e }
    | .core core fd tid =>
      if r.write || (tid != 0 && (m.thr? tid).isNone) then m
      else { m with farLines := ⟨core, fd, tid, r.va / 64, r.loc, cause⟩ :: m.farLines.filter fun l =>
        !(l.core == core && l.fdom == fd && l.tid == tid && l.line == r.va / 64) }
    | .hart _ => m
    | .unit fd key => if r.write && key / 2 = tableKey then m else { m with farLines := ⟨portCore, fd, key, r.va / 64, r.loc / 64 * 64, cause⟩ :: m.farLines.filter fun l =>
        !(l.core == portCore && l.fdom == fd && l.tid == key && l.line == r.va / 64) }

/-- An answered fault: RESP 0 lets the step go on, another fails the operation; without an answer the step waits. -/
def Mach.engGate (sys : Sys) (m : Mach) (e : EngOp) (f : Mach → EngOp → Mach) : Mach :=
  match e.fault, e.answer with
  | none, _ => m.engStep sys e f
  | some _, none => m
  | some _, some 0 => let e := { e with fault := none, answer := none }; (m.setEngine e).engStep sys e f
  | some v, some _ => m.engFail e 0x67 v

/-! ### Copies (spec/17 R409, R410) -/

/-- Location of one end of a line of a copy. -/
def Mach.cpyEnd (sys : Sys) (m : Mach) (e : EngOp) (scr : Bool) (at_ : Nat) (need : Need) : Except Mach ELoc :=
  if scr then match m.engScr e at_ 64 with
    | some l => .ok (scrEnd l)
    | none => .error (m.engFail e 0x64 at_)
  else m.engAcc sys e at_ need

/-- Operand values that a copy does not allow: the address that is wrong. -/
def Mach.cpyBad (m : Mach) (e : EngOp) (ds ss : Bool) (dst src len ctr : Nat) : Option Nat :=
  let bad (scr : Bool) (a : Nat) : Bool :=
    a % 64 != 0 || (if scr then (m.engScr e a len).isNone else decide (2 ^ 57 < a + len))
  if bad ds dst then some dst else if bad ss src then some src
  else if !ctrNamed (m.eff e.launch) ctr then some 0 else none

/-- Words of a line that hold no uncorrectable error are written (spec/06 R200). -/
def Mach.cpyLine (m : Mach) (e : EngOp) (src dst : ELoc) : Mach × Bool :=
  if !badRange m src.1 64 then (m.engStore e dst (m.bytes src.1 64), false)
  else
    let m := (List.range 8).foldl (fun m i =>
      if badRange m (src.1 + 8 * i) 8 then m
      else m.engStore e (dst.1 + 8 * i, dst.2) (m.bytes (src.1 + 8 * i) 8)) m
    (m.logErr 0x30 e.core src.1, true)

/-- One step of a copy. `nums` holds the first address whose read met an error. -/
def Mach.cpyStep (sys : Sys) (m : Mach) (e : EngOp) (ds ss : Bool) (dst src len ctr : Nat) : Mach :=
  match (if e.i = 0 then m.cpyBad e ds ss dst src len ctr else none) with
  | some va => m.engFail e 0x64 va
  | none =>
    match m.cpyEnd sys e ss (src + 64 * e.i) .r with
    | .error m => m
    | .ok s => match m.cpyEnd sys e ds (dst + 64 * e.i) .w with
      | .error m => m
      | .ok d =>
        let r := (m.locFix e s 64).cpyLine e s d
        let e := { e with i := e.i + 1, nums := if r.2 then e.nums ++ [src + 64 * e.i] else e.nums }
        let m := r.1.setEngine e
        if 64 * e.i < len then m
        else match e.nums with
          | va :: _ => m.engFail e 0x30 va
          | [] => m.engRetire e ctr

/-! ### Paging (spec/17 R411) -/

/-- Where the level-3 entry of an address stands, if the walk reaches one. -/
def leafAt (m : Mach) (e : Eff) (va : Nat) : Option Nat :=
  let root := m.num (e.fqbase * 4096 + 8) 8
  let p1 := m.num (root + 8 * bits va 46 11) 8
  let p2 := m.num (pteAddr p1 + 8 * bits va 31 15) 8
  if pteLeaf p2 then none else some (pteAddr p2 + 8 * bits va 16 15)

/-- The invalidation command of one page. -/
def pageCmd (va : Nat) : Nat := page64 va + 1

/-- The entry with its page near in `frame`: FAR, TM, C32 and LOCK clear, the other bits kept. -/
def nearEntry (e frame : Nat) : Nat :=
  (setBit (setBit (setBit (setBit e 60 false) 59 false) 57 false) 55 false) - pteAddr e / 2 ^ 16 * 2 ^ 16 + frame

/-- The walk of a paging operation, and what its first step does with the leaf. -/
def Mach.cpypWalk (sys : Sys) (m : Mach) (e : EngOp) (va ctr : Nat) : Mach :=
  let m := m.walkFix e.core (m.eff e.launch) va
  match walk sys m e.core (m.eff e.launch) va with
  | .fault k lv _ => m.engPost e va 0x21 k lv false false
  | .range => m.engFail e 0x67 va
  | .ecc pa => (m.logErr 0x30 e.core pa).engFail e 0x30 va
  | .ok t =>
    match leafAt m (m.eff e.launch) va with
    | none => if !attrFar t.attr then m.engRetire e ctr else m.engFail e 0x64 va
    | some at_ =>
      let p := m.num at_ 8
      if pteLock p then m
      else if !pteFar p then m.engRetire e ctr
      else if !pteTm p || pteSplit p then m.engFail e 0x64 va
      else
        let m := m.devStore at_ (toBytes (setBit p 55 true) 8)
        let (m, waits) := m.dropPages e.fdom (pageCmd va)
        m.setEngine { e with stage := 1, i := 0, nums := [at_, pteAddr p] ++ waits }

/-- One step of `cpyp`: the walk and the lock; the first invalidation; the copy; the new entry; the second invalidation. -/
def Mach.cpypStep (sys : Sys) (m : Mach) (e : EngOp) (va frame ctr : Nat) : Mach :=
  let at_ := nth e.nums 0
  let far := nth e.nums 1
  match e.stage with
  | 0 =>
    if va % 2 ^ 16 ≠ 0 ∨ va ≥ 2 ^ 57 ∨ frame % 2 ^ 16 ≠ 0 ∨ !inCavern frame (2 ^ 16) ∨ ctr / 2 ^ 16 ≠ 0 then m.engFail e 0x64 va
    else if !ctrNamed (m.eff e.launch) ctr then m.engFail e 0x64 0
    else m.cpypWalk sys e va ctr
  | 1 => if m.awaits (e.nums.drop 2) then m else m.setEngine { e with stage := 2, nums := [at_, far] }
  | 2 =>
    let r := (m.eccFix e.core (far + 64 * e.i) 64).cpyLine e (far + 64 * e.i, 0, va) (frame + 64 * e.i, 0, va)
    let e := { e with i := e.i + 1, nums := if r.2 then e.nums ++ [va + 64 * e.i] else e.nums }
    r.1.setEngine (if e.i < 1024 then e else { e with stage := 3 })
  | 3 =>
    match e.nums.drop 2 with
    | bad :: _ =>
      -- the copy met an uncorrectable word: the page stays far, and the lock is given back (log 31)
      let m := m.devStore at_ (toBytes (setBit (m.num at_ 8) 55 false) 8)
      ((m.dropPages e.fdom (pageCmd va)).1.resumeLocks e.fdom (page64 va)).engFail e 0x30 bad
    | [] =>
      let m := m.devStore at_ (toBytes (nearEntry (m.num at_ 8) frame) 8)
      let (m, waits) := m.dropPages e.fdom (pageCmd va)
      m.setEngine { e with stage := 4, nums := [at_, far] ++ waits.filter fun i => i != e.id }
  | _ =>
    if m.awaits (e.nums.drop 2) then m
    else ((m.clearStamps frame 65536).resumeLocks e.fdom (page64 va)).engRetire e ctr

def execCpy (h : Hdr) (ds ss : Bool) (a b c : Spec) := onMach fun _ mc =>
  mc.lowPost h (.cpy h ds ss a b c) fun m t fr =>
    let dst := if ds then (t.rd fr a).toNat else (t.rdPair fr a).toNat
    let src := if ss then (t.rd (fr + 8) b).toNat else (t.rdPair (fr + 8) b).toNat
    let lw := (t.rd (fr + 16) c).toNat
    let len := 64 * (if lw % 65536 = 0 then 65536 else lw % 65536)
    let (m, e) := m.postEng t (.cpy ds ss dst src len (lw / 65536))
    let r : Option Range := if ds then (m.engScr e dst len).map fun l => ⟨t.core, e.id, e.fdom, l, len, true⟩
      else some ⟨t.core, e.id, e.fdom, dst, len, false⟩
    { m with ranges := m.ranges ++ r.toList }

/-- The counter word of `cpyp` keeps its low half, which must be zero, above the counter. -/
def execCpyp (h : Hdr) (a b c : Spec) := onMach fun _ mc =>
  mc.lowPost h (.cpyp h a b c) fun m t fr =>
    let cw := (t.rd (fr + 16) c).toNat
    (m.postEng t (.cpyp (t.rdPair fr a).toNat (t.rdPair (fr + 8) b).toNat (cw / 65536 + cw % 65536 * 65536))).1

/-! ### Counter instructions (spec/17 R417) -/

/-- The issue takes 0x51 when a thread's index is out of range (spec/06 R190's shape: no thread performs). -/
def Mach.ctrRange (m : Mach) (h : Hdr) (a : Spec) (k : Mach) : Mach :=
  m.withQ fun q =>
    let bad := q.active.any fun p => decide ((m.eff q.launch).ctrs ≤ ((m.thr p.2).rd (m.thrFr p.2) a).toNat % 65536)
    if bad then m.raiseT q ((q.active.filter fun p =>
        decide ((m.eff q.launch).ctrs ≤ ((m.thr p.2).rd (m.thrFr p.2) a).toNat % 65536)).map fun p => p.2) 0x51 h.flag.toNat fun _ => 0
    else k

/-- A counter operation of one thread: a release at `.p`. -/
def Mach.ctrOp (m : Mach) (t : Thread) (idx b : Nat) (set : Bool) : Mach :=
  let rcb := (m.launch t.launch).rcb
  let m := m.release t 6 (.ctr rcb idx)
  if set then m.ctrSet rcb idx b (m.relOf t.launch t.wave) else m.ctrAdd rcb idx b (m.relOf t.launch t.wave)

def execCtrset (h : Hdr) (a b : Spec) := onMach fun _ mc =>
  mc.ctrRange h a (mc.eachPost h (.ctrset h a b) fun m t fr =>
    m.ctrOp t ((t.rd fr a).toNat % 65536) (t.rd (fr + 8) b).toNat true)

def execCtradd (h : Hdr) (a b : Spec) := onMach fun _ mc =>
  mc.ctrRange h a (mc.eachPost h (.ctradd h a b) fun m t fr =>
    m.ctrOp t ((t.rd fr a).toNat % 65536) (t.rd (fr + 8) b).toNat false)

/-- The first held error that an instruction covers, and the thread without it. -/
def Thread.takeErr (t : Thread) (cov : HeldErr → Bool) : Option (HeldErr × Thread) :=
  (t.errs.find? cov).map fun e => (e, { t with errs := t.errs.erase e })

/-- Held errors covered by a wait or fence that performs: each thread that has one traps at it (spec/08 R234). -/
def Mach.deliver (m : Mach) (q : Quarter) (flag : Nat) (cov : Thread → HeldErr → Bool) : Mach :=
  (m.inOrder q.tids).foldl (fun m id =>
    match (m.thr id).takeErr (cov (m.thr id)) with
    | some (e, t) => (m.setThr t).raiseHeld q id e.cause e.va flag
    | none => m) m

/-- A waiting instruction of the quarter performs at issue: copies drop (an acquire at `.k` or wider), and it completes with
the words given for each thread (spec/07 R203, R206). -/
def Mach.passWait (m : Mach) (qid : Nat) (h : Hdr) (i : Instr) (d : Option Spec) (f : Nat → List Word) : Mach :=
  match m.quarter? qid with
  | none => m
  | some q =>
    let m := m.dropCopies q.core
    let iss := m.next
    match d with
    | none => ((m.take 1).addFlight q h i iss (m.lowestOf q) q.tids [] false false fun f => f).goOn q.id iss h.look.toNat
    | some d =>
      ((m.take 1).addFlight q h i iss (m.lowestOf q) q.tids [] true false fun g =>
        q.tids.foldl (fun g t => g.answer t d (f t) []) g).goOn q.id iss h.look.toNat

/-- Errors that a `ctrwait` covers: of operations that name its counter, and of the two units that no fence names. -/
def ctrCovers (idx : Nat) (e : HeldErr) : Bool := e.ctr == some idx || e.q == .sigUnit || e.q == .remoteSig

def execCtrwait (h : Hdr) (a b : Spec) := onMach fun _ mc => mc.ctrRange h a (mc.withQ fun q =>
  let ops := q.active.map fun p =>
    (p.2, ((mc.thr p.2).rd (mc.thrFr p.2) a).toNat % 65536, ((mc.thr p.2).rd (mc.thrFr p.2 + 8) b).toNat)
  let idx (t : Nat) := match ops.find? fun o => o.1 == t with
    | some o => o.2.1
    | none => 0
  let rcb := (mc.launch q.launch).rcb
  if q.tids.any fun t => !(mc.thr t).acquireReady then mc.waitQ q .flags
  else if ops.any fun o => decide ((mc.ctr rcb o.2.1).val < o.2.2) then mc.waitQ q (.counter (ops.map fun o => o.2))
  else
    let m := ops.foldl (fun m o => (m.acquire o.1 6 (.ctr rcb o.2.1)).relLearn (m.thr o.1) (m.ctr rcb o.2.1).rel (m.ctr rcb o.2.1).many) mc
    let m := m.deliver q h.flag.toNat fun t e => ctrCovers (idx t.id) e
    m.passWait q.id h (.ctrwait h a b) none fun _ => [])

end Sys2Proof.Machine
end

