-- ==== Sys2Proof/Machine/Matrix.lean ====
section
/-! DEFINITION. The matrix unit (spec/16 R385-R399; spec/09 R253-R255): the accumulator store, quarter products, copse-joint
products, drains and clears. -/

namespace Sys2Proof.Machine

/-! ### The accumulator store (spec/16 R385-R387) -/

def Mach.tile (m : Mach) (core t : Nat) : Tile :=
  (m.tiles.find? fun x => x.core == core && x.t == t).getD
    { core := core, t := t, holder := none, words := List.replicate 256 0 }

def Mach.setTile (m : Mach) (x : Tile) : Mach :=
  { m with tiles := x :: m.tiles.filter fun u => !(u.core == x.core && u.t == x.t) }

/-- The tile as a launch finds it: cleared unless the launch holds it, and held by the launch from then on. -/
def Mach.claim (m : Mach) (core t launch : Nat) : Tile :=
  let x := m.tile core t
  if x.holder = some launch then x else { x with holder := some launch, words := List.replicate 256 0, err := 0 }

/-- Rows `r0` to `r0 + n - 1` cleared. -/
def Tile.clear (x : Tile) (r0 n : Nat) : Tile :=
  { x with words := x.words.mapIdx fun i w => if r0 ≤ i / 8 ∧ i / 8 < r0 + n then 0 else w }

/-! ### Products (spec/09 R253-R255) -/

/-- Elements of one 64-byte operand row with their scales. -/
def rowElems (s : DWord) (row : Nat) (scales : List Nat) : List (FV × FV) :=
  (List.range (rowCap (slotCont s))).map fun i =>
    (slotDec s (elemAt row (slotCont s) i),
      if slotSkind s = 0 then .num false 1 0 else effScale s (scales.getD (i / slotBlock s) 0))

/-- `x = xh + xl`: the upper 12 significant bits and the rest (spec/09 R254; log 32). -/
def split12 (x : FV) : FV × FV :=
  match x with
  | .num s m e =>
    let k := Nat.log2 m + 1 - 12
    (.num s (m / 2 ^ k) (e + k), .num s (m % 2 ^ k) e)
  | v => (v, .num false 0 0)

def FV.finite : FV → Bool
  | .num _ _ _ => true
  | _ => false

/-- The product of two elements; FP32 takes three passes, without the product of the low parts. -/
def elemProd (f32 : Bool) (x y : FV) : FV :=
  if f32 && FV.finite x && FV.finite y then
    let a := split12 x
    let b := split12 y
    FV.add 0 (FV.add 0 (FV.mul a.1 b.1) (FV.mul a.1 b.2)) (FV.mul a.2 b.1)
  else FV.mul x y

/-- The exact sum of one K-block. -/
def blockSum (f32 : Bool) (a b : List (FV × FV)) : FV :=
  (a.zip b).foldl (fun s p => FV.add 0 s (FV.mul (FV.mul (elemProd f32 p.1.1 p.2.1) p.1.2) p.2.2)) (.num false 0 0)

/-- Both slots are integers without scales: the tile accumulates as i32 (spec/09 R255). -/
def intPair (sa sb : DWord) : Bool :=
  decide (slotFmt sa ≤ 3) && slotSkind sa == 0 && decide (slotFmt sb ≤ 3) && slotSkind sb == 0

/-- One K-block added to an accumulator word. -/
def accumulate (int : Bool) (acc : Word) (s : FV) : Word :=
  if int then wI ((acc.toNat : Int) + (asInt s).getD 0) else rne32 (FV.add 0 (dec32 acc) s)

/-! ### Slots of a product (spec/16 R389) -/

def matBad (sa sb : DWord) : Bool :=
  !slotOk sa || !slotOk sb || slotCont sa != slotCont sb || (slotFmt sa == 13) != (slotFmt sb == 13)
    || (slotFmt sa == 12) != (slotFmt sb == 12)

/-- An operand that a scaled slot makes a pair names no pair (spec/10 R276). -/
def pairBad (rgv : Nat) (s : Spec) : Bool :=
  match s with
  | .v n => decide (rgv ≤ n.toNat + 1)
  | .c k => k == 7
  | .zero => false
  | _ => true

/-! ### Operands in scratch (spec/16 R390, R392) -/

/-- Kept and group sizes of a sparse pattern; words of one metadata block. -/
def matNm (pat : Nat) : Nat × Nat := if pat = 1 then (2, 4) else (4, 8)

def metaWords (pat cont : Nat) : Nat :=
  let p := matNm pat
  (rowCap cont / p.2 * p.1 * Nat.log2 p.2 + 31) / 32

/-- Kept indices of the groups of one half, from its metadata block. -/
def metaIdx (pat cont blk : Nat) : List (List Nat) :=
  let p := matNm pat
  let w := Nat.log2 p.2
  (List.range (rowCap cont / p.2)).map fun g => (List.range p.1).map fun j => bits blk (w * (g * p.1 + j)) w

def ascending : List Nat → Bool
  | [] => true
  | [_] => true
  | a :: b :: r => decide (a < b) && ascending (b :: r)

/-- A half expanded to a 64-byte row. -/
def expandHalf (pat cont half blk : Nat) : Nat :=
  let p := matNm pat
  (enum (metaIdx pat cont blk)).foldl (fun row g =>
    (enum g.2).foldl (fun row k => setElem row cont (g.1 * p.2 + k.2) (elemAt half cont (g.1 * p.1 + k.1))) row) 0

/-- The ranges one thread reads: its A row, scales and metadata, and for the first thread B and its scales. -/
structure MatOps where
  nk : Nat
  a : Nat
  asc : Option Nat
  md : Option (Nat × Nat)
  b : Option Nat
  bsc : Option Nat
deriving DecidableEq, Repr

def Mach.matPlan (m : Mach) (t : Thread) (o : MatOps) : TPlan :=
  let part (tag : Nat) (x : Option (Nat × Nat)) (al : Nat) : List (Nat × Nat × Nat × Acc) := match x with
    | some (off, len) => [(tag, off, len, scrPart m t off len al)]
    | none => []
  let ps := part 0 (some (o.a, 64)) 64 ++ part 1 (o.asc.map fun s => (s, 8 * o.nk)) 8 ++ part 2 o.md 4
    ++ part 3 (o.bsc.map fun s => (s, 64 * o.nk)) 8 ++ part 16 (o.b.map fun b => (b, 512 * o.nk)) 64
  let acc := accAll (ps.map fun p => p.2.2.2)
  { acc := acc, va := o.a,
    judge := if acc.isOk then ps.flatMap fun p => m.judged t p.2.2.2 p.2.2.1 else [],
    ops := if !acc.isOk then [] else ps.flatMap fun p =>
      if p.1 = 16 then (List.range (p.2.2.1 / 64)).flatMap fun i => rowReads (16 + i) (p.2.2.2.shift (64 * i)) 64 (p.2.1 + 64 * i)
      else rowReads p.1 p.2.2.2 p.2.2.1 p.2.1 }

/-! ### The order of a tile (spec/16 R387) -/

def tileOf? : Instr → Option Nat
  | .mma _ _ acc _ _ _ _ => some acc.toNat
  | .mmas _ _ acc _ _ _ _ _ => some acc.toNat
  | .mmaj _ _ _ acc _ _ _ _ => some acc.toNat
  | .tdrain _ _ _ _ _ _ acc _ _ _ => some acc.toNat
  | .tzero _ _ _ acc => some acc.toNat
  | _ => none

def isMmaj : Instr → Bool
  | .mmaj _ _ _ _ _ _ _ _ => true
  | _ => false

/-- Tile operations of a core that have issued and not taken effect, in order of issue. -/
def Mach.tileWaits (m : Mach) (core : Nat) : List Flight :=
  m.flights.filter fun f => f.core == core && (tileOf? f.instr).isSome && decide (f.stage < 2)

/-- The operation is the first on its tile, no macro-op reserves the tile, and its operands have been read. -/
def Mach.tileTurn (m : Mach) (f : Flight) : Bool :=
  let t := tileOf? f.instr
  !(t.any fun t => m.tileReserved f.core t)
    && ((m.tileWaits f.core).filter fun g => g.iss == f.iss).all (fun g => g.stage == 1)
    && (((m.tileWaits f.core).find? fun g => tileOf? g.instr == t).any fun g => g.iss == f.iss)

/-- The flights of one issue. -/
def Mach.groupOf (m : Mach) (iss : Nat) : List Flight := m.flights.filter fun f => f.iss == iss

/-- What the threads of a quarter go back to when its instruction is withdrawn. -/
def Mach.backs (m : Mach) (q : Quarter) (ids : List Nat) : List (Nat × Site) := ids.map fun t => (t, siteOf q (m.thr t))

/-- The instruction of an issue has not happened: its flights are gone, and its threads hold what they held before it, with their
flag counts carried (spec/10 R273). -/
def Mach.unissue (m : Mach) (iss : Nat) : Mach :=
  let grp := m.groupOf iss
  let ids := grp.flatMap fun g => g.tids
  let uids := grp.map fun g => g.uid
  let bs := grp.flatMap fun g => g.back
  match grp with
  | [] => m
  | f :: _ => ({ m with flights := m.flights.filter fun g => g.iss != iss } : Mach).modAll ids fun t =>
    let t := { t with pend := t.pend.filter fun o => !uids.contains o.uid, carry := some (f.pc, f.flag), hdr := f.hdr }
    match bs.find? fun b => b.1 == t.id with
    | some b => t.atSite b.2
    | none => t

/-- A quarter that waits at a tile operation goes back to it, to issue it again (spec/04 R124, spec/16 R396). -/
def Mach.withdrawIssue (m : Mach) (iss : Nat) : Mach :=
  match m.groupOf iss with
  | [] => m
  | f :: _ =>
    let m := m.unissue iss
    { m with quarters := m.quarters.map fun q =>
        if q.id = f.qid then { q with pc := f.pc, hdr := f.hdr, wait := none, looks := q.looks.filter fun l => l.iss != iss } else q }

/-- The whole quarter takes a cause at an instruction that has issued: nothing is updated. -/
def Mach.failGroup (m : Mach) (iss cause va : Nat) (waitBit : Bool := false) : Mach :=
  match m.groupOf iss with
  | [] => m
  | f :: r =>
    let ids := (f :: r).flatMap fun g => g.tids
    let m := m.unissue iss
    m.raise f.core f.launch (ids.map fun t => (m.slotOf t, t, va)) cause f.pc f.hdr f.flag false waitBit

/-! ### Quarter products (spec/16 R391, R392) -/

/-- Scale codes of a K-block in the bytes of a row's or column's scales. -/
def scalesOf (bs : List Byte) (at_ : Nat) : List Nat := (List.range 8).map fun i => ofBytes ((bs.drop (at_ + i)).take 1)

/-- The K-blocks of a thread's A row. -/
def aBlocks (i : Instr) (s : DWord) (f : Flight) : List (List (FV × FV)) :=
  let row := ofBytes (f.piece 0)
  match i with
  | .mmas _ pat _ _ _ _ _ _ =>
    let c := slotCont s
    let blk (k : Nat) := ofBytes (((f.piece 2).drop (4 * metaWords pat.toNat c * k)).take (4 * metaWords pat.toNat c))
    let half (k : Nat) := bits row (256 * k) 256
    [0, 1].map fun k => rowElems s (expandHalf pat.toNat c (half k) (blk k)) (scalesOf (f.piece 1) (8 * k))
  | _ => [rowElems s row (scalesOf (f.piece 1) 0)]

/-- Column `j` of B, block by block, from the first thread's reads. -/
def bBlocks (s : DWord) (nk : Nat) (f : Flight) (j : Nat) : List (List (FV × FV)) :=
  (List.range nk).map fun k =>
    rowElems s (ofBytes (f.piece (16 + j * nk + k))) (scalesOf (f.piece 3) (8 * nk * j + 8 * k))

/-- One row of products added to a tile. -/
def Tile.addRow (x : Tile) (int f32 : Bool) (r : Nat) (a : List (List (FV × FV))) (bs : List (List (List (FV × FV)))) : Tile :=
  { x with words := x.words.mapIdx fun i w =>
      if i / 8 = r then (a.zip (bs.getD (i % 8) [])).foldl (fun w p => accumulate int w (blockSum f32 p.1 p.2)) w else w }

/-- The metadata of a thread names groups whose indices ascend (spec/16 R392). -/
def metaGood (i : Instr) (s : DWord) (f : Flight) : Bool :=
  match i with
  | .mmas _ pat _ _ _ _ _ _ =>
    let n := 4 * metaWords pat.toNat (slotCont s)
    [0, 1].all fun k => (metaIdx pat.toNat (slotCont s) (ofBytes (((f.piece 2).drop (n * k)).take n))).all ascending
  | _ => true

/-- Slots, Z and K-blocks of a product. -/
def matForm : Instr → Nat × Nat × Bool × Nat
  | .mma _ z _ _ _ sa sb => (sa.toNat, sb.toNat, z, 1)
  | .mmas _ _ _ _ _ _ sa sb => (sa.toNat, sb.toNat, false, 2)
  | .mmaj _ z _ _ _ _ sa sb => (sa.toNat, sb.toNat, z, 1)
  | _ => (0, 0, false, 1)

/-- The product of a quarter takes effect: `nums` of each flight holds whether it read B, and its row of the tile. -/
def Mach.matEffect (m : Mach) (f : Flight) (t : Nat) : Mach :=
  let grp := m.groupOf f.iss
  let fm := matForm f.instr
  let sa := m.fslot f.launch fm.1
  let sb := m.fslot f.launch fm.2.1
  match grp.find? fun g => nth g.nums 0 == 1 with
  | none => m.failGroup f.iss 0x30 0
  | some b =>
    if grp.any fun g => !metaGood g.instr sa g then m.failGroup f.iss 0x43 0
    else
      let bs := (List.range 8).map (bBlocks sb fm.2.2.2 b)
      let x := m.claim f.core t f.launch
      let x := if fm.2.2.1 then x.clear (nth f.nums 1 / 8 * 8) 8 else x
      let x := grp.foldl (fun x g =>
        x.addRow (intPair sa sb) (slotFmt sa == 13) (nth g.nums 1) (aBlocks g.instr sa g) bs) x
      let m := m.setTile x
      { m with flights := m.flights.map fun g => if g.iss = f.iss then { g with stage := 2, done := true } else g }

/-! ### Drains and clears (spec/16 R397-R399) -/

/-- First row and count of rows that a drain or clear names. -/
def drainRows (q : Bool) (qt : BitVec 2) : Nat × Nat := if q then (8 * qt.toNat, 8) else (0, 32)

/-- The operation on a tile whose turn has come. -/
def Mach.tileEffect (m : Mach) (f : Flight) : Mach :=
  match f.instr with
  | .tzero _ q qt acc =>
    let r := drainRows q qt
    (m.setTile ((m.claim f.core acc.toNat f.launch).clear r.1 r.2)).setFlight { f with stage := 2, done := true }
  | .tdrain _ _ q qt z _ acc _ _ _ =>
    let r := drainRows q qt
    let x := m.claim f.core acc.toNat f.launch
    let ws := (x.words.drop (8 * r.1)).take (8 * r.2)
    (m.setTile (if z then x.clear r.1 r.2 else x)).setFlight { f with stage := 2, nums := ws.map fun w => w.toNat }
  | .mma _ _ acc _ _ _ _ => m.matEffect f acc.toNat
  | .mmas _ _ acc _ _ _ _ _ => m.matEffect f acc.toNat
  | _ => m

/-- Operations whose turn has come take effect, in order of issue. -/
def Mach.tilePump (m : Mach) (core : Nat) : Nat → Mach
  | 0 => m
  | n + 1 =>
    match (m.tileWaits core).find? fun f => !isMmaj f.instr && m.tileTurn f with
    | none => m
    | some f => Mach.tilePump (m.tileEffect f) core n

def Mach.pump (m : Mach) (core : Nat) : Mach := m.tilePump core ((m.tileWaits core).length + 1)

/-- A product's reads have all performed for one thread. -/
def matFin (m : Mach) (f : Flight) : Mach := m.setFlight { f with stage := 1, done := false }

/-- After the issue of a tile instruction: what can take effect does; a quarter whose tile is reserved waits. -/
def Mach.tileIssued (m : Mach) (q : Quarter) (iss t : Nat) : Mach :=
  if (m.groupOf iss) = [] then m
  else
    let m := m.pump q.core
    match m.quarter? q.id with
    | some u => if m.tileReserved q.core t then m.setQ { u with wait := some (.tile t) } else m
    | none => m

/-- An FP32 product holds the matrix port for 6 cycles, and for 24 in a wave (spec/16 R393). -/
def Mach.fp32Port (m : Mach) (q : Quarter) (s : DWord) : Mach :=
  if slotFmt s = 13 then m.modCore q.core fun c =>
      { c with portUntil := modAt c.portUntil 2 fun u => Nat.max u (m.cycle + if q.gang.isSome then 24 else 6) }
  else m

/-- The operands of one thread of a product. -/
def matOps (m : Mach) (q : Quarter) (sa sb : DWord) (nk : Nat) (a b : Spec) (md : Option (Spec × Nat)) (fr : Nat) (t : Thread) :
    MatOps :=
  let first := t.id == m.lowestOf q
  { nk := nk, a := (t.rd fr a).toNat,
    asc := if scaled sa then some (t.rdAt fr a 1).toNat else none,
    md := md.map fun p => ((t.rd (fr + 16) p.1).toNat, p.2),
    b := if first then some (t.rd (fr + 8) b).toNat else none,
    bsc := if first && scaled sb then some (t.rdAt (fr + 8) b 1).toNat else none }

/-- A pattern that `mmas` does not have (spec/16 R388). -/
def patBad : Instr → Bool
  | .mmas _ pat _ _ _ _ _ _ => pat != 1 && pat != 2
  | _ => false

/-- The shape of `mma`, `mmas` and `mmaj`: the checks of spec/16 R389 and R390, the issue, and the rows of the threads. -/
def Mach.product (sys : Sys) (m : Mach) (h : Hdr) (i : Instr) (a b : Spec) (nk : Nat) (md : Option (Spec × Nat)) (q : Quarter) :
    Mach :=
  let fm := matForm i
  let sa := m.fslot q.launch fm.1
  let sb := m.fslot q.launch fm.2.1
  let rgv := q.tids.foldl (fun n t => Nat.min n (m.thr t).rgv) q.rg
  let fl := h.flag.toNat
  if (scaled sa && pairBad rgv a) || (scaled sb && pairBad rgv b) then m.raiseQ q 0x05 fl fun _ => 0
  else if matBad sa sb then m.raiseQ q 0x42 fl fun _ => 0
  else if patBad i || (md.isSome && (slotCont sa == 6 || slotCont sa == 32)) then m.raiseQ q 0x43 fl fun _ => 0
  else
    let low := m.thr (m.lowestOf q)
    let row (id : Nat) : Nat := 8 * low.homeQ + m.slotOf id
    m.memIssue sys h i false none (fun fr t => m.matPlan t (matOps m q sa sb nk a b md fr t)) noWide matFin
      fun id f => { f with nums := [if id = low.id then 1 else 0, row id], back := m.backs q [id] }

def execMma (h : Hdr) (z : Bool) (acc : BitVec 6) (a b : Spec) (sA sB : BitVec 3) := onMach fun sys mc => mc.withQ fun q =>
  let m := mc.product sys h (.mma h z acc a b sA sB) a b 1 none q
  (m.fp32Port q (mc.fslot q.launch sA.toNat)).tileIssued q mc.next acc.toNat

def execMmas (h : Hdr) (pat : BitVec 3) (acc : BitVec 6) (a b md : Spec) (sA sB : BitVec 3) := onMach fun sys mc =>
  mc.withQ fun q =>
    let n := 8 * metaWords pat.toNat (slotCont (mc.fslot q.launch sA.toNat))
    let m := mc.product sys h (.mmas h pat acc a b md sA sB) a b 2 (some (md, n)) q
    (m.fp32Port q (mc.fslot q.launch sA.toNat)).tileIssued q mc.next acc.toNat

/-! ### Copse-joint products (spec/16 R394-R396) -/

/-- The set that a quarter's `mmaj` belongs to. -/
def MmajSet.key (s : MmajSet) (launch copse lane quarter tag : Nat) : Bool :=
  s.launch == launch && s.copse == copse && s.lane == lane && s.quarter == quarter && s.tag == tag
    && decide (s.partners.length < 4)

/-- All four flags are signalled with cause 0x68 instead: nothing is updated. -/
def Mach.failSet (m : Mach) (s : MmajSet) : Mach :=
  s.partners.foldl (fun m p => m.failGroup p.uid 0x68 0) { m with mmajs := m.mmajs.filter fun u => u.id != s.id }

/-- A partner leaves its set. -/
def Mach.leaveSet (m : Mach) (k : Nat) (rest : List MmajPartner) : Mach :=
  if rest = [] then { m with mmajs := m.mmajs.filter fun u => u.id != k }
  else { m with mmajs := m.mmajs.map fun u => if u.id == k then { u with partners := rest } else u }

/-- A partner joins its set; the fourth is checked against the others. -/
def Mach.joinSet (m : Mach) (q : Quarter) (iss quarter tag : Nat) (z : Bool) (acc sA sB : Nat) : Mach :=
  let g := coreGrove q.core
  let s := (m.mmajs.find? fun s => s.key q.launch (g / 4) (q.core % 24) quarter tag && s.partners.all fun p => p.pos != g % 4).getD
    { id := m.next, launch := q.launch, copse := g / 4, lane := q.core % 24, quarter := quarter, tag := tag, since := m.cycle,
      partners := [] }
  let s := { s with partners := s.partners ++ [⟨g % 4, iss, acc, z, sA, sB⟩] }
  let m := { m with mmajs := s :: m.mmajs.filter (fun u => u.id != s.id), next := m.next + 1 }
  let m := match m.quarter? q.id with
    | some u => (m.setQ { u with wait := some (.mmaj s.id) }).modAll u.tids fun t => { t with waitSince := some m.cycle }
    | none => m
  let same (p : MmajPartner) : Bool :=
    p.z == z && p.sA == sA && p.sB == sB
  if s.partners.length = 4 && !(s.partners.all same) then m.failSet s else m

def execMmaj (h : Hdr) (z : Bool) (tag : BitVec 4) (acc : BitVec 6) (a b : Spec) (sA sB : BitVec 3) := onMach fun sys mc =>
  mc.withQ fun q =>
    let mc := mc.ungang q
    let low := mc.thr (mc.lowestOf q)
    let m := mc.product sys h (.mmaj h z tag acc a b sA sB) a b 1 none q
    if m.groupOf mc.next = [] then m
    else (m.joinSet q mc.next low.homeQ tag.toNat z acc.toNat sA.toNat sB.toNat).pump q.core

/-- The rotation steps on the tile of one partner: rows of the partner at `c` are rows 8c to 8c + 7 of B's broadcaster c. -/
def Mach.rotate (m : Mach) (s : MmajSet) (p : MmajPartner) : Mach :=
  match m.groupOf p.uid with
  | [] => m
  | f :: _ =>
    let fm := matForm f.instr
    let sa := m.fslot s.launch fm.1
    let sb := m.fslot s.launch fm.2.1
    let x := m.claim f.core p.acc s.launch
    let x := if p.z then x.clear 0 32 else x
    let x := [0, 1, 2, 3].foldl (fun x c =>
      match s.partners.find? fun u => u.pos == c with
      | none => x
      | some u => match (m.groupOf u.uid).find? fun g => nth g.nums 0 == 1 with
        | none => x
        | some b =>
          let bs := (List.range 8).map (bBlocks sb 1 b)
          (m.groupOf p.uid).foldl (fun x g =>
            x.addRow (intPair sa sb) (slotFmt sa == 13) (8 * c + nth g.nums 1 % 8) (aBlocks g.instr sa g) bs) x) x
    m.setTile x

/-- MMAJ_JOINT_START: the four partners of a set have issued, their operands are read, and each tile's turn has come. -/
def execMmajJointStart (k : Nat) := onMach fun _ mc =>
  match mc.mmajs.find? fun s => s.id == k with
  | none => mc
  | some s =>
    let grps := s.partners.map fun p => mc.groupOf p.uid
    if s.partners.length < 4 || grps.any (fun g => g.any fun f => !mc.tileTurn f) then mc
    else if grps.any fun g => !(g.any fun f => nth f.nums 0 == 1) then s.partners.foldl (fun m p => m.failGroup p.uid 0x30 0)
        { mc with mmajs := mc.mmajs.filter fun u => u.id != k }
    else
      let m := s.partners.foldl (fun m p => m.rotate s p) mc
      let isss := s.partners.map fun p => p.uid
      let cores := grps.filterMap fun g => g.head?.map fun f => f.core
      let m : Mach := { m with
        mmajs := m.mmajs.filter fun u => u.id != k
        flights := m.flights.map fun g => if isss.contains g.iss then { g with stage := 2, done := true } else g }
      let m := cores.foldl (fun m c => m.modCore c fun x =>
        { x with portUntil := modAt x.portUntil 2 fun u => Nat.max u (m.cycle + 8) }) m
      cores.foldl Mach.pump m

/-- MMAJ_PARTNER_TIMEOUT: fewer than four have issued within 4,096 cycles of the first. -/
def execMmajPartnerTimeout (k : Nat) := onMach fun _ mc =>
  match mc.mmajs.find? fun s => s.id == k with
  | none => mc
  | some s => if s.partners.length < 4 && decide (s.since + 4096 < mc.cycle) then mc.failSet s else mc

/-! ### `tdrain` and `tzero` -/

def drainBad (s : DWord) (i : Bool) : Bool :=
  !slotOk s || !([7, 8, 10, 11, 13].contains (slotFmt s)) || slotSkind s != 0 || (i && slotFmt s != 13)

/-- Bytes of a row of a drained tile. -/
def drainRb (s : DWord) : Nat := slotCont s

/-- A word converted by an overwrite or all-or-nothing drain (spec/16 R398). -/
def drainConv (s : DWord) (w : Word) : Nat :=
  if slotFmt s = 13 then w.toNat else (slotConv s 0 (slotFmt s == 7) (dec32 w)).1

/-- The new element of an add-on-store drain. -/
def drainAdd (s : DWord) (i : Bool) (old : Nat) (w : Word) : Nat :=
  if i then (old + w.toNat) % 2 ^ 32 else (slotConv s 0 (slotFmt s == 7) (FV.add 0 (slotDec s old) (dec32 w))).1

/-- The bytes of one drained row; `old` is what an add-on-store drain reads. -/
def drainBytes (s : DWord) (m : DMode) (i : Bool) (ws : List Word) (old : Nat) : List Byte :=
  let c := slotCont s
  let es := (enum ws).map fun p => match m with
    | .add => drainAdd s i (elemAt old c p.1) p.2
    | _ => drainConv s p.2
  toBytes (packBits c es) (drainRb s)

/-- The operand conditions of a drain: the cause of the first that fails (spec/16 R397). -/
def drainCheck (m : DMode) (rows rb va pitch : Nat) : Option Nat :=
  if va % rb ≠ 0 ∨ pitch = 0 ∨ pitch % rb ≠ 0 then some 0x2C
  else if m = .aon ∧ (pitch ≠ rb ∨ va % (rows * rb) ≠ 0) then some 0x2C
  else if m = .add ∧ va / 2 ^ 16 ≠ (va + (rows - 1) * pitch + rb - 1) / 2 ^ 16 then some 0x22
  else none

/-- A step of a drain on rows (address and outcome of its checks), and on the metadata line of an all-or-nothing one. -/
def Mach.drainOp (m : Mach) (t : Thread) (mode : DMode) (rb : Nat) (zs md : List (Nat × Acc)) : List PendOp :=
  match zs with
  | [] => []
  | z :: r =>
    [{ oid := 0, uid := 0, kind := .wide, loc := z.2.loc, len := rb, stampOn := m.checked t && raceLoc z.2.loc z.2.attr,
       line := m.lineOf t z.1, va := z.1, reads := mode == .add,
       parts := (r.map fun z => (z.1, z.2.loc, rb)) ++ md.map fun a => (a.1, a.2.loc, 64) }]

/-- The operations of a drain: for an overwrite drain one for the rows of each sector, and in another device one for each row that does not
adjoin the next (log 142). -/
def Mach.drainPlan (sys : Sys) (m : Mach) (t : Thread) (mode : DMode) (rows rb va pitch : Nat) : TPlan :=
  match drainCheck mode rows rb va pitch with
  | some c => { acc := .trap c, va := va }
  | none =>
    let e := m.eff t.launch
    let rs := (List.range rows).map fun r => va + r * pitch
    let near (a : Acc) := if mode = .ow then a else nearOnly a
    let zs := rs.map fun v => (v, near (globalAcc sys m t.core e v 1 .w false false))
    let md := if mode = .aon then [(metaVa va, nearOnly (globalAcc sys m t.core e (metaVa va) 64 .w false false))] else []
    let acc := accAll ((zs ++ md).map fun z => z.2)
    { acc := acc, va := vaOf va (zs ++ md), write := true,
      ops := if !acc.isOk then [] else match mode with
        | .ow => ((rs.map fun v => v / 64).eraseDups).flatMap fun sec =>
            let row := zs.filter fun z => z.1 / 64 == sec
            if pitch ≠ rb ∧ row.any (fun z => isRem z.2.loc) then row.flatMap fun z => m.drainOp t mode rb [z] []
            else m.drainOp t mode rb row []
        | _ => m.drainOp t mode rb zs md }

/-- Where the row at an address stands, as the issue translated it. -/
def PendOp.rowLoc (o : PendOp) (va : Nat) : Nat :=
  if va = o.va then o.loc else ((o.parts.find? fun p => p.1 == va).map fun p => p.2.1).getD o.loc

/-- The rows of an operation of an overwrite drain go to another device. -/
def Mach.drainFar (sys : Sys) (m : Mach) (t : Thread) (o : PendOp) (bs : List Byte) : Mach :=
  let o' : PendOp := { o with kind := .store bs, len := bs.length, parts := [] }
  let m := m.modThr t.id fun u => { u with pend := u.pend.map fun p => if p.oid == o.oid then o' else p }
  m.askRemote sys (m.thr t.id) o' false

/-- One step of a drain: after the tile has been read. -/
def tdrainWide (sys : Sys) (m : Mach) (t : Thread) (f : Flight) (o : PendOp) : Mach :=
  match f.instr with
  | .tdrain _ mode q qt _ i _ _ _ sl =>
    if f.stage < 2 then m
    else
      let s := m.fslot f.launch sl.toNat
      let rb := drainRb s
      let va := (look 0 f.xres 0).toNat + 2 ^ 32 * (look 0 f.xres 1).toNat
      let pitch := (look 0 f.xres 2).toNat
      let rows := (List.range (drainRows q qt).2).filter fun r =>
        va + r * pitch == o.va || o.parts.any fun p => p.1 == va + r * pitch && p.2.2 == rb
      let at_ (r : Nat) : Nat := o.rowLoc (va + r * pitch)
      let metas := if mode = .aon then (o.metaLoc va).toList else []
      let words (r : Nat) : List Word := ((f.nums.drop (8 * r)).take 8).map wN
      if metas.any m.tileHeld then m      -- it waits for an `ldt` that holds the tile (spec/07 R216)
      else if o.remote then m.drainFar sys t o (rows.flatMap fun r => drainBytes s mode i (words r) 0)
      else match rows.find? fun r => badWrite m (at_ r) rb || (mode == .add && badRange m (at_ r) rb) with
      | some r => m.opEcc t o (at_ r)
      | none => match metas.find? fun ml => m.eccBad ml 8 with
        | some ml => m.opEcc t o ml
        | none =>
          let m := rows.foldl (fun m r =>
            let m := if mode = .add then m.eccFix t.core (at_ r) rb else m
            m.threadStore t (m.eff t.launch).fdom o (at_ r) (va + r * pitch)
              (drainBytes s mode i (words r) (m.num (at_ r) rb))) m
          (metas.foldl (fun m ml => m.newVersion t o va ml) m).opDone t o []
  | _ => m

/-- `tdrain`: `xres` keeps the destination and the pitch as read at issue. -/
def execTdrain (h : Hdr) (md : DMode) (qb : Bool) (qt : BitVec 2) (z i : Bool) (acc : BitVec 6) (a b : Spec) (sl : BitVec 3) :=
  onMach fun sys mc => mc.withQ fun q =>
    let s := mc.fslot q.launch sl.toNat
    if drainBad s i then mc.raiseQ q 0x42 h.flag.toNat fun _ => 0
    else
      let id := mc.lowestOf q
      let t := mc.thr id
      let d := t.rdPair (mc.thrFr id) a
      let p := t.rd (mc.thrFr id + 8) b
      let m := mc.tileIssue sys q h (.tdrain h md qb qt z i acc a b sl) false
        (mc.drainPlan sys t md (drainRows qb qt).2 (drainRb s) d.toNat p.toNat) (tdrainWide sys) memFin
        fun f => { f with stage := 1, xres := [(0, d.lo), (1, d.hi), (2, p)], back := mc.backs q q.tids }
      m.tileIssued q mc.next acc.toNat

def execTzero (h : Hdr) (qb : Bool) (qt : BitVec 2) (acc : BitVec 6) := onMach fun _ mc => mc.withQ fun q =>
  let iss := mc.next
  let m := ((mc.take 1).addFlight q h (.tzero h qb qt acc) iss (mc.lowestOf q) q.tids [] false true
    fun f => { f with stage := 1, back := mc.backs q q.tids }).goOn q.id iss h.look.toNat
  m.tileIssued q iss acc.toNat

end Sys2Proof.Machine
end

