-- ==== Sys2Proof/Machine/MacroOp.lean ====
section
/-! DEFINITION. The macro-op sequencer (spec/16 R400-R406, spec/21 R441-R444): `mmx`, `mmr` and their steps. -/

namespace Sys2Proof.Machine

def execMmx (h : Hdr) (a : Spec) := onMach fun _ mc =>
  mc.lowPost h (.mmx h a) fun m t fr => (m.postEng t (.mop false (t.rdPair fr a).toNat)).1

def execMmr (h : Hdr) (a : Spec) := onMach fun _ mc =>
  mc.lowPost h (.mmr h a) fun m t fr => (m.postEng t (.mop true (t.rdPair fr a).toNat)).1

/-! ### The descriptor (spec/16 R401) -/

structure MopDesc where
  gtva : Nat
  bsva : Nat
  asva : Nat
  ng : Nat
  donectr : Nat
  scr : Nat
  nacc : Nat
  acc0 : Nat
  dmode : Nat
  slotC : Nat
  slotB : Nat
  slotA : Nat
  idr : Bool
  kb : Nat
  nt : Nat
  mt : Nat
  ldc : Nat
  ldb : Nat
  lda : Nat
  cva : Nat
  bva : Nat
  ava : Nat
deriving DecidableEq, Repr

def mopDesc (d : Nat) : MopDesc :=
  { gtva := bits d 576 64, bsva := bits d 512 64, asva := bits d 448 64, ng := bits d 432 16, donectr := bits d 416 16,
    scr := 64 * bits d 400 16, nacc := bits d 386 7, acc0 := bits d 380 6, dmode := bits d 378 2, slotC := bits d 375 3,
    slotB := bits d 372 3, slotA := bits d 369 3, idr := tbit d 368, kb := bits d 352 16, nt := bits d 336 16,
    mt := bits d 320 16, ldc := bits d 288 32, ldb := bits d 256 32, lda := bits d 224 32, cva := bits d 128 64,
    bva := bits d 64 64, ava := bits d 0 64 }

def MopDesc.mode (d : MopDesc) : DMode :=
  match d.dmode with
  | 1 => .add
  | 2 => .aon
  | _ => .ow

/-- Address of the drain of tile (ti, tj), or of number n in all-or-nothing mode. -/
def MopDesc.tileVa (d : MopDesc) (s : DWord) (cva r0 tj n : Nat) : Nat :=
  if d.dmode = 2 then cva + 32 * drainRb s * (2 * n + 1) else cva + r0 * d.ldc + tj * drainRb s

/-- The scale address fits its slot: needed, or zero. -/
def scaleBad (s : DWord) (va : Nat) : Bool := if scaled s then va == 0 || va % 8 != 0 else va != 0

/-- A descriptor is malformed (spec/16 R405, spec/21 R441). -/
def mopBad (m : Mach) (e : EngOp) (mmr : Bool) (n : Nat) (d : MopDesc) : Bool :=
  let sa := m.fslot e.launch d.slotA
  let sb := m.fslot e.launch d.slotB
  let sc := m.fslot e.launch d.slotC
  n / 2 ^ 640 != 0 || bits n 393 7 != 0 || bits n 192 32 != 0
    || d.nacc == 0 || decide (64 < d.acc0 + d.nacc) || d.dmode == 3 || (d.dmode == 2 && mmr) || d.kb == 0 || d.nt == 0
    || d.lda % 64 != 0 || d.ldb % 64 != 0
    || (if mmr then d.mt != 0 || d.cva != 0 || d.bva != 0 || d.ava != 0 || d.ng == 0 || d.gtva % 64 != 0
        else d.mt == 0 || d.ng != 0 || d.gtva != 0 || d.ava % 64 != 0 || d.bva % 64 != 0)
    || matBad sa sb || drainBad sc d.idr || scaleBad sa d.asva || scaleBad sb d.bsva
    || decide (e.scrLen < d.scr + 5120) || !ctrNamed (m.eff e.launch) d.donectr
    || (drainCheck .ow 1 (drainRb sc) d.cva d.ldc).isSome
    || (!mmr && (List.range (d.mt * d.nt)).any fun k =>
          (drainCheck d.mode 32 (drainRb sc) (d.tileVa sc d.cva (32 * (k / d.nt)) (k % d.nt) k) d.ldc).isSome)

/-! ### Step state: where each number of `nums` stands -/

def EngOp.num (e : EngOp) (i : Nat) : Nat := nth e.nums i
def EngOp.put (e : EngOp) (i v : Nat) : EngOp := { e with nums := modAt e.nums i fun _ => v }

/-- First tile of the group; next K-block; drained bitmap; group, first row and end row of a row tile; a row tile is
running; a boundary is due; the cycle of the last idle check; complete groups; entries checked; rows of the current drain that are
written. -/
abbrev iTile := 1
abbrev iKb := 2
abbrev iMap := 3
abbrev iGrp := 4
abbrev iRow := 5
abbrev iEnd := 6
abbrev iRun := 7
abbrev iDue := 8
abbrev iIdle := 9
abbrev iDone := 10
abbrev iSeen := 11
abbrev iPart := 13

/-- The macro-op at the head of a core's queue. -/
def Mach.mopHead (m : Mach) (core : Nat) : Option EngOp :=
  m.engines.find? fun e => e.core == core && (match e.kind with
    | .mop _ _ => true
    | _ => false)

def EngOp.isMmr (e : EngOp) : Bool :=
  match e.kind with
  | .mop r _ => r
  | _ => false

/-- Locations of all parts of a step, in order, or what becomes of the machine. -/
def Mach.engAll (sys : Sys) (m : Mach) (e : EngOp) (parts : List (Nat × Need)) : Except Mach (List ELoc) :=
  match parts with
  | [] => .ok []
  | p :: r => match m.engAcc sys e p.1 p.2 with
    | .error m' => .error m'
    | .ok l => match Mach.engAll sys m e r with
      | .error m' => .error m'
      | .ok ls => .ok (l :: ls)

/-- Some read of a step meets an uncorrectable word: its location and address. -/
def Mach.engEcc (m : Mach) (ls : List (ELoc × Nat × Nat)) : Option (Nat × Nat) :=
  (ls.find? fun l => badRange m l.1.1 l.2.2).map fun l => (l.1.1, l.2.1)

/-- The first step: the descriptor is read and checked; the tiles and the staging range are reserved. What the range holds
from then on is left open (log 4). -/
def Mach.mopStart (sys : Sys) (m : Mach) (e : EngOp) (mmr : Bool) (va : Nat) : Mach :=
  if va % 128 ≠ 0 then m.engFail e 0x65 va
  else match m.engAll sys e [(va, .r), (va + 64, .r)] with
    | .error m => m
    | .ok ls =>
      match m.engEcc (ls.map fun l => (l, va, 64)) with
      | some (pa, v) => (m.logErr 0x30 e.core pa).engFail e 0x30 v
      | none =>
        let n := ofBytes (ls.flatMap fun l => m.bytes l.1 64)
        let d := mopDesc n
        let m := (ls.zip [va, va + 64]).foldl (fun m l => m.locFix e l.1 64) m
        let e := { e with stage := 1, nums := [n, 0, 0, 0, 0, 0, 0, 0, if mmr then 1 else 0, m.cycle, 0, 0, d.donectr, 0] }
        if mopBad m e mmr n d then m.engFail e 0x65 va
        else if (m.tileWaits e.core).any fun f => (tileOf? f.instr).any fun t => decide (d.acc0 ≤ t) && decide (t < d.acc0 + d.nacc)
        then m
        else
          let lo := scrLoc e.core (e.scrBase + d.scr)
          let junk := wordsBytes ((List.range 1280).map fun i => Config.freeWord (m.free + i))
          let m := ({ m with free := m.free + 1280 } : Mach).engStore e (scrEnd lo) junk
          { m.setEngine e with ranges := m.ranges ++ [{ core := e.core, op := e.id, lo := lo, len := 5120, scratch := true }] }

/-! ### One K-block of a tile group -/

/-- What the running row tile or the whole product works on: A, B and C, the first row of the tile row, and its rows. -/
structure MopView where
  ava : Nat
  bva : Nat
  cva : Nat
  rows : Nat
  total : Nat
deriving DecidableEq, Repr

/-- Tile `k` of the current group: its wave-tile, its first row, its column tile and its number. -/
def mopTile (d : MopDesc) (e : EngOp) (k : Nat) : Nat × Nat × Nat × Nat :=
  let n := e.num iTile + k
  if e.isMmr then (d.acc0 + k, e.num iRow, n, n) else (d.acc0 + k, 32 * (n / d.nt), n % d.nt, n)

def mopCount (d : MopDesc) (e : EngOp) : Nat :=
  Nat.min d.nacc ((if e.isMmr then d.nt else d.mt * d.nt) - e.num iTile)

/-- Addresses that one tile reads for a K-block: 8-byte scales and 64-byte rows. -/
def mopReads (d : MopDesc) (v : MopView) (sa sb : DWord) (t : Nat × Nat × Nat × Nat) (kb : Nat) : List (Nat × Nat) :=
  ((List.range v.rows).flatMap fun r =>
    (v.ava + (t.2.1 + r) * d.lda + 64 * kb, 64) ::
      (if scaled sa then [(d.asva + 8 * ((t.2.1 + r) * d.kb + kb), 8)] else []))
  ++ ((List.range 8).flatMap fun j =>
    (v.bva + (8 * t.2.2.1 + j) * d.ldb + 64 * kb, 64) ::
      (if scaled sb then [(d.bsva + 8 * ((8 * t.2.2.1 + j) * d.kb + kb), 8)] else []))

/-- One operand row from the bytes read: the row and, where it is scaled, its scales. -/
def takeRow (s : DWord) (bs : List (List Byte)) : List (FV × FV) × List (List Byte) :=
  let row := ofBytes (bs.headD [])
  if scaled s then (rowElems s row (scalesOf ((bs.drop 1).headD []) 0), bs.drop 2) else (rowElems s row [], bs.drop 1)

def takeRows (s : DWord) : Nat → List (List Byte) → List (List (FV × FV)) × List (List Byte)
  | 0, bs => ([], bs)
  | n + 1, bs =>
    let r := takeRow s bs
    let q := takeRows s n r.2
    (r.1 :: q.1, q.2)

/-- A K-block of one tile added to its wave-tile; rows that the row tile does not have are zero operand rows. -/
def mopMul (sa sb : DWord) (rows : Nat) (x : Tile) (bs : List (List Byte)) : Tile :=
  let a := takeRows sa rows bs
  let b := (takeRows sb 8 a.2).1.map fun c => [c]
  (List.range 32).foldl (fun x r =>
    x.addRow (intPair sa sb) (slotFmt sa == 13) r [a.1.getD r (rowElems sa 0 [])] b) x

/-- The K-block of the tiles of a group is added, once all of its reads have been made. A boundary follows that stands between two K-blocks
(spec/16 R404). -/
def Mach.mopAdd (m : Mach) (e : EngOp) (d : MopDesc) (v : MopView) (per : Nat) (data : List (List Byte)) : Mach :=
  let kb := e.num iKb
  let m' := (enum ((List.range (mopCount d e)).map (mopTile d e))).foldl (fun m' p =>
    let x := m'.claim e.core p.2.1 e.launch
    let x := if kb = 0 then x.clear 0 32 else x
    m'.setTile (mopMul (m.fslot e.launch d.slotA) (m.fslot e.launch d.slotB) v.rows x ((data.drop (per * p.1)).take per))) m
  m'.setEngine { (e.put iKb (kb + 1)).put iDue (if e.isMmr && decide (kb + 1 < d.kb) then 1 else 0) with got := [] }

/-- A step that has faulted counts as not begun (spec/16 R406): what it has read is forgotten, and how far it has drained. -/
def Mach.mopAgain (m : Mach) (id : Nat) : Mach :=
  { m with engines := m.engines.map fun (e : EngOp) =>
      if e.id = id && e.fault.isSome then { e.put iPart 0 with got := [] } else e }

/-- One 64-byte step of a K-block (spec/07 R213, spec/16 R400): the next row or scale is read, in the order of the tiles; the last one adds
the K-block. -/
def Mach.mopBlock (sys : Sys) (m : Mach) (e : EngOp) (d : MopDesc) (v : MopView) : Mach :=
  let sa := m.fslot e.launch d.slotA
  let sb := m.fslot e.launch d.slotB
  let rd := ((List.range (mopCount d e)).map (mopTile d e)).map fun t => mopReads d v sa sb t (e.num iKb)
  let flat := rd.flatMap fun r => r
  match flat[e.got.length]? with
  | none => m
  | some p =>
    match m.engAcc sys e p.1 .r with
    | .error m => m.mopAgain e.id
    | .ok l =>
      if badRange m l.1 p.2 then (m.logErr 0x30 e.core l.1).engFail e 0x30 p.1
      else
        let data := e.got ++ [m.bytes l.1 p.2]
        let m := m.locFix e l p.2
        if data.length < flat.length then m.setEngine { e with got := data }
        else m.mopAdd e d v (rd.headD []).length data

/-! ### One drain -/

/-- Address of a group's entry; its fields (spec/16 R403). -/
def mopGroup (d : MopDesc) (g : Nat) : Nat := d.gtva + 64 * g

/-- DONE and STATE of a group's entry are written together: bytes 33 to 35, with bits [269:264] zero (spec/21 R444). -/
def Mach.grpWrite (m : Mach) (e : EngOp) (l : ELoc) (done state : Nat) : Mach :=
  m.engStore e (l.1 + 33, l.2) (toBytes (state * 64 + done * 256) 3)

/-- The next tile of the group whose bit is clear. -/
def nextDrain (cnt map : Nat) : Option Nat := (List.range cnt).find? fun k => !tbit map k

/-- After a drain: the bit is set; a group whose drains are all made gives way to the next, and the last of a row tile
writes DONE. -/
def Mach.mopDrained (m : Mach) (e : EngOp) (d : MopDesc) (k : Nat) (grp : Option ELoc) : Mach :=
  let map := setBit (e.num iMap) k true
  let e := (e.put iDue (if e.isMmr then 1 else 0)).put iPart 0
  if (nextDrain (mopCount d e) map).isSome then m.setEngine (e.put iMap map)
  else
    let n := e.num iTile + mopCount d e
    let e := ((e.put iTile n).put iKb 0).put iMap 0
    if e.isMmr && decide (d.nt ≤ n) then
      let m := match grp with
        | some l => m.grpWrite e l (e.num iEnd) 1
        | none => m
      m.setEngine (e.put iRun 0)
    else m.setEngine e

/-- Rows of a drain that one step writes, from the first one on that is not written: those of one sector in an overwrite drain, else all
(spec/07 R217). -/
def drainNow (mode : DMode) (va ldc rows i : Nat) : Nat :=
  if mode = .ow then ((List.range (rows - i)).takeWhile fun j => (va + (i + j) * ldc) / 64 == (va + i * ldc) / 64).length else rows - i

/-- One step of the drain of a tile. -/
def Mach.mopDrain (sys : Sys) (m : Mach) (e : EngOp) (d : MopDesc) (v : MopView) (k : Nat) : Mach :=
  let sc := m.fslot e.launch d.slotC
  let rb := drainRb sc
  let t := mopTile d e k
  let va := d.tileVa sc v.cva t.2.1 t.2.2.1 t.2.2.2
  if (drainCheck d.mode v.rows rb va d.ldc).isSome && d.dmode != 2 then m.engFail e 0x65 va
  else
    let rows := (List.range v.rows).map fun r => (va + r * d.ldc, Need.w)
    let extra := (if d.dmode = 2 then [(va - 64, Need.w)] else []) ++ (if e.isMmr then [(mopGroup d (e.num iGrp), Need.w)] else [])
    match m.engAll sys e (rows ++ extra) with
    | .error m => m.mopAgain e.id
    | .ok ls =>
      let rl := ls.take v.rows
      let far (l : ELoc) := attrFar l.2.1 || attrRem l.2.1
      if d.dmode ≠ 0 ∧ (rl.any far) then m.engFail e 0x67 va
      else
        let md := if d.dmode = 2 then ls[v.rows]? else none
      if md.any fun l => m.tileHeld l.1 then m     -- it waits for an `ldt` that holds the tile (spec/07 R216)
      else
        let grp := if e.isMmr then ls.getLast? else none
        let bad := (rl.any fun l => m.eccBlocks l.1 rb || (d.dmode == 1 && m.eccBad l.1 rb)) || md.any fun l => m.eccBad l.1 8
        if bad then (m.logErr 0x30 e.core ((rl.headD (0, 0)).1)).engFail e 0x30 va
        else
          let m := if d.dmode = 1 then rl.foldl (fun m l => m.locFix e l rb) m else m
          let ws := (m.tile e.core t.1).words
          let i := e.num iPart
          let n := drainNow d.mode va d.ldc v.rows i
          let m := (((enum rl).drop i).take n).foldl (fun m p =>
            m.engStore e p.2 (drainBytes sc d.mode d.idr ((ws.drop (8 * p.1)).take 8) (m.num p.2.1 rb))) m
          if i + n < v.rows then m.setEngine (e.put iPart (i + n))
          else
            let m := match md with
              | some l => ((m.locFix e l 8).engStore e l (toBytes (m.num l.1 4 + 1) 4)).retryTile l.1
              | none => m
            m.mopDrained e d k grp

/-! ### The steps -/

def Mach.mopView (sys : Sys) (m : Mach) (e : EngOp) (d : MopDesc) : Except Mach MopView :=
  if e.isMmr then
    match m.engAcc sys e (mopGroup d (e.num iGrp)) .r with
    | .error m => .error (m.mopAgain e.id)
    | .ok l =>
      if badRange m l.1 64 then .error ((m.logErr 0x30 e.core l.1).engFail e 0x30 (mopGroup d (e.num iGrp)))
      else .ok
        { ava := m.num l.1 8, bva := m.num (l.1 + 8) 8, cva := m.num (l.1 + 16) 8, rows := e.num iEnd - e.num iRow, total := d.nt }
  else .ok { ava := d.ava, bva := d.bva, cva := d.cva, rows := 32, total := d.mt * d.nt }

/-- A step of a macro-op that has begun: a K-block, a drain, or the retirement of an `mmx`. -/
def Mach.mopRun (sys : Sys) (m : Mach) (e : EngOp) : Mach :=
  let d := mopDesc (e.num 0)
  match m.mopView sys e d with
  | .error m => m
  | .ok v =>
    if decide (v.total ≤ e.num iTile) then (if e.isMmr then m else m.engRetire e d.donectr)
    else if e.num iKb < d.kb then m.mopBlock sys e d v
    else match nextDrain (mopCount d e) (e.num iMap) with
      | some k => m.mopDrain sys e d v k
      | none => m

/-- The region of an operation is being saved: a macro-op at a step point stays there (spec/04 R138). -/
def Mach.engStopped (m : Mach) (e : EngOp) : Bool := !e.midStep && m.preempts.any fun p => p.rcb == e.rcb

/-- The accumulators of the macro-op's drain hold an uncorrectable error (spec/06 R199). -/
def Mach.mopTileBad (m : Mach) (e : EngOp) : Bool := m.tiles.any fun x => x.core == e.core && x.err == 2 && e.holdsTile e.core x.t

/-- Single-bit errors of the accumulators of the macro-op are corrected and counted (spec/06 R198). -/
def Mach.mopTileFix (m : Mach) (e : EngOp) : Mach :=
  let hit (x : Tile) : Bool := x.core == e.core && x.err == 1 && e.holdsTile e.core x.t
  (m.tiles.filter hit).foldl (fun m _ => m.count1 e.core false)
    { m with tiles := m.tiles.map fun (x : Tile) => if hit x then { x with err := 0 } else x }

/-- MACRO_OP_STEP: one step of the macro-op at the head of a core's queue. -/
def execMacroOpStep (core : Nat) := onMach fun sys mc =>
  match mc.mopHead core with
  | none => mc
  | some e =>
    if mc.engStopped e then mc
    else
      (mc.engGate sys e fun m e => match e.kind with
        | .mop mmr va =>
          let m := if e.fault.isNone then m.markBusy core e.launch else m
          if e.stage = 0 then m.mopStart sys e mmr va
          else if m.mopTileBad e then (m.logErr 0x30 core 0).engFail e 0x30 0
          else if mmr && (e.num iDue == 1 || e.num iRun == 0) then m
          else (m.mopTileFix e).mopRun sys e
        | _ => m).pump core

/-! ### `mmr` step boundaries (spec/16 R404, spec/21 R444) -/

structure MopGrp where
  g : Nat
  loc : ELoc
  done : Nat
  rows : Nat
  prio : Nat
  arm : Nat
  trig : Nat
  bad : Bool
deriving DecidableEq, Repr

/-- A group's entry as it is read; its reserved bits and what its drains would break. -/
def Mach.mopGrp (m : Mach) (e : EngOp) (d : MopDesc) (g : Nat) (l : ELoc) : MopGrp :=
  let n := m.num l.1 64
  let sc := m.fslot e.launch d.slotC
  let rows := bits n 192 16
  let crosses := (List.range ((rows + 31) / 32 * d.nt)).any fun k =>
    let r0 := 32 * (k / d.nt)
    (drainCheck d.mode (Nat.min 32 (rows - r0)) (drainRb sc) (d.tileVa sc (bits n 128 64) r0 (k % d.nt) 0) d.ldc).isSome
  { g := g, loc := l, done := bits n 272 16, rows := Nat.max rows (bits n 272 16), prio := bits n 256 4, arm := bits n 224 16,
    trig := bits n 240 16,
    bad := n / 2 ^ 288 != 0 || bits n 260 10 != 0 || bits n 208 16 != 0 || bits n 0 64 % 64 != 0 || bits n 64 64 % 64 != 0
      || bits n 128 64 % drainRb sc != 0
      || !ctrNamed (m.eff e.launch) (bits n 224 16) || !ctrNamed (m.eff e.launch) (bits n 240 16) || crosses }

def Mach.mopArmed (m : Mach) (e : EngOp) (g : MopGrp) : Bool := g.arm == 0xFFFF || decide (g.rows ≤ (m.ctr e.rcb g.arm).val)

/-- An arming test that a counter passes acquires the releases on it, for the posting wave (spec/21 R443; log 143). -/
def Mach.mopAcquire (m : Mach) (e : EngOp) (g : MopGrp) : Mach :=
  if g.arm = 0xFFFF || !m.mopArmed e g then m
  else
    let c := m.ctr e.rcb g.arm
    (m.acquire e.poster 6 (.ctr e.rcb g.arm)).relLearn { launch := e.launch, wave := e.wave } c.rel c.many

/-- A complete group: STATE 2 (spec/21 R444), and its trigger. -/
def Mach.mopComplete (m : Mach) (e : EngOp) (g : MopGrp) : Mach := (m.grpWrite e g.loc g.done 2).engAdd e g.trig

/-- The group whose row tile runs next: armed, rows left, highest priority, then lowest index. -/
def mopChoose (m : Mach) (e : EngOp) (gs : List MopGrp) : Option MopGrp :=
  minBy (fun a b => decide (b.prio < a.prio) || (a.prio == b.prio && decide (a.g < b.g)))
    (gs.filter fun g => m.mopArmed e g && decide (g.done < g.rows))

def Mach.mopBoundary (sys : Sys) (m : Mach) (e : EngOp) : Mach :=
  let d := mopDesc (e.num 0)
  let open_ := (List.range d.ng).filter fun g => !tbit (e.num iDone) g
  match m.engAll sys e (open_.map fun g => (mopGroup d g, .r)) with
  | .error m => m
  | .ok ls =>
    match m.engEcc ((ls.zip open_).map fun p => (p.1, mopGroup d p.2, 64)) with
    | some (pa, va) => (m.logErr 0x30 e.core pa).engFail e 0x30 va
    | none =>
      let m := ls.foldl (fun m l => m.locFix e l 64) m
      let gs := (ls.zip open_).map fun p => m.mopGrp e d p.2 p.1
      match (if e.num iSeen = 0 then gs.find? fun g => g.bad else none) with
      | some g => m.engFail e 0x65 (mopGroup d g.g)
      | none =>
        let e := e.put iSeen 1
        let fin := gs.filter fun g => m.mopArmed e g && g.done == g.rows
        match m.engAll sys e (fin.map fun g => (mopGroup d g.g, .w)) with
        | .error m => m
        | .ok _ =>
          let m := gs.foldl (fun m g => m.mopAcquire e g) m
          let m := fin.foldl (fun m g => m.mopComplete e g) m
          let e := e.put iDone (fin.foldl (fun n g => setBit n g.g true) (e.num iDone))
          if gs.length = fin.length then m.engRetire e d.donectr
          else
            let e := e.put iDue 0
            if e.num iRun = 1 then m.setEngine e
            else match mopChoose m e gs with
              | none => m.setEngine (e.put iIdle m.cycle)
              | some g => match m.engAcc sys e (mopGroup d g.g) .w with
                | .error m => m
                | .ok l =>
                  let e := (((e.put iGrp g.g).put iRow g.done).put iEnd (Nat.min (g.done + 32) g.rows)).put iRun 1
                  (m.grpWrite e l g.done 1).setEngine (((e.put iTile 0).put iKb 0).put iMap 0)

/-- MMR_STEP_BOUNDARY. -/
def execMmrStepBoundary (core : Nat) := onMach fun sys mc =>
  match mc.mopHead core with
  | none => mc
  | some e =>
    if e.isMmr && decide (1 ≤ e.stage) && e.num iDue == 1 && !mc.engStopped e then
      (mc.engGate sys e fun m e => m.mopBoundary sys e).pump core
    else mc

/-- MMR_IDLE_CHECK: an idle `mmr` reaches a boundary every 64 cycles. -/
def execMmrIdleCheck (core : Nat) := onMach fun _ mc =>
  match mc.mopHead core with
  | none => mc
  | some e =>
    if e.isMmr && decide (1 ≤ e.stage) && e.num iDue == 0 && e.num iRun == 0 && decide (e.num iIdle + 64 ≤ mc.cycle)
        && !mc.engStopped e then mc.setEngine (e.put iDue 1)
    else mc

end Sys2Proof.Machine
end

