-- ==== Sys2Proof/Machine/Streams.lean ====
section
/-! DEFINITION. Stream engines and rings (spec/17 R419-R422). -/

namespace Sys2Proof.Machine

/-! ### Tensor layout records (spec/17 R419) -/

structure TRec where
  nprod : Nat
  prodnum : Nat
  drain : Bool
  slotb : Nat
  slotoff : Nat
  nslot : Nat
  ring : Nat
  esz : Nat
  stride2 : Nat
  stride1 : Nat
  dim2 : Nat
  dim1 : Nat
  dim0 : Nat
  base : Nat
deriving DecidableEq, Repr

def tRec (n : Nat) : TRec :=
  { nprod := bits n 288 8, prodnum := bits n 284 4, drain := tbit n 280, slotb := bits n 264 16, slotoff := bits n 248 16,
    nslot := bits n 240 8, ring := bits n 232 8, esz := 2 ^ bits n 224 2, stride2 := bits n 192 32, stride1 := bits n 160 32,
    dim2 := bits n 128 32, dim1 := bits n 96 32, dim0 := bits n 64 32, base := bits n 0 64 }

/-- Bytes of the element stream. -/
def TRec.total (r : TRec) : Nat := r.dim0 * r.dim1 * r.dim2 * r.esz

/-- Address of a byte of the element stream. -/
def TRec.at_ (r : TRec) (b : Nat) : Nat :=
  let row := b / (r.dim0 * r.esz)
  r.base + row / r.dim1 * r.stride2 + row % r.dim1 * r.stride1 + b % (r.dim0 * r.esz)

/-- A record that no ring can take (spec/17 R419); its reserved fields have no effect (spec/00 R4). -/
def tRecBad (n : Nat) : Bool :=
  let r := tRec n
  r.nprod == 0 || (if r.drain then decide (64 < r.nprod) || r.prodnum != 0 else decide (4 < r.nprod) || decide (r.nprod ≤ r.prodnum))
    || r.slotb == 0 || decide (1024 < r.slotb) || decide (r.nslot < 2) || decide (64 < r.nslot) || decide (15 < r.ring)
    || r.dim0 == 0 || r.dim1 == 0 || r.dim2 == 0 || r.base % r.esz != 0

/-! ### Rings -/

def Mach.ring? (m : Mach) (core num : Nat) : Option Ring := m.rings.find? fun r => r.core == core && r.num == num

def Mach.setRing (m : Mach) (r : Ring) : Mach :=
  { m with rings := r :: m.rings.filter fun u => !(u.core == r.core && u.num == r.num) }

def Ring.slot (r : Ring) (i : Nat) : RingSlot := r.slots.getD i {}
def Ring.setSlot (r : Ring) (i : Nat) (s : RingSlot) : Ring := { r with slots := modAt r.slots i fun _ => s }
def Ring.next (r : Ring) (i : Nat) : Nat := (i + 1) % r.slots.length

/-- The ring of an engine operation. -/
def EngOp.layout (e : EngOp) : TRec := tRec (nth e.nums 0)

def EngOp.streams (e : EngOp) (core num : Nat) : Bool :=
  match e.kind with
  | .stream _ _ => e.core == core && e.stage == 1 && e.layout.ring == num
  | _ => false

/-- A ring whose producers have all ended and whose slots are all empty closes; its drain engine has nothing more to do
(spec/17 R422). -/
def Mach.ringClose (m : Mach) (core num : Nat) : Mach :=
  match m.ring? core num with
  | none => m
  | some r =>
    if r.marks.length < r.nprod || !(r.slots.all fun s => s.st == .empty) then m
    else
      let m := m.setRing { r with closed := true }
      (m.engines.filter fun e => e.streams core num).foldl (fun m e =>
        match e.nums.drop 3 with
        | va :: _ => m.engFail e 0x30 va
        | [] => m.engRetire e 0xFFFF) m

/-! ### `stcfg` and the head of a stream queue (spec/17 R420) -/

def execStcfg (h : Hdr) (e : BitVec 2) (a : Spec) := onMach fun _ mc =>
  mc.lowPost h (.stcfg h e a) fun m t fr => (m.postEng t (.stream e.toNat (t.rdPair fr a).toNat)).1

/-- The head of stream queue `e`. -/
def Mach.streamHead (m : Mach) (core e : Nat) : Option EngOp :=
  m.engines.find? fun o => o.core == core && (match o.kind with
    | .stream k _ => k == e
    | _ => false)

/-- The engine joins the ring of its record, or creates it. `nums` holds the record, the slot in hand plus 1, and since when
the engine asks for a slot; then each address whose read met an error. -/
def Mach.ringJoin (m : Mach) (e : EngOp) (n : Nat) : Mach :=
  let r := tRec n
  let e := { e with stage := 1, i := 0, nums := [n, 0, m.cycle] }
  match (m.ring? e.core r.ring).filter fun g => !g.closed with
  | none =>
    let g : Ring := { core := e.core, num := r.ring, launch := e.launch, owner := e.wave, drain := r.drain,
                      slotOff := 64 * r.slotoff, slotBytes := 64 * r.slotb, nprod := r.nprod, prods := [r.prodnum],
                      slots := List.replicate r.nslot {} }
    if e.scrLen < g.slotOff + r.nslot * g.slotBytes then m.engFail e 0x64 (64 * r.slotoff)
    else (m.setRing g).setEngine e
  | some g =>
    if g.launch = e.launch ∧ g.drain = r.drain ∧ g.slots.length = r.nslot ∧ g.slotOff = 64 * r.slotoff
        ∧ g.slotBytes = 64 * r.slotb ∧ g.nprod = r.nprod ∧ !g.prods.contains r.prodnum ∧ !g.drain then
      (m.setRing { g with prods := g.prods ++ [r.prodnum] }).setEngine e
    else m.engFail e 0x64 0

/-- The first step of a stream operation reads its record. -/
def Mach.streamStart (sys : Sys) (m : Mach) (e : EngOp) (va : Nat) : Mach :=
  if va % 64 ≠ 0 then m.engFail e 0x64 va
  else match m.engAcc sys e va .r with
    | .error m => m
    | .ok l =>
      if badRange m l.1 64 then (m.logErr 0x30 e.core l.1).engFail e 0x30 va
      else
        let m := m.locFix e l 64
        let n := m.num l.1 64
        if tRecBad n then m.engFail e 0x64 va else m.ringJoin e n

/-! ### Steps of 64 bytes -/

/-- Bytes of a step: the offset in the step and the address in the element stream, up to the stream's end. -/
def TRec.stepBytes (r : TRec) (pos : Nat) : List (Nat × Nat) :=
  ((List.range 64).filter fun j => decide (pos + j < r.total)).map fun j => (j, r.at_ (pos + j))

/-- Scratch location of a slot of a ring. -/
def Mach.slotLoc (m : Mach) (g : Ring) (i : Nat) : Nat :=
  ((m.wave? g.owner).map Wave.scrAt).getD (scrLoc g.core 0) + g.slotOff + i * g.slotBytes

/-- One 64-byte step of a fill: words whose source is in error are not written (spec/06 R200). -/
def Mach.fillBytes (m : Mach) (e : EngOp) (dst : Nat) (src : List (Nat × Nat)) (ls : List ELoc) : Mach × List Nat :=
  let bs := src.zip ls
  let bad := bs.filter fun b => badRange m b.2.1 1
  let data := (bs.flatMap fun b => m.bytes b.2.1 1) ++ List.replicate (64 - bs.length) 0
  let m := (List.range 8).foldl (fun m w =>
    if bad.any fun b => b.1.1 / 8 == w then m
    else m.engStore e (scrEnd (dst + 8 * w)) ((data.drop (8 * w)).take 8)) m
  match bad with
  | [] => (m, [])
  | b :: _ => (m.logErr 0x30 e.core b.2.1, [b.1.2])

/-- The engine takes the ring's next empty slot, before the engines that asked later or have a higher producer number. -/
def Mach.fillTurn (m : Mach) (e : EngOp) (g : Ring) : Bool :=
  (g.slot g.fillAt).st == .empty && !(m.engines.any fun o =>
    o.streams e.core g.num && o.id != e.id && nth o.nums 1 == 0
      && lexLt [nth o.nums 2, o.layout.prodnum] [nth e.nums 2, e.layout.prodnum])

/-- Copying into the slot in hand; a finished slot becomes full, as a release of the engine's writes. -/
def Mach.fillStep (sys : Sys) (m : Mach) (e : EngOp) (g : Ring) (i : Nat) : Mach :=
  let r := e.layout
  let src := r.stepBytes (64 * e.i)
  match m.engAll sys e (src.map fun p => (p.2, Need.r)) with
  | .error m => m
  | .ok ls =>
    let j := e.i % r.slotb
    let m := ls.foldl (fun m l => m.locFix e l 1) m
    let (m, bad) := m.fillBytes e (m.slotLoc g i + 64 * j) src ls
    let e := { e with i := e.i + 1, nums := e.nums ++ bad }
    if j + 1 < r.slotb then m.setEngine e
    else
      let start := 64 * (e.i - r.slotb)
      let last := decide (r.total ≤ 64 * e.i)
      let s : RingSlot := { (g.slot i).released (m.relOf e.launch e.wave) with
                            st := .full, valid := Nat.min (64 * r.slotb) (r.total - start), prod := r.prodnum, last := last }
      let m := m.sync e.poster 3 true false (.slot g.core g.num i)
      let g := g.setSlot i s
      if last then
        let m := m.setRing { g with marks := g.marks ++ [r.prodnum] }
        match e.nums.drop 3 with
        | va :: _ => m.engFail e 0x30 va
        | [] => m.engRetire e 0xFFFF
      else (m.setRing g).setEngine { e with nums := [nth e.nums 0, 0, m.cycle] ++ e.nums.drop 3 }

/-- STREAM_FILL_STEP: the fill engine at the head of a stream queue takes a slot, or makes a step. -/
def execStreamFillStep (core eng : Nat) := onMach fun sys mc =>
  match mc.streamHead core eng with
  | none => mc
  | some e =>
    if e.stage ≠ 1 || e.layout.drain then mc
    else mc.engGate sys e fun m e => match m.ring? core e.layout.ring with
      | none => m.engFail e 0x64 0
      | some g => match nth e.nums 1 with
        | i + 1 => m.fillStep sys e g i
        | 0 =>
          if m.fillTurn e g then
            (m.setRing { g.setSlot g.fillAt { g.slot g.fillAt with st := .held 0 } with fillAt := g.next g.fillAt }).setEngine
              { e with nums := [nth e.nums 0, g.fillAt + 1, nth e.nums 2] ++ e.nums.drop 3 }
          else m

/-- Bytes at consecutive locations, grouped. -/
def runsOf : List (ELoc × Byte) → List (ELoc × List Byte)
  | [] => []
  | (l, b) :: r => match runsOf r with
    | (l', bs) :: t => if l'.1 = l.1 + 1 then (l, b :: bs) :: t else (l, [b]) :: (l', bs) :: t
    | [] => [(l, [b])]

/-- One 64-byte step of a drain. -/
def Mach.drainStep (sys : Sys) (m : Mach) (e : EngOp) (g : Ring) (i : Nat) : Mach :=
  let r := e.layout
  let j := e.i % r.slotb
  let src := m.slotLoc g i + 64 * j
  let dst := r.stepBytes (64 * e.i)
  match m.engAll sys e (dst.map fun p => (p.2, Need.w)) with
  | .error m => m
  | .ok ls =>
    let m := if dst = [] then m else m.eccFix e.core src 64
    let bs := (dst.zip ls).map fun b => (b.1, b.2, m.mem.read (src + b.1.1))
    let bad := bs.filter fun b => m.eccBad (src + b.1.1) 1
    let good := bs.filter fun b => !m.eccBad (src + b.1.1) 1
    let runs := runsOf (good.map fun b => (b.2.1, b.2.2))
    let stuck := runs.filter fun x => m.eccBlocks x.1.1 x.2.length
    let m := runs.foldl (fun m x => if m.eccBlocks x.1.1 x.2.length then m else m.engStore e x.1 x.2) m
    let m := if bad = [] && stuck = [] then m else m.logErr 0x30 e.core (if bad = [] then (stuck.map fun x => x.1.1).headD 0 else src)
    let fail := if bad = [] && stuck = [] then [] else [(dst.headD (0, 0)).2]
    let e := { e with i := e.i + 1, nums := e.nums ++ fail }
    if j + 1 < r.slotb then m.setEngine e
    else
      let m := m.setEngine { e with nums := [nth e.nums 0, 0, m.cycle] ++ e.nums.drop 3 }
      let m := m.sync e.poster 3 true false (.slot g.core g.num i)
      (m.setRing (g.setSlot i { (g.slot i).released (m.relOf e.launch e.wave) with st := .empty })).ringClose g.core g.num

/-- STREAM_DRAIN_STEP: the drain engine takes the ring's next full slot, or makes a step. -/
def execStreamDrainStep (core eng : Nat) := onMach fun sys mc =>
  match mc.streamHead core eng with
  | none => mc
  | some e =>
    if e.stage ≠ 1 || !e.layout.drain then mc
    else mc.engGate sys e fun m e => match m.ring? core e.layout.ring with
      | none => m.engFail e 0x64 0
      | some g => match nth e.nums 1 with
        | i + 1 => m.drainStep sys e g i
        | 0 =>
          if (g.slot g.takeAt).st == .full then
            (m.setRing { g.setSlot g.takeAt { g.slot g.takeAt with st := .held 0 } with takeAt := g.next g.takeAt }).setEngine
              { e with nums := [nth e.nums 0, g.takeAt + 1, nth e.nums 2] ++ e.nums.drop 3 }
          else m

/-! ### `rwait`, `rdone`, `rclose` (spec/17 R421) -/

/-- The ring that an instruction of a launch names. -/
def Mach.liveRing (m : Mach) (q : Quarter) (num : Nat) (closedToo : Bool) : Option Ring :=
  (m.ring? q.core num).filter fun g => g.launch == q.launch && (closedToo || !g.closed)

/-- Where slot 0 of a ring begins, as an offset of the executing wave: its own, or through the owner's window. -/
def Mach.ringBase (m : Mach) (t : Thread) (g : Ring) : Option Nat :=
  if t.wave = g.owner then some g.slotOff
  else ((m.share? (coreGrove t.core) t.launch).bind fun s => s.members.find? fun p => p.2 == g.owner).map fun p =>
    0x1000000 + p.1 * 0x40000 + g.slotOff

/-- The slot an `rwait` would obtain. -/
def Ring.want (g : Ring) : Nat := if g.drain then g.fillAt else g.takeAt

def Ring.metaWord (g : Ring) (s : RingSlot) : Word :=
  if g.drain then 0 else wN (s.valid % 2 ^ 20 + s.prod % 16 * 2 ^ 24 + (if s.last then 2 ^ 31 else 0))

def execRwait (h : Hdr) (r : BitVec 4) (d : Spec) := onMach fun _ mc => mc.withQ fun q =>
  let t := mc.thr (mc.lowestOf q)
  let i : Instr := .rwait h r d
  match mc.liveRing q r.toNat true with
  | none => mc.raiseQ q 0x51 h.flag.toNat fun _ => 0
  | some g =>
    if q.tids.any fun t => !(mc.thr t).acquireReady then mc.waitQ q .flags
    else if g.closed then mc.passWait q.id h i (some d) fun _ => [0xFFFFFFFF, 0]
    else if !g.ready then mc.waitQ q (.ring r.toNat)
    else match mc.ringBase t g with
      | none => mc.raiseQ q 0x2A h.flag.toNat fun _ => 0
      | some base =>
        let k := g.want
        let s := g.slot k
        let g' := g.setSlot k { s with st := .held t.wave }
        let g' := if g.drain then { g' with fillAt := g.next k } else { g' with takeAt := g.next k }
        (((mc.setRing g').acquire t.id 3 (.slot q.core g.num k)).relLearn t s.rel s.many).passWait q.id h i (some d) fun _ => [wN (base + k * g.slotBytes), g.metaWord s]

/-- A post on a ring: the ring must be live for the launch, the check must hold, and the earlier accesses have performed. -/
def Mach.ringPost (m : Mach) (h : Hdr) (i : Instr) (num : Nat) (f : Mach → Quarter → Thread → Ring → Option Mach) : Mach :=
  m.withQ fun q =>
    let t := m.thr (m.lowestOf q)
    match m.liveRing q num false with
    | none => m.raiseQ q 0x51 h.flag.toNat fun _ => 0
    | some g =>
      if m.postWaits [t.id] then m.waitQ q .flags
      else match f m q t g with
        | none => m.raiseQ q 0x5A h.flag.toNat fun _ => 0
        | some m => m.accepted q h i

def execRdone (h : Hdr) (r : BitVec 4) (a : Spec) := onMach fun _ mc =>
  mc.ringPost h (.rdone h r a) r.toNat fun m q t g =>
    let off := (t.rd (m.thrFr t.id) a).toNat
    let hit := (List.range g.slots.length).find? fun k =>
      (m.ringBase t g).any (fun b => b + k * g.slotBytes == off) && (g.slot k).st == .held t.wave
    hit.map fun k =>
      let m := m.release t 3 (.slot g.core g.num k)
      let s := (g.slot k).released (m.relOf q.launch t.wave)
      let s : RingSlot := if g.drain then { s with st := .full, valid := g.slotBytes, prod := t.wave } else { s with st := .empty }
      (m.setRing (g.setSlot k s)).ringClose g.core g.num

def execRclose (h : Hdr) (r : BitVec 4) := onMach fun _ mc =>
  mc.ringPost h (.rclose h r) r.toNat fun m _ t g =>
    if !g.drain || g.marks.contains t.wave || decide (g.nprod ≤ g.marks.length) then none
    else some (((m.release t 3 (.slot g.core g.num g.takeAt)).setRing { g with marks := g.marks ++ [t.wave] }).ringClose g.core g.num)

end Sys2Proof.Machine
end

