-- ==== Sys2Proof/Machine/Queues.lean ====
section
/-! DEFINITION. Collective submission queues as threads see them, and `qfence` (spec/17 R412-R415, spec/07 R214,
spec/08 R234). -/

namespace Sys2Proof.Machine

/-! ### Queue pairs -/

def Mach.setPair (m : Mach) (p : QPair) : Mach :=
  { m with qpairs := p :: m.qpairs.filter fun u => !(u.rcb == p.rcb && u.q == p.q) }

/-- A record enters a retirement queue of 64: the oldest is discarded when it is full (spec/17 R413). -/
def Mach.addRec (m : Mach) (rcb q : Nat) (r : RetRec) : Mach :=
  let p := m.pair rcb q
  let l := p.rets ++ [r]
  m.setPair { p with rets := l.drop (l.length - 64) }

/-- The queue field names no pair of the region: 0x66 (spec/17 R407). -/
def Mach.pairRange (m : Mach) (h : Hdr) (q : Quarter) (n : Nat) (k : Mach) : Mach :=
  if (m.eff q.launch).qpairs ≤ n then m.raiseQ q 0x66 h.flag.toNat fun _ => 0 else k

/-- An operation of a thread enters submission queue `n` of its region: a work entry as a release toward the engine at `.k` (spec/07
R208). -/
def Mach.submit (m : Mach) (t : Thread) (n : Nat) (rlinv : Bool) (bs : List Byte) (desc : Nat) : Mach :=
  let rcb := (m.launch t.launch).rcb
  let e : SubEnt := { eid := m.next, rlinv := rlinv, bytes := bs, desc := desc, poster := t.poster, wave := t.wave,
                      launch := t.launch, fdom := (m.eff t.launch).fdom, stamp := m.threadStamp t }
  let m := (if rlinv then m else m.release t 3 (.queue t.core)).take 1
  let p := m.pair rcb n
  (m.setPair { p with subs := p.subs ++ [e] }).arm rcb

/-! ### Reading scratch at issue -/

/-- A read of a thread's scratch that performs as the instruction issues: its checks, its judgement, an error in its words, which comes
after the judgement (spec/06 R189). -/
def Mach.readNow (m : Mach) (t : Thread) (off len algn : Nat) : TPlan :=
  let acc := scratchAcc m t off len algn
  { acc := if acc.isOk && m.eccBad acc.loc len then .ecc acc.loc else acc, va := off, judge := m.judged t acc len }

/-- A destination range of a copy holds the read (spec/07 R215). -/
def Mach.readHeld (m : Mach) (t : Thread) (off len algn : Nat) : Bool :=
  let acc := scratchAcc m t off len algn
  acc.isOk && m.rangeHolds t.core 0 { oid := 0, uid := 0, kind := .load false, loc := acc.loc, len := len }

/-- The flights of an issue, in ascending thread order of their owners. -/
def Mach.issueOf (m : Mach) (iss : Nat) : List Flight :=
  let fs := m.flights.filter fun f => f.iss == iss
  (m.inOrder (fs.map fun f => f.owner)).filterMap fun id => fs.find? fun f => f.owner == id

/-- The entry offset of each active thread. -/
def Mach.offs (m : Mach) (q : Quarter) (a : Spec) : List (Nat × Nat) :=
  q.active.map fun p => (p.2, ((m.thr p.2).rd (m.fr p.1) a).toNat)

def execQpost (h : Hdr) (n : BitVec 6) (a : Spec) := onMach fun sys mc => mc.withQ fun q =>
  mc.pairRange h q n.toNat (
    let offs := mc.offs q a
    if mc.postWaits q.tids || (offs.any fun p => mc.readHeld (mc.thr p.1) p.2 64 64) then mc.waitQ q .flags
    else if !mc.subRoom (mc.launch q.launch) n.toNat q.tids.length then mc.waitQ q (.queue n.toNat q.tids.length)
    else
      let iss := mc.next
      let m := mc.memIssue sys h (.qpost h n a) false none (fun _ t => mc.readNow t (look 0 offs t.id) 64 64) noWide memFin
        fun id f => { f with got := [(0, mc.bytes (scratchAcc mc (mc.thr id) (look 0 offs id) 64 64).loc 64)] }
      (m.issueOf iss).foldl (fun m f => m.submit (m.thr f.owner) n.toNat false f.bytes 0) m)

def execRlinv (h : Hdr) (n : BitVec 6) (a : Spec) := onMach fun _ mc => mc.withQ fun q =>
  mc.pairRange h q n.toNat (
    let t := mc.thr (mc.lowestOf q)
    if mc.postWaits [t.id] then mc.waitQ q .flags
    else if !mc.subRoom (mc.launch q.launch) n.toNat 1 then mc.waitQ q (.queue n.toNat 1)
    else mc.lowPost h (.rlinv h n a) fun m t fr => m.submit t n.toNat true [] (t.rdPair fr a).toNat)

/-! ### `qfence` (spec/17 R414) -/

/-- The set joins an engine queue, or a pair. -/
def QSetHas (s : QSet) (n : Nat) (q : EQueue) : Bool :=
  match q with
  | .copy => s.c
  | .mop => s.m
  | .stream _ => s.s
  | .pair k => s.a || (s.p && k == n)
  | .sigUnit => false
  | .remoteSig => false

/-- Held errors that a `qfence` covers: of its queues, and of the two units that no fence names. -/
def qfCovers (s : QSet) (n : Nat) (e : HeldErr) : Bool := QSetHas s n e.q || e.q == .sigUnit || e.q == .remoteSig

/-- Something that a thread posted to the named queues has not retired. -/
def Mach.qfBusy (m : Mach) (rcb : Nat) (s : QSet) (n id : Nat) : Bool :=
  let id := (m.thr id).poster
  (m.engines.any fun e => e.poster == id && QSetHas s n e.queue)
    || (m.qpairs.any fun p => p.rcb == rcb && QSetHas s n (.pair p.q) && p.subs.any fun e => e.poster == id)
    || (m.colls.any fun e => e.rcb == rcb && e.poster == id && QSetHas s n (.pair e.q))

/-- The oldest record of a pair is taken off its retirement queue. -/
def Mach.takeRec (m : Mach) (rcb q : Nat) : Mach × List Word :=
  let p := m.pair rcb q
  match p.rets with
  | [] => (m, [0, 0, 0xFF, 0])
  | r :: rest => (m.setPair { p with rets := rest }, [r.tag.lo, r.tag.hi, wN (r.outcome % 256 + r.op % 256 * 256), wN rest.length])

def execQfence (h : Hdr) (n : BitVec 6) (s : QSet) (d : Spec) := onMach fun _ mc => mc.withQ fun q =>
  let rcb := (mc.launch q.launch).rcb
  let go : Mach :=
    if q.tids.any fun t => !(mc.thr t).acquireReady || mc.qfBusy rcb s n.toNat t then mc.waitQ q .flags
    else
      let m := q.tids.foldl (fun m id => m.acquire id 3 (.queue q.core)) mc
      let m := m.deliver q h.flag.toNat fun _ e => qfCovers s n.toNat e
      match m.quarter? q.id with
      | none => m
      | some _ =>
        if s.r then
          let r := m.takeRec rcb n.toNat
          r.1.passWait q.id h (.qfence h n s d) (some d) fun _ => r.2
        else m.passWait q.id h (.qfence h n s d) none fun _ => []
  if s.p || s.r then mc.pairRange h q n.toNat go else go

end Sys2Proof.Machine
end

