-- ==== Sys2Proof/Machine/Index.lean ====
section
/-! DEFINITION. The hashed key index (spec/17 R423-R428, spec/07 R219, R220): the signature unit of a grove, `kstore` with its
link step, `qsig` and `bprobe`. -/

namespace Sys2Proof.Machine

/-! ### Signature slots (spec/17 R423, R424) -/

def execSigld (h : Hdr) (hs : BitVec 4) (a b : Spec) := onMach fun _ mc =>
  mc.lowPost h (.sigld h hs a b) fun m t fr =>
    (m.postEng t (.sigld hs.toNat (t.rdPair fr a).toNat (t.rd (fr + 8) b).toNat) false).1

/-- The signature slot of a launch in a grove. -/
def Mach.sigSlot (m : Mach) (core launch slot : Nat) : Option SigSlot :=
  m.sigs.find? fun s => s.grove == coreGrove core && s.slot == slot && s.launch == launch

/-- A `sigld` on the slot has been accepted and has not been performed. -/
def Mach.sigPending (m : Mach) (core slot : Nat) : Bool :=
  m.engines.any fun e => coreGrove e.core == coreGrove core && (match e.kind with
    | .sigld s _ _ => s == slot
    | _ => false)

/-- The head of a grove's signature unit. -/
def Mach.sigHead (m : Mach) (grove : Nat) : Option EngOp :=
  m.engines.find? fun e => coreGrove e.core == grove && (match e.kind with
    | .sigld _ _ _ => true
    | _ => false)

/-- Rows of a matrix from its bytes. -/
def halves (n : Nat) (bs : List Byte) : List (BitVec 16) :=
  (List.range n).map fun i => BitVec.ofNat 16 (ofBytes ((bs.drop (2 * i)).take 2))

/-- A `sigld`: the matrix is read, and replaces the slot, in one step. -/
def Mach.sigStep (sys : Sys) (m : Mach) (e : EngOp) (slot src shape : Nat) : Mach :=
  let sb := bits shape 0 5
  let d := bits shape 8 9
  if sb = 0 ∨ 16 < sb ∨ d = 0 ∨ 256 < d ∨ bits shape 5 3 ≠ 0 ∨ shape / 2 ^ 17 ≠ 0 ∨ src % 64 ≠ 0 then m.engFail e 0x64 src
  else
    let ps := linePieces src 129 (2 * d * sb)
    match m.engAll sys e (ps.map fun p => (p.1, Need.r)) with
    | .error m => m
    | .ok ls =>
      let parts := (ps.zip ls).map fun x => (x.2, x.1.1, x.1.2)
      match m.engEcc parts with
      | some (pa, va) => (m.logErr 0x30 e.core pa).engFail e 0x30 va
      | none =>
        let m := parts.foldl (fun m x => m.locFix e x.1 x.2.2) m
        let bs := parts.flatMap fun x => m.bytes x.1.1 x.2.2
        let g := coreGrove e.core
        let s : SigSlot := { grove := g, slot := slot, launch := e.launch, sb := sb, d := d, mat := halves (sb * d) bs }
        ({ m with sigs := s :: m.sigs.filter fun u => !(u.grove == g && u.slot == slot) } : Mach).engRetire e 0xFFFF

/-- The exact sum of one row of the matrix with a key is above zero. -/
def rowBit (row key : List (BitVec 16)) : Bool :=
  FV.lt (.num false 0 0) ((row.zip key).foldl (fun s p => FV.add 0 s (FV.mul (bf16.dec p.1.toNat) (bf16.dec p.2.toNat)))
    (.num false 0 0))

def signature (sb d : Nat) (mat key : List (BitVec 16)) : Nat :=
  ((List.range sb).map fun i => if rowBit ((mat.drop (d * i)).take d) key then 2 ^ i else 0).sum

/-- What an instruction on slot `hs` begins with: it waits for an earlier `sigld` of the slot, and takes 0x70 when its launch
has not loaded it. -/
def Mach.withSlot (m : Mach) (h : Hdr) (hs : Nat) (f : Quarter → SigSlot → Mach) : Mach :=
  m.withQ fun q =>
    if m.sigPending q.core hs then m.waitQ q .flags
    else match m.sigSlot q.core q.launch hs with
      | none => m.raiseQ q 0x70 h.flag.toNat fun _ => 0
      | some s => f q s

/-- The signature of a `qsig` whose read has performed, under the matrix its issue found. -/
def qsigFin (m : Mach) (f : Flight) : Mach :=
  match f.instr with
  | .qsig _ _ d _ =>
    let k := nth f.nums 1
    let mat := (f.nums.drop 2).map (BitVec.ofNat 16)
    m.setFlight (f.answer f.owner d [wN (signature (nth f.nums 0) k mat (halves k (f.piece 0)))] [])
  | _ => m

def execQsig (h : Hdr) (hs : BitVec 4) (d b : Spec) := onMach fun sys mc => mc.withSlot h hs.toNat fun _ s =>
  mc.memIssue sys h (.qsig h hs d b) true none
    (fun fr t =>
      let off := (t.rd fr b).toNat
      let acc := scratchAcc mc t off (2 * s.d) 64
      { acc := acc, va := off, judge := mc.judged t acc (2 * s.d),
        ops := if acc.isOk then rowReads 0 acc (2 * s.d) off else [] })
    noWide qsigFin fun _ f => { f with nums := [s.sb, s.d] ++ s.mat.map fun x => x.toNat }

/-! ### Head descriptors (spec/17 R425) -/

structure HeadD where
  d : Nat
  unh : Bool
  sb : Nat
  kstride : Nat
  kvva : Nat
  poolva : Nat
  npool : Nat
  free : Nat
deriving DecidableEq, Repr

def headD (n : Nat) : HeadD :=
  { d := bits n 248 8 + 1, unh := tbit n 240, sb := bits n 232 8, kstride := bits n 192 32, kvva := bits n 128 64,
    poolva := bits n 64 64, npool := bits n 32 32, free := bits n 0 32 }

def headBad (n : Nat) : Bool :=
  bits n 256 256 != 0 || bits n 241 7 != 0 || bits n 224 8 != 0 || decide ((headD n).kstride < 2 * (headD n).d)

/-- The empty head entry, and the end of a bucket. -/
def noNode : Nat := 0xFFFFFFFF

def HeadD.node (h : HeadD) (i : Nat) : Nat := h.poolva + 64 * i
def headEntry (hva s : Nat) : Nat := hva + 64 + 4 * s

/-- Where a thread's access of the index ends: a location, or what its instruction takes; `held` waits for an earlier operation of
the thread on these bytes, or for a copy whose destination they are (spec/07 R204, R215). -/
inductive IdxAcc where
  | ok (loc : Nat) (attr : Nat)
  | held
  | cause (c va : Nat)
  | ecc (pa va : Nat)
  | park (p : ParkReq)
deriving DecidableEq, Repr

/-- An address of the descriptor whose page is outside near memory: the instruction that reads the descriptor takes 0x70. -/
def HeadD.outside (sys : Sys) (m : Mach) (t : Thread) (h : HeadD) : Bool :=
  [h.kvva, h.poolva].any fun va => match globalAcc sys m t.core (m.eff t.launch) va 1 .r false false with
    | .ok _ at_ _ => attrFar at_ || attrRem at_
    | _ => false

/-- Some operation of the thread before `o` touches these bytes, or a destination range of the core does. -/
def Mach.idxHeld (m : Mach) (t : Thread) (o : PendOp) (va loc len : Nat) : Bool :=
  let x : PendOp := { o with loc := loc, len := len, va := va, parts := [], line := m.lineOf t va }
  ((t.pend.takeWhile fun p => p.oid != o.oid).any fun p => p.meets x) || m.rangeHolds t.core (m.eff t.launch).fdom x

/-- One access: near memory only (spec/17 R425). -/
def idxAcc (sys : Sys) (m : Mach) (t : Thread) (va len : Nat) (need : Need) : IdxAcc :=
  match globalAcc sys m t.core (m.eff t.launch) va 1 need false false with
  | .ok loc at_ _ =>
    if attrFar at_ || attrRem at_ then .cause 0x70 0
    else if m.eccBad loc len then .ecc loc va else .ok loc at_
  | .trap c => .cause c va
  | .ecc pa => .ecc pa va
  | .park lock c k lv pg => .park ⟨t.id, lock, c, k, lv, pg, false, need.writes, va⟩
  | .miss _ => .cause 0x22 va

/-- The threads of an issue that take a cause of their own: thread, cause, TRAPVA. -/
def Mach.ownTraps (m : Mach) (q : Quarter) (flag : Nat) (bad : List (Nat × Nat × Nat)) : Mach :=
  (bad.map fun b => b.2.1).eraseDups.foldl (fun m c =>
    m.raiseT q ((bad.filter fun b => b.2.1 == c).map fun b => b.1) c flag fun id =>
      match bad.find? fun b => b.1 == id with
      | some b => b.2.2
      | none => 0) m

/-! ### `kstore` (spec/17 R426) -/

/-- What a thread's `kstore` finds at issue; `keys` lists what it has read: the address of the head, the key with its location and length,
and the addresses of the key's lines. -/
structure KPlan where
  own : Option Nat := none
  plan : TPlan
  keys : List (Nat × Nat × Nat) := []
  hva : Nat := 0
  c : Nat := 0
  sig : Nat := 0

/-- The writes of a thread's key bytes (spec/07 R219), in steps of 8 bytes; `ps` are its pieces by lines, with their checks. -/
def Mach.keyOps (m : Mach) (t : Thread) (key : List Byte) (kva : Nat) (ps : List ((Nat × Nat) × Acc)) : List PendOp :=
  ps.flatMap fun p => (words8 p.1.1 p.1.2).map fun w =>
    { oid := 0, uid := 0, kind := .store ((key.drop (w.1 - kva)).take w.2), loc := p.2.loc + (w.1 - p.1.1), len := w.2,
      stampOn := m.checked t && raceLoc p.2.loc p.2.attr, line := m.lineOf t w.1, va := w.1 }

def Mach.kPlan (sys : Sys) (m : Mach) (s : SigSlot) (t : Thread) (off hva c : Nat) : KPlan :=
  let rd := m.readNow t off (2 * s.d) 64
  if hva % 64 ≠ 0 then { own := some 0x2C, plan := rd, hva := hva }
  else match idxAcc sys m t hva 64 .rw with
    | .held => { plan := rd }
    | .cause 0x70 _ => { own := some 0x70, plan := rd }
    | .cause x va => { plan := { rd with acc := accAll [rd.acc, .trap x], va := va } }
    | .ecc pa va => { plan := { rd with acc := accAll [rd.acc, .ecc pa], va := va } }
    | .park p => { plan := { rd with acc := accAll [rd.acc, .park p.lock p.cause p.kind p.level p.page], va := hva, write := true } }
    | .ok loc _ =>
      let n := m.num loc 64
      let h := headD n
      if headBad n || h.sb != s.sb || h.d != s.d || h.outside sys m t then { own := some 0x70, plan := rd }
      else if !rd.acc.isOk then { plan := rd }
      else
        let key := m.bytes rd.acc.loc (2 * s.d)
        let kva := h.kvva + c * h.kstride
        let ps := (linePieces kva 10 (2 * s.d)).map fun p => (p, globalAcc sys m t.core (m.eff t.launch) p.1 1 .w false false)
        if ps.any fun p => match p.2 with | .ok _ at_ _ => attrFar at_ || attrRem at_ | _ => false then
          { own := some 0x70, plan := rd }
        else
          let acc := accAll (rd.acc :: ps.map fun p => p.2)
          { plan := { acc := acc, va := if acc.isOk then off else kva, write := true, judge := rd.judge,
                      ops := if acc.isOk then m.keyOps t key kva ps ++
                        [{ oid := 0, uid := 0, kind := .wide, scope := .t, rel := true, va := hva,
                           parts := [(hva, loc, 64)] }] else [] }
            keys := (hva, 0, 0) :: (off, rd.acc.loc, 2 * s.d) :: ps.map fun p => (p.1.1, 0, 0)
            hva := hva, c := c, sig := signature s.sb s.d s.mat (halves s.d key) }

/-- A plain write of a thread of the index: stamped, not judged (spec/07 R221). -/
def Mach.idxStore (m : Mach) (t : Thread) (va loc attr : Nat) (bs : List Byte) : Mach :=
  let fd := (m.eff t.launch).fdom
  let o : PendOp := { oid := 0, uid := 0, kind := .store bs, stampOn := m.checked t && raceLoc loc attr,
                      line := some (fd, va / 64), va := va }
  m.threadStore t fd o loc va bs

/-- The key read of a `kstore`, and its walks, have been made. -/
def Mach.keyFix (m : Mach) (q : Quarter) (k : KPlan) : Mach :=
  k.keys.foldl (fun m x => if x.2.2 = 0 then m.walkFix q.core (m.eff q.launch) x.1 else m.eccFix q.core x.2.1 x.2.2) m

def execKstore (h : Hdr) (nt : Bool) (sc : Scope) (hs : BitVec 4) (a b c : Spec) := onMach fun sys mc =>
  mc.withSlot h hs.toNat fun q s =>
    let offs := mc.offs q a
    if mc.postWaits q.tids || (offs.any fun p => mc.readHeld (mc.thr p.1) p.2 (2 * s.d) 64) then mc.waitQ q .flags
    else
      let ks := q.active.map fun p =>
        let t := mc.thr p.2
        (p.2, mc.kPlan sys s t (look 0 offs p.2) (t.rdPair (mc.fr p.1 + 8) b).toNat (t.rd (mc.fr p.1 + 16) c).toNat)
      let kOf (id : Nat) : KPlan := look { plan := { acc := .trap 0x22 } } ks id
      -- a failing key read is taken by the whole quarter (spec/20 R438)
      let m := if ks.any fun k => (mc.planTrap k.1 k.2.plan).isSome then mc
        else mc.ownTraps q h.flag.toNat (ks.filterMap fun k => k.2.own.map fun c => (k.1, c, if c = 0x2C then k.2.hva else 0))
      let m' := m.memIssue sys h (.kstore h nt sc hs a b c) false none (fun _ t => (kOf t.id).plan) noWide memFin
        fun id f => { f with nums := [(kOf id).sig, (kOf id).c, (kOf id).hva] }
      -- the reads of the threads that have issued correct single-bit errors (spec/06 R198)
      (m'.issueOf m.next).foldl (fun m f => m.keyFix q (kOf f.owner)) m'

/-- A thread of a flight that has issued parks at its instruction, if the sump has room (spec/06 R193). -/
def Mach.parkFlight (m : Mach) (f : Flight) (p : ParkReq) : Mach :=
  let fd := (m.eff f.launch).fdom
  if !m.sumpRoom f.core fd [p] then m
  else
    let m := ({ m with flights := m.flights.filter fun g => g.uid != f.uid } : Mach).unlook f.iss
    let m := m.modThr p.tid fun t => { t with pend := t.pend.filter fun o => o.uid != f.uid, carry := some (f.pc, f.flag) }
    m.parkAll f.core fd f.pc f.hdr f.flag [p]

/-- What becomes of the thread whose access of the index does not go through. -/
def Mach.idxFail (m : Mach) (f : Flight) (a : IdxAcc) : Mach :=
  match a with
  | .ok _ _ => m
  | .held => m
  | .cause c va => m.failFlight f.owner f c va
  | .ecc pa va => ((m.logErr 0x30 f.core pa).flightFail f 0x30 va).settleIssue f.iss
  | .park p => m.parkFlight f p

/-- One access of an instruction that has issued, and what follows. -/
def Mach.idx (sys : Sys) (m : Mach) (f : Flight) (o : PendOp) (va len : Nat) (need : Need) (k : Mach → Nat → Nat → Mach) : Mach :=
  let t := m.thr f.owner
  match idxAcc sys m t va len need with
  | .ok loc attr =>
    if m.idxHeld t o va loc len then m else k ((m.walkFix t.core (m.eff t.launch) va).eccFix t.core loc len) loc attr
  | a => m.idxFail f a

/-- The token word of a node, with its release (spec/07 R220). -/
def Mach.putTok (m : Mach) (t : Thread) (sc va loc attr tok : Nat) : Mach :=
  let m := m.idxStore t va loc attr (toBytes tok 4)
  if m.checked t then m.setReleased loc [⟨t.wave, m.phase t.wave, sc, false⟩] else m

/-- The link is done: the operation leaves. -/
def Mach.linked (m : Mach) (t : Thread) (o : PendOp) : Mach := (m.opDone t o []).ifDone t.id o.uid memFin

/-- The release of a link step at a head entry. -/
def Mach.linkRel (m : Mach) (t : Thread) (sc el : Nat) : Mach := (m.sync t.id sc true false (.loc el)).bump t sc

/-- THE LINK STEP of one thread, at the home of the head entry. -/
def Mach.link (sys : Sys) (m : Mach) (f : Flight) (o : PendOp) (nt : Bool) (sc : Nat) : Mach :=
  let t := m.thr f.owner
  let c := nth f.nums 1
  let hva := nth f.nums 2
  let hev := headEntry hva (nth f.nums 0)
  m.idx sys f o hva 64 .rw fun m dl da => m.idx sys f o hev 4 .rw fun m el ea =>
    let h := headD (m.num dl 64)
    let n := m.num el 4
    -- a bucket whose first node has room takes the token; else a new node is linked in front
    let fresh (m : Mach) : Mach :=
      if h.free < h.npool then
        m.idx sys f o (h.node h.free) 64 .rw fun m ml ma =>
          let m := m.linkRel t sc el
          let m := m.idxStore t (h.node h.free + 56) (ml + 56) ma (toBytes (1 + n * 2 ^ 32) 8)
          let m := m.idxStore t hva dl da (toBytes (h.free + 1) 4)
          let m := m.idxStore t hev el ea (toBytes h.free 4)
          (m.putTok t sc (h.node h.free) ml ma c).linked t o
      else if nt then
        ((m.linkRel t sc el).idxStore t (hva + 30) (dl + 30) da (toBytes (setBit (m.num (dl + 30) 1) 0 true) 1)).linked t o
      else m.failFlight t.id f 0x71 hev
    if n = noNode then fresh m
    else if h.npool ≤ n then m.failFlight t.id f 0x70 (h.node n)
    else m.idx sys f o (h.node n) 64 .rw fun m nl na =>
      let cnt := m.num (nl + 56) 4
      if cnt = 0 ∨ 14 < cnt then m.failFlight t.id f 0x70 (h.node n)
      else if cnt < 14 then
        let m := (m.linkRel t sc el).idxStore t (h.node n + 56) (nl + 56) na (toBytes (cnt + 1) 4)
        (m.putTok t sc (h.node n + 4 * cnt) (nl + 4 * cnt) na c).linked t o
      else fresh m

/-- KSTORE_LINK_STEP: the links of one issue happen in ascending thread order. -/
def execKstoreLinkStep (tid oid : Nat) := onMach fun sys mc =>
  match (mc.thr tid).pend.find? fun o => o.oid == oid with
  | none => mc
  | some o => match mc.flight? o.uid with
    | none => mc
    | some f => match f.instr with
      | .kstore _ nt sc _ _ _ _ =>
        let first := (mc.inOrder ((mc.flights.filter fun g => g.iss == f.iss && !g.done && g.failed.isNone).map fun g =>
          g.owner)).headD tid
        if first ≠ tid || o.kind != .wide || !mc.mayPerform tid o then mc else (mc.link sys f o nt sc.code).settleIssue f.iss
      | _ => mc

/-! ### `bprobe` (spec/17 R428) -/

/-- A probe that is malformed whatever the head holds. -/
def probeBad (w0 : Nat) : Bool := bits w0 20 12 == 0 || bits w0 17 3 != 0

def execBprobe (h : Hdr) (nt : Bool) (sc : Scope) (d b c : Spec) := onMach fun sys mc => mc.withQ fun q =>
  let ps := q.active.map fun p =>
    let t := mc.thr p.2
    (p.2, (t.rdPair (mc.fr p.1) b).toNat, (t.rd (mc.fr p.1 + 8) c).toNat, (t.rdAt (mc.fr p.1 + 8) c 1).toNat)
  let bad := ps.filterMap fun p =>
    if p.2.1 % 64 ≠ 0 then some (p.1, 0x2C, p.2.1) else if probeBad p.2.2.1 then some (p.1, 0x70, 0) else none
  let of_ (id : Nat) : List Nat := match ps.find? fun p => p.1 == id with
    | some p => [p.2.2.1, p.2.2.2, p.2.1]
    | none => []
  (mc.ownTraps q h.flag.toNat bad).memIssue sys h (.bprobe h nt sc d b c) true none
    (fun _ _ => { acc := .ok 0 0 none,
                  ops := [{ oid := 0, uid := 0, kind := .wide, scope := sc, acq := true }] }) noWide memFin
    fun id f => { f with nums := of_ id }

/-- Tokens of one bucket with the locations of their words, from node `n` on: at most NPOOL nodes. -/
def walkBucket (sys : Sys) (m : Mach) (t : Thread) (o : PendOp) (h : HeadD) :
    Nat → Nat → List (Nat × Nat) → Except IdxAcc (List (Nat × Nat))
  | fuel, n, acc =>
    if n = noNode then .ok acc
    else if h.npool ≤ n then .error (.cause 0x70 (h.node n))
    else match fuel with
      | 0 => .error (.cause 0x70 (h.node n))
      | fuel + 1 => match idxAcc sys m t (h.node n) 64 .r with
        | .ok l _ =>
          let cnt := m.num (l + 56) 4
          if m.idxHeld t o (h.node n) l 64 then .error .held
          else if cnt = 0 ∨ 14 < cnt then .error (.cause 0x70 (h.node n))
          else walkBucket sys m t o h fuel (m.num (l + 60) 4)
            (acc ++ (List.range cnt).map fun i => (m.num (l + 4 * i) 4, l + 4 * i))
        | a => .error a

/-- Buckets of a probe, in order. -/
def probeList (w0 sb : Nat) : List Nat :=
  let s := bits w0 0 16
  s :: if tbit w0 16 then (List.range sb).map fun i => setBit s i (!tbit s i) else []

/-- Tokens found so far, with their words' locations: `nums` holds the probe, the buffer, the head and its descriptor, then
the pairs. -/
def pairsOf : List Nat → List (Nat × Nat)
  | a :: b :: r => (a, b) :: pairsOf r
  | _ => []

/-- A probe is over: `vD`, and what its acquire learns from the links of the tokens that it returns. -/
def Mach.probeDone (m : Mach) (t : Thread) (f : Flight) (o : PendOp) (sc : Nat) (much : Bool) (n : Nat) (ret : List (Nat × Nat))
    (d : Spec) : Mach :=
  let m := m.sync t.id sc false true .none
  let m := ret.foldl (fun m p => m.learnAll t sc ((m.released p.2).filter fun r => !r.fence)) m
  let m := if 3 ≤ sc then m.dropCopies t.core else m
  ((m.setFlight (f.answer t.id d [if much then 0xFFFFFFFF else wN n] [])).opDone t o []).ifDone t.id o.uid memFin

/-- The writes of a probe's buffer, 8 bytes each (spec/07 R205), stand before its last step; those of race-checked scratch perform with their
judgement (log 22). -/
def Mach.probeWrites (m : Mach) (t : Thread) (o : PendOp) (off loc : Nat) (bs : List Byte) (judged : Bool) : Mach :=
  let ws := (words8 off bs.length).map fun p : Nat × Nat =>
    ({ oid := 0, uid := 0, kind := .store ((bs.drop (p.1 - off)).take p.2), loc := loc + (p.1 - off), len := p.2, stampOn := judged,
       va := p.1 } : PendOp)
  let ops := numberOps o.uid m.next m.cycle ws
  let m := (m.take ops.length).modThr t.id fun u => { u with pend := u.pend.flatMap fun p => if p.oid == o.oid then ops ++ [p] else [p] }
  if judged then ops.foldl (fun m x => m.act (m.thr t.id) x false noWide) m else m

/-- The end of a probe: at its first turn (`last` false) the buffer's writes, and when they have performed its last step. -/
def Mach.probeEnd (m : Mach) (t : Thread) (f : Flight) (o : PendOp) (nt : Bool) (sc : Nat) (unh last : Bool) (d : Spec) : Mach :=
  let w0 := nth f.nums 0
  let out := pairsOf (f.nums.drop 4)
  let limit := bits w0 20 12
  let much := unh || decide (limit < out.length)
  if much && !nt then m.failFlight t.id f 0x71 (headEntry (nth f.nums 2) (bits w0 0 16))
  else
    let ret := if unh then [] else out.take limit
    let off := nth f.nums 1
    let len := 4 * ret.length
    let acc := scratchAcc m t off len 4
    if len = 0 || last then (if t.pend.any fun p => p.uid == o.uid && p.oid != o.oid then m else m.probeDone t f o sc much out.length ret d)
    else match acc with
    | .ok loc _ _ =>
      let x : PendOp := { o with loc := loc, len := len, parts := [] }
      if m.rangeHolds t.core 0 x || (t.pend.takeWhile fun p => p.oid != o.oid).any (fun p => p.meets x) then m
      else
        let js := m.judged t acc len
        if js.any (fun r => m.racy t r.1 r.2) && !((m.wave? t.wave).any fun w => w.inexact) then
          ((m.postEvent (m.eff t.launch) 2 t.core (m.launch t.launch).rcb off).1).failFlight t.id f 0x28 off
        else if m.eccBlocks loc len then ((m.logErr 0x30 t.core loc).flightFail f 0x30 off).settleIssue f.iss
        else (m.setFlight { f with stage := f.stage + 1 }).probeWrites t o off loc (ret.flatMap fun p => toBytes p.1 4) (js != [])
    | .trap c => m.failFlight t.id f c off
    | _ => m.failFlight t.id f 0x22 off

/-- One step of a probe: the descriptor, then a bucket at a time, then the end. -/
def bprobeWide (sys : Sys) (m : Mach) (t : Thread) (f : Flight) (o : PendOp) : Mach :=
  match f.instr with
  | .bprobe _ nt sc d _ _ =>
    let w0 := nth f.nums 0
    let hva := nth f.nums 2
    let h := headD (nth f.nums 3)
    let list := probeList w0 h.sb
    match f.stage with
    | 0 => m.idx sys f o hva 64 .r fun m l _ =>
      let n := m.num l 64
      if headBad n || (headD n).outside sys m t || decide (2 ^ (headD n).sb ≤ bits w0 0 16) then m.failFlight t.id f 0x70 0
      else if tbit n 240 then m.probeEnd t f o nt sc.code true false d
      else m.setFlight { f with stage := 1, nums := f.nums ++ [n] }
    | k + 1 =>
      if list.length ≤ k then m.probeEnd t f o nt sc.code false (decide (list.length < k)) d
      else m.idx sys f o (headEntry hva (list.getD k 0)) 4 .r fun m el _ =>
        match walkBucket sys m t o h h.npool (m.num el 4) [] with
        | .error a => m.idxFail f a
        | .ok ts =>
          let m := ts.foldl (fun m p => m.eccFix t.core (p.2 / 64 * 64) 64) m
          m.setFlight { f with stage := k + 2, nums := f.nums ++ ts.flatMap fun p => [p.1, p.2] }
  | _ => m

end Sys2Proof.Machine
end

