-- ==== Sys2Proof/Machine/Barrier.lean ====
section
/-! DEFINITION. Barriers (spec/04 R130-R133; spec/12 R297, R309-R312): the three instructions, the nodes, releases and
refusals, the race checker's floors (spec/07 R223), and the phases of the idle and busy table (spec/04 R118, R119). -/

namespace Sys2Proof.Machine

/-! ### The idle and busy table -/

/-- A device write at a virtual address of a launch's fault domain; a page that does not translate takes nothing (log 25). One that fails is
logged (spec/01 R20); one to another device travels there (spec/06 R188), and stands in memory as this device knows it. -/
def Mach.devWriteVa (sys : Sys) (m : Mach) (core : Nat) (e : Eff) (va : Nat) (bs : List Byte) : Mach :=
  match globalAcc sys m core e va 1 .w false false with
  | .ok loc _ _ =>
    if m.away loc then (m.devStore loc bs).askFar sys (.unit e.fdom (2 * tableKey)) loc va bs.length true bs
    else if badWrite m loc bs.length then m.logErr 0x30 core loc
    else m.devStore loc bs
  | _ => m

/-- The device reads a table of its own; an uncorrectable word is not read. -/
def devReadVa (sys : Sys) (m : Mach) (core : Nat) (e : Eff) (va len : Nat) : Option Nat :=
  match globalAcc sys m core e va 1 .r false false with
  | .ok loc _ _ => if badRange m loc len then none else some (m.num loc len)
  | _ => none

/-- A read that meets an uncorrectable word logs it (spec/02 R93, spec/01 R20). -/
def Mach.devReadLog (sys : Sys) (m : Mach) (core : Nat) (e : Eff) (va len : Nat) : Mach :=
  match globalAcc sys m core e va 1 .r false false with
  | .ok loc _ _ => if badRange m loc len then m.logErr 0x30 core loc else m.eccFix core loc len
  | _ => m

/-- Cores of the effective grove set, ascending (spec/03 R109). -/
def Eff.cores (e : Eff) : List Nat :=
  ((List.range Config.groves).filter fun g => tbit e.groves g).flatMap fun g =>
    (List.range Config.coresPerGrove).map fun i => g * Config.coresPerGrove + i

/-- The counts of the phase that ends are written, and the next phase begins; later phases than the table has rows for are
added to its last row, and LOST accumulates them. -/
def Mach.profFlush (sys : Sys) (m : Mach) (l : Nat) : Mach :=
  let la := m.launch l
  if la.profva = 0 then m
  else
    let cs := la.eff.cores
    let row := Nat.min la.phase (la.maxph - 1)
    let sat (n : Nat) := Nat.min n 0xFFFFFFFF
    let m := la.prof.foldl (fun m p =>
      let k := cs.findIdx fun c => c == p.1
      let at_ := la.profva + 64 + 8 * (row * cs.length + k)
      let old := if la.phase ≥ la.maxph then (devReadVa sys m p.1 la.eff at_ 8).getD 0 else 0
      let m := if la.phase ≥ la.maxph then m.devReadLog sys p.1 la.eff at_ 8 else m
      m.devWriteVa sys p.1 la.eff at_
        (toBytes (sat (old % 2 ^ 32 + p.2.2.1)) 4 ++ toBytes (sat (old / 2 ^ 32 + p.2.1)) 4)) m
    let extra := if la.phase ≥ la.maxph then (la.prof.map fun p => p.2.1 + p.2.2.1).sum else 0
    let core := cs.headD 0
    let m := m.devWriteVa sys core la.eff (la.profva + 8) (toBytes (la.phase + 1) 4)
    let m := m.devWriteVa sys core la.eff (la.profva + 16) (toBytes (la.profLost + extra) 8)
    m.modLaunch l fun la => { la with prof := [], profLost := la.profLost + extra }

/-- A package release begins the launch's next phase. -/
def Mach.phaseNext (sys : Sys) (m : Mach) (l : Nat) : Mach :=
  let m := m.profFlush sys l
  let m := m.modLaunch l fun la => { la with phase := la.phase + 1 }
  let la := m.launch l
  if la.profva = 0 then m else m.devWriteVa sys (la.eff.cores.headD 0) la.eff (la.profva + 8) (toBytes (la.phase + 1) 4)

/-! ### Nodes -/

def BarNode.at_ (b : BarNode) (level place num launch : Nat) : Bool :=
  b.level == level && b.place == place && b.num == num && b.launch == launch

def Mach.barNode? (m : Mach) (level place num launch : Nat) : Option BarNode :=
  m.bars.find? fun b => b.at_ level place num launch

def Mach.setNode (m : Mach) (b : BarNode) : Mach :=
  { m with bars := b :: m.bars.filter fun u => !(u.at_ b.level b.place b.num b.launch) }

def Mach.dropNode (m : Mach) (b : BarNode) : Mach :=
  { m with bars := m.bars.filter fun u => !(u.at_ b.level b.place b.num b.launch) }

/-- Threads that belong to a unit at a level. -/
def Mach.ofUnit (m : Mach) (level unit : Nat) : List Nat :=
  (m.threads.filter fun t => t.role == .plain && unitKey t.wave t.homeQ level == unit).map fun t => t.id

/-- A release or a refusal sets out to a unit's threads (spec/12 R310, R312). -/
def Mach.answerUnit (m : Mach) (level num unit node : Nat) : Mach :=
  m.modAll (m.ofUnit level unit) fun t => match t.bar? level num with
    | some b => if b.forwarded then t.setBar { b with node := node } else t
    | none => t

/-- Every member wave takes the phase F and the floor of the level (spec/07 R223). -/
def Mach.floorAll (m : Mach) (launch level place f : Nat) : Mach :=
  if level = 0 || !(m.eff launch).race then m
  else
    let member (w : Wave) : Bool := w.launch == launch && w.memberAt level place
    let numbers := (m.waves.filter member).map fun w => w.number
    { m with waves := m.waves.map fun w =>
        if member w then
          { w with ph := f, floors := (level, numbers, f) :: w.floors.filter fun x => x.1 != level,
                   inexact := if level ≥ 3 then false else w.inexact }
        else w }

/-- A node releases every arrival that it counted and returns to idle (spec/04 R131). -/
def Mach.releaseNode (sys : Sys) (m : Mach) (b : BarNode) : Mach :=
  let ph := (b.units ++ b.remote).foldl (fun a u => Nat.max a u.2) 0
  let f := (ph + 1) % 256
  let m := m.dropNode b
  let m := b.units.foldl (fun m u => m.answerUnit b.level b.num u.1 1) m
  let m := m.floorAll b.launch b.level b.place f
  let m := if b.level = 3 then m.phaseNext sys b.launch else m
  let devs := (b.remote.map fun r => r.1).eraseDups
  { m with out := m.out ++ devs.map fun d => ⟨sys.devid, d, 0, 0, .barRelease b.num f⟩ }

/-- An arrival reaches its counting node (spec/04 R131): idle arms, an equal count counts, another is refused. -/
def Mach.nodeArrive (sys : Sys) (m : Mach) (level place num launch count : Nat) (unit : Nat × Nat) (remote : Bool) : Mach :=
  let b := (m.barNode? level place num launch).getD
    { level := level, place := place, num := num, launch := launch, count := count }
  if b.count ≠ count then
    if remote then { m with out := m.out ++ [⟨sys.devid, unit.1, 0, 0, .barRefuse num count⟩] }
    else m.answerUnit level num unit.1 2
  else
    let b := if remote then { b with remote := b.remote ++ [unit] } else { b with units := b.units ++ [unit] }
    if b.units.length + b.remote.length ≥ b.count then m.releaseNode sys b else m.setNode b

/-- A valid route entry to a device (spec/01 R43). -/
def Sys.hasRoute (sys : Sys) (d : Nat) : Bool := (look ({} : Route) sys.routes d).v

/-- The launch key of a domain barrier at its root: the number alone names it (spec/03 R102). -/
def domKey : Nat := 0

/-- The release of a domain barrier on this device: every unit that it forwarded is released with the phase F. -/
def Mach.domRelease (m : Mach) (num f : Nat) : Mach :=
  (m.bars.filter fun b => b.level == 4 && b.num == num).foldl (fun m b =>
    let m := m.dropNode b
    let m := b.units.foldl (fun m u => m.answerUnit 4 num u.1 1) m
    m.floorAll b.launch 4 b.place f) m

/-- A unit leaves the node that forwarded it. -/
def BarNode.without (b : BarNode) (unit : Nat) : BarNode :=
  { b with units := b.units.eraseP (fun u => u.1 == unit), remote := b.remote.eraseP fun u => u.1 == unit }

/-- A refusal reaches a unit whose arrival carried the count that the root names (spec/04 R131; `remote` holds the counts of the units
that a device has forwarded). -/
def Mach.domRefuse (m : Mach) (num count : Nat) : Mach :=
  match (m.bars.filter fun b => b.level == 4 && b.num == num).findSome? fun b =>
      (b.remote.reverse.find? fun u => u.2 == count).map fun u => (b, u.1) with
  | none => m
  | some (b, u) => (m.setNode (b.without u)).answerUnit 4 num u 2

/-- The root device releases a domain barrier whose count is reached: each device that sent it an arrival is told, itself
at once (spec/04 R132). -/
def Mach.rootCheck (sys : Sys) (m : Mach) (num : Nat) : Mach :=
  match m.barNode? 5 sys.devid num domKey with
  | none => m
  | some r =>
    if r.remote.length < r.count then m
    else
      let f := (r.remote.foldl (fun a u => Nat.max a u.2) 0 + 1) % 256
      let m := m.dropNode r
      let devs := (r.remote.map fun p => p.1).eraseDups.filter fun d => d != sys.devid
      let m := { m with out := m.out ++ devs.map fun d => ⟨sys.devid, d, 0, 0, .barRelease num f⟩ }
      if r.remote.any fun p => p.1 == sys.devid then m.domRelease num f else m

/-- An arrival of another device at this root. -/
def Mach.rootOne (sys : Sys) (m : Mach) (src num count ph : Nat) : Mach :=
  let r := (m.barNode? 5 sys.devid num domKey).getD
    { level := 5, place := sys.devid, num := num, launch := domKey, count := count }
  if r.count ≠ count then { m with out := m.out ++ [⟨sys.devid, src, 0, 0, .barRefuse num count⟩] }
  else (m.setNode { r with remote := r.remote ++ [(src, ph)] }).rootCheck sys num

/-- The arrivals of a message, one after another. -/
def Mach.rootArrive (sys : Sys) (m : Mach) (src num count n ph : Nat) : Mach :=
  (List.range n).foldl (fun m _ => m.rootOne sys src num count ph) m

/-- A message that can go on: a domain arrival waits for the root's route entry (spec/12 R312). -/
def BarMsg.ready (sys : Sys) (b : BarMsg) : Bool := b.level != 4 || b.root == sys.devid || sys.hasRoute b.root

/-- The arrival that is handled next: of the earliest cycle that is over, the one of the lowest core (spec/04 R131). -/
def Mach.nextArrival (sys : Sys) (m : Mach) : Option BarMsg :=
  minBy (fun a b => lexLt [a.cycle, a.core] [b.cycle, b.core]) (m.barMsgs.filter fun b => b.ready sys && decide (b.cycle < m.cycle))

/-- Arrivals that go to a root device in one message: of one cycle, at one barrier, with one count (spec/04 R132). -/
def BarMsg.joins (a b : BarMsg) : Bool :=
  a.level == b.level && a.root == b.root && a.num == b.num && a.launch == b.launch && a.count == b.count && a.cycle == b.cycle

/-- BARRIER_ARRIVAL_NODE: the next arrival reaches its counting node, or leaves for the root device with those that join it. -/
def execBarrierArrivalNode := onMach fun sys mc =>
  match mc.nextArrival sys with
  | none => mc
  | some b =>
    if b.level ≠ 4 then
      ({ mc with barMsgs := mc.barMsgs.erase b } : Mach).nodeArrive sys b.level b.place b.num b.launch b.count (b.unit, b.ph) false
    else
      let n := (mc.barNode? 4 b.root b.num b.launch).getD
        { level := 4, place := b.root, num := b.num, launch := b.launch, count := b.count }
      if b.root = sys.devid then
        -- the local device is one of the senders of its own root
        let m := ({ mc with barMsgs := mc.barMsgs.erase b } : Mach).setNode { n with units := n.units ++ [(b.unit, b.ph)] }
        let r := (m.barNode? 5 b.root b.num domKey).getD
          { level := 5, place := b.root, num := b.num, launch := domKey, count := b.count }
        if r.count ≠ b.count then (m.answerUnit 4 b.num b.unit 2).setNode { n with units := n.units }
        else (m.setNode { r with remote := r.remote ++ [(sys.devid, b.ph)] }).rootCheck sys b.num
      else
        let all := mc.barMsgs.filter b.joins
        let m := ({ mc with barMsgs := mc.barMsgs.filter fun x => !b.joins x } : Mach).setNode
          { n with units := n.units ++ all.map (fun x => (x.unit, x.ph)), remote := n.remote ++ all.map fun x => (x.unit, x.count) }
        let ph := all.foldl (fun a x => Nat.max a x.ph) 0
        { m with out := m.out ++ [⟨sys.devid, b.root, 0, 0, .barArrive b.num b.count all.length ph⟩] }

/-- BARRIER_RELEASE: an answer reaches a thread (spec/12 R310): an arrived thread's state becomes released, or refused. One that
reaches a saved region is kept until it resumes (spec/04 R133). -/
def execBarrierRelease (tid : Nat) := onMach fun _ mc =>
  if mc.savedLaunch (mc.thr tid).launch then mc
  else mc.modThr tid fun t =>
    { t with bars := t.bars.map fun b =>
        if b.node = 1 then { b with phase := .released, node := 0, forwarded := false }
        else if b.node = 2 then { b with phase := .refused, node := 0, forwarded := false } else b }

/-! ### The instructions (spec/12 R310-R312) -/

inductive BarKind where
  | bar | bara | barw
deriving DecidableEq, Repr

/-- What a thread's barrier instruction does next. -/
inductive BarDo where
  | pass | wait | trap
deriving DecidableEq, Repr

/-- Count and root that a thread names (spec/12 R297). -/
def barOperand (t : Thread) (fr : Nat) (c : BarCnt) : Nat × Nat :=
  match c with
  | .imm n => (n.toNat, 0)
  | .reg k => let w := (t.rd fr k).toNat; (w % 2 ^ 20, w / 2 ^ 20)

/-- The count of a unit whose arrival is being made: what its first arriving thread named (spec/12 R309). -/
def Mach.unitCount (m : Mach) (t : Thread) (level num : Nat) : Option Nat :=
  (((m.unitThreads t.wave t.homeQ level).filterMap fun u => u.bar? level num).find? fun b =>
    b.phase == .arrived && !b.forwarded && b.node == 0).map fun b => b.count

/-- A count that takes 0x52: illegal, or not that of the thread's unit (spec/12 R312). -/
def countIllegal (level count : Nat) : Bool := count == 0 || (level == 0 && decide (4 < count))
def Mach.countBad (m : Mach) (t : Thread) (level num count : Nat) : Bool :=
  countIllegal level count || (m.unitCount t level num).any fun c => c != count

/-- The thread's instruction takes 0x52: it was refused, or it names a count that its unit does not take. -/
def Mach.barBad (m : Mach) (k : BarKind) (t : Thread) (level num count : Nat) : Bool :=
  match t.bar? level num with
  | none => k != .barw && m.countBad t level num count
  | some b => b.phase == .refused || (k != .barw && !b.own && (if b.phase = .arrived then countIllegal level count
      else m.countBad t level num count))

/-- The thread's instruction arrives now. -/
def Thread.barArrives (t : Thread) (k : BarKind) (level num : Nat) : Bool :=
  k != .barw && (t.bar? level num).all fun b => b.phase == .released && !b.own

/-- An arrival of one thread. -/
def Mach.barArrive (m : Mach) (id level num count root : Nat) : Mach :=
  let t := m.thr id
  (m.modThr id fun t => t.setBar
    { level := level, num := num, phase := .arrived, count := count, root := if level = 4 then root else 0, own := true }).unitCheck
      t.wave t.homeQ level num

/-- One thread's step of a barrier instruction (the table of spec/12 R310). -/
def Mach.barStep (m : Mach) (k : BarKind) (id level num count root : Nat) : Mach × BarDo :=
  let t := m.thr id
  let after (m : Mach) : Mach × BarDo := (m.barArrive id level num count root, if k = .bara then .pass else .wait)
  if m.barBad k t level num count then
    ((if (t.bar? level num).any fun b => b.phase == .refused then m.modThr id fun t => t.dropBar level num else m), .trap)
  else match t.bar? level num with
  | none => if k = .barw then (m, .pass) else after m
  | some b =>
    if b.phase = .arrived then (m, if k = .bara && b.own then .pass else .wait)
    else if k = .barw || b.own then (m, .pass)
    else
      let m := m.acquire id (barScope level) (.barrier level num)
      after (if level = 0 then m else m.dropCopies t.core)

/-- A thread passes: `bara` keeps its arrival, the others return to none. -/
def Thread.barPassed (t : Thread) (k : BarKind) (level num : Nat) : Thread :=
  if k = .bara then
    { t with bars := t.bars.map fun b => if b.level = level ∧ b.num = num then { b with own := false } else b }
  else t.dropBar level num

/-- Is the barrier held by the launch (spec/12 R312, spec/03 R99)? -/
def barHeld (l : Launch) (level num : Nat) : Bool :=
  match level with
  | 0 => true
  | 1 => tbit l.grvbar num
  | 2 => tbit l.diebar num
  | 3 => tbit l.pkgbar num
  | _ => tbit l.dombar num

/-- The passing of a thread at the wave level files it at a + 8, a reform point. -/
def Mach.barFile (m : Mach) (q : Quarter) (k : BarKind) (level num id : Nat) : Mach :=
  let t := m.thr id
  let s := senderOf q t (some { undoOf t with bar := t.bar? level num })
  ((m.acquire id (barScope level) (.barrier level num)).modThr id fun t => t.barPassed k level num).sendAway id (q.pc + 8) (some s) true

/-- A barrier instruction of a quarter. Threads that arrive wait until every earlier operation has performed (spec/12 R311). -/
def Mach.barrier (m : Mach) (h : Hdr) (k : BarKind) (level num : Nat) (cnt : BarCnt) : Mach :=
  m.withQ fun q =>
    let fl := h.flag.toNat
    let la := m.launch q.launch
    if q.tids.any fun t => (m.thr t).isHandler then m.raiseQ q 0x76 fl fun _ => 0
    else if q.tids.any fun t => (m.thr t).widthDepth > 0 || (m.thr t).isCallee then m.raiseQ q 0x50 fl fun _ => 0
    else if !barHeld la level num then m.raiseQ q 0x50 fl fun _ => 0
    else
      let ops := q.active.map fun p => (p.2, barOperand (m.thr p.2) (m.fr p.1) cnt)
      if q.tids.any fun t => (m.thr t).pend != [] && (m.thr t).barArrives k level num
          && !m.barBad k (m.thr t) level num (look (0, 0) ops t).1 then m.waitQ q .flags
      else
      let r := (m.inOrder q.tids).foldl (fun (r : Mach × List (Nat × BarDo)) id =>
        let o := look (0, 0) ops id
        let x := r.1.barStep k id level num o.1 o.2
        (x.1, r.2 ++ [(id, x.2)])) (m.used, [])
      let sel (d : BarDo) := (r.2.filter fun p => p.2 == d).map fun p => p.1
      let m := r.1.raiseT q (sel .trap) 0x52 fl fun _ => 0
      let m := if level = 0 ∧ k ≠ .bara ∧ sel .pass ≠ [] then
          (m.inOrder (sel .pass)).foldl (fun m id => m.barFile q k level num id) (m.ungang q)
        else m
      match m.quarter? q.id with
      | none => m
      | some q =>
        if q.tids.any fun t => (sel .wait).contains t then m.waitQ q (.barrier level num)
        else
          let m := m.modAll q.tids fun t => (t.uncarry q.pc fl).barPassed k level num
          let m := if k = .bara then m else q.tids.foldl (fun m id => m.acquire id (barScope level) (.barrier level num)) m
          let m := if level = 0 then m else m.dropCopies q.core
          m.jump q.id (q.pc + 8) fun _ => none

def execBar (h : Hdr) (l : BitVec 3) (n : BitVec 5) (c : BarCnt) := onMach fun _ mc => mc.barrier h .bar l.toNat n.toNat c
def execBara (h : Hdr) (l : BitVec 3) (n : BitVec 5) (c : BarCnt) := onMach fun _ mc => mc.barrier h .bara l.toNat n.toNat c
def execBarw (h : Hdr) (l : BitVec 3) (n : BitVec 5) := onMach fun _ mc => mc.barrier h .barw l.toNat n.toNat (.imm 0)

end Sys2Proof.Machine
end

