-- ==== Sys2Proof/Machine/SpecialRegs.lean ====
section
/-! DEFINITION. Major 0x19 (spec/13 R334-R337): every special register, read and written. -/

namespace Sys2Proof.Machine

/-- DEPTH (spec/05 R171); 0 inside a handler (spec/13 R335). -/
def Thread.depth (t : Thread) : Word :=
  if t.isHandler then 0 else wN (t.spawnDepth * 256 + t.widthDepth * 16 + Nat.min 15 t.sameDepth)

/-- The count of arithmetic cycles since the core's die left reset (spec/13 R336). -/
def dieClock (sys : Sys) (m : Mach) (core : Nat) : DWord :=
  match nth (sys.dies.map some) (coreDie core) with
  | some (.run o) => BitVec.ofNat 64 (m.cycle - o)
  | _ => 0

/-- The value of a special register (the table of spec/13 R335), in a slot. -/
def specialReg (sys : Sys) (m : Mach) (sl : Nat) (t : Thread) (idx : Nat) : Word :=
  match idx with
  | 0x00 => wN t.tid
  | 0x01 => wN sl
  | 0x02 => wN t.homeQ
  | 0x03 => match m.wave? t.wave with
    | some w => wN w.number
    | none => 0
  | 0x04 => wN t.core
  | 0x05 => wN (coreGrove t.core)
  | 0x06 => wN (coreDie t.core)
  | 0x07 => wN (sys.devid % 4096)
  | 0x08 => wN t.widx
  | 0x09 => wN t.wcnt
  | 0x0A => wN t.wfold
  | 0x0B => wN t.gmask
  | 0x0C => wN t.gslot
  | 0x0D => t.depth
  | 0x10 => t.fmode
  | 0x11 => t.tmshape
  | 0x18 => (dieClock sys m t.core).lo
  | 0x19 => t.clockLatch.getD (dieClock sys m t.core).hi
  | 0x20 => if t.isHandler then t.trapc else 0
  | 0x21 => if t.isHandler then t.trappc else 0
  | 0x22 => if t.isHandler then t.trapva.lo else 0
  | 0x23 => if t.isHandler then t.trapva.hi else 0
  | 0x28 => wN ((if t.mute then 2 ^ 31 else 0) + (m.eff t.launch).evq)
  | _ => 0

/-- What a read does to the latch of CLOCK. -/
def Thread.clockRead (sys : Sys) (m : Mach) (t : Thread) (idx : Nat) : Thread :=
  if idx = 0x18 then { t with clockLatch := some (dieClock sys m t.core).hi }
  else if idx = 0x19 then { t with clockLatch := none } else t

def execRdsr (h : Hdr) (d : Spec) (idx : BitVec 8) := onMach fun sys mc => mc.withQ fun q =>
  mc.onEach q h fun sl _ t => (t.clockRead sys mc idx.toNat).put h d [specialReg sys mc sl t idx.toNat]

/-- Writing a special register. -/
def Thread.setSpecial (t : Thread) (idx : Nat) (w : Word) : Thread :=
  match idx with
  | 0x10 => { t with fmode := w &&& fmodeMask }
  | 0x11 => { t with tmshape := w &&& tmshapeMask }
  | 0x28 => { t with mute := tbit w.toNat 31 }
  | _ => t

def execWrsr (h : Hdr) (a : Spec) (idx : BitVec 8) := onMach fun _ mc => mc.withQ fun q =>
  mc.onEach q h fun _ fr t => t.setSpecial idx.toNat (t.rd fr a)

end Sys2Proof.Machine
end

