-- ==== Sys2Proof/Machine/Issue.lean ====
section
/-! DEFINITION. The issue stage: fetching a clause header and an instruction word, the checks of spec/10 R269 and R279 in
their order, and what a failing fetch does (spec/12 R299, spec/06 R190). -/

namespace Sys2Proof.Machine

/-- The clause-ending instructions of spec/05 R150, by major and minor. -/
def endsWord (w : DWord) : Bool :=
  let mj := w.toNat / 2 ^ 57
  let mi := bits w.toNat 53 4
  (mj == 0 && mi ≤ 2) || (mj == 1 && mi == 0) || (mj == 2 && mi ≤ 1) || (mj == 3 && mi ≤ 3) || (mj == 4 && mi ≤ 2)
    || (mj == 5 && mi ≤ 1) || (mj == 0x78 && mi == 1) || (mj == 0x7A && mi ≤ 1)

/-! ### Failing fetches -/

/-- The instruction that sent a thread has changed nothing for it: its stack, width values, barrier slot, registers and call are as they
were (spec/12 R299). -/
def Thread.undone (t : Thread) (u : Undo) : Thread :=
  let t := { t.setWidths u.widths with
    rets := u.rets, stk := u.stk, tlsTop := u.tlsTop, widthDepth := u.widthDepth, regs := u.regs.getD t.regs }
  let t := match u.bar with
    | some b => t.setBar b
    | none => t
  match u.modes with
  | some p => { t with fmode := p.1, tmshape := p.2.1, mute := p.2.2 }
  | none => t

/-- The thread is back at the instruction that sent it, which has changed nothing else for it (spec/12 R299). -/
def Thread.unsend (t : Thread) (s : Sender) : Thread :=
  let t := { t.atSite s.toSite with sender := none }
  match s.undo with
  | some u => t.undone u
  | none => t

/-- A call that a sender had ended, or taken an iteration further, is as it was. -/
def Mach.putCall (m : Mach) (c : Call) : Mach :=
  if (m.call? c.id).isSome then m.setCall c else { m with calls := m.calls ++ [c] }

/-- A first fetch of threads that an instruction sent fails with a cause: those of the first sender take it at that instruction (log 139); a
handler's entry or a resume address ends the launch (spec/08 R228, R232). A memory cause names the address (R230). -/
def Mach.failSent (m : Mach) (q : Quarter) (ids : List Nat) (cause : Nat) : Mach :=
  match ids.filterMap fun t => (m.thr t).sender with
  | [] => m
  | s :: _ =>
    if s.isTret then m.endLaunch q.launch 7 cause
    else
      let grp := q.active.filter fun p => ids.contains p.2 && (m.thr p.2).sender.any fun u =>
        u.pc == s.pc && u.hdr == s.hdr && !u.isTret
      let calls := grp.filterMap fun p => (m.thr p.2).sender.bind fun u => u.undo.bind fun u => u.call
      let m := (calls.foldl Mach.putCall m).modAll (grp.map fun p => p.2) fun t => match t.sender with
        | some u => t.unsend u
        | none => t
      m.raise q.core q.launch (grp.map fun p => (p.1, p.2, if cause = 0x22 then q.pc.toNat else 0)) cause s.pc s.hdr s.flag

/-- Threads that were sent to an address inside a clause which others of the quarter have come back to: there is no header there for
them (spec/10 R266). -/
def Mach.strays (m : Mach) (q : Quarter) : List Nat := if q.hdr.isNone then [] else q.tids.filter fun t => (m.thr t).hdr.isNone

/-- They take 0x0A at the instruction that sent them, or 0x07 there where none did. -/
def Mach.failStrays (m : Mach) (q : Quarter) (ids : List Nat) : Mach :=
  match ids.filter fun t => (m.thr t).sender.isSome with
  | [] => m.raise q.core q.launch ((q.active.filter fun p => ids.contains p.2).map fun p => (p.1, p.2, 0)) 0x07 q.pc none 0
  | sent => m.failSent q sent 0x0A

/-- The threads of the quarter park and will fetch again. -/
def Mach.parkFetch (m : Mach) (q : Quarter) (va : Nat) (l : Bool) (c k lv pg : Nat) : Mach :=
  let ps := q.tids.map fun t => (⟨t, l, c, k, lv, pg, true, false, va⟩ : ParkReq)
  if q.tids.any m.inFlight then m.waitQ q .flags
  else if !m.sumpRoom q.core (m.eff q.launch).fdom ps then m.waitSump q ps
  else m.parkAll q.core (m.eff q.launch).fdom q.pc q.hdr 0 ps

/-- Words of a clause that lie in another device are asked for; the quarter is not ready until they come (spec/06 R188). -/
def Mach.askWords (sys : Sys) (m : Mach) (q : Quarter) (ws : List (Nat × Nat)) : Mach :=
  ws.foldl (fun m p => m.askLine sys q.core (m.eff q.launch).fdom 0 p.1 p.2) m

/-- A fetch at the quarter's pc that does not give a word. `sent` says that it is the first word after the threads were
sent. -/
def Mach.noFetch (sys : Sys) (m : Mach) (q : Quarter) (va : Nat) (sent : Bool) (f : Fetch) : Mach :=
  match f with
  | .ok _ _ => m
  | .far va loc => m.askWords sys q [(va, loc)]
  | .park l c k lv pg => m.parkFetch q va l c k lv pg
  | .ecc pa => ((m.forgetFar q.core 0).logErr 0x30 q.core pa).raiseQ q 0x30 0 fun _ => va
  | .trap c =>
    if sent && c == 0x22 && q.tids.any (fun t => (m.thr t).sender.isSome) then m.failSent q q.tids c
    else (m.forgetFar q.core 0).raiseQ q c 0 fun _ => va

/-! ### Static checks of a clause (spec/05 R149) -/

/-- Does an instruction name a destination, or write `ck`. -/
def dstUses (i : Instr) : List OpUse := i.uses.filter fun u => u.role == .dst

/-- It shifts `x`: it writes a destination and names no flag. -/
def shiftsX (i : Instr) : Bool := !(dstUses i).isEmpty && i.hdr.any fun h => h.flag == 0

/-- Registers `ck` that an instruction writes, the status register of a `.tm` form among them. -/
def writesC (i : Instr) : List Nat :=
  i.uses.flatMap fun u => match u.s, u.role with
    | .c k, .dst => (List.range u.n).map fun j => k.toNat + j
    | .c k, .stat => [k.toNat + u.n]
    | _, _ => []

/-- The words of a clause before an instruction leave these shifts and these `ck` written. -/
def clauseBefore : List Instr → Nat × List Nat
  | [] => (0, [])
  | i :: r => let p := clauseBefore r; (p.1 + (if shiftsX i then 1 else 0), writesC i ++ p.2)

/-- The operand uses of an instruction: those of a product whose format slot has scales are pairs (spec/16 R390). -/
def Mach.usesOf (m : Mach) (launch : Nat) (i : Instr) : List OpUse :=
  let pair (sl : BitVec 3) (s : Spec) : List OpUse := if scaled (m.fslot launch sl.toNat) then [⟨.src, 2, s⟩] else []
  i.uses ++ match i with
  | .mma _ _ _ a b sA sB => pair sA a ++ pair sB b
  | .mmas _ _ _ a b _ sA sB => pair sA a ++ pair sB b
  | .mmaj _ _ _ _ a b sA sB => pair sA a ++ pair sB b
  | _ => []

/-- Operands read `x0`, `x1` or `ck` before the clause has written it. -/
def readsEarly (before : List Instr) (uses : List OpUse) : Bool :=
  let p := clauseBefore before
  uses.any fun u => u.role == .src && (match u.s with
    | .x0 => decide (p.1 < 1)
    | .x1 => decide (p.1 < 2)
    | .c k => (List.range u.n).any fun j => !p.2.contains (k.toNat + j)
    | _ => false)

/-- The instructions of the clause before the word at pc, as fetched. -/
def Mach.before (sys : Sys) (m : Mach) (q : Quarter) (ver : Nat) : List Instr :=
  match q.hdr with
  | none => []
  | some h => (List.range (q.pos - 1)).filterMap fun j =>
    match q.code.getD j none with
    | some w => (decodeWord ver w).toOption
    | none => match fetchWord sys m q.core (m.eff q.launch) (h.1.toNat + 8 * (j + 1)) with
      | .ok w _ => (decodeWord ver w).toOption
      | _ => none

/-- A special-register index of `rdsr` or `wrsr` that is reserved, or not writable (spec/10 R283, R284). -/
def srBad (ver : Nat) (i : Instr) : Bool :=
  match i with
  | .rdsr _ _ x =>
    let n := x.toNat
    !(decide (n ≤ 0x0D) || n == 0x10 || (n == 0x11 && decide (3 ≤ ver)) || n == 0x18 || n == 0x19
      || (decide (0x20 ≤ n) && decide (n ≤ 0x23)) || n == 0x28)
  | .wrsr _ _ x => !(x == 0x10 || (x == 0x11 && decide (3 ≤ ver)) || x == 0x28)
  | _ => false

/-- The engine class of the clause. -/
def Quarter.eclass (q : Quarter) : Nat :=
  match q.hdr with
  | some h => (clauseHdr h.2).eclass.toNat
  | none => 0

/-- Checks 6 to 10 of spec/10 R279 that depend on the thread and the clause: the cause of the first that fails. -/
def Mach.lateCheck (sys : Sys) (m : Mach) (q : Quarter) (i : Instr) : Option Nat :=
  let ver := (m.launch q.launch).ver
  let rgv := q.tids.foldl (fun a t => Nat.min a (m.thr t).rgv) q.rg
  let uses := m.usesOf q.launch i
  if !(uses.all fun u => u.ok && u.inRg rgv) then some 0x05
  else if i.endsClause && !q.isLast then some 0x06
  else if readsEarly (m.before sys q ver) uses then some 0x04
  else if srBad ver i then some 0x09
  else if i.port.any fun p => !eclassAllows q.eclass p then some 0x07
  else none

/-! ### Readiness that the instruction itself decides -/

/-- A source of the instruction is written by a load of the thread whose result has not landed (spec/07 R203; log 12). -/
def Mach.loadHolds (m : Mach) (launch : Nat) (tids : List Nat) (i : Instr) : Bool :=
  let srcs := ((m.usesOf launch i).filter fun u => u.role == .src).flatMap fun u => (List.range u.n).map fun j => spAt u.s j
  m.flights.any fun f => tids.contains f.owner && (match f.instr with
    | .ld _ sz _ _ d _ _ => (List.range sz.regs).any fun j => srcs.contains (spAt d j) && d != .zero
    | .lds _ sz _ d _ _ => (List.range sz.regs).any fun j => srcs.contains (spAt d j) && d != .zero
    | _ => false)

/-- The word cannot issue yet: its flag would reach 16, or a lookahead is used up (spec/10 R271, R274). -/
def Mach.notReady (m : Mach) (q : Quarter) (flag : Nat) : Bool :=
  (q.tids.any fun t => !(m.thr t).flagRoom q.pc flag) || q.looks.any fun l => l.left == 0

/-! ### Errors in registers and accumulators (spec/06 R198, R199) -/

/-- Registers of the thread that the instruction reads, or writes. -/
def regsOf (role : Sys2Proof.Role) (i : Instr) : List Nat :=
  (i.uses.filter fun u => u.role == role).flatMap fun u => match u.s with
    | .v k => (List.range u.n).map fun j => k.toNat + j
    | _ => []

/-- The wave-tile that the instruction reads. -/
def accOf : Instr → Option Nat
  | .mma _ z a _ _ _ _ => if z then none else some a.toNat
  | .mmas _ _ a _ _ _ _ _ => some a.toNat
  | .mmaj _ z _ a _ _ _ _ => if z then none else some a.toNat
  | .tdrain _ _ _ _ _ _ a _ _ _ => some a.toNat
  | _ => none

/-- Threads of the quarter whose registers hold an uncorrectable error that the instruction reads, and those whose stored context held
one, at their first issue since (spec/08 R238). -/
def Mach.sramBad (m : Mach) (q : Quarter) (i : Instr) : List Nat :=
  q.tids.filter fun t => (m.thr t).ctxBad || (m.thr t).parity.any fun p => !p.2 && (regsOf .src i).contains p.1

/-- The wave-tile that the instruction reads holds an uncorrectable error. -/
def Mach.tileBad (m : Mach) (q : Quarter) (i : Instr) : Bool :=
  (accOf i).any fun a => m.tiles.any fun x => x.core == q.core && x.t == a && x.err == 2

/-- A parity error whose second read is good is counted as a replay, and a single-bit error of a wave-tile as corrected; a register that
the instruction writes has no error any more. -/
def Mach.sramFix (m : Mach) (q : Quarter) (i : Instr) : Mach :=
  let m := q.tids.foldl (fun m t =>
    let hit := (m.thr t).parity.filter fun p => p.2 && (regsOf .src i).contains p.1
    hit.foldl (fun m _ => m.count1 q.core true) (m.modThr t fun u =>
      { u with parity := u.parity.filter fun p => !hit.contains p && !(regsOf .dst i).contains p.1 })) m
  match accOf i with
  | none => m
  | some a =>
    if m.tiles.any fun x => x.core == q.core && x.t == a && x.err == 1 then
      ({ m with tiles := m.tiles.map fun (x : Tile) => if x.core = q.core ∧ x.t = a then { x with err := 0 } else x }).count1 q.core false
    else m

/-- The instruction reads its registers: threads that find an uncorrectable error take cause 0x30 precisely, and the others issue
afterwards; an error in the alcove's context ends the launch with status 7 and cause 0x30. One in its wave-tile is taken by the whole
quarter (spec/08 R238). The record of an error that lies in no memory names no address (DESIGN CHOICE, log 31). -/
def Mach.sramStage (m : Mach) (q : Quarter) (i : Instr) : Mach × Option Instr :=
  if (q.tids.all fun t => (m.thr t).parity == [] && !(m.thr t).ctxBad) && (accOf i).isNone then (m, some i)
  else
    let fl := i.hdr.elim 0 fun h => h.flag.toNat
    match m.sramBad q i with
    | [] => if m.tileBad q i then ((m.logErr 0x30 q.core 0).raiseQ q 0x30 fl fun _ => 0, none) else (m.sramFix q i, some i)
    | ids =>
      let m := ids.foldl (fun m _ => m.logErr 0x30 q.core 0) m
      (if q.handler.isSome then m.endLaunch q.launch 7 0x30
       else (m.raiseT q ids 0x30 fl fun _ => 0).modAll ids fun t => { t with ctxBad := false }, none)

/-! ### The stage -/

/-- The words of the clause whose header stands at `at_`, as they are fetched together (spec/03 R104). -/
def clauseCode (sys : Sys) (m : Mach) (q : Quarter) (at_ n : Nat) : List (Option DWord) :=
  (List.range n).map fun j => (fetchWord sys m q.core (m.eff q.launch) (at_ + 8 * (j + 1))).word?

/-- The quarter with the words of its clause: one that comes back into its clause fetches them again, together (spec/03 R104). -/
def Quarter.coded (sys : Sys) (m : Mach) (q : Quarter) : Quarter :=
  match q.hdr with
  | some h => if q.code = [] then { q with code := clauseCode sys m q h.1.toNat (clauseHdr h.2).words } else q
  | none => q

/-- The word at the quarter's pc, inside its clause: it traps, waits, or issues. A clause is executed as fetched: the word is the one
that the quarter holds of it, if it holds it. -/
def issueWord (sys : Sys) (m : Mach) (q : Quarter) : Mach × Option Instr :=
  let e := m.eff q.launch
  let away := match q.hdr with
    | some h => if q.code = [] then farWords sys m q.core e h.1.toNat (clauseHdr h.2).words else []
    | none => []
  if away ≠ [] then (m.askWords sys q away, none)
  else
  let q := q.coded sys m
  match fetchWord sys m q.core e q.pc.toNat with
  | .ok w tl =>
    let m := ((m.setQ q).walked q.core e (q.pc.toNat % 2 ^ 57) tl).fetchFix sys q.core e q.pc.toNat
    let w := q.held?.getD w
    let fl := wordFlag w
    if m.notReady q fl then (m, none)
    else match decodeWord (m.launch q.launch).ver w with
    | .error c => (m.raiseQ q c fl fun _ => 0, none)
    | .ok i =>
      if m.loadHolds q.launch q.tids i then (m, none)
      else match m.lateCheck sys q i with
        | some c => (m.raiseQ q c fl fun _ => 0, none)
        | none => m.sramStage q i
  | f => (m.noFetch sys q q.pc.toNat (q.tids.any fun t => (m.thr t).sender.any Sender.isTret) f, none)

/-- A header is malformed or its TAIL does not match the clause's last instruction (spec/10 R269). -/
def headerBad (w last : DWord) : Bool := !headerFieldsOk w || (clauseHdr w).tail != endsWord last

/-- A quarter at a clause boundary: the header is fetched and checked, and its wait mask must be met. -/
def issueHeader (sys : Sys) (m : Mach) (q : Quarter) : Mach × Option Instr :=
  let e := m.eff q.launch
  match fetchWord sys m q.core e q.pc.toNat with
  | .ok w _ =>
    if !isHeader w then
      (if q.tids.any (fun t => (m.thr t).sender.isSome) then m.failSent q q.tids 0x0A else m.raiseQ q 0x07 0 fun _ => 0, none)
    else
      let la := (q.pc.toNat + 8 * (clauseHdr w).words) % 2 ^ 57
      match fetchWord sys m q.core e la with
      | .ok l _ =>
        if headerBad w l then (m.raiseQ q 0x07 0 fun _ => 0, none)
        else if q.tids.any fun t => !(m.thr t).maskMet (clauseHdr w).wait then (m, none)
        else match farWords sys m q.core e q.pc.toNat (clauseHdr w).words with
        | a :: as => (m.askWords sys q (a :: as), none)
        | [] =>
          let h := some (q.pc, w)
          let q := { q with hdr := h, pc := q.pc + 8, code := clauseCode sys m q q.pc.toNat (clauseHdr w).words }
          issueWord sys ((m.setQ q).modAll q.tids fun t => { t with hdr := h }) q
      | f => (m.noFetch sys q la false f, none)
  | f => (m.noFetch sys q q.pc.toNat true f, none)

/-- ISSUE: the quarter's next instruction, if it issues; a trap, a park or a wait otherwise. -/
def issueStage (sys : Sys) (m : Mach) (qid : Nat) : Mach × Option Instr :=
  let m := { m with cur := qid }
  match m.quarter? qid with
  | none => (m, none)
  | some q =>
    if q.hdr = none then issueHeader sys m q
    else match m.strays q with
      | [] => issueWord sys m q
      | ids => (m.failStrays q ids, none)

end Sys2Proof.Machine
end

