-- ==== Sys2Proof/Machine/Sched.lean ====
section
/-! DEFINITION. Scheduling on a core (spec/04 R120-R129): readiness, the two picks of a cycle, ports, the context shuttle,
and the passing of cycles. -/

namespace Sys2Proof.Machine

/-! ### Readiness -/

/-- The wait of a quarter is over: what its instruction waits for has come for one of its threads at least. -/
def Mach.waitOver (m : Mach) (q : Quarter) : Bool :=
  match q.wait with
  | none => true
  | some (.barrier l n) => q.tids.any fun t => match (m.thr t).bar? l n with
      | some b => b.phase != .arrived
      | none => true
  | some (.counter need) => need.all fun c => decide (c.2 ≤ (m.ctr (m.launch q.launch).rcb c.1).val)
  | some (.ring r) => (m.rings.find? fun g => g.core == q.core && g.num == r && g.launch == q.launch).all Ring.ready
  | some .join => q.tids.any fun t => !m.liveKids (m.thr t)
  | some (.fault need) => m.sumpFits q.core (m.eff q.launch).fdom need
  | some (.tile t) => !m.tileReserved q.core t
  | some (.mmaj k) => !(m.mmajs.any fun s => s.id == k && decide (s.partners.length < 4))
  | some (.queue n k) => m.subRoom (m.launch q.launch) n k
  | some .flags => true

/-- The region of a launch is being saved, or is saved: its quarters stop at their next clause boundary (spec/04 R138). -/
def Mach.stopped (m : Mach) (launch : Nat) : Bool := m.preempts.any fun p => p.rcb == (m.launch launch).rcb

/-- The word that the quarter would issue, its first word when it stands at a header. -/
def Mach.peek (sys : Sys) (m : Mach) (q : Quarter) : Option DWord :=
  match q.hdr with
  | none => (fetchWord sys m q.core (m.eff q.launch) (q.pc.toNat + 8)).word?
  | some _ => match q.held? with
    | some w => some w
    | none => (fetchWord sys m q.core (m.eff q.launch) q.pc.toNat).word?

/-- Port of a major opcode (spec/04 R127): 0 special function, 1 memory, 2 matrix, 3 async. -/
def portOf (w : DWord) : Option Nat :=
  let mj := w.toNat / 2 ^ 57
  if 0x40 ≤ mj ∧ mj ≤ 0x4F then some 0
  else if 0x50 ≤ mj ∧ mj ≤ 0x5F then some 1
  else if mj = 0x63 then some 3
  else if 0x60 ≤ mj ∧ mj ≤ 0x6F then some 2
  else if 0x70 ≤ mj ∧ mj ≤ 0x77 then some 3
  else none

/-- The instruction works in the top-k unit of its core (spec/14 R348). -/
def needsTopk (w : DWord) : Bool := w.toNat / 2 ^ 57 == 0x41 || w.toNat / 2 ^ 57 == 0x4C

/-- Cycles for which an issue holds its port. -/
def portHold (p : Nat) (wave : Bool) : Nat :=
  if p = 3 then 1 else if p = 1 then (if wave then 4 else 1) else (if wave then 8 else 2)

/-- The header's wait mask is met, at a clause boundary (spec/04 R125). -/
def Mach.headerMet (sys : Sys) (m : Mach) (q : Quarter) : Bool :=
  q.hdr.isSome || (match (fetchWord sys m q.core (m.eff q.launch) q.pc.toNat).word? with
    | some w => !isHeader w || q.tids.all fun t => (m.thr t).maskMet (clauseHdr w).wait
    | none => true)

/-- A long wait of spec/04 R122. -/
def Wait.long : Wait → Bool
  | .flags => false
  | _ => true

/-- The shuttle has the quarter's context on its way (spec/04 R122). -/
def Mach.moving (m : Mach) (q : Quarter) : Bool :=
  (m.coreSt q.core).move.any fun v => v.1 == q.id && decide (m.cycle < v.2.2.2)

/-- A failed operation of one of the quarter's threads is still to be raised (spec/06 R190, spec/08 R227). -/
def Mach.failing (m : Mach) (q : Quarter) : Bool :=
  m.flights.any fun f => f.failed.isSome && f.tids.any q.tids.contains

/-- READY (spec/04 R125). A quarter of a stopped region stops at its clause boundary, or in a long wait (R138); the first instruction of
a wave does not issue before its time (R116), nor a yielded quarter before its own (spec/12 R307). -/
def Mach.ready (sys : Sys) (m : Mach) (q : Quarter) : Bool :=
  let w := m.peek sys q
  let stall := match w with
    | some w => bits w.toNat 50 3
    | none => 0
  q.slice.isSome && m.waitOver q && !m.moving q && decide (q.startAt ≤ m.cycle) && decide (q.yieldUntil ≤ m.cycle)
    && !m.failing q && !(m.stopped q.launch && (q.hdr.isNone || q.wait.any Wait.long))
    && (q.lastIssue.all fun t => decide (t + 2 + stall ≤ m.cycle))
    && m.headerMet sys q && !(q.looks.any fun l => l.left == 0)

/-! ### Picks (spec/04 R126-R128) -/

/-- It has issued since it entered the chamber. -/
def Quarter.hasIssued (q : Quarter) : Bool := q.lastIssue.any fun t => decide (q.entered < t)

/-- The age of a quarter: its last issue and its place among the picks of that cycle, or its entry into the chamber, then slice and
slot. An entry is older than an issue of the same cycle (DESIGN CHOICE, log 70). -/
def Quarter.age (q : Quarter) : List Nat :=
  if q.hasIssued then [q.lastIssue.getD 0, 1, q.order, 0] else [q.entered, 0, q.slice.getD 4, q.id]

def Mach.oldest (m : Mach) (core : Nat) : List Quarter :=
  sortBy (fun a b : Quarter => !(lexLt b.age a.age)) (m.quarters.filter fun q => q.core == core && q.slice.isSome)

/-- A pick is refused (spec/04 R127): its slice is held, the shuttle is in its banks, or the port or the unit of its instruction is not free
(spec/14 R348). -/
def Mach.refused (sys : Sys) (m : Mach) (c : CoreSt) (q : Quarter) : Bool :=
  decide (m.cycle < nth c.sliceUntil (q.slice.getD 0))
    || (c.move.any fun v => v.2.1 == q.slice.getD 0 && decide (v.2.2.1 ≤ m.cycle) && decide (m.cycle < v.2.2.2))
    || (((m.peek sys q).bind portOf).any fun p => decide (m.cycle < nth c.portUntil p))
    || ((m.peek sys q).any needsTopk && m.flights.any fun f => f.inUnit q.core)

def CoreSt.hold (c : CoreSt) (cycle slice : Nat) (port : Option Nat) (wave : Bool) : CoreSt :=
  let c := { c with sliceUntil := modAt c.sliceUntil slice fun _ => cycle + 2 }
  match port with
  | some p => { c with portUntil := modAt c.portUntil p fun _ => cycle + portHold p wave }
  | none => c

/-- Quarters of a gang, in order of the slices that they take. -/
def Mach.gangOf (m : Mach) (g : Nat) : List Quarter :=
  sortBy (fun a b : Quarter => decide (a.id ≤ b.id)) (m.quarters.filter fun q => q.gang == some g)

/-- The quarter is behind others of its ganged wave: it has waited at an instruction that they have issued. -/
def Mach.lags (m : Mach) (q : Quarter) : Bool :=
  q.gang.isSome && m.quarters.any fun u => u.gang == q.gang && decide (q.steps < u.steps)

/-- No quarter of the ganged wave is behind. -/
def Mach.level (m : Mach) (q : Quarter) : Bool :=
  q.gang.isNone || m.quarters.all fun u => u.gang != q.gang || u.steps == q.steps

/-- Quarters of a ganged wave that want different next pcs split (spec/05 R151). One that waits at an instruction is no such quarter: the
others wait for it to catch up (log 134). -/
def Mach.splitGangs (m : Mach) (core : Nat) : Mach :=
  (m.quarters.filter fun q => q.core == core && q.gang.isSome).foldl (fun m q =>
    if m.quarters.any fun u => u.gang == q.gang && u.steps == q.steps && (u.pc != q.pc || u.hdr != q.hdr) then m.ungang q else m) m

/-- One pick: the oldest ready quarter of the core that is not refused. A quarter of a ganged wave is picked alone where it is behind. -/
def Mach.pickOne (sys : Sys) (m : Mach) (core : Nat) (not_ : List Nat) : Option Quarter :=
  (m.oldest core).find? fun q => (q.gang.isNone || m.lags q) && !not_.contains q.id && m.ready sys q && !m.refused sys (m.coreSt core) q

/-- The line that a pick fetches from is present in the core's instruction cache: 512 lines, of which the one used longest ago
leaves (spec/04 R115; log 15). -/
def Mach.keepLine (m : Mach) (q : Quarter) : Mach :=
  let x := (q.core, (m.eff q.launch).fdom, q.pc.toNat / 64)
  let mine := m.ilines.filter fun c => c.1 == q.core && c != x
  let gone := mine.drop 511
  { m with
    ilines := (x :: mine).take 512 ++ m.ilines.filter fun c => c.1 != q.core
    farLines := m.farLines.filter fun l => l.tid != 0 || !gone.contains (l.core, l.fdom, l.line) }

def Mach.pick (sys : Sys) (m : Mach) (core : Nat) (q : Quarter) : Mach :=
  ({ m.keepLine q with latch := m.latch ++ [q.id] }).modCore core fun c =>
    { c.hold m.cycle (q.slice.getD 0) ((m.peek sys q).bind portOf) false with pickedAt := some m.cycle }

/-- A ganged wave issues when it is the oldest ready entry, all four slices are free, and its port is free. -/
def Mach.pickGang (sys : Sys) (m : Mach) (core : Nat) : Option (List Quarter) :=
  match (m.oldest core).find? fun q => m.ready sys q && (m.level q || m.lags q) with
  | none => none
  | some q => match q.gang.filter fun _ => m.level q with
    | none => none
    | some g =>
      let qs := m.gangOf g
      if qs.all (fun u => m.ready sys u && !m.refused sys (m.coreSt core) u)
        && (m.coreSt core).sliceUntil.all (fun t => decide (t ≤ m.cycle)) then some qs else none

/-- A core of a higher number has issued in this cycle. -/
def Mach.issuedAbove (m : Mach) (core : Nat) : Bool := m.quarters.any fun q => decide (core < q.core) && q.lastIssue == some m.cycle

/-- ISSUE_PICK: the two picks of a cycle of one core; the picked quarters issue one after the other. The picks of one cycle come in ascending
core number, in which their spawns perform (spec/12 R315). -/
def execIssuePick (core : Nat) := onMach fun sys mc =>
  let m := mc.splitGangs core
  if mc.issuedAbove core || (m.coreSt core).pickedAt.any (fun t => decide (m.cycle ≤ t)) || (m.coreSt core).power != .c0 || sys.thermtrip then mc
  else match m.pickGang sys core with
    | some qs =>
      let port := (qs.head?.bind fun q => m.peek sys q).bind portOf
      ({ qs.foldl Mach.keepLine m with latch := m.latch ++ (qs.map fun q => q.id) } : Mach).modCore core fun c =>
        let c := qs.foldl (fun c q => c.hold m.cycle (q.slice.getD 0) port true) c
        { c with pickedAt := some (m.cycle + 1) }
    | none => match m.pickOne sys core [] with
      | none => m
      | some a =>
        let m := m.pick sys core a
        match m.pickOne sys core [a.id] with
        | some b => m.pick sys core b
        | none => m

/-! ### The shuttle (spec/04 R122, R123) -/

/-- Bytes of a quarter's context (spec/04 R120). -/
def Quarter.bytes (q : Quarter) : Nat := 32 * q.rg

/-- Free chamber bytes of a slice. -/
def Mach.sliceFree (m : Mach) (core slice : Nat) : Nat :=
  Config.chamberSlice - ((m.quarters.filter fun q => q.core == core && q.slice == some slice).map Quarter.bytes).sum

/-- The slice with the most free bytes; ties go to the lower number. -/
def Mach.roomiest (m : Mach) (core : Nat) : Nat :=
  [1, 2, 3].foldl (fun b s => if m.sliceFree core s > m.sliceFree core b then s else b) 0

/-- The cycle in which a gallery quarter became ready: when it came there, when its stay with its glade ended, or when the cycles after
its `yield` did (spec/12 R307). -/
def Mach.readyAt (sys : Sys) (m : Mach) (q : Quarter) : Nat :=
  Nat.max (Nat.max q.readySince q.yieldUntil) (match q.fresh with
    | some t => t + m.ageAt sys q.core q.launch q.pc
    | none => 0)

/-- A gallery quarter is ready to be loaded. -/
def Mach.wantsLoad (sys : Sys) (m : Mach) (q : Quarter) : Bool :=
  q.slice.isNone && m.waitOver q && !(q.tids.any m.landing) && !m.stopped q.launch && !m.moving q
    && decide (m.readyAt sys q ≤ m.cycle)

/-- The members of a gang that are ready to be loaded, each with its slice. -/
def Mach.gangOut (sys : Sys) (m : Mach) (g : Nat) : List (Nat × Quarter) := (enum (m.gangOf g)).filter fun p => m.wantsLoad sys p.2

/-- Handler quarters first, then the highest effective priority, then the one ready earliest (spec/04 R122, spec/08 R231). -/
def Mach.loadNext (sys : Sys) (m : Mach) (core : Nat) : Option Quarter :=
  let key (q : Quarter) : List Nat := [if q.handler.isSome then 0 else 1, 16 - (m.eff q.launch).prio, m.readyAt sys q, q.id]
  minBy (fun a b => lexLt (key a) (key b)) (m.quarters.filter fun q => q.core == core && m.wantsLoad sys q)

def Mach.shuttleFree (m : Mach) (core : Nat) : Bool := (m.coreSt core).move.all fun v => decide (v.2.2.2 ≤ m.cycle)

/-- The shuttle's next free cycle. -/
def Mach.shuttleNext (m : Mach) (core : Nat) : Nat := (m.coreSt core).move.foldl (fun a v => Nat.max a v.2.2.2) m.cycle

/-- The shuttle takes a context from a cycle on, at 256 bytes in a cycle; what it has moved before is done. -/
def CoreSt.carry (c : CoreSt) (cycle from_ : Nat) (q : Quarter) (slice : Nat) : CoreSt :=
  { c with move := (c.move.filter fun v => decide (cycle < v.2.2.2)) ++ [(q.id, slice, from_, from_ + (q.bytes + 255) / 256)] }

/-- A callee's frame that stands outside the gallery is moved into it (spec/05 R167). -/
def Mach.frameIn (m : Mach) (tid : Nat) : Mach :=
  let t := m.thr tid
  let c := match t.role with
    | .widen c => (m.call? c).map fun c => c.caller
    | .gather c => (m.call? c).map fun c => c.caller
    | _ => none
  let m := m.modThr tid fun u => { u with place := .gallery }
  match c with
  | some c => m.modThr c fun u => u.popPlaced 3 t.place
  | none => m

def Mach.load (m : Mach) (q : Quarter) (slice : Nat) : Mach :=
  let m := (q.tids.filter fun t => (m.thr t).place != .gallery).foldl Mach.frameIn m
  let from_ := m.shuttleNext q.core
  (m.setQ { q with slice := some slice, entered := from_ + (q.bytes + 255) / 256 - 1, fresh := none }).modCore q.core fun c =>
    c.carry m.cycle from_ q slice

/-- The slice has room for a member of a gang, or for a quarter. -/
def Mach.roomFor (sys : Sys) (m : Mach) (q : Quarter) : Bool :=
  match q.gang with
  | some g => (m.gangOut sys g).all fun p => decide (p.2.bytes ≤ m.sliceFree q.core p.1)
  | none => decide (q.bytes ≤ m.sliceFree q.core (m.roomiest q.core))

/-- SHUTTLE_LOAD: one context moves into the chamber; the contexts of a ganged wave, one for each slice, move one after another. -/
def execShuttleLoad (core : Nat) := onMach fun sys mc =>
  if !mc.shuttleFree core then mc
  else match mc.loadNext sys core with
    | none => mc
    | some q =>
      if !mc.roomFor sys q then mc
      else match q.gang with
        | some g => (mc.gangOut sys g).foldl (fun m p => m.load p.2 p.1) mc
        | none => mc.load q (mc.roomiest core)

/-- A quarter goes to the gallery; one of a ganged wave keeps its gang (DESIGN CHOICE, log 134). -/
def Mach.evict (m : Mach) (q : Quarter) : Mach :=
  (m.setQ { q with slice := none, readySince := m.cycle }).modCore q.core fun c =>
    c.carry m.cycle m.cycle q (q.slice.getD 0)

/-- SHUTTLE_EVICT_LONG_WAIT: a chamber quarter that has entered a long wait goes to the gallery. -/
def execShuttleEvictLongWait (core qid : Nat) := onMach fun _ mc =>
  match mc.quarter? qid with
  | none => mc
  | some q =>
    if q.core = core && q.slice.isSome && q.wait.any Wait.long && !mc.waitOver q && !(q.tids.any mc.landing) && mc.shuttleFree core then
      mc.evict q
    else mc

/-- A chamber quarter that may be evicted for a waiting one: in the chamber for 256 cycles, or in the cycles after a `yield`. -/
def Mach.evictable (m : Mach) (q : Quarter) : Bool :=
  q.slice.isSome && (q.hdr.isNone || q.wait.any Wait.long) && !(q.tids.any m.landing) && !m.latch.contains q.id
    && (decide (q.entered + 256 ≤ m.cycle) || decide (m.cycle < q.yieldUntil))

/-- A chamber quarter whose leaving helps the quarter that is to be loaded: for a ganged wave, one of a slice without room. -/
def Mach.inTheWay (sys : Sys) (m : Mach) (q u : Quarter) : Bool :=
  match q.gang with
  | some g => (m.gangOut sys g).any fun p => u.slice == some p.1 && decide (m.sliceFree q.core p.1 < p.2.bytes)
  | none => true

/-- SHUTTLE_EVICT_FOR_WAITING: a gallery quarter is ready and no slice has room; the evictable chamber quarter that issued
least recently goes; one that has not issued since it entered counts from its entry (DESIGN CHOICE, log 70). -/
def execShuttleEvictForWaiting (core : Nat) := onMach fun sys mc =>
  match mc.loadNext sys core with
  | none => mc
  | some q =>
    if mc.roomFor sys q || !mc.shuttleFree core then mc
    else match (mc.oldest core).find? fun u => mc.evictable u && mc.inTheWay sys q u with
      | some u => mc.evict u
      | none => mc

/-! ### Glades age (spec/05 R152, R154, R168) -/

/-- GLADE_AGE_EXPIRE: the waiting threads leave as one partial quarter; a gather glade forms its callee. -/
def execGladeAgeExpire (gid : Nat) := onMach fun sys mc =>
  match mc.glade? gid with
  | none => mc
  | some g =>
    if mc.cycle ≤ (g.threads.headD (0, 0)).2 + mc.ageAt sys g.core g.launch g.pc || mc.stopped g.launch then mc
    else (mc.yieldGlade sys g).startGroups sys mc

/-- WIDEN_FRAME_GRANT: a widen caller that cannot fold takes the frames it waits for (spec/05 R162). -/
def execWidenFrameGrant (call : Nat) := onMach fun sys mc =>
  match mc.call? call with
  | none => mc
  | some c => if !c.waiting || c.gather || mc.stopped c.launch then mc else widenGrant sys mc c

/-- GATHER_FRAME_GRANT: a gather group that waits for a frame starts its callee (spec/05 R168). -/
def execGatherFrameGrant (call : Nat) := onMach fun sys mc =>
  match mc.call? call with
  | none => mc
  | some c => if !c.waiting || !c.gather || c.callers == [] || mc.stopped c.launch then mc else gatherStart sys mc c.id

/-! ### The passing of cycles -/

/-- A cycle of the idle and busy table (spec/04 R118): cores that hold quarters of a launch with a table, have issued one in it, or have a
macro-op step of it in flight. -/
def Launch.count (l : Launch) (m : Mach) (n : Nat) : Launch :=
  if l.profva = 0 || (m.preempts.any fun p => p.rcb == l.rcb && decide (2 ≤ p.stage)) then l
  else
    let step (k : Nat) : Bool := m.engines.any fun e => e.core == k && e.launch == l.id && (match e.kind with
      | .mop _ _ => e.midStep
      | _ => false)
    let ks := (((m.quarters.filter fun q => q.launch == l.id).map fun q => q.core) ++
      ((m.cores.filter fun c => c.busy.contains l.id).map fun c => c.core) ++ (m.engines.map fun e => e.core).filter step).eraseDups
    { l with prof := ks.foldl (fun p k =>
        let busy := (m.quarters.any fun q => q.launch == l.id && q.core == k && q.lastIssue == some m.cycle)
          || (m.coreSt k).busy.contains l.id || step k
        let old := match p.find? fun e => e.1 == k with
          | some e => (e.2.1, e.2.2.1)
          | none => (0, 0)
        let b := if busy then 1 else 0
        (k, old.1 + n - b, old.2 + b, 0) :: p.filter fun e => e.1 != k) l.prof }

/-- A stream engine that waits for a slot of its ring, at a slot boundary. -/
def Mach.streamWaits (m : Mach) (e : EngOp) : Bool :=
  match e.kind with
  | .stream _ _ => e.stage == 1 && nth e.nums 1 == 0
      && (m.rings.filter fun g => g.core == e.core && g.num == bits (nth e.nums 0) 232 8).all fun g =>
        if g.drain then (g.slots.getD g.takeAt {}).st != .full else (g.slots.getD g.fillAt {}).st != .empty
  | _ => false

/-- An engine operation that keeps its launch's idle wires low: every copy and signature load, and every stream operation that
does not stand behind one that waits for a slot. A macro-op of a stopped region stands at a step point (spec/04 R138-R140). -/
def Mach.engBusy (m : Mach) (e : EngOp) : Bool :=
  match e.kind with
  | .mop _ _ => e.midStep || m.reqs.any fun r => r.who == .engine e.id
  | .stream k _ => !(m.engines.any fun o => o.core == e.core && m.streamWaits o && (match o.kind with
      | .stream j _ => j == k
      | _ => false))
  | _ => true

/-- An arrival of a device's own domain barriers stands in a port of the fabric. -/
def arrivalOut (sys : Sys) (m : Mach) (dombar : Nat) : Bool :=
  (m.out ++ sys.fports.flatMap fun p => p.outq.filterMap fun x => x.2).any fun x => x.src == sys.devid && (match x.body with
    | .barArrive n _ _ _ => tbit dombar n
    | _ => false)

/-- The AND of a launch's idle wires (spec/04 R134): no issued instruction is incomplete but for those that wait with their
quarter, no access, copy, stream step, message or flit of it is on its way, and no quarter of it can issue. -/
def Mach.idle (sys : Sys) (m : Mach) (l : Nat) : Bool :=
  let waits (f : Flight) : Bool := (m.quarter? f.qid).any fun q => match q.wait with
    | some (.tile _) => true
    | some (.mmaj _) => true
    | _ => false
  ((m.threads.filter fun t => t.launch == l).all fun t => t.pend.all fun o => (m.flight? o.uid).any waits)
    && (m.flights.all fun f => f.launch != l || waits f)
    && (m.reqs.all fun r => match r.who with
      | .core _ _ t => t == 0 || (m.thr t).launch != l
      | _ => true)
    && (m.engines.all fun e => e.launch != l || !m.engBusy e)
    && (m.barMsgs.all fun b => b.launch != l || !b.ready sys) && !arrivalOut sys m (m.launch l).dombar
    && (m.quarters.all fun q => q.launch != l || ((q.hdr.isNone || q.wait.any Wait.long) && !m.latch.contains q.id))

/-- A lane keeps the cycle since which its AND has been true. -/
def Mach.laneLook (sys : Sys) (m : Mach) (x : Lane) : Lane :=
  if m.idle sys x.launch then { x with since := some (x.since.getD m.cycle) } else { x with since := none, swept := [] }

/-- The core holds a ready quarter, or an engine operation to step (spec/02 R89). -/
def Mach.coreBusy (sys : Sys) (m : Mach) (core : Nat) : Bool :=
  (m.quarters.any fun q => q.core == core && (m.ready sys q || m.wantsLoad sys q))
    || m.engines.any fun e => e.core == core && !m.streamWaits e

/-- `n` arithmetic cycles pass: the threads filed enter their glades, tables count, idle wires are looked at, and quarters in the
gallery whose wait is over become ready. -/
def Mach.tick (sys : Sys) (m : Mach) (n : Nat) : Mach :=
  let m := m.fileAll sys
  let m : Mach := { m with launches := m.launches.map fun (l : Launch) => l.count m n }
  let m : Mach := { m with lanes := m.lanes.map (m.laneLook sys) }
  let ks := ((m.quarters.map fun q => q.core) ++ m.engines.map fun e => e.core).eraseDups.filter (m.coreBusy sys)
  let m : Mach := { m with cycle := m.cycle + n, sigOld := [] }
  let m := ks.foldl (fun m k => m.modCore k fun c => { c with idleSince := m.cycle }) m
  let m : Mach := { m with cores := m.cores.map fun (c : CoreSt) => if c.busy = [] then c else { c with busy := [] } }
  { m with quarters := m.quarters.map fun (q : Quarter) =>
      if q.slice.isNone && q.wait.any Wait.long && m.waitOver q then { q with wait := none, readySince := m.cycle } else q }

end Sys2Proof.Machine
end

