-- ==== Sys2Proof/Machine/Traps.lean ====
section
/-! DEFINITION. The system instructions (spec/17 R429-R433), trap entry and the alcove (spec/08 R227-R233), the watchdog (R235),
system calls and signals (spec/02 R80, R83-R87). -/

namespace Sys2Proof.Machine

/-! ### Software traps -/

def execTrap (h : Hdr) (n : BitVec 24) := onMach fun _ mc => mc.withQ fun q =>
  mc.raiseQ q 0x72 h.flag.toNat fun _ => n.toNat

/-! ### System calls -/

def Mach.sysQ (m : Mach) (q : Nat) : SysQ := m.sysqs.getD q {}
def Mach.setSysQ (m : Mach) (q : Nat) (s : SysQ) : Mach := { m with sysqs := modAt m.sysqs q fun _ => s }

/-- `sysc` (spec/02 R85): the callers leave the quarter and wait for a slot, in ascending thread order. -/
def execSysc (h : Hdr) (n : BitVec 24) := onMach fun _ mc => mc.withQ fun q =>
  let k := (mc.eff q.launch).sysq
  let fl := h.flag.toNat
  if q.tids.any fun t => (mc.thr t).isHandler then mc.raiseQ q 0x76 fl fun _ => 0
  else if !(mc.sysQ k).en then mc.raiseQ q 0x75 fl fun _ => 0
  else
    let ids := mc.inOrder q.tids
    if (mc.launch q.launch).ending.isSome then mc.removeThreads ids
    else
    let m := ids.foldl (fun m id =>
      (m.detachIssued id).modThr id fun t => { t.settled with stat := .syscall k none, pc := q.pc, hdr := q.hdr }) ((mc.ungang q).take 1)
    m.setSysQ k { m.sysQ k with waiting := (m.sysQ k).waiting ++ ids.map fun id => (id, n.toNat, fl) }

/-- The bytes of a system-call entry (spec/02 R84). -/
def syscallEntry (rcb seq nr : Nat) (t : Thread) : List Byte :=
  toBytes rcb 8 ++ toBytes seq 4 ++ toBytes nr 4 ++ wordsBytes (t.rdN 0 (.v 0) 12)

def sysSlots (s : SysQ) : Nat := 2 ^ s.log2
def SysQ.slotVa (s : SysQ) (k : Nat) : Nat := s.base + 64 * k

/-- The caller whose entry is next: the queue accepts entries, its region is not being saved, and its accesses have performed. -/
def Mach.sysNext (m : Mach) (s : SysQ) : Option (Nat × Nat × Nat) :=
  (s.waiting.find? fun w => s.en && !m.stopped (m.thr w.1).launch).filter fun w =>
    (m.thr w.1).pend == [] && !m.inFlight w.1

/-- SYSCALL_ENTRY_WRITE. -/
def execSyscallEntryWrite (k : Nat) := onMach fun _ mc =>
  let s := mc.sysQ k
  match mc.sysNext s with
  | none => mc
  | some w =>
    let slot := s.tail % sysSlots s
    if s.slots.any fun p => p.1 == slot then mc
    else
      let t := mc.thr w.1
      let m := mc.release t 6 (.thread t.id)
      let m := m.devStore (s.slotVa slot) (syscallEntry (m.launch t.launch).rcb s.tail w.2.1 t)
      let m := m.modThr w.1 fun t => { t with stat := .syscall k (some slot) }
      (m.setSysQ k { s with tail := (s.tail + 1) % 2 ^ 32, slots := s.slots ++ [(slot, w.1, w.2.2)],
                            waiting := s.waiting.erase w }).fire (128 + k)

/-- A completed call goes back to its thread (spec/02 R86). -/
def Mach.sysApply (m : Mach) (k slot : Nat) (trap : Bool) : Mach :=
  let s := m.sysQ k
  match s.slots.find? fun p => p.1 == slot with
  | none => m
  | some (_, id, fl) =>
    let t := m.thr id
    let at_ := s.slotVa slot
    let m := m.setSysQ k { s with slots := s.slots.filter fun p => p.1 != slot,
                                  kept := s.kept.filter fun p => p.1 != slot }
    if (m.thr? id).isNone then m
    else if trap then m.raise t.core t.launch [(0, id, 0)] 0x73 t.pc t.hdr fl
    else
      let ret := bytesWords 4 (m.bytes (at_ + 16) 16)
      (((m.acquire id 6 (.thread id)).dropCopies t.core).modThr id fun t => t.wr (.v 0) ret).fileAt id (t.pc + 8)

/-- A write of SYSQ_CPL: a completion of a saved region is kept until it resumes (spec/02 R87). -/
def Mach.sysqCpl (m : Mach) (k v : Nat) : Mach :=
  let s := m.sysQ k
  let slot := bits v 0 12
  match s.slots.find? fun p => p.1 == slot with
  | none => m
  | some (_, id, _) =>
    if (m.thr? id).isSome && m.stopped (m.thr id).launch then
      m.setSysQ k { s with kept := (slot, tbit v 63) :: s.kept.filter fun p => p.1 != slot }
    else m.sysApply k slot (tbit v 63)

def execSysqCplWrite (k : Nat) (v : DWord) := onMach fun _ mc => mc.sysqCpl k v.toNat

/-! ### Signals (spec/02 R80, spec/17 R431) -/

/-- An OR into a channel of this device. -/
def Mach.sigOr (m : Mach) (c : Nat) (v : Word) : Mach :=
  let old := nth m.sigpend c
  let had := look (old, 0) m.sigOld c
  let m := { m with sigpend := modAt m.sigpend c (fun w => w ||| v), sigOld := put m.sigOld c (had.1, had.2 ||| v) }
  if old = 0 ∧ v ≠ 0 then m.fire (144 + c) else m

def sigChan (w : Nat) : Nat := bits w 0 4
def sigDev (w : Nat) : Nat := bits w 16 12

/-- What a thread's channel word is worth: its cause, if it takes one. -/
def sigBad (dev : Nat) (sc : Scope) (w : Nat) : Option Nat :=
  if bits w 4 12 != 0 || bits w 28 4 != 0 then some 0x02
  else if sigDev w ≠ dev ∧ sc.code < 7 then some 0x22 else none

def sigScope (sc : Scope) : Nat := Nat.max sc.code 6

/-- A remote `sig` without a route completes at once with a held error. -/
def Mach.sigFail (m : Mach) (tid : Nat) : Mach := m.holdErr tid { q := .remoteSig, cause := 0x63, va := 0 }

/-- The `sig` of one thread: its OR, or its message. -/
def Mach.sigOne (sys : Sys) (m : Mach) (q : Quarter) (h : Hdr) (i : Instr) (iss : Nat) (sc : Scope) (id w : Nat) (v : Word) : Mach :=
  let m := m.release (m.thr id) (sigScope sc) .none
  let near (m : Mach) : Mach := m.modThr id fun t => t.uncarry q.pc h.flag.toNat
  if sigDev w = sys.devid then near (m.sigOr (sigChan w) v)
  else if !(look ({} : Route) sys.routes (sigDev w)).v then near (m.sigFail id)
  else
    let uid := m.next
    let m := m.addFlight q h i iss id [id] [] false true fun f => f
    { m with sigWaits := m.sigWaits ++ [(id, uid, sys.ticks)]
             out := m.out ++ [⟨sys.devid, sigDev w, 0, 0, .sig (sigChan w) v id uid⟩] }

def execSig (h : Hdr) (sc : Scope) (a b : Spec) := onMach fun sys mc => mc.withQ fun q =>
  let ops := q.active.map fun p => (p.2, ((mc.thr p.2).rd (mc.fr p.1) a).toNat, (mc.thr p.2).rd (mc.fr p.1 + 8) b)
  let bad := ops.filterMap fun o => (sigBad sys.devid sc o.2.1).map fun c => (o.1, c, 0)
  if mc.postWaits q.tids then mc.waitQ q .flags
  else
    let m := mc.ownTraps q h.flag.toNat bad
    match m.quarter? q.id with
    | none => m.used
    | some q =>
      let iss := m.next
      let m := (m.inOrder q.tids).foldl (fun m id =>
        match ops.find? fun o => o.1 == id with
        | some o => m.sigOne sys q h (.sig h sc a b) iss sc id o.2.1 o.2.2
        | none => m) (m.take 1)
      (m.used).advance q

/-- The flight of a remote `sig` is complete. -/
def Mach.sigDone (m : Mach) (tid uid : Nat) : Mach :=
  let m := { m with sigWaits := m.sigWaits.filter fun w => !(w.1 == tid && w.2.1 == uid) }
  match m.flight? uid with
  | some f => m.complete f
  | none => m

/-- SIG_ACK_TIMEOUT: no acknowledgement within 10 ms. -/
def execSigAckTimeout (tid uid : Nat) := onMach fun sys mc =>
  if mc.sigWaits.any fun w => w.1 == tid && w.2.1 == uid && decide (w.2.2 + Config.ticks10ms ≤ sys.ticks) then
    (mc.sigDone tid uid).sigFail tid
  else mc

/-! ### `rdclk` -/

/-- The package time base (spec/02 R81). -/
def Sys.time (sys : Sys) : DWord := BitVec.ofNat 64 (sys.ticks + sys.mtimeOff)

def execRdclk (h : Hdr) (d : Spec) := onMach fun sys mc => mc.regOp h d fun _ _ _ => [sys.time.lo, sys.time.hi]

/-! ### Trap entry (spec/08 R228) -/

/-- TRAP_ENTRY: pending sets are empty and pending writes have landed; with no handler the launch ends. -/
def execTrapEntry (gid : Nat) := onMach fun _ mc =>
  match mc.trap? gid with
  | none => mc
  | some g =>
    if g.phase != .entering || (g.members.any fun p => (mc.thr p.2.1).pend != [] || mc.inFlight p.2.1) then mc
    else if handlerOf (mc.eff g.launch) g.cause = 0 then mc.endLaunch g.launch 7 g.cause
    else mc.setTrap { g with phase := .queued }

/-- Slots of the members, each its own. -/
def placeSlots : List (Nat × Nat × Nat) → List Nat → List (Nat × Nat × Nat)
  | [], _ => []
  | p :: r, used =>
    let s := if used.contains p.1 then ((List.range 8).find? fun s => !used.contains s).getD 0 else p.1
    (s, p.2) :: placeSlots r (s :: used)

def TrapGroup.trapc (g : TrapGroup) : Word :=
  wN (g.cause % 128 + (if g.impr then 128 else 0) + (if g.waitBit then 256 else 0))

/-- The handler thread of one bound slot: for ordering it is the thread that it serves (spec/08 R229). -/
def handlerThread (g : TrapGroup) (t : Thread) (id : Nat) (pc : Pc) (va : Nat) : Thread :=
  { id := id, tid := t.tid, path := t.path, role := .handler t.id g.id, launch := t.launch, wave := t.wave, core := t.core,
    homeQ := t.homeQ, fenceRel := t.fenceRel, readRel := t.readRel, pc := pc, rg := 128, rgv := 128, regs := List.replicate 128 0,
    sender := some { pc := pc, hdr := none, x0 := .undef, x1 := .undef, c := [], isTret := true },
    trapc := g.trapc, trappc := wN g.pc.toNat, trapva := BitVec.ofNat 64 va }

/-- ALCOVE_BIND: the next trap-waiting quarter gets the core's alcove. -/
def execAlcoveBind (core : Nat) := onMach fun _ mc =>
  if (mc.coreSt core).alcove.isSome then mc
  else match mc.traps.find? fun g => g.core == core && g.phase == .queued && !mc.stopped g.launch with
    | none => mc
    | some g =>
      let mem := placeSlots g.members []
      let qid := mc.next
      let pc : Pc := BitVec.ofNat 57 (handlerOf (mc.eff g.launch) g.cause)
      let hs := (enum mem).map fun p =>
        { handlerThread g (mc.thr p.2.2.1) (qid + 1 + p.1) pc p.2.2.2 with stat := .run qid }
      let q : Quarter :=
        { id := qid, core := core, launch := g.launch, rg := 128, pc := pc, entered := mc.cycle, readySince := mc.cycle,
          handler := some g.id
          slots := (List.range 8).map fun s => ((mem.zip hs).find? fun p => p.1.1 == s).map fun p => p.2.id }
      let m : Mach := { mc with
        threads := mc.threads ++ hs, quarters := mc.quarters ++ [q], next := qid + 1 + mem.length }
      (m.setTrap { g with phase := .bound, members := mem, handlers := hs.map fun t => t.id }).modCore core fun c =>
        { c with alcove := some g.id }

/-! ### Leaving a handler (spec/08 R232) -/

/-- The trap group of a handler thread, and the thread it serves. -/
def Mach.serves (m : Mach) (t : Thread) : Option (TrapGroup × Nat) :=
  match t.role with
  | .handler s g => (m.trap? g).map fun g => (g, s)
  | _ => none

/-- Where a served thread resumes. -/
def TrapGroup.at_ (g : TrapGroup) (tid : Nat) : Nat := look g.pc.toNat g.resume tid

/-- The address after the trapping instruction lies in its clause. -/
def TrapGroup.skipAt (g : TrapGroup) : Option Nat :=
  match g.hdr with
  | none => none
  | some h => if (g.pc - h.1).toNat / 8 < (clauseHdr h.2).words then some (g.pc + 8).toNat else none

/-- The instruction's count is removed. -/
def Thread.dropCarry (t : Thread) (g : TrapGroup) : Thread := t.uncarry g.pc g.flag

/-- A served thread is filed where it resumes; a fetch that fails there ends the launch. -/
def Mach.resumeAt (m : Mach) (g : TrapGroup) (tid : Nat) : Mach :=
  let a := g.at_ tid
  let pc : Pc := BitVec.ofNat 57 a
  let m := if a = g.pc.toNat then (m.modThr tid fun t => { t with hdr := g.hdr }).fileMid tid pc
    else if g.skipAt = some a then (m.modThr tid fun t => { (t.dropCarry g) with hdr := g.hdr }).fileMid tid pc
    else (m.modThr tid fun t => { (t.dropCarry g) with carry := none }).fileAt tid pc
  m.modThr tid fun t =>
    { t with sender := some { pc := pc, hdr := none, x0 := .undef, x1 := .undef, c := [], isTret := true } }

/-- The threads of a running handler group leave: the alcove is free once every bound slot has. -/
def Mach.leave (m : Mach) (q : Quarter) (g : TrapGroup) : Mach :=
  let m := (m.inOrder q.tids).foldl (fun m id => match (m.thr id).served with
    | some s =>
      let h := m.thr id
      (m.modThr s fun t => { t with fenceRel := h.fenceRel, readRel := h.readRel }).resumeAt g s
    | none => m) (m.dropCopies q.core)
  let left := g.left ++ q.tids
  let m := m.removeThreads q.tids
  if g.handlers.all left.contains then
    ({ m with traps := m.traps.filter fun u => u.id != g.id } : Mach).modCore q.core fun c => { c with alcove := none }
  else (m.setTrap { g with left := left }).runHeld q.core []

/-- An instruction of handlers alone: 0x76 elsewhere. -/
def Mach.inHandler (m : Mach) (h : Hdr) (f : Quarter → TrapGroup → Mach) : Mach :=
  m.withQ fun q =>
    match m.serves (m.thr q.lowest) with
    | none => m.raiseQ q 0x76 h.flag.toNat fun _ => 0
    | some g => f q g.1

def execTret (h : Hdr) := onMach fun _ mc => mc.inHandler h fun q g =>
  if q.tids.any fun t => !mc.quiet (mc.thr t) then mc.waitQ q .flags else mc.leave q g

def execTretEnd (h : Hdr) := onMach fun _ mc => mc.inHandler h fun q g => mc.endLaunch q.launch 7 g.cause

/-! ### The served context (spec/17 R432) -/

structure CSel where
  cls : Nat
  idx : Nat
deriving DecidableEq, Repr

/-- A selector whose bits [23:16] are zero. -/
def cSel (w : Nat) : Option CSel := if bits w 16 8 = 0 then some ⟨bits w 24 8, bits w 0 16⟩ else none

/-- The word of a served context that a selector reads. -/
def Mach.ctxRead (sys : Sys) (m : Mach) (g : TrapGroup) (t : Thread) (fr : Nat) (c : CSel) : Option Word :=
  match c.cls with
  | 0 => if c.idx < t.rgv then some (t.regs.getD c.idx 0) else none
  | 1 => if 1 ≤ c.idx ∧ c.idx ≤ 12 then some (wN (t.flag c.idx)) else none
  | 2 => if c.idx = 0 then some (wN (g.at_ t.id)) else if c.idx = 1 then some (wN (g.at_ t.id / 2 ^ 32)) else none
  | 3 => match c.idx with
    | 0 => some t.fmode
    | 1 => some t.tmshape
    | 2 => some (specialReg sys m 0 t 0x28)
    | _ => none
  | 4 => if c.idx ≤ 5 then some (specialReg sys m 0 t (0x08 + c.idx)) else none
  | 5 => match c.idx with
    | 0 => some (t.x0.read fr)
    | 1 => some (t.x1.read fr)
    | n => if n ≤ 9 then some ((t.c.getD (n - 2) .undef).read fr) else none
  | _ => none

def execCsave (h : Hdr) (d a : Spec) := onMach fun sys mc => mc.inHandler h fun q g =>
  let vals := q.active.map fun p =>
    let t := mc.thr p.2
    (p.2, (cSel (t.rd (mc.fr p.1) a).toNat).bind fun c =>
      t.served.bind fun s => mc.ctxRead sys g (mc.thr s) (mc.fr p.1 + 8) c)
  if vals.any fun v => v.2.isNone then mc.raiseQ q 0x09 h.flag.toNat fun _ => 0
  else mc.onEach q h fun _ _ t => t.put h d [(look none vals t.id).getD 0]

/-- A write of a served context: of the thread, or of its resume address. -/
def ctxWrite (g : TrapGroup) (t : Thread) (c : CSel) (w : Word) : Option (Thread × Nat) :=
  let a := g.at_ t.id
  match c.cls with
  | 0 => if c.idx < t.rgv then some ({ t with regs := t.regs.set c.idx w }, a) else none
  | 1 =>
    if 1 ≤ c.idx ∧ c.idx ≤ 12 ∧ w = 0 then
      some ({ t with flags := modAt t.flags (c.idx - 1) fun _ => 0, carry := if c.idx = g.flag then none else t.carry }, a)
    else none
  | 2 =>
    if c.idx = 0 then some (t, a / 2 ^ 32 * 2 ^ 32 + w.toNat)
    else if c.idx = 1 ∧ w.toNat < 2 ^ 25 then some (t, a % 2 ^ 32 + w.toNat * 2 ^ 32) else none
  | 3 => match c.idx with
    | 0 => some (t.setSpecial 0x10 w, a)
    | 1 => some (t.setSpecial 0x11 w, a)
    | 2 => some (t.setSpecial 0x28 w, a)
    | _ => none
  | 5 => match c.idx with
    | 0 => some ({ t with x0 := .val w }, a)
    | 1 => some ({ t with x1 := .val w }, a)
    | n => if n ≤ 9 then some ({ t with c := t.c.set (n - 2) (.val w) }, a) else none
  | _ => none

def execCrest (h : Hdr) (a b : Spec) := onMach fun _ mc => mc.inHandler h fun q g =>
  let vals := q.active.map fun p =>
    let t := mc.thr p.2
    (cSel (t.rd (mc.fr p.1) a).toNat).bind fun c =>
      t.served.bind fun s => ctxWrite g (mc.thr s) c (t.rd (mc.fr p.1 + 8) b)
  if vals.any Option.isNone then mc.raiseQ q 0x09 h.flag.toNat fun _ => 0
  else
    let ws := vals.filterMap fun v => v
    let m := ws.foldl (fun m w => m.setThr w.1) mc
    let m := m.setTrap { g with resume := ws.foldl (fun l w => put l w.1.id w.2) g.resume }
    m.onEach q h fun _ _ t => t

/-! ### The watchdog (spec/08 R235) -/

/-- The waits that are watched. -/
def Wait.watched : Wait → Bool
  | .barrier _ _ | .counter _ | .ring _ | .join | .mmaj _ => true
  | _ => false

/-- An arrival that its thread abandons is taken back: of its unit, and of the unit's node. -/
def Mach.withdrawBar (sys : Sys) (m : Mach) (tid level num : Nat) : Mach :=
  let t := m.thr tid
  match t.bar? level num with
  | none => m
  | some b =>
    let unit := unitKey t.wave t.homeQ level
    let m := m.modThr tid fun t => t.dropBar level num
    if !b.forwarded then m
    else
      let ids := (m.unitThreads t.wave t.homeQ level).map fun u => u.id
      let m := m.modAll ids fun u => match u.bar? level num with
        | some b => u.setBar { b with forwarded := false }
        | none => u
      let place := barPlace t.core t.wave level b.root
      match m.barMsgs.find? fun x => x.level == level && x.place == place && x.num == num && x.unit == unit && x.launch == t.launch with
      | some x => { m with barMsgs := m.barMsgs.erase x }
      | none => match m.barNode? level place num t.launch with
        | none => m
        | some n => match n.units.find? fun u => u.1 == unit with
          | none => m
          | some u =>
            let n' := if level = 4 then n.without unit else { n with units := n.units.erase u }
            let m := if n'.units = [] ∧ n'.remote = [] then m.dropNode n else m.setNode n'
            if level ≠ 4 then m
            else if b.root = sys.devid then match m.barNode? 5 sys.devid num domKey with
              | none => m
              | some r => match r.remote.find? fun x => x.1 == sys.devid with
                | none => m
                | some x =>
                  let r' := { r with remote := r.remote.erase x }
                  if r'.remote = [] then m.dropNode r else m.setNode r'
            else { m with out := m.out ++ [⟨sys.devid, b.root, 0, 0, .barWithdraw num⟩] }

/-- A thread whose wait is over its limit and not yet answered. -/
def Mach.overdue (m : Mach) (w : Wait) (wdog tid : Nat) : Bool :=
  let t := m.thr tid
  (t.waitSince.any fun s => decide (s + wdog * 1024 < m.cycle)) && (match w with
    | .barrier l n => (t.bar? l n).any fun b => b.phase == .arrived && b.node == 0
    | _ => true)

/-- The wait of a quarter has been answered in the same cycle (a barrier's is looked at thread by thread). -/
def Wait.answered (w : Wait) (m : Mach) (q : Quarter) : Bool :=
  match w with
  | .barrier _ _ => false
  | _ => m.waitOver q

/-- WATCHDOG_EXPIRE: the threads of the quarter whose wait is over its limit take 0x7E at the waiting instruction. -/
def execWatchdogExpire (tid : Nat) := onMach fun sys mc =>
  match mc.quarters.find? fun q => q.tids.contains tid with
  | none => mc
  | some q => match q.wait with
    | none => mc
    | some w =>
      let wdog := (mc.eff q.launch).wdog
      if wdog = 0 || !w.watched || !mc.overdue w wdog tid || w.answered mc q then mc
      else match w with
        | .mmaj k => match mc.mmajs.find? fun s => s.id == k with
          | none => mc
          | some s => match s.partners.find? fun p => (mc.groupOf p.uid).any fun f => f.qid == q.id with
            | none => mc
            | some p =>
              let rest := s.partners.erase p
              (mc.leaveSet k rest).failGroup p.uid 0x7E 0 true
        | w =>
          let late := q.active.filter fun p => mc.overdue w wdog p.2
          let m : Mach := match w with
            | .barrier l n => late.foldl (fun m p => m.withdrawBar sys p.2 l n) mc
            | _ => mc
          m.raise q.core q.launch (late.map fun p => (p.1, p.2, 0)) 0x7E q.pc q.hdr (((m.peek sys q).map wordFlag).getD 0) false true

end Sys2Proof.Machine
end

