-- ==== Sys2Proof/Machine/Fabric.lean ====
section
/-! DEFINITION. Fabric ports (spec/01 R33-R47): training, flits, flow control, routes and pass-through, and the messages that
reach this device from others (spec/01 R43, R44; spec/04 R132; spec/06 R188; spec/17 R431). -/

namespace Sys2Proof.Machine

/-! ### Ports -/

def Sys.setFPort (sys : Sys) (n : Nat) (p : FPort) : Sys := { sys with fports := modAt sys.fports n fun _ => p }

/-- FPORT_ERR bits (spec/01 R46). -/
def errDown : Nat := 0
def errRetr : Nat := 1
def errFecu : Nat := 2
def errRttx : Nat := 3
def errRoute : Nat := 4
def errBulk : Nat := 5

/-- A bit of FPORT_ERR is set, which fires route entry 212 + n (spec/02 R77). -/
def setErr (sys : Sys) (m : Mach) (n bit : Nat) : Sys × Mach :=
  let p := sys.fport n
  (sys.setFPort n { p with err := setBit p.err bit true }, m.fire (212 + n))

/-- Flits of a message: 240 bytes of payload each (spec/01 R33). -/
def Payload.size : Payload → Nat
  | .chunk _ _ _ _ _ _ _ _ _ bs => bs.length
  | .put _ _ _ _ _ _ _ _ _ _ _ bs => bs.length
  | .bulkReq _ _ _ _ bs => bs.length
  | .bulkRsp _ _ bs => bs.length
  | _ => 1

def flitsOf (x : Msg) : Nat := Nat.max 1 ((Payload.size x.body + 239) / 240)

/-! ### Sending (spec/01 R37, R42-R44) -/

/-- The link version that traffic to a device needs (spec/01 R36): ids above 0x3FF and the `tmm` reduce need 3, a BF16 reduce 2. -/
def needVer (red ty dev : Nat) : Nat := if red = 4 ∨ 0x3FF < dev then 3 else if ty = 2 ∧ red ≠ 0 then 2 else 1

/-- The version that a message needs. -/
def msgNeeds (x : Msg) : Nat :=
  let id := Nat.max x.src x.dst
  match x.body with
  | .put _ _ _ _ _ _ red ty _ _ _ _ => needVer red ty id
  | .chunk _ _ _ _ _ _ _ red ty _ => needVer red ty id
  | _ => needVer 0 0 id

/-- The message carries data of an entry of the collective engine. -/
def ofEntry (x : Msg) : Bool :=
  match x.body with
  | .put _ _ _ _ _ _ _ _ _ _ _ _ => true
  | .chunk _ _ _ _ _ _ _ _ _ _ => true
  | _ => false

/-- The flits of a message, the last of which completes it. -/
def msgFlits (vc : Nat) (x : Msg) : List (Nat × Option Msg) := List.replicate (flitsOf x - 1) (vc, none) ++ [(vc, some x)]

/-- Messages of the device whose route leads to a port enter its output, but for those that need a version above the link's:
they are not sent (spec/01 R37). Data of an entry stays until its entry has failed with cause 0x62 (R66). -/
def sendOut (sys : Sys) (m : Mach) (n : Nat) : Sys × Mach :=
  let mine (x : Msg) : Bool :=
    let r := look ({} : Route) sys.routes x.dst
    r.v && sys.portFor r x.cls == n
  let p := sys.fport n
  let fits (x : Msg) : Bool := decide (msgNeeds x ≤ p.ver)
  let fl := (m.out.filter fun x => mine x && fits x).flatMap fun x => msgFlits x.vc x
  (sys.setFPort n { p with outq := p.outq ++ fl }, { m with out := m.out.filter fun x => !(mine x && (fits x || !ofEntry x)) })

/-- A virtual channel has a flit and is not held. -/
def FPort.has (p : FPort) (vc : Nat) : Bool := (p.outq.any fun x => x.1 == vc) && !tbit p.hold vc

/-- Class-0 flits go at no more than one in 8 flit times, averaged over the 64 that the next one ends (spec/01 R41). -/
def FPort.vc0Ok (p : FPort) : Bool := decide ((p.vc0At.filter fun t => decide (p.flitTime + 1 < t + 64)).length < 8)

def FPort.weightOf (p : FPort) (vc : Nat) : Nat := Nat.max 1 (bits p.weight (4 * (vc - 1)) 4)

/-- Weighted round robin over VC1 to VC6: the channel whose turn it is, then the others in order. -/
def FPort.robin (p : FPort) : Option (Nat × Nat) :=
  if p.left > 0 && p.has p.turn then some (p.turn, p.left - 1)
  else (((List.range 6).map fun i => (p.turn + i) % 6 + 1).find? p.has).map fun v => (v, p.weightOf v - 1)

/-- The channel of the next flit, with the round-robin state that follows. VC7 goes before VC1 to VC6 once it has been passed
over 55 times: at most eight class-0 flits can then still go before it within the 64 flit times of spec/01 R42. -/
def FPort.choose (p : FPort) : Option (Nat × Nat × Nat) :=
  if p.has 0 && p.vc0Ok then some (0, p.turn, p.left)
  else if p.has 7 && decide (55 ≤ p.vc7) then some (7, p.turn, p.left)
  else match p.robin with
    | some (v, l) => some (v, v, l)
    | none => if p.has 7 then some (7, p.turn, p.left) else none

/-- The first entry of a channel leaves a list. -/
def dropFirst {α : Type} (vc : Nat) : List (Nat × α) → List (Nat × α)
  | [] => []
  | x :: r => if x.1 = vc then r else x :: dropFirst vc r

/-- A flit as the port sends it: the header brings back what the port has received and the channels that it holds. -/
def FPort.flit (p : FPort) (kind : FlitKind) (vc seq : Nat) (last : Option Msg) : Flit :=
  { kind := kind, vc := vc, seq := seq, hold := BitVec.ofNat 8 (p.holding.foldl (fun a v => a ||| 2 ^ v) 0), ack := p.rxSeq,
    last := last }

/-- The next flit of the output: a channel's next flit with a sequence number of its own, kept until it is acknowledged. -/
def FPort.sendNext (p : FPort) : FPort :=
  match p.choose with
  | none => { p with vc7 := p.vc7 + 1, wire := some (p.flit .idle 0 p.txSeq none) }
  | some (vc, turn, left) =>
    let last := (p.outq.find? fun x => x.1 == vc).bind fun x => x.2
    { p with
      turn := turn, left := left
      vc7 := if vc = 7 then 0 else p.vc7 + 1
      vc0At := if vc = 0 then (p.vc0At ++ [p.flitTime + 1]).drop (p.vc0At.length - 7) else p.vc0At
      outq := dropFirst vc p.outq, txSeq := p.txSeq + 1, replay := p.replay ++ [(p.txSeq, vc, last)]
      wire := some (p.flit .data vc p.txSeq last) }

/-- One flit time: a replay that is due is asked for, else a flit is replayed, else the next flit goes, or an idle one. Each counts for
VC7 (spec/01 R42); a flit of VC7 that is replayed does as a new one does. -/
def FPort.send (p : FPort) (now : Nat) : FPort :=
  let q := if p.ask then { p with ask := false, askedAt := some now, vc7 := p.vc7 + 1, wire := some (p.flit .replay 0 p.txSeq none) }
    else match p.replayFrom with
      | some s => match p.replay.find? fun f => f.1 == s with
        | some f => { p with
            vc7 := if f.2.1 = 7 then 0 else p.vc7 + 1
            wire := some (p.flit .data f.2.1 f.1 f.2.2), replayFrom := if s + 1 < p.txSeq then some (s + 1) else none }
        | none => { p with replayFrom := none }.sendNext
      | none => p.sendNext
  { q with flitTime := p.flitTime + 1 }

/-- FLIT_SEND: one flit time of the port. -/
def execFlitSend (n : Nat) := onAll fun sys m =>
  if (sys.fport n).state ≠ 2 || sys.thermtrip then (sys, m)
  else
    let (sys, m) := sendOut sys m n
    (sys.setFPort n ((sys.fport n).send sys.ticks), m)

/-! ### Receiving (spec/01 R34, R40) -/

/-- Hold thresholds in flits (spec/01 R40). -/
def holdAt : Nat := 112
def holdOff : Nat := 64

/-- Hold is asserted when a channel's occupancy reaches 112 flits, and released when it falls to 64; never on VC0. -/
def FPort.rehold (p : FPort) (vc : Nat) : FPort :=
  let k := nth p.inFlits vc
  if vc = 0 then p
  else if k ≥ holdAt then { p with holding := if p.holding.contains vc then p.holding else p.holding ++ [vc] }
  else if k ≤ holdOff then { p with holding := p.holding.filter fun v => v != vc }
  else p

/-- The header of a good flit takes effect: the hold bits and the acknowledgement that it brings. -/
def FPort.heard (p : FPort) (f : Flit) : FPort :=
  { p with hold := f.hold.toNat, replay := p.replay.filter fun x => decide (f.ack ≤ x.1) }

/-- A data flit is accepted in order: it takes its place in the input buffer of its channel. -/
def FPort.accept (p : FPort) (f : Flit) : FPort :=
  { p.heard f with
    rxSeq := p.rxSeq + 1
    askedAt := none
    inFlits := modAt p.inFlits f.vc fun k => k + 1
    inq := match f.last with
      | some x => p.inq ++ [(f.vc, x)]
      | none => p.inq }.rehold f.vc

/-- Ticks in 1 ms, in which more than 8 replays retrain a link (spec/01 R34). -/
def ticksMs : Nat := 100000

/-- The partner asks for a replay: the port resends from its first unacknowledged flit. -/
def FPort.again (p : FPort) (now : Nat) : FPort :=
  { p with
    replays := Nat.min 0xFFFF (p.replays + 1)
    recent := (p.recent.filter fun t => decide (now < t + ticksMs)) ++ [now]
    replayFrom := p.replay.head?.map fun f => f.1 }

/-- Ticks of the longest round trip of a link, 320 ns (spec/01 R35). -/
def rttTicks : Nat := 32

/-- A good flit shows that an earlier one is still missing: where the replay asked for has not begun within the longest round trip, its
request was lost, and it is asked for again (DEDUCED, log 144). -/
def FPort.missed (p : FPort) (seq now : Nat) : FPort :=
  if p.rxSeq < seq && p.askedAt.any fun t => decide (t + rttTicks < now) then { p with ask := true } else p

/-- FLIT_RECEIVE: a bad flit is dropped, and a replay is asked for; an out-of-order one is dropped, but the header of a good one is heard. -/
def execFlitReceive (n : Nat) (f : Flit) := onAll fun sys m =>
  let p := sys.fport n
  if p.state ≠ 2 || sys.thermtrip || decide (7 < f.vc) then (sys, m)
  else if !f.fecOk then setErr (sys.setFPort n { p with ask := true }) m n errFecu
  else if !f.crcOk then (sys.setFPort n { p with ask := true }, m)
  else match f.kind with
    | .data => if f.seq ≠ p.rxSeq then (sys.setFPort n ((p.heard f).missed f.seq sys.ticks), m) else (sys.setFPort n (p.accept f), m)
    | .idle => (sys.setFPort n ((p.heard f).missed f.seq sys.ticks), m)
    | .replay => (sys.setFPort n ((p.heard f).again sys.ticks), m)

/-- FLIT_REPLAY: the partner asks for a replay. -/
def execFlitReplay (n _seq : Nat) := onAll fun sys m =>
  if (sys.fport n).state ≠ 2 || sys.thermtrip then (sys, m) else (sys.setFPort n ((sys.fport n).again sys.ticks), m)

/-- The link trains anew: traffic waits, nothing is dropped. -/
def retrain (sys : Sys) (m : Mach) (n : Nat) : Sys × Mach :=
  let p := sys.fport n
  setErr (sys.setFPort n { p with state := 1, ver := 0, recent := [] }) m n errRetr

/-- LINK_REPLAY_RETRAIN: more than 8 replays within 1 ms. -/
def execLinkReplayRetrain (n : Nat) := onAll fun sys m =>
  let p := sys.fport n
  if p.state = 2 ∧ 8 < (p.recent.filter fun t => decide (sys.ticks < t + ticksMs)).length then retrain sys m n else (sys, m)

/-! ### Training (spec/01 R35-R37, R47) -/

/-- The flits of a channel's output, with what is taken back: messages of which no flit has left, and which need more than a version. -/
def fitFlits (ver : Nat) : Nat → List (Option Msg) → List (Option Msg) × List Msg
  | k, [] => (List.replicate k none, [])
  | k, none :: r => fitFlits ver (k + 1) r
  | k, some x :: r =>
    let p := fitFlits ver 0 r
    if flitsOf x ≤ k + 1 && decide (ver < msgNeeds x) then (p.1, x :: p.2) else (List.replicate k none ++ some x :: p.1, p.2)

/-- The output of a port whose link has come up with a version, and the messages that it lacks the version for. -/
def FPort.fit (p : FPort) (ver : Nat) : FPort × List Msg :=
  let rs := (List.range 8).map fun vc => (vc, fitFlits ver 0 ((p.outq.filter fun x => x.1 == vc).map fun x => x.2))
  ({ p with outq := rs.flatMap fun r => r.2.1.map fun f => (r.1, f) }, rs.flatMap fun r => r.2.2)

/-- What the originator of a message is told when a link on its path lacks its version (spec/01 R66; log 129). -/
def lacks (x : Msg) : Option Payload :=
  match x.body with
  | .chunk cid rank seq _ _ _ _ _ _ _ => some (.failure cid rank seq 0x62)
  | .ringTok cid _ frm seq _ => some (.failure cid frm seq 0x62)
  | .put cid _ frm eid _ _ _ _ _ _ _ _ => some (.putFail cid frm eid 0x62)
  | _ => none

/-- Messages that are not sent on for want of a version: those of this device go back to be sent when their entry allows it, the originators
of others are told. -/
def Mach.unsend (sys : Sys) (m : Mach) (xs : List Msg) : Mach :=
  { m with out := (xs.filter fun x => x.src == sys.devid) ++ m.out ++
      (xs.filter fun x => x.src != sys.devid).filterMap fun x => (lacks x).map fun b => ⟨sys.devid, x.src, 0, 0, b⟩ }

/-- FABRIC_LINK_TRAIN: what the partner offers decides: up, or failed. Flits not acknowledged are sent again (spec/01 R34). -/
def execFabricLinkTrain (n rttNs ver peer req rsp : Nat) := onAll fun sys m =>
  let p := sys.fport n
  if fabricPorts ≤ n || !sys.powerGood || sys.thermtrip || !p.ctlEn || p.state == 2 then (sys, m)
  else if rttNs > 320 then setErr (sys.setFPort n { p with
      state := 3, ver := 0, rtt := Nat.min 255 (rttNs / 2), downSince := some (p.downSince.getD sys.ticks) }) m n errRttx
  else if req ≠ p.bulkReq ∨ rsp ≠ p.bulkRsp then setErr (sys.setFPort n { p with state := 3, ver := 0, downSince := some (p.downSince.getD sys.ticks) }) m n errBulk
  else
    let mine := if p.maxver = 0 then 1 else p.maxver
    let v := Nat.max 1 (Nat.min (Nat.min ver 3) mine)
    let (p, xs) := p.fit v
    (sys.setFPort n { p with
      state := 2, ver := v, peer := peer % 4096, rtt := rttNs / 2, useReq := req,
      useRsp := rsp, downSince := none, replayFrom := p.replay.head?.map fun f => f.1 }, m.unsend sys xs)

/-- The link is down: its wires carry nothing. -/
def goDown (sys : Sys) (m : Mach) (n : Nat) : Sys × Mach :=
  let p := sys.fport n
  setErr (sys.setFPort n { p with state := 0, ver := 0, downSince := some sys.ticks }) m n errDown

/-- FABRIC_LINK_DOWN: the partner or the cable is lost. -/
def execFabricLinkDown (n : Nat) := onAll fun sys m => if (sys.fport n).state = 2 then goDown sys m n else (sys, m)

/-- A write of FPORT_CTL, checked as a whole (spec/01 R47). DESIGN CHOICE (log 128): an accepted write with EN 1 to a port that is
down begins its training; the spec does not say what does. Nor does it give these (DESIGN CHOICE, log 128): EN 0 written to a port that is
training or failed sets ERR.DOWN and begins its time down anew, as for one that was up; RETRAIN of a port that is down trains it, with no
ERR.RETR where this write of FPORT_CTL does it, and with it where FPORT_RETRAIN does. -/
def fportCtl (sys : Sys) (m : Mach) (n : Nat) (v : Word) : Sys × Mach :=
  let w := v.toNat
  let req := bits w 26 3
  let rsp := bits w 23 3
  let p := sys.fport n
  if req = 0 ∨ req = 7 ∨ rsp = 0 ∨ rsp = 7 ∨ req = rsp ∨ (m.comms.any fun c => c.vc == req || c.vc == rsp) then
    setErr sys m n errBulk
  else
    let en := tbit w 31
    let p' := { p with ctlEn := en, maxver := bits w 29 2, bulkReq := req, bulkRsp := rsp }
    let sys := sys.setFPort n p'
    if !en then (if p.state = 0 then (sys, m) else goDown sys m n)
    else if tbit w 22 && p.state != 0 then retrain sys m n
    else if p.state = 0 then (sys.setFPort n { p' with state := 1 }, m)
    else (sys, m)

def execFportCtlWrite (n : Nat) (v : Word) := onAll fun sys m => if fabricPorts ≤ n then (sys, m) else fportCtl sys m n v

/-- FPORT_RETRAIN: RETRAIN written as 1, the other fields kept. -/
def execFportRetrain (n : Nat) := onAll fun sys m =>
  if fabricPorts ≤ n || !(sys.fport n).ctlEn then (sys, m) else retrain sys m n

/-- FPORT_ERR_CLEAR: bits written as 1 are cleared; any write clears REPLAYS. -/
def fportErr (sys : Sys) (n : Nat) (v : Word) : Sys :=
  let p := sys.fport n
  sys.setFPort n { p with err := (List.range 6).foldl (fun e i => if tbit v.toNat i then setBit e i false else e) p.err, replays := 0 }

def execFportErrClear (n : Nat) (v : Word) := onAll fun sys m => (fportErr sys n v, m)

/-! ### Routes (spec/01 R37, R44; spec/02 R75) -/

def altOk (a : Nat) : Bool := decide (a < fabricPorts) || a == 31

/-- A write of a route entry: refused as a whole, or applied. DESIGN CHOICE (log 145): for an id above 0x3FF a low version of any of its
ports, an alternate too, refuses the write, and a port whose link is not up, and so has no version, does not; spec/01 R37 names the next hop
alone. -/
def routeWrite (sys : Sys) (m : Mach) (id : Nat) (v : DWord) : Sys × Mach :=
  let n := v.toNat
  let prim := bits n 15 5
  let a1 := bits n 10 5
  let a2 := bits n 5 5
  let a3 := bits n 0 5
  let at_ := if prim < fabricPorts then prim else 0
  let low (p : Nat) : Bool := decide (p < fabricPorts) && (sys.fport p).state == 2 && decide ((sys.fport p).ver < 3)
  if tbit n 63 && (decide (fabricPorts ≤ prim) || !altOk a1 || !altOk a2 || !altOk a3) then setErr sys m at_ errRoute
  else if tbit n 63 && decide (0x3FF < id) && (low prim || low a1 || low a2 || low a3) then setErr sys m at_ errRoute
  else ({ sys with routes := put sys.routes id { v := tbit n 63, prim := prim, alt1 := a1, alt2 := a2, alt3 := a3 } }, m)

def execRouteEntryWrite (id : Nat) (v : DWord) := onAll fun sys m => if 4096 ≤ id then (sys, m) else routeWrite sys m id v

/-! ### Arrivals -/

/-- The oldest message of a channel of a port. -/
def Sys.inHead (sys : Sys) (n vc : Nat) : Option Msg := ((sys.fport n).inq.find? fun x => x.1 == vc).map fun x => x.2

/-- It leaves the input buffer. -/
def Sys.inDrop (sys : Sys) (n vc : Nat) : Sys :=
  let p := sys.fport n
  match p.inq.find? fun x => x.1 == vc with
  | none => sys
  | some x =>
    let p := { p with inq := dropFirst vc p.inq, inFlits := modAt p.inFlits vc fun k => k - flitsOf x.2 }
    sys.setFPort n (p.rehold vc)

/-- A message for this device at the head of a channel, consumed by `f`. -/
def onArrival (n vc : Nat) (f : Sys → Mach → Msg → Option Mach) := onAll fun sys m =>
  match sys.inHead n vc with
  | none => (sys, m)
  | some x =>
    if x.dst ≠ sys.devid then (sys, m)
    else match f sys m x with
      | some m => (sys.inDrop n vc, m)
      | none => (sys, m)

/-- FABRIC_PASS_THROUGH: a message for another device goes on over this device's route, on the same channel, once the link is up,
its channel is not held and no flit waits there; until then it keeps its place in the input buffer (spec/01 R40, R44). With no
valid entry, or over a link that lacks a version it needs (log 129), it is discarded. -/
def execFabricPassThrough (n vc : Nat) := onAll fun sys m =>
  match sys.inHead n vc with
  | none => (sys, m)
  | some x =>
    if x.dst = sys.devid then (sys, m)
    else
      let r := look ({} : Route) sys.routes x.dst
      let o := sys.portFor r x.cls
      let p := sys.fport o
      if !r.v then setErr (sys.inDrop n vc) m n errRoute
      else if p.state == 2 && decide (p.ver < msgNeeds x) then setErr (sys.inDrop n vc) (m.unsend sys [x]) n errRoute
      else if p.state ≠ 2 || tbit p.hold vc || (p.outq.any fun y => y.1 == vc) then (sys, m)
      else
        let sys := sys.inDrop n vc
        let p := sys.fport o
        (sys.setFPort o { p with outq := p.outq ++ msgFlits vc x }, m)

/-- SIG_REMOTE_ARRIVE: the OR, and the acknowledgement on VC0; or a class-0 wake message, which wakes a core in C1 or C2 (spec/02 R89; its
form is the model's, log 146). -/
def execSigRemoteArrive (n : Nat) := onArrival n 0 fun sys m x =>
  match x.body with
  | .sig c v tid uid => some { m.sigOr c v with out := (m.sigOr c v).out ++ [⟨sys.devid, x.src, 0, 0, .sigAck tid uid⟩] }
  | .wake k => some (m.wakeCore k)
  | _ => none

/-- SIG_ACK_ARRIVE: the instruction completes; a late acknowledgement finds nothing. -/
def execSigAckArrive (n : Nat) := onArrival n 0 fun _ m x =>
  match x.body with
  | .sigAck tid uid => some (if m.sigWaits.any fun w => w.1 == tid && w.2.1 == uid then m.sigDone tid uid else m)
  | _ => none

/-- One arrival of a device is taken back at its root. -/
def Mach.rootWithdraw (sys : Sys) (m : Mach) (src num : Nat) : Mach :=
  match m.barNode? 5 sys.devid num domKey with
  | none => m
  | some r => match r.remote.find? fun x => x.1 == src with
    | none => m
    | some x =>
      let r' := { r with remote := r.remote.erase x }
      if r'.remote = [] then m.dropNode r else m.setNode r'

/-- DOMAIN_BARRIER_MESSAGE: an arrival at this root, or the answer of another (spec/04 R132). -/
def execDomainBarrierMessage (n : Nat) := onArrival n 0 fun sys m x =>
  match x.body with
  | .barArrive num count k ph => some (m.rootArrive sys x.src num count k ph)
  | .barRelease num ph => some (m.domRelease num ph)
  | .barRefuse num count => some (m.domRefuse num count)
  | .barWithdraw num => some (m.rootWithdraw sys x.src num)
  | _ => none

end Sys2Proof.Machine
end

