-- ==== Sys2Proof/Machine/Access.lean ====
section
/-! DEFINITION. The steps by which accesses perform, instructions complete and engines advance (spec/07 R203-R206, R213;
spec/06 R180, R188; spec/10 R272). -/

namespace Sys2Proof.Machine

/-- What a wide step of a flight does, by its instruction. -/
def wideStep (sys : Sys) (m : Mach) (t : Thread) (f : Flight) (o : PendOp) : Mach :=
  match f.instr with
  | .stt _ _ _ _ _ _ => sttWide m t f o
  | .gleave _ => gleaveWide m t f o
  | .topkGroup _ _ _ _ _ _ _ => topkWide m t f o
  | .topkRow _ _ _ _ _ _ _ => topkWide m t f o
  | .cvtq _ _ _ _ _ _ _ => narrowWide m t f o
  | .rquant _ _ _ _ _ _ => narrowWide m t f o
  | .bscale _ _ _ _ _ => narrowWide m t f o
  | .tdrain _ _ _ _ _ _ _ _ _ _ => tdrainWide sys m t f o
  | .bprobe _ _ _ _ _ _ => bprobeWide sys m t f o
  | _ => m

/-- What follows when the last operation of a flight has performed, by its instruction. -/
def finStep (m : Mach) (f : Flight) : Mach :=
  match f.instr with
  | .topkGroup _ _ _ _ _ _ _ => topkFin m f
  | .topkRow _ _ _ _ _ _ _ => topkFin m f
  | .cvtq _ _ _ _ _ _ _ => narrowFin m f
  | .rquant _ _ _ _ _ _ => narrowFin m f
  | .bscale _ _ _ _ _ => narrowFin m f
  | .fibld _ _ _ _ _ => fibldFin m f
  | .tmld _ _ _ _ => tmldFin m f
  | .mma _ _ _ _ _ _ _ => matFin m f
  | .mmas _ _ _ _ _ _ _ _ => matFin m f
  | .mmaj _ _ _ _ _ _ _ _ => matFin m f
  | .qsig _ _ _ _ => qsigFin m f
  | _ => memFin m f

/-- PERFORM: an operation of a pending set performs; a core in C1 or C2 whose scratchpad it reaches is woken, tile instructions that
waited for it take effect, and withdrawals of sharing entries that waited for it complete. -/
def Mach.perform (sys : Sys) (m : Mach) (tid oid : Nat) (install : Bool) : Mach :=
  let m := match (m.thr tid).pend.find? fun o => o.oid == oid with
    | some o => (o.loc :: o.loc2 :: o.parts.map fun (p : Nat × Nat × Nat) => p.2.1).foldl Mach.wakeAt m
    | none => m
  ((m.performOp sys tid oid install (wideStep sys) finStep).pump (m.thr tid).core).closeShares

def execAccessPerform (tid oid : Nat) (install : Bool) := onMach fun sys m => m.perform sys tid oid install

/-- A core may drop a copy at any time (spec/06 R180). -/
def execReadCacheDrop (core fd line : Nat) := onMach fun _ m => m.dropCopy core fd line

/-! ### Accesses between devices (spec/06 R188, spec/01 R38, R39) -/

/-- No response within 10 ms: the access of a thread, or the operation of an engine, takes 0x26. -/
def execRemoteAccessTimeout (tid oid : Nat) := onMach fun sys m =>
  match (m.thr tid).pend.find? fun o => o.oid == oid with
  | some o =>
    if o.sent.any fun x => decide (x.1 + Config.ticks10ms ≤ sys.ticks) then
      m.lateRsp tid o 0x26 finStep
    else m
  | none =>
    if m.reqs.any fun r => r.id == oid && isRem r.loc && decide (r.at_ + Config.ticks10ms ≤ sys.ticks) then m.farRsp oid 0x26 [] else m

/-- The response to a request: what was read, or that the access failed. -/
def Mach.respond (sys : Sys) (m : Mach) (n : Nat) (x : Msg) (id : Nat) (ok : Bool) (bs : List Byte) : Mach :=
  { m with out := m.out ++ [⟨sys.devid, x.src, 2, (sys.fport n).useRsp, .bulkRsp id ok bs⟩] }

/-- A request of another device that cannot be performed is logged and answered as failed: an address outside the cavern, or a word in
error (log 130). -/
def Mach.respondBad (sys : Sys) (m : Mach) (n : Nat) (x : Msg) (id loc len : Nat) : Mach :=
  (if inCavern loc len then m.logErr 0x30 n loc else m).respond sys n x id false []

/-- The atomics of one request perform as consecutive steps of S, here at their home (spec/07 R209, R218): the old values, in order. Another
device's writes leave the cleared stamp (DESIGN CHOICE, log 76). -/
def Mach.atomsHere (m : Mach) (loc : Nat) (op : AOp) (ty : AType) (ops : List (Nat × Nat)) : Mach × List Byte :=
  ops.foldl (fun r p =>
    let m := (r.1.eccFix portCore loc ty.bytes).sync 0 7 true true (.loc loc)
    let old := m.num loc ty.bytes
    (m.store loc (toBytes (atomNew op ty old p.1 p.2) ty.bytes) (some clearStamp), r.2 ++ toBytes old ty.bytes)) (m, [])

/-- A request of another device, performed at the physical address with no translation. -/
def Mach.serveRemote (sys : Sys) (m : Mach) (n : Nat) (x : Msg) : Option Mach :=
  match x.body with
  | .bulkReq id off len write bs =>
    let loc := Config.cavernBase + off
    some <| if write then
        if !inCavern loc bs.length || m.eccBlocks loc bs.length then m.respondBad sys n x id loc bs.length
        else ((m.store loc bs (some clearStamp)).unrelease loc bs.length).respond sys n x id true []
      else if !inCavern loc len || m.eccBad loc len then m.respondBad sys n x id loc len
      else (m.eccFix portCore loc len).respond sys n x id true (m.bytes loc len)
  | .bulkAtom id off op ty ops =>
    let loc := Config.cavernBase + off
    some <| if !inCavern loc ty.bytes || m.eccBad loc ty.bytes then m.respondBad sys n x id loc ty.bytes
      else
        let r := m.atomsHere loc op ty ops
        r.1.respond sys n x id true r.2
  | .bulkRsp id ok bs => some ((m.remoteRsp id ok bs finStep).farRsp id (if ok then 0 else 0x30) bs)
  | _ => none

/-- REMOTE_ACCESS_REQUEST: a request of another device is performed and answered on the bulk response channel; a response completes
the access that asked for it. -/
def execRemoteAccessRequest (n vc : Nat) := onArrival n vc fun sys m x => m.serveRemote sys n x

/-- The head of the copy queue of a core. -/
def Mach.copyHead (m : Mach) (core : Nat) : Option EngOp :=
  m.engines.find? fun e => e.core == core && (match e.kind with
    | .cpy _ _ _ _ _ _ => true
    | .cpyp _ _ _ => true
    | _ => false)

/-- One step of an engine's head operation: queue 0 the copy engine, 1 the signature unit of the core's grove, 2 to 5 the
first step of the stream engines (spec/07 R213, spec/17 R408). -/
def execEngineStep (core q : Nat) := onMach fun sys m =>
  if q = 0 then match m.copyHead core with
    | none => m
    | some e => m.engGate sys e fun m e => match e.kind with
      | .cpy ds ss dst src len ctr => m.cpyStep sys e ds ss dst src len ctr
      | .cpyp va frame ctr => m.cpypStep sys e va frame ctr
      | _ => m
  else if q = 1 then match m.sigHead (coreGrove core) with
    | none => m
    | some e => m.engGate sys e fun m e => match e.kind with
      | .sigld slot src shape => m.sigStep sys e slot src shape
      | _ => m
  else match m.streamHead core (q - 2) with
    | none => m
    | some e => if e.stage = 0 then m.engGate sys e fun m e => match e.kind with
        | .stream _ va => m.streamStart sys e va
        | _ => m
      else m

/-- INSTRUCTION COMPLETE: the results of an instruction whose operations have all performed land. -/
def execInstructionComplete (tid uid : Nat) := onMach fun _ m =>
  match m.flight? uid with
  | some f => if f.owner = tid ∧ f.done then m.complete f else m
  | none => m

end Sys2Proof.Machine
end

