-- ==== Sys2Proof/Machine/Launches.lean ====
section
/-! DEFINITION. Launch ports, acceptance, dispatch and retirement (spec/03 R95-R113; spec/04 R114-R119; spec/17 R416). -/

namespace Sys2Proof.Machine

/-- A launch that counts as live: accepted, and not yet retired. -/
def Launch.live (l : Launch) : Bool := !l.retired && !(l.ending.any fun e => decide (1 ≤ e.1) && decide (e.1 ≤ 6))

def Mach.live (m : Mach) : List Launch := m.launches.filter Launch.live

def Mach.lport (m : Mach) (p : Nat) : LPort := m.lports.getD p {}
def Mach.setLport (m : Mach) (p : Nat) (l : LPort) : Mach := { m with lports := modAt m.lports p fun _ => l }

/-! ### Region chains (spec/03 R109-R111) -/

/-- The reserved bits of a block are zero. -/
def blockClean (b : Nat) : Bool :=
  bits b 800 224 == 0 && bits b 516 8 == 0 && bits b 452 8 == 0 && bits b 361 7 == 0 && bits b 344 8 == 0
    && bits b 320 16 == 0 && bits b 109 18 == 0 && bits b 88 3 == 0

/-- The fields of a block. -/
def blockEff (b : Nat) : Eff :=
  { prio := bits b 92 4, race := tbit b 91, fdom := bits b 82 6, evq := bits b 76 6, sysq := bits b 72 4,
    qpairs := bits b 64 8, groves := bits b 128 192, galkb := bits b 336 8, scrkb := bits b 352 9, frames := bits b 368 16,
    saveva := bits b 384 64, fqlog2 := bits b 448 4, fqbase := bits b 460 52, evqlog2 := bits b 512 4,
    evqbase := bits b 524 52, traph := bits b 576 64, dfbh := bits b 640 64, domh := bits b 704 64, wdog := bits b 768 32 }

def blockOvr (b : Nat) : Nat := bits b 96 13

/-- An overridden field outside its range. -/
def blockRange (b : Nat) : Bool :=
  let e := blockEff b
  let o := blockOvr b
  (!tbit o 2 || (decide (4 ≤ e.fqlog2) && decide (e.fqlog2 ≤ 12)))
    && (!tbit o 3 || (decide (4 ≤ e.evqlog2) && decide (e.evqlog2 ≤ 12)))
    && (!tbit o 6 || (decide (e.scrkb ≤ 256) && decide (e.galkb ≤ 124)))
    && (!tbit o 7 || decide (e.qpairs ≤ 64))

/-- A block's own fields combined with its parent's effective values (spec/03 R111). -/
def Eff.under (own : Eff) (o : Nat) (p : Eff) : Eff :=
  { prio := if tbit o 0 then Nat.min own.prio p.prio else p.prio
    race := if tbit o 1 then own.race else p.race
    fdom := if tbit o 2 then own.fdom else p.fdom
    fqbase := if tbit o 2 then own.fqbase else p.fqbase
    fqlog2 := if tbit o 2 then own.fqlog2 else p.fqlog2
    evq := if tbit o 3 then own.evq else p.evq
    evqbase := if tbit o 3 then own.evqbase else p.evqbase
    evqlog2 := if tbit o 3 then own.evqlog2 else p.evqlog2
    sysq := if tbit o 4 then own.sysq else p.sysq
    groves := if tbit o 5 then own.groves &&& p.groves else p.groves
    frames := if tbit o 6 then Nat.min own.frames p.frames else p.frames
    scrkb := if tbit o 6 then Nat.min own.scrkb p.scrkb else p.scrkb
    galkb := if tbit o 6 then Nat.min own.galkb p.galkb else p.galkb
    qpairs := if tbit o 7 then Nat.min own.qpairs p.qpairs else p.qpairs
    saveva := if tbit o 8 then own.saveva else p.saveva
    traph := if tbit o 9 then own.traph else p.traph
    dfbh := if tbit o 10 then own.dfbh else p.dfbh
    domh := if tbit o 11 then own.domh else p.domh
    wdog := if tbit o 12 then own.wdog else p.wdog }

/-- A block can be read: it lies in the cavern or behind a committed decoder, and holds no uncorrectable word. -/
def blockThere (m : Mach) (a : Nat) : Bool :=
  (inCavern a 128 || (pkind a == .cxl && (m.decoder a).isSome)) && !badRange m a 128

/-- The blocks from `a` up to the root, own block first; none for a chain that is broken, too long or circular. -/
def readChain (m : Mach) : Nat → Nat → List (Nat × Nat) → Option (List (Nat × Nat))
  | 0, _, _ => none
  | k + 1, a, seen =>
    if a % 128 ≠ 0 || (seen.any fun p => p.1 == a) || !blockThere m a then none
    else
      let b := m.num a 128
      if !tbit b 127 then none
      else if bits b 0 64 = 0 then some (seen ++ [(a, b)])
      else readChain m k (bits b 0 64) (seen ++ [(a, b)])

/-- Effective values of every block of a chain, own block first. -/
def chainEffs : List (Nat × Nat) → List (Nat × Eff)
  | [] => []
  | [p] => [(p.1, blockEff p.2)]
  | p :: r =>
    let up := chainEffs r
    match up with
    | [] => []
    | q :: _ => (p.1, (blockEff p.2).under (blockOvr p.2) q.2) :: up

/-- Another region uses the same fault domain or event queue differently (spec/03 R110). -/
def Mach.clash (m : Mach) (rcb : Nat) (e : Eff) : Bool :=
  m.live.any fun l => l.rcb != rcb
    && ((l.eff.fdom == e.fdom && (l.eff.fqbase != e.fqbase || l.eff.fqlog2 != e.fqlog2))
      || (l.eff.evq == e.evq && (l.eff.evqbase != e.evqbase || l.eff.evqlog2 != e.evqlog2)))

/-- THE REGION OF A BLOCK: its chain with the effective values, if the chain is valid (spec/03 R110). -/
def Mach.region (m : Mach) (rcb : Nat) : Option (List (Nat × Eff)) :=
  match readChain m 8 rcb [] with
  | none => none
  | some bs =>
    let root := (bs.getLast?.map fun p => blockOvr p.2).getD 0
    if root ≠ 0x1FFF || !(bs.all fun p => blockClean p.2 && blockRange p.2) then none
    else match chainEffs bs with
      | [] => none
      | c :: r => if m.clash rcb c.2 then none else some (c :: r)

/-! ### Launch records (spec/03 R99) -/

def recBad (n : Nat) : Bool :=
  bits n 1536 512 != 0 || bits n 712 312 != 0 || bits n 424 24 != 0 || bits n 418 2 != 0
    || bits n 384 32 == 0 || decide (0xFFFFFE < bits n 384 32) || decide (3 < bits n 420 4)
    || bits n 256 64 % 16 != 0 || bits n 192 64 % 64 != 0 || bits n 64 64 % 64 != 0 || bits n 0 64 % 128 != 0

def recRcb (n : Nat) : Nat := bits n 0 64
def recArm (n : Nat) : Nat := bits n 448 16
def recDone (n : Nat) : Nat := bits n 464 16

/-- Counter indices of a record lie in its region's range (spec/17 R418). -/
def recCtrs (e : Eff) (n : Nat) : Bool := ctrNamed e (recArm n) && ctrNamed e (recDone n)

/-- The record is armed (spec/03 R98); one that names no counter of its region is not waited on (spec/17 R416). -/
def Mach.armed (m : Mach) (e : Eff) (n : Nat) : Bool :=
  recArm n == 0xFFFF || !recCtrs e n || decide (bits n 480 32 ≤ (m.ctr (recRcb n) (recArm n)).val)

/-! ### Counters bound to a block (spec/17 R416) -/

/-- The counters of a block are bound, all zero, unless they are bound already. -/
def Mach.bind (m : Mach) (rcb : Nat) (e : Eff) : Mach :=
  if m.bound.any fun b => b.1 == rcb then m
  else { m with bound := m.bound ++ [(rcb, e.qpairs)], ctrs := m.ctrs.filter fun c => c.rcb != rcb }

/-- Records at the head of their ports bind. -/
def Mach.bindHeads (m : Mach) : Mach :=
  m.lports.foldl (fun m l => match l.queue with
    | [] => m
    | r :: _ =>
      let n := ofBytes r
      match m.region (recRcb n) with
      | some (c :: _) => if recCtrs c.2 n then m.bind (recRcb n) c.2 else m
      | _ => m) m

/-- Blocks that no live launch and no queued record names are bound no longer. -/
def Mach.unbind (m : Mach) : Mach :=
  let named (rcb : Nat) : Bool :=
    (m.live.any fun l => l.rcb == rcb) || m.lports.any fun l => l.queue.any fun r => recRcb (ofBytes r) == rcb
  { m with bound := m.bound.filter fun b => named b.1 }

/-! ### Posts (spec/03 R95-R97) -/

/-- A write of LP_POST: a release at package scope (spec/03 R96). -/
def Mach.lpPost (m : Mach) (p : Nat) : Mach :=
  let l := m.lport p
  if l.queue.length ≥ 32 then m.setLport p { l with full := true }
  else ((m.sync 0 6 true false .none).setLport p { l with queue := l.queue ++ [l.staged], posted := (l.posted + 1) % 2 ^ 32 }).bindHeads

def execLpPost (p : Nat) := onMach fun _ m => m.lpPost p

/-- A write of LP_STS. -/
def Mach.lpSts (m : Mach) (p v : Nat) : Mach :=
  if tbit v 39 then m.setLport p { m.lport p with full := false } else m

def execLpStsFullClear (p : Nat) := onMach fun _ m => m.lpSts p (2 ^ 39)

/-! ### Acceptance (spec/03 R98, R105, R452) -/

/-- What a read of the kernel header answers. -/
inductive LRead where
  | ok (n : Nat)
  | wait
  | post (va cause kind level : Nat)
  | bad (cause pa : Nat)
  | far (va loc : Nat)
deriving DecidableEq, Repr

/-- One aligned word of a launch's code, read as an instruction fetch by launch port `p`. -/
def lpWord (sys : Sys) (m : Mach) (p : Nat) (e : Eff) (va : Nat) : LRead :=
  match globalAcc sys m portCore e va 8 .x false false with
  | .ok loc _ _ =>
    if m.away loc then match farRead sys m e.fdom p va loc 8 with
      | .ok => .ok (m.num loc 8)
      | .ask a l => .far a l
      | .bad c l => .bad c l
    else if badRange m loc 8 then .bad 0x30 loc else .ok (m.num loc 8)
  | .trap c => .bad c 0
  | .ecc pa => .bad 0x30 pa
  | .park true _ _ _ _ => .wait
  | .park false c k l _ => .post va c k l
  | .miss _ => .bad 0x22 0

/-- Words of a range, lowest first, up to the first that fails. -/
def lpWords (sys : Sys) (m : Mach) (p : Nat) (e : Eff) (va : Nat) : Nat → LRead
  | 0 => .ok 0
  | k + 1 => match lpWord sys m p e va with
    | .ok n => match lpWords sys m p e (va + 8) k with
      | .ok r => .ok (n + 2 ^ 64 * r)
      | r => r
    | r => r

/-- Status 3 by the header's own fields (spec/03 R103). -/
def khBad (n : Nat) : Bool :=
  bits n 160 352 != 0 || bits n 46 2 != 0 || bits n 36 4 != 0 || bits n 0 32 != 0x314B5143
    || bits n 32 4 == 0 || decide (3 < bits n 32 4) || decide (bits n 40 6 < 2) || decide (32 < bits n 40 6)
    || decide (1024 < bits n 48 16) || bits n 128 32 % 64 != 0
    || bits n 64 32 % 8 != 0 || decide (bits n 64 32 < 64) || decide (bits n 96 32 ≤ bits n 64 32)

/-- Groves of a set that are on; those of dies that do not run yet count as on (spec/03 R98). -/
def dieRuns (sys : Sys) (d : Nat) : Bool :=
  match sys.dies.getD d .held with
  | .run _ => true
  | _ => false

def groveOn (sys : Sys) (g : Nat) : Bool :=
  !dieRuns sys (groveDie g) || (look ({} : GPwr) sys.gpwr g).state == 0

def groveList (set : Nat) : List Nat := (List.range Config.groves).filter fun g => tbit set g

/-- Statuses 4, 5 and 6, in order, for a record and its header. -/
def lateStatus (sys : Sys) (m : Mach) (e : Eff) (n kh : Nat) : Option Nat :=
  if bits n 420 4 ≠ 0 ∧ bits n 420 4 ≠ bits kh 32 4 then some 4
  else if (bits n 416 2 + 1) * 256 * bits kh 40 6 > e.galkb * 1024 ∨ 256 * bits kh 48 16 > e.scrkb * 1024
      ∨ !((groveList e.groves).any (groveOn sys)) then some 5
  else if m.live.any fun l => l.diebar &&& bits n 656 16 != 0 || l.pkgbar &&& bits n 640 16 != 0
      || l.dombar &&& bits n 704 8 != 0 then some 6
  else none

/-- What acceptance decides of the record at the head of a port. -/
inductive LVerdict where
  | wait
  | post (va cause kind level : Nat)
  | far (va loc : Nat)
  | reject (status cause : Nat) (pa : Nat := 0)
  | accept (kh : Nat)
deriving DecidableEq, Repr

/-- The checks of a record with the effective values of its chain, in order (spec/03 R105, R452). `failed` is the cause of
an answer that is not RESP 0. -/
def lpVerdict (sys : Sys) (m : Mach) (p : Nat) (chain : Option (List (Nat × Eff))) (n : Nat) (failed : Option Nat) : LVerdict :=
  if recBad n then .reject 1 0
  else match chain with
    | some ((_, e) :: _) =>
      if !recCtrs e n then .reject 2 0
      else match failed with
        | some c => .reject 3 c
        | none => match lpWords sys m p e (bits n 64 64) 8 with
          | .wait => .wait
          | .far va loc => .far va loc
          | .post va c k l => .post va c k l
          | .bad c pa => .reject 3 c pa
          | .ok kh =>
            if khBad kh then .reject 3 0
            else match lpWord sys m p e (bits n 64 64 + bits kh 64 32) with
              | .wait => .wait
              | .far va loc => .far va loc
              | .post va c k l => .post va c k l
              | .bad c pa => .reject 3 c pa
              | .ok w =>
                if w / 2 ^ 57 ≠ 0x7F then .reject 3 0
                else match lateStatus sys m e n kh with
                  | some s => .reject s 0
                  | none => .accept kh
    | _ => .reject 2 0

/-- The launch that a record makes. A rejected one holds what its retirement needs. -/
def launchOf (m : Mach) (p n kh : Nat) (chain : List (Nat × Eff)) (ending : Option (Nat × Nat)) : Launch :=
  { id := m.next, port := p, tag := BitVec.ofNat 64 (bits n 320 64), rcb := recRcb n, eff := (chain.headD (0, {})).2,
    chain := chain, khva := bits n 64 64, entry := bits n 64 64 + bits kh 64 32, codelen := bits kh 96 32,
    tls := bits kh 128 32, ver := if bits n 420 4 = 0 then bits kh 32 4 else bits n 420 4, regs := bits kh 40 6,
    scr := bits kh 48 16, qpw := bits n 416 2, nwaves := bits n 384 32, argva := BitVec.ofNat 64 (bits n 128 64),
    tlsva := BitVec.ofNat 64 (bits n 192 64), cplva := bits n 256 64, donectr := recDone n,
    fslots := (List.range 8).map fun k => BitVec.ofNat 64 (bits n (1024 + 64 * k) 64), grvbar := bits n 672 32,
    diebar := bits n 656 16, pkgbar := bits n 640 16, dombar := bits n 704 8, placeva := bits n 576 64,
    profva := bits n 512 64, order := m.next, ending := ending }

/-- A byte of a placement hint, read as the wave becomes waiting (spec/03 R101). -/
inductive HintByte where
  | ok (n : Nat)
  | none
  | ecc (pa : Nat)
  | far (va loc : Nat)
deriving DecidableEq, Repr

def hintByte (sys : Sys) (m : Mach) (p : Nat) (e : Eff) (va : Nat) : HintByte :=
  match globalAcc sys m portCore e va 1 .r false false with
  | .ok loc _ _ =>
    if m.away loc then match farRead sys m e.fdom p va loc 1 with
      | .ok => .ok (m.num loc 1)
      | .ask a l => .far a l
      | .bad c l => if c = 0x30 then .ecc l else .none
    else if badRange m loc 1 then .ecc loc else .ok (m.num loc 1)
  | _ => .none

def hintOf (sys : Sys) (m : Mach) (la : Launch) (w : Nat) : Nat :=
  if la.placeva = 0 then 0xFFFF
  else match hintByte sys m la.port la.eff (la.placeva + 2 * w), hintByte sys m la.port la.eff (la.placeva + 2 * w + 1) with
    | .ok lo, .ok hi => lo + 256 * hi
    | _, _ => 0xFFFF

/-- The bytes of the hints of a launch. -/
def hintBytes (sys : Sys) (m : Mach) (la : Launch) : List HintByte :=
  if la.placeva = 0 then [] else (List.range (2 * la.nwaves)).map fun i => hintByte sys m la.port la.eff (la.placeva + i)

/-- A line of the hints that stands outside the device and has not come. -/
def hintsAsk (l : List HintByte) : Option (Nat × Nat) :=
  l.findSome? fun b => match b with
    | .far va loc => some (va, loc)
    | _ => Option.none

/-- The uncorrectable words that the read of the hints has met are logged (spec/02 R93). -/
def Mach.hintsLog (m : Mach) (l : List HintByte) : Mach :=
  (l.filterMap fun b => match b with
    | .ecc pa => some (pa / 8 * 8)
    | _ => Option.none).eraseDups.foldl (fun m pa => m.logErr 0x30 0 pa) m

/-- Wave `w` of a launch, waiting for a core (spec/04 R114). -/
def rootWave (sys : Sys) (m : Mach) (la : Launch) (w : Nat) : Wave :=
  { id := m.next + 1 + w, launch := la.id, number := w, qpw := la.qpw, regs := la.regs, scr := la.scr,
    entry := BitVec.ofNat 57 la.entry, arg := la.argva, baseTid := w * (la.qpw + 1) * 8, since := m.cycle,
    hint := hintOf sys m la w, live := 8 * (la.qpw + 1) }

/-- The idle and busy table of a launch is opened: its header's device fields written, its rows zeroed (spec/04 R118, R119). -/
def Mach.profOpen (sys : Sys) (m : Mach) (l : Nat) : Mach :=
  let la := m.launch l
  if la.profva = 0 then m
  else
    let ncore := la.eff.cores.length
    let maxph := Nat.max 1 ((devReadVa sys m portCore la.eff la.profva 4).getD 1)
    let m := m.devReadLog sys portCore la.eff la.profva 4
    let m := m.devWriteVa sys portCore la.eff (la.profva + 8) (toBytes 1 4 ++ toBytes ncore 4)
    let m := m.devWriteVa sys portCore la.eff (la.profva + 16) (toBytes 0 8)
    let m := (List.range (maxph * ncore)).foldl (fun m i =>
      m.devWriteVa sys portCore la.eff (la.profva + 64 + 8 * i) (toBytes 0 8)) m
    m.modLaunch l fun la => { la with maxph := maxph }

/-- The record leaves its queue. -/
def Mach.lpTake (m : Mach) (p : Nat) : Mach :=
  let l := m.lport p
  m.setLport p { l with queue := l.queue.drop 1, fault := none, answer := none }

/-- The target dies of a region (spec/02 R72) of which one runs; a region without groves waits for none. -/
def targetRuns (sys : Sys) (groves : Nat) : Bool :=
  groves == 0 || (List.range 4).any fun d => dieRuns sys d && bits groves (48 * d) 48 != 0

/-- The first uncorrectable word that the walk of a region chain meets. -/
def chainEcc (m : Mach) : Nat → Nat → List Nat → Option Nat
  | 0, _, _ => none
  | k + 1, a, seen =>
    if a % 128 ≠ 0 || seen.contains a || !(inCavern a 128 || (pkind a == .cxl && (m.decoder a).isSome)) then none
    else match (wordsOf a 128).find? fun w => badRange m w 8 with
      | some w => some w
      | none =>
        let b := m.num a 128
        if !tbit b 127 || bits b 0 64 == 0 then none else chainEcc m k (bits b 0 64) (a :: seen)

/-- The single-bit errors that the walk of a region chain meets are corrected. -/
def Mach.chainFix (m : Mach) (chain : List (Nat × Eff)) : Mach := chain.foldl (fun m b => m.eccFix portCore b.1 128) m

/-- The line of PROFVA's MAXPH, read at acceptance, stands outside the device and has not come. -/
def profAsk (sys : Sys) (m : Mach) (la : Launch) : Option (Nat × Nat) :=
  if la.profva = 0 then none
  else match globalAcc sys m portCore la.eff la.profva 1 .r false false with
    | .ok loc _ _ => if !m.away loc then none else match farRead sys m la.eff.fdom la.port la.profva loc 4 with
      | .ask a l => some (a, l)
      | _ => none
    | _ => none

/-- The record at the head of a port is looked at. -/
def Mach.launchAccept (sys : Sys) (m : Mach) (p : Nat) : Mach :=
  let lp := m.lport p
  match lp.queue with
  | [] => m
  | r :: _ =>
    let n := ofBytes r
    let chain := m.region (recRcb n)
    let eff := ((chain.getD []).headD (0, {})).2
    if chain.isSome && !(targetRuns sys eff.groves && m.armed eff n) then m
    else if lp.fault.isSome && lp.answer.isNone then m
    else
      let failed := lp.answer.filter fun a => a != 0
      match lpVerdict sys m p chain n failed with
      | .wait => m
      | .far va loc => m.askUnit sys eff.fdom (2 * p) va loc none
      | .post va c k lv =>
        let m := (m.setLport p { lp with fault := some va, answer := none }).openDom eff
        { m with posts := m.posts ++
            [{ fdom := eff.fdom, owner := .port p, cause := c, kind := k, level := lv, fetch := true, write := false, nthr := 0,
               core := portCore, rcb := recRcb n, va := va }] }
      | .reject st c pa =>
        let m := if c = 0x30 then m.logErr 0x30 0 pa else match (if chain.isNone then chainEcc m 8 (recRcb n) [] else none) with
          | some w => m.logErr 0x30 0 w
          | none => m
        let la := launchOf m p n 0 (chain.getD []) (some (st, c))
        let m := (m.lpTake p).unitDone p
        ({ m with launches := m.launches ++ [la], next := m.next + 1 } : Mach).bindHeads
      | .accept kh =>
        let la := launchOf m p n kh (chain.getD []) none
        let hs := hintBytes sys m la
        match (hintsAsk hs).or (profAsk sys m la) with
        | some (va, loc) => m.askUnit sys eff.fdom (2 * p) va loc none
        | none =>
        let ws := (List.range la.nwaves).map (rootWave sys m la)
        let m := ((((m.hintsLog hs).chainFix la.chain).lpTake p).unitDone p).openDom eff
        let m := { m with launches := m.launches ++ [la], waves := m.waves ++ ws, next := m.next + 1 + la.nwaves }
        ((m.bind la.rcb eff).profOpen sys la.id).bindHeads

def execLaunchAccept (p : Nat) := onMach fun sys m => m.launchAccept sys p

/-! ### Retirement (spec/03 R106, R107) -/

/-- Every wave of the launch has exited. -/
def Mach.allExited (m : Mach) (l : Nat) : Bool := (m.waves.filter fun w => w.launch == l).all fun w => w.exited

/-- The launch can retire: rejected, or ended with nothing of it still running, or every wave has exited; and every access
of its threads has performed. -/
def Mach.retirable (m : Mach) (la : Launch) : Bool :=
  !la.retired && (!la.live || (if la.ending.isSome then (m.threads.filter fun t => t.launch == la.id).all fun t =>
      t.stat == .ended && t.pend == [] else m.allExited la.id))

/-- What becomes of the completion record now. -/
inductive CplDo where
  | skip | wait
  | write (loc : Nat)
  | far (key va loc : Nat) (bs : List Byte)
  | ecc (loc : Nat)
  | post (cause kind level : Nat)
deriving DecidableEq, Repr

/-- The completion word of a launch. -/
def Launch.word (la : Launch) : List Byte :=
  let e := la.ending.getD (0, 0)
  toBytes (e.1 + 256 * (e.2 % 256)) 8

/-- The keys under which a launch's TAG and its completion word go to another device, or to the host, in this order. -/
def tagKey (l : Nat) : Nat := 1024 * l + 1000
def wordKey (l : Nat) : Nat := 1024 * l + 1001

/-- A record outside the device is written there, the TAG first; where one of the writes fails, it stays unwritten. -/
def cplFar (sys : Sys) (m : Mach) (la : Launch) (loc : Nat) : CplDo :=
  let st (key va loc : Nat) := farState sys m portCore la.eff.fdom (2 * key + 1) va loc
  match st (tagKey la.id) (la.cplva + 8) (loc + 8) with
  | none => .far (tagKey la.id) (la.cplva + 8) (loc + 8) (toBytes la.tag.toNat 8)
  | some 0 => match st (wordKey la.id) la.cplva loc with
    | none => .far (wordKey la.id) la.cplva loc la.word
    | some 0 => .write loc
    | some c => if c = 0x30 then .ecc loc else .skip
  | some c => if c = 0x30 then .ecc loc else .skip

def cplDo (sys : Sys) (m : Mach) (la : Launch) : CplDo :=
  if la.cplva = 0 || la.cplva % 16 ≠ 0 || la.chain = [] || la.ending.any (fun e => e.1 == 2) then .skip
  else match la.wait with
    | some 1 => .wait
    | some (_ + 3) => .skip
    | _ => match globalAcc sys m portCore la.eff la.cplva 16 .w false false with
      | .ok loc _ _ => if m.away loc then cplFar sys m la loc else if badWrite m loc 16 then .ecc loc else .write loc
      | .park true _ _ _ _ => .wait
      | .park false c k l _ => .post c k l
      | _ => .skip

/-- What a launch held on its way out: threads, waves, records, rings and slots of units (spec/17 R423; spec/09 R264). -/
def Mach.launchGone (m : Mach) (l : Nat) : Mach :=
  let m := m.forgetLaunch l false
  { m with
    threads := m.threads.filter fun t => t.launch != l
    waves := m.waves.filter fun w => w.launch != l
    quarters := m.quarters.filter fun q => q.launch != l
    glades := m.glades.filter fun g => g.launch != l
    flights := m.flights.filter fun f => f.launch != l
    rings := m.rings.filter fun r => r.launch != l
    shares := m.shares.filter fun s => s.launch != l
    pairs := m.pairs.filter fun p => p.launch != l
    cams := m.cams.filter fun c => c.launch != l
    sigs := m.sigs.filter fun s => s.launch != l
    lanes := m.lanes.filter fun x => x.launch != l
    posts := m.posts.filter fun p => p.owner != .retire l }

/-- Retired launches that no engine operation and no collective entry refers to are forgotten. -/
def Mach.purge (m : Mach) : Mach :=
  { m with launches := m.launches.filter fun l => !l.retired || (m.engines.any fun e => e.launch == l.id)
      || (m.colls.any fun c => c.launch == l.id) || m.qpairs.any fun q => q.subs.any fun s => s.launch == l.id }

/-- What a retirement releases for the race checker: each wave of the launch, with its phase. -/
def Mach.waveRels (m : Mach) (la : Launch) : List (Nat × Nat) :=
  if la.eff.race then (m.waves.filter fun w => w.launch == la.id).map fun w => (w.id, w.ph) else []

/-- Step 1 of a retirement (spec/03 R106): the TAG, then the completion word, a release at package scope. -/
def Mach.writeRecord (m : Mach) (la : Launch) (loc : Nat) : Mach :=
  let m := m.store (loc + 8) (toBytes la.tag.toNat 8) (some clearStamp)
  let m := (m.sync 0 6 true false (.loc loc)).store loc la.word (some clearStamp)
  let rs := (m.waveRels la).map fun r => (⟨r.1, r.2, 6, false⟩ : Rel)
  if rs = [] then m else (m.setReleased loc rs).setReleased (loc + 4) rs

/-- Steps 2 to 4 of a retirement (spec/03 R106). -/
def Mach.retireEnd (m : Mach) (la : Launch) : Mach :=
  let ok := la.ending.isNone || la.ending.any fun e => e.1 == 0
  let m := if ok && la.donectr != 0xFFFF then
      (m.waveRels la).foldl (fun m r => m.ctrRelease la.rcb la.donectr r)
        ((m.sync 0 6 true false (.ctr la.rcb la.donectr)).ctrAdd la.rcb la.donectr 1 none)
    else m
  let lp := m.lport la.port
  let m := m.setLport la.port { lp with retired := (lp.retired + 1) % 2 ^ 32 }
  let m := ((m.launchGone la.id).fire (176 + la.port)).modLaunch la.id fun l => { l with retired := true }
  ((m.purge).unbind).bindHeads

/-- The record of the launch is on its way to another device. -/
def Mach.cplAsked (m : Mach) (la : Launch) : Bool :=
  (m.reqs.any fun r => r.who == .unit la.eff.fdom (2 * tagKey la.id + 1) || r.who == .unit la.eff.fdom (2 * wordKey la.id + 1))
    || m.farLines.any fun l => l.core == portCore && (l.tid / 2 == tagKey la.id || l.tid / 2 == wordKey la.id)

/-- A launch retires or is rejected (spec/03 R106). -/
def Mach.launchRetire (sys : Sys) (m : Mach) (l : Nat) : Mach :=
  match m.launch? l with
  | none => m
  | some la =>
    if !m.retirable la then m
    else
      let m := if la.live && la.wait.isNone && !m.cplAsked la then m.profFlush sys l else m
      match cplDo sys m la with
      | .wait => m
      | .skip => m.retireEnd la
      | .write loc => (((m.writeRecord la loc).unitDone (tagKey l)).unitDone (wordKey l)).retireEnd la
      | .far key va loc bs => m.askUnit sys la.eff.fdom (2 * key + 1) va loc (some bs)
      | .ecc loc => (((m.logErr 0x30 0 loc).unitDone (tagKey l)).unitDone (wordKey l)).retireEnd la
      | .post c k lv =>
        let m := (m.modLaunch l fun la => { la with wait := some 1 }).openDom la.eff
        { m with posts := m.posts ++
            [{ fdom := la.eff.fdom, owner := .retire l, cause := c, kind := k, level := lv, fetch := false, write := true, nthr := 0,
               core := portCore, rcb := la.rcb, va := la.cplva }] }

def execLaunchRetire (l : Nat) := onMach fun sys m => m.launchRetire sys l

/-- A pre-emption whose region has no live launch left is over (spec/04 R143). -/
def Mach.preemptEnd (m : Mach) : Mach :=
  { m with preempts := m.preempts.filter fun p => m.live.any fun l => l.rcb == p.rcb && l.ending.isNone }

/-- LP_KILL: the live launches of the port whose TAG matches, but for those whose last wave has exited (spec/03 R107). -/
def Mach.lpKill (m : Mach) (p : Nat) (tag : DWord) : Mach :=
  ((m.live.filter fun l => l.port == p && l.tag == tag && l.ending.isNone && !m.allExited l.id).foldl
    (fun m l => m.endLaunch l.id 8 0) m).preemptEnd

def execLpKill (p : Nat) (tag : DWord) := onMach fun _ m => m.lpKill p tag

/-! ### Dispatch (spec/04 R114-R117) -/

/-- Another live launch holds a grove barrier that this launch names (spec/03 R102). -/
def Mach.grvClash (m : Mach) (la : Launch) (g : Nat) : Bool :=
  m.waves.any fun w => w.launch != la.id && !w.exited && (w.core.any fun k => coreGrove k == g)
    && (m.launch w.launch).grvbar &&& la.grvbar != 0

/-- The wave has room on a core (spec/04 R114), but for its hint. -/
def Mach.roomOn (sys : Sys) (m : Mach) (w : Wave) (core : Nat) : Bool :=
  let la := m.launch w.launch
  decide (core < Config.cores) && tbit la.eff.groves (coreGrove core) && dieRuns sys (coreDie core)
    && (m.coreSt core).power != .c3 && m.budget core la w.galBytes w.scrBytes
    && (scrFit (m.scrHeld core) w.scrBytes).isSome && !m.grvClash la (coreGrove core)

/-- A hint binds while its grove is in the set and has room. -/
def Mach.hintOk (sys : Sys) (m : Mach) (w : Wave) (core : Nat) : Bool :=
  coreGrove core == w.hint || !tbit (m.launch w.launch).eff.groves w.hint || decide (Config.groves ≤ w.hint)
    || !((List.range Config.coresPerGrove).any fun i => m.roomOn sys w (w.hint * Config.coresPerGrove + i))

/-- A wave that waits for a core. -/
def Mach.waiting (m : Mach) (w : Wave) : Bool :=
  w.core.isNone && (m.launch w.launch).live && (m.launch w.launch).ending.isNone && !m.stopped w.launch

/-- CANDIDATES of a core. -/
def Mach.candidates (sys : Sys) (m : Mach) (core : Nat) : List Wave :=
  m.waves.filter fun w => m.waiting w && m.roomOn sys w core && m.hintOk sys w core

/-- Between waves: the one that has waited longest, then the lower index, then the lower port. -/
def Mach.waitKey (m : Mach) (w : Wave) : List Nat := [w.since, w.number, (m.launch w.launch).port]

/-- A glade holds one, two or three fresh quarters that wait at the wave's entry for more (class 1). -/
def Mach.gangHere (sys : Sys) (m : Mach) (core : Nat) (w : Wave) : Bool :=
  let limit := m.ageAt sys core w.launch w.entry
  let fr := m.quarters.filter fun q => q.core == core && q.launch == w.launch && q.pc == w.entry && m.freshWaits limit q
  fr.any fun q => decide ((fr.filter fun u => u.rg == q.rg).length ≤ 3)

/-- The line at the wave's entry is present in the core's instruction cache (class 2). -/
def Mach.cachedHere (m : Mach) (core : Nat) (w : Wave) : Bool :=
  m.ilines.contains (core, (m.eff w.launch).fdom, w.entry.toNat / 64)

/-- The wave that a core's dispatcher takes (spec/04 R115). -/
def Mach.choose (sys : Sys) (m : Mach) (core : Nat) : Option Wave :=
  let cs := m.candidates sys core
  let top := cs.foldl (fun a w => Nat.max a (m.launch w.launch).eff.prio) 0
  let cs := cs.filter fun w => (m.launch w.launch).eff.prio == top
  let longest (l : List Wave) := minBy (fun a b => lexLt (m.waitKey a) (m.waitKey b)) l
  if cs.any fun w => decide (w.since + 65536 < m.cycle) then longest cs
  else if cs.any (m.gangHere sys core) then longest (cs.filter (m.gangHere sys core))
  else if cs.any (m.cachedHere core) then longest (cs.filter (m.cachedHere core)) else longest cs

/-- The first instruction issues no earlier than 32 cycles after the pick (spec/04 R116). -/
def entryDelay : Nat := 32

/-- A thread as its wave enters (spec/03 R108). -/
def entryThread (m : Mach) (w : Wave) (core i : Nat) : Thread :=
  let la := m.launch w.launch
  let tid := w.baseTid + i
  let tls := BitVec.ofNat 64 (la.tlsva.toNat + tid * la.tls)
  { id := m.next + i, tid := tid, launch := w.launch, wave := w.id, core := core, homeQ := i / 8, stat := .waiting, pc := w.entry,
    rg := 8 * w.regs, rgv := 8 * w.regs,
    regs := [w.arg.setWidth 32, (w.arg >>> 32).setWidth 32, tls.setWidth 32, (tls >>> 32).setWidth 32]
      ++ List.replicate (8 * w.regs - 4) 0,
    tlsBase := tls.toNat, tlsTop := tls.toNat, tlsLimit := tls.toNat + la.tls, spawnDepth := w.spawnDepth,
    startAt := m.cycle + entryDelay }

/-- A wave of four quarters enters ganged, each quarter in the chamber where its slice has room, else in the gallery (spec/04 R116,
spec/05 R151). -/
def Mach.enterGang (m : Mach) (w : Wave) (core : Nat) (ids : List Nat) : Mach :=
  let n := m.next
  let qs : List Quarter := (List.range 4).map fun j =>
    { id := n + 1 + j, core := core, launch := w.launch, slots := ((ids.drop (8 * j)).take 8).map some, rg := 8 * w.regs,
      slice := if 256 * w.regs ≤ m.sliceFree core j then some j else none, pc := w.entry, entered := m.cycle,
      readySince := m.cycle, gang := some n, startAt := m.cycle + entryDelay }
  let m := qs.foldl (fun m q => m.modAll q.tids fun t => { t with stat := .run q.id }) m
  { m with quarters := m.quarters ++ qs, next := n + 5 }

/-- A wave of fewer quarters files its threads at its entry (spec/05 R151, R156). -/
def Mach.enterFiled (m : Mach) (w : Wave) (ids : List Nat) : Mach := ids.foldl (fun m id => m.fileAt id w.entry true) m

/-- A wave is placed on a core: its scratch, whose stamps are cleared (spec/06 R197), and its threads; every copy of the core's read
cache is dropped (spec/07 R206). -/
def Mach.place (m : Mach) (w : Wave) (core base : Nat) : Mach :=
  let ts := (List.range (8 * (w.qpw + 1))).map (entryThread m w core)
  let ids := ts.map fun t => t.id
  let w := { w with core := some core, scrBase := base }
  let m := ((m.setWave w).stampRange w.scrAt w.scrBytes clearStamp).dropCopies core
  let m := { m with
    threads := m.threads ++ ts, next := m.next + ts.length
    dispatchAt := put m.dispatchAt (coreGrove core) m.cycle }
  (if w.qpw = 3 then m.enterGang w core ids else m.enterFiled w ids).wakeCore core

/-- WAVE_DISPATCH: the core's grove dispatcher places a wave, at most one every 4 cycles. -/
def Mach.dispatch (sys : Sys) (m : Mach) (core : Nat) : Mach :=
  if (m.dispatchAt.find? fun d => d.1 == coreGrove core).any fun d => decide (m.cycle < d.2 + 4) then m
  else match m.choose sys core with
    | none => m
    | some w => match scrFit (m.scrHeld core) w.scrBytes with
      | none => m
      | some base => m.place w core base

def execWaveDispatch (core : Nat) := onMach fun sys m => m.dispatch sys core

end Sys2Proof.Machine
end

