-- ==== Sys2Proof/Machine/Preemption.lean ====
section
/-! DEFINITION. The quiescence tree (spec/04 R134, R135) and pre-emption of a region (spec/04 R136-R143). -/

namespace Sys2Proof.Machine

/-! ### Requests (spec/04 R136, R137) -/

def Mach.preempt? (m : Mach) (rcb : Nat) : Option Preempt := m.preempts.find? fun p => p.rcb == rcb
def Mach.setPreempt (m : Mach) (p : Preempt) : Mach :=
  { m with preempts := p :: m.preempts.filter fun u => u.rcb != p.rcb }

/-- Live launches of a region that are not ending. -/
def Mach.regionLaunches (m : Mach) (rcb : Nat) : List Launch := m.live.filter fun l => l.rcb == rcb && l.ending.isNone

/-- A 32-bit field of the save area's header (spec/04 R141). -/
def Mach.saveHead (sys : Sys) (m : Mach) (e : Eff) (off : Nat) (bs : List Byte) : Mach :=
  m.devWriteVa sys portCore e (e.saveva + off) bs

/-- A request to pre-empt a region: ignored without a save area, and for a region that is being saved or is saved; a timer's is kept
while the region is restored (spec/04 R143). -/
def Mach.requestPreempt (sys : Sys) (m : Mach) (rcb reason : Nat) : Mach :=
  match m.regionLaunches rcb with
  | [] => m
  | l :: _ =>
    if l.eff.saveva = 0 then m
    else match m.preempt? rcb with
    | some p => if p.stage = 3 ∧ reason = 0 then m.setPreempt { p with again := true } else m
    | none =>
      (m.setPreempt { rcb := rcb, reason := reason, since := m.cycle, saveva := l.eff.saveva }).saveHead sys l.eff 0 (toBytes 1 4)

/-- A write of PREEMPT names a 128-byte-aligned block (spec/02 R92). -/
def Mach.preemptReg (sys : Sys) (m : Mach) (v : Nat) : Mach := if v % 128 = 0 then m.requestPreempt sys v 2 else m

def execPreemptWrite (v : DWord) := onMach fun sys m => m.preemptReg sys v.toNat

/-- A launch holds a core in a set of groves. -/
def Mach.holdsIn (m : Mach) (l : Launch) (groves : Nat) : Bool :=
  m.waves.any fun w => w.launch == l.id && !w.exited && !m.isSaved l.rcb && w.core.any fun k => tbit groves (coreGrove k)

/-- The highest-priority wave that waits for a core of a grove, the longest of them first. -/
def Mach.topWaiting (m : Mach) (g : Nat) : Option Wave :=
  let ws := m.waves.filter fun w => m.waiting w && tbit (m.launch w.launch).eff.groves g
  minBy (fun a b => lexLt ((15 - (m.launch a.launch).eff.prio) :: m.waitKey a) ((15 - (m.launch b.launch).eff.prio) :: m.waitKey b)) ws

/-- The wave has room on some core. -/
def Mach.roomSome (sys : Sys) (m : Mach) (w : Wave) : Bool :=
  ((m.launch w.launch).eff.cores.any fun k => m.roomOn sys w k)

/-- A dispatcher's request: the highest-priority waiting wave has waited 16,384 cycles without room, launches of lower
priority hold cores that it could use, and no earlier request of a dispatcher is still being saved. The victim is the region of
lowest priority, between equals the one accepted latest; one that is never pre-empted is left as it is (spec/04 R136). -/
def Mach.dispatchRequest (sys : Sys) (m : Mach) (g : Nat) : Mach :=
  match m.topWaiting g with
  | none => m
  | some w =>
    let la := m.launch w.launch
    let ls := m.live.filter fun l => decide (l.eff.prio < la.eff.prio) && m.holdsIn l la.eff.groves
    if m.cycle < w.since + 16384 || m.roomSome sys w || (m.preempts.any fun p => p.reason == 1 && p.stage == 1) then m
    else match minBy (fun a b : Launch => lexLt [a.eff.prio, m.next - a.order] [b.eff.prio, m.next - b.order]) ls with
      | none => m
      | some v => m.requestPreempt sys v.rcb 1

def execDispatchPreemptRequest (g : Nat) := onMach fun sys m => m.dispatchRequest sys g

/-! ### Quiescence (spec/04 R134, R135) -/

def Mach.lane? (m : Mach) (l : Nat) : Option Lane := m.lanes.find? fun x => x.launch == l
def Mach.setLane (m : Mach) (x : Lane) : Mach := { m with lanes := m.lanes.map fun u => if u.launch == x.launch then x else u }

/-- A lane whose AND has been true for 96 consecutive cycles. -/
def Mach.laneTrue (sys : Sys) (m : Mach) (x : Lane) : Bool :=
  m.idle sys x.launch && x.since.any fun t => decide (t + 96 ≤ m.cycle)

/-- The drain of a launch is declared: its lane is free. -/
def Mach.declare (m : Mach) (l : Nat) : Mach :=
  let m := { m with lanes := m.lanes.filter fun x => x.launch != l }
  match m.preempt? (m.launch l).rcb with
  | some p => m.setPreempt { p with drained := p.drained ++ [l] }
  | none => m

/-- A domain barrier that the launch holds, whose root is this device and counts arrivals of others, with those devices: the first that
the launch's lane has not swept. -/
def Mach.sweepOf (sys : Sys) (m : Mach) (l : Nat) : Option (Nat × List Nat) :=
  (m.bars.find? fun b => b.level == 5 && b.place == sys.devid && tbit (m.launch l).dombar b.num
      && (b.remote.any fun r => r.1 != sys.devid) && !(m.lane? l).any fun x => x.swept.contains b.num).map fun b =>
    (b.num, sortBy (fun a b : Nat => decide (a ≤ b)) ((b.remote.map fun r => r.1).eraseDups.filter fun d => d != sys.devid))

/-- QUIESCENCE_DRAIN_DETECT: a launch of a region that is being saved takes a free lane; one whose lane has been true for 96
cycles is drained, unless a sweep of its domain has to confirm it. -/
def Mach.drainDetect (sys : Sys) (m : Mach) (l : Nat) : Mach :=
  match m.preempt? (m.launch l).rcb with
  | none => m
  | some p =>
    if p.stage ≠ 1 || !(m.launch l).live || p.drained.contains l then m
    else match m.lane? l with
      | none => if m.lanes.length < 4 then { m with lanes := m.lanes ++ [{ launch := l }] } else m
      | some x => if m.laneTrue sys x && (m.sweepOf sys l).isNone then m.declare l else m

def execQuiescenceDrainDetect (l : Nat) := onMach fun sys m => m.drainDetect sys l

/-- This device's result for a domain barrier: every live launch that holds it is drained, or would be. -/
def Mach.drainedHere (sys : Sys) (m : Mach) (num : Nat) : Bool :=
  (m.live.filter fun l => tbit l.dombar num).all fun l =>
    (m.preempts.any fun p => p.drained.contains l.id) || (m.lane? l.id).any (m.laneTrue sys)

/-- A port that holds a sweep token for this device. -/
def Sys.tokenAt (sys : Sys) : Option (Nat × Nat × Bool × List Nat) :=
  (List.range fabricPorts).findSome? fun n => match sys.inHead n 0 with
    | some x => if x.dst = sys.devid then match x.body with
        | .drainToken num all left => some (n, num, all, left)
        | _ => none
      else none
    | none => none

/-- A sweep token arrives: its device adds its own result and sends it on; back at the root a true one confirms the drain, and after a
false one the sweep is repeated. -/
def Mach.tokenCome (sys : Sys) (m : Mach) (num : Nat) (all : Bool) (left : List Nat) : Mach :=
  match left with
  | d :: r => { m with out := m.out ++ [⟨sys.devid, d, 0, 0, .drainToken num (all && m.drainedHere sys num) r⟩] }
  | [] =>
    let ls := m.lanes.filter fun x => x.sweep && tbit (m.launch x.launch).dombar num
    ls.foldl (fun m x =>
      m.setLane { x with sweep := false, swept := if all && m.laneTrue sys x then x.swept ++ [num] else x.swept }) m

/-- DRAIN_SWEEP_TOKEN: a token that has arrived is dealt with; else the launch's sweep sets out from its root device. -/
def execDrainSweepToken (l : Nat) := onAll fun sys m =>
  match sys.tokenAt with
  | some (n, num, all, left) => (sys.inDrop n 0, m.tokenCome sys num all left)
  | none => match m.lane? l, m.sweepOf sys l with
    | some x, some (num, d :: r) =>
      if x.sweep || !m.laneTrue sys x then (sys, m)
      else
        let m := m.setLane { x with sweep := true }
        (sys, { m with out := m.out ++ [⟨sys.devid, d, 0, 0, .drainToken num true (r ++ [sys.devid])⟩] })
    | _, _ => (sys, m)

/-! ### Saving (spec/04 R138, R139, R141) -/

/-- Waves of a region that hold a place. -/
def Mach.regionWaves (m : Mach) (rcb : Nat) : List Wave :=
  m.waves.filter fun w => (m.launch w.launch).rcb == rcb && w.core.isSome && !w.exited

/-- Bytes of a slot of the save area. -/
def slotBytes : Nat := 0xC0000

/-- A slot of the save area takes contents in a device format: free values (log 4). -/
def Mach.saveSlot (sys : Sys) (m : Mach) (e : Eff) (k : Nat) : Mach :=
  let n := m.free
  let m := (List.range (slotBytes / 4)).foldl (fun m i =>
    m.saveHead sys e (0x1000 + slotBytes * k + 4 * i) (toBytes (Config.freeWord (n + i)).toNat 4)) m
  { m with free := n + slotBytes / 4 }

/-- What a wave's scratch holds. -/
def Mach.scrSave (m : Mach) (w : Wave) : SavedScr :=
  let a := w.scrAt
  let n := w.scrBytes
  { wave := w.id, bytes := m.bytes a n, stamps := (List.range (n / 64)).map fun i => m.stamp (a / 64 + i),
    rel := (m.relAt.filter fun r => decide (a ≤ 4 * r.1) && decide (4 * r.1 < a + n)).map fun r => (r.1 - a / 4, r.2) }

/-- Quarters of a region that wait at a tile operation go back to it; partners of an `mmaj` leave their sets (spec/04 R124, spec/16
R396). -/
def Mach.withdrawTiles (m : Mach) (mine : Nat → Bool) : Mach :=
  let waits := m.quarters.filter fun q => mine q.launch && (match q.wait with
    | some (.tile _) => true
    | some (.mmaj _) => true
    | _ => false)
  let isss := ((m.flights.filter fun f => waits.any fun q => q.id == f.qid).map fun f => f.iss).eraseDups
  isss.foldl (fun m i =>
    let m := m.mmajs.foldl (fun m s =>
      if s.partners.any fun p => p.uid == i then m.leaveSet s.id (s.partners.filter fun p => p.uid != i) else m) m
    m.withdrawIssue i) m

/-- PREEMPT_SAVE: a region whose drain is declared leaves its cores: step 5 and step 7 of spec/04 R138. Arrivals that a domain's root has
not been sent are saved with those of the device's own nodes (R133). A record of the sump that holds threads of another region too is saved whole
(DESIGN CHOICE, log 141). -/
def Mach.save (sys : Sys) (m : Mach) (p : Preempt) : Mach :=
  let ls := m.regionLaunches p.rcb
  let ids := ls.map fun l => l.id
  let mine (l : Nat) : Bool := ids.contains l
  let e := (ls.headD {}).eff
  let ws := m.regionWaves p.rcb
  let ks := (ws.filterMap fun w => w.core).eraseDups
  let cs := e.cores
  let groups := (m.traps.filter fun g => mine g.launch).map fun g => g.id
  let engs := m.engines.filter fun o => mine o.launch
  let m := m.withdrawTiles mine
  let own (b : BarNode) : Bool := decide (b.level ≤ 3) && mine b.launch
  let p : Preempt := { p with
    stage := 2, savedAt := m.cycle, scr := ws.map m.scrSave
    tiles := m.tiles.filter fun t => t.holder.any mine
    pairs := m.pairs.filter fun x => mine x.launch
    cams := m.cams.filter fun x => mine x.launch
    sigs := m.sigs.filter fun x => mine x.launch
    shares := m.shares.filter fun x => mine x.launch
    rings := m.rings.filter fun x => mine x.launch
    sump := m.sump.filter fun r => r.threads.any fun t => mine (m.thr t).launch
    engines := engs.map fun o => { o with fault := none, answer := none }
    ranges := m.ranges.filter fun r => engs.any fun o => o.id == r.op
    alcoves := (m.cores.filter fun c => c.alcove.any groups.contains).map fun c => (c.core, c.alcove.getD 0)
    bars := m.bars.filter own
    barMsgs := m.barMsgs.filter fun b => mine b.launch }
  let recs := p.sump.map fun r => r.id
  let m := { m with
    tiles := m.tiles.filter fun t => !t.holder.any mine
    pairs := m.pairs.filter fun x => !mine x.launch
    cams := m.cams.filter fun x => !mine x.launch
    sigs := m.sigs.filter fun x => !mine x.launch
    shares := m.shares.filter fun x => !mine x.launch
    rings := m.rings.filter fun x => !mine x.launch
    sump := m.sump.filter fun r => !recs.contains r.id
    engines := m.engines.filter fun o => !mine o.launch
    ranges := m.ranges.filter fun r => !engs.any fun o => o.id == r.op
    posts := m.posts.filter fun q => !(match q.owner with
      | .sump r => recs.contains r
      | .engine o => engs.any fun u => u.id == o
      | _ => false)
    lanes := m.lanes.filter fun x => !mine x.launch
    bars := m.bars.filter fun b => !own b
    barMsgs := m.barMsgs.filter fun b => !mine b.launch
    quarters := m.quarters.map fun (q : Quarter) => if mine q.launch then { q with slice := none, readySince := m.cycle } else q
    cores := m.cores.map fun (c : CoreSt) => if c.alcove.any groups.contains then { c with alcove := none } else c }
  let m := ks.foldl (fun m k => m.saveSlot sys e (cs.findIdx fun c => c == k)) m
  let m := m.saveHead sys e 8 (toBytes p.reason 4 ++ toBytes ks.length 4 ++ toBytes (m.cycle - p.since) 8)
  ((m.saveHead sys e 0 (toBytes 2 4)).setPreempt p).preemptEnd

def execPreemptSave (rcb : Nat) := onMach fun sys m =>
  match m.preempt? rcb with
  | none => m
  | some p =>
    if p.stage = 1 && (m.regionLaunches rcb).all fun l => p.drained.contains l.id then m.save sys p else m

/-! ### Resuming (spec/04 R142) -/

/-- What a region holds of a scratchpad: a wave's scratch, a frame, a buffer. -/
inductive ScrItem where
  | wave (id : Nat) | frame (tid : Nat) | buffer (call : Nat)
deriving DecidableEq, Repr

/-- Items of a region in scratchpads: core, launch, bytes, item. -/
def Mach.scrItems (m : Mach) (rcb : Nat) : List (Nat × Nat × Nat × ScrItem) :=
  let mine (l : Nat) : Bool := (m.launch l).rcb == rcb
  ((m.regionWaves rcb).map fun w => (w.core.getD 0, w.launch, w.scrBytes, .wave w.id))
    ++ ((m.threads.filter fun t => mine t.launch && t.isCallee).filterMap fun t => match t.place with
      | .scratch _ => some (t.core, t.launch, t.frameBytes, .frame t.id)
      | _ => none)
    ++ (m.calls.filter fun c => mine c.launch).filterMap fun c => match c.bufAt with
      | .scratch _ => some (c.core, c.launch, c.bufBytes, .buffer c.id)
      | _ => none

/-- Scratch places for the items on their own cores, one after another. -/
def scrPlaces (m : Mach) : List (Nat × Nat × Nat × ScrItem) → List (Nat × Nat × Nat × Nat) → Option (List (ScrItem × Nat))
  | [], _ => some []
  | (k, l, n, x) :: r, done =>
    match scrFit (m.scrHeld k ++ (done.filter fun d => d.1 == k).map fun d => d.2) n with
    | none => none
    | some b => (scrPlaces m r (done ++ [(k, l, b, n)])).map fun ps => (x, b) :: ps

/-- An item has a new place. -/
def Mach.scrMove (m : Mach) (x : ScrItem × Nat) : Mach :=
  match x.1 with
  | .wave w => m.modWave w fun w => { w with scrBase := x.2 }
  | .frame t => m.modThr t fun t => { t with place := .scratch x.2 }
  | .buffer c => match m.call? c with
    | some c => m.setCall { c with bufAt := .scratch x.2 }
    | none => m

/-- Every core that the region left has room for what it held there: waves, frames and buffers (spec/03 R113, spec/04 R142). -/
def Mach.roomBack (m : Mach) (p : Preempt) : Bool :=
  let back := m.setPreempt { p with stage := 3 }
  let ls := m.regionLaunches p.rcb
  let ks := ((m.regionWaves p.rcb).filterMap fun w => w.core).eraseDups
  (ks.all fun k => ls.all fun l => back.budget k l 0 0 && l.chain.all fun b => decide (back.framesUsed k b.1 ≤ b.2.frames))
    && (p.rings.all fun r => !m.rings.any fun u => u.core == r.core && u.num == r.num)
    && (p.shares.all fun s => decide ((m.shares.filter fun u => u.grove == s.grove).length < 8))
    && (p.alcoves.all fun a => (m.coreSt a.1).alcove.isNone)

/-- A waiting wave of higher priority waits for one of the region's cores. -/
def Mach.outranked (m : Mach) (p : Preempt) : Bool :=
  let prio := ((m.regionLaunches p.rcb).headD {}).eff.prio
  let gs := ((m.regionWaves p.rcb).filterMap fun w => w.core.map coreGrove).eraseDups
  m.waves.any fun w => m.waiting w && decide (prio < (m.launch w.launch).eff.prio)
    && gs.any fun g => tbit (m.launch w.launch).eff.groves g

/-- A wave's scratch is written back at its new place. -/
def Mach.scrBack (m : Mach) (p : Preempt) (w : Wave) : Mach :=
  match p.scr.find? fun s => s.wave == w.id with
  | none => m
  | some s =>
    let a := w.scrAt
    let m := { m with mem := m.mem.put a s.bytes }
    let m := (enum s.stamps).foldl (fun m x => m.setStamp (a / 64 + x.1) x.2) m
    { m with relAt := (m.relAt.filter fun r => !(decide (a ≤ 4 * r.1) && decide (4 * r.1 < a + s.bytes.length)))
        ++ s.rel.map fun r => (a / 4 + r.1, r.2) }

/-- Cycles spent saved are not counted by waits and by glades (spec/05 R152, spec/08 R235). -/
def Mach.shiftTimes (m : Mach) (ids : List Nat) (d : Nat) : Mach :=
  { m with
    threads := m.threads.map fun t => if ids.contains t.launch then { t with waitSince := t.waitSince.map fun c => c + d } else t
    glades := m.glades.map fun g =>
      if ids.contains g.launch then { g with threads := g.threads.map fun x => (x.1, x.2 + d) } else g
    quarters := m.quarters.map fun q =>
      if ids.contains q.launch then { q with fresh := q.fresh.map fun c => c + d, readySince := m.cycle } else q }

/-- Completions of system calls that were kept for the region are applied (spec/02 R87). -/
def Mach.keptBack (m : Mach) (ids : List Nat) : Mach :=
  (enum m.sysqs).foldl (fun m q => q.2.kept.foldl (fun m x =>
    match q.2.slots.find? fun s => s.1 == x.1 with
    | some s => if ids.contains (m.thr s.2.1).launch then m.sysApply q.1 x.1 x.2 else m
    | none => m) m) m

/-- The glades of a core are no more than it has: those filed first leave (spec/05 R153). -/
def Mach.trimGlades (sys : Sys) (m : Mach) (core : Nat) : Mach :=
  if (m.glades.filter fun g => g.core == core && !m.savedLaunch g.launch).length + (m.freshKeys sys core).length ≤ Config.glades then m
  else m.freeGlade sys core

/-- An uncorrectable word of a slot of the save area. -/
def Mach.slotBad (sys : Sys) (m : Mach) (e : Eff) (k : Nat) : Option Nat :=
  m.eccDouble.find? fun w => (List.range (slotBytes / 4096)).any fun i =>
    match globalAcc sys m portCore e (e.saveva + 0x1000 + slotBytes * k + 4096 * i) 1 .r false false with
    | .ok loc _ _ => decide (loc ≤ w) && decide (w < loc + 4096)
    | _ => false

/-- Threads whose contexts lie in a slot with an uncorrectable word take 0x30 at their first issue (spec/08 R238). -/
def Mach.slotCheck (sys : Sys) (m : Mach) (e : Eff) (launches : List Nat) (core : Nat) : Mach :=
  match m.slotBad sys e (e.cores.findIdx fun c => c == core) with
  | none => m
  | some w =>
    let ts := m.threads.map fun t => if launches.contains t.launch ∧ t.core = core then { t with ctxBad := true } else t
    { (m.logErr 0x30 core w) with threads := ts }

/-- The slots of a saved region are restored (stage 3): its header holds 3, and its quarters do not issue yet. -/
def Mach.restore (sys : Sys) (m : Mach) (p : Preempt) (ps : List (ScrItem × Nat)) : Mach :=
  let ids := (m.regionLaunches p.rcb).map fun l => l.id
  let e := ((m.regionLaunches p.rcb).headD {}).eff
  let ks := ((m.regionWaves p.rcb).filterMap fun w => w.core).eraseDups
  let m := ks.foldl (fun m k => m.slotCheck sys e ids k) ((ps.foldl Mach.scrMove m).saveHead sys e 0 (toBytes 3 4))
  let m := (m.regionWaves p.rcb).foldl (fun m w => m.scrBack p w) m
  let m := { m with
    tiles := p.tiles ++ m.tiles.filter fun (t : Tile) => !p.tiles.any fun u => u.core == t.core && u.t == t.t
    pairs := p.pairs ++ m.pairs.filter fun (t : PairTab) => !p.pairs.any fun u => u.core == t.core && u.p == t.p
    cams := p.cams ++ m.cams.filter fun (t : Cam) => !p.cams.any fun u => u.core == t.core
    sigs := p.sigs ++ m.sigs.filter fun (t : SigSlot) => !p.sigs.any fun u => u.grove == t.grove && u.slot == t.slot
    shares := p.shares ++ m.shares
    rings := p.rings ++ m.rings
    engines := m.engines ++ p.engines
    ranges := m.ranges ++ p.ranges
    bars := m.bars ++ p.bars
    barMsgs := m.barMsgs ++ p.barMsgs }
  let m := p.alcoves.foldl (fun m a => m.modCore a.1 fun c => { c with alcove := some a.2 }) m
  let m := (ks.foldl Mach.dropCopies (m.shiftTimes ids (m.cycle - p.savedAt))).setPreempt { p with stage := 3 }
  ks.foldl (fun m k => (List.range m.glades.length).foldl (fun m _ => m.trimGlades sys k) m) m

/-- The resume of a region completes: parked accesses replay, kept completions are applied, its header holds 0, and dispatch of its
waves begins again; a timer's request that came meanwhile is handled (spec/04 R142, R143). -/
def Mach.resume (sys : Sys) (m : Mach) (p : Preempt) : Mach :=
  let ls := m.regionLaunches p.rcb
  let ids := ls.map fun l => l.id
  let m := { m with preempts := m.preempts.filter fun u => u.rcb != p.rcb }
  let m := p.sump.foldl (fun m r =>
    let r := { r with threads := r.threads.filter fun t => (m.thr? t).isSome }
    ({ m with sump := m.sump ++ [r] } : Mach).resumeRec r r.answer.join) m
  let m := (m.keptBack ids).saveHead sys (ls.headD {}).eff 0 (toBytes 0 4)
  if p.again then m.requestPreempt sys p.rcb 0 else m

/-- REGION_RESUME: a saved region whose cores have room is restored, and then runs on. -/
def execRegionResume (rcb : Nat) := onMach fun sys m =>
  match m.preempt? rcb with
  | none => m
  | some p =>
    if p.stage = 3 then m.resume sys p
    else if p.stage ≠ 2 || !m.roomBack p || m.outranked p then m
    else match scrPlaces m (m.scrItems rcb) [] with
      | none => m
      | some ps => m.restore sys p ps

end Sys2Proof.Machine
end

