-- ==== Sys2Proof/Machine/Sha.lean ====
section
/-! DEFINITION. SHA-384, which the boot ROM computes over an image (spec/02 R70 step 5). The digest is the standard's
(PRESUMED, log 33): its constants are the fractional bits of roots of the first primes. -/

namespace Sys2Proof.Machine

/-- The largest `r` below `2 ^ k` more than `acc` whose power `p` does not exceed `n`. -/
def rootAt (p n : Nat) : Nat → Nat → Nat
  | 0, acc => acc
  | k + 1, acc => if (acc + 2 ^ k) ^ p ≤ n then rootAt p n k (acc + 2 ^ k) else rootAt p n k acc

/-- The first primes, by trial division of the numbers from 2. -/
def shaPrimes : List Nat := (List.range 410).filter fun n =>
  decide (2 ≤ n) && (List.range n).all fun d => decide (d < 2) || n % d != 0

/-- The first 64 fractional bits of the square or cube root of a prime. -/
def fracRoot (p n : Nat) : Nat := rootAt p (n * 2 ^ (64 * p)) 72 0 % 2 ^ 64

def shaK : List Nat := shaPrimes.map (fracRoot 3)
def shaInit : List Nat := ((shaPrimes.drop 8).take 8).map (fracRoot 2)

def rotr64 (x n : Nat) : Nat := x / 2 ^ n + x % 2 ^ n * 2 ^ (64 - n)
def xor3 (a b c : Nat) : Nat := a ^^^ b ^^^ c
def add64 (a b : Nat) : Nat := (a + b) % 2 ^ 64

/-- One 64-bit word, most significant byte first. -/
def word64 (bs : List Byte) : Nat := bs.foldl (fun a b => a * 256 + b.toNat) 0

/-- The message schedule: the latest words first. -/
def shaSchedule : Nat → List Nat → List Nat
  | 0, w => w
  | k + 1, w =>
    let a := nth w 1
    let b := nth w 14
    let s1 := xor3 (rotr64 a 19) (rotr64 a 61) (a / 2 ^ 6)
    let s0 := xor3 (rotr64 b 1) (rotr64 b 8) (b / 2 ^ 7)
    shaSchedule k (add64 (add64 s1 (nth w 6)) (add64 s0 (nth w 15)) :: w)

def shaRound (h : List Nat) (k w : Nat) : List Nat :=
  match h with
  | [a, b, c, d, e, f, g, i] =>
    let t1 := add64 (add64 (add64 i (xor3 (rotr64 e 14) (rotr64 e 18) (rotr64 e 41)))
      (add64 ((e &&& f) ^^^ ((2 ^ 64 - 1 - e) &&& g)) k)) w
    let t2 := add64 (xor3 (rotr64 a 28) (rotr64 a 34) (rotr64 a 39)) (xor3 (a &&& b) (a &&& c) (b &&& c))
    [add64 t1 t2, a, b, c, add64 d t1, e, f, g]
  | h => h

def shaBlock (h : List Nat) (block : List Byte) : List Nat :=
  let ws := (List.range 16).map fun i => word64 ((block.drop (8 * i)).take 8)
  let all := (shaSchedule 64 ws.reverse).reverse
  let r := (shaK.zip all).foldl (fun h kw => shaRound h kw.1 kw.2) h
  (h.zip r).map fun p => add64 p.1 p.2

def shaPad (msg : List Byte) : List Byte :=
  let n := msg.length
  let z := (111 + 128 - n % 128) % 128
  msg ++ [0x80] ++ List.replicate z 0 ++ (toBytes (8 * n) 16).reverse

def shaBlocks : Nat → List Nat → List Byte → List Nat
  | 0, h, _ => h
  | k + 1, h, bs => shaBlocks k (shaBlock h (bs.take 128)) (bs.drop 128)

/-- The digest of a message. -/
def sha384 (msg : List Byte) : List Byte :=
  let p := shaPad msg
  ((shaBlocks (p.length / 128) shaInit p).take 6).flatMap fun w => (toBytes w 8).reverse

end Sys2Proof.Machine
end

