-- ==== Sys2Proof/Machine/Package.lean ====
section
/-! DEFINITION. The package: reset and boot (spec/02 R70-R72), power and clocks (spec/01 R10-R12), power states of cores and
groves (spec/02 R89-R91), the patrol (spec/06 R201) and the I3C target (spec/02 R94). -/

namespace Sys2Proof.Machine

/-! ### Reset and boot (spec/02 R70, R71) -/

/-- A location outside the package: the memories behind its CXL and PCIe ports, and other devices. -/
def outside (loc : Nat) : Bool :=
  isRem loc || (match pkind loc with
    | .pcie _ => true
    | .cxl => true
    | _ => false)

/-- RESET_N_ASSERT: every register and every SRAM of the package falls back into reset; fuses and flash stay, and so does what stands
outside the package. -/
def resetAll (sys : Sys) (m : Mach) : Sys × Mach :=
  ({ pe0pin := sys.pe0pin, idpins := sys.idpins, fuses := sys.fuses, flash := sys.flash },
    { free := m.free, next := m.next, mem := m.mem.filter fun c => outside c.1 })

def execResetNAssert := onAll fun sys m => resetAll sys m

/-- Fields of a boot image's header. -/
def bootMagic : Nat := 0x36345143
def bootLen (n : Nat) : Nat := bits n 128 64
def bootEntry (n : Nat) : Nat := bits n 192 64

/-- A header with a valid MAGIC that passes the other checks of spec/02 R71. -/
def bootOk (n : Nat) : Bool :=
  bits n 256 256 == 0 && bits n 64 64 == 0 && bits n 32 32 == 1 && bits n 0 32 == bootMagic
    && bootLen n % 64 == 0 && decide (128 ≤ bootLen n) && decide (bootLen n ≤ 2 ^ 30)
    && bootEntry n % 4 == 0 && decide (64 ≤ bootEntry n) && decide (bootEntry n < bootLen n)

/-- The boot has failed: BOOTSTS.ERR is set and every hart is halted. -/
def bootFail (sys : Sys) : Sys := { sys with bootErr := true, harts := List.replicate 16 .halted }

/-- BOOTSTS (spec/02 R92). -/
def bootsts (sys : Sys) (m : Mach) : Nat :=
  (if m.pe0ep then 1 else 0) + (if sys.bootHost then 2 else 0) + (if sys.bootErr then 4 else 0)

/-- The image is copied to the cavern, its digest compared, and hart 0 jumps to its entry; the other harts stay in `wfi`. -/
def bootImage (sys : Sys) (m : Mach) (img : List Byte) (entry : Nat) : Sys × Mach :=
  let m := m.devStore Config.cavernBase img
  if sys.fuses.any (fun b => b != 0) && sha384 img != sys.fuses.take 48 then (bootFail sys, m)
  else ({ sys with harts := modAt sys.harts 0 fun _ => .run (Config.cavernBase + entry) 0 (bootsts sys m) }, m)

/-- Bytes of the flash from its start; beyond what it holds it reads as zero. -/
def flashBytes (sys : Sys) (n : Nat) : List Byte := (List.range n).map fun i => sys.flash.getD i 0

/-- The boot ROM on hart 0, up to the image's entry or to the wait for the host. -/
def bootRom (sys : Sys) (m : Mach) : Sys × Mach :=
  let n := ofBytes (flashBytes sys 64)
  if bits n 0 32 ≠ bootMagic then if m.pe0ep then (sys, m) else (bootFail sys, m)
  else if !bootOk n then (bootFail sys, m)
  else bootImage sys m (flashBytes sys (bootLen n)) (bootEntry n)

/-- RESET_N_RELEASE: the straps PE0_EP and DEVID[11:0] are sampled (spec/01 R28, spec/13 R335), the cavern is zeroed, links begin to train (spec/02 R72), every hart starts, and hart 0 runs the ROM. -/
def execResetNRelease := onAll fun sys m =>
  if sys.powerGood then (sys, m)
  else
    let inside (w : Nat) : Bool := inCavern w 1
    let m := { m with
      pe0ep := sys.pe0pin
      mem := m.mem.filter fun c => !inside c.1
      eccSingle := m.eccSingle.filter fun w => !inside w
      eccDouble := m.eccDouble.filter fun w => !inside w }
    let sys := { sys with
      powerGood := true, devid := sys.idpins.toNat, harts := .rom :: List.replicate 15 .wfi
      fports := sys.fports.map fun (p : FPort) => { p with state := 1 }
      cports := sys.cports.map fun (p : CPort) => { p with state := 1 } }
    bootRom sys m

/-- Where a mailbox stands. -/
def mboxAt (k : Nat) : Nat := Config.mailboxBase + 0x1000 * k

/-- A read of the boot ROM that the host completes with an error, or not at all, gives hart 0 an access fault (spec/01 R32, spec/02 R93).
DESIGN CHOICE (log 148): the boot has failed then; spec/02 R70 does not say what the ROM does. -/
def romFault (sys : Sys) (loc : Nat) : Sys := { bootFail sys with hartFaults := sys.hartFaults ++ [(0, loc)] }

/-- BOOT_HOST_IMAGE_LOAD: hart 0 waits in the ROM, and the host has rung mailbox 0. -/
def execBootHostImageLoad := onAll fun sys m =>
  if sys.harts.getD 0 .reset ≠ .rom || !m.pe0ep || (sys.mboxes.getD 0 {}).inbell == 0 then (sys, m)
  else
    let addr := m.num (mboxAt 0 + 0x100) 8
    let len := m.num (mboxAt 0 + 0x108) 8
    let m := { m with hostwin := addr / 4096 * 4096 }
    let sys := { sys with bootHost := true, mboxes := modAt sys.mboxes 0 fun b => { b with inbell := 0 } }
    let at_ := Config.pcie0Base + addr % 4096
    let n := m.num at_ 64
    let bad (k : Nat) : Option Nat := (List.range ((at_ % 64 + k + 63) / 64)).findSome? fun i =>
      if m.cxlBad ((at_ / 64 + i) * 64) then some ((at_ / 64 + i) * 64) else none
    match bad 64 with
    | some l => (romFault sys l, m.logErr 0x30 0 l)
    | none =>
      if !bootOk n || bootLen n ≠ len then (bootFail sys, m)
      else match bad len with
        | some l => (romFault sys l, m.logErr 0x30 0 l)
        | none => bootImage sys m (m.bytes at_ len) (bootEntry n)

/-! ### Power and temperature (spec/01 R11, R12) -/

/-- The clock in steps of 50 MHz between 1.0 and 1.7 GHz. -/
def clkDown (f : Nat) : Nat := Nat.max 1000 (f - 50)
def clkUp (f : Nat) : Nat := Nat.min 1700 (f + 50)

/-- Route entry 208 fires as throttling of a kind begins or ends. -/
def throtFire (m : Mach) (old new : Bool) : Mach := if old = new then m else m.fire 208

/-- POWER_SAMPLE: the average of the last millisecond of samples, each of 10 us, against the power limit. DESIGN CHOICE (log 132):
before 100 samples have come the average is that of the samples there are; the spec does not say what it is in the first
millisecond. -/
def execPowerSample (mw : DWord) (rails : List DWord) := onAll fun sys m =>
  if !sys.powerGood then (sys, m)
  else
    let win := (sys.pwrWindow ++ [mw.toNat]).drop (sys.pwrWindow.length + 1 - 100)
    let avg := win.sum / win.length
    let high := decide (1000 * sys.plimit < avg)
    let low := decide (100 * avg < 95 * (1000 * sys.plimit))
    let thr := high || (sys.throtPwr && !low)
    ({ sys with
        pwrWindow := win, pkgPwr := avg, rails := (List.range 4).map fun i => (rails.getD i 0).toNat, throtPwr := thr
        clkf := if high then clkDown sys.clkf else if low && !sys.throtTherm then clkUp sys.clkf else sys.clkf },
      throtFire m sys.throtPwr thr)

/-- THERMAL_THROTTLE: junction temperatures in eighths of a degree. -/
def execThermalThrottle (temps : List Int) := onAll fun sys m =>
  if !sys.powerGood then (sys, m)
  else
    let ts := (List.range 64).map fun i => temps.getD i 0
    let hot := ts.any fun t => decide (800 < t)
    let cool := ts.all fun t => decide (t < 776)
    let thr := hot || (sys.throtTherm && !cool)
    ({ sys with temps := ts, throtTherm := thr, clkf := if thr then clkDown sys.clkf else sys.clkf },
      throtFire m sys.throtTherm thr)

/-- THERMTRIP: a sensor at 110 degrees: nothing issues any more, and the fabric's serdes are halted: no link is up or trains. -/
def execThermtrip (sensor : Nat) := onAll fun sys m =>
  if !sys.powerGood || sys.thermtrip || decide (sys.temps.getD sensor 0 < 880) then (sys, m)
  else (List.range fabricPorts).foldl (fun (r : Sys × Mach) n =>
    if (r.1.fport n).state = 0 then r else goDown r.1 r.2 n) ({ sys with thermtrip := true }, m)

/-- A write of PKG_PLIMIT is clamped (spec/02 R92). -/
def plimitWrite (sys : Sys) (v : Nat) : Sys := { sys with plimit := Nat.min 3400 (Nat.max 1200 (v % 2 ^ 16)) }

def execPkgPlimitWrite (v : DWord) := onAll fun sys m => (plimitWrite sys v.toNat, m)

/-! ### Compute dies (spec/02 R72) -/

/-- A write of PKG_RUN: a bit that is set starts its die's reset sequence; no bit is cleared. -/
def pkgRunSet (sys : Sys) (v : Nat) : Sys :=
  if !sys.powerGood then sys
  else
    { sys with
      pkgRun := (List.range 4).foldl (fun r i => if tbit v i then setBit r i true else r) sys.pkgRun
      dies := sys.dies.mapIdx fun i d => if tbit v i && d == .held then .resetting else d }

def execPkgRunWrite (v : DWord) := onAll fun sys m => (pkgRunSet sys v.toNat, m)

/-- DIE_RESET_DONE: the die runs; its CLOCK counts from this cycle. -/
def execDieResetDone (d : Nat) := onAll fun sys m =>
  if sys.dies.getD d .held = .resetting then ({ sys with dies := modAt sys.dies d fun _ => .run m.cycle }, m) else (sys, m)

/-! ### Power states of cores and groves (spec/02 R89-R91) -/

def Sys.pwr (sys : Sys) (g : Nat) : GPwr := look ({} : GPwr) sys.gpwr g
def Sys.setPwr (sys : Sys) (g : Nat) (p : GPwr) : Sys := { sys with gpwr := put sys.gpwr g p }

/-- The wake line of a core: it has something to do, or a wake is held for it. -/
def Mach.wakeLine (sys : Sys) (m : Mach) (k : Nat) : Bool := m.coreBusy sys k || (m.coreSt k).wake

/-- CORE_CLOCK_GATE: 64 cycles without a ready quarter and an engine step. -/
def execCoreClockGate (k : Nat) := onMach fun sys m =>
  let c := m.coreSt k
  if k < Config.cores ∧ c.power = .c0 ∧ c.idleSince + 64 ≤ m.cycle ∧ !m.wakeLine sys k then
    m.setCore { c with power := .c1, gatedSince := m.cycle }
  else m

/-- CORE_POWER_GATE: IDLE microseconds in C1 with an empty chamber; a set wake line abandons the entry at its commit. -/
def execCorePowerGate (k : Nat) := onMach fun sys m =>
  let c := m.coreSt k
  let p := sys.pwr (coreGrove k)
  let chamber := m.quarters.any fun q => q.core == k && q.slice.isSome
  if c.power ≠ .c1 || p.idle == 0 || p.tgt == 1 || chamber || decide (m.cycle < c.gatedSince + p.idle * Config.cyclesUs) then m
  else if m.wakeLine sys k then m.setCore { c with power := .c0, wake := false, idleSince := m.cycle }
  else m.setCore { c with power := .c2 }

/-- CORE_WAKE: 2 cycles from C1, 2 us from C2. -/
def execCoreWake (k : Nat) := onMach fun sys m =>
  let c := m.coreSt k
  let late := if c.power = .c2 then 2 * Config.cyclesUs else 2
  if (c.power = .c1 ∨ c.power = .c2) ∧ m.wakeLine sys k then
    m.setCore { c with power := .c0, wake := false, idleSince := m.cycle, sliceUntil := c.sliceUntil.map fun u => Nat.max u (m.cycle + late) }
  else m

/-- A grove lies in the budget of a live region. -/
def Mach.groveUsed (m : Mach) (g : Nat) : Bool := m.live.any fun l => tbit l.eff.groves g

/-- A write of GRV_PWR: `v` the value, ERR cleared by a 1; `lo` says that the write holds the half with TGT and IDLE. -/
def grvPwr (sys : Sys) (m : Mach) (g v : Nat) (lo : Bool := true) : Sys :=
  let p := sys.pwr g
  let tgt := bits v 8 2
  if !lo then sys.setPwr g { p with err := p.err && !tbit v 63 }
  else if tgt = 2 && m.groveUsed g then sys.setPwr g { p with err := true }
  else
    let tgt := if tgt = 3 then p.tgt else tgt
    let st := if tgt = 2 ∧ p.state = 0 then 1 else if tgt ≠ 2 ∧ p.state = 2 then 3 else p.state
    sys.setPwr g { err := p.err && !tbit v 63, idle := bits v 16 16, tgt := tgt, state := st }

def execGrvPwrWrite (g : Nat) (v : DWord) := onAll fun sys m =>
  (if Config.groves ≤ g then sys else grvPwr sys m g v.toNat, m)

def execGrvPwrErrClear (g : Nat) := onAll fun sys m =>
  (if Config.groves ≤ g then sys else sys.setPwr g { sys.pwr g with err := false }, m)

/-- The SRAM of a grove's cores and of the grove is lost: it reads as zero when it comes up again. -/
def Mach.groveOff (m : Mach) (g : Nat) : Mach :=
  let own (k : Nat) : Bool := coreGrove k == g
  let lost (loc : Nat) : Bool := isScr loc && own ((loc - 2 ^ 66) / 2 ^ 18)
  { m with
    mem := m.mem.filter fun c => !lost c.1
    stamps := m.stamps.filter fun s => !lost (64 * s.1)
    relAt := m.relAt.filter fun r => !lost (4 * r.1)
    eccSingle := m.eccSingle.filter fun w => !lost w
    eccDouble := m.eccDouble.filter fun w => !lost w
    tiles := m.tiles.filter fun t => !own t.core
    pairs := m.pairs.filter fun t => !own t.core
    cams := m.cams.filter fun t => !own t.core
    copies := m.copies.filter fun c => !own c.core
    ilines := m.ilines.filter fun c => !own c.1
    ierrs := m.ierrs.filter fun c => !own c.1
    farLines := m.farLines.filter fun c => c.tid != 0 || !own c.core
    tlbs := m.tlbs.filter fun t => !own t.core && t.core != Config.cores + g
    sigs := m.sigs.filter fun s => s.grove != g }

/-- GROVE_POWER_TRANSITION: a grove that turns off is off; one that turns on is on. -/
def execGrovePowerTransition (g : Nat) := onAll fun sys m =>
  let p := sys.pwr g
  let cores (s : CPower) (m : Mach) : Mach :=
    (List.range Config.coresPerGrove).foldl (fun m i => m.modCore (g * Config.coresPerGrove + i) fun c => { c with power := s }) m
  if p.state = 1 then
    if m.groveUsed g then (sys, m)
    else (sys.setPwr g { p with state := if p.tgt = 2 then 2 else 3 }, cores .c3 (m.groveOff g))
  else if p.state = 3 then (sys.setPwr g { p with state := if p.tgt = 2 then 1 else 0 }, cores .c0 m)
  else (sys, m)

/-! ### Soft errors (spec/06 R198, R201; spec/02 R92) -/

/-- A write of SECNT that is zero in a half clears it. -/
def Mach.secntWrite (m : Mach) (k : Nat) (hi lo : Bool) : Mach :=
  let c := look (0, 0) m.secnt k
  { m with secnt := put m.secnt k (if hi then 0 else c.1, if lo then 0 else c.2) }

def execSecntClear (k : Nat) := onMach fun _ m => if k < Config.cores then m.secntWrite k true true else m

/-- CAVERN_PATROL: single-bit errors of the cavern are corrected, uncorrectable ones are logged. -/
def execCavernPatrol := onMach fun _ m =>
  let bad := m.eccDouble.filter fun w => inCavern w 8
  bad.foldl (fun m w => m.logErr 0x30 0 w) { m with eccSingle := m.eccSingle.filter fun w => !inCavern w 8 }

end Sys2Proof.Machine
end

