-- ==== Sys2Proof/Machine/Ports.lean ====
section
/-! DEFINITION. CXL ports and decoders (spec/01 R14-R23), PCIe ports and endpoint mode (spec/01 R24-R32), mailboxes
(spec/02 R88), launch ports as their requesters see them (spec/03 R95), and the writes that reach memory from outside the
cores. -/

namespace Sys2Proof.Machine

/-! ### CXL decoders (spec/01 R16-R18) -/

def Mach.dec (m : Mach) (d : Nat) : CDec := m.decs.getD d {}
def Mach.setDec (m : Mach) (d : Nat) (x : CDec) : Mach := { m with decs := modAt m.decs d fun _ => x }
def Sys.cport (sys : Sys) (p : Nat) : CPort := sys.cports.getD p {}
def Sys.setCPort (sys : Sys) (p : Nat) (x : CPort) : Sys := { sys with cports := modAt sys.cports p fun _ => x }

/-- Ports that the ways in use name. -/
def CDec.ports (d : CDec) : List Nat := (List.range d.nways).map d.port

/-- A commit is refused: illegal WAYS or GRAN, a port that does not exist or is not up, or an overlap. -/
def commitBad (sys : Sys) (m : Mach) (i : Nat) (d : CDec) : Bool :=
  (waysOf d.ways).isNone || d.gran == 7
    || (d.ports.any fun p => decide (12 ≤ p) || (sys.cport p).state != 2)
    || (enum m.decs).any fun x => x.1 != i && x.2.committed
        && decide (d.base < x.2.base + x.2.size) && decide (x.2.base < d.base + d.size)

/-- A write of CXLD_CTL. While COMMITTED is 1 only a COMMIT of 0 acts. -/
def decCtl (sys : Sys) (m : Mach) (i : Nat) (v : Word) : Mach :=
  let d := m.dec i
  let w := v.toNat
  if d.committed then
    if tbit w 31 then m else m.setDec i { d with committed := false, lostPorts := [] }
  else
    let d := { d with ways := bits w 25 4, gran := bits w 22 3 }
    if !tbit w 31 then m.setDec i { d with lostPorts := [] }
    else if commitBad sys m i d then m.setDec i { d with err := true, lostPorts := [] }
    else m.setDec i { d with committed := true, err := false, lostPorts := [] }

def execCxldCommit (d : Nat) (v : Word) := onMach fun sys m => if d < 32 ∧ tbit v.toNat 31 then decCtl sys m d v else m

def execCxldUncommit (d : Nat) (v : Word) := onMach fun sys m => if d < 32 ∧ !tbit v.toNat 31 then decCtl sys m d v else m

/-! ### CXL links (spec/01 R15, R20-R23) -/

/-- CXL_LINK_TRAIN: up with a speed and a width of spec/01 R14 and 256-byte flits, else failed. Of a link that is up it counts the
replays that have come (log 96). -/
def execCxlLinkTrain (p speed : Nat) (link : CxlLink) (flit256 : Bool) := onAll fun sys m =>
  let c := sys.cport p
  let width := link.width
  if 12 ≤ p || !sys.powerGood || c.state == 3 then (sys, m)
  else if c.state = 2 then (sys.setCPort p { c with replays := Nat.min 0xFFFF (c.replays + link.replays) }, m)
  else if flit256 && decide (1 ≤ speed) && decide (speed ≤ 3) && (width == 4 || width == 8 || width == 16) then
    (sys.setCPort p { c with state := 2, speed := speed, width := width }, m)
  else (sys.setCPort p { c with state := 3, speed := 0, width := 0 }, m)

/-- CXL_LINK_DOWN: LDOWN, and LOST in every committed decoder that names the port. -/
def execCxlLinkDown (p : Nat) := onAll fun sys m =>
  let c := sys.cport p
  if c.state ≠ 2 then (sys, m)
  else
    let m : Mach := { m with decs := m.decs.map fun d =>
      if d.committed && d.ports.contains p && !d.lostPorts.contains p then { d with lostPorts := d.lostPorts ++ [p] } else d }
    (sys.setCPort p { c with state := 0, speed := 0, width := 0, ldown := true }, m.fire 211)

/-- The address lies behind the port. -/
def Mach.behind (m : Mach) (p loc : Nat) : Bool := pkind loc == .cxl && (m.decoder loc).any fun d => d.portOf loc == p

/-- A line fails, or is good again, for every requester: threads, engines, collectives, fetches and DMA. -/
def Mach.setFail (m : Mach) (loc : Nat) (bad : Bool) : Mach :=
  let l := m.home loc / 64
  { m with cxlFail := if bad then (if m.cxlFail.contains l then m.cxlFail else m.cxlFail ++ [l]) else m.cxlFail.filter fun x => x != l }

/-- CXL_MEM_ERROR: the outstanding access of a thread completes with poison or an error, or the device answers so for a line (a
released extent, spec/01 R22) from now on; with `bad` false the line is good again, and an access completes as it would. -/
def execCxlMemError (p : Nat) (who : CxlWho) (bad : Bool) := onMach fun _ m =>
  match who with
  | .access tid oid => if !bad then m else match (m.thr tid).pend.find? fun o => o.oid == oid with
    | none => m
    | some o =>
      let loc := if pkind o.loc == .cxl then o.loc else o.loc2
      if m.behind p loc then (m.opEcc (m.thr tid) o loc).settleIssue (((m.flight? o.uid).map fun f => f.iss).getD 0) else m
  | .line pa => if m.behind p pa then m.setFail pa bad else m

/-- CXL_DC_EVENT: an event is pending in the device's log, which sets DCEVT and fires route entry 211, or none is any more. -/
def execCxlDcEvent (e : CxlEvent) := onAll fun sys m =>
  if 12 ≤ e.port then (sys, m)
  else (sys.setCPort e.port { sys.cport e.port with dcevt := e.pending }, if e.pending then m.fire 211 else m)

/-- A write of CXLP_STS. -/
def cxlpSts (sys : Sys) (p v : Nat) : Sys :=
  let c := sys.cport p
  sys.setCPort p { c with
    poison := c.poison && !tbit v 22, ldown := c.ldown && !tbit v 21, replays := if bits v 0 16 = 0 then 0 else c.replays }

def execCxlpPoisonClear (p : Nat) := onAll fun sys m => (sys.setCPort p { sys.cport p with poison := false }, m)
def execCxlpLdownClear (p : Nat) := onAll fun sys m => (sys.setCPort p { sys.cport p with ldown := false }, m)
def execCxlpReplaysClear (p : Nat) := onAll fun sys m => (sys.setCPort p { sys.cport p with replays := 0 }, m)

/-! ### Writes that come from outside the cores (spec/02 R69, spec/07 R221) -/

/-- Bytes written by a control core or by PCIe: a race-checked sector takes the cleared stamp; a word in error that they do
not cover keeps it, and is logged (spec/06 R200). -/
def Mach.outStore (m : Mach) (loc : Nat) (bs : List Byte) : Mach :=
  if badWrite m loc bs.length then m.logErr 0x30 0 loc
  else (m.store loc bs (some clearStamp)).unrelease loc bs.length

/-- Pending identities of the IMSIC files (spec/02 R73, R76): the file that an address names, as hart and file number. -/
def imsicAt (pa : Nat) : Option (Nat × Nat) :=
  if 0x24000000 ≤ pa ∧ pa < 0x24010000 then some ((pa - 0x24000000) / 0x1000, 0)
  else if 0x28000000 ≤ pa ∧ pa < 0x28080000 then some ((pa - 0x28000000) / 0x8000, (pa - 0x28000000) / 0x1000 % 8 + 1)
  else none

/-- An MSI written to a file. A write by hart 0 to the M-level file of a waiting hart starts it (spec/02 R70). -/
def msiWrite (sys : Sys) (m : Mach) (hart file eiid : Nat) (byHart0 : Bool := false) : Sys :=
  let sys := if eiid = 0 || decide (2048 ≤ eiid) || sys.irq.imsic.contains (hart, file, eiid) then sys
    else { sys with irq := { sys.irq with imsic := sys.irq.imsic ++ [(hart, file, eiid)] } }
  match sys.harts.getD hart .reset, sys.harts.getD 0 .reset with
  | .wfi, .run e _ _ =>
    if file = 0 && byHart0 then { sys with harts := modAt sys.harts hart fun _ => .run e hart (bootsts sys m) } else sys
  | _, _ => sys

/-! ### MSI-X vectors of port 0 in endpoint mode (spec/01 R29, R30; log 131) -/

/-- The vector may be sent: MSI-X is enabled, the function is not masked, and neither is the vector. -/
def Irq.mayRaise (q : Irq) (k : Nat) : Bool := q.msixCtl == 2 && q.msixOpen.contains k

/-- A vector is raised: it goes to the host, or is pending. -/
def Irq.raiseX (q : Irq) (k : Nat) : Irq :=
  if q.mayRaise k then { q with msix := q.msix ++ [k] }
  else if q.msixPend.contains k then q else { q with msixPend := q.msixPend ++ [k] }

/-- Pending vectors that may be sent now are sent. -/
def Irq.sendX (q : Irq) : Irq :=
  { q with msix := q.msix ++ q.msixPend.filter q.mayRaise, msixPend := q.msixPend.filter fun k => !q.mayRaise k }

/-- The mask bit of a vector is written. -/
def Irq.maskX (q : Irq) (k : Nat) (masked : Bool) : Irq :=
  { q with msixOpen := if masked then q.msixOpen.filter fun j => j != k
                       else if q.msixOpen.contains k then q.msixOpen else k :: q.msixOpen }

/-! ### Mailboxes (spec/02 R88) -/

def Sys.mbox (sys : Sys) (k : Nat) : Mbox := sys.mboxes.getD k {}
def Sys.setMbox (sys : Sys) (k : Nat) (b : Mbox) : Sys := { sys with mboxes := modAt sys.mboxes k fun _ => b }

/-- The host's OR into INBELL. -/
def inbellOr (sys : Sys) (m : Mach) (k : Nat) (v : Word) : Sys × Mach :=
  let b := sys.mbox k
  let w := b.inbell ||| v
  (sys.setMbox k { b with inbell := w }, if b.inbell = 0 ∧ w ≠ 0 then m.fire (192 + k) else m)

/-- A control core's OR into OUTBELL. -/
def outbellOr (sys : Sys) (k : Nat) (v : Word) : Sys :=
  let b := sys.mbox k
  let w := b.outbell ||| v
  let sys := sys.setMbox k { b with outbell := w }
  if b.outbell = 0 ∧ w ≠ 0 then { sys with irq := sys.irq.raiseX k } else sys

def execMailboxInbellWrite (k : Nat) (v : Word) := onAll fun sys m => if 16 ≤ k || !m.pe0ep then (sys, m) else inbellOr sys m k v
def execMailboxOutbellWrite (k : Nat) (v : Word) := onAll fun sys m => (if 16 ≤ k then sys else outbellOr sys k v, m)

/-- A control core's read of INBELL: the value, and the register is cleared. -/
def execMailboxInbellRead (k : Nat) := onAll fun sys m =>
  if 16 ≤ k then (sys, m)
  else ({ sys.setMbox k { sys.mbox k with inbell := 0 } with lastRead := (sys.mbox k).inbell.setWidth 64 }, m)

/-- The host's read of OUTBELL. -/
def outbellTake (sys : Sys) (k : Nat) : Sys :=
  { sys.setMbox k { sys.mbox k with outbell := 0 } with lastRead := (sys.mbox k).outbell.setWidth 64 }

def execMailboxOutbellRead (k : Nat) := onAll fun sys m => (if 16 ≤ k || !m.pe0ep then sys else outbellTake sys k, m)

/-- RAM of a mailbox: offsets 0x100 to 0xFFF. -/
def mboxRam (off len : Nat) : Bool := decide (0x100 ≤ off) && decide (off + len ≤ 0x1000)

/-! ### Launch ports as a requester sees them (spec/03 R95) -/

/-- The bytes of a write that fall in the 64-bit register at `a`, as a number; the others are 0. -/
def regPart (off : Nat) (bs : List Byte) (a : Nat) : Nat :=
  ofBytes ((List.range 8).map fun i => if off ≤ a + i then bs.getD (a + i - off) 0 else 0)

/-- A write of bytes at an offset of a launch port: the bytes of the staging area first, then what the registers after it hold of it. Any
write that holds a part of LP_POST posts; LP_KILL takes a whole TAG (log 106). -/
def Mach.lpWrite (m : Mach) (p off : Nat) (bs : List Byte) : Mach :=
  let stop := off + bs.length
  let l := m.lport p
  let part := bs.take (0x100 - off)
  let m := if off < 0x100 then m.setLport p { l with staged := l.staged.take off ++ part ++ l.staged.drop (off + part.length) } else m
  let m := if off < 0x108 && decide (0x100 < stop) then m.lpPost p else m
  let m := if off < 0x110 && decide (0x108 < stop) then m.lpSts p (regPart off bs 0x108) else m
  if off ≤ 0x118 && decide (0x120 ≤ stop) then m.lpKill p (BitVec.ofNat 64 (regPart off bs 0x118)) else m

/-- The registers of a launch port that read as something. -/
def Mach.lpRead (m : Mach) (p off : Nat) : Nat :=
  let l := m.lport p
  if off = 0x108 then l.queue.length * 2 ^ 40 + (if l.full then 2 ^ 39 else 0) + l.posted
  else if off = 0x110 then l.retired else 0

/-! ### PCIe (spec/01 R24-R32) -/

/-- PCIE_LINK_TRAIN: widths of 1 to 16 lanes, the seven speeds from 2.5 GT/s. -/
def execPcieLinkTrain (p width speed : Nat) := onAll fun sys m =>
  if 2 ≤ p || !sys.powerGood || !([1, 2, 4, 8, 16].contains width) || speed == 0 || decide (7 < speed) then (sys, m)
  else ({ sys with pports := modAt sys.pports p fun q => { q with up := true, width := width, speed := speed } }, m)

/-- The request is completed as an unsupported request. -/
def unsupported (sys : Sys) (p : Nat) : Sys :=
  { sys with pports := modAt sys.pports p fun q => { q with unsupported := q.unsupported + 1 } }

/-- Memory that a device below a port reaches: the cavern, and CXL memory behind a committed decoder. -/
def dmaHome (m : Mach) (pa len : Nat) : Bool :=
  inCavern pa len || (pkind pa == .cxl && pkind (pa + len - 1) == .cxl && (m.decoder pa).isSome)

/-- BAR0 (spec/01 R30): the MSI-X table and its pending bits have locations of their own. -/
def bar0Table : Nat := 0x110000
def msixLoc (off : Nat) : Nat := 2 ^ 50 + off

/-- A write of the MSI-X table: vector `k` has its mask bit in byte 12 of its entry. -/
def tableWrite (sys : Sys) (m : Mach) (off : Nat) (bs : List Byte) : Sys × Mach :=
  let q := (enum bs).foldl (fun (q : Irq) b =>
    let o := off + b.1 - bar0Table
    if o % 16 = 12 then q.maskX (o / 16) (tbit b.2.toNat 0) else q) sys.irq
  ({ sys with irq := q.sendX }, { m with mem := m.mem.put (msixLoc off) bs })

/-- A byte of the table, or of the pending-bit array after it. -/
def tableByte (sys : Sys) (m : Mach) (off : Nat) : Byte :=
  let o := off - bar0Table
  if 0x400 ≤ o then
    BitVec.ofNat 8 (((List.range 8).map fun i => if sys.irq.msixPend.contains (8 * (o - 0x400) + i) then 2 ^ i else 0).sum)
  else
    let b := m.mem.read (msixLoc off)
    if o % 16 = 12 then BitVec.ofNat 8 (b.toNat / 2 * 2 + if sys.irq.msixOpen.contains (o / 16) then 0 else 1) else b

/-- A host write to BAR0. -/
def bar0Write (sys : Sys) (m : Mach) (off : Nat) (bs : List Byte) : Sys × Mach :=
  if off < 0x100000 then (sys, m.lpWrite (off / 0x10000) (off % 0x10000) bs)
  else if off < 0x110000 then
    let k := (off - 0x100000) / 0x1000
    let o := off % 0x1000
    if mboxRam o bs.length then (sys, { m with mem := m.mem.put (mboxAt k + o) bs })
    else if o = 0 then inbellOr sys m k (BitVec.ofNat 32 (ofBytes bs)) else (sys, m)
  else if off + bs.length ≤ bar0Table + 0x400 then tableWrite sys m off bs
  else (sys, m)

/-- A host read of BAR0. DESIGN CHOICE (log 132): it returns INBELL without clearing it; the spec is silent on a host read of it. -/
def bar0Read (sys : Sys) (m : Mach) (off len : Nat) : Sys :=
  if off < 0x100000 then
    { sys with lastBytes := toBytes (m.lpRead (off / 0x10000) (off % 0x10000 / 8 * 8) / 2 ^ (8 * (off % 8))) len }
  else if off < 0x110000 then
    let k := (off - 0x100000) / 0x1000
    let o := off % 0x1000
    if mboxRam o len then { sys with lastBytes := m.bytes (mboxAt k + o) len }
    else if o = 8 then { outbellTake sys k with lastBytes := toBytes (sys.mbox k).outbell.toNat len }
    else if o = 0 then { sys with lastBytes := toBytes (sys.mbox k).inbell.toNat len }
    else { sys with lastBytes := List.replicate len 0 }
  else if off + len ≤ bar0Table + 0x408 then { sys with lastBytes := (List.range len).map fun i => tableByte sys m (off + i) }
  else { sys with lastBytes := List.replicate len 0 }

/-- PCIE_FLR: the mailboxes are cleared, records not yet accepted are dropped, the function's registers fall back, and the control cores
are interrupted; accepted launches run on. -/
def flr (sys : Sys) (m : Mach) : Sys × Mach :=
  let inBox (a : Nat) : Bool := decide (Config.mailboxBase ≤ a) && decide (a < Config.mailboxBase + 0x10000)
  let m : Mach := { m with
    mem := m.mem.filter fun c => !inBox c.1
    lports := m.lports.map fun l => { l with queue := [], fault := none, answer := none }
    posts := m.posts.filter fun p => (match p.owner with
      | .port _ => false
      | _ => true) }
  ({ sys with
      mboxes := List.replicate 16 {}, epCmd := 0, epBar := 0
      irq := { sys.irq with msixCtl := 0, msixOpen := [], msixPend := [], flrs := sys.irq.flrs + 1 } }, m.unbind)

def execPcieFlr := onAll fun sys m => if m.pe0ep then flr sys m else (sys, m)

/-! ### The configuration space of port 0 in endpoint mode (spec/01 R29)

The header and the capabilities' layouts are those of PCI Express (PRESUMED, log 131); the offsets of the capabilities are a DESIGN
CHOICE (log 131). -/

/-- The word at a multiple of 4. -/
def cfgWord (sys : Sys) (o : Nat) : Nat :=
  match o with
  | 0x00 => 0xC046 * 2 ^ 16 + 0x1F3C
  | 0x04 => 0x10 * 2 ^ 16 + sys.epCmd
  | 0x08 => 0x120000 * 2 ^ 8 + Config.stepping.toNat
  | 0x10 => sys.epBar % 2 ^ 32 + 4
  | 0x14 => sys.epBar / 2 ^ 32
  | 0x34 => 0x40
  | 0x40 => 0x0003 * 2 ^ 16 + 0x50 * 2 ^ 8 + 0x01
  | 0x50 => 0x0002 * 2 ^ 16 + 0xB0 * 2 ^ 8 + 0x10
  | 0x54 => 2 ^ 28 + 2
  | 0xB0 => (sys.irq.msixCtl * 2 ^ 14 + 63) * 2 ^ 16 + 0x11
  | 0xB4 => bar0Table
  | 0xB8 => bar0Table + 0x400
  | 0x100 => 0x150 * 2 ^ 20 + 2 * 2 ^ 16 + 0x0001
  | 0x150 => 2 ^ 16 + 0x0003
  | 0x154 => Config.serial.toNat % 2 ^ 32
  | 0x158 => Config.serial.toNat / 2 ^ 32
  | _ => 0

def cfgRead (sys : Sys) (off len : Nat) : List Byte := toBytes (cfgWord sys (off / 4 * 4) / 2 ^ (8 * (off % 4))) len

/-- A write inside one word: the command register, BAR0 (32 MiB, so bits [24:0] are fixed), MSI-X enable and function mask, and the
function-level reset. -/
def cfgWrite (sys : Sys) (m : Mach) (off : Nat) (bs : List Byte) : Sys × Mach :=
  let o := off / 4 * 4
  let cur := toBytes (cfgWord sys o) 4
  let v := ofBytes ((cur.take (off % 4) ++ bs ++ cur.drop (off % 4 + bs.length)).take 4)
  match o with
  | 0x04 => ({ sys with epCmd := v % 2 ^ 11 }, m)
  | 0x10 => ({ sys with epBar := sys.epBar / 2 ^ 32 * 2 ^ 32 + v / 2 ^ 25 * 2 ^ 25 }, m)
  | 0x14 => ({ sys with epBar := v * 2 ^ 32 + sys.epBar % 2 ^ 32 }, m)
  | 0x58 => if tbit v 15 then flr sys m else (sys, m)
  | 0xB0 => ({ sys with irq := ({ sys.irq with msixCtl := bits v 30 2 } : Irq).sendX }, m)
  | _ => (sys, m)

/-! ### Inbound requests (spec/01 R14, R25-R30) -/

/-- A request that the IOMMU faults is logged in its fault queue, and completed as an unsupported request. -/
def iommuFault (sys : Sys) (p addr : Nat) : Sys :=
  let sys := unsupported sys p
  { sys with pports := modAt sys.pports p fun q => { q with iommuLog := q.iommuLog ++ [addr] } }

/-- A request of a device below a root port, by the answer of the port's IOMMU; payloads above 512 bytes and reads above 4,096 are not
supported (spec/01 R24). DESIGN CHOICE (log 132): a read that meets an uncorrectable word completes as an unsupported request; the
spec does not say how it completes. A write at any offset of an IMSIC page is an MSI (log 132: the spec does not say which word of the
page one must hit). -/
def pcieInbound (sys : Sys) (m : Mach) (r : PcieReq) : Sys × Mach :=
  if r.translated || decide (512 < r.bytes.length) || decide (4096 < r.len) then (unsupported sys r.port, m)
  else match r.iommu with
    | none => (iommuFault sys r.port r.addr, m)
    | some pa =>
      if dmaHome m pa (if r.write then r.bytes.length else r.len) then
        if r.write then (sys, m.outStore pa r.bytes)
        else if badRange m pa r.len then (unsupported sys r.port, m.logErr 0x30 r.port pa)
        else ({ sys with lastBytes := m.bytes pa r.len }, m)
      else match imsicAt pa with
        | some (h, f) => (if r.write then msiWrite sys m h f (ofBytes r.bytes) else sys, m)
        | none => (unsupported sys r.port, m)

/-- An MSI or MSI-X write of a CXL device (spec/01 R14); its other requests find nothing (log 132). -/
def cxlInbound (sys : Sys) (m : Mach) (r : PcieReq) : Sys :=
  match imsicAt r.addr with
  | some (h, f) => if r.write && (sys.cport (r.port - 2)).state == 2 then msiWrite sys m h f (ofBytes r.bytes) else sys
  | none => sys

/-- PCIE_INBOUND_REQUEST: of the host in endpoint mode, of a device below a root port, or of a CXL device. -/
def execPcieInboundRequest (r : PcieReq) := onAll fun sys m =>
  if 14 ≤ r.port then (sys, m)
  else if 2 ≤ r.port then (cxlInbound sys m r, m)
  else if !(sys.pports.getD r.port {}).up then (sys, m)
  else if r.port = 0 ∧ m.pe0ep then
    if r.cfg then (if r.write then cfgWrite sys m r.addr r.bytes else ({ sys with lastBytes := cfgRead sys r.addr r.len }, m))
    else if r.write then bar0Write sys m r.addr r.bytes else (bar0Read sys m r.addr r.len, m)
  else pcieInbound sys m r

/-- The new value of an AtomicOp. -/
def pcieNew (op : PcieOp) (size old x cmp : Nat) : Nat :=
  match op with
  | .fetchAdd => (old + x) % 2 ^ (8 * size)
  | .swap => x % 2 ^ (8 * size)
  | .cas => if old = cmp % 2 ^ (8 * size) then x % 2 ^ (8 * size) else old

/-- PCIE_ATOMICOP: one atomic at package scope at the home of the address, after the translation of the port's IOMMU. DESIGN CHOICE (log
132): one that is misaligned, meets an uncorrectable word, reaches no memory, or comes from port 0 in endpoint mode completes as an
unsupported request, as one of an unsupported size does; the spec names only the size. -/
def execPcieAtomicop (p : Nat) (a : PcieAddr) (op : PcieOp) (size : Nat) (x cmp : DWord) := onAll fun sys m =>
  if 2 ≤ p || !(sys.pports.getD p {}).up then (sys, m)
  else if a.translated || (p == 0 && m.pe0ep) then (unsupported sys p, m)
  else match a.iommu with
    | none => (iommuFault sys p a.addr, m)
    | some pa =>
      if (size ≠ 4 ∧ size ≠ 8) || pa % size != 0 || !dmaHome m pa size then (unsupported sys p, m)
      else if badRange m pa size then (unsupported sys p, m.logErr 0x30 p pa)
      else
        let old := m.num pa size
        ({ sys with lastRead := BitVec.ofNat 64 old }, m.outStore pa (toBytes (pcieNew op size old x.toNat cmp.toNat) size))

/-! ### The host window (spec/01 R32) -/

/-- The hart takes an access fault; what it does then is its own instruction set's (log 9). -/
def hartFault (sys : Sys) (hart pa : Nat) : Sys := { sys with hartFaults := sys.hartFaults ++ [(hart, pa)] }

/-- The oldest request that a thread has sent to the host for a location. -/
def Mach.hostReq (m : Mach) (loc : Nat) (late : Nat → Bool) : Option (Thread × PendOp) :=
  let hit (o : PendOp) : Bool := (o.loc == loc || o.loc2 == loc) && m.toHost o && o.sent.any fun s => late s.1
  m.threads.findSome? fun t => (t.pend.find? hit).map fun o => (t, o)

/-- The oldest such request of an engine, a collective entry, a fetch, a table or a control core. -/
def Mach.hostUnit (m : Mach) (loc : Nat) (late : Nat → Bool) : Option FarReq := m.reqs.find? fun r => m.inHost r.loc && r.loc == loc && late r.at_

/-- The host's answer to such a request. A control core takes the data, or an access fault. -/
def hostDone (sys : Sys) (m : Mach) (r : FarReq) (bytes : List Byte) (ok : Bool) : Sys × Mach :=
  let m := if ok && (!r.write || r.who matches .hart _) then m.devStore r.loc bytes else m
  let (sys, m) := match r.who with
    | .hart h => if !ok then (hartFault sys h r.loc, m.logErr 0x30 h r.loc) else (if r.write then sys else { sys with lastBytes := bytes }, m)
    | _ => (sys, m)
  (sys, m.farRsp r.id (if ok then 0 else 0x30) [])

/-- HOST_WINDOW_ACCESS: the host completes a request at HOSTWIN plus the offset with data or an error: of a thread, an engine, a fetch or a
control core that waits for it. With no such request it says what the host will answer to the boot ROM's read of the line. -/
def execHostWindowAccess (off : Nat) (write : Bool) (bytes : List Byte) (ok : Bool) := onAll fun sys m =>
  let loc := Config.pcie0Base + off
  if !m.pe0ep || decide (Config.pcieWindow < off + bytes.length) then (sys, m)
  else
    match m.hostReq loc fun _ => true with
    | some (t, o) =>
      let m := if ok && !write then m.devStore loc bytes else m
      (sys, m.hostRsp t o ok (wideStep sys) finStep)
    | none => match m.hostUnit loc fun _ => true with
    | some r => hostDone sys m r bytes ok
    | none =>
      (sys, if ok then (m.setFail loc false).devStore loc bytes else m.setFail loc true)

/-- HOST_WINDOW_TIMEOUT: a request at the offset that has had no completion for 50 ms is an uncorrectable error. -/
def execHostWindowTimeout (off : Nat) := onAll fun sys m =>
  let loc := Config.pcie0Base + off
  let late (at_ : Nat) : Bool := decide (at_ + Config.ticks50ms ≤ sys.ticks)
  match m.hostReq loc late with
  | some (t, o) => (sys, m.hostRsp t o false (wideStep sys) finStep)
  | none => match m.hostUnit loc late with
    | some r => hostDone sys m r [] false
    | none => (sys, m)

/-- PCIE_INTX_INPUT: APLIC sources 1 to 8 (spec/02 R76). -/
def execPcieIntxInput (src : Nat) (level : Bool) := onAll fun sys m =>
  if src = 0 ∨ 8 < src ∨ (m.pe0ep ∧ src ≤ 4) then (sys, m)
  else
    let rest := sys.irq.wired.filter fun x => x != src
    ({ sys with irq := { sys.irq with wired := if level then src :: rest else rest } }, m)

end Sys2Proof.Machine
end

