-- ==== Sys2Proof/Machine/Registers.lean ====
section
/-! DEFINITION. The package register block (spec/02 R73, R74): interrupt routes, signals, timers and system-call queues
(spec/02 R76-R83), what every register reads as, what a write does, the stores of control cores, and the I3C target. -/

namespace Sys2Proof.Machine

/-! ### Interrupt routes and signals (spec/02 R78-R80) -/

def Sys.iroute (sys : Sys) (i : Nat) : IRoute := look ({} : IRoute) sys.irq.routes i

/-- A write of an interrupt route entry: ignored as a whole, or applied; a pending source is sent at once. -/
def intRoute (sys : Sys) (i v : Nat) : Sys :=
  let r := sys.iroute i
  let en := tbit v 63
  if 9 ≤ bits v 40 4 ∨ (en ∧ bits v 0 11 = 0) then sys
  else
    let r' : IRoute := { en := en, pend := r.pend, hart := bits v 44 4, file := bits v 40 4, eiid := bits v 0 11 }
    let q := { sys.irq with routes := put sys.irq.routes i r' }
    { sys with irq := if en && r.pend then q.deliver i else q }

def execIntRouteWrite (i : Nat) (v : DWord) := onAll fun sys m => (if 256 ≤ i then sys else intRoute sys i v.toNat, m)

/-- A control core's read of SIGPEND: the value, and the register is cleared. ORs of this cycle come after the read: they stand in the
register and fire the channel's entry again. -/
def sigTake (m : Mach) (c : Nat) : Word × Mach :=
  match m.sigOld.find? fun x => x.1 == c with
  | none => (nth m.sigpend c, { m with sigpend := modAt m.sigpend c fun _ => 0 })
  | some (_, old, or) =>
    let m := { m with sigpend := modAt m.sigpend c (fun _ => or), sigOld := put m.sigOld c (0, or) }
    (old, if old ≠ 0 ∧ or ≠ 0 then m.fire (144 + c) else m)

def execSigpendRead (c : Nat) := onAll fun sys m =>
  if 16 ≤ c then (sys, m) else ({ sys with lastRead := (sigTake m c).1.setWidth 64 }, (sigTake m c).2)

/-! ### Timers (spec/02 R81, R82) -/

/-- TIME_BASE_TICK. -/
def execTimeBaseTick := onAll fun sys m => (if sys.powerGood then { sys with ticks := sys.ticks + 1 } else sys, m)

def Sys.rtimer (sys : Sys) (k : Nat) : RTimer := sys.rtimers.getD k {}
def Sys.setRtimer (sys : Sys) (k : Nat) (t : RTimer) : Sys := { sys with rtimers := modAt sys.rtimers k fun _ => t }

/-- The counters bound to a block. -/
def Mach.boundCtrs (m : Mach) (rcb : Nat) : Nat := 64 * look 0 m.bound rcb

/-- REGION_TIMER_FIRE: an enabled timer whose compare the time base has reached fires once; periods that were missed produce
one firing. -/
def timerFire (sys : Sys) (m : Mach) (k : Nat) : Sys × Mach :=
  let t := sys.rtimer k
  let now := sys.time.toNat
  if 16 ≤ k || !t.en || decide (now < t.cmp) then (sys, m)
  else
    let inRange := decide (t.ctr < m.boundCtrs t.rcb)
    let m := if t.ctr ≠ 0xFFFF ∧ inRange then (m.sync 0 6 true false (.ctr t.rcb t.ctr)).ctrAdd t.rcb t.ctr 1 none else m
    let m := if t.int then m.fire (160 + k) else m
    let m := if t.pre then m.requestPreempt sys t.rcb 0 else m
    (sys.setRtimer k { t with
      fired := true, ctrerr := t.ctrerr || (t.ctr != 0xFFFF && !inRange)
      cmp := if t.per = 0 then t.cmp else (t.cmp + ((now - t.cmp) / t.per + 1) * t.per) % 2 ^ 64
      en := t.per != 0, firedAt := some sys.ticks }, m)

def execRegionTimerFire (k : Nat) := onAll fun sys m => timerFire sys m k

/-- A register write in the tick of a firing would take effect before it (spec/02 R82): one that comes after the firing falls in the next
tick, which begins with it. -/
def Sys.pastFire (sys : Sys) (k : Nat) : Sys :=
  if (sys.rtimer k).firedAt == some sys.ticks then { sys with ticks := sys.ticks + 1 } else sys

def execRtmrFiredClear (k : Nat) := onAll fun sys m => ((sys.pastFire k).setRtimer k { sys.rtimer k with fired := false }, m)
def execRtmrCtrerrClear (k : Nat) := onAll fun sys m => ((sys.pastFire k).setRtimer k { sys.rtimer k with ctrerr := false }, m)

/-- A write of RTMR_CTL: `w` holds the bits written. -/
def rtmrCtl (sys : Sys) (k new w : Nat) : Sys :=
  let t := sys.rtimer k
  (sys.pastFire k).setRtimer k { t with
    en := tbit new 63, fired := t.fired && !tbit w 62, pre := tbit new 61, int := tbit new 60,
    ctrerr := t.ctrerr && !tbit w 59, ctr := bits new 32 16 }

/-! ### System-call queues (spec/02 R83) -/

/-- A write of SYSQ_CFG: ignored as a whole when it sets EN with an illegal LOG2N. DESIGN CHOICE (log 132): a write of EN = 1 while EN is 1
zeroes TAIL again; `since EN was last set` does not say whether that counts. -/
def Mach.sysqCfg (m : Mach) (q v : Nat) : Mach :=
  let en := tbit v 63
  let lg := bits v 0 4
  if en && (decide (lg < 4) || decide (12 < lg)) then m
  else
    let s := m.sysQ q
    m.setSysQ q { s with en := en, log2 := lg, tail := if en then 0 else s.tail }

def execSysqCfgWrite (q : Nat) (v : DWord) := onMach fun _ m => m.sysqCfg q v.toNat

/-! ### What the registers read as (spec/02 R74) -/

def bit (b : Bool) (i : Nat) : Nat := if b then 2 ^ i else 0

def fportWord (p : FPort) : Nat :=
  bit p.ctlEn 31 + (if p.maxver = 0 then 1 else p.maxver) * 2 ^ 29 + p.bulkReq * 2 ^ 26 + p.bulkRsp * 2 ^ 23 + p.weight * 2 ^ 32

def fportSts (p : FPort) : Nat :=
  p.state * 2 ^ 30 + p.ver * 2 ^ 28 + (if p.state = 2 then p.peer else 0) * 2 ^ 16 + p.rtt * 2 ^ 8 + p.hold % 2 ^ 8
    + (p.replays * 2 ^ 16 + p.err % 64) * 2 ^ 32

def cxlpWord (c : CPort) : Nat :=
  c.state * 2 ^ 30 + c.speed * 2 ^ 28 + (if c.state = 2 then c.width else 0) * 2 ^ 23 + bit c.poison 22 + bit c.ldown 21
    + bit c.dcevt 20 + c.replays

/-- CXLD_CTL. DESIGN CHOICE (log 132): COMMIT, bit [31], always reads as 0; the spec says only what writing it does. -/
def decWord (d : CDec) : Nat :=
  bit d.committed 30 + bit d.err 29 + d.ways * 2 ^ 25 + d.gran * 2 ^ 22 + bit (d.lostPorts != []) 21

def routeWord (r : Route) : Nat := bit r.v 63 + r.prim * 2 ^ 15 + r.alt1 * 2 ^ 10 + r.alt2 * 2 ^ 5 + r.alt3

def irouteWord (r : IRoute) : Nat := bit r.en 63 + bit r.pend 62 + r.hart * 2 ^ 44 + r.file * 2 ^ 40 + r.eiid

def rtmrWord (t : RTimer) : Nat :=
  bit t.en 63 + bit t.fired 62 + bit t.pre 61 + bit t.int 60 + bit t.ctrerr 59 + t.ctr * 2 ^ 32

def gpwrWord (m : Mach) (g : Nat) (p : GPwr) : Nat :=
  let gated := (m.cores.filter fun c => coreGrove c.core == g && c.power == .c2).length
  bit p.err 63 + p.idle * 2 ^ 16 + p.tgt * 2 ^ 8 + p.state * 2 ^ 6 + gated

/-- Telemetry, by 64-bit words from 0x03_0000 (spec/02 R92). -/
def telemetry (sys : Sys) (o : Nat) : Nat :=
  if o = 0 then sys.pkgPwr
  else if o ≤ 0x20 then sys.rails.getD (o / 8 - 1) 0
  else if 0x40 ≤ o ∧ o < 0x140 then
    let s := (o - 0x40) / 4
    uMod 32 (sys.temps.getD s 0) + uMod 32 (sys.temps.getD (s + 1) 0) * 2 ^ 32
  else if o = 0x200 then sys.clkf
  else if o = 0x208 then bit sys.throtPwr 0 + bit sys.throtTherm 1
  else 0

/-- The error log, by 64-bit words from 0x03_1000 (spec/02 R93). -/
def errWord (m : Mach) (o : Nat) : Nat :=
  if o < 0x400 then
    match m.errLog[o / 16]? with
    | none => 0
    | some e => if o % 16 = 0 then e.cause % 2 ^ 8 + e.unit % 2 ^ 16 * 2 ^ 16 else e.pa % 2 ^ 64
  else if o = 0x400 then m.errOver else 0

/-- The 64-bit word at a multiple of 8 of the block; offsets not listed read as zero. -/
def regRead (sys : Sys) (m : Mach) (o : Nat) : Nat :=
  if o < 0x20 * 18 then
    (match o % 0x20 with
      | 0 => fportWord (sys.fport (o / 0x20))
      | 8 => fportSts (sys.fport (o / 0x20))
      | _ => 0)
  else if 0x1000 ≤ o ∧ o < 0x1000 + 8 * 12 then cxlpWord (sys.cport ((o - 0x1000) / 8))
  else if 0x2000 ≤ o ∧ o < 0x2000 + 0x20 * 32 then
    let d := m.dec ((o - 0x2000) / 0x20)
    (match o % 0x20 with
      | 0 => decWord d
      | 8 => d.target
      | 0x10 => d.base
      | _ => d.size)
  else if 0x10000 ≤ o ∧ o < 0x10000 + 8 * 4096 then routeWord (look ({} : Route) sys.routes ((o - 0x10000) / 8))
  else if 0x20000 ≤ o ∧ o < 0x20000 + 8 * 256 then irouteWord (sys.iroute ((o - 0x20000) / 8))
  else if 0x21000 ≤ o ∧ o < 0x21000 + 4 * 16 then
    (nth m.sigpend ((o - 0x21000) / 4)).toNat + (nth m.sigpend ((o - 0x21000) / 4 + 1)).toNat * 2 ^ 32
  else if 0x22000 ≤ o ∧ o < 0x22000 + 0x20 * 16 then
    let s := m.sysQ ((o - 0x22000) / 0x20)
    (match o % 0x20 with
      | 0 => s.base
      | 8 => bit s.en 63 + s.log2
      | 0x10 => s.tail
      | _ => 0)
  else if 0x23000 ≤ o ∧ o < 0x23000 + 0x20 * 16 then
    let t := sys.rtimer ((o - 0x23000) / 0x20)
    (match o % 0x20 with
      | 0 => t.cmp
      | 8 => t.per
      | 0x10 => rtmrWord t
      | _ => t.rcb)
  else if o = 0x24000 then sys.pkgRun
  else if o = 0x24008 then sys.plimit
  else if o = 0x24010 then bootsts sys m
  else if o = 0x24018 then sys.seThr
  else if o = 0x24028 then m.hostwin
  else if 0x25000 ≤ o ∧ o < 0x25000 + 8 * 192 then gpwrWord m ((o - 0x25000) / 8) (sys.pwr ((o - 0x25000) / 8))
  else if o = 0x26000 then sys.time.toNat
  else if 0x26100 ≤ o ∧ o < 0x26100 + 8 * 16 then sys.mtimecmp.getD ((o - 0x26100) / 8) 0
  else if 0x30000 ≤ o ∧ o < 0x31000 then telemetry sys (o - 0x30000)
  else if 0x31000 ≤ o ∧ o < 0x31408 then errWord m (o - 0x31000)
  else if 0x40000 ≤ o ∧ o < 0x40000 + 8 * 4608 then
    let c := look (0, 0) m.secnt ((o - 0x40000) / 8)
    c.1 * 2 ^ 32 + c.2
  else 0

/-! ### Writes (spec/02 R74) -/

/-- A register without a behaviour of its own takes the value that the write leaves it (the 64-bit word at a multiple of 8).
A decoder's registers are written only while it is not committed (spec/01 R18). -/
def plainWrite (sys : Sys) (m : Mach) (o new : Nat) : Option (Sys × Mach) :=
  if 0x2000 ≤ o ∧ o < 0x2000 + 0x20 * 32 ∧ o % 0x20 ≠ 0 then
    let i := (o - 0x2000) / 0x20
    let d := m.dec i
    let d' := match o % 0x20 with
      | 8 => { d with target := new % 2 ^ 48 }
      | 0x10 => { d with base := bits new 28 24 * 2 ^ 28 }
      | _ => { d with size := bits new 28 24 * 2 ^ 28 }
    some (sys, if d.committed then m else m.setDec i d')
  else if 0x22000 ≤ o ∧ o < 0x22000 + 0x20 * 16 ∧ o % 0x20 = 0 then
    let q := (o - 0x22000) / 0x20
    some (sys, m.setSysQ q { m.sysQ q with base := new / 4096 * 4096 })
  else if 0x23000 ≤ o ∧ o < 0x23000 + 0x20 * 16 ∧ o % 0x20 ≠ 0x10 then
    let k := (o - 0x23000) / 0x20
    let t := sys.rtimer k
    some ((sys.pastFire k).setRtimer k (match o % 0x20 with
      | 0 => { t with cmp := new }
      | 8 => { t with per := new }
      | _ => { t with rcb := new }), m)
  else if o = 0x24018 then some ({ sys with seThr := new }, m)
  else if o = 0x24028 then some (sys, { m with hostwin := new / 4096 * 4096 })
  else if o = 0x26000 then some ({ sys with mtimeOff := (new + 2 ^ 64 - sys.ticks % 2 ^ 64) % 2 ^ 64 }, m)
  else if 0x26100 ≤ o ∧ o < 0x26100 + 8 * 16 then
    some ({ sys with mtimecmp := modAt sys.mtimecmp ((o - 0x26100) / 8) fun _ => new }, m)
  else none

/-- A write of the 64-bit word at a multiple of 8: `v` holds the bits written, `lo` and `hi` say which halves. DESIGN CHOICES (log 132): a
32-bit write of the low half of SYSQ_CPL completes the slot with TRAP 0, and one of its high half alone does nothing; a 32-bit write of
PREEMPT requests nothing. -/
def regWrite (sys : Sys) (m : Mach) (o v : Nat) (lo hi : Bool) : Sys × Mach :=
  let cur := regRead sys m o
  let w := (if lo then v % 2 ^ 32 else 0) + (if hi then v / 2 ^ 32 * 2 ^ 32 else 0)
  let new := (if lo then v else cur) % 2 ^ 32 + (if hi then v else cur) / 2 ^ 32 * 2 ^ 32
  match plainWrite sys m o new with
  | some r => r
  | none =>
    if o < 0x20 * 18 then
      let n := o / 0x20
      if o % 0x20 = 0 then
        let r := if lo then fportCtl sys m n (wN v) else (sys, m)
        if hi then (r.1.setFPort n { r.1.fport n with weight := v / 2 ^ 32 % 2 ^ 24 }, r.2) else r
      else if o % 0x20 = 8 ∧ hi then (fportErr sys n (wN (v / 2 ^ 32)), m) else (sys, m)
    else if 0x1000 ≤ o ∧ o < 0x1000 + 8 * 12 then (if lo then cxlpSts sys ((o - 0x1000) / 8) v else sys, m)
    else if 0x2000 ≤ o ∧ o < 0x2000 + 0x20 * 32 then (sys, if lo then decCtl sys m ((o - 0x2000) / 0x20) (wN v) else m)
    else if 0x10000 ≤ o ∧ o < 0x10000 + 8 * 4096 then routeWrite sys m ((o - 0x10000) / 8) (BitVec.ofNat 64 new)
    else if 0x20000 ≤ o ∧ o < 0x20000 + 8 * 256 then (intRoute sys ((o - 0x20000) / 8) new, m)
    else if 0x22000 ≤ o ∧ o < 0x22000 + 0x20 * 16 then
      let q := (o - 0x22000) / 0x20
      (sys, if o % 0x20 = 8 then m.sysqCfg q new else if o % 0x20 = 0x18 ∧ lo then m.sysqCpl q w else m)
    else if 0x23000 ≤ o ∧ o < 0x23000 + 0x20 * 16 then (rtmrCtl sys ((o - 0x23000) / 0x20) new w, m)
    else if o = 0x24000 then (pkgRunSet sys w, m)
    else if o = 0x24008 then (if lo then plimitWrite sys v else sys, m)
    else if o = 0x24020 then (sys, if lo ∧ hi then m.preemptReg sys v else m)
    else if 0x25000 ≤ o ∧ o < 0x25000 + 8 * 192 then
      let g := (o - 0x25000) / 8
      (grvPwr sys m g (new % 2 ^ 63 + w / 2 ^ 63 * 2 ^ 63) lo, m)
    else if 0x40000 ≤ o ∧ o < 0x40000 + 8 * 4608 then
      (sys, m.secntWrite ((o - 0x40000) / 8) (hi && v / 2 ^ 32 == 0) (lo && v % 2 ^ 32 == 0))
    else (sys, m)

/-- An aligned access of 4 or 8 bytes at an offset of the block. -/
def regStore (sys : Sys) (m : Mach) (o len v : Nat) : Sys × Mach :=
  if len = 8 ∧ o % 8 = 0 then regWrite sys m o v true true
  else if len = 4 ∧ o % 8 = 0 then regWrite sys m o v true false
  else if len = 4 ∧ o % 8 = 4 then regWrite sys m (o - 4) (v * 2 ^ 32) false true
  else (sys, m)

/-- FPORT_WT stands in the upper half of its word, beside FPORT_CTL. -/
def weightWrite (sys : Sys) (m : Mach) (o v : Nat) : Option (Sys × Mach) :=
  if o < 0x20 * 18 ∧ o % 0x20 = 4 then
    some (sys.setFPort (o / 0x20) { sys.fport (o / 0x20) with weight := v % 2 ^ 24 }, m)
  else none

/-- REGISTER_WRITE: a register without a behaviour of its own stores the written fields. -/
def execRegisterWrite (pa : Nat) (w64 : Bool) (v : DWord) := onAll fun sys m =>
  let o := pa - Config.regBase
  let x := v.toNat
  if pa < Config.regBase ∨ Config.regBase + 2 ^ 24 ≤ pa then (sys, m)
  else if w64 then (if o % 8 = 0 then (plainWrite sys m o x).getD (sys, m) else (sys, m))
  else if o % 4 ≠ 0 then (sys, m)
  else match weightWrite sys m o (x % 2 ^ 32) with
    | some r => r
    | none =>
      let cur := regRead sys m (o / 8 * 8)
      let new := if o % 8 = 0 then x % 2 ^ 32 + cur / 2 ^ 32 * 2 ^ 32 else cur % 2 ^ 32 + x % 2 ^ 32 * 2 ^ 32
      (plainWrite sys m (o / 8 * 8) new).getD (sys, m)

/-! ### Accesses of control cores (spec/02 R68, R69, R73, R81) -/

/-- A control core's write to a mailbox: OUTBELL, or the RAM. -/
def mboxStore (sys : Sys) (m : Mach) (o : Nat) (bs : List Byte) : Sys × Mach :=
  let k := o / 0x1000
  if mboxRam (o % 0x1000) bs.length then (sys, { m with mem := m.mem.put (mboxAt k + o % 0x1000) bs })
  else if o % 0x1000 = 8 then (outbellOr sys k (BitVec.ofNat 32 (ofBytes bs)), m)
  else (sys, m)

/-- A control core's read of a mailbox: INBELL is cleared by it; the RAM. -/
def mboxLoad (sys : Sys) (m : Mach) (o len : Nat) : Sys × List Byte :=
  let k := o / 0x1000
  if mboxRam (o % 0x1000) len then (sys, m.mem.bytes (mboxAt k + o % 0x1000) len)
  else if o % 0x1000 = 0 then
    (sys.setMbox k { sys.mbox k with inbell := 0 }, toBytes (sys.mbox k).inbell.toNat len)
  else if o % 0x1000 = 8 then (sys, toBytes (sys.mbox k).outbell.toNat len)
  else (sys, List.replicate len 0)

/-- A control core's load of the register block: aligned words of 4 or 8 bytes; a read of SIGPEND clears it (spec/02 R80). -/
def regLoad (sys : Sys) (m : Mach) (o len : Nat) : Mach × List Byte :=
  if (len ≠ 4 ∧ len ≠ 8) ∨ o % len ≠ 0 then (m, List.replicate len 0)
  else if 0x21000 ≤ o ∧ o < 0x21000 + 4 * 16 then
    let c := (o - 0x21000) / 4
    let (a, m) := sigTake m c
    if len = 4 then (m, toBytes a.toNat 4)
    else let (b, m) := sigTake m (c + 1); (m, toBytes a.toNat 4 ++ toBytes b.toNat 4)
  else (m, toBytes (regRead sys m (o / 8 * 8) / 2 ^ (8 * (o % 8))) len)

/-- The parts of the physical map, as a control core reaches them (spec/02 R73). -/
inductive HartAt where
  | memory | rom | regs | ports | mailboxes | imsic (h f : Nat) | pcie | ecamHost | device | none
deriving DecidableEq, Repr

def hartAt (m : Mach) (pa len : Nat) : HartAt :=
  let inR (a n : Nat) : Bool := decide (a ≤ pa) && decide (pa + len ≤ a + n)
  if dmaHome m pa len then .memory
  else if inR 0 0x10000 then .rom
  else if inR Config.regBase (2 ^ 24) then .regs
  else if inR Config.launchBase (2 ^ 20) then .ports
  else if inR Config.mailboxBase (2 ^ 16) then .mailboxes
  else if inR Config.pcie0Base Config.pcieWindow || inR Config.pcie1Base Config.pcieWindow then .pcie
  else if inR 0x40000000 (2 ^ 28) && m.pe0ep then .ecamHost
  else if inR 0x40000000 (2 ^ 29) || inR 0x0C000000 0x4000 || inR 0x0D000000 0x4000 then .device
  else match imsicAt pa with
    | some (h, f) => .imsic h f
    | none => .none

/-- A store. The boot ROM is read and execute only: a store to it takes the access fault (log 133). A store at offset 0 of an IMSIC page
is an MSI (log 132). -/
def hartStore (sys : Sys) (m : Mach) (pa : Nat) (r : HartReq) : Sys × Mach :=
  match hartAt m pa r.bytes.length with
  | .memory => (sys, m.outStore pa r.bytes)
  | .regs =>
    if pa < Config.regBase + 0x26008 ∧ Config.regBase + 0x26000 < pa + r.bytes.length ∧ !r.mmode then (sys, m)
    else regStore sys m (pa - Config.regBase) r.bytes.length (ofBytes r.bytes)
  | .ports => (sys, m.lpWrite ((pa - Config.launchBase) / 0x10000) (pa % 0x10000) r.bytes)
  | .mailboxes => mboxStore sys m (pa - Config.mailboxBase) r.bytes
  | .imsic h f => (if pa % 0x1000 = 0 then msiWrite sys m h f (ofBytes r.bytes) (r.hart == 0) else sys, m)
  | .pcie =>
    if m.inHost pa then (sys, m.askFar sys (.hart r.hart) pa pa r.bytes.length true r.bytes)
    else (sys, m.store pa r.bytes none)
  | .ecamHost => (sys, m)
  | .rom | .none | .device => (hartFault sys r.hart pa, m)

/-- A load or a fetch: the bytes read, or an access fault where a word of memory, or the line in a cache, is in error (spec/02 R93). An access
to the host window is done when the host completes it (spec/01 R32). -/
def hartLoad (sys : Sys) (m : Mach) (pa : Nat) (r : HartReq) : Sys × Mach :=
  let got (bs : List Byte) (sys : Sys) : Sys := { sys with lastBytes := bs }
  let bad := (hartFault sys r.hart pa, m.logErr 0x30 r.hart pa)
  match hartAt m pa r.len with
  | .memory =>
    if r.cacheBad || badRange m pa r.len then bad
    else (got (m.bytes pa r.len) sys, m.eccFix portCore pa r.len)
  | .rom => (got ((List.range r.len).map fun i => Config.romByte (pa + i)) sys, m)
  | .regs =>
    let (m', bs) := regLoad sys m (pa - Config.regBase) r.len
    (got bs sys, m')
  | .ports =>
    let o := pa % 0x10000
    (got (toBytes (m.lpRead ((pa - Config.launchBase) / 0x10000) (o / 8 * 8) / 2 ^ (8 * (o % 8))) r.len) sys, m)
  | .mailboxes =>
    let (sys', bs) := mboxLoad sys m (pa - Config.mailboxBase) r.len
    (got bs sys', m)
  | .imsic _ _ => (got (List.replicate r.len 0) sys, m)
  | .pcie =>
    if m.inHost pa then (sys, m.askFar sys (.hart r.hart) pa pa r.len false []) else (got (m.bytes pa r.len) sys, m)
  | .ecamHost => (got (List.replicate r.len 0xFF) sys, m)
  | .none | .device => (hartFault sys r.hart pa, m)

/-- The timer interrupts of a hart that are pending (spec/02 R81): M-level, S-level and virtual, as bits 7, 5 and 6 of `mip` (log 133). -/
def Sys.timerBits (sys : Sys) (h : Nat) : Nat :=
  let now := sys.time.toNat
  bit (decide (nth sys.mtimecmp h ≤ now)) 7 + bit (decide (nth sys.stimecmp h ≤ now)) 5 + bit (decide (nth sys.vstimecmp h ≤ now)) 6

/-- CONTROL_CORE_STORE: an access of a control core, by its operation; the two APLIC domains and the ECAM windows of root ports are
devices whose registers the spec does not lay out. Only M-mode writes the time base (spec/02 R81). -/
def execControlCoreStore (pa : Nat) (r : HartReq) (s : State) : Host.Outcome State Fault Refusal :=
  let v := ofBytes r.bytes
  match r.op with
  | .store => if hartAt s.mach pa r.bytes.length = .device then .refused (.deviceWindow pa) else onAll (fun sys m => hartStore sys m pa r) s
  | .load | .fetch => if hartAt s.mach pa r.len = .device then .refused (.deviceWindow pa) else onAll (fun sys m => hartLoad sys m pa r) s
  | .time => onAll (fun sys m => ({ sys with lastRead := sys.time }, m)) s
  | .stimecmp => onAll (fun sys m => ({ sys with stimecmp := modAt sys.stimecmp r.hart fun _ => v }, m)) s
  | .vstimecmp => onAll (fun sys m => ({ sys with vstimecmp := modAt sys.vstimecmp r.hart fun _ => v }, m)) s
  | .pending => onAll (fun sys m => ({ sys with lastRead := BitVec.ofNat 64 (sys.timerBits r.hart) }, m)) s

/-! ### I3C (spec/02 R94) -/

def execI3cSetdasa (a : BitVec 7) := onAll fun sys m => ({ sys with i3cAddr := some a.toNat }, m)
def execI3cEntdaa (a : BitVec 7) := onAll fun sys m =>
  (if sys.i3cAddr.isSome then sys else { sys with i3cAddr := some a.toNat }, m)

/-- A byte at a 2-byte offset: the telemetry block, or BOOTSTS. -/
def i3cByte (sys : Sys) (m : Mach) (o : Nat) : Byte :=
  let w := if 0xFFF0 ≤ o ∧ o < 0xFFF8 then bootsts sys m else telemetry sys (o / 8 * 8)
  BitVec.ofNat 8 (w / 2 ^ (8 * (o % 8)))

def execI3cPrivateRead (off n : Nat) := onAll fun sys m =>
  ({ sys with lastBytes := (List.range n).map fun i => i3cByte sys m (off + i) }, m)

def execI3cPrivateWrite (off : Nat) (v : DWord) := onAll fun sys m =>
  if off = 0xFFF8 then ({ plimitWrite sys v.toNat with nack := false }, m) else ({ sys with nack := true }, m)

end Sys2Proof.Machine
end

