-- ==== Sys2Proof/Machine/Collectives.lean ====
section
/-! DEFINITION. Collectives (spec/01 R48-R67, R451; spec/22 R445-R449): work entries, communicators, the ring sequencers, windows,
tokens and landing reserves, one-sided puts, failures. -/

namespace Sys2Proof.Machine

/-! ### Reads and writes of the collective engine (spec/01 R451) -/

/-- What an access of the collective engine answers: a value, a wait for a locked page, an entry to post, a cause, or a request to another
device or to the host that it needs answered first (spec/06 R188, spec/01 R32). -/
inductive CRes (α : Type) where
  | ok (v : α)
  | wait
  | post (fdom va cause kind level : Nat) (write : Bool)
  | bad (cause : Nat) (pa : Nat := 0)
  | far (fdom key va loc : Nat) (wr : Option (List Byte))
deriving DecidableEq, Repr

def CRes.andThen {α β : Type} (r : CRes α) (f : α → CRes β) : CRes β :=
  match r with
  | .ok v => f v
  | .wait => .wait
  | .post d va c k l w => .post d va c k l w
  | .bad c p => .bad c p
  | .far d k va loc wr => .far d k va loc wr

/-- Nothing comes of the access yet. -/
def CRes.waits {α : Type} (m : Mach) : CRes α → Bool
  | .wait => true
  | .far d k va _ _ => m.unitAsks d k va
  | _ => false

/-- A location with its address, its length and the effective bits of its page. -/
structure CLoc where
  va : Nat
  loc : Nat
  len : Nat
  attr : Nat
deriving DecidableEq, Repr

/-- An uncorrectable word that the engine finds is logged (spec/06 R199). -/
def Mach.logBad (m : Mach) (cause pa : Nat) : Mach := if cause = 0x30 then m.logErr 0x30 0 pa else m

/-- One access that stays within a 4 KiB page. -/
def collAcc (sys : Sys) (m : Mach) (e : Eff) (key va len : Nat) (need : Need) : CRes CLoc :=
  match globalAcc sys m portCore e va 1 need false false with
  | .ok loc at_ _ =>
    if m.away loc then
      if need == .w then (if isRem loc && !(look ({} : Route) sys.routes (loc / 2 ^ 52 - 1)).v then .bad 0x26 else .ok ⟨va, loc, len, at_⟩)
      else match farRead sys m e.fdom key va loc len with
        | .ok => .ok ⟨va, loc, len, at_⟩
        | .ask a l => .far e.fdom (2 * key) a l none
        | .bad c l => .bad c l
    else if need.writes then (if badWrite m loc len then .bad 0x30 loc else .ok ⟨va, loc, len, at_⟩)
    else if badRange m loc len then .bad 0x30 loc else .ok ⟨va, loc, len, at_⟩
  | .park true _ _ _ _ => .wait
  | .park false c k l _ => .post e.fdom va c k l need.writes
  | .ecc pa => .bad 0x30 pa
  | _ => .bad 0x67

/-- The pieces of a range, cut at the 4 KiB pages that a subpage table may map apart (spec/06 R184); `n` bounds their number. -/
def collPieces (sys : Sys) (m : Mach) (e : Eff) (key : Nat) (need : Need) : Nat → Nat → Nat → CRes (List CLoc)
  | 0, _, _ => .ok []
  | n + 1, va, len =>
    let k := 4096 - va % 4096
    if len ≤ k then (collAcc sys m e key va len need).andThen fun a => .ok [a]
    else (collAcc sys m e key va k need).andThen fun a =>
      (collPieces sys m e key need n (va + k) (len - k)).andThen fun l => .ok (a :: l)

def collRange (sys : Sys) (m : Mach) (e : Eff) (key va len : Nat) (need : Need) : CRes (List CLoc) :=
  collPieces sys m e key need (len / 4096 + 2) va len

def collRead (sys : Sys) (m : Mach) (e : Eff) (key va len : Nat) : CRes (List Byte) :=
  (collRange sys m e key va len .r).andThen fun l => .ok (l.flatMap fun p => m.bytes p.loc p.len)

/-- A read of the engine corrects single-bit errors (spec/06 R198). -/
def Mach.collFix (sys : Sys) (m : Mach) (e : Eff) (key va len : Nat) : Mach :=
  match collRange sys m e key va len .r with
  | .ok l => (l.filter fun p => !m.away p.loc).foldl (fun m p => m.eccFix portCore p.loc p.len) m
  | _ => m

/-- The parts of a write that lie outside the device, each within a line: address, location and bytes. -/
def farParts (m : Mach) : List CLoc → List Byte → List (Nat × Nat × List Byte)
  | [], _ => []
  | a :: l, bs =>
    (if m.away a.loc then (List.range ((a.va % 64 + a.len + 63) / 64)).map fun i =>
        let skip := if i = 0 then 0 else 64 * i - a.va % 64
        let upto := Nat.min a.len (64 * (i + 1) - a.va % 64)
        (a.va + skip, a.loc + skip, (bs.drop skip).take (upto - skip))
      else []) ++ farParts m l (bs.drop a.len)

/-- They have all been written there. -/
def farWrite (sys : Sys) (m : Mach) (e : Eff) (key : Nat) (l : List CLoc) (bs : List Byte) : CRes Unit :=
  (farParts m l bs).foldl (fun r p => r.andThen fun _ =>
    match farState sys m portCore e.fdom (2 * key + 1) p.1 p.2.1 with
    | none => .far e.fdom (2 * key + 1) p.1 p.2.1 (some p.2.2)
    | some 0 => .ok ()
    | some c => .bad c p.2.1) (.ok ())

/-- Bytes written to the pieces of a range: with the stamp of the post, where its region is race-checked (spec/07 R221). Those of another
device have been written there. -/
def Mach.collPutBytes (m : Mach) (l : List CLoc) (race : Bool) (stamp : Nat) (bs : List Byte) : Mach :=
  (l.foldl (fun (p : Mach × List Byte) a =>
    let st := if race && raceLoc a.loc a.attr then some stamp else none
    (if isRem a.loc then p.1 else (p.1.store a.loc (p.2.take a.len) st).unrelease a.loc a.len, p.2.drop a.len)) (m, bs)).1

/-- The key of a head of a submission queue or of a started entry, and that of a message at the head of a port's channel. -/
def entKey (id : Nat) : Nat := 1024 * id
def headKey (c n vc : Nat) : Nat := 1024 * c + 8 * n + vc + 1

/-! ### Combining (spec/01 R55, R58) -/

/-- Element sizes of TYPE. -/
def elemBytes (ty : Nat) : Nat := nth [4, 4, 2, 16] ty

/-- The cause that a transformed-mean state in memory raises at a sequencer. -/
def stateCause (s : Nat) : Nat :=
  let sh := wN (bits s 96 32)
  if 4 ≤ tmFam sh then 0x60 else if tmShapeBad sh then 0x41 else 0

def stateOf (s : Nat) : TmSt := tmOf [wN (bits s 0 32), wN (bits s 32 32), wN (bits s 64 32)]

/-- Two BF16 elements. -/
def redBf16 (red a b : Nat) : Nat :=
  let x := bf16.dec a
  let y := bf16.dec b
  bf16.conv 0 false (if red = 1 then FV.add 0 x y else if red = 2 then fvMin x y else fvMax x y)

/-- The reduce op of a call (spec/05 R166) that serves i32 or f32. -/
def redCode (ty red : Nat) : Nat :=
  if ty = 0 then (if red = 1 then 1 else if red = 2 then 3 else 4) else if red = 1 then 2 else if red = 2 then 9 else 10

/-- One element: the result, or a cause. -/
def redElem (ty red a b : Nat) : Except Nat Nat :=
  if ty = 2 then .ok (redBf16 red a b)
  else if ty < 2 then .ok (redWord (redCode ty red) (wN a) (wN b)).toNat
  else
    let c := if stateCause a ≠ 0 then stateCause a else stateCause b
    if c ≠ 0 then .error c
    else if bits a 96 32 ≠ bits b 96 32 then .error 0x41
    else
      let sh := bits a 96 32
      let r := tmMergeOk (wN sh) (stateOf a) (stateOf b)
      .ok (r.s.toNat + 2 ^ 32 * r.ref.toNat + 2 ^ 64 * (r.n % 2 ^ 32) + 2 ^ 96 * sh)

/-- Elements of two buffers of `n` elements, the left operand first. -/
def redBytes (ty red : Nat) : Nat → List Byte → List Byte → Except Nat (List Byte)
  | 0, _, _ => .ok []
  | n + 1, a, b =>
    let k := elemBytes ty
    match redElem ty red (ofBytes (a.take k)) (ofBytes (b.take k)) with
    | .error c => .error c
    | .ok v => match redBytes ty red n (a.drop k) (b.drop k) with
      | .error c => .error c
      | .ok r => .ok (toBytes v k ++ r)

def combine (ty red : Nat) (a b : List Byte) : Except Nat (List Byte) := redBytes ty red (a.length / elemBytes ty) a b

/-- States that pass a sequencer without being merged are checked too. -/
def statesOk : Nat → List Byte → Except Nat Unit
  | 0, _ => .ok ()
  | n + 1, a => if stateCause (ofBytes (a.take 16)) ≠ 0 then .error (stateCause (ofBytes (a.take 16))) else statesOk n (a.drop 16)

/-! ### Tables -/

def Mach.comm? (m : Mach) (cid rank : Nat) : Option Comm := m.comms.find? fun c => c.cid == cid && c.rank == rank
def Mach.setComm (m : Mach) (c : Comm) : Mach := { m with comms := m.comms.map fun u => if u.id == c.id then c else u }
def Mach.coll? (m : Mach) (eid : Nat) : Option CollEnt := m.colls.find? fun e => e.eid == eid
def Mach.setColl (m : Mach) (e : CollEnt) : Mach := { m with colls := m.colls.map fun u => if u.eid == e.eid then e else u }
def Mach.dropColl (m : Mach) (eid : Nat) : Mach :=
  { m with colls := m.colls.filter (fun e => e.eid != eid), posts := m.posts.filter fun p => p.owner != .coll eid }

def isRingOp (op : Nat) : Bool := decide (0x10 ≤ op) && decide (op ≤ 0x14)

/-- The started entry of a SEQ at a rank. -/
def Mach.ringEnt? (m : Mach) (c : Comm) (seq : Nat) : Option CollEnt :=
  m.colls.find? fun e => isRingOp e.op && e.cid == c.cid && e.rank == c.rank && e.seq == seq

/-- A message of the collective engine. -/
def Mach.say (sys : Sys) (m : Mach) (dev cls vc : Nat) (p : Payload) : Mach := { m with out := m.out ++ [⟨sys.devid, dev, cls, vc, p⟩] }

/-! ### Retirement of entries (spec/01 R56, R66; spec/17 R413) -/

/-- An outcome is recorded: DONECTR incremented with release, or the cause held against the poster. -/
def Mach.collRecord (m : Mach) (rcb q poster launch wave : Nat) (tag : DWord) (op donectr outcome : Nat) : Mach :=
  let m := m.addRec rcb q { tag := tag, op := op, outcome := outcome }
  if outcome ≠ 0 then
    m.holdErr poster { q := .pair q, cause := outcome, va := tag.toNat, ctr := if donectr = 0xFFFF then none else some donectr }
  else if donectr < m.boundCtrs rcb then
    (m.sync poster 6 true false (.ctr rcb donectr)).ctrAdd rcb donectr 1 (m.relOf launch wave)
  else m

def Mach.collEnd (m : Mach) (e : CollEnt) (outcome : Nat) : Mach :=
  ((m.dropColl e.eid).collRecord e.rcb e.q e.poster e.launch e.wave e.tag e.op e.donectr outcome).purge

/-- The message carries data of this entry. -/
def CollEnt.sentIn (sys : Sys) (e : CollEnt) (x : Msg) : Bool :=
  x.src == sys.devid && match x.body with
    | .chunk cid rank seq _ _ _ _ _ _ _ => isRingOp e.op && cid == e.cid && rank == e.succ && seq == e.seq
    | .put _ _ _ eid _ _ _ _ _ _ _ _ => eid == e.eid
    | _ => false

/-- Data of the entry has not left the device. -/
def Mach.unsent (sys : Sys) (m : Mach) (e : CollEnt) : Bool :=
  e.sdev != sys.devid && ((m.out.any (e.sentIn sys)) || (sys.fport e.port).outq.any fun y => y.2.any (e.sentIn sys))

/-- The number of a chunk in its sender's count. -/
def chunkNo (x : Msg) : Nat :=
  match x.body with
  | .chunk _ _ _ k _ _ _ _ _ _ => k
  | .put _ _ _ _ k _ _ _ _ _ _ _ => k
  | _ => 0

/-- An entry that ends at its start. -/
def Mach.subEnd (m : Mach) (rcb q : Nat) (e : SubEnt) (outcome : Nat) : Mach :=
  let n := ofBytes e.bytes
  m.collRecord rcb q e.poster e.launch e.wave (BitVec.ofNat 64 (bits n 384 64)) (bits n 0 8) (bits n 48 16) outcome

/-! ### Completion tokens (spec/01 R61, spec/22 R449) -/

/-- The place of chunk `c` towards a rank is open again. -/
def Comm.ack (c : Comm) (rank k : Nat) : Comm :=
  if c.acked.contains (rank, k) then c else { c with acked := c.acked ++ [(rank, k)] }

/-- A failing entry takes back the data that it has handed over and that has not left: their places in the window are open again. -/
def Mach.takeBack (sys : Sys) (m : Mach) (e : CollEnt) : Mach :=
  let xs := m.out.filter (e.sentIn sys)
  let m : Mach := { m with out := m.out.filter fun x => !e.sentIn sys x }
  match m.comm? e.cid e.rank with
  | some c => m.setComm (xs.foldl (fun c x => c.ack e.succ (chunkNo x)) c)
  | none => m

/-- A token, completion (circuit 0) or barrier, goes to a rank: inside the sequencer where that rank lies on this device, else
on VC0. One that an open communicator does not take is kept to be sent again. -/
def Mach.sendTok (sys : Sys) (m : Mach) (c : Comm) (t : KeptTok) : Mach :=
  if t.dev ≠ sys.devid then
    m.say sys t.dev 0 0 (if t.circuit = 0 then .token c.cid t.rank c.rank t.c else .ringTok c.cid t.rank c.rank t.seq t.circuit)
  else match m.comm? c.cid t.rank with
    | none => match m.comm? c.cid c.rank with
      | some c => m.setComm { c with kept := c.kept ++ [{ t with at_ := sys.ticks + 100 }] }
      | none => m
    | some r =>
      if t.circuit = 0 then m.setComm (r.ack c.rank t.c)
      else if r.failed.any fun f => f.1 == t.seq then m
      else m.setComm { r with toks := r.toks ++ [(t.seq, t.circuit)] }

/-- The predecessor of a rank (spec/01 R57). -/
def Comm.pred (c : Comm) : Nat := (c.rank + c.nrank - 1) % c.nrank
def Comm.succ (c : Comm) : Nat := (c.rank + 1) % c.nrank

/-- An arrived chunk is consumed: its place in the reserve is free, and its token goes back. -/
def Mach.consume (sys : Sys) (m : Mach) (c : Comm) (k : InChunk) : Mach :=
  match m.comm? c.cid c.rank with
  | none => m
  | some c =>
    let m := m.setComm { c with chunks := c.chunks.erase k }
    m.sendTok sys c { dev := k.src, rank := c.pred, seq := k.seq, circuit := 0, c := k.c, at_ := 0 }

/-! ### Failures (spec/01 R67) -/

/-- An entry of a rank list, from the cache or from memory. -/
def rankDev (sys : Sys) (m : Mach) (e : Eff) (key : Nat) (c : Comm) (r : Nat) : CRes Nat :=
  if r < c.cached.length then .ok (c.cached.getD r 0)
  else (collRead sys m e key (c.rlva + 8 + 2 * r) 2).andThen fun bs => .ok (ofBytes bs % 4096)

/-- The successor's device, as it was read last. -/
def succRead (sys : Sys) (m : Mach) (c : Comm) : CRes Nat :=
  match c.succDev with
  | some d => .ok d
  | none => rankDev sys m c.eff (headKey c.id fabricPorts 0) c c.succ

/-- The successor on another device is told of a failure. DESIGN CHOICE (log 147): the message is of class 0, on VC0; the class table of
spec/01 R38 names none for it. -/
def Mach.tell (sys : Sys) (m : Mach) (c : Comm) (seq cause d : Nat) : Mach :=
  if d = sys.devid then m else m.say sys d 0 0 (.failure c.cid c.succ seq cause)

/-- A SEQ has failed at a rank: its chunks are released, its barrier tokens forgotten, its started entry ends, and the successor
is told, once its device can be read. -/
def Mach.failRank (sys : Sys) (m : Mach) (seq cause : Nat) (c : Comm) : Mach :=
  if c.failed.any fun f => f.1 == seq then m
  else
    let m := m.setComm { c with failed := c.failed ++ [(seq, cause)], toks := c.toks.filter fun t => t.1 != seq }
    let m := (c.chunks.filter fun k => k.seq == seq).foldl (fun m k => m.consume sys c k) m
    let m := match m.ringEnt? c seq with
      | some e => (m.takeBack sys e).collEnd e cause
      | none => m
    match succRead sys m c, m.comm? c.cid c.rank with
    | .ok d, _ => m.tell sys c seq cause d
    | .bad _ _, _ => m
    | _, some c => m.setComm { c with untold := c.untold ++ [(seq, cause)] }
    | _, none => m

/-- It fails at every rank of this device. -/
def Mach.failSeq (sys : Sys) (m : Mach) (cid seq cause : Nat) : Mach :=
  (m.comms.filter fun c => c.cid == cid).foldl (fun m c => match m.comm? c.cid c.rank with
    | some c => m.failRank sys seq cause c
    | none => m) m

/-- A started entry fails. -/
def Mach.collFail (sys : Sys) (m : Mach) (e : CollEnt) (cause : Nat) : Mach :=
  if isRingOp e.op then
    match m.comm? e.cid e.rank with
    | some c => (if c.failed.any fun f => f.1 == e.seq then m.collEnd e cause else m.failSeq sys e.cid e.seq cause)
    | none => m.collEnd e cause
  else (m.takeBack sys e).collEnd e cause

/-! ### Starting an entry (spec/01 R48-R56) -/

/-- Checks of a work entry that need no communicator (spec/01 R55, spec/17 R418). -/
def entryBad (m : Mach) (rcb n : Nat) : Bool :=
  let op := bits n 0 8
  let red := bits n 8 4
  let ty := bits n 12 4
  let len := bits n 256 32
  let comb := op == 0x02 || op == 0x10 || op == 0x12
  let ctrBad (c : Nat) : Bool := c != 0xFFFF && decide (m.boundCtrs rcb ≤ c)
  !(op == 0x01 || op == 0x02 || isRingOp op || op == 0x30 || op == 0x31)
    || bits n 448 64 != 0 || bits n 21 11 != 0 || decide (3 < ty) || decide (4 < red)
    || (if comb then red == 0 || (red == 4) != (ty == 3) else red != 0)
    || bits n 320 6 != 0
    || (len == 0 && op != 0x14 && op != 0x30 && op != 0x31) || len % elemBytes ty != 0
    || ctrBad (bits n 32 16) || ctrBad (bits n 48 16)

/-- Checks of a descriptor (spec/01 R50); its reserved fields have no effect (spec/00 R4). -/
def descBad (d : Nat) : Bool :=
  bits d 120 4 == 0 || bits d 192 12 != 0 || bits d 0 3 != 0
    || bits d 112 3 == 0 || bits d 112 3 == 7 || bits d 64 32 == 0 || decide (65535 < bits d 64 32)
    || decide (bits d 64 32 ≤ bits d 96 16)

/-- Room that the cache has for the list of a communicator: its own place, else what is left of 32 lists, 4,096 entries in all (spec/01 R51).
A place is given up by a close alone. -/
def Mach.listRoom (m : Mach) (cid rank : Nat) : Nat :=
  let own := ((m.comm? cid rank).map fun c => c.place).getD 0
  let others := m.comms.filter fun c => !(c.cid == cid && c.rank == rank) && c.place != 0
  if own ≠ 0 then own else if others.length ≥ 32 then 0 else 4096 - (others.map fun c => c.place).sum

/-- The first `k` entries of a rank list, from memory. -/
def listRead (sys : Sys) (m : Mach) (e : Eff) (key rlva k : Nat) : CRes (List Nat) :=
  if k = 0 then .ok []
  else (collRead sys m e key (rlva + 8) (2 * k)).andThen fun bs => .ok ((List.range k).map fun i => ofBytes ((bs.drop (2 * i)).take 2) % 4096)

/-- GEN and the list are read afresh after an `rlinv`; a communicator with nothing cached takes a free place (spec/01 R51). -/
def commFresh (sys : Sys) (m : Mach) (e : Eff) (key : Nat) (c : Comm) : CRes Comm :=
  (if c.reread then (collRead sys m e key c.rlva 4).andThen fun bs => .ok { c with gen := ofBytes bs, reread := false, succDev := none }
   else .ok c).andThen fun c =>
  if c.cached != [] then .ok c
  else
    let k := Nat.min c.nrank (m.listRoom c.cid c.rank)
    (listRead sys m e key c.rlva k).andThen fun l => .ok { c with cached := l, place := k }

/-- What the start of an entry comes to: its cause, whether its ring fails with it, and where it runs. -/
structure CStart where
  cause : Nat := 0
  spread : Bool := false
  dsc : Nat := 0
  comm : Option Comm := none
  port : Nat := 0
  succ : Nat := 0
  sdev : Nat := 0
deriving DecidableEq, Repr

/-- No route, or an operation that the link does not support (spec/01 R44, R37). -/
def pathCause (sys : Sys) (red ty dev : Nat) : Nat :=
  let r := look ({} : Route) sys.routes dev
  let p := sys.fport r.prim
  if !r.v then 0x63 else if p.state = 2 ∧ p.ver < needVer red ty (Nat.max sys.devid dev) then 0x62 else 0

/-- Checks of an entry against its open communicator, in order. -/
def commCause (c : Comm) (n d : Nat) (bad : Bool) : Nat :=
  let op := bits n 0 8
  let scat := op == 0x10 || op == 0x11 || op == 0x12
  if bad || decide (c.nrank ≤ bits n 96 16) then 0x60
  else if scat && bits n 256 32 % (c.nrank * elemBytes (bits n 12 4)) != 0 then 0x60
  else if bits d 128 32 ≠ c.gen then 0x61
  else 0

/-- A failure of an access becomes the cause of the entry. -/
def CRes.orCause (r : CRes CStart) (f : Nat → CStart) : CRes CStart :=
  match r with
  | .bad c _ => .ok (f c)
  | r => r

/-- A SEQ that is not above one already started at the rank that a descriptor names (spec/01 R55). -/
def Mach.staleSeq (m : Mach) (d seq : Nat) : Bool :=
  (m.comm? (bits d 288 16) (bits d 96 16)).any fun c => c.maxSeq.any fun s => decide (seq ≤ s)

/-- The start of an entry, once its descriptor `d` has been read. An entry whose SEQ is not above one already started fails alone, whatever
else is wrong with it (spec/01 R55, R67). -/
def collStartAt (sys : Sys) (m : Mach) (eff : Eff) (key n d : Nat) (bad : Bool) : CRes CStart :=
  let op := bits n 0 8
  let seq := bits n 288 32
  let ring := isRingOp op
  if op ≠ 0x30 ∧ m.staleSeq d seq then .ok { cause := 0x60 }
  else if descBad d then .ok { cause := 0x60, spread := ring, dsc := d }
  else if op = 0x30 then .ok { cause := if bits d 64 32 ≤ bits n 96 16 then 0x60 else 0, dsc := d }
  else match m.comm? (bits d 288 16) (bits d 96 16) with
    | none => .ok { cause := 0x60, spread := ring, dsc := d }
    | some c => match (if ring then c.failed.find? fun f => f.1 == seq else none) with
        | some f => .ok { cause := f.2 }
        | none =>
          let failed (k : Nat) : CStart := { cause := k, spread := ring, dsc := d, comm := some c }
          ((commFresh sys m eff key c).andThen fun c =>
          let cause := commCause c n d bad
          if op = 0x31 ∨ (cause ≠ 0 ∧ !ring) then .ok { cause := cause, dsc := d, comm := some c }
          else
            let succ := if ring then c.succ else bits n 96 16
            (rankDev sys m eff key c succ).andThen fun dev =>
              let c := if ring then { c with succDev := some dev } else c
              let here : Bool := c.nrank == 1 || dev == sys.devid
              let path := if here then 0 else pathCause sys (bits n 8 4) (bits n 12 4) dev
              let port := if here then 0 else (look ({} : Route) sys.routes dev).prim
              let cause := if cause = 0 then path else cause
              .ok { cause := cause, spread := ring && cause != 0, dsc := d, comm := some c, port := port, succ := succ,
                    sdev := if here then sys.devid else dev }).orCause failed

def collStart (sys : Sys) (m : Mach) (rcb : Nat) (e : SubEnt) : CRes CStart :=
  let n := ofBytes e.bytes
  let bad := entryBad m rcb n
  let key := entKey e.eid
  if bad && (!isRingOp (bits n 0 8) || bits n 320 6 != 0) then .ok { cause := 0x60 }
  else (collRead sys m (m.eff e.launch) key (bits n 320 64) 64).andThen fun bs => collStartAt sys m (m.eff e.launch) key n (ofBytes bs) bad

/-- A ring entry that fails at its start fails at every rank of this device, and the rank after it is told (spec/01 R67): where its own rank
has nothing open, over the rank list that its descriptor names. -/
def Mach.startSpread (sys : Sys) (m : Mach) (eff : Eff) (key d seq cause : Nat) : Mach :=
  let cid := bits d 288 16
  let rank := bits d 96 16
  let succ := (rank + 1) % Nat.max 1 (bits d 64 32)
  let far := (m.comm? cid rank).isNone
  let m := m.failSeq sys cid seq cause
  match collRead sys m eff key (bits d 0 64 + 8 + 2 * succ) 2 with
  | .ok bs =>
    let dev := ofBytes bs % 4096
    if far && dev != sys.devid then m.say sys dev 0 0 (.failure cid succ seq cause) else m
  | _ => m

/-- A ring entry whose descriptor can be read, and whose SEQ is above every one started, spreads a failure of its start. -/
def Mach.startFails (sys : Sys) (m : Mach) (e : SubEnt) (cause : Nat) : Mach :=
  let n := ofBytes e.bytes
  let seq := bits n 288 32
  match isRingOp (bits n 0 8), collRead sys m (m.eff e.launch) (entKey e.eid) (bits n 320 64) 64 with
  | true, .ok bs =>
    let d := ofBytes bs
    if m.staleSeq d seq then m else m.startSpread sys (m.eff e.launch) (entKey e.eid) d seq cause
  | _, _ => m

/-- The entry as it stands on its sequencer. -/
def startedEnt (rcb q : Nat) (e : SubEnt) (s : CStart) : CollEnt :=
  let n := ofBytes e.bytes
  { eid := e.eid, rcb := rcb, q := q, poster := e.poster, wave := e.wave, launch := e.launch, fdom := e.fdom, stamp := e.stamp
    port := s.port, op := bits n 0 8, tag := BitVec.ofNat 64 (bits n 384 64), dsc := s.dsc, cid := bits s.dsc 288 16
    rank := bits s.dsc 96 16, nrank := bits s.dsc 64 32, seq := bits n 288 32, len := bits n 256 32, dst := bits n 192 64
    src := bits n 128 64, rctr := bits n 112 16, peer := bits n 96 16, donectr := bits n 48 16, rsig := tbit n 20
    prio := bits n 16 4, ty := bits n 12 4, red := bits n 8 4, succ := s.succ, sdev := s.sdev }

/-- The start takes effect: the entry fails, or stands on its sequencer. -/
def Mach.collStarted (sys : Sys) (m : Mach) (rcb q : Nat) (e : SubEnt) (s : CStart) : Mach :=
  let n := ofBytes e.bytes
  let m := match s.comm with
    | some c => m.setComm c
    | none => m
  if s.cause ≠ 0 then
    let m := m.subEnd rcb q e s.cause
    if s.spread then m.startSpread sys (m.eff e.launch) (entKey e.eid) s.dsc (bits n 288 32) s.cause else m
  else
    let m := match s.comm with
      | some c => m.setComm { c with maxSeq := some (bits n 288 32) }
      | none => m
    { m with colls := m.colls ++ [startedEnt rcb q e s] }

/-- An `rlinv` drops the cached list of an open communicator (spec/17 R415), which keeps its place in the cache; one without a place takes a
free one now (spec/01 R51). An address that is not one fails it. -/
def Mach.rlinvDo (sys : Sys) (m : Mach) (q : Nat) (e : SubEnt) : CRes Mach :=
  if e.desc % 64 ≠ 0 then .ok (m.holdErr e.poster { q := .pair q, cause := 0x64, va := e.desc })
  else (collRead sys m (m.eff e.launch) (entKey e.eid) e.desc 64).andThen fun bs =>
    match m.comm? (bits (ofBytes bs) 288 16) (bits (ofBytes bs) 96 16) with
    | some c => .ok (m.setComm { c with cached := [], place := Nat.min c.nrank (m.listRoom c.cid c.rank), reread := true })
    | none => .ok m

/-- The operation at the head of a submission queue leaves it. -/
def Mach.subPop (m : Mach) (rcb q : Nat) : Mach :=
  let p := m.pair rcb q
  m.setPair { p with subs := p.subs.drop 1 }

def Mach.setSub (m : Mach) (rcb q : Nat) (e : SubEnt) : Mach :=
  let p := m.pair rcb q
  m.setPair { p with subs := p.subs.map fun (u : SubEnt) => if u.eid == e.eid then e else u }

/-- An entry of a fault queue for an access of the collective engine (spec/17 R408). -/
def Mach.collPost (m : Mach) (id fdom rcb va cause kind level : Nat) (write : Bool) : Mach :=
  { m with posts := m.posts ++
      [{ fdom := fdom, owner := .coll id, cause := cause, kind := kind, level := level, fetch := false, write := write, nthr := 0,
         core := portCore, rcb := rcb, va := va }] }

/-- The head of a submission queue starts: in queue order, once it is armed. -/
def Mach.startHead (sys : Sys) (m : Mach) (rcb q : Nat) (e : SubEnt) : Mach :=
  let fail (c pa : Nat) : Mach :=
    if e.rlinv then ((m.logBad c pa).subPop rcb q).holdErr e.poster { q := .pair q, cause := c, va := e.desc }
    else ((((m.logBad c pa).subPop rcb q).subEnd rcb q e c).startFails sys e c)
  let post (d va c k l : Nat) (w : Bool) : Mach :=
    (m.setSub rcb q { e with fault := some va, answer := none }).collPost e.eid d rcb va c k l w
  let done (m : Mach) : Mach := m.unitDone (entKey e.eid)
  if e.rlinv then match m.rlinvDo sys q e with
    | .ok m => done (m.subPop rcb q)
    | .wait => m
    | .post d va c k l w => post d va c k l w
    | .bad c pa => done (fail c pa)
    | .far d k va loc wr => m.askUnit sys d k va loc wr
  else match collStart sys m rcb e with
    | .ok s => done ((m.subPop rcb q).collStarted sys rcb q e s)
    | .wait => m
    | .post d va c k l w => post d va c k l w
    | .bad c pa => done (fail c pa)
    | .far d k va loc wr => m.askUnit sys d k va loc wr

/-- COLL_ENTRY_START. -/
def execCollEntryStart (rcb q : Nat) := onMach fun sys m =>
  match (m.pair rcb q).subs with
  | [] => m
  | e :: _ =>
    if !(e.armed || e.rlinv) then m
    else match e.fault, e.answer with
      | none, _ => m.startHead sys rcb q e
      | some _, none => m
      | some _, some 0 => m.startHead sys rcb q { e with fault := none, answer := none }
      | some va, some _ =>
        if e.rlinv then (m.subPop rcb q).holdErr e.poster { q := .pair q, cause := 0x67, va := va }
        else (((m.subPop rcb q).subEnd rcb q e 0x67).startFails sys e 0x67)

/-! ### Open and close (spec/01 R50-R52) -/

/-- A descriptor that cannot be opened beside what is open: a CID in use is opened again only for another rank of this device, with the same
RLVA, NRANK, GEN, VC and WIN and another LANDVA (spec/01 R50). DESIGN CHOICE (log 132): a landing reserve that overlaps one already
reserved is opened, but for an equal LANDVA under the same CID; the spec does not say what such an open does. -/
def openBad (sys : Sys) (m : Mach) (d : Nat) : Bool :=
  let vc := bits d 112 3
  (sys.fports.any fun p => p.bulkReq == vc || p.bulkRsp == vc)
    || m.comms.any fun c => c.cid == bits d 288 16 && (c.rank == bits d 96 16 || c.rlva != bits d 0 64 || c.nrank != bits d 64 32
        || c.dgen != bits d 128 32 || c.vc != vc || c.win != bits d 120 4 || c.landva == bits d 192 64)

/-- The communicator of a descriptor, with what is cached of its list. A second rank under one CID must be this device's in the list; that
of a first open is not checked (DESIGN CHOICE, log 147: spec/01 R50 gives the check for a CID that is open already). -/
def openComm (sys : Sys) (m : Mach) (e : CollEnt) : CRes Comm :=
  let eff := m.eff e.launch
  let d := e.dsc
  let rlva := bits d 0 64
  let k := Nat.min e.nrank (m.listRoom e.cid e.rank)
  let key := entKey e.eid
  (collRead sys m eff key rlva 4).andThen fun g =>
    (listRead sys m eff key rlva k).andThen fun l =>
      (if m.comms.any fun c => c.cid == e.cid then collRead sys m eff key (rlva + 8 + 2 * e.rank) 2
       else .ok (toBytes sys.devid 2)).andThen fun own =>
      if ofBytes own % 4096 ≠ sys.devid then .bad 0x60
      else .ok { id := m.next, cid := e.cid, rank := e.rank, nrank := e.nrank, gen := ofBytes g, dgen := bits d 128 32, vc := bits d 112 3
                 win := bits d 120 4, landva := bits d 192 64, rlva := rlva, rcb := e.rcb, eff := eff, cached := l, place := k
                 maxSeq := some e.seq }

/-- The SEQ is one of a communicator that has been closed, and not opened anew. -/
def Mach.isPast (m : Mach) (cid seq : Nat) : Bool := m.closed.any fun x => x.1 == cid && decide (seq ≤ x.2)

/-- A communicator opens; failures of its SEQs that came before it apply to it now (spec/01 R67). -/
def Mach.openNow (sys : Sys) (m : Mach) (c : Comm) : Mach :=
  let late := m.lateFails.filter fun f => f.1 == c.cid && !m.isPast f.1 f.2.1
  let m : Mach := { m with
    comms := m.comms ++ [c], next := m.next + 1
    lateFails := m.lateFails.filter fun f => f.1 != c.cid, closed := m.closed.filter fun x => x.1 != c.cid }
  late.foldl (fun m f => m.failSeq sys f.1 f.2.1 f.2.2) m

/-- A step of an entry that an access of the engine decides. -/
def Mach.collDo (sys : Sys) (m : Mach) (e : CollEnt) (r : CRes Mach) : Mach :=
  match r with
  | .ok m => m.unitDone (entKey e.eid)
  | .wait => m
  | .post d va c k l w => (m.setColl { e with fault := some va, answer := none }).collPost e.eid d e.rcb va c k l w
  | .bad c pa => ((m.logBad c pa).collFail sys e c).unitDone (entKey e.eid)
  | .far d k va loc wr => m.askUnit sys d k va loc wr

/-- The answer to its fault lets an entry's step go on, or fails the entry. -/
def Mach.collGate (sys : Sys) (m : Mach) (e : CollEnt) (f : Mach → CollEnt → Mach) : Mach :=
  match e.fault, e.answer with
  | none, _ => f m e
  | some _, none => m
  | some _, some 0 => let e := { e with fault := none, answer := none }; f (m.setColl e) e
  | some _, some _ => m.collFail sys e 0x67

/-- COLL_OPEN. -/
def execCollOpen (eid : Nat) := onMach fun sys m =>
  match m.coll? eid with
  | none => m
  | some e =>
    if e.op ≠ 0x30 then m
    else m.collGate sys e fun m e =>
      if openBad sys m e.dsc then m.collEnd e 0x60
      else m.collDo sys e ((openComm sys m e).andThen fun c =>
        .ok ((m.openNow sys c).collEnd e 0))

/-- The communicator of a rank closes. The CID and the highest SEQ started under it are kept: a failure of those that comes later is none of
a communicator opened anew (spec/01 R67; log 147). -/
def Mach.closeNow (m : Mach) (e : CollEnt) : Mach :=
  let old := ((m.comm? e.cid e.rank).bind fun c => c.maxSeq).getD 0
  { m with
    comms := m.comms.filter fun c => !(c.cid == e.cid && c.rank == e.rank)
    closed := (m.closed.filter fun x => x.1 != e.cid) ++ [(e.cid, Nat.max old (look 0 m.closed e.cid))] }

/-- COLL_CLOSE: no entry of the communicator that started before it is left. -/
def execCollClose (eid : Nat) := onMach fun _ m =>
  match m.coll? eid with
  | none => m
  | some e =>
    let before := m.colls.takeWhile fun u => u.eid != eid
    if e.op ≠ 0x31 ∨ (before.any fun u => u.cid == e.cid && u.rank == e.rank) then m
    else (m.closeNow e).collEnd e 0

/-! ### Chunks of an entry (spec/01 R57-R60, spec/22 R445, R446) -/

def chunkBytes : Nat := 4096
def chunksOf (len : Nat) : Nat := (len + 4095) / 4096

/-- Bytes of a segment. -/
def CollEnt.segLen (e : CollEnt) : Nat :=
  if e.op = 0x10 ∨ e.op = 0x11 ∨ e.op = 0x12 then e.len / Nat.max 1 e.nrank else e.len

/-- Chunks of its own first segment. -/
def CollEnt.ownCount (e : CollEnt) : Nat :=
  if e.op = 0x14 then 0 else if e.op = 0x13 ∧ e.rank ≠ e.peer then 0 else chunksOf e.segLen

/-- Chunks that the entry sends, and writes, before it retires. -/
def CollEnt.sends (e : CollEnt) : Nat :=
  let k := chunksOf e.segLen
  match e.op with
  | 0x10 => k * (e.nrank - 1)
  | 0x11 => k * (e.nrank - 1)
  | 0x12 => 2 * k * (e.nrank - 1)
  | 0x13 => if e.succ = e.peer then 0 else k
  | _ => k

def CollEnt.writes (e : CollEnt) : Nat :=
  let k := chunksOf e.segLen
  match e.op with
  | 0x10 => k
  | 0x11 => k * e.nrank
  | 0x12 => k * e.nrank
  | 0x13 => k
  | _ => 0

/-- One chunk turn: the chunk that arrived, or one of its own; where its bytes are read; its right operand; where it is written;
and what goes to the successor (segment, offset, second phase). -/
structure CStep where
  arr : Option InChunk := none
  src : Nat := 0
  right : Option Nat := none
  dst : Option Nat := none
  send : Option (Nat × Nat × Bool) := none
  len : Nat
deriving DecidableEq, Repr

/-- Where a finished segment lands: a reduce-scatter writes its own at DSTVA. -/
def CollEnt.landAt (e : CollEnt) (k off : Nat) : Nat := if e.op = 0x10 then off else k * e.segLen + off

/-- Its own chunk `i`. -/
def CollEnt.ownStep (e : CollEnt) (i : Nat) : CStep :=
  let off := chunkBytes * i
  let len := Nat.min chunkBytes (e.segLen - off)
  match e.op with
  | 0x11 => { src := off, dst := some (e.rank * e.segLen + off), send := if e.nrank = 1 then none else some (e.rank, off, true), len := len }
  | 0x13 => { src := off, dst := some off, send := if e.succ = e.peer then none else some (0, off, true), len := len }
  | 0x01 => { src := off, send := some (0, off, false), len := len }
  | 0x02 => { src := off, send := some (0, off, false), len := len }
  | _ =>
    let k := (e.rank + e.nrank - 1) % Nat.max 1 e.nrank
    if e.nrank = 1 then { src := off, dst := some (e.landAt 0 off), len := len }
    else { src := k * e.segLen + off, send := some (k, off, false), len := len }

/-- What it does with a chunk that has arrived. -/
def CollEnt.arrStep (e : CollEnt) (a : InChunk) : CStep :=
  let on := some (a.seg, a.off, a.gather)
  if e.op = 0x13 then { arr := some a, dst := some a.off, send := if e.succ = e.peer then none else on, len := a.len }
  else if e.op = 0x11 ∨ a.gather then
    { arr := some a, dst := some (a.seg * e.segLen + a.off), send := if e.succ = a.seg then none else on, len := a.len }
  else if a.seg = e.rank then
    { arr := some a, right := some (a.seg * e.segLen + a.off), dst := some (e.landAt a.seg a.off)
      send := if e.op = 0x12 then some (a.seg, a.off, true) else none, len := a.len }
  else { arr := some a, right := some (a.seg * e.segLen + a.off), send := on, len := a.len }

/-! ### The pick of a sequencer (spec/01 R61-R64) -/

/-- The virtual channel of an entry's chunks (spec/01 R38, R54). -/
def CollEnt.vcOf (e : CollEnt) (c : Comm) : Nat :=
  if e.op = 0x14 then 0 else if e.op = 0x01 ∧ e.len ≤ 64 then 0 else c.vc

/-- The link to the successor takes flits: it is up, and its channel is not held; nothing stands between two ranks here. -/
def linkTakes (sys : Sys) (m : Mach) (e : CollEnt) (c : Comm) : Bool :=
  if e.sdev = sys.devid then e.op == 0x14 || (m.comm? e.cid e.succ).isSome
  else
    let p := sys.fport e.port
    let vc := e.vcOf c
    p.state == 2 && (vc == 0 || !tbit p.hold vc)

/-- The window has a place (spec/01 R61). -/
def Comm.open_ (c : Comm) (succ : Nat) : Bool :=
  let k := look 0 c.sent succ
  decide (k < c.win) || c.acked.contains (succ, k - c.win)

/-- A started entry of a lower SEQ, a ring step or a put, still has a chunk to send to the same rank (spec/01 R62). -/
def Mach.seqHolds (m : Mach) (e : CollEnt) : Bool :=
  let ch (u : CollEnt) : Bool := u.op != 0x14 && u.op != 0x30 && u.op != 0x31
  ch e && m.colls.any fun u => ch u && u.cid == e.cid && u.rank == e.rank && decide (u.seq < e.seq) && u.succ == e.succ
    && decide (u.sent < u.sends)

def canSend (sys : Sys) (m : Mach) (e : CollEnt) (c : Comm) : Bool :=
  linkTakes sys m e c && (e.op == 0x14 || (c.open_ e.succ && !m.seqHolds e))

/-- The chunk of an entry that stands first: the earliest of its sender's count, parked or not (spec/01 R63, spec/22 R446). -/
def Comm.first (c : Comm) (seq : Nat) : Option InChunk :=
  minBy (fun a b => decide (a.c < b.c)) (c.chunks.filter fun k => k.seq == seq)

/-- The chunk turn that an entry is ready for. -/
def Mach.readyStep (sys : Sys) (m : Mach) (e : CollEnt) (c : Comm) : Option CStep :=
  let go (s : CStep) : Bool := s.send.isNone || canSend sys m e c
  let own : Option CStep := if e.own < e.ownCount && go (e.ownStep e.own) then some (e.ownStep e.own) else none
  match (if isRingOp e.op then c.first e.seq else none) with
  | some a => if go (e.arrStep a) then some (e.arrStep a) else own
  | none => own

/-- A chunk that has arrived and cannot be forwarded is to be parked (spec/01 R63, spec/22 R448). -/
def Mach.toPark (sys : Sys) (m : Mach) (e : CollEnt) (c : Comm) : Option InChunk :=
  if canSend sys m e c then none
  else c.chunks.find? fun k => k.seq == e.seq && !k.parked && (e.arrStep k).send.isSome

/-- The barrier token that an entry may send or take: (circuit it takes, circuit it sends) (spec/22 R447). -/
def Mach.readyTok (sys : Sys) (m : Mach) (e : CollEnt) (c : Comm) : Option (Option Nat × Option Nat) :=
  if e.op ≠ 0x14 ∨ e.nrank = 1 then none
  else
    let r := match c.toks.find? fun t => t.1 == e.seq with
      | some t =>
        if t.2 = 1 then some (some 1, some (if e.rank = 0 then 2 else 1))
        else some (some 2, if e.rank = 0 then none else some 2)
      | none => if e.rank = 0 ∧ e.toks = 0 then some (none, some 1) else none
    match r with
    | some (a, some b) => if canSend sys m e c then some (a, some b) else none
    | r => r

/-- Locations that a chunk turn reads and writes. -/
structure CPlan where
  data : List Byte
  dst : List CLoc := []
deriving DecidableEq, Repr

/-- The bytes of a chunk turn: read, combined, checked. -/
def chunkPlan (sys : Sys) (m : Mach) (e : CollEnt) (c : Comm) (s : CStep) : CRes CPlan :=
  let eff := m.eff e.launch
  let key := entKey e.eid
  let left : CRes (List Byte) := match s.arr with
    | some a => if a.parked then collRead sys m eff key (c.landva + chunkBytes * (a.c % c.win)) s.len else .ok a.bytes
    | none => collRead sys m eff key (e.src + s.src) s.len
  left.andThen fun bs =>
    let mixed : CRes (List Byte) := match s.right with
      | some o => (collRead sys m eff key (e.src + o) s.len).andThen fun r => match combine e.ty e.red bs r with
        | .ok v => .ok v
        | .error k => .bad k
      | none =>
        if e.red = 4 then match statesOk (bs.length / 16) bs with
          | .ok _ => .ok bs
          | .error k => .bad k
        else .ok bs
    mixed.andThen fun bs => match s.dst with
      | none => .ok { data := bs }
      | some o => (collRange sys m eff key (e.dst + o) s.len .w).andThen fun l =>
          (farWrite sys m eff key l bs).andThen fun _ => .ok { data := bs, dst := l }

/-! ### Parking (spec/01 R63, R450) -/

/-- Where a chunk of a communicator is parked: a slot of the reserve, in cavern. -/
def reserveAt (sys : Sys) (m : Mach) (eff : Eff) (c : Comm) (k : Nat) (len : Nat) : CRes (List CLoc) :=
  (collRange sys m eff (entKey c.id) (c.landva + chunkBytes * (k % c.win)) len .w).andThen fun l =>
    if l.all fun a => inCavern a.loc a.len then .ok l else .bad 0x67

/-- A chunk lies in the reserve, with the stamp of the entry that parks it, or the cleared one (spec/07 R221; log 120). -/
def Mach.parkIn (m : Mach) (c : Comm) (a : InChunk) (l : List CLoc) (stamp : Nat) : Mach :=
  (m.setComm { c with chunks := (c.chunks.erase a) ++ [{ a with parked := true, bytes := [] }] }).collPutBytes l c.eff.race stamp a.bytes

/-! ### Arrival of a chunk (spec/01 R49, R63) -/

/-- A chunk for an open communicator is taken: forgotten where its SEQ has failed, left to its entry's turn where that has started,
else parked. -/
def takeChunk (sys : Sys) (m : Mach) (c : Comm) (a : InChunk) (stamp : Nat) : CRes Mach :=
  if c.failed.any fun f => f.1 == a.seq then
    .ok (m.sendTok sys c { dev := a.src, rank := c.pred, seq := a.seq, circuit := 0, c := a.c, at_ := 0 })
  else if (m.ringEnt? c a.seq).isSome then .ok (m.setComm { c with chunks := c.chunks ++ [a] })
  else (reserveAt sys m c.eff c a.c a.len).andThen fun l => .ok (m.parkIn c a l stamp)

/-! ### Puts at their target (spec/01 R49, R54, R58, R451) -/

/-- A piece of a put as it arrives. -/
structure PutPiece where
  frm : Nat
  dev : Nat
  eid : Nat
  c : Nat
  dst : Nat
  red : Nat
  ty : Nat
  last : Bool
  rsig : Bool
  rctr : Nat
  bytes : List Byte
deriving DecidableEq, Repr

/-- The token of a piece goes back; the last one forgets a put that has failed here. -/
def Mach.putDone (sys : Sys) (m : Mach) (c : Comm) (p : PutPiece) : Mach :=
  let m := if p.last then m.setComm { c with badPuts := c.badPuts.filter fun b => b != (p.frm, p.eid) } else m
  m.sendTok sys c { dev := p.dev, rank := p.frm, seq := 0, circuit := 0, c := p.c, at_ := 0 }

/-- A piece fails here: the sender's entry is told, and RCTR will not be incremented. -/
def Mach.putFails (sys : Sys) (m : Mach) (c : Comm) (p : PutPiece) (cause : Nat) : Mach :=
  let c := { c with badPuts := c.badPuts ++ [(p.frm, p.eid)] }
  ((m.setComm c).putDone sys c p).say sys p.dev 0 0 (.putFail c.cid p.frm p.eid cause)

/-- The stamp of a write whose writer is no wave of this device (spec/07 R221; log 120). -/
def outStamp : Nat := clearStamp

/-- The end of a piece: RCTR is incremented with the last one, and the token goes back. -/
def putEnd (sys : Sys) (m : Mach) (c : Comm) (p : PutPiece) : Mach :=
  let ok := p.last && p.rsig && !c.badPuts.contains (p.frm, p.eid) && decide (p.rctr < m.boundCtrs c.rcb)
  (if ok then (m.sync 0 6 true false (.ctr c.rcb p.rctr)).ctrAdd c.rcb p.rctr 1 none else m).putDone sys c p

/-- A piece of a `put` is performed at the cavern controllers, in the fault domain of the opener, with the stamp of its post where that is of
this device (spec/07 R221). -/
def putPiece (sys : Sys) (m : Mach) (c : Comm) (key stamp : Nat) (p : PutPiece) : CRes Mach :=
  (collRange sys m c.eff key p.dst p.bytes.length .w).andThen fun l => (farWrite sys m c.eff key l p.bytes).andThen fun _ =>
    .ok (putEnd sys (m.collPutBytes l c.eff.race stamp p.bytes) c p)

/-- One element of a `putr` is combined at the cavern controllers in one step of its own (spec/01 R58). -/
def putElem (sys : Sys) (m : Mach) (c : Comm) (key stamp va ty red : Nat) (v : List Byte) : CRes Mach :=
  (collRange sys m c.eff key va v.length .rw).andThen fun l =>
    match l.find? fun a => !m.away a.loc && badRange m a.loc a.len with
    | some a => .bad 0x30 a.loc
    | none => match combine ty red (l.flatMap fun a => m.bytes a.loc a.len) v with
      | .error k => .bad k
      | .ok bs => (farWrite sys m c.eff key l bs).andThen fun _ =>
        .ok ((m.collFix sys c.eff key va v.length).collPutBytes l c.eff.race stamp bs)

/-- One step of a piece that arrives on a channel: all of a `put`, or the next element of a `putr`; `at_` is the channel. It answers whether
the piece is finished. -/
def putStep (sys : Sys) (m : Mach) (c : Comm) (key at_ : Nat) (p : PutPiece) : CRes (Mach × Bool) :=
  if p.red = 0 then (putPiece sys m c key outStamp p).andThen fun m => .ok (m, true)
  else
    let k := elemBytes p.ty
    let i := look 0 c.elems at_
    (putElem sys m c key outStamp (p.dst + k * i) p.ty p.red ((p.bytes.drop (k * i)).take k)).andThen fun m =>
      if k * (i + 1) < p.bytes.length then .ok (m.setComm { c with elems := put c.elems at_ (i + 1) }, false)
      else
        let c := { c with elems := put c.elems at_ 0 }
        .ok (putEnd sys (m.setComm c) c p, true)

/-! ### Chunk turns (spec/01 R64) -/

/-- A chunk goes to the successor: over the link, or inside the sequencer. -/
def Mach.sendChunk (sys : Sys) (m : Mach) (e : CollEnt) (c : Comm) (s : Nat × Nat × Bool) (bs : List Byte) : CRes Mach :=
  let k := look 0 c.sent e.succ
  let c := { c with sent := put c.sent e.succ (k + 1), acked := c.acked.filter fun a => !(a.1 == e.succ && a.2 + c.win == k) }
  let m := m.setComm c
  let last := decide (e.len ≤ s.2.1 + bs.length)
  if isRingOp e.op then
    if e.sdev ≠ sys.devid then .ok (m.say sys e.sdev 1 c.vc (.chunk e.cid e.succ e.seq k s.1 s.2.1 s.2.2 e.red e.ty bs))
    else match m.comm? e.cid e.succ with
      | some r => takeChunk sys m r { seq := e.seq, c := k, seg := s.1, off := s.2.1, len := bs.length, gather := s.2.2, src := sys.devid, bytes := bs } e.stamp
      | none => .wait
  else if e.sdev ≠ sys.devid then
    .ok (m.say sys e.sdev (if e.vcOf c = 0 then 0 else 1) (e.vcOf c)
      (.put e.cid e.succ e.rank e.eid k (e.dst + s.2.1) e.red e.ty last e.rsig e.rctr bs))
  else match m.comm? e.cid e.succ with
    | some r =>
      let p : PutPiece := { frm := e.rank, dev := sys.devid, eid := e.eid, c := k, dst := e.dst + s.2.1, red := e.red, ty := e.ty
                            last := last, rsig := e.rsig, rctr := e.rctr, bytes := bs }
      if e.red = 0 then putPiece sys m r (entKey e.eid) e.stamp p else .ok (putEnd sys m r p)
    | none => .wait

/-- A `putr` to this device combines its elements in steps of their own. -/
def CollEnt.localRed (sys : Sys) (e : CollEnt) : Bool := e.op == 0x02 && e.sdev == sys.devid

/-- The next element of a chunk of such a `putr`. -/
def elemTurn (sys : Sys) (m : Mach) (e : CollEnt) (s : CStep) : CRes Mach :=
  let k := elemBytes e.ty
  let eff := m.eff e.launch
  let key := entKey e.eid
  (collRead sys m eff key (e.src + s.src + k * e.elem) k).andThen fun v => match m.comm? e.cid e.succ with
    | none => .wait
    | some r => putElem sys (m.collFix sys eff key (e.src + s.src + k * e.elem) k) r key e.stamp (e.dst + s.src + k * e.elem) e.ty e.red v

/-- The effect of a chunk turn whose bytes are there. -/
def chunkDone (sys : Sys) (m : Mach) (e : CollEnt) (c : Comm) (s : CStep) (p : CPlan) : CRes Mach :=
  let m := match s.dst with
    | some _ => m.collPutBytes p.dst (m.eff e.launch).race e.stamp p.data
    | none => m
  let m := match s.arr with
    | some a => m.consume sys c a
    | none => m
  let e := { e with
    own := if s.arr.isNone then e.own + 1 else e.own, sent := if s.send.isSome then e.sent + 1 else e.sent
    wrote := if s.dst.isSome then e.wrote + 1 else e.wrote, served := m.next, elem := 0 }
  let m := (m.setColl e).take 1
  match s.send with
  | none => .ok m
  | some t => match m.comm? e.cid e.rank with
    | some c => m.sendChunk sys e c t p.data
    | none => .ok m

/-- The effect of one chunk turn, or of one element of a `putr` to this device. -/
def chunkTurn (sys : Sys) (m : Mach) (e : CollEnt) (c : Comm) (s : CStep) : CRes Mach :=
  if e.localRed sys then (elemTurn sys m e s).andThen fun m =>
    if elemBytes e.ty * (e.elem + 1) < s.len then .ok (m.setColl { e with elem := e.elem + 1 })
    else chunkDone sys m e c s { data := List.replicate s.len 0 }
  else (chunkPlan sys m e c s).andThen fun p =>
    let eff := m.eff e.launch
    let key := entKey e.eid
    let m := match s.arr with
      | none => m.collFix sys eff key (e.src + s.src) s.len
      | some a => if a.parked then m.collFix sys eff key (c.landva + chunkBytes * (a.c % c.win)) s.len else m
    let m := match s.right with
      | some o => m.collFix sys eff key (e.src + o) s.len
      | none => m
    chunkDone sys m e c s p

/-- The effect of one token turn: the second token retires the entry of a rank, which then forwards it. -/
def Mach.tokTurn (sys : Sys) (m : Mach) (e : CollEnt) (c : Comm) (t : Option Nat × Option Nat) : Mach :=
  let c := match t.1 with
    | some k => { c with toks := c.toks.erase (e.seq, k) }
    | none => c
  let m := m.setComm c
  let m := if t.1 = some 2 then m.collEnd e 0 else (m.setColl { e with toks := e.toks + 1, served := m.next }).take 1
  match t.2 with
  | some k => m.sendTok sys c { dev := e.sdev, rank := e.succ, seq := e.seq, circuit := k, c := 0, at_ := 0 }
  | none => m

/-- What an entry may do at a turn: a step that fails an answered fault, a cause of its path, a token, a chunk, or parking one. -/
inductive Turning where
  | fault
  | cause (k : Nat)
  | tok (t : Option Nat × Option Nat)
  | park (r : CRes Mach)
  | chunk (r : CRes Mach)
deriving DecidableEq, Repr

/-- The cause of an entry that still has something to send: its route is gone, or its link has come up without the version that it needs
(spec/01 R37, R66). -/
def CollEnt.pathNow (sys : Sys) (m : Mach) (e : CollEnt) : Nat :=
  if e.sdev = sys.devid || (e.op != 0x14 && decide (e.sends ≤ e.sent) && !m.unsent sys e) then 0
  else
    let p := sys.fport e.port
    if !(look ({} : Route) sys.routes e.sdev).v then 0x63
    else if p.state = 2 ∧ p.ver < needVer e.red e.ty (Nat.max sys.devid e.sdev) then 0x62 else 0

def Mach.turning (sys : Sys) (m : Mach) (e : CollEnt) : Option Turning :=
  if e.fault.isSome then (if e.answer.isSome then some .fault else none)
  else match m.comm? e.cid e.rank with
    | none => none
    | some c =>
      let chunk (s : CStep) : Option Turning :=
        let r := chunkTurn sys m e c s
        if r.waits m then none else some (.chunk r)
      if e.op = 0x30 ∨ e.op = 0x31 then none
      else if e.pathNow sys m ≠ 0 then some (.cause (e.pathNow sys m))
      else if e.op = 0x14 then (m.readyTok sys e c).map .tok
      else match (m.readyStep sys e c).bind chunk with
        | some t => some t
        | none => match (if isRingOp e.op then m.toPark sys e c else none) with
          | some a =>
            let r := (reserveAt sys m (m.eff e.launch) c a.c a.len).andThen fun l => .ok (m.parkIn c a l e.stamp)
            if r.waits m then none else some (.park r)
          | none => none

/-- The pick at a chunk boundary: the highest PRIO, then the entry served least recently; a chunk that has begun is finished first. DESIGN
CHOICE (log 147): of entries of equal PRIO that have not been served yet, the one that started first; spec/01 R64 does not rank them. -/
def Mach.collPick (sys : Sys) (m : Mach) (n : Nat) : Option CollEnt :=
  match m.colls.find? fun e => e.port == n && e.elem != 0 with
  | some e => some e
  | none => minBy (fun a b => decide (b.prio < a.prio) || (a.prio == b.prio && decide (a.served < b.served)))
    (m.colls.filter fun e => e.port == n && (m.turning sys e).isSome)

/-- The turn of an entry. -/
def Mach.serveEnt (sys : Sys) (m : Mach) (e : CollEnt) : Mach :=
  match m.turning sys e with
  | none => m
  | some .fault => m.collGate sys e fun m _ => m
  | some (.cause k) => m.collFail sys e k
  | some (.tok t) => match m.comm? e.cid e.rank with
    | some c => m.tokTurn sys e c t
    | none => m
  | some (.park r) => m.collDo sys e r
  | some (.chunk r) => m.collDo sys e r

/-- CHUNK_SEND: one turn of the sequencer of port `n`. -/
def execChunkSend (n : Nat) := onMach fun sys m =>
  match m.collPick sys n with
  | some e => m.serveEnt sys e
  | none => m

/-- A step of an entry with a given operation: the turn of its sequencer, when the pick is this entry. -/
def Mach.opTurn (sys : Sys) (m : Mach) (op eid : Nat) : Mach :=
  match m.coll? eid with
  | some e => if e.op = op ∧ (m.collPick sys e.port).any (fun u => u.eid == eid) then m.serveEnt sys e else m
  | none => m

def execCollPut (eid : Nat) := onMach fun sys m => m.opTurn sys 0x01 eid
def execCollPutr (eid : Nat) := onMach fun sys m => m.opTurn sys 0x02 eid
def execRingReduceScatter (eid : Nat) := onMach fun sys m => m.opTurn sys 0x10 eid
def execRingAllGather (eid : Nat) := onMach fun sys m => m.opTurn sys 0x11 eid
def execRingAllReduce (eid : Nat) := onMach fun sys m => m.opTurn sys 0x12 eid
def execRingBroadcast (eid : Nat) := onMach fun sys m => m.opTurn sys 0x13 eid
def execRingBarrierToken (eid : Nat) := onMach fun sys m => m.opTurn sys 0x14 eid

/-- COLL_ENTRY_RETIRE: the last chunk has left the device or has been applied, and the result is written. A barrier retires on its second token,
or at once with one rank; an entry whose communicator was closed under it has nothing to run on. -/
def execCollEntryRetire (eid : Nat) := onMach fun sys m =>
  match m.coll? eid with
  | none => m
  | some e =>
    if e.op = 0x30 ∨ e.op = 0x31 then m
    else if (m.comm? e.cid e.rank).isNone then m.collEnd e 0x60
    else if e.op = 0x14 then (if e.nrank = 1 then m.collEnd e 0 else m)
    else if e.sends ≤ e.sent ∧ e.writes ≤ e.wrote ∧ !m.unsent sys e then m.collEnd e 0
    else m

/-- COLL_LINK_TIMEOUT: the entry's link has been down for longer than 10 ms, or (`far`) a link further on its path has. -/
def execCollLinkTimeout (w : CollOut) := onMach fun sys m =>
  match m.coll? w.eid with
  | none => m
  | some e =>
    let p := sys.fport e.port
    let down := p.state != 1 && p.state != 2 && decide (p.downSince.getD 0 + Config.ticks10ms < sys.ticks)
    if e.op = 0x30 ∨ e.op = 0x31 ∨ e.sdev = sys.devid ∨ !(w.far || down) then m
    else m.collFail sys e 0x63

/-! ### Arrivals at a port -/

/-- An access for the head of a channel: its effect, or the wait for an answer of the opener's fault queue. -/
def Mach.headDo (sys : Sys) (m : Mach) (c : Comm) (n vc : Nat) (r : CRes Mach) (bad : Mach → Comm → Nat → Mach) : Option Mach × Mach :=
  let free (c : Comm) : Comm := { c with fault := none, answer := none }
  match c.fault, c.answer with
  | some _, none => (none, m)
  | some k, some a =>
    if k != (n, vc) then (none, m)
    else if a ≠ 0 then (some ((bad (m.setComm (free c)) (free c) 0x67).unitDone (headKey c.id n vc)), m)
    else (none, m.setComm (free c))
  | none, _ => match r with
    | .ok m => (some (m.unitDone (headKey c.id n vc)), m)
    | .wait => (none, m)
    | .post d va k kd l w => (none, (m.setComm { c with fault := some (n, vc), answer := none }).collPost c.id d c.rcb va k kd l w)
    | .bad k pa => (some ((bad (m.logBad k pa) c k).unitDone (headKey c.id n vc)), m)
    | .far d k va loc wr => (none, m.askUnit sys d k va loc wr)

/-- The head of a channel is for this device: consumed, or left with the state that follows. -/
def onHead (n vc : Nat) (f : Sys → Mach → Msg → Option Mach × Mach) := onAll fun sys m =>
  match sys.inHead n vc with
  | none => (sys, m)
  | some x =>
    if x.dst ≠ sys.devid then (sys, m)
    else match f sys m x with
      | (some m, _) => (sys.inDrop n vc, m)
      | (none, m) => (sys, m)

/-- CHUNK_ARRIVE. -/
def execChunkArrive (n vc : Nat) := onHead n vc fun sys m x =>
  match x.body with
  | .chunk cid rank seq k seg off g _ _ bs => match m.comm? cid rank with
    | none => (none, m)
    | some c =>
      let a : InChunk := { seq := seq, c := k, seg := seg, off := off, len := bs.length, gather := g, src := x.src, bytes := bs }
      m.headDo sys c n vc (takeChunk sys m c a clearStamp) fun m c cause =>
        (m.failSeq sys cid seq cause).sendTok sys c { dev := x.src, rank := c.pred, seq := seq, circuit := 0, c := k, at_ := 0 }
  | _ => (none, m)

/-- PUT_ARRIVE. -/
def execPutArrive (n vc : Nat) := onHead n vc fun sys m x =>
  match x.body with
  | .put cid rank frm eid k dst red ty last rsig rctr bs => match m.comm? cid rank with
    | none => (none, m)
    | some c =>
      let p : PutPiece := { frm := frm, dev := x.src, eid := eid, c := k, dst := dst, red := red, ty := ty, last := last, rsig := rsig
                            rctr := rctr, bytes := bs }
      let r := putStep sys m c (headKey c.id n vc) (8 * n + vc) p
      match r with
      | .ok (m', false) => if c.fault.isNone then (none, m'.unitDone (headKey c.id n vc)) else m.headDo sys c n vc (.ok m') fun m c cause => m.putFails sys c p cause
      | r => m.headDo sys c n vc (r.andThen fun x => .ok x.1) fun m c cause =>
          m.putFails sys { c with elems := put c.elems (8 * n + vc) 0 } p cause
  | _ => (none, m)

/-- A chunk or a piece of a put, for a communicator that is not open here. -/
def closedFor (m : Mach) (x : Msg) : Bool :=
  match x.body with
  | .chunk cid rank _ _ _ _ _ _ _ _ => (m.comm? cid rank).isNone
  | .put cid rank _ _ _ _ _ _ _ _ _ _ => (m.comm? cid rank).isNone
  | _ => false

/-- CHUNK_WAIT_CLOSED_CID: it stays in its buffer, and counts there: the channel is held at 112 flits. -/
def execChunkWaitClosedCid (n vc : Nat) := onAll fun sys m =>
  match sys.inHead n vc with
  | none => (sys, m)
  | some x => (if x.dst == sys.devid && closedFor m x then sys.setFPort n ((sys.fport n).rehold vc) else sys, m)

/-- COMPLETION_TOKEN_ARRIVE. -/
def execCompletionTokenArrive (n : Nat) := onArrival n 0 fun _ m x =>
  match x.body with
  | .token cid rank frm k => (m.comm? cid rank).map fun c => m.setComm (c.ack frm k)
  | _ => none

/-- RING_TOKEN_ARRIVE: it waits in the communicator's state for its entry's turn; one of a failed SEQ is forgotten. -/
def execRingTokenArrive (n : Nat) := onArrival n 0 fun _ m x =>
  match x.body with
  | .ringTok cid rank _ seq k => (m.comm? cid rank).map fun c =>
      if c.failed.any fun f => f.1 == seq then m else m.setComm { c with toks := c.toks ++ [(seq, k)] }
  | _ => none

/-- TOKEN_REFUSED: a token that names a communicator not open here goes back at once; a token of this device that comes back is
kept, to be sent again after 1 microsecond. -/
def execTokenRefused (n : Nat) := onArrival n 0 fun sys m x =>
  match x.body with
  | .token cid rank frm k => if (m.comm? cid rank).isSome then none else some (m.say sys x.src 0 0 (.refused cid frm rank 0 0 k))
  | .ringTok cid rank frm seq k =>
    if (m.comm? cid rank).isSome then none else some (m.say sys x.src 0 0 (.refused cid frm rank seq k 0))
  | .refused cid rank dev seq circuit k => match m.comm? cid rank with
    | some c => some (m.setComm { c with kept := c.kept ++ [⟨x.src, dev, seq, circuit, k, sys.ticks + 100⟩] })
    | none => some m
  | _ => none

/-- A failure that a communicator's successor has not been told of is told, once the rank list can be read; where it cannot be for an error,
nobody can be (log 147). A page fault is posted, and answered, as one of a channel's head is. -/
def Mach.tellNext (sys : Sys) (m : Mach) (c : Comm) : Mach :=
  match c.untold with
  | [] => m
  | f :: r =>
    let c' := { c with untold := r }
    let x := m.headDo sys c fabricPorts 0 ((succRead sys m c).andThen fun d => .ok ((m.setComm c').tell sys c f.1 f.2 d)) fun m _ _ => m.setComm c'
    x.1.getD x.2

/-- TOKEN_RESEND: token `k` of those kept, when its time has come; past those, a failure of which a successor is still to be told. -/
def execTokenResend (k : Nat) := onMach fun sys m =>
  let all : List (Comm × KeptTok) := m.comms.flatMap fun (c : Comm) => c.kept.map fun t => (c, t)
  match all.getD k ({ id := 0, cid := 0, rank := 0, nrank := 0, gen := 0, vc := 0, win := 0, landva := 0, rlva := 0, rcb := 0, eff := {} },
      ⟨0, 0, 0, 0, 0, 0⟩), decide (k < all.length) with
  | (c, t), true =>
    if sys.ticks < t.at_ then m
    else (m.setComm { c with kept := c.kept.erase t }).sendTok sys { c with kept := c.kept.erase t } t
  | _, false => match (m.comms.filter fun c => c.untold != []).drop (k - all.length) with
    | c :: _ => m.tellNext sys c
    | [] => m

/-- COLL_FAILURE_ARRIVE: a ring fails here too and tells its successor, at its open where its CID is not open yet; one of a SEQ of a
communicator that has been closed has nothing left to fail. A put of this device fails.
DESIGN CHOICE (log 132): a target's failure of a put that comes back after the entry has retired on its last send is dropped, with no
record and no held error; the spec does not say what becomes of it. -/
def execCollFailureArrive (n : Nat) := onArrival n 0 fun sys m x =>
  match x.body with
  | .failure cid rank seq cause => some (
      let m := m.failSeq sys cid seq cause
      if (m.comm? cid rank).isSome || m.isPast cid seq then m else { m with lateFails := m.lateFails ++ [(cid, seq, cause)] })
  | .putFail _ _ eid cause => match m.coll? eid with
    | some e => some (if e.op = 0x01 ∨ e.op = 0x02 then m.collEnd e cause else m)
    | none => some m
  | _ => none

end Sys2Proof.Machine
end

