-- ==== Sys2Proof/Machine/Stage.lean ====
section
/-! DEFINITION. What a step does before an instruction runs: the next picked quarter issues, else the next step still to come
happens (log 1), else the default scheduler chooses one (log 3). -/

namespace Sys2Proof.Machine

/-- A program instruction carries the fields of an instruction word; a step of the package does not. -/
def isProgram (i : Instr) : Bool := i.hdr.isSome

/-- A step still to come: a step of the package runs, cycles pass. the strap takes a level. A program's instructions run by being fetched alone. -/
def runTurn (s : State) (t : Turn) : State × Option Instr :=
  match t with
  | .ev i => (s, if isProgram i then none else some i)
  | .strap ep => ({ s with sys := { s.sys with pe0pin := ep } }, none)
  | .strapId id => ({ s with sys := { s.sys with idpins := id } }, none)
  | .tick n => (({ s with mach := s.mach.resumeServed.tick s.sys n } : State).settle, none)

/-- THE STAGE: the state in which the step's instruction runs, and that instruction, if there is one. `dflt` is what happens when
nothing is picked and nothing stands in the agenda. -/
def stage (dflt : State → State) (s : State) : State × Option Instr :=
  match s.mach.latch with
  | q :: rest =>
    match issueStage s.sys { s.mach with latch := rest } q with
    | (m, some i) => ({ s with mach := m }, some i)
    | (m, none) => (({ s with mach := m } : State).settle, none)
  | [] => match s.agenda with
    | t :: rest => runTurn { s with agenda := rest } t
    | [] => (dflt s, none)

/-- Where withFetchWord places a code word: virtual address, page, and the frame that holds it. -/
def fetchVa : Nat := 0x10000
def fetchFrame : Nat := Config.cavernBase + 0x10000

/-- The clause header before a single word `w`: all engines, one word, no wait, TAIL as the word needs (spec/10 R267-R269). -/
def oneWordHdr (w : DWord) : DWord :=
  BitVec.ofNat 64 (0x7F * 2 ^ 57 + 8 * 2 ^ 53 + (if endsWord w then 2 ^ 35 else 0))

/-- A launch of one wave of one quarter on core 0 whose single thread stands at a code word, in a slice of the chamber,
picked: what loading a program and dispatching its wave leave behind (log 11). -/
def placeWord (m : Mach) (w : DWord) : Mach :=
  let hw := oneWordHdr w
  let n := m.next
  let pc : Pc := BitVec.ofNat 57 (fetchVa + 8)
  let hd : Option (Pc × DWord) := some (BitVec.ofNat 57 fetchVa, hw)
  let la : Launch := { id := n, regs := 32, entry := fetchVa, codelen := 16,
                       eff := { groves := 1, frames := 64, scrkb := 256, galkb := 124, traph := fetchVa } }
  let wv : Wave := { id := n + 1, launch := n, number := 0, qpw := 0, regs := 32, scr := 0, entry := BitVec.ofNat 57 fetchVa,
                     arg := 0, baseTid := 0, since := m.cycle, core := some 0, live := 1 }
  let t : Thread := { id := n + 2, launch := n, wave := n + 1, stat := .run (n + 3), pc := pc, hdr := hd, rg := 256, rgv := 256,
                      regs := List.replicate 256 0 }
  let q : Quarter := { id := n + 3, core := 0, launch := n, slots := [some (n + 2)] ++ List.replicate 7 none, rg := 256,
                       slice := some 0, pc := pc, hdr := hd, entered := m.cycle }
  { m with
    next := n + 4, latch := (n + 3) :: m.latch
    mem := (m.mem.put fetchFrame (toBytes hw.toNat 8)).put (fetchFrame + 8) (toBytes w.toNat 8)
    eccDouble := [], eccSingle := []
    tlbs := { core := 0, fdom := 0, page := fetchVa / 2 ^ 16, shift := 16, attr := 7, frame := fetchFrame } :: m.tlbs
    threads := m.threads ++ [t], quarters := m.quarters ++ [q], waves := m.waves ++ [wv], launches := m.launches ++ [la] }

end Sys2Proof.Machine
end

