-- ==== Sys2Proof/Machine/Default.lean ====
section
/-! DEFINITION. The default scheduler (log 3): which step of the package happens next when nothing is picked and the agenda is
empty. It names one order among those that the spec allows: the first step of a fixed list that changes the state, and the passing
of one cycle when there is none. Steps that come from outside (resets, link partners, the host, control cores, samples) stand in
the agenda alone. -/

namespace Sys2Proof.Machine

/-- A step of the package, as its meaning. -/
abbrev Cand := State → Host.Outcome State Fault Refusal

/-- What the first step of a list that changes the state leaves behind. -/
def firstChange (s : State) : List Cand → Option State
  | [] => none
  | c :: r => match c s with
    | .next t => if t != s then some t else firstChange s r
    | .fault _ => firstChange s r
    | .refused _ => firstChange s r

/-- Accesses, completions, traps and barriers of threads. -/
def threadCands (m : Mach) : List Cand :=
  (m.flights.filter fun f => f.done).map (fun f => execInstructionComplete f.owner f.uid)
    ++ m.threads.flatMap (fun t => t.pend.flatMap fun o =>
        [execAccessPerform t.id o.oid false,
         execKstoreLinkStep t.id o.oid,
         execRemoteAccessTimeout t.id o.oid])
    ++ m.reqs.map (fun r => execRemoteAccessTimeout 0 r.id)
    ++ m.traps.map (fun g => execTrapEntry g.id)
    ++ m.traps.map (fun g => execAlcoveBind g.core)
    ++ (m.threads.filter fun t => t.bars.any fun b => b.node != 0).map (fun t => execBarrierRelease t.id)
    ++ (if m.barMsgs = [] then [] else [execBarrierArrivalNode])
    ++ m.mmajs.flatMap (fun s => [execMmajJointStart s.id, execMmajPartnerTimeout s.id])
    ++ m.calls.flatMap (fun c => [execWidenFrameGrant c.id, execGatherFrameGrant c.id])
    ++ m.sigWaits.map (fun w => execSigAckTimeout w.1 w.2.1)
    ++ ((List.range 16).filter fun k => (m.sysQ k).waiting != []).map (fun k => execSyscallEntryWrite k)

/-- Fault queues. -/
def faultCands (m : Mach) : List Cand := m.doms.flatMap fun d =>
  [execFaultQueueHeaderStore d.fdom, execInvalidationDone d.fdom,
   execFaultEntryPost d.fdom]

/-- Launches, dispatch, issue and the shuttle. -/
def Mach.anyWaiting (m : Mach) : Bool := m.waves.any fun w => m.waiting w

def Mach.dispatchCores (m : Mach) : List Nat :=
  if m.anyWaiting then
    (List.range Config.cores).filter fun k => m.waves.any fun w => m.waiting w && tbit (m.launch w.launch).eff.groves (coreGrove k)
  else []

def launchCands (m : Mach) : List Cand :=
  ((List.range 16).filter fun p => (m.lport p).queue != []).map (fun p => execLaunchAccept p)
    ++ (m.launches.filter fun l => !l.retired).map (fun l => execLaunchRetire l.id)
    ++ m.dispatchCores.map (fun k => execWaveDispatch k)

def Mach.quarterCores (m : Mach) : List Nat := sortBy (fun a b : Nat => decide (a ≤ b)) (m.quarters.map fun q => q.core).eraseDups

def issueCands (m : Mach) : List Cand :=
  m.glades.map (fun g => execGladeAgeExpire g.id)
    ++ (m.cores.filter fun c => c.power != .c0).map (fun c => execCoreWake c.core)
    ++ m.quarterCores.map (fun k => execIssuePick k)
    ++ (m.quarters.filter fun q => q.slice.isSome && q.wait.isSome).map (fun q => execShuttleEvictLongWait q.core q.id)
    ++ m.quarterCores.flatMap (fun k =>
        if m.quarters.any (fun q => q.core == k && q.slice.isNone) then [execShuttleLoad k, execShuttleEvictForWaiting k] else [])
    ++ m.quarters.flatMap (fun q => if q.wait.isSome && (m.eff q.launch).wdog != 0 then q.tids.map execWatchdogExpire else [])

/-- Engines of the cores. -/
def engineCands (m : Mach) : List Cand :=
  (m.engines.map fun e => e.core).eraseDups.flatMap fun k =>
    (List.range 6).map (fun q => execEngineStep k q)
      ++ [execMmrStepBoundary k, execMacroOpStep k, execMmrIdleCheck k]
      ++ (List.range 4).flatMap (fun e =>
          [execStreamFillStep k e, execStreamDrainStep k e])

/-- Pre-emption. -/
def preemptCands (sys : Sys) (m : Mach) : List Cand :=
  (if m.waves.any fun w => m.waiting w && decide (w.since + 16384 ≤ m.cycle) then
      (List.range Config.groves).map (fun g => execDispatchPreemptRequest g) else [])
    ++ (if m.preempts = [] then [] else m.launches.map (fun l => execQuiescenceDrainDetect l.id))
    ++ ((if sys.tokenAt.isSome then [0] else []) ++ m.lanes.map fun (x : Lane) => x.launch).map (fun l => execDrainSweepToken l)
    ++ m.preempts.flatMap (fun p => [execPreemptSave p.rcb, execRegionResume p.rcb])

/-- Collectives. -/
def collCands (m : Mach) : List Cand :=
  (m.qpairs.filter fun p => p.subs != []).map (fun p => execCollEntryStart p.rcb p.q)
    ++ m.colls.flatMap (fun e =>
        [execCollOpen e.eid, execCollClose e.eid,
         execCollEntryRetire e.eid, execCollLinkTimeout { eid := e.eid, far := false }])
    ++ (m.colls.map fun e => e.port).eraseDups.map (fun n => execChunkSend n)
    ++ (List.range (((m.comms.flatMap fun c => c.kept).length) + (m.comms.filter fun c => c.untold != []).length)).map (fun k => execTokenResend k)

/-- The partner has not been told of what the port has received, or of a channel that it holds or releases. -/
def FPort.owes (p : FPort) : Bool :=
  let now := p.flit .idle 0 0 none
  p.ask || match p.wire with
    | some f => f.hold != now.hold || f.ack != now.ack
    | none => now.hold != 0 || now.ack != 0

/-- A port has a flit that it may send. -/
def sendsNow (sys : Sys) (m : Mach) (n : Nat) : Bool :=
  let p := (sendOut sys m n).1.fport n
  p.owes || p.replayFrom.isSome || p.choose.isSome || p.outq.any fun x => x.1 == 0

/-- Fabric ports. -/
def portCands (sys : Sys) (m : Mach) : List Cand :=
  (List.range fabricPorts).flatMap fun n =>
    let p := sys.fport n
    (p.inq.map fun x => x.1).eraseDups.flatMap (fun vc =>
        [execFabricPassThrough n vc, execRemoteAccessRequest n vc,
         execChunkArrive n vc, execPutArrive n vc,
         execSigRemoteArrive n, execSigAckArrive n,
         execDomainBarrierMessage n, execCompletionTokenArrive n,
         execRingTokenArrive n, execTokenRefused n,
         execCollFailureArrive n])
      ++ (if p.state = 2 && (m.out != [] || p.outq != [] || p.replayFrom.isSome || p.owes) && sendsNow sys m n then [execFlitSend n] else [])
      ++ (if 8 < p.recent.length then [execLinkReplayRetrain n] else [])

/-- The package: timers, power, dies, the time base of 10 ns. -/
def packageCands (sys : Sys) (m : Mach) : List Cand :=
  ((List.range 4).filter fun d => sys.dies.getD d .held == .resetting).map (fun d => execDieResetDone d)
    ++ sys.gpwr.map (fun g => execGrovePowerTransition g.1)
    ++ m.cores.flatMap (fun c => if c.power = .c0 then [execCoreClockGate c.core] else [execCorePowerGate c.core])
    ++ ((List.range 16).filter fun k => (sys.rtimer k).en).map (fun k => execRegionTimerFire k)
    ++ (if (sys.ticks + 1) * sys.clkf ≤ m.cycle * 100 then [execTimeBaseTick] else [])

def cands (s : State) : List Cand :=
  threadCands s.mach ++ faultCands s.mach ++ launchCands s.mach ++ issueCands s.mach ++ engineCands s.mach ++ preemptCands s.sys s.mach
    ++ collCands s.mach ++ portCands s.sys s.mach ++ packageCands s.sys s.mach

/-- THE DEFAULT: what happens when nothing is picked and the agenda is empty. -/
def defaultNext (s : State) : State := (firstChange s (cands s)).getD (runTurn s (.tick 1)).1

end Sys2Proof.Machine
end

