-- ==== Sys2Proof/Machine/Float.lean ====
section
/-! DEFINITION. Meanings of majors 0x30 to 0x32 (spec/14 R339-R346): exact values under FMODE, rounded once. -/

namespace Sys2Proof.Machine

/-- A register-only float instruction of one, two or three FP32 sources; `f` sees the thread's FMODE. -/
def Mach.flt1 (m : Mach) (h : Hdr) (d a : Spec) (f : Word → Word → Word) : Mach :=
  m.regOp h d fun _ fr t => [f t.fmode (t.rd fr a)]
def Mach.flt2 (m : Mach) (h : Hdr) (d a b : Spec) (f : Word → Word → Word → Word) : Mach :=
  m.regOp h d fun _ fr t => [f t.fmode (t.rd fr a) (t.rd (fr + 4) b)]
def Mach.flt3 (m : Mach) (h : Hdr) (d a b c : Spec) (f : Word → Word → Word → Word → Word) : Mach :=
  m.regOp h d fun _ fr t => [f t.fmode (t.rd fr a) (t.rd (fr + 4) b) (t.rd (fr + 8) c)]

/-- A rounded FP32 result. -/
def out32 (fm : Word) (x : FV) : Word := wN (fround fm fp32 x)

def fpuAdd (fm a b : Word) : Word := out32 fm (FV.add (fmRm fm) (in32 fm a) (in32 fm b))
def fpuSub (fm a b : Word) : Word := out32 fm (FV.add (fmRm fm) (in32 fm a) (in32 fm b).neg)
def fpuMul (fm a b : Word) : Word := out32 fm (FV.mul (in32 fm a) (in32 fm b))
def fpuFma (fm a b c : Word) : Word := out32 fm (FV.add (fmRm fm) (FV.mul (in32 fm a) (in32 fm b)) (in32 fm c))

/-- `fscale`: beyond 1,000 either way every finite result has overflowed or rounds as the smallest magnitude does. -/
def fpuScale (fm a b : Word) : Word := out32 fm ((in32 fm a).scale (clampI (sW b) (-1000) 1000))

/-- A selected operand, which FTZO may flush (spec/14 R341). -/
def selOut (fm : Word) (x : FV) : Word := wN (fp32.ftzo fm (fp32.conv 0 false x))

def selNum (num : Bool) (x y : FV) (pick : FV → FV → FV) : FV :=
  if num && x.isNan then y else if num && y.isNan then x else pick x y

def fpuMin (num : Bool) (fm a b : Word) : Word := selOut fm (selNum num (in32 fm a) (in32 fm b) fvMin)
def fpuMax (num : Bool) (fm a b : Word) : Word := selOut fm (selNum num (in32 fm a) (in32 fm b) fvMax)

/-- Conditions of `fcmp` (spec/14 R342). -/
def fcondHolds (c : FCond) (x y : FV) : Bool :=
  let un := x.isNan || y.isNan
  match c with
  | .eq => x.eq y
  | .ne => !x.eq y
  | .lt => x.lt y
  | .le => !un && !y.lt x
  | .gt => y.lt x
  | .ge => !un && !x.lt y
  | .un => un
  | .num => !un

def fpuCmp (c : FCond) (fm a b : Word) : Word := maskW (fcondHolds c (in32 fm a) (in32 fm b))

/-- `fclass` (spec/14 R343), on the raw bits. -/
def fpuClass (a : Word) : Word :=
  let neg := tbit a.toNat 31
  let e := bits a.toNat 23 8
  let f := bits a.toNat 0 23
  let k := if e = 255 then (if f = 0 then (if neg then 0 else 7) else 8)
    else if e = 0 then (if f = 0 then (if neg then 3 else 4) else (if neg then 2 else 5))
    else (if neg then 1 else 6)
  wN (2 ^ k)

/-- Value of a word under a type of `fcvt` (spec/14 R344). -/
def cvtIn (fm : Word) (ty : FType) (a : Word) : FV :=
  match ty with
  | .f32 => fp32.input fm a.toNat
  | .f16 => fp16.input fm (a.toNat % 2 ^ 16)
  | .bf16 => bf16.input fm (a.toNat % 2 ^ 16)
  | .fp19 => fp19.input fm (a.toNat / 2 ^ 13)
  | .i32 => ofIntFV (sW a)
  | .n32 => ofIntFV (uW a)

/-- The word of a value under a destination type; bits outside its field are zero. -/
def cvtOut (fm : Word) (ty : FType) (x : FV) : Word :=
  match ty with
  | .f32 => wN (fround fm fp32 x)
  | .f16 => wN (fround fm fp16 x)
  | .bf16 => wN (fround fm bf16 x)
  | .fp19 => wN (fround fm fp19 x * 2 ^ 13)
  | .i32 => wI (toInt (fmRm fm) (-(2 ^ 31)) (2 ^ 31 - 1) x)
  | .n32 => wI (toInt (fmRm fm) 0 (2 ^ 32 - 1) x)

/-- `frnd` (spec/14 R345). -/
def rndMode (fm : Word) : RndMode → Nat
  | .cur => fmRm fm
  | .rn => 0
  | .rz => 1
  | .up => 2
  | .dn => 3

def fpuRnd (m : RndMode) (fm a : Word) : Word := wN (fp32.conv 0 false (toIntegral (rndMode fm m) (in32 fm a)))

def fpuPack (bf : Bool) (fm a b : Word) : Word :=
  let f := if bf then bf16 else fp16
  wN (fround fm f (in32 fm a) + fround fm f (in32 fm b) * 2 ^ 16)

/-- Packed dot products: exact products and sum, one rounding (spec/14 R346). -/
def fpuDot (f : Fmt) (w n : Nat) (fm a b c : Word) : Word :=
  let el (x : Word) (i : Nat) := f.input fm (elemAt x.toNat w i)
  out32 fm ((List.range n).foldl (fun s i => FV.add (fmRm fm) s (FV.mul (el a i) (el b i))) (in32 fm c))

/-- spec/14 R340-R343. -/
def execFadd (h : Hdr) (d a b : Spec) := onMach fun _ mc => mc.flt2 h d a b fpuAdd
def execFsub (h : Hdr) (d a b : Spec) := onMach fun _ mc => mc.flt2 h d a b fpuSub
def execFmul (h : Hdr) (d a b : Spec) := onMach fun _ mc => mc.flt2 h d a b fpuMul
def execFfma (h : Hdr) (d a b c : Spec) := onMach fun _ mc => mc.flt3 h d a b c fpuFma
def execFmin (h : Hdr) (num : Bool) (d a b : Spec) := onMach fun _ mc => mc.flt2 h d a b (fpuMin num)
def execFmax (h : Hdr) (num : Bool) (d a b : Spec) := onMach fun _ mc => mc.flt2 h d a b (fpuMax num)
def execFcmp (h : Hdr) (c : FCond) (d a b : Spec) := onMach fun _ mc => mc.flt2 h d a b (fpuCmp c)
def execFclass (h : Hdr) (d a : Spec) := onMach fun _ mc => mc.flt1 h d a fun _ x => fpuClass x
def execFscale (h : Hdr) (d a b : Spec) := onMach fun _ mc => mc.flt2 h d a b fpuScale
/-- spec/14 R344, R345. -/
def execFcvt (h : Hdr) (dt sty : FType) (d a : Spec) := onMach fun _ mc =>
  mc.flt1 h d a fun fm x => cvtOut fm dt (cvtIn fm sty x)
def execFrnd (h : Hdr) (m : RndMode) (d a : Spec) := onMach fun _ mc => mc.flt1 h d a (fpuRnd m)
def execFpack (h : Hdr) (bf : Bool) (d a b : Spec) := onMach fun _ mc => mc.flt2 h d a b (fpuPack bf)
/-- spec/14 R346. -/
def execFdot2 (h : Hdr) (bf : Bool) (d a b c : Spec) := onMach fun _ mc =>
  mc.flt3 h d a b c (fpuDot (if bf then bf16 else fp16) 16 2)
def execFdot4 (h : Hdr) (e5 : Bool) (d a b c : Spec) := onMach fun _ mc =>
  mc.flt3 h d a b c (fpuDot (if e5 then e5m2 else e4m3) 8 4)

end Sys2Proof.Machine
end

