-- ==== Sys2Proof/Machine/Integer.lean ====
section
/-! DEFINITION. Meanings of majors 0x10 to 0x18 (spec/13 R320-R333): each one a function on words over the shape of a
register-only instruction. -/

namespace Sys2Proof.Machine

/-- spec/13 R321. -/
def execAdd (h : Hdr) (m : Sat) (d a b : Spec) := onMach fun _ mc => mc.reg2 h d a b (aluAdd m)
def execSub (h : Hdr) (m : Sat) (d a b : Spec) := onMach fun _ mc => mc.reg2 h d a b (aluSub m)
def execMul (h : Hdr) (m : Sat) (d a b : Spec) := onMach fun _ mc => mc.reg2 h d a b (aluMul m)
def execMulh (h : Hdr) (u : Bool) (d a b : Spec) := onMach fun _ mc => mc.reg2 h d a b (aluMulh u)
def execMad (h : Hdr) (m : Sat) (d a b c : Spec) := onMach fun _ mc => mc.reg3 h d a b c (aluMad m)
def execMadw (h : Hdr) (u : Bool) (d a b c : Spec) := onMach fun _ mc => mc.regOp h d fun _ fr t =>
  pairWords (aluMadw u (t.rd fr a) (t.rd (fr + 4) b) (t.rdPair (fr + 8) c))
def execAddc (h : Hdr) (d a b c : Spec) := onMach fun _ mc => mc.regOp h d fun _ fr t =>
  aluAddc (t.rd fr a) (t.rd (fr + 4) b) (t.rd (fr + 8) c)
def execSubb (h : Hdr) (d a b c : Spec) := onMach fun _ mc => mc.regOp h d fun _ fr t =>
  aluSubb (t.rd fr a) (t.rd (fr + 4) b) (t.rd (fr + 8) c)
def execMin (h : Hdr) (u : Bool) (d a b : Spec) := onMach fun _ mc => mc.reg2 h d a b (aluMin u)
def execMax (h : Hdr) (u : Bool) (d a b : Spec) := onMach fun _ mc => mc.reg2 h d a b (aluMax u)
def execAbs (h : Hdr) (sat : Bool) (d a : Spec) := onMach fun _ mc => mc.reg1 h d a (aluAbs sat)
def execNeg (h : Hdr) (sat : Bool) (d a : Spec) := onMach fun _ mc => mc.reg1 h d a (aluNeg sat)

/-- spec/13 R322: imm24 sign-extended in place of b, the register form with mods 0. -/
def execAddImm (h : Hdr) (d a : Spec) (i : BitVec 24) := onMach fun _ mc => mc.reg1 h d a fun x => aluAdd .wrap x (immS i)
def execSubImm (h : Hdr) (d a : Spec) (i : BitVec 24) := onMach fun _ mc => mc.reg1 h d a fun x => aluSub .wrap x (immS i)
def execMulImm (h : Hdr) (d a : Spec) (i : BitVec 24) := onMach fun _ mc => mc.reg1 h d a fun x => aluMul .wrap x (immS i)
def execMulhImm (h : Hdr) (d a : Spec) (i : BitVec 24) := onMach fun _ mc => mc.reg1 h d a fun x => aluMulh false x (immS i)
def execMinImm (h : Hdr) (d a : Spec) (i : BitVec 24) := onMach fun _ mc => mc.reg1 h d a fun x => aluMin false x (immS i)
def execMaxImm (h : Hdr) (d a : Spec) (i : BitVec 24) := onMach fun _ mc => mc.reg1 h d a fun x => aluMax false x (immS i)

/-- spec/13 R324. -/
def execAnd (h : Hdr) (d a b : Spec) := onMach fun _ mc => mc.reg2 h d a b fun x y => x &&& y
def execOr (h : Hdr) (d a b : Spec) := onMach fun _ mc => mc.reg2 h d a b fun x y => x ||| y
def execXor (h : Hdr) (d a b : Spec) := onMach fun _ mc => mc.reg2 h d a b fun x y => x ^^^ y
def execAndn (h : Hdr) (d a b : Spec) := onMach fun _ mc => mc.reg2 h d a b fun x y => x &&& ~~~y
def execNot (h : Hdr) (d a : Spec) := onMach fun _ mc => mc.reg1 h d a fun x => ~~~x
def execShl (h : Hdr) (d a b : Spec) := onMach fun _ mc => mc.reg2 h d a b fun x y => aluShl x y.toNat
def execShr (h : Hdr) (d a b : Spec) := onMach fun _ mc => mc.reg2 h d a b fun x y => aluShr x y.toNat
def execSar (h : Hdr) (d a b : Spec) := onMach fun _ mc => mc.reg2 h d a b fun x y => aluSar x y.toNat
def execRot (h : Hdr) (d a b : Spec) := onMach fun _ mc => mc.reg2 h d a b fun x y => aluRot x y.toNat
def execShf (h : Hdr) (d a b c : Spec) := onMach fun _ mc => mc.reg3 h d a b c aluShf
def execAndImm (h : Hdr) (d a : Spec) (i : BitVec 24) := onMach fun _ mc => mc.reg1 h d a fun x => x &&& immZ i
def execOrImm (h : Hdr) (d a : Spec) (i : BitVec 24) := onMach fun _ mc => mc.reg1 h d a fun x => x ||| immZ i
def execXorImm (h : Hdr) (d a : Spec) (i : BitVec 24) := onMach fun _ mc => mc.reg1 h d a fun x => x ^^^ immZ i
def execAndnImm (h : Hdr) (d a : Spec) (i : BitVec 24) := onMach fun _ mc => mc.reg1 h d a fun x => x &&& ~~~(immZ i)
def execShlImm (h : Hdr) (d a : Spec) (n : BitVec 5) := onMach fun _ mc => mc.reg1 h d a fun x => aluShl x n.toNat
def execShrImm (h : Hdr) (d a : Spec) (n : BitVec 5) := onMach fun _ mc => mc.reg1 h d a fun x => aluShr x n.toNat
def execSarImm (h : Hdr) (d a : Spec) (n : BitVec 5) := onMach fun _ mc => mc.reg1 h d a fun x => aluSar x n.toNat
def execRotImm (h : Hdr) (d a : Spec) (n : BitVec 5) := onMach fun _ mc => mc.reg1 h d a fun x => aluRot x n.toNat

/-- spec/13 R325. -/
def execBfx (h : Hdr) (i : Bool) (d a b : Spec) := onMach fun _ mc => mc.reg2 h d a b (aluBfx i)
def execBfi (h : Hdr) (d a b c : Spec) := onMach fun _ mc => mc.reg3 h d a b c aluBfi
def execPopc (h : Hdr) (d a : Spec) := onMach fun _ mc => mc.reg1 h d a aluPopc
def execClz (h : Hdr) (d a : Spec) := onMach fun _ mc => mc.reg1 h d a aluClz
def execCtz (h : Hdr) (d a : Spec) := onMach fun _ mc => mc.reg1 h d a aluCtz
def execBrev (h : Hdr) (d a : Spec) := onMach fun _ mc => mc.reg1 h d a aluBrev

/-- spec/13 R326, R327. -/
def execSel (h : Hdr) (d a b c : Spec) := onMach fun _ mc => mc.reg3 h d a b c fun x y p => if p ≠ 0 then x else y
def execCmp (h : Hdr) (c : Cond) (d a b : Spec) := onMach fun _ mc => mc.reg2 h d a b fun x y => maskW (condHolds c x y)
def execCmpImm (h : Hdr) (c : Cond) (d a : Spec) (i : BitVec 20) := onMach fun _ mc =>
  mc.reg1 h d a fun x => maskW (condHolds c x (condImm c i))
def execLea (h : Hdr) (sh : BitVec 2) (u : Bool) (d a b : Spec) := onMach fun _ mc => mc.regOp h d fun _ fr t =>
  pairWords (aluLea sh u (t.rdPair fr a) (t.rd (fr + 4) b))
def execLeaImm (h : Hdr) (d a : Spec) (i : BitVec 24) := onMach fun _ mc => mc.regOp h d fun _ fr t =>
  pairWords (t.rdPair fr a + i.signExtend 64)
def execMov (h : Hdr) (w64 : Bool) (d a : Spec) := onMach fun _ mc => mc.regOp h d fun _ fr t =>
  t.rdN fr a (if w64 then 2 else 1)
/-- spec/13 R329. -/
def execMovi (h : Hdr) (d : Spec) (i : BitVec 32) := onMach fun _ mc => mc.regOp h d fun _ _ _ => [i]

/-- The a values of the active threads by slot, read before any result is written (spec/13 R331, R332). -/
def Mach.laneWords (m : Mach) (q : Quarter) (a : Spec) : List (Nat × Word) :=
  q.active.map fun p => (p.1, (m.thr p.2).rd (m.fr p.1) a)

/-- The word a thread receives from `shfl` (spec/13 R331). -/
def shflWord (ls : List (Nat × Word)) (m : ShMode) (z : Bool) (sl : Nat) (own : Word) (n : Nat) : Word :=
  match (shflSrc m sl n).bind fun s => ls.find? fun p => p.1 == s with
  | some p => p.2
  | none => if z then 0 else own

def execShfl (h : Hdr) (m : ShMode) (z : Bool) (d a b : Spec) := onMach fun _ mc => mc.withQ fun q =>
  mc.onEach q h fun sl fr t =>
    t.put h d [shflWord (mc.laneWords q a) m z sl (t.rd fr a) (t.rd (fr + 4) b).toNat]

/-- The result of `vote`, the same for every active thread (spec/13 R332). -/
def voteWord (ls : List (Nat × Word)) (k : VoteKind) : Word :=
  match k with
  | .ballot => wN ((ls.filter fun p => p.2 != 0).foldl (fun n p => n + 2 ^ p.1) 0)
  | .any => maskW (ls.any fun p => p.2 != 0)
  | .all => maskW (ls.all fun p => p.2 != 0)
  | .eq => maskW (ls.all fun p => p.2 == (ls.headD (0, 0)).2)

def execVote (h : Hdr) (k : VoteKind) (d a : Spec) := onMach fun _ mc => mc.withQ fun q =>
  mc.onEach q h fun _ _ t => t.put h d [voteWord (mc.laneWords q a) k]

end Sys2Proof.Machine
end

