-- ==== Sys2Proof/Machine/Dispatch.lean ====
section
/-! DEFINITION. The dispatch: one arm for each instruction and each step of the package. -/

namespace Sys2Proof.Machine

/-- THE MEANING of an instruction or step in a state. -/
def exec (i : Instr) (s : State) : Host.Outcome State Fault Refusal :=
  match i with
  -- control (spec/12)
  | .bra h off => Sys2Proof.Machine.execBra h off s
  | .brz h r off => Sys2Proof.Machine.execBrz h r off s
  | .brnz h r off => Sys2Proof.Machine.execBrnz h r off s
  | .brx h a => Sys2Proof.Machine.execBrx h a s
  | .callDirect h off => Sys2Proof.Machine.execCallDirect h off s
  | .callReg h a => Sys2Proof.Machine.execCallReg h a s
  | .ret h => Sys2Proof.Machine.execRet h s
  | .reform h => Sys2Proof.Machine.execReform h s
  | .yield h => Sys2Proof.Machine.execYield h s
  | .exit h => Sys2Proof.Machine.execExit h s
  | .bar h lvl num cnt => Sys2Proof.Machine.execBar h lvl num cnt s
  | .bara h lvl num cnt => Sys2Proof.Machine.execBara h lvl num cnt s
  | .barw h lvl num => Sys2Proof.Machine.execBarw h lvl num s
  | .spawn h d a b c => Sys2Proof.Machine.execSpawn h d a b c s
  | .join h => Sys2Proof.Machine.execJoin h s
  | .nop h => Sys2Proof.Machine.execNop h s
  | .brk h n => Sys2Proof.Machine.execBrk h n s
  -- integer (spec/13)
  | .add h m d a b => Sys2Proof.Machine.execAdd h m d a b s
  | .sub h m d a b => Sys2Proof.Machine.execSub h m d a b s
  | .mul h m d a b => Sys2Proof.Machine.execMul h m d a b s
  | .mulh h u d a b => Sys2Proof.Machine.execMulh h u d a b s
  | .mad h m d a b c => Sys2Proof.Machine.execMad h m d a b c s
  | .madw h u d a b c => Sys2Proof.Machine.execMadw h u d a b c s
  | .addc h d a b c => Sys2Proof.Machine.execAddc h d a b c s
  | .subb h d a b c => Sys2Proof.Machine.execSubb h d a b c s
  | .min h u d a b => Sys2Proof.Machine.execMin h u d a b s
  | .max h u d a b => Sys2Proof.Machine.execMax h u d a b s
  | .abs h sat d a => Sys2Proof.Machine.execAbs h sat d a s
  | .neg h sat d a => Sys2Proof.Machine.execNeg h sat d a s
  | .addImm h d a imm => Sys2Proof.Machine.execAddImm h d a imm s
  | .subImm h d a imm => Sys2Proof.Machine.execSubImm h d a imm s
  | .mulImm h d a imm => Sys2Proof.Machine.execMulImm h d a imm s
  | .mulhImm h d a imm => Sys2Proof.Machine.execMulhImm h d a imm s
  | .minImm h d a imm => Sys2Proof.Machine.execMinImm h d a imm s
  | .maxImm h d a imm => Sys2Proof.Machine.execMaxImm h d a imm s
  | .and h d a b => Sys2Proof.Machine.execAnd h d a b s
  | .or h d a b => Sys2Proof.Machine.execOr h d a b s
  | .xor h d a b => Sys2Proof.Machine.execXor h d a b s
  | .andn h d a b => Sys2Proof.Machine.execAndn h d a b s
  | .not h d a => Sys2Proof.Machine.execNot h d a s
  | .shl h d a b => Sys2Proof.Machine.execShl h d a b s
  | .shr h d a b => Sys2Proof.Machine.execShr h d a b s
  | .sar h d a b => Sys2Proof.Machine.execSar h d a b s
  | .rot h d a b => Sys2Proof.Machine.execRot h d a b s
  | .shf h d a b c => Sys2Proof.Machine.execShf h d a b c s
  | .andImm h d a imm => Sys2Proof.Machine.execAndImm h d a imm s
  | .orImm h d a imm => Sys2Proof.Machine.execOrImm h d a imm s
  | .xorImm h d a imm => Sys2Proof.Machine.execXorImm h d a imm s
  | .andnImm h d a imm => Sys2Proof.Machine.execAndnImm h d a imm s
  | .shlImm h d a n => Sys2Proof.Machine.execShlImm h d a n s
  | .shrImm h d a n => Sys2Proof.Machine.execShrImm h d a n s
  | .sarImm h d a n => Sys2Proof.Machine.execSarImm h d a n s
  | .rotImm h d a n => Sys2Proof.Machine.execRotImm h d a n s
  | .bfx h i0 d a b => Sys2Proof.Machine.execBfx h i0 d a b s
  | .bfi h d a b c => Sys2Proof.Machine.execBfi h d a b c s
  | .popc h d a => Sys2Proof.Machine.execPopc h d a s
  | .clz h d a => Sys2Proof.Machine.execClz h d a s
  | .ctz h d a => Sys2Proof.Machine.execCtz h d a s
  | .brev h d a => Sys2Proof.Machine.execBrev h d a s
  | .sel h d a b c => Sys2Proof.Machine.execSel h d a b c s
  | .cmp h cc d a b => Sys2Proof.Machine.execCmp h cc d a b s
  | .lea h sh u d a b => Sys2Proof.Machine.execLea h sh u d a b s
  | .mov h w64 d a => Sys2Proof.Machine.execMov h w64 d a s
  | .cmpImm h cc d a imm => Sys2Proof.Machine.execCmpImm h cc d a imm s
  | .leaImm h d a imm => Sys2Proof.Machine.execLeaImm h d a imm s
  | .movi h d imm => Sys2Proof.Machine.execMovi h d imm s
  | .shfl h m z d a b => Sys2Proof.Machine.execShfl h m z d a b s
  | .vote h k d a => Sys2Proof.Machine.execVote h k d a s
  | .rdsr h d idx => Sys2Proof.Machine.execRdsr h d idx s
  | .wrsr h a idx => Sys2Proof.Machine.execWrsr h a idx s
  -- float, special functions, transformed mean, narrow conversion (spec/14)
  | .fadd h d a b => Sys2Proof.Machine.execFadd h d a b s
  | .fsub h d a b => Sys2Proof.Machine.execFsub h d a b s
  | .fmul h d a b => Sys2Proof.Machine.execFmul h d a b s
  | .ffma h d a b c => Sys2Proof.Machine.execFfma h d a b c s
  | .fmin h num d a b => Sys2Proof.Machine.execFmin h num d a b s
  | .fmax h num d a b => Sys2Proof.Machine.execFmax h num d a b s
  | .fcmp h cc d a b => Sys2Proof.Machine.execFcmp h cc d a b s
  | .fclass h d a => Sys2Proof.Machine.execFclass h d a s
  | .fscale h d a b => Sys2Proof.Machine.execFscale h d a b s
  | .fcvt h dt st d a => Sys2Proof.Machine.execFcvt h dt st d a s
  | .frnd h m d a => Sys2Proof.Machine.execFrnd h m d a s
  | .fpack h bf d a b => Sys2Proof.Machine.execFpack h bf d a b s
  | .fdot2 h bf d a b c => Sys2Proof.Machine.execFdot2 h bf d a b c s
  | .fdot4 h e5 d a b c => Sys2Proof.Machine.execFdot4 h e5 d a b c s
  | .sfe2 h d a => Sys2Proof.Machine.execSfe2 h d a s
  | .sfl2 h d a => Sys2Proof.Machine.execSfl2 h d a s
  | .sfrcp h d a => Sys2Proof.Machine.execSfrcp h d a s
  | .sfrsq h d a => Sys2Proof.Machine.execSfrsq h d a s
  | .sfsqr h d a => Sys2Proof.Machine.execSfsqr h d a s
  | .sfsin h d a => Sys2Proof.Machine.execSfsin h d a s
  | .sfcos h d a => Sys2Proof.Machine.execSfcos h d a s
  | .sftanh h d a => Sys2Proof.Machine.execSftanh h d a s
  | .sfsig h d a => Sys2Proof.Machine.execSfsig h d a s
  | .sfsilu h d a => Sys2Proof.Machine.execSfsilu h d a s
  | .topkGroup h p w k a b c => Sys2Proof.Machine.execTopkGroup h p w k a b c s
  | .topkRow h w k d a b c => Sys2Proof.Machine.execTopkRow h w k d a b c s
  | .tment h d a => Sys2Proof.Machine.execTment h d a s
  | .tmred h d a => Sys2Proof.Machine.execTmred h d a s
  | .tmmrg h d a b => Sys2Proof.Machine.execTmmrg h d a b s
  | .tmscl h d a b => Sys2Proof.Machine.execTmscl h d a b s
  | .tmext h d a => Sys2Proof.Machine.execTmext h d a s
  | .tmld h p a off => Sys2Proof.Machine.execTmld h p a off s
  | .cvtq h st sl d a b c => Sys2Proof.Machine.execCvtq h st sl d a b c s
  | .rquant h sl d a b c => Sys2Proof.Machine.execRquant h sl d a b c s
  | .bscale h st sl d a => Sys2Proof.Machine.execBscale h st sl d a s
  -- memory (spec/15)
  | .ld h sz tm sc d a off => Sys2Proof.Machine.execLd h sz tm sc d a off s
  | .st h sz tm sc d a off => Sys2Proof.Machine.execSt h sz tm sc d a off s
  | .lds h sz sc d a off => Sys2Proof.Machine.execLds h sz sc d a off s
  | .sts h sz sc d a off => Sys2Proof.Machine.execSts h sz sc d a off s
  | .ldt h sz md d a off => Sys2Proof.Machine.execLdt h sz md d a off s
  | .stt h sz aon d a off => Sys2Proof.Machine.execStt h sz aon d a off s
  | .atom h op ty sc d a b => Sys2Proof.Machine.execAtom h op ty sc d a b s
  | .red h op ty sc a b => Sys2Proof.Machine.execRed h op ty sc a b s
  | .fence h sem sc => Sys2Proof.Machine.execFence h sem sc s
  | .prf h tm sc a off => Sys2Proof.Machine.execPrf h tm sc a off s
  | .gjoin h a => Sys2Proof.Machine.execGjoin h a s
  | .gleave h => Sys2Proof.Machine.execGleave h s
  | .fibld h clr d a b => Sys2Proof.Machine.execFibld h clr d a b s
  | .fibprb h m d a => Sys2Proof.Machine.execFibprb h m d a s
  -- matrix (spec/16)
  | .mma h z acc a b sA sB => Sys2Proof.Machine.execMma h z acc a b sA sB s
  | .mmas h pat acc a b m sA sB => Sys2Proof.Machine.execMmas h pat acc a b m sA sB s
  | .mmaj h z tag acc a b sA sB => Sys2Proof.Machine.execMmaj h z tag acc a b sA sB s
  | .mmx h a => Sys2Proof.Machine.execMmx h a s
  | .mmr h a => Sys2Proof.Machine.execMmr h a s
  | .tdrain h m q qt z i0 acc a b s0 => Sys2Proof.Machine.execTdrain h m q qt z i0 acc a b s0 s
  | .tzero h q qt acc => Sys2Proof.Machine.execTzero h q qt acc s
  -- engines and system (spec/17)
  | .cpy h ds ss a b c => Sys2Proof.Machine.execCpy h ds ss a b c s
  | .cpyp h a b c => Sys2Proof.Machine.execCpyp h a b c s
  | .qfence h q set d => Sys2Proof.Machine.execQfence h q set d s
  | .qpost h q a => Sys2Proof.Machine.execQpost h q a s
  | .rlinv h q a => Sys2Proof.Machine.execRlinv h q a s
  | .ctrset h a b => Sys2Proof.Machine.execCtrset h a b s
  | .ctradd h a b => Sys2Proof.Machine.execCtradd h a b s
  | .ctrwait h a b => Sys2Proof.Machine.execCtrwait h a b s
  | .stcfg h e a => Sys2Proof.Machine.execStcfg h e a s
  | .rwait h r d => Sys2Proof.Machine.execRwait h r d s
  | .rdone h r a => Sys2Proof.Machine.execRdone h r a s
  | .rclose h r => Sys2Proof.Machine.execRclose h r s
  | .sigld h hs a b => Sys2Proof.Machine.execSigld h hs a b s
  | .kstore h nt sc hs a b c => Sys2Proof.Machine.execKstore h nt sc hs a b c s
  | .qsig h hs d b => Sys2Proof.Machine.execQsig h hs d b s
  | .bprobe h nt sc d b c => Sys2Proof.Machine.execBprobe h nt sc d b c s
  | .trap h n => Sys2Proof.Machine.execTrap h n s
  | .sysc h n => Sys2Proof.Machine.execSysc h n s
  | .sig h sc a b => Sys2Proof.Machine.execSig h sc a b s
  | .tret h => Sys2Proof.Machine.execTret h s
  | .tretEnd h => Sys2Proof.Machine.execTretEnd h s
  | .csave h d a => Sys2Proof.Machine.execCsave h d a s
  | .crest h a b => Sys2Proof.Machine.execCrest h a b s
  | .rdclk h d => Sys2Proof.Machine.execRdclk h d s
  -- steps of the package (spec/01, spec/02)
  | .resetNRelease => Sys2Proof.Machine.execResetNRelease s
  | .bootHostImageLoad => Sys2Proof.Machine.execBootHostImageLoad s
  | .powerSample mw rails => Sys2Proof.Machine.execPowerSample mw rails s
  | .thermalThrottle temps => Sys2Proof.Machine.execThermalThrottle temps s
  | .thermtrip sensor => Sys2Proof.Machine.execThermtrip sensor s
  | .registerWrite pa w64 v => Sys2Proof.Machine.execRegisterWrite pa w64 v s
  | .cxldCommit d v => Sys2Proof.Machine.execCxldCommit d v s
  | .cxldUncommit d v => Sys2Proof.Machine.execCxldUncommit d v s
  | .cxlLinkTrain p speed link flit256 => Sys2Proof.Machine.execCxlLinkTrain p speed link flit256 s
  | .cxlLinkDown p => Sys2Proof.Machine.execCxlLinkDown p s
  | .cxlMemError p who bad => Sys2Proof.Machine.execCxlMemError p who bad s
  | .cxlDcEvent e => Sys2Proof.Machine.execCxlDcEvent e s
  | .cxlpPoisonClear p => Sys2Proof.Machine.execCxlpPoisonClear p s
  | .cxlpLdownClear p => Sys2Proof.Machine.execCxlpLdownClear p s
  | .cxlpReplaysClear p => Sys2Proof.Machine.execCxlpReplaysClear p s
  | .pcieLinkTrain p width speed => Sys2Proof.Machine.execPcieLinkTrain p width speed s
  | .pcieInboundRequest r => Sys2Proof.Machine.execPcieInboundRequest r s
  | .pcieAtomicop p a op size x cmp => Sys2Proof.Machine.execPcieAtomicop p a op size x cmp s
  | .pcieFlr => Sys2Proof.Machine.execPcieFlr s
  | .hostWindowAccess off write bytes ok => Sys2Proof.Machine.execHostWindowAccess off write bytes ok s
  | .hostWindowTimeout off => Sys2Proof.Machine.execHostWindowTimeout off s
  | .fabricLinkTrain n rttNs ver peer req rsp => Sys2Proof.Machine.execFabricLinkTrain n rttNs ver peer req rsp s
  | .flitReceive n f => Sys2Proof.Machine.execFlitReceive n f s
  | .flitReplay n seq => Sys2Proof.Machine.execFlitReplay n seq s
  | .flitSend n => Sys2Proof.Machine.execFlitSend n s
  | .linkReplayRetrain n => Sys2Proof.Machine.execLinkReplayRetrain n s
  | .fabricPassThrough n vc => Sys2Proof.Machine.execFabricPassThrough n vc s
  | .fportCtlWrite n v => Sys2Proof.Machine.execFportCtlWrite n v s
  | .fportRetrain n => Sys2Proof.Machine.execFportRetrain n s
  | .fportErrClear n v => Sys2Proof.Machine.execFportErrClear n v s
  | .routeEntryWrite id v => Sys2Proof.Machine.execRouteEntryWrite id v s
  | .collEntryStart rcb pair => Sys2Proof.Machine.execCollEntryStart rcb pair s
  | .collOpen eid => Sys2Proof.Machine.execCollOpen eid s
  | .collClose eid => Sys2Proof.Machine.execCollClose eid s
  | .collPut eid => Sys2Proof.Machine.execCollPut eid s
  | .collPutr eid => Sys2Proof.Machine.execCollPutr eid s
  | .ringReduceScatter eid => Sys2Proof.Machine.execRingReduceScatter eid s
  | .ringAllGather eid => Sys2Proof.Machine.execRingAllGather eid s
  | .ringAllReduce eid => Sys2Proof.Machine.execRingAllReduce eid s
  | .ringBroadcast eid => Sys2Proof.Machine.execRingBroadcast eid s
  | .ringBarrierToken eid => Sys2Proof.Machine.execRingBarrierToken eid s
  | .ringTokenArrive n => Sys2Proof.Machine.execRingTokenArrive n s
  | .chunkSend n => Sys2Proof.Machine.execChunkSend n s
  | .chunkArrive n vc => Sys2Proof.Machine.execChunkArrive n vc s
  | .chunkWaitClosedCid n vc => Sys2Proof.Machine.execChunkWaitClosedCid n vc s
  | .completionTokenArrive n => Sys2Proof.Machine.execCompletionTokenArrive n s
  | .tokenRefused n => Sys2Proof.Machine.execTokenRefused n s
  | .tokenResend k => Sys2Proof.Machine.execTokenResend k s
  | .putArrive n vc => Sys2Proof.Machine.execPutArrive n vc s
  | .collEntryRetire eid => Sys2Proof.Machine.execCollEntryRetire eid s
  | .collLinkTimeout w => Sys2Proof.Machine.execCollLinkTimeout w s
  | .pkgRunWrite v => Sys2Proof.Machine.execPkgRunWrite v s
  | .dieResetDone d => Sys2Proof.Machine.execDieResetDone d s
  | .intRouteWrite i0 v => Sys2Proof.Machine.execIntRouteWrite i0 v s
  | .sigpendRead c => Sys2Proof.Machine.execSigpendRead c s
  | .timeBaseTick => Sys2Proof.Machine.execTimeBaseTick s
  | .regionTimerFire k => Sys2Proof.Machine.execRegionTimerFire k s
  | .rtmrFiredClear k => Sys2Proof.Machine.execRtmrFiredClear k s
  | .rtmrCtrerrClear k => Sys2Proof.Machine.execRtmrCtrerrClear k s
  | .sysqCfgWrite q v => Sys2Proof.Machine.execSysqCfgWrite q v s
  | .syscallEntryWrite q => Sys2Proof.Machine.execSyscallEntryWrite q s
  | .sysqCplWrite q v => Sys2Proof.Machine.execSysqCplWrite q v s
  | .mailboxInbellWrite m v => Sys2Proof.Machine.execMailboxInbellWrite m v s
  | .mailboxInbellRead m => Sys2Proof.Machine.execMailboxInbellRead m s
  | .mailboxOutbellWrite m v => Sys2Proof.Machine.execMailboxOutbellWrite m v s
  | .mailboxOutbellRead m => Sys2Proof.Machine.execMailboxOutbellRead m s
  | .coreClockGate k => Sys2Proof.Machine.execCoreClockGate k s
  | .corePowerGate k => Sys2Proof.Machine.execCorePowerGate k s
  | .coreWake k => Sys2Proof.Machine.execCoreWake k s
  | .grvPwrWrite g v => Sys2Proof.Machine.execGrvPwrWrite g v s
  | .grvPwrErrClear g => Sys2Proof.Machine.execGrvPwrErrClear g s
  | .grovePowerTransition g => Sys2Proof.Machine.execGrovePowerTransition g s
  | .pkgPlimitWrite v => Sys2Proof.Machine.execPkgPlimitWrite v s
  | .preemptWrite v => Sys2Proof.Machine.execPreemptWrite v s
  | .secntClear k => Sys2Proof.Machine.execSecntClear k s
  | .cavernPatrol => Sys2Proof.Machine.execCavernPatrol s
  | .i3cSetdasa a => Sys2Proof.Machine.execI3cSetdasa a s
  | .i3cEntdaa a => Sys2Proof.Machine.execI3cEntdaa a s
  | .i3cPrivateRead off n => Sys2Proof.Machine.execI3cPrivateRead off n s
  | .i3cPrivateWrite off v => Sys2Proof.Machine.execI3cPrivateWrite off v s
  -- launches and scheduling (spec/03, spec/04)
  | .lpPost p => Sys2Proof.Machine.execLpPost p s
  | .lpStsFullClear p => Sys2Proof.Machine.execLpStsFullClear p s
  | .lpKill p tag => Sys2Proof.Machine.execLpKill p tag s
  | .launchAccept p => Sys2Proof.Machine.execLaunchAccept p s
  | .launchRetire l => Sys2Proof.Machine.execLaunchRetire l s
  | .waveDispatch core => Sys2Proof.Machine.execWaveDispatch core s
  | .issuePick core => Sys2Proof.Machine.execIssuePick core s
  | .shuttleLoad core => Sys2Proof.Machine.execShuttleLoad core s
  | .shuttleEvictLongWait core qid => Sys2Proof.Machine.execShuttleEvictLongWait core qid s
  | .shuttleEvictForWaiting core => Sys2Proof.Machine.execShuttleEvictForWaiting core s
  | .barrierArrivalNode => Sys2Proof.Machine.execBarrierArrivalNode s
  | .domainBarrierMessage n => Sys2Proof.Machine.execDomainBarrierMessage n s
  | .barrierRelease tid => Sys2Proof.Machine.execBarrierRelease tid s
  | .quiescenceDrainDetect l => Sys2Proof.Machine.execQuiescenceDrainDetect l s
  | .drainSweepToken l => Sys2Proof.Machine.execDrainSweepToken l s
  | .dispatchPreemptRequest g => Sys2Proof.Machine.execDispatchPreemptRequest g s
  | .preemptSave rcb => Sys2Proof.Machine.execPreemptSave rcb s
  | .regionResume rcb => Sys2Proof.Machine.execRegionResume rcb s
  | .gladeAgeExpire gid => Sys2Proof.Machine.execGladeAgeExpire gid s
  | .widenFrameGrant call => Sys2Proof.Machine.execWidenFrameGrant call s
  | .gatherFrameGrant call => Sys2Proof.Machine.execGatherFrameGrant call s
  -- faults, accesses, engines, traps (spec/06-08, spec/16, spec/17)
  | .faultEntryPost fd => Sys2Proof.Machine.execFaultEntryPost fd s
  | .faultQueueHeaderStore fd => Sys2Proof.Machine.execFaultQueueHeaderStore fd s
  | .invalidationDone fd => Sys2Proof.Machine.execInvalidationDone fd s
  | .remoteAccessRequest n vc => Sys2Proof.Machine.execRemoteAccessRequest n vc s
  | .remoteAccessTimeout tid oid => Sys2Proof.Machine.execRemoteAccessTimeout tid oid s
  | .accessPerform tid oid install => Sys2Proof.Machine.execAccessPerform tid oid install s
  | .readCacheDrop core fd line => Sys2Proof.Machine.execReadCacheDrop core fd line s
  | .engineStep core q => Sys2Proof.Machine.execEngineStep core q s
  | .instructionComplete tid uid => Sys2Proof.Machine.execInstructionComplete tid uid s
  | .trapEntry gid => Sys2Proof.Machine.execTrapEntry gid s
  | .alcoveBind core => Sys2Proof.Machine.execAlcoveBind core s
  | .watchdogExpire tid => Sys2Proof.Machine.execWatchdogExpire tid s
  | .mmajJointStart k => Sys2Proof.Machine.execMmajJointStart k s
  | .mmajPartnerTimeout k => Sys2Proof.Machine.execMmajPartnerTimeout k s
  | .macroOpStep core => Sys2Proof.Machine.execMacroOpStep core s
  | .mmrStepBoundary core => Sys2Proof.Machine.execMmrStepBoundary core s
  | .mmrIdleCheck core => Sys2Proof.Machine.execMmrIdleCheck core s
  | .streamFillStep core e => Sys2Proof.Machine.execStreamFillStep core e s
  | .streamDrainStep core e => Sys2Proof.Machine.execStreamDrainStep core e s
  | .kstoreLinkStep tid oid => Sys2Proof.Machine.execKstoreLinkStep tid oid s
  | .sigRemoteArrive n => Sys2Proof.Machine.execSigRemoteArrive n s
  | .sigAckArrive n => Sys2Proof.Machine.execSigAckArrive n s
  | .sigAckTimeout tid uid => Sys2Proof.Machine.execSigAckTimeout tid uid s
  | .fabricLinkDown n => Sys2Proof.Machine.execFabricLinkDown n s
  | .controlCoreStore pa r => Sys2Proof.Machine.execControlCoreStore pa r s
  | .resetNAssert => Sys2Proof.Machine.execResetNAssert s
  | .pcieIntxInput src level => Sys2Proof.Machine.execPcieIntxInput src level s
  | .collFailureArrive n => Sys2Proof.Machine.execCollFailureArrive n s

end Sys2Proof.Machine
end

