-- ==== Sys2Proof/Machine/Step.lean ====
section
/-! DEFINITION. ONE STEP of the machine, and the placing of a word where the next step fetches it. -/

namespace Sys2Proof.Machine

/-- ONE STEP: the stage finds the instruction that issues or the step of the package that happens, and it runs. -/
def step (s : State) : Host.Outcome State Fault Refusal :=
  match stage defaultNext s with
  | (t, some i) => exec i t
  | (t, none) => .next t

/-- The state in which the next step fetches and runs the instruction whose bits are `w` (log 11). -/
def State.withFetchWord (s : State) (nbits w : Nat) : State :=
  { s with mach := placeWord s.mach (BitVec.ofNat 64 (w % 2 ^ nbits)) }

end Sys2Proof.Machine
end

