-- ==== Sys2Proof/Safety.lean ====
section
/-! DEFINITION. What a safe run is, in the terms the claims use: invariants of the state. -/

namespace Sys2Proof.Machine

/-- The canonical form of memory, as a statement of the state. -/
abbrev State.memOk (s : State) : Prop := s.mach.mem.wf = true

/-- The next state of an outcome, if it has one. -/
def nextOf (o : Host.Outcome State Fault Refusal) : Option State :=
  match o with
  | .next s => some s
  | .fault _ => none
  | .refused _ => none

end Sys2Proof.Machine
end

