-- ==== Sys2Proof/Safety/Registers.lean ====
section
/-! DEFINITION. What the claims say of instructions that work on the registers of a quarter's threads: when a quarter can run
its instruction, what happens to the destination and to `x`, and that nothing else changes. -/

namespace Sys2Proof.Machine

/-- The quarter runs the current instruction: it is the current one, its active threads are different threads that exist, and
its launch is not ending. -/
def Running (s : State) (q : Quarter) : Prop :=
  s.mach.quarter? s.mach.cur = some q ∧ q.tids.Nodup ∧ (∀ k ∈ q.tids, (s.mach.thr? k).isSome) ∧
    (s.mach.launch q.launch).ending = none

/-- A destination of `n` registers that the thread has (spec/10 R276): `v`, `c`, or `zero`, which discards. -/
def DestFits (t : Thread) (d : Spec) (n : Nat) : Prop :=
  match d with
  | .v k => k.toNat + n ≤ t.regs.length
  | .c k => k.toNat + n ≤ 8 ∧ t.c.length = 8
  | .zero => True
  | .x0 => False
  | .x1 => False

/-- Register `v(k)` after writing `ws` to the destination. -/
def vAfter (d : Spec) (ws : List Word) (T : Thread) (k : Nat) : Word :=
  match d with
  | .v b => if b.toNat ≤ k ∧ k < b.toNat + ws.length then ws.getD (k - b.toNat) 0 else T.regs.getD k 0
  | _ => T.regs.getD k 0

/-- Register `c(k)` after writing `ws` to the destination, inside the clause. -/
def cAfter (d : Spec) (ws : List Word) (T : Thread) (k : Nat) : XPos :=
  match d with
  | .c b => if b.toNat ≤ k ∧ k < b.toNat + ws.length then .val (ws.getD (k - b.toNat) 0) else T.c.getD k .undef
  | _ => T.c.getD k .undef

/-- THE EFFECT ON A THREAD of an instruction that writes `ws` to `d` at issue (spec/05 R148, spec/13 R319): the destination
alone of `v`; `x` shifts when no flag is named; at the end of the clause `x` and `c` become undefined and the thread holds no header. A count that the
instruction carried from a replay is signalled. Everything else of the thread stays. -/
def RegEffect (q : Quarter) (h : Hdr) (d : Spec) (ws : List Word) (T U : Thread) : Prop :=
  (∀ k, U.regs.getD k 0 = vAfter d ws T k) ∧ U.regs.length = T.regs.length ∧
  (∀ k, k < 8 → U.c.getD k .undef = if q.isLast then .undef else cAfter d ws T k) ∧
  U.x0 = (if q.isLast then .undef else if h.flag = 0 then .val (ws.headD 0) else T.x0) ∧
  U.x1 = (if q.isLast then .undef else if h.flag = 0 then T.x0 else T.x1) ∧
  U.flags = (if T.carries q.pc then T.flagDown h.flag.toNat else T).flags ∧
  U = { T with regs := U.regs, c := U.c, x0 := U.x0, x1 := U.x1, clause := U.clause, flags := U.flags, carry := none,
               hdr := (if q.isLast then none else T.hdr), sender := none, waitSince := none }

/-- The effect on a thread of an instruction that writes no register: at the end of the clause `x` and `c` become undefined and the
thread holds no header, and the flags stay but for a count that the instruction carried. -/
def Unwritten (q : Quarter) (T U : Thread) : Prop :=
  (∀ k, k < 8 → U.c.getD k .undef = if q.isLast then .undef else T.c.getD k .undef) ∧
  U.x0 = (if q.isLast then .undef else T.x0) ∧ U.x1 = (if q.isLast then .undef else T.x1) ∧
  (T.carries q.pc = false → U.flags = T.flags) ∧
  U = { T with c := U.c, x0 := U.x0, x1 := U.x1, clause := U.clause, flags := U.flags, carry := none,
               hdr := (if q.isLast then none else T.hdr), sender := none,
               waitSince := none }

/-- THE FRAME of an instruction that works on registers alone: memory, every other thread, every other quarter, every unit,
every special register and the package stay; the quarter stands at the next word. -/
def OnlyQuarter (s t : State) (q : Quarter) : Prop :=
  (∀ a, t.mach.mem.read a = s.mach.mem.read a) ∧
  (∀ k, k ∉ q.tids → t.mach.thr? k = s.mach.thr? k) ∧
  (∀ k, k ≠ q.id → t.mach.quarter? k = s.mach.quarter? k) ∧
  (∃ q', t.mach.quarter? q.id = some q' ∧ q'.pc = q.pc + 8 ∧ q'.slots = q.slots ∧ q'.slice = q.slice ∧
    q'.hdr = (if q.isLast then none else q.hdr)) ∧
  t.agenda = s.agenda ∧
  t.mach = { s.mach with threads := t.mach.threads, quarters := t.mach.quarters, free := t.mach.free, next := t.mach.next,
                         fired := [], cxlErrs := [] } ∧
  t.sys = { s.sys with cports := t.sys.cports, irq := t.sys.irq, seFired := t.sys.seFired }

/-- AN INSTRUCTION THAT COMPLETES AT ISSUE with a result of `n` registers: for every state whose quarter runs and whose
threads have the destination, a next state, in which every active thread has its own result and nothing else changed.
`value` answers from the state, the quarter, the slot, where the free values of the thread begin (log 4), and the thread before. -/
def Completes (i : Instr) (h : Hdr) (d : Spec) (n : Nat) (value : State → Quarter → Nat → Nat → Thread → List Word → Prop) :
    Prop :=
  ∀ s q, Running s q → (∀ k ∈ q.tids, DestFits (s.mach.thr k) d n) →
    ∃ t, exec i s = .next t ∧ OnlyQuarter s t q ∧
      ∀ p ∈ q.active, ∃ ws, ws.length = n ∧ value s q p.1 (s.mach.fr p.1) (s.mach.thr p.2) ws ∧
        RegEffect q h d ws (s.mach.thr p.2) (t.mach.thr p.2)

/-- The same of an instruction that writes no register, where `g` is what it does to the thread. -/
def CompletesOn (i : Instr) (g : State → Nat → Thread → Thread) : Prop :=
  ∀ s q, Running s q → ∃ t, exec i s = .next t ∧ OnlyQuarter s t q ∧
    ∀ p ∈ q.active, Unwritten q (g s (s.mach.fr p.1) (s.mach.thr p.2)) (t.mach.thr p.2)

/-- The word that `rdsr` gives for an index (the table of spec/13 R335): `sl` is the slot of the thread. -/
def SpecialIs (s : State) (sl : Nat) (T : Thread) (idx : Nat) (w : Word) : Prop :=
  let clock := dieClock s.sys s.mach T.core
  (idx = 0x00 → w = wN T.tid) ∧ (idx = 0x01 → w = wN sl) ∧ (idx = 0x02 → w = wN T.homeQ) ∧
  (idx = 0x03 → ∀ wv, s.mach.wave? T.wave = some wv → w = wN wv.number) ∧
  (idx = 0x04 → w = wN T.core) ∧ (idx = 0x05 → w = wN (T.core / 24)) ∧ (idx = 0x06 → w = wN (T.core / 1152)) ∧
  (idx = 0x07 → w.toNat = s.sys.devid % 4096) ∧
  (idx = 0x08 → w = wN T.widx) ∧ (idx = 0x09 → w = wN T.wcnt) ∧ (idx = 0x0A → w = wN T.wfold) ∧
  (idx = 0x0B → w = wN T.gmask) ∧ (idx = 0x0C → w = wN T.gslot) ∧
  (idx = 0x10 → w = T.fmode) ∧ (idx = 0x11 → w = T.tmshape) ∧
  (idx = 0x18 → w = clock.lo) ∧
  (idx = 0x19 → w = match T.clockLatch with
    | some v => v
    | none => clock.hi) ∧
  (T.isHandler = true → (idx = 0x0D → w = 0) ∧ (idx = 0x20 → w = T.trapc) ∧ (idx = 0x21 → w = T.trappc) ∧
    (idx = 0x22 → w = T.trapva.lo) ∧ (idx = 0x23 → w = T.trapva.hi)) ∧
  (T.isHandler = false → 0x20 ≤ idx → idx ≤ 0x23 → w = 0) ∧
  (idx = 0x28 → (s.mach.eff T.launch).evq < 64 → w.getLsbD 31 = T.mute ∧ w.toNat % 2 ^ 31 = (s.mach.eff T.launch).evq)

/-- The result is one word, or these words, of the thread. -/
def oneWord (f : Nat → Thread → Word) : State → Quarter → Nat → Nat → Thread → List Word → Prop := fun _ _ _ fr t ws => ws = [f fr t]
def wordsAre (f : Nat → Thread → List Word) : State → Quarter → Nat → Nat → Thread → List Word → Prop :=
  fun _ _ _ fr t ws => ws = f fr t

end Sys2Proof.Machine
end

