-- ==== Sys2Proof/Safety/Flights.lean ====
section
/-! DEFINITION. What the claims say of long-latency instructions: what enters flight at issue, and what lands when the
instruction completes. -/

namespace Sys2Proof.Machine

/-- THE EFFECT ON A THREAD of issuing a long-latency instruction with key `uid` (spec/05 R148, spec/07 R202, spec/10 R271): its
operations join the end of the pending set, its flag counts one more unless it carries that count from a retry or replay, `x` takes a position that waits for the result, and no
register changes. At the end of the clause `x` and `c` become undefined and the thread holds no header. -/
def Issued (q : Quarter) (h : Hdr) (shift : Bool) (uid cycle : Nat) (ops : List PendOp) (T U : Thread) : Prop :=
  U.regs = T.regs ∧ U.pend = T.pend ++ numberOps uid (uid + 1) cycle ops ∧
  U.x0 = (if q.isLast then .undef else if shift = true ∧ h.flag = 0 then .pend uid else T.x0) ∧
  U.x1 = (if q.isLast then .undef else if shift = true ∧ h.flag = 0 then T.x0 else T.x1) ∧
  (∀ k, k < 8 → U.c.getD k .undef = if q.isLast then .undef else T.c.getD k .undef) ∧
  U.flags = (if T.carries q.pc then T else T.flagUp h.flag.toNat).flags ∧
  U = { T with pend := U.pend, c := U.c, x0 := U.x0, x1 := U.x1, clause := U.clause, flags := U.flags, carry := none,
               hdr := (if q.isLast then none else T.hdr), sender := none, waitSince := none }

/-- THE FRAME of an issue: memory, other threads and quarters, and every unit but the flights, the quarter, and what a walk of page
tables leaves stay: translations, and the correction of single-bit errors in the entries it reads (spec/06 R187, R198). -/
def OnlyIssue (s t : State) (q : Quarter) : Prop :=
  (∀ a, t.mach.mem.read a = s.mach.mem.read a) ∧
  (∀ k, k ∉ q.tids → t.mach.thr? k = s.mach.thr? k) ∧
  (∀ k, k ≠ q.id → t.mach.quarter? k = s.mach.quarter? k) ∧
  (∃ q', t.mach.quarter? q.id = some q' ∧ q'.pc = q.pc + 8 ∧ q'.slots = q.slots ∧ q'.slice = q.slice ∧
    q'.hdr = (if q.isLast then none else q.hdr)) ∧
  (∀ f, f ∈ s.mach.flights → f ∈ t.mach.flights) ∧ t.agenda = s.agenda ∧
  t.mach = { s.mach with threads := t.mach.threads, quarters := t.mach.quarters, flights := t.mach.flights,
                         tlbs := t.mach.tlbs, walks := t.mach.walks, eccSingle := t.mach.eccSingle, secnt := t.mach.secnt,
                         free := t.mach.free, next := t.mach.next, fired := [], cxlErrs := [] } ∧
  (s.mach.eccSingle = [] → t.mach.eccSingle = [] ∧ t.mach.secnt = s.mach.secnt) ∧
  t.sys = { s.sys with cports := t.sys.cports, irq := t.sys.irq, seFired := t.sys.seFired }

/-- The flight of one thread's instruction. -/
def FlightOf (s : State) (h : Hdr) (i : Instr) (tid : Nat) (ops : List PendOp) (f : Flight) : Prop :=
  f.instr = i ∧ f.owner = tid ∧ f.tids = [tid] ∧ f.flag = h.flag.toNat ∧ f.clauses = [(tid, (s.mach.thr tid).clause)] ∧
    f.done = (ops == [])

/-- AN INSTRUCTION OF A PORT ON REGISTERS ALONE: it enters flight for every active thread with its result computed from the
operands read at issue; `value` says which words the result may be. -/
def FliesWith (i : Instr) (h : Hdr) (d : Spec) (ok : State → Quarter → Prop)
    (value : State → Quarter → Nat → Nat → Thread → List Word → Prop) : Prop :=
  ∀ s q, Running s q → ok s q → ∃ t, exec i s = .next t ∧ OnlyIssue s t q ∧
    ∀ p ∈ q.active, ∃ f ∈ t.mach.flights, ∃ ws, FlightOf s h i p.2 [] f ∧
      value s q p.1 (s.mach.fr p.1) (s.mach.thr p.2) ws ∧ f.writes = [(p.2, spWords d ws)] ∧ f.xres = [(p.2, ws.headD 0)] ∧
      Issued q h true f.uid s.mach.cycle [] (s.mach.thr p.2) (t.mach.thr p.2)

/-- No condition. -/
def always (_ : State) (_ : Quarter) : Prop := True

/-- The kind, the location and the length of the steps of one range (spec/07 R205): up to 8 bytes each, cut at multiples of 8 of the
address; `loc` is where the byte at `va` stands. -/
def stepsOf (k : OpKind) (va loc len : Nat) : List (OpKind × Nat × Nat) :=
  (words8 va len).map fun p => (k, loc + (p.1 - va), p.2)

/-- The kind, the first location and the length of every operation, in the order in which they were issued. -/
def opsAre (os : List PendOp) (l : List (OpKind × Nat × Nat)) : Prop := os.map (fun o => (o.kind, o.loc, o.len)) = l

/-- AN INSTRUCTION THAT ACCESSES MEMORY FOR EACH THREAD (spec/15 R361): where the access of every active thread passes its
checks and is not judged for races, the operations that `ops` describes join each thread's pending set. -/
def IssuesAccesses (i : Instr) (h : Hdr) (shift : Bool) (ok : State → Quarter → Prop) (plan : State → Nat → Thread → TPlan)
    (ops : State → Nat → Thread → List PendOp → Prop) : Prop :=
  ∀ s q, Running s q → ok s q →
    (∀ p ∈ q.active, (plan s (s.mach.fr p.1) (s.mach.thr p.2)).acc.isOk = true ∧
      (plan s (s.mach.fr p.1) (s.mach.thr p.2)).judge = []) →
    ∃ t, exec i s = .next t ∧ OnlyIssue s t q ∧
      ∀ p ∈ q.active, ∃ f ∈ t.mach.flights, ∃ os, FlightOf s h i p.2 os f ∧ f.writes = [] ∧ f.got = [] ∧
        ops s (s.mach.fr p.1) (s.mach.thr p.2) os ∧
        Issued q h shift f.uid s.mach.cycle os (s.mach.thr p.2) (t.mach.thr p.2)

/-- ONE INSTRUCTION OF A WHOLE QUARTER in flight (spec/15 R376, spec/17 R407): its operations stand in the pending set of the
lowest active thread, and every active thread counts its flag. -/
def GroupFlight (s t : State) (q : Quarter) (h : Hdr) (i : Instr) (shift : Bool) (ops : List PendOp) (f : Flight) : Prop :=
  f ∈ t.mach.flights ∧ f.instr = i ∧ f.owner = s.mach.lowestOf q ∧ f.tids = q.tids ∧ f.flag = h.flag.toNat ∧
    ∀ k ∈ q.tids, Issued q h shift f.uid s.mach.cycle (if k = s.mach.lowestOf q then ops else []) (s.mach.thr k)
      (t.mach.thr k)

/-- A TILE INSTRUCTION: where the access of the lowest active thread passes its checks and is not judged for races, one flight
for the quarter enters with the operations that `ops` describes. -/
def IssuesTile (i : Instr) (h : Hdr) (shift : Bool) (plan : State → Nat → Thread → TPlan)
    (ops : State → Nat → Thread → List PendOp → Prop) : Prop :=
  ∀ s q, Running s q → q.tids ≠ [] →
    let T := s.mach.thr (s.mach.lowestOf q)
    (plan s s.mach.free T).acc.isOk = true → (plan s s.mach.free T).judge = [] →
    ∃ t, exec i s = .next t ∧ OnlyIssue s t q ∧
      ∃ f os, GroupFlight s t q h i shift os f ∧ f.done = (os == []) ∧ ops s s.mach.free T os

/-- A POST that is accepted (spec/17 R407): one finished flight for the quarter, which stands at the next word; memory, other
threads and other quarters stay. What else changes, `eff` says. -/
def Accepts (i : Instr) (h : Hdr) (ok : State → Quarter → Prop) (eff : State → Quarter → State → Prop) : Prop :=
  ∀ s q, Running s q → q.tids ≠ [] → ok s q →
    ∃ t, exec i s = .next t ∧ (∃ f, GroupFlight s t q h i false [] f ∧ f.done = true) ∧
      (∀ a, t.mach.mem.read a = s.mach.mem.read a) ∧ (∀ k, k ∉ q.tids → t.mach.thr? k = s.mach.thr? k) ∧
      (∀ k, k ≠ q.id → t.mach.quarter? k = s.mach.quarter? k) ∧
      (∃ q', t.mach.quarter? q.id = some q' ∧ q'.pc = q.pc + 8 ∧ q'.slots = q.slots) ∧ eff s q t

end Sys2Proof.Machine
end

