-- ==== Sys2Proof/Safety/Steps.lean ====
section
/-! DEFINITION. What the claims say of the steps of the package: states at the end of a step, and which part a step changes. -/

namespace Sys2Proof.Machine

/-- Nothing waits for the end of a step: no interrupt source has fired and not been delivered, no error waits to be noted. Every
step leaves such a state. -/
def Settled (s : State) : Prop := s.mach.fired = [] ∧ s.mach.cxlErrs = [] ∧ s.sys.seFired = seHigh s.sys s.mach

/-- The state with another package part, another compute part, or both. -/
def State.withSys (s : State) (y : Sys) : State := { s with sys := y }
def State.withMach (s : State) (m : Mach) : State := { s with mach := m }
def State.withBoth (s : State) (y : Sys) (m : Mach) : State := { s with sys := y, mach := m }

/-- The state after interrupt source `r` has reached its route entry. -/
def State.fires (s : State) (r : Nat) : State := { s with sys := { s.sys with irq := s.sys.irq.deliver r } }

/-- A step whose next state is exactly `t`, from every settled state in which `ok` holds. -/
def Steps (i : Instr) (ok : State → Prop) (t : State → State) : Prop := ∀ s, Settled s → ok s → exec i s = .next (t s)

/-- A step that has a next state with these properties, from every settled state in which `ok` holds. -/
def StepsTo (i : Instr) (ok : State → Prop) (post : State → State → Prop) : Prop :=
  ∀ s, Settled s → ok s → ∃ t, exec i s = .next t ∧ post s t

/-- Of a step of the compute part: the package keeps everything but what delivery of interrupts and notes of errors touch, and
no step to come changes. -/
def PackageKept (s t : State) : Prop :=
  t.agenda = s.agenda ∧ t.sys = { s.sys with cports := t.sys.cports, irq := t.sys.irq, seFired := t.sys.seFired }

/-- Every byte of memory is as before. -/
def MemoryKept (s t : State) : Prop := ∀ a, t.mach.mem.read a = s.mach.mem.read a

/-- Every register of every thread is as before. -/
def RegistersKept (s t : State) : Prop := ∀ k, (t.mach.thr k).regs = (s.mach.thr k).regs

end Sys2Proof.Machine
end

