-- ==== Sys2Proof/Safety/Control.lean ====
section
/-! DEFINITION. What the claims say of instructions that move threads: branches, calls, traps. -/

namespace Sys2Proof.Machine

/-- Of a thread only its place changes: where it stands or waits, the clause state that a boundary makes undefined, the
records of how it came there, and the count of an instruction that it has re-issued and that completes (spec/10 R273). -/
def PlaceOnly (T U : Thread) : Prop :=
  U = { T with stat := U.stat, pc := U.pc, hdr := U.hdr, x0 := U.x0, x1 := U.x1, c := U.c, clause := U.clause,
               sender := U.sender, waitSince := U.waitSince, carry := U.carry, lastIssue := U.lastIssue, flags := U.flags } ∧
  (T.carry = none → U.flags = T.flags)

/-- THE FRAME of an instruction that moves the threads of a quarter: every register and special register of every thread, all of
memory, the package, and every unit but quarters, the threads filed in this cycle and keys stay; of a core only the note changes of which
launches it served in this cycle (spec/04 R118). `g` is what the instruction does to its own threads beside. -/
def OnlyPlaces (s t : State) (q : Quarter) (g : Thread → Thread) : Prop :=
  (∀ a, t.mach.mem.read a = s.mach.mem.read a) ∧
  (∀ k ∈ q.tids, PlaceOnly (g (s.mach.thr k)) (t.mach.thr k)) ∧
  (∀ k, k ∉ q.tids → PlaceOnly (s.mach.thr k) (t.mach.thr k)) ∧
  t.mach = { s.mach with threads := t.mach.threads, quarters := t.mach.quarters, filing := t.mach.filing,
                         cores := t.mach.cores, free := t.mach.free, next := t.mach.next, fired := [], cxlErrs := [] } ∧
  (∀ k, t.mach.coreSt k = { s.mach.coreSt k with busy := (t.mach.coreSt k).busy }) ∧
  t.agenda = s.agenda ∧ t.sys = { s.sys with cports := t.sys.cports, irq := t.sys.irq, seFired := t.sys.seFired }

/-- No thread of the quarter is of a launch that is ending. -/
def Lasting (s : State) (q : Quarter) : Prop := ∀ k ∈ q.tids, (s.mach.launch (s.mach.thr k).launch).ending = none

/-- THREADS GO TO THEIR TARGETS (spec/12 R299, R300): the threads whose target is `lead` stay as the quarter, which stands there at a
clause boundary; every other thread leaves it for its own target. -/
def Branches (i : Instr) (ok : State → Quarter → Prop) (g : Thread → Thread) (tgt : State → Quarter → Nat × Nat → Pc)
    (lead : State → Quarter → Pc) : Prop :=
  ∀ s q, Running s q → q.tids ≠ [] → Lasting s q → ok s q → ∃ t, exec i s = .next t ∧ OnlyPlaces s t q g ∧
    (∃ q', t.mach.quarter? q.id = some q' ∧ q'.pc = lead s q ∧ q'.hdr = none ∧ q'.core = q.core ∧
      ∀ p ∈ q.active, tgt s q p = lead s q → p ∈ q'.active) ∧
    ∀ p ∈ q.active, tgt s q p ≠ lead s q → (t.mach.thr p.2).pc = tgt s q p ∧ (t.mach.thr p.2).hdr = none

/-- No thread of the quarter is a handler. -/
def NoHandler (s : State) (q : Quarter) : Prop := ∀ k ∈ q.tids, (s.mach.thr k).isHandler = false

/-- The words before and at the entry of a call, and after the call, as a fetch finds them. -/
def CallWords (s : State) (q : Quarter) (entry : Pc) (f : FnHdr) : Prop :=
  ∃ w1 w2 w3 x1 x2 x3,
    fetchWord s.sys s.mach q.core (s.mach.eff q.launch) (q.pc + 8).toNat = .ok w1 x1 ∧ isHeader w1 = true ∧
    fetchWord s.sys s.mach q.core (s.mach.eff q.launch) (entry.toNat + 2 ^ 57 - 8) = .ok w2 x2 ∧ fnHdr w2 = f ∧
    fetchWord s.sys s.mach q.core (s.mach.eff q.launch) entry.toNat = .ok w3 x3 ∧ isHeader w3 = true

/-- A trap that the threads of a quarter take at its instruction: a group with the cause, the address and the threads, which leave the
quarter; no register changes. -/
def TrapTaken (s t : State) (q : Quarter) (cause : Nat) (va : Nat → Nat) : Prop :=
  MemoryKept s t ∧ RegistersKept s t ∧
  (∃ g ∈ t.mach.traps, g.cause = cause ∧ g.impr = false ∧ g.pc = q.pc ∧ g.hdr = q.hdr ∧ g.phase = .entering ∧
    g.members = q.active.map (fun p => (p.1, p.2, va p.2)) ∧
    ∀ k ∈ q.tids, (t.mach.thr k).stat = .trapping g.id ∧ (t.mach.thr k).pc = q.pc) ∧
  ∀ u ∈ t.mach.quarters, ∀ k ∈ q.tids, k ∉ u.tids

/-- A flight that is the only one of its issue and of its key, of a launch that goes on, whose threads live and are no handlers. -/
def LoneFlight (s : State) (f : Flight) : Prop :=
  s.mach.flights.filter (fun g => g.iss == f.iss || g.uid == f.uid) = [f] ∧ f.owner ∈ f.tids ∧ (s.mach.launch f.launch).ending = none ∧
  ∀ k ∈ f.tids, (s.mach.thr? k).isSome ∧ (s.mach.thr k).stat ≠ .ended ∧ (s.mach.thr k).isHandler = false

/-- The threads of a flight take a cause at its instruction; the flight is gone, and no register and no memory changes. -/
def FlightTraps (s t : State) (f : Flight) (cause : Nat) : Prop :=
  t.mach.flight? f.uid = none ∧ MemoryKept s t ∧ RegistersKept s t ∧
  ∃ g ∈ t.mach.traps, g.cause = cause ∧ g.pc = f.pc ∧ ∀ k, k ∈ g.members.map (fun x => x.2.1) ↔ k ∈ f.tids

/-- The first thread waits for the host to complete its one operation, no prefetch, at an offset of the host window (spec/01 R32). -/
def HostWaits (s : State) (off : Nat) (T : Thread) (o : PendOp) (f : Flight) : Prop :=
  s.mach.pe0ep = true ∧ s.mach.threads.head? = some T ∧ T.pend = [o] ∧ o.kind.isFetch = false ∧ o.loc = 0x4000000000 + off ∧ off < 0x4000000000 ∧
  o.sent.isSome ∧ f.uid = o.uid ∧ f.owner = T.id ∧ LoneFlight s f

end Sys2Proof.Machine
end

