-- ==== Sys2Proof/Safety/Events.lean ====
section
/-! DEFINITION. What the claims say of accesses that perform, of messages between devices, and of entries of queues that end. -/

namespace Sys2Proof.Machine

/-- An operation that performs next, alone: it stands in the thread's pending set, nothing orders it behind another, it goes neither
to another device nor to the host, no word of memory is in error, its flight is there, no flight has failed, and no tile operation waits
on the core. -/
def PerformsNext (s : State) (tid : Nat) (o : PendOp) (f : Flight) : Prop :=
  (s.mach.thr? tid).isSome ∧ (s.mach.thr tid).pend.find? (fun p => p.oid == o.oid) = some o ∧
  s.mach.flight? o.uid = some f ∧ s.mach.mayPerform tid o = true ∧ s.mach.combined tid o = [(tid, o)] ∧
  (∀ g ∈ s.mach.flights, g.failed = none) ∧ s.mach.eccDouble = [] ∧ s.mach.eccSingle = [] ∧ o.remote = false ∧ s.mach.toHost o = false ∧ s.mach.mem.wf = true ∧
  s.mach.tileWaits (s.mach.thr tid).core = []

/-- The operation has left the pending set. -/
def Gone (t : State) (tid oid : Nat) : Prop := ∀ p ∈ (t.mach.thr tid).pend, p.oid ≠ oid

/-- Memory after bytes written from a location on. -/
def Stored (s t : State) (loc : Nat) (bs : List Byte) : Prop :=
  (∀ i, i < bs.length → t.mach.mem.read (loc + i) = bs.getD i 0) ∧
  ∀ a, a < loc ∨ loc + bs.length ≤ a → t.mach.mem.read a = s.mach.mem.read a

/-- The new value of an integer atomic (spec/15 R371). -/
def AtomNew (op : AOp) (ty : AType) (old b cmp new : Nat) : Prop :=
  match op with
  | .add => ty ≠ .f32 → new = (old + b) % 2 ^ (8 * ty.bytes)
  | .xchg => new = b
  | .cas => new = if old = cmp then b else old
  | .and => ty ≠ .f32 → new = old &&& b
  | .or => ty ≠ .f32 → new = old ||| b
  | .xor => ty ≠ .f32 → new = old ^^^ b
  | .min => (ty = .n32 ∨ ty = .b64 → new = min old b) ∧ (ty = .i32 → new = if sInt 32 old ≤ sInt 32 b then old else b)
  | .max => (ty = .n32 ∨ ty = .b64 → new = max old b) ∧ (ty = .i32 → new = if sInt 32 b ≤ sInt 32 old then old else b)

/-- Quarters and the core's units change place; no thread, no memory and no other quarter's word changes. -/
def OnlyMoves (s t : State) : Prop :=
  t.mach.threads = s.mach.threads ∧ t.mach.mem = s.mach.mem ∧ t.mach.flights = s.mach.flights ∧ t.sys = s.sys ∧
  ∀ k q, s.mach.quarter? k = some q → ∃ q', t.mach.quarter? k = some q' ∧ q'.pc = q.pc ∧ q'.hdr = q.hdr ∧ q'.slots = q.slots

/-- Fabric port `n` becomes `p`. -/
def State.withPort (s : State) (n : Nat) (p : FPort) : State := s.withSys (s.sys.setFPort n p)

/-- Port `n` becomes `p` with FPORT_ERR bit `b` set, and its route entry fires (spec/01 R46, spec/02 R77). -/
def State.portErr (s : State) (n b : Nat) (p : FPort) : State :=
  (s.withPort n { p with err := setBit p.err b true }).fires (212 + n)

/-- The message at the head of channel `vc` of port `n` is `x`, for this device. -/
def Heads (s : State) (n vc : Nat) (x : Msg) : Prop :=
  n < s.sys.fports.length ∧ s.sys.inHead n vc = some x ∧ x.dst = s.sys.devid

/-- It has left the input, and the rest of the package's ports stays. -/
def Taken (s t : State) (n vc : Nat) (x : Msg) : Prop :=
  (t.sys.fport n).inq = (s.sys.fport n).inq.erase (vc, x) ∧ ∀ k, k ≠ n → t.sys.fport k = s.sys.fport k

/-- An entry has ended (spec/01 R66, spec/17 R413): its record is the latest of the retirement queue, and a cause is held against
the thread that posted it. -/
def EndsWith (t : State) (rcb q poster : Nat) (tag : DWord) (op outcome : Nat) : Prop :=
  (t.mach.pair rcb q).rets.getLast? = some { tag := tag, op := op, outcome := outcome } ∧
  (outcome ≠ 0 → (t.mach.thr? poster).isSome →
    ∃ x ∈ (t.mach.thr poster).errs, x.q = .pair q ∧ x.cause = outcome ∧ x.va = tag.toNat)

/-- A started entry is gone, with its outcome; DONECTR has gone up where the outcome is 0 and the region has the counter. -/
def EntryGone (s t : State) (e : CollEnt) (outcome : Nat) : Prop :=
  t.mach.coll? e.eid = none ∧ EndsWith t e.rcb e.q e.poster e.tag e.op outcome ∧ MemoryKept s t ∧
  (outcome = 0 → e.donectr < s.mach.boundCtrs e.rcb →
    (t.mach.ctr e.rcb e.donectr).val = ((s.mach.ctr e.rcb e.donectr).val + 1) % 2 ^ 32)

/-- An entry has sent and written all its chunks of 4 KiB (spec/01 R57-R59, spec/22 R445). -/
def AllMoved (e : CollEnt) : Prop :=
  let n := e.nrank
  let k := (e.len / n + 4095) / 4096
  let w := (e.len + 4095) / 4096
  1 ≤ n ∧
  ((e.op = 0x01 ∨ e.op = 0x02) ∧ w ≤ e.sent ∨ e.op = 0x10 ∧ k * (n - 1) ≤ e.sent ∧ k ≤ e.wrote ∨
    e.op = 0x11 ∧ k * (n - 1) ≤ e.sent ∧ k * n ≤ e.wrote ∨ e.op = 0x12 ∧ 2 * k * (n - 1) ≤ e.sent ∧ k * n ≤ e.wrote ∨
    e.op = 0x13 ∧ (e.succ = e.peer ∨ w ≤ e.sent) ∧ w ≤ e.wrote)

/-- The turn of the sequencer is that of entry `e`, whose communicator is `c` and whose successor is on another device. -/
def HasTurn (s : State) (e : CollEnt) (c : Comm) : Prop :=
  s.mach.coll? e.eid = some e ∧ s.mach.comm? e.cid e.rank = some c ∧ e.fault = none ∧ s.mach.collPick s.sys e.port = some e ∧ e.elem = 0 ∧ e.pathNow s.sys s.mach = 0 ∧
  e.sdev ≠ s.sys.devid ∧ s.mach.mem.wf = true

/-- The entry has sent one more chunk to its successor, `own` of them its own, and `wrote` chunks of the result. -/
def OneSent (_s t : State) (e : CollEnt) (c : Comm) (own wrote : Nat) : Prop :=
  (∃ e', t.mach.coll? e.eid = some e' ∧ e'.sent = e.sent + 1 ∧ e'.own = e.own + own ∧ e'.wrote = e.wrote + wrote) ∧
  ∃ c', t.mach.comm? e.cid e.rank = some c' ∧ look 0 c'.sent e.succ = look 0 c.sent e.succ + 1

/-- The next step of an engine operation works on its own device: no request of it is on its way to another one. -/
def NearStep (s : State) (e : EngOp) : Prop := s.mach.far = [] ∧ (∀ r ∈ s.mach.reqs, r.who ≠ .engine e.id) ∧ e.lines = []

/-- An engine operation is gone, with its error held against its poster. -/
def EngineFails (s t : State) (e : EngOp) (cause va : Nat) : Prop :=
  t.mach.engine? e.id = none ∧ (∀ r ∈ t.mach.ranges, r.op ≠ e.id) ∧
  ((s.mach.thr? e.poster).isSome → ∃ x ∈ (t.mach.thr e.poster).errs, x.q = e.queue ∧ x.cause = cause ∧ x.va = va)

/-- An engine operation has retired: it is gone, and its counter has gone up by one. -/
def EngineRetires (s t : State) (e : EngOp) (idx : Nat) : Prop :=
  t.mach.engine? e.id = none ∧ (∀ r ∈ t.mach.ranges, r.op ≠ e.id) ∧ t.mach.threads = s.mach.threads ∧
  (idx ≠ 0xFFFF → (t.mach.ctr e.rcb idx).val = ((s.mach.ctr e.rcb idx).val + 1) % 2 ^ 32)

/-- Nothing of memory is in error. -/
def Sound (s : State) : Prop := s.mach.eccDouble = [] ∧ s.mach.eccSingle = [] ∧ s.mach.mem.wf = true

end Sys2Proof.Machine
end

