-- ==== Sys2Proof/Safety/Posts.lean ====
section
/-! DEFINITION. What the claims say of posts to units, and of products of matrices. -/

namespace Sys2Proof.Machine

/-- The lowest active thread owes no access. -/
def LowFree (s : State) (q : Quarter) : Prop := (s.mach.thr (s.mach.lowestOf q)).pend = []

/-- No active thread owes an access, and all are of the quarter's launch. -/
def AllFree (s : State) (q : Quarter) : Prop := ∀ k ∈ q.tids, (s.mach.thr k).pend = [] ∧ (s.mach.thr k).launch = q.launch

/-- What a `kstore` of these operands plans for a thread against a signature unit's slot (spec/17 R426). -/
def kstorePlan (g : SigSlot) (a b c : Spec) (s : State) (fr : Nat) (T : Thread) : KPlan :=
  s.mach.kPlan s.sys g T (T.rd fr a).toNat (T.rdPair (fr + 8) b).toNat (T.rd (fr + 16) c).toNat

/-- One operation has joined the end of the engines' queues: of this kind, for this thread or the one that it serves as a handler (spec/08
R229), with the stamp of its wave's phase before the post. -/
def PostJoined (s t : State) (T : Thread) (k : EngKind) : Prop :=
  ∃ e, t.mach.engines = s.mach.engines ++ [e] ∧ e.kind = k ∧ e.core = T.core ∧ e.poster = T.poster ∧ e.wave = T.wave ∧
    e.launch = T.launch ∧ e.stage = 0 ∧ e.i = 0 ∧ e.stamp = s.mach.threadStamp T

/-- A post of `n` operations to a submission queue is not held up: the queue has room, and each block of the launch's chain has room for one
more pair in use, or this one is in use already (spec/17 R412, spec/03 R113; log 82). -/
def PairOpen (s : State) (q : Quarter) (n k : Nat) : Prop :=
  let la := s.mach.launch q.launch
  let busy (p : QPair) : Bool := s.mach.pairBusy p.rcb p.q
  (s.mach.pair la.rcb n).subs.length + k ≤ 64 ∧
  (s.mach.pairBusy la.rcb n = true ∨ ∀ b ∈ la.chain,
    ((s.mach.qpairs.filter fun p => busy p && s.mach.launches.any fun l => l.rcb == p.rcb && l.under b.1).length) < b.2.qpairs)

/-- Every flight has keys below the next. -/
def FreshKeys (m : Mach) : Prop := ∀ f ∈ m.flights, f.iss < m.next ∧ f.uid < m.next

/-- No operation waits for a tile of the core, and no macro-op reserves this one. -/
def TileFree (s : State) (q : Quarter) (acc : Nat) : Prop :=
  s.mach.tileWaits q.core = [] ∧ s.mach.tileReserved q.core acc = false

/-- The tile as the launch finds it: its words, or zeros where another launch held it. -/
def wordsFound (s : State) (q : Quarter) (acc : Nat) : List Word :=
  if (s.mach.tile q.core acc).holder = some q.launch then (s.mach.tile q.core acc).words else List.replicate 256 0

/-- Of a product that issues: the frame of an issue, but for the ports of the cores and the joint sets; `since` is the cycle from which its
threads wait then (spec/08 R235). -/
def IssuesProduct (i : Instr) (h : Hdr) (since : State → Option Nat) (ok : State → Quarter → Prop) (plan : State → Quarter → Nat → Thread → TPlan)
    (eff : State → Quarter → State → Prop) : Prop :=
  ∀ s q, Running s q → q.tids ≠ [] → q.gang = none → ok s q →
    (∀ p ∈ q.active, (plan s q (s.mach.fr p.1) (s.mach.thr p.2)).acc.isOk = true ∧
      (plan s q (s.mach.fr p.1) (s.mach.thr p.2)).judge = []) →
    ∃ t, exec i s = .next t ∧
      OnlyIssue s (t.withMach { t.mach with cores := s.mach.cores, mmajs := s.mach.mmajs }) q ∧ eff s q t ∧
      ∀ p ∈ q.active, ∃ f ∈ t.mach.flights, FlightOf s h i p.2 (plan s q (s.mach.fr p.1) (s.mach.thr p.2)).ops f ∧
        nth f.nums 0 = (if p.2 = s.mach.lowestOf q then 1 else 0) ∧
        nth f.nums 1 = 8 * (s.mach.thr (s.mach.lowestOf q)).homeQ + s.mach.slotOf p.2 ∧
        (t.mach.thr p.2).waitSince = since s ∧
        Issued q h false f.uid s.mach.cycle (plan s q (s.mach.fr p.1) (s.mach.thr p.2)).ops (s.mach.thr p.2)
          { t.mach.thr p.2 with waitSince := none }

end Sys2Proof.Machine
end

