-- ==== Sys2Proof/Safety/Package.lean ====
section
/-! DEFINITION. What the claims say of the whole package, of code words, and of numbers. -/

namespace Sys2Proof.Machine

/-- The fields that the package's registers may hold (spec/01 R11, R39, R46; spec/02 R75, R92): the power limit and the clock lie in
their ranges, each fabric port has two different bulk channels among VC1 to VC6 and a version of two bits, a valid route entry
names ports, and the host window begins at a page. -/
def PackageLegal (s : State) : Prop :=
  1200 ≤ s.sys.plimit ∧ s.sys.plimit ≤ 3400 ∧ 1000 ≤ s.sys.clkf ∧ s.sys.clkf ≤ 1700 ∧ s.mach.hostwin % 4096 = 0 ∧
  (∀ p ∈ s.sys.fports, 1 ≤ p.bulkReq ∧ p.bulkReq ≤ 6 ∧ 1 ≤ p.bulkRsp ∧ p.bulkRsp ≤ 6 ∧ p.bulkReq ≠ p.bulkRsp ∧ p.maxver ≤ 3) ∧
  ∀ r ∈ s.sys.routes, r.2.v = true → r.2.prim < 18 ∧ (r.2.alt1 < 18 ∨ r.2.alt1 = 31) ∧ (r.2.alt2 < 18 ∨ r.2.alt2 = 31) ∧
    (r.2.alt3 < 18 ∨ r.2.alt3 = 31)

/-- Fields of an instruction word (spec/10 R270). -/
def codeWord (major minor stall flag look body : Nat) : DWord :=
  BitVec.ofNat 64 (major * 2 ^ 57 + minor * 2 ^ 53 + stall * 2 ^ 50 + flag * 2 ^ 46 + look * 2 ^ 42 + body)

/-- Bodies of the formats A, I and M (spec/10 R275). -/
def bodyOfA (d a b c mods : Nat) : Nat := d * 2 ^ 33 + a * 2 ^ 24 + b * 2 ^ 15 + c * 2 ^ 6 + mods
def bodyOfI (d a imm : Nat) : Nat := d * 2 ^ 33 + a * 2 ^ 24 + imm
def bodyOfM (d a off scope mods : Nat) : Nat := d * 2 ^ 33 + a * 2 ^ 24 + off * 2 ^ 9 + scope * 2 ^ 6 + mods

/-- Of the quarter that was picked: what stands before the instruction runs. All of its threads are inside the clause, no register, context
or wave-tile is in error, and no word of the clause has to come from outside the device. -/
def Picked (s : State) (q : Quarter) (rest : List Nat) : Prop :=
  s.mach.latch = q.id :: rest ∧ s.mach.quarter? q.id = some q ∧ (∀ k ∈ q.tids, (s.mach.thr k).hdr.isSome) ∧
  (∀ T ∈ s.mach.threads, T.parity = [] ∧ T.ctxBad = false) ∧ (∀ x ∈ s.mach.tiles, x.err = 0) ∧
  ∃ h, q.hdr = some h ∧ (q.code = [] →
    farWords s.sys s.mach q.core (s.mach.eff q.launch) h.1.toNat (clauseHdr h.2).words = [])

/-- The value of a finite number, as a rational. -/
def ratOf : FV → Rat
  | .num s m e =>
    let a : Rat := if 0 ≤ e then m * 2 ^ e.toNat else m / 2 ^ (-e).toNat
    if s then -a else a
  | _ => 0

/-- The distance of two numbers. -/
def apart (x y : Rat) : Rat := if x ≤ y then y - x else x - y

end Sys2Proof.Machine
end

