-- ==== Sys2Proof/Safety/Rules.lean ====
section
/-! DEFINITION. The results that spec/13 states for the integer, logic, field, compare and move instructions, said in the
bit-vector arithmetic of Lean and apart from the meanings: what the claims hold the meanings against. -/

namespace Sys2Proof.Rule
open Sys2Proof

/-- The signed range of 32 bits, and the unsigned one (spec/13 R321). -/
def clampS (i : Int) : Word := BitVec.ofInt 32 (max (-2147483648) (min 2147483647 i))
def clampU (n : Nat) : Word := BitVec.ofNat 32 (min 4294967295 n)

def add (m : Sat) (a b : Word) : Word :=
  match m with
  | .wrap => a + b
  | .i32 => clampS (a.toInt + b.toInt)
  | .n32 => clampU (a.toNat + b.toNat)

def sub (m : Sat) (a b : Word) : Word :=
  match m with
  | .wrap => a - b
  | .i32 => clampS (a.toInt - b.toInt)
  | .n32 => clampU (a.toNat - b.toNat)

def mul (m : Sat) (a b : Word) : Word :=
  match m with
  | .wrap => a * b
  | .i32 => clampS (a.toInt * b.toInt)
  | .n32 => clampU (a.toNat * b.toNat)

def mad (m : Sat) (a b c : Word) : Word :=
  match m with
  | .wrap => a * b + c
  | .i32 => clampS (a.toInt * b.toInt + c.toInt)
  | .n32 => clampU (a.toNat * b.toNat + c.toNat)

/-- A word as 64 bits, signed or unsigned. -/
def ext (u : Bool) (w : Word) : DWord := if u then w.setWidth 64 else w.signExtend 64

/-- A 64-bit value as its low and high word. -/
def words (d : DWord) : List Word := [d.setWidth 32, (d >>> 32).setWidth 32]

def mulh (u : Bool) (a b : Word) : Word := ((ext u a * ext u b) >>> 32).setWidth 32
def madw (u : Bool) (a b : Word) (c : DWord) : List Word := words (ext u a * ext u b + c)

/-- Carry and borrow are the second word of the pair. -/
def addc (a b c : Word) : List Word :=
  [a + b + (c &&& 1), if 4294967296 ≤ a.toNat + b.toNat + (c &&& 1).toNat then 1 else 0]
def subb (a b c : Word) : List Word :=
  [a - b - (c &&& 1), if a.toNat < b.toNat + (c &&& 1).toNat then 1 else 0]

def le (u : Bool) (a b : Word) : Bool := if u then a.ule b else a.sle b
def min (u : Bool) (a b : Word) : Word := if le u a b then a else b
def max (u : Bool) (a b : Word) : Word := if le u b a then a else b

/-- The most negative word has no positive counterpart (spec/13 R321). -/
def neg (sat : Bool) (a : Word) : Word := if sat && a == 0x80000000 then 0x7FFFFFFF else -a
def abs (sat : Bool) (a : Word) : Word := if a.slt 0 then neg sat a else a

/-- Shifts by a count of any size: bit vectors of Lean fill with zeros, or with the sign (spec/13 R324). -/
def shl (a : Word) (n : Nat) : Word := a <<< n
def shr (a : Word) (n : Nat) : Word := a >>> n
def sar (a : Word) (n : Nat) : Word := a.sshiftRight n
def rot (a : Word) (n : Nat) : Word := a.rotateLeft n
def shf (a b c : Word) : Word := ((b ++ a : DWord) >>> (c.toNat % 32)).setWidth 32

/-- Position and effective length of a field (spec/13 R325). -/
def pos (s : Word) : Nat := (s.setWidth 8).toNat
def len (s : Word) : Nat := if 32 ≤ pos s then 0 else Nat.min ((s >>> 8).setWidth 8).toNat (32 - pos s)

/-- The field at the top of the word, then moved down with zeros or with its sign. -/
def bfx (i : Bool) (a s : Word) : Word :=
  if len s = 0 then 0
  else
    let t := a <<< (32 - pos s - len s)
    if i then t.sshiftRight (32 - len s) else t >>> (32 - len s)

/-- Bit by bit: inside the field a bit of `a`, outside it the bit of `b`. -/
def bfiBit (a b s : Word) (i : Nat) : Bool :=
  if pos s ≤ i ∧ i < pos s + len s then a.getLsbD (i - pos s) else b.getLsbD i

def popc (a : Word) : Word := BitVec.ofNat 32 ((List.range 32).filter fun i => a.getLsbD i).length

/-- Conditions of `cmp` (spec/13 R327). -/
def cond (c : Cond) (a b : Word) : Bool :=
  match c with
  | .eq => a == b
  | .ne => a != b
  | .lt => a.slt b
  | .le => a.sle b
  | .gt => b.slt a
  | .ge => b.sle a
  | .ltu => a.ult b
  | .leu => a.ule b
  | .gtu => b.ult a
  | .geu => b.ule a

/-- Both values of a predicate. -/
def truth (b : Bool) : Word := if b then 0xFFFFFFFF else 0

/-- IMM20 extended as the condition reads it. -/
def imm20 (c : Cond) (i : BitVec 20) : Word :=
  match c with
  | .ltu => i.setWidth 32
  | .leu => i.setWidth 32
  | .gtu => i.setWidth 32
  | .geu => i.setWidth 32
  | .eq => i.signExtend 32
  | .ne => i.signExtend 32
  | .lt => i.signExtend 32
  | .le => i.signExtend 32
  | .gt => i.signExtend 32
  | .ge => i.signExtend 32

def lea (sh : BitVec 2) (u : Bool) (a : DWord) (b : Word) : List Word := words (a + ext u b <<< sh.toNat)

end Sys2Proof.Rule
end

