-- ==== Sys2Proof/Certificates/Slice0/Obligations.lean ====
section
/-! DEFINITION. The statements for the provers. Each says which rules of the spec it formalises. -/

open Sys2Proof Sys2Proof.Machine

/-! ### Instructions on registers alone -/

/-- spec/13 R321, R322: integer arithmetic, wrapped modulo 2^32 or clamped; the immediate forms take imm24 sign-extended. -/
def Obligations.IntegerArithmeticCompletes : Prop :=
  ∀ (h : Hdr) (d a b c : Spec) (i : BitVec 24) (u : Bool) (m : Sat),
    Completes (.add h m d a b) h d 1 (oneWord fun fr t => Rule.add m (t.rd fr a) (t.rd (fr + 4) b)) ∧
    Completes (.sub h m d a b) h d 1 (oneWord fun fr t => Rule.sub m (t.rd fr a) (t.rd (fr + 4) b)) ∧
    Completes (.mul h m d a b) h d 1 (oneWord fun fr t => Rule.mul m (t.rd fr a) (t.rd (fr + 4) b)) ∧
    Completes (.mulh h u d a b) h d 1 (oneWord fun fr t => Rule.mulh u (t.rd fr a) (t.rd (fr + 4) b)) ∧
    Completes (.mad h m d a b c) h d 1
      (oneWord fun fr t => Rule.mad m (t.rd fr a) (t.rd (fr + 4) b) (t.rd (fr + 8) c)) ∧
    Completes (.madw h u d a b c) h d 2
      (wordsAre fun fr t => Rule.madw u (t.rd fr a) (t.rd (fr + 4) b) (t.rdPair (fr + 8) c)) ∧
    Completes (.addc h d a b c) h d 2
      (wordsAre fun fr t => Rule.addc (t.rd fr a) (t.rd (fr + 4) b) (t.rd (fr + 8) c)) ∧
    Completes (.subb h d a b c) h d 2
      (wordsAre fun fr t => Rule.subb (t.rd fr a) (t.rd (fr + 4) b) (t.rd (fr + 8) c)) ∧
    Completes (.min h u d a b) h d 1 (oneWord fun fr t => Rule.min u (t.rd fr a) (t.rd (fr + 4) b)) ∧
    Completes (.max h u d a b) h d 1 (oneWord fun fr t => Rule.max u (t.rd fr a) (t.rd (fr + 4) b)) ∧
    Completes (.abs h u d a) h d 1 (oneWord fun fr t => Rule.abs u (t.rd fr a)) ∧
    Completes (.neg h u d a) h d 1 (oneWord fun fr t => Rule.neg u (t.rd fr a)) ∧
    Completes (.addImm h d a i) h d 1 (oneWord fun fr t => t.rd fr a + i.signExtend 32) ∧
    Completes (.subImm h d a i) h d 1 (oneWord fun fr t => t.rd fr a - i.signExtend 32) ∧
    Completes (.mulImm h d a i) h d 1 (oneWord fun fr t => t.rd fr a * i.signExtend 32) ∧
    Completes (.mulhImm h d a i) h d 1 (oneWord fun fr t => Rule.mulh false (t.rd fr a) (i.signExtend 32)) ∧
    Completes (.minImm h d a i) h d 1 (oneWord fun fr t => Rule.min false (t.rd fr a) (i.signExtend 32)) ∧
    Completes (.maxImm h d a i) h d 1 (oneWord fun fr t => Rule.max false (t.rd fr a) (i.signExtend 32))

/-- spec/13 R323, R324: logic and shifts; a count of 32 or more leaves zeros, or the sign.
spec/13 R325: fields and counts; of `bfi` every bit. -/
def Obligations.LogicShiftsFieldsComplete : Prop :=
  (
    ∀ (h : Hdr) (d a b c : Spec) (i : BitVec 24) (n : BitVec 5),
      Completes (.and h d a b) h d 1 (oneWord fun fr t => t.rd fr a &&& t.rd (fr + 4) b) ∧
      Completes (.or h d a b) h d 1 (oneWord fun fr t => t.rd fr a ||| t.rd (fr + 4) b) ∧
      Completes (.xor h d a b) h d 1 (oneWord fun fr t => t.rd fr a ^^^ t.rd (fr + 4) b) ∧
      Completes (.andn h d a b) h d 1 (oneWord fun fr t => t.rd fr a &&& ~~~(t.rd (fr + 4) b)) ∧
      Completes (.not h d a) h d 1 (oneWord fun fr t => ~~~(t.rd fr a)) ∧
      Completes (.shl h d a b) h d 1 (oneWord fun fr t => Rule.shl (t.rd fr a) (t.rd (fr + 4) b).toNat) ∧
      Completes (.shr h d a b) h d 1 (oneWord fun fr t => Rule.shr (t.rd fr a) (t.rd (fr + 4) b).toNat) ∧
      Completes (.sar h d a b) h d 1 (oneWord fun fr t => Rule.sar (t.rd fr a) (t.rd (fr + 4) b).toNat) ∧
      Completes (.rot h d a b) h d 1 (oneWord fun fr t => Rule.rot (t.rd fr a) (t.rd (fr + 4) b).toNat) ∧
      Completes (.shf h d a b c) h d 1
        (oneWord fun fr t => Rule.shf (t.rd fr a) (t.rd (fr + 4) b) (t.rd (fr + 8) c)) ∧
      Completes (.andImm h d a i) h d 1 (oneWord fun fr t => t.rd fr a &&& i.setWidth 32) ∧
      Completes (.orImm h d a i) h d 1 (oneWord fun fr t => t.rd fr a ||| i.setWidth 32) ∧
      Completes (.xorImm h d a i) h d 1 (oneWord fun fr t => t.rd fr a ^^^ i.setWidth 32) ∧
      Completes (.andnImm h d a i) h d 1 (oneWord fun fr t => t.rd fr a &&& ~~~(i.setWidth 32)) ∧
      Completes (.shlImm h d a n) h d 1 (oneWord fun fr t => Rule.shl (t.rd fr a) n.toNat) ∧
      Completes (.shrImm h d a n) h d 1 (oneWord fun fr t => Rule.shr (t.rd fr a) n.toNat) ∧
      Completes (.sarImm h d a n) h d 1 (oneWord fun fr t => Rule.sar (t.rd fr a) n.toNat) ∧
      Completes (.rotImm h d a n) h d 1 (oneWord fun fr t => Rule.rot (t.rd fr a) n.toNat)) ∧
  (
    ∀ (h : Hdr) (d a b c : Spec) (i : Bool),
      Completes (.bfx h i d a b) h d 1 (oneWord fun fr t => Rule.bfx i (t.rd fr a) (t.rd (fr + 4) b)) ∧
      Completes (.bfi h d a b c) h d 1 (fun _ _ _ fr t ws => ∃ w, ws = [w] ∧ ∀ k, k < 32 →
        w.getLsbD k = Rule.bfiBit (t.rd fr a) (t.rd (fr + 4) b) (t.rd (fr + 8) c) k) ∧
      Completes (.popc h d a) h d 1 (oneWord fun fr t => Rule.popc (t.rd fr a)) ∧
      Completes (.clz h d a) h d 1 (oneWord fun fr t => (t.rd fr a).clz) ∧
      Completes (.ctz h d a) h d 1 (oneWord fun fr t => (t.rd fr a).ctz) ∧
      Completes (.brev h d a) h d 1 (oneWord fun fr t => (t.rd fr a).reverse))

/-- spec/13 R326-R329: select, compare, address arithmetic and moves. -/
def Obligations.SelectCompareMoveComplete : Prop :=
  ∀ (h : Hdr) (d a b c : Spec) (cc : Cond) (k : BitVec 20) (i : BitVec 24) (w : BitVec 32) (sh : BitVec 2) (u : Bool),
    Completes (.sel h d a b c) h d 1
      (oneWord fun fr t => if t.rd (fr + 8) c ≠ 0 then t.rd fr a else t.rd (fr + 4) b) ∧
    Completes (.cmp h cc d a b) h d 1 (oneWord fun fr t => Rule.truth (Rule.cond cc (t.rd fr a) (t.rd (fr + 4) b))) ∧
    Completes (.cmpImm h cc d a k) h d 1 (oneWord fun fr t => Rule.truth (Rule.cond cc (t.rd fr a) (Rule.imm20 cc k))) ∧
    Completes (.lea h sh u d a b) h d 2 (wordsAre fun fr t => Rule.lea sh u (t.rdPair fr a) (t.rd (fr + 4) b)) ∧
    Completes (.leaImm h d a i) h d 2 (wordsAre fun fr t => Rule.words (t.rdPair fr a + i.signExtend 64)) ∧
    Completes (.mov h false d a) h d 1 (oneWord fun fr t => t.rd fr a) ∧
    Completes (.mov h true d a) h d 2 (wordsAre fun fr t => [t.rdAt fr a 0, t.rdAt fr a 1]) ∧
    Completes (.movi h d w) h d 1 (oneWord fun _ _ => w)

/-- spec/13 R331, R332: the lane instructions read every active slot before any result is written. The word of the thread in
slot `k` is the one that `a` names there. -/
def Obligations.LaneInstructionsComplete : Prop :=
  ∀ (h : Hdr) (d a b : Spec),
    (∀ (m : ShMode) (z : Bool), Completes (.shfl h m z d a b) h d 1 fun s q sl fr t ws =>
      ∃ w, ws = [w] ∧
        let n := (t.rd (fr + 4) b).toNat
        let src : Int := match m with
          | .idx => n
          | .up => sl - n
          | .down => sl + n
          | .xor => if n ≤ 7 then (sl ^^^ n : Nat) else -1
        (∀ k : Nat, (k : Int) = src → k ≤ 7 → ∀ id, q.slots.getD k none = some id →
          w = (s.mach.thr id).rd (s.mach.fr k) a) ∧
        ((∀ k : Nat, (k : Int) = src → 7 < k ∨ q.slots.getD k none = none) → w = if z then 0 else t.rd fr a)) ∧
    (∀ kd : VoteKind, Completes (.vote h kd d a) h d 1 fun s q _ _ _ ws =>
      ∃ w, ws = [w] ∧
        let on (k : Nat) (id : Nat) : Prop := q.slots.getD k none = some id ∧ k < q.slots.length
        let val (k id : Nat) : Word := (s.mach.thr id).rd (s.mach.fr k) a
        match kd with
        | .ballot => q.slots.length ≤ 8 → ∀ k, k < 32 → (w.getLsbD k = true ↔ ∃ id, on k id ∧ val k id ≠ 0)
        | .any => w = 0xFFFFFFFF ∧ (∃ k id, on k id ∧ val k id ≠ 0) ∨ w = 0 ∧ ∀ k id, on k id → val k id = 0
        | .all => w = 0xFFFFFFFF ∧ (∀ k id, on k id → val k id ≠ 0) ∨ w = 0 ∧ ∃ k id, on k id ∧ val k id = 0
        | .eq => w = 0xFFFFFFFF ∧ (∀ k id k' id', on k id → on k' id' → val k id = val k' id') ∨
            w = 0 ∧ ∃ k id k' id', on k id ∧ on k' id' ∧ val k id ≠ val k' id')

/-- spec/13 R334, R335, R336: `rdsr` gives the word of the table; a read of CLOCK low latches the high word of the same count
for the thread, and the next read of CLOCK high returns and clears it.
spec/13 R334, R335, R337, spec/09 R246, R258: `wrsr` writes FMODE, TMSHAPE and EVQ.MUTE, and nothing under a read-only
index; reserved bits are ignored. -/
def Obligations.SpecialRegistersComplete : Prop :=
  (
    ∀ (h : Hdr) (d : Spec) (idx : BitVec 8) (s : State) (q : Quarter), Running s q →
      (∀ k ∈ q.tids, DestFits (s.mach.thr k) d 1) →
      ∃ t, exec (.rdsr h d idx) s = .next t ∧ OnlyQuarter s t q ∧
        ∀ p ∈ q.active, ∃ w, SpecialIs s p.1 (s.mach.thr p.2) idx.toNat w ∧
          let T := s.mach.thr p.2
          RegEffect q h d [w]
            { T with clockLatch := if idx = 0x18 then some (dieClock s.sys s.mach T.core).hi
                                   else if idx = 0x19 then none else T.clockLatch }
            (t.mach.thr p.2)) ∧
  (
    ∀ (h : Hdr) (a : Spec) (idx : BitVec 8), CompletesOn (.wrsr h a idx) fun _ fr T =>
      { T with
        fmode := if idx = 0x10 then T.rd fr a &&& 0x7B else T.fmode
        tmshape := if idx = 0x11 then T.rd fr a &&& 0x7FFFF else T.tmshape
        mute := if idx = 0x28 then (T.rd fr a).getLsbD 31 else T.mute })

/-- spec/12 R317: `nop` changes nothing but the place of the quarter. spec/02 R81: `rdclk` gives the package time base. -/
def Obligations.NopAndTimeBaseComplete : Prop :=
  ∀ (h : Hdr) (d : Spec), CompletesOn (.nop h) (fun _ _ T => T) ∧
    Completes (.rdclk h d) h d 2 fun s _ _ _ _ ws => ws = Rule.words (BitVec.ofNat 64 (s.sys.ticks + s.sys.mtimeOff))

/-- spec/14 R340-R346: exact values under FMODE, rounded once; `fcmp` gives a predicate and `fclass` one bit. -/
def Obligations.FloatInstructionsComplete : Prop :=
  ∀ (h : Hdr) (d a b c : Spec) (num bf : Bool) (fc : FCond) (dt sty : FType) (m : RndMode),
    Completes (.fadd h d a b) h d 1 (oneWord fun fr t => wN (fround t.fmode fp32
      (FV.add (fmRm t.fmode) (in32 t.fmode (t.rd fr a)) (in32 t.fmode (t.rd (fr + 4) b))))) ∧
    Completes (.fsub h d a b) h d 1 (oneWord fun fr t => wN (fround t.fmode fp32
      (FV.add (fmRm t.fmode) (in32 t.fmode (t.rd fr a)) (in32 t.fmode (t.rd (fr + 4) b)).neg))) ∧
    Completes (.fmul h d a b) h d 1 (oneWord fun fr t => wN (fround t.fmode fp32
      (FV.mul (in32 t.fmode (t.rd fr a)) (in32 t.fmode (t.rd (fr + 4) b))))) ∧
    Completes (.ffma h d a b c) h d 1 (oneWord fun fr t => wN (fround t.fmode fp32 (FV.add (fmRm t.fmode)
      (FV.mul (in32 t.fmode (t.rd fr a)) (in32 t.fmode (t.rd (fr + 4) b))) (in32 t.fmode (t.rd (fr + 8) c))))) ∧
    Completes (.fmin h num d a b) h d 1 (oneWord fun fr t => fpuMin num t.fmode (t.rd fr a) (t.rd (fr + 4) b)) ∧
    Completes (.fmax h num d a b) h d 1 (oneWord fun fr t => fpuMax num t.fmode (t.rd fr a) (t.rd (fr + 4) b)) ∧
    Completes (.fcmp h fc d a b) h d 1 (oneWord fun fr t => Rule.truth
      (fcondHolds fc (in32 t.fmode (t.rd fr a)) (in32 t.fmode (t.rd (fr + 4) b)))) ∧
    Completes (.fclass h d a) h d 1 (oneWord fun fr t =>
      let n := (t.rd fr a).toNat
      let neg := 2 ^ 31 ≤ n
      let e := n / 2 ^ 23 % 2 ^ 8
      let f := n % 2 ^ 23
      (if e = 255 ∧ f ≠ 0 then 0x100 else if e = 255 then (if neg then 0x001 else 0x080)
        else if e = 0 ∧ f = 0 then (if neg then 0x008 else 0x010)
        else if e = 0 then (if neg then 0x004 else 0x020) else if neg then 0x002 else 0x040)) ∧
    Completes (.fscale h d a b) h d 1 (oneWord fun fr t => fpuScale t.fmode (t.rd fr a) (t.rd (fr + 4) b)) ∧
    Completes (.fcvt h dt sty d a) h d 1 (oneWord fun fr t => cvtOut t.fmode dt (cvtIn t.fmode sty (t.rd fr a))) ∧
    Completes (.frnd h m d a) h d 1 (oneWord fun fr t => fpuRnd m t.fmode (t.rd fr a)) ∧
    Completes (.fpack h bf d a b) h d 1 (oneWord fun fr t =>
      let f := if bf then bf16 else fp16
      wN (fround t.fmode f (in32 t.fmode (t.rd fr a)) + fround t.fmode f (in32 t.fmode (t.rd (fr + 4) b)) * 65536)) ∧
    Completes (.fdot2 h bf d a b c) h d 1 (oneWord fun fr t =>
      fpuDot (if bf then bf16 else fp16) 16 2 t.fmode (t.rd fr a) (t.rd (fr + 4) b) (t.rd (fr + 8) c)) ∧
    Completes (.fdot4 h bf d a b c) h d 1 (oneWord fun fr t =>
      fpuDot (if bf then e5m2 else e4m3) 8 4 t.fmode (t.rd fr a) (t.rd (fr + 4) b) (t.rd (fr + 8) c))

/-! ### Long-latency instructions enter flight -/

/-- spec/14 R349, spec/15 R383: the ten special functions and the probe of the fibre CAM enter flight with results computed from
the operands read at issue. A probe answers the value and MATCH, the count and the lowest matching index.
spec/14 R356-R358: where the shape is legal and the pair is loaded, the operations of the transformed mean enter flight
with the words of spec/09 R259-R264; `tmred` gives every active thread one reduction. -/
def Obligations.PortsAndMeansFly : Prop :=
  (
    (∀ (h : Hdr) (d a : Spec),
      let sf (i : Instr) (k : Nat) := FliesWith i h d always (oneWord fun fr t => sfWord k t.fmode (t.rd fr a))
      sf (.sfe2 h d a) 0 ∧ sf (.sfl2 h d a) 1 ∧ sf (.sfrcp h d a) 2 ∧ sf (.sfrsq h d a) 3 ∧ sf (.sfsqr h d a) 4 ∧
      sf (.sfsin h d a) 5 ∧ sf (.sfcos h d a) 6 ∧ sf (.sftanh h d a) 7 ∧ sf (.sfsig h d a) 8 ∧ sf (.sfsilu h d a) 9) ∧
    ∀ (h : Hdr) (mk : Option Spec) (d a : Spec), FliesWith (.fibprb h mk d a) h d always fun s _ _ fr t ws =>
      let mask : Word := match mk with
        | some k => t.rd (fr + 4) k
        | none => 0xFFFFFFFF
      let hit (e : Option (Word × Word)) : Bool := match e with
        | some x => (x.1 ^^^ t.rd fr a) &&& mask == 0
        | none => false
      match s.mach.camOf t.core t.launch with
      | none => ws = [0, 0x40000000]
      | some c => if c.entries.any hit then
          ∃ i v k, i < c.entries.length ∧ c.entries.getD i none = some (k, v) ∧ hit (some (k, v)) = true ∧
            (∀ j, j < i → hit (c.entries.getD j none) = false) ∧
            ws = [v, wN (0x80000000 + (c.entries.filter hit).length * 256 + i)]
        else ws = [0, 0]) ∧
  (
    ∀ (h : Hdr) (d a b : Spec),
      let per (i : Instr) (f : State → Nat → Thread → Except Nat (List Word)) : Prop :=
        FliesWith i h d (fun s q => ∀ p ∈ q.active, ∃ ws, f s (s.mach.fr p.1) (s.mach.thr p.2) = .ok ws)
          fun s _ _ fr t ws => f s fr t = .ok ws
      per (.tment h d a) (fun s fr t =>
        tmThread s.mach t (fun p => (tmEntry t.tmshape p (t.rd fr a)).map TmSt.words) nanState) ∧
      per (.tmmrg h d a b) (fun s fr t =>
        tmThread s.mach t (fun _ => (tmMerge t.tmshape (tmOf (t.rdN fr a 3)) (tmOf (t.rdN (fr + 4) b 3))).map TmSt.words) nanState) ∧
      per (.tmscl h d a b) (fun s fr t =>
        tmThread s.mach t (fun _ => (tmScl t.tmshape (tmOf (t.rdN fr a 3)) (tmOf (t.rdN (fr + 4) b 3))).map fun w => [w]) nanWord) ∧
      per (.tmext h d a) (fun s fr t =>
        tmThread s.mach t (fun p => (tmExit t.tmshape p (tmOf (t.rdN fr a 3))).map fun w => [w]) nanWord) ∧
      FliesWith (.tmred h d a) h d
        (fun s q => (s.mach.pairOf? (s.mach.thr (s.mach.lowestOf q)).core (s.mach.thr (s.mach.lowestOf q)).launch
          (tmFam (s.mach.thr (s.mach.lowestOf q)).tmshape)).isSome ∧ tmShapeBad (s.mach.thr (s.mach.lowestOf q)).tmshape = false)
        (fun s q _ _ _ ws =>
          let S := (s.mach.thr (s.mach.lowestOf q)).tmshape
          ws = (treeReduce (tmMergeOk S) {} (s.mach.slotStates q a)).words))

/-- spec/14 R351-R355, R350, spec/07 R205: the row instructions read and write ranges of scratch in steps of up to 8 bytes; the row write
of `cvtq` and `rquant` is one step, over the bytes of the block's containers, and `rquant` reads those bytes first. -/
def Obligations.RowInstructionsIssue : Prop :=
  ∀ (h : Hdr) (d a b c : Spec) (sl : BitVec 3) (st : QSrc),
    (∀ p w k, IssuesAccesses (.topkGroup h p w k a b c) h false always
      (fun s fr t => s.mach.topkPlan t p (tkBits w) (t.rd fr a).toNat (t.rd (fr + 4) b).toNat (t.rd (fr + 8) c).toNat)
      fun s fr t os =>
        let v := 64 * (tkNm p).1 / (tkNm p).2
        let n := topkMeta p (tkBits w)
        let range (k : OpKind) (off len al : Nat) := stepsOf k off (scrPart s.mach t off len al).loc len
        opsAre os (range (.load false) (t.rd fr a).toNat 64 64 ++ range .wide (t.rd (fr + 4) b).toNat v v ++
          range .wide (t.rd (fr + 8) c).toNat n 4)) ∧
    (∀ w k, IssuesAccesses (.topkRow h w k d a b c) h true always
      (fun s fr t => s.mach.topkRowPlan t (tkBits w) (t.rd fr a).toNat (t.rd (fr + 4) b).toNat
        ((t.rd (fr + 8) c).toNat % 65536) ((t.rd (fr + 8) c).toNat / 65536))
      fun s fr t os =>
        let l := (t.rd (fr + 8) c).toNat % 65536
        let n := (t.rd (fr + 8) c).toNat / 65536
        let la := (l * tkBits w + 7) / 8
        let at_ := 4 * ((n * tkBits w + 31) / 32)
        let off := (t.rd (fr + 4) b).toNat
        let dst := (scrPart s.mach t off (at_ + 2 * n) 4).loc
        opsAre os (stepsOf (.load false) (t.rd fr a).toNat (scrPart s.mach t (t.rd fr a).toNat la 4).loc la ++
          if n = 0 then [] else stepsOf .wide off dst ((n * tkBits w + 7) / 8) ++ stepsOf .wide (off + at_) (dst + at_) (2 * n))) ∧
    IssuesAccesses (.cvtq h st sl d a b c) h true (fun s q => slotConvOk (s.mach.fslot q.launch sl.toNat) = true)
      (fun s fr t => s.mach.cvtqPlan t (s.mach.fslot t.launch sl.toNat) st (t.rd fr a).toNat (t.rd (fr + 4) b).toNat
        (t.rd (fr + 8) c).toNat)
      (fun s fr t os =>
        let n := slotBlock (s.mach.fslot t.launch sl.toNat) * srcBytes st
        opsAre os (stepsOf (.load false) (t.rd fr a).toNat (scrPart s.mach t (t.rd fr a).toNat n (srcBytes st)).loc n ++
                   let c0 := slotCont (s.mach.fslot t.launch sl.toNat)
                   let e0 := (t.rd (fr + 8) c).toNat
                   let hi := ((e0 + slotBlock (s.mach.fslot t.launch sl.toNat)) * c0 + 7) / 8
                   [(.wide, (scrPart s.mach t (t.rd (fr + 4) b).toNat 64 64).loc + e0 * c0 / 8, hi - e0 * c0 / 8)])) ∧
    IssuesAccesses (.rquant h sl d a b c) h true
      (fun s q => slotConvOk (s.mach.fslot q.launch sl.toNat) = true ∧ slotSkind (s.mach.fslot q.launch sl.toNat) = 1)
      (fun s fr t => s.mach.rquantPlan t (s.mach.fslot t.launch sl.toNat) (t.rd fr a).toNat (t.rd (fr + 4) b).toNat)
      (fun s fr t os =>
        let c0 := slotCont (s.mach.fslot t.launch sl.toNat)
        let e0 := (t.rd (fr + 4) b).toNat
        let lo := e0 * c0 / 8
        let n := ((e0 + slotBlock (s.mach.fslot t.launch sl.toNat)) * c0 + 7) / 8 - lo
        let at_ := (scrPart s.mach t (t.rd fr a).toNat 64 64).loc + lo
        opsAre os (stepsOf (.load false) ((t.rd fr a).toNat + lo) at_ n ++ [(.wide, at_, n)])) ∧
    IssuesAccesses (.bscale h st sl d a) h true (fun s q => slotOk (s.mach.fslot q.launch sl.toNat) = true)
      (fun s fr t => s.mach.bscalePlan t (s.mach.fslot t.launch sl.toNat) st (t.rd fr a).toNat)
      (fun s fr t os =>
        let n := slotBlock (s.mach.fslot t.launch sl.toNat) * srcBytes st
        opsAre os (stepsOf (.load false) (t.rd fr a).toNat (scrPart s.mach t (t.rd fr a).toNat n (srcBytes st)).loc n))

/-- spec/15 R362-R368, spec/07 R205: loads and stores of global memory and of scratch: pieces of at most 8 bytes at the location
that the address names, in order; a store's pieces hold the bytes of its data registers. -/
def Obligations.LoadsAndStoresIssue : Prop :=
  ∀ (h : Hdr) (sz : MSize) (tm : Bool) (sc : Scope) (d a : Spec) (off : BitVec 15),
    let kindAll (k : Nat → Nat → OpKind) (loc : Nat) : List (OpKind × Nat × Nat) :=
      (if sz.bytes ≤ 8 then [(0, sz.bytes)] else [(0, 8), (8, 8)]).map fun p => (k p.1 p.2, loc + p.1, p.2)
    let plain (os : List PendOp) : Prop := ∀ o ∈ os, o.scope = sc ∧ o.rel = false ∧ o.acq = false
    let data (t : Thread) (fr : Nat) (j n : Nat) : OpKind :=
      .store ((((wordsBytes (t.rdN (fr + 8) d sz.regs)).take sz.bytes).drop j).take n)
    IssuesAccesses (.ld h sz tm sc d a off) h true always
      (fun s fr t => s.mach.globalPlan s.sys t (eaGlobal t fr a off) sz.bytes .r tm (fun _ _ => .load (cachedAt sc)) sc)
      (fun s fr t os => plain os ∧ ∃ l at_ e,
        globalAcc s.sys s.mach t.core (s.mach.eff t.launch) (t.rdPair fr a + off.signExtend 64).toNat sz.bytes .r tm false =
          .ok l at_ e ∧ opsAre os (kindAll (fun _ _ => .load (cachedAt sc)) l)) ∧
    IssuesAccesses (.st h sz tm sc d a off) h false always
      (fun s fr t => s.mach.globalPlan s.sys t (eaGlobal t fr a off) sz.bytes .w tm
        (fun j n => .store (((storeBytes t (fr + 8) d sz).drop j).take n)) sc)
      (fun s fr t os => plain os ∧ ∃ l at_ e,
        globalAcc s.sys s.mach t.core (s.mach.eff t.launch) (t.rdPair fr a + off.signExtend 64).toNat sz.bytes .w tm false =
          .ok l at_ e ∧ opsAre os (kindAll (data t fr) l)) ∧
    IssuesAccesses (.lds h sz sc d a off) h true always
      (fun s fr t => s.mach.scratchPlan t (eaScratch t fr a off) sz.bytes false (fun _ _ => .load false) sc)
      (fun s fr t os => plain os ∧ ∃ l at_ e,
        scratchAcc s.mach t (t.rd fr a + off.signExtend 32).toNat sz.bytes sz.bytes = .ok l at_ e ∧
          opsAre os (kindAll (fun _ _ => .load false) l)) ∧
    IssuesAccesses (.sts h sz sc d a off) h false always
      (fun s fr t => s.mach.scratchPlan t (eaScratch t fr a off) sz.bytes true
        (fun j n => .store (((storeBytes t (fr + 8) d sz).drop j).take n)) sc)
      (fun s fr t os => plain os ∧ ∃ l at_ e,
        scratchAcc s.mach t (t.rd fr a + off.signExtend 32).toNat sz.bytes sz.bytes = .ok l at_ e ∧
          opsAre os (kindAll (data t fr) l))

/-- spec/15 R369-R374: atomics are one release operation (`atom` acquires too) at the location of their address; a fence orders
what its semantics name; a prefetch that does not fail fetches the line. -/
def Obligations.AtomicsAndFencesIssue : Prop :=
  ∀ (h : Hdr) (op : AOp) (ty : AType) (sc : Scope) (d a b : Spec) (sem : FSem) (tm : Bool) (off : BitVec 15),
    IssuesAccesses (.atom h op ty sc d a b) h true always
      (fun s fr t => s.mach.atomPlan s.sys t (t.rdPair fr a).toNat ty
        (.atom op ty (atomWord t (fr + 8) b ty) (atomWord t (fr + 16) d ty)) true sc)
      (fun s fr t os => (∀ o ∈ os, o.scope = sc ∧ o.rel = true ∧ o.acq = true) ∧ ∃ l at_ e,
        globalAcc s.sys s.mach t.core (s.mach.eff t.launch) (t.rdPair fr a).toNat ty.bytes .rw false true = .ok l at_ e ∧
        opsAre os [(.atom op ty (ofBytes (wordsBytes (t.rdN (fr + 8) b ty.regs))) (ofBytes (wordsBytes (t.rdN (fr + 16) d ty.regs))),
          l, ty.bytes)]) ∧
    IssuesAccesses (.red h op ty sc a b) h false always
      (fun s fr t => s.mach.atomPlan s.sys t (t.rdPair fr a).toNat ty (.red op ty (atomWord t (fr + 8) b ty)) false sc)
      (fun s fr t os => (∀ o ∈ os, o.scope = sc ∧ o.rel = true ∧ o.acq = false) ∧ ∃ l at_ e,
        globalAcc s.sys s.mach t.core (s.mach.eff t.launch) (t.rdPair fr a).toNat ty.bytes .rw false true = .ok l at_ e ∧
        opsAre os [(.red op ty (ofBytes (wordsBytes (t.rdN (fr + 8) b ty.regs))), l, ty.bytes)]) ∧
    IssuesAccesses (.fence h sem sc) h false always (fun _ _ _ => { acc := .ok 0 0 none })
      (fun _ _ _ os => ∃ o, os = [o] ∧ o.kind = .fence (sem != .acq) (sem != .rel) ∧ o.scope = sc ∧
        o.rel = (sem != .acq) ∧ o.acq = (sem != .rel)) ∧
    IssuesAccesses (.prf h tm sc a off) h false always
      (fun s fr t => s.mach.prfPlan s.sys t (eaGlobal t fr a off) tm sc)
      (fun s fr t os => match globalAcc s.sys s.mach t.core (s.mach.eff t.launch) (eaGlobal t fr a off) 1 .r tm false with
        | .ok l _ _ => opsAre os [(.fetchLine (cachedAt sc), l / 64 * 64, 64)]
        | _ => os = [])

/-- spec/15 R376-R378, R381, spec/14 R359: a tile moves sector by sector between the address and the scratch offset of the lowest
active thread, with metadata in one step; `fibld` reads its entries, and `tmld` 1,568 bytes, in steps of up to 8 bytes. -/
def Obligations.TileInstructionsIssue : Prop :=
  ∀ (h : Hdr) (sz : BitVec 3) (md clr : Bool) (d a b : Spec) (off : BitVec 15) (p : BitVec 2),
    let sectors (src dst : Nat) : List (Nat × Nat × Nat) :=
      if md then [(src, dst, 64 * 2 ^ sz.toNat)] else (List.range (2 ^ sz.toNat)).map fun j => (src + 64 * j, dst + 64 * j, 64)
    IssuesTile (.ldt h sz md d a off) h false
      (fun s fr t => s.mach.ldtPlan s.sys t (eaGlobal t fr a off) (t.rd (fr + 8) d).toNat sz md)
      (fun s fr t os => (∀ o ∈ os, o.kind = .move) ∧ os.map (fun o => (o.loc, o.loc2, o.len)) = sectors
        (globalAcc s.sys s.mach t.core (s.mach.eff t.launch) (eaGlobal t fr a off) (64 * 2 ^ sz.toNat) .r false false).loc
        (scratchAcc s.mach t (t.rd (fr + 8) d).toNat (64 * 2 ^ sz.toNat) 64).loc) ∧
    IssuesTile (.stt h sz md d a off) h false
      (fun s fr t => s.mach.sttPlan s.sys t (eaGlobal t fr a off) (t.rd (fr + 8) d).toNat sz md)
      (fun s fr t os => (∀ o ∈ os, o.kind = if md then .wide else .move) ∧ os.map (fun o => (o.loc, o.loc2, o.len)) = sectors
        (scratchAcc s.mach t (t.rd (fr + 8) d).toNat (64 * 2 ^ sz.toNat) 64).loc
        (globalAcc s.sys s.mach t.core (s.mach.eff t.launch) (eaGlobal t fr a off) (64 * 2 ^ sz.toNat) .w false false).loc) ∧
    IssuesTile (.fibld h clr d a b) h true
      (fun s fr t => s.mach.fibldPlan t (t.rd fr a).toNat (t.rd (fr + 4) b).toNat)
      (fun s fr t os =>
        let n := (t.rd (fr + 4) b).toNat / 256 % 512
        opsAre os (if n = 0 then [(.load false, 0, 0)]
          else stepsOf (.load false) (t.rd fr a).toNat (scratchAcc s.mach t (t.rd fr a).toNat (8 * n) 8).loc (8 * n))) ∧
    IssuesTile (.tmld h p a off) h false
      (fun s fr t => s.mach.tmldPlan s.sys t (eaGlobal t fr a off))
      (fun _ _ _ os => (∀ o ∈ os, o.kind = .load true) ∧ (os.map fun o => o.len).sum = 1568)

/-- spec/17 R424, R428: `qsig` reads a key of the slot's dimension, and with its last bytes the signature is its result, one bit for each
row of the matrix; `bprobe` is one operation that acquires, and once its buckets are read its tokens are written to its buffer in steps of
up to 8 bytes; then their count, or the overflow, is its result. -/
def Obligations.IndexInstructionsIssue : Prop :=
  (∀ (h : Hdr) (hs : BitVec 4) (d b : Spec) (n : Nat), IssuesAccesses (.qsig h hs d b) h true
    (fun s q => s.mach.sigPending q.core hs.toNat = false ∧
      ∃ g, s.mach.sigSlot q.core q.launch hs.toNat = some g ∧ g.d = n)
    (fun s fr t =>
      let acc := scratchAcc s.mach t (t.rd fr b).toNat (2 * n) 64
      { acc := acc, judge := s.mach.judged t acc (2 * n) })
    fun s fr t os => opsAre os
      (stepsOf (.load false) (t.rd fr b).toNat (scratchAcc s.mach t (t.rd fr b).toNat (2 * n) 64).loc (2 * n))) ∧
  (∀ (h : Hdr) (hs : BitVec 4) (d b : Spec) (sb n : Nat) (mat : List (BitVec 16)) tid oid (o : PendOp) (f : Flight),
    StepsTo (.accessPerform tid oid false)
      (fun s => o.oid = oid ∧ PerformsNext s tid o f ∧ o.kind = .load false ∧ badRange s.mach o.loc o.len = false ∧
        (∀ p ∈ (s.mach.thr tid).pend, p.uid = o.uid → p.oid = oid) ∧ f.instr = .qsig h hs d b ∧ f.owner = tid ∧ f.done = false ∧
        f.nums = [sb, n] ++ mat.map (fun x => x.toNat) ∧ sb ≤ 16)
      fun s t => MemoryKept s t ∧ Gone t tid oid ∧ ∃ g w, t.mach.flight? o.uid = some g ∧ g.done = true ∧
        g.writes = f.writes ++ [(tid, spWords d [w])] ∧
        let key := halves n (({ f with got := f.got ++ [(o.tag, s.mach.bytes o.loc o.len)] } : Flight).piece 0)
        ∀ i, i < 32 → w.getLsbD i = (decide (i < sb) && rowBit ((mat.drop (n * i)).take n) key)) ∧
  (∀ (h : Hdr) (nt : Bool) (sc : Scope) (d b c : Spec), IssuesAccesses (.bprobe h nt sc d b c) h true
    (fun s q => ∀ p ∈ q.active, let t := s.mach.thr p.2
      let w0 := (t.rd (s.mach.fr p.1 + 8) c).toNat
      (t.rdPair (s.mach.fr p.1) b).toNat % 64 = 0 ∧ bits w0 20 12 ≠ 0 ∧ bits w0 17 3 = 0)
    (fun _ _ _ => { acc := .ok 0 0 none })
    fun _ _ _ os => ∃ o, os = [o] ∧ o.kind = .wide ∧ o.scope = sc ∧ o.rel = false ∧ o.acq = true) ∧
  ∀ (h : Hdr) (nt : Bool) (sc : Scope) (d b c : Spec) (k : Nat) tid oid (o : PendOp) (f : Flight),
    let out := pairsOf (f.nums.drop 4)
    let limit := bits (nth f.nums 0) 20 12
    let buf := (out.take limit).flatMap fun p => toBytes p.1 4
    let off := nth f.nums 1
    let len := 4 * (out.take limit).length
    let buckets := (probeList (nth f.nums 0) (headD (nth f.nums 3)).sb).length
    let at_ (s : State) : Prop := o.oid = oid ∧ PerformsNext s tid o f ∧ o.kind = .wide ∧
      (∀ p ∈ (s.mach.thr tid).pend, p.oid ≠ oid → p.uid ≠ o.uid) ∧ f.instr = .bprobe h nt sc d b c ∧ f.owner = tid ∧ f.done = false ∧
      f.stage = k + 1 ∧ (nt = true ∨ out.length ≤ limit) ∧ s.mach.checked (s.mach.thr tid) = false
    StepsTo (.accessPerform tid oid false)
      (fun s => at_ s ∧ buckets = k ∧ out.take limit ≠ [] ∧ (scratchAcc s.mach (s.mach.thr tid) off len 4).isOk = true ∧
        s.mach.ranges = [] ∧ (s.mach.thr tid).pend.head? = some o)
      (fun s t => MemoryKept s t ∧ ∃ os, (t.mach.thr tid).pend = os ++ (s.mach.thr tid).pend ∧
        opsAre os ((words8 off len).map fun p => (.store ((buf.drop (p.1 - off)).take p.2),
          (scratchAcc s.mach (s.mach.thr tid) off len 4).loc + (p.1 - off), p.2))) ∧
    StepsTo (.accessPerform tid oid false)
      (fun s => at_ s ∧ (buckets < k ∨ buckets = k ∧ out.take limit = []))
      fun s t => MemoryKept s t ∧ Gone t tid oid ∧ ∃ g, t.mach.flight? o.uid = some g ∧ g.done = true ∧
        g.writes = f.writes ++ [(tid, spWords d [if limit < out.length then 0xFFFFFFFF else wN out.length])]

/-- spec/16 R388-R396: the products read their operands from scratch: of every thread its row of A, of the lowest active thread B
as well; `mmaj` joins the set of its launch, copse, lane, quarter and tag. -/
def Obligations.ProductsIssue : Prop :=
  ∀ (h : Hdr) (z : Bool) (pat : BitVec 3) (tag : BitVec 4) (acc : BitVec 6) (a b m : Spec) (sA sB : BitVec 3),
    let slotA (s : State) (q : Quarter) : DWord := s.mach.fslot q.launch sA.toNat
    let slotB (s : State) (q : Quarter) : DWord := s.mach.fslot q.launch sB.toNat
    let ok (s : State) (q : Quarter) : Prop := TileFree s q acc.toNat ∧ matBad (slotA s q) (slotB s q) = false ∧
      let rgv := q.tids.foldl (fun n k => Nat.min n (s.mach.thr k).rgv) q.rg
      (scaled (slotA s q) = true → pairBad rgv a = false) ∧ (scaled (slotB s q) = true → pairBad rgv b = false)
    let none_ (_ : State) : Option Nat := none
    let plan (nk : Nat) (md : State → Quarter → Option (Spec × Nat)) (s : State) (q : Quarter) (fr : Nat) (T : Thread) : TPlan :=
      s.mach.matPlan T (matOps s.mach q (slotA s q) (slotB s q) nk a b (md s q) fr T)
    IssuesProduct (.mma h z acc a b sA sB) h none_ ok (plan 1 fun _ _ => none) (fun s _ t => t.mach.mmajs = s.mach.mmajs) ∧
    IssuesProduct (.mmas h pat acc a b m sA sB) h none_
      (fun s q => ok s q ∧ (pat = 1 ∨ pat = 2) ∧ slotCont (slotA s q) ≠ 6 ∧ slotCont (slotA s q) ≠ 32)
      (plan 2 fun s q => some (m, 8 * metaWords pat.toNat (slotCont (slotA s q)))) (fun s _ t => t.mach.mmajs = s.mach.mmajs) ∧
    IssuesProduct (.mmaj h z tag acc a b sA sB) h (fun s => some s.mach.cycle)
      (fun s q => ok s q ∧ ∀ x ∈ s.mach.mmajs, x.key q.launch (coreGrove q.core / 4) (q.core % 24)
        (s.mach.thr (s.mach.lowestOf q)).homeQ tag.toNat = true → x.partners.length < 3)
      (plan 1 fun _ _ => none)
      (fun s q t => t.mach.cores = s.mach.cores ∧ ∃ x ∈ t.mach.mmajs, x.launch = q.launch ∧ x.copse = coreGrove q.core / 4 ∧
        x.lane = q.core % 24 ∧ x.quarter = (s.mach.thr (s.mach.lowestOf q)).homeQ ∧ x.tag = tag.toNat ∧
        (∃ p ∈ x.partners, p.pos = coreGrove q.core % 4 ∧ p.acc = acc.toNat ∧ p.z = z ∧ p.sA = sA.toNat ∧ p.sB = sB.toNat) ∧
        ∃ q', t.mach.quarter? q.id = some q' ∧ q'.wait = some (.mmaj x.id))

/-- spec/16 R385, R387, R397-R399: `tzero` clears the rows that it names of a tile that is free; `tdrain` reads them and clears them under
Z, and each of its steps writes its rows to memory, an all-or-nothing one with VERSION plus 1, where no `ldt` holds the tile; HOLD changes only
where an `ldt` of the tile is in flight. -/
def Obligations.TilesDrainAndClear : Prop :=
  ∀ (h : Hdr) (md : DMode) (qb z i : Bool) (qt : BitVec 2) (acc : BitVec 6) (a b : Spec) (sl : BitVec 3),
    let rows (k : Nat) : Prop := qb = true → k / 8 / 8 = qt.toNat
    let kept (s t : State) (q : Quarter) : Prop := ∀ c x, ¬(c = q.core ∧ x = acc.toNat) → t.mach.tile c x = s.mach.tile c x
    (∀ s q, Running s q → q.tids ≠ [] → TileFree s q acc.toNat → ∃ t f, exec (.tzero h qb qt acc) s = .next t ∧
      MemoryKept s t ∧ GroupFlight s t q h (.tzero h qb qt acc) false [] f ∧ f.done = true ∧ kept s t q ∧
      (t.mach.tile q.core acc.toNat).holder = some q.launch ∧ ∀ k, k < 256 → k < (wordsFound s q acc.toNat).length →
        (rows k → (t.mach.tile q.core acc.toNat).words.getD k 0 = 0) ∧
        (¬rows k → (t.mach.tile q.core acc.toNat).words.getD k 0 = (wordsFound s q acc.toNat).getD k 0)) ∧
    (∀ s q, Running s q → q.tids ≠ [] → TileFree s q acc.toNat →
      let low := s.mach.lowestOf q
      let T := s.mach.thr low
      let slot := s.mach.fslot q.launch sl.toNat
      let P := s.mach.drainPlan s.sys T md (if qb then 8 else 32) (slotCont slot) (T.rdPair (s.mach.thrFr low) a).toNat
        (T.rd (s.mach.thrFr low + 8) b).toNat
      drainBad slot i = false → P.acc.isOk = true →
      ∃ t f os, exec (.tdrain h md qb qt z i acc a b sl) s = .next t ∧ MemoryKept s t ∧
        GroupFlight s t q h (.tdrain h md qb qt z i acc a b sl) false os f ∧ f.done = (os == []) ∧
        (∀ o ∈ os, o.kind = .wide) ∧ (md ≠ .ow → os.length = 1) ∧ kept s t q ∧
        f.nums = (((wordsFound s q acc.toNat).drop (if qb then 64 * qt.toNat else 0)).take (if qb then 64 else 256)).map
          (fun w => w.toNat) ∧
        ∀ k, k < 256 → k < (wordsFound s q acc.toNat).length → (t.mach.tile q.core acc.toNat).words.getD k 0 =
          (if z = true ∧ (qb = true → k / 8 / 8 = qt.toNat) then 0 else (wordsFound s q acc.toNat).getD k 0)) ∧
    ∀ tid oid (o : PendOp) (f : Flight) (va pitch : Nat) (metas : List Nat), StepsTo (.accessPerform tid oid false)
      (fun s =>
        let rb := drainRb (s.mach.fslot f.launch sl.toNat)
        let in_ (r : Nat) : Prop := r < (if qb then 8 else 32) ∧
          (va + r * pitch = o.va ∨ ∃ p ∈ o.parts, p.1 = va + r * pitch ∧ p.2.2 = rb)
        let at_ (r : Nat) : Nat := o.rowLoc (va + r * pitch)
        let apart (x lx y ly : Nat) : Prop := x + lx ≤ y ∨ y + ly ≤ x
        o.oid = oid ∧ PerformsNext s tid o f ∧ o.kind = .wide ∧ f.instr = .tdrain h md qb qt z i acc a b sl ∧ f.stage = 2 ∧
        va = (look 0 f.xres 0).toNat + 2 ^ 32 * (look 0 f.xres 1).toNat ∧ pitch = (look 0 f.xres 2).toNat ∧ 0 < pitch ∧
        metas = (if md = .aon then (o.metaLoc va).toList else []) ∧ (∀ x ∈ metas, s.mach.tileHeld x = false) ∧
        (∀ r, in_ r → s.mach.mapped (at_ r) = false) ∧ (∀ x ∈ metas, s.mach.mapped x = false) ∧
        (∀ r r', in_ r → in_ r' → r ≠ r' → apart (at_ r) rb (at_ r') rb) ∧ ∀ r, in_ r → ∀ x ∈ metas, apart (at_ r) rb x 8)
      fun s t =>
        let slot := s.mach.fslot f.launch sl.toNat
        let rb := drainRb slot
        let in_ (r : Nat) : Prop := r < (if qb then 8 else 32) ∧
          (va + r * pitch = o.va ∨ ∃ p ∈ o.parts, p.1 = va + r * pitch ∧ p.2.2 = rb)
        let at_ (r : Nat) : Nat := o.rowLoc (va + r * pitch)
        Gone t tid oid ∧ (∀ r, in_ r → t.mach.bytes (at_ r) rb =
          drainBytes slot md i (((f.nums.drop (8 * r)).take 8).map wN) (s.mach.num (at_ r) rb)) ∧
        (∀ x ∈ metas, t.mach.num x 4 = (s.mach.num x 4 + 1) % 2 ^ 32) ∧
        (∀ x, (∀ r, in_ r → x < at_ r ∨ at_ r + rb ≤ x) → (∀ y ∈ metas, x < y ∨ y + 8 ≤ x) → t.mach.mem.read x = s.mach.mem.read x) ∧
        ((∀ u ∈ s.mach.threads, ∀ p ∈ u.pend, ∀ y ∈ metas, p.readsTile y = false) →
          ∀ y ∈ metas, t.mach.num (y + 4) 4 = s.mach.num (y + 4) 4)

/-- spec/17 R426, R427, spec/07 R219, R220: a `kstore` leaves, for each thread, the writes of its key's bytes and after them its link,
a release; the link of an empty bucket takes the next free node of the pool and fills it. -/
def Obligations.KeyIndexWrites : Prop :=
  ∀ (h : Hdr) (nt : Bool) (sc : Scope) (hs : BitVec 4) (a b c : Spec),
    (∀ g : SigSlot,
      IssuesAccesses (.kstore h nt sc hs a b c) h false
        (fun s q => AllFree s q ∧ s.mach.sigPending q.core hs.toNat = false ∧ s.mach.sigSlot q.core q.launch hs.toNat = some g ∧
          ∀ p ∈ q.active, (kstorePlan g a b c s (s.mach.fr p.1) (s.mach.thr p.2)).own = none ∧
            s.mach.readHeld (s.mach.thr p.2) ((s.mach.thr p.2).rd (s.mach.fr p.1) a).toNat (2 * g.d) 64 = false)
        (fun s fr T => (kstorePlan g a b c s fr T).plan)
        fun s fr T os => ∃ keys link, os = keys ++ [link] ∧ link.kind = .wide ∧ link.rel = true ∧ link.len = 0 ∧
          let key := s.mach.bytes (scratchAcc s.mach T (T.rd fr a).toNat (2 * g.d) 64).loc (2 * g.d)
          let at_ (va : Nat) (n : Need) : Nat := (globalAcc s.sys s.mach T.core (s.mach.eff T.launch) va 1 n false false).loc
          let H := headD (s.mach.num (at_ (T.rdPair (fr + 8) b).toNat .rw) 64)
          let kva := H.kvva + (T.rd (fr + 16) c).toNat * H.kstride
          (∀ o ∈ keys, o.len ≤ 8 ∧ o.kind = .store ((key.drop (o.va - kva)).take o.len)) ∧
          (g.d ≤ 256 → (keys.map fun o => o.len).sum = 2 * g.d) ∧
          (kva % 64 + 2 * g.d ≤ 64 → 0 < g.d → ∀ o ∈ keys, kva ≤ o.va ∧
            o.loc = at_ kva .w + (o.va - kva))) ∧
    (∀ tid oid (o : PendOp) (f : Flight) (dl da el ea ml ma : Nat), StepsTo (.kstoreLinkStep tid oid)
      (fun s =>
        let T := s.mach.thr tid
        let hva := nth f.nums 2
        let H := headD (s.mach.num dl 64)
        (s.mach.thr? tid).isSome ∧ T.pend.find? (fun o => o.oid == oid) = some o ∧ s.mach.flight? o.uid = some f ∧
        f.instr = .kstore h nt sc hs a b c ∧ f.owner = tid ∧ o.kind = .wide ∧ s.mach.mayPerform tid o = true ∧
        (s.mach.inOrder ((s.mach.flights.filter fun g => g.iss == f.iss && !g.done && g.failed.isNone).map fun g =>
          g.owner)).headD tid = tid ∧ s.mach.idxHeld T o hva dl 64 = false ∧
        s.mach.idxHeld T o (headEntry hva (nth f.nums 0)) el 4 = false ∧ s.mach.idxHeld T o (H.poolva + 64 * H.free) ml 64 = false ∧
        (∀ x ∈ [dl, el, ml, ml + 56, ml + 60], s.mach.mapped x = false) ∧
        idxAcc s.sys s.mach T hva 64 .rw = .ok dl da ∧ idxAcc s.sys s.mach T (headEntry hva (nth f.nums 0)) 4 .rw = .ok el ea ∧
        s.mach.num el 4 = 0xFFFFFFFF ∧ H.free < H.npool ∧ idxAcc s.sys s.mach T (H.poolva + 64 * H.free) 64 .rw = .ok ml ma ∧
        s.mach.eccDouble = [] ∧ s.mach.mem.wf = true ∧
        (ml + 64 ≤ dl ∨ dl + 64 ≤ ml) ∧ (el + 4 ≤ dl ∨ dl + 64 ≤ el) ∧ (el + 4 ≤ ml ∨ ml + 64 ≤ el))
      fun s t =>
        let H := headD (s.mach.num dl 64)
        t.mach.num el 4 = H.free ∧ t.mach.num dl 4 = (H.free + 1) % 2 ^ 32 ∧ t.mach.num ml 4 = nth f.nums 1 % 2 ^ 32 ∧
        t.mach.num (ml + 56) 4 = 1 ∧ t.mach.num (ml + 60) 4 = 0xFFFFFFFF ∧
        (∀ x, (x < dl ∨ dl + 4 ≤ x) → (x < el ∨ el + 4 ≤ x) → (x < ml ∨ ml + 4 ≤ x) → (x < ml + 56 ∨ ml + 64 ≤ x) →
          t.mach.mem.read x = s.mach.mem.read x) ∧
        ∀ u ∈ (t.mach.thr tid).pend, u.oid ≠ oid)

/-! ### Posts to the units -/

/-- spec/17 R407-R411, R420, R423, spec/16 R400: posts to the engines are accepted and join the end of their queues with the
operands of the lowest active thread. -/
def Obligations.EnginePosts : Prop :=
  ∀ (h : Hdr) (a b c : Spec) (ds ss : Bool) (e : BitVec 2) (hs : BitVec 4),
    let low (s : State) (q : Quarter) : Thread := s.mach.thr (s.mach.lowestOf q)
    let fr (s : State) (q : Quarter) : Nat := s.mach.thrFr (s.mach.lowestOf q)
    let posts (i : Instr) (k : State → Quarter → EngKind) : Prop :=
      Accepts i h LowFree fun s q t => PostJoined s t (low s q) (k s q) ∧ t.mach.ranges = s.mach.ranges
    (Accepts (.cpy h ds ss a b c) h LowFree fun s q t =>
      let T := low s q
      let one (scr : Bool) (f : Nat) (x : Spec) : Nat := if scr then (T.rd f x).toNat else (T.rdPair f x).toNat
      let w := (T.rd (fr s q + 16) c).toNat
      let n := if w % 65536 = 0 then 65536 else w % 65536
      PostJoined s t T (.cpy ds ss (one ds (fr s q) a) (one ss (fr s q + 8) b) (64 * n) (w / 65536)) ∧
      (ds = false → ∃ r, t.mach.ranges = s.mach.ranges ++ [r] ∧ r.core = T.core ∧ r.scratch = false ∧
        r.lo = one ds (fr s q) a ∧ r.len = 64 * n)) ∧
    posts (.cpyp h a b c) (fun s q =>
      let T := low s q
      let w := (T.rd (fr s q + 16) c).toNat
      .cpyp (T.rdPair (fr s q) a).toNat (T.rdPair (fr s q + 8) b).toNat (w / 65536 + w % 65536 * 65536)) ∧
    posts (.mmx h a) (fun s q => .mop false ((low s q).rdPair (fr s q) a).toNat) ∧
    posts (.mmr h a) (fun s q => .mop true ((low s q).rdPair (fr s q) a).toNat) ∧
    posts (.stcfg h e a) (fun s q => .stream e.toNat ((low s q).rdPair (fr s q) a).toNat) ∧
    posts (.sigld h hs a b) (fun s q =>
      .sigld hs.toNat ((low s q).rdPair (fr s q) a).toNat ((low s q).rd (fr s q + 8) b).toNat)

/-- spec/17 R416-R418: `ctradd` adds the operands of all its threads modulo 2^32; `ctrset` writes the counter that one thread
names; `ctrwait` passes when every named counter has reached its threshold, and drops the read cache of its core. -/
def Obligations.CountersComplete : Prop :=
  ∀ (h : Hdr) (a b : Spec),
    let idx (s : State) (k : Nat) : Nat := ((s.mach.thr k).rd (s.mach.thrFr k) a).toNat % 65536
    let val (s : State) (k : Nat) : Nat := ((s.mach.thr k).rd (s.mach.thrFr k + 8) b).toNat
    let legal (s : State) (q : Quarter) : Prop := ∀ k ∈ q.tids, idx s k < (s.mach.eff q.launch).ctrs
    let rcb (s : State) (q : Quarter) : Nat := (s.mach.launch q.launch).rcb
    let naming (s : State) (q : Quarter) (n : Nat) : List Nat := q.tids.filter fun k => idx s k == n
    Accepts (.ctradd h a b) h (fun s q => AllFree s q ∧ legal s q) (fun s q t => ∀ n,
      (t.mach.ctr (rcb s q) n).val % 2 ^ 32 =
        ((s.mach.ctr (rcb s q) n).val + ((naming s q n).map (val s)).sum) % 2 ^ 32) ∧
    Accepts (.ctrset h a b) h (fun s q => AllFree s q ∧ legal s q) (fun s q t => ∀ n,
      (naming s q n = [] → (t.mach.ctr (rcb s q) n).val = (s.mach.ctr (rcb s q) n).val) ∧
      ∀ k, naming s q n = [k] → (t.mach.ctr (rcb s q) n).val = val s k) ∧
    Accepts (.ctrwait h a b) h
      (fun s q => legal s q ∧ (∀ k ∈ q.tids, (s.mach.thr k).acquireReady = true ∧ (s.mach.thr k).errs = []) ∧
        ∀ k ∈ q.tids, val s k ≤ (s.mach.ctr (rcb s q) (idx s k)).val)
      (fun s q t => t.mach.ctrs = s.mach.ctrs ∧ ∀ c ∈ t.mach.copies, c.core ≠ q.core)

/-- spec/17 R412-R415: `qpost` submits the 64 bytes at each thread's offset, in ascending thread order; `rlinv` submits the address of
a descriptor; either where its queue has room and the pair may be in use; `qfence` passes when nothing its set names is outstanding, and with R takes the oldest retirement record. -/
def Obligations.QueuesComplete : Prop :=
  ∀ (h : Hdr) (n : BitVec 6) (a d : Spec) (x : QSet),
    let rcb (s : State) (q : Quarter) : Nat := (s.mach.launch q.launch).rcb
    let subs (s : State) (q : Quarter) : List SubEnt := (s.mach.pair (rcb s q) n.toNat).subs
    let what (s : State) (q : Quarter) : List (Nat × Bool × List Byte × Nat) :=
      (subs s q).map fun e => (e.poster, e.rlinv, e.bytes, e.desc)
    let named (s : State) (q : Quarter) : Prop := n.toNat < (s.mach.eff q.launch).qpairs
    (∀ s q, Running s q → FreshKeys s.mach → AllFree s q → named s q → PairOpen s q n.toNat q.tids.length →
      (∀ p ∈ q.active, let off := ((s.mach.thr p.2).rd (s.mach.fr p.1) a).toNat
        (s.mach.readNow (s.mach.thr p.2) off 64 64).acc.isOk = true ∧
        (s.mach.readNow (s.mach.thr p.2) off 64 64).judge = [] ∧ s.mach.readHeld (s.mach.thr p.2) off 64 64 = false) →
      ∃ t, exec (.qpost h n a) s = .next t ∧ MemoryKept s t ∧ RegistersKept s t ∧
        (∃ q', t.mach.quarter? q.id = some q' ∧ q'.pc = q.pc + 8 ∧ q'.slots = q.slots) ∧
        ∃ es, what t q = what s q ++ es ∧ es.map (fun e => e.1) = (s.mach.inOrder q.tids).map (fun k => (s.mach.thr k).poster) ∧
          ∀ p ∈ q.active, ((s.mach.thr p.2).poster, false, s.mach.bytes
            (scratchAcc s.mach (s.mach.thr p.2) ((s.mach.thr p.2).rd (s.mach.fr p.1) a).toNat 64 64).loc 64, 0) ∈ es) ∧
    Accepts (.rlinv h n a) h (fun s q => LowFree s q ∧ named s q ∧ PairOpen s q n.toNat 1 ∧
        (s.mach.thr (s.mach.lowestOf q)).launch = q.launch)
      (fun s q t => what t q = what s q ++ [((s.mach.thr (s.mach.lowestOf q)).poster, true, [],
        ((s.mach.thr (s.mach.lowestOf q)).rdPair (s.mach.thrFr (s.mach.lowestOf q)) a).toNat)]) ∧
    (let ok (s : State) (q : Quarter) : Prop := (x.p = true ∨ x.r = true → named s q) ∧ ∀ k ∈ q.tids,
       (s.mach.thr k).acquireReady = true ∧ (s.mach.thr k).errs = [] ∧ s.mach.qfBusy (rcb s q) x n.toNat k = false
     (x.r = false → Accepts (.qfence h n x d) h ok fun s q t =>
       t.mach.qpairs = s.mach.qpairs ∧ ∀ c ∈ t.mach.copies, c.core ≠ q.core) ∧
     (x.r = true → ∀ s q, Running s q → q.tids ≠ [] → ok s q → ∃ t f, exec (.qfence h n x d) s = .next t ∧
       MemoryKept s t ∧ GroupFlight s t q h (.qfence h n x d) true [] f ∧ f.done = true ∧
       let l := (s.mach.pair (rcb s q) n.toNat).rets
       let ws : List Word := match l with
         | [] => [0, 0, 0xFF, 0]
         | r :: rest => [r.tag.lo, r.tag.hi, wN (r.outcome % 256 + r.op % 256 * 256), wN rest.length]
       f.writes = q.tids.map (fun k => (k, spWords d ws)) ∧
       (l ≠ [] → (t.mach.pair (rcb s q) n.toNat).rets = l.drop 1)))

/-- spec/17 R420-R422: `rwait` takes the next slot of a ring, or learns that it is closed; `rdone` gives the slot back; `rclose` ends
its wave's part as a producer. -/
def Obligations.RingsComplete : Prop :=
  ∀ (h : Hdr) (r : BitVec 4) (a d : Spec),
    let low (s : State) (q : Quarter) : Thread := s.mach.thr (s.mach.lowestOf q)
    let ring (s : State) (q : Quarter) : Option Ring := s.mach.ring? q.core r.toNat
    let answers (ok : State → Quarter → Ring → Prop) (ws : State → Quarter → Ring → List Word) (eff : State → Quarter → Ring → State → Prop) :
        Prop :=
      ∀ s q g, Running s q → q.tids ≠ [] → ring s q = some g → g.launch = q.launch →
        (∀ k ∈ q.tids, (s.mach.thr k).acquireReady = true) → ok s q g →
        ∃ t f, exec (.rwait h r d) s = .next t ∧ MemoryKept s t ∧ GroupFlight s t q h (.rwait h r d) true [] f ∧ f.done = true ∧
          f.writes = q.tids.map (fun k => (k, spWords d (ws s q g))) ∧ (∀ c ∈ t.mach.copies, c.core ≠ q.core) ∧ eff s q g t
    answers (fun _ _ g => g.closed = true) (fun _ _ _ => [0xFFFFFFFF, 0]) (fun s q _ t => ring t q = ring s q) ∧
    answers (fun s q g => g.closed = false ∧ g.ready = true ∧ g.slots ≠ [] ∧ g.want < g.slots.length ∧ (low s q).wave = g.owner)
      (fun _ _ g => [wN (g.slotOff + g.want * g.slotBytes), g.metaWord (g.slot g.want)])
      (fun s q g t => ∃ g', ring t q = some g' ∧ (g'.slot g.want).st = .held (low s q).wave ∧
        (∀ i, i ≠ g.want → g'.slot i = g.slot i) ∧ g'.want = (g.want + 1) % g.slots.length) ∧
    Accepts (.rdone h r a) h
      (fun s q => LowFree s q ∧ ∃ g k, ring s q = some g ∧ g.launch = q.launch ∧ g.closed = false ∧ g.drain = false ∧
        (low s q).wave = g.owner ∧ k < g.slots.length ∧ 0 < g.slotBytes ∧ g.marks.length < g.nprod ∧
        g.slotOff + k * g.slotBytes = ((low s q).rd (s.mach.thrFr (s.mach.lowestOf q)) a).toNat ∧ (g.slot k).st = .held g.owner)
      (fun s q t => ∀ g k, ring s q = some g →
        g.slotOff + k * g.slotBytes = ((low s q).rd (s.mach.thrFr (s.mach.lowestOf q)) a).toNat → k < g.slots.length →
        ∃ g', ring t q = some g' ∧ (g'.slot k).st = .empty ∧ ∀ i, i ≠ k → g'.slot i = g.slot i) ∧
    Accepts (.rclose h r) h
      (fun s q => LowFree s q ∧ ∃ g, ring s q = some g ∧ g.launch = q.launch ∧ g.closed = false ∧ g.drain = true ∧
        (low s q).wave ∉ g.marks ∧ g.marks.length + 1 < g.nprod)
      (fun s q t => ∀ g, ring s q = some g → ring t q = some { g with marks := g.marks ++ [(low s q).wave] })

/-- spec/06 R178, R179, spec/15 R379, R380: `gjoin` enters the wave into the table of its launch in its grove; at a `gleave` its
withdrawal begins, and its flag waits for the accesses of others.
spec/17 R431, spec/02 R80: a `sig` of this device ORs its word into a channel, whose route entry fires when it leaves zero; one
of another device is a message, and the thread's flag waits for the answer. -/
def Obligations.SharingAndSignals : Prop :=
  (
    ∀ (h : Hdr) (a : Spec),
      let low (s : State) (q : Quarter) : Thread := s.mach.thr (s.mach.lowestOf q)
      let num (s : State) (q : Quarter) : Nat := ((low s q).rd s.mach.free a).toNat
      let tab (s : State) (q : Quarter) : Option ShareTab := s.mach.share? (coreGrove q.core) q.launch
      Accepts (.gjoin h a) h
        (fun s q => num s q ≤ 23 ∧ s.mach.leaving (low s q).wave = false ∧ match tab s q with
          | none => (s.mach.shares.filter fun x => x.grove == coreGrove q.core).length < 8
          | some x => (∀ p ∈ x.members, p.1 ≠ num s q ∧ p.2 ≠ (low s q).wave) ∧ ∀ p ∈ x.closing, p.1 ≠ num s q)
        (fun s q t => ∃ x, tab t q = some x ∧
          x.members = (match tab s q with
            | none => []
            | some y => y.members) ++ [(num s q, (low s q).wave)]) ∧
      ∀ s q, Running s q → q.tids ≠ [] → ∃ t f o, exec (.gleave h) s = .next t ∧ MemoryKept s t ∧
        GroupFlight s t q h (.gleave h) false [o] f ∧ o.kind = .wide ∧
        t.mach.shares = s.mach.shares.map fun x =>
          { x with closing := x.closing ++ x.members.filter fun p => p.2 == (low s q).wave }) ∧
  (
    ∀ (h : Hdr) (sc : Scope) (a b : Spec),
      let chan (s : State) (p : Nat × Nat) : Nat := ((s.mach.thr p.2).rd (s.mach.fr p.1) a).toNat
      let val (s : State) (p : Nat × Nat) : Word := (s.mach.thr p.2).rd (s.mach.fr p.1 + 8) b
      (∀ s q, Running s q → s.mach.sigpend.length = 16 →
        (∀ p ∈ q.active, (s.mach.thr p.2).pend = [] ∧ bits (chan s p) 4 12 = 0 ∧ bits (chan s p) 28 4 = 0 ∧
          bits (chan s p) 16 12 = s.sys.devid) →
        ∃ t, exec (.sig h sc a b) s = .next t ∧ MemoryKept s t ∧ RegistersKept s t ∧ t.mach.flights = s.mach.flights ∧
          (∀ c, c < 16 → t.mach.sigpend.getD c 0 =
            (q.active.filter fun p => bits (chan s p) 0 4 == c).foldl (fun w p => w ||| val s p) (s.mach.sigpend.getD c 0)) ∧
          ∃ q', t.mach.quarter? q.id = some q' ∧ q'.pc = q.pc + 8 ∧ q'.slots = q.slots) ∧
      (∀ s q p, Running s q → q.active = [p] → (s.mach.thr p.2).pend = [] → bits (chan s p) 4 12 = 0 → bits (chan s p) 28 4 = 0 →
        bits (chan s p) 16 12 ≠ s.sys.devid → 7 ≤ sc.code → (look ({} : Route) s.sys.routes (bits (chan s p) 16 12)).v = true →
        ∃ t f, exec (.sig h sc a b) s = .next t ∧ MemoryKept s t ∧ RegistersKept s t ∧ t.mach.sigpend = s.mach.sigpend ∧
          f ∈ t.mach.flights ∧ f.owner = p.2 ∧ f.done = false ∧ (p.2, f.uid, s.sys.ticks) ∈ t.mach.sigWaits ∧
          t.mach.out = s.mach.out ++
            [⟨s.sys.devid, bits (chan s p) 16 12, 0, 0, .sig (bits (chan s p) 0 4) (val s p) p.2 f.uid⟩]))

/-! ### Control flow and traps -/

/-- spec/12 R299, R300, R313: branches. The threads that fall through stay as the quarter, or all where none does; inside a handler those stay
that go where the lowest slot's thread goes. -/
def Obligations.BranchesComplete : Prop :=
  ∀ (h : Hdr) (off : BitVec 33) (r : Spec),
    let there (q : Quarter) : Pc := q.pc + 8 * off.signExtend 57
    let word (s : State) (p : Nat × Nat) : Word := (s.mach.thr p.2).rd (s.mach.fr p.1) r
    let pair (s : State) (p : Nat × Nat) : DWord := (s.mach.thr p.2).rdPair (s.mach.fr p.1) r
    let first (q : Quarter) : Nat × Nat := q.active.headD (0, 0)
    let handles (s : State) (q : Quarter) : Prop := (s.mach.thr (first q).2).isHandler = true
    Branches (.bra h off) always id (fun _ q _ => there q) (fun _ q => there q) ∧
    Branches (.brz h r off) always id (fun s q p => if word s p = 0 then there q else q.pc + 8)
      (fun s q => if (handles s q ∧ word s (first q) = 0) ∨ ∀ p ∈ q.active, word s p = 0 then there q else q.pc + 8) ∧
    Branches (.brnz h r off) always id (fun s q p => if word s p ≠ 0 then there q else q.pc + 8)
      (fun s q => if (handles s q ∧ word s (first q) ≠ 0) ∨ ∀ p ∈ q.active, word s p ≠ 0 then there q else q.pc + 8) ∧
    Branches (.brx h r) (fun s q => ∀ p ∈ q.active, (pair s p).toNat < 2 ^ 57) id (fun s _ p => (pair s p).setWidth 57)
      (fun s q => (pair s (q.active.headD (0, 0))).setWidth 57)

/-- spec/12 R301, R302, R304, R305, spec/05 R159: a call through a header of the same width pushes the return address of every
caller and goes to the entry; `ret` pops it. -/
def Obligations.CallsAndReturns : Prop :=
  (let ok (s : State) (q : Quarter) (entry : Pc) : Prop :=
    (∀ k ∈ q.tids, (s.mach.thr k).isHandler = false ∧ s.mach.quiet (s.mach.thr k) = true ∧ (s.mach.thr k).rets.length < 8) ∧
    ∃ f, CallWords s q entry f ∧ f.magic = 0xFC ∧ f.kind = 0 ∧ f.factor = 0 ∧ f.grant = 0 ∧ f.low = 0 ∧ f.red = 0 ∧
      16 ≤ f.frame ∧ f.frame ≤ 256 ∧ ∀ k ∈ q.tids, f.frame ≤ (s.mach.thr k).rgv
   let calls (i : Instr) (entry : State → Quarter → Pc) : Prop :=
    ∀ s q, Running s q → q.tids ≠ [] → ok s q (entry s q) → ∃ t, exec i s = .next t ∧
      OnlyPlaces s t q (fun T => { T with rets := { retva := q.pc + 8, kind := 0 } :: T.rets, sameDepth := T.sameDepth + 1 }) ∧
      ∃ q', t.mach.quarter? q.id = some q' ∧ q'.pc = entry s q ∧ q'.hdr = none ∧ q'.slots = q.slots
   (∀ h off, calls (.callDirect h off) fun _ q => q.pc + 8 * off.signExtend 57) ∧
   ∀ h a entry, (∀ s q, Running s q → q.tids ≠ [] → ok s q entry →
      (∀ p ∈ q.active, (s.mach.thr p.2).rdPair (s.mach.fr p.1) a = entry.setWidth 64) → ∃ t, exec (.callReg h a) s = .next t ∧
      OnlyPlaces s t q (fun T => { T with rets := { retva := q.pc + 8, kind := 0 } :: T.rets, sameDepth := T.sameDepth + 1 }) ∧
      ∃ q', t.mach.quarter? q.id = some q' ∧ q'.pc = entry ∧ q'.hdr = none ∧ q'.slots = q.slots)) ∧
  ∀ h, Branches (.ret h) (fun s q => ∀ k ∈ q.tids, ∃ e r, (s.mach.thr k).rets = e :: r ∧ e.kind = 0)
    (fun T => { T with rets := T.rets.drop 1, sameDepth := T.sameDepth - 1 })
    (fun s _ p => ((s.mach.thr p.2).rets.headD {}).retva)
    (fun s q => ((s.mach.thr (q.active.headD (0, 0)).2).rets.headD {}).retva)

/-- spec/12 R306-R308, spec/05 R155, R157: `reform` sends every thread to a + 8, `yield` makes the quarter wait 32 cycles there, and
`exit` ends threads that are neither handlers nor callees and owe nothing.
spec/12 R314-R316, spec/05 R172: `spawn` makes one child wave for each thread, which receives its number; `join` passes when no
child of its threads lives. -/
def Obligations.ThreadsMoveSpawnAndEnd : Prop :=
  (
    ∀ (h : Hdr),
      (∀ s q, Running s q → Lasting s q → ∃ t, exec (.reform h) s = .next t ∧ OnlyPlaces s t q id ∧
        ∀ k ∈ q.tids, (t.mach.thr k).pc = q.pc + 8 ∧ (t.mach.thr k).hdr = none) ∧
      (∀ s q, Running s q → NoHandler s q → ∃ t, exec (.yield h) s = .next t ∧ OnlyPlaces s t q id ∧
        ∃ q', t.mach.quarter? q.id = some q' ∧ q'.pc = q.pc + 8 ∧ q'.hdr = none ∧ q'.slots = q.slots ∧
          q'.yieldUntil = s.mach.cycle + 33) ∧
      (∀ s q, Running s q → NoHandler s q →
        (∀ k ∈ q.tids, let T := s.mach.thr k
          T.isCallee = false ∧ T.widthDepth = 0 ∧ s.mach.quiet T = true ∧ s.mach.liveKids T = false ∧ T.errs = []) →
        ∃ t, exec (.exit h) s = .next t ∧ (∀ U ∈ t.mach.threads, U.id ∈ q.tids → U.stat = .ended) ∧ MemoryKept s t ∧
          (∀ u ∈ t.mach.quarters, ∀ k ∈ q.tids, k ∉ u.tids) ∧
          ∀ k, k ∉ q.tids → (t.mach.thr k).regs = (s.mach.thr k).regs ∧ (t.mach.thr k).pc = (s.mach.thr k).pc)) ∧
  (
    ∀ (h : Hdr) (d a b c : Spec),
      (∀ s q, Running s q → NoHandler s q → (∀ k ∈ q.tids, DestFits (s.mach.thr k) d 1 ∧ (s.mach.thr k).pend = [] ∧
          (s.mach.thr k).launch = q.launch) → (s.mach.launch? q.launch).isSome →
        (∀ p ∈ q.active, ∀ j, j < 8 → let T := s.mach.thr p.2
          spawnCheck s.sys s.mach T (T.rdPair (s.mach.fr p.1) a) (T.rd (s.mach.fr p.1 + 4) b).toNat
            ((s.mach.launch q.launch).spawns + j) = .ok) → q.tids.length ≤ 8 →
        ∃ t, exec (.spawn h d a b c) s = .next t ∧ MemoryKept s t ∧
          t.mach.waves.length = s.mach.waves.length + q.tids.length ∧
          (t.mach.launch q.launch).spawns = (s.mach.launch q.launch).spawns + q.tids.length ∧
          (∃ q', t.mach.quarter? q.id = some q' ∧ q'.pc = q.pc + 8 ∧ q'.hdr = none ∧ q'.slots = q.slots) ∧
          ∀ p ∈ q.active,
            (∃ j, j < q.tids.length ∧ ∀ k, (t.mach.thr p.2).regs.getD k 0 = vAfter d
              [wN ((s.mach.launch q.launch).nwaves + (s.mach.launch q.launch).spawns + j)] (s.mach.thr p.2) k) ∧
            (q.tids.length = 1 → ∃ w ∈ t.mach.waves, w.parent = some p.2 ∧ w.id ∈ (t.mach.thr p.2).kids ∧ w.core = none ∧
              w.number = (s.mach.launch q.launch).nwaves + (s.mach.launch q.launch).spawns ∧
              w.entry = ((s.mach.thr p.2).rdPair (s.mach.fr p.1) a).setWidth 57 ∧
              w.arg = (s.mach.thr p.2).rdPair (s.mach.fr p.1 + 8) c)) ∧
      (∀ s q, Running s q → NoHandler s q → q.tids ≠ [] →
        (∀ k ∈ q.tids, s.mach.liveKids (s.mach.thr k) = false) →
        ∃ t, exec (.join h) s = .next t ∧ MemoryKept s t ∧ RegistersKept s t ∧ (∀ k ∈ q.tids, (t.mach.thr k).kids = []) ∧
          (∀ x ∈ t.mach.copies, x.core ≠ q.core) ∧
          ∃ q', t.mach.quarter? q.id = some q' ∧ q'.pc = q.pc + 8 ∧ q'.hdr = none ∧ q'.slots = q.slots))

/-- spec/12 R309-R312: an arrival of threads that have none at the barrier is kept by `bara`, which passes; `bar` passes threads
whose own arrival has been released, and `barw` those released or without one: their barrier returns to none. -/
def Obligations.BarriersComplete : Prop :=
  ∀ (h : Hdr) (l : BitVec 3) (n : BitVec 5) (c : BarCnt) (num : Nat),
    let may (s : State) (q : Quarter) : Prop :=
      (∀ k ∈ q.tids, (s.mach.thr k).isHandler = false ∧ (s.mach.thr k).widthDepth = 0 ∧ (s.mach.thr k).isCallee = false ∧
        (s.mach.thr k).pend = []) ∧ barHeld (s.mach.launch q.launch) l.toNat n.toNat = true
    let on (s : State) (k : Nat) : Option BarSlot := (s.mach.thr k).bar? l.toNat n.toNat
    (∀ s q, Running s q → may s q → 1 ≤ num → (l = 0 → num ≤ 4) →
      (∀ p ∈ q.active, (barOperand (s.mach.thr p.2) (s.mach.fr p.1) c).1 = num ∧ on s p.2 = none ∧
        ∀ x, s.mach.unitCount (s.mach.thr p.2) l.toNat n.toNat = some x → x = num) →
      ∃ t, exec (.bara h l n c) s = .next t ∧ MemoryKept s t ∧ RegistersKept s t ∧
        (∀ k ∈ q.tids, ∃ b, on t k = some b ∧ b.phase = .arrived ∧ b.count = num ∧ b.own = false) ∧
        ∃ q', t.mach.quarter? q.id = some q' ∧ q'.pc = q.pc + 8 ∧ q'.hdr = none ∧ q'.slots = q.slots) ∧
    (let passes (i : Instr) (ok : BarSlot → Prop) (orNone : Prop) : Prop :=
      ∀ s q, Running s q → Lasting s q → may s q →
        (∀ k ∈ q.tids, (on s k = none ∧ orNone) ∨ ∃ b, on s k = some b ∧ b.phase = .released ∧ ok b) →
        ∃ t, exec i s = .next t ∧ MemoryKept s t ∧ RegistersKept s t ∧ (∀ k ∈ q.tids, on t k = none) ∧
          (l = 0 → ∀ k ∈ q.tids, (t.mach.thr k).pc = q.pc + 8) ∧
          (l ≠ 0 → ∃ q', t.mach.quarter? q.id = some q' ∧ q'.pc = q.pc + 8 ∧ q'.hdr = none ∧ q'.slots = q.slots)
     passes (.bar h l n c) (fun b => b.own = true) False ∧ passes (.barw h l n) (fun _ => True) True)

/-- spec/17 R429, spec/12 R318, spec/08 R227, R233: `trap` takes 0x72 and `brk` 0x74 with their number as TRAPVA; inside a handler
a trap ends the launch with 0x77. -/
def Obligations.SoftwareTraps : Prop :=
  ∀ (h : Hdr) (n : BitVec 24),
    let takes (i : Instr) (cause : Nat) : Prop :=
      (∀ s q, Running s q → q.tids ≠ [] → (∀ k ∈ q.tids, (s.mach.thr k).isHandler = false ∧ (s.mach.thr k).stat ≠ .ended) →
        ∃ t, exec i s = .next t ∧ TrapTaken s t q cause fun _ => n.toNat) ∧
      (∀ s q, Running s q → (∃ k ∈ q.tids, (s.mach.thr k).isHandler = true ∧ (s.mach.thr k).stat ≠ .ended) →
        (s.mach.launch? q.launch).isSome →
        ∃ t, exec i s = .next t ∧ (t.mach.launch q.launch).ending = some (7, 0x77) ∧ MemoryKept s t)
    takes (.trap h n) 0x72 ∧ takes (.brk h n) 0x74

/-- spec/08 R228-R231, R235: a trap group whose threads owe nothing is queued, or ends a launch without a handler; the alcove binds
the next one: a handler thread for each member with cleared registers and the trap's values; a wait over its limit takes 0x7E. -/
def Obligations.TrapEntryAndBind : Prop :=
  (∀ gid (g : TrapGroup), Steps (.trapEntry gid)
    (fun s => s.mach.trap? gid = some g ∧ g.phase = .entering ∧ handlerOf (s.mach.eff g.launch) g.cause ≠ 0 ∧
      ∀ p ∈ g.members, (s.mach.thr p.2.1).pend = [] ∧ s.mach.inFlight p.2.1 = false)
    fun s => s.withMach (s.mach.setTrap { g with phase := .queued })) ∧
  (∀ gid (g : TrapGroup), StepsTo (.trapEntry gid)
    (fun s => s.mach.trap? gid = some g ∧ g.phase = .entering ∧ handlerOf (s.mach.eff g.launch) g.cause = 0 ∧
      (s.mach.launch? g.launch).isSome ∧ (s.mach.launch g.launch).ending = none ∧
      ∀ p ∈ g.members, (s.mach.thr p.2.1).pend = [] ∧ s.mach.inFlight p.2.1 = false)
    fun _ t => (t.mach.launch g.launch).ending = some (7, g.cause) ∧
      ∀ U ∈ t.mach.threads, U.launch = g.launch → U.stat = .ended) ∧
  (∀ core (g : TrapGroup), StepsTo (.alcoveBind core)
    (fun s => (s.mach.coreSt core).alcove = none ∧
      s.mach.traps.find? (fun g => g.core == core && g.phase == .queued && !s.mach.stopped g.launch) = some g ∧
      g.members.length ≤ 8 ∧ ∀ p ∈ g.members, p.1 < 8 ∧ (s.mach.thr? p.2.1).isSome)
    fun s t => (t.mach.coreSt core).alcove = some g.id ∧ MemoryKept s t ∧
      (∀ k, (s.mach.thr? k).isSome → t.mach.thr? k = s.mach.thr? k) ∧
      ∃ q' ∈ t.mach.quarters, q'.handler = some g.id ∧ q'.core = core ∧ q'.hdr = none ∧
        q'.pc = BitVec.ofNat 57 (handlerOf (s.mach.eff g.launch) g.cause) ∧
        ∀ p ∈ g.members, ∃ H ∈ t.mach.threads, H.id ∈ q'.tids ∧ H.role = .handler p.2.1 g.id ∧
          H.regs = List.replicate 128 0 ∧ H.trapc = g.trapc ∧ H.trappc = wN g.pc.toNat ∧ H.trapva = BitVec.ofNat 64 p.2.2) ∧
  (∀ tid (q : Quarter), StepsTo (.watchdogExpire tid)
    (fun s => s.mach.quarters.find? (fun q => q.tids.contains tid) = some q ∧ (∃ need, q.wait = some (.counter need)) ∧
      s.mach.waitOver q = false ∧ (s.mach.eff q.launch).wdog ≠ 0 ∧ (∀ k ∈ q.tids, (s.mach.thr? k).isSome ∧ (s.mach.thr k).isHandler = false ∧
        (s.mach.thr k).stat ≠ .ended ∧ ∃ c, (s.mach.thr k).waitSince = some c ∧
        c + (s.mach.eff q.launch).wdog * 1024 < s.mach.cycle))
    fun s t => MemoryKept s t ∧ RegistersKept s t ∧ ∃ g ∈ t.mach.traps, g.cause = 0x7E ∧ g.waitBit = true ∧ g.pc = q.pc ∧
      g.members.map (fun p => p.2.1) = q.tids ∧ ∀ k ∈ q.tids, (t.mach.thr k).stat = .trapping g.id)

/-- spec/08 R232, spec/17 R430, R432: `tret` of all handlers of a trap frees the alcove, ends them and files every served thread where
it resumes; `tret.end` ends the launch; `csave` and `crest` read and write the served context. -/
def Obligations.HandlersReturn : Prop :=
  ∀ (h : Hdr) (d a b : Spec),
    let serving (s : State) (q : Quarter) (g : TrapGroup) : Prop :=
      Running s q ∧ (∃ x, s.mach.serves (s.mach.thr q.lowest) = some (g, x)) ∧
      ∀ k ∈ q.tids, ∃ sv, (s.mach.thr k).served = some sv ∧ sv ∉ q.tids ∧ (s.mach.thr? sv).isSome
    let sel (s : State) (p : Nat × Nat) : Word := (s.mach.thr p.2).rd (s.mach.fr p.1) a
    (∀ s q (g : TrapGroup), serving s q g → (∀ k ∈ q.tids, s.mach.quiet (s.mach.thr k) = true) →
      (∀ x ∈ g.handlers, x ∈ g.left ∨ x ∈ q.tids) → (∀ k ∈ q.tids, ∀ sv, (s.mach.thr k).served = some sv →
        (s.mach.launch (s.mach.thr sv).launch).ending = none) →
      ∃ t, exec (.tret h) s = .next t ∧ MemoryKept s t ∧ (t.mach.coreSt q.core).alcove = none ∧
        (∀ u ∈ t.mach.traps, u.id ≠ g.id) ∧ (∀ U ∈ t.mach.threads, U.id ∈ q.tids → U.stat = .ended) ∧
        ∀ k ∈ q.tids, ∀ sv, (s.mach.thr k).served = some sv →
          (t.mach.thr sv).pc = BitVec.ofNat 57 (g.at_ sv) ∧ (t.mach.thr sv).regs = (s.mach.thr sv).regs) ∧
    (∀ s q (g : TrapGroup), serving s q g → (s.mach.launch? q.launch).isSome →
      ∃ t, exec (.tretEnd h) s = .next t ∧ (t.mach.launch q.launch).ending = some (7, g.cause) ∧
        ∀ U ∈ t.mach.threads, U.launch = q.launch → U.stat = .ended) ∧
    (∀ s q (g : TrapGroup), serving s q g → (∀ k ∈ q.tids, DestFits (s.mach.thr k) d 1) →
      (∀ p ∈ q.active, bits (sel s p).toNat 16 8 = 0 ∧ ∀ sv, (s.mach.thr p.2).served = some sv →
        let T := s.mach.thr sv
        let cls := bits (sel s p).toNat 24 8
        let idx := bits (sel s p).toNat 0 16
        (cls = 0 ∧ idx < T.rgv) ∨ (cls = 1 ∧ 1 ≤ idx ∧ idx ≤ 12) ∨ (cls = 2 ∧ idx ≤ 1) ∨ (cls = 3 ∧ idx ≤ 1)) →
      ∃ t, exec (.csave h d a) s = .next t ∧ OnlyQuarter s t q ∧ ∀ p ∈ q.active, ∀ sv, (s.mach.thr p.2).served = some sv →
        let T := s.mach.thr sv
        let cls := bits (sel s p).toNat 24 8
        let idx := bits (sel s p).toNat 0 16
        let at_ := g.at_ T.id
        let w : Word := if cls = 0 then T.regs.getD idx 0 else if cls = 1 then wN (T.flag idx)
          else if cls = 2 then (if idx = 0 then wN at_ else wN (at_ / 2 ^ 32)) else if idx = 0 then T.fmode else T.tmshape
        RegEffect q h d [w] (s.mach.thr p.2) (t.mach.thr p.2)) ∧
    (∀ s q (g : TrapGroup) k sv, serving s q g → q.tids = [k] → (s.mach.thr k).served = some sv →
      let p := q.active.headD (0, 0)
      let T := s.mach.thr sv
      let w := (s.mach.thr k).rd (s.mach.fr p.1 + 8) b
      let idx := bits (sel s p).toNat 0 16
      let cls := bits (sel s p).toNat 24 8
      bits (sel s p).toNat 16 8 = 0 → (cls = 0 ∧ idx < T.rgv) ∨ (cls = 3 ∧ idx ≤ 1) →
      ∃ t, exec (.crest h a b) s = .next t ∧ MemoryKept s t ∧
        (∀ u, u ≠ sv → u ≠ k → t.mach.thr? u = s.mach.thr? u) ∧ (t.mach.thr k).regs = (s.mach.thr k).regs ∧
        t.mach.thr sv = (if cls = 0 then { T with regs := T.regs.set idx w }
          else if idx = 0 then { T with fmode := w &&& 0x7B } else { T with tmshape := w &&& 0x7FFFF }))

/-! ### Accesses and scheduling -/

/-- spec/07 R203-R206, spec/15 R365, R369-R372: what one operation does when it performs. A store writes its bytes; a plain load
brings the bytes of memory, or of its core's copy; an atomic brings the old value and writes the new one; a fence drops the
copies of an acquire; a move of a tile copies its sector, and gives up the reader hold that it has placed. -/
def Obligations.AccessesPerform : Prop :=
  ∀ (tid oid : Nat) (ins : Bool) (o : PendOp) (f : Flight),
    let steps (ok : State → Prop) (post : State → State → Prop) : Prop := StepsTo (.accessPerform tid oid ins)
      (fun s => o.oid = oid ∧ PerformsNext s tid o f ∧ ok s) fun s t => post s t ∧ Gone t tid oid
    let brings (t : State) (bs : List Byte) : Prop :=
      ∃ g, t.mach.flight? o.uid = some g ∧ g.got = f.got ++ [(o.tag, bs)]
    (∀ bs, steps (fun _ => o.kind = .store bs ∧ bs.length = o.len ∧ pkind o.loc ≠ .cxl) fun s t => Stored s t o.loc bs) ∧
    (∀ h sz tm sc d a off, steps
      (fun s => o.kind = .load false ∧ f.instr = .ld h sz tm sc d a off ∧ badRange s.mach o.loc o.len = false)
      fun s t => MemoryKept s t ∧ brings t (s.mach.bytes o.loc o.len)) ∧
    (∀ h sz tm sc d a off (c : CopyLine), steps
      (fun s => o.kind = .load true ∧ f.instr = .ld h sz tm sc d a off ∧ c.err = 0 ∧
        s.mach.copyAt (s.mach.thr tid).core (s.mach.eff (s.mach.thr tid).launch).fdom (o.va / 64) = some c)
      fun s t => MemoryKept s t ∧ brings t ((c.bytes.drop (o.va % 64)).take o.len) ∧ t.mach.copies = s.mach.copies) ∧
    (∀ op ty b cmp h sc d a c, steps
      (fun _ => o.kind = .atom op ty b cmp ∧ o.len = ty.bytes ∧ b < 2 ^ (8 * ty.bytes) ∧ cmp < 2 ^ (8 * ty.bytes) ∧
        pkind o.loc ≠ .cxl ∧ f.instr = .atom h op ty sc d a c)
      fun s t => AtomNew op ty (s.mach.num o.loc o.len) b cmp (t.mach.num o.loc o.len) ∧
        (∀ x, x < o.loc ∨ o.loc + o.len ≤ x → t.mach.mem.read x = s.mach.mem.read x) ∧
        brings t (toBytes (s.mach.num o.loc o.len) o.len)) ∧
    (∀ op ty b, steps
      (fun _ => o.kind = .red op ty b ∧ o.len = ty.bytes ∧ b < 2 ^ (8 * ty.bytes) ∧ op ≠ .cas ∧ pkind o.loc ≠ .cxl)
      fun s t => AtomNew op ty (s.mach.num o.loc o.len) b 0 (t.mach.num o.loc o.len) ∧
        ∀ x, x < o.loc ∨ o.loc + o.len ≤ x → t.mach.mem.read x = s.mach.mem.read x) ∧
    (∀ rel acq, steps (fun _ => o.kind = .fence rel acq) fun s t =>
      MemoryKept s t ∧ (acq = true → scopeK o.scope = true → ∀ c ∈ t.mach.copies, c.core ≠ (s.mach.thr tid).core)) ∧
    steps (fun _ => o.kind = .move ∧ o.len2 = o.len ∧ pkind o.loc ≠ .cxl ∧ pkind o.loc2 ≠ .cxl ∧
        (o.metaLoc o.va = none ∨ o.tries < 8))
      (fun s t => Stored s t o.loc2 (s.mach.bytes o.loc o.len)) ∧
    ∀ ml, steps (fun s => o.kind = .move ∧ o.len2 = o.len ∧ pkind o.loc ≠ .cxl ∧ pkind o.loc2 ≠ .cxl ∧
        o.metaLoc o.va = some ml ∧ 8 ≤ o.tries ∧ s.mach.mapped (ml + 4) = false ∧
        (o.loc + o.len ≤ ml + 4 ∨ ml + 8 ≤ o.loc) ∧ (o.loc2 + o.len ≤ ml + 4 ∨ ml + 8 ≤ o.loc2))
      fun s t => t.mach.bytes o.loc2 o.len = s.mach.bytes o.loc o.len ∧ t.mach.num (ml + 4) 4 = 0 ∧
        ∀ x, (x < o.loc2 ∨ o.loc2 + o.len ≤ x) → (x < ml + 4 ∨ ml + 8 ≤ x) → t.mach.mem.read x = s.mach.mem.read x

/-- spec/10 R272, spec/05 R148, spec/07 R203: an instruction whose operations have performed lands: its words reach the destination,
an `x` position that waits for it takes the result, its flag counts one less, and it leaves.
spec/06 R180, R188, spec/15 R374: a core may drop a copy at any time; an access to another device without a response for 10 ms takes
0x26 in the threads of its instruction, and a prefetch without one is dropped. -/
def Obligations.InstructionsLand : Prop :=
  (
    ∀ (uid tid b x : Nat) (ws : List Word) (f : Flight), StepsTo (.instructionComplete tid uid)
      (fun s => s.mach.flight? uid = some f ∧ f.owner = tid ∧ f.done = true ∧ f.tids = [tid] ∧ (s.mach.thr? tid).isSome ∧
        b + ws.length ≤ (s.mach.thr tid).regs.length ∧ (s.mach.thr tid).regs.length ≤ 256 ∧ b < 256 ∧
        f.writes = [(tid, spWords (.v (BitVec.ofNat 8 b)) ws)] ∧ f.xres = [(tid, ws.headD 0)] ∧ 1 ≤ x ∧ x ≤ 12 ∧ f.flag = x)
      fun s t =>
        let T := s.mach.thr tid
        let U := t.mach.thr tid
        (∀ k, U.regs.getD k 0 = if b ≤ k ∧ k < b + ws.length then ws.getD (k - b) 0 else T.regs.getD k 0) ∧
        (T.x0 = .pend uid → U.x0 = .val (ws.headD 0)) ∧ (T.x0 ≠ .pend uid → U.x0 = T.x0) ∧
        (T.x1 = .pend uid → U.x1 = .val (ws.headD 0)) ∧ (T.x1 ≠ .pend uid → U.x1 = T.x1) ∧
        U.flag x = T.flag x - 1 ∧ (∀ y, y ≠ x → U.flag y = T.flag y) ∧
        (∀ g ∈ t.mach.flights, g.uid ≠ uid) ∧ MemoryKept s t ∧ (∀ k, k ≠ tid → t.mach.thr? k = s.mach.thr? k) ∧ U.pend = T.pend) ∧
  (
    (∀ tid oid (o : PendOp), StepsTo (.remoteAccessTimeout tid oid)
      (fun s => (s.mach.thr? tid).isSome ∧ (s.mach.thr tid).pend.find? (fun p => p.oid == oid) = some o ∧
        (∃ x, o.sent = some x ∧ x.1 + 1000000 ≤ s.sys.ticks) ∧ o.kind.isFetch = true ∧ s.mach.flights = [])
      fun s t => MemoryKept s t ∧ RegistersKept s t ∧ t.mach.traps = s.mach.traps ∧ Gone t tid oid) ∧
    (∀ core fd line, Steps (.readCacheDrop core fd line) (fun _ => True) fun s => s.withMach
      { s.mach with copies := s.mach.copies.filter fun c => !(c.core == core && c.fdom == fd && c.line == line) }) ∧
    ∀ tid oid (o : PendOp) (f : Flight), StepsTo (.remoteAccessTimeout tid oid)
      (fun s => (s.mach.thr tid).pend.find? (fun p => p.oid == oid) = some o ∧ (∃ x, o.sent = some x ∧ x.1 + 1000000 ≤ s.sys.ticks) ∧
        o.kind.isFetch = false ∧ s.mach.flight? o.uid = some f ∧ f.owner = tid ∧ f.tids ≠ [] ∧ (∀ g ∈ s.mach.flights, g.iss = f.iss → g = f) ∧
        (s.mach.launch f.launch).ending = none ∧
        ∀ k ∈ f.tids, (s.mach.thr? k).isSome ∧ (s.mach.thr k).stat ≠ .ended ∧ (s.mach.thr k).isHandler = false)
      fun s t => MemoryKept s t ∧ RegistersKept s t ∧ t.mach.flight? o.uid = none ∧ ∃ g ∈ t.mach.traps,
        g.cause = 0x26 ∧ g.pc = f.pc ∧ (∀ k, k ∈ g.members.map (fun p => p.2.1) ↔ k ∈ f.tids) ∧
        ∀ k ∈ f.tids, (t.mach.thr k).stat = .trapping g.id)

/-- spec/04 R122-R128: a pick takes the oldest ready quarter that is not refused; the shuttle loads a quarter into the roomiest slice,
and the quarters of a ganged wave each into its own, and takes one that waits long, or the one that issued least recently when another
needs the room, back to the gallery. -/
def Obligations.QuartersAreScheduled : Prop :=
  (∀ core (q : Quarter), StepsTo (.issuePick core)
    (fun s => (∀ u ∈ s.mach.quarters, u.gang = none) ∧ s.mach.issuedAbove core = false ∧ (s.mach.coreSt core).pickedAt = none ∧ (s.mach.coreSt core).power = .c0 ∧
      s.sys.thermtrip = false ∧ (s.mach.oldest core).find? (fun u => s.mach.ready s.sys u &&
        !s.mach.refused s.sys (s.mach.coreSt core) u) = some q)
    fun s t => OnlyMoves s t ∧ (∃ r, t.mach.latch = s.mach.latch ++ q.id :: r ∧ r.length ≤ 1) ∧
      (t.mach.coreSt core).pickedAt = some s.mach.cycle) ∧
  (∀ core (q : Quarter), StepsTo (.shuttleLoad core)
    (fun s => s.mach.shuttleFree core = true ∧ s.mach.loadNext s.sys core = some q ∧ s.mach.quarter? q.id = some q ∧ q.gang = none ∧
      q.core = core ∧ q.bytes ≤ s.mach.sliceFree core (s.mach.roomiest core) ∧ ∀ k ∈ q.tids, (s.mach.thr k).place = .gallery)
    fun s t => OnlyMoves s t ∧ ∃ q', t.mach.quarter? q.id = some q' ∧ q'.slice = some (s.mach.roomiest core) ∧
      q'.entered = s.mach.cycle + (32 * q.rg + 255) / 256 - 1) ∧
  (∀ core g (q : Quarter), StepsTo (.shuttleLoad core)
    (fun s => s.mach.shuttleFree core = true ∧ s.mach.loadNext s.sys core = some q ∧ q.gang = some g ∧ s.mach.roomFor s.sys q = true ∧
      ((s.mach.gangOut s.sys g).map fun p => p.2.id).Nodup ∧ ∀ p ∈ s.mach.gangOut s.sys g, s.mach.quarter? p.2.id = some p.2 ∧
        ∀ k ∈ p.2.tids, (s.mach.thr k).place = .gallery)
    fun s t => OnlyMoves s t ∧ ∀ p ∈ s.mach.gangOut s.sys g, ∃ q', t.mach.quarter? p.2.id = some q' ∧ q'.slice = some p.1) ∧
  (∀ core qid (q : Quarter) (w : Wait), StepsTo (.shuttleEvictLongWait core qid)
    (fun s => s.mach.quarter? qid = some q ∧ q.core = core ∧ q.slice ≠ none ∧ q.wait = some w ∧ w ≠ .flags ∧ s.mach.waitOver q = false ∧
      (∀ k ∈ q.tids, s.mach.landing k = false) ∧ s.mach.shuttleFree core = true)
    fun s t => OnlyMoves s t ∧ ∃ q', t.mach.quarter? qid = some q' ∧ q'.slice = none ∧ q'.wait = some w) ∧
  (∀ core (q u : Quarter), StepsTo (.shuttleEvictForWaiting core)
    (fun s => s.mach.loadNext s.sys core = some q ∧ s.mach.roomFor s.sys q = false ∧ s.mach.shuttleFree core = true ∧
      (s.mach.oldest core).find? (fun u => s.mach.evictable u && s.mach.inTheWay s.sys q u) = some u ∧ s.mach.quarter? u.id = some u)
    fun s t => OnlyMoves s t ∧ ∃ u', t.mach.quarter? u.id = some u' ∧ u'.slice = none)

/-- spec/05 R152, R154, R162, R168: a glade whose oldest thread has waited longer than its age leaves as a partial quarter at its
address, or as a group of gather callers; a widen caller that waits pushes its entry and takes the frames that are free; a gather group that waits starts its
callee in a frame.
spec/04 R131-R133, spec/12 R310, R312: an arrival reaches its node, which counts it, refuses it when its count is another, or with the
last releases every unit; one of a domain goes to its root device. An answer makes its thread's arrival released or refused; one to a
saved region is kept. -/
def Obligations.GladesFramesBarriers : Prop :=
  (
    (∀ gid (g : Glade), StepsTo (.gladeAgeExpire gid)
      (fun s => s.mach.glade? gid = some g ∧ g.threads ≠ [] ∧ g.threads.length ≤ 8 ∧ g.gather = false ∧
        (g.threads.headD (0, 0)).2 + s.mach.ageAt s.sys g.core g.launch g.pc < s.mach.cycle ∧ s.mach.stopped g.launch = false)
      fun s t => MemoryKept s t ∧ RegistersKept s t ∧ (∀ u ∈ t.mach.glades, u.id ≠ gid) ∧
        ∃ q ∈ t.mach.quarters, q.pc = g.pc ∧ q.core = g.core ∧ q.launch = g.launch ∧ q.rg = g.rg ∧ q.slice = none ∧
          q.tids = g.threads.map (fun p => p.1) ∧
          ∀ p ∈ g.threads, (s.mach.thr? p.1).isSome → (t.mach.thr p.1).stat = .run q.id) ∧
    (∀ gid (g : Glade) (c : Call), StepsTo (.gladeAgeExpire gid)
      (fun s => s.mach.glade? gid = some g ∧ g.gather = true ∧ s.mach.call? g.call = some c ∧ c.gather = true ∧ c.waiting = false ∧
        (∀ u ∈ s.mach.calls, u.id = c.id → u = c) ∧ s.mach.stopped g.launch = false ∧
        (g.threads.headD (0, 0)).2 + s.mach.ageAt s.sys g.core g.launch g.pc < s.mach.cycle ∧
        let T := s.mach.thr (g.threads.headD (0, 0)).1
        T.rgv < c.f ∨ T.tlsFree < saveLen c.f ∨ tlsCheck s.sys s.mach T T.tlsTop (saveLen c.f) = .ok)
      fun _ t => (∀ u ∈ t.mach.glades, u.id ≠ gid) ∧
        ∃ c', t.mach.call? g.call = some c' ∧ c'.callers = g.threads.map (fun p => p.1)) ∧
    (∀ call (c : Call), StepsTo (.widenFrameGrant call)
      (fun s => s.mach.call? call = some c ∧ c.waiting = true ∧ c.gather = false ∧ s.mach.stopped c.launch = false ∧
        s.mach.grantable c.core c.launch c.w ≠ 0 ∧ (c.grant = 1 → s.mach.grantable c.core c.launch c.w = c.w) ∧
        (s.mach.thr? c.caller).isSome ∧
        (let T := s.mach.thr c.caller
         let need := (s.mach.widenPlaces T (4 * c.w * c.retc) c.f (s.mach.grantable c.core c.launch c.w) T.pushNeed).2.2 + T.pushNeed
         need ≤ T.tlsFree ∧ tlsHeld s.sys s.mach T T.tlsTop need = false ∧ tlsCheck s.sys s.mach T T.tlsTop need = .ok) ∧ (∀ T ∈ s.mach.threads, T.id < s.mach.next) ∧
        (s.mach.launch (s.mach.thr c.caller).launch).ending = none)
      fun s t => ((s.mach.thr c.caller).rets.length < 8 → MemoryKept s t) ∧
        ((t.mach.thr c.caller).rets.headD {}).kind = 1 ∧ ((t.mach.thr c.caller).rets.headD {}).k = s.mach.grantable c.core c.launch c.w ∧
        t.mach.threads.length = s.mach.threads.length + s.mach.grantable c.core c.launch c.w ∧
        ∃ c', t.mach.call? call = some c' ∧ c'.waiting = false ∧ c'.k = s.mach.grantable c.core c.launch c.w ∧
          c'.framesHeld = c'.k ∧ c'.live.length = c.live.length + c'.k) ∧
    (∀ call (c : Call), StepsTo (.gatherFrameGrant call)
      (fun s => s.mach.call? call = some c ∧ c.waiting = true ∧ c.gather = true ∧ s.mach.stopped c.launch = false ∧
        1 ≤ s.mach.grantable c.core c.launch 1 ∧ c.callers ≠ [] ∧
        (s.mach.thr (c.callers.headD 0)).core = c.core ∧ (s.mach.thr (c.callers.headD 0)).launch = c.launch ∧
        (let T := s.mach.thr (c.callers.headD 0)
         stackBytes [(s.mach.placeItems T.core T.launch T.tlsTop 0 [] [4 * c.f]).headD .gallery] [4 * c.f] ≤ T.tlsFree) ∧
        (∀ T ∈ s.mach.threads, T.id < s.mach.next) ∧ (s.mach.launch c.launch).ending = none)
      fun s t => MemoryKept s t ∧ t.mach.threads.length = s.mach.threads.length + 1 ∧
        ∃ c', t.mach.call? call = some c' ∧ c'.waiting = false ∧ c'.framesHeld = 1 ∧ c'.live.length = 1)) ∧
  (
    (∀ (b : BarMsg) (n : BarNode), StepsTo .barrierArrivalNode
      (fun s => s.mach.nextArrival s.sys = some b ∧ b.level < 4 ∧ n.count = b.count ∧
        (s.mach.barNode? b.level b.place b.num b.launch = some n ∨ s.mach.barNode? b.level b.place b.num b.launch = none ∧
          n = { level := b.level, place := b.place, num := b.num, launch := b.launch, count := b.count }) ∧
        n.units.length + n.remote.length + 1 < b.count)
      fun s t => MemoryKept s t ∧ t.mach.barMsgs = s.mach.barMsgs.erase b ∧
        t.mach.barNode? b.level b.place b.num b.launch = some { n with units := n.units ++ [(b.unit, b.ph)] }) ∧
    (∀ (b : BarMsg) (n : BarNode), StepsTo .barrierArrivalNode
      (fun s => s.mach.nextArrival s.sys = some b ∧ b.level < 4 ∧ n.count = b.count ∧
        (s.mach.barNode? b.level b.place b.num b.launch = some n ∨ s.mach.barNode? b.level b.place b.num b.launch = none ∧
          n = { level := b.level, place := b.place, num := b.num, launch := b.launch, count := b.count }) ∧
        b.count ≤ n.units.length + n.remote.length + 1)
      fun s t => (b.level < 3 → MemoryKept s t) ∧ t.mach.barMsgs = s.mach.barMsgs.erase b ∧
        t.mach.barNode? b.level b.place b.num b.launch = none ∧
        ∀ T ∈ s.mach.threads, s.mach.thr? T.id = some T → T.role = .plain →
          (∃ u ∈ n.units ++ [(b.unit, b.ph)], unitKey T.wave T.homeQ b.level = u.1) → ∀ x,
          T.bar? b.level b.num = some x → x.forwarded = true →
          ∃ y, (t.mach.thr T.id).bar? b.level b.num = some y ∧ y.node = 1) ∧
    (∀ (b : BarMsg) (n : BarNode), StepsTo .barrierArrivalNode
      (fun s => s.mach.nextArrival s.sys = some b ∧ b.level < 4 ∧ s.mach.barNode? b.level b.place b.num b.launch = some n ∧
        n.count ≠ b.count)
      fun s t => MemoryKept s t ∧ t.mach.barMsgs = s.mach.barMsgs.erase b ∧ t.mach.bars = s.mach.bars ∧
        ∀ T ∈ s.mach.threads, s.mach.thr? T.id = some T → T.role = .plain → unitKey T.wave T.homeQ b.level = b.unit → ∀ x,
          T.bar? b.level b.num = some x → x.forwarded = true →
          ∃ y, (t.mach.thr T.id).bar? b.level b.num = some y ∧ y.node = 2) ∧
    (∀ (b : BarMsg), StepsTo .barrierArrivalNode
      (fun s => s.mach.nextArrival s.sys = some b ∧ b.level = 4 ∧ b.root ≠ s.sys.devid)
      fun s t => MemoryKept s t ∧ t.mach.barMsgs = s.mach.barMsgs.filter (fun x => !b.joins x) ∧
        ∃ ph, t.mach.out = s.mach.out ++
          [⟨s.sys.devid, b.root, 0, 0, .barArrive b.num b.count (s.mach.barMsgs.filter b.joins).length ph⟩]) ∧
    (∀ tid, StepsTo (.barrierRelease tid) (fun s => (s.mach.thr? tid).isSome ∧ s.mach.savedLaunch (s.mach.thr tid).launch = false)
      fun s t => MemoryKept s t ∧ RegistersKept s t ∧ (∀ k, k ≠ tid → t.mach.thr? k = s.mach.thr? k) ∧
      (t.mach.thr tid).bars = (s.mach.thr tid).bars.map fun b =>
        if b.node = 1 then { b with phase := .released, node := 0, forwarded := false }
        else if b.node = 2 then { b with phase := .refused, node := 0, forwarded := false } else b) ∧
    ∀ tid, Steps (.barrierRelease tid) (fun s => s.mach.savedLaunch (s.mach.thr tid).launch = true) fun s => s)

/-- spec/06 R182, R183: a waiting entry is written at TAIL when the queue has room, TAIL moves on and the domain's route entry fires; a
full queue stays as it is.
spec/06 R182, R187, R194, spec/19 R436: a store of the header with a new HEAD that serves one entry answers its record; as the cycle
ends the record is freed, and its thread resumes on RESP 0 and takes the cause of the entry on RESP 1; an INVSEQ that changed begins an invalidation, which drops the translations, pointers and copies
that it names; it is done, with INVACK, when the accesses through them have performed, and not before. -/
def Obligations.FaultQueues : Prop :=
  (
    ∀ fd (d : FaultDom) (p p' : FaultPost), StepsTo (.faultEntryPost fd)
      (fun s => s.mach.dom? fd = some d ∧ d.used = true ∧ s.mach.posts.find? (fun p => p.fdom == fd && p.seq.isNone) = some p ∧
        s.mach.fresh p = some p' ∧ s.mach.eccDouble = [] ∧ s.mach.mem.wf = true ∧ d.log2 ≤ 32 ∧
        (∀ x, d.base ≤ x → x < d.base + 64 + 32 * 2 ^ d.log2 → s.mach.mapped x = false) ∧ (s.mach.num d.base 4 + 2 ^ 32 - d.accepted) % 2 ^ 32 < 2 ^ d.log2)
      fun s t =>
        let tail := s.mach.num d.base 4
        let at_ := d.base + 64 + 32 * (tail % 2 ^ d.log2)
        t.mach.num d.base 4 = (tail + 1) % 2 ^ 32 ∧ t.mach.num at_ 8 = p'.va % 2 ^ 64 ∧ t.mach.num (at_ + 8) 8 = p'.rcb % 2 ^ 64 ∧
        t.mach.num (at_ + 16) 4 = tail ∧ t.mach.num (at_ + 20) 2 = p'.core % 2 ^ 16 ∧
        bits (t.mach.num (at_ + 22) 1) 0 7 = p'.cause % 2 ^ 7 ∧ t.mach.num (at_ + 24) 1 = p'.nthr % 256 ∧
        (∀ a, (a < d.base ∨ d.base + 4 ≤ a) → (a < at_ ∨ at_ + 32 ≤ a) → t.mach.mem.read a = s.mach.mem.read a) ∧
        t.sys.irq = s.sys.irq.deliver fd ∧ t.mach.threads = s.mach.threads) ∧
  (∀ fd (d : FaultDom) (p p' : FaultPost), Steps (.faultEntryPost fd)
    (fun s => s.mach.dom? fd = some d ∧ d.used = true ∧ s.mach.posts.find? (fun p => p.fdom == fd && p.seq.isNone) = some p ∧
      s.mach.fresh p = some p' ∧ s.mach.eccDouble = [] ∧ 2 ^ d.log2 ≤ (s.mach.num d.base 4 + 2 ^ 32 - d.accepted) % 2 ^ 32) fun s => s) ∧
  (
    (∀ fd (d : FaultDom) (r : SumpRec) (seq cmd head : Nat), StepsTo (.faultQueueHeaderStore fd)
      (fun s => s.mach.dom? fd = some d ∧ d.seen = [(seq, cmd, head)] ∧ seq = d.invSeen ∧ d.used = true ∧
        head = (d.accepted + 1) % 2 ^ 32 ∧ d.accepted < 2 ^ 32 ∧ s.mach.num d.base 4 = head ∧ d.fdom = fd ∧
        (let e := s.mach.num (d.base + 64 + 32 * (d.accepted % 2 ^ d.log2)) 32
         s.mach.sump.find? (fun r => r.fdom == fd && r.core == bits e 160 16 && r.seq == some (bits e 128 32) && !r.lock &&
           r.answer.isNone) = some r))
      fun s t => MemoryKept s t ∧ (∃ d', t.mach.dom? fd = some d' ∧ d'.accepted = head ∧ d'.seen = []) ∧
        t.mach.threads = s.mach.threads ∧ t.mach.sump = s.mach.sump.filter (fun u => u.id != r.id) ++
          [let e := s.mach.num (d.base + 64 + 32 * (d.accepted % 2 ^ d.log2)) 32
           { r with answer := some (if bits e 200 1 = 0 then none
               else if 0x20 ≤ bits e 208 7 ∧ bits e 208 7 < 0x40 then some (bits e 208 7) else some 0x22) }]) ∧
    (∀ (s : State) n rest, s.mach.latch = [] → s.agenda = .tick n :: rest →
      step s = .next ({ s with agenda := rest, mach := s.mach.resumeServed.tick s.sys n } : State).settle) ∧
    (∀ (m : Mach) (r : SumpRec) (T : Thread) (ans : Option Nat),
      m.sump.filter (fun u => u.answer.isSome) = [r] → r.answer = some ans → ans ≠ some 0x28 →
      r.threads = [T.id] → m.thr? T.id = some T → T.isHandler = false → T.stat ≠ .ended → (m.launch T.launch).ending = none →
      (m.heldHandlers r.core).all (fun k => !r.threads.contains k) = true →
      let u := m.resumeServed
      (∀ a, u.mem.read a = m.mem.read a) ∧ (∀ k, (u.thr k).regs = (m.thr k).regs) ∧ (∀ x ∈ u.sump, x.id ≠ r.id) ∧
      (∀ c ∈ u.copies, c.core ≠ r.core) ∧ (u.thr T.id).pc = T.pc ∧
      match ans with
      | none => u.traps = m.traps ∧ ∃ f ∈ u.filing, f.tid = T.id ∧ f.pc = T.pc
      | some c => ∃ g ∈ u.traps, g.cause = c ∧ g.pc = T.pc ∧ g.hdr = T.hdr ∧ g.members.map (fun p => p.2.1) = [T.id] ∧
          (u.thr T.id).stat = .trapping g.id) ∧
    (∀ fd (d : FaultDom) (seq cmd head : Nat), StepsTo (.faultQueueHeaderStore fd)
      (fun s => s.mach.dom? fd = some d ∧ d.fdom = fd ∧ d.seen = [(seq, cmd, head)] ∧ seq ≠ d.invSeen ∧ head = d.accepted ∧
        d.accepted < 2 ^ 32)
      fun s t => MemoryKept s t ∧ (∃ d', t.mach.dom? fd = some d' ∧ d'.inv = some (seq, cmd) ∧ d'.invSeen = seq) ∧
        t.mach.tlbs = s.mach.tlbs.filter (fun x => !(x.fdom == fd && (tbit cmd 63 || bits cmd 0 16 != 0 &&
          overlap (x.page * 2 ^ x.shift) (2 ^ x.shift) (bits cmd 16 41 * 2 ^ 16) (bits cmd 0 16 * 2 ^ 16)))) ∧
        (∀ w ∈ t.mach.walks, w.named fd cmd = false) ∧ (∀ c ∈ t.mach.copies, c.fdom = fd → invNames cmd (c.line * 64) = false) ∧
        ∀ c ∈ t.mach.ilines, c.2.1 = fd → invNames cmd (c.2.2 * 64) = false) ∧
    (∀ fd (d : FaultDom), Steps (.invalidationDone fd)
      (fun s => s.mach.dom? fd = some d ∧ s.mach.awaits d.waits = true) fun s => s) ∧
    ∀ fd (d : FaultDom) (seq cmd : Nat), StepsTo (.invalidationDone fd)
      (fun s => s.mach.dom? fd = some d ∧ d.fdom = fd ∧ d.inv = some (seq, cmd) ∧ s.mach.awaits d.waits = false ∧ s.mach.mem.wf = true ∧
        s.mach.mapped (d.base + 28) = false)
      fun s t => t.mach.num (d.base + 28) 4 = seq % 2 ^ 32 ∧
        (∀ a, a < d.base + 28 ∨ d.base + 32 ≤ a → t.mach.mem.read a = s.mach.mem.read a) ∧
        ∃ d', t.mach.dom? fd = some d' ∧ d'.inv = none)

/-! ### Launches, engines and system calls -/

/-- spec/03 R95-R98, R105-R108, spec/04 R114-R117: a post appends the staged record, or sets FULL; a record of no valid region is
rejected with status 2, a malformed one with status 1; an accepted one becomes a launch whose waves wait; a wave enters a core
with its threads; a launch retires with its completion record, its counter and its interrupt; LP_KILL ends it with status 8, its threads
at once, or inside a clause at its end, and those that a handler inside a clause serves with it. -/
def Obligations.LaunchesRun : Prop :=
  (∀ p, StepsTo (.lpPost p) (fun s => p < s.mach.lports.length ∧ (s.mach.lport p).queue.length < 32) fun s t =>
    MemoryKept s t ∧ t.mach.threads = s.mach.threads ∧ t.mach.lport p = { s.mach.lport p with
      queue := (s.mach.lport p).queue ++ [(s.mach.lport p).staged], posted := ((s.mach.lport p).posted + 1) % 2 ^ 32 } ∧
    ∀ k, k ≠ p → t.mach.lport k = s.mach.lport k) ∧
  (∀ p, Steps (.lpPost p) (fun s => 32 ≤ (s.mach.lport p).queue.length) fun s =>
    s.withMach (s.mach.setLport p { s.mach.lport p with full := true })) ∧
  (∀ p, Steps (.lpStsFullClear p) (fun _ => True) fun s => s.withMach (s.mach.setLport p { s.mach.lport p with full := false })) ∧
  (∀ p tag (l : Launch), StepsTo (.lpKill p tag)
    (fun s => s.mach.launches = [l] ∧ l.port = p ∧ l.tag = tag ∧ l.ending = none ∧ l.retired = false ∧ s.mach.allExited l.id = false)
    fun s t => MemoryKept s t ∧ (∃ u, t.mach.launches = [u] ∧ u.ending = some (8, 0)) ∧
      let on (k : Nat) : Prop := ∃ q ∈ s.mach.quarters, q.hdr.isSome ∧ q.wait.all Wait.goesOn = true ∧ k ∈ q.tids
      ∀ T ∈ t.mach.threads, T.launch = l.id → T.stat = .ended ∨ on T.id ∨
        ∃ g ∈ s.mach.traps, T.id ∈ g.members.map (fun p => p.2.1) ∧ ∃ k ∈ g.handlers, on k) ∧
  (∀ p tag, Steps (.lpKill p tag)
    (fun s => s.mach.preempts = [] ∧ ∀ l ∈ s.mach.launches, l.port ≠ p ∨ l.tag ≠ tag) fun s => s) ∧
  (∀ p (r : List Byte) rest, StepsTo (.launchAccept p)
    (fun s => p < s.mach.lports.length ∧ (s.mach.lport p).queue = r :: rest ∧ (s.mach.lport p).fault = none ∧
      s.mach.region (bits (ofBytes r) 0 64) = none)
    fun s t => MemoryKept s t ∧ t.mach.waves = s.mach.waves ∧ (t.mach.lport p).queue = rest ∧
      ∃ l, t.mach.launches = s.mach.launches ++ [l] ∧ l.port = p ∧ l.tag = BitVec.ofNat 64 (bits (ofBytes r) 320 64) ∧
        l.ending = some (if recBad (ofBytes r) = true then 1 else 2, 0)) ∧
  (∀ p (r : List Byte) rest a (e : Eff) up kh, StepsTo (.launchAccept p)
    (fun s =>
      let n := ofBytes r
      p < s.mach.lports.length ∧ (s.mach.lport p).queue = r :: rest ∧ (s.mach.lport p).fault = none ∧ (s.mach.lport p).answer = none ∧
      s.mach.region (bits n 0 64) = some ((a, e) :: up) ∧ targetRuns s.sys e.groves = true ∧ s.mach.armed e n = true ∧
      lpVerdict s.sys s.mach p (some ((a, e) :: up)) n none = .accept kh ∧ bits n 512 64 = 0 ∧
      hintsAsk (hintBytes s.sys s.mach (launchOf s.mach p n kh ((a, e) :: up) none)) = none ∧
      ∀ l ∈ s.mach.launches, l.id ≠ s.mach.next)
    fun s t =>
      let n := ofBytes r
      MemoryKept s t ∧ t.mach.threads = s.mach.threads ∧ (t.mach.lport p).queue = rest ∧
      ∃ l ws, t.mach.launches = s.mach.launches ++ [l] ∧ t.mach.waves = s.mach.waves ++ ws ∧ l.ending = none ∧ l.retired = false ∧
        l.tag = BitVec.ofNat 64 (bits n 320 64) ∧ l.eff = e ∧ l.regs = bits kh 40 6 ∧ l.entry = bits n 64 64 + bits kh 64 32 ∧
        l.nwaves = bits n 384 32 ∧ ws.length = l.nwaves ∧
        ∀ i w, ws[i]? = some w → w.launch = l.id ∧ w.number = i ∧ w.core = none ∧ w.baseTid = i * (8 * (l.qpw + 1)) ∧
          w.live = 8 * (l.qpw + 1) ∧ w.entry.toNat = l.entry % 2 ^ 57 ∧ w.arg = BitVec.ofNat 64 (bits n 128 64)) ∧
  (∀ (l : Launch) loc, StepsTo (.launchRetire l.id)
    (fun s => s.mach.launches = [l] ∧ l.retired = false ∧ l.ending = none ∧ s.mach.allExited l.id = true ∧ l.profva = 0 ∧
      cplDo s.sys s.mach l = .write loc ∧ s.mach.mapped loc = false ∧ s.mach.mapped (loc + 8) = false ∧ s.mach.mem.wf = true ∧ l.port < s.mach.lports.length ∧ l.donectr ≠ 0xFFFF ∧
      ∃ b ∈ s.mach.bound, b.1 = l.rcb)
    fun s t => Stored s t loc (List.replicate 8 0 ++ toBytes l.tag.toNat 8) ∧
      (t.mach.lport l.port).retired = ((s.mach.lport l.port).retired + 1) % 2 ^ 32 ∧
      (t.mach.ctr l.rcb l.donectr).val = ((s.mach.ctr l.rcb l.donectr).val + 1) % 2 ^ 32 ∧
      t.sys.irq = s.sys.irq.deliver (176 + l.port) ∧ (∀ u ∈ t.mach.launches, u.retired = true) ∧
      ∀ T ∈ t.mach.threads, T.launch ≠ l.id) ∧
  ∀ core (w : Wave) base, StepsTo (.waveDispatch core)
    (fun s => s.mach.choose s.sys core = some w ∧ s.mach.wave? w.id = some w ∧ scrFit (s.mach.scrHeld core) w.scrBytes = some base ∧
      s.mach.dispatchAt = [] ∧ (s.mach.launch w.launch).ending = none ∧ 1 ≤ w.regs ∧
      ∀ T ∈ s.mach.threads, T.id < s.mach.next)
    fun s t => MemoryKept s t ∧ (∃ w', t.mach.wave? w.id = some w' ∧ w'.core = some core ∧ w'.scrBase = base) ∧
      t.mach.threads.length = s.mach.threads.length + 8 * (w.qpw + 1) ∧
      ∀ i, i < 8 * (w.qpw + 1) → ∃ T ∈ t.mach.threads, T.tid = w.baseTid + i ∧ T.wave = w.id ∧ T.core = core ∧ T.pc = w.entry ∧
        T.homeQ = i / 8 ∧ T.regs.take 2 = [w.arg.setWidth 32, (w.arg >>> 32).setWidth 32] ∧ T.regs.length = 8 * w.regs ∧
        (∀ k, 4 ≤ k → T.regs.getD k 0 = 0) ∧ T.flags = List.replicate 12 0 ∧ T.rets = [] ∧ T.pend = []

/-- spec/04 R134-R143: a request marks a region with a save area, another is ignored; a launch of it takes a lane of the quiescence
tree and is drained once its AND has been true for 96 cycles; a sweep token collects the other devices' results; a dispatcher
asks for the region of lowest priority, the latest accepted between equals; a drained region leaves its cores, is restored where its
cores have room for it, and then runs on. -/
def Obligations.RegionsPreempted : Prop :=
  (∀ (v : DWord) (l : Launch) ls, StepsTo (.preemptWrite v)
    (fun s => v.toNat % 128 = 0 ∧ s.mach.regionLaunches v.toNat = l :: ls ∧ l.eff.saveva ≠ 0 ∧ s.mach.preempt? v.toNat = none)
    fun s t => t.mach.threads = s.mach.threads ∧ t.mach.quarters = s.mach.quarters ∧ ∃ p, t.mach.preempt? v.toNat = some p ∧
      p.stage = 1 ∧ p.reason = 2 ∧ p.since = s.mach.cycle ∧ p.drained = []) ∧
  (∀ (v : DWord), Steps (.preemptWrite v)
    (fun s => v.toNat % 128 ≠ 0 ∨ (∀ l ∈ s.mach.regionLaunches v.toNat, l.eff.saveva = 0) ∨ s.mach.preempt? v.toNat ≠ none)
    fun s => s) ∧
  (∀ (l : Launch) (p : Preempt),
    let asked (s : State) : Prop := s.mach.launch? l.id = some l ∧ l.retired = false ∧ l.ending = none ∧
      s.mach.preempt? l.rcb = some p ∧ p.stage = 1 ∧ l.id ∉ p.drained
    Steps (.quiescenceDrainDetect l.id) (fun s => asked s ∧ s.mach.lane? l.id = none ∧ s.mach.lanes.length < 4)
      (fun s => s.withMach { s.mach with lanes := s.mach.lanes ++ [{ launch := l.id }] }) ∧
    ∀ (x : Lane) c, Steps (.quiescenceDrainDetect l.id)
      (fun s => asked s ∧ s.mach.lane? l.id = some x ∧ x.launch = l.id ∧ x.since = some c ∧ c + 96 ≤ s.mach.cycle ∧
        s.mach.idle s.sys l.id = true ∧ l.dombar = 0 ∧ p.rcb = l.rcb)
      (fun s => s.withMach { s.mach with
        lanes := s.mach.lanes.filter fun y => y.launch != l.id
        preempts := { p with drained := p.drained ++ [l.id] } :: s.mach.preempts.filter fun u => u.rcb != l.rcb })) ∧
  (∀ l n num all d r, Steps (.drainSweepToken l) (fun s => s.sys.tokenAt = some (n, num, all, d :: r))
    fun s => s.withBoth (s.sys.inDrop n 0) { s.mach with
      out := s.mach.out ++ [⟨s.sys.devid, d, 0, 0, .drainToken num (all && s.mach.drainedHere s.sys num) r⟩] }) ∧
  (∀ l num d r (x : Lane), StepsTo (.drainSweepToken l)
    (fun s => s.sys.tokenAt = none ∧ s.mach.lane? l = some x ∧ x.sweep = false ∧ s.mach.laneTrue s.sys x = true ∧
      s.mach.sweepOf s.sys l = some (num, d :: r))
    fun s t => MemoryKept s t ∧ (∃ y, t.mach.lane? l = some y ∧ y.sweep = true) ∧
      t.mach.out = s.mach.out ++ [⟨s.sys.devid, d, 0, 0, .drainToken num true (r ++ [s.sys.devid])⟩]) ∧
  (∀ g (w : Wave) (v l : Launch) ls, StepsTo (.dispatchPreemptRequest g)
    (fun s =>
      let P := (s.mach.launch w.launch).eff
      s.mach.topWaiting g = some w ∧ w.since + 16384 ≤ s.mach.cycle ∧ s.mach.roomSome s.sys w = false ∧
      (∀ p ∈ s.mach.preempts, p.reason ≠ 1 ∨ p.stage ≠ 1) ∧ v ∈ s.mach.live ∧ v.eff.prio < P.prio ∧ s.mach.holdsIn v P.groves = true ∧
      (∀ u ∈ s.mach.live, u.order < s.mach.next ∧ (u ≠ v → u.eff.prio < P.prio → s.mach.holdsIn u P.groves = true →
        v.eff.prio < u.eff.prio ∨ (v.eff.prio = u.eff.prio ∧ u.order < v.order))) ∧
      s.mach.regionLaunches v.rcb = l :: ls ∧ l.eff.saveva ≠ 0 ∧ s.mach.preempt? v.rcb = none)
    fun s t => t.mach.threads = s.mach.threads ∧ ∃ p, t.mach.preempt? v.rcb = some p ∧ p.reason = 1 ∧ p.stage = 1 ∧
      p.since = s.mach.cycle) ∧
  (∀ rcb (p : Preempt), StepsTo (.preemptSave rcb)
    (fun s => s.mach.preempt? rcb = some p ∧ p.rcb = rcb ∧ p.stage = 1 ∧ s.mach.regionLaunches rcb ≠ [] ∧
      (∀ l ∈ s.mach.regionLaunches rcb, l.id ∈ p.drained) ∧
      ∀ q ∈ s.mach.quarters, (∃ u ∈ s.mach.regionLaunches rcb, u.id = q.launch) → ∀ x, q.wait ≠ some (.tile x) ∧ q.wait ≠ some (.mmaj x))
    fun s t =>
      let mine (l : Nat) : Prop := ∃ u ∈ s.mach.regionLaunches rcb, u.id = l
      t.mach.threads = s.mach.threads ∧
      (∀ k q, s.mach.quarter? k = some q → mine q.launch → ∃ q', t.mach.quarter? k = some q' ∧ q'.slice = none ∧ q'.pc = q.pc ∧
        q'.hdr = q.hdr ∧ q'.slots = q.slots) ∧
      (∀ o ∈ t.mach.engines, ¬ mine o.launch) ∧ (∀ r ∈ t.mach.rings, ¬ mine r.launch) ∧
      ∃ p', t.mach.preempt? rcb = some p' ∧ p'.stage = 2 ∧ p'.savedAt = s.mach.cycle ∧
        (∀ r, r ∈ p'.rings ↔ r ∈ s.mach.rings ∧ mine r.launch) ∧
        (∀ b, b ∈ p'.bars ↔ b ∈ s.mach.bars ∧ b.level ≤ 3 ∧ mine b.launch) ∧
        (∀ x, x ∈ p'.tiles ↔ x ∈ s.mach.tiles ∧ ∃ l, x.holder = some l ∧ mine l) ∧
        ∀ o, o ∈ s.mach.engines → mine o.launch → { o with fault := none, answer := none } ∈ p'.engines) ∧
  (∀ rcb (p : Preempt) ps, StepsTo (.regionResume rcb)
    (fun s => s.mach.preempt? rcb = some p ∧ p.rcb = rcb ∧ p.stage = 2 ∧ s.mach.roomBack p = true ∧ s.mach.outranked p = false ∧
      scrPlaces s.mach (s.mach.scrItems rcb) [] = some ps)
    fun s t => RegistersKept s t ∧ t.mach.rings = p.rings ++ s.mach.rings ∧ t.mach.bars = s.mach.bars ++ p.bars ∧
      t.mach.engines = s.mach.engines ++ p.engines ∧ (∀ x ∈ p.tiles, x ∈ t.mach.tiles) ∧
      ∃ p', t.mach.preempt? rcb = some p' ∧ p'.stage = 3) ∧
  ∀ rcb (p : Preempt), StepsTo (.regionResume rcb)
    (fun s => s.mach.preempt? rcb = some p ∧ p.rcb = rcb ∧ p.stage = 3 ∧ p.sump = [] ∧ p.again = false ∧
      ∀ q ∈ s.mach.sysqs, q.kept = [])
    fun s t => RegistersKept s t ∧ t.mach.quarters = s.mach.quarters ∧ t.mach.preempt? rcb = none

/-- spec/17 R408-R410, R419-R422: a copy moves 64 bytes in a step, or first asks another device or the host to write them, and retires with the last, incrementing its counter; a stream
operation reads its layout record and joins its ring; a fill takes the next empty slot, copies the element stream into it, and
marks it full; a drain takes the next full slot and copies it out. -/
def Obligations.CopiesAndStreamsStep : Prop :=
  (∀ (e : EngOp) ds ss dst src len ctr (a b : ELoc),
    let ok (s : State) : Prop := Sound s ∧ NearStep s e ∧ s.mach.copyHead e.core = some e ∧ s.mach.engine? e.id = some e ∧
      e.kind = .cpy ds ss dst src len ctr ∧ e.fault = none ∧ e.nums = [] ∧ 0 < e.i ∧ s.mach.mapped a.1 = false ∧
      s.mach.mapped b.1 = false ∧
      s.mach.cpyEnd s.sys e ss (src + 64 * e.i) .r = .ok a ∧ s.mach.cpyEnd s.sys e ds (dst + 64 * e.i) .w = .ok b
    StepsTo (.engineStep e.core 0) (fun s => ok s ∧ s.mach.away b.1 = true)
      (fun s t => MemoryKept s t ∧ t.mach.engine? e.id = some e ∧ t.mach.threads = s.mach.threads ∧
        (∃ r ∈ t.mach.reqs, r.who = .engine e.id ∧ r.loc = b.1 ∧ r.write = true) ∧
        if isRem b.1 then ∃ n, t.mach.out.getLast? = some
          ⟨s.sys.devid, remDev b.1, 2, n, .bulkReq s.mach.next (remOff b.1) 64 true (s.mach.bytes a.1 64)⟩
        else t.mach.out = s.mach.out) ∧
    StepsTo (.engineStep e.core 0) (fun s => ok s ∧ s.mach.away b.1 = false ∧ 64 * (e.i + 1) < len)
      (fun s t => Stored s t b.1 (s.mach.bytes a.1 64) ∧ t.mach.engine? e.id = some { e with i := e.i + 1 } ∧
        t.mach.threads = s.mach.threads) ∧
    StepsTo (.engineStep e.core 0) (fun s => ok s ∧ s.mach.away b.1 = false ∧ len ≤ 64 * (e.i + 1))
      (fun s t => Stored s t b.1 (s.mach.bytes a.1 64) ∧ EngineRetires s t e ctr)) ∧
  (∀ (e : EngOp) k va n (l : ELoc), StepsTo (.engineStep e.core (2 + k))
    (fun s => Sound s ∧ NearStep s e ∧ s.mach.streamHead e.core k = some e ∧ s.mach.engine? e.id = some e ∧ e.kind = .stream k va ∧
      e.stage = 0 ∧ e.fault = none ∧ va % 64 = 0 ∧ s.mach.engAcc s.sys e va .r = .ok l ∧ s.mach.mapped l.1 = false ∧ n = s.mach.num l.1 64 ∧
      tRecBad n = false ∧ s.mach.ring? e.core (tRec n).ring = none ∧
      64 * (tRec n).slotoff + (tRec n).nslot * (64 * (tRec n).slotb) ≤ e.scrLen)
    fun s t => MemoryKept s t ∧ ∃ g, t.mach.ring? e.core (tRec n).ring = some g ∧ g.launch = e.launch ∧ g.owner = e.wave ∧
      g.slots = List.replicate (tRec n).nslot {} ∧ g.slotBytes = 64 * (tRec n).slotb ∧ g.slotOff = 64 * (tRec n).slotoff ∧
      g.prods = [(tRec n).prodnum] ∧ g.marks = [] ∧ g.closed = false ∧
      ∃ e', t.mach.engine? e.id = some e' ∧ e'.stage = 1 ∧ e'.i = 0 ∧ e'.layout = tRec n) ∧
  (∀ (e : EngOp) k va (g : Ring), StepsTo (.streamFillStep e.core k)
    (fun s => NearStep s e ∧ s.mach.streamHead e.core k = some e ∧ s.mach.engine? e.id = some e ∧ e.kind = .stream k va ∧ e.stage = 1 ∧
      e.fault = none ∧ e.layout.drain = false ∧ s.mach.ring? e.core e.layout.ring = some g ∧ nth e.nums 1 = 0 ∧
      s.mach.fillTurn e g = true ∧ g.core = e.core ∧ g.num = e.layout.ring ∧ g.fillAt < g.slots.length)
    fun s t => MemoryKept s t ∧ ∃ g' e', t.mach.ring? e.core e.layout.ring = some g' ∧ (g'.slot g.fillAt).st = .held 0 ∧
      (∀ j, j ≠ g.fillAt → g'.slot j = g.slot j) ∧ g'.fillAt = (g.fillAt + 1) % g.slots.length ∧
      t.mach.engine? e.id = some e' ∧ nth e'.nums 1 = g.fillAt + 1) ∧
  (∀ (e : EngOp) k va (g : Ring) i (ls : List ELoc), StepsTo (.streamFillStep e.core k)
    (fun s => Sound s ∧ NearStep s e ∧ s.mach.streamHead e.core k = some e ∧ s.mach.engine? e.id = some e ∧ e.kind = .stream k va ∧
      e.stage = 1 ∧ e.fault = none ∧ e.layout.drain = false ∧ s.mach.ring? e.core e.layout.ring = some g ∧ nth e.nums 1 = i + 1 ∧
      e.nums.length = 3 ∧ g.core = e.core ∧ g.num = e.layout.ring ∧ i < g.slots.length ∧ 1 ≤ e.layout.slotb ∧
      64 * (e.i + 1) ≤ e.layout.total ∧
      s.mach.engAll s.sys e ((e.layout.stepBytes (64 * e.i)).map fun p => (p.2, Need.r)) = .ok ls ∧ ∀ l ∈ ls, s.mach.mapped l.1 = false)
    fun s t =>
      Stored s t (s.mach.slotLoc g i + 64 * (e.i % e.layout.slotb)) (ls.map fun l => s.mach.mem.read l.1) ∧
      ∃ g', t.mach.ring? e.core e.layout.ring = some g' ∧
        (e.i % e.layout.slotb + 1 < e.layout.slotb → g' = g ∧ t.mach.engine? e.id = some { e with i := e.i + 1 }) ∧
        (e.i % e.layout.slotb + 1 = e.layout.slotb → (g'.slot i).st = .full ∧ (g'.slot i).prod = e.layout.prodnum ∧
          (g'.slot i).last = decide (e.layout.total ≤ 64 * (e.i + 1)) ∧
          ((g'.slot i).last = true → t.mach.engine? e.id = none ∧ g'.marks = g.marks ++ [e.layout.prodnum]))) ∧
  (∀ (e : EngOp) k va (g : Ring), StepsTo (.streamDrainStep e.core k)
    (fun s => NearStep s e ∧ s.mach.streamHead e.core k = some e ∧ s.mach.engine? e.id = some e ∧ e.kind = .stream k va ∧ e.stage = 1 ∧
      e.fault = none ∧ e.layout.drain = true ∧ s.mach.ring? e.core e.layout.ring = some g ∧ nth e.nums 1 = 0 ∧
      (g.slot g.takeAt).st = .full ∧ g.core = e.core ∧ g.num = e.layout.ring ∧ g.takeAt < g.slots.length)
    fun s t => MemoryKept s t ∧ ∃ g' e', t.mach.ring? e.core e.layout.ring = some g' ∧ (g'.slot g.takeAt).st = .held 0 ∧
      (∀ j, j ≠ g.takeAt → g'.slot j = g.slot j) ∧ g'.takeAt = (g.takeAt + 1) % g.slots.length ∧
      t.mach.engine? e.id = some e' ∧ nth e'.nums 1 = g.takeAt + 1) ∧
  ∀ (e : EngOp) k va (g : Ring) i (ls : List ELoc), StepsTo (.streamDrainStep e.core k)
    (fun s => Sound s ∧ NearStep s e ∧ s.mach.streamHead e.core k = some e ∧ s.mach.engine? e.id = some e ∧ e.kind = .stream k va ∧
      e.stage = 1 ∧ e.fault = none ∧ e.layout.drain = true ∧ s.mach.ring? e.core e.layout.ring = some g ∧ nth e.nums 1 = i + 1 ∧
      e.i % e.layout.slotb + 1 < e.layout.slotb ∧
      s.mach.engAll s.sys e ((e.layout.stepBytes (64 * e.i)).map fun p => (p.2, Need.w)) = .ok ls ∧
      (∀ l ∈ ls, s.mach.away l.1 = false ∧ s.mach.mapped l.1 = false) ∧ (ls.map fun l => l.1).Nodup)
    fun s t => (∀ j l, ls[j]? = some l →
        t.mach.mem.read l.1 = s.mach.mem.read (s.mach.slotLoc g i + 64 * (e.i % e.layout.slotb) + j)) ∧
      (∀ a, (∀ l ∈ ls, l.1 ≠ a) → t.mach.mem.read a = s.mach.mem.read a) ∧
      t.mach.rings = s.mach.rings ∧ t.mach.engine? e.id = some { e with i := e.i + 1 }

/-- spec/16 R394-R396, R400-R405, spec/21 R441-R444: a macro-op whose descriptor is malformed fails with 0x65; a well-formed one
reserves its staging range; a K-block reads one row or scale a step, and adds to its tile with the last; an `mmx` retires when
its tiles are drained; a boundary of an `mmr` begins a row tile of an armed
group, and an idle one comes every 64 cycles; four partners of a joint product complete together, fewer fail after 4,096
cycles with 0x68. -/
def Obligations.MatrixSequencersStep : Prop :=
  (∀ (e : EngOp) mmr va (a b : ELoc),
    let ok (s : State) : Prop := Sound s ∧ NearStep s e ∧ s.mach.mopHead e.core = some e ∧ s.mach.engine? e.id = some e ∧ e.kind = .mop mmr va ∧
      e.stage = 0 ∧ e.fault = none ∧ e.nums = [] ∧ (∀ p ∈ s.mach.preempts, p.rcb ≠ e.rcb) ∧ va % 128 = 0 ∧
      s.mach.engAll s.sys e [(va, .r), (va + 64, .r)] = .ok [a, b] ∧ s.mach.mapped a.1 = false ∧ s.mach.mapped b.1 = false ∧
      s.mach.tileWaits e.core = []
    let n (s : State) : Nat := ofBytes (s.mach.bytes a.1 64 ++ s.mach.bytes b.1 64)
    StepsTo (.macroOpStep e.core) (fun s => ok s ∧ mopBad s.mach e mmr (n s) (mopDesc (n s)) = true)
      (fun s t => MemoryKept s t ∧ EngineFails s t e 0x65 va) ∧
    StepsTo (.macroOpStep e.core) (fun s => ok s ∧ mopBad s.mach e mmr (n s) (mopDesc (n s)) = false)
      (fun s t =>
        let lo := scrLoc e.core (e.scrBase + (mopDesc (n s)).scr)
        (∀ x, x < lo ∨ lo + 5120 ≤ x → t.mach.mem.read x = s.mach.mem.read x) ∧ t.mach.threads = s.mach.threads ∧
        t.mach.tiles = s.mach.tiles ∧ (∃ r ∈ t.mach.ranges, r.op = e.id ∧ r.lo = lo ∧ r.len = 5120 ∧ r.scratch = true) ∧
        ∃ e', t.mach.engine? e.id = some e' ∧ e'.stage = 1 ∧ e'.num 0 = n s ∧ e'.num iTile = 0 ∧ e'.num iKb = 0)) ∧
  (∀ (e : EngOp) va,
    let d := mopDesc (e.num 0)
    StepsTo (.macroOpStep e.core)
      (fun s => NearStep s e ∧ s.mach.mopHead e.core = some e ∧ s.mach.engine? e.id = some e ∧ e.kind = .mop false va ∧ e.stage = 1 ∧
        e.fault = none ∧ s.mach.mopTileBad e = false ∧ (∀ p ∈ s.mach.preempts, p.rcb ≠ e.rcb) ∧ d.mt * d.nt ≤ e.num iTile ∧ s.mach.tileWaits e.core = [])
      fun s t => MemoryKept s t ∧ EngineRetires s t e d.donectr) ∧
  (∀ (e : EngOp) va (l : ELoc) (p : Nat × Nat),
    let d := mopDesc (e.num 0)
    let v : MopView := { ava := d.ava, bva := d.bva, cva := d.cva, rows := 32, total := d.mt * d.nt }
    let rd (s : State) (k : Nat) : List (Nat × Nat) :=
      mopReads d v (s.mach.fslot e.launch d.slotA) (s.mach.fslot e.launch d.slotB) (mopTile d e k) (e.num iKb)
    let ok (s : State) : Prop := Sound s ∧ NearStep s e ∧ s.mach.mopHead e.core = some e ∧ s.mach.engine? e.id = some e ∧
      e.kind = .mop false va ∧ e.stage = 1 ∧ e.fault = none ∧ s.mach.mopTileBad e = false ∧ (∀ p ∈ s.mach.preempts, p.rcb ≠ e.rcb) ∧
      e.num iTile < d.mt * d.nt ∧ 0 < e.num iKb ∧ e.num iKb < d.kb ∧ s.mach.tileWaits e.core = [] ∧ s.mach.mapped l.1 = false ∧
      s.mach.engAcc s.sys e p.1 .r = .ok l
    StepsTo (.macroOpStep e.core)
      (fun s =>
        let flat := (List.range (mopCount d e)).flatMap (rd s)
        ok s ∧ flat[e.got.length]? = some p ∧ e.got.length + 1 < flat.length)
      (fun s t => MemoryKept s t ∧ t.mach.threads = s.mach.threads ∧
        (∀ c k, (t.mach.tile c k).words = (s.mach.tile c k).words ∧ (t.mach.tile c k).holder = (s.mach.tile c k).holder) ∧
        t.mach.engine? e.id = some { e with got := e.got ++ [s.mach.bytes l.1 p.2] }) ∧
    StepsTo (.macroOpStep e.core)
      (fun s => ok s ∧ mopCount d e = 1 ∧ 12 ≤ e.nums.length ∧ (rd s 0)[e.got.length]? = some p ∧ e.got.length + 1 = (rd s 0).length)
      fun s t => MemoryKept s t ∧ t.mach.threads = s.mach.threads ∧
        (t.mach.tile e.core d.acc0).holder = some e.launch ∧
        (t.mach.tile e.core d.acc0).words = (mopMul (s.mach.fslot e.launch d.slotA) (s.mach.fslot e.launch d.slotB) 32
          (s.mach.claim e.core d.acc0 e.launch) (e.got ++ [s.mach.bytes l.1 p.2])).words ∧
        ∃ e', t.mach.engine? e.id = some e' ∧ e'.num iKb = e.num iKb + 1 ∧ e'.got = []) ∧
  (∀ (e : EngOp) va (l : ELoc),
    let d := mopDesc (e.num 0)
    let n (s : State) : Nat := s.mach.num l.1 64
    StepsTo (.mmrStepBoundary e.core)
      (fun s => Sound s ∧ NearStep s e ∧ s.mach.mopHead e.core = some e ∧ s.mach.engine? e.id = some e ∧ e.kind = .mop true va ∧ e.stage = 1 ∧
        e.fault = none ∧ (∀ p ∈ s.mach.preempts, p.rcb ≠ e.rcb) ∧ e.num iDue = 1 ∧ e.num iRun = 0 ∧ e.num iSeen = 1 ∧
        e.num iDone = 0 ∧ 12 ≤ e.nums.length ∧ d.ng = 1 ∧ s.mach.mapped l.1 = false ∧ s.mach.mapped (l.1 + 33) = false ∧
        s.mach.away l.1 = false ∧ s.mach.away (l.1 + 33) = false ∧ s.mach.tileWaits e.core = [] ∧
        (∀ need, s.mach.engAcc s.sys e d.gtva need = .ok l) ∧ bits (n s) 224 16 = 0xFFFF ∧
        bits (n s) 272 16 < bits (n s) 192 16)
      fun s t => t.mach.num (l.1 + 33) 1 = 64 ∧
        (∀ x, x ≠ l.1 + 33 → t.mach.mem.read x = s.mach.mem.read x) ∧ t.mach.threads = s.mach.threads ∧
        ∃ e', t.mach.engine? e.id = some e' ∧ e'.num iRun = 1 ∧ e'.num iGrp = 0 ∧ e'.num iRow = bits (n s) 272 16 ∧
          e'.num iEnd = min (bits (n s) 272 16 + 32) (bits (n s) 192 16) ∧ e'.num iDue = 0) ∧
  (∀ (e : EngOp) va, Steps (.mmrIdleCheck e.core)
    (fun s => s.mach.mopHead e.core = some e ∧ e.kind = .mop true va ∧ e.stage = 1 ∧ e.num iDue = 0 ∧ e.num iRun = 0 ∧
      e.num iIdle + 64 ≤ s.mach.cycle ∧ ∀ p ∈ s.mach.preempts, p.rcb ≠ e.rcb)
    fun s => s.withMach (s.mach.setEngine { e with nums := modAt e.nums 8 fun _ => 1 })) ∧
  (∀ k (x : MmajSet), StepsTo (.mmajJointStart k)
    (fun s => s.mach.mmajs.find? (fun u => u.id == k) = some x ∧ x.partners.length = 4 ∧
      (∀ p ∈ x.partners, (∃ f ∈ s.mach.groupOf p.uid, nth f.nums 0 = 1) ∧
        ∀ f ∈ s.mach.groupOf p.uid, isMmaj f.instr = true ∧ s.mach.tileTurn f = true) ∧
      ∀ f ∈ s.mach.flights, (tileOf? f.instr).isSome → f.stage < 2 → ∃ p ∈ x.partners, f.iss = p.uid)
    fun s t => MemoryKept s t ∧ t.mach.threads = s.mach.threads ∧ (∀ u ∈ t.mach.mmajs, u.id ≠ k) ∧
      ∀ p ∈ x.partners, ∀ f ∈ t.mach.groupOf p.uid, f.done = true ∧ f.stage = 2) ∧
  ∀ k (x : MmajSet), StepsTo (.mmajPartnerTimeout k)
    (fun s => s.mach.mmajs.find? (fun u => u.id == k) = some x ∧ x.partners.length < 4 ∧ x.since + 4096 < s.mach.cycle)
    fun s t => MemoryKept s t ∧ RegistersKept s t ∧ (∀ u ∈ t.mach.mmajs, u.id ≠ k) ∧
      ∀ p ∈ x.partners, t.mach.groupOf p.uid = [] ∧ ∀ f r, x.partners = [p] → s.mach.groupOf p.uid = f :: r →
        (f :: r).flatMap (fun g => g.tids) ≠ [] → (s.mach.launch f.launch).ending = none → (∀ j ∈ (f :: r).flatMap (fun g => g.tids), (s.mach.thr? j).isSome ∧ (s.mach.thr j).stat ≠ .ended ∧
          (s.mach.thr j).isHandler = false) →
        ∃ g ∈ t.mach.traps, g.cause = 0x68 ∧ g.pc = f.pc ∧
          g.members.map (fun m => m.2.1) = (f :: r).flatMap fun g => g.tids

/-- spec/02 R83-R87: `sysc` parks its threads and queues them in ascending thread order; an entry is 64 bytes at its slot; its
completion writes v0 to v3 and goes on after the `sysc`, or traps with 0x73. -/
def Obligations.SystemCalls : Prop :=
  (∀ h n, ∀ s q, Running s q → q.tids ≠ [] → (∀ k ∈ q.tids, (s.mach.thr k).isHandler = false) →
    (s.mach.sysQ (s.mach.eff q.launch).sysq).en = true → (s.mach.eff q.launch).sysq < s.mach.sysqs.length →
    ∃ t, exec (.sysc h n) s = .next t ∧ MemoryKept s t ∧ RegistersKept s t ∧
      (t.mach.sysQ (s.mach.eff q.launch).sysq).waiting = (s.mach.sysQ (s.mach.eff q.launch).sysq).waiting ++
        (s.mach.inOrder q.tids).map (fun k => (k, n.toNat, h.flag.toNat)) ∧
      (∀ k ∈ q.tids, (t.mach.thr k).stat = .syscall (s.mach.eff q.launch).sysq none ∧ (t.mach.thr k).pc = q.pc) ∧
      ∀ k, k ∉ q.tids → t.mach.thr? k = s.mach.thr? k) ∧
  (∀ k (T : Thread) nr fl, StepsTo (.syscallEntryWrite k)
    (fun s =>
      let S := s.mach.sysQ k
      k < s.mach.sysqs.length ∧ S.en = true ∧ S.waiting = [(T.id, nr, fl)] ∧ s.mach.thr? T.id = some T ∧ s.mach.stopped T.launch = false ∧
      T.pend = [] ∧ s.mach.inFlight T.id = false ∧ 12 ≤ T.regs.length ∧ (∀ p ∈ S.slots, p.1 ≠ S.tail % 2 ^ S.log2) ∧
      s.mach.mapped (S.base + 64 * (S.tail % 2 ^ S.log2)) = false ∧ s.mach.mem.wf = true)
    fun s t =>
      let S := s.mach.sysQ k
      let slot := S.tail % 2 ^ S.log2
      Stored s t (S.base + 64 * slot) (toBytes (s.mach.launch T.launch).rcb 8 ++ toBytes S.tail 4 ++ toBytes nr 4 ++
        (T.regs.take 12).flatMap fun w => toBytes w.toNat 4) ∧
      (t.mach.thr T.id).stat = .syscall k (some slot) ∧ (t.mach.sysQ k).tail = (S.tail + 1) % 2 ^ 32 ∧
      (t.mach.sysQ k).slots = S.slots ++ [(slot, T.id, fl)] ∧ (t.mach.sysQ k).waiting = [] ∧
      t.sys.irq = s.sys.irq.deliver (128 + k)) ∧
  (∀ k (v : DWord) (T : Thread) fl, StepsTo (.sysqCplWrite k v)
    (fun s =>
      let S := s.mach.sysQ k
      k < s.mach.sysqs.length ∧ S.slots = [(v.toNat % 4096, T.id, fl)] ∧ s.mach.thr? T.id = some T ∧
      s.mach.stopped T.launch = false ∧ (s.mach.launch T.launch).ending = none ∧ 4 ≤ T.regs.length ∧ v.getLsbD 63 = false ∧
      ∀ i, i < 4 → s.mach.mapped (S.base + 64 * (v.toNat % 4096) + 16 + 4 * i) = false)
    fun s t =>
      let at_ := (s.mach.sysQ k).base + 64 * (v.toNat % 4096) + 16
      MemoryKept s t ∧ (t.mach.sysQ k).slots = [] ∧ (t.mach.thr T.id).pc = T.pc + 8 ∧
      (∀ i, (t.mach.thr T.id).regs.getD i 0 = if i < 4 then wN (s.mach.num (at_ + 4 * i) 4) else T.regs.getD i 0) ∧
      (∀ c ∈ t.mach.copies, c.core ≠ T.core) ∧ ∀ q, (t.mach.thr T.id).stat ≠ .syscall k q) ∧
  ∀ k (v : DWord) (T : Thread) fl, StepsTo (.sysqCplWrite k v)
    (fun s => k < s.mach.sysqs.length ∧ (s.mach.sysQ k).slots = [(v.toNat % 4096, T.id, fl)] ∧ s.mach.thr? T.id = some T ∧
      s.mach.stopped T.launch = false ∧ (s.mach.launch T.launch).ending = none ∧ T.stat ≠ .ended ∧ T.isHandler = false ∧
      v.getLsbD 63 = true)
    fun s t => MemoryKept s t ∧ RegistersKept s t ∧ (t.mach.sysQ k).slots = [] ∧ ∃ g ∈ t.mach.traps, g.cause = 0x73 ∧ g.pc = T.pc ∧
      g.members.map (fun m => m.2.1) = [T.id] ∧ (t.mach.thr T.id).stat = .trapping g.id

/-! ### The fabric -/

/-- spec/01 R34-R37, R46, R47: what brings a link up, down or to training, what a refused write of FPORT_CTL or of a route entry
leaves and reports, and what clears FPORT_ERR. -/
def Obligations.FabricLinks : Prop :=
  (∀ n rtt ver peer req rsp,
    let free (s : State) : Prop := n < 18 ∧ s.sys.powerGood = true ∧ s.sys.thermtrip = false ∧
      (s.sys.fport n).ctlEn = true ∧ (s.sys.fport n).state ≠ 2
    let failed (s : State) : FPort := { s.sys.fport n with
      state := 3, ver := 0, downSince := some ((s.sys.fport n).downSince.getD s.sys.ticks) }
    Steps (.fabricLinkTrain n rtt ver peer req rsp) (fun s => s.sys.thermtrip = true) (fun s => s) ∧
    Steps (.fabricLinkTrain n rtt ver peer req rsp) (fun s => free s ∧ 320 < rtt)
      (fun s => s.portErr n 3 { failed s with rtt := min 255 (rtt / 2) }) ∧
    Steps (.fabricLinkTrain n rtt ver peer req rsp)
      (fun s => free s ∧ rtt ≤ 320 ∧ (req ≠ (s.sys.fport n).bulkReq ∨ rsp ≠ (s.sys.fport n).bulkRsp))
      (fun s => s.portErr n 5 (failed s)) ∧
    StepsTo (.fabricLinkTrain n rtt ver peer req rsp)
      (fun s => free s ∧ n < s.sys.fports.length ∧ rtt ≤ 320 ∧ req = (s.sys.fport n).bulkReq ∧ rsp = (s.sys.fport n).bulkRsp ∧
        1 ≤ ver ∧ ver ≤ 3 ∧ 1 ≤ (s.sys.fport n).maxver ∧ (s.sys.fport n).maxver ≤ 3 ∧ peer < 4096)
      (fun s t =>
        let P := s.sys.fport n
        t = (s.withMach { s.mach with out := t.mach.out }).withPort n { P with
          state := 2, ver := min ver P.maxver, peer := peer, rtt := rtt / 2, useReq := req, useRsp := rsp, downSince := none
          outq := (t.sys.fport n).outq, replayFrom := P.replay.head?.map fun f => f.1 } ∧
        ((∀ x ∈ P.outq, ∀ y, x.2 = some y → msgNeeds y ≤ min ver P.maxver) → t.mach.out = s.mach.out ∧
          ∀ vc, vc < 8 → (t.sys.fport n).outq.filter (fun x => x.1 == vc) = P.outq.filter fun x => x.1 == vc))) ∧
  (∀ n, Steps (.fabricLinkDown n) (fun s => (s.sys.fport n).state = 2)
    fun s => s.portErr n 0 { s.sys.fport n with state := 0, ver := 0, downSince := some s.sys.ticks }) ∧
  (∀ n, Steps (.linkReplayRetrain n)
    (fun s => (s.sys.fport n).state = 2 ∧ 8 < ((s.sys.fport n).recent.filter fun t => decide (s.sys.ticks < t + 100000)).length)
    fun s => s.portErr n 1 { s.sys.fport n with state := 1, ver := 0, recent := [] }) ∧
  (∀ n, Steps (.fportRetrain n) (fun s => n < 18 ∧ (s.sys.fport n).ctlEn = true)
    fun s => s.portErr n 1 { s.sys.fport n with state := 1, ver := 0, recent := [] }) ∧
  (∀ n (v : Word),
    let req := (v >>> 26).toNat % 8
    let rsp := (v >>> 23).toNat % 8
    let bad (s : State) : Prop := req = 0 ∨ req = 7 ∨ rsp = 0 ∨ rsp = 7 ∨ req = rsp ∨ ∃ c ∈ s.mach.comms, c.vc = req ∨ c.vc = rsp
    let left (s : State) (st : Nat) : FPort := { s.sys.fport n with
      ctlEn := v.getLsbD 31, maxver := (v >>> 29).toNat % 4, bulkReq := req, bulkRsp := rsp, state := st }
    Steps (.fportCtlWrite n v) (fun s => n < 18 ∧ bad s) (fun s => s.portErr n 5 (s.sys.fport n)) ∧
    Steps (.fportCtlWrite n v) (fun s => n < 18 ∧ ¬ bad s ∧ v.getLsbD 31 = true ∧ v.getLsbD 22 = false ∧ (s.sys.fport n).state ≠ 0)
      (fun s => s.withPort n (left s (s.sys.fport n).state)) ∧
    Steps (.fportCtlWrite n v) (fun s => n < 18 ∧ ¬ bad s ∧ v.getLsbD 31 = true ∧ (s.sys.fport n).state = 0)
      (fun s => s.withPort n (left s 1)) ∧
    Steps (.fportCtlWrite n v) (fun s => n < 18 ∧ ¬ bad s ∧ v.getLsbD 31 = false ∧ (s.sys.fport n).state ≠ 0)
      (fun s => s.portErr n 0 { left s 0 with ver := 0, downSince := some s.sys.ticks })) ∧
  (∀ n (v : Word), StepsTo (.fportErrClear n v) (fun s => n < s.sys.fports.length ∧ (s.sys.fport n).err < 64) fun s t =>
    t = s.withPort n { s.sys.fport n with err := (t.sys.fport n).err, replays := 0 } ∧
    ∀ i, tbit (t.sys.fport n).err i = (tbit (s.sys.fport n).err i && !(v.getLsbD i))) ∧
  ∀ id (v : DWord),
    let f (i : Nat) : Nat := (v >>> i).toNat % 32
    let ok (a : Nat) : Prop := a < 18 ∨ a = 31
    let old (s : State) (a : Nat) : Prop := a < 18 ∧ (s.sys.fport a).state = 2 ∧ (s.sys.fport a).ver < 3
    let bad (s : State) : Prop := v.getLsbD 63 = true ∧ (18 ≤ f 15 ∨ ¬ ok (f 10) ∨ ¬ ok (f 5) ∨ ¬ ok (f 0) ∨
      (1023 < id ∧ (old s (f 15) ∨ old s (f 10) ∨ old s (f 5) ∨ old s (f 0))))
    Steps (.routeEntryWrite id v) (fun s => id < 4096 ∧ ¬ bad s)
      (fun s => s.withSys { s.sys with
        routes := put s.sys.routes id { v := v.getLsbD 63, prim := f 15, alt1 := f 10, alt2 := f 5, alt3 := f 0 } }) ∧
    Steps (.routeEntryWrite id v) (fun s => id < 4096 ∧ f 15 < 18 ∧ bad s) (fun s => s.portErr (f 15) 4 (s.sys.fport (f 15)))

/-- spec/01 R33, R34, R40-R44, R46: a flit that fails its check is dropped and asks for a replay; one out of order is dropped, and its
header heard; it asks again where a request has had no answer within the longest round trip (the model's reading, log 144); one that
comes in order is taken, with the hold bits and the acknowledgement that it brings; a replay starts at the first flit that was not
acknowledged; the sender picks class 0 first, within its rate, then channel 7 where it has waited long, and never a held channel; a
message for another device leaves on its route once it may, waits till then, and without a route, or over a link that lacks its version,
is dropped, which its originator is told (the message that says so is the model's, log 129). -/
def Obligations.FabricFlits : Prop :=
  (∀ n (f : Flit),
    let up (s : State) : Prop := (s.sys.fport n).state = 2 ∧ s.sys.thermtrip = false ∧ f.vc ≤ 7
    let heard (s : State) : FPort := { s.sys.fport n with
      hold := f.hold.toNat, replay := (s.sys.fport n).replay.filter fun x => decide (f.ack ≤ x.1) }
    let missed (s : State) : FPort := { heard s with
      ask := (s.sys.fport n).ask || decide ((s.sys.fport n).rxSeq < f.seq) &&
        (s.sys.fport n).askedAt.any fun t => decide (t + 32 < s.sys.ticks) }
    Steps (.flitReceive n f) (fun s => (s.sys.fport n).state ≠ 2 ∨ s.sys.thermtrip = true) (fun s => s) ∧
    Steps (.flitReceive n f) (fun s => up s ∧ f.fecOk = false) (fun s => s.portErr n 2 { s.sys.fport n with ask := true }) ∧
    Steps (.flitReceive n f) (fun s => up s ∧ f.fecOk = true ∧ f.crcOk = false)
      (fun s => s.withPort n { s.sys.fport n with ask := true }) ∧
    Steps (.flitReceive n f)
      (fun s => up s ∧ f.fecOk = true ∧ f.crcOk = true ∧ f.kind = .data ∧ f.seq ≠ (s.sys.fport n).rxSeq)
      (fun s => s.withPort n (missed s)) ∧
    Steps (.flitReceive n f) (fun s => up s ∧ f.fecOk = true ∧ f.crcOk = true ∧ f.kind = .idle) (fun s => s.withPort n (missed s)) ∧
    Steps (.flitReceive n f) (fun s => up s ∧ f.fecOk = true ∧ f.crcOk = true ∧ f.kind = .replay)
      (fun s => s.withPort n { heard s with
        replays := min 65535 ((s.sys.fport n).replays + 1)
        recent := ((s.sys.fport n).recent.filter fun t => decide (s.sys.ticks < t + 100000)) ++ [s.sys.ticks]
        replayFrom := (heard s).replay.head?.map fun f => f.1 }) ∧
    StepsTo (.flitReceive n f)
      (fun s => up s ∧ n < s.sys.fports.length ∧ (s.sys.fport n).inFlits.length = 8 ∧ f.fecOk = true ∧ f.crcOk = true ∧ f.kind = .data ∧
        f.seq = (s.sys.fport n).rxSeq)
      fun s t =>
        let P := s.sys.fport n
        let Q := t.sys.fport n
        let k := Q.inFlits.getD f.vc 0
        t = s.withPort n { heard s with rxSeq := P.rxSeq + 1, askedAt := none, inFlits := Q.inFlits, inq := Q.inq, holding := Q.holding } ∧
        k = P.inFlits.getD f.vc 0 + 1 ∧ (∀ v, v ≠ f.vc → Q.inFlits.getD v 0 = P.inFlits.getD v 0) ∧
        Q.inq = P.inq ++ (f.last.map fun x => (f.vc, x)).toList ∧
        (∀ v, v ≠ f.vc → (v ∈ Q.holding ↔ v ∈ P.holding)) ∧
        (f.vc ∈ Q.holding ↔ if f.vc = 0 then 0 ∈ P.holding else 112 ≤ k ∨ (64 < k ∧ f.vc ∈ P.holding))) ∧
  (∀ n q, Steps (.flitReplay n q) (fun s => (s.sys.fport n).state = 2 ∧ s.sys.thermtrip = false)
    fun s => s.withPort n { s.sys.fport n with
      replays := min 65535 ((s.sys.fport n).replays + 1)
      recent := ((s.sys.fport n).recent.filter fun t => decide (s.sys.ticks < t + 100000)) ++ [s.sys.ticks]
      replayFrom := (s.sys.fport n).replay.head?.map fun f => f.1 }) ∧
  (∀ n,
    let up (s : State) : Prop := n < s.sys.fports.length ∧ (s.sys.fport n).state = 2 ∧ s.sys.thermtrip = false ∧ s.mach.out = []
    let brings (P : FPort) (F : Flit) : Prop := F.crcOk = true ∧ F.fecOk = true ∧ F.ack = P.rxSeq ∧
      ∀ i, i < 8 → F.hold.getLsbD i = decide (i ∈ P.holding)
    StepsTo (.flitSend n) (fun s => up s ∧ (s.sys.fport n).ask = true)
      (fun s t =>
        let P := s.sys.fport n
        ∃ F, t = s.withPort n { P with ask := false, askedAt := some s.sys.ticks, vc7 := P.vc7 + 1, wire := some F
                                       flitTime := P.flitTime + 1 } ∧ F.kind = .replay ∧ brings P F) ∧
    (∀ q f, StepsTo (.flitSend n)
      (fun s => up s ∧ (s.sys.fport n).ask = false ∧ (s.sys.fport n).replayFrom = some q ∧
        (s.sys.fport n).replay.find? (fun f => f.1 == q) = some f)
      fun s t =>
        let P := s.sys.fport n
        ∃ F, t = s.withPort n { P with wire := some F, vc7 := if f.2.1 = 7 then 0 else P.vc7 + 1, replayFrom := if q + 1 < P.txSeq then some (q + 1) else none
                                       flitTime := P.flitTime + 1 } ∧
          F.kind = .data ∧ F.seq = q ∧ F.vc = f.2.1 ∧ F.last = f.2.2 ∧ brings P F) ∧
    StepsTo (.flitSend n)
      (fun s => up s ∧ (s.sys.fport n).ask = false ∧ (s.sys.fport n).replayFrom = none ∧ 1 ≤ (s.sys.fport n).turn ∧ (s.sys.fport n).turn ≤ 6)
      fun s t =>
        let P := s.sys.fport n
        let Q := t.sys.fport n
        let has (v : Nat) : Prop := (∃ x ∈ P.outq, x.1 = v) ∧ tbit P.hold v = false
        let slow : Prop := 8 ≤ (P.vc0At.filter fun a => decide (P.flitTime + 1 < a + 64)).length
        t = s.withPort n Q ∧ Q.flitTime = P.flitTime + 1 ∧ Q.hold = P.hold ∧ Q.inq = P.inq ∧ Q.state = 2 ∧
        ∃ F, Q.wire = some F ∧ brings P F ∧
        ((F.kind = .idle ∧ Q.txSeq = P.txSeq ∧ Q.replay = P.replay ∧ Q.outq = P.outq ∧ (∀ v, 1 ≤ v → v ≤ 7 → ¬ has v) ∧ (has 0 → slow)) ∨
          ∃ v last, F.kind = .data ∧ F.vc = v ∧ F.seq = P.txSeq ∧ F.last = last ∧ Q.txSeq = P.txSeq + 1 ∧
            Q.replay = P.replay ++ [(P.txSeq, v, last)] ∧ P.outq.find? (fun x => x.1 == v) = some (v, last) ∧
            Q.outq = P.outq.erase (v, last) ∧ has v ∧ (has 0 → ¬ slow → v = 0) ∧ (v = 0 → ¬ slow) ∧
            (v ≠ 0 → has 7 → 55 ≤ P.vc7 → v = 7))) ∧
  ∀ n vc (x : Msg),
    let here (s : State) : Prop := s.sys.inHead n vc = some x ∧ x.dst ≠ s.sys.devid ∧ n < s.sys.fports.length
    let r (s : State) : Route := look {} s.sys.routes x.dst
    let o (s : State) : Nat := s.sys.portFor (r s) x.cls
    let waits (s : State) : Prop :=
      (s.sys.fport (o s)).state ≠ 2 ∨ tbit (s.sys.fport (o s)).hold vc = true ∨ ∃ y ∈ (s.sys.fport (o s)).outq, y.1 = vc
    let low (s : State) : Prop := (s.sys.fport (o s)).state = 2 ∧ (s.sys.fport (o s)).ver < msgNeeds x
    StepsTo (.fabricPassThrough n vc)
      (fun s => here s ∧ (r s).v = true ∧ ¬ low s ∧ ¬ waits s ∧ o s ≠ n ∧ o s < s.sys.fports.length)
      (fun s t => t.mach = s.mach ∧ (t.sys.fport n).inq = (s.sys.fport n).inq.erase (vc, x) ∧ t.sys.irq = s.sys.irq ∧
        ∃ k, (t.sys.fport (o s)).outq = (s.sys.fport (o s)).outq ++ List.replicate k (vc, none) ++ [(vc, some x)]) ∧
    Steps (.fabricPassThrough n vc) (fun s => here s ∧ (r s).v = true ∧ ¬ low s ∧ waits s) (fun s => s) ∧
    StepsTo (.fabricPassThrough n vc) (fun s => here s ∧ ((r s).v = false ∨ low s ∧ x.src ≠ s.sys.devid))
      fun s t => (t.sys.fport n).inq = (s.sys.fport n).inq.erase (vc, x) ∧ tbit (t.sys.fport n).err 4 = true ∧
        t.sys.irq = s.sys.irq.deliver (212 + n) ∧ t.mach = { s.mach with out := s.mach.out ++
          if (r s).v then ((lacks x).map fun b => ⟨s.sys.devid, x.src, 0, 0, b⟩).toList else [] }

/-- spec/01 R43, R44, spec/04 R132, spec/06 R188, spec/07 R209, R218, spec/17 R431: what a message does that arrives at its destination,
and the message that answers it; the atomics of one request follow each other in S. A wake message wakes its core (spec/02 R89; the form
of the message is the model's, log 146). -/
def Obligations.MessagesArrive : Prop :=
  (∀ n (x : Msg) c v tid uid, StepsTo (.sigRemoteArrive n)
    (fun s => Heads s n 0 x ∧ x.body = .sig c v tid uid ∧ c < s.mach.sigpend.length)
    fun s t => Taken s t n 0 x ∧ t.mach = { s.mach with sigpend := t.mach.sigpend, sigOld := t.mach.sigOld, out := t.mach.out } ∧
      t.mach.sigpend = s.mach.sigpend.set c (s.mach.sigpend.getD c 0 ||| v) ∧
      t.mach.out = s.mach.out ++ [⟨s.sys.devid, x.src, 0, 0, .sigAck tid uid⟩] ∧
      t.sys.irq = (if s.mach.sigpend.getD c 0 = 0 ∧ v ≠ 0 then s.sys.irq.deliver (144 + c) else s.sys.irq)) ∧
  (∀ n (x : Msg) k, StepsTo (.sigRemoteArrive n)
    (fun s => Heads s n 0 x ∧ x.body = .wake k ∧ ((s.mach.coreSt k).power = .c1 ∨ (s.mach.coreSt k).power = .c2))
    fun s t => Taken s t n 0 x ∧ MemoryKept s t ∧ t.mach.threads = s.mach.threads ∧ (t.mach.coreSt k).wake = true) ∧
  (∀ n (x : Msg) tid uid (f : Flight), StepsTo (.sigAckArrive n)
    (fun s => Heads s n 0 x ∧ x.body = .sigAck tid uid ∧ (∃ w ∈ s.mach.sigWaits, w.1 = tid ∧ w.2.1 = uid) ∧
      s.mach.flight? uid = some f ∧ f.tids = [tid] ∧ f.owner = tid ∧ 1 ≤ f.flag ∧ f.flag ≤ 12 ∧ (s.mach.thr? tid).isSome)
    fun s t => Taken s t n 0 x ∧ MemoryKept s t ∧ RegistersKept s t ∧ t.mach.flight? uid = none ∧
      (∀ w ∈ t.mach.sigWaits, ¬ (w.1 = tid ∧ w.2.1 = uid)) ∧ (t.mach.thr tid).errs = (s.mach.thr tid).errs ∧
      (t.mach.thr tid).flag f.flag = (s.mach.thr tid).flag f.flag - 1) ∧
  (∀ n (x : Msg) tid uid, Steps (.sigAckArrive n)
    (fun s => Heads s n 0 x ∧ x.body = .sigAck tid uid ∧ ∀ w ∈ s.mach.sigWaits, ¬ (w.1 = tid ∧ w.2.1 = uid))
    fun s => s.withSys (s.sys.inDrop n 0)) ∧
  (∀ tid uid (f : Flight), StepsTo (.sigAckTimeout tid uid)
    (fun s => (∃ w ∈ s.mach.sigWaits, w.1 = tid ∧ w.2.1 = uid ∧ w.2.2 + 1000000 ≤ s.sys.ticks) ∧
      s.mach.flight? uid = some f ∧ f.tids = [tid] ∧ f.owner = tid ∧ 1 ≤ f.flag ∧ f.flag ≤ 12 ∧ (s.mach.thr? tid).isSome)
    fun s t => MemoryKept s t ∧ RegistersKept s t ∧ t.mach.flight? uid = none ∧
      (∀ w ∈ t.mach.sigWaits, ¬ (w.1 = tid ∧ w.2.1 = uid)) ∧
      (t.mach.thr tid).flag f.flag = (s.mach.thr tid).flag f.flag - 1 ∧
      ∃ e ∈ (t.mach.thr tid).errs, e.q = .remoteSig ∧ e.cause = 0x63) ∧
  (∀ n (x : Msg) num count k ph, StepsTo (.domainBarrierMessage n)
    (fun s => Heads s n 0 x ∧ x.body = .barArrive num count k ph ∧ 1 ≤ k ∧
      ∀ r, s.mach.barNode? 5 s.sys.devid num 0 = some r → r.count = count ∧ r.remote.length + k < count)
    fun s t => Taken s t n 0 x ∧ MemoryKept s t ∧ RegistersKept s t ∧ ((s.mach.barNode? 5 s.sys.devid num 0).isSome ∨ k < count →
      t.mach.out = s.mach.out ∧ ∃ r, t.mach.barNode? 5 s.sys.devid num 0 = some r ∧ r.count = count ∧
        r.remote = ((s.mach.barNode? 5 s.sys.devid num 0).map fun r => r.remote).getD [] ++ List.replicate k (x.src, ph))) ∧
  (∀ n (x : Msg) num count k ph (r : BarNode), Steps (.domainBarrierMessage n)
    (fun s => Heads s n 0 x ∧ x.body = .barArrive num count k ph ∧ s.mach.barNode? 5 s.sys.devid num 0 = some r ∧ r.count ≠ count)
    fun s => s.withBoth (s.sys.inDrop n 0) { s.mach with
      out := s.mach.out ++ List.replicate k ⟨s.sys.devid, x.src, 0, 0, .barRefuse num count⟩ }) ∧
  ∀ n vc (x : Msg) id off,
    let sound (s : State) : Prop := Heads s n vc x ∧ s.mach.eccDouble = [] ∧ s.mach.eccSingle = [] ∧ s.mach.mem.wf = true
    let answers (s t : State) (ok : Bool) (bs : List Byte) : Prop := Taken s t n vc x ∧ t.mach.threads = s.mach.threads ∧
      t.mach.out = s.mach.out ++ [⟨s.sys.devid, x.src, 2, (s.sys.fport n).useRsp, .bulkRsp id ok bs⟩]
    let at_ := Config.cavernBase + off
    let else_ (s t : State) (len : Nat) : Prop :=
      ∀ a, a < at_ ∨ at_ + len ≤ a → t.mach.mem.read a = s.mach.mem.read a
    (∀ len, StepsTo (.remoteAccessRequest n vc) (fun s => sound s ∧ x.body = .bulkReq id off len false [] ∧ inCavern at_ len = true)
      fun s t => answers s t true ((List.range len).map fun i => s.mach.mem.read (at_ + i)) ∧ MemoryKept s t ∧
        t.mach = { s.mach with out := t.mach.out }) ∧
    (∀ bs : List Byte, StepsTo (.remoteAccessRequest n vc)
      (fun s => sound s ∧ x.body = .bulkReq id off bs.length true bs ∧ inCavern at_ bs.length = true)
      fun s t => answers s t true [] ∧ (∀ i, i < bs.length → t.mach.mem.read (at_ + i) = bs.getD i 0) ∧ else_ s t bs.length) ∧
    (∀ ty (bs : List Nat), StepsTo (.remoteAccessRequest n vc)
      (fun s => sound s ∧ x.body = .bulkAtom id off .add ty (bs.map fun b => (b, 0)) ∧ ty ≠ .f32 ∧
        (∀ b ∈ bs, b < 2 ^ (8 * ty.bytes)) ∧ inCavern at_ ty.bytes = true)
      fun s t =>
        let after (k : Nat) : Nat := (s.mach.num at_ ty.bytes + (bs.take k).sum) % 2 ^ (8 * ty.bytes)
        answers s t true ((List.range bs.length).flatMap fun k => toBytes (after k) ty.bytes) ∧
        t.mach.num at_ ty.bytes = after bs.length ∧ else_ s t ty.bytes ∧ t.mach.order.length = s.mach.order.length + bs.length) ∧
    ∀ (bs : List Byte) w, StepsTo (.remoteAccessRequest n vc)
      (fun s => sound s ∧ x.body = .bulkReq id off bs.length w bs ∧ inCavern at_ bs.length = false)
      fun s t => answers s t false [] ∧ MemoryKept s t

/-- spec/01 R50-R56, R66: an entry of an unknown OP fails with 0x60 at its start; an `open` starts with the fields of its descriptor,
opens its communicator, or fails on a channel that bulk traffic uses; a `close` ends it; an entry that has moved all its chunks, the last of
which has left the device, retires and increments DONECTR; one whose link stays down for more than 10 ms fails with 0x63. -/
def Obligations.EntriesStartAndRetire : Prop :=
  (∀ rcb q (e : SubEnt) rest, StepsTo (.collEntryStart rcb q)
    (fun s => (s.mach.pair rcb q).subs = e :: rest ∧ e.armed = true ∧ e.rlinv = false ∧ e.fault = none ∧
      bits (ofBytes e.bytes) 0 8 ∉ [0x01, 0x02, 0x10, 0x11, 0x12, 0x13, 0x14, 0x30, 0x31])
    fun s t => MemoryKept s t ∧ t.mach.colls = s.mach.colls ∧ (t.mach.pair rcb q).subs = rest ∧
      EndsWith t rcb q e.poster (BitVec.ofNat 64 (bits (ofBytes e.bytes) 384 64)) (bits (ofBytes e.bytes) 0 8) 0x60) ∧
  (∀ rcb q (e : SubEnt) rest (ds : List Byte), StepsTo (.collEntryStart rcb q)
    (fun s =>
      let n := ofBytes e.bytes
      (s.mach.pair rcb q).subs = e :: rest ∧ e.armed = true ∧ e.rlinv = false ∧ e.fault = none ∧ bits n 0 8 = 0x30 ∧
      entryBad s.mach rcb n = false ∧ collRead s.sys s.mach (s.mach.eff e.launch) (entKey e.eid) (bits n 320 64) 64 = .ok ds ∧
      descBad (ofBytes ds) = false ∧ bits n 96 16 < bits (ofBytes ds) 64 32)
    fun s t => MemoryKept s t ∧ (t.mach.pair rcb q).subs = rest ∧ ∃ x, t.mach.colls = s.mach.colls ++ [x] ∧ x.eid = e.eid ∧
      x.op = 0x30 ∧ x.poster = e.poster ∧ x.nrank = bits (ofBytes ds) 64 32 ∧ x.rank = bits (ofBytes ds) 96 16 ∧
      x.cid = bits (ofBytes ds) 288 16 ∧ x.port = 0 ∧ x.tag = BitVec.ofNat 64 (bits (ofBytes e.bytes) 384 64)) ∧
  (∀ (e : CollEnt) (g : List Byte) (l : List Nat), StepsTo (.collOpen e.eid)
    (fun s =>
      let d := e.dsc
      s.mach.coll? e.eid = some e ∧ e.op = 0x30 ∧ e.fault = none ∧
      (∀ p ∈ s.sys.fports, p.bulkReq ≠ bits d 112 3 ∧ p.bulkRsp ≠ bits d 112 3) ∧ (∀ c ∈ s.mach.comms, c.cid ≠ e.cid) ∧
      s.sys.devid < 4096 ∧ (∀ f ∈ s.mach.lateFails, f.1 ≠ e.cid) ∧ e.cid = bits d 288 16 ∧ e.rank = bits d 96 16 ∧
      collRead s.sys s.mach (s.mach.eff e.launch) (entKey e.eid) (bits d 0 64) 4 = .ok g ∧
      listRead s.sys s.mach (s.mach.eff e.launch) (entKey e.eid) (bits d 0 64) (min e.nrank (s.mach.listRoom e.cid e.rank)) = .ok l)
    fun s t => EntryGone s t e 0 ∧ ∃ c, t.mach.comms = s.mach.comms ++ [c] ∧ t.mach.comm? e.cid e.rank = some c ∧ c.nrank = e.nrank ∧
      c.gen = ofBytes g ∧ c.cached = l ∧ (∀ x ∈ t.mach.closed, x.1 ≠ e.cid) ∧ c.vc = bits e.dsc 112 3 ∧ c.win = bits e.dsc 120 4 ∧ c.landva = bits e.dsc 192 64 ∧
      c.rlva = bits e.dsc 0 64 ∧ c.rcb = e.rcb ∧ c.chunks = [] ∧ c.toks = [] ∧ c.sent = []) ∧
  (∀ (e : CollEnt), StepsTo (.collOpen e.eid)
    (fun s => s.mach.coll? e.eid = some e ∧ e.op = 0x30 ∧ e.fault = none ∧
      ∃ p ∈ s.sys.fports, p.bulkReq = bits e.dsc 112 3 ∨ p.bulkRsp = bits e.dsc 112 3)
    fun s t => EntryGone s t e 0x60 ∧ t.mach.comms = s.mach.comms) ∧
  (∀ (e : CollEnt), StepsTo (.collClose e.eid)
    (fun s => s.mach.coll? e.eid = some e ∧ e.op = 0x31 ∧ ∀ u ∈ s.mach.colls, u.cid = e.cid → u.rank = e.rank → u.eid = e.eid)
    fun s t => EntryGone s t e 0 ∧ t.mach.comm? e.cid e.rank = none ∧
      ∀ c k, s.mach.comm? e.cid e.rank = some c → c.maxSeq = some k → t.mach.isPast e.cid k = true) ∧
  (∀ (e : CollEnt), StepsTo (.collEntryRetire e.eid)
    (fun s => s.mach.coll? e.eid = some e ∧ (s.mach.comm? e.cid e.rank).isSome ∧ AllMoved e ∧ s.mach.unsent s.sys e = false)
    fun s t => EntryGone s t e 0 ∧ t.mach.comms = s.mach.comms) ∧
  (∀ (e : CollEnt), Steps (.collEntryRetire e.eid)
    (fun s => s.mach.coll? e.eid = some e ∧ (s.mach.comm? e.cid e.rank).isSome ∧ e.op ∉ [0x14, 0x30, 0x31] ∧
      s.mach.unsent s.sys e = true) fun s => s) ∧
  ∀ (e : CollEnt) far, StepsTo (.collLinkTimeout ⟨e.eid, far⟩)
    (fun s => s.mach.coll? e.eid = some e ∧ (e.op = 0x01 ∨ e.op = 0x02) ∧ e.sdev ≠ s.sys.devid ∧
      (far = true ∨ ((s.sys.fport e.port).state = 0 ∨ (s.sys.fport e.port).state = 3) ∧
        (s.sys.fport e.port).downSince.getD 0 + 1000000 < s.sys.ticks))
    fun s t => EntryGone s t e 0x63

/-- spec/01 R57-R64, spec/22 R447: what an entry's turn sends. A `put` sends 4 KiB pieces, on VC0 where it is at most 64 bytes long;
rank i begins a reduction with its own segment i - 1; a gather and the root of a broadcast write and send their own bytes; an
arriving partial is the left operand of the combination that goes on; a barrier token makes two circuits. The turn of a port is
that of the entry that it picks. -/
def Obligations.SequencerTurns : Prop :=
  (∀ (e : CollEnt) (c : Comm) (bs : List Byte) (i : Instr),
    (i = .chunkSend e.port ∨ (i = .collPut e.eid ∧ e.op = 0x01) ∨ (i = .collPutr e.eid ∧ e.op = 0x02)) → StepsTo i
      (fun s => HasTurn s e c ∧ (e.op = 0x01 ∨ e.op = 0x02) ∧ e.red ≠ 4 ∧ bs.length = min 4096 (e.len - 4096 * e.own) ∧
        collRead s.sys s.mach (s.mach.eff e.launch) (entKey e.eid) (e.src + 4096 * e.own) bs.length = .ok bs)
      fun s t => MemoryKept s t ∧ OneSent s t e c 1 0 ∧ t.mach.out = s.mach.out ++
        let vc := if e.op = 0x01 ∧ e.len ≤ 64 then 0 else c.vc
        [⟨s.sys.devid, e.sdev, if vc = 0 then 0 else 1, vc,
          .put e.cid e.succ e.rank e.eid (look 0 c.sent e.succ) (e.dst + 4096 * e.own) e.red e.ty
            (decide (e.len ≤ 4096 * e.own + bs.length)) e.rsig e.rctr bs⟩]) ∧
  (∀ (e : CollEnt) (c : Comm) (bs : List Byte) (i : Instr),
    (i = .chunkSend e.port ∨ (i = .ringReduceScatter e.eid ∧ e.op = 0x10) ∨ (i = .ringAllReduce e.eid ∧ e.op = 0x12)) →
    let k := (e.rank + e.nrank - 1) % e.nrank
    StepsTo i
      (fun s => HasTurn s e c ∧ (e.op = 0x10 ∨ e.op = 0x12) ∧ 1 < e.nrank ∧ e.red ≠ 4 ∧ (∀ a ∈ c.chunks, a.seq ≠ e.seq) ∧
        bs.length = min 4096 (e.len / e.nrank - 4096 * e.own) ∧
        collRead s.sys s.mach (s.mach.eff e.launch) (entKey e.eid) (e.src + (k * (e.len / e.nrank) + 4096 * e.own)) bs.length = .ok bs)
      fun s t => MemoryKept s t ∧ OneSent s t e c 1 0 ∧ t.mach.out = s.mach.out ++
        [⟨s.sys.devid, e.sdev, 1, c.vc, .chunk e.cid e.succ e.seq (look 0 c.sent e.succ) k (4096 * e.own) false e.red e.ty bs⟩]) ∧
  (∀ (e : CollEnt) (c : Comm) (bs : List Byte) (loc attr : Nat) (i : Instr),
    (i = .chunkSend e.port ∨ (i = .ringAllGather e.eid ∧ e.op = 0x11) ∨ (i = .ringBroadcast e.eid ∧ e.op = 0x13)) →
    let seg := if e.op = 0x11 then e.rank else 0
    let part := if e.op = 0x11 then e.len / e.nrank else e.len
    StepsTo i
      (fun s => HasTurn s e c ∧ (e.op = 0x11 ∨ (e.op = 0x13 ∧ e.rank = e.peer ∧ e.succ ≠ e.peer)) ∧ 1 < e.nrank ∧ e.red ≠ 4 ∧
        (∀ a ∈ c.chunks, a.seq ≠ e.seq) ∧ bs.length = min 4096 (part - 4096 * e.own) ∧
        collRead s.sys s.mach (s.mach.eff e.launch) (entKey e.eid) (e.src + 4096 * e.own) bs.length = .ok bs ∧
        collRange s.sys s.mach (s.mach.eff e.launch) (entKey e.eid) (e.dst + (seg * part + 4096 * e.own)) bs.length .w =
          .ok [⟨e.dst + (seg * part + 4096 * e.own), loc, bs.length, attr⟩] ∧ s.mach.mapped loc = false ∧ isRem loc = false)
      fun s t => Stored s t loc bs ∧ OneSent s t e c 1 1 ∧ t.mach.out = s.mach.out ++
        [⟨s.sys.devid, e.sdev, 1, c.vc, .chunk e.cid e.succ e.seq (look 0 c.sent e.succ) seg (4096 * e.own) true e.red e.ty bs⟩]) ∧
  (∀ (e : CollEnt) (c : Comm) (a : InChunk) (own res : List Byte) (i : Instr),
    (i = .chunkSend e.port ∨ (i = .ringReduceScatter e.eid ∧ e.op = 0x10) ∨ (i = .ringAllReduce e.eid ∧ e.op = 0x12)) → StepsTo i
      (fun s => HasTurn s e c ∧ (e.op = 0x10 ∨ e.op = 0x12) ∧ 1 < e.nrank ∧ canSend s.sys s.mach e c = true ∧
        c.chunks = [a] ∧ a.seq = e.seq ∧ a.parked = false ∧ a.gather = false ∧ a.seg ≠ e.rank ∧ a.src ≠ s.sys.devid ∧
        collRead s.sys s.mach (s.mach.eff e.launch) (entKey e.eid) (e.src + (a.seg * (e.len / e.nrank) + a.off)) a.len = .ok own ∧
        combine e.ty e.red a.bytes own = .ok res)
      fun s t => MemoryKept s t ∧ OneSent s t e c 0 0 ∧ t.mach.out = s.mach.out ++
        [⟨s.sys.devid, a.src, 0, 0, .token e.cid ((e.rank + c.nrank - 1) % c.nrank) e.rank a.c⟩,
          ⟨s.sys.devid, e.sdev, 1, c.vc, .chunk e.cid e.succ e.seq (look 0 c.sent e.succ) a.seg a.off false e.red e.ty res⟩]) ∧
  (∀ (a b : Word), combine 0 1 (toBytes a.toNat 4) (toBytes b.toNat 4) = .ok (toBytes (a + b).toNat 4)) ∧
  (∀ (e : CollEnt) (c : Comm) (i : Instr), (i = .chunkSend e.port ∨ i = .ringBarrierToken e.eid) → StepsTo i
    (fun s => HasTurn s e c ∧ e.op = 0x14 ∧ e.rank = 0 ∧ e.toks = 0 ∧ 1 < e.nrank ∧ ∀ k ∈ c.toks, k.1 ≠ e.seq)
    fun s t => MemoryKept s t ∧ (∃ e', t.mach.coll? e.eid = some e' ∧ e'.toks = 1) ∧
      t.mach.out = s.mach.out ++ [⟨s.sys.devid, e.sdev, 0, 0, .ringTok e.cid e.succ e.rank e.seq 1⟩]) ∧
  ∀ (e : CollEnt) (c : Comm) (i : Instr), (i = .chunkSend e.port ∨ i = .ringBarrierToken e.eid) → StepsTo i
    (fun s => HasTurn s e c ∧ e.op = 0x14 ∧ e.rank ≠ 0 ∧ 1 < e.nrank ∧ c.toks = [(e.seq, 2)])
    fun s t => EntryGone s t e 0 ∧ t.mach.out = s.mach.out ++ [⟨s.sys.devid, e.sdev, 0, 0, .ringTok e.cid e.succ e.rank e.seq 2⟩]

/-- spec/01 R49, R58, R61, R63, R67, R450, R451, spec/22 R447, R449: a chunk of a started entry is queued at its end, one of a
later entry is parked in the landing buffer, one of a closed CID waits in the port; a put writes its bytes, or combines them
element by element, and is answered with a token; tokens are kept, one of a closed CID is refused and sent again after 1 us; a
failure ends its entry, or waits for it; one of a SEQ of a communicator that has been closed fails nothing; a successor that could not be
told at once (its entry of the rank list had to be read) is told later. -/
def Obligations.CollectiveArrivals : Prop :=
  (∀ n vc (x : Msg) cid rank seq k seg off g red ty (bs : List Byte) (c : Comm), StepsTo (.chunkArrive n vc)
    (fun s => Heads s n vc x ∧ x.body = .chunk cid rank seq k seg off g red ty bs ∧ s.mach.comm? cid rank = some c ∧ c.fault = none ∧
      (∀ f ∈ c.failed, f.1 ≠ seq) ∧ (s.mach.ringEnt? c seq).isSome)
    fun s t => Taken s t n vc x ∧ MemoryKept s t ∧ ∃ c', t.mach.comm? cid rank = some c' ∧
      c'.chunks = c.chunks ++ [⟨seq, k, seg, off, bs.length, g, x.src, false, bs⟩]) ∧
  (∀ n vc (x : Msg) cid rank seq k seg off g red ty (bs : List Byte) (c : Comm) (loc attr : Nat), StepsTo (.chunkArrive n vc)
    (fun s => Heads s n vc x ∧ x.body = .chunk cid rank seq k seg off g red ty bs ∧ s.mach.comm? cid rank = some c ∧ c.fault = none ∧
      (∀ f ∈ c.failed, f.1 ≠ seq) ∧ s.mach.ringEnt? c seq = none ∧ s.mach.mem.wf = true ∧ inCavern loc bs.length = true ∧
      collRange s.sys s.mach c.eff (entKey c.id) (c.landva + 4096 * (k % c.win)) bs.length .w =
        .ok [⟨c.landva + 4096 * (k % c.win), loc, bs.length, attr⟩])
    fun s t => Taken s t n vc x ∧ Stored s t loc bs ∧ ∃ c' a, t.mach.comm? cid rank = some c' ∧ a ∈ c'.chunks ∧ a.seq = seq ∧
      a.c = k ∧ a.parked = true ∧ a.len = bs.length) ∧
  (∀ n vc (x : Msg), StepsTo (.chunkWaitClosedCid n vc)
    (fun s => Heads s n vc x ∧ vc ≠ 0 ∧ ∃ cid rank seq k seg off g red ty bs, x.body = .chunk cid rank seq k seg off g red ty bs ∧
      s.mach.comm? cid rank = none)
    fun s t => t.mach = s.mach ∧ (t.sys.fport n).inq = (s.sys.fport n).inq ∧
      (112 ≤ (s.sys.fport n).inFlits.getD vc 0 → vc ∈ (t.sys.fport n).holding)) ∧
  (∀ n vc (x : Msg) cid rank frm eid k dst ty last rsig rctr (bs : List Byte) (c : Comm) (loc attr : Nat), StepsTo (.putArrive n vc)
    (fun s => Heads s n vc x ∧ x.body = .put cid rank frm eid k dst 0 ty last rsig rctr bs ∧ s.mach.comm? cid rank = some c ∧
      c.fault = none ∧ c.badPuts = [] ∧ x.src ≠ s.sys.devid ∧ s.mach.mem.wf = true ∧ s.mach.mapped loc = false ∧
      isRem loc = false ∧ collRange s.sys s.mach c.eff (headKey c.id n vc) dst bs.length .w = .ok [⟨dst, loc, bs.length, attr⟩])
    fun s t => Taken s t n vc x ∧ Stored s t loc bs ∧
      t.mach.out = s.mach.out ++ [⟨s.sys.devid, x.src, 0, 0, .token cid frm rank k⟩] ∧
      (t.mach.ctr c.rcb rctr).val % 2 ^ 32 = ((s.mach.ctr c.rcb rctr).val +
        if last = true ∧ rsig = true ∧ rctr < s.mach.boundCtrs c.rcb then 1 else 0) % 2 ^ 32) ∧
  (∀ n vc (x : Msg) cid rank frm eid k dst red ty last rsig rctr (bs res : List Byte) (c : Comm) (loc attr : Nat),
    let i := look 0 c.elems (8 * n + vc)
    let z := elemBytes ty
    let el := (bs.drop (z * i)).take z
    StepsTo (.putArrive n vc)
      (fun s => Heads s n vc x ∧ x.body = .put cid rank frm eid k dst red ty last rsig rctr bs ∧ red ≠ 0 ∧ z * (i + 1) < bs.length ∧
        s.mach.comm? cid rank = some c ∧ c.fault = none ∧ Sound s ∧ s.mach.mapped loc = false ∧ isRem loc = false ∧
        collRange s.sys s.mach c.eff (headKey c.id n vc) (dst + z * i) z .rw = .ok [⟨dst + z * i, loc, z, attr⟩] ∧ combine ty red (s.mach.bytes loc z) el = .ok res)
      fun s t => t.sys = { s.sys with irq := t.sys.irq, cports := t.sys.cports, seFired := t.sys.seFired } ∧ Stored s t loc res ∧
        ∃ c', t.mach.comm? cid rank = some c' ∧ look 0 c'.elems (8 * n + vc) = i + 1) ∧
  (∀ n (x : Msg) cid rank frm k (c : Comm), StepsTo (.completionTokenArrive n)
    (fun s => Heads s n 0 x ∧ x.body = .token cid rank frm k ∧ s.mach.comm? cid rank = some c)
    fun s t => Taken s t n 0 x ∧ MemoryKept s t ∧ ∃ c', t.mach.comm? cid rank = some c' ∧ (frm, k) ∈ c'.acked ∧
      ∀ p, p ≠ (frm, k) → (p ∈ c'.acked ↔ p ∈ c.acked)) ∧
  (∀ n (x : Msg) cid rank frm seq k (c : Comm), StepsTo (.ringTokenArrive n)
    (fun s => Heads s n 0 x ∧ x.body = .ringTok cid rank frm seq k ∧ s.mach.comm? cid rank = some c ∧ ∀ f ∈ c.failed, f.1 ≠ seq)
    fun s t => Taken s t n 0 x ∧ MemoryKept s t ∧ ∃ c', t.mach.comm? cid rank = some c' ∧ c'.toks = c.toks ++ [(seq, k)]) ∧
  (∀ n (x : Msg) cid rank frm k, StepsTo (.tokenRefused n)
    (fun s => Heads s n 0 x ∧ x.body = .token cid rank frm k ∧ s.mach.comm? cid rank = none)
    fun s t => Taken s t n 0 x ∧ t.mach = { s.mach with
      out := s.mach.out ++ [⟨s.sys.devid, x.src, 0, 0, .refused cid frm rank 0 0 k⟩] }) ∧
  (∀ n (x : Msg) cid rank back seq circuit k (c : Comm), StepsTo (.tokenRefused n)
    (fun s => Heads s n 0 x ∧ x.body = .refused cid rank back seq circuit k ∧ s.mach.comm? cid rank = some c)
    fun s t => Taken s t n 0 x ∧ MemoryKept s t ∧ ∃ c', t.mach.comm? cid rank = some c' ∧
      c'.kept = c.kept ++ [⟨x.src, back, seq, circuit, k, s.sys.ticks + 100⟩]) ∧
  (∀ (c : Comm) (r : KeptTok), StepsTo (.tokenResend 0)
    (fun s => s.mach.comms = [c] ∧ c.kept = [r] ∧ r.circuit = 0 ∧ r.dev ≠ s.sys.devid ∧ r.at_ ≤ s.sys.ticks)
    fun s t => MemoryKept s t ∧ t.mach.comms = [{ c with kept := [] }] ∧
      t.mach.out = s.mach.out ++ [⟨s.sys.devid, r.dev, 0, 0, .token c.cid r.rank c.rank r.c⟩]) ∧
  (∀ n (x : Msg) cid rank cause (e : CollEnt), StepsTo (.collFailureArrive n)
    (fun s => Heads s n 0 x ∧ x.body = .putFail cid rank e.eid cause ∧ s.mach.coll? e.eid = some e ∧ (e.op = 0x01 ∨ e.op = 0x02) ∧
      cause ≠ 0)
    fun s t => Taken s t n 0 x ∧ EntryGone s t e cause) ∧
  (∀ n (x : Msg) cid rank seq cause, Steps (.collFailureArrive n)
    (fun s => Heads s n 0 x ∧ x.body = .failure cid rank seq cause ∧ (∀ c ∈ s.mach.comms, c.cid ≠ cid) ∧
      s.mach.isPast cid seq = true)
    fun s => s.withSys (s.sys.inDrop n 0)) ∧
  (∀ (c : Comm) seq cause rest dev, StepsTo (.tokenResend 0)
    (fun s => s.mach.comms = [c] ∧ c.kept = [] ∧ c.untold = (seq, cause) :: rest ∧ c.fault = none ∧ c.succDev = some dev ∧
      dev ≠ s.sys.devid)
    fun s t => MemoryKept s t ∧ t.mach.comms = [{ c with untold := rest }] ∧
      t.mach.out = s.mach.out ++ [⟨s.sys.devid, dev, 0, 0, .failure c.cid ((c.rank + 1) % c.nrank) seq cause⟩]) ∧
  (∀ n (x : Msg) cid rank seq cause, Steps (.collFailureArrive n)
    (fun s => Heads s n 0 x ∧ x.body = .failure cid rank seq cause ∧ (∀ c ∈ s.mach.comms, c.cid ≠ cid) ∧
      s.mach.isPast cid seq = false)
    fun s => s.withBoth (s.sys.inDrop n 0) { s.mach with lateFails := s.mach.lateFails ++ [(cid, seq, cause)] }) ∧
  ∀ n (x : Msg) seq cause (c : Comm), StepsTo (.collFailureArrive n)
    (fun s => Heads s n 0 x ∧ x.body = .failure c.cid c.rank seq cause ∧ s.mach.comms = [c] ∧ (∀ f ∈ c.failed, f.1 ≠ seq) ∧
      (∀ k ∈ c.chunks, k.seq ≠ seq) ∧ s.mach.ringEnt? c seq = none)
    fun s t => Taken s t n 0 x ∧ MemoryKept s t ∧ ∃ c', t.mach.comms = [c'] ∧ c'.failed = c.failed ++ [(seq, cause)] ∧
      ∀ k, k ∈ c'.toks ↔ k ∈ c.toks ∧ k.1 ≠ seq

/-! ### The package -/

/-- spec/01 R28, spec/02 R70: RESET_N puts every register of the package at its reset value; straps, fuses and flash stay, and so does what
stands in the memories of other parts.
spec/02 R70, R71: on release PE0_EP is sampled, the cavern is zero, every link trains, harts 1 to 15 wait, and the ROM on hart 0 waits for the
host (no image, endpoint mode), halts (no image, or a bad one), or copies the image and runs it.
spec/02 R71: in endpoint mode the host rings mailbox 0; the ROM copies the image that it names and runs it.
spec/02 R72: a bit of PKG_RUN starts its die's reset sequence, and at its end the die runs and its CLOCK counts from then on. -/
def Obligations.ResetAndBoot : Prop :=
  (Steps .resetNAssert (fun _ => True) fun s =>
    { agenda := s.agenda
      sys := { State.reset.sys with pe0pin := s.sys.pe0pin, idpins := s.sys.idpins, fuses := s.sys.fuses, flash := s.sys.flash }
      mach := { State.reset.mach with free := s.mach.free, next := s.mach.next, mem := s.mach.mem.filter fun c => outside c.1 } }) ∧
  (StepsTo .resetNRelease (fun s => s.sys.powerGood = false ∧ s.mach.mem.wf = true) fun s t =>
    let ep := s.sys.pe0pin
    let n := ofBytes (flashBytes s.sys 64)
    let image := bits n 0 32 = 0x36345143
    let sts := (if ep = true then 1 else 0) + (if s.sys.bootHost = true then 2 else 0) + (if s.sys.bootErr = true then 4 else 0)
    t.sys.powerGood = true ∧ t.mach.pe0ep = ep ∧ t.sys.devid = s.sys.idpins.toNat ∧ (∀ p ∈ t.sys.fports, p.state = 1) ∧ (∀ p ∈ t.sys.cports, p.state = 1) ∧
    (¬(image ∧ bootOk n = true) → ∀ a, inCavern a 1 = true → t.mach.mem.read a = 0) ∧
    (¬image → ep = true → t.sys.harts = .rom :: List.replicate 15 .wfi ∧ t.sys.bootErr = s.sys.bootErr) ∧
    (¬image → ep = false → t.sys.harts = List.replicate 16 .halted ∧ t.sys.bootErr = true) ∧
    (image → bootOk n = false → t.sys.harts = List.replicate 16 .halted ∧ t.sys.bootErr = true) ∧
    (image → bootOk n = true → (∀ b ∈ s.sys.fuses, b = 0) →
      t.sys.harts = .run (0x100000000 + bits n 192 64) 0 sts :: List.replicate 15 .wfi ∧
      ∀ i, i < bits n 128 64 → t.mach.mem.read (0x100000000 + i) = s.sys.flash.getD i 0)) ∧
  (StepsTo .bootHostImageLoad
    (fun s => s.sys.harts.getD 0 .reset = .rom ∧ s.sys.harts.length = 16 ∧ s.mach.pe0ep = true ∧
      (s.sys.mboxes.getD 0 {}).inbell ≠ 0 ∧ (∀ b ∈ s.sys.fuses, b = 0) ∧ s.mach.mem.wf = true ∧ s.mach.cxlFail = [] ∧
      (let a := ofBytes (s.mach.mem.bytes 0x31100100 8)
       let n := ofBytes ((List.range 64).map fun i => s.mach.mem.read (hostLoc (a + i)))
       bootOk n = true ∧ bootLen n = ofBytes (s.mach.mem.bytes 0x31100108 8)))
    fun s t =>
      let a := ofBytes (s.mach.mem.bytes 0x31100100 8)
      let n := ofBytes ((List.range 64).map fun i => s.mach.mem.read (hostLoc (a + i)))
      t.mach.hostwin = a - a % 4096 ∧ t.sys.bootHost = true ∧ t.sys.bootErr = s.sys.bootErr ∧ (t.sys.mbox 0).inbell = 0 ∧
      t.sys.harts.getD 0 .reset = .run (0x100000000 + bits n 192 64) 0 (if s.sys.bootErr = true then 7 else 3) ∧
      ∀ i, i < bootLen n → t.mach.mem.read (0x100000000 + i) = s.mach.mem.read (hostLoc (a + i))) ∧
  (StepsTo .bootHostImageLoad
    (fun s =>
      let a := ofBytes (s.mach.mem.bytes 0x31100100 8)
      s.sys.harts.getD 0 .reset = .rom ∧ s.mach.pe0ep = true ∧ (s.sys.mboxes.getD 0 {}).inbell ≠ 0 ∧ s.mach.errLog.length < 64 ∧
      ({ s.mach with hostwin := a - a % 4096 } : Mach).cxlBad (0x4000000000 + a % 4096 / 64 * 64) = true)
    fun s t =>
      let l := 0x4000000000 + ofBytes (s.mach.mem.bytes 0x31100100 8) % 4096 / 64 * 64
      t.sys.harts = List.replicate 16 .halted ∧ t.sys.bootErr = true ∧ t.sys.hartFaults = s.sys.hartFaults ++ [(0, l)] ∧
      t.mach.errLog = s.mach.errLog ++ [⟨0x30, 0, l⟩]) ∧
  (
    (∀ v : DWord, StepsTo (.pkgRunWrite v) (fun s => s.sys.powerGood = true ∧ s.sys.dies.length = 4) fun s t =>
      t.mach = s.mach ∧ (∀ d, d < 4 → tbit t.sys.pkgRun d = (tbit s.sys.pkgRun d || tbit v.toNat d)) ∧
      ∀ d, d < 4 → t.sys.dies.getD d .held =
        if tbit v.toNat d = true ∧ s.sys.dies.getD d .held = .held then .resetting else s.sys.dies.getD d .held) ∧
    (∀ d, Steps (.dieResetDone d) (fun s => s.sys.dies.getD d .held = .resetting)
      fun s => s.withSys { s.sys with dies := s.sys.dies.set d (.run s.mach.cycle) }))

/-- spec/01 R11: the arithmetic clock steps down while the average is above the limit and up when it falls below 95% of it; a
sensor at 110 degrees stops the package.
spec/02 R89, R90: a core without work for 64 cycles gates its clock, then its power; its wake line brings it back.
spec/02 R91: GRV_PWR, its ERR bit, and the transitions of a grove, whose SRAM is lost. -/
def Obligations.PowerStates : Prop :=
  (
    (∀ mw rails, StepsTo (.powerSample mw rails) (fun s => s.sys.powerGood = true) fun s t =>
      let win := (s.sys.pwrWindow ++ [mw.toNat]).drop (s.sys.pwrWindow.length - 99)
      let avg := win.sum / win.length
      t.sys.pwrWindow = win ∧ t.sys.pkgPwr = avg ∧ t.agenda = s.agenda ∧
      (1000 * s.sys.plimit < avg → t.sys.throtPwr = true ∧ t.sys.clkf = max 1000 (s.sys.clkf - 50)) ∧
      (100 * avg < 95 * (1000 * s.sys.plimit) → t.sys.throtPwr = false ∧
        t.sys.clkf = if s.sys.throtTherm then s.sys.clkf else min 1700 (s.sys.clkf + 50)) ∧
      (avg ≤ 1000 * s.sys.plimit → 95 * (1000 * s.sys.plimit) ≤ 100 * avg →
        t.sys.throtPwr = s.sys.throtPwr ∧ t.sys.clkf = s.sys.clkf)) ∧
    (∀ temps, StepsTo (.thermalThrottle temps) (fun s => s.sys.powerGood = true) fun s t =>
      t.sys.temps = (List.range 64).map (fun i => temps.getD i 0) ∧
      ((∃ i, i < 64 ∧ 800 < temps.getD i 0) → t.sys.throtTherm = true ∧ t.sys.clkf = max 1000 (s.sys.clkf - 50)) ∧
      ((∀ i, i < 64 → temps.getD i 0 < 776) → t.sys.throtTherm = false ∧ t.sys.clkf = s.sys.clkf)) ∧
    (∀ k, StepsTo (.thermtrip k) (fun s => s.sys.powerGood = true ∧ s.sys.thermtrip = false ∧ 880 ≤ s.sys.temps.getD k 0)
      fun s t => t.sys.thermtrip = true ∧ t.mach = s.mach ∧ ∀ n, n < 18 → (t.sys.fport n).state = 0)) ∧
  (
    (∀ k, Steps (.coreClockGate k)
      (fun s => k < 4608 ∧ (s.mach.coreSt k).power = .c0 ∧ (s.mach.coreSt k).idleSince + 64 ≤ s.mach.cycle ∧
        s.mach.wakeLine s.sys k = false)
      fun s => s.withMach (s.mach.setCore { s.mach.coreSt k with power := .c1, gatedSince := s.mach.cycle })) ∧
    (∀ k, Steps (.corePowerGate k)
      (fun s => (s.mach.coreSt k).power = .c1 ∧ (s.sys.pwr (k / 24)).idle ≠ 0 ∧ (s.sys.pwr (k / 24)).tgt ≠ 1 ∧
        (∀ q ∈ s.mach.quarters, q.core = k → q.slice = none) ∧
        (s.mach.coreSt k).gatedSince + (s.sys.pwr (k / 24)).idle * 1700 ≤ s.mach.cycle)
      fun s => s.withMach (s.mach.setCore (if s.mach.wakeLine s.sys k = true
        then { s.mach.coreSt k with power := .c0, wake := false, idleSince := s.mach.cycle }
        else { s.mach.coreSt k with power := .c2 }))) ∧
    (∀ k, StepsTo (.coreWake k)
      (fun s => ((s.mach.coreSt k).power = .c1 ∨ (s.mach.coreSt k).power = .c2) ∧ s.mach.wakeLine s.sys k = true)
      fun s t => (t.mach.coreSt k).power = .c0 ∧ (t.mach.coreSt k).wake = false ∧ t.sys = s.sys ∧
        (∀ u ∈ (t.mach.coreSt k).sliceUntil, s.mach.cycle + (if (s.mach.coreSt k).power = .c2 then 3400 else 2) ≤ u) ∧
        ∀ j, j ≠ k → t.mach.coreSt j = s.mach.coreSt j)) ∧
  (
    (∀ g v, Steps (.grvPwrWrite g v) (fun s => g < 192 ∧ bits v.toNat 8 2 = 2 ∧ s.mach.groveUsed g = true)
      fun s => s.withSys (s.sys.setPwr g { s.sys.pwr g with err := true })) ∧
    (∀ g v, Steps (.grvPwrWrite g v) (fun s => g < 192 ∧ bits v.toNat 8 2 ≤ 2 ∧ ¬(bits v.toNat 8 2 = 2 ∧ s.mach.groveUsed g = true))
      fun s => s.withSys (s.sys.setPwr g
        { err := (s.sys.pwr g).err && !tbit v.toNat 63, idle := bits v.toNat 16 16, tgt := bits v.toNat 8 2
          state := if bits v.toNat 8 2 = 2 then (if (s.sys.pwr g).state = 0 then 1 else (s.sys.pwr g).state)
                   else if (s.sys.pwr g).state = 2 then 3 else (s.sys.pwr g).state })) ∧
    (∀ g, Steps (.grvPwrErrClear g) (fun _ => g < 192) fun s => s.withSys (s.sys.setPwr g { s.sys.pwr g with err := false })) ∧
    (∀ g, StepsTo (.grovePowerTransition g)
      (fun s => (s.sys.pwr g).state = 1 ∧ s.mach.groveUsed g = false ∧ (s.sys.pwr g).tgt = 2 ∧ s.mach.mem.wf = true)
      fun _ t => (t.sys.pwr g).state = 2 ∧ (∀ k, k / 24 = g → (t.mach.coreSt k).power = .c3) ∧
        ∀ k o, k / 24 = g → o < 2 ^ 18 → t.mach.mem.read (2 ^ 66 + k * 2 ^ 18 + o) = 0) ∧
    (∀ g, StepsTo (.grovePowerTransition g) (fun s => (s.sys.pwr g).state = 3 ∧ (s.sys.pwr g).tgt ≠ 2)
      fun _ t => (t.sys.pwr g).state = 0 ∧ ∀ k, k / 24 = g → (t.mach.coreSt k).power = .c0))

/-- spec/01 R15-R23: links train to an offered speed and width or fail; a link that is up counts its replays; one that goes down sets LDOWN and LOST of every
committed decoder that names its port; DCEVT says whether an event is pending; the status bits are cleared by writes of 1.
spec/01 R17, R18: a decoder commits when its ways and granule are legal, every port it names is up, and it overlaps no
committed decoder; a refused commit sets ERR; uncommitting clears LOST.
spec/01 R20, R32, spec/06 R199: a line of a device may fail from then on, for every access; an access of a thread that completes
with poison, or one of the host window without a completion for 50 ms, is an uncorrectable error: it is logged, and the threads
of its instruction take 0x30. -/
def Obligations.CxlLinksAndErrors : Prop :=
  (
    (∀ p sp w r f, Steps (.cxlLinkTrain p sp ⟨w, r⟩ f)
      (fun s => p < 12 ∧ s.sys.powerGood = true ∧ (s.sys.cport p).state < 2 ∧ f = true ∧ 1 ≤ sp ∧ sp ≤ 3 ∧
        (w = 4 ∨ w = 8 ∨ w = 16))
      fun s => s.withSys { s.sys with cports := s.sys.cports.set p { s.sys.cport p with state := 2, speed := sp, width := w } }) ∧
    (∀ p sp w r f, Steps (.cxlLinkTrain p sp ⟨w, r⟩ f)
      (fun s => p < 12 ∧ s.sys.powerGood = true ∧ (s.sys.cport p).state < 2 ∧
        ¬(f = true ∧ 1 ≤ sp ∧ sp ≤ 3 ∧ (w = 4 ∨ w = 8 ∨ w = 16)))
      fun s => s.withSys { s.sys with cports := s.sys.cports.set p { s.sys.cport p with state := 3, speed := 0, width := 0 } }) ∧
    (∀ p sp w r f, Steps (.cxlLinkTrain p sp ⟨w, r⟩ f)
      (fun s => p < 12 ∧ s.sys.powerGood = true ∧ (s.sys.cport p).state = 2)
      fun s => s.withSys { s.sys with cports := s.sys.cports.set p { s.sys.cport p with
        replays := min 65535 ((s.sys.cport p).replays + r) } }) ∧
    (∀ p, StepsTo (.cxlLinkDown p) (fun s => (s.sys.cport p).state = 2) fun s t =>
      (t.sys.cport p).state = 0 ∧ (t.sys.cport p).ldown = true ∧ t.sys.irq = s.sys.irq.deliver 211 ∧
      t.mach = { s.mach with decs := t.mach.decs } ∧ t.mach.decs.length = s.mach.decs.length ∧
      ∀ d, t.mach.dec d = { s.mach.dec d with lostPorts := (t.mach.dec d).lostPorts } ∧
        ∀ k, k ∈ (t.mach.dec d).lostPorts ↔ k ∈ (s.mach.dec d).lostPorts ∨
          k = p ∧ (s.mach.dec d).committed = true ∧ ∃ w, w < (s.mach.dec d).nways ∧ (s.mach.dec d).port w = p) ∧
    (∀ p, Steps (.cxlDcEvent ⟨p, true⟩) (fun _ => p < 12) fun s => State.fires
      (s.withSys { s.sys with cports := s.sys.cports.set p { s.sys.cport p with dcevt := true } }) 211) ∧
    (∀ p, Steps (.cxlDcEvent ⟨p, false⟩) (fun _ => p < 12)
      fun s => s.withSys { s.sys with cports := s.sys.cports.set p { s.sys.cport p with dcevt := false } }) ∧
    (∀ p, Steps (.cxlpPoisonClear p) (fun _ => p < 12)
      fun s => s.withSys { s.sys with cports := s.sys.cports.set p { s.sys.cport p with poison := false } }) ∧
    (∀ p, Steps (.cxlpLdownClear p) (fun _ => p < 12)
      fun s => s.withSys { s.sys with cports := s.sys.cports.set p { s.sys.cport p with ldown := false } }) ∧
    (∀ p, Steps (.cxlpReplaysClear p) (fun _ => p < 12)
      fun s => s.withSys { s.sys with cports := s.sys.cports.set p { s.sys.cport p with replays := 0 } })) ∧
  (
    (∀ d v, Steps (.cxldCommit d v)
      (fun s => d < 32 ∧ v.getLsbD 31 = true ∧ (s.mach.dec d).committed = false ∧ bits v.toNat 22 3 ≠ 7 ∧
        (∃ n, waysOf (bits v.toNat 25 4) = some n ∧
          ∀ w, w < n → (s.mach.dec d).port w < 12 ∧ (s.sys.cport ((s.mach.dec d).port w)).state = 2) ∧
        (∀ j, j ≠ d → (s.mach.dec j).committed = true →
          (s.mach.dec d).base + (s.mach.dec d).size ≤ (s.mach.dec j).base ∨ (s.mach.dec j).base + (s.mach.dec j).size ≤ (s.mach.dec d).base))
      fun s => s.withMach { s.mach with decs := s.mach.decs.set d { s.mach.dec d with
        ways := bits v.toNat 25 4, gran := bits v.toNat 22 3, committed := true, err := false, lostPorts := [] } }) ∧
    (∀ d v, Steps (.cxldCommit d v)
      (fun s => d < 32 ∧ v.getLsbD 31 = true ∧ (s.mach.dec d).committed = false ∧
        (bits v.toNat 22 3 = 7 ∨ waysOf (bits v.toNat 25 4) = none ∨
          (∃ n w, waysOf (bits v.toNat 25 4) = some n ∧ w < n ∧
            (12 ≤ (s.mach.dec d).port w ∨ (s.sys.cport ((s.mach.dec d).port w)).state ≠ 2)) ∨
          ∃ j, j ≠ d ∧ (s.mach.dec j).committed = true ∧ (s.mach.dec d).base < (s.mach.dec j).base + (s.mach.dec j).size ∧
            (s.mach.dec j).base < (s.mach.dec d).base + (s.mach.dec d).size))
      fun s => s.withMach { s.mach with decs := s.mach.decs.set d { s.mach.dec d with
        ways := bits v.toNat 25 4, gran := bits v.toNat 22 3, err := true, lostPorts := [] } }) ∧
    (∀ d v, Steps (.cxldUncommit d v) (fun s => d < 32 ∧ v.getLsbD 31 = false ∧ (s.mach.dec d).committed = true)
      fun s => s.withMach { s.mach with decs := s.mach.decs.set d { s.mach.dec d with committed := false, lostPorts := [] } }) ∧
    (∀ p pa bad, StepsTo (.cxlMemError p (.line pa) bad)
      (fun s => pkind pa = .cxl ∧ ∃ d, s.mach.decoder pa = some d ∧ d.portOf pa = p)
      fun s t => t.sys = s.sys ∧ MemoryKept s t ∧ ∀ a, pkind a = .cxl →
        (s.mach.home a / 64 ≠ s.mach.home pa / 64 → t.mach.cxlBad a = s.mach.cxlBad a) ∧
        (s.mach.home a / 64 = s.mach.home pa / 64 →
          (t.mach.cxlBad a = true ↔ bad = true ∨ ∃ d, s.mach.decoder a = some d ∧ d.portOf a ∈ d.lostPorts)))) ∧
  (
    (∀ p tid oid (o : PendOp) (f : Flight) (d : CDec), StepsTo (.cxlMemError p (.access tid oid) true)
      (fun s => (s.mach.thr tid).pend.find? (fun o => o.oid == oid) = some o ∧ f.uid = o.uid ∧ f.owner = tid ∧ LoneFlight s f ∧
        o.kind.isFetch = false ∧ pkind o.loc = .cxl ∧ s.mach.decoder o.loc = some d ∧ d.portOf o.loc = p ∧ p < 12 ∧ s.sys.cports.length = 12 ∧
        s.mach.errLog.length < 64)
      fun s t => (t.sys.cport p).poison = true ∧ t.mach.errLog = s.mach.errLog ++ [⟨0x30, (s.mach.thr tid).core, o.loc⟩] ∧
        FlightTraps s t f 0x30) ∧
    (∀ off (T : Thread) (o : PendOp) (f : Flight), StepsTo (.hostWindowTimeout off)
      (fun s => HostWaits s off T o f ∧ (o.sent.any fun x => decide (x.1 + 5000000 ≤ s.sys.ticks)) = true ∧ s.mach.errLog.length < 64)
      fun s t => t.sys.irq = s.sys.irq.deliver 209 ∧ t.mach.errLog = s.mach.errLog ++ [⟨0x30, T.core, o.loc⟩] ∧
        FlightTraps s t f 0x30))

/-- spec/01 R24-R31, spec/02 R76: a PCIe port trains; requests of devices reach memory through the port's IOMMU, or the IMSIC file
that they name, or are completed as unsupported; an AtomicOp answers the old value and stores the new one; a function-level
reset is counted; INTx levels reach their sources.
spec/01 R32: an access of the host window reaches the host at HOSTWIN and completes with data or with an error, which is logged; a
thread's load brings the bytes, its failing access takes 0x30; the request of a control core, of an instruction fetch or of an engine
is completed, or fails, in the same way. The answer to no such request is kept for the boot ROM's read of the line.
spec/02 R88, spec/01 R30: doorbells are ORed into, fire as they leave zero (a masked vector stays pending), and are cleared by the
read of the other side. -/
def Obligations.HostAndDevices : Prop :=
  (
    let device (s : State) (r : PcieReq) : Prop :=
      r.port < 2 ∧ (s.sys.pports.getD r.port {}).up = true ∧ ¬(r.port = 0 ∧ s.mach.pe0ep = true) ∧ r.translated = false ∧
      r.bytes.length ≤ 512 ∧ r.len ≤ 4096
    let refused (s : State) (n : Nat) (log : List Nat) : State :=
      let p := s.sys.pports.getD n {}
      s.withSys { s.sys with pports := s.sys.pports.set n { p with unsupported := p.unsupported + 1, iommuLog := p.iommuLog ++ log } }
    (∀ p w sp, Steps (.pcieLinkTrain p w sp)
      (fun s => p < 2 ∧ s.sys.powerGood = true ∧ (w = 1 ∨ w = 2 ∨ w = 4 ∨ w = 8 ∨ w = 16) ∧ 1 ≤ sp ∧ sp ≤ 7)
      fun s => s.withSys { s.sys with pports := s.sys.pports.set p { s.sys.pports.getD p {} with up := true, width := w, speed := sp } }) ∧
    (∀ (r : PcieReq) pa, StepsTo (.pcieInboundRequest r)
      (fun s => device s r ∧ r.write = true ∧ r.iommu = some pa ∧ inCavern pa r.bytes.length = true ∧
        s.mach.eccDouble = [] ∧ s.mach.mem.wf = true)
      fun s t => (∀ i, i < r.bytes.length → t.mach.mem.read (pa + i) = r.bytes.getD i 0) ∧
        (∀ a, a < pa ∨ pa + r.bytes.length ≤ a → t.mach.mem.read a = s.mach.mem.read a) ∧ t.sys = s.sys) ∧
    (∀ (r : PcieReq) pa, Steps (.pcieInboundRequest r)
      (fun s => device s r ∧ r.write = false ∧ r.iommu = some pa ∧ inCavern pa r.len = true ∧ s.mach.eccDouble = [])
      fun s => s.withSys { s.sys with lastBytes := (List.range r.len).map fun i => s.mach.mem.read (pa + i) }) ∧
    (∀ r : PcieReq, Steps (.pcieInboundRequest r) (fun s => device s r ∧ r.iommu = none) fun s => refused s r.port [r.addr]) ∧
    (∀ r : PcieReq, Steps (.pcieInboundRequest r)
      (fun s => r.port < 2 ∧ (s.sys.pports.getD r.port {}).up = true ∧ ¬(r.port = 0 ∧ s.mach.pe0ep = true) ∧
        (r.translated = true ∨ 512 < r.bytes.length ∨ 4096 < r.len)) fun s => refused s r.port []) ∧
    (∀ (r : PcieReq) pa h f, Steps (.pcieInboundRequest r)
      (fun s => device s r ∧ r.write = true ∧ r.iommu = some pa ∧ pa < 0x30000000 ∧ r.bytes ≠ [] ∧ imsicAt pa = some (h, f) ∧
        1 ≤ ofBytes r.bytes ∧ ofBytes r.bytes < 2048 ∧ (h, f, ofBytes r.bytes) ∉ s.sys.irq.imsic)
      fun s => s.withSys { s.sys with irq := { s.sys.irq with imsic := s.sys.irq.imsic ++ [(h, f, ofBytes r.bytes)] } }) ∧
    (∀ p (r : PcieAddr) pa op size x cmp, StepsTo (.pcieAtomicop p r op size x cmp)
      (fun s => p < 2 ∧ (s.sys.pports.getD p {}).up = true ∧ ¬(p = 0 ∧ s.mach.pe0ep = true) ∧ r.translated = false ∧
        r.iommu = some pa ∧ (size = 4 ∨ size = 8) ∧ pa % size = 0 ∧
        inCavern pa size = true ∧ s.mach.eccDouble = [] ∧ s.mach.mem.wf = true)
      fun s t =>
        let old := s.mach.num pa size
        t.sys.lastRead = BitVec.ofNat 64 old ∧
        (∀ a, a < pa ∨ pa + size ≤ a → t.mach.mem.read a = s.mach.mem.read a) ∧
        t.mach.num pa size = match op with
          | .fetchAdd => (old + x.toNat) % 256 ^ size
          | .swap => x.toNat % 256 ^ size
          | .cas => if old = cmp.toNat % 256 ^ size then x.toNat % 256 ^ size else old) ∧
    (∀ p (r : PcieAddr) op size x cmp, Steps (.pcieAtomicop p r op size x cmp)
      (fun s => p < 2 ∧ (s.sys.pports.getD p {}).up = true ∧ ¬(p = 0 ∧ s.mach.pe0ep = true) ∧ r.translated = false ∧
        r.iommu.isSome ∧ size ≠ 4 ∧ size ≠ 8) fun s => refused s p []) ∧
    StepsTo .pcieFlr (fun s => s.mach.pe0ep = true ∧ s.mach.mem.wf = true) (fun s t =>
      (∀ k, k < 16 → t.sys.mbox k = {}) ∧ (∀ a, 0x31100000 ≤ a → a < 0x31110000 → t.mach.mem.read a = 0) ∧
      (∀ l ∈ t.mach.lports, l.queue = []) ∧ t.mach.launches = s.mach.launches ∧ t.mach.threads = s.mach.threads ∧
      t.sys.irq.flrs = s.sys.irq.flrs + 1 ∧ t.sys.irq.msixCtl = 0 ∧ t.sys.epBar = 0 ∧ t.sys.epCmd = 0) ∧
    (∀ (r : PcieReq), Steps (.pcieInboundRequest r)
      (fun s => r.port = 0 ∧ (s.sys.pports.getD 0 {}).up = true ∧ s.mach.pe0ep = true ∧ r.cfg = true ∧ r.write = false ∧ r.addr = 0 ∧ r.len = 4)
      fun s => s.withSys { s.sys with lastBytes := [0x3C, 0x1F, 0x46, 0xC0] }) ∧
    (∀ src b, StepsTo (.pcieIntxInput src b) (fun s => 1 ≤ src ∧ src ≤ 8 ∧ ¬(s.mach.pe0ep = true ∧ src ≤ 4)) fun s t =>
      (src ∈ t.sys.irq.wired ↔ b = true) ∧ (∀ x, x ≠ src → (x ∈ t.sys.irq.wired ↔ x ∈ s.sys.irq.wired)) ∧ t.mach = s.mach)) ∧
  (
    let idle (s : State) : Prop := (∀ T ∈ s.mach.threads, T.pend = []) ∧ s.mach.reqs = []
    let asked (s : State) (off : Nat) (r : FarReq) : Prop := s.mach.pe0ep = true ∧ (∀ T ∈ s.mach.threads, T.pend = []) ∧
      s.mach.reqs = [r] ∧ r.loc = 0x4000000000 + off ∧ off < 0x4000000000
    let sent (s t : State) (off : Nat) (bs : List Byte) : Prop :=
      (∀ i, i < bs.length → t.mach.mem.read (hostLoc (s.mach.hostwin + off + i)) = bs.getD i 0) ∧
      ∀ a, (∀ i, i < bs.length → a ≠ hostLoc (s.mach.hostwin + off + i)) → t.mach.mem.read a = s.mach.mem.read a
    (∀ off w bs, StepsTo (.hostWindowAccess off w bs true)
      (fun s => s.mach.pe0ep = true ∧ off + bs.length ≤ 0x4000000000 ∧ s.mach.mem.wf = true ∧ idle s)
      fun s t => t.sys = s.sys ∧ sent s t off bs ∧ (off < 0x4000000000 → t.mach.cxlBad (0x4000000000 + off) = false)) ∧
    (∀ off w bs, StepsTo (.hostWindowAccess off w bs false)
      (fun s => s.mach.pe0ep = true ∧ off < 0x4000000000 ∧ off + bs.length ≤ 0x4000000000 ∧ idle s)
      fun s t => t.sys = s.sys ∧ MemoryKept s t ∧ t.mach.cxlBad (0x4000000000 + off) = true) ∧
    (∀ off bs h (r : FarReq), StepsTo (.hostWindowAccess off r.write bs true)
      (fun s => asked s off r ∧ r.who = .hart h ∧ off + bs.length ≤ 0x4000000000 ∧ s.mach.mem.wf = true)
      fun s t => sent s t off bs ∧ t.mach.reqs = [] ∧ (r.write = false → t.sys.lastBytes = bs)) ∧
    (∀ off w bs h (r : FarReq) (i : Instr), (i = .hostWindowAccess off w bs false ∨ i = .hostWindowTimeout off) → StepsTo i
      (fun s => asked s off r ∧ r.who = .hart h ∧ r.at_ + 5000000 ≤ s.sys.ticks ∧ off + bs.length ≤ 0x4000000000 ∧
        s.mach.errLog.length < 64)
      fun s t => MemoryKept s t ∧ t.mach.reqs = [] ∧ t.sys.hartFaults = s.sys.hartFaults ++ [(h, r.loc)] ∧
        t.mach.errLog = s.mach.errLog ++ [⟨0x30, h, r.loc⟩] ∧ t.sys.irq = s.sys.irq.deliver 209) ∧
    (∀ off bs core fd (r : FarReq), StepsTo (.hostWindowAccess off false bs true)
      (fun s => asked s off r ∧ r.who = .core core fd 0 ∧ r.write = false ∧ off % 64 = 0 ∧ off + bs.length ≤ 0x4000000000 ∧ s.mach.mem.wf = true)
      fun s t => sent s t off bs ∧ t.mach.reqs = [] ∧ t.mach.farLine core fd 0 r.va r.loc = some 0) ∧
    (∀ off bs id (r : FarReq) (e : EngOp) (i : Instr), (i = .hostWindowAccess off true bs false ∨ i = .hostWindowTimeout off) → StepsTo i
      (fun s => asked s off r ∧ r.who = .engine id ∧ s.mach.engines = [e] ∧ e.id = id ∧ r.at_ + 5000000 ≤ s.sys.ticks ∧
        off + bs.length ≤ 0x4000000000)
      fun s t => MemoryKept s t ∧ t.mach.reqs = [] ∧ t.mach.engines = [{ e with lines := (r.loc, r.write, 0x30) :: e.lines }]) ∧
    (∀ off bs (T : Thread) (o : PendOp) (f : Flight) h sz tm sc d a x, StepsTo (.hostWindowAccess off false bs true)
      (fun s => HostWaits s off T o f ∧ s.mach.hostwin % 4096 = 0 ∧ o.kind = .load false ∧ o.len = bs.length ∧ bs ≠ [] ∧ off % 64 + bs.length ≤ 64 ∧
        f.instr = .ld h sz tm sc d a x ∧ f.failed = none ∧ Sound s)
      fun s t => sent s t off bs ∧ Gone t T.id o.oid ∧
        ∃ g, t.mach.flight? o.uid = some g ∧ g.got = f.got ++ [(o.tag, bs)]) ∧
    (∀ off w bs (T : Thread) (o : PendOp) (f : Flight), StepsTo (.hostWindowAccess off w bs false)
      (fun s => HostWaits s off T o f ∧ off + bs.length ≤ 0x4000000000 ∧ s.mach.errLog.length < 64)
      fun s t => t.mach.errLog = s.mach.errLog ++ [⟨0x30, T.core, o.loc⟩] ∧ FlightTraps s t f 0x30)) ∧
  (
    (∀ k v, Steps (.mailboxInbellWrite k v) (fun s => k < 16 ∧ s.mach.pe0ep = true ∧ ((s.sys.mbox k).inbell ≠ 0 ∨ v = 0))
      fun s => s.withSys { s.sys with mboxes := s.sys.mboxes.set k { s.sys.mbox k with inbell := (s.sys.mbox k).inbell ||| v } }) ∧
    (∀ k v, Steps (.mailboxInbellWrite k v) (fun s => k < 16 ∧ s.mach.pe0ep = true ∧ (s.sys.mbox k).inbell = 0 ∧ v ≠ 0)
      fun s => State.fires (s.withSys { s.sys with mboxes := s.sys.mboxes.set k { s.sys.mbox k with inbell := v } }) (192 + k)) ∧
    (∀ k, Steps (.mailboxInbellRead k) (fun _ => k < 16)
      fun s => s.withSys { s.sys with mboxes := s.sys.mboxes.set k { s.sys.mbox k with inbell := 0 },
                                      lastRead := (s.sys.mbox k).inbell.setWidth 64 }) ∧
    (∀ k v, StepsTo (.mailboxOutbellWrite k v) (fun s => k < 16 ∧ s.sys.mboxes.length = 16) fun s t =>
      (t.sys.mbox k).outbell = (s.sys.mbox k).outbell ||| v ∧ t.mach = s.mach ∧
      ((s.sys.mbox k).outbell ≠ 0 ∨ v = 0 → t.sys.irq = s.sys.irq) ∧
      ((s.sys.mbox k).outbell = 0 → v ≠ 0 → s.sys.irq.mayRaise k = true →
        t.sys.irq = { s.sys.irq with msix := s.sys.irq.msix ++ [k] }) ∧
      ((s.sys.mbox k).outbell = 0 → v ≠ 0 → s.sys.irq.mayRaise k = false → t.sys.irq.msix = s.sys.irq.msix ∧
        ∀ j, j ∈ t.sys.irq.msixPend ↔ j ∈ s.sys.irq.msixPend ∨ j = k)) ∧
    (∀ k, Steps (.mailboxOutbellRead k) (fun s => k < 16 ∧ s.mach.pe0ep = true)
      fun s => s.withSys { s.sys with mboxes := s.sys.mboxes.set k { s.sys.mbox k with outbell := 0 },
                                      lastRead := (s.sys.mbox k).outbell.setWidth 64 }))

/-- spec/02 R78, R79: a fired source is delivered to the file that its enabled route entry names, and else left pending; an
illegal write of an entry is ignored as a whole; enabling an entry with a pending source sends it at once.
spec/02 R80, R81, R82: SIGPEND reads and clears, before the ORs of its cycle; the time base counts; a region timer fires once when the time base reaches
its compare, stops when it has no period, else moves on to the first compare in the future; a write of its registers that comes after a
firing falls in the next tick. -/
def Obligations.InterruptsAndTimers : Prop :=
  (
    (∀ (q : Irq) i, (look ({} : IRoute) q.routes i).en = true →
      ((look ({} : IRoute) q.routes i).hart, (look ({} : IRoute) q.routes i).file, (look ({} : IRoute) q.routes i).eiid) ∈ (q.deliver i).imsic
        ∧ (look ({} : IRoute) (q.deliver i).routes i).pend = false) ∧
    (∀ (q : Irq) i, (look ({} : IRoute) q.routes i).en = false →
      (look ({} : IRoute) (q.deliver i).routes i).pend = true ∧ (q.deliver i).imsic = q.imsic) ∧
    (∀ i v, Steps (.intRouteWrite i v)
      (fun _ => i < 256 ∧ (9 ≤ bits v.toNat 40 4 ∨ (v.getLsbD 63 = true ∧ bits v.toNat 0 11 = 0))) fun s => s) ∧
    (∀ i v, StepsTo (.intRouteWrite i v)
      (fun _ => i < 256 ∧ bits v.toNat 40 4 ≤ 8 ∧ (v.getLsbD 63 = true → bits v.toNat 0 11 ≠ 0)) fun s t =>
      let r := look ({} : IRoute) t.sys.irq.routes i
      let old := look ({} : IRoute) s.sys.irq.routes i
      r.en = v.getLsbD 63 ∧ r.hart = bits v.toNat 44 4 ∧ r.file = bits v.toNat 40 4 ∧ r.eiid = bits v.toNat 0 11 ∧
      r.pend = (old.pend && !v.getLsbD 63) ∧
      (v.getLsbD 63 = true → old.pend = true → (r.hart, r.file, r.eiid) ∈ t.sys.irq.imsic) ∧ t.mach = s.mach ∧
      ∀ j, j ≠ i → look ({} : IRoute) t.sys.irq.routes j = look ({} : IRoute) s.sys.irq.routes j)) ∧
  (
    (∀ c (old new : Word), StepsTo (.sigpendRead c)
      (fun s => c < 16 ∧ s.mach.sigpend.length = 16 ∧ s.mach.sigOld = [(c, old, new)])
      fun s t => t.sys.lastRead = old.setWidth 64 ∧ (nth t.mach.sigpend c) = new ∧
        t.sys.irq = (if old ≠ 0 ∧ new ≠ 0 then s.sys.irq.deliver (144 + c) else s.sys.irq)) ∧
    (∀ c, Steps (.sigpendRead c) (fun s => c < 16 ∧ ∀ x ∈ s.mach.sigOld, x.1 ≠ c)
      fun s => s.withBoth { s.sys with lastRead := (nth s.mach.sigpend c).setWidth 64 }
        { s.mach with sigpend := s.mach.sigpend.set c 0 }) ∧
    Steps .timeBaseTick (fun s => s.sys.powerGood = true) (fun s => s.withSys { s.sys with ticks := s.sys.ticks + 1 }) ∧
    (∀ k, StepsTo (.regionTimerFire k)
      (fun s => k < 16 ∧ s.sys.rtimers.length = 16 ∧ (s.sys.rtimer k).en = true ∧ (s.sys.rtimer k).cmp ≤ s.sys.time.toNat ∧
        s.sys.time.toNat + (s.sys.rtimer k).per < 2 ^ 64) fun s t =>
      let T := s.sys.rtimer k
      let U := t.sys.rtimer k
      let now := s.sys.time.toNat
      U.fired = true ∧ (T.per = 0 → U.en = false ∧ U.cmp = T.cmp) ∧
      (T.per ≠ 0 → U.en = true ∧ now < U.cmp ∧ U.cmp ≤ now + T.per ∧ (U.cmp - T.cmp) % T.per = 0) ∧
      (T.int = true → T.pre = false → t.sys.irq = s.sys.irq.deliver (160 + k)) ∧
      (T.ctr < s.mach.boundCtrs T.rcb → T.ctr ≠ 0xFFFF → U.ctrerr = T.ctrerr ∧
        (t.mach.ctr T.rcb T.ctr).val = ((s.mach.ctr T.rcb T.ctr).val + 1) % 2 ^ 32) ∧
      (s.mach.boundCtrs T.rcb ≤ T.ctr → T.ctr ≠ 0xFFFF → U.ctrerr = true ∧ t.mach.ctrs = s.mach.ctrs)) ∧
    let next (s : State) (k : Nat) : Nat := s.sys.ticks + if (s.sys.rtimer k).firedAt = some s.sys.ticks then 1 else 0
    (∀ k, Steps (.rtmrFiredClear k) (fun _ => k < 16)
      fun s => s.withSys { s.sys with rtimers := s.sys.rtimers.set k { s.sys.rtimer k with fired := false }, ticks := next s k }) ∧
    (∀ k, Steps (.rtmrCtrerrClear k) (fun _ => k < 16)
      fun s => s.withSys { s.sys with rtimers := s.sys.rtimers.set k { s.sys.rtimer k with ctrerr := false }, ticks := next s k }))

/-- spec/02 R73, R74, R76, R81, R82, R83: writes of registers without a behaviour of their own, of SYSQ_CFG, and the accesses of
control cores: memory, the host window, a launch port, an IMSIC file (whose first identity starts a waiting hart), MTIME only in M-mode, the timers of a hart, an
access fault outside the map or on a bad line, or a window that the spec does not lay out.
spec/02 R92, R93: PKG_PLIMIT is clamped to 1,200 to 3,400 W; a soft-error counter is cleared; the patrol corrects and logs.
spec/02 R94: the I3C target's dynamic address, its reads and its one writable register. -/
def Obligations.RegistersAndManagement : Prop :=
  (
    (∀ k v, Steps (.registerWrite (0x30023000 + 0x20 * k) true v) (fun s => k < 16 ∧ (s.sys.rtimer k).firedAt ≠ some s.sys.ticks)
      fun s => s.withSys { s.sys with rtimers := s.sys.rtimers.set k { s.sys.rtimer k with cmp := v.toNat } }) ∧
    (∀ k v, Steps (.registerWrite (0x30023000 + 0x20 * k) true v) (fun s => k < 16 ∧ (s.sys.rtimer k).firedAt = some s.sys.ticks)
      fun s => s.withSys { s.sys with
        rtimers := s.sys.rtimers.set k { s.sys.rtimer k with cmp := v.toNat }, ticks := s.sys.ticks + 1 }) ∧
    (∀ k v, Steps (.registerWrite (0x30026100 + 8 * k) true v) (fun _ => k < 16)
      fun s => s.withSys { s.sys with mtimecmp := s.sys.mtimecmp.set k v.toNat }) ∧
    (∀ v, Steps (.registerWrite 0x30024028 true v) (fun _ => True)
      fun s => s.withMach { s.mach with hostwin := v.toNat - v.toNat % 4096 }) ∧
    (∀ q v, Steps (.sysqCfgWrite q v) (fun _ => v.getLsbD 63 = true ∧ (bits v.toNat 0 4 < 4 ∨ 12 < bits v.toNat 0 4)) fun s => s) ∧
    (∀ q v, Steps (.sysqCfgWrite q v) (fun _ => q < 16 ∧ v.getLsbD 63 = true ∧ 4 ≤ bits v.toNat 0 4 ∧ bits v.toNat 0 4 ≤ 12)
      fun s =>
        let x := { s.mach.sysqs.getD q {} with en := true, log2 := bits v.toNat 0 4, tail := 0 }
        s.withMach { s.mach with sysqs := s.mach.sysqs.set q x }) ∧
    (∀ pa r, StepsTo (.controlCoreStore pa r)
      (fun s => r.op = .store ∧ inCavern pa r.bytes.length = true ∧ s.mach.eccDouble = [] ∧ s.mach.mem.wf = true) fun s t =>
      Stored s t pa r.bytes ∧ t.sys = s.sys) ∧
    (∀ pa r, Steps (.controlCoreStore pa r)
      (fun s => (r.op = .load ∨ r.op = .fetch) ∧ inCavern pa r.len = true ∧ r.cacheBad = false ∧ s.mach.eccDouble = [] ∧
        s.mach.eccSingle = [])
      fun s => s.withSys { s.sys with lastBytes := (List.range r.len).map fun i => s.mach.mem.read (pa + i) }) ∧
    (∀ pa r, StepsTo (.controlCoreStore pa r)
      (fun s => (r.op = .load ∨ r.op = .fetch) ∧ inCavern pa r.len = true ∧ r.cacheBad = true ∧ s.mach.errLog.length < 64)
      fun s t => t.sys.hartFaults = s.sys.hartFaults ++ [(r.hart, pa)] ∧ MemoryKept s t ∧
        t.mach.errLog = s.mach.errLog ++ [⟨0x30, r.hart, pa⟩] ∧ t.sys.irq = s.sys.irq.deliver 209) ∧
    (∀ pa r, Steps (.controlCoreStore pa r) (fun _ => r.op = .store ∧ 0x10000 ≤ pa ∧ pa + r.bytes.length ≤ 0x0C000000)
      fun s => s.withSys { s.sys with hartFaults := s.sys.hartFaults ++ [(r.hart, pa)] }) ∧
    (∀ pa r s, r.op = .store → r.bytes ≠ [] → 0x0C000000 ≤ pa → pa + r.bytes.length ≤ 0x0C004000 →
      exec (.controlCoreStore pa r) s = .refused (.deviceWindow pa)) ∧
    (∀ pa r h e a b, StepsTo (.controlCoreStore pa r)
      (fun s => r.op = .store ∧ r.hart = 0 ∧ h < 16 ∧ pa = 0x24000000 + 0x1000 * h ∧ r.bytes.length = 4 ∧
        1 ≤ ofBytes r.bytes ∧ ofBytes r.bytes < 2048 ∧ s.sys.harts.getD h .reset = .wfi ∧ s.sys.harts.getD 0 .reset = .run e a b)
      fun s t => (h, 0, ofBytes r.bytes) ∈ t.sys.irq.imsic ∧ t.sys.harts = s.sys.harts.set h (.run e h
        ((if s.mach.pe0ep = true then 1 else 0) + (if s.sys.bootHost = true then 2 else 0) + (if s.sys.bootErr = true then 4 else 0)))) ∧
    (∀ pa r, Steps (.controlCoreStore pa r)
      (fun _ => r.op = .store ∧ r.mmode = false ∧ r.bytes ≠ [] ∧ 0x30026000 ≤ pa ∧ pa + r.bytes.length ≤ 0x30026008) fun s => s) ∧
    (∀ pa r off, StepsTo (.controlCoreStore pa r)
      (fun s => (r.op = .store ∧ off + r.bytes.length ≤ 0x4000000000 ∨ (r.op = .load ∨ r.op = .fetch) ∧ off + r.len ≤ 0x4000000000) ∧
        pa = 0x4000000000 + off ∧ off < 0x4000000000 ∧ s.mach.pe0ep = true)
      fun s t => t.sys = s.sys ∧ MemoryKept s t ∧ ∃ q, t.mach.reqs = s.mach.reqs ++ [q] ∧ q.who = .hart r.hart ∧ q.loc = pa ∧
        q.at_ = s.sys.ticks ∧ (q.write = true ↔ r.op = .store)) ∧
    (∀ pa r p o, StepsTo (.controlCoreStore pa r)
      (fun s => r.op = .store ∧ p < 16 ∧ p < s.mach.lports.length ∧ pa = 0x31000000 + 0x10000 * p + o ∧ r.bytes ≠ [] ∧ 0x100 ≤ o ∧
        o + r.bytes.length ≤ 0x108 ∧ (s.mach.lport p).queue.length < 32)
      fun s t => t.sys = s.sys ∧ MemoryKept s t ∧
        (t.mach.lport p).queue = (s.mach.lport p).queue ++ [(s.mach.lport p).staged]) ∧
    (∀ pa r, Steps (.controlCoreStore pa r) (fun _ => r.op = .time) fun s => s.withSys { s.sys with lastRead := s.sys.time }) ∧
    (∀ pa r, Steps (.controlCoreStore pa r) (fun _ => r.op = .stimecmp)
      fun s => s.withSys { s.sys with stimecmp := s.sys.stimecmp.set r.hart (ofBytes r.bytes) }) ∧
    (∀ pa r, Steps (.controlCoreStore pa r) (fun _ => r.op = .vstimecmp)
      fun s => s.withSys { s.sys with vstimecmp := s.sys.vstimecmp.set r.hart (ofBytes r.bytes) }) ∧
    (∀ pa r, StepsTo (.controlCoreStore pa r) (fun _ => r.op = .pending) fun s t =>
      t = s.withSys { s.sys with lastRead := t.sys.lastRead } ∧ ∀ i, t.sys.lastRead.getLsbD i = true ↔
        i = 7 ∧ s.sys.mtimecmp.getD r.hart 0 ≤ s.sys.time.toNat ∨ i = 5 ∧ s.sys.stimecmp.getD r.hart 0 ≤ s.sys.time.toNat ∨
        i = 6 ∧ s.sys.vstimecmp.getD r.hart 0 ≤ s.sys.time.toNat)) ∧
  (
    (∀ v, Steps (.pkgPlimitWrite v) (fun _ => True)
      fun s => s.withSys { s.sys with plimit := min 3400 (max 1200 (v.toNat % 65536)) }) ∧
    (∀ k, StepsTo (.secntClear k) (fun _ => k < 4608) fun s t =>
      look (0, 0) t.mach.secnt k = (0, 0) ∧ (∀ j, j ≠ k → look (0, 0) t.mach.secnt j = look (0, 0) s.mach.secnt j) ∧
      MemoryKept s t) ∧
    StepsTo .cavernPatrol (fun _ => True) fun s t =>
      (∀ w ∈ t.mach.eccSingle, inCavern w 8 = false) ∧ t.mach.eccDouble = s.mach.eccDouble ∧ MemoryKept s t ∧
      t.mach.threads = s.mach.threads) ∧
  (
    (∀ a, Steps (.i3cSetdasa a) (fun _ => True) fun s => s.withSys { s.sys with i3cAddr := some a.toNat }) ∧
    (∀ a, Steps (.i3cEntdaa a) (fun s => s.sys.i3cAddr = none) fun s => s.withSys { s.sys with i3cAddr := some a.toNat }) ∧
    (∀ a, Steps (.i3cEntdaa a) (fun s => s.sys.i3cAddr ≠ none) fun s => s) ∧
    (∀ off n, StepsTo (.i3cPrivateRead off n) (fun _ => True) fun s t =>
      t.mach = s.mach ∧ t.sys.lastBytes.length = n ∧
      (off = 0 → 8 ≤ n → ofBytes (t.sys.lastBytes.take 8) = s.sys.pkgPwr % 2 ^ 64)) ∧
    (∀ off v, Steps (.i3cPrivateWrite off v) (fun _ => off = 0xFFF8)
      fun s => s.withSys { s.sys with plimit := min 3400 (max 1200 (v.toNat % 65536)), nack := false }) ∧
    (∀ off v, Steps (.i3cPrivateWrite off v) (fun _ => off ≠ 0xFFF8) fun s => s.withSys { s.sys with nack := true }))

/-! ### Reset, and what every step keeps -/

/-- The state after power-on reset: every hart, core and die is held, no link is up, memory is zero, nothing runs, and the
registers hold the reset values that spec/01 R46 and spec/02 R75, R78, R83, R91, R92 and the timers' tables give; the invariants
of this file hold. -/
def Obligations.ResetState : Prop :=
  let s := State.reset
  (∀ k, k < 16 → s.sys.harts.getD k .wfi = .reset) ∧ (∀ d, d < 4 → s.sys.dies.getD d .resetting = .held) ∧
  (∀ a, s.mach.mem.read a = 0) ∧ s.mach.threads = [] ∧ s.mach.launches = [] ∧ s.mach.flights = [] ∧
  (∀ n, n < 18 → s.sys.fports[n]? = some (s.sys.fport n) ∧ (s.sys.fport n).ctlEn = true ∧ (s.sys.fport n).maxver = 3 ∧
    (s.sys.fport n).bulkReq = 5 ∧ (s.sys.fport n).bulkRsp = 6 ∧ (s.sys.fport n).weight = 0x111111 ∧ (s.sys.fport n).state = 0 ∧
    (s.sys.fport n).ver = 0 ∧ (s.sys.fport n).err = 0 ∧ (s.sys.fport n).replays = 0) ∧
  (∀ n, look {} s.sys.routes n = { v := false, prim := 0, alt1 := 31, alt2 := 31, alt3 := 31 }) ∧
  (∀ n, look {} s.sys.irq.routes n = { en := false, pend := false, hart := 0, file := 0, eiid := 0 }) ∧
  (∀ k, k < 16 → (s.sys.rtimers.getD k {}).en = false ∧ (s.sys.rtimers.getD k {}).ctr = 0xFFFF ∧ (s.sys.rtimers.getD k {}).cmp = 0 ∧
    (s.mach.sysqs.getD k {}).en = false ∧ (s.mach.sysqs.getD k {}).tail = 0 ∧ (s.sys.mboxes.getD k {}).inbell = 0) ∧
  (∀ g, (look {} s.sys.gpwr g).idle = 100 ∧ (look {} s.sys.gpwr g).tgt = 0 ∧ (look {} s.sys.gpwr g).state = 0) ∧
  s.sys.pkgRun = 0 ∧ s.sys.plimit = 3400 ∧ s.sys.seThr = 0xFFFF ∧ s.mach.hostwin = 0 ∧ s.mach.pe0ep = false ∧ s.sys.pkgPwr = 0 ∧ s.sys.clkf = 1700 ∧
  s.sys.throtPwr = false ∧ s.sys.throtTherm = false ∧ s.sys.ticks = 0 ∧
  Settled s ∧ s.memOk ∧ FreshKeys s.mach ∧ PackageLegal s

/-- spec/01 R11, R39, R46, R47, spec/02 R75, R92: no step takes a register of the package out of the range that its field has. -/
def Obligations.StepKeepsPackageLegal : Prop := ∀ s t, PackageLegal s → step s = .next t → PackageLegal t

/-- Every step keeps the canonical form of memory (log 5): what the statements about memory take as a premise. -/
def Obligations.StepKeepsMemoryForm : Prop := ∀ s t, s.memOk → step s = .next t → t.memOk

/-- Every step keeps the keys of flights below the next key (log 1): what the statements about posts take as a premise. -/
def Obligations.StepKeepsFreshKeys : Prop := ∀ s t, FreshKeys s.mach → step s = .next t → FreshKeys t.mach

/-- Every step ends with nothing waiting for delivery (log 14): what the statements about steps of the package take as a premise. -/
def Obligations.StepsEndSettled : Prop := ∀ s t, Settled s → step s = .next t → Settled t

/-! ### Words and steps -/

/-- spec/10 R270, R275-R277: the word of a well-formed instruction decodes to it, with every operand at every value that the
encoding admits, under the version that assigns every major. -/
def Obligations.DecodeUndoesEncode : Prop := ∀ i : Instr, i.wf = true → ∃ w, encode i = some w ∧ decodeWord 3 w = .ok i

/-- spec/10 R277, R279: a word that decodes is the one encoding of its instruction, which is well formed: a reserved value of any
field is refused. -/
def Obligations.EncodeUndoesDecode : Prop :=
  ∀ (ver : Nat) (w : DWord) (i : Instr), decodeWord ver w = .ok i → i.wf = true ∧ encode i = some w

/-- spec/10 R270-R284: some words written out from the tables, and some that each check of R279 refuses with its cause. -/
def Obligations.WordsDecode : Prop :=
  decodeWord 1 (codeWord 0x10 0 2 0 0 (bodyOfA 1 2 3 0x10A 0)) = .ok (.add ⟨2, 0, 0⟩ .wrap (.v 1) (.v 2) (.v 3)) ∧
  decodeWord 1 (codeWord 0x10 4 0 3 0 (bodyOfA 0x101 0x108 255 0x109 3)) = .ok (.mad ⟨0, 3, 0⟩ .n32 (.c 1) .x0 (.v 255) .x1) ∧
  decodeWord 1 (codeWord 0x11 1 0 0 0 (bodyOfI 4 5 0xFFFFFF)) = .ok (.subImm ⟨0, 0, 0⟩ (.v 4) (.v 5) 0xFFFFFF) ∧
  decodeWord 1 (codeWord 0x50 0 0 1 15 (bodyOfM 8 10 0x7FFF 6 5)) =
    .ok (.ld ⟨0, 1, 15⟩ .b64 false .p (.v 8) (.v 10) 0x7FFF) ∧
  decodeWord 3 (codeWord 0x78 1 0 0 0 (bodyOfI 0x10A 0x10A 7)) = .ok (.sysc ⟨0, 0, 0⟩ 7) ∧
  decodeWord 3 (codeWord 0x00 0 0 0 0 (0x10A * 2 ^ 33 + 2 ^ 33 - 1)) = .ok (.bra ⟨0, 0, 0⟩ (BitVec.allOnes 33)) ∧
  decodeWord 3 (codeWord 0x1A 0 0 0 0 0) = .error 0x01 ∧ decodeWord 3 (codeWord 0x7F 0 0 0 0 0) = .error 0x01 ∧
  decodeWord 1 (codeWord 0x41 0 0 0 0 0) = .error 0x03 ∧ decodeWord 2 (codeWord 0x48 0 0 0 0 0) = .error 0x03 ∧
  decodeWord 3 (codeWord 0x10 12 0 0 0 (bodyOfA 1 2 3 0x10A 0)) = .error 0x02 ∧
  decodeWord 3 (codeWord 0x10 0 0 0 1 (bodyOfA 1 2 3 0x10A 0)) = .error 0x02 ∧
  decodeWord 3 (codeWord 0x10 0 0 0 0 (bodyOfA 1 2 3 0x10A 1)) = .error 0x02 ∧
  decodeWord 3 (codeWord 0x10 0 0 13 0 (bodyOfA 1 2 3 0x10A 0)) = .error 0x08 ∧
  decodeWord 3 (codeWord 0x10 0 0 0 0 (bodyOfA 0x108 2 3 0x10A 0)) = .error 0x05 ∧
  decodeWord 3 (codeWord 0x10 0 0 0 0 (bodyOfA 1 2 3 0 0)) = .error 0x05 ∧
  decodeWord 3 (codeWord 0x50 0 0 0 0 (bodyOfM 1 255 0 0 0)) = .error 0x05

/-- spec/03 R104, spec/10 R266, R271, R279, spec/04 R125: where the word at the pc of the picked quarter, as the quarter holds it of its
clause, or as it is fetched, decodes to an instruction that is ready and passes the remaining checks, the step is exec of that
instruction, with the quarter current and the pick used up (and the translation of the fetch, where it was walked, in the TLB, and
a single-bit error of what was read corrected). A word whose flag has no room waits, whatever it holds; one that does not decode
traps with the decoder's cause. A step that stands in the agenda runs as itself.
The same of the steps of the package: a step that stands first in the agenda, when no quarter has been picked, runs as itself. -/
def Obligations.StepRuns : Prop :=
  (
    ∀ (s : State) (q0 : Quarter) (rest : List Nat) (v : DWord) (tl : Option TlbEnt),
      let m := { s.mach with latch := rest, cur := q0.id }
      let e := s.mach.eff q0.launch
      let q := q0.coded s.sys m
      let w := q.held?.getD v
      let ver := (s.mach.launch q0.launch).ver
      let flag := (w.toNat / 2 ^ 46) % 16
      let read := ((m.setQ q).walked q.core e (q.pc.toNat % 2 ^ 57) tl).fetchFix s.sys q.core e q.pc.toNat
      Picked s q0 rest → fetchWord s.sys m q0.core e q0.pc.toNat = .ok v tl →
        (read.notReady q flag = true → step s = .next ({ s with mach := read } : State).settle) ∧
        (read.notReady q flag = false →
          (∀ i, decodeWord ver w = .ok i → read.loadHolds q.launch q.tids i = false → read.lateCheck s.sys q i = none →
            step s = exec i { s with mach := read }) ∧
          (∀ i c, decodeWord ver w = .ok i → read.loadHolds q.launch q.tids i = false → read.lateCheck s.sys q i = some c →
            step s = .next ({ s with mach := read.raiseQ q c flag fun _ => 0 } : State).settle) ∧
          ∀ c, decodeWord ver w = .error c → step s = .next ({ s with mach := read.raiseQ q c flag fun _ => 0 } : State).settle)) ∧
  (
    ∀ (s : State) (i : Instr) (rest : List Turn), s.mach.latch = [] → s.agenda = .ev i :: rest → i.hdr = none →
      step s = exec i { s with agenda := rest })

/-- spec/09 R241, R249: conversion of a finite number into FP32 in round-to-nearest mode: where no finite value is exceeded, the
result is a finite value, and no finite value of the format lies nearer to the number; and R242: a NaN becomes the canonical
one of its format. -/
def Obligations.ConversionRounds : Prop :=
  (∀ (s : Bool) (m : Nat) (e : Int), apart (ratOf (.num s m e)) 0 ≤ ratOf (fp32.dec 0x7F7FFFFF) →
    let r := fp32.conv 0 false (.num s m e)
    (∃ s' m' e', fp32.dec r = .num s' m' e') ∧
    ∀ c s' m' e', c < 2 ^ 32 → fp32.dec c = .num s' m' e' →
      apart (ratOf (.num s m e)) (ratOf (fp32.dec r)) ≤ apart (ratOf (.num s m e)) (ratOf (.num s' m' e'))) ∧
  (∀ rm nsat, fp32.conv rm nsat .nan = 0x7FC00000 ∧ bf16.conv rm nsat .nan = 0x7FC0 ∧ fp16.conv rm nsat .nan = 0x7E00 ∧
    e5m2.conv rm nsat .nan = 0x7E ∧ e4m3.conv rm nsat .nan = 0x7F) ∧
  ∀ (fm a b : Word), (in32 fm a).isNan = true → fpuAdd fm a b = 0x7FC00000 ∧ fpuMul fm a b = 0x7FC00000
end

