-- ==== Sys2Proof/Laws/Tables.lean ====
section
/-! SUPPORT. Finding and replacing in the tables of the state: threads, quarters, waves, launches, flights. -/

namespace Sys2Proof.Machine

/-- Finding by a key after a map that keeps keys. -/
theorem find?_map_key {α : Type} (key : α → Nat) (l : List α) (f : α → α) (hf : ∀ x, key (f x) = key x) (k : Nat) :
    (l.map f).find? (fun x => key x == k) = (l.find? fun x => key x == k).map f := by
  induction l with
  | nil => rfl
  | cons a r ih =>
    simp only [List.map_cons, List.find?_cons, hf]
    cases h : key a == k <;> simp [ih]

/-- A found entry has the key. -/
theorem find?_key {α : Type} {key : α → Nat} {l : List α} {k : Nat} {x : α}
    (h : l.find? (fun x => key x == k) = some x) : key x = k := by
  have := List.find?_some h
  simpa using this

/-- Replacing the entry of a key. -/
theorem find?_replace {α : Type} (key : α → Nat) (l : List α) (t : α) (k : Nat) :
    (l.map fun u => if key u == key t then t else u).find? (fun x => key x == k)
      = if key t = k then (l.find? fun x => key x == k).map (fun _ => t) else l.find? fun x => key x == k := by
  rw [find?_map_key key l _ (by intro x; by_cases h : key x = key t <;> simp [h])]
  cases h : l.find? fun x => key x == k with
  | none => simp
  | some x =>
    have hx : key x = k := find?_key h
    by_cases e : key t = k
    · simp [hx, e]
    · have : ¬ k = key t := fun c => e c.symm
      simp [hx, e, this]

/-! ### Threads -/

theorem thr?_id {m : Mach} {k : Nat} {t : Thread} (h : m.thr? k = some t) : t.id = k := find?_key (key := Thread.id) h

theorem thr_of {m : Mach} {k : Nat} {t : Thread} (h : m.thr? k = some t) : m.thr k = t := by simp [Mach.thr, h]

theorem thr_id {m : Mach} {k : Nat} (h : (m.thr? k).isSome) : (m.thr k).id = k := by
  obtain ⟨t, ht⟩ := Option.isSome_iff_exists.mp h
  rw [thr_of ht, thr?_id ht]

theorem thr?_setThr (m : Mach) (t : Thread) (k : Nat) :
    (m.setThr t).thr? k = if t.id = k then (m.thr? k).map (fun _ => t) else m.thr? k :=
  find?_replace Thread.id m.threads t k

theorem thr?_modAll (m : Mach) (ids : List Nat) (f : Thread → Thread) (hf : ∀ t, (f t).id = t.id) (k : Nat) :
    (m.modAll ids f).thr? k = (m.thr? k).map fun t => if ids.contains k then f t else t := by
  show (m.threads.map _).find? _ = _
  rw [find?_map_key Thread.id _ _ (by intro x; split <;> simp [hf])]
  show (m.thr? k).map _ = _
  cases h : m.thr? k with
  | none => rfl
  | some t => simp [thr?_id h]

theorem thr?_modThr (m : Mach) (i : Nat) (f : Thread → Thread) (hf : ∀ t, (f t).id = t.id) (h : (m.thr? i).isSome) (k : Nat) :
    (m.modThr i f).thr? k = (m.thr? k).map fun t => if k = i then f t else t := by
  have hi := thr_id h
  unfold Mach.modThr
  rw [thr?_setThr, hf, hi]
  by_cases e : i = k
  · subst e
    obtain ⟨t, ht⟩ := Option.isSome_iff_exists.mp h
    simp [ht, thr_of ht]
  · have e' : ¬ k = i := fun c => e c.symm
    simp [e, e']

/-! ### Quarters -/

theorem quarter?_id {m : Mach} {k : Nat} {q : Quarter} (h : m.quarter? k = some q) : q.id = k :=
  find?_key (key := Quarter.id) h

theorem quarter?_setQ (m : Mach) (q : Quarter) (k : Nat) :
    (m.setQ q).quarter? k = if q.id = k then (m.quarter? k).map (fun _ => q) else m.quarter? k :=
  find?_replace Quarter.id m.quarters q k

theorem flight?_id {m : Mach} {k : Nat} {f : Flight} (h : m.flight? k = some f) : f.uid = k := find?_key (key := Flight.uid) h

theorem launch?_id {m : Mach} {k : Nat} {l : Launch} (h : m.launch? k = some l) : l.id = k := find?_key (key := Launch.id) h

end Sys2Proof.Machine
end

