-- ==== Sys2Proof/Laws/Advance.lean ====
section
/-! SUPPORT. What an advance of the quarter and an instruction on registers alone can do (`onEach`, `regOp`). -/

namespace Sys2Proof.Machine

/-- A thread after its quarter moved past a word; `last` says that the word ended its clause. -/
def Thread.moved (t : Thread) (last : Bool) : Thread := if last then t.settled.boundary else t.settled

/-- A quarter after it moved past a word. -/
def Quarter.moved (q : Quarter) (cycle ord : Nat) : Quarter :=
  let q' := q.issued cycle ord
  if q.isLast then { q' with pc := q.pc + 8, hdr := none, looks := [] } else { q' with pc := q.pc + 8 }

@[simp] theorem Thread.settled_id (t : Thread) : t.settled.id = t.id := rfl
@[simp] theorem Thread.boundary_id (t : Thread) : t.boundary.id = t.id := rfl
@[simp] theorem Thread.moved_id (t : Thread) (b : Bool) : (t.moved b).id = t.id := by cases b <;> rfl
@[simp] theorem Quarter.moved_id (q : Quarter) (c o : Nat) : (q.moved c o).id = q.id := by
  unfold Quarter.moved; dsimp only; split <;> rfl

@[simp] theorem Thread.uncarry_id (t : Thread) (pc : Pc) (f : Nat) : (t.uncarry pc f).id = t.id := by
  unfold Thread.uncarry Thread.flagDown; split
  · split <;> rfl
  · rfl

@[simp] theorem Thread.wrAt_id (t : Thread) (s : Spec) (j : Nat) (w : Word) : (t.wrAt s j w).id = t.id := by cases s <;> rfl
@[simp] theorem Thread.wrFrom_id (s : Spec) (ws : List Word) : ∀ (t : Thread) (j : Nat), (t.wrFrom s j ws).id = t.id := by
  induction ws with
  | nil => intros; rfl
  | cons w r ih => intro t j; simp [Thread.wrFrom, ih]
@[simp] theorem Thread.wr_id (t : Thread) (s : Spec) (ws : List Word) : (t.wr s ws).id = t.id := t.wrFrom_id s ws 0
@[simp] theorem Thread.shift_id (t : Thread) (p : XPos) : (t.shift p).id = t.id := rfl
@[simp] theorem Thread.put_id (t : Thread) (h : Hdr) (d : Spec) (ws : List Word) : (t.put h d ws).id = t.id := by
  unfold Thread.put; dsimp only; split <;> simp

/-- The quarters with one replaced. -/
theorem quarters_setQ (m : Mach) (q : Quarter) :
    (m.setQ q).quarters = m.quarters.map fun u => if u.id == q.id then q else u := rfl

theorem modAll_modAll (m : Mach) (ids : List Nat) (f g : Thread → Thread) (hf : ∀ t, (f t).id = t.id) :
    (m.modAll ids f).modAll ids g = m.modAll ids (g ∘ f) := by
  unfold Mach.modAll
  simp only [List.map_map]
  congr 1
  apply List.map_congr_left
  intro t _
  by_cases h : t.id ∈ ids <;> simp [h, hf]

/-- THE ADVANCE of a quarter whose launch is not ending: its threads and itself move past the word, one key is used. -/
theorem advance_eq (m : Mach) (q : Quarter) (he : (m.launch q.launch).ending = none) :
    m.advance q = ((({ m with next := m.next + 1 } : Mach).modAll q.tids fun t => t.moved q.isLast).setQ
      (q.moved m.cycle m.next)) := by
  unfold Mach.advance Mach.take Quarter.moved Thread.moved
  by_cases hl : q.isLast
  · simp only [hl, if_true]
    rw [modAll_modAll _ q.tids Thread.settled Thread.boundary Thread.settled_id]
    have hs : ∀ (x : Mach) (ids : List Nat) (l : Nat), (x.launch l).ending = none → x.sweep ids l = x := by
      intro x ids l h; simp [Mach.sweep, h]
    rw [hs _ _ _ (by exact he)]
    rfl
  · simp [hl]

/-- A run of replacements, one for each listed thread. -/
theorem foldl_setThr (F : Nat × Nat → Thread) (l : List (Nat × Nat)) :
    ∀ (m : Mach), (∀ p ∈ l, (F p).id = p.2) →
      let m' := l.foldl (fun m' p => m'.setThr (F p)) m
      (m' = { m with threads := m'.threads }) ∧
      (∀ k, k ∉ l.map (fun p => p.2) → m'.thr? k = m.thr? k) ∧
      ((l.map fun p => p.2).Nodup → ∀ p ∈ l, (m.thr? p.2).isSome → m'.thr? p.2 = some (F p)) := by
  induction l with
  | nil => intro m _; simp
  | cons a r ih =>
    intro m hF
    have ha : (F a).id = a.2 := hF a (by simp)
    obtain ⟨h1, h2, h3⟩ := ih (m.setThr (F a)) (fun p hp => hF p (by simp [hp]))
    refine ⟨?_, ?_, ?_⟩
    · simp only [List.foldl_cons]; rw [h1]; rfl
    · intro k hk
      simp only [List.map_cons, List.mem_cons, not_or] at hk
      simp only [List.foldl_cons]
      rw [h2 k hk.2, thr?_setThr, ha, if_neg (fun c => hk.1 c.symm)]
    · intro hn p hp hs
      simp only [List.map_cons, List.nodup_cons] at hn
      simp only [List.foldl_cons]
      rcases List.mem_cons.mp hp with rfl | hp
      · rw [h2 _ hn.1, thr?_setThr, ha, if_pos rfl]
        obtain ⟨t, ht⟩ := Option.isSome_iff_exists.mp hs
        simp [ht]
      · apply h3 hn.2 p hp
        rw [thr?_setThr]
        split
        · simp [hs]
        · exact hs

/-- The threads of the quarter stand in its active list. -/
theorem mem_tids {q : Quarter} {p : Nat × Nat} (h : p ∈ q.active) : p.2 ∈ q.tids := List.mem_map_of_mem h

/-- AN INSTRUCTION ON REGISTERS ALONE, thread by thread. -/
theorem onEach_spec (m : Mach) (q : Quarter) (h : Hdr) (f : Nat → Nat → Thread → Thread)
    (hid : ∀ a b t, (f a b t).id = t.id) (hn : q.tids.Nodup) (hp : ∀ k ∈ q.tids, (m.thr? k).isSome)
    (he : (m.launch q.launch).ending = none) :
    (∀ p ∈ q.active, (m.onEach q h f).thr? p.2 =
      some ((f p.1 (m.fr p.1) ((m.thr p.2).uncarry q.pc h.flag.toNat)).moved q.isLast)) ∧
    (∀ k, k ∉ q.tids → (m.onEach q h f).thr? k = m.thr? k) ∧
    m.onEach q h f = { m with
      threads := (m.onEach q h f).threads
      quarters := m.quarters.map fun u => if u.id == q.id then q.moved m.cycle m.next else u
      free := m.free + 256, next := m.next + 1 } := by
  have hF : ∀ p ∈ q.active, (f p.1 (m.fr p.1) ((m.thr p.2).uncarry q.pc h.flag.toNat)).id = p.2 := by
    intro p hp'; rw [hid, Thread.uncarry_id, thr_id (hp _ (mem_tids hp'))]
  obtain ⟨h1, h2, h3⟩ := foldl_setThr
    (fun p => f p.1 (m.fr p.1) ((m.thr p.2).uncarry q.pc h.flag.toNat)) q.active m hF
  have e : m.onEach q h f = ((q.active.foldl (fun m' p => m'.setThr
      (f p.1 (m.fr p.1) ((m.thr p.2).uncarry q.pc h.flag.toNat))) m).used).advance q := rfl
  have hid' : ∀ t : Thread, (t.moved q.isLast).id = t.id := fun t => t.moved_id _
  have ht : ∀ k, (m.onEach q h f).thr? k = (((q.active.foldl (fun m' p => m'.setThr
      (f p.1 (m.fr p.1) ((m.thr p.2).uncarry q.pc h.flag.toNat))) m)).thr? k).map
        fun t => if q.tids.contains k then t.moved q.isLast else t := by
    intro k
    rw [e, advance_eq _ _ (by rw [h1]; exact he)]
    show ((Mach.modAll _ _ _)).thr? k = _
    rw [thr?_modAll _ _ _ hid']
    rfl
  refine ⟨?_, ?_, ?_⟩
  · intro p hp'
    rw [ht, h3 hn p hp' (hp _ (mem_tids hp'))]
    have : q.tids.contains p.2 = true := List.contains_iff_mem.mpr (mem_tids hp')
    simp [mem_tids hp']
  · intro k hk
    rw [ht, h2 k hk]
    cases m.thr? k <;> simp [hk]
  · have : (m.onEach q h f) = _ := e.trans (advance_eq _ _ (by rw [h1]; exact he))
    rw [this, h1]
    simp only [Mach.modAll, Mach.setQ, Mach.used, Quarter.moved_id]

end Sys2Proof.Machine
end

