-- ==== Sys2Proof/Laws/State.lean ====
section
/-! SUPPORT. The fields of the state after the named updates, one lemma a field; what the end of a step (`settle`) leaves. -/

namespace Sys2Proof.Machine

/-! ### The end of a step -/

theorem settle_mach (s : State) : s.settle.mach = { s.mach with fired := [], cxlErrs := [] } := rfl
@[simp] theorem settle_agenda (s : State) : s.settle.agenda = s.agenda := rfl
@[simp] theorem settle_fired (s : State) : s.settle.mach.fired = [] := rfl
@[simp] theorem settle_cxlErrs (s : State) : s.settle.mach.cxlErrs = [] := rfl
@[simp] theorem settle_cycle (s : State) : s.settle.mach.cycle = s.mach.cycle := rfl
@[simp] theorem settle_free (s : State) : s.settle.mach.free = s.mach.free := rfl
@[simp] theorem settle_next (s : State) : s.settle.mach.next = s.mach.next := rfl
@[simp] theorem settle_latch (s : State) : s.settle.mach.latch = s.mach.latch := rfl
@[simp] theorem settle_cur (s : State) : s.settle.mach.cur = s.mach.cur := rfl
@[simp] theorem settle_mem (s : State) : s.settle.mach.mem = s.mach.mem := rfl
@[simp] theorem settle_stamps (s : State) : s.settle.mach.stamps = s.mach.stamps := rfl
@[simp] theorem settle_relAt (s : State) : s.settle.mach.relAt = s.mach.relAt := rfl
@[simp] theorem settle_eccSingle (s : State) : s.settle.mach.eccSingle = s.mach.eccSingle := rfl
@[simp] theorem settle_eccDouble (s : State) : s.settle.mach.eccDouble = s.mach.eccDouble := rfl
@[simp] theorem settle_threads (s : State) : s.settle.mach.threads = s.mach.threads := rfl
@[simp] theorem settle_quarters (s : State) : s.settle.mach.quarters = s.mach.quarters := rfl
@[simp] theorem settle_glades (s : State) : s.settle.mach.glades = s.mach.glades := rfl
@[simp] theorem settle_waves (s : State) : s.settle.mach.waves = s.mach.waves := rfl
@[simp] theorem settle_launches (s : State) : s.settle.mach.launches = s.mach.launches := rfl
@[simp] theorem settle_calls (s : State) : s.settle.mach.calls = s.mach.calls := rfl
@[simp] theorem settle_flights (s : State) : s.settle.mach.flights = s.mach.flights := rfl
@[simp] theorem settle_cores (s : State) : s.settle.mach.cores = s.mach.cores := rfl
@[simp] theorem settle_sump (s : State) : s.settle.mach.sump = s.mach.sump := rfl
@[simp] theorem settle_posts (s : State) : s.settle.mach.posts = s.mach.posts := rfl
@[simp] theorem settle_doms (s : State) : s.settle.mach.doms = s.mach.doms := rfl
@[simp] theorem settle_filters (s : State) : s.settle.mach.filters = s.mach.filters := rfl
@[simp] theorem settle_tlbs (s : State) : s.settle.mach.tlbs = s.mach.tlbs := rfl
@[simp] theorem settle_copies (s : State) : s.settle.mach.copies = s.mach.copies := rfl
@[simp] theorem settle_ilines (s : State) : s.settle.mach.ilines = s.mach.ilines := rfl
@[simp] theorem settle_traps (s : State) : s.settle.mach.traps = s.mach.traps := rfl
@[simp] theorem settle_engines (s : State) : s.settle.mach.engines = s.mach.engines := rfl
@[simp] theorem settle_ranges (s : State) : s.settle.mach.ranges = s.mach.ranges := rfl
@[simp] theorem settle_rings (s : State) : s.settle.mach.rings = s.mach.rings := rfl
@[simp] theorem settle_tiles (s : State) : s.settle.mach.tiles = s.mach.tiles := rfl
@[simp] theorem settle_pairs (s : State) : s.settle.mach.pairs = s.mach.pairs := rfl
@[simp] theorem settle_cams (s : State) : s.settle.mach.cams = s.mach.cams := rfl
@[simp] theorem settle_shares (s : State) : s.settle.mach.shares = s.mach.shares := rfl
@[simp] theorem settle_sigs (s : State) : s.settle.mach.sigs = s.mach.sigs := rfl
@[simp] theorem settle_mmajs (s : State) : s.settle.mach.mmajs = s.mach.mmajs := rfl
@[simp] theorem settle_bars (s : State) : s.settle.mach.bars = s.mach.bars := rfl
@[simp] theorem settle_barMsgs (s : State) : s.settle.mach.barMsgs = s.mach.barMsgs := rfl
@[simp] theorem settle_ctrs (s : State) : s.settle.mach.ctrs = s.mach.ctrs := rfl
@[simp] theorem settle_bound (s : State) : s.settle.mach.bound = s.mach.bound := rfl
@[simp] theorem settle_qpairs (s : State) : s.settle.mach.qpairs = s.mach.qpairs := rfl
@[simp] theorem settle_colls (s : State) : s.settle.mach.colls = s.mach.colls := rfl
@[simp] theorem settle_comms (s : State) : s.settle.mach.comms = s.mach.comms := rfl
@[simp] theorem settle_out (s : State) : s.settle.mach.out = s.mach.out := rfl
@[simp] theorem settle_preempts (s : State) : s.settle.mach.preempts = s.mach.preempts := rfl
@[simp] theorem settle_lanes (s : State) : s.settle.mach.lanes = s.mach.lanes := rfl
@[simp] theorem settle_lports (s : State) : s.settle.mach.lports = s.mach.lports := rfl
@[simp] theorem settle_sysqs (s : State) : s.settle.mach.sysqs = s.mach.sysqs := rfl
@[simp] theorem settle_sigpend (s : State) : s.settle.mach.sigpend = s.mach.sigpend := rfl
@[simp] theorem settle_secnt (s : State) : s.settle.mach.secnt = s.mach.secnt := rfl
@[simp] theorem settle_errLog (s : State) : s.settle.mach.errLog = s.mach.errLog := rfl
@[simp] theorem settle_errOver (s : State) : s.settle.mach.errOver = s.mach.errOver := rfl
@[simp] theorem settle_sigWaits (s : State) : s.settle.mach.sigWaits = s.mach.sigWaits := rfl
@[simp] theorem settle_dispatchAt (s : State) : s.settle.mach.dispatchAt = s.mach.dispatchAt := rfl
@[simp] theorem settle_decs (s : State) : s.settle.mach.decs = s.mach.decs := rfl
@[simp] theorem settle_cxlFail (s : State) : s.settle.mach.cxlFail = s.mach.cxlFail := rfl
@[simp] theorem settle_pe0ep (s : State) : s.settle.mach.pe0ep = s.mach.pe0ep := rfl
@[simp] theorem settle_hostwin (s : State) : s.settle.mach.hostwin = s.mach.hostwin := rfl
@[simp] theorem settle_order (s : State) : s.settle.mach.order = s.mach.order := rfl
@[simp] theorem settle_filing (s : State) : s.settle.mach.filing = s.mach.filing := rfl
@[simp] theorem settle_walks (s : State) : s.settle.mach.walks = s.mach.walks := rfl
@[simp] theorem settle_reqs (s : State) : s.settle.mach.reqs = s.mach.reqs := rfl
@[simp] theorem settle_far (s : State) : s.settle.mach.far = s.mach.far := rfl
@[simp] theorem settle_lateFails (s : State) : s.settle.mach.lateFails = s.mach.lateFails := rfl
@[simp] theorem settle_sigOld (s : State) : s.settle.mach.sigOld = s.mach.sigOld := rfl
@[simp] theorem settle_ierrs (s : State) : s.settle.mach.ierrs = s.mach.ierrs := rfl
@[simp] theorem settle_farLines (s : State) : s.settle.mach.farLines = s.mach.farLines := rfl
@[simp] theorem settle_rcOn (s : State) : s.settle.mach.rcOn = s.mach.rcOn := rfl
@[simp] theorem settle_closed (s : State) : s.settle.mach.closed = s.mach.closed := rfl

/-- Noting errors behind CXL ports changes the ports alone. -/
theorem setPoison_sys (m : Mach) (r : Sys × List Nat) (pa : Nat) :
    ∃ c, (m.setPoison r pa).1 = { r.1 with cports := c } := by
  unfold Mach.setPoison
  split
  · exact ⟨_, rfl⟩
  · dsimp only; split
    · exact ⟨_, rfl⟩
    · exact ⟨_, rfl⟩

theorem setPoisons_sys (m : Mach) (l : List Nat) : ∀ r : Sys × List Nat, ∃ c, (l.foldl m.setPoison r).1 = { r.1 with cports := c } := by
  induction l with
  | nil => intro r; exact ⟨_, rfl⟩
  | cons a l ih =>
    intro r
    obtain ⟨c, h⟩ := setPoison_sys m r a
    obtain ⟨d, h'⟩ := ih (m.setPoison r a)
    exact ⟨d, by simp only [List.foldl_cons]; rw [h', h]⟩

/-- Of the package, the end of a step changes the interrupt state, the CXL ports and what SE_THR has noted. -/
theorem settle_sys (s : State) : ∃ c q h, s.settle.sys = { s.sys with cports := c, irq := q, seFired := h } := by
  obtain ⟨c, h⟩ := setPoisons_sys s.mach s.mach.cxlErrs (s.sys, [])
  simp only [State.settle, h]
  exact ⟨c, _, _, rfl⟩

theorem settle_sys_eq (s : State) : s.settle.sys =
    { s.sys with cports := s.settle.sys.cports, irq := s.settle.sys.irq, seFired := s.settle.sys.seFired } := by
  obtain ⟨c, q, h, e⟩ := settle_sys s
  rw [e]

@[simp] theorem settle_powerGood_sys (s : State) : s.settle.sys.powerGood = s.sys.powerGood := by
  obtain ⟨c, q, h, e⟩ := settle_sys s; rw [e]
@[simp] theorem settle_thermtrip_sys (s : State) : s.settle.sys.thermtrip = s.sys.thermtrip := by
  obtain ⟨c, q, h, e⟩ := settle_sys s; rw [e]
@[simp] theorem settle_devid_sys (s : State) : s.settle.sys.devid = s.sys.devid := by
  obtain ⟨c, q, h, e⟩ := settle_sys s; rw [e]
@[simp] theorem settle_fuses_sys (s : State) : s.settle.sys.fuses = s.sys.fuses := by
  obtain ⟨c, q, h, e⟩ := settle_sys s; rw [e]
@[simp] theorem settle_flash_sys (s : State) : s.settle.sys.flash = s.sys.flash := by
  obtain ⟨c, q, h, e⟩ := settle_sys s; rw [e]
@[simp] theorem settle_harts_sys (s : State) : s.settle.sys.harts = s.sys.harts := by
  obtain ⟨c, q, h, e⟩ := settle_sys s; rw [e]
@[simp] theorem settle_dies_sys (s : State) : s.settle.sys.dies = s.sys.dies := by
  obtain ⟨c, q, h, e⟩ := settle_sys s; rw [e]
@[simp] theorem settle_bootErr_sys (s : State) : s.settle.sys.bootErr = s.sys.bootErr := by
  obtain ⟨c, q, h, e⟩ := settle_sys s; rw [e]
@[simp] theorem settle_bootHost_sys (s : State) : s.settle.sys.bootHost = s.sys.bootHost := by
  obtain ⟨c, q, h, e⟩ := settle_sys s; rw [e]
@[simp] theorem settle_ticks_sys (s : State) : s.settle.sys.ticks = s.sys.ticks := by
  obtain ⟨c, q, h, e⟩ := settle_sys s; rw [e]
@[simp] theorem settle_mtimeOff_sys (s : State) : s.settle.sys.mtimeOff = s.sys.mtimeOff := by
  obtain ⟨c, q, h, e⟩ := settle_sys s; rw [e]
@[simp] theorem settle_mtimecmp_sys (s : State) : s.settle.sys.mtimecmp = s.sys.mtimecmp := by
  obtain ⟨c, q, h, e⟩ := settle_sys s; rw [e]
@[simp] theorem settle_pkgRun_sys (s : State) : s.settle.sys.pkgRun = s.sys.pkgRun := by
  obtain ⟨c, q, h, e⟩ := settle_sys s; rw [e]
@[simp] theorem settle_plimit_sys (s : State) : s.settle.sys.plimit = s.sys.plimit := by
  obtain ⟨c, q, h, e⟩ := settle_sys s; rw [e]
@[simp] theorem settle_seThr_sys (s : State) : s.settle.sys.seThr = s.sys.seThr := by
  obtain ⟨c, q, h, e⟩ := settle_sys s; rw [e]
@[simp] theorem settle_pkgPwr_sys (s : State) : s.settle.sys.pkgPwr = s.sys.pkgPwr := by
  obtain ⟨c, q, h, e⟩ := settle_sys s; rw [e]
@[simp] theorem settle_rails_sys (s : State) : s.settle.sys.rails = s.sys.rails := by
  obtain ⟨c, q, h, e⟩ := settle_sys s; rw [e]
@[simp] theorem settle_temps_sys (s : State) : s.settle.sys.temps = s.sys.temps := by
  obtain ⟨c, q, h, e⟩ := settle_sys s; rw [e]
@[simp] theorem settle_clkf_sys (s : State) : s.settle.sys.clkf = s.sys.clkf := by
  obtain ⟨c, q, h, e⟩ := settle_sys s; rw [e]
@[simp] theorem settle_throtPwr_sys (s : State) : s.settle.sys.throtPwr = s.sys.throtPwr := by
  obtain ⟨c, q, h, e⟩ := settle_sys s; rw [e]
@[simp] theorem settle_throtTherm_sys (s : State) : s.settle.sys.throtTherm = s.sys.throtTherm := by
  obtain ⟨c, q, h, e⟩ := settle_sys s; rw [e]
@[simp] theorem settle_pwrWindow_sys (s : State) : s.settle.sys.pwrWindow = s.sys.pwrWindow := by
  obtain ⟨c, q, h, e⟩ := settle_sys s; rw [e]
@[simp] theorem settle_fports_sys (s : State) : s.settle.sys.fports = s.sys.fports := by
  obtain ⟨c, q, h, e⟩ := settle_sys s; rw [e]
@[simp] theorem settle_pports_sys (s : State) : s.settle.sys.pports = s.sys.pports := by
  obtain ⟨c, q, h, e⟩ := settle_sys s; rw [e]
@[simp] theorem settle_routes_sys (s : State) : s.settle.sys.routes = s.sys.routes := by
  obtain ⟨c, q, h, e⟩ := settle_sys s; rw [e]
@[simp] theorem settle_rtimers_sys (s : State) : s.settle.sys.rtimers = s.sys.rtimers := by
  obtain ⟨c, q, h, e⟩ := settle_sys s; rw [e]
@[simp] theorem settle_gpwr_sys (s : State) : s.settle.sys.gpwr = s.sys.gpwr := by
  obtain ⟨c, q, h, e⟩ := settle_sys s; rw [e]
@[simp] theorem settle_mboxes_sys (s : State) : s.settle.sys.mboxes = s.sys.mboxes := by
  obtain ⟨c, q, h, e⟩ := settle_sys s; rw [e]
@[simp] theorem settle_i3cAddr_sys (s : State) : s.settle.sys.i3cAddr = s.sys.i3cAddr := by
  obtain ⟨c, q, h, e⟩ := settle_sys s; rw [e]
@[simp] theorem settle_lastRead_sys (s : State) : s.settle.sys.lastRead = s.sys.lastRead := by
  obtain ⟨c, q, h, e⟩ := settle_sys s; rw [e]
@[simp] theorem settle_lastBytes_sys (s : State) : s.settle.sys.lastBytes = s.sys.lastBytes := by
  obtain ⟨c, q, h, e⟩ := settle_sys s; rw [e]
@[simp] theorem settle_nack_sys (s : State) : s.settle.sys.nack = s.sys.nack := by
  obtain ⟨c, q, h, e⟩ := settle_sys s; rw [e]
@[simp] theorem settle_stimecmp_sys (s : State) : s.settle.sys.stimecmp = s.sys.stimecmp := by
  obtain ⟨c, q, h, e⟩ := settle_sys s; rw [e]
@[simp] theorem settle_vstimecmp_sys (s : State) : s.settle.sys.vstimecmp = s.sys.vstimecmp := by
  obtain ⟨c, q, h, e⟩ := settle_sys s; rw [e]
@[simp] theorem settle_hartFaults_sys (s : State) : s.settle.sys.hartFaults = s.sys.hartFaults := by
  obtain ⟨c, q, h, e⟩ := settle_sys s; rw [e]
@[simp] theorem settle_epCmd_sys (s : State) : s.settle.sys.epCmd = s.sys.epCmd := by
  obtain ⟨c, q, h, e⟩ := settle_sys s; rw [e]
@[simp] theorem settle_epBar_sys (s : State) : s.settle.sys.epBar = s.sys.epBar := by
  obtain ⟨c, q, h, e⟩ := settle_sys s; rw [e]
@[simp] theorem settle_pe0pin_sys (s : State) : s.settle.sys.pe0pin = s.sys.pe0pin := by
  obtain ⟨c, q, h, e⟩ := settle_sys s; rw [e]
@[simp] theorem settle_idpins_sys (s : State) : s.settle.sys.idpins = s.sys.idpins := by
  obtain ⟨c, q, h, e⟩ := settle_sys s; rw [e]

/-! ### take -/

@[simp] theorem take_cycle (m : Mach) (n : Nat) : (m.take n).cycle = m.cycle := rfl
@[simp] theorem take_free (m : Mach) (n : Nat) : (m.take n).free = m.free := rfl
@[simp] theorem take_cur (m : Mach) (n : Nat) : (m.take n).cur = m.cur := rfl
@[simp] theorem take_latch (m : Mach) (n : Nat) : (m.take n).latch = m.latch := rfl
@[simp] theorem take_mem (m : Mach) (n : Nat) : (m.take n).mem = m.mem := rfl
@[simp] theorem take_stamps (m : Mach) (n : Nat) : (m.take n).stamps = m.stamps := rfl
@[simp] theorem take_threads (m : Mach) (n : Nat) : (m.take n).threads = m.threads := rfl
@[simp] theorem take_quarters (m : Mach) (n : Nat) : (m.take n).quarters = m.quarters := rfl
@[simp] theorem take_waves (m : Mach) (n : Nat) : (m.take n).waves = m.waves := rfl
@[simp] theorem take_launches (m : Mach) (n : Nat) : (m.take n).launches = m.launches := rfl
@[simp] theorem take_flights (m : Mach) (n : Nat) : (m.take n).flights = m.flights := rfl
@[simp] theorem take_cores (m : Mach) (n : Nat) : (m.take n).cores = m.cores := rfl
@[simp] theorem take_copies (m : Mach) (n : Nat) : (m.take n).copies = m.copies := rfl
@[simp] theorem take_ilines (m : Mach) (n : Nat) : (m.take n).ilines = m.ilines := rfl
@[simp] theorem take_engines (m : Mach) (n : Nat) : (m.take n).engines = m.engines := rfl
@[simp] theorem take_traps (m : Mach) (n : Nat) : (m.take n).traps = m.traps := rfl
@[simp] theorem take_doms (m : Mach) (n : Nat) : (m.take n).doms = m.doms := rfl
@[simp] theorem take_sump (m : Mach) (n : Nat) : (m.take n).sump = m.sump := rfl
@[simp] theorem take_rings (m : Mach) (n : Nat) : (m.take n).rings = m.rings := rfl
@[simp] theorem take_tiles (m : Mach) (n : Nat) : (m.take n).tiles = m.tiles := rfl
@[simp] theorem take_ctrs (m : Mach) (n : Nat) : (m.take n).ctrs = m.ctrs := rfl
@[simp] theorem take_decs (m : Mach) (n : Nat) : (m.take n).decs = m.decs := rfl
@[simp] theorem take_cxlFail (m : Mach) (n : Nat) : (m.take n).cxlFail = m.cxlFail := rfl
@[simp] theorem take_pe0ep (m : Mach) (n : Nat) : (m.take n).pe0ep = m.pe0ep := rfl
@[simp] theorem take_hostwin (m : Mach) (n : Nat) : (m.take n).hostwin = m.hostwin := rfl
@[simp] theorem take_order (m : Mach) (n : Nat) : (m.take n).order = m.order := rfl
@[simp] theorem take_filing (m : Mach) (n : Nat) : (m.take n).filing = m.filing := rfl
@[simp] theorem take_walks (m : Mach) (n : Nat) : (m.take n).walks = m.walks := rfl
@[simp] theorem take_reqs (m : Mach) (n : Nat) : (m.take n).reqs = m.reqs := rfl
@[simp] theorem take_far (m : Mach) (n : Nat) : (m.take n).far = m.far := rfl
@[simp] theorem take_lateFails (m : Mach) (n : Nat) : (m.take n).lateFails = m.lateFails := rfl
@[simp] theorem take_sigOld (m : Mach) (n : Nat) : (m.take n).sigOld = m.sigOld := rfl
@[simp] theorem take_fired (m : Mach) (n : Nat) : (m.take n).fired = m.fired := rfl
@[simp] theorem take_relAt (m : Mach) (n : Nat) : (m.take n).relAt = m.relAt := rfl
@[simp] theorem take_eccSingle (m : Mach) (n : Nat) : (m.take n).eccSingle = m.eccSingle := rfl
@[simp] theorem take_eccDouble (m : Mach) (n : Nat) : (m.take n).eccDouble = m.eccDouble := rfl
@[simp] theorem take_glades (m : Mach) (n : Nat) : (m.take n).glades = m.glades := rfl
@[simp] theorem take_calls (m : Mach) (n : Nat) : (m.take n).calls = m.calls := rfl
@[simp] theorem take_posts (m : Mach) (n : Nat) : (m.take n).posts = m.posts := rfl
@[simp] theorem take_filters (m : Mach) (n : Nat) : (m.take n).filters = m.filters := rfl
@[simp] theorem take_tlbs (m : Mach) (n : Nat) : (m.take n).tlbs = m.tlbs := rfl
@[simp] theorem take_ranges (m : Mach) (n : Nat) : (m.take n).ranges = m.ranges := rfl
@[simp] theorem take_pairs (m : Mach) (n : Nat) : (m.take n).pairs = m.pairs := rfl
@[simp] theorem take_cams (m : Mach) (n : Nat) : (m.take n).cams = m.cams := rfl
@[simp] theorem take_shares (m : Mach) (n : Nat) : (m.take n).shares = m.shares := rfl
@[simp] theorem take_sigs (m : Mach) (n : Nat) : (m.take n).sigs = m.sigs := rfl
@[simp] theorem take_mmajs (m : Mach) (n : Nat) : (m.take n).mmajs = m.mmajs := rfl
@[simp] theorem take_bars (m : Mach) (n : Nat) : (m.take n).bars = m.bars := rfl
@[simp] theorem take_barMsgs (m : Mach) (n : Nat) : (m.take n).barMsgs = m.barMsgs := rfl
@[simp] theorem take_bound (m : Mach) (n : Nat) : (m.take n).bound = m.bound := rfl
@[simp] theorem take_qpairs (m : Mach) (n : Nat) : (m.take n).qpairs = m.qpairs := rfl
@[simp] theorem take_colls (m : Mach) (n : Nat) : (m.take n).colls = m.colls := rfl
@[simp] theorem take_comms (m : Mach) (n : Nat) : (m.take n).comms = m.comms := rfl
@[simp] theorem take_out (m : Mach) (n : Nat) : (m.take n).out = m.out := rfl
@[simp] theorem take_preempts (m : Mach) (n : Nat) : (m.take n).preempts = m.preempts := rfl
@[simp] theorem take_lanes (m : Mach) (n : Nat) : (m.take n).lanes = m.lanes := rfl
@[simp] theorem take_lports (m : Mach) (n : Nat) : (m.take n).lports = m.lports := rfl
@[simp] theorem take_sysqs (m : Mach) (n : Nat) : (m.take n).sysqs = m.sysqs := rfl
@[simp] theorem take_sigpend (m : Mach) (n : Nat) : (m.take n).sigpend = m.sigpend := rfl
@[simp] theorem take_secnt (m : Mach) (n : Nat) : (m.take n).secnt = m.secnt := rfl
@[simp] theorem take_errLog (m : Mach) (n : Nat) : (m.take n).errLog = m.errLog := rfl
@[simp] theorem take_errOver (m : Mach) (n : Nat) : (m.take n).errOver = m.errOver := rfl
@[simp] theorem take_cxlErrs (m : Mach) (n : Nat) : (m.take n).cxlErrs = m.cxlErrs := rfl
@[simp] theorem take_sigWaits (m : Mach) (n : Nat) : (m.take n).sigWaits = m.sigWaits := rfl
@[simp] theorem take_dispatchAt (m : Mach) (n : Nat) : (m.take n).dispatchAt = m.dispatchAt := rfl
@[simp] theorem take_ierrs (m : Mach) (n : Nat) : (m.take n).ierrs = m.ierrs := rfl
@[simp] theorem take_farLines (m : Mach) (n : Nat) : (m.take n).farLines = m.farLines := rfl
@[simp] theorem take_rcOn (m : Mach) (n : Nat) : (m.take n).rcOn = m.rcOn := rfl
@[simp] theorem take_closed (m : Mach) (n : Nat) : (m.take n).closed = m.closed := rfl

/-! ### used -/

@[simp] theorem used_cycle (m : Mach) : (m.used).cycle = m.cycle := rfl
@[simp] theorem used_next (m : Mach) : (m.used).next = m.next := rfl
@[simp] theorem used_cur (m : Mach) : (m.used).cur = m.cur := rfl
@[simp] theorem used_latch (m : Mach) : (m.used).latch = m.latch := rfl
@[simp] theorem used_mem (m : Mach) : (m.used).mem = m.mem := rfl
@[simp] theorem used_stamps (m : Mach) : (m.used).stamps = m.stamps := rfl
@[simp] theorem used_threads (m : Mach) : (m.used).threads = m.threads := rfl
@[simp] theorem used_quarters (m : Mach) : (m.used).quarters = m.quarters := rfl
@[simp] theorem used_waves (m : Mach) : (m.used).waves = m.waves := rfl
@[simp] theorem used_launches (m : Mach) : (m.used).launches = m.launches := rfl
@[simp] theorem used_flights (m : Mach) : (m.used).flights = m.flights := rfl
@[simp] theorem used_cores (m : Mach) : (m.used).cores = m.cores := rfl
@[simp] theorem used_copies (m : Mach) : (m.used).copies = m.copies := rfl
@[simp] theorem used_ilines (m : Mach) : (m.used).ilines = m.ilines := rfl
@[simp] theorem used_engines (m : Mach) : (m.used).engines = m.engines := rfl
@[simp] theorem used_traps (m : Mach) : (m.used).traps = m.traps := rfl
@[simp] theorem used_doms (m : Mach) : (m.used).doms = m.doms := rfl
@[simp] theorem used_sump (m : Mach) : (m.used).sump = m.sump := rfl
@[simp] theorem used_rings (m : Mach) : (m.used).rings = m.rings := rfl
@[simp] theorem used_tiles (m : Mach) : (m.used).tiles = m.tiles := rfl
@[simp] theorem used_ctrs (m : Mach) : (m.used).ctrs = m.ctrs := rfl
@[simp] theorem used_decs (m : Mach) : (m.used).decs = m.decs := rfl
@[simp] theorem used_cxlFail (m : Mach) : (m.used).cxlFail = m.cxlFail := rfl
@[simp] theorem used_pe0ep (m : Mach) : (m.used).pe0ep = m.pe0ep := rfl
@[simp] theorem used_hostwin (m : Mach) : (m.used).hostwin = m.hostwin := rfl
@[simp] theorem used_order (m : Mach) : (m.used).order = m.order := rfl
@[simp] theorem used_filing (m : Mach) : (m.used).filing = m.filing := rfl
@[simp] theorem used_walks (m : Mach) : (m.used).walks = m.walks := rfl
@[simp] theorem used_reqs (m : Mach) : (m.used).reqs = m.reqs := rfl
@[simp] theorem used_far (m : Mach) : (m.used).far = m.far := rfl
@[simp] theorem used_lateFails (m : Mach) : (m.used).lateFails = m.lateFails := rfl
@[simp] theorem used_sigOld (m : Mach) : (m.used).sigOld = m.sigOld := rfl
@[simp] theorem used_fired (m : Mach) : (m.used).fired = m.fired := rfl
@[simp] theorem used_relAt (m : Mach) : (m.used).relAt = m.relAt := rfl
@[simp] theorem used_eccSingle (m : Mach) : (m.used).eccSingle = m.eccSingle := rfl
@[simp] theorem used_eccDouble (m : Mach) : (m.used).eccDouble = m.eccDouble := rfl
@[simp] theorem used_glades (m : Mach) : (m.used).glades = m.glades := rfl
@[simp] theorem used_calls (m : Mach) : (m.used).calls = m.calls := rfl
@[simp] theorem used_posts (m : Mach) : (m.used).posts = m.posts := rfl
@[simp] theorem used_filters (m : Mach) : (m.used).filters = m.filters := rfl
@[simp] theorem used_tlbs (m : Mach) : (m.used).tlbs = m.tlbs := rfl
@[simp] theorem used_ranges (m : Mach) : (m.used).ranges = m.ranges := rfl
@[simp] theorem used_pairs (m : Mach) : (m.used).pairs = m.pairs := rfl
@[simp] theorem used_cams (m : Mach) : (m.used).cams = m.cams := rfl
@[simp] theorem used_shares (m : Mach) : (m.used).shares = m.shares := rfl
@[simp] theorem used_sigs (m : Mach) : (m.used).sigs = m.sigs := rfl
@[simp] theorem used_mmajs (m : Mach) : (m.used).mmajs = m.mmajs := rfl
@[simp] theorem used_bars (m : Mach) : (m.used).bars = m.bars := rfl
@[simp] theorem used_barMsgs (m : Mach) : (m.used).barMsgs = m.barMsgs := rfl
@[simp] theorem used_bound (m : Mach) : (m.used).bound = m.bound := rfl
@[simp] theorem used_qpairs (m : Mach) : (m.used).qpairs = m.qpairs := rfl
@[simp] theorem used_colls (m : Mach) : (m.used).colls = m.colls := rfl
@[simp] theorem used_comms (m : Mach) : (m.used).comms = m.comms := rfl
@[simp] theorem used_out (m : Mach) : (m.used).out = m.out := rfl
@[simp] theorem used_preempts (m : Mach) : (m.used).preempts = m.preempts := rfl
@[simp] theorem used_lanes (m : Mach) : (m.used).lanes = m.lanes := rfl
@[simp] theorem used_lports (m : Mach) : (m.used).lports = m.lports := rfl
@[simp] theorem used_sysqs (m : Mach) : (m.used).sysqs = m.sysqs := rfl
@[simp] theorem used_sigpend (m : Mach) : (m.used).sigpend = m.sigpend := rfl
@[simp] theorem used_secnt (m : Mach) : (m.used).secnt = m.secnt := rfl
@[simp] theorem used_errLog (m : Mach) : (m.used).errLog = m.errLog := rfl
@[simp] theorem used_errOver (m : Mach) : (m.used).errOver = m.errOver := rfl
@[simp] theorem used_cxlErrs (m : Mach) : (m.used).cxlErrs = m.cxlErrs := rfl
@[simp] theorem used_sigWaits (m : Mach) : (m.used).sigWaits = m.sigWaits := rfl
@[simp] theorem used_dispatchAt (m : Mach) : (m.used).dispatchAt = m.dispatchAt := rfl
@[simp] theorem used_ierrs (m : Mach) : (m.used).ierrs = m.ierrs := rfl
@[simp] theorem used_farLines (m : Mach) : (m.used).farLines = m.farLines := rfl
@[simp] theorem used_rcOn (m : Mach) : (m.used).rcOn = m.rcOn := rfl
@[simp] theorem used_closed (m : Mach) : (m.used).closed = m.closed := rfl

/-! ### setThr -/

@[simp] theorem setThr_cycle (m : Mach) (t : Thread) : (m.setThr t).cycle = m.cycle := rfl
@[simp] theorem setThr_next (m : Mach) (t : Thread) : (m.setThr t).next = m.next := rfl
@[simp] theorem setThr_free (m : Mach) (t : Thread) : (m.setThr t).free = m.free := rfl
@[simp] theorem setThr_cur (m : Mach) (t : Thread) : (m.setThr t).cur = m.cur := rfl
@[simp] theorem setThr_latch (m : Mach) (t : Thread) : (m.setThr t).latch = m.latch := rfl
@[simp] theorem setThr_mem (m : Mach) (t : Thread) : (m.setThr t).mem = m.mem := rfl
@[simp] theorem setThr_stamps (m : Mach) (t : Thread) : (m.setThr t).stamps = m.stamps := rfl
@[simp] theorem setThr_quarters (m : Mach) (t : Thread) : (m.setThr t).quarters = m.quarters := rfl
@[simp] theorem setThr_waves (m : Mach) (t : Thread) : (m.setThr t).waves = m.waves := rfl
@[simp] theorem setThr_launches (m : Mach) (t : Thread) : (m.setThr t).launches = m.launches := rfl
@[simp] theorem setThr_flights (m : Mach) (t : Thread) : (m.setThr t).flights = m.flights := rfl
@[simp] theorem setThr_cores (m : Mach) (t : Thread) : (m.setThr t).cores = m.cores := rfl
@[simp] theorem setThr_copies (m : Mach) (t : Thread) : (m.setThr t).copies = m.copies := rfl
@[simp] theorem setThr_ilines (m : Mach) (t : Thread) : (m.setThr t).ilines = m.ilines := rfl
@[simp] theorem setThr_engines (m : Mach) (t : Thread) : (m.setThr t).engines = m.engines := rfl
@[simp] theorem setThr_traps (m : Mach) (t : Thread) : (m.setThr t).traps = m.traps := rfl
@[simp] theorem setThr_doms (m : Mach) (t : Thread) : (m.setThr t).doms = m.doms := rfl
@[simp] theorem setThr_sump (m : Mach) (t : Thread) : (m.setThr t).sump = m.sump := rfl
@[simp] theorem setThr_rings (m : Mach) (t : Thread) : (m.setThr t).rings = m.rings := rfl
@[simp] theorem setThr_tiles (m : Mach) (t : Thread) : (m.setThr t).tiles = m.tiles := rfl
@[simp] theorem setThr_ctrs (m : Mach) (t : Thread) : (m.setThr t).ctrs = m.ctrs := rfl
@[simp] theorem setThr_decs (m : Mach) (t : Thread) : (m.setThr t).decs = m.decs := rfl
@[simp] theorem setThr_cxlFail (m : Mach) (t : Thread) : (m.setThr t).cxlFail = m.cxlFail := rfl
@[simp] theorem setThr_pe0ep (m : Mach) (t : Thread) : (m.setThr t).pe0ep = m.pe0ep := rfl
@[simp] theorem setThr_hostwin (m : Mach) (t : Thread) : (m.setThr t).hostwin = m.hostwin := rfl
@[simp] theorem setThr_order (m : Mach) (t : Thread) : (m.setThr t).order = m.order := rfl
@[simp] theorem setThr_filing (m : Mach) (t : Thread) : (m.setThr t).filing = m.filing := rfl
@[simp] theorem setThr_walks (m : Mach) (t : Thread) : (m.setThr t).walks = m.walks := rfl
@[simp] theorem setThr_reqs (m : Mach) (t : Thread) : (m.setThr t).reqs = m.reqs := rfl
@[simp] theorem setThr_far (m : Mach) (t : Thread) : (m.setThr t).far = m.far := rfl
@[simp] theorem setThr_lateFails (m : Mach) (t : Thread) : (m.setThr t).lateFails = m.lateFails := rfl
@[simp] theorem setThr_sigOld (m : Mach) (t : Thread) : (m.setThr t).sigOld = m.sigOld := rfl
@[simp] theorem setThr_fired (m : Mach) (t : Thread) : (m.setThr t).fired = m.fired := rfl
@[simp] theorem setThr_relAt (m : Mach) (t : Thread) : (m.setThr t).relAt = m.relAt := rfl
@[simp] theorem setThr_eccSingle (m : Mach) (t : Thread) : (m.setThr t).eccSingle = m.eccSingle := rfl
@[simp] theorem setThr_eccDouble (m : Mach) (t : Thread) : (m.setThr t).eccDouble = m.eccDouble := rfl
@[simp] theorem setThr_glades (m : Mach) (t : Thread) : (m.setThr t).glades = m.glades := rfl
@[simp] theorem setThr_calls (m : Mach) (t : Thread) : (m.setThr t).calls = m.calls := rfl
@[simp] theorem setThr_posts (m : Mach) (t : Thread) : (m.setThr t).posts = m.posts := rfl
@[simp] theorem setThr_filters (m : Mach) (t : Thread) : (m.setThr t).filters = m.filters := rfl
@[simp] theorem setThr_tlbs (m : Mach) (t : Thread) : (m.setThr t).tlbs = m.tlbs := rfl
@[simp] theorem setThr_ranges (m : Mach) (t : Thread) : (m.setThr t).ranges = m.ranges := rfl
@[simp] theorem setThr_pairs (m : Mach) (t : Thread) : (m.setThr t).pairs = m.pairs := rfl
@[simp] theorem setThr_cams (m : Mach) (t : Thread) : (m.setThr t).cams = m.cams := rfl
@[simp] theorem setThr_shares (m : Mach) (t : Thread) : (m.setThr t).shares = m.shares := rfl
@[simp] theorem setThr_sigs (m : Mach) (t : Thread) : (m.setThr t).sigs = m.sigs := rfl
@[simp] theorem setThr_mmajs (m : Mach) (t : Thread) : (m.setThr t).mmajs = m.mmajs := rfl
@[simp] theorem setThr_bars (m : Mach) (t : Thread) : (m.setThr t).bars = m.bars := rfl
@[simp] theorem setThr_barMsgs (m : Mach) (t : Thread) : (m.setThr t).barMsgs = m.barMsgs := rfl
@[simp] theorem setThr_bound (m : Mach) (t : Thread) : (m.setThr t).bound = m.bound := rfl
@[simp] theorem setThr_qpairs (m : Mach) (t : Thread) : (m.setThr t).qpairs = m.qpairs := rfl
@[simp] theorem setThr_colls (m : Mach) (t : Thread) : (m.setThr t).colls = m.colls := rfl
@[simp] theorem setThr_comms (m : Mach) (t : Thread) : (m.setThr t).comms = m.comms := rfl
@[simp] theorem setThr_out (m : Mach) (t : Thread) : (m.setThr t).out = m.out := rfl
@[simp] theorem setThr_preempts (m : Mach) (t : Thread) : (m.setThr t).preempts = m.preempts := rfl
@[simp] theorem setThr_lanes (m : Mach) (t : Thread) : (m.setThr t).lanes = m.lanes := rfl
@[simp] theorem setThr_lports (m : Mach) (t : Thread) : (m.setThr t).lports = m.lports := rfl
@[simp] theorem setThr_sysqs (m : Mach) (t : Thread) : (m.setThr t).sysqs = m.sysqs := rfl
@[simp] theorem setThr_sigpend (m : Mach) (t : Thread) : (m.setThr t).sigpend = m.sigpend := rfl
@[simp] theorem setThr_secnt (m : Mach) (t : Thread) : (m.setThr t).secnt = m.secnt := rfl
@[simp] theorem setThr_errLog (m : Mach) (t : Thread) : (m.setThr t).errLog = m.errLog := rfl
@[simp] theorem setThr_errOver (m : Mach) (t : Thread) : (m.setThr t).errOver = m.errOver := rfl
@[simp] theorem setThr_cxlErrs (m : Mach) (t : Thread) : (m.setThr t).cxlErrs = m.cxlErrs := rfl
@[simp] theorem setThr_sigWaits (m : Mach) (t : Thread) : (m.setThr t).sigWaits = m.sigWaits := rfl
@[simp] theorem setThr_dispatchAt (m : Mach) (t : Thread) : (m.setThr t).dispatchAt = m.dispatchAt := rfl
@[simp] theorem setThr_ierrs (m : Mach) (t : Thread) : (m.setThr t).ierrs = m.ierrs := rfl
@[simp] theorem setThr_farLines (m : Mach) (t : Thread) : (m.setThr t).farLines = m.farLines := rfl
@[simp] theorem setThr_rcOn (m : Mach) (t : Thread) : (m.setThr t).rcOn = m.rcOn := rfl
@[simp] theorem setThr_closed (m : Mach) (t : Thread) : (m.setThr t).closed = m.closed := rfl

/-! ### modThr -/

@[simp] theorem modThr_cycle (m : Mach) (i : Nat) (f : Thread → Thread) : (m.modThr i f).cycle = m.cycle := rfl
@[simp] theorem modThr_next (m : Mach) (i : Nat) (f : Thread → Thread) : (m.modThr i f).next = m.next := rfl
@[simp] theorem modThr_free (m : Mach) (i : Nat) (f : Thread → Thread) : (m.modThr i f).free = m.free := rfl
@[simp] theorem modThr_cur (m : Mach) (i : Nat) (f : Thread → Thread) : (m.modThr i f).cur = m.cur := rfl
@[simp] theorem modThr_latch (m : Mach) (i : Nat) (f : Thread → Thread) : (m.modThr i f).latch = m.latch := rfl
@[simp] theorem modThr_mem (m : Mach) (i : Nat) (f : Thread → Thread) : (m.modThr i f).mem = m.mem := rfl
@[simp] theorem modThr_stamps (m : Mach) (i : Nat) (f : Thread → Thread) : (m.modThr i f).stamps = m.stamps := rfl
@[simp] theorem modThr_quarters (m : Mach) (i : Nat) (f : Thread → Thread) : (m.modThr i f).quarters = m.quarters := rfl
@[simp] theorem modThr_waves (m : Mach) (i : Nat) (f : Thread → Thread) : (m.modThr i f).waves = m.waves := rfl
@[simp] theorem modThr_launches (m : Mach) (i : Nat) (f : Thread → Thread) : (m.modThr i f).launches = m.launches := rfl
@[simp] theorem modThr_flights (m : Mach) (i : Nat) (f : Thread → Thread) : (m.modThr i f).flights = m.flights := rfl
@[simp] theorem modThr_cores (m : Mach) (i : Nat) (f : Thread → Thread) : (m.modThr i f).cores = m.cores := rfl
@[simp] theorem modThr_copies (m : Mach) (i : Nat) (f : Thread → Thread) : (m.modThr i f).copies = m.copies := rfl
@[simp] theorem modThr_ilines (m : Mach) (i : Nat) (f : Thread → Thread) : (m.modThr i f).ilines = m.ilines := rfl
@[simp] theorem modThr_engines (m : Mach) (i : Nat) (f : Thread → Thread) : (m.modThr i f).engines = m.engines := rfl
@[simp] theorem modThr_traps (m : Mach) (i : Nat) (f : Thread → Thread) : (m.modThr i f).traps = m.traps := rfl
@[simp] theorem modThr_doms (m : Mach) (i : Nat) (f : Thread → Thread) : (m.modThr i f).doms = m.doms := rfl
@[simp] theorem modThr_sump (m : Mach) (i : Nat) (f : Thread → Thread) : (m.modThr i f).sump = m.sump := rfl
@[simp] theorem modThr_rings (m : Mach) (i : Nat) (f : Thread → Thread) : (m.modThr i f).rings = m.rings := rfl
@[simp] theorem modThr_tiles (m : Mach) (i : Nat) (f : Thread → Thread) : (m.modThr i f).tiles = m.tiles := rfl
@[simp] theorem modThr_ctrs (m : Mach) (i : Nat) (f : Thread → Thread) : (m.modThr i f).ctrs = m.ctrs := rfl
@[simp] theorem modThr_decs (m : Mach) (i : Nat) (f : Thread → Thread) : (m.modThr i f).decs = m.decs := rfl
@[simp] theorem modThr_cxlFail (m : Mach) (i : Nat) (f : Thread → Thread) : (m.modThr i f).cxlFail = m.cxlFail := rfl
@[simp] theorem modThr_pe0ep (m : Mach) (i : Nat) (f : Thread → Thread) : (m.modThr i f).pe0ep = m.pe0ep := rfl
@[simp] theorem modThr_hostwin (m : Mach) (i : Nat) (f : Thread → Thread) : (m.modThr i f).hostwin = m.hostwin := rfl
@[simp] theorem modThr_order (m : Mach) (i : Nat) (f : Thread → Thread) : (m.modThr i f).order = m.order := rfl
@[simp] theorem modThr_filing (m : Mach) (i : Nat) (f : Thread → Thread) : (m.modThr i f).filing = m.filing := rfl
@[simp] theorem modThr_walks (m : Mach) (i : Nat) (f : Thread → Thread) : (m.modThr i f).walks = m.walks := rfl
@[simp] theorem modThr_reqs (m : Mach) (i : Nat) (f : Thread → Thread) : (m.modThr i f).reqs = m.reqs := rfl
@[simp] theorem modThr_far (m : Mach) (i : Nat) (f : Thread → Thread) : (m.modThr i f).far = m.far := rfl
@[simp] theorem modThr_lateFails (m : Mach) (i : Nat) (f : Thread → Thread) : (m.modThr i f).lateFails = m.lateFails := rfl
@[simp] theorem modThr_sigOld (m : Mach) (i : Nat) (f : Thread → Thread) : (m.modThr i f).sigOld = m.sigOld := rfl
@[simp] theorem modThr_fired (m : Mach) (i : Nat) (f : Thread → Thread) : (m.modThr i f).fired = m.fired := rfl
@[simp] theorem modThr_relAt (m : Mach) (i : Nat) (f : Thread → Thread) : (m.modThr i f).relAt = m.relAt := rfl
@[simp] theorem modThr_eccSingle (m : Mach) (i : Nat) (f : Thread → Thread) : (m.modThr i f).eccSingle = m.eccSingle := rfl
@[simp] theorem modThr_eccDouble (m : Mach) (i : Nat) (f : Thread → Thread) : (m.modThr i f).eccDouble = m.eccDouble := rfl
@[simp] theorem modThr_glades (m : Mach) (i : Nat) (f : Thread → Thread) : (m.modThr i f).glades = m.glades := rfl
@[simp] theorem modThr_calls (m : Mach) (i : Nat) (f : Thread → Thread) : (m.modThr i f).calls = m.calls := rfl
@[simp] theorem modThr_posts (m : Mach) (i : Nat) (f : Thread → Thread) : (m.modThr i f).posts = m.posts := rfl
@[simp] theorem modThr_filters (m : Mach) (i : Nat) (f : Thread → Thread) : (m.modThr i f).filters = m.filters := rfl
@[simp] theorem modThr_tlbs (m : Mach) (i : Nat) (f : Thread → Thread) : (m.modThr i f).tlbs = m.tlbs := rfl
@[simp] theorem modThr_ranges (m : Mach) (i : Nat) (f : Thread → Thread) : (m.modThr i f).ranges = m.ranges := rfl
@[simp] theorem modThr_pairs (m : Mach) (i : Nat) (f : Thread → Thread) : (m.modThr i f).pairs = m.pairs := rfl
@[simp] theorem modThr_cams (m : Mach) (i : Nat) (f : Thread → Thread) : (m.modThr i f).cams = m.cams := rfl
@[simp] theorem modThr_shares (m : Mach) (i : Nat) (f : Thread → Thread) : (m.modThr i f).shares = m.shares := rfl
@[simp] theorem modThr_sigs (m : Mach) (i : Nat) (f : Thread → Thread) : (m.modThr i f).sigs = m.sigs := rfl
@[simp] theorem modThr_mmajs (m : Mach) (i : Nat) (f : Thread → Thread) : (m.modThr i f).mmajs = m.mmajs := rfl
@[simp] theorem modThr_bars (m : Mach) (i : Nat) (f : Thread → Thread) : (m.modThr i f).bars = m.bars := rfl
@[simp] theorem modThr_barMsgs (m : Mach) (i : Nat) (f : Thread → Thread) : (m.modThr i f).barMsgs = m.barMsgs := rfl
@[simp] theorem modThr_bound (m : Mach) (i : Nat) (f : Thread → Thread) : (m.modThr i f).bound = m.bound := rfl
@[simp] theorem modThr_qpairs (m : Mach) (i : Nat) (f : Thread → Thread) : (m.modThr i f).qpairs = m.qpairs := rfl
@[simp] theorem modThr_colls (m : Mach) (i : Nat) (f : Thread → Thread) : (m.modThr i f).colls = m.colls := rfl
@[simp] theorem modThr_comms (m : Mach) (i : Nat) (f : Thread → Thread) : (m.modThr i f).comms = m.comms := rfl
@[simp] theorem modThr_out (m : Mach) (i : Nat) (f : Thread → Thread) : (m.modThr i f).out = m.out := rfl
@[simp] theorem modThr_preempts (m : Mach) (i : Nat) (f : Thread → Thread) : (m.modThr i f).preempts = m.preempts := rfl
@[simp] theorem modThr_lanes (m : Mach) (i : Nat) (f : Thread → Thread) : (m.modThr i f).lanes = m.lanes := rfl
@[simp] theorem modThr_lports (m : Mach) (i : Nat) (f : Thread → Thread) : (m.modThr i f).lports = m.lports := rfl
@[simp] theorem modThr_sysqs (m : Mach) (i : Nat) (f : Thread → Thread) : (m.modThr i f).sysqs = m.sysqs := rfl
@[simp] theorem modThr_sigpend (m : Mach) (i : Nat) (f : Thread → Thread) : (m.modThr i f).sigpend = m.sigpend := rfl
@[simp] theorem modThr_secnt (m : Mach) (i : Nat) (f : Thread → Thread) : (m.modThr i f).secnt = m.secnt := rfl
@[simp] theorem modThr_errLog (m : Mach) (i : Nat) (f : Thread → Thread) : (m.modThr i f).errLog = m.errLog := rfl
@[simp] theorem modThr_errOver (m : Mach) (i : Nat) (f : Thread → Thread) : (m.modThr i f).errOver = m.errOver := rfl
@[simp] theorem modThr_cxlErrs (m : Mach) (i : Nat) (f : Thread → Thread) : (m.modThr i f).cxlErrs = m.cxlErrs := rfl
@[simp] theorem modThr_sigWaits (m : Mach) (i : Nat) (f : Thread → Thread) : (m.modThr i f).sigWaits = m.sigWaits := rfl
@[simp] theorem modThr_dispatchAt (m : Mach) (i : Nat) (f : Thread → Thread) : (m.modThr i f).dispatchAt = m.dispatchAt := rfl
@[simp] theorem modThr_ierrs (m : Mach) (i : Nat) (f : Thread → Thread) : (m.modThr i f).ierrs = m.ierrs := rfl
@[simp] theorem modThr_farLines (m : Mach) (i : Nat) (f : Thread → Thread) : (m.modThr i f).farLines = m.farLines := rfl
@[simp] theorem modThr_rcOn (m : Mach) (i : Nat) (f : Thread → Thread) : (m.modThr i f).rcOn = m.rcOn := rfl
@[simp] theorem modThr_closed (m : Mach) (i : Nat) (f : Thread → Thread) : (m.modThr i f).closed = m.closed := rfl

/-! ### modAll -/

@[simp] theorem modAll_cycle (m : Mach) (ids : List Nat) (f : Thread → Thread) : (m.modAll ids f).cycle = m.cycle := rfl
@[simp] theorem modAll_next (m : Mach) (ids : List Nat) (f : Thread → Thread) : (m.modAll ids f).next = m.next := rfl
@[simp] theorem modAll_free (m : Mach) (ids : List Nat) (f : Thread → Thread) : (m.modAll ids f).free = m.free := rfl
@[simp] theorem modAll_cur (m : Mach) (ids : List Nat) (f : Thread → Thread) : (m.modAll ids f).cur = m.cur := rfl
@[simp] theorem modAll_latch (m : Mach) (ids : List Nat) (f : Thread → Thread) : (m.modAll ids f).latch = m.latch := rfl
@[simp] theorem modAll_mem (m : Mach) (ids : List Nat) (f : Thread → Thread) : (m.modAll ids f).mem = m.mem := rfl
@[simp] theorem modAll_stamps (m : Mach) (ids : List Nat) (f : Thread → Thread) : (m.modAll ids f).stamps = m.stamps := rfl
@[simp] theorem modAll_quarters (m : Mach) (ids : List Nat) (f : Thread → Thread) : (m.modAll ids f).quarters = m.quarters := rfl
@[simp] theorem modAll_waves (m : Mach) (ids : List Nat) (f : Thread → Thread) : (m.modAll ids f).waves = m.waves := rfl
@[simp] theorem modAll_launches (m : Mach) (ids : List Nat) (f : Thread → Thread) : (m.modAll ids f).launches = m.launches := rfl
@[simp] theorem modAll_flights (m : Mach) (ids : List Nat) (f : Thread → Thread) : (m.modAll ids f).flights = m.flights := rfl
@[simp] theorem modAll_cores (m : Mach) (ids : List Nat) (f : Thread → Thread) : (m.modAll ids f).cores = m.cores := rfl
@[simp] theorem modAll_copies (m : Mach) (ids : List Nat) (f : Thread → Thread) : (m.modAll ids f).copies = m.copies := rfl
@[simp] theorem modAll_ilines (m : Mach) (ids : List Nat) (f : Thread → Thread) : (m.modAll ids f).ilines = m.ilines := rfl
@[simp] theorem modAll_engines (m : Mach) (ids : List Nat) (f : Thread → Thread) : (m.modAll ids f).engines = m.engines := rfl
@[simp] theorem modAll_traps (m : Mach) (ids : List Nat) (f : Thread → Thread) : (m.modAll ids f).traps = m.traps := rfl
@[simp] theorem modAll_doms (m : Mach) (ids : List Nat) (f : Thread → Thread) : (m.modAll ids f).doms = m.doms := rfl
@[simp] theorem modAll_sump (m : Mach) (ids : List Nat) (f : Thread → Thread) : (m.modAll ids f).sump = m.sump := rfl
@[simp] theorem modAll_rings (m : Mach) (ids : List Nat) (f : Thread → Thread) : (m.modAll ids f).rings = m.rings := rfl
@[simp] theorem modAll_tiles (m : Mach) (ids : List Nat) (f : Thread → Thread) : (m.modAll ids f).tiles = m.tiles := rfl
@[simp] theorem modAll_ctrs (m : Mach) (ids : List Nat) (f : Thread → Thread) : (m.modAll ids f).ctrs = m.ctrs := rfl
@[simp] theorem modAll_decs (m : Mach) (ids : List Nat) (f : Thread → Thread) : (m.modAll ids f).decs = m.decs := rfl
@[simp] theorem modAll_cxlFail (m : Mach) (ids : List Nat) (f : Thread → Thread) : (m.modAll ids f).cxlFail = m.cxlFail := rfl
@[simp] theorem modAll_pe0ep (m : Mach) (ids : List Nat) (f : Thread → Thread) : (m.modAll ids f).pe0ep = m.pe0ep := rfl
@[simp] theorem modAll_hostwin (m : Mach) (ids : List Nat) (f : Thread → Thread) : (m.modAll ids f).hostwin = m.hostwin := rfl
@[simp] theorem modAll_order (m : Mach) (ids : List Nat) (f : Thread → Thread) : (m.modAll ids f).order = m.order := rfl
@[simp] theorem modAll_filing (m : Mach) (ids : List Nat) (f : Thread → Thread) : (m.modAll ids f).filing = m.filing := rfl
@[simp] theorem modAll_walks (m : Mach) (ids : List Nat) (f : Thread → Thread) : (m.modAll ids f).walks = m.walks := rfl
@[simp] theorem modAll_reqs (m : Mach) (ids : List Nat) (f : Thread → Thread) : (m.modAll ids f).reqs = m.reqs := rfl
@[simp] theorem modAll_far (m : Mach) (ids : List Nat) (f : Thread → Thread) : (m.modAll ids f).far = m.far := rfl
@[simp] theorem modAll_lateFails (m : Mach) (ids : List Nat) (f : Thread → Thread) : (m.modAll ids f).lateFails = m.lateFails := rfl
@[simp] theorem modAll_sigOld (m : Mach) (ids : List Nat) (f : Thread → Thread) : (m.modAll ids f).sigOld = m.sigOld := rfl
@[simp] theorem modAll_fired (m : Mach) (ids : List Nat) (f : Thread → Thread) : (m.modAll ids f).fired = m.fired := rfl
@[simp] theorem modAll_relAt (m : Mach) (ids : List Nat) (f : Thread → Thread) : (m.modAll ids f).relAt = m.relAt := rfl
@[simp] theorem modAll_eccSingle (m : Mach) (ids : List Nat) (f : Thread → Thread) : (m.modAll ids f).eccSingle = m.eccSingle := rfl
@[simp] theorem modAll_eccDouble (m : Mach) (ids : List Nat) (f : Thread → Thread) : (m.modAll ids f).eccDouble = m.eccDouble := rfl
@[simp] theorem modAll_glades (m : Mach) (ids : List Nat) (f : Thread → Thread) : (m.modAll ids f).glades = m.glades := rfl
@[simp] theorem modAll_calls (m : Mach) (ids : List Nat) (f : Thread → Thread) : (m.modAll ids f).calls = m.calls := rfl
@[simp] theorem modAll_posts (m : Mach) (ids : List Nat) (f : Thread → Thread) : (m.modAll ids f).posts = m.posts := rfl
@[simp] theorem modAll_filters (m : Mach) (ids : List Nat) (f : Thread → Thread) : (m.modAll ids f).filters = m.filters := rfl
@[simp] theorem modAll_tlbs (m : Mach) (ids : List Nat) (f : Thread → Thread) : (m.modAll ids f).tlbs = m.tlbs := rfl
@[simp] theorem modAll_ranges (m : Mach) (ids : List Nat) (f : Thread → Thread) : (m.modAll ids f).ranges = m.ranges := rfl
@[simp] theorem modAll_pairs (m : Mach) (ids : List Nat) (f : Thread → Thread) : (m.modAll ids f).pairs = m.pairs := rfl
@[simp] theorem modAll_cams (m : Mach) (ids : List Nat) (f : Thread → Thread) : (m.modAll ids f).cams = m.cams := rfl
@[simp] theorem modAll_shares (m : Mach) (ids : List Nat) (f : Thread → Thread) : (m.modAll ids f).shares = m.shares := rfl
@[simp] theorem modAll_sigs (m : Mach) (ids : List Nat) (f : Thread → Thread) : (m.modAll ids f).sigs = m.sigs := rfl
@[simp] theorem modAll_mmajs (m : Mach) (ids : List Nat) (f : Thread → Thread) : (m.modAll ids f).mmajs = m.mmajs := rfl
@[simp] theorem modAll_bars (m : Mach) (ids : List Nat) (f : Thread → Thread) : (m.modAll ids f).bars = m.bars := rfl
@[simp] theorem modAll_barMsgs (m : Mach) (ids : List Nat) (f : Thread → Thread) : (m.modAll ids f).barMsgs = m.barMsgs := rfl
@[simp] theorem modAll_bound (m : Mach) (ids : List Nat) (f : Thread → Thread) : (m.modAll ids f).bound = m.bound := rfl
@[simp] theorem modAll_qpairs (m : Mach) (ids : List Nat) (f : Thread → Thread) : (m.modAll ids f).qpairs = m.qpairs := rfl
@[simp] theorem modAll_colls (m : Mach) (ids : List Nat) (f : Thread → Thread) : (m.modAll ids f).colls = m.colls := rfl
@[simp] theorem modAll_comms (m : Mach) (ids : List Nat) (f : Thread → Thread) : (m.modAll ids f).comms = m.comms := rfl
@[simp] theorem modAll_out (m : Mach) (ids : List Nat) (f : Thread → Thread) : (m.modAll ids f).out = m.out := rfl
@[simp] theorem modAll_preempts (m : Mach) (ids : List Nat) (f : Thread → Thread) : (m.modAll ids f).preempts = m.preempts := rfl
@[simp] theorem modAll_lanes (m : Mach) (ids : List Nat) (f : Thread → Thread) : (m.modAll ids f).lanes = m.lanes := rfl
@[simp] theorem modAll_lports (m : Mach) (ids : List Nat) (f : Thread → Thread) : (m.modAll ids f).lports = m.lports := rfl
@[simp] theorem modAll_sysqs (m : Mach) (ids : List Nat) (f : Thread → Thread) : (m.modAll ids f).sysqs = m.sysqs := rfl
@[simp] theorem modAll_sigpend (m : Mach) (ids : List Nat) (f : Thread → Thread) : (m.modAll ids f).sigpend = m.sigpend := rfl
@[simp] theorem modAll_secnt (m : Mach) (ids : List Nat) (f : Thread → Thread) : (m.modAll ids f).secnt = m.secnt := rfl
@[simp] theorem modAll_errLog (m : Mach) (ids : List Nat) (f : Thread → Thread) : (m.modAll ids f).errLog = m.errLog := rfl
@[simp] theorem modAll_errOver (m : Mach) (ids : List Nat) (f : Thread → Thread) : (m.modAll ids f).errOver = m.errOver := rfl
@[simp] theorem modAll_cxlErrs (m : Mach) (ids : List Nat) (f : Thread → Thread) : (m.modAll ids f).cxlErrs = m.cxlErrs := rfl
@[simp] theorem modAll_sigWaits (m : Mach) (ids : List Nat) (f : Thread → Thread) : (m.modAll ids f).sigWaits = m.sigWaits := rfl
@[simp] theorem modAll_dispatchAt (m : Mach) (ids : List Nat) (f : Thread → Thread) : (m.modAll ids f).dispatchAt = m.dispatchAt := rfl
@[simp] theorem modAll_ierrs (m : Mach) (ids : List Nat) (f : Thread → Thread) : (m.modAll ids f).ierrs = m.ierrs := rfl
@[simp] theorem modAll_farLines (m : Mach) (ids : List Nat) (f : Thread → Thread) : (m.modAll ids f).farLines = m.farLines := rfl
@[simp] theorem modAll_rcOn (m : Mach) (ids : List Nat) (f : Thread → Thread) : (m.modAll ids f).rcOn = m.rcOn := rfl
@[simp] theorem modAll_closed (m : Mach) (ids : List Nat) (f : Thread → Thread) : (m.modAll ids f).closed = m.closed := rfl

/-! ### setQ -/

@[simp] theorem setQ_cycle (m : Mach) (q : Quarter) : (m.setQ q).cycle = m.cycle := rfl
@[simp] theorem setQ_next (m : Mach) (q : Quarter) : (m.setQ q).next = m.next := rfl
@[simp] theorem setQ_free (m : Mach) (q : Quarter) : (m.setQ q).free = m.free := rfl
@[simp] theorem setQ_cur (m : Mach) (q : Quarter) : (m.setQ q).cur = m.cur := rfl
@[simp] theorem setQ_latch (m : Mach) (q : Quarter) : (m.setQ q).latch = m.latch := rfl
@[simp] theorem setQ_mem (m : Mach) (q : Quarter) : (m.setQ q).mem = m.mem := rfl
@[simp] theorem setQ_stamps (m : Mach) (q : Quarter) : (m.setQ q).stamps = m.stamps := rfl
@[simp] theorem setQ_threads (m : Mach) (q : Quarter) : (m.setQ q).threads = m.threads := rfl
@[simp] theorem setQ_waves (m : Mach) (q : Quarter) : (m.setQ q).waves = m.waves := rfl
@[simp] theorem setQ_launches (m : Mach) (q : Quarter) : (m.setQ q).launches = m.launches := rfl
@[simp] theorem setQ_flights (m : Mach) (q : Quarter) : (m.setQ q).flights = m.flights := rfl
@[simp] theorem setQ_cores (m : Mach) (q : Quarter) : (m.setQ q).cores = m.cores := rfl
@[simp] theorem setQ_copies (m : Mach) (q : Quarter) : (m.setQ q).copies = m.copies := rfl
@[simp] theorem setQ_ilines (m : Mach) (q : Quarter) : (m.setQ q).ilines = m.ilines := rfl
@[simp] theorem setQ_engines (m : Mach) (q : Quarter) : (m.setQ q).engines = m.engines := rfl
@[simp] theorem setQ_traps (m : Mach) (q : Quarter) : (m.setQ q).traps = m.traps := rfl
@[simp] theorem setQ_doms (m : Mach) (q : Quarter) : (m.setQ q).doms = m.doms := rfl
@[simp] theorem setQ_sump (m : Mach) (q : Quarter) : (m.setQ q).sump = m.sump := rfl
@[simp] theorem setQ_rings (m : Mach) (q : Quarter) : (m.setQ q).rings = m.rings := rfl
@[simp] theorem setQ_tiles (m : Mach) (q : Quarter) : (m.setQ q).tiles = m.tiles := rfl
@[simp] theorem setQ_ctrs (m : Mach) (q : Quarter) : (m.setQ q).ctrs = m.ctrs := rfl
@[simp] theorem setQ_decs (m : Mach) (q : Quarter) : (m.setQ q).decs = m.decs := rfl
@[simp] theorem setQ_cxlFail (m : Mach) (q : Quarter) : (m.setQ q).cxlFail = m.cxlFail := rfl
@[simp] theorem setQ_pe0ep (m : Mach) (q : Quarter) : (m.setQ q).pe0ep = m.pe0ep := rfl
@[simp] theorem setQ_hostwin (m : Mach) (q : Quarter) : (m.setQ q).hostwin = m.hostwin := rfl
@[simp] theorem setQ_order (m : Mach) (q : Quarter) : (m.setQ q).order = m.order := rfl
@[simp] theorem setQ_filing (m : Mach) (q : Quarter) : (m.setQ q).filing = m.filing := rfl
@[simp] theorem setQ_walks (m : Mach) (q : Quarter) : (m.setQ q).walks = m.walks := rfl
@[simp] theorem setQ_reqs (m : Mach) (q : Quarter) : (m.setQ q).reqs = m.reqs := rfl
@[simp] theorem setQ_far (m : Mach) (q : Quarter) : (m.setQ q).far = m.far := rfl
@[simp] theorem setQ_lateFails (m : Mach) (q : Quarter) : (m.setQ q).lateFails = m.lateFails := rfl
@[simp] theorem setQ_sigOld (m : Mach) (q : Quarter) : (m.setQ q).sigOld = m.sigOld := rfl
@[simp] theorem setQ_fired (m : Mach) (q : Quarter) : (m.setQ q).fired = m.fired := rfl
@[simp] theorem setQ_relAt (m : Mach) (q : Quarter) : (m.setQ q).relAt = m.relAt := rfl
@[simp] theorem setQ_eccSingle (m : Mach) (q : Quarter) : (m.setQ q).eccSingle = m.eccSingle := rfl
@[simp] theorem setQ_eccDouble (m : Mach) (q : Quarter) : (m.setQ q).eccDouble = m.eccDouble := rfl
@[simp] theorem setQ_glades (m : Mach) (q : Quarter) : (m.setQ q).glades = m.glades := rfl
@[simp] theorem setQ_calls (m : Mach) (q : Quarter) : (m.setQ q).calls = m.calls := rfl
@[simp] theorem setQ_posts (m : Mach) (q : Quarter) : (m.setQ q).posts = m.posts := rfl
@[simp] theorem setQ_filters (m : Mach) (q : Quarter) : (m.setQ q).filters = m.filters := rfl
@[simp] theorem setQ_tlbs (m : Mach) (q : Quarter) : (m.setQ q).tlbs = m.tlbs := rfl
@[simp] theorem setQ_ranges (m : Mach) (q : Quarter) : (m.setQ q).ranges = m.ranges := rfl
@[simp] theorem setQ_pairs (m : Mach) (q : Quarter) : (m.setQ q).pairs = m.pairs := rfl
@[simp] theorem setQ_cams (m : Mach) (q : Quarter) : (m.setQ q).cams = m.cams := rfl
@[simp] theorem setQ_shares (m : Mach) (q : Quarter) : (m.setQ q).shares = m.shares := rfl
@[simp] theorem setQ_sigs (m : Mach) (q : Quarter) : (m.setQ q).sigs = m.sigs := rfl
@[simp] theorem setQ_mmajs (m : Mach) (q : Quarter) : (m.setQ q).mmajs = m.mmajs := rfl
@[simp] theorem setQ_bars (m : Mach) (q : Quarter) : (m.setQ q).bars = m.bars := rfl
@[simp] theorem setQ_barMsgs (m : Mach) (q : Quarter) : (m.setQ q).barMsgs = m.barMsgs := rfl
@[simp] theorem setQ_bound (m : Mach) (q : Quarter) : (m.setQ q).bound = m.bound := rfl
@[simp] theorem setQ_qpairs (m : Mach) (q : Quarter) : (m.setQ q).qpairs = m.qpairs := rfl
@[simp] theorem setQ_colls (m : Mach) (q : Quarter) : (m.setQ q).colls = m.colls := rfl
@[simp] theorem setQ_comms (m : Mach) (q : Quarter) : (m.setQ q).comms = m.comms := rfl
@[simp] theorem setQ_out (m : Mach) (q : Quarter) : (m.setQ q).out = m.out := rfl
@[simp] theorem setQ_preempts (m : Mach) (q : Quarter) : (m.setQ q).preempts = m.preempts := rfl
@[simp] theorem setQ_lanes (m : Mach) (q : Quarter) : (m.setQ q).lanes = m.lanes := rfl
@[simp] theorem setQ_lports (m : Mach) (q : Quarter) : (m.setQ q).lports = m.lports := rfl
@[simp] theorem setQ_sysqs (m : Mach) (q : Quarter) : (m.setQ q).sysqs = m.sysqs := rfl
@[simp] theorem setQ_sigpend (m : Mach) (q : Quarter) : (m.setQ q).sigpend = m.sigpend := rfl
@[simp] theorem setQ_secnt (m : Mach) (q : Quarter) : (m.setQ q).secnt = m.secnt := rfl
@[simp] theorem setQ_errLog (m : Mach) (q : Quarter) : (m.setQ q).errLog = m.errLog := rfl
@[simp] theorem setQ_errOver (m : Mach) (q : Quarter) : (m.setQ q).errOver = m.errOver := rfl
@[simp] theorem setQ_cxlErrs (m : Mach) (q : Quarter) : (m.setQ q).cxlErrs = m.cxlErrs := rfl
@[simp] theorem setQ_sigWaits (m : Mach) (q : Quarter) : (m.setQ q).sigWaits = m.sigWaits := rfl
@[simp] theorem setQ_dispatchAt (m : Mach) (q : Quarter) : (m.setQ q).dispatchAt = m.dispatchAt := rfl
@[simp] theorem setQ_ierrs (m : Mach) (q : Quarter) : (m.setQ q).ierrs = m.ierrs := rfl
@[simp] theorem setQ_farLines (m : Mach) (q : Quarter) : (m.setQ q).farLines = m.farLines := rfl
@[simp] theorem setQ_rcOn (m : Mach) (q : Quarter) : (m.setQ q).rcOn = m.rcOn := rfl
@[simp] theorem setQ_closed (m : Mach) (q : Quarter) : (m.setQ q).closed = m.closed := rfl

/-! ### dropQ -/

@[simp] theorem dropQ_cycle (m : Mach) (i : Nat) : (m.dropQ i).cycle = m.cycle := rfl
@[simp] theorem dropQ_next (m : Mach) (i : Nat) : (m.dropQ i).next = m.next := rfl
@[simp] theorem dropQ_free (m : Mach) (i : Nat) : (m.dropQ i).free = m.free := rfl
@[simp] theorem dropQ_cur (m : Mach) (i : Nat) : (m.dropQ i).cur = m.cur := rfl
@[simp] theorem dropQ_latch (m : Mach) (i : Nat) : (m.dropQ i).latch = m.latch := rfl
@[simp] theorem dropQ_mem (m : Mach) (i : Nat) : (m.dropQ i).mem = m.mem := rfl
@[simp] theorem dropQ_stamps (m : Mach) (i : Nat) : (m.dropQ i).stamps = m.stamps := rfl
@[simp] theorem dropQ_threads (m : Mach) (i : Nat) : (m.dropQ i).threads = m.threads := rfl
@[simp] theorem dropQ_waves (m : Mach) (i : Nat) : (m.dropQ i).waves = m.waves := rfl
@[simp] theorem dropQ_launches (m : Mach) (i : Nat) : (m.dropQ i).launches = m.launches := rfl
@[simp] theorem dropQ_flights (m : Mach) (i : Nat) : (m.dropQ i).flights = m.flights := rfl
@[simp] theorem dropQ_cores (m : Mach) (i : Nat) : (m.dropQ i).cores = m.cores := rfl
@[simp] theorem dropQ_copies (m : Mach) (i : Nat) : (m.dropQ i).copies = m.copies := rfl
@[simp] theorem dropQ_ilines (m : Mach) (i : Nat) : (m.dropQ i).ilines = m.ilines := rfl
@[simp] theorem dropQ_engines (m : Mach) (i : Nat) : (m.dropQ i).engines = m.engines := rfl
@[simp] theorem dropQ_traps (m : Mach) (i : Nat) : (m.dropQ i).traps = m.traps := rfl
@[simp] theorem dropQ_doms (m : Mach) (i : Nat) : (m.dropQ i).doms = m.doms := rfl
@[simp] theorem dropQ_sump (m : Mach) (i : Nat) : (m.dropQ i).sump = m.sump := rfl
@[simp] theorem dropQ_rings (m : Mach) (i : Nat) : (m.dropQ i).rings = m.rings := rfl
@[simp] theorem dropQ_tiles (m : Mach) (i : Nat) : (m.dropQ i).tiles = m.tiles := rfl
@[simp] theorem dropQ_ctrs (m : Mach) (i : Nat) : (m.dropQ i).ctrs = m.ctrs := rfl
@[simp] theorem dropQ_decs (m : Mach) (i : Nat) : (m.dropQ i).decs = m.decs := rfl
@[simp] theorem dropQ_cxlFail (m : Mach) (i : Nat) : (m.dropQ i).cxlFail = m.cxlFail := rfl
@[simp] theorem dropQ_pe0ep (m : Mach) (i : Nat) : (m.dropQ i).pe0ep = m.pe0ep := rfl
@[simp] theorem dropQ_hostwin (m : Mach) (i : Nat) : (m.dropQ i).hostwin = m.hostwin := rfl
@[simp] theorem dropQ_order (m : Mach) (i : Nat) : (m.dropQ i).order = m.order := rfl
@[simp] theorem dropQ_filing (m : Mach) (i : Nat) : (m.dropQ i).filing = m.filing := rfl
@[simp] theorem dropQ_walks (m : Mach) (i : Nat) : (m.dropQ i).walks = m.walks := rfl
@[simp] theorem dropQ_reqs (m : Mach) (i : Nat) : (m.dropQ i).reqs = m.reqs := rfl
@[simp] theorem dropQ_far (m : Mach) (i : Nat) : (m.dropQ i).far = m.far := rfl
@[simp] theorem dropQ_lateFails (m : Mach) (i : Nat) : (m.dropQ i).lateFails = m.lateFails := rfl
@[simp] theorem dropQ_sigOld (m : Mach) (i : Nat) : (m.dropQ i).sigOld = m.sigOld := rfl
@[simp] theorem dropQ_fired (m : Mach) (i : Nat) : (m.dropQ i).fired = m.fired := rfl
@[simp] theorem dropQ_relAt (m : Mach) (i : Nat) : (m.dropQ i).relAt = m.relAt := rfl
@[simp] theorem dropQ_eccSingle (m : Mach) (i : Nat) : (m.dropQ i).eccSingle = m.eccSingle := rfl
@[simp] theorem dropQ_eccDouble (m : Mach) (i : Nat) : (m.dropQ i).eccDouble = m.eccDouble := rfl
@[simp] theorem dropQ_glades (m : Mach) (i : Nat) : (m.dropQ i).glades = m.glades := rfl
@[simp] theorem dropQ_calls (m : Mach) (i : Nat) : (m.dropQ i).calls = m.calls := rfl
@[simp] theorem dropQ_posts (m : Mach) (i : Nat) : (m.dropQ i).posts = m.posts := rfl
@[simp] theorem dropQ_filters (m : Mach) (i : Nat) : (m.dropQ i).filters = m.filters := rfl
@[simp] theorem dropQ_tlbs (m : Mach) (i : Nat) : (m.dropQ i).tlbs = m.tlbs := rfl
@[simp] theorem dropQ_ranges (m : Mach) (i : Nat) : (m.dropQ i).ranges = m.ranges := rfl
@[simp] theorem dropQ_pairs (m : Mach) (i : Nat) : (m.dropQ i).pairs = m.pairs := rfl
@[simp] theorem dropQ_cams (m : Mach) (i : Nat) : (m.dropQ i).cams = m.cams := rfl
@[simp] theorem dropQ_shares (m : Mach) (i : Nat) : (m.dropQ i).shares = m.shares := rfl
@[simp] theorem dropQ_sigs (m : Mach) (i : Nat) : (m.dropQ i).sigs = m.sigs := rfl
@[simp] theorem dropQ_mmajs (m : Mach) (i : Nat) : (m.dropQ i).mmajs = m.mmajs := rfl
@[simp] theorem dropQ_bars (m : Mach) (i : Nat) : (m.dropQ i).bars = m.bars := rfl
@[simp] theorem dropQ_barMsgs (m : Mach) (i : Nat) : (m.dropQ i).barMsgs = m.barMsgs := rfl
@[simp] theorem dropQ_bound (m : Mach) (i : Nat) : (m.dropQ i).bound = m.bound := rfl
@[simp] theorem dropQ_qpairs (m : Mach) (i : Nat) : (m.dropQ i).qpairs = m.qpairs := rfl
@[simp] theorem dropQ_colls (m : Mach) (i : Nat) : (m.dropQ i).colls = m.colls := rfl
@[simp] theorem dropQ_comms (m : Mach) (i : Nat) : (m.dropQ i).comms = m.comms := rfl
@[simp] theorem dropQ_out (m : Mach) (i : Nat) : (m.dropQ i).out = m.out := rfl
@[simp] theorem dropQ_preempts (m : Mach) (i : Nat) : (m.dropQ i).preempts = m.preempts := rfl
@[simp] theorem dropQ_lanes (m : Mach) (i : Nat) : (m.dropQ i).lanes = m.lanes := rfl
@[simp] theorem dropQ_lports (m : Mach) (i : Nat) : (m.dropQ i).lports = m.lports := rfl
@[simp] theorem dropQ_sysqs (m : Mach) (i : Nat) : (m.dropQ i).sysqs = m.sysqs := rfl
@[simp] theorem dropQ_sigpend (m : Mach) (i : Nat) : (m.dropQ i).sigpend = m.sigpend := rfl
@[simp] theorem dropQ_secnt (m : Mach) (i : Nat) : (m.dropQ i).secnt = m.secnt := rfl
@[simp] theorem dropQ_errLog (m : Mach) (i : Nat) : (m.dropQ i).errLog = m.errLog := rfl
@[simp] theorem dropQ_errOver (m : Mach) (i : Nat) : (m.dropQ i).errOver = m.errOver := rfl
@[simp] theorem dropQ_cxlErrs (m : Mach) (i : Nat) : (m.dropQ i).cxlErrs = m.cxlErrs := rfl
@[simp] theorem dropQ_sigWaits (m : Mach) (i : Nat) : (m.dropQ i).sigWaits = m.sigWaits := rfl
@[simp] theorem dropQ_dispatchAt (m : Mach) (i : Nat) : (m.dropQ i).dispatchAt = m.dispatchAt := rfl
@[simp] theorem dropQ_ierrs (m : Mach) (i : Nat) : (m.dropQ i).ierrs = m.ierrs := rfl
@[simp] theorem dropQ_farLines (m : Mach) (i : Nat) : (m.dropQ i).farLines = m.farLines := rfl
@[simp] theorem dropQ_rcOn (m : Mach) (i : Nat) : (m.dropQ i).rcOn = m.rcOn := rfl
@[simp] theorem dropQ_closed (m : Mach) (i : Nat) : (m.dropQ i).closed = m.closed := rfl

/-! ### setWave -/

@[simp] theorem setWave_cycle (m : Mach) (w : Wave) : (m.setWave w).cycle = m.cycle := rfl
@[simp] theorem setWave_next (m : Mach) (w : Wave) : (m.setWave w).next = m.next := rfl
@[simp] theorem setWave_free (m : Mach) (w : Wave) : (m.setWave w).free = m.free := rfl
@[simp] theorem setWave_cur (m : Mach) (w : Wave) : (m.setWave w).cur = m.cur := rfl
@[simp] theorem setWave_latch (m : Mach) (w : Wave) : (m.setWave w).latch = m.latch := rfl
@[simp] theorem setWave_mem (m : Mach) (w : Wave) : (m.setWave w).mem = m.mem := rfl
@[simp] theorem setWave_stamps (m : Mach) (w : Wave) : (m.setWave w).stamps = m.stamps := rfl
@[simp] theorem setWave_threads (m : Mach) (w : Wave) : (m.setWave w).threads = m.threads := rfl
@[simp] theorem setWave_quarters (m : Mach) (w : Wave) : (m.setWave w).quarters = m.quarters := rfl
@[simp] theorem setWave_launches (m : Mach) (w : Wave) : (m.setWave w).launches = m.launches := rfl
@[simp] theorem setWave_flights (m : Mach) (w : Wave) : (m.setWave w).flights = m.flights := rfl
@[simp] theorem setWave_cores (m : Mach) (w : Wave) : (m.setWave w).cores = m.cores := rfl
@[simp] theorem setWave_copies (m : Mach) (w : Wave) : (m.setWave w).copies = m.copies := rfl
@[simp] theorem setWave_ilines (m : Mach) (w : Wave) : (m.setWave w).ilines = m.ilines := rfl
@[simp] theorem setWave_engines (m : Mach) (w : Wave) : (m.setWave w).engines = m.engines := rfl
@[simp] theorem setWave_traps (m : Mach) (w : Wave) : (m.setWave w).traps = m.traps := rfl
@[simp] theorem setWave_doms (m : Mach) (w : Wave) : (m.setWave w).doms = m.doms := rfl
@[simp] theorem setWave_sump (m : Mach) (w : Wave) : (m.setWave w).sump = m.sump := rfl
@[simp] theorem setWave_rings (m : Mach) (w : Wave) : (m.setWave w).rings = m.rings := rfl
@[simp] theorem setWave_tiles (m : Mach) (w : Wave) : (m.setWave w).tiles = m.tiles := rfl
@[simp] theorem setWave_ctrs (m : Mach) (w : Wave) : (m.setWave w).ctrs = m.ctrs := rfl
@[simp] theorem setWave_decs (m : Mach) (w : Wave) : (m.setWave w).decs = m.decs := rfl
@[simp] theorem setWave_cxlFail (m : Mach) (w : Wave) : (m.setWave w).cxlFail = m.cxlFail := rfl
@[simp] theorem setWave_pe0ep (m : Mach) (w : Wave) : (m.setWave w).pe0ep = m.pe0ep := rfl
@[simp] theorem setWave_hostwin (m : Mach) (w : Wave) : (m.setWave w).hostwin = m.hostwin := rfl
@[simp] theorem setWave_order (m : Mach) (w : Wave) : (m.setWave w).order = m.order := rfl
@[simp] theorem setWave_filing (m : Mach) (w : Wave) : (m.setWave w).filing = m.filing := rfl
@[simp] theorem setWave_walks (m : Mach) (w : Wave) : (m.setWave w).walks = m.walks := rfl
@[simp] theorem setWave_reqs (m : Mach) (w : Wave) : (m.setWave w).reqs = m.reqs := rfl
@[simp] theorem setWave_far (m : Mach) (w : Wave) : (m.setWave w).far = m.far := rfl
@[simp] theorem setWave_lateFails (m : Mach) (w : Wave) : (m.setWave w).lateFails = m.lateFails := rfl
@[simp] theorem setWave_sigOld (m : Mach) (w : Wave) : (m.setWave w).sigOld = m.sigOld := rfl
@[simp] theorem setWave_fired (m : Mach) (w : Wave) : (m.setWave w).fired = m.fired := rfl
@[simp] theorem setWave_relAt (m : Mach) (w : Wave) : (m.setWave w).relAt = m.relAt := rfl
@[simp] theorem setWave_eccSingle (m : Mach) (w : Wave) : (m.setWave w).eccSingle = m.eccSingle := rfl
@[simp] theorem setWave_eccDouble (m : Mach) (w : Wave) : (m.setWave w).eccDouble = m.eccDouble := rfl
@[simp] theorem setWave_glades (m : Mach) (w : Wave) : (m.setWave w).glades = m.glades := rfl
@[simp] theorem setWave_calls (m : Mach) (w : Wave) : (m.setWave w).calls = m.calls := rfl
@[simp] theorem setWave_posts (m : Mach) (w : Wave) : (m.setWave w).posts = m.posts := rfl
@[simp] theorem setWave_filters (m : Mach) (w : Wave) : (m.setWave w).filters = m.filters := rfl
@[simp] theorem setWave_tlbs (m : Mach) (w : Wave) : (m.setWave w).tlbs = m.tlbs := rfl
@[simp] theorem setWave_ranges (m : Mach) (w : Wave) : (m.setWave w).ranges = m.ranges := rfl
@[simp] theorem setWave_pairs (m : Mach) (w : Wave) : (m.setWave w).pairs = m.pairs := rfl
@[simp] theorem setWave_cams (m : Mach) (w : Wave) : (m.setWave w).cams = m.cams := rfl
@[simp] theorem setWave_shares (m : Mach) (w : Wave) : (m.setWave w).shares = m.shares := rfl
@[simp] theorem setWave_sigs (m : Mach) (w : Wave) : (m.setWave w).sigs = m.sigs := rfl
@[simp] theorem setWave_mmajs (m : Mach) (w : Wave) : (m.setWave w).mmajs = m.mmajs := rfl
@[simp] theorem setWave_bars (m : Mach) (w : Wave) : (m.setWave w).bars = m.bars := rfl
@[simp] theorem setWave_barMsgs (m : Mach) (w : Wave) : (m.setWave w).barMsgs = m.barMsgs := rfl
@[simp] theorem setWave_bound (m : Mach) (w : Wave) : (m.setWave w).bound = m.bound := rfl
@[simp] theorem setWave_qpairs (m : Mach) (w : Wave) : (m.setWave w).qpairs = m.qpairs := rfl
@[simp] theorem setWave_colls (m : Mach) (w : Wave) : (m.setWave w).colls = m.colls := rfl
@[simp] theorem setWave_comms (m : Mach) (w : Wave) : (m.setWave w).comms = m.comms := rfl
@[simp] theorem setWave_out (m : Mach) (w : Wave) : (m.setWave w).out = m.out := rfl
@[simp] theorem setWave_preempts (m : Mach) (w : Wave) : (m.setWave w).preempts = m.preempts := rfl
@[simp] theorem setWave_lanes (m : Mach) (w : Wave) : (m.setWave w).lanes = m.lanes := rfl
@[simp] theorem setWave_lports (m : Mach) (w : Wave) : (m.setWave w).lports = m.lports := rfl
@[simp] theorem setWave_sysqs (m : Mach) (w : Wave) : (m.setWave w).sysqs = m.sysqs := rfl
@[simp] theorem setWave_sigpend (m : Mach) (w : Wave) : (m.setWave w).sigpend = m.sigpend := rfl
@[simp] theorem setWave_secnt (m : Mach) (w : Wave) : (m.setWave w).secnt = m.secnt := rfl
@[simp] theorem setWave_errLog (m : Mach) (w : Wave) : (m.setWave w).errLog = m.errLog := rfl
@[simp] theorem setWave_errOver (m : Mach) (w : Wave) : (m.setWave w).errOver = m.errOver := rfl
@[simp] theorem setWave_cxlErrs (m : Mach) (w : Wave) : (m.setWave w).cxlErrs = m.cxlErrs := rfl
@[simp] theorem setWave_sigWaits (m : Mach) (w : Wave) : (m.setWave w).sigWaits = m.sigWaits := rfl
@[simp] theorem setWave_dispatchAt (m : Mach) (w : Wave) : (m.setWave w).dispatchAt = m.dispatchAt := rfl
@[simp] theorem setWave_ierrs (m : Mach) (w : Wave) : (m.setWave w).ierrs = m.ierrs := rfl
@[simp] theorem setWave_farLines (m : Mach) (w : Wave) : (m.setWave w).farLines = m.farLines := rfl
@[simp] theorem setWave_rcOn (m : Mach) (w : Wave) : (m.setWave w).rcOn = m.rcOn := rfl
@[simp] theorem setWave_closed (m : Mach) (w : Wave) : (m.setWave w).closed = m.closed := rfl

/-! ### setLaunch -/

@[simp] theorem setLaunch_cycle (m : Mach) (l : Launch) : (m.setLaunch l).cycle = m.cycle := rfl
@[simp] theorem setLaunch_next (m : Mach) (l : Launch) : (m.setLaunch l).next = m.next := rfl
@[simp] theorem setLaunch_free (m : Mach) (l : Launch) : (m.setLaunch l).free = m.free := rfl
@[simp] theorem setLaunch_cur (m : Mach) (l : Launch) : (m.setLaunch l).cur = m.cur := rfl
@[simp] theorem setLaunch_latch (m : Mach) (l : Launch) : (m.setLaunch l).latch = m.latch := rfl
@[simp] theorem setLaunch_mem (m : Mach) (l : Launch) : (m.setLaunch l).mem = m.mem := rfl
@[simp] theorem setLaunch_stamps (m : Mach) (l : Launch) : (m.setLaunch l).stamps = m.stamps := rfl
@[simp] theorem setLaunch_threads (m : Mach) (l : Launch) : (m.setLaunch l).threads = m.threads := rfl
@[simp] theorem setLaunch_quarters (m : Mach) (l : Launch) : (m.setLaunch l).quarters = m.quarters := rfl
@[simp] theorem setLaunch_waves (m : Mach) (l : Launch) : (m.setLaunch l).waves = m.waves := rfl
@[simp] theorem setLaunch_flights (m : Mach) (l : Launch) : (m.setLaunch l).flights = m.flights := rfl
@[simp] theorem setLaunch_cores (m : Mach) (l : Launch) : (m.setLaunch l).cores = m.cores := rfl
@[simp] theorem setLaunch_copies (m : Mach) (l : Launch) : (m.setLaunch l).copies = m.copies := rfl
@[simp] theorem setLaunch_ilines (m : Mach) (l : Launch) : (m.setLaunch l).ilines = m.ilines := rfl
@[simp] theorem setLaunch_engines (m : Mach) (l : Launch) : (m.setLaunch l).engines = m.engines := rfl
@[simp] theorem setLaunch_traps (m : Mach) (l : Launch) : (m.setLaunch l).traps = m.traps := rfl
@[simp] theorem setLaunch_doms (m : Mach) (l : Launch) : (m.setLaunch l).doms = m.doms := rfl
@[simp] theorem setLaunch_sump (m : Mach) (l : Launch) : (m.setLaunch l).sump = m.sump := rfl
@[simp] theorem setLaunch_rings (m : Mach) (l : Launch) : (m.setLaunch l).rings = m.rings := rfl
@[simp] theorem setLaunch_tiles (m : Mach) (l : Launch) : (m.setLaunch l).tiles = m.tiles := rfl
@[simp] theorem setLaunch_ctrs (m : Mach) (l : Launch) : (m.setLaunch l).ctrs = m.ctrs := rfl
@[simp] theorem setLaunch_decs (m : Mach) (l : Launch) : (m.setLaunch l).decs = m.decs := rfl
@[simp] theorem setLaunch_cxlFail (m : Mach) (l : Launch) : (m.setLaunch l).cxlFail = m.cxlFail := rfl
@[simp] theorem setLaunch_pe0ep (m : Mach) (l : Launch) : (m.setLaunch l).pe0ep = m.pe0ep := rfl
@[simp] theorem setLaunch_hostwin (m : Mach) (l : Launch) : (m.setLaunch l).hostwin = m.hostwin := rfl
@[simp] theorem setLaunch_order (m : Mach) (l : Launch) : (m.setLaunch l).order = m.order := rfl
@[simp] theorem setLaunch_filing (m : Mach) (l : Launch) : (m.setLaunch l).filing = m.filing := rfl
@[simp] theorem setLaunch_walks (m : Mach) (l : Launch) : (m.setLaunch l).walks = m.walks := rfl
@[simp] theorem setLaunch_reqs (m : Mach) (l : Launch) : (m.setLaunch l).reqs = m.reqs := rfl
@[simp] theorem setLaunch_far (m : Mach) (l : Launch) : (m.setLaunch l).far = m.far := rfl
@[simp] theorem setLaunch_lateFails (m : Mach) (l : Launch) : (m.setLaunch l).lateFails = m.lateFails := rfl
@[simp] theorem setLaunch_sigOld (m : Mach) (l : Launch) : (m.setLaunch l).sigOld = m.sigOld := rfl
@[simp] theorem setLaunch_fired (m : Mach) (l : Launch) : (m.setLaunch l).fired = m.fired := rfl
@[simp] theorem setLaunch_relAt (m : Mach) (l : Launch) : (m.setLaunch l).relAt = m.relAt := rfl
@[simp] theorem setLaunch_eccSingle (m : Mach) (l : Launch) : (m.setLaunch l).eccSingle = m.eccSingle := rfl
@[simp] theorem setLaunch_eccDouble (m : Mach) (l : Launch) : (m.setLaunch l).eccDouble = m.eccDouble := rfl
@[simp] theorem setLaunch_glades (m : Mach) (l : Launch) : (m.setLaunch l).glades = m.glades := rfl
@[simp] theorem setLaunch_calls (m : Mach) (l : Launch) : (m.setLaunch l).calls = m.calls := rfl
@[simp] theorem setLaunch_posts (m : Mach) (l : Launch) : (m.setLaunch l).posts = m.posts := rfl
@[simp] theorem setLaunch_filters (m : Mach) (l : Launch) : (m.setLaunch l).filters = m.filters := rfl
@[simp] theorem setLaunch_tlbs (m : Mach) (l : Launch) : (m.setLaunch l).tlbs = m.tlbs := rfl
@[simp] theorem setLaunch_ranges (m : Mach) (l : Launch) : (m.setLaunch l).ranges = m.ranges := rfl
@[simp] theorem setLaunch_pairs (m : Mach) (l : Launch) : (m.setLaunch l).pairs = m.pairs := rfl
@[simp] theorem setLaunch_cams (m : Mach) (l : Launch) : (m.setLaunch l).cams = m.cams := rfl
@[simp] theorem setLaunch_shares (m : Mach) (l : Launch) : (m.setLaunch l).shares = m.shares := rfl
@[simp] theorem setLaunch_sigs (m : Mach) (l : Launch) : (m.setLaunch l).sigs = m.sigs := rfl
@[simp] theorem setLaunch_mmajs (m : Mach) (l : Launch) : (m.setLaunch l).mmajs = m.mmajs := rfl
@[simp] theorem setLaunch_bars (m : Mach) (l : Launch) : (m.setLaunch l).bars = m.bars := rfl
@[simp] theorem setLaunch_barMsgs (m : Mach) (l : Launch) : (m.setLaunch l).barMsgs = m.barMsgs := rfl
@[simp] theorem setLaunch_bound (m : Mach) (l : Launch) : (m.setLaunch l).bound = m.bound := rfl
@[simp] theorem setLaunch_qpairs (m : Mach) (l : Launch) : (m.setLaunch l).qpairs = m.qpairs := rfl
@[simp] theorem setLaunch_colls (m : Mach) (l : Launch) : (m.setLaunch l).colls = m.colls := rfl
@[simp] theorem setLaunch_comms (m : Mach) (l : Launch) : (m.setLaunch l).comms = m.comms := rfl
@[simp] theorem setLaunch_out (m : Mach) (l : Launch) : (m.setLaunch l).out = m.out := rfl
@[simp] theorem setLaunch_preempts (m : Mach) (l : Launch) : (m.setLaunch l).preempts = m.preempts := rfl
@[simp] theorem setLaunch_lanes (m : Mach) (l : Launch) : (m.setLaunch l).lanes = m.lanes := rfl
@[simp] theorem setLaunch_lports (m : Mach) (l : Launch) : (m.setLaunch l).lports = m.lports := rfl
@[simp] theorem setLaunch_sysqs (m : Mach) (l : Launch) : (m.setLaunch l).sysqs = m.sysqs := rfl
@[simp] theorem setLaunch_sigpend (m : Mach) (l : Launch) : (m.setLaunch l).sigpend = m.sigpend := rfl
@[simp] theorem setLaunch_secnt (m : Mach) (l : Launch) : (m.setLaunch l).secnt = m.secnt := rfl
@[simp] theorem setLaunch_errLog (m : Mach) (l : Launch) : (m.setLaunch l).errLog = m.errLog := rfl
@[simp] theorem setLaunch_errOver (m : Mach) (l : Launch) : (m.setLaunch l).errOver = m.errOver := rfl
@[simp] theorem setLaunch_cxlErrs (m : Mach) (l : Launch) : (m.setLaunch l).cxlErrs = m.cxlErrs := rfl
@[simp] theorem setLaunch_sigWaits (m : Mach) (l : Launch) : (m.setLaunch l).sigWaits = m.sigWaits := rfl
@[simp] theorem setLaunch_dispatchAt (m : Mach) (l : Launch) : (m.setLaunch l).dispatchAt = m.dispatchAt := rfl
@[simp] theorem setLaunch_ierrs (m : Mach) (l : Launch) : (m.setLaunch l).ierrs = m.ierrs := rfl
@[simp] theorem setLaunch_farLines (m : Mach) (l : Launch) : (m.setLaunch l).farLines = m.farLines := rfl
@[simp] theorem setLaunch_rcOn (m : Mach) (l : Launch) : (m.setLaunch l).rcOn = m.rcOn := rfl
@[simp] theorem setLaunch_closed (m : Mach) (l : Launch) : (m.setLaunch l).closed = m.closed := rfl

/-! ### setFlight -/

@[simp] theorem setFlight_cycle (m : Mach) (f : Flight) : (m.setFlight f).cycle = m.cycle := rfl
@[simp] theorem setFlight_next (m : Mach) (f : Flight) : (m.setFlight f).next = m.next := rfl
@[simp] theorem setFlight_free (m : Mach) (f : Flight) : (m.setFlight f).free = m.free := rfl
@[simp] theorem setFlight_cur (m : Mach) (f : Flight) : (m.setFlight f).cur = m.cur := rfl
@[simp] theorem setFlight_latch (m : Mach) (f : Flight) : (m.setFlight f).latch = m.latch := rfl
@[simp] theorem setFlight_mem (m : Mach) (f : Flight) : (m.setFlight f).mem = m.mem := rfl
@[simp] theorem setFlight_stamps (m : Mach) (f : Flight) : (m.setFlight f).stamps = m.stamps := rfl
@[simp] theorem setFlight_threads (m : Mach) (f : Flight) : (m.setFlight f).threads = m.threads := rfl
@[simp] theorem setFlight_quarters (m : Mach) (f : Flight) : (m.setFlight f).quarters = m.quarters := rfl
@[simp] theorem setFlight_waves (m : Mach) (f : Flight) : (m.setFlight f).waves = m.waves := rfl
@[simp] theorem setFlight_launches (m : Mach) (f : Flight) : (m.setFlight f).launches = m.launches := rfl
@[simp] theorem setFlight_cores (m : Mach) (f : Flight) : (m.setFlight f).cores = m.cores := rfl
@[simp] theorem setFlight_copies (m : Mach) (f : Flight) : (m.setFlight f).copies = m.copies := rfl
@[simp] theorem setFlight_ilines (m : Mach) (f : Flight) : (m.setFlight f).ilines = m.ilines := rfl
@[simp] theorem setFlight_engines (m : Mach) (f : Flight) : (m.setFlight f).engines = m.engines := rfl
@[simp] theorem setFlight_traps (m : Mach) (f : Flight) : (m.setFlight f).traps = m.traps := rfl
@[simp] theorem setFlight_doms (m : Mach) (f : Flight) : (m.setFlight f).doms = m.doms := rfl
@[simp] theorem setFlight_sump (m : Mach) (f : Flight) : (m.setFlight f).sump = m.sump := rfl
@[simp] theorem setFlight_rings (m : Mach) (f : Flight) : (m.setFlight f).rings = m.rings := rfl
@[simp] theorem setFlight_tiles (m : Mach) (f : Flight) : (m.setFlight f).tiles = m.tiles := rfl
@[simp] theorem setFlight_ctrs (m : Mach) (f : Flight) : (m.setFlight f).ctrs = m.ctrs := rfl
@[simp] theorem setFlight_decs (m : Mach) (f : Flight) : (m.setFlight f).decs = m.decs := rfl
@[simp] theorem setFlight_cxlFail (m : Mach) (f : Flight) : (m.setFlight f).cxlFail = m.cxlFail := rfl
@[simp] theorem setFlight_pe0ep (m : Mach) (f : Flight) : (m.setFlight f).pe0ep = m.pe0ep := rfl
@[simp] theorem setFlight_hostwin (m : Mach) (f : Flight) : (m.setFlight f).hostwin = m.hostwin := rfl
@[simp] theorem setFlight_order (m : Mach) (f : Flight) : (m.setFlight f).order = m.order := rfl
@[simp] theorem setFlight_filing (m : Mach) (f : Flight) : (m.setFlight f).filing = m.filing := rfl
@[simp] theorem setFlight_walks (m : Mach) (f : Flight) : (m.setFlight f).walks = m.walks := rfl
@[simp] theorem setFlight_reqs (m : Mach) (f : Flight) : (m.setFlight f).reqs = m.reqs := rfl
@[simp] theorem setFlight_far (m : Mach) (f : Flight) : (m.setFlight f).far = m.far := rfl
@[simp] theorem setFlight_lateFails (m : Mach) (f : Flight) : (m.setFlight f).lateFails = m.lateFails := rfl
@[simp] theorem setFlight_sigOld (m : Mach) (f : Flight) : (m.setFlight f).sigOld = m.sigOld := rfl
@[simp] theorem setFlight_fired (m : Mach) (f : Flight) : (m.setFlight f).fired = m.fired := rfl
@[simp] theorem setFlight_relAt (m : Mach) (f : Flight) : (m.setFlight f).relAt = m.relAt := rfl
@[simp] theorem setFlight_eccSingle (m : Mach) (f : Flight) : (m.setFlight f).eccSingle = m.eccSingle := rfl
@[simp] theorem setFlight_eccDouble (m : Mach) (f : Flight) : (m.setFlight f).eccDouble = m.eccDouble := rfl
@[simp] theorem setFlight_glades (m : Mach) (f : Flight) : (m.setFlight f).glades = m.glades := rfl
@[simp] theorem setFlight_calls (m : Mach) (f : Flight) : (m.setFlight f).calls = m.calls := rfl
@[simp] theorem setFlight_posts (m : Mach) (f : Flight) : (m.setFlight f).posts = m.posts := rfl
@[simp] theorem setFlight_filters (m : Mach) (f : Flight) : (m.setFlight f).filters = m.filters := rfl
@[simp] theorem setFlight_tlbs (m : Mach) (f : Flight) : (m.setFlight f).tlbs = m.tlbs := rfl
@[simp] theorem setFlight_ranges (m : Mach) (f : Flight) : (m.setFlight f).ranges = m.ranges := rfl
@[simp] theorem setFlight_pairs (m : Mach) (f : Flight) : (m.setFlight f).pairs = m.pairs := rfl
@[simp] theorem setFlight_cams (m : Mach) (f : Flight) : (m.setFlight f).cams = m.cams := rfl
@[simp] theorem setFlight_shares (m : Mach) (f : Flight) : (m.setFlight f).shares = m.shares := rfl
@[simp] theorem setFlight_sigs (m : Mach) (f : Flight) : (m.setFlight f).sigs = m.sigs := rfl
@[simp] theorem setFlight_mmajs (m : Mach) (f : Flight) : (m.setFlight f).mmajs = m.mmajs := rfl
@[simp] theorem setFlight_bars (m : Mach) (f : Flight) : (m.setFlight f).bars = m.bars := rfl
@[simp] theorem setFlight_barMsgs (m : Mach) (f : Flight) : (m.setFlight f).barMsgs = m.barMsgs := rfl
@[simp] theorem setFlight_bound (m : Mach) (f : Flight) : (m.setFlight f).bound = m.bound := rfl
@[simp] theorem setFlight_qpairs (m : Mach) (f : Flight) : (m.setFlight f).qpairs = m.qpairs := rfl
@[simp] theorem setFlight_colls (m : Mach) (f : Flight) : (m.setFlight f).colls = m.colls := rfl
@[simp] theorem setFlight_comms (m : Mach) (f : Flight) : (m.setFlight f).comms = m.comms := rfl
@[simp] theorem setFlight_out (m : Mach) (f : Flight) : (m.setFlight f).out = m.out := rfl
@[simp] theorem setFlight_preempts (m : Mach) (f : Flight) : (m.setFlight f).preempts = m.preempts := rfl
@[simp] theorem setFlight_lanes (m : Mach) (f : Flight) : (m.setFlight f).lanes = m.lanes := rfl
@[simp] theorem setFlight_lports (m : Mach) (f : Flight) : (m.setFlight f).lports = m.lports := rfl
@[simp] theorem setFlight_sysqs (m : Mach) (f : Flight) : (m.setFlight f).sysqs = m.sysqs := rfl
@[simp] theorem setFlight_sigpend (m : Mach) (f : Flight) : (m.setFlight f).sigpend = m.sigpend := rfl
@[simp] theorem setFlight_secnt (m : Mach) (f : Flight) : (m.setFlight f).secnt = m.secnt := rfl
@[simp] theorem setFlight_errLog (m : Mach) (f : Flight) : (m.setFlight f).errLog = m.errLog := rfl
@[simp] theorem setFlight_errOver (m : Mach) (f : Flight) : (m.setFlight f).errOver = m.errOver := rfl
@[simp] theorem setFlight_cxlErrs (m : Mach) (f : Flight) : (m.setFlight f).cxlErrs = m.cxlErrs := rfl
@[simp] theorem setFlight_sigWaits (m : Mach) (f : Flight) : (m.setFlight f).sigWaits = m.sigWaits := rfl
@[simp] theorem setFlight_dispatchAt (m : Mach) (f : Flight) : (m.setFlight f).dispatchAt = m.dispatchAt := rfl
@[simp] theorem setFlight_ierrs (m : Mach) (f : Flight) : (m.setFlight f).ierrs = m.ierrs := rfl
@[simp] theorem setFlight_farLines (m : Mach) (f : Flight) : (m.setFlight f).farLines = m.farLines := rfl
@[simp] theorem setFlight_rcOn (m : Mach) (f : Flight) : (m.setFlight f).rcOn = m.rcOn := rfl
@[simp] theorem setFlight_closed (m : Mach) (f : Flight) : (m.setFlight f).closed = m.closed := rfl

/-! ### setCore -/

@[simp] theorem setCore_cycle (m : Mach) (c : CoreSt) : (m.setCore c).cycle = m.cycle := rfl
@[simp] theorem setCore_next (m : Mach) (c : CoreSt) : (m.setCore c).next = m.next := rfl
@[simp] theorem setCore_free (m : Mach) (c : CoreSt) : (m.setCore c).free = m.free := rfl
@[simp] theorem setCore_cur (m : Mach) (c : CoreSt) : (m.setCore c).cur = m.cur := rfl
@[simp] theorem setCore_latch (m : Mach) (c : CoreSt) : (m.setCore c).latch = m.latch := rfl
@[simp] theorem setCore_mem (m : Mach) (c : CoreSt) : (m.setCore c).mem = m.mem := rfl
@[simp] theorem setCore_stamps (m : Mach) (c : CoreSt) : (m.setCore c).stamps = m.stamps := rfl
@[simp] theorem setCore_threads (m : Mach) (c : CoreSt) : (m.setCore c).threads = m.threads := rfl
@[simp] theorem setCore_quarters (m : Mach) (c : CoreSt) : (m.setCore c).quarters = m.quarters := rfl
@[simp] theorem setCore_waves (m : Mach) (c : CoreSt) : (m.setCore c).waves = m.waves := rfl
@[simp] theorem setCore_launches (m : Mach) (c : CoreSt) : (m.setCore c).launches = m.launches := rfl
@[simp] theorem setCore_flights (m : Mach) (c : CoreSt) : (m.setCore c).flights = m.flights := rfl
@[simp] theorem setCore_copies (m : Mach) (c : CoreSt) : (m.setCore c).copies = m.copies := rfl
@[simp] theorem setCore_ilines (m : Mach) (c : CoreSt) : (m.setCore c).ilines = m.ilines := rfl
@[simp] theorem setCore_engines (m : Mach) (c : CoreSt) : (m.setCore c).engines = m.engines := rfl
@[simp] theorem setCore_traps (m : Mach) (c : CoreSt) : (m.setCore c).traps = m.traps := rfl
@[simp] theorem setCore_doms (m : Mach) (c : CoreSt) : (m.setCore c).doms = m.doms := rfl
@[simp] theorem setCore_sump (m : Mach) (c : CoreSt) : (m.setCore c).sump = m.sump := rfl
@[simp] theorem setCore_rings (m : Mach) (c : CoreSt) : (m.setCore c).rings = m.rings := rfl
@[simp] theorem setCore_tiles (m : Mach) (c : CoreSt) : (m.setCore c).tiles = m.tiles := rfl
@[simp] theorem setCore_ctrs (m : Mach) (c : CoreSt) : (m.setCore c).ctrs = m.ctrs := rfl
@[simp] theorem setCore_decs (m : Mach) (c : CoreSt) : (m.setCore c).decs = m.decs := rfl
@[simp] theorem setCore_cxlFail (m : Mach) (c : CoreSt) : (m.setCore c).cxlFail = m.cxlFail := rfl
@[simp] theorem setCore_pe0ep (m : Mach) (c : CoreSt) : (m.setCore c).pe0ep = m.pe0ep := rfl
@[simp] theorem setCore_hostwin (m : Mach) (c : CoreSt) : (m.setCore c).hostwin = m.hostwin := rfl
@[simp] theorem setCore_order (m : Mach) (c : CoreSt) : (m.setCore c).order = m.order := rfl
@[simp] theorem setCore_filing (m : Mach) (c : CoreSt) : (m.setCore c).filing = m.filing := rfl
@[simp] theorem setCore_walks (m : Mach) (c : CoreSt) : (m.setCore c).walks = m.walks := rfl
@[simp] theorem setCore_reqs (m : Mach) (c : CoreSt) : (m.setCore c).reqs = m.reqs := rfl
@[simp] theorem setCore_far (m : Mach) (c : CoreSt) : (m.setCore c).far = m.far := rfl
@[simp] theorem setCore_lateFails (m : Mach) (c : CoreSt) : (m.setCore c).lateFails = m.lateFails := rfl
@[simp] theorem setCore_sigOld (m : Mach) (c : CoreSt) : (m.setCore c).sigOld = m.sigOld := rfl
@[simp] theorem setCore_fired (m : Mach) (c : CoreSt) : (m.setCore c).fired = m.fired := rfl
@[simp] theorem setCore_relAt (m : Mach) (c : CoreSt) : (m.setCore c).relAt = m.relAt := rfl
@[simp] theorem setCore_eccSingle (m : Mach) (c : CoreSt) : (m.setCore c).eccSingle = m.eccSingle := rfl
@[simp] theorem setCore_eccDouble (m : Mach) (c : CoreSt) : (m.setCore c).eccDouble = m.eccDouble := rfl
@[simp] theorem setCore_glades (m : Mach) (c : CoreSt) : (m.setCore c).glades = m.glades := rfl
@[simp] theorem setCore_calls (m : Mach) (c : CoreSt) : (m.setCore c).calls = m.calls := rfl
@[simp] theorem setCore_posts (m : Mach) (c : CoreSt) : (m.setCore c).posts = m.posts := rfl
@[simp] theorem setCore_filters (m : Mach) (c : CoreSt) : (m.setCore c).filters = m.filters := rfl
@[simp] theorem setCore_tlbs (m : Mach) (c : CoreSt) : (m.setCore c).tlbs = m.tlbs := rfl
@[simp] theorem setCore_ranges (m : Mach) (c : CoreSt) : (m.setCore c).ranges = m.ranges := rfl
@[simp] theorem setCore_pairs (m : Mach) (c : CoreSt) : (m.setCore c).pairs = m.pairs := rfl
@[simp] theorem setCore_cams (m : Mach) (c : CoreSt) : (m.setCore c).cams = m.cams := rfl
@[simp] theorem setCore_shares (m : Mach) (c : CoreSt) : (m.setCore c).shares = m.shares := rfl
@[simp] theorem setCore_sigs (m : Mach) (c : CoreSt) : (m.setCore c).sigs = m.sigs := rfl
@[simp] theorem setCore_mmajs (m : Mach) (c : CoreSt) : (m.setCore c).mmajs = m.mmajs := rfl
@[simp] theorem setCore_bars (m : Mach) (c : CoreSt) : (m.setCore c).bars = m.bars := rfl
@[simp] theorem setCore_barMsgs (m : Mach) (c : CoreSt) : (m.setCore c).barMsgs = m.barMsgs := rfl
@[simp] theorem setCore_bound (m : Mach) (c : CoreSt) : (m.setCore c).bound = m.bound := rfl
@[simp] theorem setCore_qpairs (m : Mach) (c : CoreSt) : (m.setCore c).qpairs = m.qpairs := rfl
@[simp] theorem setCore_colls (m : Mach) (c : CoreSt) : (m.setCore c).colls = m.colls := rfl
@[simp] theorem setCore_comms (m : Mach) (c : CoreSt) : (m.setCore c).comms = m.comms := rfl
@[simp] theorem setCore_out (m : Mach) (c : CoreSt) : (m.setCore c).out = m.out := rfl
@[simp] theorem setCore_preempts (m : Mach) (c : CoreSt) : (m.setCore c).preempts = m.preempts := rfl
@[simp] theorem setCore_lanes (m : Mach) (c : CoreSt) : (m.setCore c).lanes = m.lanes := rfl
@[simp] theorem setCore_lports (m : Mach) (c : CoreSt) : (m.setCore c).lports = m.lports := rfl
@[simp] theorem setCore_sysqs (m : Mach) (c : CoreSt) : (m.setCore c).sysqs = m.sysqs := rfl
@[simp] theorem setCore_sigpend (m : Mach) (c : CoreSt) : (m.setCore c).sigpend = m.sigpend := rfl
@[simp] theorem setCore_secnt (m : Mach) (c : CoreSt) : (m.setCore c).secnt = m.secnt := rfl
@[simp] theorem setCore_errLog (m : Mach) (c : CoreSt) : (m.setCore c).errLog = m.errLog := rfl
@[simp] theorem setCore_errOver (m : Mach) (c : CoreSt) : (m.setCore c).errOver = m.errOver := rfl
@[simp] theorem setCore_cxlErrs (m : Mach) (c : CoreSt) : (m.setCore c).cxlErrs = m.cxlErrs := rfl
@[simp] theorem setCore_sigWaits (m : Mach) (c : CoreSt) : (m.setCore c).sigWaits = m.sigWaits := rfl
@[simp] theorem setCore_dispatchAt (m : Mach) (c : CoreSt) : (m.setCore c).dispatchAt = m.dispatchAt := rfl
@[simp] theorem setCore_ierrs (m : Mach) (c : CoreSt) : (m.setCore c).ierrs = m.ierrs := rfl
@[simp] theorem setCore_farLines (m : Mach) (c : CoreSt) : (m.setCore c).farLines = m.farLines := rfl
@[simp] theorem setCore_rcOn (m : Mach) (c : CoreSt) : (m.setCore c).rcOn = m.rcOn := rfl
@[simp] theorem setCore_closed (m : Mach) (c : CoreSt) : (m.setCore c).closed = m.closed := rfl

/-! ### modCore -/

@[simp] theorem modCore_cycle (m : Mach) (k : Nat) (f : CoreSt → CoreSt) : (m.modCore k f).cycle = m.cycle := rfl
@[simp] theorem modCore_next (m : Mach) (k : Nat) (f : CoreSt → CoreSt) : (m.modCore k f).next = m.next := rfl
@[simp] theorem modCore_free (m : Mach) (k : Nat) (f : CoreSt → CoreSt) : (m.modCore k f).free = m.free := rfl
@[simp] theorem modCore_cur (m : Mach) (k : Nat) (f : CoreSt → CoreSt) : (m.modCore k f).cur = m.cur := rfl
@[simp] theorem modCore_latch (m : Mach) (k : Nat) (f : CoreSt → CoreSt) : (m.modCore k f).latch = m.latch := rfl
@[simp] theorem modCore_mem (m : Mach) (k : Nat) (f : CoreSt → CoreSt) : (m.modCore k f).mem = m.mem := rfl
@[simp] theorem modCore_stamps (m : Mach) (k : Nat) (f : CoreSt → CoreSt) : (m.modCore k f).stamps = m.stamps := rfl
@[simp] theorem modCore_threads (m : Mach) (k : Nat) (f : CoreSt → CoreSt) : (m.modCore k f).threads = m.threads := rfl
@[simp] theorem modCore_quarters (m : Mach) (k : Nat) (f : CoreSt → CoreSt) : (m.modCore k f).quarters = m.quarters := rfl
@[simp] theorem modCore_waves (m : Mach) (k : Nat) (f : CoreSt → CoreSt) : (m.modCore k f).waves = m.waves := rfl
@[simp] theorem modCore_launches (m : Mach) (k : Nat) (f : CoreSt → CoreSt) : (m.modCore k f).launches = m.launches := rfl
@[simp] theorem modCore_flights (m : Mach) (k : Nat) (f : CoreSt → CoreSt) : (m.modCore k f).flights = m.flights := rfl
@[simp] theorem modCore_copies (m : Mach) (k : Nat) (f : CoreSt → CoreSt) : (m.modCore k f).copies = m.copies := rfl
@[simp] theorem modCore_ilines (m : Mach) (k : Nat) (f : CoreSt → CoreSt) : (m.modCore k f).ilines = m.ilines := rfl
@[simp] theorem modCore_engines (m : Mach) (k : Nat) (f : CoreSt → CoreSt) : (m.modCore k f).engines = m.engines := rfl
@[simp] theorem modCore_traps (m : Mach) (k : Nat) (f : CoreSt → CoreSt) : (m.modCore k f).traps = m.traps := rfl
@[simp] theorem modCore_doms (m : Mach) (k : Nat) (f : CoreSt → CoreSt) : (m.modCore k f).doms = m.doms := rfl
@[simp] theorem modCore_sump (m : Mach) (k : Nat) (f : CoreSt → CoreSt) : (m.modCore k f).sump = m.sump := rfl
@[simp] theorem modCore_rings (m : Mach) (k : Nat) (f : CoreSt → CoreSt) : (m.modCore k f).rings = m.rings := rfl
@[simp] theorem modCore_tiles (m : Mach) (k : Nat) (f : CoreSt → CoreSt) : (m.modCore k f).tiles = m.tiles := rfl
@[simp] theorem modCore_ctrs (m : Mach) (k : Nat) (f : CoreSt → CoreSt) : (m.modCore k f).ctrs = m.ctrs := rfl
@[simp] theorem modCore_decs (m : Mach) (k : Nat) (f : CoreSt → CoreSt) : (m.modCore k f).decs = m.decs := rfl
@[simp] theorem modCore_cxlFail (m : Mach) (k : Nat) (f : CoreSt → CoreSt) : (m.modCore k f).cxlFail = m.cxlFail := rfl
@[simp] theorem modCore_pe0ep (m : Mach) (k : Nat) (f : CoreSt → CoreSt) : (m.modCore k f).pe0ep = m.pe0ep := rfl
@[simp] theorem modCore_hostwin (m : Mach) (k : Nat) (f : CoreSt → CoreSt) : (m.modCore k f).hostwin = m.hostwin := rfl
@[simp] theorem modCore_order (m : Mach) (k : Nat) (f : CoreSt → CoreSt) : (m.modCore k f).order = m.order := rfl
@[simp] theorem modCore_filing (m : Mach) (k : Nat) (f : CoreSt → CoreSt) : (m.modCore k f).filing = m.filing := rfl
@[simp] theorem modCore_walks (m : Mach) (k : Nat) (f : CoreSt → CoreSt) : (m.modCore k f).walks = m.walks := rfl
@[simp] theorem modCore_reqs (m : Mach) (k : Nat) (f : CoreSt → CoreSt) : (m.modCore k f).reqs = m.reqs := rfl
@[simp] theorem modCore_far (m : Mach) (k : Nat) (f : CoreSt → CoreSt) : (m.modCore k f).far = m.far := rfl
@[simp] theorem modCore_lateFails (m : Mach) (k : Nat) (f : CoreSt → CoreSt) : (m.modCore k f).lateFails = m.lateFails := rfl
@[simp] theorem modCore_sigOld (m : Mach) (k : Nat) (f : CoreSt → CoreSt) : (m.modCore k f).sigOld = m.sigOld := rfl
@[simp] theorem modCore_fired (m : Mach) (k : Nat) (f : CoreSt → CoreSt) : (m.modCore k f).fired = m.fired := rfl
@[simp] theorem modCore_relAt (m : Mach) (k : Nat) (f : CoreSt → CoreSt) : (m.modCore k f).relAt = m.relAt := rfl
@[simp] theorem modCore_eccSingle (m : Mach) (k : Nat) (f : CoreSt → CoreSt) : (m.modCore k f).eccSingle = m.eccSingle := rfl
@[simp] theorem modCore_eccDouble (m : Mach) (k : Nat) (f : CoreSt → CoreSt) : (m.modCore k f).eccDouble = m.eccDouble := rfl
@[simp] theorem modCore_glades (m : Mach) (k : Nat) (f : CoreSt → CoreSt) : (m.modCore k f).glades = m.glades := rfl
@[simp] theorem modCore_calls (m : Mach) (k : Nat) (f : CoreSt → CoreSt) : (m.modCore k f).calls = m.calls := rfl
@[simp] theorem modCore_posts (m : Mach) (k : Nat) (f : CoreSt → CoreSt) : (m.modCore k f).posts = m.posts := rfl
@[simp] theorem modCore_filters (m : Mach) (k : Nat) (f : CoreSt → CoreSt) : (m.modCore k f).filters = m.filters := rfl
@[simp] theorem modCore_tlbs (m : Mach) (k : Nat) (f : CoreSt → CoreSt) : (m.modCore k f).tlbs = m.tlbs := rfl
@[simp] theorem modCore_ranges (m : Mach) (k : Nat) (f : CoreSt → CoreSt) : (m.modCore k f).ranges = m.ranges := rfl
@[simp] theorem modCore_pairs (m : Mach) (k : Nat) (f : CoreSt → CoreSt) : (m.modCore k f).pairs = m.pairs := rfl
@[simp] theorem modCore_cams (m : Mach) (k : Nat) (f : CoreSt → CoreSt) : (m.modCore k f).cams = m.cams := rfl
@[simp] theorem modCore_shares (m : Mach) (k : Nat) (f : CoreSt → CoreSt) : (m.modCore k f).shares = m.shares := rfl
@[simp] theorem modCore_sigs (m : Mach) (k : Nat) (f : CoreSt → CoreSt) : (m.modCore k f).sigs = m.sigs := rfl
@[simp] theorem modCore_mmajs (m : Mach) (k : Nat) (f : CoreSt → CoreSt) : (m.modCore k f).mmajs = m.mmajs := rfl
@[simp] theorem modCore_bars (m : Mach) (k : Nat) (f : CoreSt → CoreSt) : (m.modCore k f).bars = m.bars := rfl
@[simp] theorem modCore_barMsgs (m : Mach) (k : Nat) (f : CoreSt → CoreSt) : (m.modCore k f).barMsgs = m.barMsgs := rfl
@[simp] theorem modCore_bound (m : Mach) (k : Nat) (f : CoreSt → CoreSt) : (m.modCore k f).bound = m.bound := rfl
@[simp] theorem modCore_qpairs (m : Mach) (k : Nat) (f : CoreSt → CoreSt) : (m.modCore k f).qpairs = m.qpairs := rfl
@[simp] theorem modCore_colls (m : Mach) (k : Nat) (f : CoreSt → CoreSt) : (m.modCore k f).colls = m.colls := rfl
@[simp] theorem modCore_comms (m : Mach) (k : Nat) (f : CoreSt → CoreSt) : (m.modCore k f).comms = m.comms := rfl
@[simp] theorem modCore_out (m : Mach) (k : Nat) (f : CoreSt → CoreSt) : (m.modCore k f).out = m.out := rfl
@[simp] theorem modCore_preempts (m : Mach) (k : Nat) (f : CoreSt → CoreSt) : (m.modCore k f).preempts = m.preempts := rfl
@[simp] theorem modCore_lanes (m : Mach) (k : Nat) (f : CoreSt → CoreSt) : (m.modCore k f).lanes = m.lanes := rfl
@[simp] theorem modCore_lports (m : Mach) (k : Nat) (f : CoreSt → CoreSt) : (m.modCore k f).lports = m.lports := rfl
@[simp] theorem modCore_sysqs (m : Mach) (k : Nat) (f : CoreSt → CoreSt) : (m.modCore k f).sysqs = m.sysqs := rfl
@[simp] theorem modCore_sigpend (m : Mach) (k : Nat) (f : CoreSt → CoreSt) : (m.modCore k f).sigpend = m.sigpend := rfl
@[simp] theorem modCore_secnt (m : Mach) (k : Nat) (f : CoreSt → CoreSt) : (m.modCore k f).secnt = m.secnt := rfl
@[simp] theorem modCore_errLog (m : Mach) (k : Nat) (f : CoreSt → CoreSt) : (m.modCore k f).errLog = m.errLog := rfl
@[simp] theorem modCore_errOver (m : Mach) (k : Nat) (f : CoreSt → CoreSt) : (m.modCore k f).errOver = m.errOver := rfl
@[simp] theorem modCore_cxlErrs (m : Mach) (k : Nat) (f : CoreSt → CoreSt) : (m.modCore k f).cxlErrs = m.cxlErrs := rfl
@[simp] theorem modCore_sigWaits (m : Mach) (k : Nat) (f : CoreSt → CoreSt) : (m.modCore k f).sigWaits = m.sigWaits := rfl
@[simp] theorem modCore_dispatchAt (m : Mach) (k : Nat) (f : CoreSt → CoreSt) : (m.modCore k f).dispatchAt = m.dispatchAt := rfl
@[simp] theorem modCore_ierrs (m : Mach) (k : Nat) (f : CoreSt → CoreSt) : (m.modCore k f).ierrs = m.ierrs := rfl
@[simp] theorem modCore_farLines (m : Mach) (k : Nat) (f : CoreSt → CoreSt) : (m.modCore k f).farLines = m.farLines := rfl
@[simp] theorem modCore_rcOn (m : Mach) (k : Nat) (f : CoreSt → CoreSt) : (m.modCore k f).rcOn = m.rcOn := rfl
@[simp] theorem modCore_closed (m : Mach) (k : Nat) (f : CoreSt → CoreSt) : (m.modCore k f).closed = m.closed := rfl

/-! ### fire -/

@[simp] theorem fire_cycle (m : Mach) (r : Nat) : (m.fire r).cycle = m.cycle := rfl
@[simp] theorem fire_next (m : Mach) (r : Nat) : (m.fire r).next = m.next := rfl
@[simp] theorem fire_free (m : Mach) (r : Nat) : (m.fire r).free = m.free := rfl
@[simp] theorem fire_cur (m : Mach) (r : Nat) : (m.fire r).cur = m.cur := rfl
@[simp] theorem fire_latch (m : Mach) (r : Nat) : (m.fire r).latch = m.latch := rfl
@[simp] theorem fire_mem (m : Mach) (r : Nat) : (m.fire r).mem = m.mem := rfl
@[simp] theorem fire_stamps (m : Mach) (r : Nat) : (m.fire r).stamps = m.stamps := rfl
@[simp] theorem fire_threads (m : Mach) (r : Nat) : (m.fire r).threads = m.threads := rfl
@[simp] theorem fire_quarters (m : Mach) (r : Nat) : (m.fire r).quarters = m.quarters := rfl
@[simp] theorem fire_waves (m : Mach) (r : Nat) : (m.fire r).waves = m.waves := rfl
@[simp] theorem fire_launches (m : Mach) (r : Nat) : (m.fire r).launches = m.launches := rfl
@[simp] theorem fire_flights (m : Mach) (r : Nat) : (m.fire r).flights = m.flights := rfl
@[simp] theorem fire_cores (m : Mach) (r : Nat) : (m.fire r).cores = m.cores := rfl
@[simp] theorem fire_copies (m : Mach) (r : Nat) : (m.fire r).copies = m.copies := rfl
@[simp] theorem fire_ilines (m : Mach) (r : Nat) : (m.fire r).ilines = m.ilines := rfl
@[simp] theorem fire_engines (m : Mach) (r : Nat) : (m.fire r).engines = m.engines := rfl
@[simp] theorem fire_traps (m : Mach) (r : Nat) : (m.fire r).traps = m.traps := rfl
@[simp] theorem fire_doms (m : Mach) (r : Nat) : (m.fire r).doms = m.doms := rfl
@[simp] theorem fire_sump (m : Mach) (r : Nat) : (m.fire r).sump = m.sump := rfl
@[simp] theorem fire_rings (m : Mach) (r : Nat) : (m.fire r).rings = m.rings := rfl
@[simp] theorem fire_tiles (m : Mach) (r : Nat) : (m.fire r).tiles = m.tiles := rfl
@[simp] theorem fire_ctrs (m : Mach) (r : Nat) : (m.fire r).ctrs = m.ctrs := rfl
@[simp] theorem fire_decs (m : Mach) (r : Nat) : (m.fire r).decs = m.decs := rfl
@[simp] theorem fire_cxlFail (m : Mach) (r : Nat) : (m.fire r).cxlFail = m.cxlFail := rfl
@[simp] theorem fire_pe0ep (m : Mach) (r : Nat) : (m.fire r).pe0ep = m.pe0ep := rfl
@[simp] theorem fire_hostwin (m : Mach) (r : Nat) : (m.fire r).hostwin = m.hostwin := rfl
@[simp] theorem fire_order (m : Mach) (r : Nat) : (m.fire r).order = m.order := rfl
@[simp] theorem fire_filing (m : Mach) (r : Nat) : (m.fire r).filing = m.filing := rfl
@[simp] theorem fire_walks (m : Mach) (r : Nat) : (m.fire r).walks = m.walks := rfl
@[simp] theorem fire_reqs (m : Mach) (r : Nat) : (m.fire r).reqs = m.reqs := rfl
@[simp] theorem fire_far (m : Mach) (r : Nat) : (m.fire r).far = m.far := rfl
@[simp] theorem fire_lateFails (m : Mach) (r : Nat) : (m.fire r).lateFails = m.lateFails := rfl
@[simp] theorem fire_sigOld (m : Mach) (r : Nat) : (m.fire r).sigOld = m.sigOld := rfl
@[simp] theorem fire_relAt (m : Mach) (r : Nat) : (m.fire r).relAt = m.relAt := rfl
@[simp] theorem fire_eccSingle (m : Mach) (r : Nat) : (m.fire r).eccSingle = m.eccSingle := rfl
@[simp] theorem fire_eccDouble (m : Mach) (r : Nat) : (m.fire r).eccDouble = m.eccDouble := rfl
@[simp] theorem fire_glades (m : Mach) (r : Nat) : (m.fire r).glades = m.glades := rfl
@[simp] theorem fire_calls (m : Mach) (r : Nat) : (m.fire r).calls = m.calls := rfl
@[simp] theorem fire_posts (m : Mach) (r : Nat) : (m.fire r).posts = m.posts := rfl
@[simp] theorem fire_filters (m : Mach) (r : Nat) : (m.fire r).filters = m.filters := rfl
@[simp] theorem fire_tlbs (m : Mach) (r : Nat) : (m.fire r).tlbs = m.tlbs := rfl
@[simp] theorem fire_ranges (m : Mach) (r : Nat) : (m.fire r).ranges = m.ranges := rfl
@[simp] theorem fire_pairs (m : Mach) (r : Nat) : (m.fire r).pairs = m.pairs := rfl
@[simp] theorem fire_cams (m : Mach) (r : Nat) : (m.fire r).cams = m.cams := rfl
@[simp] theorem fire_shares (m : Mach) (r : Nat) : (m.fire r).shares = m.shares := rfl
@[simp] theorem fire_sigs (m : Mach) (r : Nat) : (m.fire r).sigs = m.sigs := rfl
@[simp] theorem fire_mmajs (m : Mach) (r : Nat) : (m.fire r).mmajs = m.mmajs := rfl
@[simp] theorem fire_bars (m : Mach) (r : Nat) : (m.fire r).bars = m.bars := rfl
@[simp] theorem fire_barMsgs (m : Mach) (r : Nat) : (m.fire r).barMsgs = m.barMsgs := rfl
@[simp] theorem fire_bound (m : Mach) (r : Nat) : (m.fire r).bound = m.bound := rfl
@[simp] theorem fire_qpairs (m : Mach) (r : Nat) : (m.fire r).qpairs = m.qpairs := rfl
@[simp] theorem fire_colls (m : Mach) (r : Nat) : (m.fire r).colls = m.colls := rfl
@[simp] theorem fire_comms (m : Mach) (r : Nat) : (m.fire r).comms = m.comms := rfl
@[simp] theorem fire_out (m : Mach) (r : Nat) : (m.fire r).out = m.out := rfl
@[simp] theorem fire_preempts (m : Mach) (r : Nat) : (m.fire r).preempts = m.preempts := rfl
@[simp] theorem fire_lanes (m : Mach) (r : Nat) : (m.fire r).lanes = m.lanes := rfl
@[simp] theorem fire_lports (m : Mach) (r : Nat) : (m.fire r).lports = m.lports := rfl
@[simp] theorem fire_sysqs (m : Mach) (r : Nat) : (m.fire r).sysqs = m.sysqs := rfl
@[simp] theorem fire_sigpend (m : Mach) (r : Nat) : (m.fire r).sigpend = m.sigpend := rfl
@[simp] theorem fire_secnt (m : Mach) (r : Nat) : (m.fire r).secnt = m.secnt := rfl
@[simp] theorem fire_errLog (m : Mach) (r : Nat) : (m.fire r).errLog = m.errLog := rfl
@[simp] theorem fire_errOver (m : Mach) (r : Nat) : (m.fire r).errOver = m.errOver := rfl
@[simp] theorem fire_cxlErrs (m : Mach) (r : Nat) : (m.fire r).cxlErrs = m.cxlErrs := rfl
@[simp] theorem fire_sigWaits (m : Mach) (r : Nat) : (m.fire r).sigWaits = m.sigWaits := rfl
@[simp] theorem fire_dispatchAt (m : Mach) (r : Nat) : (m.fire r).dispatchAt = m.dispatchAt := rfl
@[simp] theorem fire_ierrs (m : Mach) (r : Nat) : (m.fire r).ierrs = m.ierrs := rfl
@[simp] theorem fire_farLines (m : Mach) (r : Nat) : (m.fire r).farLines = m.farLines := rfl
@[simp] theorem fire_rcOn (m : Mach) (r : Nat) : (m.fire r).rcOn = m.rcOn := rfl
@[simp] theorem fire_closed (m : Mach) (r : Nat) : (m.fire r).closed = m.closed := rfl

/-! ### dropCopies -/

@[simp] theorem dropCopies_cycle (m : Mach) (k : Nat) : (m.dropCopies k).cycle = m.cycle := rfl
@[simp] theorem dropCopies_next (m : Mach) (k : Nat) : (m.dropCopies k).next = m.next := rfl
@[simp] theorem dropCopies_free (m : Mach) (k : Nat) : (m.dropCopies k).free = m.free := rfl
@[simp] theorem dropCopies_cur (m : Mach) (k : Nat) : (m.dropCopies k).cur = m.cur := rfl
@[simp] theorem dropCopies_latch (m : Mach) (k : Nat) : (m.dropCopies k).latch = m.latch := rfl
@[simp] theorem dropCopies_ilines (m : Mach) (k : Nat) : (m.dropCopies k).ilines = m.ilines := rfl
@[simp] theorem dropCopies_mem (m : Mach) (k : Nat) : (m.dropCopies k).mem = m.mem := rfl
@[simp] theorem dropCopies_stamps (m : Mach) (k : Nat) : (m.dropCopies k).stamps = m.stamps := rfl
@[simp] theorem dropCopies_threads (m : Mach) (k : Nat) : (m.dropCopies k).threads = m.threads := rfl
@[simp] theorem dropCopies_quarters (m : Mach) (k : Nat) : (m.dropCopies k).quarters = m.quarters := rfl
@[simp] theorem dropCopies_waves (m : Mach) (k : Nat) : (m.dropCopies k).waves = m.waves := rfl
@[simp] theorem dropCopies_launches (m : Mach) (k : Nat) : (m.dropCopies k).launches = m.launches := rfl
@[simp] theorem dropCopies_flights (m : Mach) (k : Nat) : (m.dropCopies k).flights = m.flights := rfl
@[simp] theorem dropCopies_cores (m : Mach) (k : Nat) : (m.dropCopies k).cores = m.cores := rfl
@[simp] theorem dropCopies_engines (m : Mach) (k : Nat) : (m.dropCopies k).engines = m.engines := rfl
@[simp] theorem dropCopies_traps (m : Mach) (k : Nat) : (m.dropCopies k).traps = m.traps := rfl
@[simp] theorem dropCopies_doms (m : Mach) (k : Nat) : (m.dropCopies k).doms = m.doms := rfl
@[simp] theorem dropCopies_sump (m : Mach) (k : Nat) : (m.dropCopies k).sump = m.sump := rfl
@[simp] theorem dropCopies_rings (m : Mach) (k : Nat) : (m.dropCopies k).rings = m.rings := rfl
@[simp] theorem dropCopies_tiles (m : Mach) (k : Nat) : (m.dropCopies k).tiles = m.tiles := rfl
@[simp] theorem dropCopies_ctrs (m : Mach) (k : Nat) : (m.dropCopies k).ctrs = m.ctrs := rfl
@[simp] theorem dropCopies_decs (m : Mach) (k : Nat) : (m.dropCopies k).decs = m.decs := rfl
@[simp] theorem dropCopies_cxlFail (m : Mach) (k : Nat) : (m.dropCopies k).cxlFail = m.cxlFail := rfl
@[simp] theorem dropCopies_pe0ep (m : Mach) (k : Nat) : (m.dropCopies k).pe0ep = m.pe0ep := rfl
@[simp] theorem dropCopies_hostwin (m : Mach) (k : Nat) : (m.dropCopies k).hostwin = m.hostwin := rfl
@[simp] theorem dropCopies_order (m : Mach) (k : Nat) : (m.dropCopies k).order = m.order := rfl
@[simp] theorem dropCopies_filing (m : Mach) (k : Nat) : (m.dropCopies k).filing = m.filing := rfl
@[simp] theorem dropCopies_walks (m : Mach) (k : Nat) : (m.dropCopies k).walks = m.walks := rfl
@[simp] theorem dropCopies_reqs (m : Mach) (k : Nat) : (m.dropCopies k).reqs = m.reqs := rfl
@[simp] theorem dropCopies_far (m : Mach) (k : Nat) : (m.dropCopies k).far = m.far := rfl
@[simp] theorem dropCopies_lateFails (m : Mach) (k : Nat) : (m.dropCopies k).lateFails = m.lateFails := rfl
@[simp] theorem dropCopies_sigOld (m : Mach) (k : Nat) : (m.dropCopies k).sigOld = m.sigOld := rfl
@[simp] theorem dropCopies_fired (m : Mach) (k : Nat) : (m.dropCopies k).fired = m.fired := rfl
@[simp] theorem dropCopies_relAt (m : Mach) (k : Nat) : (m.dropCopies k).relAt = m.relAt := rfl
@[simp] theorem dropCopies_eccSingle (m : Mach) (k : Nat) : (m.dropCopies k).eccSingle = m.eccSingle := rfl
@[simp] theorem dropCopies_eccDouble (m : Mach) (k : Nat) : (m.dropCopies k).eccDouble = m.eccDouble := rfl
@[simp] theorem dropCopies_glades (m : Mach) (k : Nat) : (m.dropCopies k).glades = m.glades := rfl
@[simp] theorem dropCopies_calls (m : Mach) (k : Nat) : (m.dropCopies k).calls = m.calls := rfl
@[simp] theorem dropCopies_posts (m : Mach) (k : Nat) : (m.dropCopies k).posts = m.posts := rfl
@[simp] theorem dropCopies_filters (m : Mach) (k : Nat) : (m.dropCopies k).filters = m.filters := rfl
@[simp] theorem dropCopies_tlbs (m : Mach) (k : Nat) : (m.dropCopies k).tlbs = m.tlbs := rfl
@[simp] theorem dropCopies_ranges (m : Mach) (k : Nat) : (m.dropCopies k).ranges = m.ranges := rfl
@[simp] theorem dropCopies_pairs (m : Mach) (k : Nat) : (m.dropCopies k).pairs = m.pairs := rfl
@[simp] theorem dropCopies_cams (m : Mach) (k : Nat) : (m.dropCopies k).cams = m.cams := rfl
@[simp] theorem dropCopies_shares (m : Mach) (k : Nat) : (m.dropCopies k).shares = m.shares := rfl
@[simp] theorem dropCopies_sigs (m : Mach) (k : Nat) : (m.dropCopies k).sigs = m.sigs := rfl
@[simp] theorem dropCopies_mmajs (m : Mach) (k : Nat) : (m.dropCopies k).mmajs = m.mmajs := rfl
@[simp] theorem dropCopies_bars (m : Mach) (k : Nat) : (m.dropCopies k).bars = m.bars := rfl
@[simp] theorem dropCopies_barMsgs (m : Mach) (k : Nat) : (m.dropCopies k).barMsgs = m.barMsgs := rfl
@[simp] theorem dropCopies_bound (m : Mach) (k : Nat) : (m.dropCopies k).bound = m.bound := rfl
@[simp] theorem dropCopies_qpairs (m : Mach) (k : Nat) : (m.dropCopies k).qpairs = m.qpairs := rfl
@[simp] theorem dropCopies_colls (m : Mach) (k : Nat) : (m.dropCopies k).colls = m.colls := rfl
@[simp] theorem dropCopies_comms (m : Mach) (k : Nat) : (m.dropCopies k).comms = m.comms := rfl
@[simp] theorem dropCopies_out (m : Mach) (k : Nat) : (m.dropCopies k).out = m.out := rfl
@[simp] theorem dropCopies_preempts (m : Mach) (k : Nat) : (m.dropCopies k).preempts = m.preempts := rfl
@[simp] theorem dropCopies_lanes (m : Mach) (k : Nat) : (m.dropCopies k).lanes = m.lanes := rfl
@[simp] theorem dropCopies_lports (m : Mach) (k : Nat) : (m.dropCopies k).lports = m.lports := rfl
@[simp] theorem dropCopies_sysqs (m : Mach) (k : Nat) : (m.dropCopies k).sysqs = m.sysqs := rfl
@[simp] theorem dropCopies_sigpend (m : Mach) (k : Nat) : (m.dropCopies k).sigpend = m.sigpend := rfl
@[simp] theorem dropCopies_secnt (m : Mach) (k : Nat) : (m.dropCopies k).secnt = m.secnt := rfl
@[simp] theorem dropCopies_errLog (m : Mach) (k : Nat) : (m.dropCopies k).errLog = m.errLog := rfl
@[simp] theorem dropCopies_errOver (m : Mach) (k : Nat) : (m.dropCopies k).errOver = m.errOver := rfl
@[simp] theorem dropCopies_cxlErrs (m : Mach) (k : Nat) : (m.dropCopies k).cxlErrs = m.cxlErrs := rfl
@[simp] theorem dropCopies_sigWaits (m : Mach) (k : Nat) : (m.dropCopies k).sigWaits = m.sigWaits := rfl
@[simp] theorem dropCopies_dispatchAt (m : Mach) (k : Nat) : (m.dropCopies k).dispatchAt = m.dispatchAt := rfl
@[simp] theorem dropCopies_ierrs (m : Mach) (k : Nat) : (m.dropCopies k).ierrs = m.ierrs := rfl
@[simp] theorem dropCopies_farLines (m : Mach) (k : Nat) : (m.dropCopies k).farLines = m.farLines := rfl
@[simp] theorem dropCopies_rcOn (m : Mach) (k : Nat) : (m.dropCopies k).rcOn = m.rcOn := rfl
@[simp] theorem dropCopies_closed (m : Mach) (k : Nat) : (m.dropCopies k).closed = m.closed := rfl

/-! ### setEngine -/

@[simp] theorem setEngine_cycle (m : Mach) (e : EngOp) : (m.setEngine e).cycle = m.cycle := rfl
@[simp] theorem setEngine_next (m : Mach) (e : EngOp) : (m.setEngine e).next = m.next := rfl
@[simp] theorem setEngine_free (m : Mach) (e : EngOp) : (m.setEngine e).free = m.free := rfl
@[simp] theorem setEngine_cur (m : Mach) (e : EngOp) : (m.setEngine e).cur = m.cur := rfl
@[simp] theorem setEngine_latch (m : Mach) (e : EngOp) : (m.setEngine e).latch = m.latch := rfl
@[simp] theorem setEngine_mem (m : Mach) (e : EngOp) : (m.setEngine e).mem = m.mem := rfl
@[simp] theorem setEngine_stamps (m : Mach) (e : EngOp) : (m.setEngine e).stamps = m.stamps := rfl
@[simp] theorem setEngine_threads (m : Mach) (e : EngOp) : (m.setEngine e).threads = m.threads := rfl
@[simp] theorem setEngine_quarters (m : Mach) (e : EngOp) : (m.setEngine e).quarters = m.quarters := rfl
@[simp] theorem setEngine_waves (m : Mach) (e : EngOp) : (m.setEngine e).waves = m.waves := rfl
@[simp] theorem setEngine_launches (m : Mach) (e : EngOp) : (m.setEngine e).launches = m.launches := rfl
@[simp] theorem setEngine_flights (m : Mach) (e : EngOp) : (m.setEngine e).flights = m.flights := rfl
@[simp] theorem setEngine_cores (m : Mach) (e : EngOp) : (m.setEngine e).cores = m.cores := rfl
@[simp] theorem setEngine_copies (m : Mach) (e : EngOp) : (m.setEngine e).copies = m.copies := rfl
@[simp] theorem setEngine_ilines (m : Mach) (e : EngOp) : (m.setEngine e).ilines = m.ilines := rfl
@[simp] theorem setEngine_traps (m : Mach) (e : EngOp) : (m.setEngine e).traps = m.traps := rfl
@[simp] theorem setEngine_doms (m : Mach) (e : EngOp) : (m.setEngine e).doms = m.doms := rfl
@[simp] theorem setEngine_sump (m : Mach) (e : EngOp) : (m.setEngine e).sump = m.sump := rfl
@[simp] theorem setEngine_rings (m : Mach) (e : EngOp) : (m.setEngine e).rings = m.rings := rfl
@[simp] theorem setEngine_tiles (m : Mach) (e : EngOp) : (m.setEngine e).tiles = m.tiles := rfl
@[simp] theorem setEngine_ctrs (m : Mach) (e : EngOp) : (m.setEngine e).ctrs = m.ctrs := rfl
@[simp] theorem setEngine_decs (m : Mach) (e : EngOp) : (m.setEngine e).decs = m.decs := rfl
@[simp] theorem setEngine_cxlFail (m : Mach) (e : EngOp) : (m.setEngine e).cxlFail = m.cxlFail := rfl
@[simp] theorem setEngine_pe0ep (m : Mach) (e : EngOp) : (m.setEngine e).pe0ep = m.pe0ep := rfl
@[simp] theorem setEngine_hostwin (m : Mach) (e : EngOp) : (m.setEngine e).hostwin = m.hostwin := rfl
@[simp] theorem setEngine_order (m : Mach) (e : EngOp) : (m.setEngine e).order = m.order := rfl
@[simp] theorem setEngine_filing (m : Mach) (e : EngOp) : (m.setEngine e).filing = m.filing := rfl
@[simp] theorem setEngine_walks (m : Mach) (e : EngOp) : (m.setEngine e).walks = m.walks := rfl
@[simp] theorem setEngine_reqs (m : Mach) (e : EngOp) : (m.setEngine e).reqs = m.reqs := rfl
@[simp] theorem setEngine_far (m : Mach) (e : EngOp) : (m.setEngine e).far = m.far := rfl
@[simp] theorem setEngine_lateFails (m : Mach) (e : EngOp) : (m.setEngine e).lateFails = m.lateFails := rfl
@[simp] theorem setEngine_sigOld (m : Mach) (e : EngOp) : (m.setEngine e).sigOld = m.sigOld := rfl
@[simp] theorem setEngine_fired (m : Mach) (e : EngOp) : (m.setEngine e).fired = m.fired := rfl
@[simp] theorem setEngine_relAt (m : Mach) (e : EngOp) : (m.setEngine e).relAt = m.relAt := rfl
@[simp] theorem setEngine_eccSingle (m : Mach) (e : EngOp) : (m.setEngine e).eccSingle = m.eccSingle := rfl
@[simp] theorem setEngine_eccDouble (m : Mach) (e : EngOp) : (m.setEngine e).eccDouble = m.eccDouble := rfl
@[simp] theorem setEngine_glades (m : Mach) (e : EngOp) : (m.setEngine e).glades = m.glades := rfl
@[simp] theorem setEngine_calls (m : Mach) (e : EngOp) : (m.setEngine e).calls = m.calls := rfl
@[simp] theorem setEngine_posts (m : Mach) (e : EngOp) : (m.setEngine e).posts = m.posts := rfl
@[simp] theorem setEngine_filters (m : Mach) (e : EngOp) : (m.setEngine e).filters = m.filters := rfl
@[simp] theorem setEngine_tlbs (m : Mach) (e : EngOp) : (m.setEngine e).tlbs = m.tlbs := rfl
@[simp] theorem setEngine_ranges (m : Mach) (e : EngOp) : (m.setEngine e).ranges = m.ranges := rfl
@[simp] theorem setEngine_pairs (m : Mach) (e : EngOp) : (m.setEngine e).pairs = m.pairs := rfl
@[simp] theorem setEngine_cams (m : Mach) (e : EngOp) : (m.setEngine e).cams = m.cams := rfl
@[simp] theorem setEngine_shares (m : Mach) (e : EngOp) : (m.setEngine e).shares = m.shares := rfl
@[simp] theorem setEngine_sigs (m : Mach) (e : EngOp) : (m.setEngine e).sigs = m.sigs := rfl
@[simp] theorem setEngine_mmajs (m : Mach) (e : EngOp) : (m.setEngine e).mmajs = m.mmajs := rfl
@[simp] theorem setEngine_bars (m : Mach) (e : EngOp) : (m.setEngine e).bars = m.bars := rfl
@[simp] theorem setEngine_barMsgs (m : Mach) (e : EngOp) : (m.setEngine e).barMsgs = m.barMsgs := rfl
@[simp] theorem setEngine_bound (m : Mach) (e : EngOp) : (m.setEngine e).bound = m.bound := rfl
@[simp] theorem setEngine_qpairs (m : Mach) (e : EngOp) : (m.setEngine e).qpairs = m.qpairs := rfl
@[simp] theorem setEngine_colls (m : Mach) (e : EngOp) : (m.setEngine e).colls = m.colls := rfl
@[simp] theorem setEngine_comms (m : Mach) (e : EngOp) : (m.setEngine e).comms = m.comms := rfl
@[simp] theorem setEngine_out (m : Mach) (e : EngOp) : (m.setEngine e).out = m.out := rfl
@[simp] theorem setEngine_preempts (m : Mach) (e : EngOp) : (m.setEngine e).preempts = m.preempts := rfl
@[simp] theorem setEngine_lanes (m : Mach) (e : EngOp) : (m.setEngine e).lanes = m.lanes := rfl
@[simp] theorem setEngine_lports (m : Mach) (e : EngOp) : (m.setEngine e).lports = m.lports := rfl
@[simp] theorem setEngine_sysqs (m : Mach) (e : EngOp) : (m.setEngine e).sysqs = m.sysqs := rfl
@[simp] theorem setEngine_sigpend (m : Mach) (e : EngOp) : (m.setEngine e).sigpend = m.sigpend := rfl
@[simp] theorem setEngine_secnt (m : Mach) (e : EngOp) : (m.setEngine e).secnt = m.secnt := rfl
@[simp] theorem setEngine_errLog (m : Mach) (e : EngOp) : (m.setEngine e).errLog = m.errLog := rfl
@[simp] theorem setEngine_errOver (m : Mach) (e : EngOp) : (m.setEngine e).errOver = m.errOver := rfl
@[simp] theorem setEngine_cxlErrs (m : Mach) (e : EngOp) : (m.setEngine e).cxlErrs = m.cxlErrs := rfl
@[simp] theorem setEngine_sigWaits (m : Mach) (e : EngOp) : (m.setEngine e).sigWaits = m.sigWaits := rfl
@[simp] theorem setEngine_dispatchAt (m : Mach) (e : EngOp) : (m.setEngine e).dispatchAt = m.dispatchAt := rfl
@[simp] theorem setEngine_ierrs (m : Mach) (e : EngOp) : (m.setEngine e).ierrs = m.ierrs := rfl
@[simp] theorem setEngine_farLines (m : Mach) (e : EngOp) : (m.setEngine e).farLines = m.farLines := rfl
@[simp] theorem setEngine_rcOn (m : Mach) (e : EngOp) : (m.setEngine e).rcOn = m.rcOn := rfl
@[simp] theorem setEngine_closed (m : Mach) (e : EngOp) : (m.setEngine e).closed = m.closed := rfl

/-! ### setTrap -/

@[simp] theorem setTrap_cycle (m : Mach) (g : TrapGroup) : (m.setTrap g).cycle = m.cycle := rfl
@[simp] theorem setTrap_next (m : Mach) (g : TrapGroup) : (m.setTrap g).next = m.next := rfl
@[simp] theorem setTrap_free (m : Mach) (g : TrapGroup) : (m.setTrap g).free = m.free := rfl
@[simp] theorem setTrap_cur (m : Mach) (g : TrapGroup) : (m.setTrap g).cur = m.cur := rfl
@[simp] theorem setTrap_latch (m : Mach) (g : TrapGroup) : (m.setTrap g).latch = m.latch := rfl
@[simp] theorem setTrap_mem (m : Mach) (g : TrapGroup) : (m.setTrap g).mem = m.mem := rfl
@[simp] theorem setTrap_stamps (m : Mach) (g : TrapGroup) : (m.setTrap g).stamps = m.stamps := rfl
@[simp] theorem setTrap_threads (m : Mach) (g : TrapGroup) : (m.setTrap g).threads = m.threads := rfl
@[simp] theorem setTrap_quarters (m : Mach) (g : TrapGroup) : (m.setTrap g).quarters = m.quarters := rfl
@[simp] theorem setTrap_waves (m : Mach) (g : TrapGroup) : (m.setTrap g).waves = m.waves := rfl
@[simp] theorem setTrap_launches (m : Mach) (g : TrapGroup) : (m.setTrap g).launches = m.launches := rfl
@[simp] theorem setTrap_flights (m : Mach) (g : TrapGroup) : (m.setTrap g).flights = m.flights := rfl
@[simp] theorem setTrap_cores (m : Mach) (g : TrapGroup) : (m.setTrap g).cores = m.cores := rfl
@[simp] theorem setTrap_copies (m : Mach) (g : TrapGroup) : (m.setTrap g).copies = m.copies := rfl
@[simp] theorem setTrap_ilines (m : Mach) (g : TrapGroup) : (m.setTrap g).ilines = m.ilines := rfl
@[simp] theorem setTrap_engines (m : Mach) (g : TrapGroup) : (m.setTrap g).engines = m.engines := rfl
@[simp] theorem setTrap_doms (m : Mach) (g : TrapGroup) : (m.setTrap g).doms = m.doms := rfl
@[simp] theorem setTrap_sump (m : Mach) (g : TrapGroup) : (m.setTrap g).sump = m.sump := rfl
@[simp] theorem setTrap_rings (m : Mach) (g : TrapGroup) : (m.setTrap g).rings = m.rings := rfl
@[simp] theorem setTrap_tiles (m : Mach) (g : TrapGroup) : (m.setTrap g).tiles = m.tiles := rfl
@[simp] theorem setTrap_ctrs (m : Mach) (g : TrapGroup) : (m.setTrap g).ctrs = m.ctrs := rfl
@[simp] theorem setTrap_decs (m : Mach) (g : TrapGroup) : (m.setTrap g).decs = m.decs := rfl
@[simp] theorem setTrap_cxlFail (m : Mach) (g : TrapGroup) : (m.setTrap g).cxlFail = m.cxlFail := rfl
@[simp] theorem setTrap_pe0ep (m : Mach) (g : TrapGroup) : (m.setTrap g).pe0ep = m.pe0ep := rfl
@[simp] theorem setTrap_hostwin (m : Mach) (g : TrapGroup) : (m.setTrap g).hostwin = m.hostwin := rfl
@[simp] theorem setTrap_order (m : Mach) (g : TrapGroup) : (m.setTrap g).order = m.order := rfl
@[simp] theorem setTrap_filing (m : Mach) (g : TrapGroup) : (m.setTrap g).filing = m.filing := rfl
@[simp] theorem setTrap_walks (m : Mach) (g : TrapGroup) : (m.setTrap g).walks = m.walks := rfl
@[simp] theorem setTrap_reqs (m : Mach) (g : TrapGroup) : (m.setTrap g).reqs = m.reqs := rfl
@[simp] theorem setTrap_far (m : Mach) (g : TrapGroup) : (m.setTrap g).far = m.far := rfl
@[simp] theorem setTrap_lateFails (m : Mach) (g : TrapGroup) : (m.setTrap g).lateFails = m.lateFails := rfl
@[simp] theorem setTrap_sigOld (m : Mach) (g : TrapGroup) : (m.setTrap g).sigOld = m.sigOld := rfl
@[simp] theorem setTrap_fired (m : Mach) (g : TrapGroup) : (m.setTrap g).fired = m.fired := rfl
@[simp] theorem setTrap_relAt (m : Mach) (g : TrapGroup) : (m.setTrap g).relAt = m.relAt := rfl
@[simp] theorem setTrap_eccSingle (m : Mach) (g : TrapGroup) : (m.setTrap g).eccSingle = m.eccSingle := rfl
@[simp] theorem setTrap_eccDouble (m : Mach) (g : TrapGroup) : (m.setTrap g).eccDouble = m.eccDouble := rfl
@[simp] theorem setTrap_glades (m : Mach) (g : TrapGroup) : (m.setTrap g).glades = m.glades := rfl
@[simp] theorem setTrap_calls (m : Mach) (g : TrapGroup) : (m.setTrap g).calls = m.calls := rfl
@[simp] theorem setTrap_posts (m : Mach) (g : TrapGroup) : (m.setTrap g).posts = m.posts := rfl
@[simp] theorem setTrap_filters (m : Mach) (g : TrapGroup) : (m.setTrap g).filters = m.filters := rfl
@[simp] theorem setTrap_tlbs (m : Mach) (g : TrapGroup) : (m.setTrap g).tlbs = m.tlbs := rfl
@[simp] theorem setTrap_ranges (m : Mach) (g : TrapGroup) : (m.setTrap g).ranges = m.ranges := rfl
@[simp] theorem setTrap_pairs (m : Mach) (g : TrapGroup) : (m.setTrap g).pairs = m.pairs := rfl
@[simp] theorem setTrap_cams (m : Mach) (g : TrapGroup) : (m.setTrap g).cams = m.cams := rfl
@[simp] theorem setTrap_shares (m : Mach) (g : TrapGroup) : (m.setTrap g).shares = m.shares := rfl
@[simp] theorem setTrap_sigs (m : Mach) (g : TrapGroup) : (m.setTrap g).sigs = m.sigs := rfl
@[simp] theorem setTrap_mmajs (m : Mach) (g : TrapGroup) : (m.setTrap g).mmajs = m.mmajs := rfl
@[simp] theorem setTrap_bars (m : Mach) (g : TrapGroup) : (m.setTrap g).bars = m.bars := rfl
@[simp] theorem setTrap_barMsgs (m : Mach) (g : TrapGroup) : (m.setTrap g).barMsgs = m.barMsgs := rfl
@[simp] theorem setTrap_bound (m : Mach) (g : TrapGroup) : (m.setTrap g).bound = m.bound := rfl
@[simp] theorem setTrap_qpairs (m : Mach) (g : TrapGroup) : (m.setTrap g).qpairs = m.qpairs := rfl
@[simp] theorem setTrap_colls (m : Mach) (g : TrapGroup) : (m.setTrap g).colls = m.colls := rfl
@[simp] theorem setTrap_comms (m : Mach) (g : TrapGroup) : (m.setTrap g).comms = m.comms := rfl
@[simp] theorem setTrap_out (m : Mach) (g : TrapGroup) : (m.setTrap g).out = m.out := rfl
@[simp] theorem setTrap_preempts (m : Mach) (g : TrapGroup) : (m.setTrap g).preempts = m.preempts := rfl
@[simp] theorem setTrap_lanes (m : Mach) (g : TrapGroup) : (m.setTrap g).lanes = m.lanes := rfl
@[simp] theorem setTrap_lports (m : Mach) (g : TrapGroup) : (m.setTrap g).lports = m.lports := rfl
@[simp] theorem setTrap_sysqs (m : Mach) (g : TrapGroup) : (m.setTrap g).sysqs = m.sysqs := rfl
@[simp] theorem setTrap_sigpend (m : Mach) (g : TrapGroup) : (m.setTrap g).sigpend = m.sigpend := rfl
@[simp] theorem setTrap_secnt (m : Mach) (g : TrapGroup) : (m.setTrap g).secnt = m.secnt := rfl
@[simp] theorem setTrap_errLog (m : Mach) (g : TrapGroup) : (m.setTrap g).errLog = m.errLog := rfl
@[simp] theorem setTrap_errOver (m : Mach) (g : TrapGroup) : (m.setTrap g).errOver = m.errOver := rfl
@[simp] theorem setTrap_cxlErrs (m : Mach) (g : TrapGroup) : (m.setTrap g).cxlErrs = m.cxlErrs := rfl
@[simp] theorem setTrap_sigWaits (m : Mach) (g : TrapGroup) : (m.setTrap g).sigWaits = m.sigWaits := rfl
@[simp] theorem setTrap_dispatchAt (m : Mach) (g : TrapGroup) : (m.setTrap g).dispatchAt = m.dispatchAt := rfl
@[simp] theorem setTrap_ierrs (m : Mach) (g : TrapGroup) : (m.setTrap g).ierrs = m.ierrs := rfl
@[simp] theorem setTrap_farLines (m : Mach) (g : TrapGroup) : (m.setTrap g).farLines = m.farLines := rfl
@[simp] theorem setTrap_rcOn (m : Mach) (g : TrapGroup) : (m.setTrap g).rcOn = m.rcOn := rfl
@[simp] theorem setTrap_closed (m : Mach) (g : TrapGroup) : (m.setTrap g).closed = m.closed := rfl

/-! ### setStamp -/

@[simp] theorem setStamp_cycle (m : Mach) (a v : Nat) : (m.setStamp a v).cycle = m.cycle := rfl
@[simp] theorem setStamp_next (m : Mach) (a v : Nat) : (m.setStamp a v).next = m.next := rfl
@[simp] theorem setStamp_free (m : Mach) (a v : Nat) : (m.setStamp a v).free = m.free := rfl
@[simp] theorem setStamp_cur (m : Mach) (a v : Nat) : (m.setStamp a v).cur = m.cur := rfl
@[simp] theorem setStamp_latch (m : Mach) (a v : Nat) : (m.setStamp a v).latch = m.latch := rfl
@[simp] theorem setStamp_mem (m : Mach) (a v : Nat) : (m.setStamp a v).mem = m.mem := rfl
@[simp] theorem setStamp_threads (m : Mach) (a v : Nat) : (m.setStamp a v).threads = m.threads := rfl
@[simp] theorem setStamp_quarters (m : Mach) (a v : Nat) : (m.setStamp a v).quarters = m.quarters := rfl
@[simp] theorem setStamp_waves (m : Mach) (a v : Nat) : (m.setStamp a v).waves = m.waves := rfl
@[simp] theorem setStamp_launches (m : Mach) (a v : Nat) : (m.setStamp a v).launches = m.launches := rfl
@[simp] theorem setStamp_flights (m : Mach) (a v : Nat) : (m.setStamp a v).flights = m.flights := rfl
@[simp] theorem setStamp_cores (m : Mach) (a v : Nat) : (m.setStamp a v).cores = m.cores := rfl
@[simp] theorem setStamp_copies (m : Mach) (a v : Nat) : (m.setStamp a v).copies = m.copies := rfl
@[simp] theorem setStamp_ilines (m : Mach) (a v : Nat) : (m.setStamp a v).ilines = m.ilines := rfl
@[simp] theorem setStamp_engines (m : Mach) (a v : Nat) : (m.setStamp a v).engines = m.engines := rfl
@[simp] theorem setStamp_traps (m : Mach) (a v : Nat) : (m.setStamp a v).traps = m.traps := rfl
@[simp] theorem setStamp_doms (m : Mach) (a v : Nat) : (m.setStamp a v).doms = m.doms := rfl
@[simp] theorem setStamp_sump (m : Mach) (a v : Nat) : (m.setStamp a v).sump = m.sump := rfl
@[simp] theorem setStamp_rings (m : Mach) (a v : Nat) : (m.setStamp a v).rings = m.rings := rfl
@[simp] theorem setStamp_tiles (m : Mach) (a v : Nat) : (m.setStamp a v).tiles = m.tiles := rfl
@[simp] theorem setStamp_ctrs (m : Mach) (a v : Nat) : (m.setStamp a v).ctrs = m.ctrs := rfl
@[simp] theorem setStamp_decs (m : Mach) (a v : Nat) : (m.setStamp a v).decs = m.decs := rfl
@[simp] theorem setStamp_cxlFail (m : Mach) (a v : Nat) : (m.setStamp a v).cxlFail = m.cxlFail := rfl
@[simp] theorem setStamp_pe0ep (m : Mach) (a v : Nat) : (m.setStamp a v).pe0ep = m.pe0ep := rfl
@[simp] theorem setStamp_hostwin (m : Mach) (a v : Nat) : (m.setStamp a v).hostwin = m.hostwin := rfl
@[simp] theorem setStamp_order (m : Mach) (a v : Nat) : (m.setStamp a v).order = m.order := rfl
@[simp] theorem setStamp_filing (m : Mach) (a v : Nat) : (m.setStamp a v).filing = m.filing := rfl
@[simp] theorem setStamp_walks (m : Mach) (a v : Nat) : (m.setStamp a v).walks = m.walks := rfl
@[simp] theorem setStamp_reqs (m : Mach) (a v : Nat) : (m.setStamp a v).reqs = m.reqs := rfl
@[simp] theorem setStamp_far (m : Mach) (a v : Nat) : (m.setStamp a v).far = m.far := rfl
@[simp] theorem setStamp_lateFails (m : Mach) (a v : Nat) : (m.setStamp a v).lateFails = m.lateFails := rfl
@[simp] theorem setStamp_sigOld (m : Mach) (a v : Nat) : (m.setStamp a v).sigOld = m.sigOld := rfl
@[simp] theorem setStamp_fired (m : Mach) (a v : Nat) : (m.setStamp a v).fired = m.fired := rfl
@[simp] theorem setStamp_relAt (m : Mach) (a v : Nat) : (m.setStamp a v).relAt = m.relAt := rfl
@[simp] theorem setStamp_eccSingle (m : Mach) (a v : Nat) : (m.setStamp a v).eccSingle = m.eccSingle := rfl
@[simp] theorem setStamp_eccDouble (m : Mach) (a v : Nat) : (m.setStamp a v).eccDouble = m.eccDouble := rfl
@[simp] theorem setStamp_glades (m : Mach) (a v : Nat) : (m.setStamp a v).glades = m.glades := rfl
@[simp] theorem setStamp_calls (m : Mach) (a v : Nat) : (m.setStamp a v).calls = m.calls := rfl
@[simp] theorem setStamp_posts (m : Mach) (a v : Nat) : (m.setStamp a v).posts = m.posts := rfl
@[simp] theorem setStamp_filters (m : Mach) (a v : Nat) : (m.setStamp a v).filters = m.filters := rfl
@[simp] theorem setStamp_tlbs (m : Mach) (a v : Nat) : (m.setStamp a v).tlbs = m.tlbs := rfl
@[simp] theorem setStamp_ranges (m : Mach) (a v : Nat) : (m.setStamp a v).ranges = m.ranges := rfl
@[simp] theorem setStamp_pairs (m : Mach) (a v : Nat) : (m.setStamp a v).pairs = m.pairs := rfl
@[simp] theorem setStamp_cams (m : Mach) (a v : Nat) : (m.setStamp a v).cams = m.cams := rfl
@[simp] theorem setStamp_shares (m : Mach) (a v : Nat) : (m.setStamp a v).shares = m.shares := rfl
@[simp] theorem setStamp_sigs (m : Mach) (a v : Nat) : (m.setStamp a v).sigs = m.sigs := rfl
@[simp] theorem setStamp_mmajs (m : Mach) (a v : Nat) : (m.setStamp a v).mmajs = m.mmajs := rfl
@[simp] theorem setStamp_bars (m : Mach) (a v : Nat) : (m.setStamp a v).bars = m.bars := rfl
@[simp] theorem setStamp_barMsgs (m : Mach) (a v : Nat) : (m.setStamp a v).barMsgs = m.barMsgs := rfl
@[simp] theorem setStamp_bound (m : Mach) (a v : Nat) : (m.setStamp a v).bound = m.bound := rfl
@[simp] theorem setStamp_qpairs (m : Mach) (a v : Nat) : (m.setStamp a v).qpairs = m.qpairs := rfl
@[simp] theorem setStamp_colls (m : Mach) (a v : Nat) : (m.setStamp a v).colls = m.colls := rfl
@[simp] theorem setStamp_comms (m : Mach) (a v : Nat) : (m.setStamp a v).comms = m.comms := rfl
@[simp] theorem setStamp_out (m : Mach) (a v : Nat) : (m.setStamp a v).out = m.out := rfl
@[simp] theorem setStamp_preempts (m : Mach) (a v : Nat) : (m.setStamp a v).preempts = m.preempts := rfl
@[simp] theorem setStamp_lanes (m : Mach) (a v : Nat) : (m.setStamp a v).lanes = m.lanes := rfl
@[simp] theorem setStamp_lports (m : Mach) (a v : Nat) : (m.setStamp a v).lports = m.lports := rfl
@[simp] theorem setStamp_sysqs (m : Mach) (a v : Nat) : (m.setStamp a v).sysqs = m.sysqs := rfl
@[simp] theorem setStamp_sigpend (m : Mach) (a v : Nat) : (m.setStamp a v).sigpend = m.sigpend := rfl
@[simp] theorem setStamp_secnt (m : Mach) (a v : Nat) : (m.setStamp a v).secnt = m.secnt := rfl
@[simp] theorem setStamp_errLog (m : Mach) (a v : Nat) : (m.setStamp a v).errLog = m.errLog := rfl
@[simp] theorem setStamp_errOver (m : Mach) (a v : Nat) : (m.setStamp a v).errOver = m.errOver := rfl
@[simp] theorem setStamp_cxlErrs (m : Mach) (a v : Nat) : (m.setStamp a v).cxlErrs = m.cxlErrs := rfl
@[simp] theorem setStamp_sigWaits (m : Mach) (a v : Nat) : (m.setStamp a v).sigWaits = m.sigWaits := rfl
@[simp] theorem setStamp_dispatchAt (m : Mach) (a v : Nat) : (m.setStamp a v).dispatchAt = m.dispatchAt := rfl
@[simp] theorem setStamp_ierrs (m : Mach) (a v : Nat) : (m.setStamp a v).ierrs = m.ierrs := rfl
@[simp] theorem setStamp_farLines (m : Mach) (a v : Nat) : (m.setStamp a v).farLines = m.farLines := rfl
@[simp] theorem setStamp_rcOn (m : Mach) (a v : Nat) : (m.setStamp a v).rcOn = m.rcOn := rfl
@[simp] theorem setStamp_closed (m : Mach) (a v : Nat) : (m.setStamp a v).closed = m.closed := rfl

@[simp] theorem take_next (m : Mach) (n : Nat) : (m.take n).next = m.next + n := rfl
@[simp] theorem used_free (m : Mach) : m.used.free = m.free + 256 := rfl

end Sys2Proof.Machine
end

