-- ==== Sys2Proof/Laws/Results.lean ====
section
/-! SUPPORT. An instruction on registers alone completes at issue: the shape `regOp` gives the effect and the frame that the
claims speak of. -/

namespace Sys2Proof.Machine

theorem uncarry_frame (t : Thread) (pc : Pc) (f : Nat) :
    t.uncarry pc f = { t with flags := (t.uncarry pc f).flags, carry := (t.uncarry pc f).carry } ∧
    (t.uncarry pc f).flags = (if t.carries pc then t.flagDown f else t).flags := by
  unfold Thread.uncarry Thread.flagDown
  constructor
  · split
    · split <;> rfl
    · rfl
  · by_cases e : f = 0 <;> by_cases c : t.carries pc <;> simp [e, c]

/-- What writing consecutive registers leaves. -/
theorem wrFrom_frame (s : Spec) (ws : List Word) : ∀ (t : Thread) (j : Nat),
    t.wrFrom s j ws = { t with regs := (t.wrFrom s j ws).regs, c := (t.wrFrom s j ws).c } ∧
    (t.wrFrom s j ws).regs.length = t.regs.length ∧ (t.wrFrom s j ws).c.length = t.c.length := by
  induction ws with
  | nil => intros; exact ⟨rfl, rfl, rfl⟩
  | cons w r ih =>
    intro t j
    obtain ⟨h1, h2, h3⟩ := ih (t.wrAt s j w) (j + 1)
    refine ⟨?_, ?_, ?_⟩
    · simp only [Thread.wrFrom]
      rw [h1]
      cases s <;> rfl
    · simp only [Thread.wrFrom]; rw [h2]; cases s <;> simp [Thread.wrAt]
    · simp only [Thread.wrFrom]; rw [h3]; cases s <;> simp [Thread.wrAt]

theorem wrFrom_v (b : BitVec 8) (ws : List Word) : ∀ (t : Thread) (j k : Nat), b.toNat + j + ws.length ≤ t.regs.length →
    (t.wrFrom (.v b) j ws).regs.getD k 0 =
      (if b.toNat + j ≤ k ∧ k < b.toNat + j + ws.length then ws.getD (k - (b.toNat + j)) 0 else t.regs.getD k 0) ∧
    (t.wrFrom (.v b) j ws).c = t.c := by
  induction ws with
  | nil =>
    intro t j k _
    refine ⟨?_, rfl⟩
    rw [if_neg (by simp)]; rfl
  | cons w r ih =>
    intro t j k h
    simp only [List.length_cons] at h
    have hl : (t.wrAt (.v b) j w).regs.length = t.regs.length := by simp [Thread.wrAt]
    obtain ⟨h1, h2⟩ := ih (t.wrAt (.v b) j w) (j + 1) k (by rw [hl]; omega)
    simp only [Thread.wrFrom]
    refine ⟨?_, h2.trans rfl⟩
    rw [h1]
    simp only [List.length_cons, Thread.wrAt]
    by_cases e : k = b.toNat + j
    · subst e
      rw [if_neg (by omega), if_pos (by omega), List.getD_eq_getElem?_getD, List.getElem?_set_self (by omega)]
      simp
    · rw [List.getD_eq_getElem?_getD (l := t.regs.set _ _), List.getElem?_set_ne (fun c => e c.symm)]
      by_cases c : b.toNat + (j + 1) ≤ k ∧ k < b.toNat + (j + 1) + r.length
      · rw [if_pos c, if_pos (by omega)]
        obtain ⟨x, hx⟩ : ∃ x, k - (b.toNat + j) = x + 1 := ⟨k - (b.toNat + j) - 1, by omega⟩
        rw [hx]
        have : k - (b.toNat + (j + 1)) = x := by omega
        rw [this]; rfl
      · rw [if_neg c, if_neg (by omega)]; rfl

theorem wrFrom_c (b : BitVec 3) (ws : List Word) : ∀ (t : Thread) (j k : Nat), b.toNat + j + ws.length ≤ t.c.length →
    (t.wrFrom (.c b) j ws).c.getD k .undef =
      (if b.toNat + j ≤ k ∧ k < b.toNat + j + ws.length then .val (ws.getD (k - (b.toNat + j)) 0)
       else t.c.getD k .undef) ∧
    (t.wrFrom (.c b) j ws).regs = t.regs := by
  induction ws with
  | nil =>
    intro t j k _
    refine ⟨?_, rfl⟩
    rw [if_neg (by simp)]; rfl
  | cons w r ih =>
    intro t j k h
    simp only [List.length_cons] at h
    have hl : (t.wrAt (.c b) j w).c.length = t.c.length := by simp [Thread.wrAt]
    obtain ⟨h1, h2⟩ := ih (t.wrAt (.c b) j w) (j + 1) k (by rw [hl]; omega)
    simp only [Thread.wrFrom]
    refine ⟨?_, h2.trans rfl⟩
    rw [h1]
    simp only [List.length_cons, Thread.wrAt]
    by_cases e : k = b.toNat + j
    · subst e
      rw [if_neg (by omega), if_pos (by omega), List.getD_eq_getElem?_getD, List.getElem?_set_self (by omega)]
      simp
    · rw [List.getD_eq_getElem?_getD (l := t.c.set _ _), List.getElem?_set_ne (fun c => e c.symm)]
      by_cases c : b.toNat + (j + 1) ≤ k ∧ k < b.toNat + (j + 1) + r.length
      · rw [if_pos c, if_pos (by omega)]
        obtain ⟨x, hx⟩ : ∃ x, k - (b.toNat + j) = x + 1 := ⟨k - (b.toNat + j) - 1, by omega⟩
        rw [hx]
        have : k - (b.toNat + (j + 1)) = x := by omega
        rw [this]; rfl
      · rw [if_neg c, if_neg (by omega)]; rfl

theorem wr_zero (ws : List Word) : ∀ (t : Thread) (j : Nat), t.wrFrom .zero j ws = t := by
  induction ws with
  | nil => intros; rfl
  | cons w r ih => intro t j; simp only [Thread.wrFrom, Thread.wrAt]; exact ih t (j + 1)

/-- The destination and nothing else of `v` and `c`. -/
theorem wr_after (t : Thread) (d : Spec) (ws : List Word) (hd : DestFits t d ws.length) (k : Nat) :
    (t.wr d ws).regs.getD k 0 = vAfter d ws t k ∧ (t.wr d ws).c.getD k .undef = cAfter d ws t k := by
  unfold Thread.wr
  cases d with
  | v b =>
    obtain ⟨h1, h2⟩ := wrFrom_v b ws t 0 k (by simpa [DestFits] using hd)
    exact ⟨by simpa [vAfter] using h1, by rw [h2]; rfl⟩
  | c b =>
    obtain ⟨h1, h2⟩ := wrFrom_c b ws t 0 k (by simp only [DestFits] at hd; omega)
    exact ⟨by rw [h2]; rfl, by simpa [cAfter] using h1⟩
  | zero => rw [wr_zero]; exact ⟨rfl, rfl⟩
  | x0 => exact hd.elim
  | x1 => exact hd.elim

theorem boundary_c (t : Thread) (k : Nat) : t.boundary.c.getD k .undef = .undef := by
  show (List.replicate 8 XPos.undef).getD k .undef = .undef
  rw [List.getD_eq_getElem?_getD, List.getElem?_replicate]
  split <;> rfl

/-- A result put at issue, and the advance after it, are the effect of the claims. -/
theorem put_effect (q : Quarter) (h : Hdr) (d : Spec) (ws : List Word) (T : Thread) (hd : DestFits T d ws.length) :
    RegEffect q h d ws T (((T.uncarry q.pc h.flag.toNat).put h d ws).moved q.isLast) := by
  obtain ⟨u1, u2⟩ := uncarry_frame T q.pc h.flag.toNat
  have hd' : DestFits (T.uncarry q.pc h.flag.toNat) d ws.length := by rw [u1]; exact hd
  generalize hU : T.uncarry q.pc h.flag.toNat = U at u1 u2 hd'
  generalize hfl : (if T.carries q.pc then T.flagDown h.flag.toNat else T).flags = fl at u2
  obtain ⟨w1, w2, w3⟩ := wrFrom_frame d ws U 0
  have hr : ∀ k, (U.wr d ws).regs.getD k 0 = vAfter d ws T k := by
    intro k; rw [(wr_after U d ws hd' k).1, u1]; unfold vAfter; cases d <;> rfl
  have hc : ∀ k, (U.wr d ws).c.getD k .undef = cAfter d ws T k := by
    intro k; rw [(wr_after U d ws hd' k).2, u1]; unfold cAfter; cases d <;> rfl
  have hlen : (U.wr d ws).regs.length = T.regs.length := by
    show (U.wrFrom d 0 ws).regs.length = _; rw [w2, u1]
  have hx0 : (U.wr d ws).x0 = T.x0 := by show (U.wrFrom d 0 ws).x0 = _; rw [w1, u1]
  have hx1 : (U.wr d ws).x1 = T.x1 := by show (U.wrFrom d 0 ws).x1 = _; rw [w1, u1]
  have hf : (U.wr d ws).flags = U.flags := by show (U.wrFrom d 0 ws).flags = _; rw [w1]
  have hW : U.wr d ws = { T with regs := (U.wr d ws).regs, c := (U.wr d ws).c, flags := U.flags, carry := U.carry } := by
    exact w1.trans (congrArg (fun u : Thread =>
      ({ u with regs := (U.wrFrom d 0 ws).regs, c := (U.wrFrom d 0 ws).c } : Thread)) u1)
  unfold RegEffect Thread.put Thread.moved
  rw [hfl]
  dsimp only
  by_cases hl : q.isLast
  · by_cases hz : h.flag = 0
    · simp only [hz, if_true, hl]
      exact ⟨hr, hlen, fun k _ => boundary_c _ k, rfl, rfl, hf.trans u2, by rw [hW]; rfl⟩
    · simp only [hz, if_false, if_true, hl]
      exact ⟨hr, hlen, fun k _ => boundary_c _ k, rfl, rfl, hf.trans u2, by rw [hW]; rfl⟩
  · by_cases hz : h.flag = 0
    · simp only [hz, if_true, if_neg hl]
      exact ⟨hr, hlen, fun k _ => hc k, rfl, hx0, hf.trans u2, by rw [hW]; rfl⟩
    · simp only [hz, if_false, if_neg hl]
      exact ⟨hr, hlen, fun k _ => hc k, hx0, hx1, hf.trans u2, by rw [hW]; rfl⟩

/-- The frame of `onEach`, at the end of the step. -/
theorem onEach_only (s : State) (q : Quarter) (h : Hdr) (f : Nat → Nat → Thread → Thread) (hr : Running s q)
    (hid : ∀ a b t, (f a b t).id = t.id) :
    OnlyQuarter s ({ s with mach := s.mach.onEach q h f } : State).settle q := by
  obtain ⟨hq, hn, hp, he⟩ := hr
  obtain ⟨-, h2, h3⟩ := onEach_spec s.mach q h f hid hn hp he
  have hqid := quarter?_id hq
  have hqs : (s.mach.onEach q h f).quarters =
      s.mach.quarters.map fun u => if u.id == (q.moved s.mach.cycle s.mach.next).id then q.moved s.mach.cycle s.mach.next
        else u := by rw [h3]; simp
  have hfind : ∀ k, (s.mach.onEach q h f).quarter? k =
      if q.id = k then (s.mach.quarter? k).map (fun _ => q.moved s.mach.cycle s.mach.next) else s.mach.quarter? k := by
    intro k
    show (s.mach.onEach q h f).quarters.find? _ = _
    rw [hqs, find?_replace Quarter.id]
    simp only [Quarter.moved_id]
    rfl
  refine ⟨fun a => by show (s.mach.onEach q h f).mem.read a = _; rw [h3], h2, ?_, ?_, rfl, ?_, settle_sys_eq _⟩
  · intro k hk
    show (s.mach.onEach q h f).quarter? k = _
    rw [hfind, if_neg (fun e => hk e.symm)]
  · refine ⟨q.moved s.mach.cycle s.mach.next, ?_, ?_⟩
    · show (s.mach.onEach q h f).quarter? q.id = _
      rw [hfind, if_pos rfl, hqid, hq]; rfl
    · unfold Quarter.moved Quarter.issued
      by_cases hl : q.isLast <;> simp [hl]
  · rw [settle_mach]
    simp only
    rw [h3]

/-- AN INSTRUCTION OF THE SHAPE `onEach` COMPLETES with the words that its function gives. -/
theorem onEach_completes (i : Instr) (h : Hdr) (d : Spec) (n : Nat) (f : Mach → Quarter → Nat → Nat → Thread → List Word)
    (value : State → Quarter → Nat → Nat → Thread → List Word → Prop)
    (he : ∀ s, exec i s = .next (State.settle
      { s with mach := (s.mach.withQ fun q => s.mach.onEach q h fun sl fr t => t.put h d (f s.mach q sl fr t)) }))
    (hf : ∀ m q sl fr t pc k, f m q sl fr (t.uncarry pc k) = f m q sl fr t)
    (hn : ∀ m q sl fr t, (f m q sl fr t).length = n)
    (hv : ∀ s q sl fr t, value s q sl fr t (f s.mach q sl fr t)) : Completes i h d n value := by
  intro s q hr hd
  have hr' := hr
  obtain ⟨hq, hnd, hp, hend⟩ := hr
  have e : (s.mach.withQ fun q => s.mach.onEach q h fun sl fr t => t.put h d (f s.mach q sl fr t)) =
      s.mach.onEach q h fun sl fr t => t.put h d (f s.mach q sl fr t) := by
    simp only [Mach.withQ, hq]
  refine ⟨_, he s, ?_, ?_⟩
  · rw [e]; exact onEach_only s q h _ hr' (by intros; simp)
  · intro p hp'
    obtain ⟨h1, -, -⟩ := onEach_spec s.mach q h (fun sl fr t => t.put h d (f s.mach q sl fr t)) (by intros; simp) hnd hp hend
    refine ⟨f s.mach q p.1 (s.mach.fr p.1) (s.mach.thr p.2), hn _ _ _ _ _, hv _ _ _ _ _, ?_⟩
    have ht : (s.mach.withQ fun q => s.mach.onEach q h fun sl fr t => t.put h d (f s.mach q sl fr t)).thr p.2 =
        (((s.mach.thr p.2).uncarry q.pc h.flag.toNat).put h d (f s.mach q p.1 (s.mach.fr p.1) (s.mach.thr p.2))).moved
          q.isLast := by
      rw [e, thr_of (h1 p hp'), hf]
    have := put_effect q h d (f s.mach q p.1 (s.mach.fr p.1) (s.mach.thr p.2)) (s.mach.thr p.2)
      (by rw [hn]; exact hd _ (mem_tids hp'))
    rw [← ht] at this
    exact this

/-- AN INSTRUCTION OF THE SHAPE `regOp` COMPLETES. -/
theorem regOp_completes (i : Instr) (h : Hdr) (d : Spec) (n : Nat) (f : Nat → Nat → Thread → List Word)
    (value : State → Quarter → Nat → Nat → Thread → List Word → Prop)
    (he : ∀ s, exec i s = .next ({ s with mach := s.mach.regOp h d f } : State).settle)
    (hf : ∀ sl fr t pc k, f sl fr (t.uncarry pc k) = f sl fr t)
    (hn : ∀ sl fr t, (f sl fr t).length = n)
    (hv : ∀ s q sl fr t, value s q sl fr t (f sl fr t)) : Completes i h d n value :=
  onEach_completes i h d n (fun _ _ => f) value he (fun _ _ => hf) (fun _ _ => hn) fun s q => hv s q

/-- Reading operands does not see a carried count. -/
@[simp] theorem uncarry_rdAt (t : Thread) (pc : Pc) (k fr : Nat) (s : Spec) (j : Nat) :
    (t.uncarry pc k).rdAt fr s j = t.rdAt fr s j := by
  rw [(uncarry_frame t pc k).1]; cases s <;> rfl
@[simp] theorem uncarry_rd (t : Thread) (pc : Pc) (k fr : Nat) (s : Spec) : (t.uncarry pc k).rd fr s = t.rd fr s := by
  simp [Thread.rd]
@[simp] theorem uncarry_rdPair (t : Thread) (pc : Pc) (k fr : Nat) (s : Spec) : (t.uncarry pc k).rdPair fr s = t.rdPair fr s := by
  simp [Thread.rdPair]
@[simp] theorem uncarry_rdN (t : Thread) (pc : Pc) (k fr : Nat) (s : Spec) (n : Nat) :
    (t.uncarry pc k).rdN fr s n = t.rdN fr s n := by
  simp [Thread.rdN]
@[simp] theorem uncarry_fmode (t : Thread) (pc : Pc) (k : Nat) : (t.uncarry pc k).fmode = t.fmode := by
  rw [(uncarry_frame t pc k).1]

end Sys2Proof.Machine
end

