-- ==== Sys2Proof/Laws/Flights.lean ====
section
/-! SUPPORT. What issuing a long-latency instruction can do: one flight for each active thread, and the advance after them. -/

namespace Sys2Proof.Machine

/-- A thread after a flight with key `uid` has entered for it. -/
def Thread.flown (t : Thread) (pc : Pc) (flag : Nat) (shift : Bool) (uid cycle : Nat) (ops : List PendOp) : Thread :=
  let t : Thread := { (t.carryFlag pc flag) with carry := none }
  let t := if shift && flag == 0 then t.shift (.pend uid) else t
  { t with pend := t.pend ++ numberOps uid (uid + 1) cycle ops }

/-- The flight that enters. -/
def flightOf (m : Mach) (q : Quarter) (h : Hdr) (i : Instr) (iss owner : Nat) (tids : List Nat) (ops : List PendOp)
    (wait : Bool) : Flight :=
  { uid := m.next, iss := iss, owner := owner, tids := tids, qid := q.id, core := q.core, launch := q.launch, instr := i,
    pc := q.pc, hdr := q.hdr, clauses := tids.map fun t => (t, (m.thr t).clause), flag := h.flag.toNat,
    done := ops == [] && !wait }

@[simp] theorem carryFlag_id (t : Thread) (pc : Pc) (f : Nat) : (t.carryFlag pc f).id = t.id := by
  unfold Thread.carryFlag Thread.flagUp; split
  · rfl
  · split <;> rfl

theorem addFlight_eq (m : Mach) (q : Quarter) (h : Hdr) (i : Instr) (iss owner : Nat) (tids : List Nat) (ops : List PendOp)
    (shift wait : Bool) (g : Flight → Flight) :
    m.addFlight q h i iss owner tids ops shift wait g =
      { m with threads := (m.addFlight q h i iss owner tids ops shift wait g).threads
               flights := m.flights ++ [g (flightOf m q h i iss owner tids ops wait)]
               next := m.next + 1 + ops.length } := rfl

/-- A flight of one thread. -/
theorem addFlight_thr (m : Mach) (q : Quarter) (h : Hdr) (i : Instr) (iss tid : Nat) (ops : List PendOp)
    (shift wait : Bool) (g : Flight → Flight) (ht : (m.thr? tid).isSome) (k : Nat) :
    (m.addFlight q h i iss tid [tid] ops shift wait g).thr? k =
      if k = tid then (m.thr? k).map fun t => t.flown q.pc h.flag.toNat shift m.next m.cycle ops else m.thr? k := by
  have e : (m.addFlight q h i iss tid [tid] ops shift wait g).thr? k =
      ((m.modAll [tid] fun t =>
        let t := { (t.carryFlag q.pc h.flag.toNat) with carry := none }
        if shift && h.flag.toNat == 0 then t.shift (.pend m.next) else t).modThr tid fun t =>
          { t with pend := t.pend ++ numberOps m.next (m.next + 1) m.cycle ops }).thr? k := rfl
  have hid : ∀ t : Thread, (let t : Thread := { (t.carryFlag q.pc h.flag.toNat) with carry := none }
      if shift && h.flag.toNat == 0 then t.shift (.pend m.next) else t).id = t.id := by
    intro t; dsimp only; split
    · exact carryFlag_id t _ _
    · exact carryFlag_id t _ _
  rw [e, thr?_modThr _ _ _ (by intro _; rfl) (by rw [thr?_modAll _ _ _ hid]; simpa using ht), thr?_modAll _ _ _ hid]
  by_cases c : k = tid
  · subst c; cases hk : m.thr? k <;> simp [Thread.flown]
  · cases hk : m.thr? k <;> simp [c]

/-- What an issue of flights changes: the threads, the flights, the next key, and what a walk leaves: translations, pointers and the
correction of single-bit errors (spec/06 R187, R198). -/
def Flown (m m' : Mach) : Prop :=
  m' = { m with threads := m'.threads, flights := m'.flights, next := m'.next, tlbs := m'.tlbs, walks := m'.walks,
                eccSingle := m'.eccSingle, secnt := m'.secnt } ∧
  (m.eccSingle = [] → m'.eccSingle = [] ∧ m'.secnt = m.secnt)

theorem Flown.trans {a b c : Mach} (h : Flown a b) (k : Flown b c) : Flown a c := by
  refine ⟨?_, fun e => ?_⟩
  · rw [k.1, h.1]
  · obtain ⟨h1, h2⟩ := h.2 e
    obtain ⟨k1, k2⟩ := k.2 h1
    exact ⟨k1, k2.trans h2⟩

theorem Flown.refl (a : Mach) : Flown a a := ⟨rfl, fun e => ⟨e, rfl⟩⟩

theorem addFlight_flown (m : Mach) (q : Quarter) (h : Hdr) (i : Instr) (iss owner : Nat) (tids : List Nat) (ops : List PendOp)
    (shift wait : Bool) (g : Flight → Flight) : Flown m (m.addFlight q h i iss owner tids ops shift wait g) :=
  ⟨rfl, fun e => ⟨e, rfl⟩⟩

/-- ONE FLIGHT FOR EACH LISTED THREAD: `step` adds one and otherwise touches what a walk touches. -/
theorem foldl_flights {β : Type} (key : β → Nat) (step : Mach → β → Mach) (G : β → Nat → Thread → Thread) (P : β → Mach → Flight → Prop)
    (m0 : Mach) : ∀ (l : List β)
    (_ : ∀ m p, p ∈ l → m.cycle = m0.cycle → (m.thr? (key p)) = m0.thr? (key p) → (m.thr? (key p)).isSome →
      ∃ f, P p m0 f ∧ (step m p).flights = m.flights ++ [f] ∧
      (∀ k, (step m p).thr? k = if k = key p then (m.thr? k).map (G p f.uid) else m.thr? k) ∧
      Flown m (step m p)) (m : Mach),
      m.cycle = m0.cycle → (l.map key).Nodup → (∀ p ∈ l, m.thr? (key p) = m0.thr? (key p)) →
      (∀ p ∈ l, (m0.thr? (key p)).isSome) →
      let m' := l.foldl step m
      (∀ p ∈ l, ∃ f ∈ m'.flights, P p m0 f ∧ m'.thr? (key p) = (m0.thr? (key p)).map (G p f.uid)) ∧
      (∀ k, k ∉ l.map key → m'.thr? k = m.thr? k) ∧ (∀ f, f ∈ m.flights → f ∈ m'.flights) ∧
      Flown m m' := by
  intro l
  induction l with
  | nil => intro _ m _ _ _ _; exact ⟨by simp, by simp, by simp, Flown.refl m⟩
  | cons a r ih =>
    intro hs m hc hn heq hp
    simp only [List.map_cons, List.nodup_cons] at hn
    obtain ⟨f, hP, hf, ht, hm⟩ := hs m a (by simp) hc (heq a (by simp)) (by rw [heq a (by simp)]; exact hp a (by simp))
    obtain ⟨h1, h2, h3, h4⟩ := ih (fun m p hp' => hs m p (by simp [hp'])) (step m a) (by rw [hm.1]; exact hc) hn.2
      (by
        intro p hp'
        rw [ht, if_neg, heq p (by simp [hp'])]
        intro e; exact hn.1 (e ▸ List.mem_map_of_mem hp'))
      (fun p hp' => hp p (by simp [hp']))
    simp only [List.foldl_cons]
    refine ⟨?_, ?_, ?_, ?_⟩
    · intro p hp'
      rcases List.mem_cons.mp hp' with rfl | hp'
      · refine ⟨f, h3 f (by rw [hf]; simp), hP, ?_⟩
        rw [h2 _ hn.1, ht, if_pos rfl, heq p (by simp)]
      · exact h1 p hp'
    · intro k hk
      simp only [List.map_cons, List.mem_cons, not_or] at hk
      rw [h2 k hk.2, ht, if_neg hk.1]
    · intro g hg; exact h3 g (by rw [hf]; simp [hg])
    · exact hm.trans h4

/-- The advance of a quarter past a long-latency instruction. -/
theorem advanceLook_spec (m : Mach) (q : Quarter) (iss look : Nat) (hq : m.quarter? q.id = some q)
    (he : (m.launch q.launch).ending = none) :
    (∀ k, (m.advanceLook q iss look).thr? k = (m.thr? k).map fun t => if q.tids.contains k then t.moved q.isLast else t) ∧
    (∀ k, k ≠ q.id → (m.advanceLook q iss look).quarter? k = m.quarter? k) ∧
    (∃ q', (m.advanceLook q iss look).quarter? q.id = some q' ∧ q'.pc = q.pc + 8 ∧ q'.slots = q.slots ∧ q'.slice = q.slice ∧
      q'.hdr = (if q.isLast then none else q.hdr)) ∧
    m.advanceLook q iss look = { m with
      threads := (m.advanceLook q iss look).threads, quarters := (m.advanceLook q iss look).quarters
      free := m.free + 256, next := m.next + 1 } := by
  have ea : m.used.advance q = _ := advance_eq m.used q he
  have hfind : ∀ k, (m.used.advance q).quarter? k =
      if q.id = k then (m.quarter? k).map (fun _ => q.moved m.cycle m.next) else m.quarter? k := by
    intro k; rw [ea, quarter?_setQ]; simp only [Quarter.moved_id]; rfl
  have hthr : ∀ k, (m.used.advance q).thr? k = (m.thr? k).map fun t => if q.tids.contains k then t.moved q.isLast else t := by
    intro k
    rw [ea]
    show (Mach.modAll _ _ _).thr? k = _
    rw [thr?_modAll _ _ _ (fun t => t.moved_id _)]
    rfl
  have hself : (m.used.advance q).quarter? q.id = some (q.moved m.cycle m.next) := by rw [hfind, if_pos rfl, hq]; rfl
  have hm : m.used.advance q = { m with threads := (m.used.advance q).threads, quarters := (m.used.advance q).quarters,
                                        free := m.free + 256, next := m.next + 1 } := by rw [ea]; rfl
  have hmoved : (q.moved m.cycle m.next).pc = q.pc + 8 ∧ (q.moved m.cycle m.next).slots = q.slots ∧
      (q.moved m.cycle m.next).slice = q.slice ∧ (q.moved m.cycle m.next).hdr = (if q.isLast then none else q.hdr) := by
    unfold Quarter.moved Quarter.issued
    by_cases hl : q.isLast <;> simp [hl]
  unfold Mach.advanceLook
  dsimp only
  split
  · exact ⟨hthr, fun k hk => by rw [hfind, if_neg (fun e => hk e.symm)], ⟨_, hself, hmoved⟩, hm⟩
  · rw [hself]
    dsimp only
    refine ⟨hthr, ?_, ?_, ?_⟩
    · intro k hk
      rw [quarter?_setQ]
      simp only [Quarter.moved_id]
      rw [if_neg (fun e => hk e.symm), hfind, if_neg (fun e => hk e.symm)]
    · refine ⟨{ (q.moved m.cycle m.next) with looks := (q.moved m.cycle m.next).looks ++ [{ iss := iss, left := look }] },
        ?_, hmoved⟩
      rw [quarter?_setQ, if_pos (by simp), hself]
      rfl
    · conv_lhs => rw [hm]
      rfl

end Sys2Proof.Machine
end

