-- ==== Sys2Proof/Laws/Issues.lean ====
section
/-! SUPPORT. The shapes `portOp` and `memIssue` give the issue and the frame that the claims speak of. -/

namespace Sys2Proof.Machine

theorem carryFlag_frame (t : Thread) (pc : Pc) (f : Nat) :
    t.carryFlag pc f = { t with flags := (t.carryFlag pc f).flags, carry := (t.carryFlag pc f).carry } ∧
    (t.carryFlag pc f).flags = (if t.carries pc then t else t.flagUp f).flags := by
  unfold Thread.carryFlag Thread.flagUp
  constructor
  · split
    · rfl
    · split <;> rfl
  · by_cases e : f = 0 <;> by_cases c : t.carries pc <;> simp [e, c]

/-- A thread after its flight entered and its quarter advanced. -/
theorem flown_issued (q : Quarter) (h : Hdr) (shift : Bool) (uid cycle : Nat) (ops : List PendOp) (T : Thread) :
    Issued q h shift uid cycle ops T ((T.flown q.pc h.flag.toNat shift uid cycle ops).moved q.isLast) := by
  obtain ⟨fl, ca, c1, c2⟩ : ∃ fl ca, T.carryFlag q.pc h.flag.toNat = { T with flags := fl, carry := ca } ∧
      fl = (if T.carries q.pc then T else T.flagUp h.flag.toNat).flags :=
    ⟨_, _, (carryFlag_frame T q.pc h.flag.toNat).1, (carryFlag_frame T q.pc h.flag.toNat).2⟩
  unfold Issued Thread.flown Thread.moved
  dsimp only
  have hz : (h.flag.toNat == 0) = decide (h.flag = 0) := by
    by_cases e : h.flag = 0
    · simp [e]
    · have : h.flag.toNat ≠ 0 := fun c => e (BitVec.eq_of_toNat_eq (by simpa using c))
      rw [decide_eq_false e]; exact beq_eq_false_iff_ne.mpr this
  rw [hz, c1]
  generalize (if T.carries q.pc then T else T.flagUp h.flag.toNat).flags = up at c2
  by_cases hl : q.isLast
  · simp only [hl, if_true]
    by_cases hs : shift = true ∧ h.flag = 0
    · simp only [hs.1, hs.2, decide_true, Bool.and_self, if_true]
      refine ⟨rfl, rfl, rfl, rfl, fun k _ => boundary_c _ k, c2, rfl⟩
    · have : ¬ (shift && decide (h.flag = 0)) = true := by simpa using hs
      simp only [this]
      exact ⟨rfl, rfl, rfl, rfl, fun k _ => boundary_c _ k, c2, rfl⟩
  · simp only [if_neg hl]
    by_cases hs : shift = true ∧ h.flag = 0
    · simp only [hs.1, hs.2, decide_true, Bool.and_self, if_true]
      refine ⟨rfl, rfl, rfl, rfl, fun k _ => rfl, c2, rfl⟩
    · have hb : ¬ (shift && decide (h.flag = 0)) = true := by simpa using hs
      simp only [hb, if_neg hs]
      exact ⟨rfl, rfl, rfl, rfl, fun k _ => rfl, c2, rfl⟩

/-- Flights for every active thread and the advance: the frame and each thread. -/
theorem issue_only (s : State) (q : Quarter) (m' : Mach) (iss look : Nat) (hr : Running s q)
    (h2 : ∀ k, k ∉ q.active.map (fun p => p.2) → m'.thr? k = s.mach.thr? k)
    (h3 : ∀ f, f ∈ s.mach.flights → f ∈ m'.flights)
    (hf : Flown s.mach m') :
    OnlyIssue s ({ s with mach := m'.advanceLook q iss look } : State).settle q := by
  obtain ⟨hq, hn, hp, he⟩ := hr
  obtain ⟨h4, h5⟩ := hf
  have hqid := quarter?_id hq
  have hq' : m'.quarter? q.id = some q := by rw [h4]; show s.mach.quarter? q.id = _; rw [hqid, hq]
  obtain ⟨a1, a2, a3, a4⟩ := advanceLook_spec m' q iss look hq' (by rw [h4]; exact he)
  refine ⟨fun a => ?_, ?_, ?_, a3, ?_, rfl, ?_, fun e => ?_, settle_sys_eq _⟩
  · show (m'.advanceLook q iss look).mem.read a = _
    rw [a4, h4]
  · intro k hk
    show (m'.advanceLook q iss look).thr? k = _
    rw [a1, h2 k hk]
    cases s.mach.thr? k <;> simp [hk]
  · intro k hk
    show (m'.advanceLook q iss look).quarter? k = _
    rw [a2 k hk, h4]; rfl
  · intro f hf
    show f ∈ (m'.advanceLook q iss look).flights
    rw [a4]; exact h3 f hf
  · rw [settle_mach]
    simp only
    rw [a4, h4]
  · show (m'.advanceLook q iss look).eccSingle = [] ∧ (m'.advanceLook q iss look).secnt = _
    rw [a4]; exact h5 e

/-- The thread of an active slot after flight and advance. -/
theorem issue_thread (s : State) (q : Quarter) (m' : Mach) (iss look : Nat) (hr : Running s q) (hc : m'.quarter? q.id = some q)
    (hl : (m'.launch q.launch).ending = none) (p : Nat × Nat) (hp : p ∈ q.active) (G : Thread → Thread)
    (ht : m'.thr? p.2 = (s.mach.thr? p.2).map G) :
    (m'.advanceLook q iss look).thr p.2 = (G (s.mach.thr p.2)).moved q.isLast := by
  obtain ⟨t, e⟩ := Option.isSome_iff_exists.mp (hr.2.2.1 _ (mem_tids hp))
  apply thr_of
  rw [(advanceLook_spec m' q iss look hc hl).1, ht, e, thr_of e]
  simp [mem_tids hp]

theorem active_nodup {q : Quarter} (h : q.tids.Nodup) : (q.active.map fun p => p.2).Nodup := h

/-- A PORT INSTRUCTION FLIES with the words that its function gives. -/
theorem portOp_flies (i : Instr) (h : Hdr) (d : Spec) (f : State → Nat → Nat → Thread → List Word) (ok : State → Quarter → Prop)
    (value : State → Quarter → Nat → Nat → Thread → List Word → Prop)
    (he : ∀ s q, s.mach.quarter? s.mach.cur = some q → ok s q →
      exec i s = .next (State.settle { s with mach := s.mach.portOp h i d (f s) }))
    (hv : ∀ s q sl fr t, ok s q → value s q sl fr t (f s sl fr t)) : FliesWith i h d ok value := by
  intro s q hr hk0
  have hr' := hr
  obtain ⟨hq, hn, hp, hend⟩ := hr
  have hqid := quarter?_id hq
  let step : Mach → Nat × Nat → Mach := fun m' p =>
    m'.addFlight q h i s.mach.next p.2 [p.2] [] true false fun g =>
      g.answer p.2 d (f s p.1 (s.mach.fr p.1) (s.mach.thr p.2)) []
  let m0 := s.mach.take 1
  obtain ⟨h1, h2, h3, h4⟩ := foldl_flights (fun p : Nat × Nat => p.2) step
    (fun p uid t => t.flown q.pc h.flag.toNat true uid s.mach.cycle [])
    (fun p m f' => FlightOf s h i p.2 [] f' ∧
      f'.writes = [(p.2, spWords d (f s p.1 (s.mach.fr p.1) (s.mach.thr p.2)))] ∧
      f'.xres = [(p.2, (f s p.1 (s.mach.fr p.1) (s.mach.thr p.2)).headD 0)]) m0 q.active
    (by
      intro m p _ hc ht hs
      refine ⟨_, ⟨⟨rfl, rfl, rfl, rfl, ?_, rfl⟩, ?_, rfl⟩, rfl, ?_, addFlight_flown _ _ _ _ _ _ _ _ _ _ _⟩
      · obtain ⟨t, e⟩ := Option.isSome_iff_exists.mp hs
        show [(p.2, (m.thr p.2).clause)] = _
        have e' : s.mach.thr? p.2 = some t := ht.symm.trans e
        rw [thr_of e, thr_of e']
      · show [] ++ [(p.2, spWords d _ ++ [])] = _
        simp
      · intro k
        rw [show s.mach.cycle = m.cycle from hc.symm]
        exact addFlight_thr m q h i s.mach.next p.2 [] true false (fun g =>
          g.answer p.2 d (f s p.1 (s.mach.fr p.1) (s.mach.thr p.2)) []) hs k)
    m0 rfl (active_nodup hn) (fun _ _ => rfl) (fun p hp' => hp _ (mem_tids hp'))
  have e : s.mach.portOp h i d (f s) = (q.active.foldl step m0).advanceLook q s.mach.next h.look.toNat := by
    simp only [Mach.portOp, Mach.withQ, hq]; rfl
  have hm : Flown s.mach (q.active.foldl step m0) := Flown.trans (b := m0) ⟨rfl, fun e => ⟨e, rfl⟩⟩ h4
  refine ⟨_, he s q hq hk0, ?_, ?_⟩
  · rw [e]; exact issue_only s q _ _ _ hr' h2 h3 hm
  · intro p hp'
    obtain ⟨f', hf', ⟨hF, hw, hx⟩, ht⟩ := h1 p hp'
    have hq' : (q.active.foldl step m0).quarter? q.id = some q := by
      rw [hm.1]; show s.mach.quarter? q.id = _; rw [hqid, hq]
    have hl' : ((q.active.foldl step m0).launch q.launch).ending = none := by rw [hm.1]; exact hend
    refine ⟨f', ?_, _, hF, hv s q p.1 _ _ hk0, hw, hx, ?_⟩
    · show f' ∈ (s.mach.portOp h i d (f s)).flights
      rw [e, (advanceLook_spec _ q _ _ hq' hl').2.2.2]; exact hf'
    · have := issue_thread s q _ s.mach.next h.look.toNat hr' hq' hl' p hp' _ ht
      show Issued q h true f'.uid s.mach.cycle [] _ ((s.mach.portOp h i d (f s)).thr p.2)
      rw [e, this]
      exact flown_issued q h true f'.uid s.mach.cycle [] _

theorem fillOne_tlbs (m : Mach) (k cap : Nat) (t : TlbEnt) : ∃ x, m.fillOne k cap t = { m with tlbs := x } := by
  unfold Mach.fillOne; dsimp only; split
  · exact ⟨_, rfl⟩
  · exact ⟨_, rfl⟩

theorem fillWalks_walks (k : Nat) (t : TlbEnt) (m : Mach) : ∃ x, m.fillWalks k t = { m with walks := x } := by
  unfold Mach.fillWalks
  induction t.ptrs generalizing m with
  | nil => exact ⟨_, rfl⟩
  | cons p r ih =>
    simp only [List.foldl_cons]
    split
    · exact ih m
    · exact ih _

/-- Reads correct single-bit errors and count them; without any they change nothing. -/
theorem eccFixes_flown (k : Nat) (l : List Nat) (m : Mach) : ∃ x y, l.foldl (fun m a => m.eccFix k a 8) m =
    { m with eccSingle := x, secnt := y } ∧ (m.eccSingle = [] → x = [] ∧ y = m.secnt) := by
  induction l generalizing m with
  | nil => exact ⟨_, _, rfl, fun e => ⟨e, rfl⟩⟩
  | cons a r ih =>
    obtain ⟨x, y, h, g⟩ : ∃ x y, m.eccFix k a 8 = { m with eccSingle := x, secnt := y } ∧ (m.eccSingle = [] → x = [] ∧ y = m.secnt) := by
      unfold Mach.eccFix
      dsimp only
      split
      · exact ⟨_, _, rfl, fun e => ⟨e, rfl⟩⟩
      · rename_i c
        exact ⟨_, _, rfl, fun e => absurd (by rw [e]; simp) c⟩
    obtain ⟨x', y', h', g'⟩ := ih (m.eccFix k a 8)
    refine ⟨x', y', ?_, fun e => ?_⟩
    · rw [List.foldl_cons, h', h]
    · obtain ⟨rfl, rfl⟩ := g e
      exact g' (by rw [h])|>.imp id fun z => z.trans (by rw [h])

/-- A walk corrects the single-bit errors of what it reads. -/
theorem walkFix_flown (m : Mach) (k : Nat) (e : Eff) (va : Nat) : ∃ x y, m.walkFix k e va =
    { m with eccSingle := x, secnt := y } ∧ (m.eccSingle = [] → x = [] ∧ y = m.secnt) := by
  unfold Mach.walkFix
  split
  · exact ⟨_, _, rfl, fun e => ⟨e, rfl⟩⟩
  · exact eccFixes_flown k _ m

/-- So do the walks of all the pages of an access. -/
theorem walkFixes_flown (k : Nat) (e : Mach → Eff) (l : List Nat) (m : Mach) : ∃ x y,
    l.foldl (fun m va => m.walkFix k (e m) va) m = { m with eccSingle := x, secnt := y } ∧
    (m.eccSingle = [] → x = [] ∧ y = m.secnt) := by
  induction l generalizing m with
  | nil => exact ⟨_, _, rfl, fun e => ⟨e, rfl⟩⟩
  | cons a r ih =>
    obtain ⟨x, y, h, g⟩ := walkFix_flown m k (e m) a
    obtain ⟨x', y', h', g'⟩ := ih (m.walkFix k (e m) a)
    refine ⟨x', y', ?_, fun e => ?_⟩
    · rw [List.foldl_cons, h', h]
    · obtain ⟨rfl, rfl⟩ := g e
      exact g' (by rw [h])|>.imp id fun z => z.trans (by rw [h])

/-- A translation that enters the TLBs changes them and the table pointers alone. -/
theorem fill_flown (m : Mach) (k : Nat) (t : TlbEnt) : ∃ x w, m.fill k t = { m with tlbs := x, walks := w } := by
  unfold Mach.fill
  obtain ⟨x, hx⟩ := fillOne_tlbs m k Config.coreTlb t
  rw [hx]
  obtain ⟨x', hx'⟩ := fillOne_tlbs { m with tlbs := x } (Config.cores + coreGrove k) Config.groveTlb t
  obtain ⟨w, hw⟩ := fillWalks_walks k t { m with tlbs := x' }
  exact ⟨x', w, by rw [hx', hw]⟩

/-- All that the walks of an access leave. -/
theorem planWalks_flown (m : Mach) (q : Quarter) (p : TPlan) (t : Option TlbEnt) : ∃ x w e y,
    m.planWalks q p t = { m with tlbs := x, walks := w, eccSingle := e, secnt := y } ∧
    (m.eccSingle = [] → e = [] ∧ y = m.secnt) := by
  cases t with
  | none => exact ⟨_, _, _, _, rfl, fun e => ⟨e, rfl⟩⟩
  | some t =>
    unfold Mach.planWalks
    obtain ⟨e, y, h, g⟩ := walkFixes_flown q.core (fun m => m.eff q.launch) ((p.walks.map page4).eraseDups) m
    dsimp only
    rw [h]
    obtain ⟨x, w, hx⟩ := fill_flown { m with eccSingle := e, secnt := y } q.core t
    exact ⟨x, w, e, y, hx, g⟩

/-- AN ACCESS INSTRUCTION ISSUES the operations of its plan. -/
theorem memIssue_issues (i : Instr) (h : Hdr) (shift : Bool) (plan : State → Nat → Thread → TPlan) (stat : Option Spec)
    (wide : State → Mach → Thread → Flight → PendOp → Mach) (fin : Mach → Flight → Mach) (g : State → Nat → Flight → Flight)
    (ok : State → Quarter → Prop) (ops : State → Nat → Thread → List PendOp → Prop)
    (he : ∀ s q, s.mach.quarter? s.mach.cur = some q → ok s q → exec i s = .next (State.settle { s with mach :=
      (s.mach.memIssue s.sys h i shift stat (plan s) (wide s) fin (g s)) }))
    (hg : ∀ s k f, (g s k f).uid = f.uid ∧ (g s k f).instr = f.instr ∧ (g s k f).owner = f.owner ∧ (g s k f).tids = f.tids ∧
      (g s k f).flag = f.flag ∧ (g s k f).clauses = f.clauses ∧ (g s k f).done = f.done ∧ (g s k f).writes = f.writes ∧
      (g s k f).got = f.got)
    (ho : ∀ s fr t, (plan s fr t).acc.isOk = true → ops s fr t (plan s fr t).ops) :
    IssuesAccesses i h shift ok plan ops := by
  intro s q hr hk0 hok
  have hr' := hr
  obtain ⟨hq, hn, hp, hend⟩ := hr
  have hqid := quarter?_id hq
  let ps := q.active.map fun p => (p.2, plan s (s.mach.fr p.1) (s.mach.thr p.2))
  have hps : ∀ p ∈ ps, ∃ a ∈ q.active, p = (a.2, plan s (s.mach.fr a.1) (s.mach.thr a.2)) := by
    intro p hp'; obtain ⟨a, ha, rfl⟩ := List.mem_map.mp hp'; exact ⟨a, ha, rfl⟩
  have hpok : ∀ p ∈ ps, ∃ l at_ e, p.2.acc = .ok l at_ e ∧ p.2.judge = [] := by
    intro p hp'
    obtain ⟨a, ha, rfl⟩ := hps p hp'
    obtain ⟨h1, h2⟩ := hok a ha
    dsimp only
    cases hacc : (plan s (s.mach.fr a.1) (s.mach.thr a.2)).acc with
    | ok l at_ e => exact ⟨l, at_, e, rfl, h2⟩
    | _ => rw [hacc] at h1; simp [Acc.isOk] at h1
  let step : Mach → Nat × TPlan → Mach := fun m p =>
    m.planIssue q h i s.mach.next shift stat (g s) p.1 p.2
  let m0 := s.mach.take 1
  have hkeys : ps.map (fun p : Nat × TPlan => p.1) = q.active.map fun p => p.2 := by
    simp [ps, List.map_map, Function.comp_def]
  have hfm := foldl_flights (fun p : Nat × TPlan => p.1) step
    (fun p uid t => t.flown q.pc h.flag.toNat shift uid s.mach.cycle p.2.ops)
    (fun p _ f => FlightOf s h i p.1 p.2.ops f ∧ f.writes = [] ∧ f.got = []) m0 ps
    (by
      intro m p hpm hc ht hs
      obtain ⟨l, at_, e, h1, h2⟩ := hpok p hpm
      obtain ⟨x, w, b, y, hstep, hb⟩ : ∃ x w b y, step m p = ({ m with tlbs := x, walks := w, eccSingle := b, secnt := y } : Mach).addFlight q h i
          s.mach.next p.1 [p.1] p.2.ops shift false (g s p.1) ∧ (m.eccSingle = [] → b = [] ∧ y = m.secnt) := by
        show ∃ x w b y, m.planIssue q h i s.mach.next shift stat (g s) p.1 p.2 = _ ∧ _
        unfold Mach.planIssue
        simp only [h1]
        obtain ⟨x, w, b, y, hx, hb⟩ := planWalks_flown m q p.2 e
        exact ⟨x, w, b, y, by simp only [hx], hb⟩
      let mf : Mach := { m with tlbs := x, walks := w, eccSingle := b, secnt := y }
      obtain ⟨g1, g2, g3, g4, g5, g6, g7, g8, g9⟩ := hg s p.1
        (flightOf mf q h i s.mach.next p.1 [p.1] p.2.ops false)
      refine ⟨g s p.1 (flightOf mf q h i s.mach.next p.1 [p.1] p.2.ops false), ⟨⟨g2, g3, g4, g5, ?_, ?_⟩, g8, g9⟩, ?_, ?_, ?_⟩
      · rw [g6]
        obtain ⟨t, e'⟩ := Option.isSome_iff_exists.mp hs
        have e'' : s.mach.thr? p.1 = some t := ht.symm.trans e'
        show [(p.1, (m.thr p.1).clause)] = _
        rw [thr_of e', thr_of e'']
      · rw [g7]; simp [flightOf]
      · rw [hstep]; rfl
      · intro k
        rw [hstep, g1]
        rw [show s.mach.cycle = m.cycle from hc.symm]
        exact addFlight_thr mf q h i s.mach.next p.1 p.2.ops shift false (g s p.1) hs k
      · rw [hstep]; exact Flown.trans (b := mf) ⟨rfl, hb⟩ (addFlight_flown _ _ _ _ _ _ _ _ _ _ _))
    m0 rfl (by rw [hkeys]; exact active_nodup hn) (fun _ _ => rfl)
    (fun p hp' => by obtain ⟨a, ha, rfl⟩ := hps p hp'; exact hp _ (mem_tids ha))
  -- the whole issue is the fold of the flights and the advance
  have e : s.mach.memIssue s.sys h i shift stat (plan s) (wide s) fin (g s) =
      (ps.foldl step m0).advanceLook q s.mach.next h.look.toNat := by
    have hheld : (ps.any fun p => s.mach.planHeld p.1 p.2) = false := by
      rw [List.any_eq_false]; intro p hp'
      obtain ⟨l, at_, e, _, h2⟩ := hpok p hp'
      simp [Mach.planHeld, h2]
    have hbad : (ps.filterMap fun p => (s.mach.planTrap p.1 p.2).map fun c => (p.1, c)) = [] := by
      rw [List.filterMap_eq_nil_iff]; intro p hp'
      obtain ⟨l, at_, e, h1, h2⟩ := hpok p hp'
      simp [Mach.planTrap, h1, h2]
    have hpark : (ps.filterMap fun p => p.2.park p.1) = [] := by
      rw [List.filterMap_eq_nil_iff]; intro p hp'
      obtain ⟨l, at_, e, h1, h2⟩ := hpok p hp'
      simp [TPlan.park, h1]
    have hecc : ∀ m : Mach, ps.foldl (fun m p => m.planEcc q h i s.mach.next p.1 p.2) m = m := by
      intro m
      have : ∀ l : List (Nat × TPlan), (∀ p ∈ l, ∃ a b c, p.2.acc = .ok a b c) →
          ∀ m : Mach, l.foldl (fun m p => m.planEcc q h i s.mach.next p.1 p.2) m = m := by
        intro l
        induction l with
        | nil => intros; rfl
        | cons p r ih =>
          intro hl m
          obtain ⟨a, b, c, hacc⟩ := hl p (by simp)
          simp only [List.foldl_cons]
          rw [show m.planEcc q h i s.mach.next p.1 p.2 = m from by simp [Mach.planEcc, hacc]]
          exact ih (fun p hp => hl p (by simp [hp])) m
      exact this ps (fun p hp' => by obtain ⟨a, b, c, h1, _⟩ := hpok p hp'; exact ⟨a, b, c, h1⟩) m
    have hjudge : ∀ m : Mach, m.planPerform s.sys s.mach.next ((ps.filter fun p => p.2.judge != []).map fun p => p.1) (wide s) fin = m := by
      intro m
      have : ps.filter (fun p => p.2.judge != []) = [] := by
        rw [List.filter_eq_nil_iff]; intro p hp'
        obtain ⟨_, _, _, _, h2⟩ := hpok p hp'
        simp [h2]
      rw [this]; simp [Mach.planPerform]
    have hall : (ps.all fun p => p.2.acc.isOk && p.2.judge == []) = true := by
      rw [List.all_eq_true]; intro p hp'
      obtain ⟨_, _, _, h1, h2⟩ := hpok p hp'
      simp [h1, h2, Acc.isOk]
    have hgo : ∀ m : Mach, m.quarter? q.id = some q → m.goOn q.id s.mach.next h.look.toNat =
        m.advanceLook q s.mach.next h.look.toNat := by
      intro m hm; simp [Mach.goOn, hm]
    unfold Mach.memIssue Mach.withQ
    simp only [hq]
    rw [if_neg (by rw [hheld]; simp)]
    rw [hbad]
    simp only [List.map_nil, Mach.inOrder, sortBy]
    rw [hpark]
    simp only [ne_eq, not_true_eq_false, false_and, if_false, List.any_nil, Bool.false_eq_true]
    have hpar : ∀ m : Mach, m.parkAll q.core (s.mach.eff q.launch).fdom q.pc q.hdr h.flag.toNat [] = m := fun _ => rfl
    rw [hpar, hecc, hjudge, if_pos hall]
    apply hgo
    have hk : (ps.foldl step m0).quarter? q.id = some q := by
      rw [hfm.2.2.2.1]
      show s.mach.quarter? q.id = _
      rw [hqid, hq]
    exact hk
  have hm : Flown s.mach (ps.foldl step m0) := Flown.trans (b := m0) ⟨rfl, fun e => ⟨e, rfl⟩⟩ hfm.2.2.2
  have hq' : (ps.foldl step m0).quarter? q.id = some q := by
    rw [hm.1]; show s.mach.quarter? q.id = _; rw [hqid, hq]
  have hl' : ((ps.foldl step m0).launch q.launch).ending = none := by rw [hm.1]; exact hend
  refine ⟨_, he s q hq hk0, ?_, ?_⟩
  · rw [e]; exact issue_only s q _ _ _ hr' (fun k hk => hfm.2.1 k (by rw [hkeys]; exact hk)) hfm.2.2.1 hm
  · intro p hp'
    obtain ⟨f, hf, ⟨hF, hw, hgot⟩, ht⟩ := hfm.1 (p.2, plan s (s.mach.fr p.1) (s.mach.thr p.2)) (List.mem_map.mpr ⟨p, hp', rfl⟩)
    refine ⟨f, ?_, _, hF, hw, hgot, ho s _ _ (hok p hp').1, ?_⟩
    · show f ∈ (s.mach.memIssue s.sys h i shift stat (plan s) (wide s) fin (g s)).flights
      rw [e, (advanceLook_spec _ q _ _ hq' hl').2.2.2]; exact hf
    · have := issue_thread s q _ s.mach.next h.look.toNat hr' hq' hl' p hp' _ ht
      show Issued q h shift f.uid s.mach.cycle _ _ ((s.mach.memIssue s.sys h i shift stat (plan s) (wide s) fin (g s)).thr p.2)
      rw [e, this]
      exact flown_issued q h shift f.uid s.mach.cycle _ _

end Sys2Proof.Machine
end

