-- ==== Sys2Proof/Laws/Groups.lean ====
section
/-! SUPPORT. One flight for a whole quarter: tiles and posts. -/

namespace Sys2Proof.Machine

theorem mem_insertBy {α : Type} (le : α → α → Bool) (a x : α) (l : List α) : x ∈ insertBy le a l ↔ x = a ∨ x ∈ l := by
  induction l with
  | nil => simp [insertBy]
  | cons b r ih =>
    simp only [insertBy]
    split
    · simp
    · simp only [List.mem_cons, ih]
      constructor
      · rintro (h | h | h) <;> simp [h]
      · rintro (h | h | h) <;> simp [h]

theorem mem_sortBy {α : Type} (le : α → α → Bool) (x : α) (l : List α) : x ∈ sortBy le l ↔ x ∈ l := by
  induction l with
  | nil => simp [sortBy]
  | cons a r ih => simp [sortBy, mem_insertBy, ih]

@[simp] theorem mem_inOrder (m : Mach) (ids : List Nat) (k : Nat) : k ∈ m.inOrder ids ↔ k ∈ ids := mem_sortBy _ k ids

/-- The lowest active thread is one of the active threads. -/
theorem lowestOf_mem (m : Mach) (q : Quarter) (h : q.tids ≠ []) : m.lowestOf q ∈ q.tids := by
  unfold Mach.lowestOf
  cases e : m.inOrder q.tids with
  | nil =>
    exfalso
    obtain ⟨a, r, hr⟩ := List.exists_cons_of_ne_nil h
    have : a ∈ m.inOrder q.tids := by simp [hr]
    rw [e] at this; simp at this
  | cons a r =>
    have : a ∈ m.inOrder q.tids := by rw [e]; simp
    simpa using this

/-- A flight of a whole quarter, its operations in one of the threads. -/
theorem addFlight_group (m : Mach) (q : Quarter) (h : Hdr) (i : Instr) (iss own : Nat) (ops : List PendOp)
    (shift wait : Bool) (g : Flight → Flight) (ho : own ∈ q.tids) (hp : (m.thr? own).isSome) (k : Nat) :
    (m.addFlight q h i iss own q.tids ops shift wait g).thr? k =
      if k ∈ q.tids then (m.thr? k).map fun t => t.flown q.pc h.flag.toNat shift m.next m.cycle (if k = own then ops else [])
      else m.thr? k := by
  have e : (m.addFlight q h i iss own q.tids ops shift wait g).thr? k =
      ((m.modAll q.tids fun t =>
        let t := { (t.carryFlag q.pc h.flag.toNat) with carry := none }
        if shift && h.flag.toNat == 0 then t.shift (.pend m.next) else t).modThr own fun t =>
          { t with pend := t.pend ++ numberOps m.next (m.next + 1) m.cycle ops }).thr? k := rfl
  have hid : ∀ t : Thread, (let t : Thread := { (t.carryFlag q.pc h.flag.toNat) with carry := none }
      if shift && h.flag.toNat == 0 then t.shift (.pend m.next) else t).id = t.id := by
    intro t; dsimp only; split
    · exact carryFlag_id t _ _
    · exact carryFlag_id t _ _
  rw [e, thr?_modThr _ _ _ (by intro _; rfl) (by rw [thr?_modAll _ _ _ hid]; simpa using hp), thr?_modAll _ _ _ hid]
  by_cases c : k ∈ q.tids
  · by_cases c2 : k = own
    · cases hk : m.thr? k <;> simp [Thread.flown, c2, ho]
    · cases hk : m.thr? k with
      | none => simp [c]
      | some t => simp [Thread.flown, c, c2, numberOps, enum]
  · have c2 : k ≠ own := fun e => c (e ▸ ho)
    cases hk : m.thr? k <;> simp [c, c2]

/-- A FLIGHT OF THE QUARTER AND ITS ADVANCE, from a machine `m` with the same threads, quarters and launches as the state's. -/
theorem group_spec (s : State) (q : Quarter) (m : Mach) (h : Hdr) (i : Instr) (iss look : Nat) (ops : List PendOp)
    (shift wait : Bool) (g : Flight → Flight) (hr : Running s q) (hne : q.tids ≠ [])
    (ht : ∀ k, m.thr? k = s.mach.thr? k) (hqs : m.quarters = s.mach.quarters) (hls : m.launches = s.mach.launches)
    (hc : m.cycle = s.mach.cycle) (_hg : ∀ f, (g f).uid = f.uid) :
    let m1 := m.addFlight q h i iss (s.mach.lowestOf q) q.tids ops shift wait g
    let m2 := m1.goOn q.id iss look
    (∀ k ∈ q.tids, Issued q h shift m.next s.mach.cycle (if k = s.mach.lowestOf q then ops else []) (s.mach.thr k) (m2.thr k)) ∧
    (∀ k, k ∉ q.tids → m2.thr? k = s.mach.thr? k) ∧
    (∀ k, k ≠ q.id → m2.quarter? k = s.mach.quarter? k) ∧
    (∃ q', m2.quarter? q.id = some q' ∧ q'.pc = q.pc + 8 ∧ q'.slots = q.slots ∧ q'.slice = q.slice ∧
      q'.hdr = (if q.isLast then none else q.hdr)) ∧
    m2 = { m with threads := m2.threads, quarters := m2.quarters, free := m.free + 256, next := m2.next
                  flights := m.flights ++ [g (flightOf m q h i iss (s.mach.lowestOf q) q.tids ops wait)] } := by
  obtain ⟨hq, hn, hp, he⟩ := hr
  have hqid := quarter?_id hq
  have hlow := lowestOf_mem s.mach q hne
  intro m1 m2
  have hm1 : m1 = { m with threads := m1.threads, next := m1.next
                           flights := m.flights ++ [g (flightOf m q h i iss (s.mach.lowestOf q) q.tids ops wait)] } := rfl
  have hq1 : m1.quarter? q.id = some q := by
    show m1.quarters.find? _ = _
    rw [hm1]
    show m.quarters.find? _ = _
    rw [hqs, hqid]; exact hq
  have hl1 : (m1.launch q.launch).ending = none := by
    have : m1.launch q.launch = s.mach.launch q.launch := by
      unfold Mach.launch Mach.launch?
      rw [hm1]
      show (List.find? _ m.launches).getD {} = _
      rw [hls]
    rw [this]; exact he
  have e2 : m2 = m1.advanceLook q iss look := by
    show m1.goOn q.id iss look = _
    simp [Mach.goOn, hq1]
  obtain ⟨a1, a2, a3, a4⟩ := advanceLook_spec m1 q iss look hq1 hl1
  have hthr := addFlight_group m q h i iss (s.mach.lowestOf q) ops shift wait g hlow
    (by rw [ht]; exact hp _ hlow)
  refine ⟨?_, ?_, ?_, ?_, ?_⟩
  · intro k hk
    obtain ⟨t, e⟩ := Option.isSome_iff_exists.mp (hp k hk)
    have : m2.thr? k = some ((t.flown q.pc h.flag.toNat shift m.next m.cycle
        (if k = s.mach.lowestOf q then ops else [])).moved q.isLast) := by
      rw [e2, a1, hthr, if_pos hk, ht, e]
      simp [hk]
    rw [thr_of this, thr_of e, hc]
    exact flown_issued q h shift m.next s.mach.cycle _ t
  · intro k hk
    rw [e2, a1, hthr, if_neg hk, ht]
    cases s.mach.thr? k <;> simp [hk]
  · intro k hk
    rw [e2, a2 k hk]
    show m1.quarters.find? _ = _
    rw [hm1]
    show m.quarters.find? _ = _
    rw [hqs]; rfl
  · rw [e2]; exact a3
  · rw [e2, a4, hm1]

/-- A TILE INSTRUCTION ISSUES the operations of its plan. -/
theorem tileIssue_issues (i : Instr) (h : Hdr) (shift : Bool) (plan : State → Nat → Thread → TPlan)
    (wide : State → Mach → Thread → Flight → PendOp → Mach) (fin : State → Mach → Flight → Mach) (g : State → Quarter → Flight → Flight)
    (ops : State → Nat → Thread → List PendOp → Prop)
    (he : ∀ s, exec i s = .next (State.settle { s with mach := (s.mach.withQ fun q =>
      s.mach.tileIssue s.sys q h i shift (plan s s.mach.free (s.mach.thr (s.mach.lowestOf q))) (wide s) (fin s) (g s q)) }))
    (hg : ∀ s q f, (g s q f).uid = f.uid ∧ (g s q f).instr = f.instr ∧ (g s q f).owner = f.owner ∧ (g s q f).tids = f.tids ∧
      (g s q f).flag = f.flag ∧ (g s q f).done = f.done)
    (ho : ∀ s fr t, (plan s fr t).acc.isOk = true → ops s fr t (plan s fr t).ops) :
    IssuesTile i h shift plan ops := by
  intro s q hr hne T hok hj
  have hq := hr.1
  have hacc : ∃ l at_ e, (plan s s.mach.free T).acc = .ok l at_ e := by
    cases hc : (plan s s.mach.free T).acc with
    | ok l at_ e => exact ⟨l, at_, e, rfl⟩
    | _ => rw [hc] at hok; simp [Acc.isOk] at hok
  obtain ⟨l, at_, e, hacc⟩ := hacc
  -- the issue is a flight of the quarter and its advance, after the translation has entered the TLBs
  have hm : ∃ x w b y, s.mach.tileIssue s.sys q h i shift (plan s s.mach.free T) (wide s) (fin s) (g s q) =
      ((({ s.mach with tlbs := x, walks := w, eccSingle := b, secnt := y } : Mach).take 1).addFlight q h i s.mach.next (s.mach.lowestOf q)
        q.tids (plan s s.mach.free T).ops shift false (g s q)).goOn q.id s.mach.next h.look.toNat ∧
      (s.mach.eccSingle = [] → b = [] ∧ y = s.mach.secnt) := by
    unfold Mach.tileIssue
    have h1 : s.mach.planHeld (s.mach.lowestOf q) (plan s s.mach.free T) = false := by simp [Mach.planHeld, hj]
    have h2 : s.mach.planTrap (s.mach.lowestOf q) (plan s s.mach.free T) = none := by simp [Mach.planTrap, hacc, hj]
    simp only [h1, h2, hacc, hj, if_true, Bool.false_eq_true, if_false]
    obtain ⟨x, w, b, y, hx, hb⟩ := planWalks_flown s.mach q (plan s s.mach.free T) e
    exact ⟨x, w, b, y, by simp only [hx], hb⟩
  obtain ⟨x, w, b, y, hm, hb⟩ := hm
  let mf : Mach := { s.mach with tlbs := x, walks := w, eccSingle := b, secnt := y }
  have hw : (s.mach.withQ fun q => s.mach.tileIssue s.sys q h i shift (plan s s.mach.free (s.mach.thr (s.mach.lowestOf q)))
      (wide s) (fin s) (g s q)) = s.mach.tileIssue s.sys q h i shift (plan s s.mach.free T) (wide s) (fin s) (g s q) := by
    simp only [Mach.withQ, hq]; rfl
  obtain ⟨b1, b2, b3, b4, b5⟩ := group_spec s q (mf.take 1) h i s.mach.next h.look.toNat
    (plan s s.mach.free T).ops shift false (g s q) hr hne (fun _ => rfl) rfl rfl rfl (fun f => (hg s q f).1)
  rw [show ((mf.take 1).addFlight q h i s.mach.next (s.mach.lowestOf q) q.tids (plan s s.mach.free T).ops shift false (g s q)).goOn q.id
    s.mach.next h.look.toNat = _ from hm.symm] at b1 b2 b3 b4 b5
  refine ⟨_, he s, ?_, ?_⟩
  · rw [hw]
    refine ⟨fun a => ?_, b2, b3, b4, ?_, rfl, ?_, fun e => ?_, settle_sys_eq _⟩
    · show (s.mach.tileIssue s.sys q h i shift (plan s s.mach.free T) (wide s) (fin s) (g s q)).mem.read a = _
      rw [b5]; rfl
    · intro f hf
      show f ∈ (s.mach.tileIssue s.sys q h i shift (plan s s.mach.free T) (wide s) (fin s) (g s q)).flights
      rw [b5]
      exact List.mem_append_left _ hf
    · rw [settle_mach]
      simp only
      rw [b5]; rfl
    · show (s.mach.tileIssue s.sys q h i shift (plan s s.mach.free T) (wide s) (fin s) (g s q)).eccSingle = [] ∧
        (s.mach.tileIssue s.sys q h i shift (plan s s.mach.free T) (wide s) (fin s) (g s q)).secnt = _
      rw [b5]; exact hb e
  · rw [hw]
    obtain ⟨g1, g2, g3, g4, g5, g6⟩ := hg s q (flightOf (mf.take 1) q h i s.mach.next
      (s.mach.lowestOf q) q.tids (plan s s.mach.free T).ops false)
    refine ⟨g s q (flightOf (mf.take 1) q h i s.mach.next (s.mach.lowestOf q) q.tids
      (plan s s.mach.free T).ops false), (plan s s.mach.free T).ops, ⟨?_, g2, g3, g4, g5, ?_⟩, ?_, ho s _ _ hok⟩
    · show _ ∈ (s.mach.tileIssue s.sys q h i shift (plan s s.mach.free T) (wide s) (fin s) (g s q)).flights
      rw [b5]
      exact List.mem_append_right _ (List.mem_singleton_self _)
    · rw [g1]; exact b1
    · rw [g6]; simp [flightOf]

end Sys2Proof.Machine
end

