-- ==== Sys2Proof/Laws/Memory.lean ====
section
/-! SUPPORT. Memory: every operation keeps the canonical form, a read after a write to the same place gives the value written, and a
write leaves every other place alone. -/

namespace Sys2Proof.Machine

/-- A canonical list is a byte that is not the unlisted one below a canonical list of higher locations. -/
theorem Memory.wf_cons (c : Host.Cell) (r : Memory) :
    Memory.wf (c :: r) = true ↔ c.2 ≠ Memory.unlisted ∧ (∀ d ∈ r, c.1 < d.1) ∧ Memory.wf r = true := by
  induction r generalizing c with
  | nil => simp [Memory.wf]
  | cons d r ih =>
    simp only [Memory.wf, Bool.and_eq_true, bne_iff_ne, ne_eq, decide_eq_true_eq, List.mem_cons, forall_eq_or_imp]
    constructor
    · rintro ⟨⟨h1, h2⟩, h3⟩
      exact ⟨h1, ⟨h2, fun e he => Nat.lt_trans h2 (((ih d).1 h3).2.1 e he)⟩, h3⟩
    · rintro ⟨h1, ⟨h2, -⟩, h3⟩
      exact ⟨⟨h1, h2⟩, h3⟩

/-- What a location below all listed ones reads as. -/
theorem Memory.read_below (m : Memory) (a : Nat) (h : ∀ d ∈ m, a < d.1) : m.read a = Memory.unlisted := by
  cases m with
  | nil => rfl
  | cons c r =>
    have hc := h c (by simp)
    simp [Memory.read, hc, Nat.ne_of_gt hc]

/-- Every location listed after a write was listed before it, or is the one written. -/
theorem Memory.mem_write (m : Memory) (a : Nat) (b : Byte) (d : Host.Cell) (h : d ∈ m.write a b) : d ∈ m ∨ d.1 = a := by
  induction m with
  | nil =>
    simp only [Memory.write] at h
    split at h <;> simp_all
  | cons c r ih =>
    simp only [Memory.write] at h
    repeat' split at h
    all_goals simp only [List.mem_cons] at h ⊢
    · exact .inl (.inr h)
    · rcases h with rfl | h
      · exact .inr rfl
      · exact .inl (.inr h)
    · exact .inl h
    · rcases h with rfl | h
      · exact .inr rfl
      · exact .inl h
    · rcases h with rfl | h
      · exact .inl (.inl rfl)
      · rcases ih h with h | h
        · exact .inl (.inr h)
        · exact .inr h

/-- A WRITE KEEPS THE CANONICAL FORM. -/
theorem Memory.wf_write (m : Memory) (a : Nat) (b : Byte) (h : m.wf = true) : (m.write a b).wf = true := by
  induction m with
  | nil =>
    simp only [Memory.write]
    split <;> simp_all [Memory.wf]
  | cons c r ih =>
    obtain ⟨h1, h2, h3⟩ := (wf_cons c r).1 h
    simp only [Memory.write]
    repeat' split
    · exact h3
    · rename_i e hb
      exact (wf_cons _ _).2 ⟨hb, fun d hd => e ▸ h2 d hd, h3⟩
    · exact h
    · rename_i e hl hb
      refine (wf_cons _ _).2 ⟨hb, fun d hd => ?_, h⟩
      rcases List.mem_cons.1 hd with rfl | hd
      · exact hl
      · exact Nat.lt_trans hl (h2 d hd)
    · rename_i e hl
      refine (wf_cons _ _).2 ⟨h1, fun d hd => ?_, ih h3⟩
      rcases mem_write r a b d hd with hd | hd
      · exact h2 d hd
      · omega

/-- READ AFTER WRITE. -/
theorem Memory.read_write (m : Memory) (a x : Nat) (b : Byte) (h : m.wf = true) :
    (m.write a b).read x = if x = a then b else m.read x := by
  induction m with
  | nil =>
    simp only [Memory.write]
    split <;> rename_i hb
    · simp [Memory.read, hb]
    · by_cases hx : x = a
      · simp [Memory.read, hx]
      · simp [Memory.read, hx, Ne.symm hx]
  | cons c r ih =>
    obtain ⟨-, h2, h3⟩ := (wf_cons c r).1 h
    simp only [Memory.write]
    by_cases hc : c.1 = a
    · rw [if_pos hc]
      by_cases hb : b = Memory.unlisted
      · rw [if_pos hb]
        by_cases hx : x = a
        · rw [if_pos hx, hx, hb]
          exact read_below r a fun d hd => hc ▸ h2 d hd
        · rw [if_neg hx]
          by_cases hl : x < c.1
          · rw [read_below r x fun d hd => Nat.lt_trans hl (h2 d hd)]
            simp [Memory.read, hl, Nat.ne_of_gt hl]
          · simp [Memory.read, hl, show ¬c.1 = x by omega]
      · rw [if_neg hb]
        by_cases hx : x = a
        · simp [Memory.read, hx]
        · simp [Memory.read, hx, Ne.symm hx, hc]
    · rw [if_neg hc]
      by_cases hl : a < c.1
      · rw [if_pos hl]
        by_cases hb : b = Memory.unlisted
        · rw [if_pos hb]
          by_cases hx : x = a
          · rw [if_pos hx, hx, hb]
            simp [Memory.read, hc, hl]
          · rw [if_neg hx]
        · rw [if_neg hb]
          by_cases hx : x = a
          · simp [Memory.read, hx]
          · rw [if_neg hx]
            by_cases hxa : x < a
            · simp [Memory.read, Ne.symm hx, hxa, show ¬c.1 = x by omega, show x < c.1 by omega]
            · conv => lhs; unfold Memory.read
              simp [Ne.symm hx, hxa]
      · rw [if_neg hl]
        by_cases hx : x = a
        · have hn : ¬c.1 = x := by omega
          have hm : ¬x < c.1 := by omega
          simp only [Memory.read, hn, hm, if_false, ih h3]
        · by_cases hcx : c.1 = x
          · simp [Memory.read, hcx, hx]
          · by_cases hxl : x < c.1
            · simp [Memory.read, hcx, hxl, hx]
            · simp only [Memory.read, hcx, hxl, if_false, ih h3]

/-- Storing bytes in order keeps the canonical form. -/
theorem Memory.wf_put (m : Memory) (a : Nat) (bs : List Byte) (h : m.wf = true) : (m.put a bs).wf = true := by
  induction bs generalizing m a with
  | nil => exact h
  | cons b bs ih => exact ih _ _ (wf_write m a b h)

/-- A STORE changes the bytes that it covers and no other. -/
theorem Memory.read_put (m : Memory) (a x : Nat) (bs : List Byte) (h : m.wf = true) :
    (m.put a bs).read x = if a ≤ x ∧ x < a + bs.length then bs.getD (x - a) 0 else m.read x := by
  induction bs generalizing m a with
  | nil => simp [Memory.put]
  | cons b bs ih =>
    simp only [Memory.put, ih _ _ (wf_write m a b h), read_write m a x b h, List.length_cons]
    by_cases hx : x = a
    · simp [hx]
    · by_cases hr : a + 1 ≤ x ∧ x < a + 1 + bs.length
      · rw [if_pos hr, if_pos (by omega), show x - a = (x - (a + 1)) + 1 by omega, List.getD_cons_succ]
      · rw [if_neg hr, if_neg hx, if_neg (by omega)]

/-- Forgetting locations keeps the canonical form. -/
theorem Memory.wf_filter (m : Memory) (p : Host.Cell → Bool) (h : m.wf = true) : Memory.wf (m.filter p) = true := by
  induction m with
  | nil => rfl
  | cons c r ih =>
    obtain ⟨h1, h2, h3⟩ := (wf_cons c r).1 h
    simp only [List.filter_cons]
    split
    · exact (wf_cons _ _).2 ⟨h1, fun d hd => h2 d (List.mem_filter.1 hd).1, ih h3⟩
    · exact ih h3

/-- Equal memories are equal data. -/
theorem Memory.ext (m n : Memory) (hm : m.wf = true) (hn : n.wf = true) (h : ∀ a, m.read a = n.read a) : m = n := by
  induction m generalizing n with
  | nil =>
    cases n with
    | nil => rfl
    | cons d r =>
      have := h d.1
      simp [Memory.read] at this
      exact absurd this.symm ((wf_cons d r).1 hn).1
  | cons c m ih =>
    obtain ⟨c1, c2, c3⟩ := (wf_cons c m).1 hm
    cases n with
    | nil =>
      have := h c.1
      simp [Memory.read] at this
      exact absurd this c1
    | cons d n =>
      obtain ⟨d1, d2, d3⟩ := (wf_cons d n).1 hn
      have hc := h c.1
      have hd := h d.1
      have hcd : c.1 = d.1 := by
        rcases Nat.lt_trichotomy c.1 d.1 with hl | he | hl
        · simp [Memory.read, hl, Nat.ne_of_gt hl] at hc
          exact absurd hc c1
        · exact he
        · simp [Memory.read, hl, Nat.ne_of_gt hl] at hd
          exact absurd hd.symm d1
      have h2 : c.2 = d.2 := by simpa [Memory.read, hcd] using hc
      have hce : c = d := Prod.ext hcd h2
      subst hce
      congr 1
      refine ih n c3 d3 fun a => ?_
      have ha := h a
      by_cases hl : c.1 < a
      · simpa [Memory.read, Nat.ne_of_lt hl, Nat.lt_asymm hl] using ha
      · rw [read_below m a fun e he => by have := c2 e he; omega, read_below n a fun e he => by have := d2 e he; omega]

/-- Memory after reset has the canonical form. -/
theorem reset_memOk : State.reset.memOk := by decide

end Sys2Proof.Machine
end

