-- ==== Sys2Proof/Laws/Steps.lean ====
section
/-! SUPPORT. What the end of a step leaves of a settled state. -/

namespace Sys2Proof.Machine

theorem high_all (l : List Nat) : l.all l.contains = true := by
  simp

/-- The end of a step, field by field, when no error waits to be noted. -/
theorem settle_plain (s : State) (hc : s.mach.cxlErrs = []) (he : s.sys.seFired = seHigh s.sys s.mach) :
    s.settle = { s with mach := { s.mach with fired := [] },
                        sys := { s.sys with irq := s.mach.fired.foldl Irq.deliver s.sys.irq } } := by
  have h1 : (seHigh s.sys s.mach).all s.sys.seFired.contains = true := by rw [he]; simp
  have h2 : s.settle = { s with
      mach := { s.mach with fired := [], cxlErrs := [] }
      sys := { s.sys with irq := s.mach.fired.foldl Irq.deliver s.sys.irq, seFired := seHigh s.sys s.mach } } := by
    simp only [State.settle, hc, List.foldl_nil, h1, if_true, List.append_nil]
  rw [h2, ← he]
  have h3 : ({ s.mach with fired := [], cxlErrs := [] } : Mach) = { s.mach with fired := [] } := by rw [← hc]
  rw [h3]

/-- A step that fires nothing: the next state is the one it names. -/
theorem settle_quiet (s : State) (hf : s.mach.fired = []) (hc : s.mach.cxlErrs = []) (he : s.sys.seFired = seHigh s.sys s.mach) :
    s.settle = s := by
  rw [settle_plain s hc he, hf]
  have h3 : ({ s.mach with fired := [] } : Mach) = s.mach := by rw [← hf]
  rw [h3]; rfl

/-- A step that fires one source. -/
theorem settle_fires (s : State) (r : Nat) (hf : s.mach.fired = [r]) (hc : s.mach.cxlErrs = [])
    (he : s.sys.seFired = seHigh s.sys s.mach) :
    s.settle = ({ s with mach := { s.mach with fired := [] } } : State).fires r := by
  rw [settle_plain s hc he, hf]; rfl

theorem settled_next (s : State) : Settled s.settle := by
  refine ⟨rfl, rfl, ?_⟩
  show seHigh s.sys s.mach = _
  unfold seHigh
  have h1 : s.settle.mach.secnt = s.mach.secnt := rfl
  have h2 : s.settle.sys.seThr = s.sys.seThr := by
    have : ∀ (l : List Nat) (r : Sys × List Nat), (l.foldl s.mach.setPoison r).1.seThr = r.1.seThr := by
      intro l
      induction l with
      | nil => intro r; rfl
      | cons a l ih =>
        intro r
        rw [List.foldl_cons, ih]
        unfold Mach.setPoison
        split
        · rfl
        · dsimp only; split <;> rfl
    exact this s.mach.cxlErrs (s.sys, [])
  rw [h1, h2]

end Sys2Proof.Machine
end

