-- ==== Sys2Proof/Tests/Runs.lean ====
section
/-! SUPPORT. Small states on which the claims are witnessed, and what each shape of claim needs of a state to say that a step runs. -/

namespace Sys2Proof.Tests
open Sys2Proof.Machine

/-- The step has a next state. -/
def Runs (i : Instr) (s : State) : Prop := ∃ t, exec i s = .next t

/-- Reset with one thread of 256 registers on core 0, whose quarter is current (log 11). -/
def base : State :=
  let s := State.reset.withFetchWord 64 0
  { s with mach := { s.mach with latch := [], cur := s.mach.latch.headD 0 } }

/-- Its quarter and its thread. -/
def baseQ : Quarter := base.mach.quarters.headD { id := 0, core := 0, launch := 0, slots := [], rg := 0, pc := 0 }
def baseT : Thread := base.mach.threads.headD {}

/-- The base with another thread, another quarter, or another machine. -/
def withT (f : Thread → Thread) : State := { base with mach := { base.mach with threads := base.mach.threads.map f } }
def withM (f : Mach → Mach) : State := { base with mach := f base.mach }
def withR (l : List (Nat × Word)) : State := withT fun t => { t with regs := l.foldl (fun r p => r.set p.1 p.2) t.regs }

/-- What the step leaves behind. -/
def after (i : Instr) (s : State) : State := (nextOf (exec i s)).getD s

/-- The first flight, and the first operation of the base's thread. -/
def flight1 (s : State) : Flight := s.mach.flights.headD
  { uid := 0, iss := 0, owner := 0, tids := [], qid := 0, core := 0, launch := 0, instr := .timeBaseTick, pc := 0, hdr := none }
def op1 (s : State) : PendOp := (s.mach.thr baseT.id).pend.headD { oid := 0, uid := 0, kind := .wide }

/-- What `Running` asks. -/
abbrev RunsNow (s : State) (q : Quarter) : Prop :=
  s.mach.quarter? s.mach.cur = some q ∧ q.tids.Nodup ∧ (∀ k ∈ q.tids, (s.mach.thr? k).isSome) ∧ (s.mach.launch q.launch).ending = none

/-- What `Settled` asks. -/
abbrev NothingWaits (s : State) : Prop := s.mach.fired = [] ∧ s.mach.cxlErrs = [] ∧ s.sys.seFired = seHigh s.sys s.mach

theorem running_of {s : State} {q : Quarter} (h : RunsNow s q) : Running s q := h

theorem runs_completes {i : Instr} {h : Hdr} {d : Spec} {n : Nat} {v : State → Quarter → Nat → Nat → Thread → List Word → Prop}
    (c : Completes i h d n v) (s : State) (q : Quarter) (hr : RunsNow s q) (hd : ∀ k ∈ q.tids, DestFits (s.mach.thr k) d n) : Runs i s :=
  (c s q hr hd).imp fun _ h => h.1

theorem runs_completesOn {i : Instr} {g : State → Nat → Thread → Thread} (c : CompletesOn i g) (s : State) (q : Quarter)
    (hr : RunsNow s q) : Runs i s := (c s q hr).imp fun _ h => h.1

theorem runs_flies {i : Instr} {h : Hdr} {d : Spec} {ok : State → Quarter → Prop}
    {v : State → Quarter → Nat → Nat → Thread → List Word → Prop} (c : FliesWith i h d ok v) (s : State) (q : Quarter)
    (hr : RunsNow s q) (ho : ok s q) : Runs i s := (c s q hr ho).imp fun _ h => h.1

theorem runs_steps {i : Instr} {ok : State → Prop} {t : State → State} (c : Steps i ok t) (s : State) (hs : NothingWaits s)
    (ho : ok s) : Runs i s := ⟨_, c s hs ho⟩

theorem runs_stepsTo {i : Instr} {ok : State → Prop} {post : State → State → Prop} (c : StepsTo i ok post) (s : State)
    (hs : NothingWaits s) (ho : ok s) : Runs i s := (c s hs ho).imp fun _ h => h.1

/-- The accesses pass their checks and are not judged for races. -/
def planGood (P : TPlan) : Bool := P.acc.isOk && P.judge == []

theorem planGood_spec {P : TPlan} (h : planGood P = true) : P.acc.isOk = true ∧ P.judge = [] := by
  simpa [planGood] using h

theorem runs_issues {i : Instr} {h : Hdr} {sh : Bool} {ok : State → Quarter → Prop} {plan : State → Nat → Thread → TPlan}
    {ops : State → Nat → Thread → List PendOp → Prop} (c : IssuesAccesses i h sh ok plan ops) (s : State) (q : Quarter)
    (hr : RunsNow s q) (ho : ok s q) (hp : ∀ p ∈ q.active, planGood (plan s (s.mach.fr p.1) (s.mach.thr p.2)) = true) : Runs i s :=
  (c s q hr ho fun p m => planGood_spec (hp p m)).imp fun _ h => h.1

theorem runs_tile {i : Instr} {h : Hdr} {sh : Bool} {plan : State → Nat → Thread → TPlan}
    {ops : State → Nat → Thread → List PendOp → Prop} (c : IssuesTile i h sh plan ops) (s : State) (q : Quarter)
    (hr : RunsNow s q) (hn : q.tids ≠ []) (hp : planGood (plan s s.mach.free (s.mach.thr (s.mach.lowestOf q))) = true) : Runs i s :=
  (c s q hr hn (planGood_spec hp).1 (planGood_spec hp).2).imp fun _ h => h.1

theorem runs_product {i : Instr} {h : Hdr} {since : State → Option Nat} {ok : State → Quarter → Prop} {plan : State → Quarter → Nat → Thread → TPlan}
    {eff : State → Quarter → State → Prop} (c : IssuesProduct i h since ok plan eff) (s : State) (q : Quarter) (hr : RunsNow s q)
    (hn : q.tids ≠ []) (hg : q.gang = none) (ho : ok s q)
    (hp : ∀ p ∈ q.active, planGood (plan s q (s.mach.fr p.1) (s.mach.thr p.2)) = true) : Runs i s :=
  (c s q hr hn hg ho fun p m => planGood_spec (hp p m)).imp fun _ h => h.1

theorem runs_accepts {i : Instr} {h : Hdr} {ok : State → Quarter → Prop} {eff : State → Quarter → State → Prop}
    (c : Accepts i h ok eff) (s : State) (q : Quarter) (hr : RunsNow s q) (hn : q.tids ≠ []) (ho : ok s q) : Runs i s :=
  (c s q hr hn ho).imp fun _ h => h.1

theorem base_runs : RunsNow base baseQ := by decide +kernel
theorem base_waits : NothingWaits base := by decide +kernel
theorem reset_waits : NothingWaits State.reset := by decide +kernel

end Sys2Proof.Tests
end

