-- ==== Sys2Proof/Tests/Met1.lean ====
section
/-! SUPPORT. Of each claim about instructions on registers and about instructions in flight: a concrete state that meets its
hypotheses. Each theorem applies the claim to it, and so discharges every hypothesis. -/

namespace Sys2Proof.Tests

set_option Elab.async false
open Sys2Proof.Machine

theorem met_IntegerArithmeticCompletes (c : Obligations.IntegerArithmeticCompletes) :
    Runs (.add ⟨0, 0, 0⟩ .wrap (.v 255) (.v 1) (.v 2)) base ∧ Runs (.madw ⟨0, 0, 0⟩ true (.v 254) (.v 1) (.v 2) (.v 4)) base :=
  ⟨runs_completes (c _ (.v 255) (.v 1) (.v 2) .zero 0 true .wrap).1 base baseQ base_runs (by simp only [DestFits]; decide +kernel),
   runs_completes (c _ (.v 254) (.v 1) (.v 2) (.v 4) 0 true .wrap).2.2.2.2.2.1 base baseQ base_runs
     (by simp only [DestFits]; decide +kernel)⟩

theorem met_LogicShiftsFieldsComplete (c : Obligations.LogicShiftsFieldsComplete) :
    Runs (.and ⟨0, 0, 0⟩ (.v 9) (.v 1) (.v 2)) base ∧ Runs (.bfx ⟨0, 0, 0⟩ true .zero (.v 1) (.v 2)) base :=
  ⟨runs_completes (c.1 _ (.v 9) (.v 1) (.v 2) .zero 0 0).1 base baseQ base_runs (by simp only [DestFits]; decide +kernel),
   runs_completes (c.2 _ .zero (.v 1) (.v 2) .zero true).1 base baseQ base_runs (by simp only [DestFits]; decide +kernel)⟩

theorem met_SelectCompareMoveComplete (c : Obligations.SelectCompareMoveComplete) :
    Runs (.sel ⟨0, 0, 0⟩ (.v 9) (.v 1) (.v 2) (.v 3)) base ∧ Runs (.lea ⟨0, 0, 0⟩ 3 true (.v 9) (.v 2) (.v 4)) base :=
  ⟨runs_completes (c _ (.v 9) (.v 1) (.v 2) (.v 3) .eq 0 0 0 0 true).1 base baseQ base_runs
     (by simp only [DestFits]; decide +kernel),
   runs_completes (c _ (.v 9) (.v 2) (.v 4) .zero .eq 0 0 0 3 true).2.2.2.1 base baseQ base_runs
     (by simp only [DestFits]; decide +kernel)⟩

theorem met_LaneInstructionsComplete (c : Obligations.LaneInstructionsComplete) :
    Runs (.shfl ⟨0, 0, 0⟩ .xor true (.v 9) (.v 1) (.v 2)) base ∧ Runs (.vote ⟨0, 0, 0⟩ .eq (.c 7) (.v 1)) (withT fun t => { t with c := List.replicate 8 .undef }) :=
  ⟨runs_completes ((c _ (.v 9) (.v 1) (.v 2)).1 .xor true) base baseQ base_runs (by simp only [DestFits]; decide +kernel),
   runs_completes ((c _ (.c 7) (.v 1) .zero).2 .eq) _ baseQ (by decide +kernel) (by simp only [DestFits]; decide +kernel)⟩

theorem met_SpecialRegistersComplete (c : Obligations.SpecialRegistersComplete) :
    Runs (.rdsr ⟨0, 0, 0⟩ (.v 9) 0x28) base ∧ Runs (.wrsr ⟨0, 0, 0⟩ (.v 1) 0x10) base :=
  ⟨(c.1 _ (.v 9) 0x28 base baseQ base_runs (by simp only [DestFits]; decide +kernel)).imp fun _ h => h.1,
   runs_completesOn (c.2 _ (.v 1) 0x10) base baseQ base_runs⟩

theorem met_NopAndTimeBaseComplete (c : Obligations.NopAndTimeBaseComplete) :
    Runs (.nop ⟨7, 12, 0⟩) base ∧ Runs (.rdclk ⟨0, 0, 0⟩ (.v 4)) base :=
  ⟨runs_completesOn (c _ .zero).1 base baseQ base_runs,
   runs_completes (c _ (.v 4)).2 base baseQ base_runs (by simp only [DestFits]; decide +kernel)⟩

theorem met_FloatInstructionsComplete (c : Obligations.FloatInstructionsComplete) :
    Runs (.fadd ⟨0, 0, 0⟩ (.v 9) (.v 1) (.v 2)) base :=
  runs_completes (c _ (.v 9) (.v 1) (.v 2) .zero false false .eq .f32 .f32 .cur).1 base baseQ base_runs
    (by simp only [DestFits]; decide +kernel)

/-- Every active thread has a result. -/
theorem all_ok {q : Quarter} {f : Nat × Nat → Except Nat (List Word)} (h : ∀ p ∈ q.active, (f p).toOption.isSome = true) :
    ∀ p ∈ q.active, ∃ ws, f p = .ok ws := fun p hp => by
  have := h p hp
  cases hf : f p with
  | error e => simp [hf, Except.toOption] at this
  | ok ws => exact ⟨ws, rfl⟩

/-- The arithmetic mean (family 0, exponent 1), a term 1 in register 1, states of one term in registers 6 and 9. -/
def meanBase : State := withT fun t =>
  { t with tmshape := 0x100, regs := [1, 6, 9].foldl (fun r k => r.set k 0x3F800000) ((t.regs.set 8 1).set 11 1) }

theorem met_PortsAndMeansFly (c : Obligations.PortsAndMeansFly) :
    Runs (.sfe2 ⟨0, 1, 15⟩ (.v 9) (.v 1)) base ∧ Runs (.fibprb ⟨0, 1, 0⟩ (some (.v 3)) (.v 8) (.v 1)) base ∧
    Runs (.tment ⟨0, 1, 0⟩ (.v 12) (.v 1)) meanBase ∧ Runs (.tmmrg ⟨0, 1, 0⟩ (.v 12) (.v 6) (.v 9)) meanBase ∧
    Runs (.tmscl ⟨0, 1, 0⟩ (.v 12) (.v 6) (.v 9)) meanBase ∧ Runs (.tmext ⟨0, 1, 0⟩ (.v 12) (.v 6)) meanBase ∧
    Runs (.tmred ⟨0, 1, 0⟩ (.v 12) (.v 6)) meanBase :=
  ⟨runs_flies (c.1.1 _ (.v 9) (.v 1)).1 base baseQ base_runs trivial,
   runs_flies (c.1.2 _ (some (.v 3)) (.v 8) (.v 1)) base baseQ base_runs trivial,
   runs_flies (c.2 _ (.v 12) (.v 1) .zero).1 meanBase baseQ (by decide +kernel) (all_ok (by decide +kernel)),
   runs_flies (c.2 _ (.v 12) (.v 6) (.v 9)).2.1 meanBase baseQ (by decide +kernel) (all_ok (by decide +kernel)),
   runs_flies (c.2 _ (.v 12) (.v 6) (.v 9)).2.2.1 meanBase baseQ (by decide +kernel) (all_ok (by decide +kernel)),
   runs_flies (c.2 _ (.v 12) (.v 6) .zero).2.2.2.1 meanBase baseQ (by decide +kernel) (all_ok (by decide +kernel)),
   runs_flies (c.2 _ (.v 12) (.v 6) .zero).2.2.2.2 meanBase baseQ (by decide +kernel) (by decide +kernel)⟩

end Sys2Proof.Tests
end

