-- ==== Sys2Proof/Tests/Met2.lean ====
section
/-! SUPPORT. Of each claim about accesses, tiles and products: a concrete state that meets its hypotheses. -/

namespace Sys2Proof.Tests

set_option Elab.async false
open Sys2Proof.Machine

/-- The base with 16 KiB of scratch, a data address in register pairs 2 and 4, a row pitch in register 11, and three format slots: all zero, with scales, and of
FMT 13. -/
def memBase : State := withM fun m =>
  { m with waves := m.waves.map fun w => { w with scr := 64 }
           launches := m.launches.map fun l => { l with fslots := [0, 0x100000, 0xD000000] }
           threads := m.threads.map fun t => { t with regs := ((t.regs.set 2 0x14000).set 4 0x14000).set 11 64 } }

theorem memBase_runs : RunsNow memBase baseQ := by decide +kernel

theorem met_RowInstructionsIssue (c : Obligations.RowInstructionsIssue) :
    Runs (.topkGroup ⟨0, 1, 0⟩ .p24 .w8 .s (.v 10) (.v 10) (.v 10)) memBase ∧
    Runs (.topkRow ⟨0, 1, 0⟩ .w8 .s (.v 9) (.v 10) (.v 10) (.v 10)) memBase ∧
    Runs (.cvtq ⟨0, 1, 0⟩ .f32 0 (.v 9) (.v 10) (.v 10) (.v 10)) memBase ∧
    Runs (.rquant ⟨0, 1, 0⟩ 1 (.v 9) (.v 10) (.v 10) (.v 10)) memBase ∧
    Runs (.bscale ⟨0, 1, 0⟩ .f32 0 (.v 9) (.v 10)) memBase :=
  ⟨runs_issues ((c _ .zero (.v 10) (.v 10) (.v 10) 0 .f32).1 .p24 .w8 .s) memBase baseQ memBase_runs trivial (by decide +kernel),
   runs_issues ((c _ (.v 9) (.v 10) (.v 10) (.v 10) 0 .f32).2.1 .w8 .s) memBase baseQ memBase_runs trivial (by decide +kernel),
   runs_issues (c _ (.v 9) (.v 10) (.v 10) (.v 10) 0 .f32).2.2.1 memBase baseQ memBase_runs (by decide +kernel) (by decide +kernel),
   runs_issues (c _ (.v 9) (.v 10) (.v 10) (.v 10) 1 .f32).2.2.2.1 memBase baseQ memBase_runs (by decide +kernel) (by decide +kernel),
   runs_issues (c _ (.v 9) (.v 10) .zero .zero 0 .f32).2.2.2.2 memBase baseQ memBase_runs (by decide +kernel) (by decide +kernel)⟩

theorem met_LoadsAndStoresIssue (c : Obligations.LoadsAndStoresIssue) :
    Runs (.ld ⟨0, 1, 0⟩ .b128 false .d (.v 8) (.v 2) 0x7FF0) memBase ∧ Runs (.st ⟨0, 1, 0⟩ .b128 false .d (.v 8) (.v 2) 0x7FF0) memBase ∧
    Runs (.lds ⟨0, 1, 0⟩ .b32 .t (.v 8) (.v 10) 0x3FFC) memBase ∧ Runs (.sts ⟨0, 1, 0⟩ .b32 .t (.v 8) (.v 10) 0x3FFC) memBase :=
  ⟨runs_issues (c _ .b128 false .d (.v 8) (.v 2) 0x7FF0).1 memBase baseQ memBase_runs trivial (by decide +kernel),
   runs_issues (c _ .b128 false .d (.v 8) (.v 2) 0x7FF0).2.1 memBase baseQ memBase_runs trivial (by decide +kernel),
   runs_issues (c _ .b32 false .t (.v 8) (.v 10) 0x3FFC).2.2.1 memBase baseQ memBase_runs trivial (by decide +kernel),
   runs_issues (c _ .b32 false .t (.v 8) (.v 10) 0x3FFC).2.2.2 memBase baseQ memBase_runs trivial (by decide +kernel)⟩

theorem met_AtomicsAndFencesIssue (c : Obligations.AtomicsAndFencesIssue) :
    Runs (.atom ⟨0, 1, 0⟩ .cas .b64 .p (.v 8) (.v 2) (.v 6)) memBase ∧ Runs (.red ⟨0, 1, 0⟩ .add .b64 .p (.v 2) (.v 6)) memBase ∧
    Runs (.fence ⟨0, 1, 0⟩ .ar .d) memBase ∧ Runs (.prf ⟨0, 1, 0⟩ false .k (.v 2) 1) memBase :=
  ⟨runs_issues (c _ .cas .b64 .p (.v 8) (.v 2) (.v 6) .ar false 0).1 memBase baseQ memBase_runs trivial (by decide +kernel),
   runs_issues (c _ .add .b64 .p .zero (.v 2) (.v 6) .ar false 0).2.1 memBase baseQ memBase_runs trivial (by decide +kernel),
   runs_issues (c _ .add .b64 .d .zero (.v 2) (.v 6) .ar false 0).2.2.1 memBase baseQ memBase_runs trivial (by decide +kernel),
   runs_issues (c _ .add .b64 .k .zero (.v 2) (.v 6) .ar false 1).2.2.2 memBase baseQ memBase_runs trivial (by decide +kernel)⟩

theorem met_TileInstructionsIssue (c : Obligations.TileInstructionsIssue) :
    Runs (.ldt ⟨0, 1, 0⟩ 6 false (.v 10) (.v 2) 0) memBase ∧ Runs (.stt ⟨0, 1, 0⟩ 2 true (.v 10) (.v 2) 0x400) memBase ∧
    Runs (.fibld ⟨0, 1, 0⟩ true (.v 9) (.v 10) (.v 10)) memBase ∧ Runs (.tmld ⟨0, 1, 0⟩ 3 (.v 2) 8) memBase :=
  ⟨runs_tile (c _ 6 false true (.v 10) (.v 2) .zero 0 0).1 memBase baseQ memBase_runs (by decide +kernel) (by decide +kernel),
   runs_tile (c _ 2 true true (.v 10) (.v 2) .zero 0x400 0).2.1 memBase baseQ memBase_runs (by decide +kernel) (by decide +kernel),
   runs_tile (c _ 0 false true (.v 9) (.v 10) (.v 10) 0 0).2.2.1 memBase baseQ memBase_runs (by decide +kernel) (by decide +kernel),
   runs_tile (c _ 0 false true .zero (.v 2) .zero 8 3).2.2.2 memBase baseQ memBase_runs (by decide +kernel) (by decide +kernel)⟩

/-- The head and the pool of a small index at 0x14000, keys of 8 halves; a signature unit's slot 3; a probe in register 6. -/
def idxAt : Nat := fetchFrame + 0x4000
def idxHead : Nat := 7 * 2 ^ 248 + 2 ^ 232 + 64 * 2 ^ 192 + 0x15000 * 2 ^ 128 + 0x16000 * 2 ^ 64 + 16 * 2 ^ 32 + 2
def sig3 : SigSlot := { grove := 0, slot := 3, launch := baseT.launch, sb := 1, d := 8, mat := [] }
def idxBase : State := { memBase with mach := { memBase.mach with
  sigs := [sig3], mem := (memBase.mach.mem.put idxAt (toBytes idxHead 64)).put (idxAt + 64) (List.replicate 8 0xFF)
  threads := memBase.mach.threads.map fun t => { t with regs := t.regs.set 6 0x100000 } } }

theorem idxBase_runs : RunsNow idxBase baseQ := by decide +kernel

/-- The next operation of the base's thread performs. -/
def perf1 (s : State) : State := (nextOf (execAccessPerform baseT.id (op1 s).oid false s)).getD s

/-- A `qsig` with the last of its key's reads to come; a `bprobe` whose bucket has been read. -/
def sigLast : State := perf1 (after (.qsig ⟨0, 1, 0⟩ 3 (.v 8) (.v 10)) idxBase)
def probeLast : State := perf1 (perf1 (after (.bprobe ⟨0, 1, 0⟩ false .d (.v 8) (.v 2) (.v 6)) idxBase))
/-- The same where token 7, with its link at 0x16000, has been found. -/
def probeFound : State := { probeLast with mach := { probeLast.mach with
  flights := probeLast.mach.flights.map fun f => { f with nums := f.nums ++ [7, 0x16000] } } }

theorem met_IndexInstructionsIssue (c : Obligations.IndexInstructionsIssue) :
    Runs (.qsig ⟨0, 1, 0⟩ 3 (.v 8) (.v 10)) idxBase ∧ Runs (.bprobe ⟨0, 1, 0⟩ false .d (.v 8) (.v 2) (.v 6)) idxBase ∧
    Runs (.accessPerform baseT.id (op1 sigLast).oid false) sigLast ∧ Runs (.accessPerform baseT.id (op1 probeLast).oid false) probeLast ∧
    Runs (.accessPerform baseT.id (op1 probeFound).oid false) probeFound :=
  ⟨runs_issues (c.1 _ 3 (.v 8) (.v 10) 8) idxBase baseQ idxBase_runs ⟨by decide +kernel, sig3, by decide +kernel, rfl⟩ (by decide +kernel),
   runs_issues (c.2.2.1 _ false .d (.v 8) (.v 2) (.v 6)) idxBase baseQ idxBase_runs (by decide +kernel) (by decide +kernel),
   runs_stepsTo (c.2.1 ⟨0, 1, 0⟩ 3 (.v 8) (.v 10) 1 8 [] baseT.id (op1 sigLast).oid (op1 sigLast) (flight1 sigLast)) sigLast (by decide +kernel)
     ⟨rfl, by simp only [PerformsNext]; decide +kernel, by decide +kernel⟩,
   runs_stepsTo (c.2.2.2 ⟨0, 1, 0⟩ false .d (.v 8) (.v 2) (.v 6) 1 baseT.id (op1 probeLast).oid (op1 probeLast) (flight1 probeLast)).2
     probeLast (by decide +kernel) ⟨⟨rfl, by simp only [PerformsNext]; decide +kernel, by decide +kernel⟩, by decide +kernel⟩,
   runs_stepsTo (c.2.2.2 ⟨0, 1, 0⟩ false .d (.v 8) (.v 2) (.v 6) 1 baseT.id (op1 probeFound).oid (op1 probeFound) (flight1 probeFound)).1
     probeFound (by decide +kernel) ⟨⟨rfl, by simp only [PerformsNext]; decide +kernel, by decide +kernel⟩, by decide +kernel⟩⟩

/-- What a `kstore` leaves once the bytes of its key have performed: its link step may run. -/
def linkBase : State := perf1 (perf1 (after (.kstore ⟨0, 1, 0⟩ false .d 3 (.v 10) (.v 2) (.v 10)) idxBase))

theorem met_KeyIndexWrites (c : Obligations.KeyIndexWrites) :
    Runs (.kstore ⟨0, 1, 0⟩ false .d 3 (.v 10) (.v 2) (.v 10)) idxBase ∧ Runs (.kstoreLinkStep baseT.id (op1 linkBase).oid) linkBase :=
  ⟨runs_issues ((c _ false .d 3 (.v 10) (.v 2) (.v 10)).1 sig3) idxBase baseQ idxBase_runs (by simp only [AllFree]; decide +kernel)
     (by decide +kernel),
   runs_stepsTo ((c ⟨0, 1, 0⟩ false .d 3 (.v 10) (.v 2) (.v 10)).2 baseT.id (op1 linkBase).oid (op1 linkBase) (flight1 linkBase)
     idxAt 7 (idxAt + 64) 7 (idxAt + 0x2080) 7) linkBase (by decide +kernel)
     (by decide +kernel)⟩

theorem met_ProductsIssue (c : Obligations.ProductsIssue) :
    Runs (.mma ⟨0, 1, 3⟩ true 0 (.v 10) (.v 10) 0 0) memBase ∧ Runs (.mmas ⟨0, 1, 3⟩ 1 63 (.v 10) (.v 10) (.v 10) 0 0) memBase ∧
    Runs (.mmaj ⟨0, 1, 3⟩ true 15 1 (.v 10) (.v 10) 0 0) memBase :=
  ⟨runs_product (c _ true 1 0 0 (.v 10) (.v 10) (.v 10) 0 0).1 memBase baseQ memBase_runs (by decide +kernel) (by decide +kernel)
     (by simp only [TileFree]; decide +kernel) (by decide +kernel),
   runs_product (c _ true 1 0 63 (.v 10) (.v 10) (.v 10) 0 0).2.1 memBase baseQ memBase_runs (by decide +kernel) (by decide +kernel)
     (by simp only [TileFree]; decide +kernel) (by decide +kernel),
   runs_product (c _ true 1 15 1 (.v 10) (.v 10) (.v 10) 0 0).2.2 memBase baseQ memBase_runs (by decide +kernel) (by decide +kernel)
     (by simp only [TileFree]; decide +kernel) (by decide +kernel)⟩

/-- A `tdrain` of eight rows, none of which has been written. -/
def drainBase : State := after (.tdrain ⟨0, 1, 0⟩ .ow true 1 true false 5 (.v 2) (.v 11) 2) memBase

theorem drainOnly (r : Nat) (h : r < (if true then 8 else 32) ∧ (0x14000 + r * 64 = (op1 drainBase).va ∨
    ∃ p ∈ (op1 drainBase).parts, p.1 = 0x14000 + r * 64 ∧ p.2.2 = drainRb (drainBase.mach.fslot (flight1 drainBase).launch (2 : BitVec 3).toNat))) :
    r = 0 :=
  (by decide +kernel : ∀ r, r < 8 → (0x14000 + r * 64 = (op1 drainBase).va ∨
    ∃ p ∈ (op1 drainBase).parts, p.1 = 0x14000 + r * 64 ∧ p.2.2 = drainRb (drainBase.mach.fslot (flight1 drainBase).launch (2 : BitVec 3).toNat)) →
    r = 0) r h.1 h.2

theorem met_TilesDrainAndClear (c : Obligations.TilesDrainAndClear) :
    Runs (.tzero ⟨0, 1, 0⟩ true 3 5) memBase ∧ Runs (.tdrain ⟨0, 1, 0⟩ .ow true 1 true false 5 (.v 2) (.v 11) 2) memBase ∧
    Runs (.accessPerform baseT.id (op1 drainBase).oid false) drainBase :=
  ⟨((c _ .ow true true false 3 5 .zero .zero 0).1 memBase baseQ memBase_runs (by decide +kernel)
      (by simp only [TileFree]; decide +kernel)).imp fun _ h => h.choose_spec.1,
   ((c _ .ow true true false 1 5 (.v 2) (.v 11) 2).2.1 memBase baseQ memBase_runs (by decide +kernel)
      (by simp only [TileFree]; decide +kernel) (by decide +kernel) (by decide +kernel)).imp fun _ h => h.choose_spec.choose_spec.1,
   runs_stepsTo ((c ⟨0, 1, 0⟩ .ow true true false 1 5 (.v 2) (.v 11) 2).2.2 baseT.id (op1 drainBase).oid (op1 drainBase) (flight1 drainBase)
     0x14000 64 []) drainBase (by decide +kernel)
     ⟨rfl, by simp only [PerformsNext]; decide +kernel, by decide +kernel, rfl, rfl, by decide +kernel, by decide +kernel, by decide, rfl,
      (fun _ hx => nomatch hx), fun r h => by rw [drainOnly r h]; decide +kernel, (fun _ hx => nomatch hx), fun r r' h h' e => absurd ((drainOnly r h).trans (drainOnly r' h').symm) e, fun _ _ x hx => nomatch hx⟩⟩

end Sys2Proof.Tests
end

