-- ==== Sys2Proof/Tests/Met3.lean ====
section
/-! SUPPORT. Of each claim about posts to the units: a concrete state that meets its hypotheses. -/

namespace Sys2Proof.Tests

set_option Elab.async false
open Sys2Proof.Machine

theorem met_EnginePosts (c : Obligations.EnginePosts) :
    Runs (.cpy ⟨0, 1, 0⟩ false true (.v 4) (.v 6) (.v 8)) base ∧ Runs (.cpyp ⟨0, 1, 0⟩ (.v 4) (.v 6) (.v 8)) base ∧
    Runs (.mmx ⟨0, 1, 0⟩ (.v 4)) base ∧ Runs (.mmr ⟨0, 1, 0⟩ (.v 4)) base ∧ Runs (.stcfg ⟨0, 1, 0⟩ 3 (.v 4)) base ∧
    Runs (.sigld ⟨0, 1, 0⟩ 15 (.v 4) (.v 6)) base :=
  have low : LowFree base baseQ := by simp only [LowFree]; decide +kernel
  have n : baseQ.tids ≠ [] := by decide +kernel
  ⟨runs_accepts (c _ (.v 4) (.v 6) (.v 8) false true 0 0).1 base baseQ base_runs n low,
   runs_accepts (c _ (.v 4) (.v 6) (.v 8) false true 0 0).2.1 base baseQ base_runs n low,
   runs_accepts (c _ (.v 4) .zero .zero false true 0 0).2.2.1 base baseQ base_runs n low,
   runs_accepts (c _ (.v 4) .zero .zero false true 0 0).2.2.2.1 base baseQ base_runs n low,
   runs_accepts (c _ (.v 4) .zero .zero false true 3 0).2.2.2.2.1 base baseQ base_runs n low,
   runs_accepts (c _ (.v 4) (.v 6) .zero false true 0 15).2.2.2.2.2 base baseQ base_runs n low⟩

/-- The base with scratch, two queue pairs, of which pair 1 has a retirement record, and counter 3 in register 12. -/
def unitBase : State := withM fun m =>
  { m with waves := m.waves.map fun w => { w with scr := 64 }
           launches := m.launches.map fun l => { l with eff := { l.eff with qpairs := 2 } }
           qpairs := [{ rcb := (m.launch baseQ.launch).rcb, q := 1, rets := [{ tag := 5, op := 1, outcome := 0 }] }]
           threads := m.threads.map fun t => { t with regs := t.regs.set 12 3 } }

theorem unitBase_runs : RunsNow unitBase baseQ := by decide +kernel

theorem met_CountersComplete (c : Obligations.CountersComplete) :
    Runs (.ctradd ⟨0, 1, 0⟩ (.v 12) (.v 12)) unitBase ∧ Runs (.ctrset ⟨0, 1, 0⟩ (.v 12) (.v 12)) unitBase ∧
    Runs (.ctrwait ⟨0, 1, 0⟩ (.v 12) .zero) unitBase :=
  ⟨runs_accepts (c _ (.v 12) (.v 12)).1 unitBase baseQ unitBase_runs (by decide +kernel) (by simp only [AllFree]; decide +kernel),
   runs_accepts (c _ (.v 12) (.v 12)).2.1 unitBase baseQ unitBase_runs (by decide +kernel) (by simp only [AllFree]; decide +kernel),
   runs_accepts (c _ (.v 12) .zero).2.2 unitBase baseQ unitBase_runs (by decide +kernel) (by decide +kernel)⟩

theorem met_QueuesComplete (c : Obligations.QueuesComplete) :
    Runs (.qpost ⟨0, 1, 0⟩ 1 (.v 10)) unitBase ∧ Runs (.rlinv ⟨0, 1, 0⟩ 0 (.v 4)) unitBase ∧
    Runs (.qfence ⟨0, 1, 0⟩ 1 ⟨true, true, true, true, true, false⟩ .zero) unitBase ∧
    Runs (.qfence ⟨0, 1, 0⟩ 1 ⟨false, false, false, true, false, true⟩ (.v 20)) unitBase ∧
    Runs (.qfence ⟨0, 1, 0⟩ 0 ⟨false, false, false, true, false, true⟩ (.v 20)) unitBase :=
  ⟨((c _ 1 (.v 10) .zero ⟨true, true, true, true, true, false⟩).1 unitBase baseQ unitBase_runs (by simp only [FreshKeys]; decide +kernel)
     (by simp only [AllFree]; decide +kernel) (by decide +kernel) (by simp only [PairOpen]; decide +kernel) (by decide +kernel)).imp fun _ h => h.1,
   runs_accepts (c _ 0 (.v 4) .zero ⟨true, true, true, true, true, false⟩).2.1 unitBase baseQ unitBase_runs (by decide +kernel)
     (by simp only [LowFree, PairOpen]; decide +kernel),
   runs_accepts ((c _ 1 .zero .zero ⟨true, true, true, true, true, false⟩).2.2.1 rfl) unitBase baseQ unitBase_runs (by decide +kernel)
     (by decide +kernel),
   ((c _ 1 .zero (.v 20) ⟨false, false, false, true, false, true⟩).2.2.2 rfl unitBase baseQ unitBase_runs (by decide +kernel)
     (by decide +kernel)).imp fun _ h => h.choose_spec.1,
   ((c _ 0 .zero (.v 20) ⟨false, false, false, true, false, true⟩).2.2.2 rfl unitBase baseQ unitBase_runs (by decide +kernel)
     (by decide +kernel)).imp fun _ h => h.choose_spec.1⟩

/-- A ring 15 of the base's launch: fill or drain, of two slots of 64 bytes from offset 0. -/
def ringOf (drain closed : Bool) (st : SlotSt) (nprod : Nat) : Ring :=
  { core := 0, num := 15, launch := baseT.launch, owner := baseT.wave, drain := drain, slotOff := 0, slotBytes := 64, nprod := nprod
    slots := [{ st := st }, {}], closed := closed }
def ringBase (g : Ring) : State := withM fun m => { m with rings := [g] }

theorem met_RingsComplete (c : Obligations.RingsComplete) :
    Runs (.rwait ⟨0, 1, 0⟩ 15 (.v 4)) (ringBase (ringOf false true .empty 1)) ∧
    Runs (.rwait ⟨0, 1, 0⟩ 15 (.v 4)) (ringBase (ringOf false false .full 1)) ∧
    Runs (.rwait ⟨0, 1, 0⟩ 15 (.v 4)) (ringBase (ringOf true false .empty 2)) ∧
    Runs (.rdone ⟨0, 1, 0⟩ 15 (.v 10)) (ringBase (ringOf false false (.held baseT.wave) 1)) ∧
    Runs (.rclose ⟨0, 1, 0⟩ 15) (ringBase (ringOf true false .empty 2)) :=
  ⟨((c _ 15 .zero (.v 4)).1 (ringBase (ringOf false true .empty 1)) baseQ _ (running_of (by decide +kernel)) (by decide +kernel)
     rfl (by decide +kernel) (by decide +kernel) (by decide +kernel)).imp fun _ h => h.choose_spec.1,
   ((c _ 15 .zero (.v 4)).2.1 (ringBase (ringOf false false .full 1)) baseQ (ringOf false false .full 1) (running_of (by decide +kernel))
     (by decide +kernel) (by decide +kernel) (by decide +kernel) (by decide +kernel) (by decide +kernel)).imp fun _ h => h.choose_spec.1,
   ((c _ 15 .zero (.v 4)).2.1 (ringBase (ringOf true false .empty 2)) baseQ (ringOf true false .empty 2) (running_of (by decide +kernel))
     (by decide +kernel) (by decide +kernel) (by decide +kernel) (by decide +kernel) (by decide +kernel)).imp fun _ h => h.choose_spec.1,
   runs_accepts (c _ 15 (.v 10) .zero).2.2.1 (ringBase (ringOf false false (.held baseT.wave) 1)) baseQ (by decide +kernel)
     (by decide +kernel) ⟨by simp only [LowFree]; decide +kernel, ringOf false false (.held baseT.wave) 1, 0, by decide +kernel⟩,
   runs_accepts (c _ 15 .zero .zero).2.2.2 (ringBase (ringOf true false .empty 2)) baseQ (by decide +kernel)
     (by decide +kernel) ⟨by simp only [LowFree]; decide +kernel, ringOf true false .empty 2, by decide +kernel⟩⟩

/-- A table of the launch with another wave's member 0, and a route to device 7 for the word in register 13. -/
def shareBase : State := withM fun m => { m with shares := [{ grove := 0, launch := baseQ.launch, members := [(0, 999)] }]
                                                 threads := m.threads.map fun t => { t with regs := (t.regs.set 12 23).set 13 0x70003 } }
def sendBase : State := { shareBase with sys := { shareBase.sys with routes := [(7, { v := true, prim := 0 })], devid := 5 } }
def hereBase : State := { shareBase with sys := { shareBase.sys with devid := 7 } }

theorem met_SharingAndSignals (c : Obligations.SharingAndSignals) :
    Runs (.gjoin ⟨0, 1, 0⟩ (.v 10)) base ∧ Runs (.gjoin ⟨0, 1, 0⟩ (.v 12)) shareBase ∧ Runs (.gleave ⟨0, 1, 0⟩) base ∧
    Runs (.sig ⟨0, 1, 0⟩ .x (.v 13) (.v 12)) hereBase ∧ Runs (.sig ⟨0, 1, 0⟩ .x (.v 13) (.v 12)) sendBase :=
  ⟨runs_accepts (c.1 _ (.v 10)).1 base baseQ base_runs (by decide +kernel)
     ⟨by decide +kernel, by decide +kernel, (by decide +kernel : (base.mach.shares.filter fun x => x.grove == coreGrove baseQ.core).length < 8)⟩,
   runs_accepts (c.1 _ (.v 12)).1 shareBase baseQ (by decide +kernel) (by decide +kernel)
     ⟨by decide +kernel, by decide +kernel, (by decide +kernel : (∀ p ∈ [((0 : Nat), (999 : Nat))], p.1 ≠ 23 ∧ p.2 ≠ baseT.wave) ∧
       ∀ p ∈ ([] : List (Nat × Nat)), p.1 ≠ 23)⟩,
   ((c.1 _ .zero).2 base baseQ base_runs (by decide +kernel)).imp fun _ h => h.choose_spec.choose_spec.1,
   ((c.2 _ .x (.v 13) (.v 12)).1 hereBase baseQ (running_of (by decide +kernel)) (by decide +kernel) (by decide +kernel)).imp fun _ h => h.1,
   ((c.2 _ .x (.v 13) (.v 12)).2 sendBase baseQ (0, baseT.id) (running_of (by decide +kernel)) (by decide +kernel) (by decide +kernel)
     (by decide +kernel) (by decide +kernel) (by decide +kernel) (by decide +kernel) (by decide +kernel)).imp fun _ h => h.choose_spec.1⟩

end Sys2Proof.Tests
end

