-- ==== Sys2Proof/Tests/Met4.lean ====
section
/-! SUPPORT. Of each claim about control flow and traps: a concrete state that meets its hypotheses. -/

namespace Sys2Proof.Tests

set_option Elab.async false
open Sys2Proof.Machine

theorem runs_branches {i : Instr} {ok : State → Quarter → Prop} {g : Thread → Thread} {tgt : State → Quarter → Nat × Nat → Pc}
    {lead : State → Quarter → Pc} (c : Branches i ok g tgt lead) (s : State) (q : Quarter) (hr : RunsNow s q) (hn : q.tids ≠ [])
    (hl : ∀ k ∈ q.tids, (s.mach.launch (s.mach.thr k).launch).ending = none) (ho : ok s q) : Runs i s :=
  (c s q hr hn hl ho).imp fun _ h => h.1

theorem baseQ_tids : baseQ.tids ≠ [] := by decide +kernel
theorem base_lasts : ∀ k ∈ baseQ.tids, (base.mach.launch (base.mach.thr k).launch).ending = none := by decide +kernel
theorem base_noHandler : NoHandler base baseQ := by simp only [NoHandler]; decide +kernel

theorem met_BranchesComplete (c : Obligations.BranchesComplete) :
    Runs (.bra ⟨0, 0, 0⟩ 0x1FFFFFFFF) base ∧ Runs (.brz ⟨0, 0, 0⟩ (.v 1) 5) base ∧ Runs (.brnz ⟨0, 0, 0⟩ (.v 1) 5) base ∧
    Runs (.brx ⟨0, 0, 0⟩ (.v 2)) (withR [(2, 0xFFFFFFFF), (3, 0x1FFFFFF)]) :=
  ⟨runs_branches (c _ 0x1FFFFFFFF (.v 1)).1 base baseQ base_runs baseQ_tids base_lasts trivial,
   runs_branches (c _ 5 (.v 1)).2.1 base baseQ base_runs baseQ_tids base_lasts trivial,
   runs_branches (c _ 5 (.v 1)).2.2.1 base baseQ base_runs baseQ_tids base_lasts trivial,
   runs_branches (c _ 5 (.v 2)).2.2.2 (withR [(2, 0xFFFFFFFF), (3, 0x1FFFFFF)]) baseQ (by decide +kernel) baseQ_tids (by decide +kernel)
     (by decide +kernel)⟩

/-- A clause header after the current word and at the entry 0x10100, and the header of a function of 16 registers before it. -/
def fnWord : Nat := 0xFC * 2 ^ 56 + 2 * 2 ^ 40
def callBase : State := withM fun m =>
  { m with mem := ((m.mem.put (fetchFrame + 16) (toBytes (oneWordHdr 0).toNat 8)).put (fetchFrame + 0xF8) (toBytes fnWord 8)).put
             (fetchFrame + 0x100) (toBytes (oneWordHdr 0).toNat 8)
           threads := m.threads.map fun t => { t with regs := t.regs.set 2 0x10100, rets := [{ retva := 0x10100 }] } }

theorem callBase_runs : RunsNow callBase baseQ := by decide +kernel
def fetched (va : Nat) : Option TlbEnt :=
  match fetchWord callBase.sys callBase.mach baseQ.core (callBase.mach.eff baseQ.launch) va with
  | .ok _ t => t
  | _ => none
theorem callWords : CallWords callBase baseQ 0x10100 (fnHdr (BitVec.ofNat 64 fnWord)) :=
  ⟨oneWordHdr 0, BitVec.ofNat 64 fnWord, oneWordHdr 0, fetched 0x10010, fetched 0x100F8, fetched 0x10100, by decide +kernel⟩

theorem met_CallsAndReturns (c : Obligations.CallsAndReturns) :
    Runs (.callDirect ⟨0, 0, 0⟩ 31) callBase ∧ Runs (.callReg ⟨0, 0, 0⟩ (.v 2)) callBase ∧ Runs (.ret ⟨0, 0, 0⟩) callBase :=
  ⟨(c.1.1 _ 31 callBase baseQ (running_of callBase_runs) baseQ_tids ⟨by decide +kernel, _, callWords, by decide +kernel⟩).imp fun _ h => h.1,
   (c.1.2 _ (.v 2) 0x10100 callBase baseQ (running_of callBase_runs) baseQ_tids ⟨by decide +kernel, _, callWords, by decide +kernel⟩
     (by decide +kernel)).imp fun _ h => h.1,
   runs_branches (c.2 _) callBase baseQ callBase_runs baseQ_tids (by decide +kernel)
     (fun k hk => ⟨{ retva := 0x10100 }, [], (by decide +kernel : ∀ k ∈ baseQ.tids, (callBase.mach.thr k).rets = [{ retva := 0x10100 }]) k hk, rfl⟩)⟩

theorem met_ThreadsMoveSpawnAndEnd (c : Obligations.ThreadsMoveSpawnAndEnd) :
    Runs (.reform ⟨0, 0, 0⟩) base ∧ Runs (.yield ⟨0, 0, 0⟩) base ∧ Runs (.exit ⟨0, 0, 0⟩) base ∧
    Runs (.spawn ⟨0, 0, 0⟩ (.v 1) (.v 2) (.v 4) (.v 6)) (withR [(2, 0x10000), (4, 8)]) ∧ Runs (.join ⟨0, 0, 0⟩) base :=
  ⟨((c.1 _).1 base baseQ base_runs base_lasts).imp fun _ h => h.1,
   ((c.1 _).2.1 base baseQ base_runs base_noHandler).imp fun _ h => h.1,
   ((c.1 _).2.2 base baseQ base_runs base_noHandler (by decide +kernel)).imp fun _ h => h.1,
   ((c.2 _ (.v 1) (.v 2) (.v 4) (.v 6)).1 (withR [(2, 0x10000), (4, 8)]) baseQ (running_of (by decide +kernel))
     (by simp only [NoHandler]; decide +kernel) (by simp only [DestFits]; decide +kernel) (by decide +kernel) (by decide +kernel)
     (by decide +kernel)).imp fun _ h => h.1,
   ((c.2 _ .zero .zero .zero .zero).2 base baseQ base_runs base_noHandler baseQ_tids (by decide +kernel)).imp fun _ h => h.1⟩

/-- The base's thread with a released arrival of its own at wave barrier 3. -/
def releasedBase : State := withT fun t => { t with bars := [{ level := 0, num := 3, phase := .released, count := 1, own := true }] }

theorem met_BarriersComplete (c : Obligations.BarriersComplete) :
    Runs (.bara ⟨0, 0, 0⟩ 0 3 (.imm 4)) base ∧ Runs (.bar ⟨0, 0, 0⟩ 0 3 (.imm 1)) releasedBase ∧ Runs (.barw ⟨0, 0, 0⟩ 0 3) base :=
  ⟨((c _ 0 3 (.imm 4) 4).1 base baseQ base_runs (by decide +kernel) (by decide +kernel) (by decide +kernel)
     (fun p hp => ⟨(by decide +kernel : ∀ p ∈ baseQ.active, (barOperand (base.mach.thr p.2) (base.mach.fr p.1) (.imm 4)).1 = 4) p hp,
       (by decide +kernel : ∀ p ∈ baseQ.active, (base.mach.thr p.2).bar? 0 3 = none) p hp,
       fun x hx => absurd (((by decide +kernel : ∀ p ∈ baseQ.active, base.mach.unitCount (base.mach.thr p.2) 0 3 = none)
         p hp).symm.trans hx) (fun e => nomatch e)⟩)).imp fun _ h => h.1,
   ((c _ 0 3 (.imm 1) 1).2.1 releasedBase baseQ (running_of (by decide +kernel)) (by simp only [Lasting]; decide +kernel)
     (by decide +kernel) (fun k hk => .inr ⟨{ level := 0, num := 3, phase := .released, count := 1, own := true },
       (by decide +kernel : ∀ k ∈ baseQ.tids, (releasedBase.mach.thr k).bar? 0 3 =
         some { level := 0, num := 3, phase := .released, count := 1, own := true }) k hk, rfl, rfl⟩)).imp fun _ h => h.1,
   ((c _ 0 3 (.imm 1) 1).2.2 base baseQ base_runs base_lasts (by decide +kernel)
     (fun k hk => .inl ⟨(by decide +kernel : ∀ k ∈ baseQ.tids, (base.mach.thr k).bar? 0 3 = none) k hk, trivial⟩)).imp fun _ h => h.1⟩

/-- The base after a `trap 5`; with its handler bound; that handler's quarter as the current one. -/
def trapped : State := after (.trap ⟨0, 0, 0⟩ 5) base
def group1 (s : State) : TrapGroup := s.mach.traps.headD
  { id := 0, core := 0, launch := 0, cause := 0, pc := 0, hdr := none, flag := 0, members := [], resume := [] }
def queued : State := (nextOf (execTrapEntry (group1 trapped).id trapped)).getD trapped
def bound : State := (nextOf (execAlcoveBind 0 queued)).getD queued
def hQ : Quarter := (bound.mach.quarters.find? fun q => q.handler.isSome).getD baseQ
def hBase : State := { bound with mach := { bound.mach with cur := hQ.id } }

theorem hBase_runs : RunsNow hBase hQ := by decide +kernel

theorem met_SoftwareTraps (c : Obligations.SoftwareTraps) :
    Runs (.trap ⟨0, 0, 0⟩ 5) base ∧ Runs (.brk ⟨0, 0, 0⟩ 5) base ∧ Runs (.trap ⟨0, 0, 0⟩ 5) hBase :=
  ⟨((c _ 5).1.1 base baseQ base_runs baseQ_tids (by decide +kernel)).imp fun _ h => h.1,
   ((c _ 5).2.1 base baseQ base_runs baseQ_tids (by decide +kernel)).imp fun _ h => h.1,
   ((c _ 5).1.2 hBase hQ hBase_runs (by decide +kernel) (by decide +kernel)).imp fun _ h => h.1⟩

/-- The same trap without a handler; a quarter that has waited longer than its limit at a counter. -/
def unhandled : State := { trapped with mach := { trapped.mach with
  launches := trapped.mach.launches.map fun l => { l with eff := { l.eff with traph := 0 } } } }
def waitedQ : Quarter := { baseQ with wait := some (.counter [(0, 1)]) }
def waited : State := withM fun m => { m with cycle := 2000, quarters := [waitedQ]
                                              launches := m.launches.map fun l => { l with eff := { l.eff with wdog := 1 } }
                                              threads := m.threads.map fun t => { t with waitSince := some 0 } }

theorem met_TrapEntryAndBind (c : Obligations.TrapEntryAndBind) :
    Runs (.trapEntry (group1 trapped).id) trapped ∧ Runs (.trapEntry (group1 trapped).id) unhandled ∧
    Runs (.alcoveBind 0) queued ∧ Runs (.watchdogExpire baseT.id) waited :=
  ⟨runs_steps (c.1 (group1 trapped).id (group1 trapped)) trapped (by decide +kernel) (by decide +kernel),
   runs_stepsTo (c.2.1 (group1 trapped).id (group1 unhandled)) unhandled (by decide +kernel) (by decide +kernel),
   runs_stepsTo (c.2.2.1 0 (group1 queued)) queued (by decide +kernel) (by decide +kernel),
   runs_stepsTo (c.2.2.2 baseT.id waitedQ) waited (by decide +kernel) ⟨by decide +kernel, ⟨_, rfl⟩, by decide +kernel, by decide +kernel, fun k hk =>
     ⟨(by decide +kernel : ∀ k ∈ waitedQ.tids, (waited.mach.thr? k).isSome = true) k hk,
      (by decide +kernel : ∀ k ∈ waitedQ.tids, (waited.mach.thr k).isHandler = false) k hk,
      (by decide +kernel : ∀ k ∈ waitedQ.tids, (waited.mach.thr k).stat ≠ .ended) k hk,
      0, (by decide +kernel : ∀ k ∈ waitedQ.tids, (waited.mach.thr k).waitSince = some 0) k hk, by decide +kernel⟩⟩⟩

/-- The thread that a handler serves. -/
theorem serving : Running hBase hQ ∧ (∃ x, hBase.mach.serves (hBase.mach.thr hQ.lowest) = some (group1 hBase, x)) ∧
    ∀ k ∈ hQ.tids, ∃ sv, (hBase.mach.thr k).served = some sv ∧ sv ∉ hQ.tids ∧ (hBase.mach.thr? sv).isSome :=
  ⟨hBase_runs, ⟨baseT.id, by decide +kernel⟩, fun k hk => ⟨baseT.id,
    (by decide +kernel : ∀ k ∈ hQ.tids, (hBase.mach.thr k).served = some baseT.id ∧ baseT.id ∉ hQ.tids ∧
      (hBase.mach.thr? baseT.id).isSome = true) k hk⟩⟩

theorem hBase_serves {P : Nat → Prop} (h : P baseT.id) : ∀ k ∈ hQ.tids, ∀ sv, (hBase.mach.thr k).served = some sv → P sv :=
  fun k hk sv e => by
    have := (by decide +kernel : ∀ k ∈ hQ.tids, (hBase.mach.thr k).served = some baseT.id) k hk
    rw [this] at e
    exact Option.some.inj e ▸ h

theorem met_HandlersReturn (c : Obligations.HandlersReturn) :
    Runs (.tret ⟨0, 0, 0⟩) hBase ∧ Runs (.tretEnd ⟨0, 0, 0⟩) hBase ∧ Runs (.csave ⟨0, 0, 0⟩ (.v 3) (.v 1)) hBase ∧
    Runs (.crest ⟨0, 0, 0⟩ (.v 1) (.v 2)) hBase :=
  ⟨((c _ .zero .zero .zero).1 hBase hQ (group1 hBase) serving (by decide +kernel) (by decide +kernel)
     (hBase_serves (by decide +kernel))).imp fun _ h => h.1,
   ((c _ .zero .zero .zero).2.1 hBase hQ (group1 hBase) serving (by decide +kernel)).imp fun _ h => h.1,
   ((c _ (.v 3) (.v 1) .zero).2.2.1 hBase hQ (group1 hBase) serving (by simp only [DestFits]; decide +kernel)
     (fun p hp => ⟨(by decide +kernel : ∀ p ∈ hQ.active, bits ((hBase.mach.thr p.2).rd (hBase.mach.fr p.1) (.v 1)).toNat 16 8 = 0) p hp,
       fun sv e => .inl ((by decide +kernel : ∀ p ∈ hQ.active, bits ((hBase.mach.thr p.2).rd (hBase.mach.fr p.1) (.v 1)).toNat 24 8 = 0 ∧
         bits ((hBase.mach.thr p.2).rd (hBase.mach.fr p.1) (.v 1)).toNat 0 16 < 128) p hp |>.imp id fun h => by
           have e' := (by decide +kernel : ∀ p ∈ hQ.active, (hBase.mach.thr p.2).served = some baseT.id) p hp
           rw [e'] at e
           rw [← Option.some.inj e]
           exact Nat.lt_of_lt_of_le h (by decide +kernel))⟩)).imp fun _ h => h.1,
   ((c _ .zero (.v 1) (.v 2)).2.2.2 hBase hQ (group1 hBase) (hQ.tids.headD 0) baseT.id serving (by decide +kernel) (by decide +kernel)
     (by decide +kernel) (by decide +kernel)).imp fun _ h => h.1⟩

end Sys2Proof.Tests
end

