-- ==== Sys2Proof/Tests/Met5.lean ====
section
/-! SUPPORT. Of each claim about accesses, landing, scheduling, barriers and fault queues: a concrete state that meets its hypotheses. -/

namespace Sys2Proof.Tests

set_option Elab.async false
open Sys2Proof.Machine

/-- One operation of the base's thread, of an instruction in flight. -/
def theOp (k : OpKind) (len : Nat) : PendOp :=
  { oid := 101, uid := 100, kind := k, loc := fetchFrame + 0x4000, len := len, loc2 := fetchFrame + 0x5000, len2 := len, va := 0x14000 }
def theFlight (i : Instr) : Flight :=
  { uid := 100, iss := 100, owner := baseT.id, tids := [baseT.id], qid := baseQ.id, core := 0, launch := baseT.launch, instr := i
    pc := 0x10008, hdr := none }
def opBase (k : OpKind) (len : Nat) (i : Instr) : State := withM fun m =>
  { m with next := 200, flights := [theFlight i], threads := m.threads.map fun t => { t with pend := [theOp k len] }
           copies := [{ core := 0, fdom := 0, line := 0x500, bytes := List.replicate 64 7 }] }

def theLd : Instr := .ld ⟨0, 0, 0⟩ .b32 false .d (.v 8) (.v 2) 0
def theAtom : Instr := .atom ⟨0, 0, 0⟩ .add .i32 .d (.v 8) (.v 2) (.v 6)

/-- A move of a tile that has been tried eight times: its metadata word lies 64 bytes below. -/
def heldMove : PendOp := { theOp .move 64 with tries := 8, parts := [(0x13FC0, fetchFrame + 0x3FC0, 8)] }
def heldBase : State := withM fun m =>
  { m with next := 200, flights := [theFlight theLd], threads := m.threads.map fun t => { t with pend := [heldMove] } }

theorem met_AccessesPerform (c : Obligations.AccessesPerform) :
    Runs (.accessPerform baseT.id 101 false) (opBase (.store [1, 2, 3, 4]) 4 theLd) ∧
    Runs (.accessPerform baseT.id 101 false) (opBase (.load false) 4 theLd) ∧
    Runs (.accessPerform baseT.id 101 true) (opBase (.load true) 4 theLd) ∧
    Runs (.accessPerform baseT.id 101 false) (opBase (.atom .add .i32 5 0) 4 theAtom) ∧
    Runs (.accessPerform baseT.id 101 false) (opBase (.red .min .b64 5) 8 theLd) ∧
    Runs (.accessPerform baseT.id 101 false) (opBase (.fence true true) 0 theLd) ∧
    Runs (.accessPerform baseT.id 101 false) (opBase .move 64 theLd) ∧ Runs (.accessPerform baseT.id 101 false) heldBase :=
  ⟨runs_stepsTo ((c _ _ false (theOp (.store [1, 2, 3, 4]) 4) (theFlight theLd)).1 [1, 2, 3, 4]) _ (by decide +kernel)
     ⟨rfl, by simp only [PerformsNext]; decide +kernel, rfl, rfl, by decide +kernel⟩,
   runs_stepsTo ((c _ _ false (theOp (.load false) 4) (theFlight theLd)).2.1 ⟨0, 0, 0⟩ .b32 false .d (.v 8) (.v 2) 0) _ (by decide +kernel)
     ⟨rfl, by simp only [PerformsNext]; decide +kernel, rfl, rfl, by decide +kernel⟩,
   runs_stepsTo ((c _ _ true (theOp (.load true) 4) (theFlight theLd)).2.2.1 ⟨0, 0, 0⟩ .b32 false .d (.v 8) (.v 2) 0
       { core := 0, fdom := 0, line := 0x500, bytes := List.replicate 64 7 }) _ (by decide +kernel)
     ⟨rfl, by simp only [PerformsNext]; decide +kernel, rfl, rfl, by decide +kernel, by decide +kernel⟩,
   runs_stepsTo ((c _ _ false (theOp (.atom .add .i32 5 0) 4) (theFlight theAtom)).2.2.2.1 .add .i32 5 0 ⟨0, 0, 0⟩ .d (.v 8) (.v 2) (.v 6)) _
     (by decide +kernel) ⟨rfl, by simp only [PerformsNext]; decide +kernel, rfl, rfl, by decide, by decide, by decide +kernel, rfl⟩,
   runs_stepsTo ((c _ _ false (theOp (.red .min .b64 5) 8) (theFlight theLd)).2.2.2.2.1 .min .b64 5) _
     (by decide +kernel) ⟨rfl, by simp only [PerformsNext]; decide +kernel, rfl, rfl, by decide, by decide, by decide +kernel⟩,
   runs_stepsTo ((c _ _ false (theOp (.fence true true) 0) (theFlight theLd)).2.2.2.2.2.1 true true) _
     (by decide +kernel) ⟨rfl, by simp only [PerformsNext]; decide +kernel, rfl⟩,
   runs_stepsTo (c _ _ false (theOp .move 64) (theFlight theLd)).2.2.2.2.2.2.1 _
     (by decide +kernel) ⟨rfl, by simp only [PerformsNext]; decide +kernel, rfl, by decide +kernel⟩,
   runs_stepsTo ((c _ _ false heldMove (theFlight theLd)).2.2.2.2.2.2.2 (fetchFrame + 0x3FC0)) heldBase (by decide +kernel)
     ⟨rfl, by simp only [PerformsNext]; decide +kernel, rfl, by decide +kernel⟩⟩

/-- A finished load of one word to register 255 under flag 12; an access of another device that is 10 ms old. -/
def landFlight : Flight := { theFlight theLd with done := true, writes := [(baseT.id, spWords (.v 255) [9])], xres := [(baseT.id, 9)], flag := 12 }
def landBase : State := withM fun m => { m with next := 200, flights := [landFlight] }
def farOp : PendOp := { theOp (.load false) 4 with loc := 2 ^ 52, sent := some (0, false) }
def farPrf : PendOp := { farOp with kind := .fetchLine true }
def prfBase : State := { base with
  sys := { base.sys with ticks := 1000000 }
  mach := { base.mach with next := 200, threads := base.mach.threads.map fun t => { t with pend := [farPrf] } } }
def farBase : State := { base with
  sys := { base.sys with ticks := 1000000 }
  mach := { base.mach with next := 200, flights := [theFlight theLd]
                           threads := base.mach.threads.map fun t => { t with pend := [farOp] } } }

theorem met_InstructionsLand (c : Obligations.InstructionsLand) :
    Runs (.instructionComplete baseT.id 100) landBase ∧ Runs (.readCacheDrop 0 0 1) base ∧ Runs (.remoteAccessTimeout baseT.id 101) farBase ∧
    Runs (.remoteAccessTimeout baseT.id 101) prfBase :=
  ⟨runs_stepsTo (c.1 100 baseT.id 255 12 [9] landFlight) landBase (by decide +kernel) (by decide +kernel),
   runs_steps (c.2.2.1 0 0 1) base base_waits trivial,
   runs_stepsTo (c.2.2.2 baseT.id 101 farOp (theFlight theLd)) farBase (by decide +kernel)
     ⟨by decide +kernel, ⟨(0, false), by decide +kernel⟩, by decide +kernel⟩,
   runs_stepsTo (c.2.1 baseT.id 101 farPrf) prfBase (by decide +kernel)
     ⟨by decide +kernel, by decide +kernel, ⟨(0, false), by decide +kernel⟩, by decide +kernel⟩⟩

/-- The base's quarter in the gallery, alone and as one of a ganged wave; one that waits at a counter; quarters that fill the four slices, of which the first may leave. -/
def galleryQ : Quarter := { baseQ with slice := none }
def galleryBase : State := withM fun m => { m with quarters := [galleryQ] }
def gangQ : Quarter := { galleryQ with gang := some 500 }
def gangBase : State := withM fun m => { m with quarters := [gangQ] }
def waitingQ : Quarter := { baseQ with wait := some (.counter [(0, 1)]) }
def waitingBase : State := withM fun m => { m with quarters := [waitingQ] }
def evictQ : Quarter := { waitingQ with id := 60, slots := [], slice := some 0, rg := 2048 }
def fullBase : State := withM fun m =>
  { m with cycle := 1000, quarters := [galleryQ, evictQ, { evictQ with id := 61, slice := some 1 }, { evictQ with id := 62, slice := some 2 },
                                       { evictQ with id := 63, slice := some 3 }] }

theorem met_QuartersAreScheduled (c : Obligations.QuartersAreScheduled) :
    Runs (.issuePick 0) base ∧ Runs (.shuttleLoad 0) galleryBase ∧ Runs (.shuttleLoad 0) gangBase ∧ Runs (.shuttleEvictLongWait 0 baseQ.id) waitingBase ∧
    Runs (.shuttleEvictForWaiting 0) fullBase :=
  ⟨runs_stepsTo (c.1 0 baseQ) base base_waits (by decide +kernel),
   runs_stepsTo (c.2.1 0 galleryQ) galleryBase (by decide +kernel) (by decide +kernel),
   runs_stepsTo (c.2.2.1 0 500 gangQ) gangBase (by decide +kernel) (by decide +kernel),
   runs_stepsTo (c.2.2.2.1 0 baseQ.id waitingQ (.counter [(0, 1)])) waitingBase (by decide +kernel) (by decide +kernel),
   runs_stepsTo (c.2.2.2.2 0 galleryQ evictQ) fullBase (by decide +kernel) (by decide +kernel)⟩

/-- A glade that is overdue, of threads or of gather callers; calls that wait for frames. -/
def theGlade : Glade := { id := 70, core := 0, launch := baseT.launch, pc := 0x10000, rg := 256, gather := false, threads := [(baseT.id, 0)] }
def gladeBase : State := withM fun m => { m with cycle := 257, quarters := [], glades := [theGlade] }
def theCall (gather : Bool) : Call :=
  { id := 80, core := 0, launch := baseT.launch, caller := baseT.id, gather := gather, w := 4, k := 0, f := 16, argc := 0, retc := 0
    red := 0, age := 256, grant := 0, entry := 0x10000, sites := [(baseT.id, { pc := 0x10008, hdr := none, x0 := .undef, x1 := .undef, c := [] })], callers := [baseT.id], waiting := true }
def callsBase (gather : Bool) : State := withM fun m => { m with calls := [theCall gather] }
def gatherGlade : State := withM fun m =>
  { m with cycle := 257, quarters := [], calls := [{ theCall true with waiting := false, callers := [] }]
           glades := [{ theGlade with gather := true, call := 80 }] }

/-- An arrival on its way, to a node of its own, to one that another unit has reached, or to another device; a saved region. -/
def arrival (n : Nat) : BarMsg := { level := 1, place := 0, num := 3, unit := 0, count := n, launch := baseT.launch, ph := 0, root := 0 }
def theNode (n : Nat) (us : List (Nat × Nat)) : BarNode := { level := 1, place := 0, num := 3, launch := baseT.launch, count := n, units := us }
def farArrival : BarMsg := { arrival 2 with level := 4, root := 1 }
def arriving (b : BarMsg) (bars : List BarNode) : State := withM fun m => { m with cycle := 5, barMsgs := [b], bars := bars }
def farArriving : State := { arriving farArrival [] with sys := { base.sys with routes := [(1, { v := true })] } }
def savedBase : State := withM fun m =>
  { m with preempts := [{ rcb := (m.launch baseT.launch).rcb, reason := 1, since := 0, stage := 2 }] }

theorem met_GladesFramesBarriers (c : Obligations.GladesFramesBarriers) :
    Runs (.gladeAgeExpire 70) gladeBase ∧ Runs (.gladeAgeExpire 70) gatherGlade ∧
    Runs (.widenFrameGrant 80) (callsBase false) ∧ Runs (.gatherFrameGrant 80) (callsBase true) ∧
    Runs .barrierArrivalNode (arriving (arrival 2) []) ∧ Runs .barrierArrivalNode (arriving (arrival 3) [theNode 3 [(9, 0)]]) ∧
    Runs .barrierArrivalNode (arriving (arrival 1) []) ∧ Runs .barrierArrivalNode (arriving (arrival 3) [theNode 5 [(9, 0)]]) ∧
    Runs .barrierArrivalNode farArriving ∧ Runs (.barrierRelease baseT.id) base ∧
    Runs (.barrierRelease baseT.id) savedBase :=
  ⟨runs_stepsTo (c.1.1 70 theGlade) gladeBase (by decide +kernel) (by decide +kernel),
   runs_stepsTo (c.1.2.1 70 { theGlade with gather := true, call := 80 } { theCall true with waiting := false, callers := [] }) gatherGlade
     (by decide +kernel) (by decide +kernel),
   runs_stepsTo (c.1.2.2.1 80 (theCall false)) (callsBase false) (by decide +kernel) (by decide +kernel),
   runs_stepsTo (c.1.2.2.2 80 (theCall true)) (callsBase true) (by decide +kernel) (by decide +kernel),
   runs_stepsTo (c.2.1 (arrival 2) (theNode 2 [])) _ (by decide +kernel) (by decide +kernel),
   runs_stepsTo (c.2.1 (arrival 3) (theNode 3 [(9, 0)])) _ (by decide +kernel) (by decide +kernel),
   runs_stepsTo (c.2.2.1 (arrival 1) (theNode 1 [])) _ (by decide +kernel) (by decide +kernel),
   runs_stepsTo (c.2.2.2.1 (arrival 3) (theNode 5 [(9, 0)])) _ (by decide +kernel) (by decide +kernel),
   runs_stepsTo (c.2.2.2.2.1 farArrival) farArriving (by decide +kernel) (by decide +kernel),
   runs_stepsTo (c.2.2.2.2.2.1 baseT.id) base base_waits (by decide +kernel),
   runs_steps (c.2.2.2.2.2.2 baseT.id) savedBase (by decide +kernel) (by decide +kernel)⟩

/-- A fault domain with an empty queue of 16 entries, a waiting post, and later the served record of its entry. -/
def theDom : FaultDom := { fdom := 3, base := fetchFrame + 0x8000, log2 := 4, accepted := 0, invSeen := 0, used := true }
def theSump : SumpRec :=
  { id := 90, core := 0, fdom := 3, page := 1, cause := 0x21, lock := false, kind := 0, level := 2, fetch := false, write := false
    va := 0x20000, rcb := 0, threads := [baseT.id] }
def thePost : FaultPost :=
  { fdom := 3, owner := .sump 90, cause := 0x21, kind := 0, level := 2, fetch := false, write := false, nthr := 1, core := 0, rcb := 0
    va := 0x20000 }
def postBase : State := withM fun m =>
  { m with doms := [theDom], sump := [theSump], posts := [thePost]
           threads := m.threads.map fun t => { t with stat := .parked 90 } }
def servedSump : SumpRec := { theSump with seq := some 0 }
def servedBase : State := withM fun m =>
  { m with doms := [{ theDom with seen := [(0, 0, 1)] }], sump := [servedSump], quarters := []
           mem := m.mem.put (fetchFrame + 0x8000) [1], threads := m.threads.map fun t => { t with stat := .parked 90 } }
def invBase : State := withM fun m => { m with doms := [{ theDom with seen := [(1, 2 ^ 63, 0)] }] }
def invDone : State := withM fun m => { m with doms := [{ theDom with inv := some (1, 2 ^ 63) }] }

def fullQueue : State := { postBase with mach := { postBase.mach with mem := postBase.mach.mem.put (fetchFrame + 0x8000) [16] } }
def failedBase : State := { servedBase with mach := { servedBase.mach with
  mem := servedBase.mach.mem.put (fetchFrame + 0x8059) [1, 0x22] } }
def invWaits : State := { opBase (.load false) 4 theLd with mach := { (opBase (.load false) 4 theLd).mach with
  doms := [{ theDom with inv := some (1, 2 ^ 63), waits := [101] }] } }

theorem met_FaultQueues (c : Obligations.FaultQueues) :
    Runs (.faultEntryPost 3) postBase ∧ Runs (.faultEntryPost 3) fullQueue ∧ Runs (.faultQueueHeaderStore 3) servedBase ∧
    Runs (.faultQueueHeaderStore 3) failedBase ∧ Runs (.faultQueueHeaderStore 3) invBase ∧ Runs (.invalidationDone 3) invWaits ∧
    Runs (.invalidationDone 3) invDone :=
  ⟨runs_stepsTo (c.1 3 theDom thePost thePost) postBase (by decide +kernel) (by decide +kernel),
   runs_steps (c.2.1 3 theDom thePost thePost) fullQueue (by decide +kernel) (by decide +kernel),
   runs_stepsTo (c.2.2.1 3 { theDom with seen := [(0, 0, 1)] } servedSump 0 0 1) servedBase (by decide +kernel) (by decide +kernel),
   runs_stepsTo (c.2.2.1 3 { theDom with seen := [(0, 0, 1)] } servedSump 0 0 1) failedBase (by decide +kernel) (by decide +kernel),
   runs_stepsTo (c.2.2.2.2.2.1 3 { theDom with seen := [(1, 2 ^ 63, 0)] } 1 (2 ^ 63) 0) invBase (by decide +kernel) (by decide +kernel),
   runs_steps (c.2.2.2.2.2.2.1 3 { theDom with inv := some (1, 2 ^ 63), waits := [101] }) invWaits (by decide +kernel) (by decide +kernel),
   runs_stepsTo (c.2.2.2.2.2.2.2 3 { theDom with inv := some (1, 2 ^ 63) } 1 (2 ^ 63)) invDone (by decide +kernel) (by decide +kernel)⟩

/-- The record has its answer: its thread goes on, or takes 0x22. -/
def answered (ans : Option Nat) : Mach := { servedBase.mach with sump := [{ servedSump with answer := some ans }] }
def parkedT : Thread := (answered none).thr baseT.id

theorem met_FaultQueues_answers (c : Obligations.FaultQueues) :
    (∃ f ∈ (answered none).resumeServed.filing, f.tid = baseT.id ∧ f.pc = parkedT.pc) ∧
    (∃ g ∈ (answered (some 0x22)).resumeServed.traps, g.cause = 0x22) ∧
    ∃ t, step { base with agenda := [.tick 1] } = .next t :=
  ⟨(c.2.2.2.2.1 (answered none) { servedSump with answer := some none } parkedT none rfl rfl (by decide) rfl rfl (by decide +kernel)
      (by decide +kernel) (by decide +kernel) (by decide +kernel)).2.2.2.2.2.2,
   (c.2.2.2.2.1 (answered (some 0x22)) { servedSump with answer := some (some 0x22) } parkedT (some 0x22) rfl rfl (by decide) rfl rfl
      (by decide +kernel) (by decide +kernel) (by decide +kernel) (by decide +kernel)).2.2.2.2.2.imp fun _ h => ⟨h.1, h.2.1⟩,
   ⟨_, c.2.2.2.1 { base with agenda := [.tick 1] } 1 [] rfl rfl⟩⟩

end Sys2Proof.Tests
end

