-- ==== Sys2Proof/Tests/Met6.lean ====
section
/-! SUPPORT. Of each claim about launches, pre-emption, engines and system calls: a concrete state that meets its hypotheses. -/

namespace Sys2Proof.Tests

set_option Elab.async false
open Sys2Proof.Machine

def baseL : Launch := base.mach.launches.headD {}
def baseW : Wave := base.mach.waves.headD { id := 0, launch := 0, number := 0, qpw := 0, regs := 0, scr := 0, entry := 0, arg := 0, baseTid := 0, since := 0 }

/-- A root block at this location, with grove 0, and a record that names it and a kernel header at 0x10000. -/
def rcbAt : Nat := Config.cavernBase + 0x20000
def rcbBlock : Nat := 2 ^ 127 + 0x1FFF * 2 ^ 96 + 2 ^ 128 + 124 * 2 ^ 336 + 256 * 2 ^ 352 + 64 * 2 ^ 368 + 4 * 2 ^ 448 + 4 * 2 ^ 512
def header : Nat := 0x314B5143 + 3 * 2 ^ 32 + 8 * 2 ^ 40 + 64 * 2 ^ 64 + 128 * 2 ^ 96
def record : Nat := rcbAt + 0x10000 * 2 ^ 64 + 0x1234 * 2 ^ 128 + 77 * 2 ^ 320 + 2 ^ 384 + 0xFFFF * 2 ^ 448 + 0xFFFF * 2 ^ 464

/-- The base with a queued record, its block, its kernel header, and a translation for the launch port. -/
def posted (r : Nat) : State :=
  { base with
    sys := { base.sys with dies := List.replicate 4 (.run 0) }
    mach := { base.mach with
      mem := ((base.mach.mem.put rcbAt (toBytes rcbBlock 128)).put fetchFrame (toBytes header 64)).put (fetchFrame + 64) (toBytes (oneWordHdr 0).toNat 8)
      tlbs := [{ core := portCore, fdom := 0, page := 1, shift := 16, attr := 7, frame := fetchFrame }]
      lports := modAt base.mach.lports 0 fun l => { l with queue := [toBytes r 256] } } }

def region1 : List (Nat × Eff) := ((posted record).mach.region rcbAt).getD []
def eff1 : Eff := (region1.headD (0, {})).2

/-- Its port full; its wave placed nowhere yet; its launch with all waves out and a record to write. -/
def full : State := withM fun m => { m with lports := modAt m.lports 0 fun l => { l with queue := List.replicate 32 [] } }
def undispatched : State :=
  { base with
    sys := { base.sys with dies := List.replicate 4 (.run 0) }
    mach := { base.mach with waves := [{ baseW with core := none }], quarters := [], threads := [] } }
def leaving : State := withM fun m =>
  { m with
    bound := [(0, 1)]
    tlbs := [{ core := portCore, fdom := 0, page := 1, shift := 16, attr := 7, frame := fetchFrame }]
    waves := m.waves.map fun w => { w with exited := true }
    launches := m.launches.map fun l => { l with chain := [(0, l.eff)], cplva := 0x10100, donectr := 3, tag := 77 } }
def leavingL : Launch := leaving.mach.launches.headD {}

theorem met_LaunchesRun (c : Obligations.LaunchesRun) :
    Runs (.lpPost 0) base ∧ Runs (.lpPost 0) full ∧ Runs (.lpStsFullClear 0) full ∧ Runs (.lpKill 0 0) base ∧ Runs (.lpKill 0 5) base ∧
    Runs (.launchAccept 0) (posted 0) ∧ Runs (.launchAccept 0) (posted record) ∧ Runs (.launchRetire leavingL.id) leaving ∧
    Runs (.waveDispatch 0) undispatched :=
  ⟨runs_stepsTo (c.1 0) base base_waits (by decide +kernel),
   runs_steps (c.2.1 0) full (by decide +kernel) (by decide +kernel),
   runs_steps (c.2.2.1 0) full (by decide +kernel) trivial,
   runs_stepsTo (c.2.2.2.1 0 0 baseL) base base_waits (by decide +kernel),
   runs_steps (c.2.2.2.2.1 0 5) base base_waits (by decide +kernel),
   runs_stepsTo (c.2.2.2.2.2.1 0 (toBytes 0 256) []) (posted 0) (by decide +kernel) (by decide +kernel),
   runs_stepsTo (c.2.2.2.2.2.2.1 0 (toBytes record 256) [] rcbAt eff1 [] header) (posted record) (by decide +kernel) (by decide +kernel),
   runs_stepsTo (c.2.2.2.2.2.2.2.1 leavingL (fetchFrame + 0x100)) leaving (by decide +kernel) (by decide +kernel),
   runs_stepsTo (c.2.2.2.2.2.2.2.2 0 (undispatched.mach.waves.headD baseW) 0) undispatched (by decide +kernel) (by decide +kernel)⟩

/-- The base's region with a save area; asked for; quiet; drained; saved; with a domain barrier; wanted by a higher launch. -/
def savable : State := withM fun m => { m with launches := m.launches.map fun l => { l with eff := { l.eff with saveva := 0x20000 } } }
def savableL : Launch := savable.mach.launches.headD {}
def asked (p : Preempt) (f : Mach → Mach) : State := { savable with mach := f { savable.mach with preempts := [p] } }
def wish : Preempt := { rcb := 0, reason := 2, since := 0 }
def quietLane : Lane := { launch := baseL.id, since := some 0 }
def quiet : State := asked wish fun m => { m with cycle := 200, quarters := [], lanes := [quietLane] }
def sweeping : State := { quiet with mach := { quiet.mach with
  launches := quiet.mach.launches.map fun l => { l with dombar := 1 },
  bars := [{ level := 5, place := 0, num := 0, launch := baseL.id, count := 2, remote := [(1, 0)] }] } }
def tokened : State := { base with sys := { base.sys with
  fports := modAt base.sys.fports 0 fun p => { p with inq := [(0, ⟨1, 0, 0, 0, .drainToken 0 true [1]⟩)] } } }
def highL : Launch := { baseL with id := 50, rcb := 0x400, eff := { baseL.eff with prio := 3 }, order := 0 }
def highW : Wave := { baseW with id := 51, launch := 50, core := none }
def wanted : State := { savable with mach := { savable.mach with
  cycle := 20000, launches := [savableL, highL], waves := [baseW, highW] } }

theorem met_RegionsPreempted (c : Obligations.RegionsPreempted) :
    Runs (.preemptWrite 0) savable ∧ Runs (.preemptWrite 1) savable ∧ Runs (.quiescenceDrainDetect baseL.id) (asked wish id) ∧
    Runs (.quiescenceDrainDetect baseL.id) quiet ∧ Runs (.drainSweepToken 0) tokened ∧ Runs (.drainSweepToken baseL.id) sweeping ∧
    Runs (.dispatchPreemptRequest 0) wanted ∧ Runs (.preemptSave 0) (asked { wish with drained := [baseL.id] } fun m => { m with quarters := [] }) ∧
    Runs (.regionResume 0) (asked { wish with stage := 2 } id) ∧ Runs (.regionResume 0) (asked { wish with stage := 3 } id) :=
  ⟨runs_stepsTo (c.1 0 savableL []) savable (by decide +kernel) (by decide +kernel),
   runs_steps (c.2.1 1) savable (by decide +kernel) (by decide +kernel),
   runs_steps (c.2.2.1 savableL wish).1 (asked wish id) (by decide +kernel) (by decide +kernel),
   runs_steps ((c.2.2.1 savableL wish).2 quietLane 0) quiet (by decide +kernel) (by decide +kernel),
   runs_steps (c.2.2.2.1 0 0 0 true 1 []) tokened (by decide +kernel) (by decide +kernel),
   runs_stepsTo (c.2.2.2.2.1 baseL.id 0 1 [] quietLane) sweeping (by decide +kernel) (by decide +kernel),
   runs_stepsTo (c.2.2.2.2.2.1 0 highW savableL savableL []) wanted (by decide +kernel) (by decide +kernel),
   runs_stepsTo (c.2.2.2.2.2.2.1 0 { wish with drained := [baseL.id] }) (asked { wish with drained := [baseL.id] } fun m => { m with quarters := [] })
     (by decide +kernel) ⟨by decide +kernel, by decide +kernel, by decide +kernel, by decide +kernel, by decide +kernel, nofun⟩,
   runs_stepsTo (c.2.2.2.2.2.2.2.1 0 { wish with stage := 2 } [(.wave baseW.id, 0)]) (asked { wish with stage := 2 } id) (by decide +kernel)
     (by decide +kernel),
   runs_stepsTo (c.2.2.2.2.2.2.2.2 0 { wish with stage := 3 }) (asked { wish with stage := 3 } id) (by decide +kernel) (by decide +kernel)⟩

/-- The base with one engine operation on core 0, formats in slots 0 and 2, and bytes at 0x18000. -/
def eng (kind : EngKind) (stage i : Nat) (nums : List Nat) : EngOp :=
  { id := 90, core := 0, kind := kind, poster := baseT.id, wave := baseW.id, launch := baseL.id, fdom := 0, rcb := 0, stamp := 0,
    scrBase := 0, scrLen := 65536, stage := stage, i := i, nums := nums }
def engBase (e : EngOp) (n : Nat) (rs : List Ring) : State := withM fun m =>
  { m with
    engines := [e], rings := rs, mem := m.mem.put (fetchFrame + 0x8000) (toBytes n 128)
    launches := m.launches.map fun l => { l with fslots := [0, 0x100000, 0xD000000] } }
def ringIn (st : SlotSt) : Ring :=
  { core := 0, num := 1, launch := baseL.id, owner := baseW.id, drain := st == .full, slotOff := 0, slotBytes := 64, nprod := 1,
    prods := [0], slots := List.replicate 2 { st := st } }

/-- Layout records: a fill and a drain of 128 bytes at 0x14000 with slots of 64 and 128 bytes. -/
def fillRec : Nat := 0x14000 + 128 * 2 ^ 64 + 2 ^ 96 + 2 ^ 128 + 2 ^ 232 + 2 * 2 ^ 240 + 2 ^ 264 + 2 ^ 288
def drainRec : Nat := fillRec + 2 ^ 264 + 2 ^ 280
def cpyE (len : Nat) : EngOp := eng (.cpy false false 0x15000 0x14000 len 0xFFFF) 0 1 []
def farCpy : EngOp := eng (.cpy false false 0x25000 0x14000 256 0xFFFF) 0 1 []
def farCopy : State := { engBase farCpy 0 [] with
  sys := { base.sys with routes := [(1, { v := true })] }
  mach := { (engBase farCpy 0 []).mach with
  tlbs := (engBase farCpy 0 []).mach.tlbs ++ [{ core := 0, fdom := 0, page := 2, shift := 16, attr := 23, frame := remLoc 1 Config.cavernBase }] } }
def line (a : Nat) : List ELoc := (List.range 64).map fun j => (fetchFrame + a + j, 7, 0x10000 + a + j)

theorem met_CopiesAndStreamsStep (c : Obligations.CopiesAndStreamsStep) :
    Runs (.engineStep 0 0) farCopy ∧ Runs (.engineStep 0 0) (engBase (cpyE 256) 0 []) ∧ Runs (.engineStep 0 0) (engBase (cpyE 128) 0 []) ∧
    Runs (.engineStep 0 2) (engBase (eng (.stream 0 0x18000) 0 0 []) fillRec []) ∧
    Runs (.streamFillStep 0 0) (engBase (eng (.stream 0 0x18000) 1 0 [fillRec, 0, 0]) 0 [ringIn .empty]) ∧
    Runs (.streamFillStep 0 0) (engBase (eng (.stream 0 0x18000) 1 0 [fillRec, 1, 0]) 0 [ringIn (.held 0)]) ∧
    Runs (.streamDrainStep 0 0) (engBase (eng (.stream 0 0x18000) 1 0 [drainRec, 0, 0]) 0 [ringIn .full]) ∧
    Runs (.streamDrainStep 0 0) (engBase (eng (.stream 0 0x18000) 1 0 [drainRec, 1, 0]) 0 [ringIn .full]) :=
  ⟨runs_stepsTo (c.1 farCpy false false 0x25000 0x14000 256 0xFFFF (fetchFrame + 0x4040, 7, 0x14040) (remLoc 1 (Config.cavernBase + 0x5040), 23, 0x25040)).1
     farCopy (by decide +kernel) (by dsimp only [Sound]; and_intros <;> decide +kernel),
   runs_stepsTo (c.1 (cpyE 256) false false 0x15000 0x14000 256 0xFFFF (fetchFrame + 0x4040, 7, 0x14040) (fetchFrame + 0x5040, 7, 0x15040)).2.1
     (engBase (cpyE 256) 0 []) (by decide +kernel)
     (by dsimp only [Sound]; and_intros <;> decide +kernel),
   runs_stepsTo (c.1 (cpyE 128) false false 0x15000 0x14000 128 0xFFFF (fetchFrame + 0x4040, 7, 0x14040) (fetchFrame + 0x5040, 7, 0x15040)).2.2
     (engBase (cpyE 128) 0 []) (by decide +kernel)
     (by dsimp only [Sound]; and_intros <;> decide +kernel),
   runs_stepsTo (c.2.1 (eng (.stream 0 0x18000) 0 0 []) 0 0x18000 fillRec (fetchFrame + 0x8000, 7, 0x18000))
     (engBase (eng (.stream 0 0x18000) 0 0 []) fillRec []) (by decide +kernel)
     (by dsimp only [Sound]; and_intros <;> decide +kernel),
   runs_stepsTo (c.2.2.1 (eng (.stream 0 0x18000) 1 0 [fillRec, 0, 0]) 0 0x18000 (ringIn .empty))
     (engBase (eng (.stream 0 0x18000) 1 0 [fillRec, 0, 0]) 0 [ringIn .empty]) (by decide +kernel)
     (by dsimp only [NearStep]; decide +kernel),
   runs_stepsTo (c.2.2.2.1 (eng (.stream 0 0x18000) 1 0 [fillRec, 1, 0]) 0 0x18000 (ringIn (.held 0)) 0 (line 0x4000))
     (engBase (eng (.stream 0 0x18000) 1 0 [fillRec, 1, 0]) 0 [ringIn (.held 0)]) (by decide +kernel)
     (by dsimp only [Sound]; and_intros <;> decide +kernel),
   runs_stepsTo (c.2.2.2.2.1 (eng (.stream 0 0x18000) 1 0 [drainRec, 0, 0]) 0 0x18000 (ringIn .full))
     (engBase (eng (.stream 0 0x18000) 1 0 [drainRec, 0, 0]) 0 [ringIn .full]) (by decide +kernel)
     (by dsimp only [NearStep]; decide +kernel),
   runs_stepsTo (c.2.2.2.2.2 (eng (.stream 0 0x18000) 1 0 [drainRec, 1, 0]) 0 0x18000 (ringIn .full) 0 (line 0x4000))
     (engBase (eng (.stream 0 0x18000) 1 0 [drainRec, 1, 0]) 0 [ringIn .full]) (by decide +kernel)
     (by dsimp only [Sound]; and_intros <;> decide +kernel)⟩

/-- Macro-ops: a well-formed `mmx` of one tile and two K-blocks, that product begun, and an `mmr` with one group. -/
def mmxDesc : Nat := 0x16000 + 0x15000 * 2 ^ 64 + 0x14000 * 2 ^ 128 + 64 * 2 ^ 224 + 64 * 2 ^ 256 + 32 * 2 ^ 288 + 2 ^ 320 + 2 ^ 336 +
  2 * 2 ^ 352 + 2 * 2 ^ 375 + 2 ^ 386 + 0xFFFF * 2 ^ 416
def mmxE (stage tile kb : Nat) : EngOp :=
  eng (.mop false 0x18000) stage 0 (if stage = 0 then [] else [mmxDesc, tile, kb, 0, 0, 0, 0, 0, 0, 0, 0, 0])
def mmrE (due : Nat) : EngOp := eng (.mop true 0x18000) 1 0 [mmxDesc + 2 ^ 432 + 0x18000 * 2 ^ 576, 0, 0, 0, 0, 0, 0, 0, due, 0, 0, 1]
def group1E : Nat := 8 * 2 ^ 192 + 0xFFFF * 2 ^ 224 + 0xFFFF * 2 ^ 240
def mmxRead (n : Nat) : EngOp := { mmxE 1 0 1 with got := List.replicate n (List.replicate 64 0) }

/-- Four quarters on four cores that have read the operands of a joint product; one that waits alone. -/
def jointF (k : Nat) : Flight :=
  { uid := 40 + k, iss := 40 + k, owner := baseT.id, tids := [baseT.id], qid := baseQ.id, core := k, launch := baseL.id,
    instr := .mmaj ⟨0, 0, 0⟩ true 0 0 (.v 0) (.v 2) 0 0, pc := baseT.pc, hdr := baseT.hdr, stage := 1, nums := [1] }
def jointSet (n : Nat) : MmajSet :=
  { id := 70, launch := baseL.id, copse := 0, lane := 0, quarter := 0, tag := 0, since := 0,
    partners := (List.range n).map fun k => { pos := k, uid := 40 + k, acc := 0, z := true, sA := 0, sB := 0 } }
def joint (n c : Nat) : State := withM fun m => { m with cycle := c, mmajs := [jointSet n], flights := (List.range n).map jointF }

theorem met_MatrixSequencersStep (c : Obligations.MatrixSequencersStep) :
    Runs (.macroOpStep 0) (engBase (mmxE 0 0 0) 0 []) ∧ Runs (.macroOpStep 0) (engBase (mmxE 0 0 0) mmxDesc []) ∧
    Runs (.macroOpStep 0) (engBase (mmxE 1 1 0) 0 []) ∧ Runs (.macroOpStep 0) (engBase (mmxRead 0) 0 []) ∧
    Runs (.macroOpStep 0) (engBase (mmxRead 39) 0 []) ∧
    Runs (.mmrStepBoundary 0) (engBase (mmrE 1) group1E []) ∧
    Runs (.mmrIdleCheck 0) { engBase (mmrE 0) group1E [] with mach := { (engBase (mmrE 0) group1E []).mach with cycle := 64 } } ∧
    Runs (.mmajJointStart 70) (joint 4 0) ∧ Runs (.mmajPartnerTimeout 70) (joint 1 5000) :=
  ⟨runs_stepsTo (c.1 (mmxE 0 0 0) false 0x18000 (fetchFrame + 0x8000, 7, 0x18000) (fetchFrame + 0x8040, 7, 0x18040)).1 (engBase (mmxE 0 0 0) 0 [])
     (by decide +kernel) (by dsimp only [Sound]; and_intros <;> decide +kernel),
   runs_stepsTo (c.1 (mmxE 0 0 0) false 0x18000 (fetchFrame + 0x8000, 7, 0x18000) (fetchFrame + 0x8040, 7, 0x18040)).2 (engBase (mmxE 0 0 0) mmxDesc [])
     (by decide +kernel) (by dsimp only [Sound]; and_intros <;> decide +kernel),
   runs_stepsTo (c.2.1 (mmxE 1 1 0) 0x18000) (engBase (mmxE 1 1 0) 0 []) (by decide +kernel)
     (by dsimp only [NearStep]; decide +kernel),
   runs_stepsTo (c.2.2.1 (mmxRead 0) 0x18000 (fetchFrame + 0x6040, 7, 0x16040) (0x16040, 64)).1 (engBase (mmxRead 0) 0 [])
     (by decide +kernel) (by dsimp only [Sound]; and_intros <;> decide +kernel),
   runs_stepsTo (c.2.2.1 (mmxRead 39) 0x18000 (fetchFrame + 0x5200, 7, 0x15200) (0x15200, 64)).2 (engBase (mmxRead 39) 0 [])
     (by decide +kernel) (by dsimp only [Sound]; and_intros <;> decide +kernel),
   runs_stepsTo (c.2.2.2.1 (mmrE 1) 0x18000 (fetchFrame + 0x8000, 7, 0x18000)) (engBase (mmrE 1) group1E [])
     (by decide +kernel) (by dsimp only [Sound]; and_intros <;> first | decide +kernel | (intro need; cases need <;> decide +kernel)),
   runs_steps (c.2.2.2.2.1 (mmrE 0) 0x18000) _ (by decide +kernel) (by decide +kernel),
   runs_stepsTo (c.2.2.2.2.2.1 70 (jointSet 4)) (joint 4 0) (by decide +kernel) (by decide +kernel),
   runs_stepsTo (c.2.2.2.2.2.2 70 (jointSet 1)) (joint 1 5000) (by decide +kernel) (by decide +kernel)⟩

/-- System-call queue 0 enabled, in three stages of one call of the base's thread. -/
def sysBase (q : SysQ) (st : TStat) : State := withM fun m =>
  { m with sysqs := modAt m.sysqs 0 fun _ => q, threads := m.threads.map fun t => { t with stat := st } }
def queue0 : SysQ := { base := fetchFrame + 0x8000, en := true, log2 := 4 }
def callWaits : State := sysBase { queue0 with waiting := [(baseT.id, 9, 15)] } (.syscall 0 none)
def callPosted : State := sysBase { queue0 with slots := [(0, baseT.id, 15)] } (.syscall 0 (some 0))

theorem met_SystemCalls (c : Obligations.SystemCalls) :
    Runs (.sysc ⟨0, 0, 0⟩ 9) (sysBase queue0 baseT.stat) ∧ Runs (.syscallEntryWrite 0) callWaits ∧ Runs (.sysqCplWrite 0 0) callPosted ∧
    Runs (.sysqCplWrite 0 (2 ^ 63)) callPosted :=
  ⟨(c.1 ⟨0, 0, 0⟩ 9 (sysBase queue0 baseT.stat) baseQ (running_of (by decide +kernel)) (by decide +kernel) (by decide +kernel)
     (by decide +kernel) (by decide +kernel)).imp fun _ h => h.1,
   runs_stepsTo (c.2.1 0 (callWaits.mach.threads.headD {}) 9 15) callWaits (by decide +kernel) (by decide +kernel),
   runs_stepsTo (c.2.2.1 0 0 (callPosted.mach.threads.headD {}) 15) callPosted (by decide +kernel) (by decide +kernel),
   runs_stepsTo (c.2.2.2 0 (2 ^ 63) (callPosted.mach.threads.headD {}) 15) callPosted (by decide +kernel) (by decide +kernel)⟩

end Sys2Proof.Tests
end

