-- ==== Sys2Proof/Tests/Met7.lean ====
section
/-! SUPPORT. Of each claim about the fabric and about collectives: a concrete state that meets its hypotheses. -/

namespace Sys2Proof.Tests

set_option Elab.async false
open Sys2Proof.Machine

/-- The base with power good and another port 0. -/
def localL : Launch := base.mach.launches.headD {}
def localW : Wave := base.mach.waves.headD { id := 0, launch := 0, number := 0, qpw := 0, regs := 0, scr := 0, entry := 0, arg := 0, baseTid := 0, since := 0 }
def portIs (f : FPort → FPort) : State := { base with sys := { base.sys with
  powerGood := true, fports := modAt base.sys.fports 0 f, routes := [(1, { v := true })] } }
def hot : State := { portIs id with sys := { (portIs id).sys with thermtrip := true } }
def upIs (f : FPort → FPort) : State := portIs fun p => f { p with state := 2, ver := 3 }

/-- FPORT_CTL with bit 31 as said and bulk channels 5 and 6; a valid route on port 0. -/
def ctlWord (en : Nat) (req : Nat) : Word := BitVec.ofNat 32 (en * 2 ^ 31 + 3 * 2 ^ 29 + req * 2 ^ 26 + 6 * 2 ^ 23)
def routeWord (prim : Nat) : DWord := BitVec.ofNat 64 (2 ^ 63 + prim * 2 ^ 15 + 31 * 2 ^ 10 + 31 * 2 ^ 5 + 31)

theorem met_FabricLinks (c : Obligations.FabricLinks) :
    Runs (.fabricLinkTrain 0 400 3 7 5 6) hot ∧ Runs (.fabricLinkTrain 0 400 3 7 5 6) (portIs id) ∧ Runs (.fabricLinkTrain 0 100 3 7 4 6) (portIs id) ∧
    Runs (.fabricLinkTrain 0 100 3 7 5 6) (portIs id) ∧ Runs (.fabricLinkDown 0) (upIs id) ∧
    Runs (.linkReplayRetrain 0) (upIs fun p => { p with recent := List.replicate 9 0 }) ∧ Runs (.fportRetrain 0) base ∧
    Runs (.fportCtlWrite 0 (ctlWord 1 6)) base ∧ Runs (.fportCtlWrite 0 (ctlWord 1 5)) (upIs id) ∧
    Runs (.fportCtlWrite 0 (ctlWord 1 5)) base ∧ Runs (.fportCtlWrite 0 (ctlWord 0 5)) (upIs id) ∧
    Runs (.fportErrClear 0 3) (portIs fun p => { p with err := 5 }) ∧ Runs (.routeEntryWrite 3 (routeWord 2)) base ∧
    Runs (.routeEntryWrite 2000 (routeWord 0)) (portIs fun p => { p with state := 2, ver := 2 }) :=
  ⟨runs_steps (c.1 0 400 3 7 5 6).1 hot (by decide +kernel) (by decide +kernel),
   runs_steps (c.1 0 400 3 7 5 6).2.1 (portIs id) (by decide +kernel) (by decide +kernel),
   runs_steps (c.1 0 100 3 7 4 6).2.2.1 (portIs id) (by decide +kernel) (by decide +kernel),
   runs_stepsTo (c.1 0 100 3 7 5 6).2.2.2 (portIs id) (by decide +kernel) (by decide +kernel),
   runs_steps (c.2.1 0) (upIs id) (by decide +kernel) (by decide +kernel),
   runs_steps (c.2.2.1 0) _ (by decide +kernel) (by decide +kernel),
   runs_steps (c.2.2.2.1 0) base base_waits (by decide +kernel),
   runs_steps (c.2.2.2.2.1 0 (ctlWord 1 6)).1 base base_waits (by decide +kernel),
   runs_steps (c.2.2.2.2.1 0 (ctlWord 1 5)).2.1 (upIs id) (by decide +kernel) (by decide +kernel),
   runs_steps (c.2.2.2.2.1 0 (ctlWord 1 5)).2.2.1 base base_waits (by decide +kernel),
   runs_steps (c.2.2.2.2.1 0 (ctlWord 0 5)).2.2.2 (upIs id) (by decide +kernel) (by decide +kernel),
   runs_stepsTo (c.2.2.2.2.2.1 0 3) _ (by decide +kernel) (by decide +kernel),
   runs_steps (c.2.2.2.2.2.2 3 (routeWord 2)).1 base base_waits (by decide +kernel),
   runs_steps (c.2.2.2.2.2.2 2000 (routeWord 0)).2 _ (by decide +kernel) (by decide +kernel)⟩

/-- A flit of channel 1, in order, and others; a message for device 5, whose route leaves by port 1, which is up, or has none. -/
def flit1 : Flit := { vc := 1, seq := 0, hold := 4, ack := 0, last := none }
def forOther : Msg := ⟨1, 5, 0, 0, .sigAck 0 0⟩
def passing (f : FPort → FPort) (rs : List (Nat × Route)) : State :=
  let s := upIs fun p => { p with inq := [(0, forOther)] }
  { s with sys := { s.sys with routes := rs, fports := modAt s.sys.fports 1 f } }
def otherUp (p : FPort) : FPort := { p with state := 2, ver := 3 }
def viaPort1 : List (Nat × Route) := [(5, { v := true, prim := 1 })]

theorem met_FabricFlits (c : Obligations.FabricFlits) :
    (Runs (.flitReceive 0 flit1) base ∧ Runs (.flitReceive 0 { flit1 with fecOk := false }) (upIs id) ∧
     Runs (.flitReceive 0 { flit1 with crcOk := false }) (upIs id) ∧ Runs (.flitReceive 0 { flit1 with seq := 9 }) (upIs id) ∧
     Runs (.flitReceive 0 { flit1 with kind := .idle }) (upIs id) ∧ Runs (.flitReceive 0 { flit1 with kind := .replay }) (upIs id) ∧
     Runs (.flitReceive 0 flit1) (upIs id)) ∧
    Runs (.flitReplay 0 0) (upIs id) ∧
    (Runs (.flitSend 0) (upIs fun p => { p with ask := true }) ∧
     Runs (.flitSend 0) (upIs fun p => { p with replayFrom := some 0, replay := [(0, 1, none)], txSeq := 1 }) ∧ Runs (.flitSend 0) (upIs id)) ∧
    Runs (.fabricPassThrough 0 0) (passing otherUp viaPort1) ∧ Runs (.fabricPassThrough 0 0) (passing id viaPort1) ∧
    Runs (.fabricPassThrough 0 0) (passing otherUp []) :=
  ⟨⟨runs_steps (c.1 0 flit1).1 base base_waits (by decide +kernel),
    runs_steps (c.1 0 { flit1 with fecOk := false }).2.1 (upIs id) (by decide +kernel) (by decide +kernel),
    runs_steps (c.1 0 { flit1 with crcOk := false }).2.2.1 (upIs id) (by decide +kernel) (by decide +kernel),
    runs_steps (c.1 0 { flit1 with seq := 9 }).2.2.2.1 (upIs id) (by decide +kernel) (by decide +kernel),
    runs_steps (c.1 0 { flit1 with kind := .idle }).2.2.2.2.1 (upIs id) (by decide +kernel) (by decide +kernel),
    runs_steps (c.1 0 { flit1 with kind := .replay }).2.2.2.2.2.1 (upIs id) (by decide +kernel) (by decide +kernel),
    runs_stepsTo (c.1 0 flit1).2.2.2.2.2.2 (upIs id) (by decide +kernel) (by decide +kernel)⟩,
   runs_steps (c.2.1 0 0) (upIs id) (by decide +kernel) (by decide +kernel),
   ⟨runs_stepsTo (c.2.2.1 0).1 _ (by decide +kernel) (by decide +kernel),
    runs_stepsTo ((c.2.2.1 0).2.1 0 (0, 1, none)) _ (by decide +kernel) (by decide +kernel),
    runs_stepsTo (c.2.2.1 0).2.2 (upIs id) (by decide +kernel) (by decide +kernel)⟩,
   runs_stepsTo (c.2.2.2 0 0 forOther).1 (passing otherUp viaPort1) (by decide +kernel) (by decide +kernel),
   runs_steps (c.2.2.2 0 0 forOther).2.1 (passing id viaPort1) (by decide +kernel) (by decide +kernel),
   runs_stepsTo (c.2.2.2 0 0 forOther).2.2 (passing otherUp []) (by decide +kernel) (by decide +kernel)⟩

/-- A message from device 1 for this device; it heads a channel of port 0, with the machine as `f` makes it. -/
def msg (b : Payload) : Msg := ⟨1, 0, 0, 0, b⟩
def arrives (vc : Nat) (b : Payload) (f : Mach → Mach := id) : State :=
  { upIs (fun p => { p with inq := [(vc, msg b)] }) with mach := f base.mach }

/-- A remote `sigpost` that waits for its acknowledgement on flag 1; a root node of domain barrier 0 that counts 9. -/
def sigF : Flight :=
  { uid := 40, iss := 40, owner := baseT.id, tids := [baseT.id], qid := baseQ.id, core := 0, launch := localL.id, instr := .timeBaseTick,
    pc := baseT.pc, hdr := baseT.hdr, flag := 1 }
def sigWaiting (m : Mach) : Mach := { m with flights := [sigF], sigWaits := [(baseT.id, 40, 0)] }
/-- Core 0 is in C1. -/
def asleep (m : Mach) : Mach := { m with cores := [{ core := 0, power := .c1 }] }
def sigLate : State :=
  let s := arrives 0 (.sigAck 1 1) sigWaiting
  { s with sys := { s.sys with ticks := 1000000 } }
def rootNode : BarNode := { level := 5, place := 0, num := 0, launch := 0, count := 9 }

theorem met_MessagesArrive (c : Obligations.MessagesArrive) :
    Runs (.sigRemoteArrive 0) (arrives 0 (.sig 2 8 1 1)) ∧ Runs (.sigRemoteArrive 0) (arrives 0 (.wake 0) asleep) ∧ Runs (.sigAckArrive 0) (arrives 0 (.sigAck baseT.id 40) sigWaiting) ∧
    Runs (.sigAckArrive 0) (arrives 0 (.sigAck 1 1)) ∧
    Runs (.sigAckTimeout baseT.id 40) sigLate ∧
    Runs (.domainBarrierMessage 0) (arrives 0 (.barArrive 0 4 1 0)) ∧
    Runs (.domainBarrierMessage 0) (arrives 0 (.barArrive 0 4 1 0) fun m => { m with bars := [rootNode] }) ∧
    Runs (.remoteAccessRequest 0 1) (arrives 1 (.bulkReq 3 64 8 false [])) ∧
    Runs (.remoteAccessRequest 0 1) (arrives 1 (.bulkReq 3 64 2 true [1, 2])) ∧
    Runs (.remoteAccessRequest 0 1) (arrives 1 (.bulkAtom 3 64 .add .n32 [(5, 0), (6, 0)])) ∧
    Runs (.remoteAccessRequest 0 1) (arrives 1 (.bulkReq 3 (2 ^ 44) 2 true [1, 2])) :=
  ⟨runs_stepsTo (c.1 0 (msg (.sig 2 8 1 1)) 2 8 1 1) (arrives 0 (.sig 2 8 1 1)) (by decide +kernel) (by simp only [Heads]; decide +kernel),
   runs_stepsTo (c.2.1 0 (msg (.wake 0)) 0) (arrives 0 (.wake 0) asleep) (by decide +kernel) (by simp only [Heads]; decide +kernel),
   runs_stepsTo (c.2.2.1 0 (msg (.sigAck baseT.id 40)) baseT.id 40 sigF) (arrives 0 (.sigAck baseT.id 40) sigWaiting) (by decide +kernel)
     (by simp only [Heads]; decide +kernel),
   runs_steps (c.2.2.2.1 0 (msg (.sigAck 1 1)) 1 1) (arrives 0 (.sigAck 1 1)) (by decide +kernel) (by simp only [Heads]; decide +kernel),
   runs_stepsTo (c.2.2.2.2.1 baseT.id 40 sigF) sigLate (by decide +kernel) (by decide +kernel),
   runs_stepsTo (c.2.2.2.2.2.1 0 (msg (.barArrive 0 4 1 0)) 0 4 1 0) (arrives 0 (.barArrive 0 4 1 0)) (by decide +kernel)
     ⟨by simp only [Heads]; decide +kernel, rfl, by decide, fun r h =>
       nomatch (by decide +kernel : (arrives 0 (.barArrive 0 4 1 0)).mach.barNode? 5 0 0 0 = none).symm.trans h⟩,
   runs_steps (c.2.2.2.2.2.2.1 0 (msg (.barArrive 0 4 1 0)) 0 4 1 0 rootNode) (arrives 0 (.barArrive 0 4 1 0) fun m => { m with bars := [rootNode] })
     (by decide +kernel) (by simp only [Heads]; decide +kernel),
   runs_stepsTo ((c.2.2.2.2.2.2.2 0 1 (msg (.bulkReq 3 64 8 false [])) 3 64).1 8) (arrives 1 (.bulkReq 3 64 8 false [])) (by decide +kernel)
     (by simp only [Heads]; decide +kernel),
   runs_stepsTo ((c.2.2.2.2.2.2.2 0 1 (msg (.bulkReq 3 64 2 true [1, 2])) 3 64).2.1 [1, 2]) (arrives 1 (.bulkReq 3 64 2 true [1, 2]))
     (by decide +kernel) (by simp only [Heads]; decide +kernel),
   runs_stepsTo ((c.2.2.2.2.2.2.2 0 1 (msg (.bulkAtom 3 64 .add .n32 [(5, 0), (6, 0)])) 3 64).2.2.1 .n32 [5, 6]) (arrives 1 (.bulkAtom 3 64 .add .n32 [(5, 0), (6, 0)]))
     (by decide +kernel) (by simp only [Heads]; decide +kernel),
   runs_stepsTo ((c.2.2.2.2.2.2.2 0 1 (msg (.bulkReq 3 (2 ^ 44) 2 true [1, 2])) 3 (2 ^ 44)).2.2.2 [1, 2] true)
     (arrives 1 (.bulkReq 3 (2 ^ 44) 2 true [1, 2])) (by decide +kernel) (by simp only [Heads]; decide +kernel)⟩

/-- A work entry (op, peer, descriptor at 0x18000), a descriptor of rank 0 of 2, and a started entry. -/
def subE (op : Nat) : SubEnt :=
  { eid := 60, rlinv := false, bytes := toBytes (op + 0xFFFF * 2 ^ 32 + 0xFFFF * 2 ^ 48 + 0x18000 * 2 ^ 320) 64, desc := 0,
    poster := baseT.id, wave := localW.id, launch := localL.id, fdom := 0, armed := true }
def dsc1 : Nat := 0x18100 + 2 * 2 ^ 64 + 2 ^ 112 + 2 ^ 120 + 0x19000 * 2 ^ 192
def collE (op rank succ len : Nat) : CollEnt :=
  { eid := 60, rcb := 0, q := 0, poster := baseT.id, wave := localW.id, launch := localL.id, fdom := 0, stamp := 0, port := 0, op := op, tag := 7,
    dsc := dsc1, cid := 0, rank := rank, nrank := 2, seq := 4, len := len, dst := 0x15000, src := 0x14000, rctr := 0xFFFF, peer := 0,
    donectr := 0xFFFF, rsig := false, prio := 0, ty := 0, red := if op = 0x10 then 1 else 0, succ := succ, sdev := 1 }
def comm1 (rank : Nat) (ks : List InChunk) (toks : List (Nat × Nat)) : Comm :=
  { id := 61, cid := 0, rank := rank, nrank := 2, gen := 0, vc := 1, win := 1, landva := 0x19000, rlva := 0x18100, rcb := 0, eff := localL.eff,
    cached := [0, 1], chunks := ks, toks := toks }

/-- Port 0 up, translations for the engines' reads as well, with a queued entry, a descriptor, and a started entry. -/
def collBase (subs : List SubEnt) (n : Nat) (es : List CollEnt) (cs : List Comm) : State :=
  { upIs id with mach := { base.mach with
      tlbs := base.mach.tlbs.map fun t => { t with core := portCore }
      mem := base.mach.mem.put (fetchFrame + 0x8000) (toBytes n 64)
      qpairs := [{ rcb := 0, q := 0, subs := subs }], colls := es, comms := cs } }

def entry1 (op rank succ len : Nat) (ks : List InChunk) (toks : List (Nat × Nat)) : State :=
  collBase [] 0 [collE op rank succ len] [comm1 rank ks toks]
def linkDown : State :=
  let s := entry1 1 0 1 128 [] []
  { s with sys := { base.sys with ticks := 1000001 } }
def zeros (n : Nat) : List Byte := List.replicate n 0

/-- The one chunk of a put still waits to leave by port 0. -/
def unsent1 : State :=
  let s := collBase [] 0 [{ collE 1 0 1 128 with sent := 1 }] [comm1 0 [] []]
  { s with sys := { s.sys with fports := modAt s.sys.fports 0 fun p =>
      { p with outq := [(1, some ⟨0, 1, 1, 1, .put 0 1 0 60 0 0x15000 0 0 true false 0xFFFF (zeros 128)⟩)] } } }

theorem met_EntriesStartAndRetire (c : Obligations.EntriesStartAndRetire) :
    Runs (.collEntryStart 0 0) (collBase [subE 0x40] 0 [] []) ∧ Runs (.collEntryStart 0 0) (collBase [subE 0x30] dsc1 [] []) ∧
    Runs (.collOpen 60) (collBase [] 0 [collE 0x30 0 1 0] []) ∧
    Runs (.collOpen 60) (collBase [] 0 [{ collE 0x30 0 1 0 with dsc := dsc1 + 4 * 2 ^ 112 }] []) ∧
    Runs (.collClose 60) (entry1 0x31 0 1 0 [] []) ∧
    Runs (.collEntryRetire 60) (collBase [] 0 [{ collE 1 0 1 128 with sent := 1 }] [comm1 0 [] []]) ∧ Runs (.collEntryRetire 60) unsent1 ∧
    Runs (.collLinkTimeout ⟨60, false⟩) linkDown ∧
    Runs (.collLinkTimeout ⟨60, true⟩) (entry1 1 0 1 128 [] []) :=
  ⟨runs_stepsTo (c.1 0 0 (subE 0x40) []) (collBase [subE 0x40] 0 [] []) (by decide +kernel) (by decide +kernel),
   runs_stepsTo (c.2.1 0 0 (subE 0x30) [] (toBytes dsc1 64)) (collBase [subE 0x30] dsc1 [] []) (by decide +kernel) (by decide +kernel),
   runs_stepsTo (c.2.2.1 (collE 0x30 0 1 0) (zeros 4) [0, 0]) (collBase [] 0 [collE 0x30 0 1 0] []) (by decide +kernel) (by decide +kernel),
   runs_stepsTo (c.2.2.2.1 { collE 0x30 0 1 0 with dsc := dsc1 + 4 * 2 ^ 112 })
     (collBase [] 0 [{ collE 0x30 0 1 0 with dsc := dsc1 + 4 * 2 ^ 112 }] []) (by decide +kernel) (by decide +kernel),
   runs_stepsTo (c.2.2.2.2.1 (collE 0x31 0 1 0)) (entry1 0x31 0 1 0 [] []) (by decide +kernel) (by decide +kernel),
   runs_stepsTo (c.2.2.2.2.2.1 { collE 1 0 1 128 with sent := 1 }) (collBase [] 0 [{ collE 1 0 1 128 with sent := 1 }] [comm1 0 [] []])
     (by decide +kernel) (by simp only [AllMoved]; decide +kernel),
   runs_steps (c.2.2.2.2.2.2.1 { collE 1 0 1 128 with sent := 1 }) unsent1 (by decide +kernel) (by decide +kernel),
   runs_stepsTo (c.2.2.2.2.2.2.2 (collE 1 0 1 128) false) linkDown (by decide +kernel) (by decide +kernel),
   runs_stepsTo (c.2.2.2.2.2.2.2 (collE 1 0 1 128) true) (entry1 1 0 1 128 [] []) (by decide +kernel) (by decide +kernel)⟩

/-- A chunk of segment 1 that has arrived. -/
def chunk1 : InChunk := { seq := 4, c := 0, seg := 1, off := 0, len := 64, gather := false, src := 1, bytes := List.replicate 64 1 }
def landed : Nat := fetchFrame + 0x5000

theorem met_SequencerTurns (c : Obligations.SequencerTurns) :
    (Runs (.chunkSend 0) (entry1 1 0 1 128 [] []) ∧ Runs (.collPut 60) (entry1 1 0 1 128 [] []) ∧ Runs (.collPutr 60) (entry1 2 0 1 128 [] [])) ∧
    (Runs (.ringReduceScatter 60) (entry1 0x10 0 1 128 [] []) ∧ Runs (.ringAllReduce 60) (entry1 0x12 0 1 128 [] [])) ∧
    (Runs (.ringAllGather 60) (entry1 0x11 0 1 128 [] []) ∧ Runs (.ringBroadcast 60) (entry1 0x13 0 1 128 [] [])) ∧
    Runs (.ringReduceScatter 60) (entry1 0x10 0 1 128 [chunk1] []) ∧ Runs (.ringBarrierToken 60) (entry1 0x14 0 1 0 [] []) ∧
    Runs (.ringBarrierToken 60) (entry1 0x14 1 0 0 [] [(4, 2)]) :=
  ⟨⟨runs_stepsTo (c.1 (collE 1 0 1 128) (comm1 0 [] []) (zeros 128) _ (.inl rfl)) _ (by decide +kernel) (by simp only [HasTurn]; decide +kernel),
    runs_stepsTo (c.1 (collE 1 0 1 128) (comm1 0 [] []) (zeros 128) _ (.inr (.inl ⟨rfl, rfl⟩))) _ (by decide +kernel)
      (by simp only [HasTurn]; decide +kernel),
    runs_stepsTo (c.1 (collE 2 0 1 128) (comm1 0 [] []) (zeros 128) _ (.inr (.inr ⟨rfl, rfl⟩))) _ (by decide +kernel)
      (by simp only [HasTurn]; decide +kernel)⟩,
   ⟨runs_stepsTo (c.2.1 (collE 0x10 0 1 128) (comm1 0 [] []) (zeros 64) _ (.inr (.inl ⟨rfl, rfl⟩))) _ (by decide +kernel)
      (by simp only [HasTurn]; decide +kernel),
    runs_stepsTo (c.2.1 (collE 0x12 0 1 128) (comm1 0 [] []) (zeros 64) _ (.inr (.inr ⟨rfl, rfl⟩))) _ (by decide +kernel)
      (by simp only [HasTurn]; decide +kernel)⟩,
   ⟨runs_stepsTo (c.2.2.1 (collE 0x11 0 1 128) (comm1 0 [] []) (zeros 64) landed 7 _ (.inr (.inl ⟨rfl, rfl⟩))) _ (by decide +kernel)
      (by simp only [HasTurn]; decide +kernel),
    runs_stepsTo (c.2.2.1 (collE 0x13 0 1 128) (comm1 0 [] []) (zeros 128) landed 7 _ (.inr (.inr ⟨rfl, rfl⟩))) _ (by decide +kernel)
      (by simp only [HasTurn]; decide +kernel)⟩,
   runs_stepsTo (c.2.2.2.1 (collE 0x10 0 1 128) (comm1 0 [chunk1] []) chunk1 (zeros 64) (List.replicate 64 1) _ (.inr (.inl ⟨rfl, rfl⟩))) _
     (by decide +kernel) (by simp only [HasTurn]; decide +kernel),
   runs_stepsTo (c.2.2.2.2.2.1 (collE 0x14 0 1 0) (comm1 0 [] []) _ (.inr rfl)) _ (by decide +kernel) (by simp only [HasTurn]; decide +kernel),
   runs_stepsTo (c.2.2.2.2.2.2 (collE 0x14 1 0 0) (comm1 1 [] [(4, 2)]) _ (.inr rfl)) _ (by decide +kernel)
     (by simp only [HasTurn]; decide +kernel)⟩

/-- A message for a communicator of this device, with its started entries. -/
def told (vc : Nat) (b : Payload) (es : List CollEnt) (cs : List Comm) : State :=
  { collBase [] 0 es cs with sys := (arrives vc b).sys }
def aChunk (seq : Nat) : Payload := .chunk 0 0 seq 0 1 0 false 1 0 (List.replicate 64 1)
def aPut : Payload := .put 0 0 1 60 0 0x15000 0 0 true true 0 [1, 2, 3, 4]
def aPutr : Payload := .put 0 0 1 60 0 0x15000 1 0 true true 0 [1, 0, 0, 0, 2, 0, 0, 0]
def ringE : CollEnt := collE 0x10 0 1 128
def keptTok : KeptTok := { dev := 1, rank := 1, seq := 0, circuit := 0, c := 0, at_ := 0 }
def keeping : State := collBase [] 0 [] [{ comm1 0 [] [] with kept := [keptTok] }]

/-- The failure is one of a communicator that has been closed; a successor has not been told of one. -/
def pastFailure : State :=
  let s := told 0 (.failure 0 0 4 0x63) [] []
  { s with mach := { s.mach with closed := [(0, 4)] } }
def untold : State := collBase [] 0 [] [{ comm1 0 [] [] with untold := [(4, 0x63)], succDev := some 1 }]

theorem met_CollectiveArrivals (c : Obligations.CollectiveArrivals) :
    Runs (.chunkArrive 0 1) (told 1 (aChunk 4) [ringE] [comm1 0 [] []]) ∧ Runs (.chunkArrive 0 1) (told 1 (aChunk 9) [ringE] [comm1 0 [] []]) ∧
    Runs (.chunkWaitClosedCid 0 1) (told 1 (aChunk 4) [] []) ∧ Runs (.putArrive 0 0) (told 0 aPut [] [comm1 0 [] []]) ∧
    Runs (.putArrive 0 0) (told 0 aPutr [] [comm1 0 [] []]) ∧
    Runs (.completionTokenArrive 0) (told 0 (.token 0 0 1 0) [] [comm1 0 [] []]) ∧
    Runs (.ringTokenArrive 0) (told 0 (.ringTok 0 0 1 4 1) [] [comm1 0 [] []]) ∧ Runs (.tokenRefused 0) (told 0 (.token 0 0 1 0) [] []) ∧
    Runs (.tokenRefused 0) (told 0 (.refused 0 0 1 0 0 0) [] [comm1 0 [] []]) ∧ Runs (.tokenResend 0) keeping ∧
    Runs (.collFailureArrive 0) (told 0 (.putFail 0 0 60 0x67) [collE 1 0 1 128] [comm1 0 [] []]) ∧
    Runs (.collFailureArrive 0) pastFailure ∧ Runs (.tokenResend 0) untold ∧ Runs (.collFailureArrive 0) (told 0 (.failure 0 0 4 0x63) [] []) ∧
    Runs (.collFailureArrive 0) (told 0 (.failure 0 0 4 0x63) [] [comm1 0 [] []]) :=
  ⟨runs_stepsTo (c.1 0 1 (msg (aChunk 4)) 0 0 4 0 1 0 false 1 0 chunk1.bytes (comm1 0 [] [])) _ (by decide +kernel) (by simp only [Heads]; decide +kernel),
   runs_stepsTo (c.2.1 0 1 (msg (aChunk 9)) 0 0 9 0 1 0 false 1 0 chunk1.bytes (comm1 0 [] []) (fetchFrame + 0x9000) 7) _ (by decide +kernel)
     (by simp only [Heads]; decide +kernel),
   runs_stepsTo (c.2.2.1 0 1 (msg (aChunk 4))) (told 1 (aChunk 4) [] []) (by decide +kernel)
     ⟨by simp only [Heads]; decide +kernel, by decide, 0, 0, 4, 0, 1, 0, false, 1, 0, _, rfl, by decide +kernel⟩,
   runs_stepsTo (c.2.2.2.1 0 0 (msg aPut) 0 0 1 60 0 0x15000 0 true true 0 [1, 2, 3, 4] (comm1 0 [] []) landed 7) _ (by decide +kernel)
     (by simp only [Heads]; decide +kernel),
   runs_stepsTo (c.2.2.2.2.1 0 0 (msg aPutr) 0 0 1 60 0 0x15000 1 0 true true 0 [1, 0, 0, 0, 2, 0, 0, 0] [1, 0, 0, 0] (comm1 0 [] []) landed 7) _
     (by decide +kernel) (by simp only [Heads, Sound]; decide +kernel),
   runs_stepsTo (c.2.2.2.2.2.1 0 (msg (.token 0 0 1 0)) 0 0 1 0 (comm1 0 [] [])) _ (by decide +kernel) (by simp only [Heads]; decide +kernel),
   runs_stepsTo (c.2.2.2.2.2.2.1 0 (msg (.ringTok 0 0 1 4 1)) 0 0 1 4 1 (comm1 0 [] [])) _ (by decide +kernel)
     (by simp only [Heads]; decide +kernel),
   runs_stepsTo (c.2.2.2.2.2.2.2.1 0 (msg (.token 0 0 1 0)) 0 0 1 0) (told 0 (.token 0 0 1 0) [] []) (by decide +kernel)
     (by simp only [Heads]; decide +kernel),
   runs_stepsTo (c.2.2.2.2.2.2.2.2.1 0 (msg (.refused 0 0 1 0 0 0)) 0 0 1 0 0 0 (comm1 0 [] [])) _ (by decide +kernel)
     (by simp only [Heads]; decide +kernel),
   runs_stepsTo (c.2.2.2.2.2.2.2.2.2.1 { comm1 0 [] [] with kept := [keptTok] } keptTok) keeping (by decide +kernel) (by decide +kernel),
   runs_stepsTo (c.2.2.2.2.2.2.2.2.2.2.1 0 (msg (.putFail 0 0 60 0x67)) 0 0 0x67 (collE 1 0 1 128)) (told 0 (.putFail 0 0 60 0x67) [collE 1 0 1 128] [comm1 0 [] []])
     (by decide +kernel) (by simp only [Heads]; decide +kernel),
   runs_steps (c.2.2.2.2.2.2.2.2.2.2.2.1 0 (msg (.failure 0 0 4 0x63)) 0 0 4 0x63) pastFailure (by decide +kernel)
     (by simp only [Heads]; decide +kernel),
   runs_stepsTo (c.2.2.2.2.2.2.2.2.2.2.2.2.1 { comm1 0 [] [] with untold := [(4, 0x63)], succDev := some 1 } 4 0x63 [] 1) untold (by decide +kernel)
     (by decide +kernel),
   runs_steps (c.2.2.2.2.2.2.2.2.2.2.2.2.2.1 0 (msg (.failure 0 0 4 0x63)) 0 0 4 0x63) (told 0 (.failure 0 0 4 0x63) [] []) (by decide +kernel)
     (by simp only [Heads]; decide +kernel),
   runs_stepsTo (c.2.2.2.2.2.2.2.2.2.2.2.2.2.2 0 (msg (.failure 0 0 4 0x63)) 4 0x63 (comm1 0 [] [])) (told 0 (.failure 0 0 4 0x63) [] [comm1 0 [] []])
     (by decide +kernel) (by simp only [Heads]; decide +kernel)⟩

end Sys2Proof.Tests
end

