-- ==== Sys2Proof/Tests/Met8.lean ====
section
/-! SUPPORT. Of each claim about the package: a concrete state that meets its hypotheses. -/

namespace Sys2Proof.Tests

set_option Elab.async false
open Sys2Proof.Machine

def withS (f : Sys → Sys) : State := { base with sys := f { base.sys with powerGood := true } }
def withP (f : Sys → Sys) (g : Mach → Mach) : State := { withS f with mach := g base.mach }
def endpoint (f : Sys → Sys := id) : State := withP f fun m => { m with pe0ep := true }

/-- An image of 128 bytes in the host's memory, named by mailbox 0. -/
def image : Nat := 0x36345143 + 2 ^ 32 + 128 * 2 ^ 128 + 64 * 2 ^ 192
def hosted : State :=
  { endpoint (fun y => { y with harts := .rom :: List.replicate 15 .wfi, mboxes := modAt y.mboxes 0 fun b => { b with inbell := 1 } }) with
    mach := { base.mach with
      pe0ep := true, mem := (Memory.put (Memory.put [] (mboxAt 0 + 0x108) [128]) (hostLoc 0) (toBytes image 64)) } }

/-- The first line of the image fails. -/
def hostedBad : State := { hosted with mach := { hosted.mach with cxlFail := [hosted.mach.home 0x4000000000 / 64] } }

theorem met_ResetAndBoot (c : Obligations.ResetAndBoot) :
    Runs .resetNAssert base ∧ Runs .resetNRelease { State.reset with sys := { pe0pin := true } } ∧ Runs .bootHostImageLoad hosted ∧ Runs .bootHostImageLoad hostedBad ∧ Runs (.pkgRunWrite 1) (withS id) ∧
    Runs (.dieResetDone 0) (withS fun y => { y with dies := modAt y.dies 0 fun _ => .resetting }) :=
  ⟨runs_steps c.1 base base_waits trivial,
   runs_stepsTo c.2.1 { State.reset with sys := { pe0pin := true } } (by decide +kernel) (by decide +kernel),
   runs_stepsTo c.2.2.1 hosted (by decide +kernel) (by decide +kernel),
   runs_stepsTo c.2.2.2.1 hostedBad (by decide +kernel) (by decide +kernel),
   runs_stepsTo (c.2.2.2.2.1 1) (withS id) (by decide +kernel) (by decide +kernel),
   runs_steps (c.2.2.2.2.2 0) _ (by decide +kernel) (by decide +kernel)⟩

/-- Core 1 idle, gated, or wanted again; grove 1 turning off and on. -/
def coreIs (c : CoreSt) : State := withM fun m => { m with cycle := 100000000, cores := [c] }
def groveIs (p : GPwr) : State := withS fun y => { y with gpwr := [(1, p)] }

theorem met_PowerStates (c : Obligations.PowerStates) :
    (Runs (.powerSample 1000 []) (withS id) ∧ Runs (.thermalThrottle []) (withS id) ∧
      Runs (.thermtrip 0) (withS fun y => { y with temps := modAt y.temps 0 fun _ => 900 })) ∧
    (Runs (.coreClockGate 1) (coreIs { core := 1 }) ∧ Runs (.corePowerGate 1) (coreIs { core := 1, power := .c1 }) ∧
      Runs (.coreWake 0) (coreIs { core := 0, power := .c2 })) ∧
    Runs (.grvPwrWrite 0 (2 ^ 9)) base ∧ Runs (.grvPwrWrite 1 (2 ^ 9)) base ∧ Runs (.grvPwrErrClear 1) base ∧
    Runs (.grovePowerTransition 1) (groveIs { tgt := 2, state := 1 }) ∧ Runs (.grovePowerTransition 1) (groveIs { state := 3 }) :=
  ⟨⟨runs_stepsTo (c.1.1 1000 []) (withS id) (by decide +kernel) (by decide +kernel),
    runs_stepsTo (c.1.2.1 []) (withS id) (by decide +kernel) (by decide +kernel),
    runs_stepsTo (c.1.2.2 0) _ (by decide +kernel) (by decide +kernel)⟩,
   ⟨runs_steps (c.2.1.1 1) (coreIs { core := 1 }) (by decide +kernel) (by decide +kernel),
    runs_steps (c.2.1.2.1 1) (coreIs { core := 1, power := .c1 }) (by decide +kernel) (by decide +kernel),
    runs_stepsTo (c.2.1.2.2 0) (coreIs { core := 0, power := .c2 }) (by decide +kernel) (by decide +kernel)⟩,
   runs_steps (c.2.2.1 0 (2 ^ 9)) base base_waits (by decide +kernel),
   runs_steps (c.2.2.2.1 1 (2 ^ 9)) base base_waits (by decide +kernel),
   runs_steps (c.2.2.2.2.1 1) base base_waits (by decide +kernel),
   runs_stepsTo (c.2.2.2.2.2.1 1) (groveIs { tgt := 2, state := 1 }) (by decide +kernel) (by decide +kernel),
   runs_stepsTo (c.2.2.2.2.2.2 1) (groveIs { state := 3 }) (by decide +kernel) (by decide +kernel)⟩

/-- CXL ports 0 to 11 up, a decoder of one way on port 0, an access behind it, and one through the host window. -/
def cxlIs (d : CDec) : State := withP (fun y => { y with cports := List.replicate 12 { state := 2, speed := 1, width := 8 } })
  fun m => { m with decs := modAt m.decs 0 fun _ => d }
def dec0 : CDec := { base := Config.cxlBase, size := 0x10000000 }
def onDec : CDec := { dec0 with committed := true }
def hostAt : Nat := 0x4000000000
def waitF : Flight :=
  { uid := 40, iss := 40, owner := baseT.id, tids := [baseT.id], qid := baseQ.id, core := 0, launch := baseQ.launch,
    instr := .ld ⟨0, 1, 0⟩ .b64 false .t (.v 4) (.v 2) 0, pc := baseT.pc, hdr := baseT.hdr, flag := 1 }
def waitOp (loc : Nat) : PendOp := { oid := 41, uid := 40, kind := .load false, loc := loc, len := 8, sent := some (0, false) }
def waitT (loc : Nat) : Thread := { baseT with pend := [waitOp loc] }
def awaiting (loc : Nat) (s : State) : State :=
  { s with mach := { s.mach with flights := [waitF], threads := s.mach.threads.map fun t => { t with pend := [waitOp loc] } } }
def hostLate : State := awaiting hostAt (endpoint fun y => { y with ticks := 5000000 })

theorem noneCommitted (j : Nat) : ¬ ((cxlIs dec0).mach.dec j).committed = true := by
  by_cases h : j < 32
  · exact (by decide +kernel : ∀ j < 32, ¬ ((cxlIs dec0).mach.dec j).committed = true) j h
  · simp only [Mach.dec]
    rw [List.getD_eq_default _ _ (by have : (cxlIs dec0).mach.decs.length = 32 := by decide +kernel
                                     omega)]
    decide

theorem met_CxlLinksAndErrors (c : Obligations.CxlLinksAndErrors) :
    (Runs (.cxlLinkTrain 0 1 ⟨8, 0⟩ true) (withS id) ∧ Runs (.cxlLinkTrain 0 1 ⟨8, 0⟩ false) (withS id) ∧
      Runs (.cxlLinkTrain 0 1 ⟨8, 3⟩ true) (cxlIs {}) ∧ Runs (.cxlLinkDown 0) (cxlIs {}) ∧ Runs (.cxlDcEvent ⟨0, true⟩) base ∧
      Runs (.cxlDcEvent ⟨0, false⟩) base ∧ Runs (.cxlpPoisonClear 0) base ∧ Runs (.cxlpLdownClear 0) base ∧ Runs (.cxlpReplaysClear 0) base) ∧
    (Runs (.cxldCommit 0 (2 ^ 31)) (cxlIs dec0) ∧ Runs (.cxldCommit 0 (2 ^ 31 + 7 * 2 ^ 22)) (cxlIs dec0) ∧
      Runs (.cxldUncommit 0 0) (cxlIs onDec) ∧ Runs (.cxlMemError 0 (.line Config.cxlBase) true) (cxlIs onDec)) ∧
    Runs (.cxlMemError 0 (.access baseT.id 41) true) (awaiting Config.cxlBase (cxlIs onDec)) ∧ Runs (.hostWindowTimeout 0) hostLate :=
  ⟨⟨runs_steps (c.1.1 0 1 8 0 true) (withS id) (by decide +kernel) (by decide +kernel),
    runs_steps (c.1.2.1 0 1 8 0 false) (withS id) (by decide +kernel) (by decide +kernel),
    runs_steps (c.1.2.2.1 0 1 8 3 true) (cxlIs {}) (by decide +kernel) (by decide +kernel),
    runs_stepsTo (c.1.2.2.2.1 0) (cxlIs {}) (by decide +kernel) (by decide +kernel),
    runs_steps (c.1.2.2.2.2.1 0) base base_waits (by decide +kernel),
    runs_steps (c.1.2.2.2.2.2.1 0) base base_waits (by decide +kernel),
    runs_steps (c.1.2.2.2.2.2.2.1 0) base base_waits (by decide +kernel),
    runs_steps (c.1.2.2.2.2.2.2.2.1 0) base base_waits (by decide +kernel),
    runs_steps (c.1.2.2.2.2.2.2.2.2 0) base base_waits (by decide +kernel)⟩,
   ⟨runs_steps (c.2.1.1 0 (2 ^ 31)) (cxlIs dec0) (by decide +kernel)
      ⟨by decide, by decide, by decide +kernel, by decide, ⟨1, by decide, by decide +kernel⟩, fun j _ h => absurd h (noneCommitted j)⟩,
    runs_steps (c.2.1.2.1 0 (2 ^ 31 + 7 * 2 ^ 22)) (cxlIs dec0) (by decide +kernel)
      ⟨by decide, by decide, by decide +kernel, .inl (by decide)⟩,
    runs_steps (c.2.1.2.2.1 0 0) (cxlIs onDec) (by decide +kernel) (by decide +kernel),
    runs_stepsTo (c.2.1.2.2.2 0 Config.cxlBase true) (cxlIs onDec) (by decide +kernel) ⟨by decide +kernel, onDec, by decide +kernel, by decide +kernel⟩⟩,
   runs_stepsTo (c.2.2.1 0 baseT.id 41 (waitOp Config.cxlBase) waitF onDec) (awaiting Config.cxlBase (cxlIs onDec)) (by decide +kernel) (by simp only [LoneFlight]; decide +kernel),
   runs_stepsTo (c.2.2.2 0 (waitT hostAt) (waitOp hostAt) waitF) hostLate (by decide +kernel) (by simp only [HostWaits, LoneFlight]; decide +kernel)⟩

/-- PCIe port 1 up; a device's request to the cavern; the host's read of the first configuration word in endpoint mode. -/
def pcieIs : State := withS fun y => { y with pports := List.replicate 2 { up := true, width := 16, speed := 5 } }
def devReq (w : Bool) (io : Option Nat) : PcieReq :=
  { port := 1, write := w, translated := false, addr := 0x1000, iommu := io, len := 8, bytes := [1, 2] }
def cfgReq : PcieReq := { port := 0, write := false, translated := false, addr := 0, iommu := none, len := 4, bytes := [], cfg := true }
def cfgIs : State := endpoint fun y => { y with pports := List.replicate 2 { up := true, width := 16, speed := 5 } }
def zeroBytes (n : Nat) : List Byte := List.replicate n 0

/-- A request to the host of a hart, a fetch, or an engine, 50 ms old. -/
def farReq (w : FarFor) (wr : Bool) : FarReq := { id := 77, who := w, loc := hostAt, va := 0, write := wr, at_ := 0 }
def theEngine : EngOp :=
  { id := 90, core := 0, kind := .cpy false false 0x15000 0x14000 64 0xFFFF, poster := baseT.id, wave := baseT.wave, launch := baseQ.launch,
    fdom := 0, rcb := 0, stamp := 0, scrBase := 0, scrLen := 0 }
def asking (w : FarFor) (wr : Bool) : State :=
  let s := endpoint fun y => { y with ticks := 5000000 }
  { s with mach := { s.mach with reqs := [farReq w wr], engines := [theEngine] } }

theorem met_HostAndDevices (c : Obligations.HostAndDevices) :
    (Runs (.pcieLinkTrain 1 16 5) (withS id) ∧ Runs (.pcieInboundRequest (devReq true (some fetchFrame))) pcieIs ∧
      Runs (.pcieInboundRequest (devReq false (some fetchFrame))) pcieIs ∧ Runs (.pcieInboundRequest (devReq true none)) pcieIs ∧
      Runs (.pcieInboundRequest { devReq true (some fetchFrame) with translated := true }) pcieIs ∧
      Runs (.pcieInboundRequest { devReq true (some 0x24003000) with bytes := [5] }) pcieIs ∧
      Runs (.pcieAtomicop 1 ⟨false, 0, some fetchFrame⟩ .fetchAdd 8 1 0) pcieIs ∧
      Runs (.pcieAtomicop 1 ⟨false, 0, some fetchFrame⟩ .swap 16 1 0) pcieIs ∧ Runs .pcieFlr (endpoint id) ∧
      Runs (.pcieInboundRequest cfgReq) cfgIs ∧ Runs (.pcieIntxInput 5 true) base) ∧
    (Runs (.hostWindowAccess 0 true [1] true) (endpoint id) ∧ Runs (.hostWindowAccess 0 false [1] false) (endpoint id) ∧
      Runs (.hostWindowAccess 0 false [1] true) (asking (.hart 3) false) ∧ Runs (.hostWindowTimeout 0) (asking (.hart 3) true) ∧
      Runs (.hostWindowAccess 0 false (zeroBytes 64) true) (asking (.core 0 0 0) false) ∧
      Runs (.hostWindowTimeout 0) (asking (.engine 90) true) ∧
      Runs (.hostWindowAccess 0 false (zeroBytes 8) true) (awaiting hostAt (endpoint id)) ∧
      Runs (.hostWindowAccess 0 false [1] false) (awaiting hostAt (endpoint id))) ∧
    Runs (.mailboxInbellWrite 1 0) (endpoint id) ∧ Runs (.mailboxInbellWrite 1 5) (endpoint id) ∧ Runs (.mailboxInbellRead 1) base ∧
    Runs (.mailboxOutbellWrite 1 5) base ∧ Runs (.mailboxOutbellRead 1) (endpoint id) :=
  ⟨⟨runs_steps (c.1.1 1 16 5) (withS id) (by decide +kernel) (by decide +kernel),
    runs_stepsTo (c.1.2.1 (devReq true (some fetchFrame)) fetchFrame) pcieIs (by decide +kernel) (by decide +kernel),
    runs_steps (c.1.2.2.1 (devReq false (some fetchFrame)) fetchFrame) pcieIs (by decide +kernel) (by decide +kernel),
    runs_steps (c.1.2.2.2.1 (devReq true none)) pcieIs (by decide +kernel) (by decide +kernel),
    runs_steps (c.1.2.2.2.2.1 { devReq true (some fetchFrame) with translated := true }) pcieIs (by decide +kernel) (by decide +kernel),
    runs_steps (c.1.2.2.2.2.2.1 { devReq true (some 0x24003000) with bytes := [5] } 0x24003000 3 0) pcieIs (by decide +kernel) (by decide +kernel),
    runs_stepsTo (c.1.2.2.2.2.2.2.1 1 ⟨false, 0, some fetchFrame⟩ fetchFrame .fetchAdd 8 1 0) pcieIs (by decide +kernel) (by decide +kernel),
    runs_steps (c.1.2.2.2.2.2.2.2.1 1 ⟨false, 0, some fetchFrame⟩ .swap 16 1 0) pcieIs (by decide +kernel) (by decide +kernel),
    runs_stepsTo c.1.2.2.2.2.2.2.2.2.1 (endpoint id) (by decide +kernel) (by decide +kernel),
    runs_steps (c.1.2.2.2.2.2.2.2.2.2.1 cfgReq) cfgIs (by decide +kernel) (by decide +kernel),
    runs_stepsTo (c.1.2.2.2.2.2.2.2.2.2.2 5 true) base base_waits (by decide +kernel)⟩,
   ⟨runs_stepsTo (c.2.1.1 0 true [1]) (endpoint id) (by decide +kernel) (by decide +kernel),
    runs_stepsTo (c.2.1.2.1 0 false [1]) (endpoint id) (by decide +kernel) (by decide +kernel),
    runs_stepsTo (c.2.1.2.2.1 0 [1] 3 (farReq (.hart 3) false)) (asking (.hart 3) false) (by decide +kernel) (by decide +kernel),
    runs_stepsTo (c.2.1.2.2.2.1 0 true [] 3 (farReq (.hart 3) true) (.hostWindowTimeout 0) (.inr rfl)) (asking (.hart 3) true) (by decide +kernel) (by decide +kernel),
    runs_stepsTo (c.2.1.2.2.2.2.1 0 (zeroBytes 64) 0 0 (farReq (.core 0 0 0) false)) (asking (.core 0 0 0) false) (by decide +kernel) (by decide +kernel),
    runs_stepsTo (c.2.1.2.2.2.2.2.1 0 [] 90 (farReq (.engine 90) true) theEngine (.hostWindowTimeout 0) (.inr rfl)) (asking (.engine 90) true)
      (by decide +kernel) (by decide +kernel),
    runs_stepsTo (c.2.1.2.2.2.2.2.2.1 0 (zeroBytes 8) (waitT hostAt) (waitOp hostAt) waitF ⟨0, 1, 0⟩ .b64 false .t (.v 4) (.v 2) 0) (awaiting hostAt (endpoint id)) (by decide +kernel)
      (by simp only [HostWaits, LoneFlight, Sound]; decide +kernel),
    runs_stepsTo (c.2.1.2.2.2.2.2.2.2 0 false [1] (waitT hostAt) (waitOp hostAt) waitF) (awaiting hostAt (endpoint id)) (by decide +kernel)
      (by simp only [HostWaits, LoneFlight]; decide +kernel)⟩,
   runs_steps (c.2.2.1 1 0) (endpoint id) (by decide +kernel) (by decide +kernel),
   runs_steps (c.2.2.2.1 1 5) (endpoint id) (by decide +kernel) (by decide +kernel),
   runs_steps (c.2.2.2.2.1 1) base base_waits (by decide +kernel),
   runs_stepsTo (c.2.2.2.2.2.1 1 5) base base_waits (by decide +kernel),
   runs_steps (c.2.2.2.2.2.2 1) (endpoint id) (by decide +kernel) (by decide +kernel)⟩

/-- Channel 3 with a signal of this cycle; timer 2 at its compare, with a period and a counter that no region has bound. -/
def timed : State := withS fun y => { y with rtimers := modAt y.rtimers 2 fun r => { r with en := true, per := 5, int := true, ctr := 7 } }
def sigNow : State := withM fun m => { m with sigOld := [(3, 4, 8)] }
def enRoute : Irq := { routes := [(3, { en := true, hart := 1, file := 0, eiid := 9 })] }

theorem met_InterruptsAndTimers (c : Obligations.InterruptsAndTimers) :
    ((1, 0, 9) ∈ (enRoute.deliver 3).imsic ∧ (look ({} : IRoute) (enRoute.deliver 4).routes 4).pend = true) ∧
    Runs (.intRouteWrite 1 (9 * 2 ^ 40)) base ∧ Runs (.intRouteWrite 1 (2 ^ 63 + 5)) base ∧ Runs (.sigpendRead 3) sigNow ∧ Runs (.sigpendRead 3) base ∧
    Runs .timeBaseTick (withS id) ∧ Runs (.regionTimerFire 2) timed ∧ Runs (.rtmrFiredClear 2) base ∧ Runs (.rtmrCtrerrClear 2) base :=
  ⟨⟨(c.1.1 enRoute 3 (by decide)).1, (c.1.2.1 enRoute 4 (by decide)).1⟩,
   runs_steps (c.1.2.2.1 1 (9 * 2 ^ 40)) base base_waits (by decide +kernel),
   runs_stepsTo (c.1.2.2.2 1 (2 ^ 63 + 5)) base base_waits (by decide +kernel),
   runs_stepsTo (c.2.1 3 4 8) sigNow (by decide +kernel) (by decide +kernel),
   runs_steps (c.2.2.1 3) base base_waits (by decide +kernel),
   runs_steps c.2.2.2.1 (withS id) (by decide +kernel) (by decide +kernel),
   runs_stepsTo (c.2.2.2.2.1 2) timed (by decide +kernel) (by decide +kernel),
   runs_steps (c.2.2.2.2.2.1 2) base base_waits (by decide +kernel),
   runs_steps (c.2.2.2.2.2.2 2) base base_waits (by decide +kernel)⟩

/-- Hart 0 has started, the others wait; its store of an identity to hart 3's page. -/
def started : State := withS fun y => { y with harts := .run 0x100000000 0 0 :: List.replicate 15 .wfi }
def wakeReq : HartReq := { bytes := [5, 0, 0, 0] }

/-- Timer 2 has fired in this tick. -/
def firedNow : State := withS fun y => { y with rtimers := modAt y.rtimers 2 fun r => { r with firedAt := some y.ticks } }

theorem met_RegistersAndManagement (c : Obligations.RegistersAndManagement) :
    (Runs (.registerWrite (0x30023000 + 0x20 * 2) true 9) base ∧ Runs (.registerWrite (0x30023000 + 0x20 * 2) true 9) firedNow ∧ Runs (.registerWrite (0x30026100 + 8 * 2) true 9) base ∧
      Runs (.registerWrite 0x30024028 true 0x5000) base ∧ Runs (.sysqCfgWrite 1 (2 ^ 63 + 3)) base ∧ Runs (.sysqCfgWrite 1 (2 ^ 63 + 4)) base ∧
      Runs (.controlCoreStore fetchFrame { bytes := [1, 2] }) base ∧ Runs (.controlCoreStore fetchFrame { op := .load, len := 4 }) base ∧
      Runs (.controlCoreStore fetchFrame { op := .load, len := 4, cacheBad := true }) base ∧
      Runs (.controlCoreStore 0x10000 { bytes := [1] }) base ∧
      exec (.controlCoreStore 0x0C000000 { bytes := [1] }) base = .refused (.deviceWindow 0x0C000000) ∧
      Runs (.controlCoreStore 0x24003000 wakeReq) started ∧ Runs (.controlCoreStore 0x30026004 { mmode := false, bytes := zeroBytes 4 }) base ∧
      Runs (.controlCoreStore hostAt { op := .load, len := 4 }) (endpoint id) ∧ Runs (.controlCoreStore 0x31000103 { bytes := [1] }) base ∧
      Runs (.controlCoreStore 0 { op := .time }) base ∧ Runs (.controlCoreStore 0 { op := .stimecmp, bytes := zeroBytes 8 }) base ∧
      Runs (.controlCoreStore 0 { op := .vstimecmp, bytes := zeroBytes 8 }) base ∧ Runs (.controlCoreStore 0 { op := .pending }) base) ∧
    (Runs (.pkgPlimitWrite 100) base ∧ Runs (.secntClear 3) base ∧ Runs .cavernPatrol base) ∧
    Runs (.i3cSetdasa 8) base ∧ Runs (.i3cEntdaa 8) base ∧ Runs (.i3cEntdaa 9) (withS fun y => { y with i3cAddr := some 8 }) ∧
    Runs (.i3cPrivateRead 0 8) base ∧ Runs (.i3cPrivateWrite 0xFFF8 2000) base ∧ Runs (.i3cPrivateWrite 0 1) base :=
  ⟨⟨runs_steps (c.1.1 2 9) base base_waits (by decide +kernel),
    runs_steps (c.1.2.1 2 9) firedNow (by decide +kernel) (by decide +kernel),
    runs_steps (c.1.2.2.1 2 9) base base_waits (by decide +kernel),
    runs_steps (c.1.2.2.2.1 0x5000) base base_waits trivial,
    runs_steps (c.1.2.2.2.2.1 1 (2 ^ 63 + 3)) base base_waits (by decide +kernel),
    runs_steps (c.1.2.2.2.2.2.1 1 (2 ^ 63 + 4)) base base_waits (by decide +kernel),
    runs_stepsTo (c.1.2.2.2.2.2.2.1 fetchFrame { bytes := [1, 2] }) base base_waits (by decide +kernel),
    runs_steps (c.1.2.2.2.2.2.2.2.1 fetchFrame { op := .load, len := 4 }) base base_waits (by decide +kernel),
    runs_stepsTo (c.1.2.2.2.2.2.2.2.2.1 fetchFrame { op := .load, len := 4, cacheBad := true }) base base_waits (by decide +kernel),
    runs_steps (c.1.2.2.2.2.2.2.2.2.2.1 0x10000 { bytes := [1] }) base base_waits (by decide +kernel),
    c.1.2.2.2.2.2.2.2.2.2.2.1 0x0C000000 { bytes := [1] } base rfl (by decide) (by decide) (by decide),
    runs_stepsTo (c.1.2.2.2.2.2.2.2.2.2.2.2.1 0x24003000 wakeReq 3 0x100000000 0 0) started (by decide +kernel) (by decide +kernel),
    runs_steps (c.1.2.2.2.2.2.2.2.2.2.2.2.2.1 0x30026004 { mmode := false, bytes := zeroBytes 4 }) base base_waits (by decide +kernel),
    runs_stepsTo (c.1.2.2.2.2.2.2.2.2.2.2.2.2.2.1 hostAt { op := .load, len := 4 } 0) (endpoint id) (by decide +kernel) (by decide +kernel),
    runs_stepsTo (c.1.2.2.2.2.2.2.2.2.2.2.2.2.2.2.1 0x31000103 { bytes := [1] } 0 0x103) base base_waits (by decide +kernel),
    runs_steps (c.1.2.2.2.2.2.2.2.2.2.2.2.2.2.2.2.1 0 { op := .time }) base base_waits rfl,
    runs_steps (c.1.2.2.2.2.2.2.2.2.2.2.2.2.2.2.2.2.1 0 { op := .stimecmp, bytes := zeroBytes 8 }) base base_waits rfl,
    runs_steps (c.1.2.2.2.2.2.2.2.2.2.2.2.2.2.2.2.2.2.1 0 { op := .vstimecmp, bytes := zeroBytes 8 }) base base_waits rfl,
    runs_stepsTo (c.1.2.2.2.2.2.2.2.2.2.2.2.2.2.2.2.2.2.2 0 { op := .pending }) base base_waits rfl⟩,
   ⟨runs_steps (c.2.1.1 100) base base_waits trivial,
    runs_stepsTo (c.2.1.2.1 3) base base_waits (by decide +kernel),
    runs_stepsTo c.2.1.2.2 base base_waits trivial⟩,
   runs_steps (c.2.2.1 8) base base_waits trivial,
   runs_steps (c.2.2.2.1 8) base base_waits (by decide +kernel),
   runs_steps (c.2.2.2.2.1 9) (withS fun y => { y with i3cAddr := some 8 }) (by decide +kernel) (by decide +kernel),
   runs_stepsTo (c.2.2.2.2.2.1 0 8) base base_waits trivial,
   runs_steps (c.2.2.2.2.2.2.1 0xFFF8 2000) base base_waits rfl,
   runs_steps (c.2.2.2.2.2.2.2 0 1) base base_waits (by decide)⟩

/-- Reset with a word placed; the quarter that is picked there; its machine as the word is fetched. -/
def placed (w : DWord) : State := State.reset.withFetchWord 64 w.toNat
def placedQ (w : DWord) : Quarter := (placed w).mach.quarters.headD baseQ
def placedM (w : DWord) : Mach := { (placed w).mach with latch := [], cur := (placedQ w).id }
def addWord : DWord := codeWord 0x10 0 0 0 0 (bodyOfA 1 2 3 0x10A 0)
def earlyWord : DWord := codeWord 0x10 0 0 0 0 (bodyOfA 1 0x108 3 0x10A 0)
def flagWord : DWord := codeWord 0x10 0 0 1 0 (bodyOfA 1 2 3 0x10A 0)
def badWord : DWord := codeWord 0x1A 0 0 0 0 0
def fetchTlb (w : DWord) : Option TlbEnt :=
  match fetchWord (placed w).sys (placedM w) (placedQ w).core ((placed w).mach.eff (placedQ w).launch) (placedQ w).pc.toNat with
  | .ok _ t => t
  | _ => none

theorem met_StepKeeps (a : Obligations.StepKeepsPackageLegal) (b : Obligations.StepKeepsMemoryForm) (c : Obligations.StepKeepsFreshKeys)
    (d : Obligations.StepsEndSettled) :
    ∃ t, step (placed addWord) = .next t ∧ PackageLegal t ∧ t.memOk ∧ FreshKeys t.mach ∧ Settled t := by
  have hp : PackageLegal (placed addWord) := by simp only [PackageLegal]; decide +kernel
  have hm : (placed addWord).memOk := by decide +kernel
  have hf : FreshKeys (placed addWord).mach := by simp only [FreshKeys]; decide +kernel
  have hs : Settled (placed addWord) := by simp only [Settled]; decide +kernel
  have hn : (nextOf (step (placed addWord))).isSome = true := by decide +kernel
  cases h : step (placed addWord) with
  | next t => exact ⟨t, rfl, a _ _ hp h, b _ _ hm h, c _ _ hf h, d _ _ hs h⟩
  | fault f => rw [h] at hn; exact nomatch hn
  | refused r => rw [h] at hn; exact nomatch hn

theorem met_DecodeUndoesEncode (c : Obligations.DecodeUndoesEncode) :
    ∃ w, encode (.nop ⟨7, 12, 0⟩) = some w ∧ decodeWord 3 w = .ok (.nop ⟨7, 12, 0⟩) := c _ (by decide)

theorem met_EncodeUndoesDecode (c : Obligations.EncodeUndoesDecode) :
    encode (.add ⟨0, 0, 0⟩ .wrap (.v 1) (.v 2) (.v 3)) = some addWord := (c 3 addWord _ (by decide +kernel)).2

/-- The clause that the word stands in. -/
def placedH (w : DWord) : Pc × DWord := (placedQ w).hdr.getD (0, 0)

theorem picks (w : DWord) (h : ((placed w).mach.latch = [(placedQ w).id] ∧ (placed w).mach.quarter? (placedQ w).id = some (placedQ w) ∧
      (∀ k ∈ (placedQ w).tids, ((placed w).mach.thr k).hdr.isSome) ∧ (∀ T ∈ (placed w).mach.threads, T.parity = [] ∧ T.ctxBad = false) ∧
      (∀ x ∈ (placed w).mach.tiles, x.err = 0) ∧ (placedQ w).hdr = some (placedH w)) ∧
    farWords (placed w).sys (placed w).mach (placedQ w).core ((placed w).mach.eff (placedQ w).launch) (placedH w).1.toNat
      (clauseHdr (placedH w).2).words = []) : Picked (placed w) (placedQ w) [] :=
  ⟨h.1.1, h.1.2.1, h.1.2.2.1, h.1.2.2.2.1, h.1.2.2.2.2.1, placedH w, h.1.2.2.2.2.2, fun _ => h.2⟩

/-- A thread whose flag 1 counts 15, at a word that names it. -/
def roomless : State :=
  let s := placed flagWord
  { s with mach := { s.mach with threads := s.mach.threads.map fun t => { t with flags := t.flags.set 0 15 } } }

theorem met_StepRuns (c : Obligations.StepRuns) :
    (∃ m, step (placed addWord) = exec (.add ⟨0, 0, 0⟩ .wrap (.v 1) (.v 2) (.v 3)) { placed addWord with mach := m }) ∧
    (∃ m, step (placed earlyWord) = .next ({ placed earlyWord with mach := m } : State).settle) ∧
    (∃ m, step (placed badWord) = .next ({ placed badWord with mach := m } : State).settle) ∧
    (∃ m, step roomless = .next ({ roomless with mach := m } : State).settle) ∧
    step { State.reset with agenda := [.ev .timeBaseTick] } = exec .timeBaseTick { State.reset with agenda := [] } :=
  ⟨⟨_, ((c.1 (placed addWord) (placedQ addWord) [] addWord (fetchTlb addWord) (picks _ (by decide +kernel)) (by decide +kernel)).2
      (by decide +kernel)).1 _ (by decide +kernel) (by decide +kernel) (by decide +kernel)⟩,
   ⟨_, ((c.1 (placed earlyWord) (placedQ earlyWord) [] earlyWord (fetchTlb earlyWord) (picks _ (by decide +kernel)) (by decide +kernel)).2
      (by decide +kernel)).2.1 (.add ⟨0, 0, 0⟩ .wrap (.v 1) .x0 (.v 3)) 0x04 (by decide +kernel) (by decide +kernel) (by decide +kernel)⟩,
   ⟨_, ((c.1 (placed badWord) (placedQ badWord) [] badWord (fetchTlb badWord) (picks _ (by decide +kernel)) (by decide +kernel)).2
      (by decide +kernel)).2.2 0x01 (by decide +kernel)⟩,
   ⟨_, (c.1 roomless (placedQ flagWord) [] flagWord (fetchTlb flagWord)
      ⟨by decide +kernel, by decide +kernel, by decide +kernel, by decide +kernel, by decide +kernel, placedH flagWord, by decide +kernel,
        fun _ => by decide +kernel⟩ (by decide +kernel)).1 (by decide +kernel)⟩,
   c.2 { State.reset with agenda := [.ev .timeBaseTick] } .timeBaseTick [] rfl rfl rfl⟩

theorem met_ConversionRounds (c : Obligations.ConversionRounds) :
    (∃ s m e, fp32.dec (fp32.conv 0 false (.num false 1 0)) = .num s m e) ∧ fpuAdd 0 0x7FC00000 0 = 0x7FC00000 :=
  ⟨(c.1 false 1 0 (by decide +kernel)).1, (c.2.2 0 0x7FC00000 0 (by decide +kernel)).1⟩

end Sys2Proof.Tests
end

