-- ==== Sys2Proof/Tests/Slice0.lean ====
section
/-! SUPPORT. Tests: an ill-formed instruction for every check of WellFormed, words that the spec lists, and results that the spec
states in its examples. -/

namespace Sys2Proof.Tests

set_option Elab.async false
open Sys2Proof.Machine

/-! ### Ill-formed instructions, each refused by its check -/

/-- Refused: a FLAG of 13 (spec/10 R270). -/
theorem test_ill_flag : Instr.wf (.nop ⟨0, 13, 0⟩) = false := by decide
/-- Refused: a LOOK without a port (spec/10 R274). -/
theorem test_ill_look : Instr.wf (.add ⟨0, 0, 1⟩ .wrap (.v 1) (.v 2) (.v 3)) = false := by decide
/-- Refused: a step of the package, which is no word. -/
theorem test_ill_step : Instr.wf (.timeBaseTick) = false := by decide
/-- Refused: `x0` as a destination (spec/10 R276). -/
theorem test_ill_dest : Instr.wf (.add ⟨0, 0, 0⟩ .wrap .x0 (.v 2) (.v 3)) = false := by decide
/-- Refused: a pair at `c7` (spec/10 R276). -/
theorem test_ill_pair : Instr.wf (.mov ⟨0, 0, 0⟩ true (.c 7) (.v 2)) = false := by decide
/-- Refused: a pair at `x1` (spec/10 R276). -/
theorem test_ill_pair_x : Instr.wf (.mov ⟨0, 0, 0⟩ true (.v 2) .x1) = false := by decide
/-- Refused: a quad at `c5` (spec/15 R364). -/
theorem test_ill_quad : Instr.wf (.ld ⟨0, 0, 0⟩ .b128 false .t (.c 5) (.v 2) 0) = false := by decide
/-- Refused: a state at `zero` (spec/14 R356). -/
theorem test_ill_state : Instr.wf (.tment ⟨0, 0, 0⟩ .zero (.v 2)) = false := by decide
/-- Refused: a status word after `c7` (spec/15 R367). -/
theorem test_ill_status : Instr.wf (.ld ⟨0, 0, 0⟩ .b32 true .t (.c 7) (.v 2) 0) = false := by decide
/-- Refused: a status word after `zero` (spec/15 R367). -/
theorem test_ill_status_zero : Instr.wf (.st ⟨0, 0, 0⟩ .b32 true .t .zero (.v 2) 0) = false := by decide
/-- Refused: a conversion between integers (spec/14 R344). -/
theorem test_ill_fcvt : Instr.wf (.fcvt ⟨0, 0, 0⟩ .i32 .n32 (.v 1) (.v 2)) = false := by decide
/-- Refused: `min` of 64 bits (spec/15 R370). -/
theorem test_ill_atom : Instr.wf (.atom ⟨0, 0, 0⟩ .min .b64 .t (.v 2) (.v 4) (.v 6)) = false := by decide
/-- Refused: `red` with `xchg` (spec/15 R370). -/
theorem test_ill_red : Instr.wf (.red ⟨0, 0, 0⟩ .xchg .i32 .t (.v 4) (.v 6)) = false := by decide
/-- Refused: a barrier LEVEL of 5 (spec/12 R297). -/
theorem test_ill_level : Instr.wf (.bar ⟨0, 0, 0⟩ 5 0 (.imm 1)) = false := by decide
/-- Refused: barrier 4 of a wave (spec/12 R297). -/
theorem test_ill_num : Instr.wf (.barw ⟨0, 0, 0⟩ 0 4) = false := by decide
/-- Refused: an immediate count at LEVEL 4 (spec/12 R297). -/
theorem test_ill_count : Instr.wf (.bara ⟨0, 0, 0⟩ 4 0 (.imm 1)) = false := by decide
/-- Refused: `zero` as a count register (spec/12 R297). -/
theorem test_ill_count_reg : Instr.wf (.bar ⟨0, 0, 0⟩ 0 0 (.reg .zero)) = false := by decide
/-- Refused: a `qfence` of no queue (spec/17 R414). -/
theorem test_ill_qfence : Instr.wf (.qfence ⟨0, 0, 0⟩ 0 ⟨false, false, false, false, false, false⟩ .zero) = false := by decide
/-- Refused: R without P (spec/17 R414). -/
theorem test_ill_qfence_r : Instr.wf (.qfence ⟨0, 0, 0⟩ 0 ⟨true, false, false, false, false, true⟩ (.v 4)) = false := by decide
/-- Refused: a destination without R (spec/17 R407). -/
theorem test_ill_qfence_d : Instr.wf (.qfence ⟨0, 0, 0⟩ 0 ⟨true, false, false, false, false, false⟩ (.v 4)) = false := by decide
/-- Refused: a pair number without P (spec/17 R407). -/
theorem test_ill_qfence_q : Instr.wf (.qfence ⟨0, 0, 0⟩ 1 ⟨true, false, false, false, false, false⟩ .zero) = false := by decide
/-- Refused: tile size 7 (spec/15 R376). -/
theorem test_ill_tile : Instr.wf (.ldt ⟨0, 0, 0⟩ 7 false (.v 1) (.v 2) 0) = false := by decide
/-- Refused: tile size 7 (spec/15 R376). -/
theorem test_ill_tile_st : Instr.wf (.stt ⟨0, 0, 0⟩ 7 false (.v 1) (.v 2) 0) = false := by decide

/-! ### Words as the spec's listings print them -/

/-- spec/13, the listing after R333. -/
theorem test_listing_sum :
    [decodeWord 3 0x320000090A000000, decodeWord 3 0x2E00000C00000004, decodeWord 3 0x3000000A04034283, decodeWord 3 0x200000080402C280,
      decodeWord 3 0x066002150A854280] =
    [.ok (.rdsr ⟨0, 0, 0⟩ (.v 4) 0), .ok (.movi ⟨0, 0, 0⟩ (.v 6) 4), .ok (.shfl ⟨0, 0, 0⟩ .xor false (.v 5) (.v 4) (.v 6)),
      .ok (.add ⟨0, 0, 0⟩ .wrap (.v 4) (.v 4) (.v 5)), .ok (.exit ⟨0, 0, 0⟩)] := by decide +kernel

/-! ### Results that the spec states -/

/-- A register of the base's thread after one instruction, from registers as listed. -/
def result (i : Instr) (l : List (Nat × Word)) (k : Nat) : Option Word :=
  (nextOf (exec i (withR l))).map fun t => (t.mach.thr baseT.id).regs.getD k 0

/-- An `add v1, v2, v3` word issues and runs as the first instruction after reset. -/
theorem test_add_runs :
    ((nextOf (step (State.reset.withFetchWord 64 (0x10 * 2 ^ 57 + 2 ^ 33 + 2 * 2 ^ 24 + 3 * 2 ^ 15 + 266 * 2 ^ 6)))).map
      fun t => t.mach.quarters.map fun q => q.pc) = some [0x10010] := by decide +kernel

/-- spec/13 after R321: the low half of a 64-bit sum, and its carry. -/
theorem test_addc_low : result (.addc ⟨0, 0, 0⟩ (.v 10) (.v 2) (.v 4) .zero) [(2, 0xFFFFFFFF), (4, 1)] 10 = some 0 := by decide +kernel
theorem test_addc_carry : result (.addc ⟨0, 0, 0⟩ (.v 10) (.v 2) (.v 4) .zero) [(2, 0xFFFFFFFF), (4, 1)] 11 = some 1 := by decide +kernel

/-- spec/13 R321: 3 - 5 under `.n32.sat`; `abs` and `neg.sat` of 0x8000_0000. -/
theorem test_sub_sat : result (.sub ⟨0, 0, 0⟩ .n32 (.v 1) (.v 2) (.v 3)) [(2, 3), (3, 5)] 1 = some 0 := by decide +kernel
theorem test_abs_wraps : result (.abs ⟨0, 0, 0⟩ false (.v 1) (.v 2)) [(2, 0x80000000)] 1 = some 0x80000000 := by decide +kernel
theorem test_neg_sat : result (.neg ⟨0, 0, 0⟩ true (.v 1) (.v 2)) [(2, 0x80000000)] 1 = some 0x7FFFFFFF := by decide +kernel

/-- spec/13 R325: a field that runs past bit 31. -/
theorem test_bfx_past : result (.bfx ⟨0, 0, 0⟩ true (.v 1) (.v 2) (.v 3)) [(2, 0xF0000000), (3, 28 + 8 * 256)] 1 = some 0xFFFFFFFF := by
  decide +kernel

/-- spec/05 R166: the tree of five contributions 1.0 and four times 2^-24. -/
theorem test_tree_sum : treeReduce (fpuAdd 0) 0 [0x3F800000, 0x33800000, 0x33800000, 0x33800000, 0x33800000] = 0x3F800002 := by
  decide +kernel

/-- spec/13 R331: with its partner's slot empty, a thread receives its own value, or 0 under `.z`. -/
theorem test_shfl_own : result (.shfl ⟨0, 0, 0⟩ .xor false (.v 5) (.v 4) (.v 6)) [(4, 9), (6, 4)] 5 = some 9 := by decide +kernel
theorem test_shfl_zero : result (.shfl ⟨0, 0, 0⟩ .xor true (.v 5) (.v 4) (.v 6)) [(4, 9), (6, 4)] 5 = some 0 := by decide +kernel

end Sys2Proof.Tests
end

