-- ==== Sys2Proof/Tests/Words.lean ====
section
/-! SUPPORT. Words written out from the encoding tables of the spec, one for every instruction at least, with the instruction that each
stands for. -/

namespace Sys2Proof.Tests

set_option Elab.async false
open Sys2Proof.Machine

/-- Bodies of the formats L, B, X and Q (spec/10 R275). -/
def bodyOfL (d imm : Nat) : Nat := d * 2 ^ 33 + imm
def bodyOfB (r off : Nat) : Nat := r * 2 ^ 33 + off
def bodyOfX (acc a b sA sB pat mods : Nat) : Nat :=
  acc * 2 ^ 36 + a * 2 ^ 27 + b * 2 ^ 18 + sA * 2 ^ 15 + sB * 2 ^ 12 + pat * 2 ^ 9 + mods
def bodyOfQ (queue a b c mods : Nat) : Nat := queue * 2 ^ 36 + a * 2 ^ 27 + b * 2 ^ 18 + c * 2 ^ 9 + mods

/-- Each word decodes to its instruction, and is its encoding. -/
def allDecode (l : List (DWord × Instr)) : Bool :=
  l.all fun p => decodeWord 3 p.1 == .ok p.2 && p.2.wf && encode p.2 == some p.1

/-- spec/12 R296, R297. -/
theorem test_words_control : allDecode [
    (codeWord 0x00 0 0 0 0 (bodyOfB 0x10A 0x1FFFFFFFE), .bra ⟨0, 0, 0⟩ 0x1FFFFFFFE),
    (codeWord 0x00 1 0 0 0 (bodyOfB 3 5), .brz ⟨0, 0, 0⟩ (.v 3) 5),
    (codeWord 0x00 2 0 0 0 (bodyOfB 0x108 6), .brnz ⟨0, 0, 0⟩ .x0 6),
    (codeWord 0x01 0 0 0 0 (bodyOfA 0x10A 4 0x10A 0x10A 0), .brx ⟨0, 0, 0⟩ (.v 4)),
    (codeWord 0x02 0 0 0 0 (bodyOfB 0x10A 9), .callDirect ⟨0, 0, 0⟩ 9),
    (codeWord 0x02 1 0 0 0 (bodyOfA 0x10A 6 0x10A 0x10A 0), .callReg ⟨0, 0, 0⟩ (.v 6)),
    (codeWord 0x03 0 0 0 0 (bodyOfA 0x10A 0x10A 0x10A 0x10A 0), .ret ⟨0, 0, 0⟩),
    (codeWord 0x03 1 0 0 0 (bodyOfA 0x10A 0x10A 0x10A 0x10A 0), .reform ⟨0, 0, 0⟩),
    (codeWord 0x03 2 0 0 0 (bodyOfA 0x10A 0x10A 0x10A 0x10A 0), .yield ⟨0, 0, 0⟩),
    (codeWord 0x03 3 0 0 0 (bodyOfA 0x10A 0x10A 0x10A 0x10A 0), .exit ⟨0, 0, 0⟩),
    (codeWord 0x04 0 0 0 0 (bodyOfI 0x10A 0x10A 0x3F0040), .bar ⟨0, 0, 0⟩ 1 31 (.imm 64)),
    (codeWord 0x04 1 0 0 0 (bodyOfI 0x10A 7 0x870000), .bara ⟨0, 0, 0⟩ 4 7 (.reg (.v 7))),
    (codeWord 0x04 2 0 0 0 (bodyOfI 0x10A 0x10A 0x4F0000), .barw ⟨0, 0, 0⟩ 2 15),
    (codeWord 0x05 0 0 0 0 (bodyOfA 1 2 4 6 0), .spawn ⟨0, 0, 0⟩ (.v 1) (.v 2) (.v 4) (.v 6)),
    (codeWord 0x05 1 0 0 0 (bodyOfA 0x10A 0x10A 0x10A 0x10A 0), .join ⟨0, 0, 0⟩),
    (codeWord 0x06 0 7 12 0 (bodyOfI 0x10A 0x10A 0), .nop ⟨7, 12, 0⟩),
    (codeWord 0x06 1 0 0 0 (bodyOfI 0x10A 0x10A 0xFFFFFF), .brk ⟨0, 0, 0⟩ 0xFFFFFF)] = true := by
  decide +kernel

/-- spec/13 R320, R322. -/
theorem test_words_integer : allDecode [
    (codeWord 0x10 0 0 0 0 (bodyOfA 1 2 3 0x10A 2), .add ⟨0, 0, 0⟩ .i32 (.v 1) (.v 2) (.v 3)),
    (codeWord 0x10 1 0 0 0 (bodyOfA 1 2 3 0x10A 3), .sub ⟨0, 0, 0⟩ .n32 (.v 1) (.v 2) (.v 3)),
    (codeWord 0x10 2 0 0 0 (bodyOfA 1 2 3 0x10A 0), .mul ⟨0, 0, 0⟩ .wrap (.v 1) (.v 2) (.v 3)),
    (codeWord 0x10 3 0 0 0 (bodyOfA 1 2 3 0x10A 1), .mulh ⟨0, 0, 0⟩ true (.v 1) (.v 2) (.v 3)),
    (codeWord 0x10 8 0 0 0 (bodyOfA 1 2 3 0x10A 0), .min ⟨0, 0, 0⟩ false (.v 1) (.v 2) (.v 3)),
    (codeWord 0x10 9 0 0 0 (bodyOfA 1 2 3 0x10A 1), .max ⟨0, 0, 0⟩ true (.v 1) (.v 2) (.v 3)),
    (codeWord 0x10 4 0 0 0 (bodyOfA 1 2 3 4 2), .mad ⟨0, 0, 0⟩ .i32 (.v 1) (.v 2) (.v 3) (.v 4)),
    (codeWord 0x10 5 0 0 0 (bodyOfA 1 3 4 5 1), .madw ⟨0, 0, 0⟩ true (.v 1) (.v 3) (.v 4) (.v 5)),
    (codeWord 0x10 6 0 0 0 (bodyOfA 1 3 4 0x10A 0), .addc ⟨0, 0, 0⟩ (.v 1) (.v 3) (.v 4) .zero),
    (codeWord 0x10 7 0 0 0 (bodyOfA 0x106 3 4 0x109 0), .subb ⟨0, 0, 0⟩ (.c 6) (.v 3) (.v 4) .x1),
    (codeWord 0x10 10 0 0 0 (bodyOfA 1 2 0x10A 0x10A 2), .abs ⟨0, 0, 0⟩ true (.v 1) (.v 2)),
    (codeWord 0x10 11 0 0 0 (bodyOfA 1 2 0x10A 0x10A 0), .neg ⟨0, 0, 0⟩ false (.v 1) (.v 2)),
    (codeWord 0x11 0 0 0 0 (bodyOfI 1 2 0x800000), .addImm ⟨0, 0, 0⟩ (.v 1) (.v 2) 0x800000),
    (codeWord 0x11 1 0 0 0 (bodyOfI 1 2 0x800001), .subImm ⟨0, 0, 0⟩ (.v 1) (.v 2) 0x800001),
    (codeWord 0x11 2 0 0 0 (bodyOfI 1 2 0x800002), .mulImm ⟨0, 0, 0⟩ (.v 1) (.v 2) 0x800002),
    (codeWord 0x11 3 0 0 0 (bodyOfI 1 2 0x800003), .mulhImm ⟨0, 0, 0⟩ (.v 1) (.v 2) 0x800003),
    (codeWord 0x11 8 0 0 0 (bodyOfI 1 2 0x800008), .minImm ⟨0, 0, 0⟩ (.v 1) (.v 2) 0x800008),
    (codeWord 0x11 9 0 0 0 (bodyOfI 1 2 0x800009), .maxImm ⟨0, 0, 0⟩ (.v 1) (.v 2) 0x800009)] = true := by
  decide +kernel

/-- spec/13 R323, R325. -/
theorem test_words_logic : allDecode [
    (codeWord 0x12 0 0 0 0 (bodyOfA 1 2 3 0x10A 0), .and ⟨0, 0, 0⟩ (.v 1) (.v 2) (.v 3)),
    (codeWord 0x13 0 0 0 0 (bodyOfI 1 2 0xFFFFFF), .andImm ⟨0, 0, 0⟩ (.v 1) (.v 2) 0xFFFFFF),
    (codeWord 0x12 1 0 0 0 (bodyOfA 1 2 3 0x10A 0), .or ⟨0, 0, 0⟩ (.v 1) (.v 2) (.v 3)),
    (codeWord 0x13 1 0 0 0 (bodyOfI 1 2 0xFFFFFF), .orImm ⟨0, 0, 0⟩ (.v 1) (.v 2) 0xFFFFFF),
    (codeWord 0x12 2 0 0 0 (bodyOfA 1 2 3 0x10A 0), .xor ⟨0, 0, 0⟩ (.v 1) (.v 2) (.v 3)),
    (codeWord 0x13 2 0 0 0 (bodyOfI 1 2 0xFFFFFF), .xorImm ⟨0, 0, 0⟩ (.v 1) (.v 2) 0xFFFFFF),
    (codeWord 0x12 3 0 0 0 (bodyOfA 1 2 3 0x10A 0), .andn ⟨0, 0, 0⟩ (.v 1) (.v 2) (.v 3)),
    (codeWord 0x13 3 0 0 0 (bodyOfI 1 2 0xFFFFFF), .andnImm ⟨0, 0, 0⟩ (.v 1) (.v 2) 0xFFFFFF),
    (codeWord 0x12 5 0 0 0 (bodyOfA 1 2 3 0x10A 0), .shl ⟨0, 0, 0⟩ (.v 1) (.v 2) (.v 3)),
    (codeWord 0x13 5 0 0 0 (bodyOfI 1 2 31), .shlImm ⟨0, 0, 0⟩ (.v 1) (.v 2) 31),
    (codeWord 0x12 6 0 0 0 (bodyOfA 1 2 3 0x10A 0), .shr ⟨0, 0, 0⟩ (.v 1) (.v 2) (.v 3)),
    (codeWord 0x13 6 0 0 0 (bodyOfI 1 2 31), .shrImm ⟨0, 0, 0⟩ (.v 1) (.v 2) 31),
    (codeWord 0x12 7 0 0 0 (bodyOfA 1 2 3 0x10A 0), .sar ⟨0, 0, 0⟩ (.v 1) (.v 2) (.v 3)),
    (codeWord 0x13 7 0 0 0 (bodyOfI 1 2 31), .sarImm ⟨0, 0, 0⟩ (.v 1) (.v 2) 31),
    (codeWord 0x12 8 0 0 0 (bodyOfA 1 2 3 0x10A 0), .rot ⟨0, 0, 0⟩ (.v 1) (.v 2) (.v 3)),
    (codeWord 0x13 8 0 0 0 (bodyOfI 1 2 31), .rotImm ⟨0, 0, 0⟩ (.v 1) (.v 2) 31),
    (codeWord 0x12 4 0 0 0 (bodyOfA 1 2 0x10A 0x10A 0), .not ⟨0, 0, 0⟩ (.v 1) (.v 2)),
    (codeWord 0x12 9 0 0 0 (bodyOfA 1 2 3 4 0), .shf ⟨0, 0, 0⟩ (.v 1) (.v 2) (.v 3) (.v 4)),
    (codeWord 0x14 0 0 0 0 (bodyOfA 1 2 3 0x10A 1), .bfx ⟨0, 0, 0⟩ true (.v 1) (.v 2) (.v 3)),
    (codeWord 0x14 1 0 0 0 (bodyOfA 1 2 3 4 0), .bfi ⟨0, 0, 0⟩ (.v 1) (.v 2) (.v 3) (.v 4)),
    (codeWord 0x14 2 0 0 0 (bodyOfA 1 2 0x10A 0x10A 0), .popc ⟨0, 0, 0⟩ (.v 1) (.v 2)),
    (codeWord 0x14 3 0 0 0 (bodyOfA 1 2 0x10A 0x10A 0), .clz ⟨0, 0, 0⟩ (.v 1) (.v 2)),
    (codeWord 0x14 4 0 0 0 (bodyOfA 1 2 0x10A 0x10A 0), .ctz ⟨0, 0, 0⟩ (.v 1) (.v 2)),
    (codeWord 0x14 5 0 0 0 (bodyOfA 1 2 0x10A 0x10A 0), .brev ⟨0, 0, 0⟩ (.v 1) (.v 2))] = true := by
  decide +kernel

/-- spec/13 R326, R327, R329, R330, R334. -/
theorem test_words_select : allDecode [
    (codeWord 0x15 0 0 0 0 (bodyOfA 1 2 3 4 0), .sel ⟨0, 0, 0⟩ (.v 1) (.v 2) (.v 3) (.v 4)),
    (codeWord 0x15 1 0 0 0 (bodyOfA 1 2 3 0x10A 9), .cmp ⟨0, 0, 0⟩ .geu (.v 1) (.v 2) (.v 3)),
    (codeWord 0x15 2 0 0 0 (bodyOfA 2 4 3 0x10A 7), .lea ⟨0, 0, 0⟩ 3 true (.v 2) (.v 4) (.v 3)),
    (codeWord 0x15 3 0 0 0 (bodyOfA 2 4 0x10A 0x10A 1), .mov ⟨0, 0, 0⟩ true (.v 2) (.v 4)),
    (codeWord 0x16 1 0 0 0 (bodyOfI 1 2 0x6FFFFF), .cmpImm ⟨0, 0, 0⟩ .ltu (.v 1) (.v 2) 0xFFFFF),
    (codeWord 0x16 2 0 0 0 (bodyOfI 2 4 0x800000), .leaImm ⟨0, 0, 0⟩ (.v 2) (.v 4) 0x800000),
    (codeWord 0x17 0 0 0 0 (bodyOfL 1 0xDEADBEEF), .movi ⟨0, 0, 0⟩ (.v 1) 0xDEADBEEF),
    (codeWord 0x18 0 0 0 0 (bodyOfA 5 4 6 0x10A 3), .shfl ⟨0, 0, 0⟩ .xor false (.v 5) (.v 4) (.v 6)),
    (codeWord 0x18 1 0 0 0 (bodyOfA 5 4 0x10A 0x10A 2), .vote ⟨0, 0, 0⟩ .all (.v 5) (.v 4)),
    (codeWord 0x19 0 0 0 0 (bodyOfI 5 0x10A 35), .rdsr ⟨0, 0, 0⟩ (.v 5) 0x23),
    (codeWord 0x19 1 0 0 0 (bodyOfI 0x10A 4 40), .wrsr ⟨0, 0, 0⟩ (.v 4) 0x28)] = true := by
  decide +kernel

/-- spec/14 R340, R344, R346, R349. -/
theorem test_words_float : allDecode [
    (codeWord 0x30 0 0 0 0 (bodyOfA 1 2 3 0x10A 0), .fadd ⟨0, 0, 0⟩ (.v 1) (.v 2) (.v 3)),
    (codeWord 0x30 1 0 0 0 (bodyOfA 1 2 3 0x10A 0), .fsub ⟨0, 0, 0⟩ (.v 1) (.v 2) (.v 3)),
    (codeWord 0x30 2 0 0 0 (bodyOfA 1 2 3 0x10A 0), .fmul ⟨0, 0, 0⟩ (.v 1) (.v 2) (.v 3)),
    (codeWord 0x30 8 0 0 0 (bodyOfA 1 2 3 0x10A 0), .fscale ⟨0, 0, 0⟩ (.v 1) (.v 2) (.v 3)),
    (codeWord 0x30 3 0 0 0 (bodyOfA 1 2 3 4 0), .ffma ⟨0, 0, 0⟩ (.v 1) (.v 2) (.v 3) (.v 4)),
    (codeWord 0x30 4 0 0 0 (bodyOfA 1 2 3 0x10A 1), .fmin ⟨0, 0, 0⟩ true (.v 1) (.v 2) (.v 3)),
    (codeWord 0x30 5 0 0 0 (bodyOfA 1 2 3 0x10A 0), .fmax ⟨0, 0, 0⟩ false (.v 1) (.v 2) (.v 3)),
    (codeWord 0x30 6 0 0 0 (bodyOfA 1 2 3 0x10A 6), .fcmp ⟨0, 0, 0⟩ .un (.v 1) (.v 2) (.v 3)),
    (codeWord 0x30 7 0 0 0 (bodyOfA 1 2 0x10A 0x10A 0), .fclass ⟨0, 0, 0⟩ (.v 1) (.v 2)),
    (codeWord 0x31 0 0 0 0 (bodyOfA 1 2 0x10A 0x10A 29), .fcvt ⟨0, 0, 0⟩ .n32 .fp19 (.v 1) (.v 2)),
    (codeWord 0x31 1 0 0 0 (bodyOfA 1 2 0x10A 0x10A 4), .frnd ⟨0, 0, 0⟩ .dn (.v 1) (.v 2)),
    (codeWord 0x31 2 0 0 0 (bodyOfA 1 2 3 0x10A 1), .fpack ⟨0, 0, 0⟩ true (.v 1) (.v 2) (.v 3)),
    (codeWord 0x32 0 0 0 0 (bodyOfA 1 2 3 4 1), .fdot2 ⟨0, 0, 0⟩ true (.v 1) (.v 2) (.v 3) (.v 4)),
    (codeWord 0x32 1 0 0 0 (bodyOfA 1 2 3 4 1), .fdot4 ⟨0, 0, 0⟩ true (.v 1) (.v 2) (.v 3) (.v 4)),
    (codeWord 0x40 0 0 1 15 (bodyOfA 1 2 0x10A 0x10A 0), .sfe2 ⟨0, 1, 15⟩ (.v 1) (.v 2)),
    (codeWord 0x40 1 0 1 15 (bodyOfA 1 2 0x10A 0x10A 0), .sfl2 ⟨0, 1, 15⟩ (.v 1) (.v 2)),
    (codeWord 0x40 2 0 1 15 (bodyOfA 1 2 0x10A 0x10A 0), .sfrcp ⟨0, 1, 15⟩ (.v 1) (.v 2)),
    (codeWord 0x40 3 0 1 15 (bodyOfA 1 2 0x10A 0x10A 0), .sfrsq ⟨0, 1, 15⟩ (.v 1) (.v 2)),
    (codeWord 0x40 4 0 1 15 (bodyOfA 1 2 0x10A 0x10A 0), .sfsqr ⟨0, 1, 15⟩ (.v 1) (.v 2)),
    (codeWord 0x40 5 0 1 15 (bodyOfA 1 2 0x10A 0x10A 0), .sfsin ⟨0, 1, 15⟩ (.v 1) (.v 2)),
    (codeWord 0x40 6 0 1 15 (bodyOfA 1 2 0x10A 0x10A 0), .sfcos ⟨0, 1, 15⟩ (.v 1) (.v 2)),
    (codeWord 0x40 7 0 1 15 (bodyOfA 1 2 0x10A 0x10A 0), .sftanh ⟨0, 1, 15⟩ (.v 1) (.v 2)),
    (codeWord 0x40 8 0 1 15 (bodyOfA 1 2 0x10A 0x10A 0), .sfsig ⟨0, 1, 15⟩ (.v 1) (.v 2)),
    (codeWord 0x40 9 0 1 15 (bodyOfA 1 2 0x10A 0x10A 0), .sfsilu ⟨0, 1, 15⟩ (.v 1) (.v 2))] = true := by
  decide +kernel

/-- spec/14 R351-R356, R359; the `tmred` word is the one of that chapter's example. -/
theorem test_words_rows : allDecode [
    (codeWord 0x41 0 0 0 0 (bodyOfA 0x10A 1 2 3 22), .topkGroup ⟨0, 0, 0⟩ .p28 .w8 .s (.v 1) (.v 2) (.v 3)),
    (codeWord 0x41 1 0 0 0 (bodyOfA 4 1 2 3 40), .topkRow ⟨0, 0, 0⟩ .w16 .u (.v 4) (.v 1) (.v 2) (.v 3)),
    (codeWord 0x48 0 0 0 0 (bodyOfA 3 1 0x10A 0x10A 0), .tment ⟨0, 0, 0⟩ (.v 3) (.v 1)),
    (codeWord 0x48 1 0 0 0 (bodyOfA 3 6 0x10A 0x10A 0), .tmred ⟨0, 0, 0⟩ (.v 3) (.v 6)),
    (codeWord 0x48 2 0 0 0 (bodyOfA 3 6 9 0x10A 0), .tmmrg ⟨0, 0, 0⟩ (.v 3) (.v 6) (.v 9)),
    (codeWord 0x48 3 0 0 0 (bodyOfA 1 6 9 0x10A 0), .tmscl ⟨0, 0, 0⟩ (.v 1) (.v 6) (.v 9)),
    (codeWord 0x48 4 0 1 1 (bodyOfA 0x10 0x0C 0x10A 0x10A 0), .tmext ⟨0, 1, 1⟩ (.v 16) (.v 12)),
    (codeWord 0x49 0 0 0 0 (bodyOfM 0x10A 2 0x7FF8 0 3), .tmld ⟨0, 0, 0⟩ 3 (.v 2) 0x7FF8),
    (codeWord 0x4C 0 0 0 0 (bodyOfA 1 2 3 4 13), .cvtq ⟨0, 0, 0⟩ .bf16 5 (.v 1) (.v 2) (.v 3) (.v 4)),
    (codeWord 0x4C 1 0 0 0 (bodyOfA 1 2 3 4 6), .rquant ⟨0, 0, 0⟩ 6 (.v 1) (.v 2) (.v 3) (.v 4)),
    (codeWord 0x4C 2 0 0 0 (bodyOfA 1 2 0x10A 0x10A 23), .bscale ⟨0, 0, 0⟩ .f16 7 (.v 1) (.v 2))] = true := by
  decide +kernel

/-- spec/15 R362, R369, R373, R374, R376, R379, R380, R382, R383; the `atom` word is the one of that chapter's example. -/
theorem test_words_memory : allDecode [
    (codeWord 0x50 0 0 0 0 (bodyOfM 8 2 0x7FFF 7 13), .ld ⟨0, 0, 0⟩ .b64 true .x (.v 8) (.v 2) 0x7FFF),
    (codeWord 0x50 1 0 0 0 (bodyOfM 8 2 4 2 4), .st ⟨0, 0, 0⟩ .n16 false .w (.v 8) (.v 2) 4),
    (codeWord 0x51 0 0 0 0 (bodyOfM 8 2 16 0 6), .lds ⟨0, 0, 0⟩ .b128 .t (.v 8) (.v 2) 16),
    (codeWord 0x51 1 0 0 0 (bodyOfM 8 2 1 4 1), .sts ⟨0, 0, 0⟩ .i8 .g (.v 8) (.v 2) 1),
    (codeWord 0x52 0 0 0 0 (bodyOfM 8 2 64 0 14), .ldt ⟨0, 0, 0⟩ 6 true (.v 8) (.v 2) 64),
    (codeWord 0x52 1 0 0 0 (bodyOfM 8 2 64 0 19), .stt ⟨0, 0, 0⟩ 3 true (.v 8) (.v 2) 64),
    (codeWord 0x53 0 0 1 0 (bodyOfM 8 0 (6 * 64) 6 0), .atom ⟨0, 1, 0⟩ .add .i32 .p (.v 8) (.v 0) (.v 6)),
    (codeWord 0x53 1 0 0 0 (bodyOfM 0x10A 2 0x240 5 53), .red ⟨0, 0, 0⟩ .xor .b64 .d (.v 2) (.v 9)),
    (codeWord 0x54 0 0 0 0 (bodyOfM 0x10A 0x10A 0 3 2), .fence ⟨0, 0, 0⟩ .acq .k),
    (codeWord 0x54 1 0 0 0 (bodyOfM 0x10A 2 8 1 8), .prf ⟨0, 0, 0⟩ true .q (.v 2) 8),
    (codeWord 0x55 0 0 0 0 (bodyOfA 0x10A 7 0x10A 0x10A 0), .gjoin ⟨0, 0, 0⟩ (.v 7)),
    (codeWord 0x55 1 0 0 0 (bodyOfA 0x10A 0x10A 0x10A 0x10A 0), .gleave ⟨0, 0, 0⟩),
    (codeWord 0x56 0 0 0 0 (bodyOfA 1 2 3 0x10A 1), .fibld ⟨0, 0, 0⟩ true (.v 1) (.v 2) (.v 3)),
    (codeWord 0x56 1 0 0 0 (bodyOfA 2 4 5 0x10A 1), .fibprb ⟨0, 0, 0⟩ (some (.v 5)) (.v 2) (.v 4)),
    (codeWord 0x56 1 0 0 0 (bodyOfA 2 4 0x10A 0x10A 0), .fibprb ⟨0, 0, 0⟩ none (.v 2) (.v 4))] = true := by
  decide +kernel

/-- spec/16 R388; the `mma` word is the one of that chapter's example. -/
theorem test_words_matrix : allDecode [
    (codeWord 0x60 0 0 1 3 (bodyOfX 0 4 5 0 0 0 1), .mma ⟨0, 1, 3⟩ true 0 (.v 4) (.v 5) 0 0),
    (codeWord 0x61 0 0 0 0 (bodyOfX 63 4 5 6 7 2 9), .mmas ⟨0, 0, 0⟩ 2 63 (.v 4) (.v 5) (.v 9) 6 7),
    (codeWord 0x62 0 0 0 0 (bodyOfX 1 4 5 2 3 0 29), .mmaj ⟨0, 0, 0⟩ true 13 1 (.v 4) (.v 5) 2 3),
    (codeWord 0x63 0 0 0 0 (bodyOfQ 0 4 0x10A 0x10A 0), .mmx ⟨0, 0, 0⟩ (.v 4)),
    (codeWord 0x63 1 0 0 0 (bodyOfQ 0 4 0x10A 0x10A 0), .mmr ⟨0, 0, 0⟩ (.v 4)),
    (codeWord 0x64 0 0 0 0 (bodyOfX 2 4 6 3 0 1 21), .tdrain ⟨0, 0, 0⟩ .add true 2 false true 2 (.v 4) (.v 6) 3),
    (codeWord 0x64 1 0 0 0 (bodyOfX 5 0x10A 0x10A 0 0 0 7), .tzero ⟨0, 0, 0⟩ true 3 5)] = true := by
  decide +kernel

/-- spec/17 R407, R414, R429. -/
theorem test_words_engines : allDecode [
    (codeWord 0x70 0 0 0 0 (bodyOfQ 0 4 6 8 2), .cpy ⟨0, 0, 0⟩ false true (.v 4) (.v 6) (.v 8)),
    (codeWord 0x70 1 0 0 0 (bodyOfQ 0 4 6 8 0), .cpyp ⟨0, 0, 0⟩ (.v 4) (.v 6) (.v 8)),
    (codeWord 0x71 0 0 0 0 (bodyOfQ 9 12 0x10A 0x10A 41), .qfence ⟨0, 0, 0⟩ 9 ⟨true, false, false, true, false, true⟩ (.v 12)),
    (codeWord 0x71 1 0 0 0 (bodyOfQ 63 4 0x10A 0x10A 0), .qpost ⟨0, 0, 0⟩ 63 (.v 4)),
    (codeWord 0x71 2 0 0 0 (bodyOfQ 1 4 0x10A 0x10A 0), .rlinv ⟨0, 0, 0⟩ 1 (.v 4)),
    (codeWord 0x72 0 0 0 0 (bodyOfQ 0 4 5 0x10A 0), .ctrset ⟨0, 0, 0⟩ (.v 4) (.v 5)),
    (codeWord 0x72 1 0 0 0 (bodyOfQ 0 4 5 0x10A 0), .ctradd ⟨0, 0, 0⟩ (.v 4) (.v 5)),
    (codeWord 0x72 2 0 0 0 (bodyOfQ 0 4 5 0x10A 0), .ctrwait ⟨0, 0, 0⟩ (.v 4) (.v 5)),
    (codeWord 0x73 0 0 0 0 (bodyOfQ 3 4 0x10A 0x10A 0), .stcfg ⟨0, 0, 0⟩ 3 (.v 4)),
    (codeWord 0x73 1 0 0 0 (bodyOfQ 15 4 0x10A 0x10A 0), .rwait ⟨0, 0, 0⟩ 15 (.v 4)),
    (codeWord 0x73 2 0 0 0 (bodyOfQ 14 4 0x10A 0x10A 0), .rdone ⟨0, 0, 0⟩ 14 (.v 4)),
    (codeWord 0x73 3 0 0 0 (bodyOfQ 13 0x10A 0x10A 0x10A 0), .rclose ⟨0, 0, 0⟩ 13),
    (codeWord 0x76 0 0 0 0 (bodyOfQ 15 4 6 0x10A 0), .sigld ⟨0, 0, 0⟩ 15 (.v 4) (.v 6)),
    (codeWord 0x76 1 0 0 0 (bodyOfQ 14 4 6 8 14), .kstore ⟨0, 0, 0⟩ true .p 14 (.v 4) (.v 6) (.v 8)),
    (codeWord 0x77 0 0 0 0 (bodyOfQ 13 4 6 0x10A 0), .qsig ⟨0, 0, 0⟩ 13 (.v 4) (.v 6)),
    (codeWord 0x77 1 0 0 0 (bodyOfQ 0 4 6 8 13), .bprobe ⟨0, 0, 0⟩ true .d (.v 4) (.v 6) (.v 8)),
    (codeWord 0x78 0 0 0 0 (bodyOfI 0x10A 0x10A 0x123456), .trap ⟨0, 0, 0⟩ 0x123456),
    (codeWord 0x78 1 0 0 0 (bodyOfI 0x10A 0x10A 0xFFFFFF), .sysc ⟨0, 0, 0⟩ 0xFFFFFF),
    (codeWord 0x79 0 0 0 0 (bodyOfA 0x10A 4 5 0x10A 7), .sig ⟨0, 0, 0⟩ .x (.v 4) (.v 5)),
    (codeWord 0x7A 0 0 0 0 (bodyOfA 0x10A 0x10A 0x10A 0x10A 0), .tret ⟨0, 0, 0⟩),
    (codeWord 0x7A 1 0 0 0 (bodyOfA 0x10A 0x10A 0x10A 0x10A 0), .tretEnd ⟨0, 0, 0⟩),
    (codeWord 0x7A 2 0 0 0 (bodyOfA 4 5 0x10A 0x10A 0), .csave ⟨0, 0, 0⟩ (.v 4) (.v 5)),
    (codeWord 0x7A 3 0 0 0 (bodyOfA 0x10A 4 5 0x10A 0), .crest ⟨0, 0, 0⟩ (.v 4) (.v 5)),
    (codeWord 0x7B 0 0 0 0 (bodyOfA 4 0x10A 0x10A 0x10A 0), .rdclk ⟨0, 0, 0⟩ (.v 4))] = true := by
  decide +kernel

end Sys2Proof.Tests
end

section
/-! SUPPORT. `nop` and `rdclk` complete at issue: what an instruction that writes no register leaves of a thread, results that
depend on the package, and the two words of the package time base. -/

namespace Sys2Proof.Machine

/-! ### Equations of the two instructions -/

theorem exec_nop (h : Hdr) (s : State) : exec (.nop h) s = .next (State.settle
    { s with mach := s.mach.withQ fun q => s.mach.onEach q h fun _ _ t => t }) := rfl

theorem exec_rdclk (h : Hdr) (d : Spec) (s : State) : exec (.rdclk h d) s = .next (State.settle
    { s with mach := s.mach.withQ fun q => s.mach.onEach q h fun _ _ t => t.put h d [s.sys.time.lo, s.sys.time.hi] }) := rfl

/-! ### The quarter's threads after an instruction on registers alone -/

/-- A STEP OF THE SHAPE `onEach`, where `f` may depend on the whole state: its frame, and each active thread after it. -/
theorem onEach_only_thr {s : State} {q : Quarter} (h : Hdr) (f : Quarter → Nat → Nat → Thread → Thread) (hr : Running s q)
    (hid : ∀ sl fr t, (f q sl fr t).id = t.id) :
    let t : State := State.settle { s with mach := s.mach.withQ fun q => s.mach.onEach q h (f q) }
    OnlyQuarter s t q ∧ ∀ p ∈ q.active,
      t.mach.thr p.2 = (f q p.1 (s.mach.fr p.1) ((s.mach.thr p.2).uncarry q.pc h.flag.toNat)).moved q.isLast := by
  have ⟨hcur, hnodup, hthr, hending⟩ := hr
  have hwith : (s.mach.withQ fun q => s.mach.onEach q h (f q)) = s.mach.onEach q h (f q) := by
    simp only [Mach.withQ, hcur]
  obtain ⟨hactive, -, -⟩ := onEach_spec s.mach q h (f q) hid hnodup hthr hending
  rw [hwith]
  exact ⟨onEach_only s q h (f q) hr hid, fun p hp => thr_of (hactive p hp)⟩

/-- A thread that moved past a word which wrote none of its registers: only a count that the instruction carried is
signalled, and the end of the clause takes `x`, `c` and the header. -/
theorem uncarry_moved_unwritten (q : Quarter) (f : Nat) (T : Thread) : Unwritten q T ((T.uncarry q.pc f).moved q.isLast) := by
  obtain ⟨hframe, hflags⟩ := uncarry_frame T q.pc f
  have hkept : T.carries q.pc = false → (T.uncarry q.pc f).flags = T.flags := fun hc => by simp [hflags, hc]
  generalize T.uncarry q.pc f = U at hframe hkept
  unfold Unwritten Thread.moved
  by_cases hl : q.isLast
  · simp only [if_pos hl]
    exact ⟨fun k _ => boundary_c _ k, rfl, rfl, hkept, by rw [hframe]; rfl⟩
  · simp only [if_neg hl]
    have hc : U.c = T.c := by rw [hframe]
    exact ⟨fun k _ => congrArg (·.getD k .undef) hc, by rw [hframe]; rfl, by rw [hframe]; rfl, hkept, by rw [hframe]; rfl⟩

/-- AN INSTRUCTION WHOSE RESULT DEPENDS ON THE STATE ALONE completes with these words in every active thread. -/
theorem sameWords_completes (i : Instr) (h : Hdr) (d : Spec) (n : Nat) (words : State → List Word)
    (he : ∀ s, exec i s = .next (State.settle
      { s with mach := s.mach.withQ fun q => s.mach.onEach q h fun _ _ t => t.put h d (words s) }))
    (hn : ∀ s, (words s).length = n) : Completes i h d n fun s _ _ _ _ ws => ws = words s := by
  intro s q hr hd
  obtain ⟨honly, hthr⟩ := onEach_only_thr h (fun _ _ _ t => t.put h d (words s)) hr (by intros; simp)
  refine ⟨_, he s, honly, fun p hp => ⟨words s, hn s, rfl, ?_⟩⟩
  have hfits : DestFits (s.mach.thr p.2) d (words s).length := by
    rw [hn]; exact hd _ (mem_tids hp)
  rw [hthr p hp]
  exact put_effect q h d (words s) (s.mach.thr p.2) hfits

/-! ### The two instructions -/

theorem nop_completesOn (h : Hdr) : CompletesOn (.nop h) fun _ _ T => T := by
  intro s q hr
  obtain ⟨honly, hthr⟩ := onEach_only_thr h (fun _ _ _ t => t) hr (fun _ _ _ => rfl)
  refine ⟨_, exec_nop h s, honly, fun p hp => ?_⟩
  rw [hthr p hp]
  exact uncarry_moved_unwritten q h.flag.toNat (s.mach.thr p.2)

/-- The low and the high word of a 64-bit value, as the rules of the integer instructions write them. -/
theorem lo_hi_eq_words (v : DWord) : [v.lo, v.hi] = Rule.words v := by
  have hlo : v.lo = v.setWidth 32 := BitVec.eq_of_toNat_eq (by simp [DWord.lo])
  have hhi : v.hi = (v >>> 32).setWidth 32 :=
    BitVec.eq_of_toNat_eq (by simp [DWord.hi, Nat.shiftRight_eq_div_pow])
  rw [hlo, hhi, Rule.words]

theorem rdclk_completes (h : Hdr) (d : Spec) : Completes (.rdclk h d) h d 2 fun s _ _ _ _ ws =>
    ws = Rule.words (BitVec.ofNat 64 (s.sys.ticks + s.sys.mtimeOff)) := by
  have hc : Completes (.rdclk h d) h d 2 fun s _ _ _ _ ws => ws = [s.sys.time.lo, s.sys.time.hi] :=
    sameWords_completes (.rdclk h d) h d 2 (fun s => [s.sys.time.lo, s.sys.time.hi]) (exec_rdclk h d) (fun _ => rfl)
  simp only [lo_hi_eq_words] at hc
  exact hc

/-- Settles O6: both are steps of the shape `onEach`. `nop` leaves each thread as the advance finds it (spec/12 R317), and
`rdclk` puts the two words of the package time base (spec/02 R81). -/
theorem nopAndTimeBaseComplete : Obligations.NopAndTimeBaseComplete := by
  unfold Obligations.NopAndTimeBaseComplete
  exact fun h d => ⟨nop_completesOn h, rdclk_completes h d⟩

end Sys2Proof.Machine
end

section
/-! SUPPORT. An instruction on registers alone that reads one, two or three words completes with the result of its rule, once
its function on words agrees with the rule. -/

namespace Sys2Proof.Machine

theorem reg1_completes {i : Instr} {h : Hdr} {d a : Spec} {f g : Word → Word}
    (he : ∀ s, exec i s = onMach (fun _ mc => mc.reg1 h d a f) s) (hfg : ∀ x, f x = g x) :
    Completes i h d 1 (oneWord fun fr t => g (t.rd fr a)) :=
  regOp_completes i h d 1 (fun _ fr t => [f (t.rd fr a)]) _ he (by simp) (fun _ _ _ => rfl)
    fun _ _ _ _ _ => congrArg (fun w => [w]) (hfg _)

theorem reg2_completes {i : Instr} {h : Hdr} {d a b : Spec} {f g : Word → Word → Word}
    (he : ∀ s, exec i s = onMach (fun _ mc => mc.reg2 h d a b f) s) (hfg : ∀ x y, f x y = g x y) :
    Completes i h d 1 (oneWord fun fr t => g (t.rd fr a) (t.rd (fr + 4) b)) :=
  regOp_completes i h d 1 (fun _ fr t => [f (t.rd fr a) (t.rd (fr + 4) b)]) _ he (by simp) (fun _ _ _ => rfl)
    fun _ _ _ _ _ => congrArg (fun w => [w]) (hfg _ _)

theorem reg3_completes {i : Instr} {h : Hdr} {d a b c : Spec} {f g : Word → Word → Word → Word}
    (he : ∀ s, exec i s = onMach (fun _ mc => mc.reg3 h d a b c f) s) (hfg : ∀ x y z, f x y z = g x y z) :
    Completes i h d 1 (oneWord fun fr t => g (t.rd fr a) (t.rd (fr + 4) b) (t.rd (fr + 8) c)) :=
  regOp_completes i h d 1 (fun _ fr t => [f (t.rd fr a) (t.rd (fr + 4) b) (t.rd (fr + 8) c)]) _ he (by simp)
    (fun _ _ _ => rfl) fun _ _ _ _ _ => congrArg (fun w => [w]) (hfg _ _ _)

end Sys2Proof.Machine
end

section
/-! SUPPORT. The exact integers of the meanings, narrowed at the end, are the bit-vector arithmetic of the rules
(spec/13 R321, R322). -/

namespace Sys2Proof.Machine

/-! ### Narrowing -/

theorem wI_clamp_signed (r : Int) : wI (clampI r (-(2 ^ 31)) (2 ^ 31 - 1)) = Rule.clampS r := by
  unfold wI clampI Rule.clampS
  congr 1
  split
  · omega
  · split <;> omega

theorem wI_clamp_unsigned (r : Int) : wI (clampI r 0 (2 ^ 32 - 1)) = Rule.clampU r.toNat := by
  have hclamp : clampI r 0 (2 ^ 32 - 1) = ((min 4294967295 r.toNat : Nat) : Int) := by
    unfold clampI
    split
    · omega
    · split <;> omega
  rw [hclamp]
  exact BitVec.ofInt_natCast 32 _

theorem wI_sW (w : Word) : wI (sW w) = w := BitVec.ofInt_toInt

/-! ### Addition, subtraction, multiplication -/

theorem aluAdd_eq_rule (m : Sat) (a b : Word) : aluAdd m a b = Rule.add m a b := by
  cases m with
  | wrap => exact (BitVec.ofInt_add _ _).trans (congrArg₂ _ (wI_sW a) (wI_sW b))
  | i32 => exact wI_clamp_signed _
  | n32 => exact wI_clamp_unsigned _

theorem aluSub_eq_rule (m : Sat) (a b : Word) : aluSub m a b = Rule.sub m a b := by
  cases m with
  | wrap =>
    show BitVec.ofInt 32 (a.toInt - b.toInt) = a - b
    rw [Int.sub_eq_add_neg, BitVec.ofInt_add, BitVec.ofInt_neg, BitVec.ofInt_toInt, BitVec.ofInt_toInt, BitVec.sub_eq_add_neg]
  | i32 => exact wI_clamp_signed _
  | n32 =>
    refine (wI_clamp_unsigned _).trans (congrArg Rule.clampU ?_)
    exact Int.toNat_sub a.toNat b.toNat

theorem aluMul_eq_rule (m : Sat) (a b : Word) : aluMul m a b = Rule.mul m a b := by
  cases m with
  | wrap => exact (BitVec.ofInt_mul _ _).trans (congrArg₂ _ (wI_sW a) (wI_sW b))
  | i32 => exact wI_clamp_signed _
  | n32 => exact wI_clamp_unsigned _

theorem aluMad_eq_rule (m : Sat) (a b c : Word) : aluMad m a b c = Rule.mad m a b c := by
  cases m with
  | wrap => exact (BitVec.ofInt_add _ _).trans (congrArg₂ _ (aluMul_eq_rule .wrap a b) (wI_sW c))
  | i32 => exact wI_clamp_signed _
  | n32 => exact wI_clamp_unsigned _

/-! ### Products of 64 bits -/

theorem ext_eq_ofInt (u : Bool) (w : Word) : Rule.ext u w = BitVec.ofInt 64 (rdU u w) := by
  cases u with
  | true => exact ((BitVec.ofInt_natCast 64 _).trans (BitVec.ofNat_toNat 64 w)).symm
  | false => rfl

theorem ext_mul_ext (u : Bool) (a b : Word) : Rule.ext u a * Rule.ext u b = BitVec.ofInt 64 (rdU u a * rdU u b) := by
  rw [ext_eq_ofInt, ext_eq_ofInt, BitVec.ofInt_mul]

/-- The high word of an integer modulo 2^64. -/
theorem high_ofInt (r : Int) : ((BitVec.ofInt 64 r) >>> 32).setWidth 32 = wI (r / 2 ^ 32) := by
  apply BitVec.eq_of_toNat_eq
  simp only [wI, BitVec.toNat_setWidth, BitVec.toNat_ushiftRight, BitVec.toNat_ofInt, Nat.shiftRight_eq_div_pow]
  omega

theorem aluMulh_eq_rule (u : Bool) (a b : Word) : aluMulh u a b = Rule.mulh u a b := by
  rw [Rule.mulh, ext_mul_ext, high_ofInt, aluMulh]

theorem aluMadw_eq_rule (u : Bool) (a b : Word) (c : DWord) : pairWords (aluMadw u a b c) = Rule.madw u a b c := by
  refine (lo_hi_eq_words _).trans (congrArg Rule.words ?_)
  rw [aluMadw, ext_mul_ext, BitVec.ofInt_add, BitVec.ofInt_natCast, BitVec.ofNat_toNat, BitVec.setWidth_eq]

/-! ### Carry and borrow -/

theorem toNat_low_bit (c : Word) : (c &&& 1).toNat = c.toNat % 2 := by
  simp [BitVec.toNat_and, Nat.and_one_is_mod]

theorem aluAddc_eq_rule (a b c : Word) : aluAddc a b c = Rule.addc a b c := by
  have hcarry : (a.toNat + b.toNat + c.toNat % 2) / 2 ^ 32 =
      if 4294967296 ≤ a.toNat + b.toNat + c.toNat % 2 then 1 else 0 := by
    split <;> omega
  unfold aluAddc Rule.addc
  dsimp only
  rw [toNat_low_bit, hcarry]
  congr 1
  · apply BitVec.eq_of_toNat_eq
    simp only [wN, BitVec.toNat_ofNat, BitVec.toNat_add, toNat_low_bit]
    omega
  · split <;> rfl

theorem aluSubb_eq_rule (a b c : Word) : aluSubb a b c = Rule.subb a b c := by
  unfold aluSubb Rule.subb uW
  dsimp only
  rw [toNat_low_bit]
  congr 1
  · apply BitVec.eq_of_toNat_eq
    simp only [wI, BitVec.toNat_ofInt, BitVec.toNat_sub, toNat_low_bit]
    omega
  · refine congrArg (fun w => [w]) (if_congr ?_ rfl rfl)
    omega

/-! ### Order, negation, absolute value -/

theorem le_iff_rdU (u : Bool) (a b : Word) : Rule.le u a b = true ↔ rdU u a ≤ rdU u b := by
  cases u with
  | true => exact BitVec.ule_iff_toNat_le.trans Int.ofNat_le.symm
  | false => exact BitVec.sle_iff_toInt_le

theorem aluMin_eq_rule (u : Bool) (a b : Word) : aluMin u a b = Rule.min u a b :=
  if_congr (le_iff_rdU u a b).symm rfl rfl

theorem aluMax_eq_rule (u : Bool) (a b : Word) : aluMax u a b = Rule.max u a b :=
  if_congr (le_iff_rdU u b a).symm rfl rfl

/-- Clamping to 32 bits changes the negation of the most negative word alone. -/
theorem aluNeg_eq_rule (sat : Bool) (a : Word) : aluNeg sat a = Rule.neg sat a := by
  have hwrap : wI (-(sW a)) = -a := BitVec.ofInt_neg.trans (congrArg (- ·) (wI_sW a))
  cases sat with
  | false => exact hwrap
  | true =>
    show wI (clampI (-(sW a)) (-(2 ^ 31)) (2 ^ 31 - 1)) = if (true && a == 0x80000000) = true then 0x7FFFFFFF else -a
    by_cases hmin : a = 0x80000000
    · subst hmin; decide
    · have hlo := BitVec.le_toInt a
      have hhi := BitVec.toInt_lt (x := a)
      have hne : a.toInt ≠ -(2 ^ 31) := fun e => hmin (BitVec.eq_of_toInt_eq e)
      have hin : clampI (-(sW a)) (-(2 ^ 31)) (2 ^ 31 - 1) = -(sW a) := by
        unfold clampI sW
        rw [if_neg (by omega), if_neg (by omega)]
      rw [hin, hwrap, if_neg (by simpa using hmin)]

theorem aluAbs_eq_rule (sat : Bool) (a : Word) : aluAbs sat a = Rule.abs sat a := by
  have hslt : a.slt 0 = true ↔ a.toInt < 0 := BitVec.slt_iff_toInt_lt
  unfold Rule.abs
  by_cases hneg : a.toInt < 0
  · rw [if_pos (hslt.mpr hneg), ← aluNeg_eq_rule]
    have habs : ((sW a).natAbs : Int) = -(sW a) := Int.ofNat_natAbs_of_nonpos (le_of_lt hneg)
    rw [aluAbs, habs, aluNeg]
  · rw [if_neg (mt hslt.mp hneg)]
    have habs : ((sW a).natAbs : Int) = sW a := Int.natAbs_of_nonneg (not_lt.mp hneg)
    have hhi := BitVec.toInt_lt (x := a)
    have hin : clampI (sW a) (-(2 ^ 31)) (2 ^ 31 - 1) = sW a := by
      unfold clampI sW
      rw [if_neg (by omega), if_neg (by omega)]
    rw [aluAbs, habs]
    cases sat with
    | false => exact wI_sW a
    | true => exact (congrArg wI hin).trans (wI_sW a)

/-- Settles O1: each instruction is of the shape `regOp`, and its function on words agrees with the rule of spec/13 R321; the
immediate forms of R322 are the register forms on the extended immediate. -/
theorem integerArithmeticCompletes : Obligations.IntegerArithmeticCompletes := by
  unfold Obligations.IntegerArithmeticCompletes
  intro h d a b c i u m
  refine ⟨?add, ?sub, ?mul, ?mulh, ?mad, ?madw, ?addc, ?subb, ?min, ?max, ?abs, ?neg,
    ?addImm, ?subImm, ?mulImm, ?mulhImm, ?minImm, ?maxImm⟩
  case add => exact reg2_completes (fun _ => rfl) (aluAdd_eq_rule m)
  case sub => exact reg2_completes (fun _ => rfl) (aluSub_eq_rule m)
  case mul => exact reg2_completes (fun _ => rfl) (aluMul_eq_rule m)
  case mulh => exact reg2_completes (fun _ => rfl) (aluMulh_eq_rule u)
  case mad => exact reg3_completes (fun _ => rfl) (aluMad_eq_rule m)
  case madw =>
    exact regOp_completes _ h d 2 _ _ (fun _ => rfl) (by simp) (fun _ _ _ => rfl) fun _ _ _ _ _ => aluMadw_eq_rule u _ _ _
  case addc =>
    exact regOp_completes _ h d 2 _ _ (fun _ => rfl) (by simp) (fun _ _ _ => rfl) fun _ _ _ _ _ => aluAddc_eq_rule _ _ _
  case subb =>
    exact regOp_completes _ h d 2 _ _ (fun _ => rfl) (by simp) (fun _ _ _ => rfl) fun _ _ _ _ _ => aluSubb_eq_rule _ _ _
  case min => exact reg2_completes (fun _ => rfl) (aluMin_eq_rule u)
  case max => exact reg2_completes (fun _ => rfl) (aluMax_eq_rule u)
  case abs => exact reg1_completes (fun _ => rfl) (aluAbs_eq_rule u)
  case neg => exact reg1_completes (fun _ => rfl) (aluNeg_eq_rule u)
  case addImm => exact reg1_completes (fun _ => rfl) fun x => aluAdd_eq_rule .wrap x (i.signExtend 32)
  case subImm => exact reg1_completes (fun _ => rfl) fun x => aluSub_eq_rule .wrap x (i.signExtend 32)
  case mulImm => exact reg1_completes (fun _ => rfl) fun x => aluMul_eq_rule .wrap x (i.signExtend 32)
  case mulhImm => exact reg1_completes (fun _ => rfl) fun x => aluMulh_eq_rule false x (i.signExtend 32)
  case minImm => exact reg1_completes (fun _ => rfl) fun x => aluMin_eq_rule false x (i.signExtend 32)
  case maxImm => exact reg1_completes (fun _ => rfl) fun x => aluMax_eq_rule false x (i.signExtend 32)

end Sys2Proof.Machine
end

section
/-! SUPPORT. Shifts, bit fields and counts: the functions on words, which work on numbers, are the bit-vector operations of the
rules (spec/13 R324, R325). -/

namespace Sys2Proof.Machine

theorem tbit_eq_testBit (n i : Nat) : tbit n i = n.testBit i := by
  rw [Nat.testBit_eq_decide_div_mod_eq]
  exact (Bool.beq_eq_decide_eq _ _)

theorem tbit_toNat {w : Nat} (a : BitVec w) (i : Nat) : tbit a.toNat i = a.getLsbD i := tbit_eq_testBit _ _

/-! ### Shifts and rotations -/

theorem aluShl_eq_rule (a : Word) (n : Nat) : aluShl a n = Rule.shl a n := by
  unfold aluShl Rule.shl
  split
  · next hn => exact (BitVec.shiftLeft_eq_zero hn).symm
  · apply BitVec.eq_of_toNat_eq
    rw [BitVec.toNat_shiftLeft, Nat.shiftLeft_eq, wN, BitVec.toNat_ofNat]

theorem aluShr_eq_rule (a : Word) (n : Nat) : aluShr a n = Rule.shr a n := by
  unfold aluShr Rule.shr
  split
  · next hn => exact (BitVec.ushiftRight_eq_zero hn).symm
  · apply BitVec.eq_of_toNat_eq
    have hlt : a.toNat / 2 ^ n < 2 ^ 32 := (Nat.div_le_self _ _).trans_lt a.isLt
    rw [BitVec.toNat_ushiftRight, Nat.shiftRight_eq_div_pow, wN, BitVec.toNat_ofNat, Nat.mod_eq_of_lt hlt]

/-- A signed word moved down by 31 or more places is its sign. -/
theorem ediv_two_pow_min (a : Word) (n : Nat) : a.toInt / 2 ^ Nat.min n 31 = a.toInt / 2 ^ n := by
  rcases Nat.le_total n 31 with hn | hn
  · exact congrArg (a.toInt / 2 ^ ·) (Nat.min_eq_left hn)
  · obtain ⟨k, rfl⟩ := Nat.exists_eq_add_of_le hn
    have hlo := BitVec.le_toInt a
    have hhi := BitVec.toInt_lt (x := a)
    have hsign : a.toInt / 2 ^ 31 = -1 ∨ a.toInt / 2 ^ 31 = 0 := by omega
    have hkeep : a.toInt / 2 ^ 31 / 2 ^ k = a.toInt / 2 ^ 31 := by
      rcases hsign with h | h <;> rw [h]
      · exact Int.ediv_eq_neg_one_of_neg_of_le (by decide) (one_le_pow₀ (by decide))
      · exact Int.zero_ediv _
    have hmin : Nat.min (31 + k) 31 = 31 := Nat.min_eq_right hn
    rw [hmin, pow_add, ← Int.ediv_ediv_of_nonneg (by positivity), hkeep]

theorem sshiftRight_eq_wI (a : Word) (n : Nat) : a.sshiftRight n = wI (a.toInt / 2 ^ n) := by
  rw [BitVec.sshiftRight, Int.shiftRight_eq_div_pow, Nat.cast_pow, Nat.cast_ofNat, wI]

theorem aluSar_eq_rule (a : Word) (n : Nat) : aluSar a n = Rule.sar a n := by
  rw [aluSar, sW, ediv_two_pow_min, Rule.sar, sshiftRight_eq_wI]

theorem aluRot_eq_rule (a : Word) (n : Nat) : aluRot a n = Rule.rot a n := by
  have hm : n % 32 < 32 := Nat.mod_lt _ (by decide)
  have hlow : a.toNat / 2 ^ (32 - n % 32) < 2 ^ (n % 32) := by
    rw [Nat.div_lt_iff_lt_mul (by positivity), ← pow_add, Nat.add_sub_cancel' hm.le]
    exact a.isLt
  have hhigh : a.toNat * 2 ^ (n % 32) % 2 ^ 32 = a.toNat % 2 ^ (32 - n % 32) * 2 ^ (n % 32) := by
    rw [← Nat.mul_mod_mul_right, ← pow_add, Nat.sub_add_cancel hm.le]
  have hturn : (a.rotateLeft n).toNat = a.toNat * 2 ^ (n % 32) % 2 ^ 32 + a.toNat / 2 ^ (32 - n % 32) := by
    rw [BitVec.toNat_rotateLeft, Nat.shiftLeft_eq, Nat.shiftRight_eq_div_pow, hhigh, ← Nat.shiftLeft_eq,
      Nat.shiftLeft_add_eq_or_of_lt hlow]
  apply BitVec.eq_of_toNat_eq
  unfold aluRot Rule.rot
  dsimp only
  rw [wN, BitVec.toNat_ofNat, ← Nat.mod_add_mod, ← hturn, Nat.mod_eq_of_lt (BitVec.isLt _)]

theorem aluShf_eq_rule (a b c : Word) : aluShf a b c = Rule.shf a b c := by
  apply BitVec.eq_of_toNat_eq
  have happend : (b ++ a : DWord).toNat = b.toNat * 2 ^ 32 + a.toNat := by
    rw [BitVec.toNat_append, ← Nat.shiftLeft_add_eq_or_of_lt a.isLt, Nat.shiftLeft_eq]
  rw [aluShf, wN, BitVec.toNat_ofNat, Rule.shf, BitVec.toNat_setWidth, BitVec.toNat_ushiftRight, happend,
    Nat.shiftRight_eq_div_pow]

/-! ### Fields -/

theorem fieldPos_eq_rule (s : Word) : fieldPos s = Rule.pos s := (BitVec.toNat_setWidth 8 s).symm

theorem fieldLen_eq_rule (s : Word) : fieldLen s = Rule.len s := by
  have hbyte : s.toNat / 256 % 256 = ((s >>> 8).setWidth 8).toNat := by
    rw [BitVec.toNat_setWidth, BitVec.toNat_ushiftRight, Nat.shiftRight_eq_div_pow]
  rw [fieldLen, fieldPos_eq_rule, hbyte, Rule.len]

/-- A field ends inside its word. -/
theorem pos_add_len_le (s : Word) (h : Rule.len s ≠ 0) : Rule.pos s + Rule.len s ≤ 32 := by
  unfold Rule.len at h ⊢
  split at h
  · exact absurd rfl h
  · next hp =>
    rw [if_neg hp]
    have hlen : Nat.min ((s >>> 8).setWidth 8).toNat (32 - Rule.pos s) ≤ 32 - Rule.pos s := Nat.min_le_right _ _
    omega

/-- The field moved to the top of the word and down again, as a number. -/
theorem field_toNat (a : Word) {p l : Nat} (h : p + l ≤ 32) :
    (a <<< (32 - p - l)).toNat / 2 ^ (32 - l) = a.toNat / 2 ^ p % 2 ^ l := by
  obtain ⟨x, hx⟩ := Nat.exists_eq_add_of_le h
  have hup : 32 - p - l = x := by omega
  have hdown : 32 - l = p + x := by omega
  have hword : 2 ^ 32 = 2 ^ p * 2 ^ l * 2 ^ x := by rw [← pow_add, ← pow_add, ← hx]
  rw [BitVec.toNat_shiftLeft, Nat.shiftLeft_eq, hup, hdown, hword, Nat.mul_mod_mul_right, pow_add,
    Nat.mul_div_mul_right _ _ (by positivity), Nat.mod_mul_right_div_self]

/-- The sign of the moved field is the highest bit of the field. -/
theorem field_msb (a : Word) {p l : Nat} (h : p + l ≤ 32) (hl : l ≠ 0) :
    (a <<< (32 - p - l)).msb = tbit (a.toNat / 2 ^ p % 2 ^ l) (l - 1) := by
  have hplace : l - 1 + (32 - l) = 31 := by omega
  rw [← field_toNat a h, tbit_eq_testBit, Nat.testBit_div_two_pow, hplace, BitVec.msb_eq_getLsbD_last]
  rfl

/-- A word whose sign is set, moved down by `32 - l` places with its sign. -/
theorem toInt_ediv_of_msb (t : Word) {l : Nat} (hl : l ≤ 32) (hs : t.msb = true) :
    t.toInt / 2 ^ (32 - l) = ((t.toNat / 2 ^ (32 - l) : Nat) : Int) - 2 ^ l := by
  have hword : (2 : Int) ^ 32 = 2 ^ l * 2 ^ (32 - l) := by rw [← pow_add, Nat.add_sub_cancel' hl]
  rw [BitVec.toInt_eq_msb_cond, if_pos hs, Nat.cast_pow, Nat.cast_ofNat, hword, Int.sub_mul_ediv_right _ _ (by positivity),
    Int.natCast_ediv, Nat.cast_pow, Nat.cast_ofNat]

theorem aluBfx_eq_rule (i : Bool) (a s : Word) : aluBfx i a s = Rule.bfx i a s := by
  unfold aluBfx Rule.bfx
  rw [fieldLen_eq_rule, fieldPos_eq_rule]
  dsimp only
  by_cases hl : Rule.len s = 0
  · rw [if_pos hl, if_pos hl]
  rw [if_neg hl, if_neg hl]
  have hin := pos_add_len_le s hl
  generalize Rule.pos s = p at hin ⊢
  generalize Rule.len s = l at hl hin ⊢
  rw [← field_msb a hin hl, ← field_toNat a hin]
  generalize a <<< (32 - p - l) = t
  have hzeros : wN (t.toNat / 2 ^ (32 - l)) = t >>> (32 - l) := by
    have hpos : ¬ 32 ≤ 32 - l := by omega
    exact (if_neg hpos).symm.trans (aluShr_eq_rule t (32 - l))
  cases i with
  | false => exact hzeros
  | true =>
    cases hs : t.msb with
    | true => exact (congrArg wI (toInt_ediv_of_msb t (by omega) hs).symm).trans (sshiftRight_eq_wI t _).symm
    | false =>
      have hnat : t.toInt = t.toNat := by rw [BitVec.toInt_eq_msb_cond, if_neg (by simp [hs])]
      show wN _ = t.sshiftRight _
      rw [sshiftRight_eq_wI, hnat, wI, wN]
      exact (BitVec.ofInt_natCast 32 _).symm

theorem aluBfi_getLsbD (a b s : Word) (k : Nat) (hk : k < 32) : (aluBfi a b s).getLsbD k = Rule.bfiBit a b s k := by
  have hmask : (wN ((2 ^ fieldLen s - 1) * 2 ^ fieldPos s)).getLsbD k =
      decide (Rule.pos s ≤ k ∧ k < Rule.pos s + Rule.len s) := by
    rw [wN, BitVec.getLsbD_ofNat, Nat.testBit_mul_two_pow, Nat.testBit_two_pow_sub_one, fieldLen_eq_rule, fieldPos_eq_rule]
    by_cases hp : Rule.pos s ≤ k
    · have : k - Rule.pos s < Rule.len s ↔ k < Rule.pos s + Rule.len s := by omega
      simp [hk, hp, this]
    · simp [hp]
  have hfield : (wN (a.toNat * 2 ^ fieldPos s)).getLsbD k = (decide (Rule.pos s ≤ k) && a.getLsbD (k - Rule.pos s)) := by
    rw [wN, BitVec.getLsbD_ofNat, Nat.testBit_mul_two_pow, fieldPos_eq_rule]
    simp [hk, BitVec.getLsbD]
  unfold aluBfi Rule.bfiBit
  dsimp only
  rw [BitVec.getLsbD_or, BitVec.getLsbD_and, BitVec.getLsbD_and, BitVec.getLsbD_not, hmask, hfield]
  by_cases hin : Rule.pos s ≤ k ∧ k < Rule.pos s + Rule.len s
  · simp [hin]
  · simp [hin, hk]

/-! ### Counts and reversal -/

theorem popBelow_eq_length (x n : Nat) : popBelow x n = ((List.range n).filter fun i => x.testBit i).length := by
  induction n with
  | zero => rfl
  | succ n ih =>
    rw [popBelow, ih, tbit_eq_testBit, List.range_succ, List.filter_append, List.length_append, List.filter_singleton]
    cases x.testBit n <;> rfl

theorem aluPopc_eq_rule (a : Word) : aluPopc a = Rule.popc a := congrArg wN (popBelow_eq_length a.toNat 32)

theorem revBits_lt (x n : Nat) : revBits x n < 2 ^ n := by
  induction n generalizing x with
  | zero => exact Nat.one_pos
  | succ n ih =>
    have hrest := ih (x / 2)
    rw [revBits, pow_succ]
    rcases Nat.mod_two_eq_zero_or_one x with h | h <;> rw [h] <;> omega

theorem testBit_revBits (x n i : Nat) : (revBits x n).testBit i = (decide (i < n) && x.testBit (n - 1 - i)) := by
  induction n generalizing x i with
  | zero => simp [revBits]
  | succ n ih =>
    rw [revBits, Nat.mul_comm, Nat.testBit_two_pow_mul_add _ (revBits_lt _ n)]
    rcases Nat.lt_trichotomy i n with hlt | rfl | hgt
    · have hplace : n + 1 - 1 - i = n - 1 - i + 1 := by omega
      rw [if_pos hlt, ih, hplace, Nat.testBit_add_one]
      simp [hlt, Nat.lt_succ_of_lt hlt]
    · simp
    · have hbit : (x % 2).testBit (i - n) = false :=
        Nat.testBit_lt_two_pow ((Nat.mod_lt x (by decide)).trans_le (Nat.le_self_pow (by omega) 2))
      rw [if_neg (by omega), hbit, decide_eq_false (by omega), Bool.false_and]

theorem aluBrev_eq_reverse (a : Word) : aluBrev a = a.reverse := by
  apply BitVec.eq_of_getLsbD_eq
  intro i hi
  rw [aluBrev, wN, BitVec.getLsbD_ofNat, testBit_revBits, BitVec.getLsbD_reverse, BitVec.getMsbD]
  simp [hi, BitVec.getLsbD]

theorem getLsbD_reverse_eq_tbit (a : Word) {n : Nat} (hn : n < 32) : a.reverse.getLsbD n = tbit a.toNat (31 - n) := by
  rw [BitVec.getLsbD_reverse, BitVec.getMsbD, decide_eq_true hn, Bool.true_and, tbit_toNat]

/-- Looking upwards from bit `31 - n` of a word, and downwards from bit `n` of the reversed word. -/
theorem clzAuxRec_reverse (a : Word) (n : Nat) (hn : n < 32) :
    a.reverse.clzAuxRec n = wN (31 - n + ctzFrom a.toNat (31 - n) (n + 1)) := by
  induction n with
  | zero =>
    rw [BitVec.clzAuxRec_zero, getLsbD_reverse_eq_tbit a hn, ctzFrom]
    split <;> rfl
  | succ n ih =>
    rw [BitVec.clzAuxRec_succ, getLsbD_reverse_eq_tbit a hn, ctzFrom]
    split
    · rfl
    · have hnext : 31 - (n + 1) + 1 = 31 - n := by omega
      rw [ih (by omega), hnext, ← Nat.add_assoc, hnext]

theorem aluCtz_eq_ctz (a : Word) : aluCtz a = a.ctz := by
  rw [BitVec.ctz, BitVec.clz, clzAuxRec_reverse a 31 (by decide), aluCtz, Nat.sub_self, Nat.zero_add]

theorem aluClz_eq_clz (a : Word) : aluClz a = a.clz := by
  rw [aluClz, aluCtz_eq_ctz, aluBrev_eq_reverse, BitVec.clz_eq_reverse_ctz]

theorem bfi_completes (h : Hdr) (d a b c : Spec) : Completes (.bfi h d a b c) h d 1 fun _ _ _ fr t ws => ∃ w, ws = [w] ∧
    ∀ k, k < 32 → w.getLsbD k = Rule.bfiBit (t.rd fr a) (t.rd (fr + 4) b) (t.rd (fr + 8) c) k :=
  regOp_completes _ h d 1 (fun _ fr t => [aluBfi (t.rd fr a) (t.rd (fr + 4) b) (t.rd (fr + 8) c)]) _ (fun _ => rfl) (by simp)
    (fun _ _ _ => rfl) fun _ _ _ _ _ => ⟨_, rfl, aluBfi_getLsbD _ _ _⟩

/-- Settles O2: each instruction is of the shape `regOp`. The logic of spec/13 R323 is that of the words; the shifts of R324
agree with the rules for every count, and the fields and counts of R325 bit by bit. -/
theorem logicShiftsFieldsComplete : Obligations.LogicShiftsFieldsComplete := by
  unfold Obligations.LogicShiftsFieldsComplete
  constructor
  · intro h d a b c i n
    refine ⟨?and, ?or, ?xor, ?andn, ?not, ?shl, ?shr, ?sar, ?rot, ?shf, ?andImm, ?orImm, ?xorImm, ?andnImm,
      ?shlImm, ?shrImm, ?sarImm, ?rotImm⟩
    case and => exact reg2_completes (g := fun x y => x &&& y) (fun _ => rfl) fun _ _ => rfl
    case or => exact reg2_completes (g := fun x y => x ||| y) (fun _ => rfl) fun _ _ => rfl
    case xor => exact reg2_completes (g := fun x y => x ^^^ y) (fun _ => rfl) fun _ _ => rfl
    case andn => exact reg2_completes (g := fun x y => x &&& ~~~y) (fun _ => rfl) fun _ _ => rfl
    case not => exact reg1_completes (g := fun x => ~~~x) (fun _ => rfl) fun _ => rfl
    case shl => exact reg2_completes (fun _ => rfl) fun x y => aluShl_eq_rule x y.toNat
    case shr => exact reg2_completes (fun _ => rfl) fun x y => aluShr_eq_rule x y.toNat
    case sar => exact reg2_completes (fun _ => rfl) fun x y => aluSar_eq_rule x y.toNat
    case rot => exact reg2_completes (fun _ => rfl) fun x y => aluRot_eq_rule x y.toNat
    case shf => exact reg3_completes (fun _ => rfl) aluShf_eq_rule
    case andImm => exact reg1_completes (g := fun x => x &&& i.setWidth 32) (fun _ => rfl) fun _ => rfl
    case orImm => exact reg1_completes (g := fun x => x ||| i.setWidth 32) (fun _ => rfl) fun _ => rfl
    case xorImm => exact reg1_completes (g := fun x => x ^^^ i.setWidth 32) (fun _ => rfl) fun _ => rfl
    case andnImm => exact reg1_completes (g := fun x => x &&& ~~~(i.setWidth 32)) (fun _ => rfl) fun _ => rfl
    case shlImm => exact reg1_completes (fun _ => rfl) fun x => aluShl_eq_rule x n.toNat
    case shrImm => exact reg1_completes (fun _ => rfl) fun x => aluShr_eq_rule x n.toNat
    case sarImm => exact reg1_completes (fun _ => rfl) fun x => aluSar_eq_rule x n.toNat
    case rotImm => exact reg1_completes (fun _ => rfl) fun x => aluRot_eq_rule x n.toNat
  · intro h d a b c i
    refine ⟨?bfx, ?bfi, ?popc, ?clz, ?ctz, ?brev⟩
    case bfx => exact reg2_completes (fun _ => rfl) (aluBfx_eq_rule i)
    case bfi => exact bfi_completes h d a b c
    case popc => exact reg1_completes (fun _ => rfl) aluPopc_eq_rule
    case clz => exact reg1_completes (fun _ => rfl) aluClz_eq_clz
    case ctz => exact reg1_completes (fun _ => rfl) aluCtz_eq_ctz
    case brev => exact reg1_completes (fun _ => rfl) aluBrev_eq_reverse

end Sys2Proof.Machine
end

section
/-! SUPPORT. The lane instructions (spec/13 R331, R332): what stands in the active list and in the words read from it, the source
of `shfl`, and the results of `vote` over all active slots. -/

namespace Sys2Proof.Machine

/-! ### The active slots and their words -/

theorem mem_enum {α : Type} {l : List α} {p : Nat × α} : p ∈ enum l ↔ l[p.1]? = some p.2 := by
  rw [enum, List.mem_iff_getElem?]
  simp only [List.getElem?_zip_eq_some]
  constructor
  · rintro ⟨i, hrange, hi⟩
    obtain ⟨_, hslot⟩ := List.getElem?_eq_some_iff.mp hrange
    rwa [← hslot, List.getElem_range]
  · intro hp
    obtain ⟨hlt, -⟩ := List.getElem?_eq_some_iff.mp hp
    exact ⟨p.1, List.getElem?_range hlt, hp⟩

theorem mem_active {q : Quarter} {k id : Nat} :
    (k, id) ∈ q.active ↔ q.slots.getD k none = some id ∧ k < q.slots.length := by
  simp only [Quarter.active, List.mem_filterMap, mem_enum, Option.map_eq_some_iff, Prod.mk.injEq]
  constructor
  · rintro ⟨⟨j, o⟩, hj, i, rfl, rfl, rfl⟩
    exact ⟨by rw [List.getD_eq_getElem?_getD, hj, Option.getD_some], (List.getElem?_eq_some_iff.mp hj).1⟩
  · rintro ⟨hk, hlt⟩
    rw [List.getD_eq_getElem _ _ hlt] at hk
    exact ⟨(k, some id), by rw [List.getElem?_eq_getElem hlt, hk], id, rfl, rfl, rfl⟩

theorem active_slots_sorted (q : Quarter) : (q.active.map Prod.fst).Pairwise (· < ·) := by
  have hsub : (q.active.map Prod.fst).Sublist ((enum q.slots).map Prod.fst) := by
    unfold Quarter.active
    induction enum q.slots with
    | nil => exact List.Sublist.refl _
    | cons p r ih =>
      rcases p with ⟨k, _ | id⟩
      · exact ih.cons k
      · exact ih.cons_cons k
  rw [enum, List.map_fst_zip (by rw [List.length_range])] at hsub
  exact List.pairwise_lt_range.sublist hsub

theorem laneWords_slots_sorted (m : Mach) (q : Quarter) (a : Spec) :
    ((m.laneWords q a).map Prod.fst).Pairwise (· < ·) := by
  rw [Mach.laneWords, List.map_map]
  exact active_slots_sorted q

theorem mem_laneWords {m : Mach} {q : Quarter} {a : Spec} {k : Nat} {w : Word} : (k, w) ∈ m.laneWords q a ↔
    ∃ id, (q.slots.getD k none = some id ∧ k < q.slots.length) ∧ (m.thr id).rd (m.fr k) a = w := by
  rw [Mach.laneWords, List.mem_map]
  constructor
  · rintro ⟨⟨j, id⟩, hp, he⟩
    obtain ⟨rfl, hw⟩ := Prod.mk.inj he
    exact ⟨id, mem_active.mp hp, hw⟩
  · rintro ⟨id, hon, rfl⟩
    exact ⟨(k, id), mem_active.mpr hon, rfl⟩

theorem mem_laneWords_of_active {q : Quarter} {k id : Nat} (m : Mach) (a : Spec)
    (hon : q.slots.getD k none = some id ∧ k < q.slots.length) : (k, (m.thr id).rd (m.fr k) a) ∈ m.laneWords q a :=
  mem_laneWords.mpr ⟨id, hon, rfl⟩

theorem exists_laneWords {m : Mach} {q : Quarter} {a : Spec} (P : Nat → Word → Prop) :
    (∃ p ∈ m.laneWords q a, P p.1 p.2) ↔
      ∃ k id, (q.slots.getD k none = some id ∧ k < q.slots.length) ∧ P k ((m.thr id).rd (m.fr k) a) := by
  constructor
  · rintro ⟨⟨k, w⟩, hp, hP⟩
    obtain ⟨id, hon, rfl⟩ := mem_laneWords.mp hp
    exact ⟨k, id, hon, hP⟩
  · rintro ⟨k, id, hon, hP⟩
    exact ⟨_, mem_laneWords_of_active m a hon, hP⟩

/-! ### `shfl` -/

/-- The words hold one entry at most for a slot. -/
theorem find_laneWords (m : Mach) (q : Quarter) (a : Spec) (k : Nat) :
    ((m.laneWords q a).find? fun p => p.1 == k) =
      (q.slots.getD k none).map fun id => (k, (m.thr id).rd (m.fr k) a) := by
  cases hf : (m.laneWords q a).find? fun p => p.1 == k with
  | some p =>
    obtain rfl : p.1 = k := find?_key (key := Prod.fst) hf
    obtain ⟨id, ⟨hid, -⟩, hw⟩ := mem_laneWords.mp (List.mem_of_find?_eq_some hf)
    rw [hid, Option.map_some, hw]
  | none =>
    cases hs : q.slots.getD k none with
    | none => rfl
    | some id =>
      have hlt : k < q.slots.length := by
        by_contra hge
        rw [List.getD_eq_default _ _ (not_lt.mp hge)] at hs
        exact Option.some_ne_none id hs.symm
      exact absurd (beq_self_eq_true k) (List.find?_eq_none.mp hf _ (mem_laneWords_of_active m a ⟨hs, hlt⟩))

/-- A source is a slot from 0 to 7. -/
theorem shflSrc_eq_some {m : ShMode} {sl n k : Nat} {src : Int}
    (hsrc : shflSrc m sl n = if 0 ≤ src ∧ src ≤ 7 then some src.toNat else none) :
    shflSrc m sl n = some k ↔ (k : Int) = src ∧ k ≤ 7 := by
  rw [hsrc]
  split
  · rw [Option.some_inj]; omega
  · simp only [reduceCtorEq, false_iff]; omega

theorem shflWord_of_active {m : Mach} {q : Quarter} {a : Spec} {md : ShMode} {z : Bool} {sl n k id : Nat} {own : Word}
    (hsrc : shflSrc md sl n = some k) (hid : q.slots.getD k none = some id) :
    shflWord (m.laneWords q a) md z sl own n = (m.thr id).rd (m.fr k) a := by
  rw [shflWord, hsrc, Option.bind_some, find_laneWords, hid, Option.map_some]

theorem shflWord_of_inactive {m : Mach} {q : Quarter} {a : Spec} {md : ShMode} {z : Bool} {sl n : Nat} {own : Word}
    (hno : ∀ k, shflSrc md sl n = some k → q.slots.getD k none = none) :
    shflWord (m.laneWords q a) md z sl own n = if z then 0 else own := by
  cases hsrc : shflSrc md sl n with
  | none => rw [shflWord, hsrc, Option.bind_none]
  | some k => rw [shflWord, hsrc, Option.bind_some, find_laneWords, hno k hsrc, Option.map_none]

/-- The word of the source slot, or the thread's own one or 0 where no thread is active there. -/
theorem shflWord_spec (m : Mach) (q : Quarter) (a : Spec) (md : ShMode) (z : Bool) (sl n : Nat) (own : Word) {src : Int}
    (hsrc : shflSrc md sl n = if 0 ≤ src ∧ src ≤ 7 then some src.toNat else none) :
    (∀ k : Nat, (k : Int) = src → k ≤ 7 → ∀ id, q.slots.getD k none = some id →
      shflWord (m.laneWords q a) md z sl own n = (m.thr id).rd (m.fr k) a) ∧
    ((∀ k : Nat, (k : Int) = src → 7 < k ∨ q.slots.getD k none = none) →
      shflWord (m.laneWords q a) md z sl own n = if z then 0 else own) := by
  refine ⟨fun k hk hle id hid => shflWord_of_active ((shflSrc_eq_some hsrc).mpr ⟨hk, hle⟩) hid,
    fun hno => shflWord_of_inactive fun k hk => ?_⟩
  obtain ⟨hk, hle⟩ := (shflSrc_eq_some hsrc).mp hk
  exact (hno k hk).resolve_left (not_lt.mpr hle)

/-! ### `vote` -/

/-- The sum of the powers of two of rising places has its bits at these places. -/
theorem testBit_sum_two_pow {l : List (Nat × Word)} {k : Nat} : ∀ {init : Nat}, (l.map Prod.fst).Pairwise (· < ·) →
    (∀ p ∈ l, init < 2 ^ p.1) →
    ((l.foldl (fun n p => n + 2 ^ p.1) init).testBit k = true ↔ init.testBit k = true ∨ ∃ p ∈ l, p.1 = k) := by
  induction l with
  | nil => simp
  | cons p r ih =>
    intro init hsorted hinit
    obtain ⟨hhead, htail⟩ := List.pairwise_cons.mp hsorted
    have hp : init < 2 ^ p.1 := hinit p List.mem_cons_self
    have hnext : ∀ p' ∈ r, init + 2 ^ p.1 < 2 ^ p'.1 := fun p' hp' => calc
      init + 2 ^ p.1 < 2 ^ p.1 + 2 ^ p.1 := Nat.add_lt_add_right hp _
      _ = 2 ^ (p.1 + 1) := by rw [pow_succ, Nat.mul_two]
      _ ≤ 2 ^ p'.1 := Nat.pow_le_pow_right (by decide) (hhead _ (List.mem_map_of_mem hp'))
    have hsum : init + 2 ^ p.1 = 2 ^ p.1 ||| init := by
      have hor := Nat.two_pow_add_eq_or_of_lt hp 1
      rwa [Nat.mul_one, Nat.add_comm] at hor
    rw [List.foldl_cons, ih htail hnext, hsum, Nat.testBit_or, Bool.or_eq_true, Nat.testBit_two_pow]
    simp only [decide_eq_true_eq, List.mem_cons, exists_eq_or_imp]
    tauto

/-- A predicate's word, by what its truth and its falsehood mean. -/
theorem maskW_cases {b : Bool} {P Q : Prop} (ht : b = true → P) (hf : b = false → Q) :
    maskW b = 0xFFFFFFFF ∧ P ∨ maskW b = 0 ∧ Q := by
  cases b with
  | true => exact .inl ⟨rfl, ht rfl⟩
  | false => exact .inr ⟨rfl, hf rfl⟩

section
variable (m : Mach) (q : Quarter) (a : Spec)

theorem ballot_getLsbD (k : Nat) (hk : k < 32) : (voteWord (m.laneWords q a) .ballot).getLsbD k = true ↔
    ∃ id, (q.slots.getD k none = some id ∧ k < q.slots.length) ∧ (m.thr id).rd (m.fr k) a ≠ 0 := by
  have hsorted : (((m.laneWords q a).filter fun p => p.2 != 0).map Prod.fst).Pairwise (· < ·) :=
    (laneWords_slots_sorted m q a).sublist (List.filter_sublist.map _)
  rw [voteWord, wN, BitVec.getLsbD_ofNat, decide_eq_true hk, Bool.true_and,
    testBit_sum_two_pow hsorted fun p _ => by positivity]
  simp only [Nat.zero_testBit, Bool.false_eq_true, false_or, List.mem_filter, bne_iff_ne]
  constructor
  · rintro ⟨⟨j, w⟩, ⟨hp, hw⟩, rfl⟩
    obtain ⟨id, hon, rfl⟩ := mem_laneWords.mp hp
    exact ⟨id, hon, hw⟩
  · rintro ⟨id, hon, hw⟩
    exact ⟨_, ⟨mem_laneWords_of_active m a hon, hw⟩, rfl⟩

theorem any_spec :
    voteWord (m.laneWords q a) .any = 0xFFFFFFFF ∧
      (∃ k id, (q.slots.getD k none = some id ∧ k < q.slots.length) ∧ (m.thr id).rd (m.fr k) a ≠ 0) ∨
    voteWord (m.laneWords q a) .any = 0 ∧
      ∀ k id, q.slots.getD k none = some id ∧ k < q.slots.length → (m.thr id).rd (m.fr k) a = 0 := by
  refine maskW_cases (fun ht => ?_) fun hf k id hon => ?_
  · obtain ⟨p, hp, hw⟩ := List.any_eq_true.mp ht
    exact (exists_laneWords fun _ w => w ≠ 0).mp ⟨p, hp, bne_iff_ne.mp hw⟩
  · have hw := List.any_eq_false.mp hf _ (mem_laneWords_of_active m a hon)
    simpa using hw

theorem all_spec :
    voteWord (m.laneWords q a) .all = 0xFFFFFFFF ∧
      (∀ k id, q.slots.getD k none = some id ∧ k < q.slots.length → (m.thr id).rd (m.fr k) a ≠ 0) ∨
    voteWord (m.laneWords q a) .all = 0 ∧
      ∃ k id, (q.slots.getD k none = some id ∧ k < q.slots.length) ∧ (m.thr id).rd (m.fr k) a = 0 := by
  refine maskW_cases (fun ht k id hon => ?_) fun hf => ?_
  · exact bne_iff_ne.mp (List.all_eq_true.mp ht _ (mem_laneWords_of_active m a hon))
  · obtain ⟨p, hp, hw⟩ := List.all_eq_false.mp hf
    exact (exists_laneWords fun _ w => w = 0).mp ⟨p, hp, by simpa using hw⟩

/-- All words equal the first one, or one of them differs from it. -/
theorem eq_spec :
    voteWord (m.laneWords q a) .eq = 0xFFFFFFFF ∧
      (∀ k id k' id', q.slots.getD k none = some id ∧ k < q.slots.length →
        q.slots.getD k' none = some id' ∧ k' < q.slots.length →
        (m.thr id).rd (m.fr k) a = (m.thr id').rd (m.fr k') a) ∨
    voteWord (m.laneWords q a) .eq = 0 ∧
      ∃ k id k' id', (q.slots.getD k none = some id ∧ k < q.slots.length) ∧
        (q.slots.getD k' none = some id' ∧ k' < q.slots.length) ∧
        (m.thr id).rd (m.fr k) a ≠ (m.thr id').rd (m.fr k') a := by
  refine maskW_cases (fun ht k id k' id' hon hon' => ?_) fun hf => ?_
  · have hfirst : ∀ p ∈ m.laneWords q a, p.2 = ((m.laneWords q a).headD (0, 0)).2 :=
      fun p hp => eq_of_beq (List.all_eq_true.mp ht p hp)
    exact (hfirst _ (mem_laneWords_of_active m a hon)).trans (hfirst _ (mem_laneWords_of_active m a hon')).symm
  · obtain ⟨p, hp, hw⟩ := List.all_eq_false.mp hf
    have hhead : (m.laneWords q a).headD (0, 0) ∈ m.laneWords q a := by
      rw [List.headD_eq_head?_getD, List.head?_eq_some_head (List.ne_nil_of_mem hp)]
      exact List.head_mem _
    obtain ⟨id, hon, hv⟩ := mem_laneWords.mp hp
    obtain ⟨id', hon', hv'⟩ := mem_laneWords.mp hhead
    exact ⟨_, id, _, id', hon, hon', by rw [hv, hv']; exact fun e => hw (beq_iff_eq.mpr e)⟩

end

/-- Settles O4: both are of the shape `onEach` with the words of all active slots read from the state before it. For `shfl` the
source slot is the one of spec/13 R331 in each mode; for `vote` each kind of R332 is said over the active slots. -/
theorem laneInstructionsComplete : Obligations.LaneInstructionsComplete := by
  unfold Obligations.LaneInstructionsComplete
  intro h d a b
  refine ⟨fun md z => ?shfl, fun kd => ?vote⟩
  case shfl =>
    refine onEach_completes _ h d 1
      (fun m q sl fr t => [shflWord (m.laneWords q a) md z sl (t.rd fr a) (t.rd (fr + 4) b).toNat]) _
      (fun _ => rfl) (by simp) (fun _ _ _ _ _ => rfl) fun s q sl fr t => ⟨_, rfl, ?_⟩
    exact shflWord_spec s.mach q a md z sl _ _ (by cases md <;> rfl)
  case vote =>
    refine onEach_completes _ h d 1 (fun m q _ _ _ => [voteWord (m.laneWords q a) kd]) _
      (fun _ => rfl) (fun _ _ _ _ _ _ _ => rfl) (fun _ _ _ _ _ => rfl) fun s q _ _ _ => ⟨_, rfl, ?_⟩
    cases kd with
    | ballot => exact fun _ => ballot_getLsbD s.mach q a
    | any => exact any_spec s.mach q a
    | all => exact all_spec s.mach q a
    | eq => exact eq_spec s.mach q a

end Sys2Proof.Machine
end

section
/-! SUPPORT. A word that the obligation expects to be refused decodes: the register pair that starts at v255 is checked against the
registers of the launch when it issues (spec/05 R144, spec/10 R276), not by the decoder. -/

namespace Sys2Proof
set_option Elab.async false

/-- A 32-bit load of v1 through the address pair that starts at v255 decodes. -/
theorem decodeWord_load_v255 : decodeWord 3 (Machine.codeWord 0x50 0 0 0 0 (Machine.bodyOfM 1 255 0 0 0)) =
    .ok (.ld ⟨0, 0, 0⟩ .b32 false .t (.v 1) (.v 255) 0) := by
  decide +kernel

/-- Refutes O58: its last word decodes to a load; the pair that starts at v255 is refused at issue, not by the decoder. -/
theorem not_wordsDecode : ¬ Obligations.WordsDecode := by
  unfold Obligations.WordsDecode
  rintro ⟨-, -, -, -, -, -, -, -, -, -, -, -, -, -, -, -, hload⟩
  rw [decodeWord_load_v255] at hload
  cases hload

end Sys2Proof
end

section
/-! SUPPORT. A state in which a step is not the exec of the instruction that the picked quarter decodes: two thread records stand under
one number. The stage corrects the registers of the quarter's threads where the instruction reads a wave-tile (spec/08 R238), which
writes the first record over the second; exec alone leaves both. -/

namespace Sys2Proof.Machine
set_option Elab.async false

/-- A drain to the address 0, whose rows stand 64 bytes apart. -/
def twinDrain : Instr := .tdrain ⟨0, 0, 0⟩ .ow false 0 false false 0 (.v 2) (.v 4) 0

/-- The address is not mapped and an access of the thread is in flight, so the drain waits. -/
def twin : State :=
  let s := Tests.placed ((encode twinDrain).getD 0)
  let rows (t : Thread) : Thread := { t with regs := t.regs.set 4 64 }
  { s with mach := { s.mach with
      threads := s.mach.threads.map rows ++ s.mach.threads.map fun t => { rows t with rgv := 7 }
      launches := s.mach.launches.map fun l => { l with fslots := [13 * 2 ^ 24] }
      flights := [{ uid := 0, iss := 0, owner := 3, tids := [3], qid := 4, core := 0, launch := 1, instr := twinDrain, pc := 0,
                    hdr := none, clauses := [], flag := 0, done := false }] } }

def twinWord : DWord := (encode twinDrain).getD 0
def twinQ : Quarter := twin.mach.quarters.headD Tests.baseQ
def twinH : Pc × DWord := twinQ.hdr.getD (0, 0)
def twinM : Mach := { twin.mach with latch := [], cur := twinQ.id }
def twinTlb : Option TlbEnt :=
  match fetchWord twin.sys twinM twinQ.core (twin.mach.eff twinQ.launch) twinQ.pc.toNat with
  | .ok _ t => t
  | _ => none
/-- What the statement has the instruction run in. -/
def twinRead : Mach :=
  let q := twinQ.coded twin.sys twinM
  let e := twin.mach.eff twinQ.launch
  ((twinM.setQ q).walked q.core e (q.pc.toNat % 2 ^ 57) twinTlb).fetchFix twin.sys q.core e q.pc.toNat

/-- The register counts of the threads that a step leaves. -/
def countsOf : Host.Outcome State Fault Refusal → List Nat
  | .next t => t.mach.threads.map Thread.rgv
  | _ => []

theorem twin_picked : Picked twin twinQ [] :=
  ⟨by decide +kernel, by decide +kernel, by decide +kernel, by decide +kernel, by decide +kernel, twinH, by decide +kernel,
    fun _ => by decide +kernel⟩

/-- Refutes O59: where two thread records stand under one number, the step of a drain that waits leaves one record twice, and exec
leaves both. -/
theorem not_stepRuns : ¬ Obligations.StepRuns := by
  unfold Obligations.StepRuns
  rintro ⟨hfetched, -⟩
  have hfetch : fetchWord twin.sys twinM twinQ.core (twin.mach.eff twinQ.launch) twinQ.pc.toNat = .ok twinWord twinTlb := by
    decide +kernel
  have hruns : step twin = exec twinDrain { twin with mach := twinRead } :=
    ((hfetched twin twinQ [] twinWord twinTlb twin_picked hfetch).2 (by decide +kernel)).1 twinDrain (by decide +kernel)
      (by decide +kernel) (by decide +kernel)
  have hstep : countsOf (step twin) = [256, 256] := by decide +kernel
  have hexec : countsOf (exec twinDrain { twin with mach := twinRead }) = [256, 7] := by decide +kernel
  rw [hruns, hexec] at hstep
  exact absurd hstep (by decide)

end Sys2Proof.Machine
end

section
/-! SUPPORT. A state in which `exit` removes a thread of another launch: two quarter records stand under one number. Once the first is
gone, the search for the quarter of the `exit` finds the other, which enters the wait of a `join` and is removed with its ending launch. -/

namespace Sys2Proof.Tests
open Sys2Proof.Machine
set_option Elab.async false

/-- The current quarter, and under its number one of thread 99, whose launch 2 is ending. -/
def exitTwin : State := withM fun m => { m with
  threads := m.threads ++ [{ id := 99, launch := 2, regs := [7] }]
  quarters := m.quarters ++ m.quarters.map fun q => { q with launch := 2, slots := [some 99] }
  launches := m.launches ++ m.launches.map fun l => { l with id := 2, ending := some (8, 0) } }

theorem exitTwin_running : Running exitTwin baseQ :=
  ⟨by decide +kernel, by decide +kernel, by decide +kernel, by decide +kernel⟩

/-- The registers of thread 99 after the `exit`. -/
def exitTwinRegs : Host.Outcome State Fault Refusal → List Word
  | .next t => (t.mach.thr 99).regs
  | _ => []

theorem exitTwin_removed : exitTwinRegs (exec (.exit ⟨0, 0, 0⟩) exitTwin) = [] := by decide +kernel

theorem exitTwin_before : 99 ∉ baseQ.tids ∧ (exitTwin.mach.thr 99).regs = [7] := by decide +kernel

/-- Refutes O24: where two quarter records stand under one number, an `exit` of one also removes a thread of the other. -/
theorem not_threadsMoveSpawnAndEnd : ¬ Obligations.ThreadsMoveSpawnAndEnd := by
  unfold Obligations.ThreadsMoveSpawnAndEnd
  rintro ⟨hmove, -⟩
  obtain ⟨-, -, hexit⟩ := hmove ⟨0, 0, 0⟩
  obtain ⟨t, hexec, -, -, -, hother⟩ := hexit exitTwin baseQ exitTwin_running (by unfold NoHandler; decide +kernel) (by decide +kernel)
  obtain ⟨hnot, hregs⟩ := exitTwin_before
  have hkept : exitTwinRegs (.next t) = [7] := (hother 99 hnot).1.trans hregs
  rw [← hexec, exitTwin_removed] at hkept
  exact absurd hkept (by decide)

end Sys2Proof.Tests
end

section
/-! SUPPORT. The state of two quarter records under one number again: at the wave level the threads that pass a barrier leave the quarter,
and the search for it then finds the other record, which goes on in their place and is removed with its ending launch. -/

namespace Sys2Proof.Tests
open Sys2Proof.Machine
set_option Elab.async false

theorem barwTwin_removed : exitTwinRegs (exec (.barw ⟨0, 0, 0⟩ 0 0) exitTwin) = [] := by decide +kernel

/-- Refutes O25: where two quarter records stand under one number, a `barw` of one at the wave level also removes a thread of the other. -/
theorem not_barriersComplete : ¬ Obligations.BarriersComplete := by
  unfold Obligations.BarriersComplete
  intro h
  obtain ⟨-, -, hbarw⟩ := h ⟨0, 0, 0⟩ 0 0 (.imm 0) 0
  obtain ⟨t, hexec, -, hregs, -⟩ := hbarw exitTwin baseQ exitTwin_running (by unfold Lasting; decide +kernel) (by decide +kernel)
    fun k hk => Or.inl ⟨by revert k; decide +kernel, trivial⟩
  have hkept : exitTwinRegs (.next t) = [7] := (hregs 99).trans exitTwin_before.2
  rw [← hexec, barwTwin_removed] at hkept
  exact absurd hkept (by decide)

end Sys2Proof.Tests
end

section
/-! SUPPORT. A state in which the watchdog takes no trap: the launch of the waiting quarter is ending, so its threads stop instead
(spec/03 R107). -/

namespace Sys2Proof.Tests
open Sys2Proof.Machine
set_option Elab.async false

/-- The quarter waits for counter 0 to reach 5, longer than the watchdog of its launch allows, and the launch is ending. -/
def lateWait : State := withM fun m => { m with
  cycle := 5000
  threads := m.threads.map fun t => { t with waitSince := some 0 }
  quarters := m.quarters.map fun q => { q with wait := some (.counter [(0, 5)]) }
  launches := m.launches.map fun l => { l with ending := some (8, 0), eff := { l.eff with wdog := 1 } } }

def lateQ : Quarter := { baseQ with wait := some (.counter [(0, 5)]) }

/-- The causes of the traps that a step leaves. -/
def trapsOf : Host.Outcome State Fault Refusal → List Nat
  | .next t => t.mach.traps.map TrapGroup.cause
  | _ => []

theorem lateWait_stops : trapsOf (exec (.watchdogExpire baseT.id) lateWait) = [] := by decide +kernel

theorem lateWait_settled : Settled lateWait := by unfold Settled; decide +kernel

/-- Refutes O27: the watchdog takes no trap in a quarter whose launch is ending. -/
theorem not_trapEntryAndBind : ¬ Obligations.TrapEntryAndBind := by
  unfold Obligations.TrapEntryAndBind
  rintro ⟨-, -, -, hwatch⟩
  obtain ⟨t, hexec, -, -, g, hg, -⟩ := hwatch baseT.id lateQ lateWait lateWait_settled
    ⟨by decide +kernel, ⟨_, rfl⟩, by decide +kernel, by decide +kernel, fun k hk => by
      have hone : k = baseT.id := by revert k; decide +kernel
      subst hone
      exact ⟨by decide +kernel, by decide +kernel, by decide +kernel, 0, by decide +kernel, by decide +kernel⟩⟩
  have htraps : t.mach.traps.map TrapGroup.cause = [] := by
    have hstops := lateWait_stops
    rw [hexec] at hstops
    exact hstops
  rw [List.map_eq_nil_iff.1 htraps] at hg
  exact List.not_mem_nil hg

end Sys2Proof.Tests
end

section
/-! SUPPORT. A state in which a prefetch without a response is not dropped: no flight stands under its key, and what fails an operation
looks for that flight first. -/

namespace Sys2Proof.Tests
open Sys2Proof.Machine
set_option Elab.async false

/-- A prefetch that has been sent to another device, of a flight that is not there. -/
def loneFetch : PendOp := { oid := 41, uid := 40, kind := .fetchLine true, sent := some (0, false) }

/-- It has waited for its response for 10 ms. -/
def lostFetch : State :=
  let s := withT fun t => { t with pend := [loneFetch] }
  { s with sys := { s.sys with ticks := 1000000 } }

/-- The keys of the operations that a thread still has after a step. -/
def opsLeft (k : Nat) : Host.Outcome State Fault Refusal → List Nat
  | .next t => (t.mach.thr k).pend.map PendOp.oid
  | _ => []

theorem lostFetch_stays : opsLeft baseT.id (exec (.remoteAccessTimeout baseT.id 41) lostFetch) = [41] := by decide +kernel

theorem lostFetch_settled : Settled lostFetch := by unfold Settled; decide +kernel

/-- Refutes O30: a prefetch whose flight is not there stays in its pending set after 10 ms without a response. -/
theorem not_instructionsLand : ¬ Obligations.InstructionsLand := by
  unfold Obligations.InstructionsLand
  rintro ⟨-, hfetch, -⟩
  obtain ⟨t, hexec, -, -, -, hgone⟩ := hfetch baseT.id 41 loneFetch lostFetch lostFetch_settled
    ⟨by decide +kernel, by decide +kernel, ⟨(0, false), rfl, by decide +kernel⟩, rfl, by decide +kernel⟩
  have hstays : (t.mach.thr baseT.id).pend.map PendOp.oid = [41] := by
    have hleft := lostFetch_stays
    rw [hexec] at hleft
    exact hleft
  obtain ⟨p, hp, hoid⟩ := List.mem_map.1 (hstays ▸ List.mem_singleton_self 41)
  exact hgone p hp hoid

end Sys2Proof.Tests
end

section
/-! SUPPORT. A gather group whose first caller has no thread record: the frame goes to thread 0, whose launch is ending, so that the callee is
removed as it is filed. -/

namespace Sys2Proof.Tests
open Sys2Proof.Machine
set_option Elab.async false

/-- A gather call that waits for a frame, of a caller that is not there. -/
def strayCall : Call :=
  { id := 9, core := 0, launch := 0, caller := 77, gather := true, w := 1, k := 0, f := 0, argc := 0, retc := 0, red := 0, age := 0, grant := 0,
    entry := 0, callers := [77], waiting := true }

/-- Thread 0 belongs to launch 5, which is ending. -/
def strayGroup : State := withM fun m => { m with
  calls := [strayCall]
  threads := m.threads ++ [{ id := 0, launch := 5 }]
  launches := m.launches ++ m.launches.map fun l => { l with id := 5, ending := some (8, 0) } }

/-- How many threads a step leaves. -/
def threadsOf : Host.Outcome State Fault Refusal → Nat
  | .next t => t.mach.threads.length
  | _ => 0

theorem strayGroup_keeps : threadsOf (exec (.gatherFrameGrant 9) strayGroup) = strayGroup.mach.threads.length := by decide +kernel

theorem strayGroup_settled : Settled strayGroup := by unfold Settled; decide +kernel

/-- Refutes O32: a gather group whose first caller has no thread record can get a frame and no callee. -/
theorem not_gladesFramesBarriers : ¬ Obligations.GladesFramesBarriers := by
  unfold Obligations.GladesFramesBarriers
  rintro ⟨⟨-, -, -, hgather⟩, -⟩
  obtain ⟨t, hexec, -, hmore, -⟩ := hgather 9 strayCall strayGroup strayGroup_settled
    ⟨by decide +kernel, rfl, rfl, by decide +kernel, by decide +kernel, by decide +kernel, by decide +kernel, by decide +kernel, by decide +kernel,
      by decide +kernel, by decide +kernel⟩
  have hsame : t.mach.threads.length = strayGroup.mach.threads.length := by
    have hkeeps := strayGroup_keeps
    rw [hexec] at hkeeps
    exact hkeeps
  omega

end Sys2Proof.Tests
end

section
/-! SUPPORT. The flight that waits for the answer to a remote signal has a word to land: the answer completes it, and a register changes. -/

namespace Sys2Proof.Tests
open Sys2Proof.Machine
set_option Elab.async false

/-- The waiting flight of `sigF`, with a word for register 0 of its thread. -/
def wordySig : Flight := { sigF with writes := [(baseT.id, [(.v 0, 1)])] }

/-- Its answer heads channel 0 of port 0. -/
def wordyAck : State := arrives 0 (.sigAck baseT.id 40) fun m => { m with flights := [wordySig], sigWaits := [(baseT.id, 40, 0)] }

/-- The registers of a thread after a step. -/
def regsLeft (k : Nat) : Host.Outcome State Fault Refusal → List Word
  | .next t => (t.mach.thr k).regs
  | _ => []

theorem wordyAck_writes : regsLeft baseT.id (exec (.sigAckArrive 0) wordyAck) ≠ (wordyAck.mach.thr baseT.id).regs := by decide +kernel

theorem wordyAck_settled : Settled wordyAck := by unfold Settled; decide +kernel

/-- Refutes O41: the acknowledgement of a signal lands the words of the flight that it completes, whatever they are. -/
theorem not_messagesArrive : ¬ Obligations.MessagesArrive := by
  unfold Obligations.MessagesArrive
  rintro ⟨-, -, hack, -⟩
  obtain ⟨t, hexec, -, -, hregs, -⟩ := hack 0 (msg (.sigAck baseT.id 40)) baseT.id 40 wordySig wordyAck wordyAck_settled
    (by simp only [Heads]; decide +kernel)
  have hwrites := wordyAck_writes
  rw [hexec] at hwrites
  exact hwrites (hregs baseT.id)

end Sys2Proof.Tests
end

section
/-! SUPPORT. A load of the host window that the host completes with data, from a line that has been marked as failing: it takes the failure
of the line. -/

namespace Sys2Proof.Tests
open Sys2Proof.Machine
set_option Elab.async false

/-- The first line of the host's memory fails for every requester. -/
def hostFails : State :=
  let s := awaiting hostAt (endpoint id)
  { s with mach := { s.mach with cxlFail := [s.mach.home hostAt / 64] } }

/-- The flights that a step leaves under a key. -/
def flightLeft (uid : Nat) : Host.Outcome State Fault Refusal → Option Flight
  | .next t => t.mach.flight? uid
  | _ => none

theorem hostFails_drops : flightLeft waitF.uid (exec (.hostWindowAccess 0 false (zeroBytes 8) true) hostFails) = none := by decide +kernel

theorem hostFails_settled : Settled hostFails := by unfold Settled; decide +kernel

/-- Refutes O48: a load that the host completes with data fails where its line is one that fails for every access. -/
theorem not_hostAndDevices : ¬ Obligations.HostAndDevices := by
  unfold Obligations.HostAndDevices
  rintro ⟨-, ⟨-, -, -, -, -, -, hload, -⟩, -⟩
  obtain ⟨t, hexec, -, -, g, hg, -⟩ := hload 0 (zeroBytes 8) (waitT hostAt) (waitOp hostAt) waitF ⟨0, 1, 0⟩ .b64 false .t (.v 4) (.v 2) 0 hostFails
    hostFails_settled (by simp only [HostWaits, LoneFlight, Sound]; decide +kernel)
  have hdrops := hostFails_drops
  rw [hexec] at hdrops
  exact nomatch hdrops.symm.trans hg

end Sys2Proof.Tests
end

section
/-! SUPPORT. A partner of a joint product that waits past its limit, of a launch that is ending: its thread is removed. -/

namespace Sys2Proof.Tests
open Sys2Proof.Machine
set_option Elab.async false

/-- One partner waits for more than 4,096 cycles; the launch has been killed. -/
def endingPartner : State :=
  let s := joint 1 5000
  { s with mach := { s.mach with launches := s.mach.launches.map fun l => { l with ending := some (8, 0) } } }

theorem endingPartner_loses : regsLeft baseT.id (exec (.mmajPartnerTimeout 70) endingPartner) ≠ (endingPartner.mach.thr baseT.id).regs := by
  decide +kernel

theorem endingPartner_settled : Settled endingPartner := by unfold Settled; decide +kernel

/-- Refutes O37: where its launch is ending, the thread of a partner that waits too long is removed with its registers. -/
theorem not_matrixSequencersStep : ¬ Obligations.MatrixSequencersStep := by
  unfold Obligations.MatrixSequencersStep
  rintro ⟨-, -, -, -, -, -, htimeout⟩
  obtain ⟨t, hexec, -, hregs, -⟩ := htimeout 70 (jointSet 1) endingPartner endingPartner_settled (by decide +kernel)
  have hloses := endingPartner_loses
  rw [hexec] at hloses
  exact hloses (hregs baseT.id)

end Sys2Proof.Tests
end

section
/-! SUPPORT. A probe whose operation stands twice in its thread's pending set: the writes of its buffer are inserted before each of the two. -/

namespace Sys2Proof.Tests
open Sys2Proof.Machine
set_option Elab.async false

/-- The probe that has found token 7, with its operation pending twice. -/
def probeTwice : State := { probeFound with mach := { probeFound.mach with
  threads := probeFound.mach.threads.map fun t => { t with pend := [op1 probeFound, op1 probeFound] } } }

/-- How many operations a thread has pending after a step. -/
def pendLeft (k : Nat) : Host.Outcome State Fault Refusal → Nat
  | .next t => (t.mach.thr k).pend.length
  | _ => 0

theorem probeTwice_pend : (probeTwice.mach.thr baseT.id).pend = [op1 probeFound, op1 probeFound] := by decide +kernel

theorem probeTwice_writes : pendLeft baseT.id (exec (.accessPerform baseT.id (op1 probeFound).oid false) probeTwice) = 4 := by decide +kernel

theorem probeTwice_buffer : (words8 (nth (flight1 probeFound).nums 1)
    (4 * ((pairsOf ((flight1 probeFound).nums.drop 4)).take (bits (nth (flight1 probeFound).nums 0) 20 12)).length)).length = 1 := by
  decide +kernel

theorem probeTwice_settled : Settled probeTwice := by unfold Settled; decide +kernel

/-- Refutes O13: where an operation is pending twice under one key, a probe's writes do not stand in front of the pending set alone. -/
theorem not_indexInstructionsIssue : ¬ Obligations.IndexInstructionsIssue := by
  unfold Obligations.IndexInstructionsIssue
  rintro ⟨-, -, -, hprobe⟩
  obtain ⟨t, hexec, -, os, hpend, hos⟩ := (hprobe ⟨0, 1, 0⟩ false .d (.v 8) (.v 2) (.v 6) 1 baseT.id (op1 probeFound).oid (op1 probeFound)
    (flight1 probeFound)).1 probeTwice probeTwice_settled
    ⟨⟨rfl, by simp only [PerformsNext]; decide +kernel, by decide +kernel⟩, by decide +kernel⟩
  have hfour : (t.mach.thr baseT.id).pend.length = 4 := by
    have hwrites := probeTwice_writes
    rw [hexec] at hwrites
    exact hwrites
  have hone : os.length = 1 := by
    have hlen := congrArg List.length hos
    rw [List.length_map, List.length_map] at hlen
    exact hlen.trans probeTwice_buffer
  rw [hpend, probeTwice_pend, List.length_append, hone] at hfour
  exact absurd hfour (by decide)

end Sys2Proof.Tests
end

section
/-! SUPPORT. A store of no bytes by a control core, at the first address of a device window whose registers the spec does not lay out. -/

namespace Sys2Proof.Tests
set_option Elab.async false
open Sys2Proof.Machine

/-- The window of the first APLIC domain begins where the unmapped range ends. -/
def emptyStore : HartReq := { op := .store, bytes := [] }

theorem emptyStore_window (s : State) : hartAt s.mach 0x0C000000 emptyStore.bytes.length = .device := rfl

theorem emptyStore_refused (s : State) : exec (.controlCoreStore 0x0C000000 emptyStore) s = .refused (.deviceWindow 0x0C000000) := by
  show (if hartAt s.mach 0x0C000000 emptyStore.bytes.length = .device then .refused (.deviceWindow 0x0C000000)
    else onAll (fun sys m => hartStore sys m 0x0C000000 emptyStore) s) = _
  exact if_pos (emptyStore_window s)

/-- Refutes O50: a store of no bytes at the end of the unmapped range lies in the device window that begins there, and is refused. -/
theorem not_registersAndManagement : ¬ Obligations.RegistersAndManagement := by
  unfold Obligations.RegistersAndManagement
  rintro ⟨⟨-, -, -, -, -, -, -, -, -, hunmapped, -⟩, -⟩
  have hfault := hunmapped 0x0C000000 emptyStore State.reset ⟨rfl, rfl, rfl⟩ ⟨rfl, by decide, by decide⟩
  rw [emptyStore_refused] at hfault
  nomatch hfault

end Sys2Proof.Tests
end

section
/-! SUPPORT. A drain whose metadata line ends where the host window begins: its HOLD stands in host memory, and a row of the drain there. -/

namespace Sys2Proof.Tests
open Sys2Proof.Machine
set_option Elab.async false

/-- Where the metadata line stands: its first four bytes before the host window, its HOLD in it. -/
def metaEdge : Nat := Config.pcie0Base - 4

/-- The drain of two rows of ones, the second to where the host's first bytes stand. -/
def edgeOp : PendOp := { op1 drainBase with parts := [(0x14040, hostLoc 0, 32), (metaVa 0x14000, metaEdge, 64)] }

def edgeFlight : Flight := { flight1 drainBase with
  instr := .tdrain ⟨0, 1, 0⟩ .aon true 1 true false 5 (.v 2) (.v 11) 2, nums := List.replicate 64 0x3F800000 }

def drainEdge : State := { drainBase with mach := { drainBase.mach with
  pe0ep := true
  flights := [edgeFlight]
  threads := drainBase.mach.threads.map fun t => { t with pend := [edgeOp] } } }

/-- The HOLD word of the metadata line after a step. -/
def holdLeft : Host.Outcome State Fault Refusal → Nat
  | .next t => t.mach.num (metaEdge + 4) 4
  | _ => 0

theorem drainEdge_hold : drainEdge.mach.num (metaEdge + 4) 4 = 0 := by decide +kernel

theorem drainEdge_drains : holdLeft (exec (.accessPerform baseT.id edgeOp.oid false) drainEdge) = 0x3F800000 := by decide +kernel

theorem drainEdge_settled : Settled drainEdge := by unfold Settled; decide +kernel

theorem drainEdge_performs : PerformsNext drainEdge baseT.id edgeOp edgeFlight := by simp only [PerformsNext]; decide +kernel

/-- The operation writes rows 0 and 1 and no other. -/
theorem drainEdge_rows (r : Nat) (h : r < (if true then 8 else 32) ∧ (0x14000 + r * 64 = edgeOp.va ∨
    ∃ p ∈ edgeOp.parts, p.1 = 0x14000 + r * 64 ∧ p.2.2 = drainRb (drainEdge.mach.fslot edgeFlight.launch (2 : BitVec 3).toNat))) :
    r = 0 ∨ r = 1 :=
  (by decide +kernel : ∀ r, r < 8 → (0x14000 + r * 64 = edgeOp.va ∨
    ∃ p ∈ edgeOp.parts, p.1 = 0x14000 + r * 64 ∧ p.2.2 = drainRb (drainEdge.mach.fslot edgeFlight.launch (2 : BitVec 3).toNat)) →
    r = 0 ∨ r = 1) r h.1 h.2

/-- The rows are apart from each other and from the metadata line, and neither stands under another key. -/
theorem drainEdge_apart : ∀ r ∈ [0, 1], drainEdge.mach.mapped (edgeOp.rowLoc (0x14000 + r * 64)) = false ∧
    (edgeOp.rowLoc (0x14000 + r * 64) + 32 ≤ metaEdge ∨ metaEdge + 8 ≤ edgeOp.rowLoc (0x14000 + r * 64)) ∧
    ∀ r' ∈ [0, 1], r ≠ r' → edgeOp.rowLoc (0x14000 + r * 64) + 32 ≤ edgeOp.rowLoc (0x14000 + r' * 64) ∨
      edgeOp.rowLoc (0x14000 + r' * 64) + 32 ≤ edgeOp.rowLoc (0x14000 + r * 64) := by decide +kernel

theorem drainEdge_rb : drainRb (drainEdge.mach.fslot edgeFlight.launch (2 : BitVec 3).toNat) = 32 := by decide +kernel

theorem drainEdge_metas : (edgeOp.metaLoc 0x14000).toList = [metaEdge] := by decide +kernel

theorem drainEdge_free : ∀ u ∈ drainEdge.mach.threads, ∀ p ∈ u.pend, p.readsTile metaEdge = false := by decide +kernel

/-- Refutes O15: where the location of a metadata line lies before the host window and its HOLD in it, a row of the drain may stand at the
bytes of HOLD, and HOLD changes with no `ldt` in flight. -/
theorem not_tilesDrainAndClear : ¬ Obligations.TilesDrainAndClear := by
  unfold Obligations.TilesDrainAndClear
  intro h
  obtain ⟨-, -, hperform⟩ := h ⟨0, 1, 0⟩ .aon true true false 1 5 (.v 2) (.v 11) 2
  have hone : ∀ x ∈ [metaEdge], x = metaEdge := fun x hx => List.mem_singleton.1 hx
  have hrow : ∀ r, r < (if true then 8 else 32) ∧ (0x14000 + r * 64 = edgeOp.va ∨
      ∃ p ∈ edgeOp.parts, p.1 = 0x14000 + r * 64 ∧ p.2.2 = drainRb (drainEdge.mach.fslot edgeFlight.launch (2 : BitVec 3).toNat)) →
      r ∈ [0, 1] := fun r hr => by
    rcases drainEdge_rows r hr with rfl | rfl
    · exact List.mem_cons_self
    · exact List.mem_cons_of_mem _ List.mem_cons_self
  obtain ⟨t, hexec, -, -, -, -, hkept⟩ := hperform baseT.id edgeOp.oid edgeOp edgeFlight 0x14000 64 [metaEdge] drainEdge drainEdge_settled
    ⟨rfl, drainEdge_performs, by decide +kernel, rfl, by decide +kernel, by decide +kernel, by decide +kernel, by decide,
      drainEdge_metas.symm, fun x hx => by rw [hone x hx]; decide +kernel, fun r hr => (drainEdge_apart r (hrow r hr)).1,
      fun x hx => by rw [hone x hx]; decide +kernel,
      fun r r' hr hr' hne => by
        rw [drainEdge_rb]
        exact (drainEdge_apart r (hrow r hr)).2.2 r' (hrow r' hr') hne,
      fun r hr x hx => by
        rw [hone x hx, drainEdge_rb]
        exact (drainEdge_apart r (hrow r hr)).2.1⟩
  have hhold := hkept (fun u hu p hp y hy => by rw [hone y hy]; exact drainEdge_free u hu p hp) metaEdge (List.mem_singleton_self _)
  have hleft := drainEdge_drains
  rw [hexec] at hleft
  exact absurd (hleft.symm.trans (hhold.trans drainEdge_hold)) (by decide)

end Sys2Proof.Tests
end

section
/-! SUPPORT. The fields of the body formats of spec/10 R275 are what the encoder put there, a body that fits is made of its fields, and
the operand specifiers and the codes of modifiers are read back as they were written. -/

namespace Sys2Proof

/-! ### Specifiers and codes -/

@[simp] theorem sp_bits (s : Spec) : sp s.bits = some s := by
  cases s with
  | v n =>
    have h : (BitVec.ofNat 9 n.toNat).toNat = n.toNat := by simp; omega
    simp only [sp, Spec.bits, h]
    rw [if_pos n.isLt, BitVec.ofNat_toNat, BitVec.setWidth_eq]
  | c k =>
    have h : (BitVec.ofNat 9 (256 + k.toNat)).toNat = 256 + k.toNat := by simp; omega
    simp [sp, Spec.bits, h]
    omega
  | x0 => rfl
  | x1 => rfl
  | zero => rfl

/-- A specifier is read from its own value alone (spec/10 R276). -/
theorem bits_of_sp {n : BitVec 9} {s : Spec} (h : sp n = some s) : s.bits = n := by
  unfold sp at h
  apply BitVec.eq_of_toNat_eq
  split at h
  · cases h; simp [Spec.bits]; omega
  split at h
  · cases h; simp [Spec.bits]; omega
  split at h
  · cases h; simp [Spec.bits, *]
  split at h
  · cases h; simp [Spec.bits, *]
  split at h
  · cases h; simp [Spec.bits, *]
  · cases h

@[simp] theorem nil_noOp : nil noOp = some () := rfl

theorem eq_noOp_of_nil {n : BitVec 9} {u : Unit} (h : nil n = some u) : n = noOp := by
  unfold nil at h; split at h
  · assumption
  · cases h

@[simp] theorem Sat.ofCode_code (y : Sat) : Sat.ofCode y.code = some y := by cases y <;> rfl
@[simp] theorem Cond.ofCode_code (y : Cond) : Cond.ofCode y.code = some y := by cases y <;> rfl
@[simp] theorem FCond.ofCode_code (y : FCond) : FCond.ofCode y.code = some y := by cases y <;> rfl
@[simp] theorem ShMode.ofCode_code (y : ShMode) : ShMode.ofCode y.code = some y := by cases y <;> rfl
@[simp] theorem VoteKind.ofCode_code (y : VoteKind) : VoteKind.ofCode y.code = some y := by cases y <;> rfl
@[simp] theorem FType.ofCode_code (y : FType) : FType.ofCode y.code = some y := by cases y <;> rfl
@[simp] theorem RndMode.ofCode_code (y : RndMode) : RndMode.ofCode y.code = some y := by cases y <;> rfl
@[simp] theorem QSrc.ofCode_code (y : QSrc) : QSrc.ofCode y.code = some y := by cases y <;> rfl
@[simp] theorem TkPat.ofCode_code (y : TkPat) : TkPat.ofCode y.code = some y := by cases y <;> rfl
@[simp] theorem TkWidth.ofCode_code (y : TkWidth) : TkWidth.ofCode y.code = some y := by cases y <;> rfl
@[simp] theorem TkKind.ofCode_code (y : TkKind) : TkKind.ofCode y.code = some y := by cases y <;> rfl
@[simp] theorem MSize.ofCode_code (y : MSize) : MSize.ofCode y.code = some y := by cases y <;> rfl
@[simp] theorem AOp.ofCode_code (y : AOp) : AOp.ofCode y.code = some y := by cases y <;> rfl
@[simp] theorem AType.ofCode_code (y : AType) : AType.ofCode y.code = some y := by cases y <;> rfl
@[simp] theorem FSem.ofCode_code (y : FSem) : FSem.ofCode y.code = some y := by cases y <;> rfl
@[simp] theorem DMode.ofCode_code (y : DMode) : DMode.ofCode y.code = some y := by cases y <;> rfl
@[simp] theorem Scope.ofCode_code (y : Scope) : Scope.ofCode y.code = some y := by cases y <;> rfl

theorem Sat.code_of_ofCode {n : Nat} {y : Sat} (h : Sat.ofCode n = some y) : y.code = n := by
  unfold Sat.ofCode at h; split at h <;> cases h <;> rfl
theorem Cond.code_of_ofCode {n : Nat} {y : Cond} (h : Cond.ofCode n = some y) : y.code = n := by
  unfold Cond.ofCode at h; split at h <;> cases h <;> rfl
theorem FCond.code_of_ofCode {n : Nat} {y : FCond} (h : FCond.ofCode n = some y) : y.code = n := by
  unfold FCond.ofCode at h; split at h <;> cases h <;> rfl
theorem ShMode.code_of_ofCode {n : Nat} {y : ShMode} (h : ShMode.ofCode n = some y) : y.code = n := by
  unfold ShMode.ofCode at h; split at h <;> cases h <;> rfl
theorem VoteKind.code_of_ofCode {n : Nat} {y : VoteKind} (h : VoteKind.ofCode n = some y) : y.code = n := by
  unfold VoteKind.ofCode at h; split at h <;> cases h <;> rfl
theorem FType.code_of_ofCode {n : Nat} {y : FType} (h : FType.ofCode n = some y) : y.code = n := by
  unfold FType.ofCode at h; split at h <;> cases h <;> rfl
theorem RndMode.code_of_ofCode {n : Nat} {y : RndMode} (h : RndMode.ofCode n = some y) : y.code = n := by
  unfold RndMode.ofCode at h; split at h <;> cases h <;> rfl
theorem QSrc.code_of_ofCode {n : Nat} {y : QSrc} (h : QSrc.ofCode n = some y) : y.code = n := by
  unfold QSrc.ofCode at h; split at h <;> cases h <;> rfl
theorem TkPat.code_of_ofCode {n : Nat} {y : TkPat} (h : TkPat.ofCode n = some y) : y.code = n := by
  unfold TkPat.ofCode at h; split at h <;> cases h <;> rfl
theorem TkWidth.code_of_ofCode {n : Nat} {y : TkWidth} (h : TkWidth.ofCode n = some y) : y.code = n := by
  unfold TkWidth.ofCode at h; split at h <;> cases h <;> rfl
theorem TkKind.code_of_ofCode {n : Nat} {y : TkKind} (h : TkKind.ofCode n = some y) : y.code = n := by
  unfold TkKind.ofCode at h; split at h <;> cases h <;> rfl
theorem MSize.code_of_ofCode {n : Nat} {y : MSize} (h : MSize.ofCode n = some y) : y.code = n := by
  unfold MSize.ofCode at h; split at h <;> cases h <;> rfl
theorem AOp.code_of_ofCode {n : Nat} {y : AOp} (h : AOp.ofCode n = some y) : y.code = n := by
  unfold AOp.ofCode at h; split at h <;> cases h <;> rfl
theorem AType.code_of_ofCode {n : Nat} {y : AType} (h : AType.ofCode n = some y) : y.code = n := by
  unfold AType.ofCode at h; split at h <;> cases h <;> rfl
theorem FSem.code_of_ofCode {n : Nat} {y : FSem} (h : FSem.ofCode n = some y) : y.code = n := by
  unfold FSem.ofCode at h; split at h <;> cases h <;> rfl
theorem DMode.code_of_ofCode {n : Nat} {y : DMode} (h : DMode.ofCode n = some y) : y.code = n := by
  unfold DMode.ofCode at h; split at h <;> cases h <;> rfl
theorem Scope.code_of_ofCode {n : Nat} {y : Scope} (h : Scope.ofCode n = some y) : y.code = n := by
  unfold Scope.ofCode at h; split at h <;> cases h <;> rfl

/-! ### Fields of a body that the encoder laid out -/

section
variable (d a b c : BitVec 9) (m : BitVec 6)

@[simp] theorem fD_bodyA : fD (bodyA d a b c m) = d := by
  apply BitVec.eq_of_toNat_eq; simp only [fD, fld, bodyA, BitVec.toNat_ofNat]; omega
@[simp] theorem fA_bodyA : fA (bodyA d a b c m) = a := by
  apply BitVec.eq_of_toNat_eq; simp only [fA, fld, bodyA, BitVec.toNat_ofNat]; omega
@[simp] theorem fB_bodyA : fB (bodyA d a b c m) = b := by
  apply BitVec.eq_of_toNat_eq; simp only [fB, fld, bodyA, BitVec.toNat_ofNat]; omega
@[simp] theorem fC_bodyA : fC (bodyA d a b c m) = c := by
  apply BitVec.eq_of_toNat_eq; simp only [fC, fld, bodyA, BitVec.toNat_ofNat]; omega
@[simp] theorem fM_bodyA : fM (bodyA d a b c m) = m.toNat := by
  simp only [fM, fld, bodyA, BitVec.toNat_ofNat]; omega

end

section
variable (d a : BitVec 9) (i : BitVec 24)

@[simp] theorem fD_bodyI : fD (bodyI d a i) = d := by
  apply BitVec.eq_of_toNat_eq; simp only [fD, fld, bodyI, BitVec.toNat_ofNat]; omega
@[simp] theorem fA_bodyI : fA (bodyI d a i) = a := by
  apply BitVec.eq_of_toNat_eq; simp only [fA, fld, bodyI, BitVec.toNat_ofNat]; omega
@[simp] theorem fI_bodyI : fI (bodyI d a i) = i := by
  apply BitVec.eq_of_toNat_eq; simp only [fI, fld, bodyI, BitVec.toNat_ofNat]; omega

end

section
variable (d : BitVec 9) (i : BitVec 32)

@[simp] theorem fD_bodyL : fD (bodyL d i) = d := by
  apply BitVec.eq_of_toNat_eq; simp only [fD, fld, bodyL, BitVec.toNat_ofNat]; omega
@[simp] theorem imm32_bodyL : fld (bodyL d i) 0 32 = i := by
  apply BitVec.eq_of_toNat_eq; simp only [fld, bodyL, BitVec.toNat_ofNat]; omega

end

section
variable (d a : BitVec 9) (o : BitVec 15) (sc : BitVec 3) (m : BitVec 6)

@[simp] theorem fD_bodyM : fD (bodyM d a o sc m) = d := by
  apply BitVec.eq_of_toNat_eq; simp only [fD, fld, bodyM, BitVec.toNat_ofNat]; omega
@[simp] theorem fA_bodyM : fA (bodyM d a o sc m) = a := by
  apply BitVec.eq_of_toNat_eq; simp only [fA, fld, bodyM, BitVec.toNat_ofNat]; omega
@[simp] theorem fOff_bodyM : fOff (bodyM d a o sc m) = o := by
  apply BitVec.eq_of_toNat_eq; simp only [fOff, fld, bodyM, BitVec.toNat_ofNat]; omega
@[simp] theorem fSc_bodyM : fSc (bodyM d a o sc m) = sc := by
  apply BitVec.eq_of_toNat_eq; simp only [fSc, fld, bodyM, BitVec.toNat_ofNat]; omega
@[simp] theorem fM_bodyM : fM (bodyM d a o sc m) = m.toNat := by
  simp only [fM, fld, bodyM, BitVec.toNat_ofNat]; omega

end

section
variable (acc : BitVec 6) (a b : BitVec 9) (sA sB p : BitVec 3) (m : BitVec 9)

@[simp] theorem fX_bodyX : fX (bodyX acc a b sA sB p m) = acc := by
  apply BitVec.eq_of_toNat_eq; simp only [fX, fld, bodyX, BitVec.toNat_ofNat]; omega
@[simp] theorem fXa_bodyX : fXa (bodyX acc a b sA sB p m) = a := by
  apply BitVec.eq_of_toNat_eq; simp only [fXa, fld, bodyX, BitVec.toNat_ofNat]; omega
@[simp] theorem fXb_bodyX : fXb (bodyX acc a b sA sB p m) = b := by
  apply BitVec.eq_of_toNat_eq; simp only [fXb, fld, bodyX, BitVec.toNat_ofNat]; omega
@[simp] theorem fXsA_bodyX : fXsA (bodyX acc a b sA sB p m) = sA := by
  apply BitVec.eq_of_toNat_eq; simp only [fXsA, fld, bodyX, BitVec.toNat_ofNat]; omega
@[simp] theorem fXsB_bodyX : fXsB (bodyX acc a b sA sB p m) = sB := by
  apply BitVec.eq_of_toNat_eq; simp only [fXsB, fld, bodyX, BitVec.toNat_ofNat]; omega
@[simp] theorem fXp_bodyX : fXp (bodyX acc a b sA sB p m) = p := by
  apply BitVec.eq_of_toNat_eq; simp only [fXp, fld, bodyX, BitVec.toNat_ofNat]; omega
@[simp] theorem fXm_bodyX : fXm (bodyX acc a b sA sB p m) = m := by
  apply BitVec.eq_of_toNat_eq; simp only [fXm, fld, bodyX, BitVec.toNat_ofNat]; omega

end

section
variable (r : BitVec 9) (o : BitVec 33)

@[simp] theorem fD_bodyB : fD (bodyB r o) = r := by
  apply BitVec.eq_of_toNat_eq; simp only [fD, fld, bodyB, BitVec.toNat_ofNat]; omega
@[simp] theorem off33_bodyB : fld (bodyB r o) 0 33 = o := by
  apply BitVec.eq_of_toNat_eq; simp only [fld, bodyB, BitVec.toNat_ofNat]; omega

end

section
variable (q : BitVec 6) (a b c m : BitVec 9)

@[simp] theorem fX_bodyQ : fX (bodyQ q a b c m) = q := by
  apply BitVec.eq_of_toNat_eq; simp only [fX, fld, bodyQ, BitVec.toNat_ofNat]; omega
@[simp] theorem fXa_bodyQ : fXa (bodyQ q a b c m) = a := by
  apply BitVec.eq_of_toNat_eq; simp only [fXa, fld, bodyQ, BitVec.toNat_ofNat]; omega
@[simp] theorem fXb_bodyQ : fXb (bodyQ q a b c m) = b := by
  apply BitVec.eq_of_toNat_eq; simp only [fXb, fld, bodyQ, BitVec.toNat_ofNat]; omega
@[simp] theorem fQc_bodyQ : fQc (bodyQ q a b c m) = c := by
  apply BitVec.eq_of_toNat_eq; simp only [fQc, fld, bodyQ, BitVec.toNat_ofNat]; omega
@[simp] theorem fXm_bodyQ : fXm (bodyQ q a b c m) = m := by
  apply BitVec.eq_of_toNat_eq; simp only [fXm, fld, bodyQ, BitVec.toNat_ofNat]; omega

end

/-! ### Parts of the low fields -/

/-- A field that lies in the low bits of a number is that of those bits. -/
theorem fld_mod (b : Nat) {lo n k : Nat} (h : lo + n ≤ k) : fld (b % 2 ^ k) lo n = fld b lo n := by
  apply BitVec.eq_of_toNat_eq
  simp only [fld, BitVec.toNat_ofNat]
  apply Nat.eq_of_testBit_eq
  intro i
  simp only [Nat.testBit_mod_two_pow, Nat.testBit_div_two_pow]
  by_cases hi : i < n
  · simp [hi, show i + lo < k by omega]
  · simp [hi]

theorem bit_eq_testBit (b i : Nat) : bit b i = b.testBit i := by
  rw [bit, Nat.testBit_eq_decide_div_mod_eq]; rfl

theorem bit_mod (b : Nat) {i k : Nat} (h : i < k) : bit (b % 2 ^ k) i = bit b i := by
  simp only [bit_eq_testBit, Nat.testBit_mod_two_pow, h, decide_true, Bool.true_and]

section
variable (d a b c : BitVec 9) (m : BitVec 6)

theorem bodyA_mod : bodyA d a b c m % 2 ^ 6 = m.toNat := by simp only [bodyA]; omega

@[simp] theorem fld_bodyA {lo n : Nat} (h : lo + n ≤ 6) : fld (bodyA d a b c m) lo n = fld m.toNat lo n := by
  rw [← fld_mod _ h, bodyA_mod]

@[simp] theorem bit_bodyA {i : Nat} (h : i < 6) : bit (bodyA d a b c m) i = bit m.toNat i := by
  rw [← bit_mod _ h, bodyA_mod]

variable (o : BitVec 15) (sc : BitVec 3)

theorem bodyM_mod : bodyM d a o sc m % 2 ^ 6 = m.toNat := by simp only [bodyM]; omega

@[simp] theorem fld_bodyM {lo n : Nat} (h : lo + n ≤ 6) : fld (bodyM d a o sc m) lo n = fld m.toNat lo n := by
  rw [← fld_mod _ h, bodyM_mod]

@[simp] theorem bit_bodyM {i : Nat} (h : i < 6) : bit (bodyM d a o sc m) i = bit m.toNat i := by
  rw [← bit_mod _ h, bodyM_mod]

/-- The second source of an atomic stands in the upper bits of the offset field (spec/15 R369). -/
@[simp] theorem fB_bodyM (s : BitVec 9) : fB (bodyM d a (BitVec.ofNat 15 (s.toNat * 2 ^ 6)) sc m) = s := by
  apply BitVec.eq_of_toNat_eq; simp only [fB, fld, bodyM, BitVec.toNat_ofNat]; omega

@[simp] theorem pad_bodyM (s : BitVec 9) : (fld (bodyM d a (BitVec.ofNat 15 (s.toNat * 2 ^ 6)) sc m) 9 6).toNat = 0 := by
  simp only [fld, bodyM, BitVec.toNat_ofNat]; omega

variable (i : BitVec 24)

theorem bodyI_mod : bodyI d a i % 2 ^ 24 = i.toNat := by simp only [bodyI]; omega

@[simp] theorem fld_bodyI {lo n : Nat} (h : lo + n ≤ 24) : fld (bodyI d a i) lo n = fld i.toNat lo n := by
  rw [← fld_mod _ h, bodyI_mod]

variable (acc : BitVec 6) (sA sB p : BitVec 3) (mm : BitVec 9)

theorem bodyX_mod : bodyX acc a b sA sB p mm % 2 ^ 9 = mm.toNat := by simp only [bodyX]; omega

@[simp] theorem fld_bodyX {lo n : Nat} (h : lo + n ≤ 9) : fld (bodyX acc a b sA sB p mm) lo n = fld mm.toNat lo n := by
  rw [← fld_mod _ h, bodyX_mod]

@[simp] theorem bit_bodyX {i : Nat} (h : i < 9) : bit (bodyX acc a b sA sB p mm) i = bit mm.toNat i := by
  rw [← bit_mod _ h, bodyX_mod]

theorem bodyQ_mod : bodyQ acc a b c mm % 2 ^ 9 = mm.toNat := by simp only [bodyQ]; omega

@[simp] theorem bit_bodyQ {i : Nat} (h : i < 9) : bit (bodyQ acc a b c mm) i = bit mm.toNat i := by
  rw [← bit_mod _ h, bodyQ_mod]

theorem bodyQ_mod8 : bodyQ acc a b c mm % 8 = mm.toNat % 8 := by simp only [bodyQ]; omega

/-- A small number in the queue field (spec/17 R407). -/
@[simp] theorem num_bodyQ {n : Nat} (r : BitVec n) (h : n ≤ 6) : fld (bodyQ (r.setWidth 6) a b c mm) 36 n = r := by
  have hx : bodyQ (r.setWidth 6) a b c mm / 2 ^ 36 = r.toNat % 2 ^ 6 := by
    simp only [bodyQ, BitVec.toNat_setWidth]; omega
  have hr : r.toNat < 2 ^ 6 := lt_of_lt_of_le r.isLt (Nat.pow_le_pow_right (by decide) h)
  rw [fld, hx, Nat.mod_eq_of_lt hr, BitVec.ofNat_toNat, BitVec.setWidth_eq]

end

/-! ### Every body fits its field of the word -/

theorem bodyA_lt (d a b c : BitVec 9) (m : BitVec 6) : bodyA d a b c m < 2 ^ 42 := by simp only [bodyA]; omega
theorem bodyI_lt (d a : BitVec 9) (i : BitVec 24) : bodyI d a i < 2 ^ 42 := by simp only [bodyI]; omega
theorem bodyL_lt (d : BitVec 9) (i : BitVec 32) : bodyL d i < 2 ^ 42 := by simp only [bodyL]; omega
theorem bodyM_lt (d a : BitVec 9) (o : BitVec 15) (sc : BitVec 3) (m : BitVec 6) : bodyM d a o sc m < 2 ^ 42 := by
  simp only [bodyM]; omega
theorem bodyX_lt (acc : BitVec 6) (a b : BitVec 9) (sA sB p : BitVec 3) (m : BitVec 9) :
    bodyX acc a b sA sB p m < 2 ^ 42 := by simp only [bodyX]; omega
theorem bodyB_lt (r : BitVec 9) (o : BitVec 33) : bodyB r o < 2 ^ 42 := by simp only [bodyB]; omega
theorem bodyQ_lt (q : BitVec 6) (a b c m : BitVec 9) : bodyQ q a b c m < 2 ^ 42 := by simp only [bodyQ]; omega

/-! ### A body that fits is made of its fields -/

section
variable {b : Nat} (hb : b < 2 ^ 42)
include hb

theorem bodyA_fields : bodyA (fD b) (fA b) (fB b) (fC b) (m6 (fM b)) = b := by
  simp only [bodyA, fD, fA, fB, fC, fM, fld, BitVec.toNat_ofNat]; omega

theorem bodyI_fields : bodyI (fD b) (fA b) (fI b) = b := by
  simp only [bodyI, fD, fA, fI, fld, BitVec.toNat_ofNat]; omega

theorem bodyL_fields (h : bit b 32 = false) : bodyL (fD b) (fld b 0 32) = b := by
  have h' : b / 2 ^ 32 % 2 = 0 := by
    have := of_decide_eq_false h
    omega
  simp only [bodyL, fD, fld, BitVec.toNat_ofNat]; omega

theorem bodyM_fields : bodyM (fD b) (fA b) (fOff b) (fSc b) (m6 (fM b)) = b := by
  simp only [bodyM, fD, fA, fOff, fSc, fM, fld, BitVec.toNat_ofNat]; omega

theorem bodyX_fields : bodyX (fX b) (fXa b) (fXb b) (fXsA b) (fXsB b) (fXp b) (fXm b) = b := by
  simp only [bodyX, fX, fXa, fXb, fXsA, fXsB, fXp, fXm, fld, BitVec.toNat_ofNat]; omega

theorem bodyB_fields : bodyB (fD b) (fld b 0 33) = b := by
  simp only [bodyB, fD, fld, BitVec.toNat_ofNat]; omega

theorem bodyQ_fields : bodyQ (fX b) (fXa b) (fXb b) (fQc b) (fXm b) = b := by
  simp only [bodyQ, fX, fXa, fXb, fQc, fXm, fld, BitVec.toNat_ofNat]; omega

end

end Sys2Proof
end

section
/-! SUPPORT. The word of every well-formed instruction decodes to it (spec/10 R270, R275-R277). -/

namespace Sys2Proof

/-! ### The fields of a word -/

section
variable {mj mi body : Nat} (h : Hdr) (hmj : mj < 2 ^ 7) (hmi : mi < 2 ^ 4) (hbody : body < 2 ^ 42)
include hmj hmi hbody

theorem toNat_word : (word mj mi h body).toNat = mj * 2 ^ 57 + mi * 2 ^ 53 + h.stall.toNat * 2 ^ 50 + h.flag.toNat * 2 ^ 46
    + h.look.toNat * 2 ^ 42 + body := by
  rw [word, BitVec.toNat_ofNat]; omega

theorem major_word : (word mj mi h body).toNat / 2 ^ 57 = mj := by
  rw [toNat_word h hmj hmi hbody]; omega

theorem minor_word : (fld (word mj mi h body).toNat 53 4).toNat = mi := by
  simp only [toNat_word h hmj hmi hbody, fld, BitVec.toNat_ofNat]; omega

theorem stall_word : fld (word mj mi h body).toNat 50 3 = h.stall := by
  apply BitVec.eq_of_toNat_eq
  simp only [toNat_word h hmj hmi hbody, fld, BitVec.toNat_ofNat]; omega

theorem flag_word : fld (word mj mi h body).toNat 46 4 = h.flag := by
  apply BitVec.eq_of_toNat_eq
  simp only [toNat_word h hmj hmi hbody, fld, BitVec.toNat_ofNat]; omega

theorem look_word : fld (word mj mi h body).toNat 42 4 = h.look := by
  apply BitVec.eq_of_toNat_eq
  simp only [toNat_word h hmj hmi hbody, fld, BitVec.toNat_ofNat]; omega

theorem body_word : (word mj mi h body).toNat % 2 ^ 42 = body := by
  rw [toNat_word h hmj hmi hbody]; omega

end

/-- The checks of the decoder in their order (spec/10 R279), on the fields of a word. -/
def decodeParts (ver mj mi : Nat) (h : Hdr) (b : Nat) : Except Nat Instr :=
  match majorVer mj with
  | none => .error 0x01
  | some v =>
    if ver < v then .error 0x03
    else match decBody mj mi h b with
      | none => .error 0x02
      | some r =>
        if !majorPort mj && h.look != 0 then .error 0x02
        else if h.flag.toNat > 12 then .error 0x08
        else match r with
          | none => .error 0x05
          | some i => if i.specsOk then .ok i else .error 0x05

theorem decodeWord_eq_parts (ver : Nat) (w : DWord) : decodeWord ver w = decodeParts ver (w.toNat / 2 ^ 57)
    (fld w.toNat 53 4).toNat ⟨fld w.toNat 50 3, fld w.toNat 46 4, fld w.toNat 42 4⟩ (w.toNat % 2 ^ 42) := rfl

/-- An assigned major decodes to what the decoder of its major answers, once the common checks pass. -/
theorem decodeParts_ok {mj mi b v : Nat} {h : Hdr} {i : Instr} (hv : majorVer mj = some v) (hv3 : v ≤ 3)
    (hdec : decBody mj mi h b = some (some i)) (hh : i.hdr = some h) (hport : i.port.isSome = majorPort mj)
    (hwf : i.wf = true) : decodeParts 3 mj mi h b = .ok i := by
  simp only [Instr.wf, Instr.hdrOk, hh, hport, Bool.and_eq_true, decide_eq_true_eq, Bool.or_eq_true, beq_iff_eq] at hwf
  obtain ⟨⟨⟨-, hflag, hlook⟩, -⟩, hspecs⟩ := hwf
  have hlook' : (!majorPort mj && h.look != 0) = false := by
    rcases hlook with hp | hl <;> simp [*]
  unfold decodeParts
  rw [hv]
  dsimp only
  rw [if_neg (Nat.not_lt.mpr hv3), hdec]
  dsimp only
  rw [hlook', if_neg Bool.false_ne_true, if_neg (Nat.not_lt.mpr hflag), if_pos hspecs]

theorem decodeWord_word {mj mi body : Nat} {h : Hdr} (hmj : mj < 2 ^ 7) (hmi : mi < 2 ^ 4) (hbody : body < 2 ^ 42) (ver : Nat) :
    decodeWord ver (word mj mi h body) = decodeParts ver mj mi h body := by
  rw [decodeWord_eq_parts, stall_word h hmj hmi hbody, flag_word h hmj hmi hbody, look_word h hmj hmi hbody,
    major_word h hmj hmi hbody, minor_word h hmj hmi hbody, body_word h hmj hmi hbody]

/-! ### The decoder of each major reads what the encoder laid out -/

/-! ### Modifier fields that hold more than one value -/

theorem fld_self {n : Nat} (r : BitVec n) : fld r.toNat 0 n = r := by
  rw [fld, Nat.pow_zero, Nat.div_one, BitVec.ofNat_toNat, BitVec.setWidth_eq]

/-- A narrow value in a wider field. -/
theorem toNat_mod {n k : Nat} (r : BitVec n) (h : 2 ^ n ≤ k) : r.toNat % k = r.toNat :=
  Nat.mod_eq_of_lt (lt_of_lt_of_le r.isLt h)

theorem barImm_fields (d a : BitVec 9) (l : BitVec 3) (n : BitVec 5) (c : BitVec 16) :
    bLvl (bodyI d a (barImm l n c)) = l ∧ bNum (bodyI d a (barImm l n c)) = n ∧ bCnt (bodyI d a (barImm l n c)) = c := by
  refine ⟨?_, ?_, ?_⟩ <;>
  · apply BitVec.eq_of_toNat_eq; simp only [bLvl, bNum, bCnt, fld, bodyI, barImm, BitVec.toNat_ofNat]; omega

/-- One flag alone (bit 0), and `.sat` of `abs` and `neg` (bit 1) (spec/13 R320). -/
theorem flag_mods (u : Bool) : b2n u % 64 < 2 ∧ bit (b2n u % 64) 0 = u ∧ b2n u % 512 < 2 ∧ bit (b2n u % 512) 0 = u := by
  cases u <;> decide
theorem sat_mods (u : Bool) : (2 * b2n u % 64 = 0 ∨ 2 * b2n u % 64 = 2) ∧ bit (2 * b2n u % 64) 1 = u := by cases u <;> decide
theorem lea_mods (s : BitVec 2) (u : Bool) : (s.toNat + 4 * b2n u) % 64 < 8 ∧ fld ((s.toNat + 4 * b2n u) % 64) 0 2 = s ∧
    bit ((s.toNat + 4 * b2n u) % 64) 2 = u := by cases u <;> revert s <;> decide
theorem cmpImm_mods (c : Cond) (i : BitVec 20) :
    (fld ((c.code * 1048576 + i.toNat) % 16777216) 20 4).toNat = c.code ∧ fld ((c.code * 1048576 + i.toNat) % 16777216) 0 20 = i := by
  have hc : c.code < 16 := by cases c <;> decide
  constructor
  · simp only [fld, BitVec.toNat_ofNat]; omega
  · apply BitVec.eq_of_toNat_eq; simp only [fld, BitVec.toNat_ofNat]; omega
theorem shfl_mods (m : ShMode) (z : Bool) : (m.code + 4 * b2n z) % 64 < 8 ∧ ShMode.ofCode ((m.code + 4 * b2n z) % 64 % 4) = some m ∧
    bit ((m.code + 4 * b2n z) % 64) 2 = z := by cases m <;> cases z <;> decide
theorem fcvt_mods (d s : FType) : FType.ofCode ((d.code + 8 * s.code) % 64 % 8) = some d ∧
    FType.ofCode ((d.code + 8 * s.code) % 64 / 8) = some s := by cases d <;> cases s <;> decide
theorem topkGroup_mods (p : TkPat) (w : TkWidth) (k : TkKind) : TkPat.ofCode ((p.code + 4 * w.code + 16 * k.code) % 64 % 4) = some p ∧
    TkWidth.ofCode ((p.code + 4 * w.code + 16 * k.code) % 64 / 4 % 4) = some w ∧
    TkKind.ofCode ((p.code + 4 * w.code + 16 * k.code) % 64 / 16) = some k := by cases p <;> cases w <;> cases k <;> decide
theorem topkRow_mods (w : TkWidth) (k : TkKind) : (4 * w.code + 16 * k.code) % 64 % 4 = 0 ∧
    TkWidth.ofCode ((4 * w.code + 16 * k.code) % 64 / 4 % 4) = some w ∧
    TkKind.ofCode ((4 * w.code + 16 * k.code) % 64 / 16) = some k := by cases w <;> cases k <;> decide
theorem cvtq_mods (s : BitVec 3) (t : QSrc) : QSrc.ofCode ((s.toNat + 8 * t.code) % 64 / 8) = some t ∧
    fld ((s.toNat + 8 * t.code) % 64) 0 3 = s := by cases t <;> revert s <;> decide
theorem access_mods (z : MSize) (u : Bool) : MSize.ofCode ((z.code + 8 * b2n u) % 64 % 8) = some z ∧ (z.code + 8 * b2n u) % 64 < 16 ∧
    bit ((z.code + 8 * b2n u) % 64) 3 = u := by cases z <;> cases u <;> decide
theorem ldt_mods (z : BitVec 3) (u : Bool) (hz : z ≠ 7) : (z.toNat + 8 * b2n u) % 64 < 16 ∧ z.toNat % 8 ≠ 7 ∧
    fld ((z.toNat + 8 * b2n u) % 64) 0 3 = z ∧ bit ((z.toNat + 8 * b2n u) % 64) 3 = u := by cases u <;> revert z <;> decide
theorem stt_mods (z : BitVec 3) (u : Bool) (hz : z ≠ 7) : (z.toNat + 16 * b2n u) % 64 < 32 ∧ (z.toNat + 16 * b2n u) % 8 ≠ 7 ∧
    fld ((z.toNat + 16 * b2n u) % 64) 0 3 = z ∧ bit ((z.toNat + 16 * b2n u) % 64) 3 = false ∧
    bit ((z.toNat + 16 * b2n u) % 64) 4 = u := by cases u <;> revert z <;> decide
theorem atom_mods (o : AOp) (t : AType) : AOp.ofCode ((o.code + 16 * t.code) % 64 % 16) = some o ∧
    AType.ofCode ((o.code + 16 * t.code) % 64 / 16) = some t := by cases o <;> cases t <;> decide
theorem prf_mods (u : Bool) : (8 * b2n u % 64 = 0 ∨ 8 * b2n u % 64 = 8) ∧ bit (8 * b2n u % 64) 3 = u := by cases u <;> decide
theorem mmaj_mods (t : BitVec 4) (z : Bool) : (t.toNat + 16 * b2n z) % 512 < 32 ∧ bit ((t.toNat + 16 * b2n z) % 512) 4 = z ∧
    fld ((t.toNat + 16 * b2n z) % 512) 0 4 = t := by cases z <;> revert t <;> decide
theorem tdrain_mods (q : Bool) (t : BitVec 2) (z i : Bool) : (b2n q + 2 * t.toNat + 8 * b2n z + 16 * b2n i) % 512 < 32 ∧
    bit ((b2n q + 2 * t.toNat + 8 * b2n z + 16 * b2n i) % 512) 0 = q ∧
    fld ((b2n q + 2 * t.toNat + 8 * b2n z + 16 * b2n i) % 512) 1 2 = t ∧
    bit ((b2n q + 2 * t.toNat + 8 * b2n z + 16 * b2n i) % 512) 3 = z ∧
    bit ((b2n q + 2 * t.toNat + 8 * b2n z + 16 * b2n i) % 512) 4 = i := by
  cases q <;> cases z <;> cases i <;> revert t <;> decide
theorem tzero_mods (q : Bool) (t : BitVec 2) : (b2n q + 2 * t.toNat) % 512 < 8 ∧ bit ((b2n q + 2 * t.toNat) % 512) 0 = q ∧
    fld ((b2n q + 2 * t.toNat) % 512) 1 2 = t := by cases q <;> revert t <;> decide
theorem cpy_mods (d s : Bool) : (b2n d + 2 * b2n s) % 512 < 4 ∧ bit ((b2n d + 2 * b2n s) % 512) 0 = d ∧
    bit ((b2n d + 2 * b2n s) % 512) 1 = s := by cases d <;> cases s <;> decide
theorem qfence_mods (s : QSet) : s.code % 512 < 64 ∧ (⟨bit (s.code % 512) 0, bit (s.code % 512) 1, bit (s.code % 512) 2,
    bit (s.code % 512) 3, bit (s.code % 512) 4, bit (s.code % 512) 5⟩ : QSet) = s := by
  obtain ⟨c, m, s, p, a, r⟩ := s
  cases c <;> cases m <;> cases s <;> cases p <;> cases a <;> cases r <;> decide
theorem scope_mods (c : Scope) (u : Bool) : Scope.ofCode ((c.code + 8 * b2n u) % 512 % 8) = some c ∧ (c.code + 8 * b2n u) % 512 < 16 ∧
    bit ((c.code + 8 * b2n u) % 512) 3 = u := by cases c <;> cases u <;> decide
theorem DMode.ofCode_mod8 (m : DMode) : DMode.ofCode (m.code % 8) = some m := by cases m <;> decide
@[simp] theorem Scope.bits_toNat (y : Scope) : y.bits.toNat = y.code := by cases y <;> rfl
@[simp] theorem Sat.code_mod64 (y : Sat) : y.code % 64 = y.code := by cases y <;> rfl
@[simp] theorem Cond.code_mod64 (y : Cond) : y.code % 64 = y.code := by cases y <;> rfl
@[simp] theorem FCond.code_mod64 (y : FCond) : y.code % 64 = y.code := by cases y <;> rfl
@[simp] theorem VoteKind.code_mod64 (y : VoteKind) : y.code % 64 = y.code := by cases y <;> rfl
@[simp] theorem RndMode.code_mod64 (y : RndMode) : y.code % 64 = y.code := by cases y <;> rfl
@[simp] theorem MSize.code_mod64 (y : MSize) : y.code % 64 = y.code := by cases y <;> rfl
@[simp] theorem FSem.code_mod64 (y : FSem) : y.code % 64 = y.code := by cases y <;> rfl
@[simp] theorem Scope.code_mod64 (y : Scope) : y.code % 64 = y.code := by cases y <;> rfl

/-! ### What the readers of the formats answer on a body of their format -/

@[simp] theorem nil_unused : nil 266#9 = some () := rfl

theorem a4_bodyA (d a b c : Spec) (m : BitVec 6) (k) : a4 (bodyA d.bits a.bits b.bits c.bits m) k = some (k d a b c) := by simp [a4]
theorem a3_bodyA (d a b : Spec) (m : BitVec 6) (k) : a3 (bodyA d.bits a.bits b.bits noOp m) k = some (k d a b) := by simp [a3]
theorem a2_bodyA (d a : Spec) (m : BitVec 6) (k) : a2 (bodyA d.bits a.bits noOp noOp m) k = some (k d a) := by simp [a2]
theorem a0_bodyA (m : BitVec 6) (i : Instr) : a0 (bodyA noOp noOp noOp noOp m) i = some (i : Instr) := by simp [a0]
theorem s1_bodyA (a : Spec) (m : BitVec 6) (k) : s1 (bodyA noOp a.bits noOp noOp m) k = some (k a) := by simp [s1]
theorem s2_bodyA (a b : Spec) (m : BitVec 6) (k) : s2 (bodyA noOp a.bits b.bits noOp m) k = some (k a b) := by simp [s2]
theorem s3_bodyA (a b c : Spec) (m : BitVec 6) (k) : s3 (bodyA noOp a.bits b.bits c.bits m) k = some (k a b c) := by simp [s3]
theorem d1_bodyA (d : Spec) (m : BitVec 6) (k) : d1 (bodyA d.bits noOp noOp noOp m) k = some (k d) := by simp [d1]
theorem i2_bodyI (d a : Spec) (i : BitVec 24) (k) : i2 (bodyI d.bits a.bits i) k = some (k d a) := by simp [i2]
theorem i2_bodyM (d a : Spec) (o : BitVec 15) (c : BitVec 3) (m : BitVec 6) (k) : i2 (bodyM d.bits a.bits o c m) k = some (k d a) := by
  simp [i2]
theorem i0_bodyI (i : BitVec 24) (k : Instr) : i0 (bodyI noOp noOp i) k = some k := by simp [i0]
theorem i0_bodyM (o : BitVec 15) (c : BitVec 3) (m : BitVec 6) (k : Instr) : i0 (bodyM noOp noOp o c m) k = some k := by simp [i0]
theorem q3_bodyQ (q : BitVec 6) (a b c : Spec) (m : BitVec 9) (k) : q3 (bodyQ q a.bits b.bits c.bits m) k = some (k a b c) := by simp [q3]
theorem q2_bodyQ (q : BitVec 6) (a b : Spec) (m : BitVec 9) (k) : q2 (bodyQ q a.bits b.bits noOp m) k = some (k a b) := by simp [q2]
theorem q1_bodyQ (q : BitVec 6) (a : Spec) (m : BitVec 9) (k) : q1 (bodyQ q a.bits noOp noOp m) k = some (k a) := by simp [q1]
theorem q0_bodyQ (q : BitVec 6) (m : BitVec 9) (i : Instr) : q0 (bodyQ q noOp noOp noOp m) i = some i := by simp [q0]
theorem x2_bodyX (acc : BitVec 6) (a b : Spec) (sA sB p : BitVec 3) (m : BitVec 9) (k) :
    x2 (bodyX acc a.bits b.bits sA sB p m) k = some (k a b) := by simp [x2]

/-- A check of the modifiers that passes, and a code that is assigned. -/
theorem chk_ok {c : Bool} {r : Option Instr} {i : Instr} (hc : c = true) (hr : r = some i) : chk c r = some (some i) := by rw [hc, hr]; rfl
theorem opt_ok {α : Type} {o : Option α} {x : α} {k : α → Option Instr} {i : Instr} (ho : o = some x) (hr : k x = some i) :
    opt o k = some (some i) := by rw [ho]; exact congrArg some hr

/-- The major is assigned in version 3 at the latest, and major and minor fit their fields. -/
def assigned (mj mi : Nat) : Bool := mj < 2 ^ 7 && mi < 2 ^ 4 && (majorVer mj).any (· ≤ 3)

theorem assigned_iff {mj mi : Nat} : assigned mj mi = true ↔ mj < 2 ^ 7 ∧ mi < 2 ^ 4 ∧ ∃ v, majorVer mj = some v ∧ v ≤ 3 := by
  simp [assigned, Option.any_eq_true, and_assoc]

/-- The decoder of the major reads the instruction back from the body that the encoder lays out. -/
def Readable (i : Instr) : Prop := ∃ mj mi h body, encode i = some (word mj mi h body) ∧ i.hdr = some h ∧
  i.port.isSome = majorPort mj ∧ assigned mj mi = true ∧ body < 2 ^ 42 ∧ decBody mj mi h body = some (some i)

theorem scM_bodyM (d a : BitVec 9) (o : BitVec 15) (c : Scope) (m : BitVec 6) : scM (bodyM d a o c.bits m) = some c := by
  rw [scM, fSc_bodyM, Scope.bits_toNat, Scope.ofCode_code]

theorem scQ_bodyQ (q : BitVec 6) (d a b : BitVec 9) (c : Scope) (nt : Bool) :
    scQ (bodyQ q d a b (m9 (c.code + 8 * b2n nt))) = some c := by
  rw [scQ, bodyQ_mod8, BitVec.toNat_ofNat]; exact (scope_mods c nt).1

theorem bit_bodyL (d : BitVec 9) (i : BitVec 32) : bit (bodyL d i) 32 = false := by
  have h : bodyL d i / 2 ^ 32 % 2 = 0 := by simp only [bodyL]; omega
  rw [bit, h]; rfl

/-- A decoder that checks the modifiers, or reads a code, and then the operands. The body is a variable in the equation of the decoder:
the kernel would compute with a body that is written out. -/
theorem dec_chk (mj mi : Nat) (h : Hdr) {c : Nat → Bool} {r : Nat → Option Instr} (hd : ∀ b, decBody mj mi h b = chk (c b) (r b))
    {b : Nat} {i : Instr} (hc : c b = true) (hr : r b = some i) : decBody mj mi h b = some (some i) :=
  (hd b).trans (chk_ok hc hr)
theorem dec_via (mj mi : Nat) (h : Hdr) {f : Nat → Dec} (hd : ∀ b, decBody mj mi h b = f b) {b : Nat} {r : Dec} (hr : f b = r) :
    decBody mj mi h b = r :=
  (hd b).trans hr
theorem dec_any (mj mi : Nat) (h : Hdr) {r : Nat → Option Instr} (hd : ∀ b, decBody mj mi h b = chk true (r b))
    {b : Nat} {i : Instr} (hr : r b = some i) : decBody mj mi h b = some (some i) :=
  (hd b).trans (chk_ok rfl hr)
theorem dec_opt (mj mi : Nat) (h : Hdr) {α : Type} {o : Nat → Option α} {k : Nat → α → Option Instr}
    (hd : ∀ b, decBody mj mi h b = opt (o b) (k b)) {b : Nat} (x : α) {i : Instr} (ho : o b = some x) (hr : k b x = some i) :
    decBody mj mi h b = some (some i) :=
  (hd b).trans (opt_ok ho hr)

/-- `bar` and `bara`: a count in the immediate, not at LEVEL 4, or in a register other than `zero` (spec/12 R297). -/
theorem readable_bar {k : BitVec 3 → BitVec 5 → BarCnt → Instr} {mi : Nat} {h : Hdr} {l : BitVec 3} {n : BitVec 5} {c : BarCnt}
    (hdec : ∀ b, decBody 0x04 mi h b = decBar b (k (bLvl b) (bNum b))) (hm : barCntOk l n c = true)
    (henc : encode (k l n c) = some (encBar mi h l n c)) (hh : (k l n c).hdr = some h)
    (hport : (k l n c).port.isSome = majorPort 0x04) (has : assigned 0x04 mi = true) : Readable (k l n c) := by
  simp only [barCntOk, Bool.and_eq_true] at hm
  obtain ⟨hok, hc⟩ := hm
  cases c with
  | imm x =>
    have hl : ¬ l = 4#3 := by rintro rfl; simp at hc
    refine ⟨0x04, mi, h, _, henc, hh, hport, has, bodyI_lt .., ?_⟩
    rw [hdec, decBar, if_pos (fA_bodyI ..)]
    exact chk_ok (by simp [barImm_fields, hok, hl]) (by simp [barImm_fields])
  | reg r =>
    have hr : r.bits ≠ noOp := by
      intro hb
      have hz : r = .zero := Option.some.inj ((sp_bits r).symm.trans (by rw [hb]; rfl))
      simp [hz] at hc
    refine ⟨0x04, mi, h, _, henc, hh, hport, has, bodyI_lt .., ?_⟩
    rw [hdec, decBar, if_neg (by rw [fA_bodyI]; exact hr)]
    exact chk_ok (by simp [barImm_fields, hok]) (by simp [barImm_fields])

theorem readable_qfence {h : Hdr} {q : BitVec 6} {s : QSet} {d : Spec} (hm : (Instr.qfence h q s d).modsOk = true) :
    Readable (.qfence h q s d) := by
  simp only [Instr.modsOk, Bool.and_eq_true, Bool.or_eq_true, beq_iff_eq] at hm
  obtain ⟨hset, hd⟩ := hm
  obtain ⟨hlt, hs⟩ := qfence_mods s
  have hbits : (⟨bit (bodyQ q d.bits noOp noOp (m9 s.code)) 0, bit (bodyQ q d.bits noOp noOp (m9 s.code)) 1,
      bit (bodyQ q d.bits noOp noOp (m9 s.code)) 2, bit (bodyQ q d.bits noOp noOp (m9 s.code)) 3,
      bit (bodyQ q d.bits noOp noOp (m9 s.code)) 4, bit (bodyQ q d.bits noOp noOp (m9 s.code)) 5⟩ : QSet) = s := by
    simpa using hs
  refine ⟨0x71, 0, h, _, rfl, rfl, rfl, rfl, bodyQ_lt .., ?_⟩
  have h5 : bit (bodyQ q d.bits noOp noOp (m9 s.code)) 5 = s.r := congrArg QSet.r hbits
  refine (dec_chk 0x71 0 h fun _ => rfl) (by rw [hbits]; simp [hlt, hset]) ?_
  rw [hbits]
  by_cases hr : s.r = true
  · rw [if_pos hr, q1_bodyQ, fX_bodyQ]
  · obtain rfl : d = .zero := hd.resolve_left hr
    rw [if_neg hr]
    exact (q0_bodyQ ..).trans (by rw [fX_bodyQ])

theorem readable (i : Instr) (hw : i.isWord = true) (hm : i.modsOk = true) : Readable i := by
  cases i with
  | brx h a => exact ⟨0x01, 0, h, _, rfl, rfl, rfl, rfl, bodyA_lt .., (dec_chk 0x01 0 h fun _ => rfl) (by simp) (s1_bodyA ..)⟩
  | callReg h a => exact ⟨0x02, 1, h, _, rfl, rfl, rfl, rfl, bodyA_lt .., (dec_chk 0x02 1 h fun _ => rfl) (by simp) (s1_bodyA ..)⟩
  | ret h => exact ⟨0x03, 0, h, _, rfl, rfl, rfl, rfl, bodyA_lt .., (dec_chk 0x03 0 h fun _ => rfl) (by simp) (a0_bodyA 0 _)⟩
  | reform h => exact ⟨0x03, 1, h, _, rfl, rfl, rfl, rfl, bodyA_lt .., (dec_chk 0x03 1 h fun _ => rfl) (by simp) (a0_bodyA 0 _)⟩
  | yield h => exact ⟨0x03, 2, h, _, rfl, rfl, rfl, rfl, bodyA_lt .., (dec_chk 0x03 2 h fun _ => rfl) (by simp) (a0_bodyA 0 _)⟩
  | exit h => exact ⟨0x03, 3, h, _, rfl, rfl, rfl, rfl, bodyA_lt .., (dec_chk 0x03 3 h fun _ => rfl) (by simp) (a0_bodyA 0 _)⟩
  | barw h l n =>
    have hb : barOk l n = true := hm
    exact ⟨0x04, 2, h, _, rfl, rfl, rfl, rfl, bodyI_lt .., (dec_chk 0x04 2 h fun _ => rfl) (by simp [barImm_fields, hb]) ((i0_bodyI ..).trans (by simp [barImm_fields]))⟩
  | spawn h d a b c => exact ⟨0x05, 0, h, _, rfl, rfl, rfl, rfl, bodyA_lt .., (dec_chk 0x05 0 h fun _ => rfl) (by simp) (a4_bodyA ..)⟩
  | join h => exact ⟨0x05, 1, h, _, rfl, rfl, rfl, rfl, bodyA_lt .., (dec_chk 0x05 1 h fun _ => rfl) (by simp) (a0_bodyA 0 _)⟩
  | nop h => exact ⟨0x06, 0, h, _, rfl, rfl, rfl, rfl, bodyI_lt .., (dec_chk 0x06 0 h fun _ => rfl) (by simp) (i0_bodyI 0 _)⟩
  | brk h n => exact ⟨0x06, 1, h, _, rfl, rfl, rfl, rfl, bodyI_lt .., (dec_any 0x06 1 h fun _ => rfl) ((i0_bodyI ..).trans (by simp))⟩
  | add h m d a b => exact ⟨0x10, 0, h, _, rfl, rfl, rfl, rfl, bodyA_lt .., (dec_opt 0x10 0 h fun _ => rfl) m (by simp) (a3_bodyA ..)⟩
  | sub h m d a b => exact ⟨0x10, 1, h, _, rfl, rfl, rfl, rfl, bodyA_lt .., (dec_opt 0x10 1 h fun _ => rfl) m (by simp) (a3_bodyA ..)⟩
  | mul h m d a b => exact ⟨0x10, 2, h, _, rfl, rfl, rfl, rfl, bodyA_lt .., (dec_opt 0x10 2 h fun _ => rfl) m (by simp) (a3_bodyA ..)⟩
  | mulh h u d a b => exact ⟨0x10, 3, h, _, rfl, rfl, rfl, rfl, bodyA_lt .., (dec_chk 0x10 3 h fun _ => rfl) (by simp [flag_mods u]) ((a3_bodyA ..).trans (by simp [flag_mods u]))⟩
  | mad h m d a b c => exact ⟨0x10, 4, h, _, rfl, rfl, rfl, rfl, bodyA_lt .., (dec_opt 0x10 4 h fun _ => rfl) m (by simp) (a4_bodyA ..)⟩
  | madw h u d a b c => exact ⟨0x10, 5, h, _, rfl, rfl, rfl, rfl, bodyA_lt .., (dec_chk 0x10 5 h fun _ => rfl) (by simp [flag_mods u]) ((a4_bodyA ..).trans (by simp [flag_mods u]))⟩
  | addc h d a b c => exact ⟨0x10, 6, h, _, rfl, rfl, rfl, rfl, bodyA_lt .., (dec_chk 0x10 6 h fun _ => rfl) (by simp) (a4_bodyA ..)⟩
  | subb h d a b c => exact ⟨0x10, 7, h, _, rfl, rfl, rfl, rfl, bodyA_lt .., (dec_chk 0x10 7 h fun _ => rfl) (by simp) (a4_bodyA ..)⟩
  | min h u d a b => exact ⟨0x10, 8, h, _, rfl, rfl, rfl, rfl, bodyA_lt .., (dec_chk 0x10 8 h fun _ => rfl) (by simp [flag_mods u]) ((a3_bodyA ..).trans (by simp [flag_mods u]))⟩
  | max h u d a b => exact ⟨0x10, 9, h, _, rfl, rfl, rfl, rfl, bodyA_lt .., (dec_chk 0x10 9 h fun _ => rfl) (by simp [flag_mods u]) ((a3_bodyA ..).trans (by simp [flag_mods u]))⟩
  | abs h s d a => exact ⟨0x10, 10, h, _, rfl, rfl, rfl, rfl, bodyA_lt .., (dec_chk 0x10 10 h fun _ => rfl) (by simp [sat_mods s]) ((a2_bodyA ..).trans (by simp [sat_mods s]))⟩
  | neg h s d a => exact ⟨0x10, 11, h, _, rfl, rfl, rfl, rfl, bodyA_lt .., (dec_chk 0x10 11 h fun _ => rfl) (by simp [sat_mods s]) ((a2_bodyA ..).trans (by simp [sat_mods s]))⟩
  | addImm h d a i => exact ⟨0x11, 0, h, _, rfl, rfl, rfl, rfl, bodyI_lt .., (dec_any 0x11 0 h fun _ => rfl) ((i2_bodyI ..).trans (by simp))⟩
  | subImm h d a i => exact ⟨0x11, 1, h, _, rfl, rfl, rfl, rfl, bodyI_lt .., (dec_any 0x11 1 h fun _ => rfl) ((i2_bodyI ..).trans (by simp))⟩
  | mulImm h d a i => exact ⟨0x11, 2, h, _, rfl, rfl, rfl, rfl, bodyI_lt .., (dec_any 0x11 2 h fun _ => rfl) ((i2_bodyI ..).trans (by simp))⟩
  | mulhImm h d a i => exact ⟨0x11, 3, h, _, rfl, rfl, rfl, rfl, bodyI_lt .., (dec_any 0x11 3 h fun _ => rfl) ((i2_bodyI ..).trans (by simp))⟩
  | minImm h d a i => exact ⟨0x11, 8, h, _, rfl, rfl, rfl, rfl, bodyI_lt .., (dec_any 0x11 8 h fun _ => rfl) ((i2_bodyI ..).trans (by simp))⟩
  | maxImm h d a i => exact ⟨0x11, 9, h, _, rfl, rfl, rfl, rfl, bodyI_lt .., (dec_any 0x11 9 h fun _ => rfl) ((i2_bodyI ..).trans (by simp))⟩
  | and h d a b => exact ⟨0x12, 0, h, _, rfl, rfl, rfl, rfl, bodyA_lt .., (dec_chk 0x12 0 h fun _ => rfl) (by simp) (a3_bodyA ..)⟩
  | or h d a b => exact ⟨0x12, 1, h, _, rfl, rfl, rfl, rfl, bodyA_lt .., (dec_chk 0x12 1 h fun _ => rfl) (by simp) (a3_bodyA ..)⟩
  | xor h d a b => exact ⟨0x12, 2, h, _, rfl, rfl, rfl, rfl, bodyA_lt .., (dec_chk 0x12 2 h fun _ => rfl) (by simp) (a3_bodyA ..)⟩
  | andn h d a b => exact ⟨0x12, 3, h, _, rfl, rfl, rfl, rfl, bodyA_lt .., (dec_chk 0x12 3 h fun _ => rfl) (by simp) (a3_bodyA ..)⟩
  | not h d a => exact ⟨0x12, 4, h, _, rfl, rfl, rfl, rfl, bodyA_lt .., (dec_chk 0x12 4 h fun _ => rfl) (by simp) (a2_bodyA ..)⟩
  | shl h d a b => exact ⟨0x12, 5, h, _, rfl, rfl, rfl, rfl, bodyA_lt .., (dec_chk 0x12 5 h fun _ => rfl) (by simp) (a3_bodyA ..)⟩
  | shr h d a b => exact ⟨0x12, 6, h, _, rfl, rfl, rfl, rfl, bodyA_lt .., (dec_chk 0x12 6 h fun _ => rfl) (by simp) (a3_bodyA ..)⟩
  | sar h d a b => exact ⟨0x12, 7, h, _, rfl, rfl, rfl, rfl, bodyA_lt .., (dec_chk 0x12 7 h fun _ => rfl) (by simp) (a3_bodyA ..)⟩
  | rot h d a b => exact ⟨0x12, 8, h, _, rfl, rfl, rfl, rfl, bodyA_lt .., (dec_chk 0x12 8 h fun _ => rfl) (by simp) (a3_bodyA ..)⟩
  | shf h d a b c => exact ⟨0x12, 9, h, _, rfl, rfl, rfl, rfl, bodyA_lt .., (dec_chk 0x12 9 h fun _ => rfl) (by simp) (a4_bodyA ..)⟩
  | andImm h d a i => exact ⟨0x13, 0, h, _, rfl, rfl, rfl, rfl, bodyI_lt .., (dec_any 0x13 0 h fun _ => rfl) ((i2_bodyI ..).trans (by simp))⟩
  | orImm h d a i => exact ⟨0x13, 1, h, _, rfl, rfl, rfl, rfl, bodyI_lt .., (dec_any 0x13 1 h fun _ => rfl) ((i2_bodyI ..).trans (by simp))⟩
  | xorImm h d a i => exact ⟨0x13, 2, h, _, rfl, rfl, rfl, rfl, bodyI_lt .., (dec_any 0x13 2 h fun _ => rfl) ((i2_bodyI ..).trans (by simp))⟩
  | andnImm h d a i => exact ⟨0x13, 3, h, _, rfl, rfl, rfl, rfl, bodyI_lt .., (dec_any 0x13 3 h fun _ => rfl) ((i2_bodyI ..).trans (by simp))⟩
  | shlImm h d a n => exact ⟨0x13, 5, h, _, rfl, rfl, rfl, rfl, bodyI_lt .., (dec_chk 0x13 5 h fun _ => rfl) (by simp [toNat_mod n, fld_self, n.isLt]) ((i2_bodyI ..).trans (by simp [toNat_mod n, fld_self, n.isLt]))⟩
  | shrImm h d a n => exact ⟨0x13, 6, h, _, rfl, rfl, rfl, rfl, bodyI_lt .., (dec_chk 0x13 6 h fun _ => rfl) (by simp [toNat_mod n, fld_self, n.isLt]) ((i2_bodyI ..).trans (by simp [toNat_mod n, fld_self, n.isLt]))⟩
  | sarImm h d a n => exact ⟨0x13, 7, h, _, rfl, rfl, rfl, rfl, bodyI_lt .., (dec_chk 0x13 7 h fun _ => rfl) (by simp [toNat_mod n, fld_self, n.isLt]) ((i2_bodyI ..).trans (by simp [toNat_mod n, fld_self, n.isLt]))⟩
  | rotImm h d a n => exact ⟨0x13, 8, h, _, rfl, rfl, rfl, rfl, bodyI_lt .., (dec_chk 0x13 8 h fun _ => rfl) (by simp [toNat_mod n, fld_self, n.isLt]) ((i2_bodyI ..).trans (by simp [toNat_mod n, fld_self, n.isLt]))⟩
  | bfx h i d a b => exact ⟨0x14, 0, h, _, rfl, rfl, rfl, rfl, bodyA_lt .., (dec_chk 0x14 0 h fun _ => rfl) (by simp [flag_mods i]) ((a3_bodyA ..).trans (by simp [flag_mods i]))⟩
  | bfi h d a b c => exact ⟨0x14, 1, h, _, rfl, rfl, rfl, rfl, bodyA_lt .., (dec_chk 0x14 1 h fun _ => rfl) (by simp) (a4_bodyA ..)⟩
  | popc h d a => exact ⟨0x14, 2, h, _, rfl, rfl, rfl, rfl, bodyA_lt .., (dec_chk 0x14 2 h fun _ => rfl) (by simp) (a2_bodyA ..)⟩
  | clz h d a => exact ⟨0x14, 3, h, _, rfl, rfl, rfl, rfl, bodyA_lt .., (dec_chk 0x14 3 h fun _ => rfl) (by simp) (a2_bodyA ..)⟩
  | ctz h d a => exact ⟨0x14, 4, h, _, rfl, rfl, rfl, rfl, bodyA_lt .., (dec_chk 0x14 4 h fun _ => rfl) (by simp) (a2_bodyA ..)⟩
  | brev h d a => exact ⟨0x14, 5, h, _, rfl, rfl, rfl, rfl, bodyA_lt .., (dec_chk 0x14 5 h fun _ => rfl) (by simp) (a2_bodyA ..)⟩
  | sel h d a b c => exact ⟨0x15, 0, h, _, rfl, rfl, rfl, rfl, bodyA_lt .., (dec_chk 0x15 0 h fun _ => rfl) (by simp) (a4_bodyA ..)⟩
  | cmp h c d a b => exact ⟨0x15, 1, h, _, rfl, rfl, rfl, rfl, bodyA_lt .., (dec_opt 0x15 1 h fun _ => rfl) c (by simp) (a3_bodyA ..)⟩
  | lea h s u d a b => exact ⟨0x15, 2, h, _, rfl, rfl, rfl, rfl, bodyA_lt .., (dec_chk 0x15 2 h fun _ => rfl) (by simp [lea_mods s u]) ((a3_bodyA ..).trans (by simp [lea_mods s u]))⟩
  | mov h w d a => exact ⟨0x15, 3, h, _, rfl, rfl, rfl, rfl, bodyA_lt .., (dec_chk 0x15 3 h fun _ => rfl) (by simp [flag_mods w]) ((a2_bodyA ..).trans (by simp [flag_mods w]))⟩
  | cmpImm h c d a i => exact ⟨0x16, 1, h, _, rfl, rfl, rfl, rfl, bodyI_lt .., (dec_opt 0x16 1 h fun _ => rfl) c (by simp [cmpImm_mods c i]) ((i2_bodyI ..).trans (by simp [cmpImm_mods c i]))⟩
  | leaImm h d a i => exact ⟨0x16, 2, h, _, rfl, rfl, rfl, rfl, bodyI_lt .., (dec_any 0x16 2 h fun _ => rfl) ((i2_bodyI ..).trans (by simp))⟩
  | vote h k d a => exact ⟨0x18, 1, h, _, rfl, rfl, rfl, rfl, bodyA_lt .., (dec_opt 0x18 1 h fun _ => rfl) k (by simp) (a2_bodyA ..)⟩
  | fadd h d a b => exact ⟨0x30, 0, h, _, rfl, rfl, rfl, rfl, bodyA_lt .., (dec_chk 0x30 0 h fun _ => rfl) (by simp) (a3_bodyA ..)⟩
  | fsub h d a b => exact ⟨0x30, 1, h, _, rfl, rfl, rfl, rfl, bodyA_lt .., (dec_chk 0x30 1 h fun _ => rfl) (by simp) (a3_bodyA ..)⟩
  | fmul h d a b => exact ⟨0x30, 2, h, _, rfl, rfl, rfl, rfl, bodyA_lt .., (dec_chk 0x30 2 h fun _ => rfl) (by simp) (a3_bodyA ..)⟩
  | ffma h d a b c => exact ⟨0x30, 3, h, _, rfl, rfl, rfl, rfl, bodyA_lt .., (dec_chk 0x30 3 h fun _ => rfl) (by simp) (a4_bodyA ..)⟩
  | fmin h n d a b => exact ⟨0x30, 4, h, _, rfl, rfl, rfl, rfl, bodyA_lt .., (dec_chk 0x30 4 h fun _ => rfl) (by simp [flag_mods n]) ((a3_bodyA ..).trans (by simp [flag_mods n]))⟩
  | fmax h n d a b => exact ⟨0x30, 5, h, _, rfl, rfl, rfl, rfl, bodyA_lt .., (dec_chk 0x30 5 h fun _ => rfl) (by simp [flag_mods n]) ((a3_bodyA ..).trans (by simp [flag_mods n]))⟩
  | fcmp h c d a b => exact ⟨0x30, 6, h, _, rfl, rfl, rfl, rfl, bodyA_lt .., (dec_opt 0x30 6 h fun _ => rfl) c (by simp) (a3_bodyA ..)⟩
  | fclass h d a => exact ⟨0x30, 7, h, _, rfl, rfl, rfl, rfl, bodyA_lt .., (dec_chk 0x30 7 h fun _ => rfl) (by simp) (a2_bodyA ..)⟩
  | fscale h d a b => exact ⟨0x30, 8, h, _, rfl, rfl, rfl, rfl, bodyA_lt .., (dec_chk 0x30 8 h fun _ => rfl) (by simp) (a3_bodyA ..)⟩
  | frnd h m d a => exact ⟨0x31, 1, h, _, rfl, rfl, rfl, rfl, bodyA_lt .., (dec_opt 0x31 1 h fun _ => rfl) m (by simp) (a2_bodyA ..)⟩
  | fpack h f d a b => exact ⟨0x31, 2, h, _, rfl, rfl, rfl, rfl, bodyA_lt .., (dec_chk 0x31 2 h fun _ => rfl) (by simp [flag_mods f]) ((a3_bodyA ..).trans (by simp [flag_mods f]))⟩
  | fdot2 h f d a b c => exact ⟨0x32, 0, h, _, rfl, rfl, rfl, rfl, bodyA_lt .., (dec_chk 0x32 0 h fun _ => rfl) (by simp [flag_mods f]) ((a4_bodyA ..).trans (by simp [flag_mods f]))⟩
  | fdot4 h f d a b c => exact ⟨0x32, 1, h, _, rfl, rfl, rfl, rfl, bodyA_lt .., (dec_chk 0x32 1 h fun _ => rfl) (by simp [flag_mods f]) ((a4_bodyA ..).trans (by simp [flag_mods f]))⟩
  | sfe2 h d a => exact ⟨0x40, 0, h, _, rfl, rfl, rfl, rfl, bodyA_lt .., (dec_chk 0x40 0 h fun _ => rfl) (by simp) (a2_bodyA ..)⟩
  | sfl2 h d a => exact ⟨0x40, 1, h, _, rfl, rfl, rfl, rfl, bodyA_lt .., (dec_chk 0x40 1 h fun _ => rfl) (by simp) (a2_bodyA ..)⟩
  | sfrcp h d a => exact ⟨0x40, 2, h, _, rfl, rfl, rfl, rfl, bodyA_lt .., (dec_chk 0x40 2 h fun _ => rfl) (by simp) (a2_bodyA ..)⟩
  | sfrsq h d a => exact ⟨0x40, 3, h, _, rfl, rfl, rfl, rfl, bodyA_lt .., (dec_chk 0x40 3 h fun _ => rfl) (by simp) (a2_bodyA ..)⟩
  | sfsqr h d a => exact ⟨0x40, 4, h, _, rfl, rfl, rfl, rfl, bodyA_lt .., (dec_chk 0x40 4 h fun _ => rfl) (by simp) (a2_bodyA ..)⟩
  | sfsin h d a => exact ⟨0x40, 5, h, _, rfl, rfl, rfl, rfl, bodyA_lt .., (dec_chk 0x40 5 h fun _ => rfl) (by simp) (a2_bodyA ..)⟩
  | sfcos h d a => exact ⟨0x40, 6, h, _, rfl, rfl, rfl, rfl, bodyA_lt .., (dec_chk 0x40 6 h fun _ => rfl) (by simp) (a2_bodyA ..)⟩
  | sftanh h d a => exact ⟨0x40, 7, h, _, rfl, rfl, rfl, rfl, bodyA_lt .., (dec_chk 0x40 7 h fun _ => rfl) (by simp) (a2_bodyA ..)⟩
  | sfsig h d a => exact ⟨0x40, 8, h, _, rfl, rfl, rfl, rfl, bodyA_lt .., (dec_chk 0x40 8 h fun _ => rfl) (by simp) (a2_bodyA ..)⟩
  | sfsilu h d a => exact ⟨0x40, 9, h, _, rfl, rfl, rfl, rfl, bodyA_lt .., (dec_chk 0x40 9 h fun _ => rfl) (by simp) (a2_bodyA ..)⟩
  | tment h d a => exact ⟨0x48, 0, h, _, rfl, rfl, rfl, rfl, bodyA_lt .., (dec_chk 0x48 0 h fun _ => rfl) (by simp) (a2_bodyA ..)⟩
  | tmred h d a => exact ⟨0x48, 1, h, _, rfl, rfl, rfl, rfl, bodyA_lt .., (dec_chk 0x48 1 h fun _ => rfl) (by simp) (a2_bodyA ..)⟩
  | tmmrg h d a b => exact ⟨0x48, 2, h, _, rfl, rfl, rfl, rfl, bodyA_lt .., (dec_chk 0x48 2 h fun _ => rfl) (by simp) (a3_bodyA ..)⟩
  | tmscl h d a b => exact ⟨0x48, 3, h, _, rfl, rfl, rfl, rfl, bodyA_lt .., (dec_chk 0x48 3 h fun _ => rfl) (by simp) (a3_bodyA ..)⟩
  | tmext h d a => exact ⟨0x48, 4, h, _, rfl, rfl, rfl, rfl, bodyA_lt .., (dec_chk 0x48 4 h fun _ => rfl) (by simp) (a2_bodyA ..)⟩
  | cvtq h t s d a b c => exact ⟨0x4C, 0, h, _, rfl, rfl, rfl, rfl, bodyA_lt .., (dec_opt 0x4C 0 h fun _ => rfl) t (by simp [cvtq_mods s t]) ((a4_bodyA ..).trans (by simp [cvtq_mods s t]))⟩
  | rquant h s d a b c => exact ⟨0x4C, 1, h, _, rfl, rfl, rfl, rfl, bodyA_lt .., (dec_chk 0x4C 1 h fun _ => rfl) (by simp [toNat_mod s, fld_self, s.isLt]) ((a4_bodyA ..).trans (by simp [toNat_mod s, fld_self, s.isLt]))⟩
  | bscale h t s d a => exact ⟨0x4C, 2, h, _, rfl, rfl, rfl, rfl, bodyA_lt .., (dec_opt 0x4C 2 h fun _ => rfl) t (by simp [cvtq_mods s t]) ((a2_bodyA ..).trans (by simp [cvtq_mods s t]))⟩
  | ldt h sz md d a o =>
    have hz : sz ≠ 7 := by simpa [Instr.modsOk] using hm
    exact ⟨0x52, 0, h, _, rfl, rfl, rfl, rfl, bodyM_lt .., (dec_chk 0x52 0 h fun _ => rfl) (by simp [ldt_mods sz md hz]) ((i2_bodyM ..).trans (by simp [ldt_mods sz md hz]))⟩
  | stt h sz an d a o =>
    have hz : sz ≠ 7 := by simpa [Instr.modsOk] using hm
    exact ⟨0x52, 1, h, _, rfl, rfl, rfl, rfl, bodyM_lt .., (dec_chk 0x52 1 h fun _ => rfl) (by simp [stt_mods sz an hz]) ((i2_bodyM ..).trans (by simp [stt_mods sz an hz]))⟩
  | gjoin h a => exact ⟨0x55, 0, h, _, rfl, rfl, rfl, rfl, bodyA_lt .., (dec_chk 0x55 0 h fun _ => rfl) (by simp) (s1_bodyA ..)⟩
  | gleave h => exact ⟨0x55, 1, h, _, rfl, rfl, rfl, rfl, bodyA_lt .., (dec_chk 0x55 1 h fun _ => rfl) (by simp) (a0_bodyA 0 _)⟩
  | fibld h cl d a b => exact ⟨0x56, 0, h, _, rfl, rfl, rfl, rfl, bodyA_lt .., (dec_chk 0x56 0 h fun _ => rfl) (by simp [flag_mods cl]) ((a3_bodyA ..).trans (by simp [flag_mods cl]))⟩
  | mma h z acc a b sA sB => exact ⟨0x60, 0, h, _, rfl, rfl, rfl, rfl, bodyX_lt .., (dec_chk 0x60 0 h fun _ => rfl) (by simp [flag_mods z]) ((x2_bodyX ..).trans (by simp [flag_mods z]))⟩
  | mmaj h z t acc a b sA sB => exact ⟨0x62, 0, h, _, rfl, rfl, rfl, rfl, bodyX_lt .., (dec_chk 0x62 0 h fun _ => rfl) (by simp [mmaj_mods t z]) ((x2_bodyX ..).trans (by simp [mmaj_mods t z]))⟩
  | mmx h a => exact ⟨0x63, 0, h, _, rfl, rfl, rfl, rfl, bodyQ_lt .., (dec_chk 0x63 0 h fun _ => rfl) (by simp) (q1_bodyQ ..)⟩
  | mmr h a => exact ⟨0x63, 1, h, _, rfl, rfl, rfl, rfl, bodyQ_lt .., (dec_chk 0x63 1 h fun _ => rfl) (by simp) (q1_bodyQ ..)⟩
  | cpy h ds ss a b c => exact ⟨0x70, 0, h, _, rfl, rfl, rfl, rfl, bodyQ_lt .., (dec_chk 0x70 0 h fun _ => rfl) (by simp [cpy_mods ds ss]) ((q3_bodyQ ..).trans (by simp [cpy_mods ds ss]))⟩
  | cpyp h a b c => exact ⟨0x70, 1, h, _, rfl, rfl, rfl, rfl, bodyQ_lt .., (dec_chk 0x70 1 h fun _ => rfl) (by simp) (q3_bodyQ ..)⟩
  | qpost h q a => exact ⟨0x71, 1, h, _, rfl, rfl, rfl, rfl, bodyQ_lt .., (dec_chk 0x71 1 h fun _ => rfl) (by simp) ((q1_bodyQ ..).trans (by simp))⟩
  | rlinv h q a => exact ⟨0x71, 2, h, _, rfl, rfl, rfl, rfl, bodyQ_lt .., (dec_chk 0x71 2 h fun _ => rfl) (by simp) ((q1_bodyQ ..).trans (by simp))⟩
  | ctrset h a b => exact ⟨0x72, 0, h, _, rfl, rfl, rfl, rfl, bodyQ_lt .., (dec_chk 0x72 0 h fun _ => rfl) (by simp) (q2_bodyQ ..)⟩
  | ctradd h a b => exact ⟨0x72, 1, h, _, rfl, rfl, rfl, rfl, bodyQ_lt .., (dec_chk 0x72 1 h fun _ => rfl) (by simp) (q2_bodyQ ..)⟩
  | ctrwait h a b => exact ⟨0x72, 2, h, _, rfl, rfl, rfl, rfl, bodyQ_lt .., (dec_chk 0x72 2 h fun _ => rfl) (by simp) (q2_bodyQ ..)⟩
  | stcfg h e a => exact ⟨0x73, 0, h, _, rfl, rfl, rfl, rfl, bodyQ_lt .., (dec_chk 0x73 0 h fun _ => rfl) (by simp [num_bodyQ, toNat_mod e, e.isLt]) ((q1_bodyQ ..).trans (by simp [num_bodyQ, toNat_mod e, e.isLt]))⟩
  | rwait h r d => exact ⟨0x73, 1, h, _, rfl, rfl, rfl, rfl, bodyQ_lt .., (dec_chk 0x73 1 h fun _ => rfl) (by simp [num_bodyQ, toNat_mod r, r.isLt]) ((q1_bodyQ ..).trans (by simp [num_bodyQ, toNat_mod r, r.isLt]))⟩
  | rdone h r a => exact ⟨0x73, 2, h, _, rfl, rfl, rfl, rfl, bodyQ_lt .., (dec_chk 0x73 2 h fun _ => rfl) (by simp [num_bodyQ, toNat_mod r, r.isLt]) ((q1_bodyQ ..).trans (by simp [num_bodyQ, toNat_mod r, r.isLt]))⟩
  | rclose h r => exact ⟨0x73, 3, h, _, rfl, rfl, rfl, rfl, bodyQ_lt .., (dec_chk 0x73 3 h fun _ => rfl) (by simp [num_bodyQ, toNat_mod r, r.isLt]) ((q0_bodyQ ..).trans (by simp [num_bodyQ, toNat_mod r, r.isLt]))⟩
  | sigld h s a b => exact ⟨0x76, 0, h, _, rfl, rfl, rfl, rfl, bodyQ_lt .., (dec_chk 0x76 0 h fun _ => rfl) (by simp [num_bodyQ, toNat_mod s, s.isLt]) ((q2_bodyQ ..).trans (by simp [num_bodyQ, toNat_mod s, s.isLt]))⟩
  | qsig h s d b => exact ⟨0x77, 0, h, _, rfl, rfl, rfl, rfl, bodyQ_lt .., (dec_chk 0x77 0 h fun _ => rfl) (by simp [num_bodyQ, toNat_mod s, s.isLt]) ((q2_bodyQ ..).trans (by simp [num_bodyQ, toNat_mod s, s.isLt]))⟩
  | trap h n => exact ⟨0x78, 0, h, _, rfl, rfl, rfl, rfl, bodyI_lt .., (dec_any 0x78 0 h fun _ => rfl) ((i0_bodyI ..).trans (by simp))⟩
  | sysc h n => exact ⟨0x78, 1, h, _, rfl, rfl, rfl, rfl, bodyI_lt .., (dec_any 0x78 1 h fun _ => rfl) ((i0_bodyI ..).trans (by simp))⟩
  | tret h => exact ⟨0x7A, 0, h, _, rfl, rfl, rfl, rfl, bodyA_lt .., (dec_chk 0x7A 0 h fun _ => rfl) (by simp) (a0_bodyA 0 _)⟩
  | tretEnd h => exact ⟨0x7A, 1, h, _, rfl, rfl, rfl, rfl, bodyA_lt .., (dec_chk 0x7A 1 h fun _ => rfl) (by simp) (a0_bodyA 0 _)⟩
  | csave h d a => exact ⟨0x7A, 2, h, _, rfl, rfl, rfl, rfl, bodyA_lt .., (dec_chk 0x7A 2 h fun _ => rfl) (by simp) (a2_bodyA ..)⟩
  | crest h a b => exact ⟨0x7A, 3, h, _, rfl, rfl, rfl, rfl, bodyA_lt .., (dec_chk 0x7A 3 h fun _ => rfl) (by simp) (s2_bodyA ..)⟩
  | rdclk h d => exact ⟨0x7B, 0, h, _, rfl, rfl, rfl, rfl, bodyA_lt .., (dec_chk 0x7B 0 h fun _ => rfl) (by simp) (d1_bodyA ..)⟩
  | bra h o => exact ⟨0x00, 0, h, _, rfl, rfl, rfl, rfl, bodyB_lt .., (dec_any 0x00 0 h fun _ => rfl) (by simp)⟩
  | brz h r o => exact ⟨0x00, 1, h, _, rfl, rfl, rfl, rfl, bodyB_lt .., (dec_any 0x00 1 h fun _ => rfl) (by simp)⟩
  | brnz h r o => exact ⟨0x00, 2, h, _, rfl, rfl, rfl, rfl, bodyB_lt .., (dec_any 0x00 2 h fun _ => rfl) (by simp)⟩
  | callDirect h o => exact ⟨0x02, 0, h, _, rfl, rfl, rfl, rfl, bodyB_lt .., (dec_any 0x02 0 h fun _ => rfl) (by simp)⟩
  | bar h l n c => exact readable_bar (fun _ => rfl) hm rfl rfl rfl rfl
  | bara h l n c => exact readable_bar (fun _ => rfl) hm rfl rfl rfl rfl
  | movi h d i => exact ⟨0x17, 0, h, _, rfl, rfl, rfl, rfl, bodyL_lt .., (dec_chk 0x17 0 h fun _ => rfl) (by simp [bit_bodyL]) (by simp)⟩
  | shfl h m z d a b =>
    refine ⟨0x18, 0, h, _, rfl, rfl, rfl, rfl, bodyA_lt .., ?_⟩
    refine dec_via 0x18 0 h (f := dec18 0 h) (fun _ => rfl) ?_
    simp only [dec18]
    exact (if_pos (by simp [shfl_mods])).trans (opt_ok (x := m) (by simp only [fM_bodyA, BitVec.toNat_ofNat]; exact (shfl_mods m z).2.1)
      ((a3_bodyA ..).trans (by simp [shfl_mods])))
  | rdsr h d i => exact ⟨0x19, 0, h, _, rfl, rfl, rfl, rfl, bodyI_lt .., (dec_chk 0x19 0 h fun _ => rfl) (by simp [toNat_mod i, i.isLt]) (by simp [toNat_mod i, fld_self])⟩
  | wrsr h a i => exact ⟨0x19, 1, h, _, rfl, rfl, rfl, rfl, bodyI_lt .., (dec_chk 0x19 1 h fun _ => rfl) (by simp [toNat_mod i, i.isLt]) (by simp [toNat_mod i, fld_self])⟩
  | fcvt h dt sty d a =>
    obtain ⟨h1, h2⟩ := fcvt_mods dt sty
    have hc : fcvtOk dt sty = true := hm
    refine ⟨0x31, 0, h, _, rfl, rfl, rfl, rfl, bodyA_lt .., ?_⟩
    refine dec_via 0x31 0 h (f := dec31 0 h) (fun _ => rfl) ?_
    simp only [dec31, fM_bodyA, BitVec.toNat_ofNat, h1, h2, hc, chk_ok rfl (a2_bodyA ..)]
  | topkGroup h p w k a b c =>
    obtain ⟨h1, h2, h3⟩ := topkGroup_mods p w k
    refine ⟨0x41, 0, h, _, rfl, rfl, rfl, rfl, bodyA_lt .., ?_⟩
    refine dec_via 0x41 0 h (f := dec41 0 h) (fun _ => rfl) ?_
    simp only [dec41, fM_bodyA, BitVec.toNat_ofNat, h1, h2, h3, chk_ok rfl (s3_bodyA ..)]
  | topkRow h w k d a b c =>
    obtain ⟨h1, h2, h3⟩ := topkRow_mods w k
    refine ⟨0x41, 1, h, _, rfl, rfl, rfl, rfl, bodyA_lt .., ?_⟩
    refine dec_via 0x41 1 h (f := dec41 1 h) (fun _ => rfl) ?_
    simp only [dec41, fM_bodyA, BitVec.toNat_ofNat, h1, h2, h3, beq_self_eq_true, chk_ok rfl (a4_bodyA ..)]
  | tmld h p a o => exact ⟨0x49, 0, h, _, rfl, rfl, rfl, rfl, bodyM_lt .., (dec_chk 0x49 0 h fun _ => rfl) (by simp [toNat_mod p, p.isLt]) (by simp [toNat_mod p, fld_self])⟩
  | ld h sz tm sc d a o =>
    obtain ⟨h1, h2, h3⟩ := access_mods sz tm
    refine ⟨0x50, 0, h, _, rfl, rfl, rfl, rfl, bodyM_lt .., ?_⟩
    refine dec_via 0x50 0 h (f := dec50 0 h) (fun _ => rfl) ?_
    simp only [dec50, fM_bodyM, BitVec.toNat_ofNat, scM_bodyM, h1]
    exact chk_ok (decide_eq_true h2) ((i2_bodyM ..).trans (by simp [h3]))
  | st h sz tm sc d a o =>
    obtain ⟨h1, h2, h3⟩ := access_mods sz tm
    refine ⟨0x50, 1, h, _, rfl, rfl, rfl, rfl, bodyM_lt .., ?_⟩
    refine dec_via 0x50 1 h (f := dec50 1 h) (fun _ => rfl) ?_
    simp only [dec50, fM_bodyM, BitVec.toNat_ofNat, scM_bodyM, h1]
    exact chk_ok (decide_eq_true h2) ((i2_bodyM ..).trans (by simp [h3]))
  | lds h sz sc d a o =>
    refine ⟨0x51, 0, h, _, rfl, rfl, rfl, rfl, bodyM_lt .., ?_⟩
    refine dec_via 0x51 0 h (f := dec51 0 h) (fun _ => rfl) ?_
    simp only [dec51, fM_bodyM, BitVec.toNat_ofNat, scM_bodyM, Nat.reducePow, MSize.code_mod64, MSize.ofCode_code]
    exact chk_ok rfl ((i2_bodyM ..).trans (by simp))
  | sts h sz sc d a o =>
    refine ⟨0x51, 1, h, _, rfl, rfl, rfl, rfl, bodyM_lt .., ?_⟩
    refine dec_via 0x51 1 h (f := dec51 1 h) (fun _ => rfl) ?_
    simp only [dec51, fM_bodyM, BitVec.toNat_ofNat, scM_bodyM, Nat.reducePow, MSize.code_mod64, MSize.ofCode_code]
    exact chk_ok rfl ((i2_bodyM ..).trans (by simp))
  | atom h op ty sc d a b =>
    obtain ⟨h1, h2⟩ := atom_mods op ty
    have hc : atomOk op ty = true := hm
    refine ⟨0x53, 0, h, _, rfl, rfl, rfl, rfl, bodyM_lt .., ?_⟩
    refine dec_via 0x53 0 h (f := dec53 0 h) (fun _ => rfl) ?_
    simp only [dec53, fM_bodyM, BitVec.toNat_ofNat, scM_bodyM, h1, h2]
    exact chk_ok (by simp only [hc, pad_bodyM]; rfl) (by simp only [fD_bodyM, fA_bodyM, fB_bodyM, sp_bits]; rfl)
  | red h op ty sc a b =>
    obtain ⟨h1, h2⟩ := atom_mods op ty
    have hc : redOk op ty = true := hm
    refine ⟨0x53, 1, h, _, rfl, rfl, rfl, rfl, bodyM_lt .., ?_⟩
    refine dec_via 0x53 1 h (f := dec53 1 h) (fun _ => rfl) ?_
    simp only [dec53, fM_bodyM, BitVec.toNat_ofNat, scM_bodyM, h1, h2]
    exact chk_ok (by simp only [hc, pad_bodyM]; rfl) (by simp only [fD_bodyM, fA_bodyM, fB_bodyM, sp_bits, nil_noOp]; rfl)
  | fence h sem sc =>
    refine ⟨0x54, 0, h, _, rfl, rfl, rfl, rfl, bodyM_lt .., ?_⟩
    refine dec_via 0x54 0 h (f := dec54 0 h) (fun _ => rfl) ?_
    simp only [dec54, fM_bodyM, BitVec.toNat_ofNat, scM_bodyM, Nat.reducePow, FSem.code_mod64, FSem.ofCode_code]
    exact chk_ok (by simp) (i0_bodyM ..)
  | prf h tm sc a o =>
    refine ⟨0x54, 1, h, _, rfl, rfl, rfl, rfl, bodyM_lt .., ?_⟩
    refine dec_via 0x54 1 h (f := dec54 1 h) (fun _ => rfl) ?_
    simp only [dec54]
    exact (if_pos (by simp [prf_mods])).trans (opt_ok (scM_bodyM ..) (by simp [prf_mods]))
  | fibprb h mk d a =>
    cases mk with
    | none =>
      refine ⟨0x56, 1, h, _, rfl, rfl, rfl, rfl, bodyA_lt .., dec_via 0x56 1 h (f := dec56 1 h) (fun _ => rfl) ?_⟩
      simp only [dec56]
      exact (if_pos (by simp)).trans (chk_ok rfl (a2_bodyA ..))
    | some m =>
      refine ⟨0x56, 1, h, _, rfl, rfl, rfl, rfl, bodyA_lt .., dec_via 0x56 1 h (f := dec56 1 h) (fun _ => rfl) ?_⟩
      simp only [dec56]
      exact (if_neg (by simp)).trans ((if_pos (by simp)).trans (chk_ok rfl (a3_bodyA ..)))
  | mmas h p acc a b m sA sB => exact ⟨0x61, 0, h, _, rfl, rfl, rfl, rfl, bodyX_lt .., (dec_any 0x61 0 h fun _ => rfl) (by simp)⟩
  | tdrain h m q t z i acc a b s =>
    obtain ⟨h1, h2, h3, h4, h5⟩ := tdrain_mods q t z i
    refine ⟨0x64, 0, h, _, rfl, rfl, rfl, rfl, bodyX_lt .., ?_⟩
    refine dec_via 0x64 0 h (f := dec64 0 h) (fun _ => rfl) ?_
    simp only [dec64, fXp_bodyX, BitVec.toNat_ofNat, Nat.reducePow, DMode.ofCode_mod8]
    exact chk_ok (by simp [h1]) ((x2_bodyX ..).trans (by simp [h2, h3, h4, h5]))
  | tzero h q t acc => exact ⟨0x64, 1, h, _, rfl, rfl, rfl, rfl, bodyX_lt .., (dec_chk 0x64 1 h fun _ => rfl) (by simp [tzero_mods]) (by simp [tzero_mods])⟩
  | qfence h q s d => exact readable_qfence hm
  | kstore h nt sc s a b c =>
    obtain ⟨h1, h2, h3⟩ := scope_mods sc nt
    refine ⟨0x76, 1, h, _, rfl, rfl, rfl, rfl, bodyQ_lt .., ?_⟩
    refine dec_via 0x76 1 h (f := dec76 1 h) (fun _ => rfl) ?_
    simp only [dec76, scQ_bodyQ]
    exact chk_ok (by simp [h2, toNat_mod s, s.isLt]) ((q3_bodyQ ..).trans (by simp [h3, num_bodyQ]))
  | bprobe h nt sc d b c =>
    obtain ⟨h1, h2, h3⟩ := scope_mods sc nt
    refine ⟨0x77, 1, h, _, rfl, rfl, rfl, rfl, bodyQ_lt .., ?_⟩
    refine dec_via 0x77 1 h (f := dec77 1 h) (fun _ => rfl) ?_
    simp only [dec77, scQ_bodyQ]
    exact chk_ok (by simp [h2]) ((q3_bodyQ ..).trans (by simp [h3]))
  | sig h sc a b =>
    refine ⟨0x79, 0, h, _, rfl, rfl, rfl, rfl, bodyA_lt .., ?_⟩
    refine dec_via 0x79 0 h (f := dec79 0 h) (fun _ => rfl) ?_
    simp only [dec79, fM_bodyA, BitVec.toNat_ofNat, Nat.reducePow, Scope.code_mod64, Scope.ofCode_code]
    exact chk_ok rfl (s2_bodyA ..)
  | _ => exact absurd hw (by simp [Instr.isWord, Instr.hdr])

/-- Settles O56: the fields of the word are those that the encoder laid out, the decoder of its major reads the instruction back,
and a well-formed instruction passes the common checks. -/
theorem decodeUndoesEncode : Obligations.DecodeUndoesEncode := by
  unfold Obligations.DecodeUndoesEncode
  intro i hwf
  have hwf' := hwf
  simp only [Instr.wf, Bool.and_eq_true] at hwf'
  obtain ⟨⟨⟨hword, -⟩, hmods⟩, -⟩ := hwf'
  obtain ⟨mj, mi, h, body, henc, hh, hport, has, hbody, hdec⟩ := readable i hword hmods
  obtain ⟨hmj, hmi, v, hv, hv3⟩ := assigned_iff.1 has
  exact ⟨_, henc, by rw [decodeWord_word hmj hmi hbody, decodeParts_ok hv hv3 hdec hh hport hwf]⟩

end Sys2Proof
end

section
/-! SUPPORT. Every word that decodes is the encoding of its instruction (spec/10 R277, R279). -/

namespace Sys2Proof

/-- The instruction is one that the encoder lays out as this body under this major and minor, and its modifiers are legal. -/
def Lays (i : Instr) (mj mi : Nat) (h : Hdr) (b : Nat) : Prop :=
  i.hdr = some h ∧ i.port.isSome = majorPort mj ∧ i.modsOk = true ∧ encode i = some (word mj mi h b)

/-- A body that is equal to the one laid out is laid out. -/
theorem Lays.of_body {i : Instr} {mj mi : Nat} {h : Hdr} {b b' : Nat} (hl : Lays i mj mi h b') (he : b' = b) : Lays i mj mi h b := he ▸ hl

theorem chk_inv {c : Bool} {r : Option Instr} {i : Instr} (hd : chk c r = some (some i)) : c = true ∧ r = some i := by
  cases c with
  | true => exact ⟨rfl, Option.some.inj hd⟩
  | false => cases hd

theorem opt_inv {α : Type} {o : Option α} {k : α → Option Instr} {i : Instr} (hd : opt o k = some (some i)) :
    ∃ x, o = some x ∧ k x = some i := Option.map_eq_some_iff.1 hd

/-! ### What the modifier bits of a body hold, once their check has passed -/

theorem fM_lt (b : Nat) : fM b < 64 := (fld b 0 6).isLt
theorem fM_eq_mod (b : Nat) : fM b = b % 2 ^ 6 := by simp [fM, fld]
theorem fXm_eq_mod (b : Nat) : (fXm b).toNat = b % 2 ^ 9 := by simp [fXm, fld]

theorem bit_of_fM {b i : Nat} (h : i < 6) : bit b i = bit (fM b) i := by rw [fM_eq_mod, bit_mod _ h]
theorem fld_of_fM {b lo n : Nat} (h : lo + n ≤ 6) : fld b lo n = fld (fM b) lo n := by rw [fM_eq_mod, fld_mod _ h]
theorem bit_of_fXm {b i : Nat} (h : i < 9) : bit b i = bit (fXm b).toNat i := by rw [fXm_eq_mod, bit_mod _ h]
theorem fld_of_fXm {b lo n : Nat} (h : lo + n ≤ 9) : fld b lo n = fld (fXm b).toNat lo n := by rw [fXm_eq_mod, fld_mod _ h]

theorem none_low {m : Nat} (h : (m == 0) = true) : 0 = m := (eq_of_beq h).symm

theorem flag_low {m : Nat} (h : decide (m < 2) = true) : b2n (bit m 0) = m := by
  have h' := of_decide_eq_true h; interval_cases m <;> rfl
theorem sat_low {m : Nat} (h : (m == 0 || m == 2) = true) : 2 * b2n (bit m 1) = m := by
  rcases Bool.or_eq_true_iff.1 h with h | h <;> rw [eq_of_beq h] <;> rfl
theorem low3_low {m : Nat} (h : decide (m < 8) = true) : (fld m 0 3).toNat = m := by
  have h' := of_decide_eq_true h; interval_cases m <;> rfl
theorem low2_low {m : Nat} (h : decide (m < 4) = true) : (fld m 0 2).toNat = m := by
  have h' := of_decide_eq_true h; interval_cases m <;> rfl
theorem lea_low {m : Nat} (h : decide (m < 8) = true) : (fld m 0 2).toNat + 4 * b2n (bit m 2) = m := by
  have h' := of_decide_eq_true h; interval_cases m <;> rfl
theorem bit2_low {m : Nat} (h : m < 8) : m % 4 + 4 * b2n (bit m 2) = m := by interval_cases m <;> rfl
theorem bit3_low {m : Nat} (h : decide (m < 16) = true) : m % 8 + 8 * b2n (bit m 3) = m := by
  have h' := of_decide_eq_true h; interval_cases m <;> rfl
theorem prf_low {m : Nat} (h : (m == 0 || m == 8) = true) : 8 * b2n (bit m 3) = m := by
  rcases Bool.or_eq_true_iff.1 h with h | h <;> rw [eq_of_beq h] <;> rfl
theorem src_low {m : Nat} (h : m < 64) : (fld m 0 3).toNat + 8 * (m / 8) = m := by
  simp only [fld, BitVec.toNat_ofNat]; omega
theorem ldt_low {m : Nat} (h : m < 16) : (fld m 0 3).toNat + 8 * b2n (bit m 3) = m := by interval_cases m <;> rfl
theorem stt_low {m : Nat} (h : m < 32) (h3 : bit m 3 = false) : (fld m 0 3).toNat + 16 * b2n (bit m 4) = m := by
  revert h3; interval_cases m <;> decide
theorem size_ne_seven {m : Nat} (h : m % 8 ≠ 7) : (fld m 0 3 != 7) = true := by
  refine bne_iff_ne.2 fun he => h ?_
  have := congrArg BitVec.toNat he
  simpa [fld] using this
theorem mmaj_low {m : Nat} (h : decide (m < 32) = true) : (fld m 0 4).toNat + 16 * b2n (bit m 4) = m := by
  have h' := of_decide_eq_true h; interval_cases m <;> rfl
theorem tdrain_low {m : Nat} (h : m < 32) : b2n (bit m 0) + 2 * (fld m 1 2).toNat + 8 * b2n (bit m 3) + 16 * b2n (bit m 4) = m := by
  interval_cases m <;> rfl
theorem tzero_low {m : Nat} (h : m < 8) : b2n (bit m 0) + 2 * (fld m 1 2).toNat = m := by interval_cases m <;> rfl
theorem cpy_low {m : Nat} (h : m < 4) : b2n (bit m 0) + 2 * b2n (bit m 1) = m := by interval_cases m <;> rfl
theorem qset_low {m : Nat} (h : m < 64) : (⟨bit m 0, bit m 1, bit m 2, bit m 3, bit m 4, bit m 5⟩ : QSet).code = m := by
  interval_cases m <;> rfl

/-! ### What the readers of the formats read is what is laid out -/

section
variable {b : Nat} (hb : b < 2 ^ 42) {mj mi : Nat} {h : Hdr} {i : Instr}
include hb

theorem bodyA_of {n : Nat} (hn : n = fM b) : bodyA (fD b) (fA b) (fB b) (fC b) (m6 n) = b := hn ▸ bodyA_fields hb
theorem bodyI_of {v : BitVec 24} (hv : v = fI b) : bodyI (fD b) (fA b) v = b := hv ▸ bodyI_fields hb
theorem bodyM_of {n : Nat} {o : BitVec 15} {c : BitVec 3} (hn : n = fM b) (ho : o = fOff b) (hc : c = fSc b) :
    bodyM (fD b) (fA b) o c (m6 n) = b := by subst hn ho hc; exact bodyM_fields hb
theorem bodyX_of {n : Nat} {sA sB p : BitVec 3} (hn : n = (fXm b).toNat) (hA : sA = fXsA b) (hB : sB = fXsB b) (hp : p = fXp b) :
    bodyX (fX b) (fXa b) (fXb b) sA sB p (m9 n) = b := by
  subst hn hA hB hp; rw [m9, BitVec.ofNat_toNat, BitVec.setWidth_eq]; exact bodyX_fields hb
theorem bodyQ_of {n : Nat} {q : BitVec 6} (hn : n = (fXm b).toNat) (hq : q = fX b) :
    bodyQ q (fXa b) (fXb b) (fQc b) (m9 n) = b := by
  subst hn hq; rw [m9, BitVec.ofNat_toNat, BitVec.setWidth_eq]; exact bodyQ_fields hb

theorem a4_lays {n : Nat} (hn : n = fM b) {k : Spec → Spec → Spec → Spec → Instr}
    (hk : ∀ d a c e : Spec, Lays (k d a c e) mj mi h (bodyA d.bits a.bits c.bits e.bits (m6 n))) (hr : a4 b k = some i) : Lays i mj mi h b := by
  simp only [a4, Option.bind_eq_bind, Option.bind_eq_some_iff, Option.pure_def, Option.some.injEq] at hr
  obtain ⟨d, hd, a, ha, c, hc, e, he, rfl⟩ := hr
  have hbody := bodyA_of hb hn
  rw [← bits_of_sp hd, ← bits_of_sp ha, ← bits_of_sp hc, ← bits_of_sp he] at hbody
  exact (hk ..).of_body hbody
theorem a3_lays {n : Nat} (hn : n = fM b) {k : Spec → Spec → Spec → Instr}
    (hk : ∀ d a c : Spec, Lays (k d a c) mj mi h (bodyA d.bits a.bits c.bits noOp (m6 n))) (hr : a3 b k = some i) : Lays i mj mi h b := by
  simp only [a3, Option.bind_eq_bind, Option.bind_eq_some_iff, Option.pure_def, Option.some.injEq] at hr
  obtain ⟨_, e0, d, hd, a, ha, c, hc, rfl⟩ := hr
  have hbody := bodyA_of hb hn
  rw [← bits_of_sp hd, ← bits_of_sp ha, ← bits_of_sp hc, eq_noOp_of_nil e0] at hbody
  exact (hk ..).of_body hbody
theorem a2_lays {n : Nat} (hn : n = fM b) {k : Spec → Spec → Instr}
    (hk : ∀ d a : Spec, Lays (k d a) mj mi h (bodyA d.bits a.bits noOp noOp (m6 n))) (hr : a2 b k = some i) : Lays i mj mi h b := by
  simp only [a2, Option.bind_eq_bind, Option.bind_eq_some_iff, Option.pure_def, Option.some.injEq] at hr
  obtain ⟨_, e0, _, e1, d, hd, a, ha, rfl⟩ := hr
  have hbody := bodyA_of hb hn
  rw [← bits_of_sp hd, ← bits_of_sp ha, eq_noOp_of_nil e0, eq_noOp_of_nil e1] at hbody
  exact (hk ..).of_body hbody
theorem a0_lays {n : Nat} (hn : n = fM b) {k : Instr}
    (hk : Lays k mj mi h (bodyA noOp noOp noOp noOp (m6 n))) (hr : a0 b k = some i) : Lays i mj mi h b := by
  simp only [a0, Option.bind_eq_bind, Option.bind_eq_some_iff, Option.pure_def, Option.some.injEq] at hr
  obtain ⟨_, e0, _, e1, _, e2, _, e3, rfl⟩ := hr
  have hbody := bodyA_of hb hn
  rw [eq_noOp_of_nil e0, eq_noOp_of_nil e1, eq_noOp_of_nil e2, eq_noOp_of_nil e3] at hbody
  exact (hk ).of_body hbody
theorem s1_lays {n : Nat} (hn : n = fM b) {k : Spec → Instr}
    (hk : ∀ d : Spec, Lays (k d) mj mi h (bodyA noOp d.bits noOp noOp (m6 n))) (hr : s1 b k = some i) : Lays i mj mi h b := by
  simp only [s1, Option.bind_eq_bind, Option.bind_eq_some_iff, Option.pure_def, Option.some.injEq] at hr
  obtain ⟨_, e0, _, e1, _, e2, d, hd, rfl⟩ := hr
  have hbody := bodyA_of hb hn
  rw [← bits_of_sp hd, eq_noOp_of_nil e0, eq_noOp_of_nil e1, eq_noOp_of_nil e2] at hbody
  exact (hk ..).of_body hbody
theorem s2_lays {n : Nat} (hn : n = fM b) {k : Spec → Spec → Instr}
    (hk : ∀ d a : Spec, Lays (k d a) mj mi h (bodyA noOp d.bits a.bits noOp (m6 n))) (hr : s2 b k = some i) : Lays i mj mi h b := by
  simp only [s2, Option.bind_eq_bind, Option.bind_eq_some_iff, Option.pure_def, Option.some.injEq] at hr
  obtain ⟨_, e0, _, e1, d, hd, a, ha, rfl⟩ := hr
  have hbody := bodyA_of hb hn
  rw [← bits_of_sp hd, ← bits_of_sp ha, eq_noOp_of_nil e0, eq_noOp_of_nil e1] at hbody
  exact (hk ..).of_body hbody
theorem s3_lays {n : Nat} (hn : n = fM b) {k : Spec → Spec → Spec → Instr}
    (hk : ∀ d a c : Spec, Lays (k d a c) mj mi h (bodyA noOp d.bits a.bits c.bits (m6 n))) (hr : s3 b k = some i) : Lays i mj mi h b := by
  simp only [s3, Option.bind_eq_bind, Option.bind_eq_some_iff, Option.pure_def, Option.some.injEq] at hr
  obtain ⟨_, e0, d, hd, a, ha, c, hc, rfl⟩ := hr
  have hbody := bodyA_of hb hn
  rw [← bits_of_sp hd, ← bits_of_sp ha, ← bits_of_sp hc, eq_noOp_of_nil e0] at hbody
  exact (hk ..).of_body hbody
theorem d1_lays {n : Nat} (hn : n = fM b) {k : Spec → Instr}
    (hk : ∀ d : Spec, Lays (k d) mj mi h (bodyA d.bits noOp noOp noOp (m6 n))) (hr : d1 b k = some i) : Lays i mj mi h b := by
  simp only [d1, Option.bind_eq_bind, Option.bind_eq_some_iff, Option.pure_def, Option.some.injEq] at hr
  obtain ⟨_, e0, _, e1, _, e2, d, hd, rfl⟩ := hr
  have hbody := bodyA_of hb hn
  rw [← bits_of_sp hd, eq_noOp_of_nil e0, eq_noOp_of_nil e1, eq_noOp_of_nil e2] at hbody
  exact (hk ..).of_body hbody
theorem i2I_lays {v : BitVec 24} (hv : v = fI b) {k : Spec → Spec → Instr}
    (hk : ∀ d a : Spec, Lays (k d a) mj mi h (bodyI d.bits a.bits v)) (hr : i2 b k = some i) : Lays i mj mi h b := by
  simp only [i2, Option.bind_eq_bind, Option.bind_eq_some_iff, Option.pure_def, Option.some.injEq] at hr
  obtain ⟨d, hd, a, ha, rfl⟩ := hr
  have hbody := bodyI_of hb hv
  rw [← bits_of_sp hd, ← bits_of_sp ha] at hbody
  exact (hk ..).of_body hbody
theorem i0I_lays {v : BitVec 24} (hv : v = fI b) {k : Instr}
    (hk : Lays k mj mi h (bodyI noOp noOp v)) (hr : i0 b k = some i) : Lays i mj mi h b := by
  simp only [i0, Option.bind_eq_bind, Option.bind_eq_some_iff, Option.pure_def, Option.some.injEq] at hr
  obtain ⟨_, e0, _, e1, rfl⟩ := hr
  have hbody := bodyI_of hb hv
  rw [eq_noOp_of_nil e0, eq_noOp_of_nil e1] at hbody
  exact (hk ).of_body hbody
theorem i2M_lays {n : Nat} {o : BitVec 15} {c : BitVec 3} (hn : n = fM b) (ho : o = fOff b) (hc : c = fSc b) {k : Spec → Spec → Instr}
    (hk : ∀ d a : Spec, Lays (k d a) mj mi h (bodyM d.bits a.bits o c (m6 n))) (hr : i2 b k = some i) : Lays i mj mi h b := by
  simp only [i2, Option.bind_eq_bind, Option.bind_eq_some_iff, Option.pure_def, Option.some.injEq] at hr
  obtain ⟨d, hd, a, ha, rfl⟩ := hr
  have hbody := bodyM_of hb hn ho hc
  rw [← bits_of_sp hd, ← bits_of_sp ha] at hbody
  exact (hk ..).of_body hbody
theorem i0M_lays {n : Nat} {o : BitVec 15} {c : BitVec 3} (hn : n = fM b) (ho : o = fOff b) (hc : c = fSc b) {k : Instr}
    (hk : Lays k mj mi h (bodyM noOp noOp o c (m6 n))) (hr : i0 b k = some i) : Lays i mj mi h b := by
  simp only [i0, Option.bind_eq_bind, Option.bind_eq_some_iff, Option.pure_def, Option.some.injEq] at hr
  obtain ⟨_, e0, _, e1, rfl⟩ := hr
  have hbody := bodyM_of hb hn ho hc
  rw [eq_noOp_of_nil e0, eq_noOp_of_nil e1] at hbody
  exact (hk ).of_body hbody
theorem q3_lays {n : Nat} {q : BitVec 6} (hn : n = (fXm b).toNat) (hq : q = fX b) {k : Spec → Spec → Spec → Instr}
    (hk : ∀ d a c : Spec, Lays (k d a c) mj mi h (bodyQ q d.bits a.bits c.bits (m9 n))) (hr : q3 b k = some i) : Lays i mj mi h b := by
  simp only [q3, Option.bind_eq_bind, Option.bind_eq_some_iff, Option.pure_def, Option.some.injEq] at hr
  obtain ⟨d, hd, a, ha, c, hc, rfl⟩ := hr
  have hbody := bodyQ_of hb hn hq
  rw [← bits_of_sp hd, ← bits_of_sp ha, ← bits_of_sp hc] at hbody
  exact (hk ..).of_body hbody
theorem q2_lays {n : Nat} {q : BitVec 6} (hn : n = (fXm b).toNat) (hq : q = fX b) {k : Spec → Spec → Instr}
    (hk : ∀ d a : Spec, Lays (k d a) mj mi h (bodyQ q d.bits a.bits noOp (m9 n))) (hr : q2 b k = some i) : Lays i mj mi h b := by
  simp only [q2, Option.bind_eq_bind, Option.bind_eq_some_iff, Option.pure_def, Option.some.injEq] at hr
  obtain ⟨_, e0, d, hd, a, ha, rfl⟩ := hr
  have hbody := bodyQ_of hb hn hq
  rw [← bits_of_sp hd, ← bits_of_sp ha, eq_noOp_of_nil e0] at hbody
  exact (hk ..).of_body hbody
theorem q1_lays {n : Nat} {q : BitVec 6} (hn : n = (fXm b).toNat) (hq : q = fX b) {k : Spec → Instr}
    (hk : ∀ d : Spec, Lays (k d) mj mi h (bodyQ q d.bits noOp noOp (m9 n))) (hr : q1 b k = some i) : Lays i mj mi h b := by
  simp only [q1, Option.bind_eq_bind, Option.bind_eq_some_iff, Option.pure_def, Option.some.injEq] at hr
  obtain ⟨_, e0, _, e1, d, hd, rfl⟩ := hr
  have hbody := bodyQ_of hb hn hq
  rw [← bits_of_sp hd, eq_noOp_of_nil e0, eq_noOp_of_nil e1] at hbody
  exact (hk ..).of_body hbody
theorem q0_lays {n : Nat} {q : BitVec 6} (hn : n = (fXm b).toNat) (hq : q = fX b) {k : Instr}
    (hk : Lays k mj mi h (bodyQ q noOp noOp noOp (m9 n))) (hr : q0 b k = some i) : Lays i mj mi h b := by
  simp only [q0, Option.bind_eq_bind, Option.bind_eq_some_iff, Option.pure_def, Option.some.injEq] at hr
  obtain ⟨_, e0, _, e1, _, e2, rfl⟩ := hr
  have hbody := bodyQ_of hb hn hq
  rw [eq_noOp_of_nil e0, eq_noOp_of_nil e1, eq_noOp_of_nil e2] at hbody
  exact (hk ).of_body hbody
theorem x2_lays {n : Nat} {sA sB p : BitVec 3} (hn : n = (fXm b).toNat) (hA : sA = fXsA b) (hB : sB = fXsB b) (hp : p = fXp b) {k : Spec → Spec → Instr}
    (hk : ∀ d a : Spec, Lays (k d a) mj mi h (bodyX (fX b) d.bits a.bits sA sB p (m9 n))) (hr : x2 b k = some i) : Lays i mj mi h b := by
  simp only [x2, Option.bind_eq_bind, Option.bind_eq_some_iff, Option.pure_def, Option.some.injEq] at hr
  obtain ⟨d, hd, a, ha, rfl⟩ := hr
  have hbody := bodyX_of hb hn hA hB hp
  rw [← bits_of_sp hd, ← bits_of_sp ha] at hbody
  exact (hk ..).of_body hbody

end

theorem num_low {n b : Nat} {k : Nat} (hk : k = 2 ^ n) (hn : n ≤ 6) (h : decide ((fX b).toNat < k) = true) : q6 (fld b 36 n) = fX b := by
  subst hk
  have h' : b / 2 ^ 36 % 64 < 2 ^ n := by simpa [fX, fld] using h
  apply BitVec.eq_of_toNat_eq
  have hd : 2 ^ n ∣ 64 := pow_dvd_pow 2 hn
  simp only [fX, fld, BitVec.toNat_ofNat]
  rw [← Nat.mod_mod_of_dvd (b / 2 ^ 36) hd, Nat.mod_eq_of_lt h', Nat.mod_mod]

theorem imm_low {n b : Nat} {k : Nat} (hk : k = 2 ^ n) (hn : n ≤ 24) (h : decide ((fI b).toNat < k) = true) :
    BitVec.ofNat 24 (fld b 0 n).toNat = fI b := by
  subst hk
  have h' : b % 2 ^ 24 < 2 ^ n := by simpa [fI, fld] using h
  apply BitVec.eq_of_toNat_eq
  have hd : 2 ^ n ∣ 2 ^ 24 := pow_dvd_pow 2 hn
  simp only [fI, fld, BitVec.toNat_ofNat, Nat.pow_zero, Nat.div_one]
  rw [← Nat.mod_mod_of_dvd b hd, Nat.mod_eq_of_lt h', Nat.mod_mod]

theorem cmpImm_low {b n : Nat} (h : n = (fld b 20 4).toNat) : BitVec.ofNat 24 (n * 2 ^ 20 + (fld b 0 20).toNat) = fI b := by
  subst h; apply BitVec.eq_of_toNat_eq; simp only [fI, fld, BitVec.toNat_ofNat]; omega

theorem scM_low {b : Nat} {c : Scope} (h : scM b = some c) : c.bits = fSc b := by
  rw [Scope.bits, Scope.code_of_ofCode h, BitVec.ofNat_toNat, BitVec.setWidth_eq]

theorem scQ_low {b : Nat} {c : Scope} (h : scQ b = some c) (hm : decide ((fXm b).toNat < 16) = true) :
    c.code + 8 * b2n (bit b 3) = (fXm b).toNat := by
  have h1 : c.code = (fXm b).toNat % 8 := by
    rw [Scope.code_of_ofCode h, fXm_eq_mod]; omega
  rw [h1, bit_of_fXm (by decide)]; exact bit3_low hm

/-- The second source of an atomic and the 6 zero bits below it fill the offset field (spec/15 R369). -/
theorem atomOff_low {b : Nat} (h : ((fld b 9 6).toNat == 0) = true) : BitVec.ofNat 15 ((fB b).toNat * 2 ^ 6) = fOff b := by
  have h' : b / 2 ^ 9 % 2 ^ 6 = 0 := by simpa [fld] using h
  apply BitVec.eq_of_toNat_eq; simp only [fB, fOff, fld, BitVec.toNat_ofNat]; omega

theorem barImm_low (b : Nat) : barImm (bLvl b) (bNum b) (bCnt b) = fI b := by
  apply BitVec.eq_of_toNat_eq; simp only [barImm, bLvl, bNum, bCnt, fI, fld, BitVec.toNat_ofNat]; omega

/-! ### The decoder of each major -/

theorem qfence_modsOk {h : Hdr} {q : BitVec 6} {s : QSet} {d : Spec} (hq : qsetOk q s = true) (hd : s.r = true ∨ d = .zero) :
    (Instr.qfence h q s d).modsOk = true := by
  simpa [Instr.modsOk, hq] using hd

section
variable {b : Nat} (hb : b < 2 ^ 42) {h : Hdr} {i : Instr}
include hb

theorem decBar_lays {k : BitVec 3 → BitVec 5 → BarCnt → Instr} {mi : Nat} (hh : ∀ l n c, (k l n c).hdr = some h)
    (hport : ∀ l n c, (k l n c).port.isSome = majorPort 0x04) (hmods : ∀ l n c, (k l n c).modsOk = barCntOk l n c)
    (henc : ∀ l n c, encode (k l n c) = some (encBar mi h l n c)) (hd : decBar b (k (bLvl b) (bNum b)) = some (some i)) :
    Lays i 0x04 mi h b := by
  unfold decBar at hd
  split at hd
  case isTrue hA =>
    obtain ⟨hc, hr⟩ := chk_inv hd
    simp only [Option.bind_eq_bind, Option.bind_eq_some_iff, Option.pure_def, Option.some.injEq] at hr
    obtain ⟨_, hn, rfl⟩ := hr
    refine ⟨hh .., hport .., ?_, ?_⟩
    · rw [hmods]; simpa [barCntOk, ← BitVec.toNat_inj] using hc
    · have he := bodyI_of hb (barImm_low b)
      rw [hA, eq_noOp_of_nil hn] at he
      rw [henc, encBar, he]
  case isFalse hA =>
    obtain ⟨hc, hr⟩ := chk_inv hd
    simp only [Option.bind_eq_bind, Option.bind_eq_some_iff, Option.pure_def, Option.some.injEq] at hr
    obtain ⟨_, hn, r, hs, rfl⟩ := hr
    simp only [Bool.and_eq_true, decide_eq_true_eq] at hc
    obtain ⟨hok, hcnt⟩ := hc
    have hz : r ≠ .zero := by rintro rfl; exact hA (bits_of_sp hs).symm
    refine ⟨hh .., hport .., ?_, ?_⟩
    · rw [hmods]; simp [barCntOk, hok, hz]
    · have he := bodyI_of hb (barImm_low b)
      rw [hcnt, ← bits_of_sp hs, eq_noOp_of_nil hn] at he
      rw [henc, encBar, he]

theorem dec00_lays {mi : Nat} (hd : dec00 mi h b = some (some i)) : Lays i 0x00 mi h b := by
  unfold dec00 at hd
  split at hd
  · obtain ⟨-, hr⟩ := chk_inv hd
    simp only [Option.bind_eq_bind, Option.bind_eq_some_iff, Option.pure_def, Option.some.injEq] at hr
    obtain ⟨_, hn, rfl⟩ := hr
    exact Lays.of_body (b' := bodyB noOp (fld b 0 33)) ⟨rfl, rfl, rfl, rfl⟩ (by rw [← eq_noOp_of_nil hn]; exact bodyB_fields hb)
  · obtain ⟨-, hr⟩ := chk_inv hd
    simp only [Option.bind_eq_bind, Option.bind_eq_some_iff, Option.pure_def, Option.some.injEq] at hr
    obtain ⟨r, hs, rfl⟩ := hr
    exact Lays.of_body (b' := bodyB r.bits (fld b 0 33)) ⟨rfl, rfl, rfl, rfl⟩ (by rw [bits_of_sp hs]; exact bodyB_fields hb)
  · obtain ⟨-, hr⟩ := chk_inv hd
    simp only [Option.bind_eq_bind, Option.bind_eq_some_iff, Option.pure_def, Option.some.injEq] at hr
    obtain ⟨r, hs, rfl⟩ := hr
    exact Lays.of_body (b' := bodyB r.bits (fld b 0 33)) ⟨rfl, rfl, rfl, rfl⟩ (by rw [bits_of_sp hs]; exact bodyB_fields hb)
  · cases hd

theorem dec01_lays {mi : Nat} (hd : dec01 mi h b = some (some i)) : Lays i 0x01 mi h b := by
  unfold dec01 at hd
  split at hd
  · obtain ⟨hm, hr⟩ := chk_inv hd
    exact s1_lays hb (none_low hm) (fun _ => ⟨rfl, rfl, rfl, rfl⟩) hr
  · cases hd

theorem dec02_lays {mi : Nat} (hd : dec02 mi h b = some (some i)) : Lays i 0x02 mi h b := by
  unfold dec02 at hd
  split at hd
  · obtain ⟨-, hr⟩ := chk_inv hd
    simp only [Option.bind_eq_bind, Option.bind_eq_some_iff, Option.pure_def, Option.some.injEq] at hr
    obtain ⟨_, hn, rfl⟩ := hr
    exact Lays.of_body (b' := bodyB noOp (fld b 0 33)) ⟨rfl, rfl, rfl, rfl⟩ (by rw [← eq_noOp_of_nil hn]; exact bodyB_fields hb)
  · obtain ⟨hm, hr⟩ := chk_inv hd
    exact s1_lays hb (none_low hm) (fun _ => ⟨rfl, rfl, rfl, rfl⟩) hr
  · cases hd

theorem dec03_lays {mi : Nat} (hd : dec03 mi h b = some (some i)) : Lays i 0x03 mi h b := by
  unfold dec03 at hd
  split at hd
  · obtain ⟨hm, hr⟩ := chk_inv hd
    exact a0_lays hb (none_low hm) ⟨rfl, rfl, rfl, rfl⟩ hr
  · obtain ⟨hm, hr⟩ := chk_inv hd
    exact a0_lays hb (none_low hm) ⟨rfl, rfl, rfl, rfl⟩ hr
  · obtain ⟨hm, hr⟩ := chk_inv hd
    exact a0_lays hb (none_low hm) ⟨rfl, rfl, rfl, rfl⟩ hr
  · obtain ⟨hm, hr⟩ := chk_inv hd
    exact a0_lays hb (none_low hm) ⟨rfl, rfl, rfl, rfl⟩ hr
  · cases hd

theorem dec04_lays {mi : Nat} (hd : dec04 mi h b = some (some i)) : Lays i 0x04 mi h b := by
  unfold dec04 at hd
  split at hd
  · exact decBar_lays hb (fun _ _ _ => rfl) (fun _ _ _ => rfl) (fun _ _ _ => rfl) (fun _ _ _ => rfl) hd
  · exact decBar_lays hb (fun _ _ _ => rfl) (fun _ _ _ => rfl) (fun _ _ _ => rfl) (fun _ _ _ => rfl) hd
  · obtain ⟨hm, hr⟩ := chk_inv hd
    obtain ⟨hok, hc⟩ := Bool.and_eq_true_iff.1 hm
    exact i0I_lays hb (v := barImm (bLvl b) (bNum b) 0) (by rw [← barImm_low b, eq_of_beq hc]) ⟨rfl, rfl, (by exact hok), rfl⟩ hr
  · cases hd

theorem dec05_lays {mi : Nat} (hd : dec05 mi h b = some (some i)) : Lays i 0x05 mi h b := by
  unfold dec05 at hd
  split at hd
  · obtain ⟨hm, hr⟩ := chk_inv hd
    exact a4_lays hb (none_low hm) (fun _ _ _ _ => ⟨rfl, rfl, rfl, rfl⟩) hr
  · obtain ⟨hm, hr⟩ := chk_inv hd
    exact a0_lays hb (none_low hm) ⟨rfl, rfl, rfl, rfl⟩ hr
  · cases hd

theorem dec06_lays {mi : Nat} (hd : dec06 mi h b = some (some i)) : Lays i 0x06 mi h b := by
  unfold dec06 at hd
  split at hd
  · obtain ⟨hm, hr⟩ := chk_inv hd
    exact i0I_lays hb (eq_of_beq hm).symm ⟨rfl, rfl, rfl, rfl⟩ hr
  · exact i0I_lays hb rfl ⟨rfl, rfl, rfl, rfl⟩ (chk_inv hd).2
  · cases hd

theorem dec10_lays {mi : Nat} (hd : dec10 mi h b = some (some i)) : Lays i 0x10 mi h b := by
  unfold dec10 at hd
  split at hd
  · obtain ⟨_, hm, hr⟩ := opt_inv hd
    exact a3_lays hb (Sat.code_of_ofCode hm) (fun _ _ _ => ⟨rfl, rfl, rfl, rfl⟩) hr
  · obtain ⟨_, hm, hr⟩ := opt_inv hd
    exact a3_lays hb (Sat.code_of_ofCode hm) (fun _ _ _ => ⟨rfl, rfl, rfl, rfl⟩) hr
  · obtain ⟨_, hm, hr⟩ := opt_inv hd
    exact a3_lays hb (Sat.code_of_ofCode hm) (fun _ _ _ => ⟨rfl, rfl, rfl, rfl⟩) hr
  · obtain ⟨hm, hr⟩ := chk_inv hd
    have hn : b2n (bit b 0) = fM b := by rw [bit_of_fM (by decide)]; exact flag_low hm
    exact a3_lays hb hn (fun _ _ _ => ⟨rfl, rfl, rfl, rfl⟩) hr
  · obtain ⟨_, hm, hr⟩ := opt_inv hd
    exact a4_lays hb (Sat.code_of_ofCode hm) (fun _ _ _ _ => ⟨rfl, rfl, rfl, rfl⟩) hr
  · obtain ⟨hm, hr⟩ := chk_inv hd
    have hn : b2n (bit b 0) = fM b := by rw [bit_of_fM (by decide)]; exact flag_low hm
    exact a4_lays hb hn (fun _ _ _ _ => ⟨rfl, rfl, rfl, rfl⟩) hr
  · obtain ⟨hm, hr⟩ := chk_inv hd
    exact a4_lays hb (none_low hm) (fun _ _ _ _ => ⟨rfl, rfl, rfl, rfl⟩) hr
  · obtain ⟨hm, hr⟩ := chk_inv hd
    exact a4_lays hb (none_low hm) (fun _ _ _ _ => ⟨rfl, rfl, rfl, rfl⟩) hr
  · obtain ⟨hm, hr⟩ := chk_inv hd
    have hn : b2n (bit b 0) = fM b := by rw [bit_of_fM (by decide)]; exact flag_low hm
    exact a3_lays hb hn (fun _ _ _ => ⟨rfl, rfl, rfl, rfl⟩) hr
  · obtain ⟨hm, hr⟩ := chk_inv hd
    have hn : b2n (bit b 0) = fM b := by rw [bit_of_fM (by decide)]; exact flag_low hm
    exact a3_lays hb hn (fun _ _ _ => ⟨rfl, rfl, rfl, rfl⟩) hr
  · obtain ⟨hm, hr⟩ := chk_inv hd
    have hn : 2 * b2n (bit b 1) = fM b := by rw [bit_of_fM (by decide)]; exact sat_low hm
    exact a2_lays hb hn (fun _ _ => ⟨rfl, rfl, rfl, rfl⟩) hr
  · obtain ⟨hm, hr⟩ := chk_inv hd
    have hn : 2 * b2n (bit b 1) = fM b := by rw [bit_of_fM (by decide)]; exact sat_low hm
    exact a2_lays hb hn (fun _ _ => ⟨rfl, rfl, rfl, rfl⟩) hr
  · cases hd

theorem dec11_lays {mi : Nat} (hd : dec11 mi h b = some (some i)) : Lays i 0x11 mi h b := by
  unfold dec11 at hd
  split at hd
  · exact i2I_lays hb rfl (fun _ _ => ⟨rfl, rfl, rfl, rfl⟩) (chk_inv hd).2
  · exact i2I_lays hb rfl (fun _ _ => ⟨rfl, rfl, rfl, rfl⟩) (chk_inv hd).2
  · exact i2I_lays hb rfl (fun _ _ => ⟨rfl, rfl, rfl, rfl⟩) (chk_inv hd).2
  · exact i2I_lays hb rfl (fun _ _ => ⟨rfl, rfl, rfl, rfl⟩) (chk_inv hd).2
  · exact i2I_lays hb rfl (fun _ _ => ⟨rfl, rfl, rfl, rfl⟩) (chk_inv hd).2
  · exact i2I_lays hb rfl (fun _ _ => ⟨rfl, rfl, rfl, rfl⟩) (chk_inv hd).2
  · cases hd

theorem dec12_lays {mi : Nat} (hd : dec12 mi h b = some (some i)) : Lays i 0x12 mi h b := by
  unfold dec12 at hd
  split at hd
  · obtain ⟨hm, hr⟩ := chk_inv hd
    exact a3_lays hb (none_low hm) (fun _ _ _ => ⟨rfl, rfl, rfl, rfl⟩) hr
  · obtain ⟨hm, hr⟩ := chk_inv hd
    exact a3_lays hb (none_low hm) (fun _ _ _ => ⟨rfl, rfl, rfl, rfl⟩) hr
  · obtain ⟨hm, hr⟩ := chk_inv hd
    exact a3_lays hb (none_low hm) (fun _ _ _ => ⟨rfl, rfl, rfl, rfl⟩) hr
  · obtain ⟨hm, hr⟩ := chk_inv hd
    exact a3_lays hb (none_low hm) (fun _ _ _ => ⟨rfl, rfl, rfl, rfl⟩) hr
  · obtain ⟨hm, hr⟩ := chk_inv hd
    exact a2_lays hb (none_low hm) (fun _ _ => ⟨rfl, rfl, rfl, rfl⟩) hr
  · obtain ⟨hm, hr⟩ := chk_inv hd
    exact a3_lays hb (none_low hm) (fun _ _ _ => ⟨rfl, rfl, rfl, rfl⟩) hr
  · obtain ⟨hm, hr⟩ := chk_inv hd
    exact a3_lays hb (none_low hm) (fun _ _ _ => ⟨rfl, rfl, rfl, rfl⟩) hr
  · obtain ⟨hm, hr⟩ := chk_inv hd
    exact a3_lays hb (none_low hm) (fun _ _ _ => ⟨rfl, rfl, rfl, rfl⟩) hr
  · obtain ⟨hm, hr⟩ := chk_inv hd
    exact a3_lays hb (none_low hm) (fun _ _ _ => ⟨rfl, rfl, rfl, rfl⟩) hr
  · obtain ⟨hm, hr⟩ := chk_inv hd
    exact a4_lays hb (none_low hm) (fun _ _ _ _ => ⟨rfl, rfl, rfl, rfl⟩) hr
  · cases hd

theorem dec13_lays {mi : Nat} (hd : dec13 mi h b = some (some i)) : Lays i 0x13 mi h b := by
  unfold dec13 at hd
  split at hd
  · exact i2I_lays hb rfl (fun _ _ => ⟨rfl, rfl, rfl, rfl⟩) (chk_inv hd).2
  · exact i2I_lays hb rfl (fun _ _ => ⟨rfl, rfl, rfl, rfl⟩) (chk_inv hd).2
  · exact i2I_lays hb rfl (fun _ _ => ⟨rfl, rfl, rfl, rfl⟩) (chk_inv hd).2
  · exact i2I_lays hb rfl (fun _ _ => ⟨rfl, rfl, rfl, rfl⟩) (chk_inv hd).2
  · obtain ⟨hm, hr⟩ := chk_inv hd
    exact i2I_lays hb (imm_low (n := 5) rfl (by decide) hm) (fun _ _ => ⟨rfl, rfl, rfl, rfl⟩) hr
  · obtain ⟨hm, hr⟩ := chk_inv hd
    exact i2I_lays hb (imm_low (n := 5) rfl (by decide) hm) (fun _ _ => ⟨rfl, rfl, rfl, rfl⟩) hr
  · obtain ⟨hm, hr⟩ := chk_inv hd
    exact i2I_lays hb (imm_low (n := 5) rfl (by decide) hm) (fun _ _ => ⟨rfl, rfl, rfl, rfl⟩) hr
  · obtain ⟨hm, hr⟩ := chk_inv hd
    exact i2I_lays hb (imm_low (n := 5) rfl (by decide) hm) (fun _ _ => ⟨rfl, rfl, rfl, rfl⟩) hr
  · cases hd

theorem dec14_lays {mi : Nat} (hd : dec14 mi h b = some (some i)) : Lays i 0x14 mi h b := by
  unfold dec14 at hd
  split at hd
  · obtain ⟨hm, hr⟩ := chk_inv hd
    have hn : b2n (bit b 0) = fM b := by rw [bit_of_fM (by decide)]; exact flag_low hm
    exact a3_lays hb hn (fun _ _ _ => ⟨rfl, rfl, rfl, rfl⟩) hr
  · obtain ⟨hm, hr⟩ := chk_inv hd
    exact a4_lays hb (none_low hm) (fun _ _ _ _ => ⟨rfl, rfl, rfl, rfl⟩) hr
  · obtain ⟨hm, hr⟩ := chk_inv hd
    exact a2_lays hb (none_low hm) (fun _ _ => ⟨rfl, rfl, rfl, rfl⟩) hr
  · obtain ⟨hm, hr⟩ := chk_inv hd
    exact a2_lays hb (none_low hm) (fun _ _ => ⟨rfl, rfl, rfl, rfl⟩) hr
  · obtain ⟨hm, hr⟩ := chk_inv hd
    exact a2_lays hb (none_low hm) (fun _ _ => ⟨rfl, rfl, rfl, rfl⟩) hr
  · obtain ⟨hm, hr⟩ := chk_inv hd
    exact a2_lays hb (none_low hm) (fun _ _ => ⟨rfl, rfl, rfl, rfl⟩) hr
  · cases hd

theorem dec15_lays {mi : Nat} (hd : dec15 mi h b = some (some i)) : Lays i 0x15 mi h b := by
  unfold dec15 at hd
  split at hd
  · obtain ⟨hm, hr⟩ := chk_inv hd
    exact a4_lays hb (none_low hm) (fun _ _ _ _ => ⟨rfl, rfl, rfl, rfl⟩) hr
  · obtain ⟨_, hm, hr⟩ := opt_inv hd
    exact a3_lays hb (Cond.code_of_ofCode hm) (fun _ _ _ => ⟨rfl, rfl, rfl, rfl⟩) hr
  · obtain ⟨hm, hr⟩ := chk_inv hd
    have hn : (fld b 0 2).toNat + 4 * b2n (bit b 2) = fM b := by rw [bit_of_fM (by decide), fld_of_fM (by decide)]; exact lea_low hm
    exact a3_lays hb hn (fun _ _ _ => ⟨rfl, rfl, rfl, rfl⟩) hr
  · obtain ⟨hm, hr⟩ := chk_inv hd
    have hn : b2n (bit b 0) = fM b := by rw [bit_of_fM (by decide)]; exact flag_low hm
    exact a2_lays hb hn (fun _ _ => ⟨rfl, rfl, rfl, rfl⟩) hr
  · cases hd

theorem dec16_lays {mi : Nat} (hd : dec16 mi h b = some (some i)) : Lays i 0x16 mi h b := by
  unfold dec16 at hd
  split at hd
  · obtain ⟨_, hm, hr⟩ := opt_inv hd
    exact i2I_lays hb (cmpImm_low (Cond.code_of_ofCode hm)) (fun _ _ => ⟨rfl, rfl, rfl, rfl⟩) hr
  · exact i2I_lays hb rfl (fun _ _ => ⟨rfl, rfl, rfl, rfl⟩) (chk_inv hd).2
  · cases hd

theorem dec17_lays {mi : Nat} (hd : dec17 mi h b = some (some i)) : Lays i 0x17 mi h b := by
  unfold dec17 at hd
  split at hd
  · obtain ⟨hm, hr⟩ := chk_inv hd
    simp only [Option.bind_eq_bind, Option.bind_eq_some_iff, Option.pure_def, Option.some.injEq] at hr
    obtain ⟨d, hs, rfl⟩ := hr
    exact Lays.of_body (b' := bodyL d.bits (fld b 0 32)) ⟨rfl, rfl, rfl, rfl⟩ (by rw [bits_of_sp hs]; exact bodyL_fields hb (by simpa using hm))
  · cases hd

theorem dec18_lays {mi : Nat} (hd : dec18 mi h b = some (some i)) : Lays i 0x18 mi h b := by
  unfold dec18 at hd
  split at hd
  · split at hd
    case isTrue hlt =>
      obtain ⟨m, hm, hr⟩ := opt_inv hd
      have hn : m.code + 4 * b2n (bit b 2) = fM b := by
        rw [ShMode.code_of_ofCode hm, bit_of_fM (by decide)]; exact bit2_low hlt
      exact a3_lays hb hn (fun _ _ _ => ⟨rfl, rfl, rfl, rfl⟩) hr
    case isFalse => cases hd
  · obtain ⟨_, hm, hr⟩ := opt_inv hd
    exact a2_lays hb (VoteKind.code_of_ofCode hm) (fun _ _ => ⟨rfl, rfl, rfl, rfl⟩) hr
  · cases hd

theorem dec19_lays {mi : Nat} (hd : dec19 mi h b = some (some i)) : Lays i 0x19 mi h b := by
  unfold dec19 at hd
  split at hd
  · obtain ⟨hm, hr⟩ := chk_inv hd
    simp only [Option.bind_eq_bind, Option.bind_eq_some_iff, Option.pure_def, Option.some.injEq] at hr
    obtain ⟨_, hn, d, hs, rfl⟩ := hr
    exact Lays.of_body (b' := bodyI d.bits noOp (BitVec.ofNat 24 (fld b 0 8).toNat)) ⟨rfl, rfl, rfl, rfl⟩
      (by rw [bits_of_sp hs, ← eq_noOp_of_nil hn]; exact bodyI_of hb (imm_low (n := 8) rfl (by decide) hm))
  · obtain ⟨hm, hr⟩ := chk_inv hd
    simp only [Option.bind_eq_bind, Option.bind_eq_some_iff, Option.pure_def, Option.some.injEq] at hr
    obtain ⟨_, hn, d, hs, rfl⟩ := hr
    exact Lays.of_body (b' := bodyI noOp d.bits (BitVec.ofNat 24 (fld b 0 8).toNat)) ⟨rfl, rfl, rfl, rfl⟩
      (by rw [bits_of_sp hs, ← eq_noOp_of_nil hn]; exact bodyI_of hb (imm_low (n := 8) rfl (by decide) hm))
  · cases hd

theorem dec30_lays {mi : Nat} (hd : dec30 mi h b = some (some i)) : Lays i 0x30 mi h b := by
  unfold dec30 at hd
  split at hd
  · obtain ⟨hm, hr⟩ := chk_inv hd
    exact a3_lays hb (none_low hm) (fun _ _ _ => ⟨rfl, rfl, rfl, rfl⟩) hr
  · obtain ⟨hm, hr⟩ := chk_inv hd
    exact a3_lays hb (none_low hm) (fun _ _ _ => ⟨rfl, rfl, rfl, rfl⟩) hr
  · obtain ⟨hm, hr⟩ := chk_inv hd
    exact a3_lays hb (none_low hm) (fun _ _ _ => ⟨rfl, rfl, rfl, rfl⟩) hr
  · obtain ⟨hm, hr⟩ := chk_inv hd
    exact a4_lays hb (none_low hm) (fun _ _ _ _ => ⟨rfl, rfl, rfl, rfl⟩) hr
  · obtain ⟨hm, hr⟩ := chk_inv hd
    have hn : b2n (bit b 0) = fM b := by rw [bit_of_fM (by decide)]; exact flag_low hm
    exact a3_lays hb hn (fun _ _ _ => ⟨rfl, rfl, rfl, rfl⟩) hr
  · obtain ⟨hm, hr⟩ := chk_inv hd
    have hn : b2n (bit b 0) = fM b := by rw [bit_of_fM (by decide)]; exact flag_low hm
    exact a3_lays hb hn (fun _ _ _ => ⟨rfl, rfl, rfl, rfl⟩) hr
  · obtain ⟨_, hm, hr⟩ := opt_inv hd
    exact a3_lays hb (FCond.code_of_ofCode hm) (fun _ _ _ => ⟨rfl, rfl, rfl, rfl⟩) hr
  · obtain ⟨hm, hr⟩ := chk_inv hd
    exact a2_lays hb (none_low hm) (fun _ _ => ⟨rfl, rfl, rfl, rfl⟩) hr
  · obtain ⟨hm, hr⟩ := chk_inv hd
    exact a3_lays hb (none_low hm) (fun _ _ _ => ⟨rfl, rfl, rfl, rfl⟩) hr
  · cases hd

theorem dec31_lays {mi : Nat} (hd : dec31 mi h b = some (some i)) : Lays i 0x31 mi h b := by
  unfold dec31 at hd
  split at hd
  · split at hd
    case h_1 dt sty hdt hsty =>
      obtain ⟨hok, hr⟩ := chk_inv hd
      have hn : dt.code + 8 * sty.code = fM b := by
        rw [FType.code_of_ofCode hdt, FType.code_of_ofCode hsty]; omega
      exact a2_lays hb hn (fun _ _ => ⟨rfl, rfl, (by exact hok), rfl⟩) hr
    case h_2 => cases hd
  · obtain ⟨_, hm, hr⟩ := opt_inv hd
    exact a2_lays hb (RndMode.code_of_ofCode hm) (fun _ _ => ⟨rfl, rfl, rfl, rfl⟩) hr
  · obtain ⟨hm, hr⟩ := chk_inv hd
    have hn : b2n (bit b 0) = fM b := by rw [bit_of_fM (by decide)]; exact flag_low hm
    exact a3_lays hb hn (fun _ _ _ => ⟨rfl, rfl, rfl, rfl⟩) hr
  · cases hd

theorem dec32_lays {mi : Nat} (hd : dec32 mi h b = some (some i)) : Lays i 0x32 mi h b := by
  unfold dec32 at hd
  split at hd
  · obtain ⟨hm, hr⟩ := chk_inv hd
    have hn : b2n (bit b 0) = fM b := by rw [bit_of_fM (by decide)]; exact flag_low hm
    exact a4_lays hb hn (fun _ _ _ _ => ⟨rfl, rfl, rfl, rfl⟩) hr
  · obtain ⟨hm, hr⟩ := chk_inv hd
    have hn : b2n (bit b 0) = fM b := by rw [bit_of_fM (by decide)]; exact flag_low hm
    exact a4_lays hb hn (fun _ _ _ _ => ⟨rfl, rfl, rfl, rfl⟩) hr
  · cases hd

theorem dec40_lays {mi : Nat} (hd : dec40 mi h b = some (some i)) : Lays i 0x40 mi h b := by
  unfold dec40 at hd
  split at hd
  · obtain ⟨hm, hr⟩ := chk_inv hd
    exact a2_lays hb (none_low hm) (fun _ _ => ⟨rfl, rfl, rfl, rfl⟩) hr
  · obtain ⟨hm, hr⟩ := chk_inv hd
    exact a2_lays hb (none_low hm) (fun _ _ => ⟨rfl, rfl, rfl, rfl⟩) hr
  · obtain ⟨hm, hr⟩ := chk_inv hd
    exact a2_lays hb (none_low hm) (fun _ _ => ⟨rfl, rfl, rfl, rfl⟩) hr
  · obtain ⟨hm, hr⟩ := chk_inv hd
    exact a2_lays hb (none_low hm) (fun _ _ => ⟨rfl, rfl, rfl, rfl⟩) hr
  · obtain ⟨hm, hr⟩ := chk_inv hd
    exact a2_lays hb (none_low hm) (fun _ _ => ⟨rfl, rfl, rfl, rfl⟩) hr
  · obtain ⟨hm, hr⟩ := chk_inv hd
    exact a2_lays hb (none_low hm) (fun _ _ => ⟨rfl, rfl, rfl, rfl⟩) hr
  · obtain ⟨hm, hr⟩ := chk_inv hd
    exact a2_lays hb (none_low hm) (fun _ _ => ⟨rfl, rfl, rfl, rfl⟩) hr
  · obtain ⟨hm, hr⟩ := chk_inv hd
    exact a2_lays hb (none_low hm) (fun _ _ => ⟨rfl, rfl, rfl, rfl⟩) hr
  · obtain ⟨hm, hr⟩ := chk_inv hd
    exact a2_lays hb (none_low hm) (fun _ _ => ⟨rfl, rfl, rfl, rfl⟩) hr
  · obtain ⟨hm, hr⟩ := chk_inv hd
    exact a2_lays hb (none_low hm) (fun _ _ => ⟨rfl, rfl, rfl, rfl⟩) hr
  · cases hd

theorem dec41_lays {mi : Nat} (hd : dec41 mi h b = some (some i)) : Lays i 0x41 mi h b := by
  unfold dec41 at hd
  split at hd
  · split at hd
    case h_1 p w k hp hw hk =>
      have hn : p.code + 4 * w.code + 16 * k.code = fM b := by
        rw [TkPat.code_of_ofCode hp, TkWidth.code_of_ofCode hw, TkKind.code_of_ofCode hk]; omega
      exact s3_lays hb hn (fun _ _ _ => ⟨rfl, rfl, rfl, rfl⟩) (chk_inv hd).2
    case h_2 => cases hd
  · split at hd
    case h_1 w k hw hk =>
      obtain ⟨hm, hr⟩ := chk_inv hd
      have h4 : fM b % 4 = 0 := eq_of_beq hm
      have hn : 4 * w.code + 16 * k.code = fM b := by
        rw [TkWidth.code_of_ofCode hw, TkKind.code_of_ofCode hk]; omega
      exact a4_lays hb hn (fun _ _ _ _ => ⟨rfl, rfl, rfl, rfl⟩) hr
    case h_2 => cases hd
  · cases hd

theorem dec48_lays {mi : Nat} (hd : dec48 mi h b = some (some i)) : Lays i 0x48 mi h b := by
  unfold dec48 at hd
  split at hd
  · obtain ⟨hm, hr⟩ := chk_inv hd
    exact a2_lays hb (none_low hm) (fun _ _ => ⟨rfl, rfl, rfl, rfl⟩) hr
  · obtain ⟨hm, hr⟩ := chk_inv hd
    exact a2_lays hb (none_low hm) (fun _ _ => ⟨rfl, rfl, rfl, rfl⟩) hr
  · obtain ⟨hm, hr⟩ := chk_inv hd
    exact a3_lays hb (none_low hm) (fun _ _ _ => ⟨rfl, rfl, rfl, rfl⟩) hr
  · obtain ⟨hm, hr⟩ := chk_inv hd
    exact a3_lays hb (none_low hm) (fun _ _ _ => ⟨rfl, rfl, rfl, rfl⟩) hr
  · obtain ⟨hm, hr⟩ := chk_inv hd
    exact a2_lays hb (none_low hm) (fun _ _ => ⟨rfl, rfl, rfl, rfl⟩) hr
  · cases hd

theorem dec49_lays {mi : Nat} (hd : dec49 mi h b = some (some i)) : Lays i 0x49 mi h b := by
  unfold dec49 at hd
  split at hd
  · obtain ⟨hm, hr⟩ := chk_inv hd
    obtain ⟨hm, hs⟩ := Bool.and_eq_true_iff.1 hm
    simp only [Option.bind_eq_bind, Option.bind_eq_some_iff, Option.pure_def, Option.some.injEq] at hr
    obtain ⟨_, hn, a, ha, rfl⟩ := hr
    exact Lays.of_body (b' := bodyM noOp a.bits (fOff b) 0 (m6 (fld b 0 2).toNat)) ⟨rfl, rfl, rfl, rfl⟩
      (by rw [bits_of_sp ha, ← eq_noOp_of_nil hn]
          exact bodyM_of hb (by rw [fld_of_fM (by decide)]; exact low2_low hm) rfl (eq_of_beq hs).symm)
  · cases hd

theorem dec4C_lays {mi : Nat} (hd : dec4C mi h b = some (some i)) : Lays i 0x4C mi h b := by
  unfold dec4C at hd
  split at hd
  · obtain ⟨t, hm, hr⟩ := opt_inv hd
    have hn : (fld b 0 3).toNat + 8 * t.code = fM b := by
      rw [QSrc.code_of_ofCode hm, fld_of_fM (by decide)]; exact src_low (fM_lt b)
    exact a4_lays hb hn (fun _ _ _ _ => ⟨rfl, rfl, rfl, rfl⟩) hr
  · obtain ⟨hm, hr⟩ := chk_inv hd
    have hn : (fld b 0 3).toNat = fM b := by rw [fld_of_fM (by decide)]; exact low3_low hm
    exact a4_lays hb hn (fun _ _ _ _ => ⟨rfl, rfl, rfl, rfl⟩) hr
  · obtain ⟨t, hm, hr⟩ := opt_inv hd
    have hn : (fld b 0 3).toNat + 8 * t.code = fM b := by
      rw [QSrc.code_of_ofCode hm, fld_of_fM (by decide)]; exact src_low (fM_lt b)
    exact a2_lays hb hn (fun _ _ => ⟨rfl, rfl, rfl, rfl⟩) hr
  · cases hd

theorem dec50_lays {mi : Nat} (hd : dec50 mi h b = some (some i)) : Lays i 0x50 mi h b := by
  unfold dec50 at hd
  split at hd
  · split at hd
    case h_1 sz sc hz hs =>
      obtain ⟨hm, hr⟩ := chk_inv hd
      have hn : sz.code + 8 * b2n (bit b 3) = fM b := by
        rw [MSize.code_of_ofCode hz, bit_of_fM (by decide)]; exact bit3_low hm
      exact i2M_lays hb hn rfl (scM_low hs) (fun _ _ => ⟨rfl, rfl, rfl, rfl⟩) hr
    case h_2 => cases hd
  · split at hd
    case h_1 sz sc hz hs =>
      obtain ⟨hm, hr⟩ := chk_inv hd
      have hn : sz.code + 8 * b2n (bit b 3) = fM b := by
        rw [MSize.code_of_ofCode hz, bit_of_fM (by decide)]; exact bit3_low hm
      exact i2M_lays hb hn rfl (scM_low hs) (fun _ _ => ⟨rfl, rfl, rfl, rfl⟩) hr
    case h_2 => cases hd
  · cases hd

theorem dec51_lays {mi : Nat} (hd : dec51 mi h b = some (some i)) : Lays i 0x51 mi h b := by
  unfold dec51 at hd
  split at hd
  · split at hd
    case h_1 sz sc hz hs =>
      exact i2M_lays hb (MSize.code_of_ofCode hz) rfl (scM_low hs) (fun _ _ => ⟨rfl, rfl, rfl, rfl⟩) (chk_inv hd).2
    case h_2 => cases hd
  · split at hd
    case h_1 sz sc hz hs =>
      exact i2M_lays hb (MSize.code_of_ofCode hz) rfl (scM_low hs) (fun _ _ => ⟨rfl, rfl, rfl, rfl⟩) (chk_inv hd).2
    case h_2 => cases hd
  · cases hd

theorem dec52_lays {mi : Nat} (hd : dec52 mi h b = some (some i)) : Lays i 0x52 mi h b := by
  unfold dec52 at hd
  split at hd
  · obtain ⟨hm, hr⟩ := chk_inv hd
    simp only [Bool.and_eq_true, decide_eq_true_eq, bne_iff_ne, beq_iff_eq] at hm
    obtain ⟨⟨hlt, h7⟩, hs⟩ := hm
    have hn : (fld b 0 3).toNat + 8 * b2n (bit b 3) = fM b := by
      rw [bit_of_fM (by decide), fld_of_fM (by decide)]; exact ldt_low hlt
    have hok : (fld b 0 3 != 7) = true := by rw [fld_of_fM (by decide)]; exact size_ne_seven h7
    exact i2M_lays hb hn rfl hs.symm (fun _ _ => ⟨rfl, rfl, (by exact hok), rfl⟩) hr
  · obtain ⟨hm, hr⟩ := chk_inv hd
    simp only [Bool.and_eq_true, decide_eq_true_eq, bne_iff_ne, beq_iff_eq, Bool.not_eq_true'] at hm
    obtain ⟨⟨⟨hlt, h7⟩, h3⟩, hs⟩ := hm
    have hn : (fld b 0 3).toNat + 16 * b2n (bit b 4) = fM b := by
      rw [bit_of_fM (by decide), fld_of_fM (by decide)]; exact stt_low hlt (bit_of_fM (i := 3) (by decide) ▸ h3)
    have hok : (fld b 0 3 != 7) = true := by rw [fld_of_fM (by decide)]; exact size_ne_seven h7
    exact i2M_lays hb hn rfl hs.symm (fun _ _ => ⟨rfl, rfl, (by exact hok), rfl⟩) hr
  · cases hd

theorem dec53_lays {mi : Nat} (hd : dec53 mi h b = some (some i)) : Lays i 0x53 mi h b := by
  unfold dec53 at hd
  split at hd
  · split at hd
    case h_1 op ty sc ho ht hs =>
      obtain ⟨hm, hr⟩ := chk_inv hd
      obtain ⟨hok, hpad⟩ := Bool.and_eq_true_iff.1 hm
      have hn : op.code + 16 * ty.code = fM b := by
        rw [AOp.code_of_ofCode ho, AType.code_of_ofCode ht]; omega
      simp only [Option.bind_eq_bind, Option.bind_eq_some_iff, Option.pure_def, Option.some.injEq] at hr
      obtain ⟨d, hdst, a, ha, c, hc, rfl⟩ := hr
      refine Lays.of_body (b' := bodyM d.bits a.bits (BitVec.ofNat 15 (c.bits.toNat * 2 ^ 6)) sc.bits (m6 (op.code + 16 * ty.code)))
        ⟨rfl, rfl, hok, rfl⟩ ?_
      rw [bits_of_sp hdst, bits_of_sp ha, bits_of_sp hc]
      exact bodyM_of hb hn (atomOff_low hpad) (scM_low hs)
    case h_2 => cases hd
  · split at hd
    case h_1 op ty sc ho ht hs =>
      obtain ⟨hm, hr⟩ := chk_inv hd
      obtain ⟨hok, hpad⟩ := Bool.and_eq_true_iff.1 hm
      have hn : op.code + 16 * ty.code = fM b := by
        rw [AOp.code_of_ofCode ho, AType.code_of_ofCode ht]; omega
      simp only [Option.bind_eq_bind, Option.bind_eq_some_iff, Option.pure_def, Option.some.injEq] at hr
      obtain ⟨_, hdst, a, ha, c, hc, rfl⟩ := hr
      refine Lays.of_body (b' := bodyM noOp a.bits (BitVec.ofNat 15 (c.bits.toNat * 2 ^ 6)) sc.bits (m6 (op.code + 16 * ty.code)))
        ⟨rfl, rfl, hok, rfl⟩ ?_
      rw [← eq_noOp_of_nil hdst, bits_of_sp ha, bits_of_sp hc]
      exact bodyM_of hb hn (atomOff_low hpad) (scM_low hs)
    case h_2 => cases hd
  · cases hd

theorem dec54_lays {mi : Nat} (hd : dec54 mi h b = some (some i)) : Lays i 0x54 mi h b := by
  unfold dec54 at hd
  split at hd
  · split at hd
    case h_1 sem sc hm hs =>
      obtain ⟨ho, hr⟩ := chk_inv hd
      exact i0M_lays hb (FSem.code_of_ofCode hm) (eq_of_beq ho).symm (scM_low hs) ⟨rfl, rfl, rfl, rfl⟩ hr
    case h_2 => cases hd
  · split at hd
    case isTrue hm =>
      obtain ⟨sc, hs, hr⟩ := opt_inv hd
      simp only [Option.bind_eq_bind, Option.bind_eq_some_iff, Option.pure_def, Option.some.injEq] at hr
      obtain ⟨_, hn, a, ha, rfl⟩ := hr
      refine Lays.of_body (b' := bodyM noOp a.bits (fOff b) sc.bits (m6 (8 * b2n (bit b 3)))) ⟨rfl, rfl, rfl, rfl⟩ ?_
      rw [bits_of_sp ha, ← eq_noOp_of_nil hn]
      exact bodyM_of hb (by rw [bit_of_fM (by decide)]; exact prf_low hm) rfl (scM_low hs)
    case isFalse => cases hd
  · cases hd

theorem dec55_lays {mi : Nat} (hd : dec55 mi h b = some (some i)) : Lays i 0x55 mi h b := by
  unfold dec55 at hd
  split at hd
  · obtain ⟨hm, hr⟩ := chk_inv hd
    exact s1_lays hb (none_low hm) (fun _ => ⟨rfl, rfl, rfl, rfl⟩) hr
  · obtain ⟨hm, hr⟩ := chk_inv hd
    exact a0_lays hb (none_low hm) ⟨rfl, rfl, rfl, rfl⟩ hr
  · cases hd

theorem dec56_lays {mi : Nat} (hd : dec56 mi h b = some (some i)) : Lays i 0x56 mi h b := by
  unfold dec56 at hd
  split at hd
  · obtain ⟨hm, hr⟩ := chk_inv hd
    have hn : b2n (bit b 0) = fM b := by rw [bit_of_fM (by decide)]; exact flag_low hm
    exact a3_lays hb hn (fun _ _ _ => ⟨rfl, rfl, rfl, rfl⟩) hr
  · split at hd
    case isTrue hm => exact a2_lays hb hm.symm (fun _ _ => ⟨rfl, rfl, rfl, rfl⟩) (chk_inv hd).2
    case isFalse =>
      split at hd
      case isTrue hm => exact a3_lays hb hm.symm (fun _ _ _ => ⟨rfl, rfl, rfl, rfl⟩) (chk_inv hd).2
      case isFalse => cases hd
  · cases hd

theorem dec60_lays {mi : Nat} (hd : dec60 mi h b = some (some i)) : Lays i 0x60 mi h b := by
  unfold dec60 at hd
  split at hd
  · obtain ⟨hm, hr⟩ := chk_inv hd
    obtain ⟨hm, hp⟩ := Bool.and_eq_true_iff.1 hm
    have hn : b2n (bit b 0) = (fXm b).toNat := by rw [bit_of_fXm (by decide)]; exact flag_low hm
    exact x2_lays hb hn rfl rfl (eq_of_beq hp).symm (fun _ _ => ⟨rfl, rfl, rfl, rfl⟩) hr
  · cases hd

theorem dec61_lays {mi : Nat} (hd : dec61 mi h b = some (some i)) : Lays i 0x61 mi h b := by
  unfold dec61 at hd
  split at hd
  · obtain ⟨-, hr⟩ := chk_inv hd
    simp only [Option.bind_eq_bind, Option.bind_eq_some_iff, Option.pure_def, Option.some.injEq] at hr
    obtain ⟨a, ha, c, hc, m, hm, rfl⟩ := hr
    refine Lays.of_body (b' := bodyX (fX b) a.bits c.bits (fXsA b) (fXsB b) (fXp b) m.bits) ⟨rfl, rfl, rfl, rfl⟩ ?_
    rw [bits_of_sp ha, bits_of_sp hc, bits_of_sp hm]
    exact bodyX_fields hb
  · cases hd

theorem dec62_lays {mi : Nat} (hd : dec62 mi h b = some (some i)) : Lays i 0x62 mi h b := by
  unfold dec62 at hd
  split at hd
  · obtain ⟨hm, hr⟩ := chk_inv hd
    obtain ⟨hm, hp⟩ := Bool.and_eq_true_iff.1 hm
    have hn : (fld b 0 4).toNat + 16 * b2n (bit b 4) = (fXm b).toNat := by
      rw [bit_of_fXm (by decide), fld_of_fXm (by decide)]; exact mmaj_low hm
    exact x2_lays hb hn rfl rfl (eq_of_beq hp).symm (fun _ _ => ⟨rfl, rfl, rfl, rfl⟩) hr
  · cases hd

theorem dec63_lays {mi : Nat} (hd : dec63 mi h b = some (some i)) : Lays i 0x63 mi h b := by
  unfold dec63 at hd
  split at hd
  · obtain ⟨hm, hr⟩ := chk_inv hd
    obtain ⟨hx, hm⟩ := Bool.and_eq_true_iff.1 hm
    exact q1_lays hb (n := 0) (by rw [eq_of_beq hm]; rfl) (eq_of_beq hx).symm (fun _ => ⟨rfl, rfl, rfl, rfl⟩) hr
  · obtain ⟨hm, hr⟩ := chk_inv hd
    obtain ⟨hx, hm⟩ := Bool.and_eq_true_iff.1 hm
    exact q1_lays hb (n := 0) (by rw [eq_of_beq hm]; rfl) (eq_of_beq hx).symm (fun _ => ⟨rfl, rfl, rfl, rfl⟩) hr
  · cases hd

theorem dec64_lays {mi : Nat} (hd : dec64 mi h b = some (some i)) : Lays i 0x64 mi h b := by
  unfold dec64 at hd
  split at hd
  · split at hd
    case h_1 m hmode =>
      obtain ⟨hm, hr⟩ := chk_inv hd
      obtain ⟨hm, hs⟩ := Bool.and_eq_true_iff.1 hm
      have hp : BitVec.ofNat 3 m.code = fXp b := by rw [DMode.code_of_ofCode hmode, BitVec.ofNat_toNat, BitVec.setWidth_eq]
      have hn : b2n (bit b 0) + 2 * (fld b 1 2).toNat + 8 * b2n (bit b 3) + 16 * b2n (bit b 4) = (fXm b).toNat := by
        rw [bit_of_fXm (by decide), fld_of_fXm (by decide), bit_of_fXm (i := 3) (by decide), bit_of_fXm (i := 4) (by decide)]
        exact tdrain_low (of_decide_eq_true hm)
      exact x2_lays hb hn rfl (eq_of_beq hs).symm hp (fun _ _ => ⟨rfl, rfl, rfl, rfl⟩) hr
    case h_2 => cases hd
  · obtain ⟨hm, hr⟩ := chk_inv hd
    simp only [Bool.and_eq_true, decide_eq_true_eq, beq_iff_eq] at hm
    obtain ⟨⟨⟨hlt, hp⟩, hA⟩, hB⟩ := hm
    simp only [Option.bind_eq_bind, Option.bind_eq_some_iff, Option.pure_def, Option.some.injEq] at hr
    obtain ⟨_, ha, _, hc, rfl⟩ := hr
    refine Lays.of_body (b' := bodyX (fX b) noOp noOp 0 0 0 (m9 (b2n (bit b 0) + 2 * (fld b 1 2).toNat))) ⟨rfl, rfl, rfl, rfl⟩ ?_
    have hn : b2n (bit b 0) + 2 * (fld b 1 2).toNat = (fXm b).toNat := by
      rw [bit_of_fXm (by decide), fld_of_fXm (by decide)]; exact tzero_low hlt
    have hx := bodyX_of hb hn hA.symm hB.symm hp.symm
    rwa [eq_noOp_of_nil ha, eq_noOp_of_nil hc] at hx
  · cases hd

theorem dec70_lays {mi : Nat} (hd : dec70 mi h b = some (some i)) : Lays i 0x70 mi h b := by
  unfold dec70 at hd
  split at hd
  · obtain ⟨hm, hr⟩ := chk_inv hd
    obtain ⟨hx, hm⟩ := Bool.and_eq_true_iff.1 hm
    have hn : b2n (bit b 0) + 2 * b2n (bit b 1) = (fXm b).toNat := by
      rw [bit_of_fXm (by decide), bit_of_fXm (i := 1) (by decide)]; exact cpy_low (of_decide_eq_true hm)
    exact q3_lays hb hn (eq_of_beq hx).symm (fun _ _ _ => ⟨rfl, rfl, rfl, rfl⟩) hr
  · obtain ⟨hm, hr⟩ := chk_inv hd
    obtain ⟨hx, hm⟩ := Bool.and_eq_true_iff.1 hm
    exact q3_lays hb (n := 0) (by rw [eq_of_beq hm]; rfl) (eq_of_beq hx).symm (fun _ _ _ => ⟨rfl, rfl, rfl, rfl⟩) hr
  · cases hd

theorem dec71_lays {mi : Nat} (hd : dec71 mi h b = some (some i)) : Lays i 0x71 mi h b := by
  unfold dec71 at hd
  split at hd
  · obtain ⟨hm, hr⟩ := chk_inv hd
    obtain ⟨hm, hq⟩ := Bool.and_eq_true_iff.1 hm
    have hn : (⟨bit b 0, bit b 1, bit b 2, bit b 3, bit b 4, bit b 5⟩ : QSet).code = (fXm b).toNat := by
      simp only [bit_of_fXm (b := b) (i := 0) (by decide), bit_of_fXm (b := b) (i := 1) (by decide), bit_of_fXm (b := b) (i := 2) (by decide),
        bit_of_fXm (b := b) (i := 3) (by decide), bit_of_fXm (b := b) (i := 4) (by decide), bit_of_fXm (b := b) (i := 5) (by decide)]
      exact qset_low (of_decide_eq_true hm)
    split at hr
    case isTrue h5 => exact q1_lays hb hn rfl (fun _ => ⟨rfl, rfl, qfence_modsOk hq (.inl h5), rfl⟩) hr
    case isFalse => exact q0_lays hb hn rfl ⟨rfl, rfl, qfence_modsOk hq (.inr rfl), rfl⟩ hr
  · obtain ⟨hm, hr⟩ := chk_inv hd
    exact q1_lays hb (n := 0) (by rw [eq_of_beq hm]; rfl) rfl (fun _ => ⟨rfl, rfl, rfl, rfl⟩) hr
  · obtain ⟨hm, hr⟩ := chk_inv hd
    exact q1_lays hb (n := 0) (by rw [eq_of_beq hm]; rfl) rfl (fun _ => ⟨rfl, rfl, rfl, rfl⟩) hr
  · cases hd

theorem dec72_lays {mi : Nat} (hd : dec72 mi h b = some (some i)) : Lays i 0x72 mi h b := by
  unfold dec72 at hd
  split at hd
  · obtain ⟨hm, hr⟩ := chk_inv hd
    obtain ⟨hx, hm⟩ := Bool.and_eq_true_iff.1 hm
    exact q2_lays hb (n := 0) (by rw [eq_of_beq hm]; rfl) (eq_of_beq hx).symm (fun _ _ => ⟨rfl, rfl, rfl, rfl⟩) hr
  · obtain ⟨hm, hr⟩ := chk_inv hd
    obtain ⟨hx, hm⟩ := Bool.and_eq_true_iff.1 hm
    exact q2_lays hb (n := 0) (by rw [eq_of_beq hm]; rfl) (eq_of_beq hx).symm (fun _ _ => ⟨rfl, rfl, rfl, rfl⟩) hr
  · obtain ⟨hm, hr⟩ := chk_inv hd
    obtain ⟨hx, hm⟩ := Bool.and_eq_true_iff.1 hm
    exact q2_lays hb (n := 0) (by rw [eq_of_beq hm]; rfl) (eq_of_beq hx).symm (fun _ _ => ⟨rfl, rfl, rfl, rfl⟩) hr
  · cases hd

theorem dec73_lays {mi : Nat} (hd : dec73 mi h b = some (some i)) : Lays i 0x73 mi h b := by
  unfold dec73 at hd
  split at hd
  · obtain ⟨hm, hr⟩ := chk_inv hd
    obtain ⟨hx, hm⟩ := Bool.and_eq_true_iff.1 hm
    exact q1_lays hb (n := 0) (by rw [eq_of_beq hm]; rfl) (num_low (n := 2) rfl (by decide) hx) (fun _ => ⟨rfl, rfl, rfl, rfl⟩) hr
  · obtain ⟨hm, hr⟩ := chk_inv hd
    obtain ⟨hx, hm⟩ := Bool.and_eq_true_iff.1 hm
    exact q1_lays hb (n := 0) (by rw [eq_of_beq hm]; rfl) (num_low (n := 4) rfl (by decide) hx) (fun _ => ⟨rfl, rfl, rfl, rfl⟩) hr
  · obtain ⟨hm, hr⟩ := chk_inv hd
    obtain ⟨hx, hm⟩ := Bool.and_eq_true_iff.1 hm
    exact q1_lays hb (n := 0) (by rw [eq_of_beq hm]; rfl) (num_low (n := 4) rfl (by decide) hx) (fun _ => ⟨rfl, rfl, rfl, rfl⟩) hr
  · obtain ⟨hm, hr⟩ := chk_inv hd
    obtain ⟨hx, hm⟩ := Bool.and_eq_true_iff.1 hm
    exact q0_lays hb (n := 0) (by rw [eq_of_beq hm]; rfl) (num_low (n := 4) rfl (by decide) hx) ⟨rfl, rfl, rfl, rfl⟩ hr
  · cases hd

theorem dec76_lays {mi : Nat} (hd : dec76 mi h b = some (some i)) : Lays i 0x76 mi h b := by
  unfold dec76 at hd
  split at hd
  · obtain ⟨hm, hr⟩ := chk_inv hd
    obtain ⟨hx, hm⟩ := Bool.and_eq_true_iff.1 hm
    exact q2_lays hb (n := 0) (by rw [eq_of_beq hm]; rfl) (num_low (n := 4) rfl (by decide) hx) (fun _ _ => ⟨rfl, rfl, rfl, rfl⟩) hr
  · split at hd
    case h_1 sc hs =>
      obtain ⟨hm, hr⟩ := chk_inv hd
      obtain ⟨hx, hm⟩ := Bool.and_eq_true_iff.1 hm
      exact q3_lays hb (scQ_low hs hm) (num_low (n := 4) rfl (by decide) hx) (fun _ _ _ => ⟨rfl, rfl, rfl, rfl⟩) hr
    case h_2 => cases hd
  · cases hd

theorem dec77_lays {mi : Nat} (hd : dec77 mi h b = some (some i)) : Lays i 0x77 mi h b := by
  unfold dec77 at hd
  split at hd
  · obtain ⟨hm, hr⟩ := chk_inv hd
    obtain ⟨hx, hm⟩ := Bool.and_eq_true_iff.1 hm
    exact q2_lays hb (n := 0) (by rw [eq_of_beq hm]; rfl) (num_low (n := 4) rfl (by decide) hx) (fun _ _ => ⟨rfl, rfl, rfl, rfl⟩) hr
  · split at hd
    case h_1 sc hs =>
      obtain ⟨hm, hr⟩ := chk_inv hd
      obtain ⟨hx, hm⟩ := Bool.and_eq_true_iff.1 hm
      exact q3_lays hb (scQ_low hs hm) (eq_of_beq hx).symm (fun _ _ _ => ⟨rfl, rfl, rfl, rfl⟩) hr
    case h_2 => cases hd
  · cases hd

theorem dec78_lays {mi : Nat} (hd : dec78 mi h b = some (some i)) : Lays i 0x78 mi h b := by
  unfold dec78 at hd
  split at hd
  · exact i0I_lays hb rfl ⟨rfl, rfl, rfl, rfl⟩ (chk_inv hd).2
  · exact i0I_lays hb rfl ⟨rfl, rfl, rfl, rfl⟩ (chk_inv hd).2
  · cases hd

theorem dec79_lays {mi : Nat} (hd : dec79 mi h b = some (some i)) : Lays i 0x79 mi h b := by
  unfold dec79 at hd
  split at hd
  · split at hd
    case h_1 sc hm => exact s2_lays hb (Scope.code_of_ofCode hm) (fun _ _ => ⟨rfl, rfl, rfl, rfl⟩) (chk_inv hd).2
    case h_2 => cases hd
  · cases hd

theorem dec7A_lays {mi : Nat} (hd : dec7A mi h b = some (some i)) : Lays i 0x7A mi h b := by
  unfold dec7A at hd
  split at hd
  · obtain ⟨hm, hr⟩ := chk_inv hd
    exact a0_lays hb (none_low hm) ⟨rfl, rfl, rfl, rfl⟩ hr
  · obtain ⟨hm, hr⟩ := chk_inv hd
    exact a0_lays hb (none_low hm) ⟨rfl, rfl, rfl, rfl⟩ hr
  · obtain ⟨hm, hr⟩ := chk_inv hd
    exact a2_lays hb (none_low hm) (fun _ _ => ⟨rfl, rfl, rfl, rfl⟩) hr
  · obtain ⟨hm, hr⟩ := chk_inv hd
    exact s2_lays hb (none_low hm) (fun _ _ => ⟨rfl, rfl, rfl, rfl⟩) hr
  · cases hd

theorem dec7B_lays {mi : Nat} (hd : dec7B mi h b = some (some i)) : Lays i 0x7B mi h b := by
  unfold dec7B at hd
  split at hd
  · obtain ⟨hm, hr⟩ := chk_inv hd
    exact d1_lays hb (none_low hm) (fun _ => ⟨rfl, rfl, rfl, rfl⟩) hr
  · cases hd

theorem decBody_lays {mj mi : Nat} (hd : decBody mj mi h b = some (some i)) : Lays i mj mi h b := by
  unfold decBody at hd
  split at hd
  · exact dec00_lays hb hd
  · exact dec01_lays hb hd
  · exact dec02_lays hb hd
  · exact dec03_lays hb hd
  · exact dec04_lays hb hd
  · exact dec05_lays hb hd
  · exact dec06_lays hb hd
  · exact dec10_lays hb hd
  · exact dec11_lays hb hd
  · exact dec12_lays hb hd
  · exact dec13_lays hb hd
  · exact dec14_lays hb hd
  · exact dec15_lays hb hd
  · exact dec16_lays hb hd
  · exact dec17_lays hb hd
  · exact dec18_lays hb hd
  · exact dec19_lays hb hd
  · exact dec30_lays hb hd
  · exact dec31_lays hb hd
  · exact dec32_lays hb hd
  · exact dec40_lays hb hd
  · exact dec41_lays hb hd
  · exact dec48_lays hb hd
  · exact dec49_lays hb hd
  · exact dec4C_lays hb hd
  · exact dec50_lays hb hd
  · exact dec51_lays hb hd
  · exact dec52_lays hb hd
  · exact dec53_lays hb hd
  · exact dec54_lays hb hd
  · exact dec55_lays hb hd
  · exact dec56_lays hb hd
  · exact dec60_lays hb hd
  · exact dec61_lays hb hd
  · exact dec62_lays hb hd
  · exact dec63_lays hb hd
  · exact dec64_lays hb hd
  · exact dec70_lays hb hd
  · exact dec71_lays hb hd
  · exact dec72_lays hb hd
  · exact dec73_lays hb hd
  · exact dec76_lays hb hd
  · exact dec77_lays hb hd
  · exact dec78_lays hb hd
  · exact dec79_lays hb hd
  · exact dec7A_lays hb hd
  · exact dec7B_lays hb hd
  · cases hd

end

/-- A word that decodes has passed the common checks, and its major has answered an instruction. -/
theorem decodeParts_inv {ver mj mi b : Nat} {h : Hdr} {i : Instr} (hd : decodeParts ver mj mi h b = .ok i) :
    decBody mj mi h b = some (some i) ∧ (majorPort mj = true ∨ h.look = 0) ∧ h.flag.toNat ≤ 12 ∧ i.specsOk = true := by
  unfold decodeParts at hd
  split at hd
  · cases hd
  split at hd
  · cases hd
  split at hd
  · cases hd
  next r hr =>
    split at hd
    · cases hd
    next hlook =>
      split at hd
      · cases hd
      next hflag =>
        split at hd
        · cases hd
        next j =>
          split at hd
          next hspecs =>
            obtain rfl : j = i := Except.ok.inj hd
            refine ⟨hr, ?_, Nat.not_lt.1 hflag, hspecs⟩
            rcases hp : majorPort mj with _ | _
            · right; simpa [hp] using hlook
            · exact .inl rfl
          · cases hd

/-- A word is made of its fields (spec/10 R270). -/
theorem word_fields (w : DWord) : word (w.toNat / 2 ^ 57) (fld w.toNat 53 4).toNat
    ⟨fld w.toNat 50 3, fld w.toNat 46 4, fld w.toNat 42 4⟩ (w.toNat % 2 ^ 42) = w := by
  apply BitVec.eq_of_toNat_eq
  have := w.isLt
  simp only [word, fld, BitVec.toNat_ofNat]; omega

/-- Settles O57: the decoder of the major has read every field of the body, so the body that the encoder lays out for its answer is
the one of the word; the common checks are those of a well-formed instruction. -/
theorem encodeUndoesDecode : Obligations.EncodeUndoesDecode := by
  unfold Obligations.EncodeUndoesDecode
  intro ver w i hd
  rw [decodeWord_eq_parts] at hd
  obtain ⟨hbody, hlook, hflag, hspecs⟩ := decodeParts_inv hd
  obtain ⟨hh, hport, hmods, henc⟩ := decBody_lays (Nat.mod_lt _ (by decide)) hbody
  refine ⟨?_, henc.trans (congrArg some (word_fields w))⟩
  have hhdr : i.hdrOk = true := by
    simp only [Instr.hdrOk, hh, hport, Bool.and_eq_true, decide_eq_true_eq, Bool.or_eq_true, beq_iff_eq]
    exact ⟨hflag, hlook⟩
  simp [Instr.wf, Instr.isWord, hh, hhdr, hmods, hspecs]

end Sys2Proof
end

section
/-! SUPPORT. Select, compare, address arithmetic and moves complete with the results of their rules (spec/13 R326-R329). -/

namespace Sys2Proof.Machine

/-- The conditions on integers are the comparisons of bit vectors. -/
theorem condHolds_eq_rule (c : Cond) (x y : Word) : condHolds c x y = Rule.cond c x y := by
  cases c <;> rfl

theorem condImm_eq_rule (c : Cond) (i : BitVec 20) : condImm c i = Rule.imm20 c i := by cases c <;> rfl

theorem maskW_eq_truth (b : Bool) : maskW b = Rule.truth b := rfl

/-- The address sum of `lea` in integers is the one of bit vectors. -/
theorem pairWords_lea (sh : BitVec 2) (u : Bool) (a : DWord) (b : Word) :
    pairWords (aluLea sh u a b) = Rule.lea sh u a b := by
  have hpow : BitVec.ofInt 64 (2 ^ sh.toNat) = BitVec.twoPow 64 sh.toNat := by
    have hcast : (2 : Int) ^ sh.toNat = ((2 ^ sh.toNat : Nat) : Int) := by push_cast; rfl
    rw [hcast, BitVec.ofInt_natCast]
    exact BitVec.eq_of_toNat_eq (by rw [BitVec.toNat_twoPow, BitVec.toNat_ofNat])
  rw [pairWords, lo_hi_eq_words, Rule.lea, aluLea, BitVec.ofInt_mul, ← ext_eq_ofInt, hpow, BitVec.shiftLeft_eq_mul_twoPow]

/-- An instruction that writes two words of its thread and reads nothing else. -/
theorem pair_completes {i : Instr} {h : Hdr} {d : Spec} {f g : Nat → Thread → List Word}
    (he : ∀ s, exec i s = onMach (fun _ mc => mc.regOp h d fun _ fr t => f fr t) s)
    (hf : ∀ fr t pc k, f fr (t.uncarry pc k) = f fr t) (hn : ∀ fr t, (f fr t).length = 2) (hfg : ∀ fr t, f fr t = g fr t) :
    Completes i h d 2 (wordsAre g) :=
  regOp_completes i h d 2 (fun _ fr t => f fr t) _ he (fun _ fr t pc k => hf fr t pc k) (fun _ => hn)
    fun _ _ _ fr t => hfg fr t

/-- Settles O3: each is an instruction on registers alone whose function on words is its rule. -/
theorem selectCompareMoveComplete : Obligations.SelectCompareMoveComplete := by
  unfold Obligations.SelectCompareMoveComplete
  intro h d a b c cc k i w sh u
  refine ⟨reg3_completes (g := fun x y p => if p ≠ 0 then x else y) (fun _ => rfl) fun _ _ _ => rfl,
    reg2_completes (fun _ => rfl) fun x y => congrArg Rule.truth (condHolds_eq_rule cc x y),
    reg1_completes (g := fun x => Rule.truth (Rule.cond cc x (Rule.imm20 cc k))) (fun _ => rfl) fun x => by
      rw [condHolds_eq_rule, condImm_eq_rule]; rfl,
    pair_completes (fun _ => rfl) (by simp) (fun _ _ => rfl) fun _ _ => pairWords_lea ..,
    pair_completes (fun _ => rfl) (by simp) (fun _ _ => rfl) fun _ _ => lo_hi_eq_words _,
    reg1_completes (f := id) (fun _ => rfl) fun _ => rfl,
    pair_completes (fun _ => rfl) (by simp [Thread.rdN]) (fun _ _ => rfl) fun _ _ => rfl,
    regOp_completes _ h d 1 (fun _ _ _ => [w]) _ (fun _ => rfl) (fun _ _ _ _ _ => rfl) (fun _ _ _ => rfl) fun _ _ _ _ _ => rfl⟩

end Sys2Proof.Machine
end

section
/-! SUPPORT. Special registers (spec/13 R334-R337): reads give the word of the table and move the latch of CLOCK, writes change FMODE,
TMSHAPE and EVQ.MUTE alone. -/

namespace Sys2Proof.Machine

/-! ### A thread that changes special registers alone, and the count that it carries -/

theorem uncarry_eq (t : Thread) (pc : Pc) (k : Nat) : t.uncarry pc k =
    { t with flags := if k ≠ 0 && t.carries pc then modAt t.flags (k - 1) (· - 1) else t.flags
             carry := if k ≠ 0 && t.carries pc then none else t.carry } := by
  unfold Thread.uncarry
  split
  next h =>
    have hk : k ≠ 0 := fun hk => by simp [hk] at h
    rw [Thread.flagDown, if_neg hk]
  next => rfl

/-- Taking back a carried count looks at no special register. -/
theorem uncarry_setSpecial (t : Thread) (pc : Pc) (k idx : Nat) (w : Word) :
    (t.uncarry pc k).setSpecial idx w = (t.setSpecial idx w).uncarry pc k := by
  rw [uncarry_eq, uncarry_eq]
  unfold Thread.setSpecial
  split <;> rfl

theorem uncarry_clockRead (sys : Sys) (m : Mach) (t : Thread) (pc : Pc) (k idx : Nat) :
    (t.uncarry pc k).clockRead sys m idx = (t.clockRead sys m idx).uncarry pc k := by
  rw [uncarry_eq, uncarry_eq]
  unfold Thread.clockRead
  split
  · rfl
  · split <;> rfl

theorem uncarry_specialReg (sys : Sys) (m : Mach) (sl : Nat) (t : Thread) (pc : Pc) (k idx : Nat) :
    specialReg sys m sl (t.uncarry pc k) idx = specialReg sys m sl t idx := by
  rw [uncarry_eq]; rfl

theorem setSpecial_id (t : Thread) (idx : Nat) (w : Word) : (t.setSpecial idx w).id = t.id := by
  unfold Thread.setSpecial; split <;> rfl

theorem clockRead_id (sys : Sys) (m : Mach) (t : Thread) (idx : Nat) : (t.clockRead sys m idx).id = t.id := by
  unfold Thread.clockRead; split
  · rfl
  · split <;> rfl

/-! ### Reading -/

/-- EVQ: the event queue below bit 31, MUTE in it. -/
theorem evq_word (u : Bool) {n : Nat} (h : n < 64) :
    (wN ((if u then 2 ^ 31 else 0) + n)).getLsbD 31 = u ∧ (wN ((if u then 2 ^ 31 else 0) + n)).toNat % 2 ^ 31 = n := by
  have hn : (wN ((if u then 2 ^ 31 else 0) + n)).toNat = (if u then 2 ^ 31 else 0) + n := by
    rw [wN, BitVec.toNat_ofNat]; split <;> omega
  rw [← tbit_toNat, hn]
  cases u
  · simp [tbit]; omega
  · simp [tbit]; omega

/-- The table of spec/13 R335. -/
theorem specialReg_is (s : State) (sl : Nat) (T : Thread) (idx : Nat) : SpecialIs s sl T idx (specialReg s.sys s.mach sl T idx) := by
  unfold SpecialIs
  refine ⟨?_, ?_, ?_, ?_, ?_, ?_, ?_, ?_, ?_, ?_, ?_, ?_, ?_, ?_, ?_, ?_, ?_, ?_, ?_, ?_⟩
  case refine_4 => rintro rfl wv hwv; simp [specialReg, hwv]
  case refine_8 => rintro rfl; simp [specialReg, wN]; omega
  case refine_17 =>
    rintro rfl
    show T.clockLatch.getD _ = _
    cases T.clockLatch <;> rfl
  case refine_18 => intro hh; refine ⟨?_, ?_, ?_, ?_, ?_⟩ <;> rintro rfl <;> simp [specialReg, Thread.depth, hh]
  case refine_19 =>
    intro hh hlo hhi
    interval_cases idx <;> simp [specialReg, hh]
  case refine_20 => rintro rfl hevq; exact evq_word T.mute hevq
  all_goals rintro rfl; rfl

/-- Of a read only the latch of CLOCK changes. -/
theorem clockRead_eq (sys : Sys) (m : Mach) (t : Thread) (idx : BitVec 8) : t.clockRead sys m idx.toNat =
    { t with clockLatch := if idx = 0x18 then some (dieClock sys m t.core).hi else if idx = 0x19 then none else t.clockLatch } := by
  have h18 : idx.toNat = 0x18 ↔ idx = 0x18 := by rw [← BitVec.toNat_inj]; rfl
  have h19 : idx.toNat = 0x19 ↔ idx = 0x19 := by rw [← BitVec.toNat_inj]; rfl
  unfold Thread.clockRead
  simp only [h18, h19]
  split
  · rfl
  · split <;> rfl

/-! ### Writing -/

theorem setSpecial_eq (t : Thread) (idx : BitVec 8) (w : Word) : t.setSpecial idx.toNat w =
    { t with fmode := if idx = 0x10 then w &&& 0x7B else t.fmode
             tmshape := if idx = 0x11 then w &&& 0x7FFFF else t.tmshape
             mute := if idx = 0x28 then w.getLsbD 31 else t.mute } := by
  by_cases h10 : idx = 0x10
  · subst h10; rfl
  by_cases h11 : idx = 0x11
  · subst h11; rfl
  by_cases h28 : idx = 0x28
  · subst h28; show ({ t with mute := tbit w.toNat 31 } : Thread) = _; rw [tbit_toNat]; rfl
  have hne : ∀ n : Nat, n < 256 → idx ≠ BitVec.ofNat 8 n → idx.toNat ≠ n := fun n hn hi he =>
    hi (by rw [← he, BitVec.ofNat_toNat, BitVec.setWidth_eq])
  rw [if_neg h10, if_neg h11, if_neg h28]
  have h1 := hne 0x10 (by decide) h10
  have h2 := hne 0x11 (by decide) h11
  have h3 := hne 0x28 (by decide) h28
  unfold Thread.setSpecial
  split <;> [exact absurd ‹_› h1; exact absurd ‹_› h2; exact absurd ‹_› h3; rfl]

/-- Settles O5: both are steps of the shape `onEach`; a read puts the word of the table, and what the two change of a special register
does not touch the count that the thread carries. -/
theorem specialRegistersComplete : Obligations.SpecialRegistersComplete := by
  unfold Obligations.SpecialRegistersComplete
  constructor
  · intro h d idx s q hr hd
    obtain ⟨honly, hthr⟩ := onEach_only_thr h (fun _ sl _ t => (t.clockRead s.sys s.mach idx.toNat).put h d
      [specialReg s.sys s.mach sl t idx.toNat]) hr (by intros; simp [clockRead_id])
    refine ⟨_, rfl, honly, fun p hp => ⟨_, specialReg_is s p.1 (s.mach.thr p.2) idx.toNat, ?_⟩⟩
    dsimp only
    rw [hthr p hp, uncarry_clockRead, uncarry_specialReg, clockRead_eq]
    exact put_effect q h d _ _ (hd _ (mem_tids hp))
  · intro h a idx s q hr
    obtain ⟨honly, hthr⟩ := onEach_only_thr h (fun _ _ fr t => t.setSpecial idx.toNat (t.rd fr a)) hr
      (by intros; simp [setSpecial_id])
    refine ⟨_, rfl, honly, fun p hp => ?_⟩
    rw [hthr p hp, uncarry_setSpecial, uncarry_rd, setSpecial_eq]
    exact uncarry_moved_unwritten q h.flag.toNat _

end Sys2Proof.Machine
end

section
/-! SUPPORT. The floating-point instructions on registers complete with the word of their function (spec/14 R340-R346). -/

namespace Sys2Proof.Machine

theorem flt1_completes {i : Instr} {h : Hdr} {d a : Spec} {f g : Word → Word → Word}
    (he : ∀ s, exec i s = onMach (fun _ mc => mc.flt1 h d a f) s) (hfg : ∀ fm x, f fm x = g fm x) :
    Completes i h d 1 (oneWord fun fr t => g t.fmode (t.rd fr a)) :=
  regOp_completes i h d 1 (fun _ fr t => [f t.fmode (t.rd fr a)]) _ he (by simp) (fun _ _ _ => rfl)
    fun _ _ _ _ _ => congrArg (fun w => [w]) (hfg _ _)

theorem flt2_completes {i : Instr} {h : Hdr} {d a b : Spec} {f g : Word → Word → Word → Word}
    (he : ∀ s, exec i s = onMach (fun _ mc => mc.flt2 h d a b f) s) (hfg : ∀ fm x y, f fm x y = g fm x y) :
    Completes i h d 1 (oneWord fun fr t => g t.fmode (t.rd fr a) (t.rd (fr + 4) b)) :=
  regOp_completes i h d 1 (fun _ fr t => [f t.fmode (t.rd fr a) (t.rd (fr + 4) b)]) _ he (by simp) (fun _ _ _ => rfl)
    fun _ _ _ _ _ => congrArg (fun w => [w]) (hfg _ _ _)

theorem flt3_completes {i : Instr} {h : Hdr} {d a b c : Spec} {f g : Word → Word → Word → Word → Word}
    (he : ∀ s, exec i s = onMach (fun _ mc => mc.flt3 h d a b c f) s) (hfg : ∀ fm x y z, f fm x y z = g fm x y z) :
    Completes i h d 1 (oneWord fun fr t => g t.fmode (t.rd fr a) (t.rd (fr + 4) b) (t.rd (fr + 8) c)) :=
  regOp_completes i h d 1 (fun _ fr t => [f t.fmode (t.rd fr a) (t.rd (fr + 4) b) (t.rd (fr + 8) c)]) _ he (by simp)
    (fun _ _ _ => rfl) fun _ _ _ _ _ => congrArg (fun w => [w]) (hfg _ _ _ _)

/-- The class of spec/14 R343, as one bit of the sign, the exponent and the fraction. -/
def classBit (n : Nat) : Word :=
  let neg := 2 ^ 31 ≤ n
  let e := n / 2 ^ 23 % 2 ^ 8
  let f := n % 2 ^ 23
  (if e = 255 ∧ f ≠ 0 then 0x100 else if e = 255 then (if neg then 0x001 else 0x080)
    else if e = 0 ∧ f = 0 then (if neg then 0x008 else 0x010)
    else if e = 0 then (if neg then 0x004 else 0x020) else if neg then 0x002 else 0x040)

theorem fpuClass_eq_classBit (a : Word) : fpuClass a = classBit a.toNat := by
  have hneg : tbit a.toNat 31 = decide (2 ^ 31 ≤ a.toNat) := by
    have := a.isLt
    rw [tbit, Bool.eq_iff_iff, beq_iff_eq, decide_eq_true_eq]
    omega
  have hf : bits a.toNat 0 23 = a.toNat % 2 ^ 23 := by rw [bits, Nat.pow_zero, Nat.div_one]
  have he : bits a.toNat 23 8 = a.toNat / 2 ^ 23 % 2 ^ 8 := rfl
  unfold fpuClass classBit
  simp only [hneg, hf, he, decide_eq_true_eq, wN]
  generalize a.toNat / 2 ^ 23 % 2 ^ 8 = e
  generalize a.toNat % 2 ^ 23 = f
  by_cases h255 : e = 255
  · by_cases hz : f = 0
    · split_ifs <;> simp_all
    · simp [h255, hz]
  · by_cases hs : e = 0
    · by_cases hz : f = 0 <;> split_ifs <;> simp_all
    · split_ifs <;> simp_all

/-- Settles O7: each is an instruction on registers and FMODE alone, and its function on words is the one stated. -/
theorem floatInstructionsComplete : Obligations.FloatInstructionsComplete := by
  unfold Obligations.FloatInstructionsComplete
  intro h d a b c num bf fc dt sty m
  refine ⟨flt2_completes (g := fpuAdd) (fun _ => rfl) fun _ _ _ => rfl, flt2_completes (g := fpuSub) (fun _ => rfl) fun _ _ _ => rfl,
    flt2_completes (g := fpuMul) (fun _ => rfl) fun _ _ _ => rfl, flt3_completes (g := fpuFma) (fun _ => rfl) fun _ _ _ _ => rfl,
    flt2_completes (fun _ => rfl) fun _ _ _ => rfl, flt2_completes (fun _ => rfl) fun _ _ _ => rfl,
    flt2_completes (g := fpuCmp fc) (fun _ => rfl) fun _ _ _ => rfl,
    flt1_completes (g := fun _ x => classBit x.toNat) (fun _ => rfl) fun _ => fpuClass_eq_classBit,
    flt2_completes (fun _ => rfl) fun _ _ _ => rfl,
    flt1_completes (g := fun fm x => cvtOut fm dt (cvtIn fm sty x)) (fun _ => rfl) fun _ _ => rfl,
    flt1_completes (fun _ => rfl) fun _ _ => rfl, flt2_completes (g := fpuPack bf) (fun _ => rfl) fun _ _ _ => rfl,
    flt3_completes (fun _ => rfl) fun _ _ _ _ => rfl, flt3_completes (fun _ => rfl) fun _ _ _ _ => rfl⟩

end Sys2Proof.Machine
end

section
/-! SUPPORT. Instructions of a port on registers alone enter flight with their results: special functions, the probe of the fibre CAM,
and the operations of the transformed mean (spec/14 R349, R356-R358, spec/15 R383). -/

namespace Sys2Proof.Machine

/-! ### The probe of the fibre CAM -/

/-- The entry of a fibre CAM matches the key under the mask. -/
def camHit (key mask : Word) : Option (Word × Word) → Bool
  | some e => (e.1 ^^^ key) &&& mask == 0
  | none => false

/-- Index and value of the entries that match, counted from `k`. -/
def camHits (key mask : Word) (k : Nat) (l : List (Option (Word × Word))) : List (Nat × Word) :=
  ((List.range' k l.length).zip l).filterMap fun p => p.2.bind fun e =>
    if (e.1 ^^^ key) &&& mask = 0 then some (p.1, e.2) else none

theorem camHits_cons (key mask : Word) (k : Nat) (x : Option (Word × Word)) (l : List (Option (Word × Word))) :
    camHits key mask k (x :: l) =
      if camHit key mask x then (k, (x.getD (0, 0)).2) :: camHits key mask (k + 1) l else camHits key mask (k + 1) l := by
  cases x with
  | none => simp [camHits, camHit, List.range'_succ]
  | some e =>
    simp only [camHits, camHit, List.length_cons, List.range'_succ, List.zip_cons_cons, List.filterMap_cons, Option.bind_some,
      beq_iff_eq]
    split_ifs <;> rfl

theorem camHits_length (key mask : Word) (l : List (Option (Word × Word))) : ∀ k,
    (camHits key mask k l).length = (l.filter (camHit key mask)).length := by
  induction l with
  | nil => intro k; rfl
  | cons x l ih =>
    intro k
    rw [camHits_cons, List.filter_cons]
    split <;> simp [ih]

theorem camHits_head (key mask : Word) (l : List (Option (Word × Word))) : ∀ k,
    match camHits key mask k l with
    | [] => l.any (camHit key mask) = false
    | x :: _ => l.any (camHit key mask) = true ∧ ∃ i w, x.1 = k + i ∧ i < l.length ∧ l.getD i none = some (w, x.2) ∧
        camHit key mask (some (w, x.2)) = true ∧ ∀ j, j < i → camHit key mask (l.getD j none) = false := by
  induction l with
  | nil => intro k; rfl
  | cons x l ih =>
    intro k
    rw [camHits_cons]
    by_cases hx : camHit key mask x = true
    · rw [if_pos hx]
      obtain ⟨w, v⟩ | _ := x
      · exact absurd hx (by simp [camHit])
      · exact ⟨by simp [hx], 0, _, rfl, by simp, rfl, hx, fun j hj => absurd hj (Nat.not_lt_zero j)⟩
    · rw [if_neg hx]
      have hrest := ih (k + 1)
      split at hrest
      next => simp [hx, hrest]
      next y r _ =>
        obtain ⟨hany, i, w, hy, hi, hget, hhit, hbefore⟩ := hrest
        refine ⟨by simp [hany], i + 1, w, by omega, by simpa using hi, by simpa using hget, hhit, ?_⟩
        intro j hj
        cases j with
        | zero => simpa using hx
        | succ j => simpa using hbefore j (by omega)

theorem camProbe_some (c : Cam) (key mask : Word) : camProbe (some c) key mask =
    match camHits key mask 0 c.entries with
    | [] => [0, 0]
    | h :: _ => [h.2, wN (2 ^ 31 + (camHits key mask 0 c.entries).length * 2 ^ 8 + h.1)] := by
  simp only [camProbe, enum, camHits, List.range_eq_range'] <;> rfl

/-- A probe that finds nothing, and one that answers the lowest matching index and the count. -/
theorem camProbe_is (c : Cam) (key mask : Word) :
    if c.entries.any (camHit key mask) then
      ∃ i v k, i < c.entries.length ∧ c.entries.getD i none = some (k, v) ∧ camHit key mask (some (k, v)) = true ∧
        (∀ j, j < i → camHit key mask (c.entries.getD j none) = false) ∧
        camProbe (some c) key mask = [v, wN (0x80000000 + (c.entries.filter (camHit key mask)).length * 256 + i)]
    else camProbe (some c) key mask = [0, 0] := by
  have hhead := camHits_head key mask c.entries 0
  rw [camProbe_some, camHits_length]
  split at hhead
  next => rw [hhead]; simp
  next x r _ =>
    obtain ⟨hany, i, w, hx, hi, hget, hhit, hbefore⟩ := hhead
    rw [hany, if_pos rfl]
    refine ⟨i, x.2, w, hi, hget, hhit, hbefore, ?_⟩
    rw [hx, Nat.zero_add]; rfl

/-! ### Port instructions that may fail in single threads -/

/-- A flight whose condition is weaker and whose value says more. -/
theorem FliesWith.imp {i : Instr} {h : Hdr} {d : Spec} {ok ok' : State → Quarter → Prop}
    {value value' : State → Quarter → Nat → Nat → Thread → List Word → Prop} (hf : FliesWith i h d ok' value')
    (hok : ∀ s q, Running s q → ok s q → ok' s q)
    (hv : ∀ s q, ok s q → ∀ p ∈ q.active, ∀ ws, value' s q p.1 (s.mach.fr p.1) (s.mach.thr p.2) ws →
      value s q p.1 (s.mach.fr p.1) (s.mach.thr p.2) ws) : FliesWith i h d ok value := by
  intro s q hr hk
  obtain ⟨t, hexec, honly, hthr⟩ := hf s q hr (hok s q hr hk)
  refine ⟨t, hexec, honly, fun p hp => ?_⟩
  obtain ⟨g, hg, ws, hF, hvalue, hrest⟩ := hthr p hp
  exact ⟨g, hg, ws, hF, hv s q hk p hp ws hvalue, hrest⟩

/-- The words of a thread that does not fail. -/
def okWords : Except Nat (List Word) → List Word
  | .ok ws => ws
  | .error _ => []

theorem raiseT_nil (m : Mach) (q : Quarter) (c f : Nat) (va : Nat → Nat) : m.raiseT q [] c f va = m := by
  simp [Mach.raiseT, Mach.raise]

/-- Where no thread fails, every thread flies with its words and none is raised. -/
theorem portTrapOp_ok {m : Mach} {q : Quarter} (h : Hdr) (i : Instr) (d : Spec) {f : Nat → Thread → Except Nat (List Word)}
    (hq : m.quarter? m.cur = some q) (hok : ∀ p ∈ q.active, ∃ ws, f (m.fr p.1) (m.thr p.2) = .ok ws) :
    m.portTrapOp h i d f = m.portOp h i d fun _ fr t => okWords (f fr t) := by
  have hwords : (q.active.map fun p => (p.2, f (m.fr p.1) (m.thr p.2))) =
      q.active.map fun p => (p.2, .ok (okWords (f (m.fr p.1) (m.thr p.2)))) := by
    refine List.map_congr_left fun p hp => ?_
    obtain ⟨ws, hws⟩ := hok p hp
    rw [hws, okWords]
  have hquarter : ∀ (l : List (Nat × Nat)) (m' : Mach), m'.quarters = m.quarters →
      (l.foldl (fun m' p => m'.addFlight q h i m.next p.2 [p.2] [] true false
        fun g => g.answer p.2 d (okWords (f (m.fr p.1) (m.thr p.2))) []) m').quarters = m.quarters := by
    intro l
    induction l with
    | nil => intro m' hm; exact hm
    | cons p l ih => intro m' hm; exact ih _ hm
  have hfound : (q.active.foldl (fun m' p => m'.addFlight q h i m.next p.2 [p.2] [] true false
        fun g => g.answer p.2 d (okWords (f (m.fr p.1) (m.thr p.2))) []) (m.take 1)).quarter? q.id = some q := by
    rw [Mach.quarter?, hquarter q.active (m.take 1) rfl]
    exact (quarter?_id hq).symm ▸ hq
  simp only [Mach.portTrapOp, Mach.portOp, Mach.withQ, hq, hwords, List.foldl_map, List.filterMap_map, Function.comp_def,
    List.filterMap_none, raiseT_nil, Mach.goOn, hfound]

/-- A port instruction that fails in no thread is a port instruction with the words that it gives. -/
theorem portTrapOp_flies (i : Instr) (h : Hdr) (d : Spec) (f : State → Nat → Thread → Except Nat (List Word))
    (he : ∀ s, exec i s = .next (State.settle { s with mach := s.mach.portTrapOp h i d (f s) })) :
    FliesWith i h d (fun s q => ∀ p ∈ q.active, ∃ ws, f s (s.mach.fr p.1) (s.mach.thr p.2) = .ok ws)
      fun s _ _ fr t ws => f s fr t = .ok ws := by
  have hwords : FliesWith i h d _ _ := portOp_flies i h d (fun s _ fr t => okWords (f s fr t))
    (fun s q => ∀ p ∈ q.active, ∃ ws, f s (s.mach.fr p.1) (s.mach.thr p.2) = .ok ws) (fun s _ _ fr t ws => ws = okWords (f s fr t))
    (fun s q hq hok => (he s).trans (by rw [portTrapOp_ok h i d hq hok])) (fun _ _ _ _ _ _ => rfl)
  refine hwords.imp (fun _ _ _ hok => hok) ?_
  rintro s q hok p hp _ rfl
  obtain ⟨ws, hws⟩ := hok p hp
  rw [hws, okWords]

theorem sf_flies (i : Instr) (h : Hdr) (d a : Spec) (k : Nat)
    (he : ∀ s, exec i s = onMach (fun _ mc => mc.sfOp h i k d a) s) :
    FliesWith i h d always (oneWord fun fr t => sfWord k t.fmode (t.rd fr a)) :=
  portOp_flies i h d (fun _ _ fr t => [sfWord k t.fmode (t.rd fr a)]) always _ (fun s _ _ _ => he s) fun _ _ _ _ _ _ => rfl

theorem fibprb_flies (h : Hdr) (mk : Option Spec) (d a : Spec) : FliesWith (.fibprb h mk d a) h d always
    fun s _ _ fr t ws => ws = camProbe (s.mach.camOf t.core t.launch) (t.rd fr a) (match mk with
      | some k => t.rd (fr + 4) k
      | none => 0xFFFFFFFF) :=
  portOp_flies _ h d (fun s _ fr t => camProbe (s.mach.camOf t.core t.launch) (t.rd fr a) (match mk with
      | some k => t.rd (fr + 4) k
      | none => 0xFFFFFFFF)) always _ (fun _ _ _ _ => rfl) fun _ _ _ _ _ _ => rfl

/-- The reduction that `tmred` gives under the lowest active thread's TMSHAPE (spec/14 R358). -/
def tmredWords (m : Mach) (a : Spec) (q : Quarter) : List Word :=
  (treeReduce (tmMergeOk (m.thr (m.lowestOf q)).tmshape) {} (m.slotStates q a)).words

theorem execTmred_ok (h : Hdr) (d a : Spec) {s : State} {q : Quarter} (hq : s.mach.quarter? s.mach.cur = some q)
    (hpair : (s.mach.pairOf? (s.mach.thr (s.mach.lowestOf q)).core (s.mach.thr (s.mach.lowestOf q)).launch
      (tmFam (s.mach.thr (s.mach.lowestOf q)).tmshape)).isSome)
    (hshape : tmShapeBad (s.mach.thr (s.mach.lowestOf q)).tmshape = false) :
    exec (.tmred h d a) s =
      .next (State.settle { s with mach := s.mach.portOp h (.tmred h d a) d fun _ _ _ => tmredWords s.mach a q }) := by
  obtain ⟨b, hb⟩ := Option.isSome_iff_exists.mp hpair
  have hexec : exec (.tmred h d a) s = onMach (fun _ mc => mc.withQ fun q =>
    match tmThread mc (mc.thr (mc.lowestOf q)) (fun _ => if tmShapeBad (mc.thr (mc.lowestOf q)).tmshape then
        .viol (Nat.min ((mc.slotStates q a).foldl (fun n s => n + s.n) 0) 0xFFFFFFFF) else .ok (tmredWords mc a q)) nanState with
    | .error c => mc.raiseQ q c h.flag.toNat fun _ => 0
    | .ok ws => mc.portOp h (.tmred h d a) d fun _ _ _ => ws) s := rfl
  rw [hexec]
  simp only [onMach, Mach.withQ, hq, tmThread, hb, hshape, Bool.false_eq_true, if_false]

theorem tmred_flies (h : Hdr) (d a : Spec) : FliesWith (.tmred h d a) h d
    (fun s q => (s.mach.pairOf? (s.mach.thr (s.mach.lowestOf q)).core (s.mach.thr (s.mach.lowestOf q)).launch
      (tmFam (s.mach.thr (s.mach.lowestOf q)).tmshape)).isSome ∧ tmShapeBad (s.mach.thr (s.mach.lowestOf q)).tmshape = false)
    fun s q _ _ _ ws => ws = tmredWords s.mach a q := by
  have hport := portOp_flies (.tmred h d a) h d
    (fun s _ _ _ => (s.mach.quarter? s.mach.cur).elim [] (tmredWords s.mach a))
    (fun s q => s.mach.quarter? s.mach.cur = some q ∧
      (s.mach.pairOf? (s.mach.thr (s.mach.lowestOf q)).core (s.mach.thr (s.mach.lowestOf q)).launch
        (tmFam (s.mach.thr (s.mach.lowestOf q)).tmshape)).isSome ∧ tmShapeBad (s.mach.thr (s.mach.lowestOf q)).tmshape = false)
    (fun s q _ _ _ ws => ws = tmredWords s.mach a q)
    (fun s q hq hok => (execTmred_ok h d a hq hok.2.1 hok.2.2).trans (by rw [hq]; rfl))
    (fun s q _ _ _ hok => by rw [hok.1]; rfl)
  exact hport.imp (fun s q hr hok => ⟨hr.1, hok⟩) fun _ _ _ _ _ _ h => h

/-- Settles O8: each is an instruction of a port on registers alone; those of the transformed mean fail in no thread under the
conditions stated. -/
theorem portsAndMeansFly : Obligations.PortsAndMeansFly := by
  unfold Obligations.PortsAndMeansFly
  refine ⟨⟨fun h d a => ?_, fun h mk d a => ?_⟩, fun h d a b => ?_⟩
  · exact ⟨sf_flies _ h d a 0 fun _ => rfl, sf_flies _ h d a 1 fun _ => rfl, sf_flies _ h d a 2 fun _ => rfl,
      sf_flies _ h d a 3 fun _ => rfl, sf_flies _ h d a 4 fun _ => rfl, sf_flies _ h d a 5 fun _ => rfl,
      sf_flies _ h d a 6 fun _ => rfl, sf_flies _ h d a 7 fun _ => rfl, sf_flies _ h d a 8 fun _ => rfl,
      sf_flies _ h d a 9 fun _ => rfl⟩
  · refine (fibprb_flies h mk d a).imp (fun _ _ _ hok => hok) ?_
    rintro s q - p hp _ rfl
    dsimp only
    cases s.mach.camOf (s.mach.thr p.2).core (s.mach.thr p.2).launch with
    | none => rfl
    | some c =>
      exact camProbe_is c _ _
  · refine ⟨?_, ?_, ?_, ?_, tmred_flies h d a⟩
    · exact portTrapOp_flies (.tment h d a) h d (fun s fr t => tmThread s.mach t
        (fun p => (tmEntry t.tmshape p (t.rd fr a)).map TmSt.words) nanState) fun _ => rfl
    · exact portTrapOp_flies (.tmmrg h d a b) h d (fun s fr t => tmThread s.mach t
        (fun _ => (tmMerge t.tmshape (tmOf (t.rdN fr a 3)) (tmOf (t.rdN (fr + 4) b 3))).map TmSt.words) nanState) fun _ => rfl
    · exact portTrapOp_flies (.tmscl h d a b) h d (fun s fr t => tmThread s.mach t
        (fun _ => (tmScl t.tmshape (tmOf (t.rdN fr a 3)) (tmOf (t.rdN (fr + 4) b 3))).map fun w => [w]) nanWord) fun _ => rfl
    · exact portTrapOp_flies (.tmext h d a) h d (fun s fr t => tmThread s.mach t
        (fun p => (tmExit t.tmshape p (tmOf (t.rdN fr a 3))).map fun w => [w]) nanWord) fun _ => rfl

end Sys2Proof.Machine
end

section
/-! SUPPORT. Row instructions, loads, stores, atomics, fences and prefetches issue the operations of their plans (spec/14 R350-R355,
spec/15 R362-R374). -/

namespace Sys2Proof.Machine

/-! ### Parts of an access -/

theorem isOk_iff {a : Acc} : a.isOk = true ↔ ∃ l at_ e, a = .ok l at_ e := by
  cases a <;> simp [Acc.isOk]

/-- Several parts pass their checks together where each passes its own. -/
theorem accAll_ok {as : List Acc} (h : (accAll as).isOk = true) : ∀ a ∈ as, a.isOk = true := by
  unfold accAll at h
  split at h
  next b hf =>
    have hb := List.find?_some hf
    rw [eq_of_beq hb] at h
    cases h
  next =>
    split at h
    next b hf => have hb := List.find?_some hf; cases b <;> simp [Acc.isOk] at h hb
    next =>
      split at h
      next b hf => have hb := List.find?_some hf; cases b <;> simp [Acc.isOk] at h hb
      next =>
        split at h
        next b hf => have hb := List.find?_some hf; rw [h] at hb; exact absurd hb Bool.false_ne_true
        next hnone =>
          intro a ha
          simpa using List.find?_eq_none.1 hnone a ha

theorem shift_loc {a : Acc} (k : Nat) (h : a.isOk = true) : (a.shift k).loc = a.loc + k := by
  obtain ⟨l, at_, e, rfl⟩ := isOk_iff.1 h
  rfl

/-! ### The operations of plans -/

theorem opsAre_append {os os' : List PendOp} {l l' : List (OpKind × Nat × Nat)} (h : opsAre os l) (h' : opsAre os' l') :
    opsAre (os ++ os') (l ++ l') := by
  rw [opsAre, List.map_append, h, h']

theorem opsAre_rowOps (kind : OpKind) (part : Nat) (a : Acc) (len va : Nat) (stamp : Bool) :
    opsAre (rowOps kind part a len va stamp) (stepsOf kind va a.loc len) := by
  simp [opsAre, rowOps, stepsOf]

theorem opsAre_rowReads (part : Nat) (a : Acc) (len va : Nat) :
    opsAre (rowReads part a len va) (stepsOf (.load false) va a.loc len) := opsAre_rowOps ..

theorem opsAre_rowCont (part : Nat) (a : Acc) (va c e0 n : Nat) (stamp : Bool) :
    opsAre [rowCont part a va c e0 n stamp] [(.wide, a.loc + contLo c e0, contHi c e0 n - contLo c e0)] := rfl

/-- The operations of an access instruction depend on its plan through the checks and the judgement alone. -/
theorem IssuesAccesses.congr_plan {i : Instr} {h : Hdr} {shift : Bool} {ok : State → Quarter → Prop} {plan plan' : State → Nat → Thread → TPlan}
    {ops : State → Nat → Thread → List PendOp → Prop} (hi : IssuesAccesses i h shift ok plan ops)
    (hacc : ∀ s fr t, (plan' s fr t).acc = (plan s fr t).acc) (hjudge : ∀ s fr t, (plan' s fr t).judge = (plan s fr t).judge) :
    IssuesAccesses i h shift ok plan' ops := by
  intro s q hr hk hp
  exact hi s q hr hk fun p hp' => by rw [← hacc, ← hjudge]; exact hp p hp'

/-! ### Row instructions -/

/-- An instruction whose slot is legal runs. -/
theorem orTrap_run {m : Mach} {h : Hdr} {c : Nat} {bad : Quarter → Bool} {k : Mach} {q : Quarter} (hq : m.quarter? m.cur = some q)
    (hb : bad q = false) : m.orTrap h c bad k = k := by
  rw [Mach.orTrap, Mach.withQ, hq]
  simp [hb]

theorem topkGroup_issues (h : Hdr) (a b c : Spec) (p : TkPat) (w : TkWidth) (k : TkKind) :
    IssuesAccesses (.topkGroup h p w k a b c) h false always
      (fun s fr t => s.mach.topkPlan t p (tkBits w) (t.rd fr a).toNat (t.rd (fr + 4) b).toNat (t.rd (fr + 8) c).toNat)
      fun s fr t os =>
        let v := 64 * (tkNm p).1 / (tkNm p).2
        let n := topkMeta p (tkBits w)
        let range (k : OpKind) (off len al : Nat) := stepsOf k off (scrPart s.mach t off len al).loc len
        opsAre os (range (.load false) (t.rd fr a).toNat 64 64 ++ range .wide (t.rd (fr + 4) b).toNat v v ++
          range .wide (t.rd (fr + 8) c).toNat n 4) := by
  refine memIssue_issues _ h false _ none (fun _ => topkWide) topkFin (fun _ => keep) always _ (fun _ _ _ _ => rfl)
    (fun _ _ _ => ⟨rfl, rfl, rfl, rfl, rfl, rfl, rfl, rfl, rfl⟩) fun s fr t hok => ?_
  dsimp only [Mach.topkPlan] at hok ⊢
  rw [if_pos hok]
  exact opsAre_append (opsAre_append (opsAre_rowReads ..) (opsAre_rowOps ..)) (opsAre_rowOps ..)

theorem topkRow_issues (h : Hdr) (d a b c : Spec) (w : TkWidth) (k : TkKind) :
    IssuesAccesses (.topkRow h w k d a b c) h true always
      (fun s fr t => s.mach.topkRowPlan t (tkBits w) (t.rd fr a).toNat (t.rd (fr + 4) b).toNat
        ((t.rd (fr + 8) c).toNat % 65536) ((t.rd (fr + 8) c).toNat / 65536))
      fun s fr t os =>
        let l := (t.rd (fr + 8) c).toNat % 65536
        let n := (t.rd (fr + 8) c).toNat / 65536
        let la := (l * tkBits w + 7) / 8
        let at_ := 4 * ((n * tkBits w + 31) / 32)
        let off := (t.rd (fr + 4) b).toNat
        let dst := (scrPart s.mach t off (at_ + 2 * n) 4).loc
        opsAre os (stepsOf (.load false) (t.rd fr a).toNat (scrPart s.mach t (t.rd fr a).toNat la 4).loc la ++
          if n = 0 then [] else stepsOf .wide off dst ((n * tkBits w + 7) / 8) ++ stepsOf .wide (off + at_) (dst + at_) (2 * n)) := by
  refine memIssue_issues _ h true _ none (fun _ => topkWide) topkFin _ always _ (fun _ _ _ _ => rfl)
    (fun _ _ _ => ⟨rfl, rfl, rfl, rfl, rfl, rfl, rfl, rfl, rfl⟩) fun s fr t hok => ?_
  dsimp only [Mach.topkRowPlan] at hok ⊢
  rw [if_pos hok]
  refine opsAre_append (opsAre_rowReads ..) ?_
  by_cases hn : (t.rd (fr + 8) c).toNat / 65536 = 0
  · rw [if_pos hn, if_pos hn]; rfl
  · rw [if_neg hn] at hok
    rw [if_neg hn, if_neg hn, if_neg hn]
    have hdst := accAll_ok hok _ (List.mem_cons_of_mem _ (List.mem_singleton_self _))
    refine opsAre_append (opsAre_rowOps ..) ?_
    have hshift := opsAre_rowOps .wide 2 (((scrPart s.mach t (t.rd (fr + 4) b).toNat (idxAt (tkBits w) ((t.rd (fr + 8) c).toNat / 65536) +
      2 * ((t.rd (fr + 8) c).toNat / 65536)) 4)).shift (idxAt (tkBits w) ((t.rd (fr + 8) c).toNat / 65536)))
      (2 * ((t.rd (fr + 8) c).toNat / 65536)) ((t.rd (fr + 4) b).toNat + idxAt (tkBits w) ((t.rd (fr + 8) c).toNat / 65536)) (s.mach.checked t)
    rw [shift_loc _ hdst] at hshift
    exact hshift

theorem cvtq_issues (h : Hdr) (d a b c : Spec) (sl : BitVec 3) (st : QSrc) :
    IssuesAccesses (.cvtq h st sl d a b c) h true (fun s q => slotConvOk (s.mach.fslot q.launch sl.toNat) = true)
      (fun s fr t => s.mach.cvtqPlan t (s.mach.fslot t.launch sl.toNat) st (t.rd fr a).toNat (t.rd (fr + 4) b).toNat
        (t.rd (fr + 8) c).toNat)
      (fun s fr t os =>
        let n := slotBlock (s.mach.fslot t.launch sl.toNat) * srcBytes st
        opsAre os (stepsOf (.load false) (t.rd fr a).toNat (scrPart s.mach t (t.rd fr a).toNat n (srcBytes st)).loc n ++
                   let c0 := slotCont (s.mach.fslot t.launch sl.toNat)
                   let e0 := (t.rd (fr + 8) c).toNat
                   let hi := ((e0 + slotBlock (s.mach.fslot t.launch sl.toNat)) * c0 + 7) / 8
                   [(.wide, (scrPart s.mach t (t.rd (fr + 4) b).toNat 64 64).loc + e0 * c0 / 8, hi - e0 * c0 / 8)])) := by
  refine memIssue_issues _ h true _ none (fun _ => narrowWide) narrowFin
    (fun s id f => { f with nums := [(s.mach.thr id).fmode.toNat, ((s.mach.thr id).rd (s.mach.thrFr id + 8) c).toNat] }) _ _
    (fun s q hq hok => ?_) (fun _ _ _ => ⟨rfl, rfl, rfl, rfl, rfl, rfl, rfl, rfl, rfl⟩) fun s fr t hok => ?_
  · exact congrArg (fun m => Host.Outcome.next (State.settle { s with mach := m })) (orTrap_run hq (by simp [hok]))
  · dsimp only [Mach.cvtqPlan] at hok ⊢
    rw [if_pos hok]
    exact opsAre_append (opsAre_rowReads ..) (opsAre_rowCont ..)

theorem rquant_issues (h : Hdr) (d a b c : Spec) (sl : BitVec 3) :
    IssuesAccesses (.rquant h sl d a b c) h true
      (fun s q => slotConvOk (s.mach.fslot q.launch sl.toNat) = true ∧ slotSkind (s.mach.fslot q.launch sl.toNat) = 1)
      (fun s fr t => s.mach.rquantPlan t (s.mach.fslot t.launch sl.toNat) (t.rd fr a).toNat (t.rd (fr + 4) b).toNat)
      (fun s fr t os =>
        let c0 := slotCont (s.mach.fslot t.launch sl.toNat)
        let e0 := (t.rd (fr + 4) b).toNat
        let lo := e0 * c0 / 8
        let n := ((e0 + slotBlock (s.mach.fslot t.launch sl.toNat)) * c0 + 7) / 8 - lo
        let at_ := (scrPart s.mach t (t.rd fr a).toNat 64 64).loc + lo
        opsAre os (stepsOf (.load false) ((t.rd fr a).toNat + lo) at_ n ++ [(.wide, at_, n)])) := by
  refine memIssue_issues _ h true _ none (fun _ => narrowWide) narrowFin
    (fun s id f =>
        let t := s.mach.thr id
        let cw := (t.rd (s.mach.thrFr id + 8) c).toNat
        { f with nums := [t.fmode.toNat, (t.rd (s.mach.thrFr id + 4) b).toNat, bits cw 0 8, bits cw 8 8] }) _ _
    (fun s q hq hok => ?_) (fun _ _ _ => ⟨rfl, rfl, rfl, rfl, rfl, rfl, rfl, rfl, rfl⟩) fun s fr t hok => ?_
  · exact congrArg (fun m => Host.Outcome.next (State.settle { s with mach := m })) (orTrap_run hq (by simp [hok.1, hok.2]))
  · dsimp only [Mach.rquantPlan] at hok ⊢
    rw [if_pos hok]
    refine opsAre_append ?_ (opsAre_rowCont ..)
    have hpa := accAll_ok hok _ List.mem_cons_self
    have hreads := opsAre_rowReads 0 ((scrPart s.mach t (t.rd fr a).toNat 64 64).shift
      (contLo (slotCont (s.mach.fslot t.launch sl.toNat)) (t.rd (fr + 4) b).toNat))
      (contHi (slotCont (s.mach.fslot t.launch sl.toNat)) (t.rd (fr + 4) b).toNat (slotBlock (s.mach.fslot t.launch sl.toNat)) -
        contLo (slotCont (s.mach.fslot t.launch sl.toNat)) (t.rd (fr + 4) b).toNat)
      ((t.rd fr a).toNat + contLo (slotCont (s.mach.fslot t.launch sl.toNat)) (t.rd (fr + 4) b).toNat)
    rw [shift_loc _ hpa] at hreads
    exact hreads

theorem bscale_issues (h : Hdr) (d a : Spec) (sl : BitVec 3) (st : QSrc) :
    IssuesAccesses (.bscale h st sl d a) h true (fun s q => slotOk (s.mach.fslot q.launch sl.toNat) = true)
      (fun s fr t => s.mach.bscalePlan t (s.mach.fslot t.launch sl.toNat) st (t.rd fr a).toNat)
      (fun s fr t os =>
        let n := slotBlock (s.mach.fslot t.launch sl.toNat) * srcBytes st
        opsAre os (stepsOf (.load false) (t.rd fr a).toNat (scrPart s.mach t (t.rd fr a).toNat n (srcBytes st)).loc n)) := by
  refine memIssue_issues _ h true _ none (fun _ => narrowWide) narrowFin
    (fun s id f => { f with nums := [(s.mach.thr id).fmode.toNat] }) _ _
    (fun s q hq hok => ?_) (fun _ _ _ => ⟨rfl, rfl, rfl, rfl, rfl, rfl, rfl, rfl, rfl⟩) fun s fr t hok => ?_
  · exact congrArg (fun m => Host.Outcome.next (State.settle { s with mach := m })) (orTrap_run hq (by simp [hok]))
  · dsimp only [Mach.bscalePlan] at hok ⊢
    rw [if_pos hok]
    exact opsAre_rowReads ..

/-- Settles O9: each plan reads and writes the ranges stated, and the instruction issues its plan. -/
theorem rowInstructionsIssue : Obligations.RowInstructionsIssue := by
  unfold Obligations.RowInstructionsIssue
  intro h d a b c sl st
  exact ⟨topkGroup_issues h a b c, topkRow_issues h d a b c, cvtq_issues h d a b c sl st, rquant_issues h d a b c sl,
    bscale_issues h d a sl st⟩

end Sys2Proof.Machine
end

section
/-! SUPPORT. Loads, stores, atomics, fences and prefetches issue their operations at the location that the address names
(spec/15 R362-R374, spec/07 R205). -/

namespace Sys2Proof.Machine

/-! ### Loads and stores -/

/-- The pieces of a load or store of global memory lie at the location of its address. -/
theorem globalPlan_ops {sys : Sys} {m : Mach} {t : Thread} {va : Nat} {sz : MSize} {need : Need} {tm : Bool} {kind : Nat → Nat → OpKind}
    {sc : Scope} (h : (m.globalPlan sys t va sz.bytes need tm kind sc).acc.isOk = true) :
    (∀ o ∈ (m.globalPlan sys t va sz.bytes need tm kind sc).ops, o.scope = sc ∧ o.rel = false ∧ o.acq = false) ∧
    ∃ l at_ e, globalAcc sys m t.core (m.eff t.launch) va sz.bytes need tm false = .ok l at_ e ∧
      opsAre (m.globalPlan sys t va sz.bytes need tm kind sc).ops ((pieces sz.bytes).map fun p => (kind p.1 p.2, l + p.1, p.2)) := by
  dsimp only [Mach.globalPlan] at h ⊢
  obtain ⟨l, at_, e, hacc⟩ := isOk_iff.1 h
  rw [if_pos h, hacc]
  refine ⟨fun o ho => ?_, l, at_, e, rfl, by simp [opsAre, Acc.loc]⟩
  obtain ⟨p, -, rfl⟩ := List.mem_map.1 ho
  exact ⟨rfl, rfl, rfl⟩

theorem scratchPlan_ops {m : Mach} {t : Thread} {off : Nat} {sz : MSize} {write : Bool} {kind : Nat → Nat → OpKind} {sc : Scope}
    (h : (m.scratchPlan t off sz.bytes write kind sc).acc.isOk = true) :
    (∀ o ∈ (m.scratchPlan t off sz.bytes write kind sc).ops, o.scope = sc ∧ o.rel = false ∧ o.acq = false) ∧
    ∃ l at_ e, scratchAcc m t off sz.bytes sz.bytes = .ok l at_ e ∧
      opsAre (m.scratchPlan t off sz.bytes write kind sc).ops ((pieces sz.bytes).map fun p => (kind p.1 p.2, l + p.1, p.2)) := by
  dsimp only [Mach.scratchPlan] at h ⊢
  obtain ⟨l, at_, e, hacc⟩ := isOk_iff.1 h
  rw [if_pos h, hacc]
  refine ⟨fun o ho => ?_, l, at_, e, rfl, by simp [opsAre, Acc.loc]⟩
  obtain ⟨p, -, rfl⟩ := List.mem_map.1 ho
  exact ⟨rfl, rfl, rfl⟩

/-- An access instruction of this chapter: its plan is issued as it stands. -/
theorem access_issues {i : Instr} {h : Hdr} {shift : Bool} {stat : Option Spec} (plan : State → Nat → Thread → TPlan)
    {ops : State → Nat → Thread → List PendOp → Prop}
    (he : ∀ s, exec i s = .next (State.settle { s with mach := s.mach.memIssue s.sys h i shift stat (plan s) noWide memFin keep }))
    (ho : ∀ s fr t, (plan s fr t).acc.isOk = true → ops s fr t (plan s fr t).ops) :
    IssuesAccesses i h shift always plan ops :=
  memIssue_issues i h shift plan stat (fun _ => noWide) memFin (fun _ => keep) always ops (fun s _ _ _ => he s)
    (fun _ _ _ => ⟨rfl, rfl, rfl, rfl, rfl, rfl, rfl, rfl, rfl⟩) ho

/-- Settles O10: the plan of each has the pieces at the location that its address names. -/
theorem loadsAndStoresIssue : Obligations.LoadsAndStoresIssue := by
  unfold Obligations.LoadsAndStoresIssue
  intro h sz tm sc d a off
  refine ⟨access_issues _ (fun _ => rfl) fun s fr t hok => ?_, access_issues _ (fun _ => rfl) fun s fr t hok => ?_,
    access_issues _ (fun _ => rfl) fun s fr t hok => ?_, access_issues _ (fun _ => rfl) fun s fr t hok => ?_⟩
  · have hops := globalPlan_ops hok
    rwa [eaGlobal, pieces] at hops
  · have hops := globalPlan_ops hok
    simp only [eaGlobal, pieces, storeBytes] at hops
    exact hops
  · have hops := scratchPlan_ops hok
    rwa [eaScratch, pieces] at hops
  · have hops := scratchPlan_ops hok
    simp only [eaScratch, pieces, storeBytes] at hops
    exact hops

/-! ### Atomics, fences and prefetches -/

theorem atomPlan_ops {sys : Sys} {m : Mach} {t : Thread} {va : Nat} {ty : AType} {kind : OpKind} {acq : Bool} {sc : Scope}
    (h : (m.atomPlan sys t va ty kind acq sc).acc.isOk = true) :
    (∀ o ∈ (m.atomPlan sys t va ty kind acq sc).ops, o.scope = sc ∧ o.rel = true ∧ o.acq = acq) ∧
    ∃ l at_ e, globalAcc sys m t.core (m.eff t.launch) va ty.bytes .rw false true = .ok l at_ e ∧
      opsAre (m.atomPlan sys t va ty kind acq sc).ops [(kind, l, ty.bytes)] := by
  dsimp only [Mach.atomPlan] at h ⊢
  obtain ⟨l, at_, e, hacc⟩ := isOk_iff.1 h
  rw [if_pos h, hacc]
  refine ⟨fun o ho => ?_, l, at_, e, rfl, rfl⟩
  rw [List.mem_singleton.1 ho]
  exact ⟨rfl, rfl, rfl⟩

/-- What a prefetch does with its access: it fetches the line of an address that a load may read, and no other. -/
def FetchesLine (sc : Scope) (acc : Acc) (os : List PendOp) : Prop :=
  match acc with
  | .ok l _ _ => opsAre os [(.fetchLine (cachedAt sc), l / 64 * 64, 64)]
  | _ => os = []

theorem prfPlan_ops {sys : Sys} {m : Mach} {t : Thread} {va : Nat} {tm : Bool} {sc : Scope} :
    FetchesLine sc (globalAcc sys m t.core (m.eff t.launch) va 1 .r tm false) (m.prfPlan sys t va tm sc).ops := by
  unfold Mach.prfPlan
  cases globalAcc sys m t.core (m.eff t.launch) va 1 .r tm false <;> rfl

/-- What a fence issues: one operation with the orders that its semantics name (spec/15 R373). -/
def fencePlan (sem : FSem) (sc : Scope) : TPlan :=
  { acc := .ok 0 0 none
    ops := [{ oid := 0, uid := 0, kind := .fence (sem != .acq) (sem != .rel), scope := sc, rel := sem != .acq, acq := sem != .rel }] }

theorem fence_issues (h : Hdr) (sem : FSem) (sc : Scope) :
    IssuesAccesses (.fence h sem sc) h false always (fun _ _ _ => { acc := .ok 0 0 none }) fun _ _ _ os =>
      ∃ o, os = [o] ∧ o.kind = .fence (sem != .acq) (sem != .rel) ∧ o.scope = sc ∧ o.rel = (sem != .acq) ∧ o.acq = (sem != .rel) := by
  have hissues : IssuesAccesses (.fence h sem sc) h false always (fun _ _ _ => fencePlan sem sc) _ :=
    access_issues (fun _ _ _ => fencePlan sem sc) (fun _ => rfl)
      (ops := fun _ _ _ os => ∃ o, os = [o] ∧ o.kind = .fence (sem != .acq) (sem != .rel) ∧ o.scope = sc ∧ o.rel = (sem != .acq) ∧
        o.acq = (sem != .rel)) fun _ _ _ _ => ⟨_, rfl, rfl, rfl, rfl, rfl⟩
  exact hissues.congr_plan (fun _ _ _ => rfl) fun _ _ _ => rfl

theorem atom_issues (h : Hdr) (op : AOp) (ty : AType) (sc : Scope) (d a b : Spec) :
    IssuesAccesses (.atom h op ty sc d a b) h true always
      (fun s fr t => s.mach.atomPlan s.sys t (t.rdPair fr a).toNat ty
        (.atom op ty (atomWord t (fr + 8) b ty) (atomWord t (fr + 16) d ty)) true sc)
      (fun s fr t os => (∀ o ∈ os, o.scope = sc ∧ o.rel = true ∧ o.acq = true) ∧ ∃ l at_ e,
        globalAcc s.sys s.mach t.core (s.mach.eff t.launch) (t.rdPair fr a).toNat ty.bytes .rw false true = .ok l at_ e ∧
        opsAre os [(.atom op ty (atomWord t (fr + 8) b ty) (atomWord t (fr + 16) d ty), l, ty.bytes)]) :=
  access_issues _ (fun _ => rfl) fun _ _ _ hok => atomPlan_ops hok

theorem red_issues (h : Hdr) (op : AOp) (ty : AType) (sc : Scope) (a b : Spec) :
    IssuesAccesses (.red h op ty sc a b) h false always
      (fun s fr t => s.mach.atomPlan s.sys t (t.rdPair fr a).toNat ty (.red op ty (atomWord t (fr + 8) b ty)) false sc)
      (fun s fr t os => (∀ o ∈ os, o.scope = sc ∧ o.rel = true ∧ o.acq = false) ∧ ∃ l at_ e,
        globalAcc s.sys s.mach t.core (s.mach.eff t.launch) (t.rdPair fr a).toNat ty.bytes .rw false true = .ok l at_ e ∧
        opsAre os [(.red op ty (atomWord t (fr + 8) b ty), l, ty.bytes)]) :=
  access_issues _ (fun _ => rfl) fun _ _ _ hok => atomPlan_ops hok

/-- What a prefetch of its operands plans, under a name: the checks then compare the plan by it. -/
def prefetchPlan (tm : Bool) (sc : Scope) (a : Spec) (off : BitVec 15) (s : State) (fr : Nat) (t : Thread) : TPlan :=
  s.mach.prfPlan s.sys t (eaGlobal t fr a off) tm sc

theorem prf_issues (h : Hdr) (tm : Bool) (sc : Scope) (a : Spec) (off : BitVec 15) :
    IssuesAccesses (.prf h tm sc a off) h false always (prefetchPlan tm sc a off) (fun s fr t os =>
      FetchesLine sc (globalAcc s.sys s.mach t.core (s.mach.eff t.launch) (eaGlobal t fr a off) 1 .r tm false) os) :=
  access_issues (prefetchPlan tm sc a off) (fun _ => rfl) fun _ _ _ _ => prfPlan_ops

theorem IssuesAccesses.imp {i : Instr} {h : Hdr} {shift : Bool} {ok : State → Quarter → Prop} {plan : State → Nat → Thread → TPlan}
    {ops ops' : State → Nat → Thread → List PendOp → Prop} (hi : IssuesAccesses i h shift ok plan ops)
    (himp : ∀ s fr t os, ops s fr t os → ops' s fr t os) : IssuesAccesses i h shift ok plan ops' := by
  intro s q hrun hok hgood
  obtain ⟨t, hstep, honly, hfly⟩ := hi s q hrun hok hgood
  refine ⟨t, hstep, honly, fun p hp => ?_⟩
  obtain ⟨f, hf, os, hof, hw, hg, hops, hiss⟩ := hfly p hp
  exact ⟨f, hf, os, hof, hw, hg, himp _ _ _ _ hops, hiss⟩

/-- Settles O11: an atomic and a fence are one operation each, with the orders stated, and a prefetch one or none. -/
theorem atomicsAndFencesIssue : Obligations.AtomicsAndFencesIssue := by
  unfold Obligations.AtomicsAndFencesIssue
  intro h op ty sc d a b sem tm off
  have hatom := atom_issues h op ty sc d a b
  have hred := red_issues h op ty sc a b
  simp only [atomWord] at hatom hred ⊢
  refine ⟨hatom, hred, fence_issues h sem sc, (prf_issues h tm sc a off).imp fun s fr t os hos => ?_⟩
  cases hacc : globalAcc s.sys s.mach t.core (s.mach.eff t.launch) (eaGlobal t fr a off) 1 .r tm false <;> rwa [hacc] at hos

end Sys2Proof.Machine
end

section
/-! SUPPORT. Tile moves, fibre loads and table loads issue the operations of their plans (spec/15 R376-R381, spec/14 R359). -/

namespace Sys2Proof.Machine

/-- The words of a range, cut after the `n`-th multiple of 8, hold what of the range lies below it. -/
theorem sum_words_below (va len n : Nat) :
    ((List.range n).map fun i => Nat.min (va + len) (8 * (va / 8 + i) + 8) - Nat.max va (8 * (va / 8 + i))).sum =
      Nat.min (va + len) (8 * (va / 8 + n)) - va := by
  induction n with
  | zero => simp only [List.range_zero, List.map_nil, List.sum_nil, Nat.min_eq_min]; omega
  | succ n ih =>
    rw [List.range_succ, List.map_append, List.sum_append, ih]
    simp only [List.map_cons, List.map_nil, List.sum_cons, List.sum_nil, Nat.min_eq_min, Nat.max_eq_max]
    omega

/-- The words of a range hold all its bytes. -/
theorem sum_words8 (va len : Nat) : ((words8 va len).map fun p => p.2).sum = len := by
  unfold words8
  split
  · simp [*]
  · rw [List.map_map]
    exact (sum_words_below va len _).trans (by simp only [Nat.min_eq_min]; omega)

/-- The line pieces of a range hold all its bytes where there are enough of them. -/
theorem sum_linePieces (n : Nat) : ∀ va len, len = 0 ∨ len + va % 64 ≤ 64 * n → ((linePieces va n len).map fun p => p.2).sum = len := by
  induction n with
  | zero => intro va len hlen; simp only [linePieces, List.map_nil, List.sum_nil]; omega
  | succ n ih =>
    intro va len hlen
    unfold linePieces
    split
    · simp [*]
    · simp only [List.map_cons, List.sum_cons, Nat.min_eq_min]
      rw [ih _ _ (by omega)]
      omega

/-- The operations of several ranges, cut into words each, hold the bytes of all. -/
theorem sum_lens_of_pieces {ps : List (Nat × Nat)} {as : List Acc} (hlen : as.length = ps.length) (op : (Nat × Nat) × Acc → Nat × Nat → PendOp)
    (hop : ∀ p w, (op p w).len = w.2) :
    (((ps.zip as).flatMap fun p => (words8 p.1.1 p.1.2).map fun w => op p w).map fun o => o.len).sum = (ps.map fun p => p.2).sum := by
  induction ps generalizing as with
  | nil => simp
  | cons p ps ih =>
    obtain _ | ⟨a, as⟩ := as
    · simp at hlen
    · have hwords : (words8 p.1 p.2).map ((fun o : PendOp => o.len) ∘ op (p, a)) = (words8 p.1 p.2).map fun w => w.2 :=
        List.map_congr_left fun w _ => hop (p, a) w
      simp only [List.zip_cons_cons, List.flatMap_cons, List.map_append, List.sum_append, List.map_cons, List.sum_cons, List.map_map]
      rw [ih (by simpa using hlen), hwords, sum_words8]

/-- The sectors of a tile, or the tile as one where metadata comes with it: where from, where to, and how many bytes. -/
def tileSectors (sz : BitVec 3) (md : Bool) (src dst : Nat) : List (Nat × Nat × Nat) :=
  if md then [(src, dst, 64 * 2 ^ sz.toNat)] else (List.range (2 ^ sz.toNat)).map fun j => (src + 64 * j, dst + 64 * j, 64)

theorem tileOps_sectors (src dst va : Nat) (sz : BitVec 3) (line : Nat → Option (Nat × Nat)) (stamp win : Bool) :
    (∀ o ∈ tileOps src dst (tileBytes sz) va line stamp win, o.kind = .move) ∧
    (tileOps src dst (tileBytes sz) va line stamp win).map (fun o => (o.loc, o.loc2, o.len)) = tileSectors sz false src dst := by
  constructor
  · simp [tileOps]
  · simp [tileOps, tileBytes, tileSectors, Function.comp_def]

theorem ldtPlan_ops {sys : Sys} {m : Mach} {t : Thread} {va off : Nat} {sz : BitVec 3} {md : Bool}
    (h : (m.ldtPlan sys t va off sz md).acc.isOk = true) :
    (∀ o ∈ (m.ldtPlan sys t va off sz md).ops, o.kind = .move) ∧
    (m.ldtPlan sys t va off sz md).ops.map (fun o => (o.loc, o.loc2, o.len)) =
      tileSectors sz md (globalAcc sys m t.core (m.eff t.launch) va (tileBytes sz) .r false false).loc
        (scratchAcc m t off (tileBytes sz) 64).loc := by
  cases md with
  | false =>
    simp only [Mach.ldtPlan, Bool.false_eq_true, if_false] at h ⊢
    rw [if_neg (by rw [h]; decide)]
    exact tileOps_sectors ..
  | true =>
    simp only [Mach.ldtPlan, if_true] at h ⊢
    rw [if_neg (by rw [h]; decide)]
    exact ⟨fun o ho => by rw [List.mem_singleton.1 ho], rfl⟩

theorem sttPlan_ops {sys : Sys} {m : Mach} {t : Thread} {va off : Nat} {sz : BitVec 3} {md : Bool}
    (h : (m.sttPlan sys t va off sz md).acc.isOk = true) :
    (∀ o ∈ (m.sttPlan sys t va off sz md).ops, o.kind = if md then .wide else .move) ∧
    (m.sttPlan sys t va off sz md).ops.map (fun o => (o.loc, o.loc2, o.len)) =
      tileSectors sz md (scratchAcc m t off (tileBytes sz) 64).loc
        (globalAcc sys m t.core (m.eff t.launch) va (tileBytes sz) .w false false).loc := by
  cases md with
  | false =>
    simp only [Mach.sttPlan, Bool.false_eq_true, if_false] at h ⊢
    rw [if_neg (by rw [h]; decide)]
    exact tileOps_sectors ..
  | true =>
    simp only [Mach.sttPlan, if_true] at h ⊢
    rw [if_neg (by rw [h]; decide)]
    exact ⟨fun o ho => by rw [List.mem_singleton.1 ho], rfl⟩

theorem fibldPlan_ops {m : Mach} {t : Thread} {off cw : Nat} (h : (m.fibldPlan t off cw).acc.isOk = true) :
    opsAre (m.fibldPlan t off cw).ops (if bits cw 8 9 = 0 then [(.load false, 0, 0)]
      else stepsOf (.load false) off (scratchAcc m t off (8 * bits cw 8 9) 8).loc (8 * bits cw 8 9)) := by
  simp only [Mach.fibldPlan] at h ⊢
  by_cases hroom : bits cw 0 8 + bits cw 8 9 > 256
  · rw [if_pos hroom] at h; cases h
  · rw [if_neg hroom]
    by_cases hcount : bits cw 8 9 = 0
    · rw [if_pos hcount, if_pos hcount]; rfl
    · rw [if_neg hcount, if_neg hcount]; simp [opsAre, stepsOf]

theorem tmldPlan_ops {sys : Sys} {m : Mach} {t : Thread} {va : Nat} (h : (m.tmldPlan sys t va).acc.isOk = true) :
    (∀ o ∈ (m.tmldPlan sys t va).ops, o.kind = .load true) ∧ ((m.tmldPlan sys t va).ops.map fun o => o.len).sum = 1568 := by
  simp only [Mach.tmldPlan] at h ⊢
  rw [if_pos h]
  constructor
  · simp only [List.mem_flatMap, List.mem_map]
    rintro o ⟨p, -, w, -, rfl⟩
    rfl
  · rw [sum_lens_of_pieces (List.length_map _) _ fun _ _ => rfl]
    exact sum_linePieces 26 va 1568 (.inr (by omega))

/-- A tile instruction whose plan depends on the state and on the registers of the lowest active thread. -/
theorem tile_issues {i : Instr} {h : Hdr} {shift : Bool} (plan : State → Nat → Thread → TPlan)
    (wide : Mach → Thread → Flight → PendOp → Mach) (fin : Mach → Flight → Mach) (g : State → Quarter → Flight → Flight)
    {ops : State → Nat → Thread → List PendOp → Prop}
    (he : ∀ s, exec i s = .next (State.settle { s with mach := (s.mach.withQ fun q =>
      s.mach.tileIssue s.sys q h i shift (plan s s.mach.free (s.mach.thr (s.mach.lowestOf q))) wide fin (g s q)) }))
    (hg : ∀ s q f, (g s q f).uid = f.uid ∧ (g s q f).instr = f.instr ∧ (g s q f).owner = f.owner ∧ (g s q f).tids = f.tids ∧
      (g s q f).flag = f.flag ∧ (g s q f).done = f.done)
    (ho : ∀ s fr t, (plan s fr t).acc.isOk = true → ops s fr t (plan s fr t).ops) :
    IssuesTile i h shift plan ops :=
  tileIssue_issues i h shift plan (fun _ => wide) (fun _ => fin) g ops he hg ho

/-- The bits of a `fibld`'s control word, kept for the landing. -/
def fibldNums (b : Spec) (s : State) (q : Quarter) (f : Flight) : Flight :=
  let cw := ((s.mach.thr (s.mach.lowestOf q)).rd (s.mach.free + 4) b).toNat
  { f with nums := [bits cw 0 8, bits cw 8 9] }

theorem ldt_issues (h : Hdr) (sz : BitVec 3) (md : Bool) (d a : Spec) (off : BitVec 15) :
    IssuesTile (.ldt h sz md d a off) h false
      (fun s fr t => s.mach.ldtPlan s.sys t (eaGlobal t fr a off) (t.rd (fr + 8) d).toNat sz md)
      (fun s fr t os => (∀ o ∈ os, o.kind = .move) ∧ os.map (fun o => (o.loc, o.loc2, o.len)) = tileSectors sz md
        (globalAcc s.sys s.mach t.core (s.mach.eff t.launch) (eaGlobal t fr a off) (tileBytes sz) .r false false).loc
        (scratchAcc s.mach t (t.rd (fr + 8) d).toNat (tileBytes sz) 64).loc) :=
  tile_issues _ noWide memFin (fun _ _ f => f) (fun _ => rfl) (fun _ _ _ => ⟨rfl, rfl, rfl, rfl, rfl, rfl⟩) fun _ _ _ hok => ldtPlan_ops hok

theorem stt_issues (h : Hdr) (sz : BitVec 3) (md : Bool) (d a : Spec) (off : BitVec 15) :
    IssuesTile (.stt h sz md d a off) h false
      (fun s fr t => s.mach.sttPlan s.sys t (eaGlobal t fr a off) (t.rd (fr + 8) d).toNat sz md)
      (fun s fr t os => (∀ o ∈ os, o.kind = if md then .wide else .move) ∧ os.map (fun o => (o.loc, o.loc2, o.len)) = tileSectors sz md
        (scratchAcc s.mach t (t.rd (fr + 8) d).toNat (tileBytes sz) 64).loc
        (globalAcc s.sys s.mach t.core (s.mach.eff t.launch) (eaGlobal t fr a off) (tileBytes sz) .w false false).loc) :=
  tile_issues _ sttWide memFin (fun _ _ f => f) (fun _ => rfl) (fun _ _ _ => ⟨rfl, rfl, rfl, rfl, rfl, rfl⟩) fun _ _ _ hok => sttPlan_ops hok

theorem fibld_issues (h : Hdr) (clr : Bool) (d a b : Spec) :
    IssuesTile (.fibld h clr d a b) h true (fun s fr t => s.mach.fibldPlan t (t.rd fr a).toNat (t.rd (fr + 4) b).toNat)
      (fun s fr t os => opsAre os (if bits (t.rd (fr + 4) b).toNat 8 9 = 0 then [(.load false, 0, 0)]
        else stepsOf (.load false) (t.rd fr a).toNat
          (scratchAcc s.mach t (t.rd fr a).toNat (8 * bits (t.rd (fr + 4) b).toNat 8 9) 8).loc (8 * bits (t.rd (fr + 4) b).toNat 8 9))) :=
  tile_issues _ noWide fibldFin (fibldNums b) (fun _ => rfl) (fun _ _ _ => ⟨rfl, rfl, rfl, rfl, rfl, rfl⟩) fun _ _ _ hok => fibldPlan_ops hok

theorem tmld_issues (h : Hdr) (p : BitVec 2) (a : Spec) (off : BitVec 15) :
    IssuesTile (.tmld h p a off) h false (fun s fr t => s.mach.tmldPlan s.sys t (eaGlobal t fr a off))
      (fun _ _ _ os => (∀ o ∈ os, o.kind = .load true) ∧ (os.map fun o => o.len).sum = 1568) :=
  tile_issues _ noWide tmldFin (fun _ _ f => f) (fun _ => rfl) (fun _ _ _ => ⟨rfl, rfl, rfl, rfl, rfl, rfl⟩) fun _ _ _ hok => tmldPlan_ops hok

/-- Settles O12: each plan's operations are the sectors or words of the range that the instruction names. -/
theorem tileInstructionsIssue : Obligations.TileInstructionsIssue := by
  unfold Obligations.TileInstructionsIssue
  intro h sz md clr d a b off p
  have hldt := ldt_issues h sz md d a off
  have hstt := stt_issues h sz md d a off
  have hfib := fibld_issues h clr d a b
  simp only [tileSectors, tileBytes, bits] at hldt hstt hfib
  exact ⟨hldt, hstt, hfib, tmld_issues h p a off⟩

end Sys2Proof.Machine
end

section
/-! SUPPORT. A step is an instruction or step of the package that runs, or the passing of time; every step ends with nothing waiting for
delivery (log 14). The state after power-on reset. -/

namespace Sys2Proof.Machine

/-! ### What a step can be -/

/-- Every candidate of the list is the meaning of a step of the package. -/
def AreExec (l : List Cand) : Prop := ∀ c ∈ l, ∃ i, c = exec i

@[simp] theorem areExec_nil : AreExec [] := fun _ h => absurd h List.not_mem_nil

@[simp] theorem areExec_append (l r : List Cand) : AreExec (l ++ r) ↔ AreExec l ∧ AreExec r := List.forall_mem_append

@[simp] theorem areExec_cons (c : Cand) (l : List Cand) : AreExec (c :: l) ↔ (∃ i, c = exec i) ∧ AreExec l := List.forall_mem_cons

@[simp] theorem areExec_ite (p : Prop) [Decidable p] (l r : List Cand) : AreExec (if p then l else r) ↔ (p → AreExec l) ∧ (¬p → AreExec r) := by
  split <;> simp [*]

theorem areExec_map {α : Type} (l : List α) (c : α → Cand) (h : ∀ x, ∃ i, c x = exec i) : AreExec (l.map c) := by
  intro d hd
  obtain ⟨x, -, rfl⟩ := List.mem_map.1 hd
  exact h x

theorem areExec_flatMap {α : Type} (l : List α) (f : α → List Cand) (h : ∀ x, AreExec (f x)) : AreExec (l.flatMap f) := by
  intro c hc
  obtain ⟨x, -, hx⟩ := List.mem_flatMap.1 hc
  exact h x c hx

theorem threadCands_areExec (m : Mach) : AreExec (threadCands m) := by
  simp only [threadCands, areExec_append, areExec_ite, areExec_nil, areExec_cons]
  refine ⟨⟨⟨⟨⟨⟨⟨⟨⟨⟨?_, ?_⟩, ?_⟩, ?_⟩, ?_⟩, ?_⟩, ?_⟩, ?_⟩, ?_⟩, ?_⟩, ?_⟩
  · exact areExec_map _ _ fun f => ⟨.instructionComplete f.owner f.uid, rfl⟩
  · refine areExec_flatMap _ _ fun t => areExec_flatMap _ _ fun o => ?_
    simp only [areExec_cons, areExec_nil]
    exact ⟨⟨.accessPerform t.id o.oid false, rfl⟩, ⟨.kstoreLinkStep t.id o.oid, rfl⟩, ⟨.remoteAccessTimeout t.id o.oid, rfl⟩, trivial⟩
  · exact areExec_map _ _ fun r => ⟨.remoteAccessTimeout 0 r.id, rfl⟩
  · exact areExec_map _ _ fun g => ⟨.trapEntry g.id, rfl⟩
  · exact areExec_map _ _ fun g => ⟨.alcoveBind g.core, rfl⟩
  · exact areExec_map _ _ fun t => ⟨.barrierRelease t.id, rfl⟩
  · exact ⟨fun _ => trivial, fun _ => ⟨⟨.barrierArrivalNode, rfl⟩, trivial⟩⟩
  · refine areExec_flatMap _ _ fun x => ?_
    simp only [areExec_cons, areExec_nil]
    exact ⟨⟨.mmajJointStart x.id, rfl⟩, ⟨.mmajPartnerTimeout x.id, rfl⟩, trivial⟩
  · refine areExec_flatMap _ _ fun c => ?_
    simp only [areExec_cons, areExec_nil]
    exact ⟨⟨.widenFrameGrant c.id, rfl⟩, ⟨.gatherFrameGrant c.id, rfl⟩, trivial⟩
  · exact areExec_map _ _ fun w => ⟨.sigAckTimeout w.1 w.2.1, rfl⟩
  · exact areExec_map _ _ fun k => ⟨.syscallEntryWrite k, rfl⟩

theorem faultCands_areExec (m : Mach) : AreExec (faultCands m) :=
  areExec_flatMap _ _ fun d => by
    simp only [areExec_cons, areExec_nil]
    exact ⟨⟨.faultQueueHeaderStore d.fdom, rfl⟩, ⟨.invalidationDone d.fdom, rfl⟩, ⟨.faultEntryPost d.fdom, rfl⟩, trivial⟩

theorem launchCands_areExec (m : Mach) : AreExec (launchCands m) := by
  simp only [launchCands, areExec_append]
  exact ⟨⟨areExec_map _ _ fun p => ⟨.launchAccept p, rfl⟩, areExec_map _ _ fun l => ⟨.launchRetire l.id, rfl⟩⟩,
    areExec_map _ _ fun k => ⟨.waveDispatch k, rfl⟩⟩

theorem issueCands_areExec (m : Mach) : AreExec (issueCands m) := by
  simp only [issueCands, areExec_append]
  refine ⟨⟨⟨⟨⟨areExec_map _ _ fun g => ⟨.gladeAgeExpire g.id, rfl⟩, areExec_map _ _ fun c => ⟨.coreWake c.core, rfl⟩⟩,
    areExec_map _ _ fun k => ⟨.issuePick k, rfl⟩⟩, areExec_map _ _ fun q => ⟨.shuttleEvictLongWait q.core q.id, rfl⟩⟩,
    areExec_flatMap _ _ fun k => ?_⟩, areExec_flatMap _ _ fun q => ?_⟩
  · simp only [areExec_ite, areExec_cons, areExec_nil]
    exact ⟨fun _ => ⟨⟨.shuttleLoad k, rfl⟩, ⟨.shuttleEvictForWaiting k, rfl⟩, trivial⟩, fun _ => trivial⟩
  · simp only [areExec_ite, areExec_nil]
    exact ⟨fun _ => areExec_map _ _ fun tid => ⟨.watchdogExpire tid, rfl⟩, fun _ => trivial⟩

theorem engineCands_areExec (m : Mach) : AreExec (engineCands m) :=
  areExec_flatMap _ _ fun k => by
    simp only [areExec_append, areExec_cons, areExec_nil]
    refine ⟨⟨areExec_map _ _ fun q => ⟨.engineStep k q, rfl⟩, ⟨.mmrStepBoundary k, rfl⟩, ⟨.macroOpStep k, rfl⟩, ⟨.mmrIdleCheck k, rfl⟩, trivial⟩,
      areExec_flatMap _ _ fun e => ?_⟩
    simp only [areExec_cons, areExec_nil]
    exact ⟨⟨.streamFillStep k e, rfl⟩, ⟨.streamDrainStep k e, rfl⟩, trivial⟩

theorem preemptCands_areExec (sys : Sys) (m : Mach) : AreExec (preemptCands sys m) := by
  simp only [preemptCands, areExec_append, areExec_ite, areExec_nil]
  refine ⟨⟨⟨⟨fun _ => areExec_map _ _ fun g => ⟨.dispatchPreemptRequest g, rfl⟩, fun _ => trivial⟩,
    fun _ => trivial, fun _ => areExec_map _ _ fun l => ⟨.quiescenceDrainDetect l.id, rfl⟩⟩,
    areExec_map _ _ fun l => ⟨.drainSweepToken l, rfl⟩⟩, areExec_flatMap _ _ fun p => ?_⟩
  simp only [areExec_cons, areExec_nil]
  exact ⟨⟨.preemptSave p.rcb, rfl⟩, ⟨.regionResume p.rcb, rfl⟩, trivial⟩

theorem collCands_areExec (m : Mach) : AreExec (collCands m) := by
  simp only [collCands, areExec_append]
  refine ⟨⟨⟨areExec_map _ _ fun p => ⟨.collEntryStart p.rcb p.q, rfl⟩, areExec_flatMap _ _ fun e => ?_⟩,
    areExec_map _ _ fun n => ⟨.chunkSend n, rfl⟩⟩, areExec_map _ _ fun k => ⟨.tokenResend k, rfl⟩⟩
  simp only [areExec_cons, areExec_nil]
  exact ⟨⟨.collOpen e.eid, rfl⟩, ⟨.collClose e.eid, rfl⟩, ⟨.collEntryRetire e.eid, rfl⟩, ⟨.collLinkTimeout { eid := e.eid, far := false }, rfl⟩,
    trivial⟩

theorem portCands_areExec (sys : Sys) (m : Mach) : AreExec (portCands sys m) :=
  areExec_flatMap _ _ fun n => by
    simp only [areExec_append, areExec_ite, areExec_cons, areExec_nil]
    refine ⟨⟨areExec_flatMap _ _ fun vc => ?_, fun _ => ⟨⟨.flitSend n, rfl⟩, trivial⟩, fun _ => trivial⟩,
      fun _ => ⟨⟨.linkReplayRetrain n, rfl⟩, trivial⟩, fun _ => trivial⟩
    simp only [areExec_cons, areExec_nil]
    exact ⟨⟨.fabricPassThrough n vc, rfl⟩, ⟨.remoteAccessRequest n vc, rfl⟩, ⟨.chunkArrive n vc, rfl⟩, ⟨.putArrive n vc, rfl⟩,
      ⟨.sigRemoteArrive n, rfl⟩, ⟨.sigAckArrive n, rfl⟩, ⟨.domainBarrierMessage n, rfl⟩, ⟨.completionTokenArrive n, rfl⟩,
      ⟨.ringTokenArrive n, rfl⟩, ⟨.tokenRefused n, rfl⟩, ⟨.collFailureArrive n, rfl⟩, trivial⟩

theorem packageCands_areExec (sys : Sys) (m : Mach) : AreExec (packageCands sys m) := by
  simp only [packageCands, areExec_append, areExec_ite, areExec_cons, areExec_nil]
  refine ⟨⟨⟨⟨areExec_map _ _ fun d => ⟨.dieResetDone d, rfl⟩, areExec_map _ _ fun g => ⟨.grovePowerTransition g.1, rfl⟩⟩,
    areExec_flatMap _ _ fun c => ?_⟩, areExec_map _ _ fun k => ⟨.regionTimerFire k, rfl⟩⟩, fun _ => ⟨⟨.timeBaseTick, rfl⟩, trivial⟩, fun _ => trivial⟩
  simp only [areExec_ite, areExec_cons, areExec_nil]
  exact ⟨fun _ => ⟨⟨.coreClockGate c.core, rfl⟩, trivial⟩, fun _ => ⟨⟨.corePowerGate c.core, rfl⟩, trivial⟩⟩

/-- What the default scheduler chooses among are steps of the package. -/
theorem cands_areExec (s : State) : AreExec (cands s) := by
  simp only [cands, areExec_append]
  exact ⟨⟨⟨⟨⟨⟨⟨⟨threadCands_areExec _, faultCands_areExec _⟩, launchCands_areExec _⟩, issueCands_areExec _⟩, engineCands_areExec _⟩,
    preemptCands_areExec _ _⟩, collCands_areExec _⟩, portCands_areExec _ _⟩, packageCands_areExec _ _⟩

/-- The first candidate that changes the state leaves what it answers. -/
theorem firstChange_cases {s t : State} {l : List Cand} (h : firstChange s l = some t) : ∃ c ∈ l, c s = .next t := by
  induction l with
  | nil => cases h
  | cons c r ih =>
    have later : firstChange s r = some t → ∃ d ∈ c :: r, d s = .next t := fun hr => by
      obtain ⟨d, hd, hdt⟩ := ih hr
      exact ⟨d, List.mem_cons_of_mem _ hd, hdt⟩
    unfold firstChange at h
    split at h
    next u hu =>
      split at h
      · cases h; exact ⟨c, List.mem_cons_self, hu⟩
      · exact later h
    next => exact later h
    next => exact later h

/-- WHAT A STEP CAN BE: an instruction or step of the package that runs, in a state that differs from the first in the pick and in the agenda
or in what the issue has done; a pick that does not issue; the passing of cycles; or a change of the agenda and the straps alone. -/
theorem step_cases {s t : State} (h : step s = .next t) :
    (∃ q rest m i, s.mach.latch = q :: rest ∧ issueStage s.sys { s.mach with latch := rest } q = (m, some i) ∧
      exec i { s with mach := m } = .next t) ∨
    (∃ q rest m, s.mach.latch = q :: rest ∧ issueStage s.sys { s.mach with latch := rest } q = (m, none) ∧
      t = State.settle { s with mach := m }) ∨
    (∃ i a, exec i { s with agenda := a } = .next t) ∨
    (∃ n a, t = State.settle { s with agenda := a, mach := s.mach.resumeServed.tick s.sys n }) ∨
    ∃ a ep id, t = { s with agenda := a, sys := { s.sys with pe0pin := ep, idpins := id } } := by
  unfold step stage at h
  cases hl : s.mach.latch with
  | cons q rest =>
    rw [hl] at h
    cases hi : issueStage s.sys { s.mach with latch := rest } q with
    | mk m oi =>
      simp only [hi] at h
      cases oi with
      | some i => exact .inl ⟨q, rest, m, i, rfl, hi, h⟩
      | none => cases h; exact .inr (.inl ⟨q, rest, m, rfl, hi, rfl⟩)
  | nil =>
    rw [hl] at h
    cases ha : s.agenda with
    | nil =>
      simp only [ha, defaultNext] at h
      cases hf : firstChange s (cands s) with
      | some u =>
        obtain ⟨c, hc, hcu⟩ := firstChange_cases hf
        obtain ⟨i, rfl⟩ := cands_areExec s c hc
        rw [hf] at h
        cases h
        exact .inr (.inr (.inl ⟨i, s.agenda, hcu⟩))
      | none =>
        rw [hf] at h
        cases h
        exact .inr (.inr (.inr (.inl ⟨1, s.agenda, rfl⟩)))
    | cons turn rest =>
      simp only [ha] at h
      cases turn with
      | ev i =>
        simp only [runTurn] at h
        cases hp : isProgram i with
        | true => rw [hp] at h; cases h; exact .inr (.inr (.inr (.inr ⟨rest, s.sys.pe0pin, s.sys.idpins, rfl⟩)))
        | false => rw [hp] at h; exact .inr (.inr (.inl ⟨i, rest, h⟩))
      | strap ep => cases h; exact .inr (.inr (.inr (.inr ⟨rest, ep, s.sys.idpins, rfl⟩)))
      | strapId id => cases h; exact .inr (.inr (.inr (.inr ⟨rest, s.sys.pe0pin, id, rfl⟩)))
      | tick n => cases h; exact .inr (.inr (.inr (.inl ⟨n, rest, rfl⟩)))

/-! ### The end of a step -/

/-- An access of a control core ends in `settle`, or is refused. -/
theorem controlCoreStore_settles {pa : Nat} {r : HartReq} {s t : State} (h : exec (.controlCoreStore pa r) s = .next t) :
    ∃ u : State, t = u.settle := by
  change execControlCoreStore pa r s = .next t at h
  unfold execControlCoreStore at h
  split at h
  case h_1 => split at h <;> cases h; exact ⟨_, rfl⟩
  case h_2 => split at h <;> cases h; exact ⟨_, rfl⟩
  case h_3 => split at h <;> cases h; exact ⟨_, rfl⟩
  all_goals cases h; exact ⟨_, rfl⟩

/-- EVERY MEANING ENDS IN `settle`: it has one of the shapes `onMach` and `onAll`, or is an access of a control core. -/
theorem exec_settles {i : Instr} {s t : State} (h : exec i s = .next t) : ∃ u : State, t = u.settle := by
  by_cases hi : ∃ pa r, i = .controlCoreStore pa r
  · obtain ⟨pa, r, rfl⟩ := hi
    exact controlCoreStore_settles h
  · cases i
    case controlCoreStore pa r => exact absurd ⟨pa, r, rfl⟩ hi
    all_goals exact ⟨_, (Host.Outcome.next.inj h).symm⟩

/-- Settles O55: every kind of step ends in `settle`, or changes the agenda and the straps alone. -/
theorem stepsEndSettled : Obligations.StepsEndSettled := by
  unfold Obligations.StepsEndSettled
  intro s t hs h
  obtain ⟨q, rest, m, i, -, -, hx⟩ | ⟨q, rest, m, -, -, rfl⟩ | ⟨i, a, hx⟩ | ⟨n, a, rfl⟩ | ⟨a, ep, id, rfl⟩ := step_cases h
  · obtain ⟨u, rfl⟩ := exec_settles hx; exact settled_next u
  · exact settled_next _
  · obtain ⟨u, rfl⟩ := exec_settles hx; exact settled_next u
  · exact settled_next _
  · exact hs

/-- Settles O51: the state after reset, field by field. -/
theorem resetState : Obligations.ResetState := by
  unfold Obligations.ResetState
  refine ⟨by decide, by decide, fun _ => rfl, rfl, rfl, rfl, by decide, fun _ => rfl, fun _ => rfl, by decide, fun _ => ⟨rfl, rfl, rfl⟩, rfl, rfl, rfl, rfl,
    rfl, rfl, rfl, rfl, rfl, rfl, ⟨rfl, rfl, rfl⟩, by decide, ?_, ?_⟩
  · exact fun f hf => absurd hf List.not_mem_nil
  · unfold PackageLegal; decide

end Sys2Proof.Machine
end

section
/-! SUPPORT. Conversion into FP32 in round-to-nearest mode gives a nearest finite value (spec/09 R241, R249). -/

namespace Sys2Proof.Machine

/-! ### Values as rationals -/

theorem ratOf_num (s : Bool) (m : Nat) (e : Int) : ratOf (.num s m e) = (if s then -1 else 1) * ((m : ℚ) * 2 ^ e) := by
  have hmag : (if 0 ≤ e then (m : ℚ) * 2 ^ e.toNat else m / 2 ^ (-e).toNat) = m * 2 ^ e := by
    split
    next he => rw [← zpow_natCast, Int.toNat_of_nonneg he]
    next he => rw [← zpow_natCast, Int.toNat_of_nonneg (by omega), zpow_neg, div_inv_eq_mul]
  simp only [ratOf, hmag]
  cases s <;> simp

theorem apart_eq_abs (x y : ℚ) : apart x y = |x - y| := by
  unfold apart
  split
  next h => rw [abs_sub_comm, abs_of_nonneg (by linarith)]
  next h => rw [abs_of_nonneg (by linarith)]

/-- `scaleQ` scales by a power of two: the quotient of its numbers is the scaled quotient. -/
theorem scaleQ_spec (n d : Nat) (e : Int) (hd : 0 < d) :
    0 < (scaleQ n d e).2 ∧ ((scaleQ n d e).1 : ℚ) = (n / d * 2 ^ e : ℚ) * (scaleQ n d e).2 := by
  have hd' : (d : ℚ) ≠ 0 := by positivity
  unfold scaleQ
  split
  next he =>
    refine ⟨hd, ?_⟩
    have hpow : (2 : ℚ) ^ e = 2 ^ e.toNat := by rw [← zpow_natCast, Int.toNat_of_nonneg he]
    rw [hpow]
    push_cast
    field_simp
  next he =>
    refine ⟨by positivity, ?_⟩
    have hpow : (2 : ℚ) ^ e * 2 ^ (-e).toNat = 1 := by
      rw [← zpow_natCast, Int.toNat_of_nonneg (by omega), ← zpow_add₀ two_ne_zero, add_neg_cancel, zpow_zero]
    push_cast
    calc (n : ℚ) = n / d * d * (2 ^ e * 2 ^ (-e).toNat) := by rw [hpow]; field_simp
      _ = n / d * 2 ^ e * (d * 2 ^ (-e).toNat) := by ring

theorem two_pow_mul_zpow (n : Nat) (q : Int) : ((2 ^ n : Nat) : ℚ) * 2 ^ q = 2 ^ (n + q) := by
  rw [zpow_add₀ two_ne_zero, zpow_natCast, Nat.cast_pow, Nat.cast_ofNat]

/-! ### Rounding to the nearest integer -/

/-- Round to nearest gives an integer that is nearest to the quotient. -/
theorem roundQ_nearest (neg : Bool) (n d : Nat) (hd : 0 < d) (k : Int) :
    |(n : Int) - roundQ 0 neg n d * d| ≤ |(n : Int) - k * d| := by
  have hdiv : (n : Int) = d * (n / d : Nat) + (n % d : Nat) := by exact_mod_cast (Nat.div_add_mod n d).symm
  have hmod : n % d < d := Nat.mod_lt _ hd
  have hk : k * d ≤ (n / d : Nat) * d ∨ (n / d : Nat) * d + d ≤ k * d := by
    rcases le_or_gt k (n / d : Nat) with h | h
    · exact .inl (mul_le_mul_of_nonneg_right h (by positivity))
    · refine .inr ?_
      calc ((n / d : Nat) : Int) * d + d = ((n / d : Nat) + 1) * d := by ring
        _ ≤ k * d := mul_le_mul_of_nonneg_right h (by positivity)
  have hr : roundQ 0 neg n d = n / d ∧ 2 * (n % d) ≤ d ∨ roundQ 0 neg n d = n / d + 1 ∧ d ≤ 2 * (n % d) := by
    unfold roundQ
    by_cases hr0 : n % d = 0
    · exact .inl ⟨by rw [if_pos hr0], by omega⟩
    · simp only [if_neg hr0]
      split
      · exact .inl ⟨rfl, by omega⟩
      · split
        · exact .inr ⟨rfl, by omega⟩
        · rcases Nat.mod_two_eq_zero_or_one (n / d) with h2 | h2
          · exact .inl ⟨by omega, by omega⟩
          · exact .inr ⟨by omega, by omega⟩
  have hcomm : (d : Int) * (n / d : Nat) = (n / d : Nat) * d := mul_comm _ _
  have hdist := abs_cases ((n : Int) - k * d)
  have hdist' := abs_cases ((n : Int) - roundQ 0 neg n d * d)
  rw [hcomm] at hdiv
  rcases hr with ⟨hr, hlt⟩ | ⟨hr, hlt⟩
  · rw [hr] at hdist' ⊢
    omega
  · have hnext : ((n / d + 1 : Nat) : Int) * d = (n / d : Nat) * d + d := by push_cast; ring
    rw [hr, hnext] at hdist' ⊢
    omega

/-- The integer that a magnitude is rounded to is nearest to it, as rationals. -/
theorem roundQ_nearest_rat (neg : Bool) (n d : Nat) (hd : 0 < d) (x : ℚ) (hx : (n : ℚ) = x * d) (k : Int) :
    |x - roundQ 0 neg n d| ≤ |x - k| := by
  have hd' : (0 : ℚ) < d := by exact_mod_cast hd
  have hint : |(n : ℚ) - roundQ 0 neg n d * d| ≤ |(n : ℚ) - k * d| := by exact_mod_cast roundQ_nearest neg n d hd k
  rw [hx, ← sub_mul, ← sub_mul, abs_mul, abs_mul] at hint
  exact le_of_mul_le_mul_right hint (abs_pos.2 hd'.ne')

/-! ### The finite values of FP32 -/

/-- A multiple of a power of two that FP32 can hold: 24 bits of significand, not below the least exponent. -/
def Holds32 (z : ℚ) : Prop := ∃ (k : Int) (j : Int), |k| < 2 ^ 24 ∧ -149 ≤ j ∧ z = k * 2 ^ j

theorem mag32_eq (c : Nat) : fp32.mag c =
    if c / 2 ^ 23 % 2 ^ 8 = 0 then (c % 2 ^ 23, -149) else (2 ^ 23 + c % 2 ^ 23, ((c / 2 ^ 23 % 2 ^ 8 : Nat) : Int) - 127 - 23) := rfl

theorem pack32_eq (sig : Nat) (q : Int) : fp32.pack sig q =
    if sig < 2 ^ 23 then sig else if sig < 2 ^ 24 then (q + 23 + 127).toNat * 2 ^ 23 + (sig - 2 ^ 23)
      else (q + 1 + 23 + 127).toNat * 2 ^ 23 + (sig / 2 - 2 ^ 23) := rfl

/-- A code of FP32 decodes by its exponent: the top one is of infinities and NaN. -/
theorem dec32_eq (c : Nat) : fp32.dec c =
    if c % 2 ^ 31 / 2 ^ 23 = 255 then (if c % 2 ^ 31 % 2 ^ 23 = 0 then .inf (tbit c 31) else .nan)
    else .num (tbit c 31) (fp32.mag (c % 2 ^ 31)).1 (fp32.mag (c % 2 ^ 31)).2 := by
  have hdec : fp32.dec c = match (if c % 2 ^ 31 / 2 ^ 23 = 255 then (if c % 2 ^ 31 % 2 ^ 23 = 0 then some (FV.inf (tbit c 31)) else some .nan)
    else none) with
    | some v => v
    | none => .num (tbit c 31) (fp32.mag (c % 2 ^ 31)).1 (fp32.mag (c % 2 ^ 31)).2 := rfl
  rw [hdec]
  split_ifs <;> rfl

/-- Significand and exponent of a finite code: 24 bits, at least the least exponent. -/
theorem mag32_bounds (c : Nat) : (fp32.mag c).1 < 2 ^ 24 ∧ -149 ≤ (fp32.mag c).2 := by
  have hm : c % 2 ^ 23 < 2 ^ 23 := Nat.mod_lt _ (by norm_num)
  by_cases he : c / 2 ^ 23 % 2 ^ 8 = 0
  · rw [mag32_eq, if_pos he]
    exact ⟨by omega, by norm_num⟩
  · rw [mag32_eq, if_neg he]
    exact ⟨by omega, by omega⟩

theorem dec32_finite (c : Nat) {s : Bool} {m : Nat} {e : Int} (h : fp32.dec c = .num s m e) : m < 2 ^ 24 ∧ -149 ≤ e := by
  have hb := mag32_bounds (c % 2 ^ 31)
  rw [dec32_eq] at h
  split_ifs at h
  cases h
  exact hb

theorem holds32_dec (c : Nat) {s : Bool} {m : Nat} {e : Int} (h : fp32.dec c = .num s m e) : Holds32 (ratOf (.num s m e)) := by
  obtain ⟨hm, he⟩ := dec32_finite c h
  refine ⟨(if s then -1 else 1) * m, e, ?_, he, ?_⟩
  · have hm' : (m : Int) < 2 ^ 24 := by exact_mod_cast hm
    cases s <;> simpa using hm'
  · rw [ratOf_num]; cases s <;> push_cast <;> ring

/-- A code below that of infinity, with a sign, is a finite value. -/
theorem dec32_withSign (neg : Bool) (c : Nat) (h : c < 0x7F800000) : fp32.dec (fp32.withSign neg c) = .num neg (fp32.mag c).1 (fp32.mag c).2 := by
  have hlow : fp32.withSign neg c % 2 ^ 31 = c := by cases neg <;> simp [Fmt.withSign, fp32, Fmt.low] <;> omega
  have hneg : tbit (fp32.withSign neg c) 31 = neg := by
    cases neg <;> simp [Fmt.withSign, fp32, Fmt.low, tbit] <;> omega
  rw [dec32_eq, hlow, hneg, if_neg (by omega)]

theorem mag32_low (c : Nat) (h : c < 2 ^ 23) : fp32.mag c = (c, -149) := by
  have he : c / 2 ^ 23 % 2 ^ 8 = 0 := by omega
  rw [mag32_eq, if_pos he, Nat.mod_eq_of_lt h]

theorem mag32_normal (b m : Nat) (hb : 0 < b) (hb' : b < 255) (hm : m < 2 ^ 23) : fp32.mag (b * 2 ^ 23 + m) = (2 ^ 23 + m, (b : Int) - 150) := by
  have hexp : (b * 2 ^ 23 + m) / 2 ^ 23 = b := by omega
  have hsig : (b * 2 ^ 23 + m) % 2 ^ 23 = m := by omega
  have he : ¬b % 2 ^ 8 = 0 := by omega
  rw [mag32_eq, hexp, hsig, if_neg he, Nat.mod_eq_of_lt (show b < 2 ^ 8 by omega), sub_sub]
  rfl

/-- THE CODE OF A SIGNIFICAND of at most 24 bits, full unless its exponent is the least, is finite and decodes to its value. -/
theorem pack32_value (sig : Nat) (q : Int) (hsig : sig ≤ 2 ^ 24) (hq : -149 ≤ q) (hq' : q ≤ 104) (hfull : sig < 2 ^ 23 → q = -149)
    (hfit : q = 104 → sig < 2 ^ 24) :
    fp32.pack sig q < 0x7F800000 ∧
      ((fp32.mag (fp32.pack sig q)).1 : ℚ) * 2 ^ (fp32.mag (fp32.pack sig q)).2 = sig * 2 ^ q := by
  rcases lt_or_ge sig (2 ^ 23) with hlow | hnorm
  · have hpack : fp32.pack sig q = sig := by rw [pack32_eq, if_pos hlow]
    rw [hpack, mag32_low sig hlow, hfull hlow]
    exact ⟨by omega, rfl⟩
  rcases lt_or_ge sig (2 ^ 24) with hfits | htop
  · have hpack : fp32.pack sig q = (q + 150).toNat * 2 ^ 23 + (sig - 2 ^ 23) := by
      rw [pack32_eq, if_neg (Nat.not_lt.2 hnorm), if_pos hfits, add_assoc]
      rfl
    rw [hpack, mag32_normal _ _ (by omega) (by omega) (by omega)]
    refine ⟨by omega, ?_⟩
    rw [Nat.add_sub_cancel' hnorm, Int.toNat_of_nonneg (by omega), add_sub_cancel_right]
  · have htop' : sig = 2 ^ 24 := le_antisymm hsig htop
    subst htop'
    have hq104 : q < 104 := lt_of_le_of_ne hq' fun h => absurd (hfit h) (by norm_num)
    have hpack : fp32.pack (2 ^ 24) q = (q + 151).toNat * 2 ^ 23 + 0 := by
      rw [pack32_eq, if_neg (by norm_num), if_neg (by norm_num), add_assoc, add_assoc]
      rfl
    rw [hpack, mag32_normal _ _ (by omega) (by omega) (by norm_num)]
    refine ⟨by omega, ?_⟩
    rw [Int.toNat_of_nonneg (by omega), show q + 151 - 150 = q + 1 by ring, zpow_add_one₀ two_ne_zero]
    push_cast
    ring

/-! ### Rounding a magnitude into FP32 -/

theorem ilog_one (m : Nat) (hm : m ≠ 0) : ilog m 1 = Nat.log2 m := by
  have hle : 2 ^ Nat.log2 m ≤ m := Nat.log2_self_le hm
  have hone : Nat.log2 1 = 0 := rfl
  have hp : (scaleQ m 1 (-(Nat.log2 m : Int))).2 ≤ (scaleQ m 1 (-(Nat.log2 m : Int))).1 := by
    unfold scaleQ
    split
    · have : 1 ≤ m := Nat.pos_of_ne_zero hm
      exact le_trans this (Nat.le_mul_of_pos_right _ (by positivity))
    · simpa using hle
  simp only [ilog, hone, Nat.cast_zero, sub_zero]
  rw [if_pos hp]

/-- The exponent that `roundMag` takes is where the highest bit of the value stands. -/
theorem between_powers (m : Nat) (e : Int) (hm : m ≠ 0) :
    (2 : ℚ) ^ (Nat.log2 m + e) ≤ m * 2 ^ e ∧ (m : ℚ) * 2 ^ e < 2 ^ (Nat.log2 m + e + 1) := by
  have hlo : ((2 ^ Nat.log2 m : Nat) : ℚ) ≤ m := by exact_mod_cast Nat.log2_self_le hm
  have hhi : (m : ℚ) < ((2 ^ (Nat.log2 m + 1) : Nat) : ℚ) := by exact_mod_cast Nat.lt_log2_self
  have hpos : (0 : ℚ) < 2 ^ e := by positivity
  push_cast at hlo hhi
  constructor
  · rw [zpow_add₀ two_ne_zero, zpow_natCast]
    exact mul_le_mul_of_nonneg_right hlo hpos.le
  · rw [show (Nat.log2 m : Int) + e + 1 = ((Nat.log2 m + 1 : Nat) : Int) + e by push_cast; ring, zpow_add₀ two_ne_zero, zpow_natCast]
    exact mul_lt_mul_of_pos_right hhi hpos

/-- The exponent at which `roundMag` rounds into FP32 a value whose highest bit stands at `ex`. -/
def lsb32 (ex : Int) : Int := max (ex - 23) (-149)

/-- WHAT ROUNDING AT AN EXPONENT GIVES: an integer that is nearest to the scaled value. -/
def RoundsAt (x : ℚ) (q : Int) (sig : Nat) : Prop := ∀ k : Int, |x / 2 ^ q - sig| ≤ |x / 2 ^ q - k|

theorem roundsAt_roundQ (neg : Bool) (m : Nat) (e q : Int) :
    RoundsAt (m * 2 ^ e) q (roundQ 0 neg (scaleQ m 1 (e - q)).1 (scaleQ m 1 (e - q)).2) := by
  obtain ⟨hd, hn⟩ := scaleQ_spec m 1 (e - q) one_pos
  have hx : (m : ℚ) / (1 : Nat) * 2 ^ (e - q) = m * 2 ^ e / 2 ^ q := by rw [Nat.cast_one, div_one, zpow_sub₀ two_ne_zero, mul_div_assoc]
  rw [hx] at hn
  exact roundQ_nearest_rat neg _ _ hd _ hn

/-- A rounded value lies at or below any integer bound of the value, and at or above any. -/
theorem RoundsAt.le {x : ℚ} {q : Int} {sig : Nat} (h : RoundsAt x q sig) {b : Nat} (hb : x ≤ b * 2 ^ q) : sig ≤ b := by
  have hpos : (0 : ℚ) < 2 ^ q := by positivity
  have hy : x / 2 ^ q ≤ b := (div_le_iff₀ hpos).2 hb
  have hn := h b
  rw [Int.cast_natCast, abs_sub_comm _ (b : ℚ), abs_of_nonneg (sub_nonneg.2 hy)] at hn
  have := neg_le_of_abs_le hn
  exact_mod_cast (by linarith : (sig : ℚ) ≤ b)

theorem RoundsAt.ge {x : ℚ} {q : Int} {sig : Nat} (h : RoundsAt x q sig) {b : Nat} (hb : b * 2 ^ q ≤ x) : b ≤ sig := by
  have hpos : (0 : ℚ) < 2 ^ q := by positivity
  have hy : (b : ℚ) ≤ x / 2 ^ q := (le_div_iff₀ hpos).2 hb
  have hn := h b
  rw [Int.cast_natCast, abs_of_nonneg (sub_nonneg.2 hy)] at hn
  have := le_of_abs_le hn
  exact_mod_cast (by linarith : (b : ℚ) ≤ sig)

/-- Among the multiples of the unit at which the value is rounded, the rounded one is nearest. -/
theorem RoundsAt.nearest {x : ℚ} {q : Int} {sig : Nat} (h : RoundsAt x q sig) (k : Int) : |x - sig * 2 ^ q| ≤ |x - k * 2 ^ q| := by
  have hpos : (0 : ℚ) < 2 ^ q := by positivity
  have hscale (y : ℚ) : |x - y * 2 ^ q| = |x / 2 ^ q - y| * 2 ^ q := by
    rw [← abs_of_pos hpos, ← abs_mul, abs_of_pos hpos, sub_mul, div_mul_cancel₀ _ hpos.ne']
  rw [hscale, hscale]
  exact mul_le_mul_of_nonneg_right (h k) hpos.le

/-- THE ROUNDED VALUE IS NEAREST among all that FP32 holds: a finer multiple than the unit lies below the value's highest bit. -/
theorem RoundsAt.nearest_of_holds {x : ℚ} {ex : Int} {sig : Nat} (h : RoundsAt x (lsb32 ex) sig) (hx : (2 : ℚ) ^ ex ≤ x) {z : ℚ} (hz : Holds32 z) :
    |x - sig * 2 ^ lsb32 ex| ≤ |x - z| := by
  obtain ⟨k, j, hk, hj, rfl⟩ := hz
  rcases le_or_gt (lsb32 ex) j with hle | hlt
  · have hmul : (k : ℚ) * 2 ^ j = ((k * 2 ^ (j - lsb32 ex).toNat : Int) : ℚ) * 2 ^ lsb32 ex := by
      push_cast
      rw [mul_assoc, ← zpow_natCast (2 : ℚ), Int.toNat_of_nonneg (by omega), ← zpow_add₀ two_ne_zero, sub_add_cancel]
    rw [hmul]
    exact h.nearest _
  · have hq : lsb32 ex = ex - 23 := by unfold lsb32 at hlt ⊢; omega
    have htop : ((2 ^ 23 : Int) : ℚ) * 2 ^ lsb32 ex = 2 ^ ex := by
      rw [hq, show ((2 ^ 23 : Int) : ℚ) = ((2 ^ 23 : Nat) : ℚ) by norm_num, two_pow_mul_zpow]
      congr 1
      push_cast
      ring
    have hk' : (k : ℚ) ≤ 2 ^ (24 : Int) := by
      have : k ≤ 2 ^ 24 := le_trans (le_abs_self k) hk.le
      exact_mod_cast this
    have hz : (k : ℚ) * 2 ^ j ≤ 2 ^ ex := by
      calc (k : ℚ) * 2 ^ j ≤ 2 ^ (24 : Int) * 2 ^ j := mul_le_mul_of_nonneg_right hk' (by positivity)
        _ = 2 ^ (24 + j) := (zpow_add₀ two_ne_zero _ _).symm
        _ ≤ 2 ^ ex := zpow_le_zpow_right₀ one_le_two (by omega)
    have hn := h.nearest (2 ^ 23)
    rw [htop, abs_of_nonneg (sub_nonneg.2 hx)] at hn
    exact le_trans hn (le_trans (by linarith) (le_abs_self _))

/-- The largest finite value of FP32. -/
theorem max32 : ratOf (fp32.dec 0x7F7FFFFF) = (2 ^ 24 - 1) * 2 ^ (104 : Int) := by
  have hdec : fp32.dec 0x7F7FFFFF = .num false (2 ^ 24 - 1) 104 := by decide
  rw [hdec, ratOf_num]
  norm_num

/-- ROUNDING A MAGNITUDE that does not exceed the largest finite value of FP32 gives a finite code, which decodes to a nearest value. -/
theorem roundMag32 (neg : Bool) (m : Nat) (e : Int) (hmax : (m : ℚ) * 2 ^ e ≤ (2 ^ 24 - 1) * 2 ^ (104 : Int)) :
    ∃ c, fp32.roundMag 0 neg m 1 e = some c ∧ c < 0x7F800000 ∧
      ∀ z, Holds32 z → |(m : ℚ) * 2 ^ e - (fp32.mag c).1 * 2 ^ (fp32.mag c).2| ≤ |(m : ℚ) * 2 ^ e - z| := by
  by_cases hm : m = 0
  · subst hm
    exact ⟨0, rfl, by norm_num, fun z _ => by rw [mag32_low 0 (by norm_num)]; simp⟩
  obtain ⟨hlo, hhi⟩ := between_powers m e hm
  set ex : Int := Nat.log2 m + e with hex
  set sig : Nat := roundQ 0 neg (scaleQ m 1 (e - lsb32 ex)).1 (scaleQ m 1 (e - lsb32 ex)).2 with hsig
  have hround : RoundsAt (m * 2 ^ e) (lsb32 ex) sig := roundsAt_roundQ neg m e (lsb32 ex)
  have hex127 : ex ≤ 127 := by
    have hlt : (2 : ℚ) ^ ex < 2 ^ (128 : Int) := lt_of_le_of_lt (le_trans hlo hmax) (by norm_num)
    have := (zpow_lt_zpow_iff_right₀ (one_lt_two : (1 : ℚ) < 2)).1 hlt
    omega
  have hq : -149 ≤ lsb32 ex ∧ lsb32 ex ≤ 104 := by unfold lsb32; omega
  have hle : sig ≤ 2 ^ 24 := hround.le (by
    rw [two_pow_mul_zpow]
    exact le_trans hhi.le (zpow_le_zpow_right₀ one_le_two (by unfold lsb32; push_cast; omega)))
  have hfull : sig < 2 ^ 23 → lsb32 ex = -149 := fun hlow => by
    by_contra hne
    have hqex : lsb32 ex = ex - 23 := by unfold lsb32 at hne ⊢; omega
    refine absurd (hround.ge (b := 2 ^ 23) ?_) (Nat.not_le.2 hlow)
    rw [two_pow_mul_zpow, hqex]
    exact le_trans (zpow_le_zpow_right₀ one_le_two (by push_cast; omega)) hlo
  have hfit : lsb32 ex = 104 → sig < 2 ^ 24 := fun h104 => by
    have : sig ≤ 2 ^ 24 - 1 := hround.le (by rw [h104]; norm_num at hmax ⊢; exact hmax)
    omega
  obtain ⟨hcode, hval⟩ := pack32_value sig (lsb32 ex) hle hq.1 hq.2 hfull hfit
  refine ⟨fp32.pack sig (lsb32 ex), ?_, hcode, fun z hz => by rw [hval]; exact hround.nearest_of_holds hlo hz⟩
  -- no overflow: the rounded value is not above the largest finite one
  have hfits : ¬(2 ^ 24 - 1) * (scaleQ sig 1 (lsb32 ex - 104)).2 < (scaleQ sig 1 (lsb32 ex - 104)).1 := by
    obtain ⟨hd, hn⟩ := scaleQ_spec sig 1 (lsb32 ex - 104) one_pos
    have hsmall : (sig : ℚ) / (1 : Nat) * 2 ^ (lsb32 ex - 104) ≤ 2 ^ 24 - 1 := by
      rw [Nat.cast_one, div_one]
      rcases eq_or_lt_of_le hq.2 with h104 | h104
      · have : (sig : ℚ) ≤ 2 ^ 24 - 1 := by
          have := hfit h104
          exact_mod_cast (by omega : (sig : Int) ≤ 2 ^ 24 - 1)
        rw [h104, sub_self, zpow_zero, mul_one]
        exact this
      · have hhalf : (2 : ℚ) ^ (lsb32 ex - 104) ≤ 2 ^ (-1 : Int) := zpow_le_zpow_right₀ one_le_two (by omega)
        have hs : (sig : ℚ) ≤ 2 ^ 24 := by exact_mod_cast hle
        calc (sig : ℚ) * 2 ^ (lsb32 ex - 104) ≤ 2 ^ 24 * 2 ^ (-1 : Int) := mul_le_mul hs hhalf (by positivity) (by positivity)
          _ ≤ 2 ^ 24 - 1 := by norm_num
    rw [not_lt]
    have : ((scaleQ sig 1 (lsb32 ex - 104)).1 : ℚ) ≤ (2 ^ 24 - 1) * (scaleQ sig 1 (lsb32 ex - 104)).2 := by
      rw [hn]; exact mul_le_mul_of_nonneg_right hsmall (by positivity)
    have hz : ((scaleQ sig 1 (lsb32 ex - 104)).1 : Int) ≤ (2 ^ 24 - 1) * (scaleQ sig 1 (lsb32 ex - 104)).2 := by exact_mod_cast this
    omega
  have hmx : fp32.mag fp32.maxCode = (2 ^ 24 - 1, 104) := by decide
  have hunfold : fp32.roundMag 0 neg m 1 e = if m = 0 then some 0
      else if (fp32.mag fp32.maxCode).1 * (scaleQ (roundQ 0 neg (scaleQ m 1 (e - lsb32 (ilog m 1 + e))).1 (scaleQ m 1 (e - lsb32 (ilog m 1 + e))).2) 1
          (lsb32 (ilog m 1 + e) - (fp32.mag fp32.maxCode).2)).2 <
        (scaleQ (roundQ 0 neg (scaleQ m 1 (e - lsb32 (ilog m 1 + e))).1 (scaleQ m 1 (e - lsb32 (ilog m 1 + e))).2) 1
          (lsb32 (ilog m 1 + e) - (fp32.mag fp32.maxCode).2)).1 then none
      else some (fp32.pack (roundQ 0 neg (scaleQ m 1 (e - lsb32 (ilog m 1 + e))).1 (scaleQ m 1 (e - lsb32 (ilog m 1 + e))).2)
        (lsb32 (ilog m 1 + e))) := rfl
  rw [hunfold, if_neg hm, ilog_one m hm, ← hex, ← hsig, hmx, if_neg hfits]

/-- CONVERSION of a number that does not exceed the finite values of FP32: a finite value, and no finite value lies nearer. -/
theorem conv32_nearest (s : Bool) (m : Nat) (e : Int) (hmax : apart (ratOf (.num s m e)) 0 ≤ ratOf (fp32.dec 0x7F7FFFFF)) :
    (∃ s' m' e', fp32.dec (fp32.conv 0 false (.num s m e)) = .num s' m' e') ∧
    ∀ z, Holds32 z → apart (ratOf (.num s m e)) (ratOf (fp32.dec (fp32.conv 0 false (.num s m e)))) ≤ apart (ratOf (.num s m e)) z := by
  have hsign (σ : Bool) (y : ℚ) : |(if σ then -1 else 1) * y| = |y| := by cases σ <;> simp
  have hnonneg : (0 : ℚ) ≤ (m : ℚ) * 2 ^ e := by positivity
  rw [apart_eq_abs, sub_zero, ratOf_num, hsign, abs_of_nonneg hnonneg, max32] at hmax
  obtain ⟨c, hc, hlt, hnear⟩ := roundMag32 s m e hmax
  have hconv : fp32.conv 0 false (.num s m e) = fp32.withSign s c := by
    simp only [Fmt.conv, Fmt.convQ, hc]
    simp [fp32]
  rw [hconv, dec32_withSign s c hlt]
  refine ⟨⟨_, _, _, rfl⟩, fun z hz => ?_⟩
  -- the sign of the number may be moved to the value that is compared
  have hz' : Holds32 ((if s then -1 else 1) * z) := by
    obtain ⟨k, j, hk, hj, rfl⟩ := hz
    refine ⟨(if s then -1 else 1) * k, j, ?_, hj, ?_⟩
    · cases s <;> simpa using hk
    · cases s <;> simp
  have hflip : |(m : ℚ) * 2 ^ e - (if s then -1 else 1) * z| = |(if s then -1 else 1) * ((m : ℚ) * 2 ^ e) - z| := by
    cases s
    · simp
    · rw [if_pos rfl, ← abs_neg]; congr 1; ring
  rw [apart_eq_abs, apart_eq_abs, ratOf_num, ratOf_num, ← mul_sub, hsign, ← hflip]
  exact hnear _ hz'

/-! ### NaN -/

theorem fround32_nan (fm : Word) : fround fm fp32 .nan = 0x7FC00000 := by
  have hsub : fp32.isSub fp32.nanCode = false := by decide
  have hcode : fp32.nanCode = 0x7FC00000 := by decide
  simp only [fround, Fmt.ftzo, Fmt.conv, hsub, Bool.and_false, Bool.false_eq_true, if_false]
  exact hcode

theorem fpuAdd_nan {fm a b : Word} (h : (in32 fm a).isNan = true) : fpuAdd fm a b = 0x7FC00000 := by
  cases ha : in32 fm a with
  | nan => simp only [fpuAdd, ha, FV.add, out32, fround32_nan]; rfl
  | inf n => rw [ha] at h; cases h
  | num n m e => rw [ha] at h; cases h

theorem fpuMul_nan {fm a b : Word} (h : (in32 fm a).isNan = true) : fpuMul fm a b = 0x7FC00000 := by
  cases ha : in32 fm a with
  | nan => simp only [fpuMul, ha, FV.mul, out32, fround32_nan]; rfl
  | inf n => rw [ha] at h; cases h
  | num n m e => rw [ha] at h; cases h

/-- Settles O60: rounding at the unit of the value's highest bit is nearest among all that FP32 holds. -/
theorem conversionRounds : Obligations.ConversionRounds := by
  unfold Obligations.ConversionRounds
  refine ⟨fun s m e hmax => ?_, fun rm nsat => ?_, fun fm a b h => ⟨fpuAdd_nan h, fpuMul_nan h⟩⟩
  · obtain ⟨hfin, hnear⟩ := conv32_nearest s m e hmax
    exact ⟨hfin, fun c s' m' e' _ hc => hnear _ (holds32_dec c hc)⟩
  · exact ⟨rfl, rfl, rfl, rfl, rfl⟩

end Sys2Proof.Machine
end

section
/-! SUPPORT. Posts to the engines (spec/17 R407-R411, R420, R423, spec/16 R400): what a post leaves when it is accepted. -/

namespace Sys2Proof.Machine

/-! ### A post that is accepted -/

/-- What the post of a quarter keeps of the state before its flight enters: threads, quarters, launches, the cycle and memory. -/
structure PostFrame (a b : Mach) : Prop where
  threads : b.threads = a.threads
  quarters : b.quarters = a.quarters
  launches : b.launches = a.launches
  cycle : b.cycle = a.cycle
  mem : b.mem = a.mem

theorem PostFrame.refl (a : Mach) : PostFrame a a := ⟨rfl, rfl, rfl, rfl, rfl⟩

theorem PostFrame.trans {a b c : Mach} (h : PostFrame a b) (k : PostFrame b c) : PostFrame a c :=
  ⟨k.threads.trans h.threads, k.quarters.trans h.quarters, k.launches.trans h.launches, k.cycle.trans h.cycle, k.mem.trans h.mem⟩

theorem PostFrame.thr? {a b : Mach} (h : PostFrame a b) (k : Nat) : b.thr? k = a.thr? k := by rw [Mach.thr?, Mach.thr?, h.threads]

theorem PostFrame.thr {a b : Mach} (h : PostFrame a b) (k : Nat) : b.thr k = a.thr k := by rw [Mach.thr, Mach.thr, h.thr?]

theorem PostFrame.lowestOf {a b : Mach} (h : PostFrame a b) (q : Quarter) : b.lowestOf q = a.lowestOf q := by
  simp only [Mach.lowestOf, Mach.inOrder, h.thr]

theorem PostFrame.launch {a b : Mach} (h : PostFrame a b) (l : Nat) : b.launch l = a.launch l := by
  rw [Mach.launch, Mach.launch, Mach.launch?, Mach.launch?, h.launches]

theorem PostFrame.launch? {a b : Mach} (h : PostFrame a b) (l : Nat) : b.launch? l = a.launch? l := by
  rw [Mach.launch?, Mach.launch?, h.launches]

/-- The machine after a post of the quarter: the one before, but for threads, quarters, keys and one more flight. -/
def PostLeft (m m' : Mach) : Prop :=
  m' = { m with threads := m'.threads, quarters := m'.quarters, free := m'.free, next := m'.next, flights := m'.flights, fired := [], cxlErrs := [] }

/-- ONE FLIGHT OF THE QUARTER WITH NOTHING TO DO, and its advance, from a machine in the frame of a post. -/
theorem group_left {s : State} {q : Quarter} {m : Mach} {h : Hdr} {i : Instr} (shift : Bool) (g : Flight → Flight) (hr : Running s q)
    (hne : q.tids ≠ []) (hf : PostFrame s.mach m) (hg : ∀ f, (g f).uid = f.uid) :
    let f := flightOf (m.take 1) q h i m.next (s.mach.lowestOf q) q.tids [] false
    let t := State.settle { s with mach := ((m.take 1).addFlight q h i m.next (m.lowestOf q) q.tids [] shift false g).goOn q.id m.next h.look.toNat }
    g f ∈ t.mach.flights ∧ (∀ k ∈ q.tids, Issued q h shift f.uid s.mach.cycle (if k = s.mach.lowestOf q then [] else []) (s.mach.thr k) (t.mach.thr k)) ∧
    (∀ a, t.mach.mem.read a = s.mach.mem.read a) ∧ (∀ k, k ∉ q.tids → t.mach.thr? k = s.mach.thr? k) ∧
    (∀ k, k ≠ q.id → t.mach.quarter? k = s.mach.quarter? k) ∧
    (∃ q', t.mach.quarter? q.id = some q' ∧ q'.pc = q.pc + 8 ∧ q'.slots = q.slots) ∧ PostLeft m t.mach := by
  obtain ⟨hissued, hthr, hq, ⟨q', hfind, hpc, hslots, -, -⟩, hleft⟩ := group_spec s q (m.take 1) h i m.next h.look.toNat [] shift false g hr hne
    hf.thr? hf.quarters hf.launches hf.cycle hg
  rw [← hf.lowestOf] at hissued hthr hq hfind hleft
  intro f t
  have hmach : t.mach = { ((m.take 1).addFlight q h i m.next (m.lowestOf q) q.tids [] shift false g).goOn q.id m.next h.look.toNat with
    fired := [], cxlErrs := [] } := rfl
  have hlow : f = flightOf (m.take 1) q h i m.next (m.lowestOf q) q.tids [] false := by rw [hf.lowestOf]
  generalize ((m.take 1).addFlight q h i m.next (m.lowestOf q) q.tids [] shift false g).goOn q.id m.next h.look.toNat = m2 at *
  have hflights : t.mach.flights = m.flights ++ [g f] := by rw [hmach, hlow]; exact congrArg Mach.flights hleft
  have hfree : m2.free = _ := congrArg Mach.free hleft
  refine ⟨?_, ?_, fun a => ?_, ?_, ?_, ⟨q', ?_, hpc, hslots⟩, ?_⟩
  · rw [hflights]; exact List.mem_append_right _ List.mem_cons_self
  · intro k hk
    have hk' := hissued k hk
    rw [ite_self] at hk' ⊢
    have hsame : t.mach.thr k = m2.thr k := by rw [hmach]; rfl
    rw [hsame]
    exact hk'
  · rw [hmach, ← hf.mem]
    exact (congrArg (fun m : Mach => m.mem.read a) hleft :)
  · intro k hk; rw [hmach]; exact hthr k hk
  · intro k hk; rw [hmach]; exact hq k hk
  · rw [hmach]; exact hfind
  · unfold PostLeft
    rw [hflights, hlow]
    rw [hmach]
    refine (congrArg (fun m : Mach => { m with fired := [], cxlErrs := [] }) hleft).trans ?_
    dsimp only
    rw [hfree]
    rfl

/-- A POST IS ACCEPTED where its unit's part leaves the frame of a post; what the unit's part has left else, the state keeps. -/
theorem accepts_of_accepted {i : Instr} {h : Hdr} {ok : State → Quarter → Prop} {eff : State → Quarter → State → Prop} (M : State → Quarter → Mach)
    (he : ∀ s q, Running s q → q.tids ≠ [] → ok s q → exec i s = .next (State.settle { s with mach := (M s q).accepted q h i }))
    (hf : ∀ s q, Running s q → q.tids ≠ [] → ok s q → PostFrame s.mach (M s q))
    (heff : ∀ s q t, Running s q → q.tids ≠ [] → ok s q → PostLeft (M s q) t.mach → eff s q t) : Accepts i h ok eff := by
  intro s q hr hne hok
  obtain ⟨hmem, hissued, hread, hthr, hq, hq', hleft⟩ := group_left (h := h) (i := i) false (fun f => f) hr hne (hf s q hr hne hok) fun _ => rfl
  exact ⟨_, he s q hr hne hok, ⟨_, ⟨hmem, rfl, rfl, rfl, rfl, hissued⟩, rfl⟩, hread, hthr, hq, hq', heff s q _ hr hne hok hleft⟩

/-- The answers of one instruction to several threads. -/
theorem answers_writes (d : Spec) (ws : Nat → List Word) (ids : List Nat) : ∀ g : Flight,
    (ids.foldl (fun g k => g.answer k d (ws k) []) g).writes = g.writes ++ ids.map (fun k => (k, spWords d (ws k))) ∧
    ∃ w x, ids.foldl (fun g k => g.answer k d (ws k) []) g = { g with writes := w, xres := x } := by
  induction ids with
  | nil => exact fun g => ⟨(List.append_nil _).symm, g.writes, g.xres, rfl⟩
  | cons k ids ih =>
    intro g
    obtain ⟨hw, w, x, hfold⟩ := ih (g.answer k d (ws k) [])
    refine ⟨?_, w, x, ?_⟩
    · rw [List.foldl_cons, hw, List.map_cons, List.append_cons]
      simp only [Flight.answer, List.append_nil]
    · rw [List.foldl_cons, hfold]; rfl

/-- A WAIT THAT PASSES WITH RESULTS, from a machine in the frame of a post: one finished flight with the words of each thread, and the copies
of the core are dropped. -/
theorem passWait_left {s : State} {q : Quarter} {m : Mach} {h : Hdr} {i : Instr} (d : Spec) (ws : Nat → List Word) (hr : Running s q)
    (hne : q.tids ≠ []) (hf : PostFrame s.mach m) :
    let t := State.settle { s with mach := m.passWait q.id h i (some d) ws }
    MemoryKept s t ∧ (∃ f, GroupFlight s t q h i true [] f ∧ f.done = true ∧ f.writes = q.tids.map fun k => (k, spWords d (ws k))) ∧
    PostLeft (m.dropCopies q.core) t.mach := by
  have hq : m.quarter? q.id = some q := by
    rw [Mach.quarter?, hf.quarters, quarter?_id hr.1]; exact hr.1
  have hdrop : PostFrame s.mach (m.dropCopies q.core) := hf.trans ⟨rfl, rfl, rfl, rfl, rfl⟩
  have hans := answers_writes d ws q.tids
  obtain ⟨hmem, hissued, hread, -, -, -, hleft⟩ := group_left (h := h) (i := i) true (fun f => q.tids.foldl (fun g k => g.answer k d (ws k) []) f)
    hr hne hdrop fun f => by obtain ⟨-, w, x, hfold⟩ := hans f; rw [hfold]
  have hpass : m.passWait q.id h i (some d) ws = ((((m.dropCopies q.core).take 1).addFlight q h i (m.dropCopies q.core).next
      ((m.dropCopies q.core).lowestOf q) q.tids [] true false fun f => q.tids.foldl (fun g k => g.answer k d (ws k) []) f).goOn q.id
      (m.dropCopies q.core).next h.look.toNat) := by simp only [Mach.passWait, hq]
  intro t
  have ht : t = State.settle { s with mach := m.passWait q.id h i (some d) ws } := rfl
  rw [hpass] at ht
  rw [← ht] at hmem hissued hread hleft
  obtain ⟨hw, w, x, hfold⟩ := hans (flightOf ((m.dropCopies q.core).take 1) q h i (m.dropCopies q.core).next (s.mach.lowestOf q) q.tids [] false)
  refine ⟨hread, ⟨_, ⟨hmem, ?_, ?_, ?_, ?_, ?_⟩, ?_, hw⟩, hleft⟩
  all_goals rw [hfold]
  · rfl
  · rfl
  · rfl
  · rfl
  · exact hissued
  · rfl

/-! ### Releases -/

theorem modWave_frame (m : Mach) (i : Nat) (f : Wave → Wave) : ∃ ws, m.modWave i f = { m with waves := ws } := by
  unfold Mach.modWave
  split
  · exact ⟨_, rfl⟩
  · exact ⟨m.waves, rfl⟩

theorem bump_frame (m : Mach) (t : Thread) (scope : Nat) : ∃ ws, m.bump t scope = { m with waves := ws } := by
  unfold Mach.bump
  split
  · exact modWave_frame m t.wave _
  · exact ⟨m.waves, rfl⟩

/-- A release of a thread changes the order of synchronising steps and the phases of waves alone. -/
theorem release_frame (m : Mach) (t : Thread) (scope : Nat) (at_ : SyncAt) :
    ∃ ws o, m.release t scope at_ = { m with waves := ws, order := o } := by
  obtain ⟨ws, hb⟩ := bump_frame (m.sync t.id scope true false at_) t scope
  exact ⟨ws, _, hb⟩

/-! ### Operations of the engines -/

/-- The operation that a post of a thread makes. -/
def postedOp (m : Mach) (t : Thread) (k : EngKind) : EngOp := (m.postEng t k).2

/-- A post to an engine's queue leaves one more operation, the next key, and what its release leaves. -/
theorem postEng_frame (m : Mach) (t : Thread) (k : EngKind) (rel : Bool) :
    (m.postEng t k rel).2 = postedOp m t k ∧ ∃ ws o, (m.postEng t k rel).1 =
      { m with waves := ws, order := o, engines := m.engines ++ [postedOp m t k], next := m.next + 1 } := by
  cases rel with
  | false => exact ⟨rfl, m.waves, m.order, rfl⟩
  | true =>
    obtain ⟨ws, o, hrel⟩ := release_frame m t 3 (.queue t.core)
    refine ⟨rfl, ws, o, ?_⟩
    show ({ m.release t 3 (.queue t.core) with engines := (m.release t 3 (.queue t.core)).engines ++ [postedOp m t k]
                                               next := (m.release t 3 (.queue t.core)).next + 1 } : Mach) = _
    rw [hrel]

theorem lowPost_eq {s : State} {q : Quarter} (h : Hdr) (i : Instr) (f : Mach → Thread → Nat → Mach) (hr : Running s q) (hlow : LowFree s q) :
    s.mach.lowPost h i f = (f s.mach (s.mach.thr (s.mach.lowestOf q)) (s.mach.thrFr (s.mach.lowestOf q))).accepted q h i := by
  have hwait : s.mach.postWaits [s.mach.lowestOf q] = false := by
    have hpend : (s.mach.thr (s.mach.lowestOf q)).pend = [] := hlow
    simp [Mach.postWaits, hpend]
  simp only [Mach.lowPost, Mach.withQ, hr.1, hwait, Bool.false_eq_true, if_false]

/-- POSTS OF ONE OPERATION: `kind` says which, from the operands of the lowest active thread. -/
theorem engPost_accepts {i : Instr} {h : Hdr} (kind : Thread → Nat → EngKind) (rel : Bool)
    (he : ∀ s, exec i s = .next (State.settle { s with mach := s.mach.lowPost h i fun m t fr => (m.postEng t (kind t fr) rel).1 })) :
    Accepts i h LowFree fun s q t =>
      PostJoined s t (s.mach.thr (s.mach.lowestOf q)) (kind (s.mach.thr (s.mach.lowestOf q)) (s.mach.thrFr (s.mach.lowestOf q))) ∧
      t.mach.ranges = s.mach.ranges := by
  refine accepts_of_accepted
    (fun s q => (s.mach.postEng (s.mach.thr (s.mach.lowestOf q)) (kind (s.mach.thr (s.mach.lowestOf q)) (s.mach.thrFr (s.mach.lowestOf q))) rel).1)
    (fun s q hr _ hlow => by rw [he, lowPost_eq h i _ hr hlow]) (fun s q _ _ _ => ?_) fun s q t _ _ _ hleft => ?_
  · obtain ⟨-, ws, o, hpost⟩ := postEng_frame s.mach (s.mach.thr (s.mach.lowestOf q))
      (kind (s.mach.thr (s.mach.lowestOf q)) (s.mach.thrFr (s.mach.lowestOf q))) rel
    rw [hpost]
    exact ⟨rfl, rfl, rfl, rfl, rfl⟩
  · obtain ⟨-, ws, o, hpost⟩ := postEng_frame s.mach (s.mach.thr (s.mach.lowestOf q))
      (kind (s.mach.thr (s.mach.lowestOf q)) (s.mach.thrFr (s.mach.lowestOf q))) rel
    rw [hpost] at hleft
    unfold PostLeft at hleft
    exact ⟨⟨postedOp s.mach _ _, (congrArg Mach.engines hleft :), rfl, rfl, rfl, rfl, rfl, rfl, rfl, rfl⟩, (congrArg Mach.ranges hleft :)⟩

/-- The range of memory that a copy of this kind writes, which its poster's own accesses are ordered with. -/
def copyRange (m : Mach) (t : Thread) (e : EngOp) (ds : Bool) (dst len : Nat) : List Range :=
  (if ds then (m.engScr e dst len).map fun l => (⟨t.core, e.id, e.fdom, l, len, true⟩ : Range)
    else some ⟨t.core, e.id, e.fdom, dst, len, false⟩).toList

/-- Where a copy's operand names scratch it is one word, else an address. -/
def copyEnd (t : Thread) (scr : Bool) (f : Nat) (x : Spec) : Nat := if scr then (t.rd f x).toNat else (t.rdPair f x).toNat

def copyLen (w : Nat) : Nat := 64 * (if w % 65536 = 0 then 65536 else w % 65536)

/-- What a `cpy` posts: its operation. -/
def copyKind (ds ss : Bool) (a b c : Spec) (t : Thread) (fr : Nat) : EngKind :=
  .cpy ds ss (copyEnd t ds fr a) (copyEnd t ss (fr + 8) b) (copyLen (t.rd (fr + 16) c).toNat) ((t.rd (fr + 16) c).toNat / 65536)

/-- The post of a `cpy`: the operation joins the queue, and the range that it writes is noted. -/
def copyPost (ds ss : Bool) (a b c : Spec) (m : Mach) (t : Thread) (fr : Nat) : Mach :=
  { (m.postEng t (copyKind ds ss a b c t fr)).1 with
    ranges := (m.postEng t (copyKind ds ss a b c t fr)).1.ranges ++ copyRange (m.postEng t (copyKind ds ss a b c t fr)).1 t
      (m.postEng t (copyKind ds ss a b c t fr)).2 ds (copyEnd t ds fr a) (copyLen (t.rd (fr + 16) c).toNat) }

theorem exec_cpy (s : State) (h : Hdr) (ds ss : Bool) (a b c : Spec) :
    exec (.cpy h ds ss a b c) s = .next (State.settle { s with mach := s.mach.lowPost h (.cpy h ds ss a b c) (copyPost ds ss a b c) }) := rfl

theorem cpy_accepts (h : Hdr) (ds ss : Bool) (a b c : Spec) :
    Accepts (.cpy h ds ss a b c) h LowFree fun s q t =>
      let T := s.mach.thr (s.mach.lowestOf q)
      let fr := s.mach.thrFr (s.mach.lowestOf q)
      PostJoined s t T (copyKind ds ss a b c T fr) ∧
      (ds = false → ∃ r, t.mach.ranges = s.mach.ranges ++ [r] ∧ r.core = T.core ∧ r.scratch = false ∧ r.lo = copyEnd T ds fr a ∧
        r.len = copyLen (T.rd (fr + 16) c).toNat) := by
  refine accepts_of_accepted
    (fun s q => copyPost ds ss a b c s.mach (s.mach.thr (s.mach.lowestOf q)) (s.mach.thrFr (s.mach.lowestOf q)))
    (fun s q hr _ hlow => by rw [exec_cpy, lowPost_eq h _ _ hr hlow]) (fun s q _ _ _ => ?_) fun s q t _ _ _ hleft => ?_
  · obtain ⟨-, ws, o, hpost⟩ := postEng_frame s.mach (s.mach.thr (s.mach.lowestOf q))
      (copyKind ds ss a b c (s.mach.thr (s.mach.lowestOf q)) (s.mach.thrFr (s.mach.lowestOf q))) true
    unfold copyPost
    rw [hpost]
    exact ⟨rfl, rfl, rfl, rfl, rfl⟩
  · obtain ⟨hop, ws, o, hpost⟩ := postEng_frame s.mach (s.mach.thr (s.mach.lowestOf q))
      (copyKind ds ss a b c (s.mach.thr (s.mach.lowestOf q)) (s.mach.thrFr (s.mach.lowestOf q))) true
    unfold PostLeft copyPost at hleft
    rw [hop, hpost] at hleft
    refine ⟨⟨postedOp s.mach _ _, (congrArg Mach.engines hleft :), rfl, rfl, rfl, rfl, rfl, rfl, rfl, rfl⟩, fun hds => ?_⟩
    subst hds
    exact ⟨_, (congrArg Mach.ranges hleft :), rfl, rfl, rfl, rfl⟩

/-- Settles O17: each post leaves one operation of its kind at the end of the engines' queues. -/
theorem enginePosts : Obligations.EnginePosts := by
  unfold Obligations.EnginePosts
  intro h a b c ds ss e hs
  refine ⟨cpy_accepts h ds ss a b c, ?_, ?_, ?_, ?_, ?_⟩
  · exact engPost_accepts (fun t fr => .cpyp (t.rdPair fr a).toNat (t.rdPair (fr + 8) b).toNat
      ((t.rd (fr + 16) c).toNat / 65536 + (t.rd (fr + 16) c).toNat % 65536 * 65536)) true fun _ => rfl
  · exact engPost_accepts (fun t fr => .mop false (t.rdPair fr a).toNat) true fun _ => rfl
  · exact engPost_accepts (fun t fr => .mop true (t.rdPair fr a).toNat) true fun _ => rfl
  · exact engPost_accepts (fun t fr => .stream e.toNat (t.rdPair fr a).toNat) true fun _ => rfl
  · exact engPost_accepts (fun t fr => .sigld hs.toNat (t.rdPair fr a).toNat (t.rd (fr + 8) b).toNat) false fun _ => rfl

end Sys2Proof.Machine
end

section
/-! SUPPORT. Counters (spec/17 R416-R418): what `ctradd`, `ctrset` and `ctrwait` leave of them. -/

namespace Sys2Proof.Machine

/-! ### Ascending thread order -/

theorem perm_insertBy {α : Type} (le : α → α → Bool) (a : α) (l : List α) : List.Perm (insertBy le a l) (a :: l) := by
  induction l with
  | nil => exact .refl _
  | cons b l ih =>
    unfold insertBy
    split
    · exact .refl _
    · exact (ih.cons b).trans (.swap a b l)

theorem perm_sortBy {α : Type} (le : α → α → Bool) (l : List α) : List.Perm (sortBy le l) l := by
  induction l with
  | nil => exact .refl _
  | cons a l ih => exact (perm_insertBy le a _).trans (ih.cons a)

theorem perm_inOrder (m : Mach) (ids : List Nat) : List.Perm (m.inOrder ids) ids := perm_sortBy _ ids

/-! ### The table of counters -/

theorem ctr_setCtr (m : Mach) (c : Ctr) (r n : Nat) : (m.setCtr c).ctr r n = if c.rcb = r ∧ c.idx = n then c else m.ctr r n := by
  have hother (h : ¬(c.rcb = r ∧ c.idx = n)) :
      (m.ctrs.filter fun u => !(u.rcb == c.rcb && u.idx == c.idx)).find? (fun u => u.rcb == r && u.idx == n) =
        m.ctrs.find? fun u => u.rcb == r && u.idx == n := by
    rw [List.find?_filter]
    congr 1
    funext u
    by_cases hu : u.rcb = r ∧ u.idx = n
    · obtain ⟨rfl, rfl⟩ := hu
      have : (u.rcb == c.rcb && u.idx == c.idx) = false := by
        rw [← Bool.not_eq_true, Bool.and_eq_true, beq_iff_eq, beq_iff_eq]
        exact fun he => h ⟨he.1.symm, he.2.symm⟩
      simp [this]
    · have : (u.rcb == r && u.idx == n) = false := by
        rw [← Bool.not_eq_true, Bool.and_eq_true, beq_iff_eq, beq_iff_eq]
        exact hu
      simp [this]
  have hsame : (m.ctrs.filter fun u => !(u.rcb == c.rcb && u.idx == c.idx)).find? (fun u => u.rcb == c.rcb && u.idx == c.idx) = none := by
    rw [List.find?_eq_none]
    intro u hu
    rw [Bool.not_eq_true, ← Bool.not_eq_true']
    exact (List.mem_filter.1 hu).2
  show (((if c.val = 0 ∧ c.rel = [] ∧ c.many = false then m.ctrs.filter fun u => !(u.rcb == c.rcb && u.idx == c.idx)
    else c :: m.ctrs.filter fun u => !(u.rcb == c.rcb && u.idx == c.idx)).find? fun u => u.rcb == r && u.idx == n).getD _) = _
  by_cases hkey : c.rcb = r ∧ c.idx = n
  · obtain ⟨rfl, rfl⟩ := hkey
    split
    next hz =>
      obtain ⟨hval, hrel, hmany⟩ := hz
      rw [hsame, if_pos ⟨rfl, rfl⟩]
      obtain ⟨r, n, v, rel, many⟩ := c
      subst hval hrel hmany
      rfl
    next => simp
  · rw [if_neg hkey]
    split
    · rw [hother hkey]; rfl
    · rw [List.find?_cons_of_neg (by simpa using hkey), hother hkey]; rfl

theorem setCtr_frame (m : Mach) (c : Ctr) : PostFrame m (m.setCtr c) := ⟨rfl, rfl, rfl, rfl, rfl⟩

theorem release_postFrame (m : Mach) (t : Thread) (scope : Nat) (at_ : SyncAt) : PostFrame m (m.release t scope at_) := by
  obtain ⟨ws, o, hrel⟩ := release_frame m t scope at_
  rw [hrel]
  exact ⟨rfl, rfl, rfl, rfl, rfl⟩

theorem release_ctr (m : Mach) (t : Thread) (scope : Nat) (at_ : SyncAt) (r n : Nat) : (m.release t scope at_).ctr r n = m.ctr r n := by
  obtain ⟨ws, o, hrel⟩ := release_frame m t scope at_
  rw [hrel]
  rfl

/-! ### Operations of threads on counters -/

theorem ctrOp_frame (m : Mach) (t : Thread) (idx b : Nat) (set : Bool) : PostFrame m (m.ctrOp t idx b set) := by
  cases set
  · exact (release_postFrame m t 6 _).trans (setCtr_frame _ _)
  · exact (release_postFrame m t 6 _).trans (setCtr_frame _ _)

/-- A counter as `find?` answers it bears its own key. -/
theorem ctr_key (m : Mach) (r n : Nat) : (m.ctr r n).rcb = r ∧ (m.ctr r n).idx = n := by
  unfold Mach.ctr Mach.ctr?
  cases hf : m.ctrs.find? fun c => c.rcb == r && c.idx == n with
  | none => exact ⟨rfl, rfl⟩
  | some c => simpa using List.find?_some hf

theorem ctrOp_add_val (m : Mach) (t : Thread) (idx b r n : Nat) : ((m.ctrOp t idx b false).ctr r n).val =
    if (m.launch t.launch).rcb = r ∧ idx = n then ((m.ctr r n).val + b) % 2 ^ 32 else (m.ctr r n).val := by
  obtain ⟨hr, hi⟩ := ctr_key (m.release t 6 (.ctr (m.launch t.launch).rcb idx)) (m.launch t.launch).rcb idx
  simp only [Mach.ctrOp, Mach.ctrAdd, Bool.false_eq_true, if_false, ctr_setCtr, hr, hi]
  split
  next h => obtain ⟨rfl, rfl⟩ := h; rw [release_ctr]
  next => rw [release_ctr]

theorem ctrOp_set_val (m : Mach) (t : Thread) (idx b r n : Nat) : ((m.ctrOp t idx b true).ctr r n).val =
    if (m.launch t.launch).rcb = r ∧ idx = n then b % 2 ^ 32 else (m.ctr r n).val := by
  simp only [Mach.ctrOp, Mach.ctrSet, if_true, ctr_setCtr]
  split
  · rfl
  · rw [release_ctr]

/-- The counter that a thread names, and its operand. -/
def ctrIdx (m : Mach) (a : Spec) (k : Nat) : Nat := ((m.thr k).rd (m.thrFr k) a).toNat % 65536
def ctrVal (m : Mach) (b : Spec) (k : Nat) : Nat := ((m.thr k).rd (m.thrFr k + 8) b).toNat

/-- The operation of a thread, as a post of each thread makes it. -/
def ctrPost (a b : Spec) (set : Bool) (m : Mach) (t : Thread) (fr : Nat) : Mach :=
  m.ctrOp t ((t.rd fr a).toNat % 65536) (t.rd (fr + 8) b).toNat set

/-- The operations of threads, one after another, on a machine with the threads of `m`. -/
def ctrPosts (m : Mach) (a b : Spec) (set : Bool) (ids : List Nat) (m' : Mach) : Mach :=
  ids.foldl (fun m' id => ctrPost a b set m' (m'.thr id) (m.thrFr id)) m'

theorem ctrPosts_cons {m m' : Mach} (hf : PostFrame m m') (a b : Spec) (set : Bool) (k : Nat) (ids : List Nat) :
    ctrPosts m a b set (k :: ids) m' = ctrPosts m a b set ids (m'.ctrOp (m.thr k) (ctrIdx m a k) (ctrVal m b k) set) := by
  rw [ctrPosts, List.foldl_cons, hf.thr]
  rfl

theorem ctrPosts_frame {m : Mach} (a b : Spec) (set : Bool) (ids : List Nat) : ∀ {m' : Mach}, PostFrame m m' →
    PostFrame m (ctrPosts m a b set ids m') := by
  induction ids with
  | nil => exact fun hf => hf
  | cons k ids ih => intro m' hf; rw [ctrPosts_cons hf]; exact ih (hf.trans (ctrOp_frame ..))

/-- `ctradd` of several threads of one launch adds up. -/
theorem ctrPosts_add {m : Mach} (a b : Spec) (la n : Nat) (ids : List Nat) : ∀ {m' : Mach}, PostFrame m m' → (∀ k ∈ ids, (m.thr k).launch = la) →
    ((ctrPosts m a b false ids m').ctr (m.launch la).rcb n).val % 2 ^ 32 =
      ((m'.ctr (m.launch la).rcb n).val + ((ids.filter fun k => ctrIdx m a k == n).map (ctrVal m b)).sum) % 2 ^ 32 := by
  induction ids with
  | nil => intro m' _ _; rfl
  | cons k ids ih =>
    intro m' hf hla
    rw [ctrPosts_cons hf, ih (hf.trans (ctrOp_frame ..)) fun j hj => hla j (List.mem_cons_of_mem _ hj), ctrOp_add_val, hf.launch,
      hla k List.mem_cons_self]
    by_cases hk : ctrIdx m a k = n
    · rw [if_pos ⟨rfl, hk⟩, List.filter_cons_of_pos (by simpa using hk), List.map_cons, List.sum_cons]
      omega
    · rw [if_neg fun h => hk h.2, List.filter_cons_of_neg (by simpa using hk)]

theorem ctrPosts_unnamed {m : Mach} (a b : Spec) (r n : Nat) (ids : List Nat) : ∀ {m' : Mach}, PostFrame m m' →
    (ids.filter fun k => ctrIdx m a k == n) = [] → ((ctrPosts m a b true ids m').ctr r n).val = (m'.ctr r n).val := by
  induction ids with
  | nil => intro m' _ _; rfl
  | cons k ids ih =>
    intro m' hf hnone
    have hk : ¬ctrIdx m a k = n := fun hk => by
      rw [List.filter_cons_of_pos (by simpa using hk)] at hnone
      cases hnone
    rw [List.filter_cons_of_neg (by simpa using hk)] at hnone
    rw [ctrPosts_cons hf, ih (hf.trans (ctrOp_frame ..)) hnone, ctrOp_set_val, if_neg fun h => hk h.2]

/-- `ctrset` of a counter that one thread names leaves its operand. -/
theorem ctrPosts_set {m : Mach} (a b : Spec) (la n j : Nat) (ids : List Nat) : ∀ {m' : Mach}, PostFrame m m' →
    (∀ k ∈ ids, (m.thr k).launch = la) → (ids.filter fun k => ctrIdx m a k == n) = [j] →
    ((ctrPosts m a b true ids m').ctr (m.launch la).rcb n).val = ctrVal m b j := by
  induction ids with
  | nil => intro m' _ _ hone; cases hone
  | cons k ids ih =>
    intro m' hf hla hone
    rw [ctrPosts_cons hf]
    by_cases hk : ctrIdx m a k = n
    · rw [List.filter_cons_of_pos (by simpa using hk)] at hone
      obtain ⟨rfl, hrest⟩ := List.cons.inj hone
      rw [ctrPosts_unnamed a b _ n ids (hf.trans (ctrOp_frame ..)) hrest, ctrOp_set_val, hf.launch, hla k List.mem_cons_self,
        if_pos ⟨rfl, hk⟩]
      exact Nat.mod_eq_of_lt (BitVec.isLt _)
    · rw [List.filter_cons_of_neg (by simpa using hk)] at hone
      exact ih (hf.trans (ctrOp_frame ..)) (fun i hi => hla i (List.mem_cons_of_mem _ hi)) hone

/-! ### The instructions -/

/-- Every thread of the quarter names a counter of its region. -/
def CtrsLegal (s : State) (q : Quarter) (a : Spec) : Prop := ∀ k ∈ q.tids, ctrIdx s.mach a k < (s.mach.eff q.launch).ctrs

theorem ctrRange_legal {s : State} {q : Quarter} {a : Spec} (h : Hdr) (k : Mach) (hr : Running s q) (hl : CtrsLegal s q a) :
    s.mach.ctrRange h a k = k := by
  have hbad : (q.active.any fun p =>
      decide ((s.mach.eff q.launch).ctrs ≤ ((s.mach.thr p.2).rd (s.mach.thrFr p.2) a).toNat % 65536)) = false := by
    rw [List.any_eq_false]
    intro p hp
    have : ((s.mach.thr p.2).rd (s.mach.thrFr p.2) a).toNat % 65536 < (s.mach.eff q.launch).ctrs := hl p.2 (mem_tids hp)
    simpa using this
  simp only [Mach.ctrRange, Mach.withQ, hr.1, hbad, Bool.false_eq_true, if_false]

theorem eachPost_eq {s : State} {q : Quarter} (h : Hdr) (i : Instr) (f : Mach → Thread → Nat → Mach) (hr : Running s q)
    (hfree : ∀ k ∈ q.tids, (s.mach.thr k).pend = []) : s.mach.eachPost h i f =
      ((s.mach.inOrder q.tids).foldl (fun m' id => f m' (m'.thr id) (s.mach.thrFr id)) s.mach).accepted q h i := by
  have hwait : s.mach.postWaits q.tids = false := by
    rw [Mach.postWaits, List.any_eq_false]
    intro k hk
    simp [hfree k hk]
  simp only [Mach.eachPost, Mach.withQ, hr.1, hwait, Bool.false_eq_true, if_false]

/-- The operations of the quarter's threads on counters, in ascending thread order. -/
def quarterCtrs (a b : Spec) (set : Bool) (s : State) (q : Quarter) : Mach := ctrPosts s.mach a b set (s.mach.inOrder q.tids) s.mach

theorem ctr_accepts {i : Instr} {h : Hdr} (a b : Spec) (set : Bool) {eff : State → Quarter → State → Prop}
    (he : ∀ s, exec i s = .next (State.settle { s with mach := s.mach.ctrRange h a (s.mach.eachPost h i (ctrPost a b set)) }))
    (heff : ∀ s q t, AllFree s q → (∀ n, t.mach.ctr (s.mach.launch q.launch).rcb n =
      (quarterCtrs a b set s q).ctr (s.mach.launch q.launch).rcb n) → eff s q t) :
    Accepts i h (fun s q => AllFree s q ∧ CtrsLegal s q a) eff := by
  refine accepts_of_accepted (quarterCtrs a b set) (fun s q hr _ hok => ?_) (fun s q _ _ _ => ctrPosts_frame a b set _ (.refl _))
    fun s q t _ _ hok hleft => heff s q t hok.1 fun n => ?_
  · rw [he, ctrRange_legal h _ hr hok.2, eachPost_eq h i _ hr fun k hk => (hok.1 k hk).1]
    rfl
  · unfold PostLeft at hleft
    have hctrs : t.mach.ctrs = _ := congrArg Mach.ctrs hleft
    rw [Mach.ctr, Mach.ctr?, hctrs]
    rfl

/-- A copy that the core drops is no copy of it. -/
theorem dropCopies_core (m : Mach) (core : Nat) : ∀ c ∈ (m.dropCopies core).copies, c.core ≠ core := by
  intro c hc
  have := (List.mem_filter.1 hc).2
  simpa using this

theorem learn_frame (m : Mach) (b a q : Nat) : ∃ ws, m.learn b a q = { m with waves := ws } := by
  unfold Mach.learn
  split
  · exact ⟨m.waves, rfl⟩
  · split
    · exact modWave_frame ..
    · exact modWave_frame ..

/-- A wait that learns of releases changes waves alone. -/
theorem relLearn_frame (m : Mach) (t : Thread) (rel : List (Nat × Nat)) (many : Bool) : ∃ ws, m.relLearn t rel many = { m with waves := ws } := by
  have hfold : ∀ (l : List (Nat × Nat)) (m : Mach), ∃ ws, l.foldl (fun m r => m.learn t.wave r.1 r.2) m = { m with waves := ws } := by
    intro l
    induction l with
    | nil => exact fun m => ⟨m.waves, rfl⟩
    | cons r l ih =>
      intro m
      obtain ⟨ws, hl⟩ := learn_frame m t.wave r.1 r.2
      obtain ⟨ws', hl'⟩ := ih { m with waves := ws }
      exact ⟨ws', by rw [List.foldl_cons, hl, hl']⟩
  unfold Mach.relLearn
  split
  · exact ⟨m.waves, rfl⟩
  · obtain ⟨ws, hl⟩ := hfold rel m
    dsimp only
    rw [hl]
    split
    · obtain ⟨ws', hw⟩ := modWave_frame { m with waves := ws } t.wave fun w => { w with inexact := true }
      exact ⟨ws', hw⟩
    · exact ⟨ws, rfl⟩

/-- Threads that hold no error are not stopped by one. -/
theorem deliver_none (m : Mach) (q : Quarter) (flag : Nat) (cov : Thread → HeldErr → Bool) (h : ∀ k ∈ q.tids, (m.thr k).errs = []) :
    m.deliver q flag cov = m := by
  unfold Mach.deliver
  have hall : ∀ k ∈ m.inOrder q.tids, (m.thr k).errs = [] := fun k hk => h k ((perm_inOrder m q.tids).mem_iff.1 hk)
  generalize m.inOrder q.tids = ids at hall
  induction ids with
  | nil => rfl
  | cons k ids ih =>
    have hnone : (m.thr k).errs = [] := hall k List.mem_cons_self
    have htake : (m.thr k).takeErr (cov (m.thr k)) = none := by simp [Thread.takeErr, hnone]
    rw [List.foldl_cons, htake]
    exact ih fun j hj => hall j (List.mem_cons_of_mem _ hj)

/-- A thread with the counter that it waits for and its threshold. -/
abbrev CtrWait := Nat × Nat × Nat

def ctrWaits (s : State) (q : Quarter) (a b : Spec) : List CtrWait := q.active.map fun p => (p.2, ctrIdx s.mach a p.2, ctrVal s.mach b p.2)

/-- The acquires of a wait that passes. -/
def ctrAcquire (rcb : Nat) (m : Mach) (o : CtrWait) : Mach :=
  (m.acquire o.1 6 (.ctr rcb o.2.1)).relLearn (m.thr o.1) (m.ctr rcb o.2.1).rel (m.ctr rcb o.2.1).many

theorem ctrAcquires_frame (rcb : Nat) (ops : List CtrWait) : ∀ m : Mach, ∃ ws o, ops.foldl (ctrAcquire rcb) m = { m with waves := ws, order := o } := by
  induction ops with
  | nil => exact fun m => ⟨m.waves, m.order, rfl⟩
  | cons p ops ih =>
    intro m
    obtain ⟨ws, hl⟩ := relLearn_frame (m.acquire p.1 6 (.ctr rcb p.2.1)) (m.thr p.1) (m.ctr rcb p.2.1).rel (m.ctr rcb p.2.1).many
    obtain ⟨ws', o, hrest⟩ := ih (ctrAcquire rcb m p)
    refine ⟨ws', o, ?_⟩
    rw [List.foldl_cons, hrest, ctrAcquire, hl]
    rfl

/-- The machine of a `ctrwait` that passes, before its flight enters. -/
def ctrPassed (a b : Spec) (s : State) (q : Quarter) : Mach :=
  ((ctrWaits s q a b).foldl (ctrAcquire (s.mach.launch q.launch).rcb) s.mach).dropCopies q.core

theorem ctrwait_passes {s : State} {q : Quarter} {h : Hdr} {a b : Spec} (hr : Running s q) (hl : CtrsLegal s q a)
    (hready : ∀ k ∈ q.tids, (s.mach.thr k).acquireReady = true ∧ (s.mach.thr k).errs = [])
    (hval : ∀ k ∈ q.tids, ctrVal s.mach b k ≤ (s.mach.ctr (s.mach.launch q.launch).rcb (ctrIdx s.mach a k)).val) :
    exec (.ctrwait h a b) s = .next (State.settle { s with mach := (ctrPassed a b s q).accepted q h (.ctrwait h a b) }) := by
  have hq : s.mach.quarter? q.id = some q := by rw [quarter?_id hr.1]; exact hr.1
  have hopen : (q.tids.any fun t => !(s.mach.thr t).acquireReady) = false := by
    rw [List.any_eq_false]
    intro k hk
    simp [(hready k hk).1]
  have hreached : ((ctrWaits s q a b).any fun o => decide ((s.mach.ctr (s.mach.launch q.launch).rcb o.2.1).val < o.2.2)) = false := by
    rw [List.any_eq_false]
    intro o ho
    obtain ⟨p, hp, rfl⟩ := List.mem_map.1 ho
    have := hval p.2 (mem_tids hp)
    simpa using this
  obtain ⟨ws, o, hacq⟩ := ctrAcquires_frame (s.mach.launch q.launch).rcb (ctrWaits s q a b) s.mach
  have hexec : exec (.ctrwait h a b) s = .next (State.settle { s with mach := s.mach.ctrRange h a (s.mach.withQ fun q =>
      if q.tids.any fun t => !(s.mach.thr t).acquireReady then s.mach.waitQ q .flags
      else if (ctrWaits s q a b).any fun o => decide ((s.mach.ctr (s.mach.launch q.launch).rcb o.2.1).val < o.2.2) then
        s.mach.waitQ q (.counter ((ctrWaits s q a b).map fun o => o.2))
      else (((ctrWaits s q a b).foldl (ctrAcquire (s.mach.launch q.launch).rcb) s.mach).deliver q h.flag.toNat fun t e =>
        ctrCovers (match (ctrWaits s q a b).find? fun o => o.1 == t.id with
          | some o => o.2.1
          | none => 0) e).passWait q.id h (.ctrwait h a b) none fun _ => []) }) := rfl
  rw [hexec, ctrRange_legal h _ hr hl]
  simp only [Mach.withQ, hr.1, hopen, hreached, Bool.false_eq_true, if_false]
  rw [deliver_none _ _ _ _ fun k hk => by rw [hacq]; exact (hready k hk).2]
  have hq' : ((ctrWaits s q a b).foldl (ctrAcquire (s.mach.launch q.launch).rcb) s.mach).quarter? q.id = some q := by rw [hacq]; exact hq
  simp only [Mach.passWait, hq']
  rfl

theorem ctrwait_accepts (h : Hdr) (a b : Spec) : Accepts (.ctrwait h a b) h
    (fun s q => CtrsLegal s q a ∧ (∀ k ∈ q.tids, (s.mach.thr k).acquireReady = true ∧ (s.mach.thr k).errs = []) ∧
      ∀ k ∈ q.tids, ctrVal s.mach b k ≤ (s.mach.ctr (s.mach.launch q.launch).rcb (ctrIdx s.mach a k)).val)
    (fun s q t => t.mach.ctrs = s.mach.ctrs ∧ ∀ c ∈ t.mach.copies, c.core ≠ q.core) := by
  refine accepts_of_accepted (ctrPassed a b) (fun s q hr _ hok => ctrwait_passes hr hok.1 hok.2.1 hok.2.2) (fun s q _ _ _ => ?_)
    fun s q t _ _ _ hleft => ?_
  · obtain ⟨ws, o, hacq⟩ := ctrAcquires_frame (s.mach.launch q.launch).rcb (ctrWaits s q a b) s.mach
    rw [ctrPassed, hacq]
    exact ⟨rfl, rfl, rfl, rfl, rfl⟩
  · obtain ⟨ws, o, hacq⟩ := ctrAcquires_frame (s.mach.launch q.launch).rcb (ctrWaits s q a b) s.mach
    unfold PostLeft ctrPassed at hleft
    have hctrs : t.mach.ctrs = _ := congrArg Mach.ctrs hleft
    have hcopies : t.mach.copies = (ctrPassed a b s q).copies := (congrArg Mach.copies hleft :)
    refine ⟨?_, fun c hc => dropCopies_core _ _ c (by rw [← ctrPassed, ← hcopies]; exact hc)⟩
    rw [hctrs, hacq]
    rfl

/-- Settles O18: the operations of the threads on a counter add up, or the one that names it sets it. -/
theorem countersComplete : Obligations.CountersComplete := by
  unfold Obligations.CountersComplete
  intro h a b
  refine ⟨ctr_accepts a b false (fun _ => rfl) fun s q t hfree hctr n => ?_, ctr_accepts a b true (fun _ => rfl) fun s q t hfree hctr n => ?_,
    ctrwait_accepts h a b⟩
  · have hperm := perm_inOrder s.mach q.tids
    rw [hctr, quarterCtrs, ctrPosts_add a b q.launch n _ (.refl _) fun k hk => (hfree k (hperm.mem_iff.1 hk)).2]
    rw [((hperm.filter _).map (ctrVal s.mach b)).sum_eq]
    rfl
  · have hperm := (perm_inOrder s.mach q.tids).filter fun k => ctrIdx s.mach a k == n
    refine ⟨fun hnone => ?_, fun k hone => ?_⟩
    · rw [hctr, quarterCtrs, ctrPosts_unnamed a b _ n _ (.refl _)]
      exact List.perm_nil.1 (hnone ▸ hperm)
    · rw [hctr, quarterCtrs, ctrPosts_set a b q.launch n k _ (.refl _) fun k hk => (hfree k ((perm_inOrder s.mach q.tids).mem_iff.1 hk)).2]
      · rfl
      · exact List.perm_singleton.1 (hone ▸ hperm)

end Sys2Proof.Machine
end

section
/-! SUPPORT. Submission queues and their fences (spec/17 R412-R415): what `qpost`, `rlinv` and `qfence` leave. -/

namespace Sys2Proof.Machine

/-! ### Queue pairs -/

theorem pair_setPair_same (m : Mach) (p : QPair) : (m.setPair p).pair p.rcb p.q = p := by
  simp [Mach.pair, Mach.pair?, Mach.setPair]

theorem pair_key (m : Mach) (r n : Nat) : (m.pair r n).rcb = r ∧ (m.pair r n).q = n := by
  unfold Mach.pair Mach.pair?
  cases hf : m.qpairs.find? fun p => p.rcb == r && p.q == n with
  | none => exact ⟨rfl, rfl⟩
  | some p => simpa using List.find?_some hf

/-- What a submission queue holds, as its engine sees it: of each operation the poster, its kind, its bytes and its descriptor. -/
def entryOf (e : SubEnt) : Nat × Bool × List Byte × Nat := (e.poster, e.rlinv, e.bytes, e.desc)

/-- A change of the pairs that keeps their keys and what their entries hold. -/
theorem entries_mapPairs (m : Mach) (f : QPair → QPair) (hkey : ∀ p, (f p).rcb = p.rcb ∧ (f p).q = p.q)
    (hsubs : ∀ p, (f p).subs.map entryOf = p.subs.map entryOf) (r n : Nat) :
    (({ m with qpairs := m.qpairs.map f } : Mach).pair r n).subs.map entryOf = (m.pair r n).subs.map entryOf := by
  have hcomp : ((fun p : QPair => p.rcb == r && p.q == n) ∘ f) = fun p => p.rcb == r && p.q == n := by
    funext p
    simp only [Function.comp, (hkey p).1, (hkey p).2]
  simp only [Mach.pair, Mach.pair?, List.find?_map, hcomp]
  cases m.qpairs.find? fun p => p.rcb == r && p.q == n with
  | none => rfl
  | some p => exact hsubs p

/-- Arming changes no entry but for its mark. -/
theorem entries_arm (m : Mach) (r rcb n : Nat) : ((m.arm r).pair rcb n).subs.map entryOf = (m.pair rcb n).subs.map entryOf := by
  refine entries_mapPairs m _ (fun p => ?_) (fun p => ?_) rcb n
  · split <;> exact ⟨rfl, rfl⟩
  · split
    · rw [List.map_map]; rfl
    · rfl

theorem subs_setPair (m : Mach) (r n : Nat) (l : List SubEnt) : ((m.setPair { m.pair r n with subs := l }).pair r n).subs = l := by
  obtain ⟨hr, hn⟩ := pair_key m r n
  have hset := pair_setPair_same m { m.pair r n with subs := l }
  simp only [hr, hn] at hset ⊢
  rw [hset]

theorem rets_setPair (m : Mach) (r n : Nat) (l : List RetRec) : ((m.setPair { m.pair r n with rets := l }).pair r n).rets = l := by
  obtain ⟨hr, hn⟩ := pair_key m r n
  have hset := pair_setPair_same m { m.pair r n with rets := l }
  simp only [hr, hn] at hset ⊢
  rw [hset]

theorem submit_frame (m : Mach) (t : Thread) (n : Nat) (rlinv : Bool) (bs : List Byte) (desc : Nat) : PostFrame m (m.submit t n rlinv bs desc) := by
  cases rlinv with
  | true => exact ⟨rfl, rfl, rfl, rfl, rfl⟩
  | false => exact (release_postFrame m t 3 _).trans ⟨rfl, rfl, rfl, rfl, rfl⟩

theorem release_pair (m : Mach) (t : Thread) (scope : Nat) (at_ : SyncAt) (r n : Nat) : (m.release t scope at_).pair r n = m.pair r n := by
  obtain ⟨ws, o, hrel⟩ := release_frame m t scope at_
  rw [hrel]
  rfl

/-- A SUBMISSION leaves one more entry at the end of its queue. -/
theorem entries_submit (m : Mach) (t : Thread) (n : Nat) (rlinv : Bool) (bs : List Byte) (desc : Nat) :
    ((m.submit t n rlinv bs desc).pair (m.launch t.launch).rcb n).subs.map entryOf =
      (m.pair (m.launch t.launch).rcb n).subs.map entryOf ++ [(t.poster, rlinv, bs, desc)] := by
  obtain ⟨e, m', hsub, hpair, hentry⟩ : ∃ (e : SubEnt) (m' : Mach),
      m.submit t n rlinv bs desc = (m'.setPair { m'.pair (m.launch t.launch).rcb n with
        subs := (m'.pair (m.launch t.launch).rcb n).subs ++ [e] }).arm (m.launch t.launch).rcb ∧
      m'.pair (m.launch t.launch).rcb n = m.pair (m.launch t.launch).rcb n ∧ entryOf e = (t.poster, rlinv, bs, desc) := by
    cases rlinv with
    | true => exact ⟨_, _, rfl, rfl, rfl⟩
    | false => exact ⟨_, _, rfl, release_pair m t 3 (.queue t.core) _ _, rfl⟩
  rw [hsub, entries_arm]
  refine (congrArg (List.map entryOf) (subs_setPair m' (m.launch t.launch).rcb n _)).trans ?_
  rw [List.map_append, hpair, List.map_cons, hentry, List.map_nil]

/-! ### `rlinv` -/

/-- The region of the quarter has the pair. -/
def PairNamed (s : State) (q : Quarter) (n : Nat) : Prop := n < (s.mach.eff q.launch).qpairs

theorem pairRange_named {s : State} {q : Quarter} {n : Nat} (h : Hdr) (k : Mach) (hn : PairNamed s q n) : s.mach.pairRange h q n k = k := by
  rw [Mach.pairRange, if_neg (Nat.not_le.2 hn)]

theorem subRoom_open {s : State} {q : Quarter} {n k : Nat} (ho : PairOpen s q n k) : s.mach.subRoom (s.mach.launch q.launch) n k = true := by
  obtain ⟨hroom, hfits⟩ := ho
  rw [Mach.subRoom, Bool.and_eq_true, decide_eq_true_eq]
  refine ⟨hroom, ?_⟩
  rw [Mach.pairFits, Bool.or_eq_true, List.all_eq_true]
  exact hfits.imp_right fun hall b hb => decide_eq_true (hall b hb)

theorem rlinv_posts {s : State} {q : Quarter} {h : Hdr} {n : BitVec 6} {a : Spec} (hr : Running s q) (hne : q.tids ≠ []) (hlow : LowFree s q)
    (hn : PairNamed s q n.toNat) (ho : PairOpen s q n.toNat 1) :
    exec (.rlinv h n a) s = .next (State.settle { s with mach := (s.mach.submit (s.mach.thr (s.mach.lowestOf q)) n.toNat true []
      ((s.mach.thr (s.mach.lowestOf q)).rdPair (s.mach.thrFr (s.mach.lowestOf q)) a).toNat).accepted q h (.rlinv h n a) }) := by
  have hid : (s.mach.thr (s.mach.lowestOf q)).id = s.mach.lowestOf q := thr_id (hr.2.2.1 _ (lowestOf_mem s.mach q hne))
  have hwait : s.mach.postWaits [(s.mach.thr (s.mach.lowestOf q)).id] = false := by
    have hpend : (s.mach.thr (s.mach.lowestOf q)).pend = [] := hlow
    simp [Mach.postWaits, hid, hpend]
  have hexec : exec (.rlinv h n a) s = .next (State.settle { s with mach := s.mach.withQ fun q => s.mach.pairRange h q n.toNat (
      if s.mach.postWaits [(s.mach.thr (s.mach.lowestOf q)).id] then s.mach.waitQ q .flags
      else if !s.mach.subRoom (s.mach.launch q.launch) n.toNat 1 then s.mach.waitQ q (.queue n.toNat 1)
      else s.mach.lowPost h (.rlinv h n a) fun m t fr => m.submit t n.toNat true [] (t.rdPair fr a).toNat) }) := rfl
  rw [hexec]
  simp only [Mach.withQ, hr.1, pairRange_named h _ hn, hwait, subRoom_open ho, Bool.not_true, Bool.false_eq_true, if_false]
  rw [lowPost_eq h _ _ hr hlow]

theorem rlinv_accepts (h : Hdr) (n : BitVec 6) (a : Spec) : Accepts (.rlinv h n a) h
    (fun s q => LowFree s q ∧ PairNamed s q n.toNat ∧ PairOpen s q n.toNat 1 ∧ (s.mach.thr (s.mach.lowestOf q)).launch = q.launch)
    (fun s q t => (t.mach.pair (t.mach.launch q.launch).rcb n.toNat).subs.map entryOf =
      (s.mach.pair (s.mach.launch q.launch).rcb n.toNat).subs.map entryOf ++ [((s.mach.thr (s.mach.lowestOf q)).poster, true, [],
        ((s.mach.thr (s.mach.lowestOf q)).rdPair (s.mach.thrFr (s.mach.lowestOf q)) a).toNat)]) := by
  refine accepts_of_accepted (fun s q => s.mach.submit (s.mach.thr (s.mach.lowestOf q)) n.toNat true []
    ((s.mach.thr (s.mach.lowestOf q)).rdPair (s.mach.thrFr (s.mach.lowestOf q)) a).toNat)
    (fun s q hr hne ⟨hlow, hn, ho, _⟩ => rlinv_posts hr hne hlow hn ho) (fun s q _ _ _ => submit_frame ..) fun s q t _ _ hok hleft => ?_
  obtain ⟨-, -, -, hla⟩ := hok
  have hsub := entries_submit s.mach (s.mach.thr (s.mach.lowestOf q)) n.toNat true []
    ((s.mach.thr (s.mach.lowestOf q)).rdPair (s.mach.thrFr (s.mach.lowestOf q)) a).toNat
  rw [hla] at hsub
  unfold PostLeft at hleft
  have hpairs : t.mach.qpairs = _ := congrArg Mach.qpairs hleft
  have hlaunches : t.mach.launches = s.mach.launches := (congrArg Mach.launches hleft :)
  have hrcb : t.mach.launch q.launch = s.mach.launch q.launch := by rw [Mach.launch, Mach.launch?, hlaunches]; rfl
  rw [hrcb, Mach.pair, Mach.pair?, hpairs]
  exact hsub

/-! ### `qfence` -/

theorem acquires_frame (scope : Nat) (at_ : SyncAt) (ids : List Nat) : ∀ m : Mach, ∃ o,
    ids.foldl (fun m id => m.acquire id scope at_) m = { m with order := o } := by
  induction ids with
  | nil => exact fun m => ⟨m.order, rfl⟩
  | cons k ids ih =>
    intro m
    obtain ⟨o, hfold⟩ := ih (m.acquire k scope at_)
    exact ⟨o, by rw [List.foldl_cons, hfold]; rfl⟩

/-- The acquires of a `qfence` that passes. -/
def fenced (s : State) (q : Quarter) : Mach := q.tids.foldl (fun m id => m.acquire id 3 (.queue q.core)) s.mach

theorem fenced_frame (s : State) (q : Quarter) : ∃ o, fenced s q = { s.mach with order := o } := acquires_frame 3 (.queue q.core) q.tids s.mach

/-- Nothing that the fence names is outstanding for a thread, and no error is held against it. -/
def FenceClear (s : State) (q : Quarter) (x : QSet) (n : Nat) : Prop := ∀ k ∈ q.tids,
  (s.mach.thr k).acquireReady = true ∧ (s.mach.thr k).errs = [] ∧ s.mach.qfBusy (s.mach.launch q.launch).rcb x n k = false

/-- The machine of a `qfence` that passes. -/
def fencePassed (s : State) (q : Quarter) (h : Hdr) (n : BitVec 6) (x : QSet) (d : Spec) : Mach :=
  if x.r then ((fenced s q).takeRec (s.mach.launch q.launch).rcb n.toNat).1.passWait q.id h (.qfence h n x d) (some d)
    fun _ => ((fenced s q).takeRec (s.mach.launch q.launch).rcb n.toNat).2
  else (fenced s q).passWait q.id h (.qfence h n x d) none fun _ => []

theorem qfence_passes {s : State} {q : Quarter} {h : Hdr} {n : BitVec 6} {x : QSet} {d : Spec} (hr : Running s q)
    (hn : x.p = true ∨ x.r = true → PairNamed s q n.toNat) (hc : FenceClear s q x n.toNat) :
    exec (.qfence h n x d) s = .next (State.settle { s with mach := fencePassed s q h n x d }) := by
  have hopen : (q.tids.any fun t => !(s.mach.thr t).acquireReady || s.mach.qfBusy (s.mach.launch q.launch).rcb x n.toNat t) = false := by
    rw [List.any_eq_false]
    intro k hk
    obtain ⟨hready, -, hbusy⟩ := hc k hk
    simp [hready, hbusy]
  obtain ⟨o, hfen⟩ := fenced_frame s q
  have hdeliver : ∀ cov, (fenced s q).deliver q h.flag.toNat cov = fenced s q := fun cov =>
    deliver_none _ _ _ _ fun k hk => by rw [hfen]; exact (hc k hk).2.1
  have hq : (fenced s q).quarter? q.id = some q := by rw [hfen, quarter?_id hr.1]; exact hr.1
  have hexec : exec (.qfence h n x d) s = .next (State.settle { s with mach := (s.mach.withQ fun q =>
      let go : Mach :=
        if q.tids.any fun t => !(s.mach.thr t).acquireReady || s.mach.qfBusy (s.mach.launch q.launch).rcb x n.toNat t then s.mach.waitQ q .flags
        else
          let m := (fenced s q).deliver q h.flag.toNat fun _ e => qfCovers x n.toNat e
          match m.quarter? q.id with
          | none => m
          | some _ =>
            if x.r then
              let r := m.takeRec (s.mach.launch q.launch).rcb n.toNat
              r.1.passWait q.id h (.qfence h n x d) (some d) (fun _ => r.2)
            else m.passWait q.id h (.qfence h n x d) none (fun _ => [])
      if x.p || x.r then s.mach.pairRange h q n.toNat go else go) }) := rfl
  rw [hexec]
  simp only [Mach.withQ, hr.1, hopen, Bool.false_eq_true, if_false, hdeliver, hq]
  split
  next hpr =>
    rw [pairRange_named h _ (hn (by simpa using hpr))]
    rfl
  next => rfl

theorem qfence_accepts (h : Hdr) (n : BitVec 6) (x : QSet) (d : Spec) (hx : x.r = false) : Accepts (.qfence h n x d) h
    (fun s q => (x.p = true ∨ x.r = true → PairNamed s q n.toNat) ∧ FenceClear s q x n.toNat)
    fun s q t => t.mach.qpairs = s.mach.qpairs ∧ ∀ c ∈ t.mach.copies, c.core ≠ q.core := by
  refine accepts_of_accepted (fun s q => (fenced s q).dropCopies q.core) (fun s q hr _ hok => ?_) (fun s q _ _ _ => ?_) fun s q t _ _ _ hleft => ?_
  · obtain ⟨o, hfen⟩ := fenced_frame s q
    have hq : (fenced s q).quarter? q.id = some q := by rw [hfen, quarter?_id hr.1]; exact hr.1
    rw [qfence_passes hr hok.1 hok.2, fencePassed, hx]
    simp only [Bool.false_eq_true, if_false, Mach.passWait, hq]
    rfl
  · obtain ⟨o, hfen⟩ := fenced_frame s q
    rw [hfen]
    exact ⟨rfl, rfl, rfl, rfl, rfl⟩
  · obtain ⟨o, hfen⟩ := fenced_frame s q
    unfold PostLeft at hleft
    have hcopies : t.mach.copies = ((fenced s q).dropCopies q.core).copies := (congrArg Mach.copies hleft :)
    refine ⟨?_, fun c hc => dropCopies_core _ _ c (by rw [← hcopies]; exact hc)⟩
    rw [hfen] at hleft
    exact (congrArg Mach.qpairs hleft :)

/-- The words of the oldest retirement record, or that there is none (spec/17 R414). -/
def recWords : List RetRec → List Word
  | [] => [0, 0, 0xFF, 0]
  | r :: rest => [r.tag.lo, r.tag.hi, wN (r.outcome % 256 + r.op % 256 * 256), wN rest.length]

theorem takeRec_spec (m : Mach) (r n : Nat) : (m.takeRec r n).2 = recWords (m.pair r n).rets ∧ PostFrame m (m.takeRec r n).1 ∧
    ((m.pair r n).rets ≠ [] → ((m.takeRec r n).1.pair r n).rets = (m.pair r n).rets.drop 1) := by
  unfold Mach.takeRec
  dsimp only
  cases (m.pair r n).rets with
  | nil => exact ⟨rfl, .refl m, fun h => absurd rfl h⟩
  | cons x rest => exact ⟨rfl, ⟨rfl, rfl, rfl, rfl, rfl⟩, fun _ => rets_setPair m r n rest⟩

theorem qfence_records (h : Hdr) (n : BitVec 6) (x : QSet) (d : Spec) (hx : x.r = true) {s : State} {q : Quarter} (hr : Running s q)
    (hne : q.tids ≠ []) (hn : x.p = true ∨ x.r = true → PairNamed s q n.toNat) (hc : FenceClear s q x n.toNat) :
    ∃ t f, exec (.qfence h n x d) s = .next t ∧ MemoryKept s t ∧ GroupFlight s t q h (.qfence h n x d) true [] f ∧ f.done = true ∧
      f.writes = q.tids.map (fun k => (k, spWords d (recWords (s.mach.pair (s.mach.launch q.launch).rcb n.toNat).rets))) ∧
      ((s.mach.pair (s.mach.launch q.launch).rcb n.toNat).rets ≠ [] → (t.mach.pair (s.mach.launch q.launch).rcb n.toNat).rets =
        (s.mach.pair (s.mach.launch q.launch).rcb n.toNat).rets.drop 1) := by
  obtain ⟨o, hfen⟩ := fenced_frame s q
  have hpair : (fenced s q).pair (s.mach.launch q.launch).rcb n.toNat = s.mach.pair (s.mach.launch q.launch).rcb n.toNat := by rw [hfen]; rfl
  obtain ⟨hwords, hframe, hdrop⟩ := takeRec_spec (fenced s q) (s.mach.launch q.launch).rcb n.toNat
  rw [hpair] at hwords hdrop
  have hfenced : PostFrame s.mach (fenced s q) := by rw [hfen]; exact ⟨rfl, rfl, rfl, rfl, rfl⟩
  obtain ⟨hkept, ⟨f, hgroup, hdone, hwrites⟩, hleft⟩ := passWait_left (h := h) (i := .qfence h n x d) d
    (fun _ => ((fenced s q).takeRec (s.mach.launch q.launch).rcb n.toNat).2) hr hne (hfenced.trans hframe)
  refine ⟨_, f, by rw [qfence_passes hr hn hc, fencePassed, if_pos hx], hkept, hgroup, hdone, ?_, fun hl => ?_⟩
  · rw [hwrites, hwords]
  · unfold PostLeft at hleft
    rw [← hdrop hl]
    generalize State.settle _ = t at hleft
    have hpairs : t.mach.qpairs = ((fenced s q).takeRec (s.mach.launch q.launch).rcb n.toNat).1.qpairs := (congrArg Mach.qpairs hleft :)
    rw [Mach.pair, Mach.pair?, hpairs]
    rfl

/-! ### `qpost`: an issue of accesses whose plans pass their checks -/

/-- An issue whose plans pass their checks, none of them judged, is one flight after another and the advance. -/
theorem memIssue_eq {s : State} {q : Quarter} (h : Hdr) (i : Instr) (shift : Bool) (stat : Option Spec) (plan : Nat → Thread → TPlan)
    (wide : Mach → Thread → Flight → PendOp → Mach) (fin : Mach → Flight → Mach) (g : Nat → Flight → Flight)
    (hq : s.mach.quarter? s.mach.cur = some q) (hok : ∀ p ∈ q.active, (plan (s.mach.fr p.1) (s.mach.thr p.2)).acc.isOk = true ∧
      (plan (s.mach.fr p.1) (s.mach.thr p.2)).judge = []) :
    s.mach.memIssue s.sys h i shift stat plan wide fin g =
      (q.active.foldl (fun m p => m.planIssue q h i s.mach.next shift stat g p.2 (plan (s.mach.fr p.1) (s.mach.thr p.2))) (s.mach.take 1)).goOn
        q.id s.mach.next h.look.toNat := by
  have hplans : ∀ p ∈ q.active.map (fun p => (p.2, plan (s.mach.fr p.1) (s.mach.thr p.2))), ∃ l at_ e, p.2.acc = .ok l at_ e ∧ p.2.judge = [] := by
    intro p hp
    obtain ⟨a, ha, rfl⟩ := List.mem_map.1 hp
    obtain ⟨l, at_, e, hacc⟩ := isOk_iff.1 (hok a ha).1
    exact ⟨l, at_, e, hacc, (hok a ha).2⟩
  have hfold : q.active.foldl (fun m p => m.planIssue q h i s.mach.next shift stat g p.2 (plan (s.mach.fr p.1) (s.mach.thr p.2))) (s.mach.take 1) =
      (q.active.map fun p => (p.2, plan (s.mach.fr p.1) (s.mach.thr p.2))).foldl
        (fun m p => m.planIssue q h i s.mach.next shift stat g p.1 p.2) (s.mach.take 1) := by rw [List.foldl_map]
  rw [hfold]
  unfold Mach.memIssue Mach.withQ
  simp only [hq]
  generalize q.active.map (fun p => (p.2, plan (s.mach.fr p.1) (s.mach.thr p.2))) = ps at hplans
  have hheld : (ps.any fun p => s.mach.planHeld p.1 p.2) = false := by
    rw [List.any_eq_false]
    intro p hp
    obtain ⟨l, at_, e, -, hj⟩ := hplans p hp
    simp [Mach.planHeld, hj]
  have hbad : (ps.filterMap fun p => (s.mach.planTrap p.1 p.2).map fun c => (p.1, c)) = [] := by
    rw [List.filterMap_eq_nil_iff]
    intro p hp
    obtain ⟨l, at_, e, hacc, hj⟩ := hplans p hp
    simp [Mach.planTrap, hacc, hj]
  have hpark : (ps.filterMap fun p => p.2.park p.1) = [] := by
    rw [List.filterMap_eq_nil_iff]
    intro p hp
    obtain ⟨l, at_, e, hacc, -⟩ := hplans p hp
    simp [TPlan.park, hacc]
  have hecc : ∀ m : Mach, ps.foldl (fun m p => m.planEcc q h i s.mach.next p.1 p.2) m = m := by
    clear hheld hbad hpark hfold
    induction ps with
    | nil => exact fun m => rfl
    | cons p ps ih =>
      intro m
      obtain ⟨l, at_, e, hacc, -⟩ := hplans p List.mem_cons_self
      have hnone : m.planEcc q h i s.mach.next p.1 p.2 = m := by simp only [Mach.planEcc, hacc]
      rw [List.foldl_cons, hnone]
      exact ih (fun p hp => hplans p (List.mem_cons_of_mem _ hp)) m
  have hjudged : ps.filter (fun p => p.2.judge != []) = [] := by
    rw [List.filter_eq_nil_iff]
    intro p hp
    obtain ⟨_, _, _, -, hj⟩ := hplans p hp
    simp [hj]
  have hall : (ps.all fun p => p.2.acc.isOk && p.2.judge == []) = true := by
    rw [List.all_eq_true]
    intro p hp
    obtain ⟨_, _, _, hacc, hj⟩ := hplans p hp
    simp [hacc, hj, Acc.isOk]
  have hperform : ∀ m : Mach, m.planPerform s.sys s.mach.next [] wide fin = m := fun m => by simp [Mach.planPerform]
  rw [if_neg (by rw [hheld]; exact Bool.false_ne_true), hbad]
  simp only [List.map_nil, Mach.inOrder, sortBy]
  rw [hpark]
  simp only [ne_eq, not_true_eq_false, false_and, if_false, List.any_nil, Bool.false_eq_true]
  rw [hecc, hjudged, List.map_nil, hperform, if_pos hall]
  rfl

/-- A flight enters for each listed thread, one after another, with nothing to do but what `g` fixes. -/
def doneFlights (q : Quarter) (h : Hdr) (i : Instr) (iss : Nat) (g : Nat → Flight → Flight) (ids : List Nat) (m : Mach) : Mach :=
  ids.foldl (fun m k => m.addFlight q h i iss k [k] [] false false (g k)) m

/-- The flights that have entered: one for each thread in order, with its keys and what `g` fixes. -/
theorem doneFlights_flights (q : Quarter) (h : Hdr) (i : Instr) (iss : Nat) (got : Nat → List (Nat × List Byte)) (ids : List Nat) : ∀ m : Mach,
    ∃ fs, (doneFlights q h i iss (fun k f => { f with got := got k }) ids m).flights = m.flights ++ fs ∧ fs.map (fun f => f.owner) = ids ∧
      ∀ f ∈ fs, f.iss = iss ∧ f.got = got f.owner := by
  induction ids with
  | nil => exact fun m => ⟨[], (List.append_nil _).symm, rfl, fun f hf => absurd hf List.not_mem_nil⟩
  | cons k ids ih =>
    intro m
    obtain ⟨fs, hfs, howners, hkeys⟩ := ih (m.addFlight q h i iss k [k] [] false false fun f => { f with got := got k })
    refine ⟨{ flightOf m q h i iss k [k] [] false with got := got k } :: fs, ?_, congrArg (k :: ·) howners,
      List.forall_mem_cons.2 ⟨⟨rfl, rfl⟩, hkeys⟩⟩
    rw [List.append_cons]
    exact hfs

/-- Each thread after its flight has entered. -/
theorem doneFlights_thr (q : Quarter) (h : Hdr) (i : Instr) (iss : Nat) (g : Nat → Flight → Flight) (ids : List Nat) : ∀ m : Mach, ids.Nodup →
    (∀ k ∈ ids, (m.thr? k).isSome) → Flown m (doneFlights q h i iss g ids m) ∧
    (∀ k, k ∉ ids → (doneFlights q h i iss g ids m).thr? k = m.thr? k) ∧
    ∀ k ∈ ids, ∃ uid, (doneFlights q h i iss g ids m).thr? k = (m.thr? k).map fun t => t.flown q.pc h.flag.toNat false uid m.cycle [] := by
  induction ids with
  | nil => exact fun m _ _ => ⟨.refl m, fun _ _ => rfl, fun k hk => absurd hk List.not_mem_nil⟩
  | cons j ids ih =>
    intro m hnd hsome
    obtain ⟨hj, hnd⟩ := List.nodup_cons.1 hnd
    have hstep := addFlight_thr m q h i iss j [] false false (g j) (hsome j List.mem_cons_self)
    obtain ⟨hflown, hother, hin⟩ := ih (m.addFlight q h i iss j [j] [] false false (g j)) hnd fun k hk => by
      rw [hstep, if_neg (ne_of_mem_of_not_mem hk hj)]
      exact hsome k (List.mem_cons_of_mem _ hk)
    refine ⟨(addFlight_flown m q h i iss j [j] [] false false (g j)).trans hflown, fun k hk => ?_, fun k hk => ?_⟩
    · exact (hother k (List.not_mem_of_not_mem_cons hk)).trans ((hstep k).trans (if_neg (List.ne_of_not_mem_cons hk)))
    · rcases List.mem_cons.1 hk with rfl | hk
      · exact ⟨m.next, (hother k hj).trans ((hstep k).trans (if_pos rfl))⟩
      · obtain ⟨uid, hthr⟩ := hin k hk
        refine ⟨uid, hthr.trans ?_⟩
        rw [hstep, if_neg (ne_of_mem_of_not_mem hk hj)]
        rfl

theorem scratchAcc_ok {m : Mach} {t : Thread} {off len algn l at_ : Nat} {e : Option TlbEnt} (h : scratchAcc m t off len algn = .ok l at_ e) :
    e = none := by
  have hif (c : Prop) [Decidable c] (x : Nat) (h : (if c then Acc.ok x 3 none else .trap 0x22) = .ok l at_ e) : e = none := by
    split at h <;> cases h
    rfl
  simp only [scratchAcc] at h
  split at h
  · cases h
  · split at h
    · split at h
      · exact hif _ _ h
      · cases h
    · split at h
      · cases h
      · split at h
        · cases h
        · split at h
          · exact hif _ _ h
          · cases h

/-- Of a thread stays what a post reads of it: its place in the order of threads, whom it posts for, its launch and its registers. -/
def PostSame (T U : Thread) : Prop := U.tid = T.tid ∧ U.path = T.path ∧ U.poster = T.poster ∧ U.launch = T.launch ∧ U.regs = T.regs

theorem postSame_issued {q : Quarter} {h : Hdr} {shift : Bool} {uid cycle : Nat} {ops : List PendOp} {T U : Thread}
    (hi : Issued q h shift uid cycle ops T U) : PostSame T U := by
  obtain ⟨-, -, -, -, -, -, hU⟩ := hi
  rw [hU]
  exact ⟨rfl, rfl, rfl, rfl, rfl⟩

/-- Threads that keep their place are ordered as before. -/
theorem inOrder_same {a b : Mach} (h : ∀ k, PostSame (a.thr k) (b.thr k)) (ids : List Nat) : b.inOrder ids = a.inOrder ids := by
  have hlt (x y : Nat) : Thread.lt (b.thr x) (b.thr y) = Thread.lt (a.thr x) (a.thr y) := by
    obtain ⟨hx, hpx, -⟩ := h x
    obtain ⟨hy, hpy, -⟩ := h y
    rw [Thread.lt, Thread.lt, hx, hy, hpx, hpy]
  simp only [Mach.inOrder, hlt]

/-- Where each listed key has an entry, looking the entries up gives one for each key, in the order of the list. -/
theorem owners_found (fs : List Flight) (ids : List Nat) (h : ∀ k ∈ ids, k ∈ fs.map fun f => f.owner) :
    (ids.filterMap fun id => fs.find? fun f => f.owner == id).map (fun f => f.owner) = ids := by
  induction ids with
  | nil => rfl
  | cons k ids ih =>
    obtain ⟨f, hf, hk⟩ := List.mem_map.1 (h k List.mem_cons_self)
    obtain ⟨g, hg⟩ := Option.isSome_iff_exists.1 (List.find?_isSome (p := fun f : Flight => f.owner == k).2 ⟨f, hf, beq_iff_eq.2 hk⟩)
    have hkey := List.find?_some hg
    rw [List.filterMap_cons_some (f := fun id => fs.find? fun f => f.owner == id) hg, List.map_cons, ih fun j hj => h j (List.mem_cons_of_mem _ hj), beq_iff_eq.1 hkey]

/-- THE SUBMISSIONS OF SEVERAL FLIGHTS enter one queue in their order. -/
theorem entries_submits {m : Mach} (n la : Nat) (fs : List Flight) : ∀ {m' : Mach}, PostFrame m m' → (∀ f ∈ fs, (m.thr f.owner).launch = la) →
    PostFrame m (fs.foldl (fun m f => m.submit (m.thr f.owner) n false f.bytes 0) m') ∧
    ((fs.foldl (fun m f => m.submit (m.thr f.owner) n false f.bytes 0) m').pair (m.launch la).rcb n).subs.map entryOf =
      (m'.pair (m.launch la).rcb n).subs.map entryOf ++ fs.map fun f => ((m.thr f.owner).poster, false, f.bytes, 0) := by
  induction fs with
  | nil => exact fun hf _ => ⟨hf, (List.append_nil _).symm⟩
  | cons f fs ih =>
    intro m' hf hla
    obtain ⟨hframe, hentries⟩ := ih (hf.trans (submit_frame m' (m'.thr f.owner) n false f.bytes 0)) fun g hg => hla g (List.mem_cons_of_mem _ hg)
    refine ⟨hframe, ?_⟩
    have hsub := entries_submit m' (m'.thr f.owner) n false f.bytes 0
    rw [hf.thr, hf.launch, hla f List.mem_cons_self] at hsub
    rw [List.foldl_cons, hentries, hf.thr, hsub, List.map_cons, List.append_assoc, List.singleton_append]

/-- The entry offset of a thread of the quarter. -/
theorem look_offs {s : State} {q : Quarter} (a : Spec) (hnd : q.tids.Nodup) {p : Nat × Nat} (hp : p ∈ q.active) :
    look 0 (s.mach.offs q a) p.2 = ((s.mach.thr p.2).rd (s.mach.fr p.1) a).toNat := by
  have hnd' : (q.active.map fun p => p.2).Nodup := hnd
  unfold look Mach.offs
  generalize q.active = l at hp hnd'
  induction l with
  | nil => exact absurd hp List.not_mem_nil
  | cons r l ih =>
    rw [List.map_cons, List.nodup_cons] at hnd'
    rcases List.mem_cons.1 hp with rfl | hp
    · simp
    · have hne : ¬r.2 = p.2 := fun e => hnd'.1 (e ▸ List.mem_map_of_mem hp)
      rw [List.map_cons, List.find?_cons_of_neg (by simpa using hne)]
      exact ih hp hnd'.2

/-- The bytes at the entry offset of a thread. -/
def postBytes (s : State) (q : Quarter) (a : Spec) (k : Nat) : List Byte :=
  s.mach.bytes (scratchAcc s.mach (s.mach.thr k) (look 0 (s.mach.offs q a) k) 64 64).loc 64

/-- The flights of a `qpost`, which have read their entries. -/
def postFlights (s : State) (q : Quarter) (h : Hdr) (n : BitVec 6) (a : Spec) : Mach :=
  (doneFlights q h (.qpost h n a) s.mach.next (fun k f => { f with got := [(0, postBytes s q a k)] }) q.tids (s.mach.take 1)).advanceLook q
    s.mach.next h.look.toNat

/-- The machine of a `qpost` that is accepted. -/
def postSubmitted (s : State) (q : Quarter) (h : Hdr) (n : BitVec 6) (a : Spec) : Mach :=
  ((postFlights s q h n a).issueOf s.mach.next).foldl (fun m f => m.submit (m.thr f.owner) n.toNat false f.bytes 0) (postFlights s q h n a)

/-- Every thread of the quarter can read its entry now. -/
def EntriesReadable (s : State) (q : Quarter) (a : Spec) : Prop := ∀ p ∈ q.active,
  (s.mach.readNow (s.mach.thr p.2) ((s.mach.thr p.2).rd (s.mach.fr p.1) a).toNat 64 64).acc.isOk = true ∧
  (s.mach.readNow (s.mach.thr p.2) ((s.mach.thr p.2).rd (s.mach.fr p.1) a).toNat 64 64).judge = [] ∧
  s.mach.readHeld (s.mach.thr p.2) ((s.mach.thr p.2).rd (s.mach.fr p.1) a).toNat 64 64 = false

/-- A read at issue that passes its checks is a flight with nothing to do. -/
theorem planIssue_readNow (m m' : Mach) (q : Quarter) (h : Hdr) (i : Instr) (iss : Nat) (g : Nat → Flight → Flight) (k : Nat) (t : Thread) (off : Nat)
    (hok : (m.readNow t off 64 64).acc.isOk = true) :
    m'.planIssue q h i iss false none g k (m.readNow t off 64 64) = m'.addFlight q h i iss k [k] [] false false (g k) := by
  have hacc : ∃ l at_, (m.readNow t off 64 64).acc = .ok l at_ none := by
    obtain ⟨l, at_, e, hacc⟩ := isOk_iff.1 hok
    have hacc' := hacc
    simp only [Mach.readNow] at hacc'
    split at hacc'
    · cases hacc'
    · rw [scratchAcc_ok hacc'] at hacc
      exact ⟨l, at_, hacc⟩
  obtain ⟨l, at_, hacc⟩ := hacc
  simp only [Mach.planIssue, hacc]
  rfl

theorem qpost_runs {s : State} {q : Quarter} {h : Hdr} {n : BitVec 6} {a : Spec} (hr : Running s q) (hfree : AllFree s q)
    (hn : PairNamed s q n.toNat) (ho : PairOpen s q n.toNat q.tids.length) (hread : EntriesReadable s q a) :
    exec (.qpost h n a) s = .next (State.settle { s with mach := postSubmitted s q h n a }) := by
  obtain ⟨hq, hnd, hsome, -⟩ := hr
  have hid : ∀ p ∈ q.active, (s.mach.thr p.2).id = p.2 := fun p hp => thr_id (hsome _ (mem_tids hp))
  have hwait : s.mach.postWaits q.tids = false := by
    rw [Mach.postWaits, List.any_eq_false]
    intro k hk
    simp [(hfree k hk).1]
  have hheld : ((s.mach.offs q a).any fun p => s.mach.readHeld (s.mach.thr p.1) p.2 64 64) = false := by
    rw [List.any_eq_false]
    intro p hp
    obtain ⟨r, hr, rfl⟩ := List.mem_map.1 hp
    simp [(hread r hr).2.2]
  have hissue := memIssue_eq (s := s) (q := q) h (.qpost h n a) false none (fun _ t => s.mach.readNow t (look 0 (s.mach.offs q a) t.id) 64 64)
    noWide memFin (fun k f => { f with got := [(0, postBytes s q a k)] }) hq fun p hp => by
      rw [hid p hp, look_offs a hnd hp]; exact ⟨(hread p hp).1, (hread p hp).2.1⟩
  have hfold : q.active.foldl (fun m p => m.planIssue q h (.qpost h n a) s.mach.next false none (fun k f => { f with got := [(0, postBytes s q a k)] })
      p.2 (s.mach.readNow (s.mach.thr p.2) (look 0 (s.mach.offs q a) (s.mach.thr p.2).id) 64 64)) (s.mach.take 1) =
      doneFlights q h (.qpost h n a) s.mach.next (fun k f => { f with got := [(0, postBytes s q a k)] }) q.tids (s.mach.take 1) := by
    rw [doneFlights, Quarter.tids, List.foldl_map]
    refine List.foldl_ext _ _ _ fun m p hp => planIssue_readNow _ _ _ _ _ _ _ _ _ _ ?_
    rw [hid p hp, look_offs a hnd hp]
    exact (hread p hp).1
  rw [hfold] at hissue
  have hgo : (doneFlights q h (.qpost h n a) s.mach.next (fun k f => { f with got := [(0, postBytes s q a k)] }) q.tids (s.mach.take 1)).goOn q.id
      s.mach.next h.look.toNat = postFlights s q h n a := by
    have hflown := (doneFlights_thr q h (.qpost h n a) s.mach.next (fun k f => { f with got := [(0, postBytes s q a k)] }) q.tids (s.mach.take 1) hnd
      hsome).1
    have hquarter : (doneFlights q h (.qpost h n a) s.mach.next (fun k f => { f with got := [(0, postBytes s q a k)] }) q.tids
        (s.mach.take 1)).quarter? q.id = some q := by
      rw [hflown.1, quarter?_id hq]; exact hq
    simp only [Mach.goOn, hquarter]
    rfl
  rw [hgo] at hissue
  have hexec : exec (.qpost h n a) s = .next (State.settle { s with mach := (s.mach.withQ fun q => s.mach.pairRange h q n.toNat (
      if s.mach.postWaits q.tids || ((s.mach.offs q a).any fun p => s.mach.readHeld (s.mach.thr p.1) p.2 64 64) then s.mach.waitQ q .flags
      else if !s.mach.subRoom (s.mach.launch q.launch) n.toNat q.tids.length then s.mach.waitQ q (.queue n.toNat q.tids.length)
      else
        let m := s.mach.memIssue s.sys h (.qpost h n a) false none (fun _ t => s.mach.readNow t (look 0 (s.mach.offs q a) t.id) 64 64) noWide memFin
          fun k f => { f with got := [(0, postBytes s q a k)] }
        (m.issueOf s.mach.next).foldl (fun m f => m.submit (m.thr f.owner) n.toNat false f.bytes 0) m)) }) := rfl
  rw [hexec]
  simp only [Mach.withQ, hq, pairRange_named h _ hn, hwait, hheld, subRoom_open ho, Bool.or_self, Bool.not_true, Bool.false_eq_true, if_false, hissue]
  rfl

/-- What the flights of a `qpost` leave of the machine and of each thread. -/
theorem postFlights_spec {s : State} {q : Quarter} (h : Hdr) (n : BitVec 6) (a : Spec) (hr : Running s q) (hfresh : FreshKeys s.mach) :
    (∀ k, PostSame (s.mach.thr k) ((postFlights s q h n a).thr k)) ∧
    (∃ q', (postFlights s q h n a).quarter? q.id = some q' ∧ q'.pc = q.pc + 8 ∧ q'.slots = q.slots) ∧
    (postFlights s q h n a).mem = s.mach.mem ∧ (postFlights s q h n a).qpairs = s.mach.qpairs ∧ (postFlights s q h n a).launches = s.mach.launches ∧
    ((postFlights s q h n a).issueOf s.mach.next).map (fun f => f.owner) = s.mach.inOrder q.tids ∧
    ∀ f ∈ (postFlights s q h n a).issueOf s.mach.next, f.bytes = postBytes s q a f.owner := by
  obtain ⟨hq, hnd, hsome, hend⟩ := hr
  obtain ⟨fs, hfs, howners, hkeys⟩ := doneFlights_flights q h (.qpost h n a) s.mach.next (fun k => [(0, postBytes s q a k)]) q.tids (s.mach.take 1)
  obtain ⟨hflown, hother, hin⟩ := doneFlights_thr q h (.qpost h n a) s.mach.next (fun k f => { f with got := [(0, postBytes s q a k)] }) q.tids
    (s.mach.take 1) hnd hsome
  have hm : (postFlights s q h n a) = (doneFlights q h (.qpost h n a) s.mach.next (fun k f => { f with got := [(0, postBytes s q a k)] }) q.tids
    (s.mach.take 1)).advanceLook q s.mach.next h.look.toNat := rfl
  generalize postFlights s q h n a = m2 at hm
  generalize doneFlights q h (.qpost h n a) s.mach.next (fun k f => { f with got := [(0, postBytes s q a k)] }) q.tids (s.mach.take 1) = m1 at *
  obtain ⟨hthr, -, ⟨q', hfind, hpc, hslots, -, -⟩, hleft⟩ := advanceLook_spec m1 q s.mach.next h.look.toNat
    (by rw [hflown.1, quarter?_id hq]; exact hq) (by rw [hflown.1]; exact hend)
  rw [← hm] at hthr hfind hleft
  have hsame : ∀ k, PostSame (s.mach.thr k) (m2.thr k) := by
    intro k
    by_cases hk : k ∈ q.tids
    · obtain ⟨uid, hk1⟩ := hin k hk
      obtain ⟨t, ht⟩ := Option.isSome_iff_exists.1 (hsome k hk)
      have ht' : (s.mach.take 1).thr? k = some t := ht
      have h2 : m2.thr? k = some ((t.flown q.pc h.flag.toNat false uid (s.mach.take 1).cycle []).moved q.isLast) := by
        rw [hthr, hk1, ht', Option.map_some, Option.map_some, if_pos (List.contains_iff_mem.2 hk)]
      rw [thr_of ht, thr_of h2]
      exact postSame_issued (flown_issued q h false uid _ [] t)
    · have h2 : m2.thr? k = s.mach.thr? k := by
        rw [hthr, hother k hk]
        show Option.map _ (s.mach.thr? k) = _
        cases s.mach.thr? k <;> simp [hk]
      have heq : m2.thr k = s.mach.thr k := by rw [Mach.thr, h2]; rfl
      rw [heq]
      exact ⟨rfl, rfl, rfl, rfl, rfl⟩
  have hflights : m2.flights = s.mach.flights ++ fs := by rw [hleft]; exact hfs
  have hmine : m2.flights.filter (fun f => f.iss == s.mach.next) = fs := by
    have hold : s.mach.flights.filter (fun f => f.iss == s.mach.next) = [] := by
      rw [List.filter_eq_nil_iff]
      intro f hf
      have := (hfresh f hf).1
      simpa using this.ne
    have hnew : fs.filter (fun f => f.iss == s.mach.next) = fs := by
      rw [List.filter_eq_self]
      intro f hf
      exact beq_iff_eq.2 (hkeys f hf).1
    rw [hflights, List.filter_append, hold, hnew, List.nil_append]
  have hissue : m2.issueOf s.mach.next = (s.mach.inOrder q.tids).filterMap fun id => fs.find? fun f => f.owner == id := by
    simp only [Mach.issueOf, hmine, howners, inOrder_same hsame]
  refine ⟨hsame, ⟨q', hfind, hpc, hslots⟩, ?_, ?_, ?_, ?_, ?_⟩
  · rw [hleft]
    show m1.mem = _
    rw [hflown.1]
    rfl
  · rw [hleft]
    show m1.qpairs = _
    rw [hflown.1]
    rfl
  · rw [hleft]
    show m1.launches = _
    rw [hflown.1]
    rfl
  · rw [hissue]
    exact owners_found _ _ fun k hk => by rw [howners]; exact (perm_inOrder s.mach q.tids).mem_iff.1 hk
  · intro f hf
    rw [hissue] at hf
    obtain ⟨k, -, hk⟩ := List.mem_filterMap.1 hf
    obtain ⟨-, hgot⟩ := hkeys f (List.mem_of_find?_eq_some hk)
    simp [Flight.bytes, hgot, sortBy, insertBy]

theorem qpost_submits {s : State} {q : Quarter} {h : Hdr} {n : BitVec 6} {a : Spec} (hr : Running s q) (hfresh : FreshKeys s.mach) (hfree : AllFree s q)
    (hn : PairNamed s q n.toNat) (ho : PairOpen s q n.toNat q.tids.length) (hread : EntriesReadable s q a) :
    ∃ t, exec (.qpost h n a) s = .next t ∧ MemoryKept s t ∧ RegistersKept s t ∧
      (∃ q', t.mach.quarter? q.id = some q' ∧ q'.pc = q.pc + 8 ∧ q'.slots = q.slots) ∧
      (t.mach.pair (t.mach.launch q.launch).rcb n.toNat).subs.map entryOf =
        (s.mach.pair (s.mach.launch q.launch).rcb n.toNat).subs.map entryOf ++
          (s.mach.inOrder q.tids).map fun k => ((s.mach.thr k).poster, false, postBytes s q a k, 0) := by
  obtain ⟨hsame, ⟨q', hfind, hq'⟩, hmem, hpairs, hlaunches, howners, hbytes⟩ := postFlights_spec h n a hr hfresh
  have hin : ∀ f ∈ (postFlights s q h n a).issueOf s.mach.next, f.owner ∈ q.tids := fun f hf =>
    (perm_inOrder s.mach q.tids).mem_iff.1 (howners ▸ List.mem_map_of_mem hf)
  obtain ⟨hframe, hentries⟩ := entries_submits n.toNat q.launch ((postFlights s q h n a).issueOf s.mach.next) (.refl (postFlights s q h n a))
    fun f hf => (hsame f.owner).2.2.2.1.trans (hfree _ (hin f hf)).2
  have hlaunch : (postFlights s q h n a).launch q.launch = s.mach.launch q.launch := by rw [Mach.launch, Mach.launch?, hlaunches]; rfl
  refine ⟨_, qpost_runs hr hfree hn ho hread, fun x => ?_, fun k => ?_, ⟨q', ?_, hq'⟩, ?_⟩
  · show (postSubmitted s q h n a).mem.read x = _
    rw [postSubmitted, hframe.mem, hmem]
  · show ((postSubmitted s q h n a).thr k).regs = _
    rw [postSubmitted, hframe.thr]
    exact (hsame k).2.2.2.2
  · show (postSubmitted s q h n a).quarter? q.id = _
    rw [postSubmitted, Mach.quarter?, hframe.quarters]
    exact hfind
  · show ((postSubmitted s q h n a).pair ((postSubmitted s q h n a).launch q.launch).rcb n.toNat).subs.map entryOf = _
    have hrcb : (postSubmitted s q h n a).launch q.launch = (postFlights s q h n a).launch q.launch := hframe.launch q.launch
    rw [hrcb, postSubmitted, hentries, hlaunch, Mach.pair, Mach.pair?, hpairs]
    congr 1
    rw [← howners, List.map_map]
    refine List.map_congr_left fun f hf => ?_
    rw [(hsame f.owner).2.2.1, hbytes f hf]
    rfl

/-- Settles O19: a submission enters at the end of its queue, in ascending thread order; a fence that passes takes the oldest record. -/
theorem queuesComplete : Obligations.QueuesComplete := by
  unfold Obligations.QueuesComplete
  intro h n a d x
  refine ⟨fun s q hr hfresh hfree hn ho hread => ?_, rlinv_accepts h n a, fun hx => qfence_accepts h n x d hx, fun hx s q hr hne hok => ?_⟩
  · obtain ⟨t, hexec, hmem, hregs, hq, hentries⟩ := qpost_submits (h := h) hr hfresh hfree hn ho hread
    refine ⟨t, hexec, hmem, hregs, hq, _, hentries, ?_, fun p hp => ?_⟩
    · rw [List.map_map]; rfl
    · refine List.mem_map.2 ⟨p.2, (perm_inOrder s.mach q.tids).mem_iff.2 (mem_tids hp), ?_⟩
      rw [postBytes, look_offs a hr.2.1 hp]
  · obtain ⟨t, f, hexec, hmem, hgroup, hdone, hwrites, hrets⟩ := qfence_records h n x d hx hr hne hok.1 hok.2
    refine ⟨t, f, hexec, hmem, hgroup, hdone, ?_, hrets⟩
    rw [hwrites]
    cases (s.mach.pair (s.mach.launch q.launch).rcb n.toNat).rets <;> rfl

end Sys2Proof.Machine
end

section
/-! SUPPORT. Rings (spec/17 R420-R422): what `rwait`, `rdone` and `rclose` leave. -/

namespace Sys2Proof.Machine

/-! ### The table of rings and their slots -/

theorem ring?_key {m : Mach} {c n : Nat} {g : Ring} (h : m.ring? c n = some g) : g.core = c ∧ g.num = n := by
  simpa using List.find?_some h

theorem ring?_setRing {m : Mach} {c n : Nat} {g : Ring} (hc : g.core = c) (hn : g.num = n) : (m.setRing g).ring? c n = some g := by
  subst hc hn
  simp [Mach.ring?, Mach.setRing]

theorem setRing_frame (m : Mach) (g : Ring) : PostFrame m (m.setRing g) := ⟨rfl, rfl, rfl, rfl, rfl⟩

theorem slot_setSlot (g : Ring) (k : Nat) (x : RingSlot) (hk : k < g.slots.length) (i : Nat) :
    (g.setSlot k x).slot i = if i = k then x else g.slot i := by
  unfold Ring.slot Ring.setSlot modAt
  simp only [List.getD_eq_getElem?_getD]
  by_cases hi : i = k
  · subst hi
    simp [hk]
  · rw [if_neg hi]
    simp [hi]

theorem liveRing_of {m : Mach} {q : Quarter} {n : Nat} {g : Ring} {b : Bool} (h : m.ring? q.core n = some g) (hl : g.launch = q.launch)
    (hc : b = true ∨ g.closed = false) : m.liveRing q n b = some g := by
  rw [Mach.liveRing, h]
  rcases hc with hc | hc <;> simp [hl, hc]

theorem ringBase_owner (m : Mach) {t : Thread} {g : Ring} (h : t.wave = g.owner) : m.ringBase t g = some g.slotOff := by
  rw [Mach.ringBase, if_pos h]

/-- A ring with producers to come does not close. -/
theorem ringClose_open {m : Mach} {c n : Nat} {g : Ring} (h : m.ring? c n = some g) (hm : g.marks.length < g.nprod) : m.ringClose c n = m := by
  simp [Mach.ringClose, h, hm]

/-! ### `rwait` -/

/-- The lowest active thread. -/
def lowThr (s : State) (q : Quarter) : Thread := s.mach.thr (s.mach.lowestOf q)

theorem lowThr_id {s : State} {q : Quarter} (hr : Running s q) (hne : q.tids ≠ []) : (lowThr s q).id = s.mach.lowestOf q :=
  thr_id (hr.2.2.1 _ (lowestOf_mem s.mach q hne))

theorem acquire_ready {s : State} {q : Quarter} (h : ∀ k ∈ q.tids, (s.mach.thr k).acquireReady = true) :
    (q.tids.any fun t => !(s.mach.thr t).acquireReady) = false := by
  rw [List.any_eq_false]
  intro k hk
  simp [h k hk]

theorem exec_rwait (s : State) (h : Hdr) (r : BitVec 4) (d : Spec) : exec (.rwait h r d) s = .next (State.settle { s with mach := (s.mach.withQ fun q =>
    match s.mach.liveRing q r.toNat true with
    | none => s.mach.raiseQ q 0x51 h.flag.toNat fun _ => 0
    | some g =>
      if q.tids.any fun t => !(s.mach.thr t).acquireReady then s.mach.waitQ q .flags
      else if g.closed then s.mach.passWait q.id h (.rwait h r d) (some d) fun _ => [0xFFFFFFFF, 0]
      else if !g.ready then s.mach.waitQ q (.ring r.toNat)
      else match s.mach.ringBase (lowThr s q) g with
        | none => s.mach.raiseQ q 0x2A h.flag.toNat fun _ => 0
        | some base =>
          let x := { g.slot g.want with st := .held (lowThr s q).wave }
          let g' := g.setSlot g.want x
          let g' := if g.drain then { g' with fillAt := g.next g.want } else { g' with takeAt := g.next g.want }
          (((s.mach.setRing g').acquire (lowThr s q).id 3 (.slot q.core g.num g.want)).relLearn (lowThr s q) (g.slot g.want).rel
            (g.slot g.want).many).passWait q.id h (.rwait h r d) (some d)
              fun _ => [wN (base + g.want * g.slotBytes), g.metaWord (g.slot g.want)]) }) := rfl

/-- What is left of the machine by a wait for a slot that passes from `m`: a finished flight with the words, no copy of the core, and the rings of `m`. -/
theorem rwait_left {s : State} {q : Quarter} {m : Mach} {h : Hdr} {r : BitVec 4} {d : Spec} {ws : List Word} (hr : Running s q) (hne : q.tids ≠ [])
    (hf : PostFrame s.mach m)
    (he : exec (.rwait h r d) s = .next (State.settle { s with mach := m.passWait q.id h (.rwait h r d) (some d) fun _ => ws })) :
    ∃ t f, exec (.rwait h r d) s = .next t ∧ MemoryKept s t ∧ GroupFlight s t q h (.rwait h r d) true [] f ∧ f.done = true ∧
      f.writes = q.tids.map (fun k => (k, spWords d ws)) ∧ (∀ c ∈ t.mach.copies, c.core ≠ q.core) ∧ t.mach.rings = m.rings := by
  obtain ⟨hkept, ⟨f, hgroup, hdone, hwrites⟩, hleft⟩ := passWait_left (h := h) (i := .rwait h r d) d (fun _ => ws) hr hne hf
  unfold PostLeft at hleft
  refine ⟨_, f, he, hkept, hgroup, hdone, hwrites, fun c hc => ?_, (congrArg Mach.rings hleft :)⟩
  have hcopies := congrArg Mach.copies hleft
  exact dropCopies_core m q.core c (hcopies ▸ hc)

theorem rwait_closed {s : State} {q : Quarter} {g : Ring} {h : Hdr} {r : BitVec 4} {d : Spec} (hr : Running s q)
    (hg : s.mach.ring? q.core r.toNat = some g) (hl : g.launch = q.launch) (hready : ∀ k ∈ q.tids, (s.mach.thr k).acquireReady = true)
    (hc : g.closed = true) :
    exec (.rwait h r d) s = .next (State.settle { s with mach := s.mach.passWait q.id h (.rwait h r d) (some d) fun _ => [0xFFFFFFFF, 0] }) := by
  rw [exec_rwait]
  simp only [Mach.withQ, hr.1, liveRing_of (b := true) hg hl (.inl rfl), acquire_ready hready, Bool.false_eq_true, if_false, hc, if_true]

/-- The ring after the slot that is wanted has been taken by a wave. -/
def takenRing (g : Ring) (wave : Nat) : Ring :=
  let g' := g.setSlot g.want { g.slot g.want with st := .held wave }
  if g.drain then { g' with fillAt := g.next g.want } else { g' with takeAt := g.next g.want }

theorem takenRing_spec (g : Ring) (wave : Nat) (hw : g.want < g.slots.length) :
    (takenRing g wave).core = g.core ∧ (takenRing g wave).num = g.num ∧ ((takenRing g wave).slot g.want).st = .held wave ∧
    (∀ i, i ≠ g.want → (takenRing g wave).slot i = g.slot i) ∧ (takenRing g wave).want = (g.want + 1) % g.slots.length := by
  have hslots : ∀ i, (takenRing g wave).slot i = (g.setSlot g.want { g.slot g.want with st := .held wave }).slot i := by
    intro i
    unfold takenRing
    cases g.drain <;> rfl
  refine ⟨?_, ?_, ?_, fun i hi => ?_, ?_⟩
  · unfold takenRing; cases g.drain <;> rfl
  · unfold takenRing; cases g.drain <;> rfl
  · rw [hslots, slot_setSlot g _ _ hw, if_pos rfl]
  · rw [hslots, slot_setSlot g _ _ hw, if_neg hi]
  · unfold takenRing Ring.want Ring.next
    cases hd : g.drain <;> simp [Ring.setSlot, hd]

/-- The machine of an `rwait` that takes a slot. -/
def ringTaken (s : State) (q : Quarter) (g : Ring) : Mach :=
  (((s.mach.setRing (takenRing g (lowThr s q).wave)).acquire (lowThr s q).id 3 (.slot q.core g.num g.want)).relLearn (lowThr s q)
    (g.slot g.want).rel (g.slot g.want).many)

theorem ringTaken_frame (s : State) (q : Quarter) (g : Ring) : PostFrame s.mach (ringTaken s q g) ∧
    (ringTaken s q g).rings = (s.mach.setRing (takenRing g (lowThr s q).wave)).rings := by
  obtain ⟨ws, hl⟩ := relLearn_frame ((s.mach.setRing (takenRing g (lowThr s q).wave)).acquire (lowThr s q).id 3 (.slot q.core g.num g.want))
    (lowThr s q) (g.slot g.want).rel (g.slot g.want).many
  rw [ringTaken, hl]
  exact ⟨⟨rfl, rfl, rfl, rfl, rfl⟩, rfl⟩

theorem rwait_takes {s : State} {q : Quarter} {g : Ring} {h : Hdr} {r : BitVec 4} {d : Spec} (hr : Running s q)
    (hg : s.mach.ring? q.core r.toNat = some g) (hl : g.launch = q.launch) (hready : ∀ k ∈ q.tids, (s.mach.thr k).acquireReady = true)
    (hc : g.closed = false) (hslot : g.ready = true) (ho : (lowThr s q).wave = g.owner) :
    exec (.rwait h r d) s = .next (State.settle { s with mach := ((ringTaken s q g).passWait q.id h (.rwait h r d) (some d)
      fun _ => [wN (g.slotOff + g.want * g.slotBytes), g.metaWord (g.slot g.want)]) }) := by
  rw [exec_rwait]
  simp only [Mach.withQ, hr.1, liveRing_of (b := true) hg hl (.inl rfl), acquire_ready hready, Bool.false_eq_true, if_false, hc, hslot, Bool.not_true,
    ringBase_owner s.mach ho]
  rfl

/-! ### Posts on rings -/

/-- A post on a ring whose check holds is accepted. -/
theorem ringPost_eq {s : State} {q : Quarter} {g : Ring} {n : Nat} {m : Mach} (h : Hdr) (i : Instr) (f : Mach → Quarter → Thread → Ring → Option Mach)
    (hr : Running s q) (hne : q.tids ≠ []) (hlow : LowFree s q) (hg : s.mach.ring? q.core n = some g) (hl : g.launch = q.launch)
    (hc : g.closed = false) (hf : f s.mach q (lowThr s q) g = some m) : s.mach.ringPost h i n f = m.accepted q h i := by
  have hwait : s.mach.postWaits [(lowThr s q).id] = false := by
    have hpend : (s.mach.thr (s.mach.lowestOf q)).pend = [] := hlow
    simp [Mach.postWaits, lowThr_id hr hne, hpend]
  have hpost : s.mach.ringPost h i n f = s.mach.withQ fun q =>
      match s.mach.liveRing q n false with
      | none => s.mach.raiseQ q 0x51 h.flag.toNat fun _ => 0
      | some g =>
        if s.mach.postWaits [(lowThr s q).id] then s.mach.waitQ q .flags
        else match f s.mach q (lowThr s q) g with
          | none => s.mach.raiseQ q 0x5A h.flag.toNat fun _ => 0
          | some m => m.accepted q h i := rfl
  rw [hpost]
  simp only [Mach.withQ, hr.1, liveRing_of (b := false) hg hl (.inr hc), hwait, Bool.false_eq_true, if_false, hf]

/-- The offset that the lowest active thread names. -/
def ringOff (s : State) (q : Quarter) (a : Spec) : Nat := ((lowThr s q).rd (s.mach.thrFr (s.mach.lowestOf q)) a).toNat

/-- The slot of a ring whose offset an `rdone` gives, where the wave holds it. -/
def ringHit (m : Mach) (t : Thread) (g : Ring) (off : Nat) : Option Nat := (List.range g.slots.length).find? fun k =>
  (m.ringBase t g).any (fun b => b + k * g.slotBytes == off) && (g.slot k).st == .held t.wave

/-- The slot given back: full where the ring drains, else empty. -/
def doneSlot (m : Mach) (q : Quarter) (t : Thread) (g : Ring) (k : Nat) : RingSlot :=
  let s := (g.slot k).released ((m.release t 3 (.slot g.core g.num k)).relOf q.launch t.wave)
  if g.drain then { s with st := .full, valid := g.slotBytes, prod := t.wave } else { s with st := .empty }

/-- What an `rdone` of a slot leaves before the ring may close. -/
def ringDone (m : Mach) (q : Quarter) (t : Thread) (g : Ring) (k : Nat) : Mach :=
  (m.release t 3 (.slot g.core g.num k)).setRing (g.setSlot k (doneSlot m q t g k))

theorem exec_rdone (s : State) (h : Hdr) (r : BitVec 4) (a : Spec) : exec (.rdone h r a) s = .next (State.settle { s with mach :=
    (s.mach.ringPost h (.rdone h r a) r.toNat fun m q t g => (ringHit m t g ((t.rd (m.thrFr t.id) a).toNat)).map fun k =>
      (ringDone m q t g k).ringClose g.core g.num) }) := rfl

/-- The slot of a wave's own ring at an offset is the one that an `rdone` of it gives back. -/
theorem ringHit_owner {m : Mach} {t : Thread} {g : Ring} {k off : Nat} (ho : t.wave = g.owner) (hk : k < g.slots.length) (hb : 0 < g.slotBytes)
    (hoff : g.slotOff + k * g.slotBytes = off) (hheld : (g.slot k).st = .held g.owner) : ringHit m t g off = some k := by
  have hat (j : Nat) : ((m.ringBase t g).any (fun b => b + j * g.slotBytes == off) && (g.slot j).st == .held t.wave) = true → j = k := by
    rw [ringBase_owner m ho, Bool.and_eq_true]
    rintro ⟨hj, -⟩
    have hmul : j * g.slotBytes = k * g.slotBytes := by
      have : g.slotOff + j * g.slotBytes = off := by simpa using hj
      omega
    exact Nat.eq_of_mul_eq_mul_right hb hmul
  have hself : ((m.ringBase t g).any (fun b => b + k * g.slotBytes == off) && (g.slot k).st == .held t.wave) = true := by
    rw [ringBase_owner m ho, hheld, ho]
    simp [hoff]
  obtain ⟨j, hj⟩ := Option.isSome_iff_exists.1 (List.find?_isSome (p := fun k =>
    (m.ringBase t g).any (fun b => b + k * g.slotBytes == off) && (g.slot k).st == .held t.wave).2 ⟨k, List.mem_range.2 hk, hself⟩)
  have hjk := hat j (List.find?_some (p := fun k =>
    (m.ringBase t g).any (fun b => b + k * g.slotBytes == off) && (g.slot k).st == .held t.wave) hj)
  rw [ringHit, hj, hjk]

theorem ringDone_frame (m : Mach) (q : Quarter) (t : Thread) (g : Ring) (k : Nat) : PostFrame m (ringDone m q t g k) :=
  (release_postFrame m t 3 _).trans (setRing_frame _ _)

theorem ringDone_ring (m : Mach) (q : Quarter) (t : Thread) {g : Ring} (k : Nat) : (ringDone m q t g k).ring? g.core g.num =
    some (g.setSlot k (doneSlot m q t g k)) := ring?_setRing rfl rfl

/-- The ring is the quarter's own, fills, and its lowest thread's wave holds slot `k`, at the offset that the instruction names; producers are
still to come. -/
def DoneReady (s : State) (q : Quarter) (r : BitVec 4) (a : Spec) (g : Ring) (k : Nat) : Prop :=
  s.mach.ring? q.core r.toNat = some g ∧ g.launch = q.launch ∧ g.closed = false ∧ g.drain = false ∧ (lowThr s q).wave = g.owner ∧
  k < g.slots.length ∧ 0 < g.slotBytes ∧ g.marks.length < g.nprod ∧ g.slotOff + k * g.slotBytes = ringOff s q a ∧ (g.slot k).st = .held g.owner

theorem rdone_runs {s : State} {q : Quarter} {h : Hdr} {r : BitVec 4} {a : Spec} {g : Ring} {k : Nat} (hr : Running s q) (hne : q.tids ≠ [])
    (hlow : LowFree s q) (hd : DoneReady s q r a g k) :
    exec (.rdone h r a) s = .next (State.settle { s with mach := (ringDone s.mach q (lowThr s q) g k).accepted q h (.rdone h r a) }) := by
  obtain ⟨hg, hl, hc, -, ho, hk, hb, hm, hoff, hheld⟩ := hd
  rw [exec_rdone, ringPost_eq h (.rdone h r a) _ hr hne hlow hg hl hc]
  rw [lowThr_id hr hne]
  have hhit : ringHit s.mach (lowThr s q) g ((lowThr s q).rd (s.mach.thrFr (s.mach.lowestOf q)) a).toNat = some k := ringHit_owner ho hk hb hoff hheld
  rw [hhit, Option.map_some, ringClose_open (ringDone_ring s.mach q (lowThr s q) k) hm]

/-- The machine of an `rdone` that is accepted. -/
def rdoneMach (r : BitVec 4) (a : Spec) (s : State) (q : Quarter) : Mach :=
  ((s.mach.ring? q.core r.toNat).bind fun g => (ringHit s.mach (lowThr s q) g (ringOff s q a)).map fun k =>
    ringDone s.mach q (lowThr s q) g k).getD s.mach

theorem rdoneMach_ready {s : State} {q : Quarter} {r : BitVec 4} {a : Spec} {g : Ring} {k : Nat} (hd : DoneReady s q r a g k) :
    rdoneMach r a s q = ringDone s.mach q (lowThr s q) g k := by
  obtain ⟨hg, -, -, -, ho, hk, hb, -, hoff, hheld⟩ := hd
  rw [rdoneMach, hg, Option.bind_some, ringHit_owner ho hk hb hoff hheld]
  rfl

theorem rdone_accepts (h : Hdr) (r : BitVec 4) (a : Spec) : Accepts (.rdone h r a) h (fun s q => LowFree s q ∧ ∃ g k, DoneReady s q r a g k)
    (fun s q t => ∀ g k, s.mach.ring? q.core r.toNat = some g → g.slotOff + k * g.slotBytes = ringOff s q a → k < g.slots.length →
      ∃ g', t.mach.ring? q.core r.toNat = some g' ∧ (g'.slot k).st = .empty ∧ ∀ i, i ≠ k → g'.slot i = g.slot i) := by
  refine accepts_of_accepted (rdoneMach r a) (fun s q hr hne ⟨hlow, g, k, hd⟩ => ?_) (fun s q _ _ ⟨_, g, k, hd⟩ => ?_)
    fun s q t _ _ ⟨_, g, k, hd⟩ hleft g' k' hg' hoff' hk' => ?_
  · rw [rdone_runs hr hne hlow hd, rdoneMach_ready hd]
  · rw [rdoneMach_ready hd]
    exact ringDone_frame ..
  · rw [rdoneMach_ready hd] at hleft
    obtain ⟨hg, -, -, hdrain, -, hk, hb, -, hoff, -⟩ := hd
    obtain ⟨hcore, hnum⟩ := ring?_key hg
    obtain rfl : g' = g := Option.some.inj (hg'.symm.trans hg)
    have hkk : k' = k := by
      have hmul : k' * g'.slotBytes = k * g'.slotBytes := by omega
      exact Nat.eq_of_mul_eq_mul_right hb hmul
    subst hkk
    unfold PostLeft at hleft
    have hrings : t.mach.rings = (ringDone s.mach q (lowThr s q) g' k').rings := (congrArg Mach.rings hleft :)
    have hring := ringDone_ring s.mach q (lowThr s q) (g := g') k'
    rw [hcore, hnum, Mach.ring?, ← hrings] at hring
    refine ⟨_, hring, ?_, fun i hi => ?_⟩
    · rw [slot_setSlot g' _ _ hk, if_pos rfl, doneSlot, hdrain]
      rfl
    · rw [slot_setSlot g' _ _ hk, if_neg hi]

theorem exec_rclose (s : State) (h : Hdr) (r : BitVec 4) : exec (.rclose h r) s = .next (State.settle { s with mach :=
    (s.mach.ringPost h (.rclose h r) r.toNat fun m _ t g =>
      if !g.drain || g.marks.contains t.wave || decide (g.nprod ≤ g.marks.length) then none
      else some (((m.release t 3 (.slot g.core g.num g.takeAt)).setRing { g with marks := g.marks ++ [t.wave] }).ringClose g.core g.num)) }) := rfl

/-- The machine of an `rclose` that is accepted. -/
def rcloseMach (r : BitVec 4) (s : State) (q : Quarter) : Mach :=
  ((s.mach.ring? q.core r.toNat).map fun g =>
    (s.mach.release (lowThr s q) 3 (.slot g.core g.num g.takeAt)).setRing { g with marks := g.marks ++ [(lowThr s q).wave] }).getD s.mach

theorem rclose_accepts (h : Hdr) (r : BitVec 4) : Accepts (.rclose h r) h
    (fun s q => LowFree s q ∧ ∃ g, s.mach.ring? q.core r.toNat = some g ∧ g.launch = q.launch ∧ g.closed = false ∧ g.drain = true ∧
      (lowThr s q).wave ∉ g.marks ∧ g.marks.length + 1 < g.nprod)
    (fun s q t => ∀ g, s.mach.ring? q.core r.toNat = some g → t.mach.ring? q.core r.toNat = some { g with marks := g.marks ++ [(lowThr s q).wave] }) := by
  have hmach {s : State} {q : Quarter} {g : Ring} (hg : s.mach.ring? q.core r.toNat = some g) : rcloseMach r s q =
      (s.mach.release (lowThr s q) 3 (.slot g.core g.num g.takeAt)).setRing { g with marks := g.marks ++ [(lowThr s q).wave] } := by
    rw [rcloseMach, hg]; rfl
  refine accepts_of_accepted (rcloseMach r) (fun s q hr hne ⟨hlow, g, hg, hl, hc, hdrain, hmark, hopen⟩ => ?_)
    (fun s q _ _ ⟨_, g, hg, _⟩ => ?_) fun s q t _ _ _ hleft g hg => ?_
  · rw [exec_rclose, ringPost_eq h (.rclose h r) _ hr hne hlow hg hl hc]
    have hok : (!g.drain || g.marks.contains (lowThr s q).wave || decide (g.nprod ≤ g.marks.length)) = false := by
      have hroom : ¬g.nprod ≤ g.marks.length := by omega
      simp [hdrain, hmark, hroom]
    rw [hok, hmach hg, ringClose_open (g := { g with marks := g.marks ++ [(lowThr s q).wave] }) (ring?_setRing rfl rfl)
      (by rw [List.length_append]; exact hopen)]
    rfl
  · rw [hmach hg]
    exact (release_postFrame ..).trans (setRing_frame _ _)
  · rw [hmach hg] at hleft
    obtain ⟨hcore, hnum⟩ := ring?_key hg
    unfold PostLeft at hleft
    have hrings := congrArg Mach.rings hleft
    show t.mach.ring? q.core r.toNat = _
    rw [Mach.ring?, hrings]
    exact ring?_setRing (m := s.mach.release (lowThr s q) 3 (.slot g.core g.num g.takeAt)) hcore hnum

/-- Settles O20: a wait takes the slot that is next or learns that the ring is closed; the slot is given back; a producer ends its part. -/
theorem ringsComplete : Obligations.RingsComplete := by
  unfold Obligations.RingsComplete
  intro h r a d
  refine ⟨fun s q g hr hne hg hl hready hok => ?_, fun s q g hr hne hg hl hready hok => ?_, rdone_accepts h r a, rclose_accepts h r⟩
  · obtain ⟨t, f, hexec, hmem, hgroup, hdone, hwrites, hcopies, hrings⟩ := rwait_left hr hne (.refl _) (rwait_closed (h := h) (d := d) hr hg hl hready hok)
    exact ⟨t, f, hexec, hmem, hgroup, hdone, hwrites, hcopies, (by rw [Mach.ring?, hrings]; rfl : t.mach.ring? q.core r.toNat = s.mach.ring? q.core r.toNat)⟩
  · obtain ⟨hc, hslot, -, hw, ho⟩ := hok
    obtain ⟨hframe, htaken⟩ := ringTaken_frame s q g
    obtain ⟨t, f, hexec, hmem, hgroup, hdone, hwrites, hcopies, hrings⟩ := rwait_left hr hne hframe
      (rwait_takes (h := h) (d := d) hr hg hl hready hc hslot ho)
    obtain ⟨hcore, hnum⟩ := ring?_key hg
    obtain ⟨hcore', hnum', hst, hother, hnext⟩ := takenRing_spec g (lowThr s q).wave hw
    refine ⟨t, f, hexec, hmem, hgroup, hdone, hwrites, hcopies, takenRing g (lowThr s q).wave, ?_, hst, hother, hnext⟩
    show t.mach.ring? q.core r.toNat = _
    rw [Mach.ring?, hrings, htaken]
    exact ring?_setRing (hcore'.trans hcore) (hnum'.trans hnum)

end Sys2Proof.Machine
end

section
/-! SUPPORT. Sharing windows (spec/06 R178, R179; spec/15 R379, R380) and signals (spec/17 R431, spec/02 R80). -/

namespace Sys2Proof.Machine

/-! ### `gjoin` -/

theorem share?_setShare (m : Mach) {x : ShareTab} {g l : Nat} (hg : x.grove = g) (hl : x.launch = l) : (m.setShare x).share? g l = some x := by
  rw [Mach.share?, Mach.setShare, List.find?_cons_of_pos]
  simp [hg, hl]

theorem share?_key {m : Mach} {g l : Nat} {x : ShareTab} (h : m.share? g l = some x) : x.grove = g ∧ x.launch = l := by
  have := List.find?_some (p := fun s : ShareTab => s.grove == g && s.launch == l) h
  simpa using this

theorem setShare_frame (m : Mach) (x : ShareTab) : PostFrame m (m.setShare x) := ⟨rfl, rfl, rfl, rfl, rfl⟩

/-- The table of a launch in a grove after a wave has joined as member `k`. -/
def joinedTab (m : Mach) (grove launch wave k : Nat) : ShareTab :=
  match m.share? grove launch with
  | none => { grove := grove, launch := launch, members := [(k, wave)] }
  | some x => { x with members := x.members ++ [(k, wave)] }

/-- A number that the table, or the grove, has room for. -/
def JoinRoom (m : Mach) (grove launch wave k : Nat) : Prop :=
  match m.share? grove launch with
  | none => (m.shares.filter fun x => x.grove == grove).length < 8
  | some x => (∀ p ∈ x.members, p.1 ≠ k ∧ p.2 ≠ wave) ∧ ∀ p ∈ x.closing, p.1 ≠ k

theorem joinedTab_share (m : Mach) (grove launch wave k : Nat) :
    (m.setShare (joinedTab m grove launch wave k)).share? grove launch = some (joinedTab m grove launch wave k) := by
  have hkey : (joinedTab m grove launch wave k).grove = grove ∧ (joinedTab m grove launch wave k).launch = launch := by
    unfold joinedTab
    cases hs : m.share? grove launch with
    | none => exact ⟨rfl, rfl⟩
    | some x => exact (share?_key hs :)
  exact share?_setShare m hkey.1 hkey.2

theorem gjoin_ok {m : Mach} {grove launch wave k : Nat} (hk : k ≤ 23) (hroom : JoinRoom m grove launch wave k) :
    m.gjoin grove launch wave k = .ok (m.setShare (joinedTab m grove launch wave k)) := by
  rw [Mach.gjoin, if_neg (by omega)]
  unfold joinedTab
  unfold JoinRoom at hroom
  cases hs : m.share? grove launch with
  | none =>
    rw [hs] at hroom
    exact if_neg (Nat.not_le.2 hroom)
  | some x =>
    rw [hs] at hroom
    obtain ⟨hmem, hclos⟩ := hroom
    have hwave : (x.members.find? fun p => p.2 == wave) = none := List.find?_eq_none.2 fun p hp => by simpa using (hmem p hp).2
    have hnum : (x.members.any (fun p => p.1 == k) || x.closing.any fun p => p.1 == k) = false := by
      simp only [Bool.or_eq_false_iff, List.any_eq_false, beq_iff_eq]
      exact ⟨fun p hp => (hmem p hp).1, hclos⟩
    simp only [hwave, hnum, Bool.false_eq_true, if_false]

/-- The number that a `gjoin` names. -/
def joinNum (s : State) (q : Quarter) (a : Spec) : Nat := ((lowThr s q).rd s.mach.free a).toNat

/-- The machine after the wave of the lowest thread has joined. -/
def joinMach (a : Spec) (s : State) (q : Quarter) : Mach :=
  s.mach.setShare (joinedTab s.mach (coreGrove q.core) q.launch (lowThr s q).wave (joinNum s q a))

theorem exec_gjoin (s : State) (h : Hdr) (a : Spec) : exec (.gjoin h a) s = .next (State.settle { s with mach := (s.mach.withQ fun q =>
    if s.mach.leaving (lowThr s q).wave then s.mach.waitQ q .flags
    else match s.mach.gjoin (coreGrove q.core) q.launch (lowThr s q).wave (joinNum s q a) with
      | .error c => s.mach.raiseQ q c h.flag.toNat fun _ => 0
      | .ok m => ((m.take 1).addFlight q h (.gjoin h a) m.next (s.mach.lowestOf q) q.tids [] false false fun f => f).goOn q.id m.next h.look.toNat) }) :=
  rfl

theorem gjoin_accepts (h : Hdr) (a : Spec) : Accepts (.gjoin h a) h
    (fun s q => joinNum s q a ≤ 23 ∧ s.mach.leaving (lowThr s q).wave = false ∧
      JoinRoom s.mach (coreGrove q.core) q.launch (lowThr s q).wave (joinNum s q a))
    (fun s q t => ∃ x, t.mach.share? (coreGrove q.core) q.launch = some x ∧
      x = joinedTab s.mach (coreGrove q.core) q.launch (lowThr s q).wave (joinNum s q a)) := by
  refine accepts_of_accepted (joinMach a) (fun s q hr _ ⟨hk, hleave, hroom⟩ => ?_) (fun s q _ _ _ => setShare_frame _ _)
    fun s q t _ _ _ hleft => ?_
  · have hlow : (joinMach a s q).lowestOf q = s.mach.lowestOf q := (setShare_frame s.mach _).lowestOf q
    rw [exec_gjoin, Mach.accepted, hlow]
    simp only [Mach.withQ, hr.1, hleave, Bool.false_eq_true, if_false, gjoin_ok hk hroom]
    rfl
  · unfold PostLeft at hleft
    have hshares := congrArg Mach.shares hleft
    refine ⟨_, ?_, rfl⟩
    rw [Mach.share?, hshares]
    exact joinedTab_share ..

/-! ### `gleave` -/

/-- The one operation of a `gleave`. -/
def leaveOp : PendOp := { oid := 0, uid := 0, kind := .wide, reads := false, writes := false }

theorem exec_gleave (s : State) (h : Hdr) : exec (.gleave h) s = .next (State.settle { s with mach := (s.mach.withQ fun q =>
    ((((s.mach.withdraw (lowThr s q).wave).take 1).addFlight q h (.gleave h) s.mach.next (s.mach.lowestOf q) q.tids [leaveOp] false false
      fun f => f).goOn q.id s.mach.next h.look.toNat)) }) := rfl

theorem gleave_flies {s : State} {q : Quarter} (h : Hdr) (hr : Running s q) (hne : q.tids ≠ []) :
    ∃ t f o, exec (.gleave h) s = .next t ∧ MemoryKept s t ∧ GroupFlight s t q h (.gleave h) false [o] f ∧ o.kind = .wide ∧
      t.mach.shares = (s.mach.withdraw (lowThr s q).wave).shares := by
  obtain ⟨hissued, -, -, -, hleft⟩ := group_spec s q ((s.mach.withdraw (lowThr s q).wave).take 1) h (.gleave h) s.mach.next h.look.toNat
    [leaveOp] false false (fun f => f) hr hne (fun _ => rfl) rfl rfl rfl fun _ => rfl
  refine ⟨State.settle { s with mach := ((((s.mach.withdraw (lowThr s q).wave).take 1).addFlight q h (.gleave h) s.mach.next (s.mach.lowestOf q)
    q.tids [leaveOp] false false fun f => f).goOn q.id s.mach.next h.look.toNat) }, flightOf ((s.mach.withdraw (lowThr s q).wave).take 1) q h
    (.gleave h) s.mach.next (s.mach.lowestOf q) q.tids [leaveOp] false, leaveOp, ?_, fun a => ?_, ⟨?_, rfl, rfl, rfl, rfl, hissued⟩, rfl, ?_⟩
  · rw [exec_gleave, Mach.withQ, hr.1]
  · exact (congrArg (fun m : Mach => m.mem.read a) hleft :)
  · rw [settle_flights, hleft]
    exact List.mem_append_right _ (List.mem_singleton_self _)
  · rw [settle_shares, hleft]; rfl

/-! ### Signals of this device -/

theorem modThr_frame (m : Mach) (k : Nat) (f : Thread → Thread) : ∃ ts, m.modThr k f = { m with threads := ts } := ⟨_, rfl⟩

theorem sigOr_frame (m : Mach) (c : Nat) (v : Word) : ∃ p o fi, m.sigOr c v = { m with sigpend := p, sigOld := o, fired := fi } ∧
    p = modAt m.sigpend c fun w => w ||| v := by
  unfold Mach.sigOr
  dsimp only
  split
  · exact ⟨_, _, _, rfl, rfl⟩
  · exact ⟨_, _, _, rfl, rfl⟩

theorem uncarry_regs (t : Thread) (pc : Pc) (f : Nat) : (t.uncarry pc f).regs = t.regs := by
  unfold Thread.uncarry Thread.flagDown
  split
  · split <;> rfl
  · rfl

/-- WHAT A SIGNAL OF THIS DEVICE KEEPS: all but the order of operations, the channels, and the flags of threads. -/
structure SigKept (m m' : Mach) : Prop where
  quarters : m'.quarters = m.quarters
  launches : m'.launches = m.launches
  mem : m'.mem = m.mem
  flights : m'.flights = m.flights
  regs : ∀ k, (m'.thr k).regs = (m.thr k).regs
  there : ∀ k, (m'.thr? k).isSome = (m.thr? k).isSome

theorem SigKept.refl (m : Mach) : SigKept m m := ⟨rfl, rfl, rfl, rfl, fun _ => rfl, fun _ => rfl⟩

theorem SigKept.trans {a b c : Mach} (h : SigKept a b) (k : SigKept b c) : SigKept a c :=
  ⟨k.quarters.trans h.quarters, k.launches.trans h.launches, k.mem.trans h.mem, k.flights.trans h.flights,
    fun i => (k.regs i).trans (h.regs i), fun i => (k.there i).trans (h.there i)⟩

theorem thr_modThr_regs (m : Mach) (i : Nat) (f : Thread → Thread) (hid : ∀ t, (f t).id = t.id) (hreg : ∀ t, (f t).regs = t.regs)
    (hi : (m.thr? i).isSome) : (∀ k, ((m.modThr i f).thr k).regs = (m.thr k).regs) ∧ ∀ k, ((m.modThr i f).thr? k).isSome = (m.thr? k).isSome := by
  have hthr (k : Nat) := thr?_modThr m i f hid hi k
  refine ⟨fun k => ?_, fun k => ?_⟩
  · rw [Mach.thr, Mach.thr, hthr]
    cases m.thr? k with
    | none => rfl
    | some t =>
      rw [Option.map_some, Option.getD_some, Option.getD_some]
      split
      · exact hreg t
      · rfl
  · rw [hthr, Option.isSome_map]

/-- The signal of one thread to a channel of this device. -/
def sigNear (q : Quarter) (h : Hdr) (sc : Scope) (m : Mach) (id w : Nat) (v : Word) : Mach :=
  ((m.release (m.thr id) (sigScope sc) .none).sigOr (sigChan w) v).modThr id fun t => t.uncarry q.pc h.flag.toNat

theorem sigOne_near {sys : Sys} {w : Nat} (hdev : sigDev w = sys.devid) (m : Mach) (q : Quarter) (h : Hdr) (i : Instr) (iss : Nat) (sc : Scope)
    (id : Nat) (v : Word) : m.sigOne sys q h i iss sc id w v = sigNear q h sc m id w v := by
  simp only [Mach.sigOne, hdev, if_true, sigNear]

theorem sigNear_kept (q : Quarter) (h : Hdr) (sc : Scope) {m : Mach} {id : Nat} (w : Nat) (v : Word) (hid : (m.thr? id).isSome) :
    SigKept m (sigNear q h sc m id w v) ∧
    (sigNear q h sc m id w v).sigpend = modAt m.sigpend (sigChan w) fun x => x ||| v := by
  obtain ⟨ws, o, hrel⟩ := release_frame m (m.thr id) (sigScope sc) .none
  obtain ⟨p, o', fi, hsig, hp⟩ := sigOr_frame (m.release (m.thr id) (sigScope sc) .none) (sigChan w) v
  rw [hrel] at hp
  have hbase : (m.release (m.thr id) (sigScope sc) .none).sigOr (sigChan w) v =
      { m with waves := ws, order := o, sigpend := p, sigOld := o', fired := fi } := by rw [hsig, hrel]
  unfold sigNear
  rw [hbase]
  obtain ⟨hregs, hthere⟩ := thr_modThr_regs ({ m with waves := ws, order := o, sigpend := p, sigOld := o', fired := fi } : Mach) id
    (fun t => t.uncarry q.pc h.flag.toNat) (fun t => Thread.uncarry_id t _ _) (fun t => uncarry_regs t _ _) hid
  exact ⟨⟨rfl, rfl, rfl, rfl, hregs, hthere⟩, hp⟩

theorem getD_modAt {α : Type} (d : α) (f : α → α) (l : List α) (i k : Nat) (hk : k < l.length) :
    (modAt l i f).getD k d = if k = i then f (l.getD k d) else l.getD k d := by
  simp [modAt, List.getD_eq_getElem?_getD, hk]

/-- The signals of threads that are there, one after another: `w` is the channel word and `v` the value of each. -/
theorem sigNears_spec (q : Quarter) (h : Hdr) (sc : Scope) (w : Nat → Nat) (v : Nat → Word) (ids : List Nat) : ∀ m : Mach,
    (∀ k ∈ ids, (m.thr? k).isSome) → SigKept m (ids.foldl (fun m id => sigNear q h sc m id (w id) (v id)) m) ∧
    ∀ c, c < m.sigpend.length → (ids.foldl (fun m id => sigNear q h sc m id (w id) (v id)) m).sigpend.getD c 0 =
      (ids.filter fun k => sigChan (w k) == c).foldl (fun x k => x ||| v k) (m.sigpend.getD c 0) := by
  induction ids with
  | nil => exact fun m _ => ⟨.refl m, fun _ _ => rfl⟩
  | cons k ids ih =>
    intro m hthere
    obtain ⟨hkept, hpend⟩ := sigNear_kept q h sc (w k) (v k) (hthere k List.mem_cons_self)
    obtain ⟨hkept', hpend'⟩ := ih (sigNear q h sc m k (w k) (v k)) fun j hj => by
      rw [hkept.there]; exact hthere j (List.mem_cons_of_mem k hj)
    refine ⟨hkept.trans hkept', fun c hc => ?_⟩
    rw [List.foldl_cons, hpend' c (by rw [hpend]; simpa [modAt] using hc), hpend, getD_modAt 0 _ _ _ _ hc, List.filter_cons]
    by_cases hck : c = sigChan (w k)
    · rw [if_pos hck, if_pos (by simp [hck]), List.foldl_cons]
    · rw [if_neg hck, if_neg (by simpa using fun e => hck e.symm)]

/-! ### The instruction -/

/-- The channel word and the value of a slot's thread. -/
def sigWord (s : State) (a : Spec) (p : Nat × Nat) : Nat := ((s.mach.thr p.2).rd (s.mach.fr p.1) a).toNat
def sigVal (s : State) (b : Spec) (p : Nat × Nat) : Word := (s.mach.thr p.2).rd (s.mach.fr p.1 + 8) b

/-- The threads of the quarter with their words. -/
def sigOps (s : State) (q : Quarter) (a b : Spec) : List (Nat × Nat × Word) := q.active.map fun p => (p.2, sigWord s a p, sigVal s b p)

/-- The signals of the listed threads, one after another. -/
def sigAll (sys : Sys) (q : Quarter) (h : Hdr) (i : Instr) (iss : Nat) (sc : Scope) (ops : List (Nat × Nat × Word)) (ids : List Nat) (m : Mach) : Mach :=
  ids.foldl (fun m id =>
    match ops.find? fun o => o.1 == id with
    | some o => m.sigOne sys q h i iss sc id o.2.1 o.2.2
    | none => m) m

/-- The threads of a `sig` that take a cause. -/
def sigBads (s : State) (q : Quarter) (sc : Scope) (a b : Spec) : List (Nat × Nat × Nat) :=
  (sigOps s q a b).filterMap fun o => (sigBad s.sys.devid sc o.2.1).map fun c => (o.1, c, 0)

theorem exec_sig (s : State) (h : Hdr) (sc : Scope) (a b : Spec) : exec (.sig h sc a b) s = .next (State.settle { s with mach := (s.mach.withQ fun q =>
    if s.mach.postWaits q.tids then s.mach.waitQ q .flags
    else match (s.mach.ownTraps q h.flag.toNat (sigBads s q sc a b)).quarter? q.id with
      | none => (s.mach.ownTraps q h.flag.toNat (sigBads s q sc a b)).used
      | some q' => (sigAll s.sys q' h (.sig h sc a b) (s.mach.ownTraps q h.flag.toNat (sigBads s q sc a b)).next sc (sigOps s q a b)
          ((s.mach.ownTraps q h.flag.toNat (sigBads s q sc a b)).inOrder q'.tids)
          ((s.mach.ownTraps q h.flag.toNat (sigBads s q sc a b)).take 1)).used.advance q') }) := rfl

/-- No thread of the quarter owes anything and none of its channel words is bad. -/
def SigLegal (s : State) (q : Quarter) (sc : Scope) (a : Spec) : Prop :=
  ∀ p ∈ q.active, (s.mach.thr p.2).pend = [] ∧ sigBad s.sys.devid sc (sigWord s a p) = none

theorem sig_legal_runs {s : State} {q : Quarter} {sc : Scope} {a : Spec} (h : Hdr) (b : Spec) (hr : Running s q) (hl : SigLegal s q sc a) :
    exec (.sig h sc a b) s = .next (State.settle { s with mach :=
      (sigAll s.sys q h (.sig h sc a b) s.mach.next sc (sigOps s q a b) (s.mach.inOrder q.tids) (s.mach.take 1)).used.advance q }) := by
  have hwait : s.mach.postWaits q.tids = false := by
    simp only [Mach.postWaits, Quarter.tids, List.any_eq_false, List.mem_map]
    rintro _ ⟨p, hp, rfl⟩
    simp [(hl p hp).1]
  have hbad : sigBads s q sc a b = [] := by
    simp only [sigBads, sigOps, List.filterMap_eq_nil_iff, List.mem_map]
    rintro _ ⟨p, hp, rfl⟩
    rw [(hl p hp).2]; rfl
  have hq : s.mach.quarter? q.id = some q := by rw [quarter?_id hr.1]; exact hr.1
  have hown : s.mach.ownTraps q h.flag.toNat [] = s.mach := rfl
  rw [exec_sig]
  simp only [Mach.withQ, hr.1, hwait, Bool.false_eq_true, if_false, hbad, hown, hq]

theorem find?_sigOps {s : State} {q : Quarter} (a b : Spec) (hn : q.tids.Nodup) {p : Nat × Nat} (hp : p ∈ q.active) :
    (sigOps s q a b).find? (fun o => o.1 == p.2) = some (p.2, sigWord s a p, sigVal s b p) := by
  have hn' : (q.active.map fun p => p.2).Nodup := hn
  unfold sigOps
  generalize q.active = l at hp hn'
  induction l with
  | nil => exact absurd hp List.not_mem_nil
  | cons r l ih =>
    rw [List.map_cons, List.nodup_cons] at hn'
    rcases List.mem_cons.1 hp with rfl | hp
    · rw [List.map_cons, List.find?_cons_of_pos (by simp)]
    · have hne : ¬r.2 = p.2 := fun e => hn'.1 (e ▸ List.mem_map_of_mem hp)
      rw [List.map_cons, List.find?_cons_of_neg (by simpa using hne)]
      exact ih hp hn'.2

/-- The channel word and the value of a thread by its key. -/
def sigWordOf (s : State) (q : Quarter) (a b : Spec) (k : Nat) : Nat := (((sigOps s q a b).find? fun o => o.1 == k).getD (0, 0, 0)).2.1
def sigValOf (s : State) (q : Quarter) (a b : Spec) (k : Nat) : Word := (((sigOps s q a b).find? fun o => o.1 == k).getD (0, 0, 0)).2.2

theorem sigAll_near {s : State} {q : Quarter} (h : Hdr) (i : Instr) (iss : Nat) (sc : Scope) (a b : Spec) (hn : q.tids.Nodup)
    (hdev : ∀ p ∈ q.active, sigDev (sigWord s a p) = s.sys.devid) (ids : List Nat) : ∀ m : Mach, (∀ k ∈ ids, k ∈ q.tids) →
    sigAll s.sys q h i iss sc (sigOps s q a b) ids m =
      ids.foldl (fun m id => sigNear q h sc m id (sigWordOf s q a b id) (sigValOf s q a b id)) m := by
  induction ids with
  | nil => exact fun _ _ => rfl
  | cons k ids ih =>
    intro m hin
    obtain ⟨p, hp, rfl⟩ := List.mem_map.1 (hin k List.mem_cons_self)
    have hfind := find?_sigOps (s := s) a b hn hp
    have hone := sigOne_near (hdev p hp) m q h i iss sc p.2 (sigVal s b p)
    have hrest := ih (sigNear q h sc m p.2 (sigWord s a p) (sigVal s b p)) fun j hj => hin j (List.mem_cons_of_mem _ hj)
    unfold sigAll at hrest ⊢
    rw [List.foldl_cons, List.foldl_cons, hfind, sigWordOf, sigValOf, hfind]
    dsimp only [Option.getD_some]
    rw [hone]
    exact hrest

/-- The ORs into one channel come in any order. -/
theorem ors_perm (v : Nat → Word) (x : Word) {l l' : List Nat} (hp : l.Perm l') :
    l.foldl (fun x k => x ||| v k) x = l'.foldl (fun x k => x ||| v k) x :=
  hp.foldl_eq' (fun a _ b _ z => by rw [BitVec.or_assoc, BitVec.or_comm (v a), ← BitVec.or_assoc]) x

theorem sigs_perm {s : State} {q : Quarter} (a b : Spec) (hn : q.tids.Nodup) (c : Nat) (x : Word) :
    ((s.mach.inOrder q.tids).filter fun k => sigChan (sigWordOf s q a b k) == c).foldl (fun x k => x ||| sigValOf s q a b k) x =
      (q.active.filter fun p => bits (sigWord s a p) 0 4 == c).foldl (fun x p => x ||| sigVal s b p) x := by
  rw [ors_perm _ _ ((perm_inOrder s.mach q.tids).filter _), Quarter.tids, List.filter_map, List.foldl_map]
  have hword (p : Nat × Nat) (hp : p ∈ q.active) : sigWordOf s q a b p.2 = sigWord s a p := by rw [sigWordOf, find?_sigOps a b hn hp]; rfl
  have hval (p : Nat × Nat) (hp : p ∈ q.active) : sigValOf s q a b p.2 = sigVal s b p := by rw [sigValOf, find?_sigOps a b hn hp]; rfl
  have hfilter : (q.active.filter ((fun k => sigChan (sigWordOf s q a b k) == c) ∘ fun p => p.2)) =
      q.active.filter fun p => bits (sigWord s a p) 0 4 == c :=
    List.filter_congr fun p hp => by rw [Function.comp_apply, hword p hp, sigChan]
  rw [hfilter]
  exact List.foldl_ext _ _ _ fun y p hp => by rw [hval p (List.mem_filter.1 hp).1]

theorem moved_regs (t : Thread) (b : Bool) : (t.moved b).regs = t.regs := by cases b <;> rfl

/-- A quarter that advances keeps memory, registers and all but itself, its threads and keys. -/
theorem advance_kept (m : Mach) (q : Quarter) (hq : m.quarter? q.id = some q) (he : (m.launch q.launch).ending = none) :
    (∀ k, ((m.advance q).thr k).regs = (m.thr k).regs) ∧
    (∃ q', (m.advance q).quarter? q.id = some q' ∧ q'.pc = q.pc + 8 ∧ q'.slots = q.slots) ∧
    m.advance q = { m with threads := (m.advance q).threads, quarters := (m.advance q).quarters, next := m.next + 1 } := by
  have hadv := advance_eq m q he
  refine ⟨fun k => ?_, ⟨q.moved m.cycle m.next, ?_, ?_⟩, ?_⟩
  · have hthr : (m.advance q).thr? k = (m.thr? k).map fun t => if q.tids.contains k then t.moved q.isLast else t := by
      rw [hadv]
      exact thr?_modAll _ _ _ (fun t => t.moved_id _) k
    rw [Mach.thr, Mach.thr, hthr]
    cases m.thr? k with
    | none => rfl
    | some t =>
      rw [Option.map_some, Option.getD_some, Option.getD_some]
      split
      · exact moved_regs t _
      · rfl
  · rw [hadv, quarter?_setQ, Quarter.moved_id, if_pos rfl]
    exact (congrArg _ hq :)
  · unfold Quarter.moved Quarter.issued
    by_cases hl : q.isLast <;> simp [hl]
  · rw [hadv]; rfl

theorem sig_near {s : State} {q : Quarter} (h : Hdr) (sc : Scope) (a b : Spec) (hr : Running s q) (hpend : s.mach.sigpend.length = 16)
    (hl : SigLegal s q sc a) (hdev : ∀ p ∈ q.active, sigDev (sigWord s a p) = s.sys.devid) :
    ∃ t, exec (.sig h sc a b) s = .next t ∧ MemoryKept s t ∧ RegistersKept s t ∧ t.mach.flights = s.mach.flights ∧
      (∀ c, c < 16 → t.mach.sigpend.getD c 0 =
        (q.active.filter fun p => bits (sigWord s a p) 0 4 == c).foldl (fun w p => w ||| sigVal s b p) (s.mach.sigpend.getD c 0)) ∧
      ∃ q', t.mach.quarter? q.id = some q' ∧ q'.pc = q.pc + 8 ∧ q'.slots = q.slots := by
  have hin : ∀ k ∈ s.mach.inOrder q.tids, k ∈ q.tids := fun k hk => (perm_inOrder s.mach q.tids).mem_iff.1 hk
  obtain ⟨hkept, hchan⟩ := sigNears_spec q h sc (sigWordOf s q a b) (sigValOf s q a b) (s.mach.inOrder q.tids) (s.mach.take 1)
    fun k hk => hr.2.2.1 k (hin k hk)
  have hexec := sig_legal_runs h b hr hl
  rw [sigAll_near h _ _ sc a b hr.2.1 hdev _ _ hin] at hexec
  generalize (s.mach.inOrder q.tids).foldl (fun m id => sigNear q h sc m id (sigWordOf s q a b id) (sigValOf s q a b id)) (s.mach.take 1) = m at *
  have hq : m.used.quarter? q.id = some q := by
    show m.quarters.find? _ = _
    rw [hkept.quarters, quarter?_id hr.1]; exact hr.1
  have he : (m.used.launch q.launch).ending = none := by
    show ((m.launches.find? _).getD {}).ending = _
    rw [hkept.launches]; exact hr.2.2.2
  obtain ⟨hregs, hq', hadv⟩ := advance_kept m.used q hq he
  refine ⟨_, hexec, fun x => ?_, fun k => (hregs k).trans (hkept.regs k), ?_, fun c hc => ?_, hq'⟩
  · rw [settle_mem, hadv]
    exact congrArg (fun mem : Memory => mem.read x) hkept.mem
  · rw [settle_flights, hadv]
    exact hkept.flights
  · rw [settle_sigpend, hadv, ← sigs_perm a b hr.2.1]
    exact hchan c (by rw [← hpend] at hc; exact hc)

/-! ### A signal of another device -/

/-- The message of a remote signal. -/
def sigMsg (s : State) (a b : Spec) (p : Nat × Nat) (uid : Nat) : Msg :=
  ⟨s.sys.devid, sigDev (sigWord s a p), 0, 0, .sig (sigChan (sigWord s a p)) (sigVal s b p) p.2 uid⟩

theorem sigOne_far {s : State} {w : Nat} (hdev : sigDev w ≠ s.sys.devid) (hroute : (look ({} : Route) s.sys.routes (sigDev w)).v = true)
    (m : Mach) (q : Quarter) (h : Hdr) (i : Instr) (iss : Nat) (sc : Scope) (id : Nat) (v : Word) :
    m.sigOne s.sys q h i iss sc id w v =
      { (m.release (m.thr id) (sigScope sc) .none).addFlight q h i iss id [id] [] false true fun f => f with
        sigWaits := (m.release (m.thr id) (sigScope sc) .none).sigWaits ++ [(id, (m.release (m.thr id) (sigScope sc) .none).next, s.sys.ticks)]
        out := (m.release (m.thr id) (sigScope sc) .none).out ++
          [⟨s.sys.devid, sigDev w, 0, 0, .sig (sigChan w) v id (m.release (m.thr id) (sigScope sc) .none).next⟩] } := by
  simp only [Mach.sigOne, hdev, hroute, if_false, Bool.not_true, Bool.false_eq_true]
  rfl

theorem addFlight_regs (m : Mach) {q : Quarter} (h : Hdr) (i : Instr) (iss own : Nat) (g : Flight → Flight) (ho : own ∈ q.tids)
    (hp : (m.thr? own).isSome) (k : Nat) : ((m.addFlight q h i iss own q.tids [] false true g).thr k).regs = (m.thr k).regs := by
  have hflown (t : Thread) (ops : List PendOp) : (t.flown q.pc h.flag.toNat false m.next m.cycle ops).regs = t.regs := by
    unfold Thread.flown
    rw [(carryFlag_frame t q.pc h.flag.toNat).1]; rfl
  rw [Mach.thr, Mach.thr, addFlight_group m q h i iss own [] false true g ho hp]
  cases m.thr? k with
  | none => rw [Option.map_none, ite_self]
  | some t =>
    split
    · exact hflown t _
    · rfl

theorem inOrder_single (m : Mach) (k : Nat) : m.inOrder [k] = [k] := List.perm_singleton.1 (perm_inOrder m [k])

theorem sig_far {s : State} {q : Quarter} {p : Nat × Nat} (h : Hdr) (sc : Scope) (a b : Spec) (hr : Running s q) (hp : q.active = [p])
    (hl : SigLegal s q sc a) (hdev : sigDev (sigWord s a p) ≠ s.sys.devid)
    (hroute : (look ({} : Route) s.sys.routes (sigDev (sigWord s a p))).v = true) :
    ∃ t f, exec (.sig h sc a b) s = .next t ∧ MemoryKept s t ∧ RegistersKept s t ∧ t.mach.sigpend = s.mach.sigpend ∧
      f ∈ t.mach.flights ∧ f.owner = p.2 ∧ f.done = false ∧ (p.2, f.uid, s.sys.ticks) ∈ t.mach.sigWaits ∧
      t.mach.out = s.mach.out ++ [sigMsg s a b p f.uid] := by
  have hmem : p ∈ q.active := by rw [hp]; exact List.mem_singleton_self p
  have htids : q.tids = [p.2] := by rw [Quarter.tids, hp]; rfl
  have hthere : (s.mach.thr? p.2).isSome := hr.2.2.1 p.2 (mem_tids hmem)
  obtain ⟨ws, o, hrel⟩ := release_frame (s.mach.take 1) ((s.mach.take 1).thr p.2) (sigScope sc) .none
  have hexec := sig_legal_runs h b hr hl
  have hall : sigAll s.sys q h (.sig h sc a b) s.mach.next sc (sigOps s q a b) (s.mach.inOrder q.tids) (s.mach.take 1) =
      (s.mach.take 1).sigOne s.sys q h (.sig h sc a b) s.mach.next sc p.2 (sigWord s a p) (sigVal s b p) := by
    rw [htids, inOrder_single, sigAll, List.foldl_cons, find?_sigOps a b hr.2.1 hmem]
    rfl
  rw [hall, sigOne_far hdev hroute, hrel] at hexec
  let m : Mach := { s.mach.take 1 with waves := ws, order := o }
  let m' : Mach := { m.addFlight q h (.sig h sc a b) s.mach.next p.2 [p.2] [] false true fun f => f with
    sigWaits := m.sigWaits ++ [(p.2, m.next, s.sys.ticks)], out := m.out ++ [sigMsg s a b p m.next] }
  have hq : m'.used.quarter? q.id = some q := (congrArg s.mach.quarter? (quarter?_id hr.1)).trans hr.1
  obtain ⟨hregs, -, hadv⟩ := advance_kept m'.used q hq hr.2.2.2
  have hreg (k : Nat) : (m'.thr k).regs = (s.mach.thr k).regs := by
    have hkept := addFlight_regs m h (.sig h sc a b) s.mach.next p.2 (fun f => f) (mem_tids hmem) hthere k
    rw [htids] at hkept
    exact hkept
  refine ⟨State.settle { s with mach := m'.used.advance q }, flightOf m q h (.sig h sc a b) s.mach.next p.2 [p.2] [] true, hexec, fun x => ?_,
    fun k => ?_, ?_, ?_, rfl, rfl, ?_, ?_⟩
  · rw [settle_mem, hadv]; rfl
  · exact (hregs k).trans (hreg k)
  · rw [settle_sigpend, hadv]; rfl
  · rw [settle_flights, hadv]
    exact List.mem_append_right _ (List.mem_singleton_self _)
  · rw [settle_sigWaits, hadv]
    exact List.mem_append_right _ (List.mem_singleton_self _)
  · rw [settle_out, hadv]; rfl

theorem sigBad_none {dev w : Nat} {sc : Scope} (hlow : bits w 4 12 = 0) (hhigh : bits w 28 4 = 0) (hscope : sigDev w ≠ dev → 7 ≤ sc.code) :
    sigBad dev sc w = none := by
  have hfar : ¬(sigDev w ≠ dev ∧ sc.code < 7) := fun ⟨hd, hc⟩ => absurd (hscope hd) (Nat.not_le.2 hc)
  simp only [sigBad, hlow, hhigh, bne_self_eq_false, Bool.or_self, Bool.false_eq_true, if_false, if_neg hfar]

/-- Settles O21: a wave joins the table of its launch, its withdrawal begins at `gleave`, and signals reach their channel or leave as messages. -/
theorem sharingAndSignals : Obligations.SharingAndSignals := by
  unfold Obligations.SharingAndSignals
  refine ⟨fun h a => ⟨fun s q hr hne ⟨hk, hleave, hroom⟩ => ?_, fun s q hr hne => gleave_flies h hr hne⟩, fun h sc a b => ⟨fun s q hr hpend hl => ?_,
    fun s q p hr hp hfree hlow hhigh hdev hscope hroute => ?_⟩⟩
  · obtain ⟨t, hexec, hflight, hmem, hthr, hq, hq', x, hx, htab⟩ := gjoin_accepts h a s q hr hne ⟨hk, hleave, by
      unfold JoinRoom; exact hroom⟩
    refine ⟨t, hexec, hflight, hmem, hthr, hq, hq', x, hx, ?_⟩
    rw [htab, joinedTab]
    show _ = (match s.mach.share? (coreGrove q.core) q.launch with | none => [] | some y => y.members) ++ _
    cases s.mach.share? (coreGrove q.core) q.launch <;> rfl
  · exact sig_near h sc a b hr hpend (fun p hp => by
      obtain ⟨hfree, hlow, hhigh, hdev⟩ := hl p hp
      exact ⟨hfree, sigBad_none hlow hhigh fun hne => absurd hdev hne⟩) fun p hp => (hl p hp).2.2.2
  · exact sig_far h sc a b hr hp (fun p' hp' => by
      obtain rfl : p' = p := by rw [hp] at hp'; exact List.mem_singleton.1 hp'
      exact ⟨hfree, sigBad_none hlow hhigh fun _ => hscope⟩) hdev hroute

end Sys2Proof.Machine
end

section
/-! SUPPORT. What a thread that takes a trap leaves (spec/08 R227, R228), and the end of a launch (spec/03 R105, spec/08 R233). -/

namespace Sys2Proof.Machine

/-! ### Leaving a quarter -/

theorem mem_tids_slots {q : Quarter} {k : Nat} : k ∈ q.tids ↔ some k ∈ q.slots := by
  constructor
  · intro h
    obtain ⟨p, hp, rfl⟩ := List.mem_map.1 h
    obtain ⟨⟨i, o⟩, hin, hmap⟩ := List.mem_filterMap.1 hp
    obtain ⟨t, rfl, rfl⟩ := Option.map_eq_some_iff.1 hmap
    exact List.mem_of_getElem? (mem_enum.1 hin)
  · intro h
    obtain ⟨i, hi⟩ := List.mem_iff_getElem?.1 h
    exact List.mem_map.2 ⟨(i, k), List.mem_filterMap.2 ⟨(i, some k), mem_enum.2 hi, rfl⟩, rfl⟩

/-- The quarters without a thread. -/
theorem mem_leaves_quarter {qs : List Quarter} {tid k : Nat} {u : Quarter}
    (hu : u ∈ (qs.map fun q => { q with slots := q.slots.map fun s => if s = some tid then none else s }).filter fun q =>
      q.slots.any Option.isSome) (hk : k ∈ u.tids) : k ≠ tid ∧ ∃ w ∈ qs, k ∈ w.tids := by
  obtain ⟨w, hw, rfl⟩ := List.mem_map.1 (List.mem_filter.1 hu).1
  obtain ⟨s, hs, he⟩ := List.mem_map.1 (mem_tids_slots.1 hk)
  by_cases hst : s = some tid
  · simp [hst] at he
  · rw [if_neg hst] at he
    exact ⟨fun h => hst (by rw [he, h]), w, hw, mem_tids_slots.2 (he ▸ hs)⟩

/-- Threads have left their quarters and glades: of the threads only the cycle of the last issue changes, and no quarter gains a thread. -/
structure Pulled (m m' : Mach) : Prop where
  frame : m' = { m with threads := m'.threads, quarters := m'.quarters, glades := m'.glades, sump := m'.sump }
  thr : ∀ k, ∃ i : Thread → Option Nat, m'.thr? k = (m.thr? k).map fun t => { t with lastIssue := i t }
  fewer : ∀ u ∈ m'.quarters, ∀ k ∈ u.tids, ∃ w ∈ m.quarters, k ∈ w.tids

theorem Pulled.refl (m : Mach) : Pulled m m :=
  ⟨rfl, fun k => ⟨Thread.lastIssue, by cases m.thr? k <;> rfl⟩, fun u hu _ hk => ⟨u, hu, hk⟩⟩

theorem Pulled.trans {a b c : Mach} (h : Pulled a b) (h' : Pulled b c) : Pulled a c where
  frame := by rw [h'.frame, h.frame]
  thr k := by
    obtain ⟨i, hi⟩ := h.thr k
    obtain ⟨j, hj⟩ := h'.thr k
    exact ⟨fun t => j { t with lastIssue := i t }, by rw [hj, hi, Option.map_map]; rfl⟩
  fewer u hu k hk := by
    obtain ⟨w, hw, hkw⟩ := h'.fewer u hu k hk
    exact h.fewer w hw k hkw

theorem pull_pulled {m : Mach} {tid : Nat} (h : (m.thr? tid).isSome) :
    Pulled m (m.pull tid) ∧ ∀ u ∈ (m.pull tid).quarters, tid ∉ u.tids := by
  have hq : (m.pull tid).quarters = (m.quarters.map fun q => { q with slots := q.slots.map fun s => if s = some tid then none else s }).filter
      fun q => q.slots.any Option.isSome := by
    unfold Mach.pull Mach.detach
    cases m.quarters.find? fun q => q.tids.contains tid <;> rfl
  refine ⟨⟨?_, fun k => ?_, fun u hu k hk => ?_⟩, fun u hu hk => ?_⟩
  · unfold Mach.pull Mach.detach
    cases m.quarters.find? fun q => q.tids.contains tid <;> rfl
  · unfold Mach.pull Mach.detach
    cases m.quarters.find? fun q => q.tids.contains tid with
    | none => exact ⟨Thread.lastIssue, by show m.thr? k = _; cases m.thr? k <;> rfl⟩
    | some q =>
      refine ⟨fun t => if k = tid then q.lastIssue else t.lastIssue, ?_⟩
      show (m.modThr tid fun t => { t with lastIssue := q.lastIssue }).thr? k = _
      rw [thr?_modThr m tid _ (by intro; rfl) h]
      by_cases hk : k = tid <;> simp [hk]
  · rw [hq] at hu
    exact (mem_leaves_quarter hu hk).2
  · rw [hq] at hu
    exact (mem_leaves_quarter hu hk).1 rfl

theorem pullAll_pulled (ids : List Nat) : ∀ (m : Mach), (∀ k ∈ ids, (m.thr? k).isSome) →
    Pulled m (ids.foldl Mach.pull m) ∧ ∀ u ∈ (ids.foldl Mach.pull m).quarters, ∀ k ∈ ids, k ∉ u.tids := by
  induction ids with
  | nil => exact fun m _ => ⟨.refl m, fun _ _ _ h => absurd h List.not_mem_nil⟩
  | cons a r ih =>
    intro m h
    obtain ⟨hone, hgone⟩ := pull_pulled (h a List.mem_cons_self)
    obtain ⟨hrest, hgone'⟩ := ih (m.pull a) fun k hk => by
      obtain ⟨i, hi⟩ := hone.thr k
      rw [hi, Option.isSome_map]
      exact h k (List.mem_cons_of_mem _ hk)
    refine ⟨hone.trans hrest, fun u hu k hk => ?_⟩
    obtain rfl | hk := List.mem_cons.1 hk
    · intro hku
      obtain ⟨w, hw, hkw⟩ := hrest.fewer u hu _ hku
      exact hgone w hw hkw
    · exact hgone' u hu k hk

/-! ### `raise` -/

/-- The group that `raise` forms of threads of which none has ended. -/
def raisedGroup (m : Mach) (core launch : Nat) (who : List (Nat × Nat × Nat)) (cause : Nat) (pc : Pc) (hdr : Option (Pc × DWord))
    (flag : Nat) (impr waitBit : Bool) : TrapGroup :=
  { id := m.next, core := core, took := m.cycle, launch := launch, cause := cause, impr := impr, waitBit := waitBit, pc := pc, hdr := hdr,
    flag := flag, members := who, resume := (who.map fun p => p.2.1).map fun t => (t, pc.toNat) }

/-- A thread that has joined a trap group. -/
def Thread.trapped (t : Thread) (g : TrapGroup) : Thread :=
  { (t.carryFlag g.pc g.flag) with stat := .trapping g.id, pc := g.pc, hdr := g.hdr, waitSince := none }

theorem trapped_id (t : Thread) (g : TrapGroup) : (t.trapped g).id = t.id := carryFlag_id t g.pc g.flag

theorem trapped_regs (t : Thread) (g : TrapGroup) : (t.trapped g).regs = t.regs := by
  show (t.carryFlag g.pc g.flag).regs = t.regs
  rw [(carryFlag_frame t g.pc g.flag).1]

theorem mem_addTrap (m : Mach) (g : TrapGroup) : g ∈ (m.addTrap g).traps :=
  List.mem_append_right _ List.mem_cons_self

/-- TAKING A CAUSE outside a handler, in threads of a launch that goes on. -/
structure Raised (m m' : Mach) (g : TrapGroup) (ids : List Nat) : Prop where
  frame : m' = { m with
    threads := m'.threads, quarters := m'.quarters, glades := m'.glades, sump := m'.sump, traps := m'.traps, next := m.next + 1 }
  group : g ∈ m'.traps
  thr : ∀ k, ∃ i : Thread → Option Nat, m'.thr? k = (m.thr? k).map fun t =>
    if ids.contains k then Thread.trapped { t with lastIssue := i t } g else { t with lastIssue := i t }
  gone : ∀ u ∈ m'.quarters, ∀ k ∈ ids, k ∉ u.tids

theorem raise_raised {m : Mach} {core launch : Nat} {who : List (Nat × Nat × Nat)} {cause : Nat} {pc : Pc} {hdr : Option (Pc × DWord)}
    {flag : Nat} {impr waitBit : Bool} (hne : who ≠ []) (hends : (m.launch launch).ending = none)
    (hwho : ∀ p ∈ who, (m.thr? p.2.1).isSome ∧ (m.thr p.2.1).stat ≠ .ended ∧ (m.thr p.2.1).isHandler = false) :
    Raised m (m.raise core launch who cause pc hdr flag impr waitBit) (raisedGroup m core launch who cause pc hdr flag impr waitBit)
      (who.map fun p => p.2.1) := by
  have hlive : who.filter (fun p => (m.thr p.2.1).stat != .ended) = who :=
    List.filter_eq_self.2 fun p hp => by simpa using (hwho p hp).2.1
  have hplain : (who.any fun p => (m.thr p.2.1).isHandler) = false :=
    List.any_eq_false.2 fun p hp => by simp [(hwho p hp).2.2]
  obtain ⟨hpull, hgone⟩ := pullAll_pulled (who.map fun p => p.2.1) m fun k hk => by
    obtain ⟨p, hp, rfl⟩ := List.mem_map.1 hk
    exact (hwho p hp).1
  unfold Mach.raise
  simp only [hlive, if_neg hne, hends, Option.isSome_none, hplain, Bool.false_eq_true, if_false]
  refine ⟨?_, mem_addTrap _ _, fun k => ?_, fun u hu k hk => ?_⟩
  · obtain ⟨ts, qs, gs, rs, hfold⟩ : ∃ ts qs gs rs, (who.map fun p => p.2.1).foldl Mach.pull m =
        { m with threads := ts, quarters := qs, glades := gs, sump := rs } := ⟨_, _, _, _, hpull.frame⟩
    rw [hfold]
    rfl
  · obtain ⟨i, hi⟩ := hpull.thr k
    refine ⟨i, (thr?_modAll _ _ _ (trapped_id · (raisedGroup m core launch who cause pc hdr flag impr waitBit)) k).trans ?_⟩
    rw [hi, Option.map_map]
    rfl
  · obtain ⟨w, hw, rfl⟩ := List.mem_map.1 hu
    have hw := hgone w hw k hk
    split
    · exact hw
    · exact hw

theorem Raised.regs {m m' : Mach} {g : TrapGroup} {ids : List Nat} (h : Raised m m' g ids) (k : Nat) :
    (m'.thr k).regs = (m.thr k).regs := by
  obtain ⟨i, hi⟩ := h.thr k
  unfold Mach.thr
  rw [hi]
  cases m.thr? k with
  | none => rfl
  | some t =>
    show (if ids.contains k then Thread.trapped { t with lastIssue := i t } g else { t with lastIssue := i t }).regs = t.regs
    split
    · exact trapped_regs _ g
    · rfl

theorem Raised.member {m m' : Mach} {g : TrapGroup} {ids : List Nat} (h : Raised m m' g ids) {k : Nat} (hk : k ∈ ids)
    (hs : (m.thr? k).isSome) : (m'.thr k).stat = .trapping g.id ∧ (m'.thr k).pc = g.pc := by
  obtain ⟨i, hi⟩ := h.thr k
  obtain ⟨t, ht⟩ := Option.isSome_iff_exists.1 hs
  rw [ht, Option.map_some, if_pos (List.contains_iff_mem.2 hk)] at hi
  rw [thr_of hi]
  exact ⟨rfl, rfl⟩

/-! ### The end of a launch -/

theorem removeThreads_mem (m : Mach) (ids : List Nat) : (m.removeThreads ids).mem = m.mem := rfl

theorem forgetLaunch_mem (m : Mach) (l : Nat) (on : Bool) : (m.forgetLaunch l on).mem = m.mem := rfl

theorem removeThreads_launches (m : Mach) (ids : List Nat) : (m.removeThreads ids).launches = m.launches := rfl

theorem forgetLaunch_launches (m : Mach) (l : Nat) (on : Bool) : (m.forgetLaunch l on).launches = m.launches := rfl

theorem endLaunch_mem (m : Mach) (l status cause : Nat) : (m.endLaunch l status cause).mem = m.mem := by
  have hlaunch : ∀ f, (m.modLaunch l f).mem = m.mem := by
    intro f
    unfold Mach.modLaunch
    cases m.launch? l <;> rfl
  unfold Mach.endLaunch
  dsimp only
  split
  · rfl
  · rw [forgetLaunch_mem, removeThreads_mem]
    exact hlaunch _

theorem modLaunch_launch? {m : Mach} {l : Nat} {la : Launch} {f : Launch → Launch} (hid : (f la).id = la.id)
    (h : m.launch? l = some la) : (m.modLaunch l f).launch? l = some (f la) := by
  unfold Mach.modLaunch
  rw [h]
  refine (find?_replace Launch.id m.launches (f la) l).trans ?_
  rw [if_pos (hid.trans (launch?_id h))]
  show Option.map _ (m.launch? l) = _
  rw [h]
  rfl

theorem endLaunch_ending {m : Mach} {l : Nat} (status cause : Nat) (hl : (m.launch? l).isSome) (hends : (m.launch l).ending = none) :
    ((m.endLaunch l status cause).launch l).ending = some (status, cause) := by
  obtain ⟨la, hla⟩ := Option.isSome_iff_exists.1 hl
  have hnone : la.ending = none := by
    rw [Mach.launch, hla] at hends
    exact hends
  have hset := modLaunch_launch? (f := fun la => { la with ending := some (la.ending.getD (status, cause)) }) rfl hla
  have hkept : (m.endLaunch l status cause).launch? l =
      (m.modLaunch l fun la => { la with ending := some (la.ending.getD (status, cause)) }).launch? l := by
    unfold Mach.endLaunch Mach.launch?
    dsimp only
    rw [if_neg (by simp [hends]), forgetLaunch_launches, removeThreads_launches]
  rw [Mach.launch, hkept, hset]
  show some (la.ending.getD (status, cause)) = _
  rw [hnone]
  rfl

/-! ### `trap` and `brk` -/

theorem raiseQ_raised {s : State} {q : Quarter} (cause flag : Nat) (va : Nat → Nat) (hr : Running s q) (hne : q.tids ≠ [])
    (hok : ∀ k ∈ q.tids, (s.mach.thr k).isHandler = false ∧ (s.mach.thr k).stat ≠ .ended) :
    Raised s.mach (s.mach.raiseQ q cause flag va)
      (raisedGroup s.mach q.core q.launch (q.active.map fun p => (p.1, p.2, va p.2)) cause q.pc q.hdr flag false false) q.tids := by
  obtain ⟨-, -, hthr, hends⟩ := hr
  have hids : (q.active.map fun p => (p.1, p.2, va p.2)).map (fun p => p.2.1) = q.tids := by
    rw [List.map_map]; rfl
  have hwho : ∀ p ∈ q.active.map fun p => (p.1, p.2, va p.2), p.2.1 ∈ q.tids := fun p hp => hids ▸ List.mem_map_of_mem hp
  have h := raise_raised (cause := cause) (pc := q.pc) (hdr := q.hdr) (flag := flag) (core := q.core) (impr := false) (waitBit := false)
    (fun h => hne (by rw [← hids, h]; rfl)) hends
    fun p hp => ⟨hthr _ (hwho p hp), (hok _ (hwho p hp)).2, (hok _ (hwho p hp)).1⟩
  rw [hids] at h
  exact h

theorem raiseQ_trapTaken {s t : State} {q : Quarter} {cause flag : Nat} {va : Nat → Nat} (hr : Running s q) (hne : q.tids ≠ [])
    (hok : ∀ k ∈ q.tids, (s.mach.thr k).isHandler = false ∧ (s.mach.thr k).stat ≠ .ended)
    (ht : t = ({ s with mach := s.mach.raiseQ q cause flag va } : State).settle) : TrapTaken s t q cause va := by
  have h := raiseQ_raised cause flag va hr hne hok
  have hthr : ∀ k, t.mach.thr k = (s.mach.raiseQ q cause flag va).thr k := fun k => by rw [ht]; rfl
  refine ⟨fun a => ?_, fun k => ?_, 
    ⟨raisedGroup s.mach q.core q.launch (q.active.map fun p => (p.1, p.2, va p.2)) cause q.pc q.hdr flag false false,
      ?_, rfl, rfl, rfl, rfl, rfl, rfl, fun k hk => ?_⟩, fun u hu k hk => ?_⟩
  · rw [ht, settle_mem, h.frame]
  · rw [hthr]
    exact h.regs k
  · rw [ht]
    exact h.group
  · rw [hthr]
    exact h.member hk (hr.2.2.1 k hk)
  · rw [ht] at hu
    exact h.gone u hu k hk

/-- A trap that a handler takes ends its launch (spec/08 R233). -/
theorem raiseQ_in_handler {m : Mach} {q : Quarter} (cause flag : Nat) (va : Nat → Nat) (hends : (m.launch q.launch).ending = none)
    (h : ∃ k ∈ q.tids, (m.thr k).isHandler = true ∧ (m.thr k).stat ≠ .ended) :
    m.raiseQ q cause flag va = m.endLaunch q.launch 7 0x77 := by
  obtain ⟨k, hk, hhandler, hlive⟩ := h
  obtain ⟨p, hp, rfl⟩ := List.mem_map.1 hk
  have hmem : (p.1, p.2, va p.2) ∈ (q.active.map fun p => (p.1, p.2, va p.2)).filter fun p => (m.thr p.2.1).stat != .ended :=
    List.mem_filter.2 ⟨List.mem_map_of_mem hp, by simpa using hlive⟩
  unfold Mach.raiseQ Mach.raise
  dsimp only
  rw [if_neg (List.ne_nil_of_mem hmem), hends, if_neg (by simp), if_pos (List.any_eq_true.2 ⟨_, hmem, hhandler⟩)]

/-- Settles O26. `trap` and `brk` are the same step, `raiseQ`, with different causes. -/
theorem softwareTraps : Obligations.SoftwareTraps := by
  unfold Obligations.SoftwareTraps
  intro h n
  have htakes : ∀ (i : Instr) (cause : Nat),
      (∀ s, exec i s = onMach (fun _ mc => mc.withQ fun q => mc.raiseQ q cause h.flag.toNat fun _ => n.toNat) s) →
      (∀ s q, Running s q → q.tids ≠ [] → (∀ k ∈ q.tids, (s.mach.thr k).isHandler = false ∧ (s.mach.thr k).stat ≠ .ended) →
        ∃ t, exec i s = .next t ∧ TrapTaken s t q cause fun _ => n.toNat) ∧
      (∀ s q, Running s q → (∃ k ∈ q.tids, (s.mach.thr k).isHandler = true ∧ (s.mach.thr k).stat ≠ .ended) →
        (s.mach.launch? q.launch).isSome →
        ∃ t, exec i s = .next t ∧ (t.mach.launch q.launch).ending = some (7, 0x77) ∧ MemoryKept s t) := by
    intro i cause hexec
    have hstep : ∀ s q, Running s q →
        exec i s = .next ({ s with mach := s.mach.raiseQ q cause h.flag.toNat fun _ => n.toNat } : State).settle := by
      intro s q hr
      rw [hexec, onMach, Mach.withQ, hr.1]
    refine ⟨fun s q hr hne hok => ⟨_, hstep s q hr, raiseQ_trapTaken hr hne hok rfl⟩, fun s q hr hhandler hl => ⟨_, hstep s q hr, ?_⟩⟩
    rw [raiseQ_in_handler _ _ _ hr.2.2.2 hhandler]
    exact ⟨endLaunch_ending 7 0x77 hl hr.2.2.2, fun a => by rw [settle_mem, endLaunch_mem]⟩
  exact ⟨htakes _ 0x72 fun s => rfl, htakes _ 0x74 fun s => rfl⟩

end Sys2Proof.Machine
end

section
/-! SUPPORT. Steps of the package: how one from a settled state ends. Tables, cores, and the power states (spec/01 R11, spec/02 R89-R91). -/

namespace Sys2Proof.Machine

/-! ### The end of a step of the package -/

/-- The end of a step of the package: what fired is delivered. -/
theorem settle_both {s : State} {y : Sys} {m : Mach} (hs : Settled s) (hc : m.cxlErrs = s.mach.cxlErrs) (hn : m.secnt = s.mach.secnt)
    (ht : y.seThr = s.sys.seThr) (hse : y.seFired = s.sys.seFired) :
    State.settle { s with sys := y, mach := m } =
      s.withBoth { y with irq := m.fired.foldl Irq.deliver y.irq } { m with fired := [] } := by
  obtain ⟨-, hs2, hs3⟩ := hs
  refine settle_plain { s with sys := y, mach := m } (hc.trans hs2) ?_
  show y.seFired = seHigh y m
  rw [hse, hs3, seHigh, seHigh, hn, ht]

theorem settle_both_quiet {s : State} {y : Sys} {m : Mach} (hs : Settled s) (hf : m.fired = s.mach.fired)
    (hc : m.cxlErrs = s.mach.cxlErrs) (hn : m.secnt = s.mach.secnt) (ht : y.seThr = s.sys.seThr) (hse : y.seFired = s.sys.seFired) :
    State.settle { s with sys := y, mach := m } = s.withBoth y m := by
  have hnone : m.fired = [] := hf.trans hs.1
  rw [settle_both hs hc hn ht hse, hnone]
  have hm : ({ m with fired := [] } : Mach) = m := by rw [← hnone]
  rw [hm]
  rfl

/-- The step of a package part and a compute part, given what it computes. -/
theorem onAll_delivers {f : Sys → Mach → Sys × Mach} {s : State} {y : Sys} {m : Mach} (hs : Settled s) (hf : f s.sys s.mach = (y, m))
    (hc : m.cxlErrs = s.mach.cxlErrs) (hn : m.secnt = s.mach.secnt) (ht : y.seThr = s.sys.seThr) (hse : y.seFired = s.sys.seFired) :
    onAll f s = .next (s.withBoth { y with irq := m.fired.foldl Irq.deliver y.irq } { m with fired := [] }) := by
  rw [onAll, hf, settle_both hs hc hn ht hse]

theorem onAll_quiet {f : Sys → Mach → Sys × Mach} {s : State} {y : Sys} {m : Mach} (hs : Settled s) (hf : f s.sys s.mach = (y, m))
    (hfi : m.fired = s.mach.fired) (hc : m.cxlErrs = s.mach.cxlErrs) (hn : m.secnt = s.mach.secnt) (ht : y.seThr = s.sys.seThr)
    (hse : y.seFired = s.sys.seFired) : onAll f s = .next (s.withBoth y m) := by
  rw [onAll, hf, settle_both_quiet hs hfi hc hn ht hse]

/-- A step of the package part alone. -/
theorem onAll_sys {f : Sys → Mach → Sys × Mach} {s : State} {y : Sys} (hs : Settled s) (hf : f s.sys s.mach = (y, s.mach))
    (ht : y.seThr = s.sys.seThr) (hse : y.seFired = s.sys.seFired) : onAll f s = .next (s.withSys y) :=
  onAll_quiet hs hf rfl rfl rfl ht hse

theorem onMach_quiet {f : Sys → Mach → Mach} {s : State} {m : Mach} (hs : Settled s) (hf : f s.sys s.mach = m)
    (hfi : m.fired = s.mach.fired) (hc : m.cxlErrs = s.mach.cxlErrs) (hn : m.secnt = s.mach.secnt) :
    onMach f s = .next (s.withMach m) := by
  rw [onMach, hf]
  exact congrArg _ (settle_both_quiet (y := s.sys) hs hfi hc hn rfl rfl)

/-! ### Tables and cores -/

theorem look_put {α : Type} (d : α) (l : List (Nat × α)) (k j : Nat) (v : α) :
    look d (put l k v) j = if k = j then v else look d l j := by
  unfold look put
  by_cases h : k = j
  · rw [List.find?_cons_of_pos (by simpa using h), if_pos h]
  · rw [List.find?_cons_of_neg (by simpa using h), if_neg h, List.find?_filter]
    have hp : (fun p : Nat × α => decide ((p.1 != k) = true ∧ (p.1 == j) = true)) = fun p => p.1 == j := by
      funext p
      by_cases hj : p.1 = j
      · simp [hj, Ne.symm h]
      · simp [hj]
    rw [hp]

theorem coreSt_core (m : Mach) (k : Nat) : (m.coreSt k).core = k := by
  unfold Mach.coreSt
  cases h : m.cores.find? fun c => c.core == k with
  | none => rfl
  | some c => exact find?_key (key := CoreSt.core) h

theorem coreSt_setCore (m : Mach) (c : CoreSt) (k : Nat) : (m.setCore c).coreSt k = if c.core = k then c else m.coreSt k := by
  unfold Mach.coreSt Mach.setCore
  by_cases h : c.core = k
  · rw [List.find?_cons_of_pos (by simpa using h), if_pos h]
    rfl
  · rw [List.find?_cons_of_neg (by simpa using h), if_neg h, List.find?_filter]
    have hp : (fun u : CoreSt => decide ((u.core != c.core) = true ∧ (u.core == k) = true)) = fun u => u.core == k := by
      funext u
      by_cases hu : u.core = k
      · simp [hu, Ne.symm h]
      · simp [hu]
    rw [hp]

/-- Cores that are set, one after the other, to a power state. -/
theorem setPower_fold (g : CPower) (l : List Nat) : ∀ m : Mach,
    let m' := l.foldl (fun m k => m.modCore k fun c => { c with power := g }) m
    m' = { m with cores := m'.cores } ∧ ∀ k, (m'.coreSt k).power = if k ∈ l then g else (m.coreSt k).power := by
  induction l with
  | nil => exact fun m => ⟨rfl, fun k => rfl⟩
  | cons a r ih =>
    intro m
    obtain ⟨hframe, hpower⟩ := ih (m.modCore a fun c => { c with power := g })
    refine ⟨hframe, fun k => (hpower k).trans ?_⟩
    unfold Mach.modCore
    rw [coreSt_setCore]
    show (if k ∈ r then g else (if (m.coreSt a).core = k then { m.coreSt a with power := g } else m.coreSt k).power) = _
    rw [coreSt_core]
    by_cases hk : a = k
    · subst hk; simp
    · have : ¬k = a := fun h => hk h.symm
      simp [hk, this]

/-! ### Power and temperature -/

theorem throtFire_frame (m : Mach) (old new : Bool) : (throtFire m old new).cxlErrs = m.cxlErrs ∧ (throtFire m old new).secnt = m.secnt := by
  unfold throtFire
  split <;> exact ⟨rfl, rfl⟩

theorem fport_setFPort (y : Sys) (n j : Nat) (p : FPort) :
    (y.setFPort n p).fport j = if j = n ∧ n < y.fports.length then p else y.fport j := by
  unfold Sys.fport Sys.setFPort
  by_cases hj : j < y.fports.length
  · rw [getD_modAt _ _ _ _ _ hj]
    by_cases h : j = n
    · rw [if_pos h, if_pos ⟨h, h ▸ hj⟩]
    · rw [if_neg h, if_neg fun c => h c.1]
  · have hlen : (modAt y.fports n fun _ => p).length ≤ j := by
      rw [modAt, List.length_mapIdx]
      omega
    rw [if_neg fun c : j = n ∧ n < y.fports.length => hj (c.1 ▸ c.2), List.getD_eq_default _ _ hlen, List.getD_eq_default _ _ (by omega)]

theorem setErr_state (y : Sys) (m : Mach) (n b j : Nat) : ((setErr y m n b).1.fport j).state = (y.fport j).state := by
  unfold setErr
  rw [fport_setFPort]
  split
  next h => rw [h.1]
  next => rfl

theorem setFPort_down (y : Sys) (n j : Nat) {p : FPort} (hp : p.state = 0) :
    ((y.setFPort n p).fport j).state = if j = n then 0 else (y.fport j).state := by
  rw [fport_setFPort]
  by_cases hj : j = n
  · subst hj
    rw [if_pos rfl]
    split
    · exact hp
    next h => rw [Sys.fport, List.getD_eq_default _ _ (by omega)]
  · rw [if_neg fun c => hj c.1, if_neg hj]

/-- A port that goes down: its registers and the sources that fire. -/
theorem goDown_frame (y : Sys) (m : Mach) (n : Nat) :
    (goDown y m n).2 = { m with fired := (goDown y m n).2.fired } ∧ (goDown y m n).1 = { y with fports := (goDown y m n).1.fports } ∧
    ∀ j, ((goDown y m n).1.fport j).state = if j = n then 0 else (y.fport j).state :=
  ⟨rfl, rfl, fun j => by rw [goDown, setErr_state, setFPort_down _ _ _ rfl]⟩

/-- Halting the serdes of a list of ports. -/
theorem haltPorts_frame (l : List Nat) : ∀ r : Sys × Mach,
    let r' := l.foldl (fun (r : Sys × Mach) n => if (r.1.fport n).state = 0 then r else goDown r.1 r.2 n) r
    r'.2 = { r.2 with fired := r'.2.fired } ∧ r'.1 = { r.1 with fports := r'.1.fports } ∧
    ∀ j, (j ∈ l ∨ (r.1.fport j).state = 0) → (r'.1.fport j).state = 0 := by
  induction l with
  | nil => exact fun r => ⟨rfl, rfl, fun j h => h.resolve_left List.not_mem_nil⟩
  | cons a l ih =>
    intro r
    rw [List.foldl_cons]
    split
    next ha =>
      obtain ⟨hm, hy, hst⟩ := ih r
      refine ⟨hm, hy, fun j hj => hst j ?_⟩
      obtain hj | hj := hj
      · obtain rfl | hj := List.mem_cons.1 hj
        · exact .inr ha
        · exact .inl hj
      · exact .inr hj
    next =>
      obtain ⟨hm1, hy1, hst1⟩ := goDown_frame r.1 r.2 a
      obtain ⟨hm, hy, hst⟩ := ih (goDown r.1 r.2 a)
      refine ⟨hm.trans (by rw [hm1]), hy.trans (by rw [hy1]), fun j hj => hst j ?_⟩
      by_cases hja : j = a
      · exact .inr (by rw [hst1, if_pos hja])
      · obtain hj | hj := hj
        · exact .inl ((List.mem_cons.1 hj).resolve_left hja)
        · exact .inr (by rw [hst1, if_neg hja, hj])

theorem read_absent {m : Memory} {a : Nat} (h : ∀ c ∈ m, c.1 ≠ a) : m.read a = 0 := by
  induction m with
  | nil => rfl
  | cons c r ih =>
    rw [Memory.read, if_neg (h c List.mem_cons_self)]
    split
    · rfl
    · exact ih fun d hd => h d (List.mem_cons_of_mem _ hd)

/-- Powering off takes the SRAM of the grove's cores out of memory. -/
theorem groveOff_read (m : Mach) {g k o : Nat} (hk : k / 24 = g) (ho : o < 2 ^ 18) :
    (m.groveOff g).mem.read (2 ^ 66 + k * 2 ^ 18 + o) = 0 := by
  refine read_absent fun c hc he => ?_
  have hkeep : (!(decide (2 ^ 66 ≤ c.1) && coreGrove ((c.1 - 2 ^ 66) / 2 ^ 18) == g)) = true := (List.mem_filter.1 hc).2
  have hcore : (c.1 - 2 ^ 66) / 2 ^ 18 = k := by omega
  have hscr : 2 ^ 66 ≤ c.1 := by omega
  rw [hcore, decide_eq_true hscr, coreGrove, Config.coresPerGrove, hk, beq_self_eq_true] at hkeep
  exact absurd hkeep (by decide)

theorem pwr_setPwr (y : Sys) (g j : Nat) (p : GPwr) : (y.setPwr g p).pwr j = if g = j then p else y.pwr j := look_put _ _ _ _ _

/-- The cores of a grove, in the order in which its transition sets them. -/
theorem mem_groveCores {g k : Nat} : k ∈ (List.range 24).map (fun i => g * 24 + i) ↔ k / 24 = g := by
  simp only [List.mem_map, List.mem_range]
  constructor
  · rintro ⟨i, hi, rfl⟩
    omega
  · rintro rfl
    exact ⟨k % 24, Nat.mod_lt _ (by decide), by omega⟩

/-- The grove's cores are in one power state. -/
def setGrovePower (m : Mach) (g : Nat) (p : CPower) : Mach :=
  (List.range 24).foldl (fun m i => m.modCore (g * 24 + i) fun c => { c with power := p }) m

theorem setGrovePower_spec (m : Mach) (g : Nat) (p : CPower) :
    setGrovePower m g p = { m with cores := (setGrovePower m g p).cores } ∧
    ∀ k, k / 24 = g → ((setGrovePower m g p).coreSt k).power = p := by
  have h := setPower_fold p ((List.range 24).map fun i => g * 24 + i) m
  rw [List.foldl_map] at h
  exact ⟨h.1, fun k hk => (h.2 k).trans (if_pos (mem_groveCores.2 hk))⟩

theorem grovePower_frame (y : Sys) (g : Nat) (p : GPwr) : (y.setPwr g p).seThr = y.seThr ∧ (y.setPwr g p).seFired = y.seFired := ⟨rfl, rfl⟩

/-- The throttling by power, and the clock, after a sample whose average is `avg` (spec/01 R11). -/
theorem power_throttle (avg lim f : Nat) (old therm : Bool) :
    let high := decide (1000 * lim < avg)
    let low := decide (100 * avg < 95 * (1000 * lim))
    let thr := high || (old && !low)
    let f' := if high then clkDown f else if low && !therm then clkUp f else f
    (1000 * lim < avg → thr = true ∧ f' = max 1000 (f - 50)) ∧
    (100 * avg < 95 * (1000 * lim) → thr = false ∧ f' = if therm then f else min 1700 (f + 50)) ∧
    (avg ≤ 1000 * lim → 95 * (1000 * lim) ≤ 100 * avg → thr = old ∧ f' = f) := by
  refine ⟨fun h => ?_, fun h => ?_, fun h1 h2 => ?_⟩
  · simp only [decide_eq_true h]
    exact ⟨rfl, rfl⟩
  · rw [decide_eq_false (p := 1000 * lim < avg) (by omega), decide_eq_true h]
    cases old <;> cases therm <;> exact ⟨rfl, rfl⟩
  · rw [decide_eq_false (p := 1000 * lim < avg) (by omega), decide_eq_false (p := 100 * avg < _) (by omega)]
    cases old <;> exact ⟨rfl, rfl⟩

theorem temps_any (temps : List Int) (p : Int → Bool) :
    ((List.range 64).map fun i => temps.getD i 0).any p = true ↔ ∃ i, i < 64 ∧ p (temps.getD i 0) = true := by
  simp only [List.any_eq_true, List.mem_map, List.mem_range]
  constructor
  · rintro ⟨_, ⟨i, hi, rfl⟩, hp⟩
    exact ⟨i, hi, hp⟩
  · rintro ⟨i, hi, hp⟩
    exact ⟨_, ⟨i, hi, rfl⟩, hp⟩

/-! ### The obligation -/

theorem powerSample_throttles (mw : DWord) (rails : List DWord) : StepsTo (.powerSample mw rails) (fun s => s.sys.powerGood = true) fun s t =>
    let win := (s.sys.pwrWindow ++ [mw.toNat]).drop (s.sys.pwrWindow.length - 99)
    let avg := win.sum / win.length
    t.sys.pwrWindow = win ∧ t.sys.pkgPwr = avg ∧ t.agenda = s.agenda ∧
    (1000 * s.sys.plimit < avg → t.sys.throtPwr = true ∧ t.sys.clkf = max 1000 (s.sys.clkf - 50)) ∧
    (100 * avg < 95 * (1000 * s.sys.plimit) → t.sys.throtPwr = false ∧
      t.sys.clkf = if s.sys.throtTherm then s.sys.clkf else min 1700 (s.sys.clkf + 50)) ∧
    (avg ≤ 1000 * s.sys.plimit → 95 * (1000 * s.sys.plimit) ≤ 100 * avg →
      t.sys.throtPwr = s.sys.throtPwr ∧ t.sys.clkf = s.sys.clkf) := by
  intro s hs hp
  have hframe := throtFire_frame s.mach s.sys.throtPwr
  show ∃ t, execPowerSample mw rails s = .next t ∧ _
  unfold execPowerSample
  exact ⟨_, onAll_delivers hs (if_neg (by simp [hp])) (hframe _).1 (hframe _).2 rfl rfl, rfl, rfl, rfl, power_throttle _ _ _ _ _⟩

theorem thermalThrottle_throttles (temps : List Int) : StepsTo (.thermalThrottle temps) (fun s => s.sys.powerGood = true) fun s t =>
    t.sys.temps = (List.range 64).map (fun i => temps.getD i 0) ∧
    ((∃ i, i < 64 ∧ 800 < temps.getD i 0) → t.sys.throtTherm = true ∧ t.sys.clkf = max 1000 (s.sys.clkf - 50)) ∧
    ((∀ i, i < 64 → temps.getD i 0 < 776) → t.sys.throtTherm = false ∧ t.sys.clkf = s.sys.clkf) := by
  intro s hs hp
  have hframe := throtFire_frame s.mach s.sys.throtTherm
  show ∃ t, execThermalThrottle temps s = .next t ∧ _
  unfold execThermalThrottle
  refine ⟨_, onAll_delivers hs (if_neg (by simp [hp])) (hframe _).1 (hframe _).2 rfl rfl, rfl, fun hhot => ?_, fun hcool => ?_⟩
  · obtain ⟨i, hi, hhot⟩ := hhot
    have hany := (temps_any temps fun t => decide (800 < t)).2 ⟨i, hi, decide_eq_true hhot⟩
    simp only [State.withBoth, hany]
    exact ⟨rfl, rfl⟩
  · have hhot : ((List.range 64).map fun i => temps.getD i 0).any (fun t => decide (800 < t)) = false := by
      rw [← Bool.not_eq_true, temps_any]
      rintro ⟨i, hi, hp⟩
      have := hcool i hi
      have := of_decide_eq_true hp
      omega
    have hall : ((List.range 64).map fun i => temps.getD i 0).all (fun t => decide (t < 776)) = true := by
      simp only [List.all_map, List.all_eq_true, List.mem_range, Function.comp, decide_eq_true_eq]
      exact hcool
    simp only [State.withBoth, hhot, hall, Bool.not_true, Bool.and_false, Bool.or_false]
    exact ⟨trivial, rfl⟩

theorem thermtrip_halts (k : Nat) :
    StepsTo (.thermtrip k) (fun s => s.sys.powerGood = true ∧ s.sys.thermtrip = false ∧ 880 ≤ s.sys.temps.getD k 0)
      fun s t => t.sys.thermtrip = true ∧ t.mach = s.mach ∧ ∀ n, n < 18 → (t.sys.fport n).state = 0 := by
  intro s hs ⟨hp, ht, htemp⟩
  obtain ⟨hm, hy, hst⟩ := haltPorts_frame (List.range fabricPorts) ({ s.sys with thermtrip := true }, s.mach)
  generalize hr : (List.range fabricPorts).foldl (fun (r : Sys × Mach) n => if (r.1.fport n).state = 0 then r else goDown r.1 r.2 n)
    ({ s.sys with thermtrip := true }, s.mach) = r at hm hy hst
  have hstep : exec (.thermtrip k) s = .next
      (s.withBoth { r.1 with irq := r.2.fired.foldl Irq.deliver r.1.irq } { r.2 with fired := [] }) := by
    show execThermtrip k s = _
    unfold execThermtrip
    refine onAll_delivers hs ((if_neg ?_).trans hr) (by rw [hm]) (by rw [hm]) (by rw [hy]) (by rw [hy])
    rw [hp, ht, decide_eq_false (Int.not_lt.2 htemp)]
    decide
  refine ⟨_, hstep, ?_, ?_, fun n hn => hst n (.inl (List.mem_range.2 hn))⟩
  · show r.1.thermtrip = true
    rw [hy]
  · show ({ r.2 with fired := [] } : Mach) = s.mach
    rw [hm, ← hs.1]

theorem corePowerGate_steps (k : Nat) : Steps (.corePowerGate k)
    (fun s => (s.mach.coreSt k).power = .c1 ∧ (s.sys.pwr (k / 24)).idle ≠ 0 ∧ (s.sys.pwr (k / 24)).tgt ≠ 1 ∧
      (∀ q ∈ s.mach.quarters, q.core = k → q.slice = none) ∧
      (s.mach.coreSt k).gatedSince + (s.sys.pwr (k / 24)).idle * 1700 ≤ s.mach.cycle)
    fun s => s.withMach (s.mach.setCore (if s.mach.wakeLine s.sys k = true
      then { s.mach.coreSt k with power := .c0, wake := false, idleSince := s.mach.cycle }
      else { s.mach.coreSt k with power := .c2 })) := by
  intro s hs ⟨hpow, hidle, htgt, hch, hat⟩
  have hchamber : (s.mach.quarters.any fun q => q.core == k && q.slice.isSome) = false := by
    refine List.any_eq_false.2 fun q hq => ?_
    by_cases hk : q.core = k
    · simp [hch q hq hk]
    · simp [hk]
  have hgo : ¬(decide ((s.mach.coreSt k).power ≠ .c1) || (s.sys.pwr (coreGrove k)).idle == 0 || (s.sys.pwr (coreGrove k)).tgt == 1 ||
      (s.mach.quarters.any fun q => q.core == k && q.slice.isSome) ||
      decide (s.mach.cycle < (s.mach.coreSt k).gatedSince + (s.sys.pwr (coreGrove k)).idle * Config.cyclesUs)) = true := by
    have hage : decide (s.mach.cycle < (s.mach.coreSt k).gatedSince + (s.sys.pwr (coreGrove k)).idle * Config.cyclesUs) = false :=
      decide_eq_false (Nat.not_lt.2 hat)
    rw [hchamber, hage]
    simp [hpow, coreGrove, Config.coresPerGrove, hidle, htgt]
  show execCorePowerGate k s = _
  unfold execCorePowerGate
  refine onMach_quiet hs ((if_neg hgo).trans ?_) rfl rfl rfl
  split <;> rfl

theorem coreWake_wakes (k : Nat) : StepsTo (.coreWake k)
    (fun s => ((s.mach.coreSt k).power = .c1 ∨ (s.mach.coreSt k).power = .c2) ∧ s.mach.wakeLine s.sys k = true)
    fun s t => (t.mach.coreSt k).power = .c0 ∧ (t.mach.coreSt k).wake = false ∧ t.sys = s.sys ∧
      (∀ u ∈ (t.mach.coreSt k).sliceUntil, s.mach.cycle + (if (s.mach.coreSt k).power = .c2 then 3400 else 2) ≤ u) ∧
      ∀ j, j ≠ k → t.mach.coreSt j = s.mach.coreSt j := by
  intro s hs ⟨hpow, hwake⟩
  show ∃ t, execCoreWake k s = .next t ∧ _
  unfold execCoreWake
  refine ⟨_, onMach_quiet hs (if_pos ⟨hpow, hwake⟩) rfl rfl rfl, ?_⟩
  have hcore := coreSt_core s.mach k
  simp only [State.withMach, coreSt_setCore, hcore, if_true]
  refine ⟨trivial, trivial, trivial, fun u hu => ?_, fun j hj => if_neg (Ne.symm hj)⟩
  obtain ⟨v, -, rfl⟩ := List.mem_map.1 hu
  exact Nat.le_max_right _ _

theorem grvPwrWrite_refused (g : Nat) (v : DWord) :
    Steps (.grvPwrWrite g v) (fun s => g < 192 ∧ bits v.toNat 8 2 = 2 ∧ s.mach.groveUsed g = true)
      fun s => s.withSys (s.sys.setPwr g { s.sys.pwr g with err := true }) := by
  intro s hs ⟨hg, htgt, hused⟩
  show execGrvPwrWrite g v s = _
  unfold execGrvPwrWrite
  refine onAll_sys hs (Prod.ext ((if_neg (Nat.not_le.2 hg)).trans ?_) rfl) rfl rfl
  unfold grvPwr
  simp only [htgt, hused]
  rfl

theorem grvPwrWrite_taken (g : Nat) (v : DWord) :
    Steps (.grvPwrWrite g v) (fun s => g < 192 ∧ bits v.toNat 8 2 ≤ 2 ∧ ¬(bits v.toNat 8 2 = 2 ∧ s.mach.groveUsed g = true))
      fun s => s.withSys (s.sys.setPwr g
        { err := (s.sys.pwr g).err && !tbit v.toNat 63, idle := bits v.toNat 16 16, tgt := bits v.toNat 8 2
          state := if bits v.toNat 8 2 = 2 then (if (s.sys.pwr g).state = 0 then 1 else (s.sys.pwr g).state)
                   else if (s.sys.pwr g).state = 2 then 3 else (s.sys.pwr g).state }) := by
  intro s hs ⟨hg, htgt, hused⟩
  show execGrvPwrWrite g v s = _
  unfold execGrvPwrWrite
  refine onAll_sys hs (Prod.ext ((if_neg (Nat.not_le.2 hg)).trans ?_) rfl) rfl rfl
  have hfree : ¬(decide (bits v.toNat 8 2 = 2) && s.mach.groveUsed g) = true := by simpa using hused
  unfold grvPwr
  rw [if_neg (by decide), if_neg hfree]
  simp only [if_neg (show ¬bits v.toNat 8 2 = 3 by omega)]
  by_cases h2 : bits v.toNat 8 2 = 2
  · by_cases h0 : (s.sys.pwr g).state = 0 <;> simp [h2, h0]
  · simp [h2]

theorem groveOff_done (g : Nat) : StepsTo (.grovePowerTransition g)
    (fun s => (s.sys.pwr g).state = 1 ∧ s.mach.groveUsed g = false ∧ (s.sys.pwr g).tgt = 2 ∧ s.mach.mem.wf = true)
    fun _ t => (t.sys.pwr g).state = 2 ∧ (∀ k, k / 24 = g → (t.mach.coreSt k).power = .c3) ∧
      ∀ k o, k / 24 = g → o < 2 ^ 18 → t.mach.mem.read (2 ^ 66 + k * 2 ^ 18 + o) = 0 := by
  intro s hs ⟨hst, hused, htgt, _⟩
  obtain ⟨hframe, hpower⟩ := setGrovePower_spec (s.mach.groveOff g) g .c3
  have hstep : exec (.grovePowerTransition g) s = .next (s.withBoth (s.sys.setPwr g { s.sys.pwr g with state := 2 })
      (setGrovePower (s.mach.groveOff g) g .c3)) := by
    show execGrovePowerTransition g s = _
    unfold execGrovePowerTransition
    refine onAll_quiet hs ?_ (by rw [hframe]; rfl) (by rw [hframe]; rfl) (by rw [hframe]; rfl) rfl rfl
    simp only [if_pos hst, if_neg (show ¬s.mach.groveUsed g = true by simp [hused]), if_pos htgt]
    rfl
  refine ⟨_, hstep, ?_, hpower, fun k o hk ho => ?_⟩
  · show ((s.sys.setPwr g _).pwr g).state = 2
    rw [pwr_setPwr, if_pos rfl]
  · have hmem : (setGrovePower (s.mach.groveOff g) g .c3).mem = (s.mach.groveOff g).mem := by rw [hframe]
    have hread := groveOff_read s.mach hk ho
    rw [← hmem] at hread
    exact hread

theorem groveOn_done (g : Nat) : StepsTo (.grovePowerTransition g) (fun s => (s.sys.pwr g).state = 3 ∧ (s.sys.pwr g).tgt ≠ 2)
    fun _ t => (t.sys.pwr g).state = 0 ∧ ∀ k, k / 24 = g → (t.mach.coreSt k).power = .c0 := by
  intro s hs ⟨hst, htgt⟩
  obtain ⟨hframe, hpower⟩ := setGrovePower_spec s.mach g .c0
  have hstep : exec (.grovePowerTransition g) s = .next (s.withBoth (s.sys.setPwr g { s.sys.pwr g with state := 0 })
      (setGrovePower s.mach g .c0)) := by
    show execGrovePowerTransition g s = _
    unfold execGrovePowerTransition
    refine onAll_quiet hs ?_ (by rw [hframe]) (by rw [hframe]) (by rw [hframe]) rfl rfl
    simp only [if_neg (show ¬(s.sys.pwr g).state = 1 by omega), if_pos hst, if_neg htgt]
    rfl
  refine ⟨_, hstep, ?_, hpower⟩
  show ((s.sys.setPwr g _).pwr g).state = 0
  rw [pwr_setPwr, if_pos rfl]

/-- Settles O46, step by step. -/
theorem powerStates : Obligations.PowerStates := by
  unfold Obligations.PowerStates
  refine ⟨⟨powerSample_throttles, thermalThrottle_throttles, thermtrip_halts⟩, ⟨?_, corePowerGate_steps, coreWake_wakes⟩,
    grvPwrWrite_refused, grvPwrWrite_taken, ?_, groveOff_done, groveOn_done⟩
  · intro k s hs ⟨hk, hpow, hidle, hwake⟩
    show execCoreClockGate k s = _
    unfold execCoreClockGate
    exact onMach_quiet hs (if_pos ⟨hk, hpow, hidle, by simp [hwake]⟩) rfl rfl rfl
  · intro g s hs hg
    show execGrvPwrErrClear g s = _
    unfold execGrvPwrErrClear
    exact onAll_sys hs (Prod.ext (if_neg (Nat.not_le.2 hg)) rfl) rfl rfl

end Sys2Proof.Machine
end

section
/-! SUPPORT. Interrupt routes, signal channels, the time base and region timers (spec/02 R78-R82). -/

namespace Sys2Proof.Machine

/-! ### Interrupt routes -/

theorem deliver_enabled {q : Irq} {i : Nat} (h : (look ({} : IRoute) q.routes i).en = true) :
    ((look ({} : IRoute) q.routes i).hart, (look ({} : IRoute) q.routes i).file, (look ({} : IRoute) q.routes i).eiid) ∈ (q.deliver i).imsic ∧
      (q.deliver i).routes = put q.routes i { look ({} : IRoute) q.routes i with pend := false } := by
  unfold Irq.deliver
  rw [if_pos h]
  refine ⟨?_, rfl⟩
  dsimp only
  split
  next hin => exact List.contains_iff_mem.1 hin
  next => exact List.mem_append_right _ List.mem_cons_self

theorem deliver_masked {q : Irq} {i : Nat} (h : (look ({} : IRoute) q.routes i).en = false) :
    q.deliver i = { q with routes := put q.routes i { look ({} : IRoute) q.routes i with pend := true } } := by
  unfold Irq.deliver
  rw [if_neg (by simp [h])]

/-- The entry that an accepted write leaves, before a pending source is sent. -/
def writtenRoute (s : State) (i : Nat) (v : DWord) : IRoute :=
  { en := v.getLsbD 63, pend := (look ({} : IRoute) s.sys.irq.routes i).pend, hart := bits v.toNat 44 4, file := bits v.toNat 40 4,
    eiid := bits v.toNat 0 11 }

theorem intRoute_refused {y : Sys} {i : Nat} {v : DWord} (h : 9 ≤ bits v.toNat 40 4 ∨ (v.getLsbD 63 = true ∧ bits v.toNat 0 11 = 0)) :
    intRoute y i v.toNat = y := by
  rw [← tbit_toNat] at h
  exact if_pos h

theorem intRoute_taken {s : State} {i : Nat} {v : DWord} (hfile : bits v.toNat 40 4 ≤ 8) (hid : v.getLsbD 63 = true → bits v.toNat 0 11 ≠ 0) :
    let q : Irq := { s.sys.irq with routes := put s.sys.irq.routes i (writtenRoute s i v) }
    intRoute s.sys i v.toNat = { s.sys with
      irq := if (v.getLsbD 63 && (look ({} : IRoute) s.sys.irq.routes i).pend) = true then q.deliver i else q } := by
  unfold writtenRoute
  rw [← tbit_toNat] at hid ⊢
  exact if_neg fun h => h.elim (by omega) fun h => hid h.1 h.2

/-- An entry written, and a pending source sent where the entry is enabled. -/
theorem routed_spec (q0 : Irq) (i : Nat) (r : IRoute) :
    let q : Irq := { q0 with routes := put q0.routes i r }
    let q' := if (r.en && r.pend) = true then q.deliver i else q
    look ({} : IRoute) q'.routes i = { r with pend := r.pend && !r.en } ∧
    (r.en = true → r.pend = true → (r.hart, r.file, r.eiid) ∈ q'.imsic) ∧
    ∀ j, j ≠ i → look ({} : IRoute) q'.routes j = look ({} : IRoute) q0.routes j := by
  intro q q'
  have hnew : look ({} : IRoute) q.routes i = r := (look_put _ _ _ _ _).trans (if_pos rfl)
  have hothers : ∀ j, j ≠ i → look ({} : IRoute) q.routes j = look ({} : IRoute) q0.routes j :=
    fun j hj => (look_put _ _ _ _ _).trans (if_neg (Ne.symm hj))
  by_cases hsend : (r.en && r.pend) = true
  · obtain ⟨hen, hpend⟩ := Bool.and_eq_true_iff.1 hsend
    have hq' : q' = q.deliver i := if_pos hsend
    obtain ⟨hin, hroutes⟩ := deliver_enabled (q := q) (i := i) (by rw [hnew, hen])
    rw [hnew] at hin hroutes
    rw [hq', hroutes]
    refine ⟨?_, fun _ _ => hin, fun j hj => ?_⟩
    · rw [look_put, if_pos rfl]
      show ({ r with pend := false } : IRoute) = { r with pend := r.pend && !r.en }
      rw [hpend]
      simp only [hen]
      rfl
    · rw [look_put, if_neg (Ne.symm hj), hothers j hj]
  · have hq' : q' = q := if_neg hsend
    rw [hq', hnew]
    refine ⟨?_, fun hen hpend => absurd (by rw [hen, hpend]; rfl) hsend, hothers⟩
    have hpend : (r.pend && !r.en) = r.pend := by
      revert hsend
      cases r.en <;> cases r.pend <;> decide
    rw [hpend]

theorem intRouteWrite_taken (i : Nat) (v : DWord) : StepsTo (.intRouteWrite i v)
    (fun _ => i < 256 ∧ bits v.toNat 40 4 ≤ 8 ∧ (v.getLsbD 63 = true → bits v.toNat 0 11 ≠ 0)) fun s t =>
    let r := look ({} : IRoute) t.sys.irq.routes i
    let old := look ({} : IRoute) s.sys.irq.routes i
    r.en = v.getLsbD 63 ∧ r.hart = bits v.toNat 44 4 ∧ r.file = bits v.toNat 40 4 ∧ r.eiid = bits v.toNat 0 11 ∧
    r.pend = (old.pend && !v.getLsbD 63) ∧
    (v.getLsbD 63 = true → old.pend = true → (r.hart, r.file, r.eiid) ∈ t.sys.irq.imsic) ∧ t.mach = s.mach ∧
    ∀ j, j ≠ i → look ({} : IRoute) t.sys.irq.routes j = look ({} : IRoute) s.sys.irq.routes j := by
  intro s hs ⟨hi, hfile, hid⟩
  show ∃ t, execIntRouteWrite i v s = .next t ∧ _
  unfold execIntRouteWrite
  refine ⟨_, onAll_sys hs (Prod.ext ((if_neg (Nat.not_le.2 hi)).trans (intRoute_taken hfile hid)) rfl) rfl rfl, ?_⟩
  obtain ⟨hentry, hsent, hothers⟩ := routed_spec s.sys.irq i (writtenRoute s i v)
  dsimp only [State.withSys]
  unfold writtenRoute at hentry hsent hothers ⊢
  rw [hentry]
  exact ⟨rfl, rfl, rfl, rfl, rfl, hsent, rfl, hothers⟩

/-! ### Signal channels -/

theorem modAt_eq_set {α : Type} (l : List α) (i : Nat) (x : α) : modAt l i (fun _ => x) = l.set i x := by
  refine List.ext_getElem? fun j => ?_
  rw [modAt, List.getElem?_mapIdx, List.getElem?_set]
  by_cases hj : i = j
  · subst hj
    by_cases hlen : i < l.length
    · simp [hlen]
    · simp [hlen]
  · have hji : ¬j = i := fun h => hj h.symm
    simp [hj, hji]

theorem sigpendRead_before_ors (c : Nat) (old new : Word) : StepsTo (.sigpendRead c)
    (fun s => c < 16 ∧ s.mach.sigpend.length = 16 ∧ s.mach.sigOld = [(c, old, new)])
    fun s t => t.sys.lastRead = old.setWidth 64 ∧ nth t.mach.sigpend c = new ∧
      t.sys.irq = (if old ≠ 0 ∧ new ≠ 0 then s.sys.irq.deliver (144 + c) else s.sys.irq) := by
  intro s hs ⟨hc, hlen, hold⟩
  have htake : sigTake s.mach c = (old, if old ≠ 0 ∧ new ≠ 0
      then Mach.fire { s.mach with sigpend := s.mach.sigpend.set c new, sigOld := put s.mach.sigOld c (0, new) } (144 + c)
      else { s.mach with sigpend := s.mach.sigpend.set c new, sigOld := put s.mach.sigOld c (0, new) }) := by
    unfold sigTake
    rw [hold, List.find?_cons_of_pos (by simp), ← modAt_eq_set]
  have hnew : nth (s.mach.sigpend.set c new) c = new := by
    simp [nth, List.getD_eq_getElem?_getD, hlen, hc]
  show ∃ t, execSigpendRead c s = .next t ∧ _
  unfold execSigpendRead
  have hstep : ∀ {m : Mach}, (sigTake s.mach c).2 = m → (if 16 ≤ c then (s.sys, s.mach) else
      ({ s.sys with lastRead := (sigTake s.mach c).1.setWidth 64 }, (sigTake s.mach c).2)) =
      ({ s.sys with lastRead := old.setWidth 64 }, m) := by
    rintro m rfl
    rw [if_neg (Nat.not_le.2 hc), htake]
  by_cases hfire : old ≠ 0 ∧ new ≠ 0
  · rw [if_pos hfire] at htake
    refine ⟨_, onAll_delivers hs (hstep (congrArg Prod.snd htake)) rfl rfl rfl rfl, rfl, hnew, ?_⟩
    rw [if_pos hfire]
    show (s.mach.fired ++ [144 + c]).foldl Irq.deliver s.sys.irq = _
    rw [hs.1]
    rfl
  · rw [if_neg hfire] at htake
    refine ⟨_, onAll_quiet hs (hstep (congrArg Prod.snd htake)) rfl rfl rfl rfl rfl, rfl, hnew, ?_⟩
    rw [if_neg hfire]
    rfl

theorem sigpendRead_alone (c : Nat) : Steps (.sigpendRead c) (fun s => c < 16 ∧ ∀ x ∈ s.mach.sigOld, x.1 ≠ c)
    fun s => s.withBoth { s.sys with lastRead := (nth s.mach.sigpend c).setWidth 64 }
      { s.mach with sigpend := s.mach.sigpend.set c 0 } := by
  intro s hs ⟨hc, hold⟩
  have hnone : s.mach.sigOld.find? (fun x => x.1 == c) = none := List.find?_eq_none.2 fun x hx => by simpa using hold x hx
  have htake : sigTake s.mach c = (nth s.mach.sigpend c, { s.mach with sigpend := s.mach.sigpend.set c 0 }) := by
    unfold sigTake
    rw [hnone, ← modAt_eq_set]
  show execSigpendRead c s = _
  unfold execSigpendRead
  refine onAll_quiet hs ((if_neg (Nat.not_le.2 hc)).trans ?_) rfl rfl rfl rfl rfl
  rw [htake]

/-! ### Region timers -/

/-- What the device writes itself into a region's table leaves the counters alone. -/
theorem devWriteVa_ctrs (y : Sys) (m : Mach) (core : Nat) (e : Eff) (va : Nat) (bs : List Byte) :
    (m.devWriteVa y core e va bs).ctrs = m.ctrs := by
  unfold Mach.devWriteVa
  split
  next loc _ _ _ =>
    split
    · unfold Mach.askFar
      dsimp only
      split <;> rfl
    · split
      · unfold Mach.logErr
        dsimp only
        split <;> split <;> rfl
      · rfl
  next => rfl

theorem requestPreempt_ctrs (y : Sys) (m : Mach) (rcb reason : Nat) : (m.requestPreempt y rcb reason).ctrs = m.ctrs := by
  unfold Mach.requestPreempt
  split
  · rfl
  · split
    · rfl
    · split
      · split <;> rfl
      · exact devWriteVa_ctrs _ _ _ _ _ _

/-- The counters after a firing of a timer. -/
def firedCtrs (m : Mach) (t : RTimer) : Mach :=
  if t.ctr ≠ 0xFFFF ∧ decide (t.ctr < m.boundCtrs t.rcb) = true then (m.sync 0 6 true false (.ctr t.rcb t.ctr)).ctrAdd t.rcb t.ctr 1 none else m

/-- The timer after its firing at a time. -/
def firedTimer (m : Mach) (t : RTimer) (now ticks : Nat) : RTimer :=
  { t with
    fired := true, ctrerr := t.ctrerr || (t.ctr != 0xFFFF && !decide (t.ctr < m.boundCtrs t.rcb))
    cmp := if t.per = 0 then t.cmp else (t.cmp + ((now - t.cmp) / t.per + 1) * t.per) % 2 ^ 64
    en := t.per != 0, firedAt := some ticks }

theorem timerFire_eq {y : Sys} {m : Mach} {k : Nat} (hk : k < 16) (hen : (y.rtimer k).en = true) (hcmp : (y.rtimer k).cmp ≤ y.time.toNat) :
    let t := y.rtimer k
    let m1 := firedCtrs m t
    let m2 := if t.int then m1.fire (160 + k) else m1
    timerFire y m k = (y.setRtimer k (firedTimer m t y.time.toNat y.ticks), if t.pre then m2.requestPreempt y t.rcb 0 else m2) := by
  have hgo : ¬(decide (16 ≤ k) || !(y.rtimer k).en || decide (y.time.toNat < (y.rtimer k).cmp)) = true := by
    rw [hen, decide_eq_false (Nat.not_le.2 hk), decide_eq_false (Nat.not_lt.2 hcmp)]
    decide
  exact if_neg hgo

theorem firedTimer_compare {m : Mach} {t : RTimer} {now ticks : Nat} (hcmp : t.cmp ≤ now) (hfits : now + t.per < 2 ^ 64) (hper : t.per ≠ 0) :
    now < (firedTimer m t now ticks).cmp ∧ (firedTimer m t now ticks).cmp ≤ now + t.per ∧
      ((firedTimer m t now ticks).cmp - t.cmp) % t.per = 0 := by
  have hnext : (firedTimer m t now ticks).cmp = (t.cmp + ((now - t.cmp) / t.per + 1) * t.per) % 2 ^ 64 := if_neg hper
  have hdiv : (now - t.cmp) / t.per * t.per ≤ now - t.cmp := Nat.div_mul_le_self _ _
  have hrem : now - t.cmp < ((now - t.cmp) / t.per + 1) * t.per := Nat.lt_mul_of_div_lt (Nat.lt_succ_self _) (Nat.pos_of_ne_zero hper)
  have hle : ((now - t.cmp) / t.per + 1) * t.per ≤ now - t.cmp + t.per := by
    rw [Nat.add_mul, Nat.one_mul]
    omega
  rw [hnext, Nat.mod_eq_of_lt (by omega)]
  refine ⟨by omega, by omega, ?_⟩
  rw [Nat.add_sub_cancel_left, Nat.mul_mod_left]

theorem rtimer_setRtimer {y : Sys} {k : Nat} (t : RTimer) (hk : k < y.rtimers.length) : (y.setRtimer k t).rtimer k = t := by
  rw [Sys.rtimer, Sys.setRtimer, getD_modAt _ _ _ _ _ hk, if_pos rfl]

theorem firedCtrs_counts {m : Mach} {t : RTimer} (hin : t.ctr < m.boundCtrs t.rcb) (hctr : t.ctr ≠ 0xFFFF) :
    ((firedCtrs m t).ctr t.rcb t.ctr).val = ((m.ctr t.rcb t.ctr).val + 1) % 2 ^ 32 := by
  have h : firedCtrs m t = (m.sync 0 6 true false (.ctr t.rcb t.ctr)).ctrAdd t.rcb t.ctr 1 none := if_pos ⟨hctr, decide_eq_true hin⟩
  have hkey := ctr_key (m.sync 0 6 true false (.ctr t.rcb t.ctr)) t.rcb t.ctr
  rw [h, Mach.ctrAdd, ctr_setCtr, if_pos hkey]
  rfl

theorem regionTimerFire_fires (k : Nat) : StepsTo (.regionTimerFire k)
    (fun s => k < 16 ∧ s.sys.rtimers.length = 16 ∧ (s.sys.rtimer k).en = true ∧ (s.sys.rtimer k).cmp ≤ s.sys.time.toNat ∧
      s.sys.time.toNat + (s.sys.rtimer k).per < 2 ^ 64) fun s t =>
    let T := s.sys.rtimer k
    let U := t.sys.rtimer k
    let now := s.sys.time.toNat
    U.fired = true ∧ (T.per = 0 → U.en = false ∧ U.cmp = T.cmp) ∧
    (T.per ≠ 0 → U.en = true ∧ now < U.cmp ∧ U.cmp ≤ now + T.per ∧ (U.cmp - T.cmp) % T.per = 0) ∧
    (T.int = true → T.pre = false → t.sys.irq = s.sys.irq.deliver (160 + k)) ∧
    (T.ctr < s.mach.boundCtrs T.rcb → T.ctr ≠ 0xFFFF → U.ctrerr = T.ctrerr ∧
      (t.mach.ctr T.rcb T.ctr).val = ((s.mach.ctr T.rcb T.ctr).val + 1) % 2 ^ 32) ∧
    (s.mach.boundCtrs T.rcb ≤ T.ctr → T.ctr ≠ 0xFFFF → U.ctrerr = true ∧ t.mach.ctrs = s.mach.ctrs) := by
  intro s hs ⟨hk, hlen, hen, hcmp, hfits⟩
  have hfire := timerFire_eq (m := s.mach) hk hen hcmp
  generalize hr : timerFire s.sys s.mach k = r at hfire
  have hstep : exec (.regionTimerFire k) s = .next (State.settle { s with sys := r.1, mach := r.2 }) := by
    rw [← hr]
    rfl
  have hctrs : r.2.ctrs = (firedCtrs s.mach (s.sys.rtimer k)).ctrs := by
    rw [hfire]
    split
    · rw [requestPreempt_ctrs]
      split <;> rfl
    · split <;> rfl
  have htimer : (State.settle { s with sys := r.1, mach := r.2 }).sys.rtimer k =
      firedTimer s.mach (s.sys.rtimer k) s.sys.time.toNat s.sys.ticks := by
    obtain ⟨c, q, h, hsys⟩ := settle_sys { s with sys := r.1, mach := r.2 }
    rw [hsys, hfire]
    exact rtimer_setRtimer _ (by omega)
  refine ⟨_, hstep, ?_⟩
  dsimp only
  rw [htimer]
  refine ⟨rfl, fun hper => ⟨?_, if_pos hper⟩, fun hper => ⟨?_, firedTimer_compare hcmp hfits hper⟩, fun hint hpre => ?_,
    fun hin hctr => ⟨?_, ?_⟩, fun hout hctr => ⟨?_, ?_⟩⟩
  · simp [firedTimer, hper]
  · simp [firedTimer, hper]
  · dsimp only at hfire
    simp only [hint, hpre, Bool.false_eq_true, if_true, if_false] at hfire
    have hcounters : ∀ t, (firedCtrs s.mach t).fired = s.mach.fired ∧ (firedCtrs s.mach t).cxlErrs = s.mach.cxlErrs ∧
        (firedCtrs s.mach t).secnt = s.mach.secnt := by
      intro t
      unfold firedCtrs
      split <;> exact ⟨rfl, rfl, rfl⟩
    obtain ⟨hfi, hc, hn⟩ := hcounters (s.sys.rtimer k)
    have hend := settle_both (y := s.sys.setRtimer k (firedTimer s.mach (s.sys.rtimer k) s.sys.time.toNat s.sys.ticks))
      (m := (firedCtrs s.mach (s.sys.rtimer k)).fire (160 + k)) hs hc hn rfl rfl
    rw [hfire, hend]
    show (Mach.fire _ (160 + k)).fired.foldl Irq.deliver s.sys.irq = _
    rw [Mach.fire, hfi, hs.1]
    rfl
  · simp [firedTimer, hin]
  · have hcounts := firedCtrs_counts hin hctr
    rw [Mach.ctr, Mach.ctr?, ← hctrs] at hcounts
    exact hcounts
  · simp [firedTimer, hctr, Nat.not_lt.2 hout]
  · rw [settle_mach]
    show r.2.ctrs = _
    rw [hctrs, firedCtrs, if_neg fun h => absurd (of_decide_eq_true h.2) (Nat.not_lt.2 hout)]

theorem pastFire_eq (s : State) (k : Nat) : s.sys.pastFire k =
    { s.sys with ticks := s.sys.ticks + if (s.sys.rtimer k).firedAt = some s.sys.ticks then 1 else 0 } := by
  unfold Sys.pastFire
  by_cases h : (s.sys.rtimer k).firedAt = some s.sys.ticks
  · rw [if_pos (by simp [h]), if_pos h]
  · rw [if_neg (by simpa using h), if_neg h]
    rfl

/-- Settles O49, step by step. -/
theorem interruptsAndTimers : Obligations.InterruptsAndTimers := by
  unfold Obligations.InterruptsAndTimers
  refine ⟨⟨fun q i h => ?_, fun q i h => ?_, ?_, intRouteWrite_taken⟩, sigpendRead_before_ors, sigpendRead_alone, ?_, regionTimerFire_fires, ?_⟩
  · obtain ⟨hin, hroutes⟩ := deliver_enabled h
    exact ⟨hin, by rw [hroutes, look_put, if_pos rfl]⟩
  · rw [deliver_masked h]
    exact ⟨by rw [look_put, if_pos rfl], rfl⟩
  · intro i v s hs ⟨hi, hbad⟩
    show execIntRouteWrite i v s = _
    unfold execIntRouteWrite
    exact onAll_sys hs (Prod.ext ((if_neg (Nat.not_le.2 hi)).trans (intRoute_refused hbad)) rfl) rfl rfl
  · intro s hs hp
    show execTimeBaseTick s = _
    unfold execTimeBaseTick
    exact onAll_sys hs (Prod.ext (if_pos hp) rfl) rfl rfl
  · refine ⟨fun k s hs hk => ?_, fun k s hs hk => ?_⟩
    · show execRtmrFiredClear k s = _
      unfold execRtmrFiredClear
      refine onAll_sys hs (Prod.ext ?_ rfl) rfl rfl
      dsimp only
      rw [pastFire_eq, Sys.setRtimer, modAt_eq_set]
    · show execRtmrCtrerrClear k s = _
      unfold execRtmrCtrerrClear
      refine onAll_sys hs (Prod.ext ?_ rfl) rfl rfl
      dsimp only
      rw [pastFire_eq, Sys.setRtimer, modAt_eq_set]

end Sys2Proof.Machine
end

section
/-! SUPPORT. Reset and boot (spec/01 R28, spec/02 R70-R72). -/

namespace Sys2Proof.Machine

/-! ### The boot ROM's copies -/

theorem cavern_not_mapped (m : Mach) : m.mapped Config.cavernBase = false := by
  have hk : pkind Config.cavernBase = .cavern := by decide
  rw [Mach.mapped, Mach.inHost, hk]
  cases m.pe0ep <;> rfl

/-- A copy of an image to the cavern. -/
theorem devStore_cavern (m : Mach) (img : List Byte) : (m.devStore Config.cavernBase img).mem = m.mem.put Config.cavernBase img := by
  unfold Mach.devStore
  rw [cavern_not_mapped]
  rfl

theorem devStore_frame (m : Mach) (loc : Nat) (bs : List Byte) :
    m.devStore loc bs = { m with
      mem := (m.devStore loc bs).mem, eccDouble := (m.devStore loc bs).eccDouble, eccSingle := (m.devStore loc bs).eccSingle } := rfl

theorem getD_mapRange {α : Type} {n i : Nat} (f : Nat → α) (d : α) (h : i < n) : ((List.range n).map f).getD i d = f i := by
  simp [List.getD_eq_getElem?_getD, h]

/-- The image stands in the cavern, byte for byte. -/
theorem image_read {m : Mach} {n i : Nat} (f : Nat → Byte) (hwf : m.mem.wf = true) (hi : i < n) :
    (m.devStore Config.cavernBase ((List.range n).map f)).mem.read (Config.cavernBase + i) = f i := by
  rw [devStore_cavern, Memory.read_put _ _ _ _ hwf, if_pos ⟨by omega, by rw [List.length_map, List.length_range]; omega⟩,
    Nat.add_sub_cancel_left, getD_mapRange _ _ hi]

theorem fuses_blank {y : Sys} (h : ∀ b ∈ y.fuses, b = 0) : (y.fuses.any fun b => b != 0) = false :=
  List.any_eq_false.2 fun b hb => by simp [h b hb]

/-- An image is run where no fuse is blown (spec/02 R70). -/
theorem bootImage_blank {y : Sys} (m : Mach) (img : List Byte) (entry : Nat) (h : ∀ b ∈ y.fuses, b = 0) :
    bootImage y m img entry = ({ y with harts := y.harts.set 0 (.run (Config.cavernBase + entry) 0
      (bootsts y (m.devStore Config.cavernBase img))) }, m.devStore Config.cavernBase img) := by
  unfold bootImage
  rw [fuses_blank h, Bool.false_and, if_neg Bool.false_ne_true, modAt_eq_set]

theorem bootOk_length {n : Nat} (h : bootOk n = true) : bootLen n ≤ 2 ^ 30 := by
  unfold bootOk at h
  simp only [Bool.and_eq_true, decide_eq_true_eq] at h
  exact h.1.1.1.2

/-! ### RESET_N_RELEASE -/

/-- The package as the reset ends. -/
def releasedSys (y : Sys) : Sys :=
  { y with
    powerGood := true, devid := y.idpins.toNat, harts := .rom :: List.replicate 15 .wfi
    fports := y.fports.map fun (p : FPort) => { p with state := 1 }
    cports := y.cports.map fun (p : CPort) => { p with state := 1 } }

/-- The compute part as the reset ends: the cavern is zero. -/
def releasedMach (y : Sys) (m : Mach) : Mach :=
  { m with
    pe0ep := y.pe0pin
    mem := m.mem.filter fun c => !inCavern c.1 1
    eccSingle := m.eccSingle.filter fun w => !inCavern w 1
    eccDouble := m.eccDouble.filter fun w => !inCavern w 1 }

theorem released_cavern (y : Sys) (m : Mach) {a : Nat} (ha : inCavern a 1 = true) : (releasedMach y m).mem.read a = 0 := by
  refine read_absent fun c hc he => ?_
  have hkeep := (List.mem_filter.1 hc).2
  rw [he, ha] at hkeep
  exact Bool.false_ne_true hkeep

/-- What the ROM leaves of the package and the compute part. -/
theorem bootRom_frame (y : Sys) (m : Mach) :
    (bootRom y m).1 = { y with harts := (bootRom y m).1.harts, bootErr := (bootRom y m).1.bootErr } ∧
    (bootRom y m).2 = { m with
      mem := (bootRom y m).2.mem, eccDouble := (bootRom y m).2.eccDouble, eccSingle := (bootRom y m).2.eccSingle } := by
  unfold bootRom bootImage
  dsimp only
  split
  · split <;> exact ⟨rfl, rfl⟩
  · split
    · exact ⟨rfl, rfl⟩
    · split <;> exact ⟨rfl, rfl⟩

theorem bootRom_noImage {y : Sys} (m : Mach) (h : bits (ofBytes (flashBytes y 64)) 0 32 ≠ bootMagic) :
    bootRom y m = if m.pe0ep = true then (y, m) else (bootFail y, m) := if_pos h

theorem bootRom_badImage {y : Sys} (m : Mach) (h : bits (ofBytes (flashBytes y 64)) 0 32 = bootMagic)
    (hbad : bootOk (ofBytes (flashBytes y 64)) = false) : bootRom y m = (bootFail y, m) :=
  (if_neg (not_not_intro h)).trans (if_pos (by rw [hbad]; rfl))

theorem bootRom_image {y : Sys} (m : Mach) (h : bits (ofBytes (flashBytes y 64)) 0 32 = bootMagic)
    (hok : bootOk (ofBytes (flashBytes y 64)) = true) :
    bootRom y m = bootImage y m (flashBytes y (bootLen (ofBytes (flashBytes y 64)))) (bootEntry (ofBytes (flashBytes y 64))) :=
  (if_neg (not_not_intro h)).trans (if_neg (by rw [hok]; decide))

/-- Without a good image the ROM writes nothing. -/
theorem bootRom_mach {y : Sys} (m : Mach)
    (h : ¬(bits (ofBytes (flashBytes y 64)) 0 32 = bootMagic ∧ bootOk (ofBytes (flashBytes y 64)) = true)) : (bootRom y m).2 = m := by
  by_cases himage : bits (ofBytes (flashBytes y 64)) 0 32 = bootMagic
  · rw [bootRom_badImage m himage (by simpa using fun hok => h ⟨himage, hok⟩)]
  · rw [bootRom_noImage m himage]
    split <;> rfl

theorem resetNRelease_step {s : State} (hs : Settled s) (hp : s.sys.powerGood = false) :
    let r := bootRom (releasedSys s.sys) (releasedMach s.sys s.mach)
    exec .resetNRelease s = .next (s.withBoth r.1 r.2) := by
  obtain ⟨hsys, hmach⟩ := bootRom_frame (releasedSys s.sys) (releasedMach s.sys s.mach)
  show execResetNRelease s = _
  unfold execResetNRelease
  exact onAll_quiet hs (if_neg (by simp [hp])) (by rw [hmach]; rfl) (by rw [hmach]; rfl) (by rw [hmach]; rfl) (by rw [hsys]; rfl)
    (by rw [hsys]; rfl)

theorem resetNRelease_boots : StepsTo .resetNRelease (fun s => s.sys.powerGood = false ∧ s.mach.mem.wf = true) fun s t =>
    let ep := s.sys.pe0pin
    let n := ofBytes (flashBytes s.sys 64)
    let image := bits n 0 32 = 0x36345143
    let sts := (if ep = true then 1 else 0) + (if s.sys.bootHost = true then 2 else 0) + (if s.sys.bootErr = true then 4 else 0)
    t.sys.powerGood = true ∧ t.mach.pe0ep = ep ∧ t.sys.devid = s.sys.idpins.toNat ∧ (∀ p ∈ t.sys.fports, p.state = 1) ∧
    (∀ p ∈ t.sys.cports, p.state = 1) ∧
    (¬(image ∧ bootOk n = true) → ∀ a, inCavern a 1 = true → t.mach.mem.read a = 0) ∧
    (¬image → ep = true → t.sys.harts = .rom :: List.replicate 15 .wfi ∧ t.sys.bootErr = s.sys.bootErr) ∧
    (¬image → ep = false → t.sys.harts = List.replicate 16 .halted ∧ t.sys.bootErr = true) ∧
    (image → bootOk n = false → t.sys.harts = List.replicate 16 .halted ∧ t.sys.bootErr = true) ∧
    (image → bootOk n = true → (∀ b ∈ s.sys.fuses, b = 0) →
      t.sys.harts = .run (0x100000000 + bits n 192 64) 0 sts :: List.replicate 15 .wfi ∧
      ∀ i, i < bits n 128 64 → t.mach.mem.read (0x100000000 + i) = s.sys.flash.getD i 0) := by
  intro s hs ⟨hp, hwf⟩
  refine ⟨_, resetNRelease_step hs hp, ?_⟩
  obtain ⟨hsys, hmach⟩ := bootRom_frame (releasedSys s.sys) (releasedMach s.sys s.mach)
  dsimp only [State.withBoth]
  refine ⟨by rw [hsys]; rfl, by rw [hmach]; rfl, by rw [hsys]; rfl, ?_, ?_, ?_, ?_, ?_, ?_, ?_⟩
  · rw [hsys]
    intro p hp
    obtain ⟨q, -, rfl⟩ := List.mem_map.1 hp
    rfl
  · rw [hsys]
    intro p hp
    obtain ⟨q, -, rfl⟩ := List.mem_map.1 hp
    rfl
  · intro hno a ha
    rw [bootRom_mach (y := releasedSys s.sys) _ hno]
    exact released_cavern s.sys s.mach ha
  · intro hno hep
    rw [bootRom_noImage (y := releasedSys s.sys) _ hno, if_pos (by exact hep)]
    exact ⟨rfl, rfl⟩
  · intro hno hep
    rw [bootRom_noImage (y := releasedSys s.sys) _ hno, if_neg (show ¬(releasedMach s.sys s.mach).pe0ep = true from
      show ¬s.sys.pe0pin = true by rw [hep]; decide)]
    exact ⟨rfl, rfl⟩
  · intro himage hbad
    rw [bootRom_badImage (y := releasedSys s.sys) _ himage hbad]
    exact ⟨rfl, rfl⟩
  · intro himage hok hfuses
    rw [bootRom_image (y := releasedSys s.sys) _ himage hok, bootImage_blank (y := releasedSys s.sys) _ _ _ hfuses]
    exact ⟨rfl, fun i hi => image_read _ (Memory.wf_filter _ _ hwf) hi⟩

/-! ### BOOT_HOST_IMAGE_LOAD -/

/-- What the ROM has read of mailbox 0: the host's address, and the window that HOSTWIN names for it. -/
@[irreducible] def hostImageAt (m : Mach) : Nat := ofBytes (m.mem.bytes 0x31100100 8)

theorem hostImageAt_eq (m : Mach) : ofBytes (m.mem.bytes 0x31100100 8) = hostImageAt m := by unfold hostImageAt; rfl

def hostMach (m : Mach) : Mach := { m with hostwin := hostImageAt m - hostImageAt m % 4096 }

def hostSys (y : Sys) : Sys := { y with bootHost := true, mboxes := modAt y.mboxes 0 fun b => { b with inbell := 0 } }

/-- The window's location of the image's first byte. -/
def hostFirst (m : Mach) : Nat := Config.pcie0Base + hostImageAt m % 4096

/-- The first line of a length from a location on that the host completes with an error. -/
def badLine (m : Mach) (a k : Nat) : Option Nat := (List.range ((a % 64 + k + 63) / 64)).findSome? fun i =>
  if m.cxlBad ((a / 64 + i) * 64) then some ((a / 64 + i) * 64) else none

theorem registers_not_mapped (m : Mach) {a : Nat} (h : a < Config.cavernBase) : m.mapped a = false := by
  have hk : pkind a = .regs ∨ pkind a = .other := by
    have h : a < 0x100000000 := h
    simp only [pkind, Config.cavernBase, Config.cavernSize, Config.pcie0Base, Config.pcie1Base, Config.pcieWindow, Config.cxlBase,
      Config.cxlSize, show ¬0x100000000 ≤ a by omega, show ¬0x4000000000 ≤ a by omega, show ¬0x8000000000 ≤ a by omega,
      show ¬0x8000000000000 ≤ a by omega, false_and, if_false]
    split
    · exact .inl rfl
    · exact .inr rfl
  rw [Mach.mapped, Mach.inHost]
  obtain hk | hk := hk <;> rw [hk] <;> cases m.pe0ep <;> rfl

theorem mbox_num (m : Mach) {a : Nat} (h : a < Config.cavernBase) (n : Nat) : m.num a n = ofBytes (m.mem.bytes a n) := by
  rw [Mach.num, Mach.bytes, registers_not_mapped m h, if_neg Bool.false_ne_true]

/-- The step, by the lines that fail and the header that it reads. -/
theorem execBootHost_eq {s : State} (hrom : s.sys.harts.getD 0 .reset = .rom) (hep : s.mach.pe0ep = true)
    (hbell : (s.sys.mboxes.getD 0 {}).inbell ≠ 0) :
    exec .bootHostImageLoad s = onAll (fun _ _ =>
      let n := (hostMach s.mach).num (hostFirst s.mach) 64
      let len := ofBytes (s.mach.mem.bytes 0x31100108 8)
      match badLine (hostMach s.mach) (hostFirst s.mach) 64 with
      | some l => (romFault (hostSys s.sys) l, (hostMach s.mach).logErr 0x30 0 l)
      | none =>
        if !bootOk n || bootLen n ≠ len then (bootFail (hostSys s.sys), hostMach s.mach)
        else match badLine (hostMach s.mach) (hostFirst s.mach) len with
          | some l => (romFault (hostSys s.sys) l, (hostMach s.mach).logErr 0x30 0 l)
          | none => bootImage (hostSys s.sys) (hostMach s.mach) ((hostMach s.mach).bytes (hostFirst s.mach) len) (bootEntry n)) s := by
  have haddr : s.mach.num (mboxAt 0 + 0x100) 8 = hostImageAt s.mach :=
    (mbox_num _ (by decide) 8).trans (hostImageAt_eq s.mach)
  have hlen : s.mach.num (mboxAt 0 + 0x108) 8 = ofBytes (s.mach.mem.bytes 0x31100108 8) := mbox_num _ (by decide) 8
  have hwin : hostImageAt s.mach / 4096 * 4096 = hostImageAt s.mach - hostImageAt s.mach % 4096 := by omega
  show execBootHostImageLoad s = _
  unfold execBootHostImageLoad onAll
  dsimp only
  rw [if_neg (by rw [hrom, hep]; simpa using hbell), haddr, hlen, hwin]
  rfl

/-- A location of the host window, by its offset. -/
theorem pkind_host {off : Nat} (h : off < Config.pcieWindow) : pkind (Config.pcie0Base + off) = .pcie 0 := by
  have h : off < 0x4000000000 := h
  unfold pkind
  rw [if_neg (by simp only [Config.cavernBase, Config.cavernSize, Config.pcie0Base]; omega), if_pos ⟨Nat.le_add_right _ _, by
    simp only [Config.pcieWindow]; omega⟩]

theorem host_home {m : Mach} {off : Nat} (hep : m.pe0ep = true) (h : off < Config.pcieWindow) :
    m.home (Config.pcie0Base + off) = hostLoc (m.hostwin + off) := by
  rw [Mach.home, Mach.inHost, hep, pkind_host h, if_pos (show (true && PKind.pcie 0 == PKind.pcie 0) = true from rfl),
    Nat.add_sub_cancel_left]

theorem host_mapped {m : Mach} {off : Nat} (hep : m.pe0ep = true) (h : off < Config.pcieWindow) :
    m.mapped (Config.pcie0Base + off) = true := by
  rw [Mach.mapped, Mach.inHost, hep, pkind_host h]
  rfl

theorem mod_page_window (a : Nat) : a % 4096 < Config.pcieWindow := by
  simp only [Config.pcieWindow]
  omega

/-- The line at a number of lines after a location of the window. -/
theorem host_line (a i : Nat) : ((Config.pcie0Base + a % 4096) / 64 + i) * 64 = Config.pcie0Base + (a % 4096 / 64 + i) * 64 := by
  simp only [Config.pcie0Base]
  omega

theorem host_line_window {a k i : Nat} (hk : k ≤ 2 ^ 30) (hi : i < ((Config.pcie0Base + a % 4096) % 64 + k + 63) / 64) :
    (a % 4096 / 64 + i) * 64 < Config.pcieWindow := by
  simp only [Config.pcie0Base] at hi
  simp only [Config.pcieWindow]
  omega

/-- Bytes read through the host window. -/
theorem host_bytes {m : Mach} {off n : Nat} (hep : m.pe0ep = true) (h : off + n ≤ Config.pcieWindow) (hoff : off < Config.pcieWindow) :
    m.bytes (Config.pcie0Base + off) n = (List.range n).map fun i => m.mem.read (hostLoc (m.hostwin + (off + i))) := by
  rw [Mach.bytes, if_pos (host_mapped hep hoff)]
  refine List.map_congr_left fun i hi => ?_
  have hi := List.mem_range.1 hi
  rw [Nat.add_assoc, host_home hep (Nat.lt_of_lt_of_le (Nat.add_lt_add_left hi off) h)]

/-- What the ROM reads through the host window: host memory from the image's address on. -/
theorem hostFirst_bytes {m : Mach} {n : Nat} (hep : m.pe0ep = true) (hn : n ≤ 2 ^ 30) :
    (hostMach m).bytes (hostFirst m) n = (List.range n).map fun i => m.mem.read (hostLoc (hostImageAt m + i)) := by
  have hfits : ∀ a, a % 4096 + n ≤ Config.pcieWindow := fun a => by
    simp only [Config.pcieWindow]
    omega
  have haddr : ∀ a i, a - a % 4096 + (a % 4096 + i) = a + i := fun a i => by
    have := Nat.mod_le a 4096
    omega
  refine (host_bytes (m := hostMach m) hep (hfits _) (mod_page_window _)).trans (List.map_congr_left fun i _ => ?_)
  exact congrArg (fun a => m.mem.read (hostLoc a)) (haddr (hostImageAt m) i)

/-- No line of the host window fails where no line is bad. -/
theorem badLine_none {m : Mach} {k : Nat} (hfail : m.cxlFail = []) (hk : k ≤ 2 ^ 30) : badLine (hostMach m) (hostFirst m) k = none := by
  refine List.findSome?_eq_none_iff.2 fun i hi => if_neg ?_
  have hi := List.mem_range.1 hi
  have hkind : pkind ((hostFirst m / 64 + i) * 64) = .pcie 0 :=
    (congrArg pkind (host_line _ _)).trans (pkind_host (host_line_window hk hi))
  generalize (hostFirst m / 64 + i) * 64 = l at hkind
  have hfail : (hostMach m).cxlFail = [] := hfail
  have hcxl : (PKind.pcie 0 == PKind.cxl) = false := rfl
  rw [Mach.cxlBad, hfail, hkind, hcxl]
  simp

theorem bootHostImageLoad_boots : StepsTo .bootHostImageLoad
    (fun s => s.sys.harts.getD 0 .reset = .rom ∧ s.sys.harts.length = 16 ∧ s.mach.pe0ep = true ∧
      (s.sys.mboxes.getD 0 {}).inbell ≠ 0 ∧ (∀ b ∈ s.sys.fuses, b = 0) ∧ s.mach.mem.wf = true ∧ s.mach.cxlFail = [] ∧
      (let a := ofBytes (s.mach.mem.bytes 0x31100100 8)
       let n := ofBytes ((List.range 64).map fun i => s.mach.mem.read (hostLoc (a + i)))
       bootOk n = true ∧ bootLen n = ofBytes (s.mach.mem.bytes 0x31100108 8)))
    fun s t =>
      let a := ofBytes (s.mach.mem.bytes 0x31100100 8)
      let n := ofBytes ((List.range 64).map fun i => s.mach.mem.read (hostLoc (a + i)))
      t.mach.hostwin = a - a % 4096 ∧ t.sys.bootHost = true ∧ t.sys.bootErr = s.sys.bootErr ∧ (t.sys.mbox 0).inbell = 0 ∧
      t.sys.harts.getD 0 .reset = .run (0x100000000 + bits n 192 64) 0 (if s.sys.bootErr = true then 7 else 3) ∧
      ∀ i, i < bootLen n → t.mach.mem.read (0x100000000 + i) = s.mach.mem.read (hostLoc (a + i)) := by
  rintro s hs ⟨hrom, hharts, hep, hbell, hfuses, hwf, hfail, hok, hlen⟩
  dsimp only
  rw [hostImageAt_eq] at hok hlen ⊢
  generalize hn : ofBytes ((List.range 64).map fun i => s.mach.mem.read (hostLoc (hostImageAt s.mach + i))) = n at hok hlen ⊢
  have hread : (hostMach s.mach).num (hostFirst s.mach) 64 = n := by
    rw [Mach.num, hostFirst_bytes hep (by decide)]
    exact hn
  have hshort := bootOk_length hok
  have hstep : exec .bootHostImageLoad s = onAll (fun _ _ => bootImage (hostSys s.sys) (hostMach s.mach)
      ((List.range (bootLen n)).map fun i => s.mach.mem.read (hostLoc (hostImageAt s.mach + i))) (bootEntry n)) s := by
    rw [execBootHost_eq hrom hep hbell]
    simp only [← hlen, hread, badLine_none hfail (k := 64) (by decide), badLine_none hfail hshort, hostFirst_bytes hep hshort, hok]
    simp
  have hmboxes : 0 < s.sys.mboxes.length := by
    by_contra hnone
    rw [List.getD_eq_default _ _ (by omega)] at hbell
    exact hbell rfl
  rw [hstep]
  refine ⟨_, onAll_quiet hs (bootImage_blank (y := hostSys s.sys) _ _ _ hfuses) rfl rfl rfl rfl rfl, rfl, rfl, rfl, ?_, ?_,
    fun i hi => image_read _ hwf hi⟩
  · show ((modAt s.sys.mboxes 0 fun b => { b with inbell := 0 }).getD 0 {}).inbell = 0
    rw [getD_modAt _ _ _ _ _ hmboxes, if_pos rfl]
  · show (s.sys.harts.set 0 (.run _ 0 (bootsts (hostSys s.sys) _))).getD 0 .reset = _
    rw [List.getD_eq_getElem?_getD, List.getElem?_set, if_pos rfl, if_pos (by omega)]
    show HartSt.run _ 0 ((if s.mach.pe0ep = true then 1 else 0) + 2 + if s.sys.bootErr = true then 4 else 0) = _
    rw [hep]
    cases s.sys.bootErr <;> rfl

theorem logErr_host (m : Mach) (l : Nat) (hkind : pkind l ≠ .cxl) (hroom : m.errLog.length < 64) (cause unit : Nat) :
    m.logErr cause unit l = { m with errLog := m.errLog ++ [⟨cause, unit, l⟩], fired := m.fired ++ [209] } := by
  unfold Mach.logErr
  dsimp only
  rw [if_pos hroom, if_neg (by simpa using hkind)]
  rfl

theorem bootHostImageLoad_fails : StepsTo .bootHostImageLoad
    (fun s =>
      let a := ofBytes (s.mach.mem.bytes 0x31100100 8)
      s.sys.harts.getD 0 .reset = .rom ∧ s.mach.pe0ep = true ∧ (s.sys.mboxes.getD 0 {}).inbell ≠ 0 ∧ s.mach.errLog.length < 64 ∧
      ({ s.mach with hostwin := a - a % 4096 } : Mach).cxlBad (0x4000000000 + a % 4096 / 64 * 64) = true)
    fun s t =>
      let l := 0x4000000000 + ofBytes (s.mach.mem.bytes 0x31100100 8) % 4096 / 64 * 64
      t.sys.harts = List.replicate 16 .halted ∧ t.sys.bootErr = true ∧ t.sys.hartFaults = s.sys.hartFaults ++ [(0, l)] ∧
      t.mach.errLog = s.mach.errLog ++ [⟨0x30, 0, l⟩] := by
  rintro s hs ⟨hrom, hep, hbell, hroom, hbad⟩
  dsimp only
  rw [hostImageAt_eq] at hbad ⊢
  generalize hl : 0x4000000000 + hostImageAt s.mach % 4096 / 64 * 64 = l at hbad ⊢
  have hline : (hostFirst s.mach / 64 + 0) * 64 = l := by
    rw [← hl]
    exact host_line (hostImageAt s.mach) 0
  have hfirst : badLine (hostMach s.mach) (hostFirst s.mach) 64 = some l := by
    have hsome : ∀ a, (a % 64 + 64 + 63) / 64 = (a % 64 + 63) / 64 + 1 := fun a => by omega
    rw [badLine, hsome (hostFirst s.mach), List.range_succ_eq_map, List.findSome?_cons]
    have hhead : (if (hostMach s.mach).cxlBad ((hostFirst s.mach / 64 + 0) * 64) = true
        then some ((hostFirst s.mach / 64 + 0) * 64) else none) = some l := by
      rw [hline]
      exact if_pos hbad
    rw [hhead]
  have hkind : pkind l ≠ .cxl := by
    have h : pkind (Config.pcie0Base + hostImageAt s.mach % 4096 / 64 * 64) = .pcie 0 :=
      pkind_host (Nat.lt_of_le_of_lt (Nat.div_mul_le_self _ _) (mod_page_window _))
    rw [← hl]
    intro hc
    exact absurd (h.symm.trans hc) (by decide)
  have hstep : exec .bootHostImageLoad s = onAll (fun _ _ => (romFault (hostSys s.sys) l, (hostMach s.mach).logErr 0x30 0 l)) s := by
    rw [execBootHost_eq hrom hep hbell, hfirst]
  rw [hstep, logErr_host (hostMach s.mach) _ hkind hroom]
  exact ⟨_, onAll_delivers hs rfl rfl rfl rfl rfl, rfl, rfl, rfl, rfl⟩

/-! ### PKG_RUN -/

theorem tbit_setBit_true (n i j : Nat) : tbit (setBit n i true) j = (tbit n j || decide (i = j)) := by
  by_cases hset : tbit n i = true
  · rw [setBit, if_pos hset]
    by_cases hij : i = j
    · rw [← hij, hset]
      rfl
    · simp [hij]
  · rw [setBit, if_neg hset, if_pos rfl, tbit_eq_testBit, tbit_eq_testBit]
    rw [tbit_eq_testBit] at hset
    obtain hlt | rfl | hgt := Nat.lt_trichotomy i j
    · obtain ⟨k, rfl⟩ := Nat.exists_eq_add_of_lt hlt
      have hlow : n % 2 ^ (i + 1) < 2 ^ i := by
        have hbit : n / 2 ^ i % 2 = 0 := by simpa [Nat.testBit_eq_decide_div_mod_eq] using hset
        rw [Nat.pow_succ, Nat.mod_mul, hbit, Nat.mul_zero, Nat.add_zero]
        exact Nat.mod_lt _ (Nat.two_pow_pos i)
      have hdiv : (n + 2 ^ i) / 2 ^ (i + 1) = n / 2 ^ (i + 1) := by
        have hsum : n % 2 ^ (i + 1) + 2 ^ i < 2 ^ (i + 1) := by
          rw [Nat.pow_succ] at hlow ⊢
          omega
        conv => lhs; rw [← Nat.div_add_mod n (2 ^ (i + 1)), Nat.add_assoc, Nat.mul_add_div (Nat.two_pow_pos _)]
        rw [Nat.div_eq_of_lt hsum, Nat.add_zero]
      have hhigh : ∀ x : Nat, x.testBit (i + k + 1) = (x / 2 ^ (i + 1)).testBit k := by
        intro x
        rw [Nat.testBit_div_two_pow]
        congr 1
        omega
      rw [hhigh, hhigh, hdiv, decide_eq_false (by omega), Bool.or_false]
    · rw [Nat.add_comm, Nat.testBit_two_pow_add_eq]
      simpa using hset
    · rw [Nat.add_comm, Nat.testBit_two_pow_add_gt hgt]
      simp [Nat.ne_of_gt hgt]

/-- Bits set one after the other. -/
theorem tbit_setBits (p : Nat → Bool) (l : List Nat) : ∀ (r d : Nat),
    tbit (l.foldl (fun r i => if p i = true then setBit r i true else r) r) d = (tbit r d || (l.contains d && p d)) := by
  induction l with
  | nil => intro r d; simp
  | cons a l ih =>
    intro r d
    rw [List.foldl_cons, ih]
    by_cases ha : p a = true
    · rw [if_pos ha, tbit_setBit_true]
      by_cases hd : a = d
      · subst hd
        simp [ha]
      · have hd' : ¬d = a := fun h => hd h.symm
        simp [hd, hd']
    · rw [if_neg ha]
      by_cases hd : d = a
      · subst hd
        simp [ha]
      · simp [hd]

theorem pkgRunWrite_starts (v : DWord) : StepsTo (.pkgRunWrite v) (fun s => s.sys.powerGood = true ∧ s.sys.dies.length = 4) fun s t =>
    t.mach = s.mach ∧ (∀ d, d < 4 → tbit t.sys.pkgRun d = (tbit s.sys.pkgRun d || tbit v.toNat d)) ∧
    ∀ d, d < 4 → t.sys.dies.getD d .held =
      if tbit v.toNat d = true ∧ s.sys.dies.getD d .held = .held then .resetting else s.sys.dies.getD d .held := by
  intro s hs ⟨hp, hlen⟩
  show ∃ t, execPkgRunWrite v s = .next t ∧ _
  unfold execPkgRunWrite
  refine ⟨_, onAll_sys hs (Prod.ext (if_neg (by rw [hp]; decide)) rfl) rfl rfl, rfl, fun d hd => ?_, fun d hd => ?_⟩
  · refine (tbit_setBits _ _ _ _).trans ?_
    rw [List.contains_iff_mem.2 (List.mem_range.2 hd), Bool.true_and]
  · show (s.sys.dies.mapIdx fun i d => if (tbit v.toNat i && d == .held) = true then .resetting else d).getD d .held = _
    have hin : d < s.sys.dies.length := by omega
    simp only [List.getD_eq_getElem?_getD, List.getElem?_mapIdx, List.getElem?_eq_getElem hin, Option.map_some, Option.getD_some,
      Bool.and_eq_true, beq_iff_eq]

/-- Settles O45, step by step. -/
theorem resetAndBoot : Obligations.ResetAndBoot := by
  unfold Obligations.ResetAndBoot
  refine ⟨fun s _ _ => rfl, resetNRelease_boots, bootHostImageLoad_boots, bootHostImageLoad_fails, pkgRunWrite_starts, fun d s hs hd => ?_⟩
  show execDieResetDone d s = _
  unfold execDieResetDone
  refine onAll_sys hs ((if_pos hd).trans ?_) rfl rfl
  rw [modAt_eq_set]

end Sys2Proof.Machine
end

section
/-! SUPPORT. An operation that fails when it performs: the threads of its flight take the cause (spec/06 R190, R199, spec/08 R227).
CXL ports and decoders (spec/01 R15-R23). -/

namespace Sys2Proof.Machine

/-! ### A flight that fails -/

/-- The flight after its operation has failed. -/
def failedFlight (f : Flight) (cause va : Nat) : Flight := { f with failed := some (cause, va), done := false }

/-- The flight is the only one of its issue and of its key, and its threads live and are no handlers. -/
def Mach.Lone (m : Mach) (f : Flight) : Prop :=
  m.flights.filter (fun g => g.iss == f.iss || g.uid == f.uid) = [f] ∧ f.owner ∈ f.tids ∧ (m.launch f.launch).ending = none ∧
  ∀ k ∈ f.tids, (m.thr? k).isSome ∧ (m.thr k).stat ≠ .ended ∧ (m.thr k).isHandler = false

theorem Mach.Lone.flight? {m : Mach} {f : Flight} (h : m.Lone f) : m.flight? f.uid = some f := by
  have hfind : m.flights.find? (fun g => g.uid == f.uid) =
      (m.flights.filter fun g => g.iss == f.iss || g.uid == f.uid).find? fun g => g.uid == f.uid := by
    rw [List.find?_filter]
    congr 1
    funext g
    cases g.uid == f.uid <;> simp
  rw [Mach.flight?, hfind, h.1]
  simp

/-- A thread whose flight has failed: the flight's operations are gone, and its count stays outstanding. -/
def Thread.failing (t : Thread) (f : Flight) : Thread :=
  { t with pend := t.pend.filter fun o => o.uid != f.uid, carry := some (f.pc, f.flag) }

/-- The compute part as the threads of a failed flight take their cause. -/
def failedMach (m : Mach) (f : Flight) : Mach :=
  ((({ m.modThr f.owner fun t => { t with pend := t.pend.filter fun o => o.uid != f.uid } with
    flights := m.flights.filter fun g => g.uid != f.uid } : Mach).unlook f.iss).modAll f.tids fun t => t.failing f)

/-- What the threads of a failed flight take. -/
def failedWho (m : Mach) (f : Flight) (va : Nat) : List (Nat × Nat × Nat) :=
  sortBy (fun a b => decide (a.1 ≤ b.1)) (f.tids.map fun t => (m.slotOf t, t, va))

theorem failed_flights {m : Mach} {f : Flight} (h : m.Lone f) (cause va : Nat) :
    (m.flightFail f cause va).flights.filter (fun g => g.iss == f.iss) = [failedFlight f cause va] := by
  show (m.flights.map fun u => if u.uid == f.uid then failedFlight f cause va else u).filter (fun g => g.iss == f.iss) = _
  rw [List.filter_map]
  have hp : ((fun g : Flight => g.iss == f.iss) ∘ fun u => if u.uid == f.uid then failedFlight f cause va else u) =
      fun g => g.iss == f.iss || g.uid == f.uid := by
    funext u
    by_cases hu : u.uid = f.uid
    · simp [hu, failedFlight]
    · simp [hu]
  rw [hp, h.1]
  simp

theorem failed_pend {m : Mach} {f : Flight} (h : m.Lone f) (cause va : Nat) :
    ((m.flightFail f cause va).thr f.owner).pend.any (fun o => o.uid == f.uid) = false := by
  obtain ⟨-, howner, -, hthr⟩ := h
  obtain ⟨t, ht⟩ := Option.isSome_iff_exists.1 (hthr _ howner).1
  have hthr' : (m.flightFail f cause va).thr? f.owner = some { t with pend := t.pend.filter fun o => o.uid != f.uid } := by
    show (m.modThr f.owner fun t => { t with pend := t.pend.filter fun o => o.uid != f.uid }).thr? f.owner = _
    rw [thr?_modThr m f.owner _ (by intro; rfl) (hthr _ howner).1, ht]
    simp
  rw [thr_of hthr']
  simp

theorem failed_dropped (m : Mach) (f : Flight) (cause va : Nat) :
    (m.flightFail f cause va).flights.filter (fun g => !([failedFlight f cause va].any fun u => u.uid == g.uid)) =
      m.flights.filter fun g => g.uid != f.uid := by
  show (m.flights.map fun u => if u.uid == f.uid then failedFlight f cause va else u).filter _ = _
  rw [List.filter_map]
  have hp : ((fun g : Flight => !([failedFlight f cause va].any fun u => u.uid == g.uid)) ∘
      fun u => if u.uid == f.uid then failedFlight f cause va else u) = fun g => g.uid != f.uid := by
    funext u
    by_cases hu : u.uid = f.uid
    · simp [hu, failedFlight]
    · have hne : (f.uid == u.uid) = false := beq_false_of_ne (Ne.symm hu)
      have hne' : (u.uid == f.uid) = false := beq_false_of_ne hu
      simp [failedFlight, hne, bne, hne', hu]
  rw [hp]
  refine (List.map_congr_left fun u hu => ?_).trans (List.map_id _)
  have hu := (List.mem_filter.1 hu).2
  simp only [bne_iff_ne, ne_eq] at hu
  simp [hu]

/-- The cause that the threads of a flight take which is alone with its issue. -/
theorem failed_settles {m : Mach} {f : Flight} (h : m.Lone f) (cause va : Nat) :
    (m.flightFail f cause va).settleIssue f.iss =
      (failedMach m f).raise f.core f.launch (failedWho m f va) cause f.pc f.hdr f.flag := by
  have hfailed : [failedFlight f cause va].filter (fun f => f.failed.isSome) = [failedFlight f cause va] := rfl
  have hpend : ([failedFlight f cause va].any fun g => ((m.flightFail f cause va).thr g.owner).pend.any fun o => o.uid == g.uid) = false := by
    rw [List.any_cons, List.any_nil, Bool.or_false]
    exact failed_pend h cause va
  have hcauses : ([failedFlight f cause va].filterMap fun f => f.failed.map fun x => x.1).eraseDups = [cause] := rfl
  have hmine : [failedFlight f cause va].filter (fun f => f.failed.any fun x => x.1 == cause) = [failedFlight f cause va] :=
    List.filter_eq_self.2 fun g hg => by
      rw [List.mem_singleton.1 hg]
      simp [failedFlight]
  unfold Mach.settleIssue
  simp only [failed_flights h, hfailed, hpend, hcauses, List.foldl_cons, List.foldl_nil, hmine]
  rw [if_neg (by simp)]
  have hdrop : (fun o : PendOp => !([failedFlight f cause va].any fun u => u.uid == o.uid)) = fun o => o.uid != f.uid := by
    funext o
    rw [List.any_cons, List.any_nil, Bool.or_false, bne, Bool.beq_comm]
    rfl
  have hwho : ([failedFlight f cause va].flatMap fun g => g.tids.map fun t =>
      ((m.flightFail f cause va).slotOf t, t, (g.failed.map fun x => x.2).getD 0)) = f.tids.map fun t => (m.slotOf t, t, va) :=
    (List.flatMap_singleton _ _).trans rfl
  have hids : (f.tids.map fun t => (m.slotOf t, t, va)).map (fun p => p.2.1) = f.tids := by
    rw [List.map_map]
    exact List.map_id _
  unfold Mach.failAll
  simp only [failed_dropped, hdrop, hwho, hids]
  rfl

/-- The threads and the flights of the compute part in which the cause is taken. -/
theorem failedMach_frame (m : Mach) (f : Flight) : failedMach m f = { m with
    threads := (failedMach m f).threads, quarters := (failedMach m f).quarters, flights := m.flights.filter fun g => g.uid != f.uid } := by
  unfold failedMach Mach.unlook
  split <;> rfl

theorem failedMach_thr? {m : Mach} {f : Flight} (h : m.Lone f) (k : Nat) :
    ∃ (p : List PendOp) (c : Option (Pc × Nat)), (failedMach m f).thr? k = (m.thr? k).map fun t => { t with pend := p, carry := c } := by
  obtain ⟨-, howner, -, hthr⟩ := h
  have hunlook : ∀ (m : Mach) (i : Nat), (m.unlook i).thr? k = m.thr? k := by
    intro m i
    unfold Mach.unlook
    split <;> rfl
  have hmod := thr?_modThr m f.owner (fun t => { t with pend := t.pend.filter fun o => o.uid != f.uid }) (by intro; rfl)
    (hthr _ howner).1 k
  have hall := thr?_modAll (({ m.modThr f.owner fun t => { t with pend := t.pend.filter fun o => o.uid != f.uid } with
    flights := m.flights.filter fun g => g.uid != f.uid } : Mach).unlook f.iss) f.tids (fun t => t.failing f) (by intro; rfl) k
  rw [hunlook] at hall
  cases ht : m.thr? k with
  | none =>
    rw [ht] at hmod
    exact ⟨[], none, hall.trans (congrArg (Option.map _) hmod)⟩
  | some t =>
    rw [ht] at hmod
    have hstep : (failedMach m f).thr? k = some (if f.tids.contains k
        then (if k = f.owner then { t with pend := t.pend.filter fun o => o.uid != f.uid } else t).failing f
        else if k = f.owner then { t with pend := t.pend.filter fun o => o.uid != f.uid } else t) :=
      hall.trans (congrArg (Option.map _) hmod)
    have hsame : ∀ r, r = (if f.tids.contains k
        then (if k = f.owner then { t with pend := t.pend.filter fun o => o.uid != f.uid } else t).failing f
        else if k = f.owner then { t with pend := t.pend.filter fun o => o.uid != f.uid } else t) →
        r = { t with pend := r.pend, carry := r.carry } := by
      rintro r rfl
      split <;> split <;> rfl
    exact ⟨_, _, hstep.trans (congrArg some (hsame _ rfl))⟩

/-- What remains where a lone flight has failed. -/
structure FlightFailed (m m' : Mach) (f : Flight) (cause : Nat) : Prop where
  frame : ∃ ts qs gl sm tr fl n, m' = { m with threads := ts, quarters := qs, glades := gl, sump := sm, traps := tr, flights := fl, next := n }
  gone : m'.flight? f.uid = none
  regs : ∀ k, (m'.thr k).regs = (m.thr k).regs
  taken : ∃ g ∈ m'.traps, g.cause = cause ∧ g.pc = f.pc ∧ ∀ k, k ∈ g.members.map (fun x => x.2.1) ↔ k ∈ f.tids

theorem failedWho_ids (m : Mach) (f : Flight) (va k : Nat) : k ∈ (failedWho m f va).map (fun p => p.2.1) ↔ k ∈ f.tids := by
  have hperm := (perm_sortBy (fun a b : Nat × Nat × Nat => decide (a.1 ≤ b.1)) (f.tids.map fun t => (m.slotOf t, t, va))).map
    fun p => p.2.1
  have hids : (f.tids.map fun t => (m.slotOf t, t, va)).map (fun p => p.2.1) = f.tids := by
    rw [List.map_map]
    exact List.map_id _
  rw [hids] at hperm
  exact hperm.mem_iff

theorem failed_raised {m : Mach} {f : Flight} (h : m.Lone f) (cause va : Nat) :
    Raised (failedMach m f) ((m.flightFail f cause va).settleIssue f.iss)
      (raisedGroup (failedMach m f) f.core f.launch (failedWho m f va) cause f.pc f.hdr f.flag false false)
      ((failedWho m f va).map fun p => p.2.1) := by
  rw [failed_settles h]
  refine raise_raised ?_ ?_ fun p hp => ?_
  · intro hnone
    have howner := (failedWho_ids m f va f.owner).2 h.2.1
    rw [hnone] at howner
    exact List.not_mem_nil howner
  · have hlaunches : (failedMach m f).launches = m.launches := by rw [failedMach_frame]
    rw [Mach.launch, Mach.launch?, hlaunches]
    exact h.2.2.1
  · have hmem := (failedWho_ids m f va p.2.1).1 (List.mem_map_of_mem hp)
    obtain ⟨hs, hlive, hplain⟩ := h.2.2.2 _ hmem
    obtain ⟨ps, c, hthr⟩ := failedMach_thr? h p.2.1
    obtain ⟨t, ht⟩ := Option.isSome_iff_exists.1 hs
    rw [thr_of ht] at hlive hplain
    rw [ht] at hthr
    rw [hthr, thr_of hthr]
    exact ⟨rfl, hlive, hplain⟩

theorem flightFail_fails {m : Mach} {f : Flight} (h : m.Lone f) (cause va : Nat) :
    FlightFailed m ((m.flightFail f cause va).settleIssue f.iss) f cause := by
  have hr := failed_raised h cause va
  refine ⟨?_, ?_, fun k => ?_, _, hr.group, rfl, rfl, failedWho_ids m f va⟩
  · obtain ⟨ts, qs, hm⟩ : ∃ ts qs, failedMach m f = { m with
        threads := ts, quarters := qs, flights := m.flights.filter fun g => g.uid != f.uid } := ⟨_, _, failedMach_frame m f⟩
    have hframe := hr.frame
    rw [hm] at hframe
    exact ⟨_, _, _, _, _, _, _, hframe⟩
  · have hflights : ((m.flightFail f cause va).settleIssue f.iss).flights = m.flights.filter fun g => g.uid != f.uid := by
      rw [hr.frame, failedMach_frame]
    rw [Mach.flight?, hflights]
    exact List.find?_eq_none.2 fun g hg => by simpa using (List.mem_filter.1 hg).2
  · rw [hr.regs]
    obtain ⟨ps, c, hthr⟩ := failedMach_thr? h k
    rw [Mach.thr, Mach.thr, hthr]
    cases m.thr? k <;> rfl

/-! ### An uncorrectable error -/

theorem logErr_cxl (m : Mach) (l : Nat) (hkind : pkind l = .cxl) (hroom : m.errLog.length < 64) (cause unit : Nat) :
    m.logErr cause unit l = { m with
      errLog := m.errLog ++ [⟨cause, unit, l⟩], cxlErrs := m.cxlErrs ++ [l], fired := m.fired ++ [209] } := by
  unfold Mach.logErr
  dsimp only
  rw [if_pos hroom, if_pos (by rw [hkind]; rfl)]
  rfl

theorem opEcc_fails {m m' : Mach} {t : Thread} {o : PendOp} {f : Flight} {loc : Nat} (hlog : m.logErr 0x30 t.core loc = m') (h : m'.Lone f)
    (huid : f.uid = o.uid) (hfetch : o.kind.isFetch = false) : m.opEcc t o loc = m'.flightFail f 0x30 o.va := by
  unfold Mach.opEcc
  rw [if_neg (by rw [hfetch]; decide), hlog]
  unfold Mach.opFail
  rw [← huid, h.flight?]
  exact if_neg (by rw [hfetch]; decide)

theorem flightFail_notDone {m : Mach} {f : Flight} (h : m.Lone f) (cause va tid : Nat) (fin : Mach → Flight → Mach) :
    (m.flightFail f cause va).ifDone tid f.uid fin = m.flightFail f cause va := by
  have hfound : (m.flightFail f cause va).flight? f.uid = some (failedFlight f cause va) := by
    refine (find?_replace Flight.uid m.flights (failedFlight f cause va) f.uid).trans ?_
    rw [if_pos (show (failedFlight f cause va).uid = f.uid from rfl)]
    show (m.flight? f.uid).map _ = _
    rw [h.flight?]
    rfl
  unfold Mach.ifDone
  rw [hfound]
  split
  · rfl
  · exact if_pos (by simp [failedFlight])

/-- In the state that the step ends in. -/
theorem FlightFailed.traps {s t : State} {m m' : Mach} {f : Flight} {cause : Nat} (h : FlightFailed m m' f cause)
    (hmem : m.mem = s.mach.mem) (hthreads : m.threads = s.mach.threads) (ht : t.mach = { m' with fired := [], cxlErrs := [] }) :
    FlightTraps s t f cause := by
  obtain ⟨hframe, hgone, hregs, htaken⟩ := h
  obtain ⟨ts, qs, gl, sm, tr, fl, n, hm⟩ := hframe
  unfold FlightTraps
  rw [ht]
  refine ⟨hgone, fun a => ?_, fun k => ?_, htaken⟩
  · rw [ht]
    show m'.mem.read a = _
    rw [hm, hmem]
  · rw [ht]
    show (m'.thr k).regs = _
    rw [hregs, Mach.thr, Mach.thr?, hthreads]
    rfl

theorem poison_set {m : Mach} {y : Sys} {pa p : Nat} {d : CDec} (hd : m.decoder pa = some d) (hp : d.portOf pa = p) (hlen : p < y.cports.length) :
    ((m.setPoison (y, []) pa).1.cport p).poison = true := by
  unfold Mach.setPoison
  rw [hd]
  dsimp only
  rw [hp]
  split
  next h => exact h
  next =>
    show ((modAt y.cports p fun c => { c with poison := true }).getD p {}).poison = true
    rw [getD_modAt _ _ _ _ _ hlen, if_pos rfl]

theorem cxlAccess_fails (p tid oid : Nat) (o : PendOp) (f : Flight) (d : CDec) : StepsTo (.cxlMemError p (.access tid oid) true)
    (fun s => (s.mach.thr tid).pend.find? (fun o => o.oid == oid) = some o ∧ f.uid = o.uid ∧ f.owner = tid ∧ LoneFlight s f ∧
      o.kind.isFetch = false ∧ pkind o.loc = .cxl ∧ s.mach.decoder o.loc = some d ∧ d.portOf o.loc = p ∧ p < 12 ∧ s.sys.cports.length = 12 ∧
      s.mach.errLog.length < 64)
    fun s t => (t.sys.cport p).poison = true ∧ t.mach.errLog = s.mach.errLog ++ [⟨0x30, (s.mach.thr tid).core, o.loc⟩] ∧
      FlightTraps s t f 0x30 := by
  rintro s hs ⟨hfound, huid, -, hlone, hfetch, hkind, hdec, hport, hp, hlen, hroom⟩
  have hlog := logErr_cxl s.mach o.loc hkind hroom 0x30 (s.mach.thr tid).core
  generalize hm : ({ s.mach with
    errLog := s.mach.errLog ++ [⟨0x30, (s.mach.thr tid).core, o.loc⟩], cxlErrs := s.mach.cxlErrs ++ [o.loc],
    fired := s.mach.fired ++ [209] } : Mach) = m at hlog
  have hlone' : m.Lone f := hm ▸ hlone
  have hflight : s.mach.flight? o.uid = some f := huid ▸ Mach.Lone.flight? (m := s.mach) hlone
  have hfails := flightFail_fails hlone' 0x30 o.va
  have hbehind : s.mach.behind p o.loc = true := by
    rw [Mach.behind, hkind, hdec]
    simp [hport]
  have hstep : exec (.cxlMemError p (.access tid oid) true) s =
      .next (State.settle { s with mach := (m.flightFail f 0x30 o.va).settleIssue f.iss }) := by
    show execCxlMemError p (.access tid oid) true s = _
    unfold execCxlMemError onMach
    simp only [Bool.not_true, Bool.false_eq_true, if_false, hfound, hkind, beq_self_eq_true, if_true, hbehind, hflight, Option.map_some,
      Option.getD_some, opEcc_fails hlog hlone' huid hfetch]
  generalize (m.flightFail f 0x30 o.va).settleIssue f.iss = m' at hfails hstep
  refine ⟨_, hstep, ?_, ?_, hfails.traps (by rw [← hm]) (by rw [← hm]) rfl⟩
  · obtain ⟨ts, qs, gl, sm, tr, fl, n, hframe⟩ := hfails.frame
    have herrs : m'.cxlErrs = [o.loc] := by
      rw [hframe, ← hm]
      show s.mach.cxlErrs ++ [o.loc] = _
      rw [hs.2.1]
      rfl
    have hdecs : m'.decoder o.loc = some d := by
      rw [Mach.decoder, hframe, ← hm]
      exact hdec
    show (((m'.cxlErrs.foldl m'.setPoison (s.sys, [])).1).cport p).poison = true
    rw [herrs]
    exact poison_set hdecs hport (by omega)
  · obtain ⟨ts, qs, gl, sm, tr, fl, n, hframe⟩ := hfails.frame
    show m'.errLog = _
    rw [hframe, ← hm]

theorem hostWindowTimeout_fails (off : Nat) (T : Thread) (o : PendOp) (f : Flight) : StepsTo (.hostWindowTimeout off)
    (fun s => HostWaits s off T o f ∧ (o.sent.any fun x => decide (x.1 + 5000000 ≤ s.sys.ticks)) = true ∧ s.mach.errLog.length < 64)
    fun s t => t.sys.irq = s.sys.irq.deliver 209 ∧ t.mach.errLog = s.mach.errLog ++ [⟨0x30, T.core, o.loc⟩] ∧
      FlightTraps s t f 0x30 := by
  rintro s hs ⟨⟨hep, hhead, hpend, hfetch, hloc, hoff, -, huid, -, hlone⟩, hlate, hroom⟩
  have hkind : pkind o.loc = .pcie 0 := by
    rw [hloc]
    exact pkind_host hoff
  have hlog := logErr_host s.mach o.loc (by rw [hkind]; decide) hroom 0x30 T.core
  generalize hm : ({ s.mach with
    errLog := s.mach.errLog ++ [⟨0x30, T.core, o.loc⟩], fired := s.mach.fired ++ [209] } : Mach) = m at hlog
  have hlone' : m.Lone f := hm ▸ hlone
  have hflight : s.mach.flight? o.uid = some f := huid ▸ Mach.Lone.flight? (m := s.mach) hlone
  have hfails := flightFail_fails hlone' 0x30 o.va
  have hin : s.mach.inHost o.loc = true := by
    rw [Mach.inHost, hep, hkind]
    rfl
  have hreq : s.mach.hostReq (Config.pcie0Base + off) (fun at_ => decide (at_ + Config.ticks50ms ≤ s.sys.ticks)) = some (T, o) := by
    obtain ⟨r, hr⟩ : ∃ r, s.mach.threads = T :: r := by
      cases hts : s.mach.threads with
      | nil => rw [hts] at hhead; cases hhead
      | cons a r =>
        rw [hts] at hhead
        exact ⟨r, by rw [Option.some.inj hhead]⟩
    have hhit : ((o.loc == Config.pcie0Base + off || o.loc2 == Config.pcie0Base + off) && s.mach.toHost o &&
        o.sent.any fun x => decide (x.1 + Config.ticks50ms ≤ s.sys.ticks)) = true := by
      have hhere : (o.loc == Config.pcie0Base + off) = true := beq_iff_eq.2 hloc
      have htoHost : s.mach.toHost o = true := by rw [Mach.toHost, hin]; rfl
      rw [hhere, htoHost]
      exact hlate
    unfold Mach.hostReq
    rw [hr, List.findSome?_cons, hpend, List.find?_cons_of_pos (by exact hhit)]
    rfl
  have hstep : exec (.hostWindowTimeout off) s =
      .next (State.settle { s with mach := (m.flightFail f 0x30 o.va).settleIssue f.iss }) := by
    show execHostWindowTimeout off s = _
    unfold execHostWindowTimeout onAll
    simp only [hreq, Mach.hostRsp, hin, if_true, Bool.false_eq_true, if_false, hflight, Option.map_some, Option.getD_some,
      opEcc_fails hlog hlone' huid hfetch]
    rw [← huid, flightFail_notDone hlone']
  generalize (m.flightFail f 0x30 o.va).settleIssue f.iss = m' at hfails hstep
  obtain ⟨ts, qs, gl, sm, tr, fl, n, hframe⟩ := hfails.frame
  have hfired : m'.fired = s.mach.fired ++ [209] := by rw [hframe, ← hm]
  refine ⟨_, hstep, ?_, ?_, hfails.traps (by rw [← hm]) (by rw [← hm]) rfl⟩
  · have hend := settle_both (y := s.sys) (m := m') hs (by rw [hframe, ← hm]) (by rw [hframe, ← hm]) rfl rfl
    rw [show ({ s with mach := m' } : State) = { s with sys := s.sys, mach := m' } from rfl, hend]
    show m'.fired.foldl Irq.deliver s.sys.irq = _
    rw [hfired, hs.1]
    rfl
  · show m'.errLog = _
    rw [hframe, ← hm]

/-! ### Links -/

theorem cxlLinkTrain_eq {s : State} {p sp : Nat} {link : CxlLink} {f : Bool} {c : CPort} (hs : Settled s) (hp : p < 12)
    (hgood : s.sys.powerGood = true) (hstate : (s.sys.cport p).state < 3)
    (hc : c = if (s.sys.cport p).state = 2 then { s.sys.cport p with replays := min 65535 ((s.sys.cport p).replays + link.replays) }
      else if (f && decide (1 ≤ sp) && decide (sp ≤ 3) && (link.width == 4 || link.width == 8 || link.width == 16)) = true
        then { s.sys.cport p with state := 2, speed := sp, width := link.width }
        else { s.sys.cport p with state := 3, speed := 0, width := 0 }) :
    exec (.cxlLinkTrain p sp link f) s = .next (s.withSys { s.sys with cports := s.sys.cports.set p c }) := by
  show execCxlLinkTrain p sp link f s = _
  unfold execCxlLinkTrain
  refine onAll_sys hs ((if_neg ?_).trans ?_) rfl rfl
  · rw [hgood, decide_eq_false (Nat.not_le.2 hp)]
    simp [Nat.ne_of_lt hstate]
  · rw [hc, ← modAt_eq_set]
    split
    · rfl
    · split <;> rfl

/-- A decoder after a port has gone down. -/
def lostDec (p : Nat) (d : CDec) : CDec :=
  if (d.committed && d.ports.contains p && !d.lostPorts.contains p) = true then { d with lostPorts := d.lostPorts ++ [p] } else d

theorem mem_ports {d : CDec} {p : Nat} : p ∈ d.ports ↔ ∃ w, w < d.nways ∧ d.port w = p := by
  simp only [CDec.ports, List.mem_map, List.mem_range]

theorem lostDec_spec (p : Nat) (d : CDec) : lostDec p d = { d with lostPorts := (lostDec p d).lostPorts } ∧
    ∀ k, k ∈ (lostDec p d).lostPorts ↔ k ∈ d.lostPorts ∨ k = p ∧ d.committed = true ∧ ∃ w, w < d.nways ∧ d.port w = p := by
  simp only [← mem_ports]
  unfold lostDec
  by_cases h : (d.committed && d.ports.contains p && !d.lostPorts.contains p) = true
  · rw [if_pos h]
    simp only [Bool.and_eq_true, List.contains_iff_mem] at h
    refine ⟨rfl, fun k => ?_⟩
    simp [h.1.1, h.1.2]
  · rw [if_neg h]
    refine ⟨rfl, fun k => ⟨.inl, fun hk => hk.elim id ?_⟩⟩
    rintro ⟨rfl, hcommitted, hport⟩
    by_contra hk
    exact h (by simp [hcommitted, hport, hk])

theorem cxlLinkDown_loses (p : Nat) : StepsTo (.cxlLinkDown p) (fun s => (s.sys.cport p).state = 2) fun s t =>
    (t.sys.cport p).state = 0 ∧ (t.sys.cport p).ldown = true ∧ t.sys.irq = s.sys.irq.deliver 211 ∧
    t.mach = { s.mach with decs := t.mach.decs } ∧ t.mach.decs.length = s.mach.decs.length ∧
    ∀ d, t.mach.dec d = { s.mach.dec d with lostPorts := (t.mach.dec d).lostPorts } ∧
      ∀ k, k ∈ (t.mach.dec d).lostPorts ↔ k ∈ (s.mach.dec d).lostPorts ∨
        k = p ∧ (s.mach.dec d).committed = true ∧ ∃ w, w < (s.mach.dec d).nways ∧ (s.mach.dec d).port w = p := by
  intro s hs hup
  have hp : p < s.sys.cports.length := by
    by_contra hout
    rw [Sys.cport, List.getD_eq_default _ _ (Nat.not_lt.1 hout)] at hup
    exact absurd hup (by decide)
  show ∃ t, execCxlLinkDown p s = .next t ∧ _
  unfold execCxlLinkDown
  have hport : ∀ c, ({ s.sys with cports := modAt s.sys.cports p fun _ => c } : Sys).cport p = c := fun c => by
    rw [Sys.cport, getD_modAt _ _ _ _ _ hp, if_pos rfl]
  refine ⟨_, onAll_delivers hs (if_neg (not_not_intro hup)) rfl rfl rfl rfl, ?_, ?_, ?_, ?_, List.length_map .., fun d => ?_⟩
  · exact congrArg CPort.state (hport _)
  · exact congrArg CPort.ldown (hport _)
  · show (s.mach.fired ++ [211]).foldl Irq.deliver s.sys.irq = _
    rw [hs.1]
    rfl
  · show ({ s.mach with decs := _, fired := [] } : Mach) = _
    rw [← hs.1]
    rfl
  · have hdec : ((s.mach.decs.map (lostDec p)).getD d {}) = lostDec p (s.mach.dec d) := by
      rw [Mach.dec, List.getD_eq_getElem?_getD, List.getD_eq_getElem?_getD, List.getElem?_map]
      cases s.mach.decs[d]? <;> rfl
    show ((s.mach.decs.map (lostDec p)).getD d {}) = { s.mach.dec d with
      lostPorts := ((s.mach.decs.map (lostDec p)).getD d {}).lostPorts } ∧ _
    rw [hdec]
    refine ⟨(lostDec_spec p _).1, fun k => ?_⟩
    show k ∈ ((s.mach.decs.map (lostDec p)).getD d {}).lostPorts ↔ _
    rw [hdec]
    exact (lostDec_spec p _).2 k

/-! ### Decoders -/

/-- The decoder as a write of CXLD_CTL leaves its ways and its granule. -/
def ctlDec (d : CDec) (v : Word) : CDec := { d with ways := bits v.toNat 25 4, gran := bits v.toNat 22 3 }

/-- Two ranges overlap. -/
def CDec.overlaps (d x : CDec) : Prop := d.base < x.base + x.size ∧ x.base < d.base + d.size

/-- Why a commit is refused (spec/01 R18). -/
theorem commitBad_iff (y : Sys) (m : Mach) (i : Nat) (d : CDec) :
    commitBad y m i d = true ↔ waysOf d.ways = none ∨ d.gran = 7 ∨ (∃ w, w < d.nways ∧ (12 ≤ d.port w ∨ (y.cport (d.port w)).state ≠ 2)) ∨
      ∃ j, j ≠ i ∧ (m.dec j).committed = true ∧ d.overlaps (m.dec j) := by
  have hports : (d.ports.any fun p => decide (12 ≤ p) || (y.cport p).state != 2) = true ↔
      ∃ w, w < d.nways ∧ (12 ≤ d.port w ∨ (y.cport (d.port w)).state ≠ 2) := by
    simp [CDec.ports]
  have hothers : ((enum m.decs).any fun x => x.1 != i && x.2.committed && decide (d.base < x.2.base + x.2.size) &&
      decide (x.2.base < d.base + d.size)) = true ↔ ∃ j, j ≠ i ∧ (m.dec j).committed = true ∧ d.overlaps (m.dec j) := by
    simp only [List.any_eq_true, Bool.and_eq_true, bne_iff_ne, decide_eq_true_eq, CDec.overlaps]
    constructor
    · rintro ⟨⟨j, x⟩, hx, ⟨⟨hj, hc⟩, hlo⟩, hhi⟩
      have hdec : m.dec j = x := by
        rw [Mach.dec, List.getD_eq_getElem?_getD, mem_enum.1 hx]
        rfl
      exact ⟨j, hj, by rw [hdec]; exact hc, by rw [hdec]; exact ⟨hlo, hhi⟩⟩
    · rintro ⟨j, hj, hc, hlo, hhi⟩
      have hin : m.decs[j]? = some (m.dec j) := by
        rw [Mach.dec, List.getD_eq_getElem?_getD]
        cases hx : m.decs[j]? with
        | some x => rfl
        | none =>
          rw [Mach.dec, List.getD_eq_getElem?_getD, hx] at hc
          exact absurd hc (by decide)
      exact ⟨(j, m.dec j), mem_enum.2 hin, ⟨⟨hj, hc⟩, hlo⟩, hhi⟩
  unfold commitBad
  rw [Bool.or_eq_true, Bool.or_eq_true, Bool.or_eq_true, hports, hothers, Option.isNone_iff_eq_none, beq_iff_eq, or_assoc, or_assoc]

theorem cxldCommit_eq {s : State} {d : Nat} {v : Word} (hs : Settled s) (hd : d < 32) (hv : v.getLsbD 31 = true)
    (hc : (s.mach.dec d).committed = false) :
    exec (.cxldCommit d v) s = .next (s.withMach { s.mach with
      decs := s.mach.decs.set d (if commitBad s.sys s.mach d (ctlDec (s.mach.dec d) v) = true
        then { ctlDec (s.mach.dec d) v with err := true, lostPorts := [] }
        else { ctlDec (s.mach.dec d) v with committed := true, err := false, lostPorts := [] }) }) := by
  rw [← tbit_toNat] at hv
  show execCxldCommit d v s = _
  unfold execCxldCommit
  refine onMach_quiet hs ((if_pos ⟨hd, hv⟩).trans ?_) rfl rfl rfl
  unfold decCtl
  dsimp only
  rw [if_neg (by rw [hc]; decide), if_neg (by rw [hv]; decide), ← modAt_eq_set]
  show (if commitBad s.sys s.mach d (ctlDec (s.mach.dec d) v) = true then _ else _) = _
  by_cases hb : commitBad s.sys s.mach d (ctlDec (s.mach.dec d) v) = true
  · simp only [if_pos hb]
    rfl
  · simp only [if_neg hb]
    rfl

/-! ### Lines that fail -/

theorem setFail_contains (m : Mach) (pa : Nat) (bad : Bool) (l : Nat) :
    (m.setFail pa bad).cxlFail.contains l = if l = m.home pa / 64 then bad else m.cxlFail.contains l := by
  unfold Mach.setFail
  cases bad with
  | true =>
    dsimp only
    by_cases hin : m.cxlFail.contains (m.home pa / 64) = true
    · rw [if_pos rfl, if_pos hin]
      split
      next h => rw [h, hin]
      next => rfl
    · rw [if_pos rfl, if_neg hin]
      by_cases hl : l = m.home pa / 64
      · simp [hl]
      · simp [hl]
  | false =>
    dsimp only
    rw [if_neg Bool.false_ne_true]
    by_cases hl : l = m.home pa / 64
    · simp [hl]
    · rw [if_neg hl]
      simp [hl]

theorem cxlLine_fails (p pa : Nat) (bad : Bool) : StepsTo (.cxlMemError p (.line pa) bad)
    (fun s => pkind pa = .cxl ∧ ∃ d, s.mach.decoder pa = some d ∧ d.portOf pa = p)
    fun s t => t.sys = s.sys ∧ MemoryKept s t ∧ ∀ a, pkind a = .cxl →
      (s.mach.home a / 64 ≠ s.mach.home pa / 64 → t.mach.cxlBad a = s.mach.cxlBad a) ∧
      (s.mach.home a / 64 = s.mach.home pa / 64 →
        (t.mach.cxlBad a = true ↔ bad = true ∨ ∃ d, s.mach.decoder a = some d ∧ d.portOf a ∈ d.lostPorts)) := by
  rintro s hs ⟨hkind, d, hdec, hport⟩
  have hbehind : s.mach.behind p pa = true := by
    rw [Mach.behind, hkind, hdec]
    simp [hport]
  show ∃ t, execCxlMemError p (.line pa) bad s = .next t ∧ _
  unfold execCxlMemError
  refine ⟨_, onMach_quiet hs (if_pos hbehind) rfl rfl rfl, rfl, fun a => rfl, fun a ha => ?_⟩
  have hmapped : s.mach.mapped a = true := by rw [Mach.mapped, ha]; rfl
  have hbad : (s.mach.setFail pa bad).cxlBad a = ((s.mach.setFail pa bad).cxlFail.contains (s.mach.home a / 64) ||
      (s.mach.decoder a).any fun d => d.lostPorts.contains (d.portOf a)) := by
    show (s.mach.mapped a && ((s.mach.setFail pa bad).cxlFail.contains (s.mach.home a / 64) || pkind a == .cxl && _)) = _
    rw [hmapped, ha]
    rfl
  have hold : s.mach.cxlBad a = (s.mach.cxlFail.contains (s.mach.home a / 64) ||
      (s.mach.decoder a).any fun d => d.lostPorts.contains (d.portOf a)) := by
    rw [Mach.cxlBad, hmapped, ha]
    rfl
  show (_ → (s.mach.setFail pa bad).cxlBad a = _) ∧ (_ → ((s.mach.setFail pa bad).cxlBad a = true ↔ _))
  rw [hbad, hold, setFail_contains]
  refine ⟨fun hline => by rw [if_neg hline], fun hline => ?_⟩
  rw [if_pos hline, Bool.or_eq_true, Option.any_eq_true]
  simp only [List.contains_iff_mem]

/-! ### The obligation -/

theorem setCPort_step {i : Instr} {s : State} {p : Nat} (c : CPort) (hs : Settled s)
    (h : exec i s = onAll (fun _ m => (s.sys.setCPort p c, m)) s) :
    exec i s = .next (s.withSys { s.sys with cports := s.sys.cports.set p c }) := by
  rw [h]
  refine onAll_sys hs (Prod.ext ?_ rfl) rfl rfl
  rw [← modAt_eq_set]
  rfl

/-- Settles O47, step by step. -/
theorem cxlLinksAndErrors : Obligations.CxlLinksAndErrors := by
  unfold Obligations.CxlLinksAndErrors
  refine ⟨⟨?_, ?_, ?_, cxlLinkDown_loses, ?_, ?_, fun p s hs _ => setCPort_step _ hs rfl, fun p s hs _ => setCPort_step _ hs rfl,
    fun p s hs _ => setCPort_step _ hs rfl⟩, ⟨?_, ?_, ?_, cxlLine_fails⟩, cxlAccess_fails, hostWindowTimeout_fails⟩
  · rintro p sp w r f s hs ⟨hp, hgood, hstate, hf, hlo, hhi, hw⟩
    refine cxlLinkTrain_eq hs hp hgood (by omega) ?_
    rw [if_neg (by omega), if_pos (by simpa [hf, hlo, hhi, or_assoc] using hw)]
  · rintro p sp w r f s hs ⟨hp, hgood, hstate, hbad⟩
    refine cxlLinkTrain_eq hs hp hgood (by omega) ?_
    rw [if_neg (by omega), if_neg (by simpa [and_assoc, or_assoc] using hbad)]
  · rintro p sp w r f s hs ⟨hp, hgood, hstate⟩
    exact cxlLinkTrain_eq hs hp hgood (by omega) (by rw [if_pos hstate])
  · intro p s hs hp
    show execCxlDcEvent ⟨p, true⟩ s = _
    unfold execCxlDcEvent
    rw [onAll_delivers (y := s.sys.setCPort p { s.sys.cport p with dcevt := true }) (m := s.mach.fire 211) hs
      (if_neg (Nat.not_le.2 hp)) rfl rfl rfl rfl]
    have hfired : s.mach.fired = [] := hs.1
    have hmach : ({ s.mach with fired := [] } : Mach) = s.mach := by rw [← hs.1]
    show Host.Outcome.next (s.withBoth { s.sys.setCPort p _ with irq := (s.mach.fired ++ [211]).foldl Irq.deliver s.sys.irq }
      { s.mach with fired := [] }) = _
    rw [hfired, hmach, Sys.setCPort, modAt_eq_set]
    rfl
  · intro p s hs hp
    show execCxlDcEvent ⟨p, false⟩ s = _
    unfold execCxlDcEvent
    refine onAll_sys hs ((if_neg (Nat.not_le.2 hp)).trans ?_) rfl rfl
    rw [Sys.setCPort, modAt_eq_set]
    rfl
  · rintro d v s hs ⟨hd, hv, hc, hgran, ⟨n, hn, hports⟩, hothers⟩
    rw [cxldCommit_eq hs hd hv hc, if_neg]
    · rfl
    · rw [commitBad_iff]
      rintro (hways | hg | ⟨w, hw, hbad⟩ | ⟨j, hj, hcj, hlo, hhi⟩)
      · exact absurd (hways.symm.trans hn) (by simp)
      · exact hgran hg
      · have hwn : w < n := by
          have hnw : (ctlDec (s.mach.dec d) v).nways = n := by
            show (waysOf (bits v.toNat 25 4)).getD 1 = n
            rw [hn]
            rfl
          rwa [hnw] at hw
        obtain ⟨hlt, hup⟩ := hports w hwn
        exact hbad.elim (fun h => absurd hlt (Nat.not_lt.2 h)) fun h => h hup
      · have hclear := hothers j hj hcj
        have hlo : (s.mach.dec d).base < (s.mach.dec j).base + (s.mach.dec j).size := hlo
        have hhi : (s.mach.dec j).base < (s.mach.dec d).base + (s.mach.dec d).size := hhi
        omega
  · rintro d v s hs ⟨hd, hv, hc, hbad⟩
    rw [cxldCommit_eq hs hd hv hc, if_pos]
    · rfl
    · rw [commitBad_iff]
      obtain hg | hways | ⟨n, w, hn, hw, hbad⟩ | ⟨j, hj, hcj, hlo, hhi⟩ := hbad
      · exact .inr (.inl hg)
      · exact .inl hways
      · refine .inr (.inr (.inl ⟨w, ?_, hbad⟩))
        show w < (waysOf (bits v.toNat 25 4)).getD 1
        rw [hn]
        exact hw
      · exact .inr (.inr (.inr ⟨j, hj, hcj, hlo, hhi⟩))
  · rintro d v s hs ⟨hd, hv, hc⟩
    rw [← tbit_toNat] at hv
    show execCxldUncommit d v s = _
    unfold execCxldUncommit
    refine onMach_quiet hs ((if_pos ⟨hd, by rw [hv]; rfl⟩).trans ?_) rfl rfl rfl
    unfold decCtl
    simp only [hc, hv, Bool.false_eq_true, if_false, if_true]
    rw [Mach.setDec, modAt_eq_set]

end Sys2Proof.Machine
end

section
/-! SUPPORT. Fabric links: training, failure, control, routes, errors (spec/01 R34-R37, R46, R47). -/

namespace Sys2Proof.Machine

/-! ### Ports -/

theorem setFPort_setFPort (y : Sys) (n : Nat) (p q : FPort) : (y.setFPort n p).setFPort n q = y.setFPort n q := by
  unfold Sys.setFPort
  dsimp only
  rw [modAt_eq_set, modAt_eq_set, List.set_set, modAt_eq_set]

/-- A bit of FPORT_ERR set in a port that has just been written. -/
theorem setErr_setFPort (y : Sys) (m : Mach) (n b : Nat) (p : FPort) :
    setErr (y.setFPort n p) m n b = (y.setFPort n { p with err := setBit p.err b true }, m.fire (212 + n)) := by
  unfold setErr
  dsimp only
  rw [fport_setFPort, setFPort_setFPort]
  by_cases hn : n < y.fports.length
  · rw [if_pos ⟨rfl, hn⟩]
  · refine Prod.ext ?_ rfl
    have hout : ∀ q, y.setFPort n q = y := fun q => by
      unfold Sys.setFPort
      rw [modAt_eq_set, List.set_eq_of_length_le (Nat.not_lt.1 hn)]
    rw [hout, hout]

/-- A step that fires one source as it leaves the package part `y`. -/
theorem onAll_fires {f : Sys → Mach → Sys × Mach} {s : State} {y : Sys} {r : Nat} (hs : Settled s) (hf : f s.sys s.mach = (y, s.mach.fire r))
    (ht : y.seThr = s.sys.seThr) (hse : y.seFired = s.sys.seFired) : onAll f s = .next ((s.withSys y).fires r) := by
  have hmach : ({ s.mach with fired := [] } : Mach) = s.mach := by rw [← hs.1]
  rw [onAll_delivers hs hf rfl rfl ht hse]
  show Host.Outcome.next (s.withBoth { y with irq := (s.mach.fired ++ [r]).foldl Irq.deliver y.irq } { s.mach with fired := [] }) = _
  rw [hmach, hs.1]
  rfl

/-- A step that writes a port and sets a bit of its FPORT_ERR. -/
theorem onAll_portErr {f : Sys → Mach → Sys × Mach} {s : State} {n b : Nat} {p : FPort} (hs : Settled s)
    (hf : f s.sys s.mach = setErr (s.sys.setFPort n p) s.mach n b) : onAll f s = .next (s.portErr n b p) :=
  onAll_fires hs (hf.trans (setErr_setFPort _ _ _ _ _)) rfl rfl

theorem onAll_portErr_kept {f : Sys → Mach → Sys × Mach} {s : State} {n b : Nat} (hs : Settled s)
    (hf : f s.sys s.mach = setErr s.sys s.mach n b) : onAll f s = .next (s.portErr n b (s.sys.fport n)) :=
  onAll_fires hs hf rfl rfl

/-! ### What an output that fits its link keeps -/

theorem fitFlits_all (ver : Nat) (l : List (Option Msg)) : ∀ k, (∀ y, some y ∈ l → msgNeeds y ≤ ver) →
    fitFlits ver k l = (List.replicate k none ++ l, []) := by
  induction l with
  | nil => intro k _; simp [fitFlits]
  | cons x r ih =>
    intro k h
    have hr : ∀ y, some y ∈ r → msgNeeds y ≤ ver := fun y hy => h y (List.mem_cons_of_mem _ hy)
    cases x with
    | none =>
      rw [fitFlits, ih (k + 1) hr, List.replicate_succ', List.append_assoc]
      rfl
    | some x =>
      have hx : decide (ver < msgNeeds x) = false := decide_eq_false (Nat.not_lt.2 (h x List.mem_cons_self))
      rw [fitFlits, ih 0 hr]
      dsimp only
      rw [hx, Bool.and_false, if_neg Bool.false_ne_true]
      rfl

/-- The flits of a channel, under its number. -/
theorem channel_flits (l : List (Nat × Option Msg)) (vc : Nat) :
    ((l.filter fun x => x.1 == vc).map fun x => x.2).map (fun f => (vc, f)) = l.filter fun x => x.1 == vc := by
  rw [List.map_map]
  refine (List.map_congr_left fun x hx => ?_).trans (List.map_id _)
  have hvc : x.1 = vc := by simpa using (List.mem_filter.1 hx).2
  exact Prod.ext hvc.symm rfl

theorem channels_filter (g : Nat → List (Nat × Option Msg)) (hg : ∀ vc, ∀ x ∈ g vc, x.1 = vc) {vc : Nat} (hvc : vc < 8) :
    ((List.range 8).flatMap g).filter (fun x => x.1 == vc) = g vc := by
  rw [List.filter_flatMap]
  have hone : ∀ w, (g w).filter (fun x => x.1 == vc) = if w = vc then g vc else [] := by
    intro w
    by_cases hw : w = vc
    · rw [if_pos hw, hw]
      exact List.filter_eq_self.2 fun x hx => by simpa using hg vc x hx
    · rw [if_neg hw]
      exact List.filter_eq_nil_iff.2 fun x hx => by simpa [hg w x hx] using hw
  have hrange : List.range 8 = [0, 1, 2, 3, 4, 5, 6, 7] := rfl
  rw [hrange]
  simp only [hone]
  interval_cases vc <;> simp

theorem fit_outq (p : FPort) (ver : Nat) : p.fit ver = ({ p with outq := (p.fit ver).1.outq }, (p.fit ver).2) := rfl

/-- A port whose messages all fit keeps the flits of every channel, in their order. -/
theorem fit_keeps {p : FPort} {ver : Nat} (h : ∀ x ∈ p.outq, ∀ y, x.2 = some y → msgNeeds y ≤ ver) :
    (p.fit ver).2 = [] ∧ ∀ vc, vc < 8 → (p.fit ver).1.outq.filter (fun x => x.1 == vc) = p.outq.filter fun x => x.1 == vc := by
  have hfits : ∀ vc, fitFlits ver 0 ((p.outq.filter fun x => x.1 == vc).map fun x => x.2) =
      ((p.outq.filter fun x => x.1 == vc).map fun x => x.2, []) := by
    intro vc
    refine (fitFlits_all ver _ 0 fun y hy => ?_).trans rfl
    obtain ⟨x, hx, hxy⟩ := List.mem_map.1 hy
    exact h x (List.mem_filter.1 hx).1 y hxy
  unfold FPort.fit
  simp only [hfits, List.flatMap_map, channel_flits]
  refine ⟨by simp, fun vc hvc => channels_filter (fun vc => p.outq.filter fun x => x.1 == vc) (fun vc x hx => ?_) hvc⟩
  simpa using (List.mem_filter.1 hx).2

theorem unsend_nil (y : Sys) (m : Mach) : m.unsend y [] = m := by
  show ({ m with out := [] ++ m.out ++ [] } : Mach) = m
  rw [List.nil_append, List.append_nil]

/-! ### Training -/

/-- A link that may train: its port exists and is enabled, and it is not up. -/
def MayTrain (s : State) (n : Nat) : Prop :=
  n < 18 ∧ s.sys.powerGood = true ∧ s.sys.thermtrip = false ∧ (s.sys.fport n).ctlEn = true ∧ (s.sys.fport n).state ≠ 2

theorem mayTrain_goes {s : State} {n : Nat} (h : MayTrain s n) :
    ¬(decide (fabricPorts ≤ n) || !s.sys.powerGood || s.sys.thermtrip || !(s.sys.fport n).ctlEn || (s.sys.fport n).state == 2) = true := by
  obtain ⟨hn, hgood, htrip, hen, hup⟩ := h
  have hport : decide (fabricPorts ≤ n) = false := decide_eq_false (Nat.not_le.2 hn)
  simp [hport, hgood, htrip, hen, hup]

theorem fabricLinkTrain_up (n rtt ver peer req rsp : Nat) : StepsTo (.fabricLinkTrain n rtt ver peer req rsp)
    (fun s => MayTrain s n ∧ n < s.sys.fports.length ∧ rtt ≤ 320 ∧ req = (s.sys.fport n).bulkReq ∧ rsp = (s.sys.fport n).bulkRsp ∧
      1 ≤ ver ∧ ver ≤ 3 ∧ 1 ≤ (s.sys.fport n).maxver ∧ (s.sys.fport n).maxver ≤ 3 ∧ peer < 4096)
    (fun s t =>
      let P := s.sys.fport n
      t = (s.withMach { s.mach with out := t.mach.out }).withPort n { P with
        state := 2, ver := min ver P.maxver, peer := peer, rtt := rtt / 2, useReq := req, useRsp := rsp, downSince := none
        outq := (t.sys.fport n).outq, replayFrom := P.replay.head?.map fun f => f.1 } ∧
      ((∀ x ∈ P.outq, ∀ y, x.2 = some y → msgNeeds y ≤ min ver P.maxver) → t.mach.out = s.mach.out ∧
        ∀ vc, vc < 8 → (t.sys.fport n).outq.filter (fun x => x.1 == vc) = P.outq.filter fun x => x.1 == vc)) := by
  rintro s hs ⟨htrain, hlen, hrtt, hreq, hrsp, hver1, hver3, hmax1, hmax3, hpeer⟩
  generalize hP : s.sys.fport n = P at hreq hrsp hmax1 hmax3
  generalize hv : min ver P.maxver = v
  have hvmine : Nat.max 1 (Nat.min (Nat.min ver 3) (if P.maxver = 0 then 1 else P.maxver)) = v := by
    rw [if_neg (by omega), ← hv]
    show max 1 (min (min ver 3) P.maxver) = _
    omega
  generalize hQ : ({ P with
    state := 2, ver := v, peer := peer, rtt := rtt / 2, useReq := req, useRsp := rsp, downSince := none
    outq := (P.fit v).1.outq, replayFrom := P.replay.head?.map fun f => f.1 } : FPort) = Q
  have hstep : exec (.fabricLinkTrain n rtt ver peer req rsp) s =
      .next (s.withBoth (s.sys.setFPort n Q) (s.mach.unsend s.sys (P.fit v).2)) := by
    show execFabricLinkTrain n rtt ver peer req rsp s = _
    unfold execFabricLinkTrain
    refine onAll_quiet hs ((if_neg (mayTrain_goes htrain)).trans ((if_neg (Nat.not_lt.2 hrtt)).trans ((if_neg ?_).trans ?_))) rfl rfl rfl rfl rfl
    · rw [hP, hreq, hrsp]
      simp
    · dsimp only
      rw [hP, hvmine, Nat.mod_eq_of_lt hpeer, fit_outq, ← hQ]
  have hport : (s.sys.setFPort n Q).fport n = Q := by rw [fport_setFPort, if_pos ⟨rfl, hlen⟩]
  have houtq : Q.outq = (P.fit v).1.outq := by rw [← hQ]
  refine ⟨_, hstep, ?_, fun hfits => ?_⟩
  · dsimp only [State.withBoth]
    rw [hport, houtq, hP, hv, hQ]
    rfl
  · dsimp only [State.withBoth]
    rw [hport, houtq, hP]
    rw [hP, hv] at hfits
    obtain ⟨hnone, hkept⟩ := fit_keeps hfits
    rw [hnone, unsend_nil]
    exact ⟨rfl, hkept⟩

/-! ### FPORT_CTL -/

theorem shift_bits {w : Nat} (v : BitVec w) (i n : Nat) : (v >>> i).toNat % 2 ^ n = bits v.toNat i n := by
  rw [BitVec.toNat_ushiftRight, Nat.shiftRight_eq_div_pow]
  rfl

/-- A write of FPORT_CTL that is refused. -/
def CtlBad (s : State) (v : Word) : Prop :=
  bits v.toNat 26 3 = 0 ∨ bits v.toNat 26 3 = 7 ∨ bits v.toNat 23 3 = 0 ∨ bits v.toNat 23 3 = 7 ∨ bits v.toNat 26 3 = bits v.toNat 23 3 ∨
    ∃ c ∈ s.mach.comms, c.vc = bits v.toNat 26 3 ∨ c.vc = bits v.toNat 23 3

/-- The port as an accepted write of FPORT_CTL leaves it. -/
def ctlPort (p : FPort) (v : Word) : FPort :=
  { p with ctlEn := v.getLsbD 31, maxver := bits v.toNat 29 2, bulkReq := bits v.toNat 26 3, bulkRsp := bits v.toNat 23 3 }

theorem ctlBad_iff (s : State) (v : Word) :
    (bits v.toNat 26 3 = 0 ∨ bits v.toNat 26 3 = 7 ∨ bits v.toNat 23 3 = 0 ∨ bits v.toNat 23 3 = 7 ∨
      bits v.toNat 26 3 = bits v.toNat 23 3 ∨
      (s.mach.comms.any fun c => c.vc == bits v.toNat 26 3 || c.vc == bits v.toNat 23 3) = true) ↔ CtlBad s v := by
  simp [CtlBad]

theorem fportCtl_refused {s : State} (n : Nat) {v : Word} (h : CtlBad s v) : fportCtl s.sys s.mach n v = setErr s.sys s.mach n 5 :=
  if_pos ((ctlBad_iff s v).2 h)

/-- What an accepted write does, as the bits 31 (enable) and 22 (retrain) and the state of the link say. -/
theorem fportCtl_taken {s : State} (n : Nat) {v : Word} (h : ¬CtlBad s v) : fportCtl s.sys s.mach n v =
    if (!v.getLsbD 31) = true then
      if (s.sys.fport n).state = 0 then (s.sys.setFPort n (ctlPort (s.sys.fport n) v), s.mach)
      else goDown (s.sys.setFPort n (ctlPort (s.sys.fport n) v)) s.mach n
    else if (v.getLsbD 22 && (s.sys.fport n).state != 0) = true then retrain (s.sys.setFPort n (ctlPort (s.sys.fport n) v)) s.mach n
    else if (s.sys.fport n).state = 0 then
      ((s.sys.setFPort n (ctlPort (s.sys.fport n) v)).setFPort n { ctlPort (s.sys.fport n) v with state := 1 }, s.mach)
    else (s.sys.setFPort n (ctlPort (s.sys.fport n) v), s.mach) := by
  refine (if_neg fun hbad => h ((ctlBad_iff s v).1 hbad)).trans ?_
  rw [← tbit_toNat, ← tbit_toNat]
  unfold ctlPort
  rw [← tbit_toNat]

/-- A port whose link is not down exists. -/
theorem fport_exists {y : Sys} {n : Nat} (h : (y.fport n).state ≠ 0) : n < y.fports.length := by
  by_contra hn
  refine h ?_
  rw [Sys.fport, List.getD_eq_default _ _ (Nat.not_lt.1 hn)]

theorem goDown_eq (y : Sys) (m : Mach) (n : Nat) : goDown y m n =
    setErr (y.setFPort n { y.fport n with state := 0, ver := 0, downSince := some y.ticks }) m n 0 := rfl

theorem retrain_eq (y : Sys) (m : Mach) (n : Nat) : retrain y m n =
    setErr (y.setFPort n { y.fport n with state := 1, ver := 0, recent := [] }) m n 1 := rfl

/-- A link that an accepted write of FPORT_CTL takes down. -/
theorem goDown_setFPort {y : Sys} (m : Mach) {n : Nat} (p : FPort) (hn : n < y.fports.length) : goDown (y.setFPort n p) m n =
    setErr (y.setFPort n { p with state := 0, ver := 0, downSince := some y.ticks }) m n 0 := by
  rw [goDown_eq, fport_setFPort, if_pos ⟨rfl, hn⟩, setFPort_setFPort]
  rfl

/-! ### FPORT_ERR -/

theorem tbit_setBit_false (n i j : Nat) : tbit (setBit n i false) j = (tbit n j && !decide (i = j)) := by
  by_cases hset : tbit n i = false
  · rw [setBit, if_pos hset]
    by_cases hij : i = j
    · rw [← hij, hset]
      rfl
    · simp [hij]
  · have hodd : n / 2 ^ i % 2 = 1 := by simpa [tbit] using hset
    have hle : 2 ^ i ≤ n := by
      by_contra hlt
      rw [Nat.div_eq_of_lt (Nat.not_le.1 hlt)] at hodd
      exact absurd hodd (by decide)
    have hclear : tbit (n - 2 ^ i) i = false := by
      have hdiv : (n - 2 ^ i) / 2 ^ i = n / 2 ^ i - 1 := by
        rw [← Nat.sub_mul_div n (2 ^ i) 1, Nat.mul_one]
      rw [tbit, hdiv]
      simp only [beq_eq_false_iff_ne]
      omega
    have hback : setBit (n - 2 ^ i) i true = n := by
      rw [setBit, if_neg (by rw [hclear]; decide), if_pos rfl, Nat.sub_add_cancel hle]
    have hdown : setBit n i false = n - 2 ^ i := by
      rw [setBit, if_neg hset, if_neg Bool.false_ne_true]
    have hbits := tbit_setBit_true (n - 2 ^ i) i j
    rw [hback] at hbits
    rw [hdown, hbits]
    by_cases hij : i = j
    · subst hij
      simp [hclear]
    · simp [hij]

/-- Bits cleared one after the other. -/
theorem tbit_clearBits (p : Nat → Bool) (l : List Nat) : ∀ (r d : Nat),
    tbit (l.foldl (fun r i => if p i = true then setBit r i false else r) r) d = (tbit r d && !(l.contains d && p d)) := by
  induction l with
  | nil => intro r d; simp
  | cons a l ih =>
    intro r d
    rw [List.foldl_cons, ih]
    by_cases ha : p a = true
    · rw [if_pos ha, tbit_setBit_false]
      by_cases hd : a = d
      · subst hd
        simp [ha]
      · have hd' : ¬d = a := fun h => hd h.symm
        simp [hd, hd']
    · rw [if_neg ha]
      by_cases hd : d = a
      · subst hd
        simp [ha]
      · simp [hd]

theorem tbit_above {n i k : Nat} (hn : n < 2 ^ k) (hi : k ≤ i) : tbit n i = false := by
  rw [tbit, Nat.div_eq_of_lt (Nat.lt_of_lt_of_le hn (Nat.pow_le_pow_right (by decide) hi))]
  rfl

theorem fportErrClear_clears (n : Nat) (v : Word) :
    StepsTo (.fportErrClear n v) (fun s => n < s.sys.fports.length ∧ (s.sys.fport n).err < 64) fun s t =>
      t = s.withPort n { s.sys.fport n with err := (t.sys.fport n).err, replays := 0 } ∧
      ∀ i, tbit (t.sys.fport n).err i = (tbit (s.sys.fport n).err i && !(v.getLsbD i)) := by
  intro s hs ⟨hn, herr⟩
  show ∃ t, execFportErrClear n v s = .next t ∧ _
  unfold execFportErrClear
  refine ⟨_, onAll_sys hs rfl rfl rfl, ?_⟩
  have hport : (fportErr s.sys n v).fport n = { s.sys.fport n with
      err := (List.range 6).foldl (fun e i => if tbit v.toNat i = true then setBit e i false else e) (s.sys.fport n).err, replays := 0 } := by
    unfold fportErr
    rw [fport_setFPort, if_pos ⟨rfl, hn⟩]
  refine ⟨?_, fun i => ?_⟩
  · show s.withSys (fportErr s.sys n v) = s.withPort n { s.sys.fport n with err := ((fportErr s.sys n v).fport n).err, replays := 0 }
    rw [hport]
    rfl
  · show tbit ((fportErr s.sys n v).fport n).err i = _
    rw [hport]
    refine (tbit_clearBits _ _ _ _).trans ?_
    rw [tbit_toNat]
    by_cases hi : i < 6
    · rw [List.contains_iff_mem.2 (List.mem_range.2 hi), Bool.true_and]
    · rw [tbit_above (k := 6) herr (Nat.not_lt.1 hi)]
      rfl

/-! ### Routes -/

/-- A port of a route for an id above 0x3FF whose link has come up with a low version. -/
def RouteOld (s : State) (a : Nat) : Prop := a < 18 ∧ (s.sys.fport a).state = 2 ∧ (s.sys.fport a).ver < 3

def RouteBad (s : State) (id : Nat) (v : DWord) : Prop :=
  let f (i : Nat) : Nat := bits v.toNat i 5
  let ok (a : Nat) : Prop := a < 18 ∨ a = 31
  v.getLsbD 63 = true ∧ (18 ≤ f 15 ∨ ¬ok (f 10) ∨ ¬ok (f 5) ∨ ¬ok (f 0) ∨
    (1023 < id ∧ (RouteOld s (f 15) ∨ RouteOld s (f 10) ∨ RouteOld s (f 5) ∨ RouteOld s (f 0))))

theorem altOk_iff (a : Nat) : altOk a = true ↔ a < 18 ∨ a = 31 := by
  rw [altOk, Bool.or_eq_true, decide_eq_true_eq, beq_iff_eq]
  rfl

/-- The route that a word names. -/
def routeOf (v : DWord) : Route :=
  { v := v.getLsbD 63, prim := bits v.toNat 15 5, alt1 := bits v.toNat 10 5, alt2 := bits v.toNat 5 5, alt3 := bits v.toNat 0 5 }

/-- The tests of a write of a route entry. -/
def routeForm (v : DWord) : Bool :=
  v.getLsbD 63 && (decide (18 ≤ bits v.toNat 15 5) || !altOk (bits v.toNat 10 5) || !altOk (bits v.toNat 5 5) || !altOk (bits v.toNat 0 5))

def routeLow (s : State) (a : Nat) : Bool :=
  decide (a < 18) && (s.sys.fport a).state == 2 && decide ((s.sys.fport a).ver < 3)

def routeLows (s : State) (id : Nat) (v : DWord) : Bool :=
  v.getLsbD 63 && decide (1023 < id) &&
    (routeLow s (bits v.toNat 15 5) || routeLow s (bits v.toNat 10 5) || routeLow s (bits v.toNat 5 5) || routeLow s (bits v.toNat 0 5))

theorem routeLow_iff (s : State) (a : Nat) : routeLow s a = true ↔ RouteOld s a := by
  simp [routeLow, RouteOld, and_assoc]

theorem routeBad_iff (s : State) (id : Nat) (v : DWord) : RouteBad s id v ↔ routeForm v = true ∨ routeLows s id v = true := by
  unfold RouteBad routeForm routeLows
  simp only [Bool.and_eq_true, Bool.or_eq_true, Bool.not_eq_true', decide_eq_true_eq, routeLow_iff, ← Bool.not_eq_true, altOk_iff]
  tauto

theorem routeWrite_cases (s : State) (id : Nat) (v : DWord) : routeWrite s.sys s.mach id v =
    if routeForm v = true then setErr s.sys s.mach (if bits v.toNat 15 5 < 18 then bits v.toNat 15 5 else 0) 4
    else if routeLows s id v = true then setErr s.sys s.mach (if bits v.toNat 15 5 < 18 then bits v.toNat 15 5 else 0) 4
    else ({ s.sys with routes := put s.sys.routes id (routeOf v) }, s.mach) := by
  unfold routeForm routeLows routeOf
  rw [← tbit_toNat]
  rfl

theorem routeWrite_refused {s : State} {id : Nat} {v : DWord} (hbad : RouteBad s id v) (hprim : bits v.toNat 15 5 < 18) :
    routeWrite s.sys s.mach id v = setErr s.sys s.mach (bits v.toNat 15 5) 4 := by
  rw [routeWrite_cases, if_pos hprim]
  by_cases hform : routeForm v = true
  · rw [if_pos hform]
  · rw [if_neg hform, if_pos (((routeBad_iff s id v).1 hbad).resolve_left hform)]

theorem routeWrite_taken {s : State} {id : Nat} {v : DWord} (hok : ¬RouteBad s id v) :
    routeWrite s.sys s.mach id v = ({ s.sys with routes := put s.sys.routes id (routeOf v) }, s.mach) := by
  rw [routeBad_iff, not_or] at hok
  rw [routeWrite_cases, if_neg hok.1, if_neg hok.2]

/-! ### The steps of the statement -/

theorem fabricLinkTrain_refuses (n rtt ver peer req rsp : Nat) :
    Steps (.fabricLinkTrain n rtt ver peer req rsp) (fun s => s.sys.thermtrip = true) (fun s => s) ∧
    Steps (.fabricLinkTrain n rtt ver peer req rsp) (fun s => MayTrain s n ∧ 320 < rtt)
      (fun s => s.portErr n 3 { s.sys.fport n with
        state := 3, ver := 0, downSince := some ((s.sys.fport n).downSince.getD s.sys.ticks), rtt := min 255 (rtt / 2) }) ∧
    Steps (.fabricLinkTrain n rtt ver peer req rsp)
      (fun s => MayTrain s n ∧ rtt ≤ 320 ∧ (req ≠ (s.sys.fport n).bulkReq ∨ rsp ≠ (s.sys.fport n).bulkRsp))
      (fun s => s.portErr n 5 { s.sys.fport n with
        state := 3, ver := 0, downSince := some ((s.sys.fport n).downSince.getD s.sys.ticks) }) := by
  refine ⟨fun s hs htrip => ?_, fun s hs h => ?_, fun s hs h => ?_⟩ <;> show execFabricLinkTrain n rtt ver peer req rsp s = _ <;>
    unfold execFabricLinkTrain
  · exact onAll_sys hs (if_pos (by simp [htrip])) rfl rfl
  · obtain ⟨htrain, hrtt⟩ := h
    exact onAll_portErr hs ((if_neg (mayTrain_goes htrain)).trans (if_pos hrtt))
  · obtain ⟨htrain, hrtt, hbulk⟩ := h
    exact onAll_portErr hs ((if_neg (mayTrain_goes htrain)).trans ((if_neg (Nat.not_lt.2 hrtt)).trans (if_pos hbulk)))

theorem fportCtlWrite_spec (n : Nat) (v : Word) :
    Steps (.fportCtlWrite n v) (fun s => n < 18 ∧ CtlBad s v) (fun s => s.portErr n 5 (s.sys.fport n)) ∧
    Steps (.fportCtlWrite n v) (fun s => n < 18 ∧ ¬CtlBad s v ∧ v.getLsbD 31 = true ∧ v.getLsbD 22 = false ∧ (s.sys.fport n).state ≠ 0)
      (fun s => s.withPort n (ctlPort (s.sys.fport n) v)) ∧
    Steps (.fportCtlWrite n v) (fun s => n < 18 ∧ ¬CtlBad s v ∧ v.getLsbD 31 = true ∧ (s.sys.fport n).state = 0)
      (fun s => s.withPort n { ctlPort (s.sys.fport n) v with state := 1 }) ∧
    Steps (.fportCtlWrite n v) (fun s => n < 18 ∧ ¬CtlBad s v ∧ v.getLsbD 31 = false ∧ (s.sys.fport n).state ≠ 0)
      (fun s => s.portErr n 0 { ctlPort (s.sys.fport n) v with state := 0, ver := 0, downSince := some s.sys.ticks }) := by
  refine ⟨fun s hs h => ?_, fun s hs h => ?_, fun s hs h => ?_, fun s hs h => ?_⟩ <;> show execFportCtlWrite n v s = _ <;>
    unfold execFportCtlWrite <;> have hport : ¬fabricPorts ≤ n := Nat.not_le.2 h.1
  · exact onAll_portErr_kept hs ((if_neg hport).trans (fportCtl_refused n h.2))
  · obtain ⟨-, hok, hen, hretr, hst⟩ := h
    exact onAll_sys hs ((if_neg hport).trans ((fportCtl_taken n hok).trans ((if_neg (by simp [hen])).trans
      ((if_neg (by rw [hretr, Bool.false_and]; decide)).trans (if_neg hst))))) rfl rfl
  · obtain ⟨-, hok, hen, hst⟩ := h
    refine onAll_sys hs ((if_neg hport).trans ((fportCtl_taken n hok).trans ((if_neg (by simp [hen])).trans
      ((if_neg (by rw [hst, bne_self_eq_false, Bool.and_false]; decide)).trans ((if_pos hst).trans ?_))))) rfl rfl
    rw [setFPort_setFPort]
  · obtain ⟨-, hok, hen, hst⟩ := h
    exact onAll_portErr hs ((if_neg hport).trans ((fportCtl_taken n hok).trans ((if_pos (by rw [hen]; rfl)).trans
      ((if_neg hst).trans (goDown_setFPort _ _ (fport_exists hst))))))

theorem routeEntryWrite_spec (id : Nat) (v : DWord) :
    Steps (.routeEntryWrite id v) (fun s => id < 4096 ∧ ¬RouteBad s id v)
      (fun s => s.withSys { s.sys with routes := put s.sys.routes id (routeOf v) }) ∧
    Steps (.routeEntryWrite id v) (fun s => id < 4096 ∧ bits v.toNat 15 5 < 18 ∧ RouteBad s id v)
      (fun s => s.portErr (bits v.toNat 15 5) 4 (s.sys.fport (bits v.toNat 15 5))) := by
  refine ⟨fun s hs h => ?_, fun s hs h => ?_⟩ <;> show execRouteEntryWrite id v s = _ <;> unfold execRouteEntryWrite
  · obtain ⟨hid, hok⟩ := h
    exact onAll_sys hs ((if_neg (Nat.not_le.2 hid)).trans (routeWrite_taken hok)) rfl rfl
  · obtain ⟨hid, hprim, hbad⟩ := h
    exact onAll_portErr_kept hs ((if_neg (Nat.not_le.2 hid)).trans (routeWrite_refused hbad hprim))

/-- Settles O39, step by step. -/
theorem fabricLinks : Obligations.FabricLinks := by
  unfold Obligations.FabricLinks
  refine ⟨fun n rtt ver peer req rsp => ?_, fun n s hs hup => ?_, fun n s hs hretr => ?_, fun n s hs h => ?_, fun n v => ?_,
    fportErrClear_clears, fun id v => ?_⟩
  · obtain ⟨htrip, hrtt, hbulk⟩ := fabricLinkTrain_refuses n rtt ver peer req rsp
    exact ⟨htrip, hrtt, hbulk, fabricLinkTrain_up n rtt ver peer req rsp⟩
  · show execFabricLinkDown n s = _
    unfold execFabricLinkDown
    exact onAll_portErr hs ((if_pos hup).trans (goDown_eq _ _ _))
  · show execLinkReplayRetrain n s = _
    unfold execLinkReplayRetrain
    exact onAll_portErr hs ((if_pos hretr).trans (retrain_eq _ _ _))
  · obtain ⟨hn, hen⟩ := h
    show execFportRetrain n s = _
    unfold execFportRetrain
    have hport : decide (fabricPorts ≤ n) = false := decide_eq_false (Nat.not_le.2 hn)
    exact onAll_portErr hs ((if_neg (by simp [hport, hen])).trans (retrain_eq _ _ _))
  · dsimp only
    rw [show (v >>> 26).toNat % 8 = bits v.toNat 26 3 from shift_bits v 26 3, show (v >>> 23).toNat % 8 = bits v.toNat 23 3 from shift_bits v 23 3,
      show (v >>> 29).toNat % 4 = bits v.toNat 29 2 from shift_bits v 29 2]
    exact fportCtlWrite_spec n v
  · dsimp only
    have hfield : ∀ i, (v >>> i).toNat % 32 = bits v.toNat i 5 := fun i => shift_bits v i 5
    simp only [hfield]
    exact routeEntryWrite_spec id v

end Sys2Proof.Machine
end

section
/-! SUPPORT. Flits of fabric links: received, replayed, sent, passed through (spec/01 R33, R34, R40-R44, R46). -/

namespace Sys2Proof.Machine

/-! ### The first entry of a channel -/

theorem dropFirst_erase {α : Type} [BEq α] [LawfulBEq α] {vc : Nat} {x : Nat × α} (l : List (Nat × α))
    (h : l.find? (fun y => y.1 == vc) = some x) : dropFirst vc l = l.erase x := by
  induction l with
  | nil => simp at h
  | cons a l ih =>
    rw [dropFirst]
    rw [List.find?_cons] at h
    by_cases ha : a.1 = vc
    · rw [if_pos ha]
      have hax : a = x := by simpa [ha] using h
      rw [hax, List.erase_cons_head]
    · have hkey : (a.1 == vc) = false := beq_false_of_ne ha
      rw [hkey] at h
      have hxvc : x.1 = vc := by simpa using List.find?_some h
      have hax : ¬(a == x) = true := by
        rw [beq_iff_eq]
        rintro rfl
        exact ha hxvc
      rw [if_neg ha, List.erase_cons_tail hax, ih h]

/-- A channel's first entry, where it has one. -/
theorem first_of_channel {α : Type} {vc : Nat} {l : List (Nat × α)} (h : ∃ x ∈ l, x.1 = vc) :
    ∃ a, l.find? (fun y => y.1 == vc) = some (vc, a) := by
  obtain ⟨x, hx, hvc⟩ := h
  cases hf : l.find? (fun y => y.1 == vc) with
  | none => exact absurd hvc (by simpa using List.find?_eq_none.1 hf x hx)
  | some y =>
    have hy : y.1 = vc := by simpa using List.find?_some hf
    exact ⟨y.2, by rw [← hy]⟩

/-! ### Receiving -/

theorem heard_eq (s : State) (n : Nat) (f : Flit) : (s.sys.fport n).heard f = { s.sys.fport n with
    hold := f.hold.toNat, replay := (s.sys.fport n).replay.filter fun x => decide (f.ack ≤ x.1) } := rfl

theorem missed_eq (p : FPort) (seq now : Nat) :
    p.missed seq now = { p with ask := p.ask || decide (p.rxSeq < seq) && p.askedAt.any fun t => decide (t + 32 < now) } := by
  have hcond : (decide (p.rxSeq < seq) && p.askedAt.any fun t => decide (t + rttTicks < now)) =
      (decide (p.rxSeq < seq) && p.askedAt.any fun t => decide (t + 32 < now)) := rfl
  rw [FPort.missed, hcond]
  cases (decide (p.rxSeq < seq) && p.askedAt.any fun t => decide (t + 32 < now)) <;> simp

/-- A link that is up hears a flit of a channel. -/
theorem hears {s : State} {n : Nat} {f : Flit} (hup : (s.sys.fport n).state = 2) (htrip : s.sys.thermtrip = false) (hvc : f.vc ≤ 7) :
    ¬(decide ((s.sys.fport n).state ≠ 2) || s.sys.thermtrip || decide (7 < f.vc)) = true := by
  have hch : decide (7 < f.vc) = false := decide_eq_false (Nat.not_lt.2 hvc)
  simp [hup, htrip, hch]

/-- What a channel's hold becomes when its occupancy has changed. -/
theorem rehold_frame (p : FPort) (vc : Nat) : p.rehold vc = { p with holding := (p.rehold vc).holding } := by
  unfold FPort.rehold
  dsimp only
  split_ifs <;> rfl

theorem rehold_other (p : FPort) {vc v : Nat} (hv : v ≠ vc) : v ∈ (p.rehold vc).holding ↔ v ∈ p.holding := by
  unfold FPort.rehold
  dsimp only
  split_ifs <;> simp [hv]

theorem rehold_own (p : FPort) (vc : Nat) : vc ∈ (p.rehold vc).holding ↔
    if vc = 0 then 0 ∈ p.holding else 112 ≤ p.inFlits.getD vc 0 ∨ (64 < p.inFlits.getD vc 0 ∧ vc ∈ p.holding) := by
  unfold FPort.rehold
  dsimp only
  have hk : nth p.inFlits vc = p.inFlits.getD vc 0 := rfl
  rw [hk]
  generalize p.inFlits.getD vc 0 = k
  by_cases hvc : vc = 0
  · rw [if_pos hvc, if_pos hvc, hvc]
  · rw [if_neg hvc, if_neg hvc]
    by_cases hhi : k ≥ holdAt
    · rw [if_pos hhi]
      refine iff_of_true ?_ (.inl hhi)
      by_cases hin : vc ∈ p.holding <;> simp [hin]
    · rw [if_neg hhi]
      by_cases hlo : k ≤ holdOff
      · rw [if_pos hlo]
        refine iff_of_false (by simp) fun h => ?_
        rcases h with h | ⟨h, -⟩
        · exact hhi h
        · exact absurd hlo (Nat.not_le.2 h)
      · rw [if_neg hlo]
        exact ⟨fun h => .inr ⟨Nat.not_le.1 hlo, h⟩, fun h => (h.resolve_left hhi).2⟩

/-- The port before the hold of the flit's channel is set. -/
def FPort.queued (p : FPort) (f : Flit) : FPort :=
  { p.heard f with
    rxSeq := p.rxSeq + 1, askedAt := none, inFlits := modAt p.inFlits f.vc fun k => k + 1
    inq := p.inq ++ (f.last.map fun x => (f.vc, x)).toList }

theorem accept_eq (p : FPort) (f : Flit) : p.accept f = (p.queued f).rehold f.vc := by
  unfold FPort.accept FPort.queued
  cases f.last <;> simp

/-- A port that has accepted a flit in order. -/
theorem accept_spec (p : FPort) (f : Flit) (hlen : p.inFlits.length = 8) (hvc : f.vc ≤ 7) :
    let q := p.accept f
    let k := q.inFlits.getD f.vc 0
    q = { p.heard f with rxSeq := p.rxSeq + 1, askedAt := none, inFlits := q.inFlits, inq := q.inq, holding := q.holding } ∧
    k = p.inFlits.getD f.vc 0 + 1 ∧ (∀ v, v ≠ f.vc → q.inFlits.getD v 0 = p.inFlits.getD v 0) ∧
    q.inq = p.inq ++ (f.last.map fun x => (f.vc, x)).toList ∧
    (∀ v, v ≠ f.vc → (v ∈ q.holding ↔ v ∈ p.holding)) ∧
    (f.vc ∈ q.holding ↔ if f.vc = 0 then 0 ∈ p.holding else 112 ≤ k ∨ (64 < k ∧ f.vc ∈ p.holding)) := by
  have hframe : p.accept f = { p.queued f with holding := (p.accept f).holding } := by
    rw [accept_eq]
    exact rehold_frame _ _
  have hflits : (p.accept f).inFlits = (p.queued f).inFlits := by rw [hframe]
  have hinq : (p.accept f).inq = (p.queued f).inq := by rw [hframe]
  dsimp only
  refine ⟨?_, ?_, fun v hv => ?_, hinq, fun v hv => ?_, ?_⟩
  · rw [hflits, hinq]
    exact hframe
  · rw [hflits]
    exact (getD_modAt 0 _ _ _ _ (by omega)).trans (if_pos rfl)
  · rw [hflits]
    show (modAt p.inFlits f.vc fun k => k + 1).getD v 0 = _
    by_cases hin : v < p.inFlits.length
    · exact (getD_modAt 0 _ _ _ _ hin).trans (if_neg hv)
    · rw [List.getD_eq_default _ _ (by simpa [modAt] using Nat.not_lt.1 hin), List.getD_eq_default _ _ (Nat.not_lt.1 hin)]
  · rw [accept_eq]
    exact rehold_other _ hv
  · rw [hflits, accept_eq]
    exact rehold_own _ _

theorem flitReceive_steps (n : Nat) (f : Flit) :
    let up (s : State) : Prop := (s.sys.fport n).state = 2 ∧ s.sys.thermtrip = false ∧ f.vc ≤ 7
    Steps (.flitReceive n f) (fun s => (s.sys.fport n).state ≠ 2 ∨ s.sys.thermtrip = true) (fun s => s) ∧
    Steps (.flitReceive n f) (fun s => up s ∧ f.fecOk = false) (fun s => s.portErr n 2 { s.sys.fport n with ask := true }) ∧
    Steps (.flitReceive n f) (fun s => up s ∧ f.fecOk = true ∧ f.crcOk = false)
      (fun s => s.withPort n { s.sys.fport n with ask := true }) ∧
    Steps (.flitReceive n f)
      (fun s => up s ∧ f.fecOk = true ∧ f.crcOk = true ∧ f.kind = .data ∧ f.seq ≠ (s.sys.fport n).rxSeq)
      (fun s => s.withPort n (((s.sys.fport n).heard f).missed f.seq s.sys.ticks)) ∧
    Steps (.flitReceive n f) (fun s => up s ∧ f.fecOk = true ∧ f.crcOk = true ∧ f.kind = .idle)
      (fun s => s.withPort n (((s.sys.fport n).heard f).missed f.seq s.sys.ticks)) ∧
    Steps (.flitReceive n f) (fun s => up s ∧ f.fecOk = true ∧ f.crcOk = true ∧ f.kind = .replay)
      (fun s => s.withPort n (((s.sys.fport n).heard f).again s.sys.ticks)) ∧
    Steps (.flitReceive n f) (fun s => up s ∧ f.fecOk = true ∧ f.crcOk = true ∧ f.kind = .data ∧ f.seq = (s.sys.fport n).rxSeq)
      (fun s => s.withPort n ((s.sys.fport n).accept f)) := by
  dsimp only
  refine ⟨fun s hs h => ?_, fun s hs h => ?_, fun s hs h => ?_, fun s hs h => ?_, fun s hs h => ?_, fun s hs h => ?_, fun s hs h => ?_⟩ <;>
    show execFlitReceive n f s = _ <;> unfold execFlitReceive
  · refine onAll_sys hs (if_pos ?_) rfl rfl
    rcases h with h | h <;> simp [h]
  · obtain ⟨⟨hup, htrip, hvc⟩, hfec⟩ := h
    exact onAll_portErr hs ((if_neg (hears hup htrip hvc)).trans (if_pos (by rw [hfec]; rfl)))
  · obtain ⟨⟨hup, htrip, hvc⟩, hfec, hcrc⟩ := h
    exact onAll_sys hs ((if_neg (hears hup htrip hvc)).trans ((if_neg (by rw [hfec]; decide)).trans (if_pos (by rw [hcrc]; rfl)))) rfl rfl
  · obtain ⟨⟨hup, htrip, hvc⟩, hfec, hcrc, hkind, hseq⟩ := h
    refine onAll_sys hs ((if_neg (hears hup htrip hvc)).trans ((if_neg (by rw [hfec]; decide)).trans
      ((if_neg (by rw [hcrc]; decide)).trans ?_))) rfl rfl
    rw [hkind]
    exact if_pos hseq
  · obtain ⟨⟨hup, htrip, hvc⟩, hfec, hcrc, hkind⟩ := h
    refine onAll_sys hs ((if_neg (hears hup htrip hvc)).trans ((if_neg (by rw [hfec]; decide)).trans
      ((if_neg (by rw [hcrc]; decide)).trans ?_))) rfl rfl
    rw [hkind]
  · obtain ⟨⟨hup, htrip, hvc⟩, hfec, hcrc, hkind⟩ := h
    refine onAll_sys hs ((if_neg (hears hup htrip hvc)).trans ((if_neg (by rw [hfec]; decide)).trans
      ((if_neg (by rw [hcrc]; decide)).trans ?_))) rfl rfl
    rw [hkind]
  · obtain ⟨⟨hup, htrip, hvc⟩, hfec, hcrc, hkind, hseq⟩ := h
    refine onAll_sys hs ((if_neg (hears hup htrip hvc)).trans ((if_neg (by rw [hfec]; decide)).trans
      ((if_neg (by rw [hcrc]; decide)).trans ?_))) rfl rfl
    rw [hkind]
    exact if_neg (not_not.2 hseq)

theorem flitReplay_steps (n q : Nat) : Steps (.flitReplay n q) (fun s => (s.sys.fport n).state = 2 ∧ s.sys.thermtrip = false)
    fun s => s.withPort n ((s.sys.fport n).again s.sys.ticks) := by
  intro s hs h
  obtain ⟨hup, htrip⟩ := h
  show execFlitReplay n q s = _
  unfold execFlitReplay
  exact onAll_sys hs (if_neg (by simp [hup, htrip])) rfl rfl

/-! ### Sending -/

/-- The hold bits of a flit are those of the channels that its port holds. -/
theorem hold_bits (l : List Nat) (i : Nat) : ∀ a : Nat, (l.foldl (fun a v => a ||| 2 ^ v) a).testBit i = (a.testBit i || decide (i ∈ l)) := by
  induction l with
  | nil => intro a; simp
  | cons v l ih =>
    intro a
    rw [List.foldl_cons, ih, Nat.testBit_or, Nat.testBit_two_pow]
    by_cases hv : v = i
    · subst hv
      simp
    · have hv' : ¬i = v := fun h => hv h.symm
      simp [hv, hv']

/-- What the header of every flit of a port brings back. -/
def Brings (P : FPort) (F : Flit) : Prop :=
  F.crcOk = true ∧ F.fecOk = true ∧ F.ack = P.rxSeq ∧ ∀ i, i < 8 → F.hold.getLsbD i = decide (i ∈ P.holding)

theorem flit_brings (p : FPort) (kind : FlitKind) (vc seq : Nat) (last : Option Msg) : Brings p (p.flit kind vc seq last) := by
  refine ⟨rfl, rfl, rfl, fun i hi => ?_⟩
  show (BitVec.ofNat 8 (p.holding.foldl (fun a v => a ||| 2 ^ v) 0)).getLsbD i = _
  rw [BitVec.getLsbD_ofNat, hold_bits, Nat.zero_testBit, Bool.false_or, decide_eq_true hi, Bool.true_and]

theorem setFPort_self (y : Sys) {n : Nat} : y.setFPort n (y.fport n) = y := by
  unfold Sys.setFPort Sys.fport
  rw [modAt_eq_set]
  by_cases hn : n < y.fports.length
  · rw [List.getD_eq_getElem _ _ hn, List.set_getElem_self]
  · rw [List.set_eq_of_length_le (Nat.not_lt.1 hn)]

theorem sendOut_empty {y : Sys} {m : Mach} (n : Nat) (hout : m.out = []) : sendOut y m n = (y, m) := by
  unfold sendOut
  rw [hout]
  dsimp only
  rw [List.filter_nil, List.flatMap_nil, List.append_nil]
  refine Prod.ext (setFPort_self y) ?_
  show { m with out := [] } = m
  rw [← hout]

/-- A flit time of a link that is up, with nothing else to put into the output. -/
theorem flitSend_step {s : State} {n : Nat} (hs : Settled s) (hup : (s.sys.fport n).state = 2) (htrip : s.sys.thermtrip = false)
    (hout : s.mach.out = []) : exec (.flitSend n) s = .next (s.withPort n ((s.sys.fport n).send s.sys.ticks)) := by
  show execFlitSend n s = _
  unfold execFlitSend
  refine onAll_sys hs ((if_neg (by simp [hup, htrip])).trans ?_) rfl rfl
  rw [sendOut_empty n hout]

/-- The channel has a flit to send and is not held. -/
theorem has_iff (P : FPort) (v : Nat) : P.has v = true ↔ (∃ x ∈ P.outq, x.1 = v) ∧ tbit P.hold v = false := by
  simp [FPort.has]

theorem vc0Ok_iff (P : FPort) : P.vc0Ok = true ↔ ¬8 ≤ (P.vc0At.filter fun a => decide (P.flitTime + 1 < a + 64)).length := by
  rw [FPort.vc0Ok, decide_eq_true_eq, Nat.not_le]

/-- The turns of the round robin, each a channel from 1 to 6. -/
theorem robin_some {P : FPort} {v l : Nat} (h : P.robin = some (v, l)) (hlo : 1 ≤ P.turn) : P.has v = true ∧ v ≠ 0 := by
  unfold FPort.robin at h
  split at h
  · rename_i hturn
    obtain ⟨rfl, -⟩ := Prod.ext_iff.1 (Option.some.inj h)
    exact ⟨(Bool.and_eq_true_iff.1 hturn).2, by dsimp only; omega⟩
  · obtain ⟨w, hw, hwl⟩ := Option.map_eq_some_iff.1 h
    obtain ⟨rfl, -⟩ := Prod.ext_iff.1 hwl
    refine ⟨List.find?_some hw, ?_⟩
    obtain ⟨i, -, hi⟩ := List.mem_map.1 (List.mem_of_find?_eq_some hw)
    dsimp only
    omega

theorem robin_none {P : FPort} (h : P.robin = none) {v : Nat} (hlo : 1 ≤ v) (hhi : v ≤ 6) : P.has v = false := by
  unfold FPort.robin at h
  split at h
  · cases h
  · have hnone := Option.map_eq_none_iff.1 h
    rw [← Bool.not_eq_true]
    refine List.find?_eq_none.1 hnone v (List.mem_map.2 ⟨(v + 11 - P.turn % 6) % 6, List.mem_range.2 (Nat.mod_lt _ (by decide)), ?_⟩)
    omega

/-- The channel chosen for the next flit. -/
theorem choose_some {P : FPort} {v t l : Nat} (h : P.choose = some (v, t, l)) (hlo : 1 ≤ P.turn) :
    P.has v = true ∧ (P.has 0 = true → P.vc0Ok = true → v = 0) ∧ (v = 0 → P.vc0Ok = true) ∧
    (v ≠ 0 → P.has 7 = true → 55 ≤ P.vc7 → v = 7) := by
  unfold FPort.choose at h
  split at h
  · rename_i h0
    obtain ⟨hhas, hok⟩ := Bool.and_eq_true_iff.1 h0
    obtain ⟨rfl, -⟩ := Prod.ext_iff.1 (Option.some.inj h)
    exact ⟨hhas, fun _ _ => rfl, fun _ => hok, fun hne => absurd rfl hne⟩
  · rename_i h0
    have hfirst : P.has 0 = true → P.vc0Ok = true → v = 0 := fun ha hb => absurd (by rw [ha, hb]; rfl) h0
    split at h
    · rename_i h7
      obtain ⟨rfl, -⟩ := Prod.ext_iff.1 (Option.some.inj h)
      exact ⟨(Bool.and_eq_true_iff.1 h7).1, hfirst, fun h => absurd h (show ¬7 = 0 by decide), fun _ _ _ => rfl⟩
    · rename_i h7
      have hseven : v ≠ 0 → P.has 7 = true → 55 ≤ P.vc7 → v = 7 := fun _ ha hb => absurd (by rw [ha, decide_eq_true hb]; rfl) h7
      split at h
      · rename_i w k hrobin
        obtain ⟨rfl, -⟩ := Prod.ext_iff.1 (Option.some.inj h)
        obtain ⟨hhas, hne⟩ := robin_some hrobin hlo
        exact ⟨hhas, hfirst, fun hz => absurd hz hne, hseven⟩
      · split at h
        · rename_i hlast
          obtain ⟨rfl, -⟩ := Prod.ext_iff.1 (Option.some.inj h)
          exact ⟨hlast, hfirst, fun h => absurd h (show ¬7 = 0 by decide), hseven⟩
        · cases h

theorem choose_none {P : FPort} (h : P.choose = none) :
    (∀ v, 1 ≤ v → v ≤ 7 → ¬P.has v = true) ∧ (P.has 0 = true → ¬P.vc0Ok = true) := by
  unfold FPort.choose at h
  split at h
  · cases h
  · rename_i h0
    refine ⟨?_, fun ha hb => h0 (by rw [ha, hb]; rfl)⟩
    split at h
    · cases h
    · split at h
      · cases h
      · rename_i hrobin
        split at h
        · cases h
        · rename_i hlast
          intro v hlo hhi
          by_cases hv : v = 7
          · rw [hv]
            exact hlast
          · rw [robin_none hrobin hlo (by omega)]
            decide

/-- What a new flit of a port leaves. -/
def FreshSent (P Q : FPort) : Prop :=
  let has (v : Nat) : Prop := (∃ x ∈ P.outq, x.1 = v) ∧ tbit P.hold v = false
  let slow : Prop := 8 ≤ (P.vc0At.filter fun a => decide (P.flitTime + 1 < a + 64)).length
  Q.flitTime = P.flitTime + 1 ∧ Q.hold = P.hold ∧ Q.inq = P.inq ∧ Q.state = P.state ∧
  ∃ F, Q.wire = some F ∧ Brings P F ∧
  ((F.kind = .idle ∧ Q.txSeq = P.txSeq ∧ Q.replay = P.replay ∧ Q.outq = P.outq ∧ (∀ v, 1 ≤ v → v ≤ 7 → ¬ has v) ∧ (has 0 → slow)) ∨
    ∃ v last, F.kind = .data ∧ F.vc = v ∧ F.seq = P.txSeq ∧ F.last = last ∧ Q.txSeq = P.txSeq + 1 ∧
      Q.replay = P.replay ++ [(P.txSeq, v, last)] ∧ P.outq.find? (fun x => x.1 == v) = some (v, last) ∧
      Q.outq = P.outq.erase (v, last) ∧ has v ∧ (has 0 → ¬ slow → v = 0) ∧ (v = 0 → ¬ slow) ∧
      (v ≠ 0 → has 7 → 55 ≤ P.vc7 → v = 7))

theorem sendNext_fresh {P : FPort} (hlo : 1 ≤ P.turn) : FreshSent P { P.sendNext with flitTime := P.flitTime + 1 } := by
  unfold FreshSent
  dsimp only
  simp only [← has_iff]
  rw [show (8 ≤ (P.vc0At.filter fun a => decide (P.flitTime + 1 < a + 64)).length) = ¬P.vc0Ok = true from
    propext ((not_iff_not.2 (vc0Ok_iff P)).trans not_not).symm]
  cases hc : P.choose with
  | none =>
    obtain ⟨hnone, hslow⟩ := choose_none hc
    unfold FPort.sendNext
    rw [hc]
    exact ⟨trivial, rfl, rfl, rfl, _, rfl, flit_brings _ _ _ _ _, .inl ⟨rfl, rfl, rfl, rfl, hnone, hslow⟩⟩
  | some c =>
    obtain ⟨v, t, l⟩ := c
    obtain ⟨hhas, hfirst, hrate, hseven⟩ := choose_some hc hlo
    obtain ⟨last, hlast⟩ := first_of_channel ((has_iff P v).1 hhas).1
    unfold FPort.sendNext
    rw [hc]
    dsimp only
    rw [hlast, Option.bind_some]
    exact ⟨trivial, rfl, rfl, rfl, _, rfl, flit_brings _ _ _ _ _, .inr ⟨v, last, rfl, rfl, rfl, rfl, rfl, rfl, hlast,
      dropFirst_erase _ hlast, hhas, fun ha hb => hfirst ha (not_not.1 hb), fun hv => not_not.2 (hrate hv), hseven⟩⟩

/-! ### Passing through -/

/-- A port that has given up the message at the head of a channel. -/
theorem inDrop_spec {y : Sys} {n vc : Nat} {x : Msg} (h : y.inHead n vc = some x) :
    ∃ q, y.inDrop n vc = y.setFPort n q ∧ q.inq = (y.fport n).inq.erase (vc, x) ∧ q.outq = (y.fport n).outq ∧ q.err = (y.fport n).err := by
  unfold Sys.inHead at h
  obtain ⟨e, he, hex⟩ := Option.map_eq_some_iff.1 h
  have hvc : e.1 = vc := by simpa using List.find?_some he
  have hpair : e = (vc, x) := Prod.ext hvc hex
  unfold Sys.inDrop
  dsimp only
  rw [he]
  refine ⟨_, rfl, ?_, ?_, ?_⟩ <;> rw [rehold_frame]
  show dropFirst vc (y.fport n).inq = _
  rw [dropFirst_erase _ he, hpair]

/-- A message that is dropped at a port: the port's FPORT_ERR bit 4 is set, and its route entry fires. -/
theorem onAll_inDrop {f : Sys → Mach → Sys × Mach} {s : State} {n vc : Nat} {x : Msg} {o : List Msg} (hs : Settled s)
    (hhead : s.sys.inHead n vc = some x) (hn : n < s.sys.fports.length)
    (hf : f s.sys s.mach = setErr (s.sys.inDrop n vc) { s.mach with out := o } n errRoute) :
    ∃ t, onAll f s = .next t ∧ (t.sys.fport n).inq = (s.sys.fport n).inq.erase (vc, x) ∧ tbit (t.sys.fport n).err 4 = true ∧
      t.sys.irq = s.sys.irq.deliver (212 + n) ∧ t.mach = { s.mach with out := o } := by
  obtain ⟨q, hq, hinq, -, -⟩ := inDrop_spec hhead
  rw [hq, setErr_setFPort] at hf
  refine ⟨_, onAll_delivers hs hf rfl rfl rfl rfl, ?_, ?_, ?_, ?_⟩
  · show ((s.sys.setFPort n _).fport n).inq = _
    rw [fport_setFPort, if_pos ⟨rfl, hn⟩]
    exact hinq
  · show tbit ((s.sys.setFPort n _).fport n).err 4 = true
    rw [fport_setFPort, if_pos ⟨rfl, hn⟩]
    exact (tbit_setBit_true q.err 4 4).trans (by simp)
  · show (s.mach.fired ++ [212 + n]).foldl Irq.deliver s.sys.irq = _
    rw [hs.1]
    rfl
  · show ({ { s.mach with out := o } with fired := [] } : Mach) = _
    rw [← hs.1]

theorem unsend_other {y : Sys} {m : Mach} {x : Msg} (h : x.src ≠ y.devid) : m.unsend y [x] =
    { m with out := m.out ++ ((lacks x).map fun b => (⟨y.devid, x.src, 0, 0, b⟩ : Msg)).toList } := by
  unfold Mach.unsend
  have hkeep : [x].filter (fun x => x.src == y.devid) = [] := by simp [h]
  have htell : [x].filter (fun x => x.src != y.devid) = [x] := by simp [h]
  rw [hkeep, htell, List.nil_append]
  cases hl : lacks x <;> simp [hl]

/-- What the step does with a message at the head of a channel that is for another device. -/
def passOn (n vc : Nat) (x : Msg) (y : Sys) (m : Mach) : Sys × Mach :=
  let r := look ({} : Route) y.routes x.dst
  let o := y.portFor r x.cls
  if (!r.v) = true then setErr (y.inDrop n vc) m n errRoute
  else if ((y.fport o).state == 2 && decide ((y.fport o).ver < msgNeeds x)) = true then setErr (y.inDrop n vc) (m.unsend y [x]) n errRoute
  else if (decide ((y.fport o).state ≠ 2) || tbit (y.fport o).hold vc || ((y.fport o).outq.any fun y => y.1 == vc)) = true then (y, m)
  else ((y.inDrop n vc).setFPort o { (y.inDrop n vc).fport o with outq := ((y.inDrop n vc).fport o).outq ++ msgFlits vc x }, m)

theorem fabricPassThrough_eq {s : State} {n vc : Nat} {x : Msg} (hhead : s.sys.inHead n vc = some x) (hdst : x.dst ≠ s.sys.devid) :
    exec (.fabricPassThrough n vc) s = onAll (passOn n vc x) s := by
  show execFabricPassThrough n vc s = _
  unfold execFabricPassThrough onAll
  dsimp only
  rw [hhead]
  dsimp only
  rw [if_neg hdst]
  rfl

theorem passOn_goes {y : Sys} {m : Mach} {n vc : Nat} {x : Msg} {o : Nat} (ho : y.portFor (look {} y.routes x.dst) x.cls = o)
    (hv : (look {} y.routes x.dst : Route).v = true) (hlow : ¬((y.fport o).state = 2 ∧ (y.fport o).ver < msgNeeds x)) :
    passOn n vc x y m =
      if (y.fport o).state ≠ 2 ∨ tbit (y.fport o).hold vc = true ∨ ∃ z ∈ (y.fport o).outq, z.1 = vc then (y, m)
      else ((y.inDrop n vc).setFPort o { (y.inDrop n vc).fport o with outq := ((y.inDrop n vc).fport o).outq ++ msgFlits vc x }, m) := by
  unfold passOn
  dsimp only
  rw [ho, if_neg (by rw [hv]; decide), if_neg (by rwa [Bool.and_eq_true, beq_iff_eq, decide_eq_true_eq])]
  refine if_congr ?_ rfl rfl
  simp [or_assoc]

theorem passOn_drops {y : Sys} {m : Mach} {n vc : Nat} {x : Msg} {o : Nat} (ho : y.portFor (look {} y.routes x.dst) x.cls = o)
    (h : (look {} y.routes x.dst : Route).v = false ∨ ((y.fport o).state = 2 ∧ (y.fport o).ver < msgNeeds x) ∧ x.src ≠ y.devid) :
    passOn n vc x y m = setErr (y.inDrop n vc) { m with out := m.out ++
      if (look {} y.routes x.dst : Route).v then ((lacks x).map fun b => (⟨y.devid, x.src, 0, 0, b⟩ : Msg)).toList else [] } n errRoute := by
  unfold passOn
  dsimp only
  rw [ho]
  cases hv : (look {} y.routes x.dst : Route).v with
  | false =>
    rw [if_pos (by rfl), if_neg Bool.false_ne_true, List.append_nil]
  | true =>
    obtain ⟨⟨hup, hver⟩, hsrc⟩ := h.resolve_left (by rw [hv]; decide)
    rw [if_neg (by decide), if_pos (by rw [hup, decide_eq_true hver]; rfl), if_pos rfl, unsend_other hsrc]

/-- Settles O40, step by step. -/
theorem fabricFlits : Obligations.FabricFlits := by
  unfold Obligations.FabricFlits
  refine ⟨fun n f => ?_, flitReplay_steps, fun n => ?_, fun n vc x => ?_⟩
  · obtain ⟨hdown, hfec, hcrc, hmissed, hidle, hreplay, hdata⟩ := flitReceive_steps n f
    simp only [missed_eq] at hmissed hidle
    refine ⟨hdown, hfec, hcrc, hmissed, hidle, hreplay, fun s hs h => ?_⟩
    obtain ⟨hup, hn, hlen, hok, hgood, hkind, hseq⟩ := h
    refine ⟨_, hdata s hs ⟨hup, hok, hgood, hkind, hseq⟩, ?_⟩
    have hport : (s.withPort n ((s.sys.fport n).accept f)).sys.fport n = (s.sys.fport n).accept f :=
      (fport_setFPort _ _ _ _).trans (if_pos ⟨rfl, hn⟩)
    dsimp only
    rw [hport]
    obtain ⟨hq, hrest⟩ := accept_spec (s.sys.fport n) f hlen hup.2.2
    exact ⟨congrArg (s.withPort n) hq, hrest⟩
  · dsimp only
    refine ⟨fun s hs h => ?_, fun q f s hs h => ?_, fun s hs h => ?_⟩
    · obtain ⟨⟨hn, hup, htrip, hout⟩, hask⟩ := h
      refine ⟨_, flitSend_step hs hup htrip hout, (s.sys.fport n).flit .replay 0 (s.sys.fport n).txSeq none, ?_, rfl, flit_brings _ _ _ _ _⟩
      unfold FPort.send
      rw [if_pos hask]
    · obtain ⟨⟨hn, hup, htrip, hout⟩, hask, hfrom, hfind⟩ := h
      have hseq : f.1 = q := by simpa using List.find?_some hfind
      refine ⟨_, flitSend_step hs hup htrip hout, (s.sys.fport n).flit .data f.2.1 f.1 f.2.2, ?_, rfl, hseq, rfl, rfl, flit_brings _ _ _ _ _⟩
      unfold FPort.send
      rw [hask, if_neg Bool.false_ne_true, hfrom]
      dsimp only
      rw [hfind]
    · obtain ⟨⟨hn, hup, htrip, hout⟩, hask, hfrom, hlo, -⟩ := h
      have hsend : (s.sys.fport n).send s.sys.ticks = { (s.sys.fport n).sendNext with flitTime := (s.sys.fport n).flitTime + 1 } := by
        unfold FPort.send
        rw [hask, if_neg Bool.false_ne_true, hfrom]
      refine ⟨_, flitSend_step hs hup htrip hout, ?_⟩
      rw [hsend]
      have hport : ∀ p, (s.withPort n p).sys.fport n = p := fun p => (fport_setFPort _ _ _ _).trans (if_pos ⟨rfl, hn⟩)
      dsimp only
      rw [hport]
      obtain ⟨htime, hhold, hinq, hstate, hrest⟩ := sendNext_fresh hlo
      exact ⟨rfl, htime, hhold, hinq, hstate.trans hup, hrest⟩
  · dsimp only
    refine ⟨fun s hs h => ?_, fun s hs h => ?_, fun s hs h => ?_⟩
    · obtain ⟨⟨hhead, hdst, hn⟩, hv, hlow, hwait, hon, holen⟩ := h
      dsimp only
      generalize ho : s.sys.portFor (look {} s.sys.routes x.dst) x.cls = o at hlow hwait hon holen ⊢
      obtain ⟨q, hq, hinq, -, -⟩ := inDrop_spec hhead
      have hport : (s.sys.inDrop n vc).fport o = s.sys.fport o := by
        rw [hq, fport_setFPort, if_neg fun h => hon h.1]
      rw [fabricPassThrough_eq hhead hdst]
      refine ⟨_, onAll_sys hs ((passOn_goes ho hv hlow).trans (if_neg hwait)) (by rw [hq]; rfl) (by rw [hq]; rfl), rfl, ?_, ?_,
        flitsOf x - 1, ?_⟩
      · show (((s.sys.inDrop n vc).setFPort o _).fport n).inq = _
        rw [fport_setFPort, if_neg fun h => hon h.1.symm, hq, fport_setFPort, if_pos ⟨rfl, hn⟩, hinq]
      · show (s.sys.inDrop n vc).irq = _
        rw [hq]
        rfl
      · show (((s.sys.inDrop n vc).setFPort o _).fport o).outq = _
        have hlen : o < (s.sys.inDrop n vc).fports.length := by
          rw [hq]
          simpa [Sys.setFPort, modAt] using holen
        rw [fport_setFPort, if_pos ⟨rfl, hlen⟩, hport, List.append_assoc]
        rfl
    · obtain ⟨⟨hhead, hdst, hn⟩, hv, hlow, hwait⟩ := h
      rw [fabricPassThrough_eq hhead hdst]
      exact onAll_sys hs ((passOn_goes rfl hv hlow).trans (if_pos hwait)) rfl rfl
    · obtain ⟨⟨hhead, hdst, hn⟩, hdrop⟩ := h
      rw [fabricPassThrough_eq hhead hdst]
      exact onAll_inDrop hs hhead hn (passOn_drops rfl hdrop)

end Sys2Proof.Machine
end

section
/-! SUPPORT. Entries of the collective engine: how they start, end and fail, and what they leave (spec/01 R50-R56, R66). -/

namespace Sys2Proof.Machine

/-! ### Numbers as bytes -/

theorem ofBytes_toBytes (k : Nat) : ∀ n, ofBytes (toBytes n k) = n % 256 ^ k := by
  induction k with
  | zero => intro n; simp [toBytes, ofBytes, Nat.mod_one]
  | succ k ih =>
    intro n
    rw [toBytes, ofBytes, ih, BitVec.toNat_ofNat, show 256 ^ (k + 1) = 256 * 256 ^ k from Nat.pow_succ', Nat.mod_mul]

/-! ### Held errors -/

/-- An error held against a thread that is there is among its errors. -/
theorem holdErr_held {m : Mach} {k : Nat} (x : HeldErr) (h : ((m.holdErr k x).thr? k).isSome) : x ∈ ((m.holdErr k x).thr k).errs := by
  cases ht : m.thr? k with
  | none =>
    unfold Mach.holdErr Mach.modThr at h
    rw [thr?_setThr, ht] at h
    split at h <;> cases h
  | some t =>
    have hafter : (m.holdErr k x).thr? k = some { t with errs := t.errs ++ [x] } := by
      unfold Mach.holdErr
      rw [thr?_modThr m k (fun t => { t with errs := t.errs ++ [x] }) (fun _ => rfl) (by rw [ht]; rfl), ht, Option.map_some, if_pos rfl]
    rw [thr_of hafter]
    exact List.mem_append_right _ List.mem_cons_self

/-! ### Records of outcomes -/

/-- Arming entries keeps the records of every pair. -/
theorem arm_rets (m : Mach) (r rcb q : Nat) : ((m.arm r).pair rcb q).rets = (m.pair rcb q).rets := by
  have hcomp : ∀ g : QPair → QPair, (∀ p, (g p).rcb = p.rcb ∧ (g p).q = p.q) →
      ((fun p : QPair => p.rcb == rcb && p.q == q) ∘ g) = fun p => p.rcb == rcb && p.q == q := by
    intro g hg
    funext p
    simp only [Function.comp, (hg p).1, (hg p).2]
  unfold Mach.arm Mach.pair Mach.pair?
  dsimp only
  rw [List.find?_map, hcomp _ fun p => by split <;> exact ⟨rfl, rfl⟩]
  cases m.qpairs.find? fun p => p.rcb == rcb && p.q == q with
  | none => rfl
  | some p =>
    rw [Option.map_some, Option.getD_some, Option.getD_some]
    split <;> rfl

theorem ctrAdd_rets (m : Mach) (rcb i b : Nat) (r : Option (Nat × Nat)) (k q : Nat) :
    ((m.ctrAdd rcb i b r).pair k q).rets = (m.pair k q).rets := arm_rets _ _ _ _

theorem sync_pair (m : Mach) (k scope : Nat) (rel acq : Bool) (a : SyncAt) (r q : Nat) : (m.sync k scope rel acq a).pair r q = m.pair r q := rfl

/-- The latest 64 records of a queue, the last of them the new one. -/
theorem getLast?_kept (l : List RetRec) (r : RetRec) : ((l ++ [r]).drop ((l ++ [r]).length - 64)).getLast? = some r := by
  rw [List.getLast?_drop, if_neg (by rw [List.length_append, List.length_singleton]; omega), List.getLast?_concat]

/-- What an outcome that is recorded leaves as it was. -/
def RecordFrame (m m' : Mach) : Prop :=
  m' = { m with qpairs := m'.qpairs, threads := m'.threads, order := m'.order, ctrs := m'.ctrs }

theorem collRecord_frame (m : Mach) (rcb q poster launch wave : Nat) (tag : DWord) (op ctr o : Nat) :
    RecordFrame m (m.collRecord rcb q poster launch wave tag op ctr o) := by
  unfold Mach.collRecord RecordFrame
  dsimp only
  split_ifs <;> rfl

/-- The record of an outcome, and the cause held against the poster. -/
theorem collRecord_ends (m : Mach) (rcb q poster launch wave : Nat) (tag : DWord) (op ctr o : Nat) :
    let m' := m.collRecord rcb q poster launch wave tag op ctr o
    (m'.pair rcb q).rets.getLast? = some { tag := tag, op := op, outcome := o } ∧
    (o ≠ 0 → (m'.thr? poster).isSome → ∃ x ∈ (m'.thr poster).errs, x.q = .pair q ∧ x.cause = o ∧ x.va = tag.toNat) := by
  have hrets : ((m.addRec rcb q { tag := tag, op := op, outcome := o }).pair rcb q).rets.getLast? =
      some { tag := tag, op := op, outcome := o } := by
    unfold Mach.addRec
    dsimp only
    rw [rets_setPair]
    exact getLast?_kept _ _
  unfold Mach.collRecord
  dsimp only
  by_cases ho : o = 0
  · rw [if_neg (not_not.2 ho)]
    refine ⟨?_, fun h => absurd ho h⟩
    split_ifs
    · rw [ctrAdd_rets, sync_pair]
      exact hrets
    · exact hrets
  · rw [if_pos ho]
    exact ⟨hrets, fun _ hsome => ⟨_, holdErr_held _ hsome, rfl, rfl, rfl⟩⟩

/-- A success increments DONECTR, where the region has it. -/
theorem collRecord_ctr {m : Mach} {rcb ctr : Nat} (q poster launch wave : Nat) (tag : DWord) (op : Nat) (h : ctr < m.boundCtrs rcb) :
    ((m.collRecord rcb q poster launch wave tag op ctr 0).ctr rcb ctr).val = ((m.ctr rcb ctr).val + 1) % 2 ^ 32 := by
  unfold Mach.collRecord
  dsimp only
  rw [if_neg (by decide), if_pos (show ctr < (m.addRec rcb q _).boundCtrs rcb from h)]
  unfold Mach.ctrAdd
  obtain ⟨hr, hi⟩ := ctr_key ((m.addRec rcb q { tag := tag, op := op, outcome := 0 }).sync poster 6 true false (.ctr rcb ctr)) rcb ctr
  dsimp only
  rw [ctr_setCtr, if_pos ⟨hr, hi⟩]
  rfl

/-! ### The end of a started entry -/

/-- What the end of an entry leaves as it was. -/
def EndFrame (m m' : Mach) : Prop :=
  m' = { m with
    colls := m'.colls, posts := m'.posts, launches := m'.launches
    qpairs := m'.qpairs, threads := m'.threads, order := m'.order, ctrs := m'.ctrs }

theorem collEnd_frame (m : Mach) (e : CollEnt) (o : Nat) : EndFrame m (m.collEnd e o) := by
  unfold Mach.collEnd EndFrame
  have hrec := collRecord_frame (m.dropColl e.eid) e.rcb e.q e.poster e.launch e.wave e.tag e.op e.donectr o
  generalize (m.dropColl e.eid).collRecord e.rcb e.q e.poster e.launch e.wave e.tag e.op e.donectr o = r at hrec
  rw [hrec]
  rfl

theorem dropColl_coll? (m : Mach) (i : Nat) : (m.dropColl i).coll? i = none := by
  unfold Mach.dropColl Mach.coll?
  refine List.find?_eq_none.2 fun u hu => ?_
  have hne := (List.mem_filter.1 hu).2
  simpa using hne

/-- An entry that has ended, of a machine whose memory, counters and regions are those of the state. -/
theorem collEnd_gone {s : State} {m : Mach} (e : CollEnt) (o : Nat) (hmem : ∀ a, m.mem.read a = s.mach.mem.read a)
    (hctrs : m.ctrs = s.mach.ctrs) (hbound : m.bound = s.mach.bound) : EntryGone s (s.withMach (m.collEnd e o)) e o := by
  have hframe := collRecord_frame (m.dropColl e.eid) e.rcb e.q e.poster e.launch e.wave e.tag e.op e.donectr o
  obtain ⟨hlast, herr⟩ := collRecord_ends (m.dropColl e.eid) e.rcb e.q e.poster e.launch e.wave e.tag e.op e.donectr o
  refine ⟨?_, ⟨hlast, herr⟩, fun a => ?_, fun ho hlt => ?_⟩
  · show ((m.dropColl e.eid).collRecord e.rcb e.q e.poster e.launch e.wave e.tag e.op e.donectr o).coll? e.eid = none
    rw [hframe]
    exact dropColl_coll? m e.eid
  · show ((m.dropColl e.eid).collRecord e.rcb e.q e.poster e.launch e.wave e.tag e.op e.donectr o).mem.read a = _
    rw [hframe]
    exact hmem a
  · have hlt' : e.donectr < (m.dropColl e.eid).boundCtrs e.rcb := by
      show e.donectr < 64 * look 0 m.bound e.rcb
      rw [hbound]
      exact hlt
    have hadd := collRecord_ctr (m := m.dropColl e.eid) e.q e.poster e.launch e.wave e.tag e.op hlt'
    have hval : (m.dropColl e.eid).ctr e.rcb e.donectr = s.mach.ctr e.rcb e.donectr := by
      show (m.ctr e.rcb e.donectr) = _
      unfold Mach.ctr Mach.ctr?
      rw [hctrs]
    rw [hval, ← ho] at hadd
    exact hadd

/-- The end of a step changes nothing that the end of an entry speaks of. -/
theorem entryGone_settle {s : State} {m : Mach} {e : CollEnt} {o : Nat} (h : EntryGone s (s.withMach m) e o) :
    EntryGone s (s.withMach m).settle e o := h

/-- Data taken back: the machine keeps all but its output and its communicators. -/
theorem takeBack_frame (y : Sys) (m : Mach) (e : CollEnt) :
    m.takeBack y e = { m with out := (m.takeBack y e).out, comms := (m.takeBack y e).comms } := by
  unfold Mach.takeBack
  dsimp only
  split <;> rfl

/-! ### The head of a submission queue -/

theorem subPop_frame (m : Mach) (rcb q : Nat) : m.subPop rcb q = { m with qpairs := (m.subPop rcb q).qpairs } := rfl

theorem subPop_subs (m : Mach) (rcb q : Nat) : ((m.subPop rcb q).pair rcb q).subs = (m.pair rcb q).subs.drop 1 := subs_setPair _ _ _ _

/-- A recorded cause keeps what waits in the submission queues. -/
theorem collRecord_subs (m : Mach) (rcb q poster launch wave : Nat) (tag : DWord) (op ctr : Nat) {o : Nat} (ho : o ≠ 0) :
    ((m.collRecord rcb q poster launch wave tag op ctr o).pair rcb q).subs = (m.pair rcb q).subs := by
  have hrec : (m.collRecord rcb q poster launch wave tag op ctr o).pair rcb q = (m.addRec rcb q { tag := tag, op := op, outcome := o }).pair rcb q := by
    unfold Mach.collRecord
    dsimp only
    rw [if_pos ho]
    rfl
  rw [hrec]
  unfold Mach.addRec
  dsimp only
  generalize ((m.pair rcb q).rets ++ [({ tag := tag, op := op, outcome := o } : RetRec)]).drop _ = l
  obtain ⟨hr, hq⟩ := pair_key m rcb q
  have hset := pair_setPair_same m { m.pair rcb q with rets := l }
  simp only [hr, hq] at hset ⊢
  rw [hset]

/-- An entry that starts, in a step: the head of its queue, armed and with no fault. -/
theorem collEntryStart_head {s : State} {rcb q : Nat} {e : SubEnt} {rest : List SubEnt} (hsubs : (s.mach.pair rcb q).subs = e :: rest)
    (harm : e.armed = true) (hrl : e.rlinv = false) (hfault : e.fault = none) {c : CStart}
    (hstart : collStart s.sys s.mach rcb e = .ok c) : exec (.collEntryStart rcb q) s =
      .next (s.withMach (((s.mach.subPop rcb q).collStarted s.sys rcb q e c).unitDone (entKey e.eid))).settle := by
  show execCollEntryStart rcb q s = _
  unfold execCollEntryStart onMach
  dsimp only
  rw [hsubs]
  dsimp only
  rw [harm, hfault]
  simp only [Bool.true_or, Bool.not_true, Bool.false_eq_true, if_false]
  unfold Mach.startHead
  dsimp only
  rw [hrl, hstart]
  rfl

theorem isRingOp_iff (op : Nat) : isRingOp op = true ↔ 0x10 ≤ op ∧ op ≤ 0x14 := by
  rw [isRingOp, Bool.and_eq_true, decide_eq_true_eq, decide_eq_true_eq]

/-- An operation that is none of the engine's. -/
theorem unknown_op {m : Mach} {rcb n : Nat} (h : bits n 0 8 ∉ [0x01, 0x02, 0x10, 0x11, 0x12, 0x13, 0x14, 0x30, 0x31]) :
    entryBad m rcb n = true ∧ isRingOp (bits n 0 8) = false := by
  simp only [List.mem_cons, List.not_mem_nil, or_false, not_or] at h
  have hring : isRingOp (bits n 0 8) = false := by
    rw [← Bool.not_eq_true, isRingOp_iff]
    omega
  refine ⟨?_, hring⟩
  obtain ⟨h1, h2, -, -, -, -, -, h30, h31⟩ := h
  unfold entryBad
  simp [hring, h1, h2, h30, h31]

theorem unknown_starts (y : Sys) {m : Mach} {rcb : Nat} {e : SubEnt}
    (h : bits (ofBytes e.bytes) 0 8 ∉ [0x01, 0x02, 0x10, 0x11, 0x12, 0x13, 0x14, 0x30, 0x31]) :
    collStart y m rcb e = .ok { cause := 0x60 } := by
  obtain ⟨hbad, hring⟩ := unknown_op (m := m) (rcb := rcb) h
  unfold collStart
  dsimp only
  rw [hbad, hring]
  rfl

/-- An entry that fails at its start alone. -/
theorem collStarted_fails {s : State} {m : Mach} {rcb q cause : Nat} {e : SubEnt} (hc : cause ≠ 0)
    (hmem : ∀ a, m.mem.read a = s.mach.mem.read a) (hcolls : m.colls = s.mach.colls) :
    let t := s.withMach (m.collStarted s.sys rcb q e { cause := cause })
    MemoryKept s t ∧ t.mach.colls = s.mach.colls ∧ (t.mach.pair rcb q).subs = (m.pair rcb q).subs ∧
      EndsWith t rcb q e.poster (BitVec.ofNat 64 (bits (ofBytes e.bytes) 384 64)) (bits (ofBytes e.bytes) 0 8) cause := by
  have hstep : m.collStarted s.sys rcb q e { cause := cause } = m.subEnd rcb q e cause := by
    unfold Mach.collStarted
    dsimp only
    rw [if_pos hc]
    rfl
  dsimp only
  rw [hstep]
  unfold Mach.subEnd
  dsimp only
  have hframe := collRecord_frame m rcb q e.poster e.launch e.wave (BitVec.ofNat 64 (bits (ofBytes e.bytes) 384 64))
    (bits (ofBytes e.bytes) 0 8) (bits (ofBytes e.bytes) 48 16) cause
  refine ⟨fun a => ?_, ?_, collRecord_subs _ _ _ _ _ _ _ _ _ hc, collRecord_ends _ _ _ _ _ _ _ _ _ _⟩
  · show (m.collRecord rcb q e.poster e.launch e.wave _ _ _ cause).mem.read a = _
    rw [hframe]
    exact hmem a
  · show (m.collRecord rcb q e.poster e.launch e.wave _ _ _ cause).colls = _
    rw [hframe]
    exact hcolls

/-- An `open` that starts. -/
theorem open_starts {y : Sys} {m : Mach} {rcb : Nat} {e : SubEnt} {ds : List Byte} (hop : bits (ofBytes e.bytes) 0 8 = 0x30)
    (hbad : entryBad m rcb (ofBytes e.bytes) = false)
    (hread : collRead y m (m.eff e.launch) (entKey e.eid) (bits (ofBytes e.bytes) 320 64) 64 = .ok ds)
    (hdesc : descBad (ofBytes ds) = false) (hrank : bits (ofBytes e.bytes) 96 16 < bits (ofBytes ds) 64 32) :
    collStart y m rcb e = .ok { dsc := ofBytes ds } := by
  unfold collStart
  dsimp only
  rw [hbad, Bool.false_and, if_neg Bool.false_ne_true, hread]
  show collStartAt y m _ _ _ _ _ = _
  unfold collStartAt
  dsimp only
  rw [if_neg fun h => h.1 hop, hdesc, if_neg Bool.false_ne_true, if_pos hop, if_neg (Nat.not_le.2 hrank)]

theorem collStarted_stands {m : Mach} (y : Sys) (rcb q : Nat) (e : SubEnt) (d : Nat) : m.collStarted y rcb q e { dsc := d } =
    { m with colls := m.colls ++ [startedEnt rcb q e { dsc := d }] } := by
  unfold Mach.collStarted
  dsimp only
  rw [if_neg (not_not.2 rfl)]

theorem collEntryStart_unknown (rcb q : Nat) (e : SubEnt) (rest : List SubEnt) : StepsTo (.collEntryStart rcb q)
    (fun s => (s.mach.pair rcb q).subs = e :: rest ∧ e.armed = true ∧ e.rlinv = false ∧ e.fault = none ∧
      bits (ofBytes e.bytes) 0 8 ∉ [0x01, 0x02, 0x10, 0x11, 0x12, 0x13, 0x14, 0x30, 0x31])
    fun s t => MemoryKept s t ∧ t.mach.colls = s.mach.colls ∧ (t.mach.pair rcb q).subs = rest ∧
      EndsWith t rcb q e.poster (BitVec.ofNat 64 (bits (ofBytes e.bytes) 384 64)) (bits (ofBytes e.bytes) 0 8) 0x60 := by
  rintro s - ⟨hsubs, harm, hrl, hfault, hop⟩
  have hpop : ((s.mach.subPop rcb q).pair rcb q).subs = rest := by rw [subPop_subs, hsubs, List.drop_one, List.tail_cons]
  obtain ⟨hmem, hcolls, hrest, hends⟩ := collStarted_fails (s := s) (m := s.mach.subPop rcb q) (rcb := rcb) (q := q) (e := e)
    (cause := 0x60) (by decide) (fun _ => rfl) rfl
  exact ⟨_, collEntryStart_head hsubs harm hrl hfault (unknown_starts s.sys hop), hmem, hcolls, hrest.trans hpop, hends⟩

theorem collEntryStart_open (rcb q : Nat) (e : SubEnt) (rest : List SubEnt) (ds : List Byte) : StepsTo (.collEntryStart rcb q)
    (fun s =>
      let n := ofBytes e.bytes
      (s.mach.pair rcb q).subs = e :: rest ∧ e.armed = true ∧ e.rlinv = false ∧ e.fault = none ∧ bits n 0 8 = 0x30 ∧
      entryBad s.mach rcb n = false ∧ collRead s.sys s.mach (s.mach.eff e.launch) (entKey e.eid) (bits n 320 64) 64 = .ok ds ∧
      descBad (ofBytes ds) = false ∧ bits n 96 16 < bits (ofBytes ds) 64 32)
    fun s t => MemoryKept s t ∧ (t.mach.pair rcb q).subs = rest ∧ ∃ x, t.mach.colls = s.mach.colls ++ [x] ∧ x.eid = e.eid ∧
      x.op = 0x30 ∧ x.poster = e.poster ∧ x.nrank = bits (ofBytes ds) 64 32 ∧ x.rank = bits (ofBytes ds) 96 16 ∧
      x.cid = bits (ofBytes ds) 288 16 ∧ x.port = 0 ∧ x.tag = BitVec.ofNat 64 (bits (ofBytes e.bytes) 384 64) := by
  rintro s - ⟨hsubs, harm, hrl, hfault, hop, hbad, hread, hdesc, hrank⟩
  have hpop : ((s.mach.subPop rcb q).pair rcb q).subs = rest := by rw [subPop_subs, hsubs, List.drop_one, List.tail_cons]
  refine ⟨_, collEntryStart_head hsubs harm hrl hfault (open_starts hop hbad hread hdesc hrank), ?_⟩
  rw [collStarted_stands]
  exact ⟨fun _ => rfl, hpop, _, rfl, rfl, hop, rfl, rfl, rfl, rfl, rfl, rfl⟩

/-! ### Open and close -/

theorem collGate_plain {y : Sys} {m : Mach} {e : CollEnt} (f : Mach → CollEnt → Mach) (h : e.fault = none) : m.collGate y e f = f m e := by
  unfold Mach.collGate
  rw [h]

theorem collOpen_eq {s : State} {e : CollEnt} (hcoll : s.mach.coll? e.eid = some e) (hop : e.op = 0x30) (hfault : e.fault = none) :
    exec (.collOpen e.eid) s = .next (s.withMach (if openBad s.sys s.mach e.dsc = true then s.mach.collEnd e 0x60
      else s.mach.collDo s.sys e ((openComm s.sys s.mach e).andThen fun c => .ok ((s.mach.openNow s.sys c).collEnd e 0)))).settle := by
  show execCollOpen e.eid s = _
  unfold execCollOpen onMach
  dsimp only
  rw [hcoll]
  dsimp only
  rw [if_neg (not_not.2 hop), collGate_plain _ hfault]
  rfl

theorem collOpen_refused (e : CollEnt) : StepsTo (.collOpen e.eid)
    (fun s => s.mach.coll? e.eid = some e ∧ e.op = 0x30 ∧ e.fault = none ∧
      ∃ p ∈ s.sys.fports, p.bulkReq = bits e.dsc 112 3 ∨ p.bulkRsp = bits e.dsc 112 3)
    fun s t => EntryGone s t e 0x60 ∧ t.mach.comms = s.mach.comms := by
  rintro s - ⟨hcoll, hop, hfault, p, hp, hbulk⟩
  have hbad : openBad s.sys s.mach e.dsc = true := by
    unfold openBad
    dsimp only
    rw [Bool.or_eq_true]
    exact .inl (List.any_eq_true.2 ⟨p, hp, by rcases hbulk with h | h <;> simp [h]⟩)
  refine ⟨_, collOpen_eq hcoll hop hfault, ?_⟩
  rw [if_pos hbad]
  refine ⟨entryGone_settle (collEnd_gone e 0x60 (fun _ => rfl) rfl rfl), ?_⟩
  show (s.mach.collEnd e 0x60).comms = _
  rw [collEnd_frame s.mach e 0x60]

/-- The communicator that an `open` makes. -/
def openedComm (m : Mach) (e : CollEnt) (g : List Byte) (l : List Nat) : Comm :=
  { id := m.next, cid := e.cid, rank := e.rank, nrank := e.nrank, gen := ofBytes g, dgen := bits e.dsc 128 32, vc := bits e.dsc 112 3
    win := bits e.dsc 120 4, landva := bits e.dsc 192 64, rlva := bits e.dsc 0 64, rcb := e.rcb, eff := m.eff e.launch, cached := l
    place := min e.nrank (m.listRoom e.cid e.rank), maxSeq := some e.seq }

theorem openComm_free {y : Sys} {m : Mach} {e : CollEnt} {g : List Byte} {l : List Nat} (hnone : ∀ c ∈ m.comms, c.cid ≠ e.cid)
    (hdev : y.devid < 4096) (hgen : collRead y m (m.eff e.launch) (entKey e.eid) (bits e.dsc 0 64) 4 = .ok g)
    (hlist : listRead y m (m.eff e.launch) (entKey e.eid) (bits e.dsc 0 64) (min e.nrank (m.listRoom e.cid e.rank)) = .ok l) :
    openComm y m e = .ok (openedComm m e g l) := by
  have hfree : (m.comms.any fun c => c.cid == e.cid) = false := List.any_eq_false.2 fun c hc => by simpa using hnone c hc
  have hown : ofBytes (toBytes y.devid 2) % 4096 = y.devid := by
    rw [ofBytes_toBytes, Nat.mod_mod_of_dvd _ (by decide), Nat.mod_eq_of_lt hdev]
  unfold openComm
  dsimp only
  rw [hgen]
  dsimp only [CRes.andThen]
  rw [show Nat.min e.nrank (m.listRoom e.cid e.rank) = min e.nrank (m.listRoom e.cid e.rank) from rfl, hlist]
  dsimp only
  rw [hfree, if_neg Bool.false_ne_true]
  dsimp only
  rw [hown, if_neg (not_not.2 rfl)]
  rfl

theorem collDo_ok (y : Sys) (m : Mach) (e : CollEnt) (m' : Mach) : m.collDo y e (.ok m') = m'.unitDone (entKey e.eid) := rfl

/-- A communicator that opens while no failure of its CID waits. -/
theorem openNow_quiet {y : Sys} {m : Mach} {c : Comm} (h : ∀ f ∈ m.lateFails, f.1 ≠ c.cid) : m.openNow y c = { m with
    comms := m.comms ++ [c], next := m.next + 1, lateFails := m.lateFails.filter fun f => f.1 != c.cid
    closed := m.closed.filter fun x => x.1 != c.cid } := by
  have hlate : (m.lateFails.filter fun f => f.1 == c.cid && !m.isPast f.1 f.2.1) = [] :=
    List.filter_eq_nil_iff.2 fun f hf => by simp [h f hf]
  unfold Mach.openNow
  rw [hlate]
  rfl

theorem collOpen_opens (e : CollEnt) (g : List Byte) (l : List Nat) : StepsTo (.collOpen e.eid)
    (fun s =>
      let d := e.dsc
      s.mach.coll? e.eid = some e ∧ e.op = 0x30 ∧ e.fault = none ∧
      (∀ p ∈ s.sys.fports, p.bulkReq ≠ bits d 112 3 ∧ p.bulkRsp ≠ bits d 112 3) ∧ (∀ c ∈ s.mach.comms, c.cid ≠ e.cid) ∧
      s.sys.devid < 4096 ∧ (∀ f ∈ s.mach.lateFails, f.1 ≠ e.cid) ∧ e.cid = bits d 288 16 ∧ e.rank = bits d 96 16 ∧
      collRead s.sys s.mach (s.mach.eff e.launch) (entKey e.eid) (bits d 0 64) 4 = .ok g ∧
      listRead s.sys s.mach (s.mach.eff e.launch) (entKey e.eid) (bits d 0 64) (min e.nrank (s.mach.listRoom e.cid e.rank)) = .ok l)
    fun s t => EntryGone s t e 0 ∧ ∃ c, t.mach.comms = s.mach.comms ++ [c] ∧ t.mach.comm? e.cid e.rank = some c ∧ c.nrank = e.nrank ∧
      c.gen = ofBytes g ∧ c.cached = l ∧ (∀ x ∈ t.mach.closed, x.1 ≠ e.cid) ∧ c.vc = bits e.dsc 112 3 ∧ c.win = bits e.dsc 120 4 ∧
      c.landva = bits e.dsc 192 64 ∧ c.rlva = bits e.dsc 0 64 ∧ c.rcb = e.rcb ∧ c.chunks = [] ∧ c.toks = [] ∧ c.sent = [] := by
  rintro s - ⟨hcoll, hop, hfault, hports, hnone, hdev, hlate, hcid, hrank, hgen, hlist⟩
  have hbad : ¬openBad s.sys s.mach e.dsc = true := by
    unfold openBad
    dsimp only
    rw [← hcid, Bool.or_eq_true, not_or]
    constructor
    · rw [List.any_eq_true]
      rintro ⟨p, hp, h⟩
      obtain ⟨hreq, hrsp⟩ := hports p hp
      simp [hreq, hrsp] at h
    · rw [List.any_eq_true]
      rintro ⟨c, hc, h⟩
      simp [hnone c hc] at h
  refine ⟨_, collOpen_eq hcoll hop hfault, ?_⟩
  rw [if_neg hbad, openComm_free hnone hdev hgen hlist]
  have hopen := openNow_quiet (y := s.sys) (m := s.mach) (c := openedComm s.mach e g l) hlate
  have hgone : EntryGone s (s.withMach ((s.mach.openNow s.sys (openedComm s.mach e g l)).collEnd e 0)) e 0 :=
    collEnd_gone e 0 (by rw [hopen]; exact fun _ => rfl) (by rw [hopen]) (by rw [hopen])
  have hcomms : ((s.mach.openNow s.sys (openedComm s.mach e g l)).collEnd e 0).comms = s.mach.comms ++ [openedComm s.mach e g l] := by
    rw [collEnd_frame, hopen]
  have hclosed : ((s.mach.openNow s.sys (openedComm s.mach e g l)).collEnd e 0).closed = s.mach.closed.filter fun x => x.1 != e.cid := by
    rw [collEnd_frame, hopen]
    rfl
  have hdo : s.mach.collDo s.sys e ((CRes.ok (openedComm s.mach e g l)).andThen fun c => .ok ((s.mach.openNow s.sys c).collEnd e 0)) =
      ((s.mach.openNow s.sys (openedComm s.mach e g l)).collEnd e 0).unitDone (entKey e.eid) := rfl
  rw [hdo]
  generalize (s.mach.openNow s.sys (openedComm s.mach e g l)).collEnd e 0 = m at hgone hcomms hclosed
  refine ⟨hgone, openedComm s.mach e g l, hcomms, ?_, rfl, rfl, rfl, fun x hx => ?_, rfl, rfl, rfl, rfl, rfl, rfl, rfl, rfl⟩
  · show m.comms.find? (fun c => c.cid == e.cid && c.rank == e.rank) = some (openedComm s.mach e g l)
    rw [hcomms, List.find?_append, List.find?_eq_none.2 fun u hu => by simp [hnone u hu], Option.none_or]
    simp [openedComm]
  · have hx' : x ∈ m.closed := hx
    rw [hclosed] at hx'
    simpa using (List.mem_filter.1 hx').2

theorem collClose_eq {s : State} {e : CollEnt} (hcoll : s.mach.coll? e.eid = some e) (hop : e.op = 0x31)
    (hlast : ∀ u ∈ s.mach.colls, u.cid = e.cid → u.rank = e.rank → u.eid = e.eid) :
    exec (.collClose e.eid) s = .next (s.withMach ((s.mach.closeNow e).collEnd e 0)).settle := by
  have hbefore : ((s.mach.colls.takeWhile fun u => u.eid != e.eid).any fun u => u.cid == e.cid && u.rank == e.rank) = false := by
    refine List.any_eq_false.2 fun u hu => ?_
    have hne := List.mem_takeWhile_imp hu
    have hmem := (List.takeWhile_sublist _).subset hu
    intro h
    obtain ⟨hcid, hrank⟩ := Bool.and_eq_true_iff.1 h
    simp [hlast u hmem (by simpa using hcid) (by simpa using hrank)] at hne
  show execCollClose e.eid s = _
  unfold execCollClose onMach
  dsimp only
  rw [hcoll]
  dsimp only
  rw [hbefore, if_neg (by simp [hop])]
  rfl

theorem collClose_closes (e : CollEnt) : StepsTo (.collClose e.eid)
    (fun s => s.mach.coll? e.eid = some e ∧ e.op = 0x31 ∧ ∀ u ∈ s.mach.colls, u.cid = e.cid → u.rank = e.rank → u.eid = e.eid)
    fun s t => EntryGone s t e 0 ∧ t.mach.comm? e.cid e.rank = none ∧
      ∀ c k, s.mach.comm? e.cid e.rank = some c → c.maxSeq = some k → t.mach.isPast e.cid k = true := by
  rintro s - ⟨hcoll, hop, hlast⟩
  have hgone : EntryGone s (s.withMach ((s.mach.closeNow e).collEnd e 0)) e 0 := collEnd_gone e 0 (fun _ => rfl) rfl rfl
  have hcomms : ((s.mach.closeNow e).collEnd e 0).comms = (s.mach.closeNow e).comms := by rw [collEnd_frame]
  have hclosed : ((s.mach.closeNow e).collEnd e 0).closed = (s.mach.closeNow e).closed := by rw [collEnd_frame]
  refine ⟨_, collClose_eq hcoll hop hlast, hgone, ?_, fun c k hc hk => ?_⟩
  · show ((s.mach.closeNow e).collEnd e 0).comms.find? (fun c => c.cid == e.cid && c.rank == e.rank) = none
    rw [hcomms]
    refine List.find?_eq_none.2 fun u hu => ?_
    have hne := (List.mem_filter.1 hu).2
    rw [Bool.not_eq_true'] at hne
    exact Bool.eq_false_iff.1 hne
  · show (((s.mach.closeNow e).collEnd e 0).closed.any fun x => x.1 == e.cid && decide (k ≤ x.2)) = true
    rw [hclosed]
    unfold Mach.closeNow
    dsimp only
    rw [hc, Option.bind_some, hk, Option.getD_some, List.any_append, Bool.or_eq_true]
    refine .inr (List.any_eq_true.2 ⟨_, List.mem_singleton.2 rfl, ?_⟩)
    rw [beq_self_eq_true, Bool.true_and, decide_eq_true_eq]
    exact Nat.le_max_left _ _

/-! ### Retirement -/

/-- An entry that has moved all its chunks has sent and written what its operation counts. -/
theorem allMoved_counts {e : CollEnt} (h : AllMoved e) :
    e.op ≠ 0x30 ∧ e.op ≠ 0x31 ∧ e.op ≠ 0x14 ∧ e.sends ≤ e.sent ∧ e.writes ≤ e.wrote := by
  obtain ⟨hn, hmoved⟩ := h
  have hmax : Nat.max 1 e.nrank = e.nrank := Nat.max_eq_right hn
  unfold CollEnt.sends CollEnt.writes CollEnt.segLen chunksOf
  rcases hmoved with ⟨hop | hop, hsent⟩ | ⟨hop, hsent, hwrote⟩ | ⟨hop, hsent, hwrote⟩ | ⟨hop, hsent, hwrote⟩ | ⟨hop, hsent, hwrote⟩ <;>
    rw [hop, hmax]
  · exact ⟨by decide, by decide, by decide, hsent, Nat.zero_le _⟩
  · exact ⟨by decide, by decide, by decide, hsent, Nat.zero_le _⟩
  · exact ⟨by decide, by decide, by decide, hsent, hwrote⟩
  · exact ⟨by decide, by decide, by decide, hsent, hwrote⟩
  · exact ⟨by decide, by decide, by decide, hsent, hwrote⟩
  · refine ⟨by decide, by decide, by decide, ?_, hwrote⟩
    show (if e.succ = e.peer then 0 else _) ≤ e.sent
    split
    · exact Nat.zero_le _
    · rename_i hsucc
      exact hsent.resolve_left hsucc

theorem collEntryRetire_eq {s : State} {e : CollEnt} (hcoll : s.mach.coll? e.eid = some e) (hopen : (s.mach.comm? e.cid e.rank).isSome)
    (h30 : e.op ≠ 0x30) (h31 : e.op ≠ 0x31) (h14 : e.op ≠ 0x14) : exec (.collEntryRetire e.eid) s =
      .next (s.withMach (if e.sends ≤ e.sent ∧ e.writes ≤ e.wrote ∧ (!s.mach.unsent s.sys e) = true then s.mach.collEnd e 0 else s.mach)).settle := by
  show execCollEntryRetire e.eid s = _
  unfold execCollEntryRetire onMach
  dsimp only
  rw [hcoll]
  dsimp only
  rw [if_neg (by simp [h30, h31]), if_neg (by rw [Option.isNone_eq_false_iff.2 hopen]; decide), if_neg h14]
  rfl

theorem collEntryRetire_retires (e : CollEnt) : StepsTo (.collEntryRetire e.eid)
    (fun s => s.mach.coll? e.eid = some e ∧ (s.mach.comm? e.cid e.rank).isSome ∧ AllMoved e ∧ s.mach.unsent s.sys e = false)
    fun s t => EntryGone s t e 0 ∧ t.mach.comms = s.mach.comms := by
  rintro s - ⟨hcoll, hopen, hmoved, hleft⟩
  obtain ⟨h30, h31, h14, hsent, hwrote⟩ := allMoved_counts hmoved
  refine ⟨_, collEntryRetire_eq hcoll hopen h30 h31 h14, ?_⟩
  rw [if_pos ⟨hsent, hwrote, by rw [hleft]; rfl⟩]
  refine ⟨entryGone_settle (collEnd_gone e 0 (fun _ => rfl) rfl rfl), ?_⟩
  show (s.mach.collEnd e 0).comms = _
  rw [collEnd_frame s.mach e 0]

theorem collEntryRetire_waits (e : CollEnt) : Steps (.collEntryRetire e.eid)
    (fun s => s.mach.coll? e.eid = some e ∧ (s.mach.comm? e.cid e.rank).isSome ∧ e.op ∉ [0x14, 0x30, 0x31] ∧
      s.mach.unsent s.sys e = true) fun s => s := by
  intro s hs h
  obtain ⟨hcoll, hopen, hop, hleft⟩ := h
  simp only [List.mem_cons, List.not_mem_nil, or_false, not_or] at hop
  obtain ⟨h14, h30, h31⟩ := hop
  rw [collEntryRetire_eq hcoll hopen h30 h31 h14, if_neg fun h => by rw [hleft] at h; exact absurd h.2.2 (by decide)]
  exact congrArg _ (settle_both_quiet (y := s.sys) (m := s.mach) hs rfl rfl rfl rfl rfl)

/-! ### A link that stays down -/

theorem collFail_oneSided {y : Sys} {m : Mach} {e : CollEnt} (cause : Nat) (h : isRingOp e.op = false) :
    m.collFail y e cause = (m.takeBack y e).collEnd e cause := by
  unfold Mach.collFail
  rw [h, if_neg Bool.false_ne_true]

/-- A one-sided entry that fails. -/
theorem collFail_gone {s : State} {e : CollEnt} (cause : Nat) (h : isRingOp e.op = false) :
    EntryGone s (s.withMach (s.mach.collFail s.sys e cause)) e cause := by
  rw [collFail_oneSided cause h]
  exact collEnd_gone e cause (by rw [takeBack_frame]; exact fun _ => rfl) (by rw [takeBack_frame]) (by rw [takeBack_frame])

theorem collLinkTimeout_fails (e : CollEnt) (far : Bool) : StepsTo (.collLinkTimeout ⟨e.eid, far⟩)
    (fun s => s.mach.coll? e.eid = some e ∧ (e.op = 0x01 ∨ e.op = 0x02) ∧ e.sdev ≠ s.sys.devid ∧
      (far = true ∨ ((s.sys.fport e.port).state = 0 ∨ (s.sys.fport e.port).state = 3) ∧
        (s.sys.fport e.port).downSince.getD 0 + 1000000 < s.sys.ticks))
    fun s t => EntryGone s t e 0x63 := by
  rintro s - ⟨hcoll, hop, hdev, hdown⟩
  have hring : isRingOp e.op = false := by rcases hop with h | h <;> rw [h] <;> decide
  have hlong : (far || ((s.sys.fport e.port).state != 1 && (s.sys.fport e.port).state != 2 &&
      decide ((s.sys.fport e.port).downSince.getD 0 + 1000000 < s.sys.ticks))) = true := by
    rcases hdown with h | ⟨h | h, ht⟩
    · rw [h, Bool.true_or]
    · rw [h, decide_eq_true ht, Bool.or_eq_true]
      exact .inr rfl
    · rw [h, decide_eq_true ht, Bool.or_eq_true]
      exact .inr rfl
  have hstep : exec (.collLinkTimeout ⟨e.eid, far⟩) s = .next (s.withMach (s.mach.collFail s.sys e 0x63)).settle := by
    show execCollLinkTimeout ⟨e.eid, far⟩ s = _
    unfold execCollLinkTimeout onMach
    dsimp only
    rw [hcoll]
    dsimp only
    rw [if_neg ?_]
    · rfl
    · rw [show Config.ticks10ms = 1000000 from rfl, hlong]
      rcases hop with h | h <;> simp [h, hdev]
  exact ⟨_, hstep, entryGone_settle (collFail_gone 0x63 hring)⟩

/-- Settles O42, step by step. -/
theorem entriesStartAndRetire : Obligations.EntriesStartAndRetire := by
  unfold Obligations.EntriesStartAndRetire
  exact ⟨collEntryStart_unknown, collEntryStart_open, collOpen_opens, collOpen_refused, collClose_closes, collEntryRetire_retires,
    collEntryRetire_waits, collLinkTimeout_fails⟩

end Sys2Proof.Machine
end

section
/-! SUPPORT. What arrives for a communicator: chunks, puts, tokens, failures (spec/01 R49, R58, R61, R63, R67, spec/22). -/

namespace Sys2Proof.Machine

/-! ### Stores -/

theorem put_wf_read {mem : Memory} (loc : Nat) (bs : List Byte) (hwf : mem.wf = true) :
    (∀ i, i < bs.length → (mem.put loc bs).read (loc + i) = bs.getD i 0) ∧
    ∀ a, a < loc ∨ loc + bs.length ≤ a → (mem.put loc bs).read a = mem.read a := by
  refine ⟨fun i hi => ?_, fun a ha => ?_⟩
  · rw [Memory.read_put _ _ _ _ hwf, if_pos (by omega), Nat.add_sub_cancel_left]
  · rw [Memory.read_put _ _ _ _ hwf, if_neg (by omega)]

theorem stampRange_frame (m : Mach) (loc len v : Nat) : ∃ st, m.stampRange loc len v = { m with stamps := st } := by
  unfold Mach.stampRange
  generalize sectorsOf loc len = l
  induction l generalizing m with
  | nil => exact ⟨m.stamps, rfl⟩
  | cons a l ih =>
    obtain ⟨st, hst⟩ := ih (m.setStamp a v)
    exact ⟨st, hst⟩

/-- What a store leaves as it was. -/
def StoreFrame (m m' : Mach) : Prop :=
  m' = { m with
    mem := m'.mem, eccDouble := m'.eccDouble, eccSingle := m'.eccSingle, stamps := m'.stamps, doms := m'.doms, relAt := m'.relAt }

theorem store_spec {m : Mach} {loc : Nat} (bs : List Byte) (st : Option Nat) (hmap : m.mapped loc = false) :
    StoreFrame m (m.store loc bs st) ∧ (m.store loc bs st).mem = m.mem.put loc bs := by
  have hdev : m.devStore loc bs = ({ m with mem := m.mem.put loc bs } : Mach).eccClear loc bs.length := by
    unfold Mach.devStore
    rw [hmap]
    rfl
  unfold Mach.store
  dsimp only
  rw [hdev]
  cases st with
  | none => exact ⟨rfl, rfl⟩
  | some v =>
    obtain ⟨sts, hst⟩ := stampRange_frame (({ m with mem := m.mem.put loc bs } : Mach).eccClear loc bs.length) loc bs.length v
    dsimp only
    rw [hst]
    exact ⟨rfl, rfl⟩

/-- Bytes that the collective engine writes to one piece of this device. -/
theorem collPutBytes_one {m : Mach} {loc : Nat} (va attr : Nat) (race : Bool) (stamp : Nat) (bs : List Byte) (hmap : m.mapped loc = false)
    (hrem : isRem loc = false) :
    StoreFrame m (m.collPutBytes [⟨va, loc, bs.length, attr⟩] race stamp bs) ∧
    (m.collPutBytes [⟨va, loc, bs.length, attr⟩] race stamp bs).mem = m.mem.put loc bs := by
  unfold Mach.collPutBytes
  dsimp only [List.foldl]
  rw [hrem, if_neg Bool.false_ne_true, List.take_length]
  generalize (if (race && raceLoc loc attr) = true then some stamp else none) = st
  obtain ⟨hframe, hmem⟩ := store_spec bs st hmap
  refine ⟨?_, hmem⟩
  unfold StoreFrame at hframe ⊢
  generalize m.store loc bs st = m' at hframe hmem
  rw [hframe]
  rfl

theorem not_away {m : Mach} {loc : Nat} (hmap : m.mapped loc = false) (hrem : isRem loc = false) : m.away loc = false := by
  unfold Mach.mapped at hmap
  unfold Mach.away
  rw [hrem, Bool.false_or]
  exact (Bool.or_eq_false_iff.1 hmap).2

/-- Nothing of one piece of this device has to be written elsewhere. -/
theorem farWrite_near {y : Sys} {m : Mach} (eff : Eff) (key va attr : Nat) {loc : Nat} (bs : List Byte) (hmap : m.mapped loc = false)
    (hrem : isRem loc = false) (n : Nat) : farWrite y m eff key [⟨va, loc, n, attr⟩] bs = .ok () := by
  unfold farWrite farParts farParts
  rw [not_away hmap hrem]
  rfl

/-! ### Communicators -/

theorem find?_replaced {α : Type} {p : α → Bool} {k : α → Nat} {c c' : α} (hp : p c' = true) (l : List α) (h : l.find? p = some c) :
    (l.map fun u => if k u == k c then c' else u).find? p = some c' := by
  induction l with
  | nil => cases h
  | cons u l ih =>
    rw [List.map_cons, List.find?_cons]
    by_cases hk : k u = k c
    · rw [if_pos (by rw [hk, beq_self_eq_true]), hp]
    · rw [if_neg (by simpa using hk)]
      rw [List.find?_cons] at h
      cases hpu : p u with
      | false =>
        rw [hpu] at h
        exact ih h
      | true =>
        rw [hpu] at h
        cases h
        exact absurd rfl hk

theorem comm?_key {m : Mach} {cid rank : Nat} {c : Comm} (h : m.comm? cid rank = some c) : c.cid = cid ∧ c.rank = rank := by
  simpa using List.find?_some h

/-- A communicator that is written stands under its CID and rank. -/
theorem comm?_setComm {m : Mach} {cid rank : Nat} {c c' : Comm} (h : m.comm? cid rank = some c) (hid : c'.id = c.id) (hcid : c'.cid = c.cid)
    (hrank : c'.rank = c.rank) : (m.setComm c').comm? cid rank = some c' := by
  obtain ⟨hc, hr⟩ := comm?_key h
  have hfound := find?_replaced (k := Comm.id) (c := c) (c' := c') (p := fun u : Comm => u.cid == cid && u.rank == rank)
    (by rw [hcid, hrank, hc, hr, beq_self_eq_true, beq_self_eq_true]; rfl) m.comms h
  rw [← hid] at hfound
  exact hfound

theorem setComm_single {m : Mach} {c c' : Comm} (h : m.comms = [c]) (hid : c'.id = c.id) : (m.setComm c').comms = [c'] := by
  show (m.comms.map fun u => if u.id == c'.id then c' else u) = _
  rw [h]
  simp [hid]

theorem comm?_single {m : Mach} {c : Comm} (h : m.comms = [c]) : m.comm? c.cid c.rank = some c := by
  unfold Mach.comm?
  rw [h]
  simp

/-! ### A message taken from the head of a channel -/

theorem inDrop_taken {s : State} {n vc : Nat} {x : Msg} (h : Heads s n vc x) (m : Mach) :
    Taken s (s.withBoth (s.sys.inDrop n vc) m).settle n vc x := by
  obtain ⟨hn, hhead, -⟩ := h
  obtain ⟨q, hq, hinq, -, -⟩ := inDrop_spec hhead
  have hports : ∀ k, (s.withBoth (s.sys.inDrop n vc) m).settle.sys.fport k = (s.sys.inDrop n vc).fport k := fun k => by
    unfold Sys.fport
    rw [settle_fports_sys]
    rfl
  refine ⟨?_, fun k hk => ?_⟩
  · rw [hports, hq, fport_setFPort, if_pos ⟨rfl, hn⟩, hinq]
  · rw [hports, hq, fport_setFPort, if_neg fun h => hk h.1]

/-- A step that takes a message for this device. -/
theorem onArrival_takes {s : State} {n vc : Nat} {x : Msg} {f : Sys → Mach → Msg → Option Mach} {m : Mach} (h : Heads s n vc x)
    (hf : f s.sys s.mach x = some m) : onArrival n vc f s = .next (s.withBoth (s.sys.inDrop n vc) m).settle := by
  obtain ⟨-, hhead, hdst⟩ := h
  unfold onArrival onAll
  dsimp only
  rw [hhead]
  dsimp only
  rw [if_neg (not_not.2 hdst), hf]
  rfl

theorem onHead_takes {s : State} {n vc : Nat} {x : Msg} {f : Sys → Mach → Msg → Option Mach × Mach} {m m' : Mach} (h : Heads s n vc x)
    (hf : f s.sys s.mach x = (some m, m')) : onHead n vc f s = .next (s.withBoth (s.sys.inDrop n vc) m).settle := by
  obtain ⟨-, hhead, hdst⟩ := h
  unfold onHead onAll
  dsimp only
  rw [hhead]
  dsimp only
  rw [if_neg (not_not.2 hdst), hf]
  rfl

theorem onHead_leaves {s : State} {n vc : Nat} {x : Msg} {f : Sys → Mach → Msg → Option Mach × Mach} {m : Mach} (h : Heads s n vc x)
    (hf : f s.sys s.mach x = (none, m)) : onHead n vc f s = .next (s.withMach m).settle := by
  obtain ⟨-, hhead, hdst⟩ := h
  unfold onHead onAll
  dsimp only
  rw [hhead]
  dsimp only
  rw [if_neg (not_not.2 hdst), hf]
  rfl

theorem headDo_ok {y : Sys} {m m' : Mach} {c : Comm} (n vc : Nat) (bad : Mach → Comm → Nat → Mach) (h : c.fault = none) :
    m.headDo y c n vc (.ok m') bad = (some (m'.unitDone (headKey c.id n vc)), m') := by
  unfold Mach.headDo
  dsimp only
  rw [h]

/-! ### Chunks -/

theorem not_failed {c : Comm} {seq : Nat} (h : ∀ f ∈ c.failed, f.1 ≠ seq) : ¬(c.failed.any fun f => f.1 == seq) = true := by
  rw [List.any_eq_true]
  rintro ⟨f, hf, hseq⟩
  exact h f hf (by simpa using hseq)

/-- A chunk of an open communicator, taken by the port. -/
theorem chunkArrive_takes {s : State} {n vc : Nat} {x : Msg} {cid rank seq k seg off : Nat} {g : Bool} {red ty : Nat} {bs : List Byte}
    {c : Comm} {m : Mach} (hhead : Heads s n vc x) (hbody : x.body = .chunk cid rank seq k seg off g red ty bs)
    (hcomm : s.mach.comm? cid rank = some c) (hfault : c.fault = none)
    (htake : takeChunk s.sys s.mach c ⟨seq, k, seg, off, bs.length, g, x.src, false, bs⟩ clearStamp = .ok m) :
    exec (.chunkArrive n vc) s = .next (s.withBoth (s.sys.inDrop n vc) (m.unitDone (headKey c.id n vc))).settle := by
  show execChunkArrive n vc s = _
  unfold execChunkArrive
  refine onHead_takes hhead (m' := m) ?_
  dsimp only
  rw [hbody]
  dsimp only
  rw [hcomm]
  dsimp only
  rw [htake, headDo_ok n vc _ hfault]

theorem chunkArrive_queues (n vc : Nat) (x : Msg) (cid rank seq k seg off : Nat) (g : Bool) (red ty : Nat) (bs : List Byte) (c : Comm) :
    StepsTo (.chunkArrive n vc)
      (fun s => Heads s n vc x ∧ x.body = .chunk cid rank seq k seg off g red ty bs ∧ s.mach.comm? cid rank = some c ∧ c.fault = none ∧
        (∀ f ∈ c.failed, f.1 ≠ seq) ∧ (s.mach.ringEnt? c seq).isSome)
      fun s t => Taken s t n vc x ∧ MemoryKept s t ∧ ∃ c', t.mach.comm? cid rank = some c' ∧
        c'.chunks = c.chunks ++ [⟨seq, k, seg, off, bs.length, g, x.src, false, bs⟩] := by
  rintro s - ⟨hhead, hbody, hcomm, hfault, hfailed, hent⟩
  refine ⟨_, chunkArrive_takes hhead hbody hcomm hfault ((if_neg (not_failed hfailed)).trans (if_pos hent)), inDrop_taken hhead _,
    fun _ => rfl, _, comm?_setComm hcomm rfl rfl rfl, rfl⟩

/-- Locations of cavern are those of no CXL device, of no host window and of no other device. -/
theorem inCavern_near {loc len : Nat} (h : inCavern loc len = true) : isRem loc = false ∧ ∀ m : Mach, m.mapped loc = false := by
  rw [inCavern, Bool.and_eq_true, decide_eq_true_eq, decide_eq_true_eq] at h
  simp only [Config.cavernBase, Config.cavernSize] at h
  have hkind : pkind loc = .cavern ∨ pkind loc = .regs ∨ pkind loc = .other := by
    by_cases hcav : Config.cavernBase ≤ loc ∧ loc < Config.cavernBase + Config.cavernSize
    · exact .inl (if_pos hcav)
    · refine .inr ?_
      rw [pkind, if_neg hcav, if_neg (by simp only [Config.pcie0Base]; omega), if_neg (by simp only [Config.pcie1Base]; omega),
        if_neg (by simp only [Config.cxlBase]; omega)]
      by_cases hregs : Config.regBase ≤ loc ∧ loc < Config.regBase + 0x1000000
      · exact .inl (if_pos hregs)
      · exact .inr (if_neg hregs)
  refine ⟨?_, fun m => ?_⟩
  · rw [isRem, decide_eq_false (by omega), Bool.false_and]
  · rw [Mach.mapped, Mach.inHost]
    rcases hkind with hk | hk | hk <;> rw [hk] <;> exact Bool.and_false _

theorem chunkArrive_parks (n vc : Nat) (x : Msg) (cid rank seq k seg off : Nat) (g : Bool) (red ty : Nat) (bs : List Byte) (c : Comm)
    (loc attr : Nat) : StepsTo (.chunkArrive n vc)
      (fun s => Heads s n vc x ∧ x.body = .chunk cid rank seq k seg off g red ty bs ∧ s.mach.comm? cid rank = some c ∧ c.fault = none ∧
        (∀ f ∈ c.failed, f.1 ≠ seq) ∧ s.mach.ringEnt? c seq = none ∧ s.mach.mem.wf = true ∧ inCavern loc bs.length = true ∧
        collRange s.sys s.mach c.eff (entKey c.id) (c.landva + 4096 * (k % c.win)) bs.length .w =
          .ok [⟨c.landva + 4096 * (k % c.win), loc, bs.length, attr⟩])
      fun s t => Taken s t n vc x ∧ Stored s t loc bs ∧ ∃ c' a, t.mach.comm? cid rank = some c' ∧ a ∈ c'.chunks ∧ a.seq = seq ∧
        a.c = k ∧ a.parked = true ∧ a.len = bs.length := by
  rintro s - ⟨hhead, hbody, hcomm, hfault, hfailed, hent, hwf, hcav, hrange⟩
  generalize ha : (⟨seq, k, seg, off, bs.length, g, x.src, false, bs⟩ : InChunk) = a
  have hplace : reserveAt s.sys s.mach c.eff c k bs.length = .ok [⟨c.landva + 4096 * (k % c.win), loc, bs.length, attr⟩] := by
    unfold reserveAt chunkBytes
    rw [hrange]
    show (if ([⟨c.landva + 4096 * (k % c.win), loc, bs.length, attr⟩] : List CLoc).all (fun a => inCavern a.loc a.len) = true then _ else _) = _
    rw [if_pos (by rw [List.all_cons, hcav]; rfl)]
  have htake : takeChunk s.sys s.mach c a clearStamp =
      .ok (s.mach.parkIn c a [⟨c.landva + 4096 * (k % c.win), loc, bs.length, attr⟩] clearStamp) := by
    rw [← ha]
    refine (if_neg (not_failed hfailed)).trans ((if_neg (by rw [hent]; decide)).trans ?_)
    rw [hplace]
    rfl
  obtain ⟨hrem, hmap⟩ := inCavern_near hcav
  generalize hc' : ({ c with chunks := (c.chunks.erase a) ++ [{ a with parked := true, bytes := [] }] } : Comm) = c'
  have hbytes : a.bytes = bs := by rw [← ha]
  obtain ⟨hframe, hmem⟩ := collPutBytes_one (m := s.mach.setComm c') (c.landva + 4096 * (k % c.win)) attr c.eff.race clearStamp bs (hmap _) hrem
  have hpark : s.mach.parkIn c a [⟨c.landva + 4096 * (k % c.win), loc, bs.length, attr⟩] clearStamp =
      (s.mach.setComm c').collPutBytes [⟨c.landva + 4096 * (k % c.win), loc, bs.length, attr⟩] c.eff.race clearStamp bs := by
    unfold Mach.parkIn
    rw [hc', hbytes]
  rw [hpark] at htake
  rw [← ha] at htake
  generalize (s.mach.setComm c').collPutBytes [⟨c.landva + 4096 * (k % c.win), loc, bs.length, attr⟩] c.eff.race clearStamp bs = m
    at htake hframe hmem
  refine ⟨_, chunkArrive_takes hhead hbody hcomm hfault htake, inDrop_taken hhead _, ?_, c', { a with parked := true, bytes := [] }, ?_, ?_, ?_⟩
  · obtain ⟨hin, hout⟩ := put_wf_read loc bs hwf
    exact ⟨fun i hi => (congrArg (fun mem : Memory => mem.read (loc + i)) hmem).trans (hin i hi),
      fun b hb => (congrArg (fun mem : Memory => mem.read b) hmem).trans (hout b hb)⟩
  · show m.comm? cid rank = some c'
    rw [hframe]
    exact comm?_setComm hcomm (by rw [← hc']) (by rw [← hc']) (by rw [← hc'])
  · rw [← hc']
    exact List.mem_append_right _ List.mem_cons_self
  · rw [← ha]
    exact ⟨rfl, rfl, rfl, rfl⟩

theorem chunkWait_stays (n vc : Nat) (x : Msg) : StepsTo (.chunkWaitClosedCid n vc)
    (fun s => Heads s n vc x ∧ vc ≠ 0 ∧ ∃ cid rank seq k seg off g red ty bs, x.body = .chunk cid rank seq k seg off g red ty bs ∧
      s.mach.comm? cid rank = none)
    fun s t => t.mach = s.mach ∧ (t.sys.fport n).inq = (s.sys.fport n).inq ∧
      (112 ≤ (s.sys.fport n).inFlits.getD vc 0 → vc ∈ (t.sys.fport n).holding) := by
  rintro s hs ⟨⟨hn, hhead, hdst⟩, hvc, cid, rank, seq, k, seg, off, g, red, ty, bs, hbody, hnone⟩
  show ∃ t, execChunkWaitClosedCid n vc s = .next t ∧ _
  unfold execChunkWaitClosedCid
  have hclosed : closedFor s.mach x = true := by
    unfold closedFor
    rw [hbody]
    dsimp only
    rw [hnone]
    rfl
  have hport : ∀ p, (s.withSys (s.sys.setFPort n p)).sys.fport n = p := fun p => (fport_setFPort _ _ _ _).trans (if_pos ⟨rfl, hn⟩)
  refine ⟨_, onAll_sys hs (y := s.sys.setFPort n ((s.sys.fport n).rehold vc)) ?_ rfl rfl, rfl, ?_, fun hlen => ?_⟩
  · rw [hhead]
    dsimp only
    rw [hclosed, hdst, beq_self_eq_true, Bool.and_self, if_pos rfl]
  · rw [hport, rehold_frame]
  · rw [hport, rehold_own, if_neg hvc]
    exact .inl hlen

/-! ### Puts -/

theorem sendTok_far {y : Sys} (m : Mach) (c : Comm) {t : KeptTok} (h : t.dev ≠ y.devid) : m.sendTok y c t = m.say y t.dev 0 0
    (if t.circuit = 0 then .token c.cid t.rank c.rank t.c else .ringTok c.cid t.rank c.rank t.seq t.circuit) := if_pos h

/-- The end of a piece of a put from another device, where nothing of the put has failed. -/
theorem putEnd_spec {y : Sys} (m : Mach) {c : Comm} {p : PutPiece} (hbad : c.badPuts = []) (hdev : p.dev ≠ y.devid) :
    (putEnd y m c p).mem = m.mem ∧ (putEnd y m c p).out = m.out ++ [⟨y.devid, p.dev, 0, 0, .token c.cid p.frm c.rank p.c⟩] ∧
    ((putEnd y m c p).ctr c.rcb p.rctr).val % 2 ^ 32 = ((m.ctr c.rcb p.rctr).val +
      if p.last = true ∧ p.rsig = true ∧ p.rctr < m.boundCtrs c.rcb then 1 else 0) % 2 ^ 32 := by
  have hok : (p.last && p.rsig && !c.badPuts.contains (p.frm, p.eid) && decide (p.rctr < m.boundCtrs c.rcb)) = true ↔
      p.last = true ∧ p.rsig = true ∧ p.rctr < m.boundCtrs c.rcb := by
    simp [hbad, and_assoc]
  have hdone : ∀ k : Mach, (k.putDone y c p).mem = k.mem ∧ (k.putDone y c p).ctrs = k.ctrs ∧
      (k.putDone y c p).out = k.out ++ [⟨y.devid, p.dev, 0, 0, .token c.cid p.frm c.rank p.c⟩] := by
    intro k
    unfold Mach.putDone
    dsimp only
    rw [sendTok_far _ _ hdev]
    split <;> exact ⟨rfl, rfl, rfl⟩
  unfold putEnd
  dsimp only
  by_cases hcount : p.last = true ∧ p.rsig = true ∧ p.rctr < m.boundCtrs c.rcb
  · rw [if_pos (hok.2 hcount), if_pos hcount]
    obtain ⟨hmem, hctrs, hout⟩ := hdone ((m.sync 0 6 true false (.ctr c.rcb p.rctr)).ctrAdd c.rcb p.rctr 1 none)
    refine ⟨hmem, hout, ?_⟩
    have hctr : ∀ k : Mach, (k.putDone y c p).ctr c.rcb p.rctr = k.ctr c.rcb p.rctr := fun k => by
      unfold Mach.ctr Mach.ctr?
      rw [(hdone k).2.1]
    rw [hctr]
    unfold Mach.ctrAdd
    obtain ⟨hr, hi⟩ := ctr_key (m.sync 0 6 true false (.ctr c.rcb p.rctr)) c.rcb p.rctr
    dsimp only
    rw [ctr_setCtr, if_pos ⟨hr, hi⟩]
    exact Nat.mod_mod _ _
  · rw [if_neg fun h => hcount (hok.1 h), if_neg hcount]
    obtain ⟨hmem, hctrs, hout⟩ := hdone m
    refine ⟨hmem, hout, ?_⟩
    unfold Mach.ctr Mach.ctr?
    rw [hctrs]
    rfl

theorem putArrive_writes (n vc : Nat) (x : Msg) (cid rank frm eid k dst ty : Nat) (last rsig : Bool) (rctr : Nat) (bs : List Byte) (c : Comm)
    (loc attr : Nat) : StepsTo (.putArrive n vc)
      (fun s => Heads s n vc x ∧ x.body = .put cid rank frm eid k dst 0 ty last rsig rctr bs ∧ s.mach.comm? cid rank = some c ∧
        c.fault = none ∧ c.badPuts = [] ∧ x.src ≠ s.sys.devid ∧ s.mach.mem.wf = true ∧ s.mach.mapped loc = false ∧
        isRem loc = false ∧ collRange s.sys s.mach c.eff (headKey c.id n vc) dst bs.length .w = .ok [⟨dst, loc, bs.length, attr⟩])
      fun s t => Taken s t n vc x ∧ Stored s t loc bs ∧
        t.mach.out = s.mach.out ++ [⟨s.sys.devid, x.src, 0, 0, .token cid frm rank k⟩] ∧
        (t.mach.ctr c.rcb rctr).val % 2 ^ 32 = ((s.mach.ctr c.rcb rctr).val +
          if last = true ∧ rsig = true ∧ rctr < s.mach.boundCtrs c.rcb then 1 else 0) % 2 ^ 32 := by
  rintro s - ⟨hhead, hbody, hcomm, hfault, hbad, hsrc, hwf, hmap, hrem, hrange⟩
  obtain ⟨hcid, hrank⟩ := comm?_key hcomm
  generalize hp : ({ frm := frm, dev := x.src, eid := eid, c := k, dst := dst, red := 0, ty := ty, last := last, rsig := rsig
                     rctr := rctr, bytes := bs } : PutPiece) = p
  obtain ⟨hframe, hmem⟩ := collPutBytes_one (m := s.mach) dst attr c.eff.race outStamp bs hmap hrem
  generalize hm : s.mach.collPutBytes [⟨dst, loc, bs.length, attr⟩] c.eff.race outStamp bs = m at hframe hmem
  have hstep : putStep s.sys s.mach c (headKey c.id n vc) (8 * n + vc) p = .ok (putEnd s.sys m c p, true) := by
    unfold putStep
    rw [if_pos (by rw [← hp])]
    unfold putPiece
    rw [show p.dst = dst by rw [← hp], show p.bytes = bs by rw [← hp], hrange]
    dsimp only [CRes.andThen]
    rw [farWrite_near _ _ _ _ _ hmap hrem]
    dsimp only
    rw [hm]
  have hexec : exec (.putArrive n vc) s =
      .next (s.withBoth (s.sys.inDrop n vc) ((putEnd s.sys m c p).unitDone (headKey c.id n vc))).settle := by
    show execPutArrive n vc s = _
    unfold execPutArrive
    refine onHead_takes hhead (m' := putEnd s.sys m c p) ?_
    dsimp only
    rw [hbody]
    dsimp only
    rw [hcomm]
    dsimp only
    rw [hp, hstep]
    exact headDo_ok n vc _ hfault
  obtain ⟨hemem, hout, hctr⟩ := putEnd_spec (y := s.sys) m (c := c) (p := p) hbad (by rw [← hp]; exact hsrc)
  obtain ⟨hin, hother⟩ := put_wf_read loc bs hwf
  have hread : (putEnd s.sys m c p).mem = s.mach.mem.put loc bs := hemem.trans hmem
  refine ⟨_, hexec, inDrop_taken hhead _, ?_, ?_, ?_⟩
  · exact ⟨fun i hi => (congrArg (fun mem : Memory => mem.read (loc + i)) hread).trans (hin i hi),
      fun b hb => (congrArg (fun mem : Memory => mem.read b) hread).trans (hother b hb)⟩
  · show (putEnd s.sys m c p).out = _
    rw [hout, hcid, hrank, ← hp, hframe]
  · show ((putEnd s.sys m c p).ctr c.rcb rctr).val % 2 ^ 32 = _
    rw [← hp] at hctr
    rw [← hp]
    refine hctr.trans ?_
    rw [hframe]
    rfl

/-! ### Elements of a put with a reduction -/

theorem toBytes_length (k : Nat) : ∀ n, (toBytes n k).length = k := by
  induction k with
  | zero => intro n; rfl
  | succ k ih => intro n; rw [toBytes, List.length_cons, ih]

theorem memBytes_length (mem : Memory) (n : Nat) : ∀ a, (mem.bytes a n).length = n := by
  induction n with
  | zero => intro a; rfl
  | succ n ih => intro a; rw [Memory.bytes, List.length_cons, ih]

theorem bytes_length (m : Mach) (a n : Nat) : (m.bytes a n).length = n := by
  unfold Mach.bytes
  split
  · rw [List.length_map, List.length_range]
  · exact memBytes_length _ _ _

theorem redBytes_length (ty red n : Nat) : ∀ {a b res : List Byte}, redBytes ty red n a b = .ok res → res.length = n * elemBytes ty := by
  induction n with
  | zero =>
    intro a b res h
    cases h
    simp
  | succ n ih =>
    intro a b res h
    rw [redBytes] at h
    cases hv : redElem ty red (ofBytes (a.take (elemBytes ty))) (ofBytes (b.take (elemBytes ty))) with
    | error c =>
      rw [hv] at h
      cases h
    | ok v =>
      rw [hv] at h
      dsimp only at h
      cases hr : redBytes ty red n (a.drop (elemBytes ty)) (b.drop (elemBytes ty)) with
      | error c =>
        rw [hr] at h
        cases h
      | ok r =>
        rw [hr] at h
        cases h
        rw [List.length_append, toBytes_length, ih hr, Nat.succ_mul, Nat.add_comm]

/-- One element combined is one element long. -/
theorem combine_one {ty red : Nat} {a b res : List Byte} (h : combine ty red a b = .ok res) (ha : a.length = elemBytes ty) :
    res.length = elemBytes ty := by
  have hlen := redBytes_length ty red _ h
  rw [ha] at hlen
  rcases Nat.eq_zero_or_pos (elemBytes ty) with hz | hz
  · rw [hlen, hz, Nat.mul_zero]
  · rw [hlen, Nat.div_self hz, Nat.one_mul]

theorem eccFix_frame (m : Mach) (core loc len : Nat) : ∃ es sc, m.eccFix core loc len = { m with eccSingle := es, secnt := sc } := by
  unfold Mach.eccFix
  dsimp only
  split
  · exact ⟨m.eccSingle, m.secnt, rfl⟩
  · exact ⟨_, _, rfl⟩

/-- A read that the engine corrects keeps all but the note of errors and their count. -/
theorem collFix_frame (y : Sys) (m : Mach) (eff : Eff) (key va len : Nat) :
    ∃ es sc, m.collFix y eff key va len = { m with eccSingle := es, secnt := sc } := by
  unfold Mach.collFix
  split
  · rename_i l h
    clear h
    generalize l.filter (fun p => !m.away p.loc) = l
    induction l generalizing m with
    | nil => exact ⟨m.eccSingle, m.secnt, rfl⟩
    | cons a l ih =>
      obtain ⟨e1, s1, h1⟩ := eccFix_frame m portCore a.loc a.len
      obtain ⟨e2, s2, h2⟩ := ih (m.eccFix portCore a.loc a.len)
      exact ⟨e2, s2, by rw [List.foldl_cons, h2, h1]⟩
  · exact ⟨m.eccSingle, m.secnt, rfl⟩

theorem sound_range {s : State} {loc : Nat} (h : Sound s) (hmap : s.mach.mapped loc = false) (n : Nat) : badRange s.mach loc n = false := by
  obtain ⟨hdouble, -, -⟩ := h
  unfold badRange Mach.eccBad
  rw [hmap, Bool.false_and, Bool.or_false, hdouble]
  exact List.any_eq_false.2 fun w _ => by simp

/-- An element that combines, at one piece of this device. -/
theorem putElem_near {s : State} {c : Comm} {key stamp va ty red loc attr : Nat} {v res : List Byte} (hsound : Sound s)
    (hmap : s.mach.mapped loc = false) (hrem : isRem loc = false)
    (hrange : collRange s.sys s.mach c.eff key va v.length .rw = .ok [⟨va, loc, v.length, attr⟩])
    (hcomb : combine ty red (s.mach.bytes loc v.length) v = .ok res) :
    putElem s.sys s.mach c key stamp va ty red v =
      .ok ((s.mach.collFix s.sys c.eff key va v.length).collPutBytes [⟨va, loc, v.length, attr⟩] c.eff.race stamp res) := by
  unfold putElem
  rw [hrange]
  dsimp only [CRes.andThen]
  have hgood : ([⟨va, loc, v.length, attr⟩] : List CLoc).find? (fun a => !s.mach.away a.loc && badRange s.mach a.loc a.len) = none := by
    rw [List.find?_eq_none]
    intro a ha
    rw [List.mem_singleton.1 ha]
    dsimp only
    rw [sound_range hsound hmap, Bool.and_false]
    decide
  rw [hgood]
  dsimp only
  have hbytes : ([⟨va, loc, v.length, attr⟩] : List CLoc).flatMap (fun a => s.mach.bytes a.loc a.len) = s.mach.bytes loc v.length :=
    List.append_nil _
  rw [hbytes, hcomb]
  dsimp only
  rw [farWrite_near _ _ _ _ _ hmap hrem]

theorem putArrive_combines (n vc : Nat) (x : Msg) (cid rank frm eid k dst red ty : Nat) (last rsig : Bool) (rctr : Nat) (bs res : List Byte)
    (c : Comm) (loc attr : Nat) :
    let i := look 0 c.elems (8 * n + vc)
    let z := elemBytes ty
    let el := (bs.drop (z * i)).take z
    StepsTo (.putArrive n vc)
      (fun s => Heads s n vc x ∧ x.body = .put cid rank frm eid k dst red ty last rsig rctr bs ∧ red ≠ 0 ∧ z * (i + 1) < bs.length ∧
        s.mach.comm? cid rank = some c ∧ c.fault = none ∧ Sound s ∧ s.mach.mapped loc = false ∧ isRem loc = false ∧
        collRange s.sys s.mach c.eff (headKey c.id n vc) (dst + z * i) z .rw = .ok [⟨dst + z * i, loc, z, attr⟩] ∧
        combine ty red (s.mach.bytes loc z) el = .ok res)
      fun s t => t.sys = { s.sys with irq := t.sys.irq, cports := t.sys.cports, seFired := t.sys.seFired } ∧ Stored s t loc res ∧
        ∃ c', t.mach.comm? cid rank = some c' ∧ look 0 c'.elems (8 * n + vc) = i + 1 := by
  dsimp only
  rintro s - ⟨hhead, hbody, hred, hmore, hcomm, hfault, hsound, hmap, hrem, hrange, hcomb⟩
  generalize hi : look 0 c.elems (8 * n + vc) = i at hmore hrange hcomb
  generalize hz : elemBytes ty = z at hmore hrange hcomb
  generalize hel : (bs.drop (z * i)).take z = el at hcomb
  have hellen : el.length = z := by
    rw [← hel, List.length_take, List.length_drop]
    have := Nat.mul_add z i 1
    omega
  have hreslen : res.length = z := by
    rw [← hz] at hcomb ⊢
    exact combine_one hcomb (bytes_length _ _ _)
  have helem := putElem_near (c := c) (key := headKey c.id n vc) (stamp := outStamp) (va := dst + z * i) (attr := attr) hsound hmap hrem
    (by rw [hellen]; exact hrange) (by rw [hellen]; exact hcomb)
  rw [hellen] at helem
  obtain ⟨es, sc, hfix⟩ := collFix_frame s.sys s.mach c.eff (headKey c.id n vc) (dst + z * i) z
  rw [hfix] at helem
  obtain ⟨hframe, hmem⟩ := collPutBytes_one (m := { s.mach with eccSingle := es, secnt := sc }) (dst + z * i) attr c.eff.race outStamp res
    hmap hrem
  rw [hreslen] at hframe hmem
  generalize ({ s.mach with eccSingle := es, secnt := sc } : Mach).collPutBytes [⟨dst + z * i, loc, z, attr⟩] c.eff.race outStamp res = m
    at helem hframe hmem
  have hstep : putStep s.sys s.mach c (headKey c.id n vc) (8 * n + vc) ⟨frm, x.src, eid, k, dst, red, ty, last, rsig, rctr, bs⟩ =
      .ok (m.setComm { c with elems := put c.elems (8 * n + vc) (i + 1) }, false) := by
    unfold putStep
    rw [if_neg hred]
    dsimp only
    rw [hi, hz, hel, helem]
    dsimp only [CRes.andThen]
    rw [if_pos hmore]
  have hexec : exec (.putArrive n vc) s =
      .next (s.withMach ((m.setComm { c with elems := put c.elems (8 * n + vc) (i + 1) }).unitDone (headKey c.id n vc))).settle := by
    show execPutArrive n vc s = _
    unfold execPutArrive
    refine onHead_leaves hhead ?_
    dsimp only
    rw [hbody]
    dsimp only
    rw [hcomm]
    dsimp only
    rw [hstep]
    dsimp only
    rw [hfault]
    rfl
  obtain ⟨hin, hother⟩ := put_wf_read loc res hsound.2.2
  refine ⟨_, hexec, ?_, ?_, { c with elems := put c.elems (8 * n + vc) (i + 1) }, ?_, ?_⟩
  · obtain ⟨cp, q, h, hsys⟩ := settle_sys
      (s.withMach ((m.setComm { c with elems := put c.elems (8 * n + vc) (i + 1) }).unitDone (headKey c.id n vc)))
    rw [hsys]
    rfl
  · exact ⟨fun j hj => (congrArg (fun mem : Memory => mem.read (loc + j)) hmem).trans (hin j hj),
      fun b hb => (congrArg (fun mem : Memory => mem.read b) hmem).trans (hother b hb)⟩
  · have hc : m.comm? cid rank = some c := by
      rw [hframe]
      exact hcomm
    exact comm?_setComm hc rfl rfl rfl
  · exact (look_put _ _ _ _ _).trans (if_pos rfl)

/-! ### Tokens -/

theorem completionTokenArrive_keeps (n : Nat) (x : Msg) (cid rank frm k : Nat) (c : Comm) : StepsTo (.completionTokenArrive n)
    (fun s => Heads s n 0 x ∧ x.body = .token cid rank frm k ∧ s.mach.comm? cid rank = some c)
    fun s t => Taken s t n 0 x ∧ MemoryKept s t ∧ ∃ c', t.mach.comm? cid rank = some c' ∧ (frm, k) ∈ c'.acked ∧
      ∀ p, p ≠ (frm, k) → (p ∈ c'.acked ↔ p ∈ c.acked) := by
  rintro s - ⟨hhead, hbody, hcomm⟩
  have hack : ∃ l, c.ack frm k = { c with acked := l } ∧ (frm, k) ∈ l ∧ ∀ p, p ≠ (frm, k) → (p ∈ l ↔ p ∈ c.acked) := by
    unfold Comm.ack
    by_cases hin : c.acked.contains (frm, k) = true
    · rw [if_pos hin]
      exact ⟨c.acked, rfl, List.contains_iff_mem.1 hin, fun _ _ => Iff.rfl⟩
    · rw [if_neg hin]
      exact ⟨_, rfl, List.mem_append_right _ List.mem_cons_self, fun p hp => by simp [hp]⟩
  obtain ⟨l, hl, hin, hother⟩ := hack
  have hexec : exec (.completionTokenArrive n) s = .next (s.withBoth (s.sys.inDrop n 0) (s.mach.setComm (c.ack frm k))).settle := by
    show execCompletionTokenArrive n s = _
    unfold execCompletionTokenArrive
    refine onArrival_takes hhead ?_
    rw [hbody]
    dsimp only
    rw [hcomm]
    rfl
  refine ⟨_, hexec, inDrop_taken hhead _, fun _ => rfl, c.ack frm k, comm?_setComm hcomm (by rw [hl]) (by rw [hl]) (by rw [hl]), ?_⟩
  rw [hl]
  exact ⟨hin, hother⟩

theorem ringTokenArrive_keeps (n : Nat) (x : Msg) (cid rank frm seq k : Nat) (c : Comm) : StepsTo (.ringTokenArrive n)
    (fun s => Heads s n 0 x ∧ x.body = .ringTok cid rank frm seq k ∧ s.mach.comm? cid rank = some c ∧ ∀ f ∈ c.failed, f.1 ≠ seq)
    fun s t => Taken s t n 0 x ∧ MemoryKept s t ∧ ∃ c', t.mach.comm? cid rank = some c' ∧ c'.toks = c.toks ++ [(seq, k)] := by
  rintro s - ⟨hhead, hbody, hcomm, hfailed⟩
  have hexec : exec (.ringTokenArrive n) s = .next (s.withBoth (s.sys.inDrop n 0) (s.mach.setComm { c with toks := c.toks ++ [(seq, k)] })).settle := by
    show execRingTokenArrive n s = _
    unfold execRingTokenArrive
    refine onArrival_takes hhead ?_
    rw [hbody]
    dsimp only
    rw [hcomm, Option.map_some, if_neg (not_failed hfailed)]
  exact ⟨_, hexec, inDrop_taken hhead _, fun _ => rfl, _, comm?_setComm hcomm rfl rfl rfl, rfl⟩

/-- The machine of a settled state after a step that has fired nothing. -/
theorem settled_mach {s : State} {m : Mach} (hs : Settled s) (hf : m.fired = s.mach.fired) (hc : m.cxlErrs = s.mach.cxlErrs) :
    ({ m with fired := [], cxlErrs := [] } : Mach) = m := by
  have hkeep : ∀ a b, a = m.fired → b = m.cxlErrs → ({ m with fired := a, cxlErrs := b } : Mach) = m := by
    rintro _ _ rfl rfl
    rfl
  exact hkeep _ _ (hf.trans hs.1).symm (hc.trans hs.2.1).symm

theorem tokenRefused_goesBack (n : Nat) (x : Msg) (cid rank frm k : Nat) : StepsTo (.tokenRefused n)
    (fun s => Heads s n 0 x ∧ x.body = .token cid rank frm k ∧ s.mach.comm? cid rank = none)
    fun s t => Taken s t n 0 x ∧ t.mach = { s.mach with
      out := s.mach.out ++ [⟨s.sys.devid, x.src, 0, 0, .refused cid frm rank 0 0 k⟩] } := by
  rintro s hs ⟨hhead, hbody, hnone⟩
  have hexec : exec (.tokenRefused n) s = .next (s.withBoth (s.sys.inDrop n 0) (s.mach.say s.sys x.src 0 0 (.refused cid frm rank 0 0 k))).settle := by
    show execTokenRefused n s = _
    unfold execTokenRefused
    refine onArrival_takes hhead ?_
    rw [hbody]
    dsimp only
    rw [hnone]
    rfl
  exact ⟨_, hexec, inDrop_taken hhead _, settled_mach hs rfl rfl⟩

theorem tokenRefused_kept (n : Nat) (x : Msg) (cid rank back seq circuit k : Nat) (c : Comm) : StepsTo (.tokenRefused n)
    (fun s => Heads s n 0 x ∧ x.body = .refused cid rank back seq circuit k ∧ s.mach.comm? cid rank = some c)
    fun s t => Taken s t n 0 x ∧ MemoryKept s t ∧ ∃ c', t.mach.comm? cid rank = some c' ∧
      c'.kept = c.kept ++ [⟨x.src, back, seq, circuit, k, s.sys.ticks + 100⟩] := by
  rintro s - ⟨hhead, hbody, hcomm⟩
  have hexec : exec (.tokenRefused n) s = .next (s.withBoth (s.sys.inDrop n 0) (s.mach.setComm { c with kept := c.kept ++ [⟨x.src, back, seq, circuit, k, s.sys.ticks + 100⟩] })).settle := by
    show execTokenRefused n s = _
    unfold execTokenRefused
    refine onArrival_takes hhead ?_
    rw [hbody]
    dsimp only
    rw [hcomm]
  exact ⟨_, hexec, inDrop_taken hhead _, fun _ => rfl, _, comm?_setComm hcomm rfl rfl rfl, rfl⟩

theorem tokenResend_sends (c : Comm) (r : KeptTok) : StepsTo (.tokenResend 0)
    (fun s => s.mach.comms = [c] ∧ c.kept = [r] ∧ r.circuit = 0 ∧ r.dev ≠ s.sys.devid ∧ r.at_ ≤ s.sys.ticks)
    fun s t => MemoryKept s t ∧ t.mach.comms = [{ c with kept := [] }] ∧
      t.mach.out = s.mach.out ++ [⟨s.sys.devid, r.dev, 0, 0, .token c.cid r.rank c.rank r.c⟩] := by
  rintro s - ⟨hcomms, hkept, hcirc, hdev, hat⟩
  have hexec : exec (.tokenResend 0) s = .next (s.withMach ((s.mach.setComm { c with kept := [] }).say s.sys r.dev 0 0
      (.token c.cid r.rank c.rank r.c))).settle := by
    show execTokenResend 0 s = _
    unfold execTokenResend onMach
    dsimp only
    rw [hcomms]
    have hall : ([c].flatMap fun (c : Comm) => c.kept.map fun t => (c, t)) = [(c, r)] := by
      rw [List.flatMap_cons, hkept]
      rfl
    rw [hall]
    show Host.Outcome.next (State.settle (s.withMach (if s.sys.ticks < r.at_ then s.mach else
      (s.mach.setComm { c with kept := c.kept.erase r }).sendTok s.sys { c with kept := c.kept.erase r } r))) = _
    rw [if_neg (Nat.not_lt.2 hat), sendTok_far _ _ hdev, if_pos hcirc, hkept, List.erase_cons_head]
  exact ⟨_, hexec, fun _ => rfl, setComm_single hcomms rfl, rfl⟩

/-! ### Failures -/

theorem collFailureArrive_put (n : Nat) (x : Msg) (cid rank cause : Nat) (e : CollEnt) : StepsTo (.collFailureArrive n)
    (fun s => Heads s n 0 x ∧ x.body = .putFail cid rank e.eid cause ∧ s.mach.coll? e.eid = some e ∧ (e.op = 0x01 ∨ e.op = 0x02) ∧
      cause ≠ 0)
    fun s t => Taken s t n 0 x ∧ EntryGone s t e cause := by
  rintro s - ⟨hhead, hbody, hcoll, hop, -⟩
  have hexec : exec (.collFailureArrive n) s = .next (s.withBoth (s.sys.inDrop n 0) (s.mach.collEnd e cause)).settle := by
    show execCollFailureArrive n s = _
    unfold execCollFailureArrive
    refine onArrival_takes hhead ?_
    rw [hbody]
    dsimp only
    rw [hcoll]
    dsimp only
    rw [if_pos hop]
  exact ⟨_, hexec, inDrop_taken hhead _, collEnd_gone (s := s) e cause (fun _ => rfl) rfl rfl⟩

/-- A failure of a SEQ whose CID is not open here. -/
theorem failSeq_closed {y : Sys} {m : Mach} {cid : Nat} (seq cause : Nat) (h : ∀ c ∈ m.comms, c.cid ≠ cid) :
    m.failSeq y cid seq cause = m := by
  unfold Mach.failSeq
  rw [List.filter_eq_nil_iff.2 fun c hc => by simpa using h c hc]
  rfl

theorem collFailureArrive_closed (n : Nat) (x : Msg) (cid rank seq cause : Nat) {s : State} {m : Mach} (hs : Settled s)
    (hhead : Heads s n 0 x) (hbody : x.body = .failure cid rank seq cause) (hnone : ∀ c ∈ s.mach.comms, c.cid ≠ cid)
    (hm : (if s.mach.isPast cid seq = true then s.mach else { s.mach with lateFails := s.mach.lateFails ++ [(cid, seq, cause)] }) = m) :
    exec (.collFailureArrive n) s = .next (s.withBoth (s.sys.inDrop n 0) m) := by
  have hfree : s.mach.comm? cid rank = none := List.find?_eq_none.2 fun c hc => by simp [hnone c hc]
  have hquiet : m.fired = s.mach.fired ∧ m.cxlErrs = s.mach.cxlErrs ∧ m.secnt = s.mach.secnt := by
    rw [← hm]
    split <;> exact ⟨rfl, rfl, rfl⟩
  obtain ⟨q, hq, -⟩ := inDrop_spec hhead.2.1
  have hexec : exec (.collFailureArrive n) s = .next (s.withBoth (s.sys.inDrop n 0) (m)).settle := by
    show execCollFailureArrive n s = _
    unfold execCollFailureArrive
    refine onArrival_takes hhead ?_
    rw [hbody]
    dsimp only
    rw [failSeq_closed seq cause hnone, hfree, ← hm]
    rfl
  exact hexec.trans (congrArg _ (settle_both_quiet hs hquiet.1 hquiet.2.1 hquiet.2.2 (by rw [hq]; rfl) (by rw [hq]; rfl)))

theorem tokenResend_tells (c : Comm) (seq cause : Nat) (rest : List (Nat × Nat)) (dev : Nat) : StepsTo (.tokenResend 0)
    (fun s => s.mach.comms = [c] ∧ c.kept = [] ∧ c.untold = (seq, cause) :: rest ∧ c.fault = none ∧ c.succDev = some dev ∧
      dev ≠ s.sys.devid)
    fun s t => MemoryKept s t ∧ t.mach.comms = [{ c with untold := rest }] ∧
      t.mach.out = s.mach.out ++ [⟨s.sys.devid, dev, 0, 0, .failure c.cid ((c.rank + 1) % c.nrank) seq cause⟩] := by
  rintro s - ⟨hcomms, hkept, huntold, hfault, hsucc, hdev⟩
  have htell : s.mach.tellNext s.sys c = ((s.mach.setComm { c with untold := rest }).say s.sys dev 0 0
      (.failure c.cid ((c.rank + 1) % c.nrank) seq cause)).unitDone (headKey c.id fabricPorts 0) := by
    have hread : succRead s.sys s.mach c = .ok dev := by
      unfold succRead
      rw [hsucc]
    unfold Mach.tellNext
    rw [huntold]
    dsimp only
    rw [hread]
    dsimp only [CRes.andThen]
    rw [headDo_ok fabricPorts 0 _ hfault]
    unfold Mach.tell
    rw [if_neg hdev]
    rfl
  have hexec : exec (.tokenResend 0) s = .next (s.withMach (s.mach.tellNext s.sys c)).settle := by
    show execTokenResend 0 s = _
    unfold execTokenResend onMach
    dsimp only
    rw [hcomms]
    have hall : ([c].flatMap fun (c : Comm) => c.kept.map fun t => (c, t)) = [] := by
      rw [List.flatMap_cons, hkept]
      rfl
    have hwait : ([c].filter fun c => c.untold != []) = [c] := by
      rw [List.filter_cons, huntold]
      rfl
    rw [hall, hwait]
    rfl
  rw [htell] at hexec
  have hmem : (((s.mach.setComm { c with untold := rest }).say s.sys dev 0 0 (.failure c.cid ((c.rank + 1) % c.nrank) seq cause)).unitDone
      (headKey c.id fabricPorts 0)).mem = s.mach.mem := rfl
  exact ⟨_, hexec, fun a => congrArg (fun mem : Memory => mem.read a) hmem, setComm_single hcomms rfl, rfl⟩

/-- A communicator as a failure of a SEQ leaves it. -/
def Comm.fails (c : Comm) (seq cause : Nat) : Comm :=
  { c with failed := c.failed ++ [(seq, cause)], toks := c.toks.filter fun t => t.1 != seq }

theorem ringEnt?_setComm (m : Mach) (c c' : Comm) (seq : Nat) : (m.setComm c').ringEnt? c seq = m.ringEnt? c seq := rfl

/-- A SEQ without chunks and without a started entry that fails at the one rank that is open here. -/
theorem failRank_idle {y : Sys} {m : Mach} {c : Comm} {seq : Nat} (cause : Nat) (hcomms : m.comms = [c]) (hfailed : ∀ f ∈ c.failed, f.1 ≠ seq)
    (hchunks : ∀ k ∈ c.chunks, k.seq ≠ seq) (hent : m.ringEnt? c seq = none) :
    (m.failRank y seq cause c).mem = m.mem ∧ ∃ u, (m.failRank y seq cause c).comms = [{ c.fails seq cause with untold := u }] := by
  have hnone : (c.chunks.filter fun k => k.seq == seq) = [] := List.filter_eq_nil_iff.2 fun k hk => by simpa using hchunks k hk
  have hset : (m.setComm (c.fails seq cause)).comms = [c.fails seq cause] := setComm_single hcomms rfl
  unfold Mach.failRank
  rw [if_neg (not_failed hfailed)]
  dsimp only
  rw [hnone, List.foldl_nil, ringEnt?_setComm, hent]
  dsimp only
  rw [show (m.setComm { c with failed := c.failed ++ [(seq, cause)], toks := c.toks.filter fun t => t.1 != seq }) =
    m.setComm (c.fails seq cause) from rfl,
    show (m.setComm (c.fails seq cause)).comm? c.cid c.rank = some (c.fails seq cause) from comm?_single hset]
  cases succRead y (m.setComm (c.fails seq cause)) c with
  | ok d =>
    dsimp only
    unfold Mach.tell
    split <;> exact ⟨rfl, c.untold, hset⟩
  | bad k pa => exact ⟨rfl, c.untold, hset⟩
  | wait => exact ⟨rfl, _, setComm_single hset rfl⟩
  | post d va k kd l w => exact ⟨rfl, _, setComm_single hset rfl⟩
  | far d k va loc wr => exact ⟨rfl, _, setComm_single hset rfl⟩

theorem collFailureArrive_fails (n : Nat) (x : Msg) (seq cause : Nat) (c : Comm) : StepsTo (.collFailureArrive n)
    (fun s => Heads s n 0 x ∧ x.body = .failure c.cid c.rank seq cause ∧ s.mach.comms = [c] ∧ (∀ f ∈ c.failed, f.1 ≠ seq) ∧
      (∀ k ∈ c.chunks, k.seq ≠ seq) ∧ s.mach.ringEnt? c seq = none)
    fun s t => Taken s t n 0 x ∧ MemoryKept s t ∧ ∃ c', t.mach.comms = [c'] ∧ c'.failed = c.failed ++ [(seq, cause)] ∧
      ∀ k, k ∈ c'.toks ↔ k ∈ c.toks ∧ k.1 ≠ seq := by
  rintro s - ⟨hhead, hbody, hcomms, hfailed, hchunks, hent⟩
  obtain ⟨hmem, u, hleft⟩ := failRank_idle (y := s.sys) cause hcomms hfailed hchunks hent
  have hseq : s.mach.failSeq s.sys c.cid seq cause = s.mach.failRank s.sys seq cause c := by
    unfold Mach.failSeq
    rw [hcomms, List.filter_cons, if_pos (beq_self_eq_true c.cid), List.filter_nil, List.foldl_cons, comm?_single hcomms]
    rfl
  have hopen : ((s.mach.failRank s.sys seq cause c).comm? c.cid c.rank).isSome = true := by
    rw [show (s.mach.failRank s.sys seq cause c).comm? c.cid c.rank = some { c.fails seq cause with untold := u } from comm?_single hleft]
    rfl
  have hexec : exec (.collFailureArrive n) s = .next (s.withBoth (s.sys.inDrop n 0) (s.mach.failRank s.sys seq cause c)).settle := by
    show execCollFailureArrive n s = _
    unfold execCollFailureArrive
    refine onArrival_takes hhead ?_
    rw [hbody]
    dsimp only
    rw [hseq, hopen, Bool.true_or, if_pos rfl]
  refine ⟨_, hexec, inDrop_taken hhead _, fun a => congrArg (fun mem : Memory => mem.read a) hmem, _, hleft, rfl, fun k => ?_⟩
  show k ∈ c.toks.filter (fun t => t.1 != seq) ↔ _
  simp

/-- Settles O44, step by step. -/
theorem collectiveArrivals : Obligations.CollectiveArrivals := by
  unfold Obligations.CollectiveArrivals
  refine ⟨chunkArrive_queues, chunkArrive_parks, chunkWait_stays, putArrive_writes, putArrive_combines, completionTokenArrive_keeps,
    ringTokenArrive_keeps, tokenRefused_goesBack, tokenRefused_kept, tokenResend_sends, collFailureArrive_put,
    fun n x cid rank seq cause s hs h => ?_, tokenResend_tells, fun n x cid rank seq cause s hs h => ?_, collFailureArrive_fails⟩
  · obtain ⟨hhead, hbody, hnone, hpast⟩ := h
    exact collFailureArrive_closed n x cid rank seq cause hs hhead hbody hnone (if_pos hpast)
  · obtain ⟨hhead, hbody, hnone, hpast⟩ := h
    exact collFailureArrive_closed n x cid rank seq cause hs hhead hbody hnone (if_neg (by rw [hpast]; decide))

end Sys2Proof.Machine
end

section
/-! SUPPORT. Turns of the collective sequencer: what each sends (spec/01 R57-R64, spec/22 R447). -/

namespace Sys2Proof.Machine

/-! ### The pick -/

theorem minBy_mem {α : Type} {lt : α → α → Bool} {a : α} (l : List α) (h : minBy lt l = some a) : a ∈ l := by
  induction l generalizing a with
  | nil => cases h
  | cons b l ih =>
    rw [minBy] at h
    cases hm : minBy lt l with
    | none =>
      rw [hm] at h
      cases h
      exact List.mem_cons_self
    | some u =>
      rw [hm] at h
      dsimp only at h
      split at h
      · cases h
        exact List.mem_cons_of_mem _ (ih hm)
      · cases h
        exact List.mem_cons_self

/-- The entry whose turn it is has something to do. -/
theorem hasTurn_turning {s : State} {e : CollEnt} {c : Comm} (h : HasTurn s e c) : (s.mach.turning s.sys e).isSome = true := by
  obtain ⟨-, -, -, hpick, helem, -, -, -⟩ := h
  unfold Mach.collPick at hpick
  split at hpick
  · rename_i u hu
    cases hpick
    have := List.find?_some hu
    simp [helem] at this
  · have hmem := (List.mem_filter.1 (minBy_mem _ hpick)).2
    exact (Bool.and_eq_true_iff.1 hmem).2

/-- A turn of the sequencer of the entry's port, or a step of an entry of its operation. -/
def TurnOf (s : State) (e : CollEnt) (i : Instr) : Prop := i = .chunkSend e.port ∨ exec i s = onMach (fun y m => m.opTurn y e.op e.eid) s

theorem turn_serves {s : State} {e : CollEnt} {c : Comm} {i : Instr} (h : HasTurn s e c) (hi : TurnOf s e i) :
    exec i s = .next (s.withMach (s.mach.serveEnt s.sys e)).settle := by
  obtain ⟨hcoll, -, -, hpick, -, -, -, -⟩ := h
  rcases hi with hi | hi
  · rw [hi]
    show execChunkSend e.port s = _
    unfold execChunkSend onMach
    dsimp only
    rw [hpick]
    rfl
  · rw [hi]
    unfold onMach Mach.opTurn
    dsimp only
    rw [hcoll]
    dsimp only
    rw [hpick, if_pos ⟨rfl, beq_self_eq_true _⟩]
    rfl

/-- A chunk turn as something to do: nothing while its accesses wait. -/
def chunkTurning (y : Sys) (m : Mach) (e : CollEnt) (c : Comm) (st : CStep) : Option Turning :=
  if (chunkTurn y m e c st).waits m = true then none else some (.chunk (chunkTurn y m e c st))

/-- What is to be parked, as something to do. -/
def parkTurning (y : Sys) (m : Mach) (e : CollEnt) (c : Comm) : Option Turning :=
  match (if isRingOp e.op = true then m.toPark y e c else none) with
  | some a =>
    let r := (reserveAt y m (m.eff e.launch) c a.c a.len).andThen fun l => .ok (m.parkIn c a l e.stamp)
    if r.waits m = true then none else some (.park r)
  | none => none

/-- An entry with its turn: a token for a barrier, else a chunk, else one to park. -/
theorem turning_of {s : State} {e : CollEnt} {c : Comm} (h : HasTurn s e c) (h30 : e.op ≠ 0x30) (h31 : e.op ≠ 0x31) :
    s.mach.turning s.sys e = if e.op = 0x14 then (s.mach.readyTok s.sys e c).map .tok
      else match (s.mach.readyStep s.sys e c).bind (chunkTurning s.sys s.mach e c) with
        | some t => some t
        | none => parkTurning s.sys s.mach e c := by
  obtain ⟨-, hcomm, hfault, -, -, hpath, -, -⟩ := h
  unfold Mach.turning
  rw [hfault, if_neg (by decide), hcomm]
  dsimp only
  rw [if_neg (by simp [h30, h31]), if_neg (not_not.2 hpath)]
  rfl

/-! ### Chunks of the entry itself -/

/-- The step of an entry's own next chunk. -/
def CollEnt.nextStep (e : CollEnt) : CStep := e.ownStep e.own

theorem first_none {c : Comm} {seq : Nat} (h : ∀ a ∈ c.chunks, a.seq ≠ seq) : c.first seq = none := by
  unfold Comm.first
  rw [List.filter_eq_nil_iff.2 fun a ha => by simpa using h a ha]
  rfl

/-- An entry that has no chunk of another rank to go on with serves its own next one. -/
theorem serves_own {s : State} {e : CollEnt} {c : Comm} (h : HasTurn s e c) (h30 : e.op ≠ 0x30) (h31 : e.op ≠ 0x31) (h14 : e.op ≠ 0x14)
    (hchunks : isRingOp e.op = true → ∀ a ∈ c.chunks, a.seq ≠ e.seq) :
    s.mach.serveEnt s.sys e = s.mach.collDo s.sys e (chunkTurn s.sys s.mach e c e.nextStep) := by
  have hsome := hasTurn_turning h
  have hturn := turning_of h h30 h31
  rw [if_neg h14] at hturn
  have hready : s.mach.readyStep s.sys e c = some e.nextStep ∨ s.mach.readyStep s.sys e c = none := by
    unfold Mach.readyStep
    dsimp only
    have hfirst : (if isRingOp e.op = true then c.first e.seq else none) = none := by
      split
      · rename_i hring
        exact first_none (hchunks hring)
      · rfl
    rw [hfirst]
    dsimp only
    split
    · exact .inl rfl
    · exact .inr rfl
  have hpark : parkTurning s.sys s.mach e c = none := by
    have hnone : (if isRingOp e.op = true then s.mach.toPark s.sys e c else none) = none := by
      split
      · rename_i hring
        unfold Mach.toPark
        split
        · rfl
        · exact List.find?_eq_none.2 fun a ha => by simp [hchunks hring a ha]
      · rfl
    unfold parkTurning
    rw [hnone]
  rw [hpark] at hturn
  have hserve : s.mach.turning s.sys e = some (.chunk (chunkTurn s.sys s.mach e c e.nextStep)) := by
    rcases hready with hr | hr
    · rw [hr, Option.bind_some] at hturn
      unfold chunkTurning at hturn
      split at hturn
      · rename_i t ht
        split at ht
        · cases ht
        · rw [hturn, ← ht]
      · rw [hturn] at hsome
        cases hsome
    · rw [hr] at hturn
      rw [hturn] at hsome
      cases hsome
  unfold Mach.serveEnt
  rw [hserve]

/-! ### What goes to the successor -/

/-- A communicator with one more chunk sent to a rank. -/
def Comm.placed (c : Comm) (succ : Nat) : Comm :=
  { c with
    sent := put c.sent succ (look 0 c.sent succ + 1)
    acked := c.acked.filter fun a => !(a.1 == succ && a.2 + c.win == look 0 c.sent succ) }

/-- The message of a chunk, or of a piece of a put, to another device. -/
def chunkMsg (y : Sys) (e : CollEnt) (c : Comm) (t : Nat × Nat × Bool) (bs : List Byte) : Msg :=
  if isRingOp e.op = true then
    ⟨y.devid, e.sdev, 1, c.vc, .chunk e.cid e.succ e.seq (look 0 c.sent e.succ) t.1 t.2.1 t.2.2 e.red e.ty bs⟩
  else ⟨y.devid, e.sdev, if e.vcOf c = 0 then 0 else 1, e.vcOf c,
    .put e.cid e.succ e.rank e.eid (look 0 c.sent e.succ) (e.dst + t.2.1) e.red e.ty (decide (e.len ≤ t.2.1 + bs.length)) e.rsig e.rctr bs⟩

theorem sendChunk_far {y : Sys} (m : Mach) {e : CollEnt} (c : Comm) (t : Nat × Nat × Bool) (bs : List Byte) (hdev : e.sdev ≠ y.devid) :
    m.sendChunk y e c t bs = .ok { m.setComm (c.placed e.succ) with out := m.out ++ [chunkMsg y e c t bs] } := by
  unfold Mach.sendChunk chunkMsg
  dsimp only
  by_cases hring : isRingOp e.op = true
  · rw [if_pos hring, if_pos hdev, if_pos hring]
    rfl
  · rw [if_neg hring, if_pos hdev, if_neg hring]
    rfl

theorem coll?_setColl {m : Mach} {e e' : CollEnt} {i : Nat} (h : m.coll? i = some e) (hid : e'.eid = e.eid) : (m.setColl e').coll? i = some e' := by
  have hi : e.eid = i := by simpa using List.find?_some h
  have hfound := find?_replaced (k := CollEnt.eid) (c := e) (c' := e') (p := fun u : CollEnt => u.eid == i)
    (by rw [hid, hi, beq_self_eq_true]) m.colls h
  rw [← hid] at hfound
  exact hfound

/-- The entry as a chunk turn leaves it. -/
def CollEnt.turned (e : CollEnt) (st : CStep) (now : Nat) : CollEnt :=
  { e with
    own := if st.arr.isNone then e.own + 1 else e.own, sent := if st.send.isSome then e.sent + 1 else e.sent
    wrote := if st.dst.isSome then e.wrote + 1 else e.wrote, served := now, elem := 0 }

/-- The end of a turn that sends a chunk to another device, from the machine in which its bytes have been written and its chunk consumed. -/
theorem turn_sends {s : State} {m : Mach} {e : CollEnt} {c c1 : Comm} {st : CStep} {t : Nat × Nat × Bool} (bs : List Byte)
    (hcoll : m.coll? e.eid = some e) (hcomm : m.comm? e.cid e.rank = some c1) (hsent : c1.sent = c.sent)
    (hsend : st.send = some t) (hdev : e.sdev ≠ s.sys.devid) :
    ∃ m', ((m.setColl (e.turned st m.next)).take 1).sendChunk s.sys (e.turned st m.next) c1 t bs = .ok m' ∧ m'.mem = m.mem ∧
      m'.out = m.out ++ [chunkMsg s.sys e c1 t bs] ∧
      OneSent s (s.withMach (m'.unitDone (entKey e.eid))).settle e c (if st.arr.isNone then 1 else 0) (if st.dst.isSome then 1 else 0) := by
  refine ⟨_, sendChunk_far _ c1 t bs hdev, rfl, rfl, ⟨e.turned st m.next, ?_, ?_, ?_, ?_⟩, c1.placed e.succ, ?_, ?_⟩
  · exact coll?_setColl hcoll rfl
  · show (if st.send.isSome = true then e.sent + 1 else e.sent) = _
    rw [hsend]
    rfl
  · show (if st.arr.isNone = true then e.own + 1 else e.own) = _
    split <;> rfl
  · show (if st.dst.isSome = true then e.wrote + 1 else e.wrote) = _
    split <;> rfl
  · exact comm?_setComm (m := (m.setColl (e.turned st m.next)).take 1) hcomm rfl rfl rfl
  · show look 0 (put c1.sent e.succ (look 0 c1.sent e.succ + 1)) e.succ = _
    rw [look_put, if_pos rfl, hsent]

/-- The machine after a turn's bytes have been written, and after the chunk that it serves has been consumed. -/
def CStep.stored (st : CStep) (m : Mach) (e : CollEnt) (p : CPlan) : Mach :=
  if st.dst.isSome then m.collPutBytes p.dst (m.eff e.launch).race e.stamp p.data else m

def CStep.took (st : CStep) (y : Sys) (m : Mach) (c : Comm) : Mach := (st.arr.map fun a => m.consume y c a).getD m

/-- A turn whose step sends and whose bytes are there. -/
theorem chunkDone_sends {y : Sys} {m m2 : Mach} {e : CollEnt} {c c1 : Comm} {st : CStep} {t : Nat × Nat × Bool} {p : CPlan}
    (hsend : st.send = some t) (hm : st.took y (st.stored m e p) c = m2) (hcomm : m2.comm? e.cid e.rank = some c1) :
    chunkDone y m e c st p = ((m2.setColl (e.turned st m2.next)).take 1).sendChunk y (e.turned st m2.next) c1 t p.data := by
  have hdone : chunkDone y m e c st p = (match st.send with
      | none => .ok ((m2.setColl (e.turned st m2.next)).take 1)
      | some t => match m2.comm? e.cid e.rank with
        | some c => ((m2.setColl (e.turned st m2.next)).take 1).sendChunk y (e.turned st m2.next) c t p.data
        | none => .ok ((m2.setColl (e.turned st m2.next)).take 1)) := by
    rw [← hm]
    unfold CStep.took CStep.stored chunkDone CollEnt.turned
    cases st.arr <;> cases st.dst <;> rfl
  rw [hdone, hsend]
  dsimp only
  rw [hcomm]

/-- A chunk of its own that the entry sends without writing it. -/
theorem chunkTurn_own {s : State} {e : CollEnt} {c : Comm} {st : CStep} {t : Nat × Nat × Bool} {bs : List Byte} (h : HasTurn s e c)
    (harr : st.arr = none) (hright : st.right = none) (hdst : st.dst = none) (hsend : st.send = some t) (hred : e.red ≠ 4)
    (hread : collRead s.sys s.mach (s.mach.eff e.launch) (entKey e.eid) (e.src + st.src) st.len = .ok bs) :
    ∃ m', chunkTurn s.sys s.mach e c st = .ok m' ∧ m'.mem = s.mach.mem ∧ m'.out = s.mach.out ++ [chunkMsg s.sys e c t bs] ∧
      OneSent s (s.withMach (m'.unitDone (entKey e.eid))).settle e c 1 0 := by
  obtain ⟨hcoll, hcomm, -, -, -, -, hdev, -⟩ := h
  obtain ⟨es, sc, hfix⟩ := collFix_frame s.sys s.mach (s.mach.eff e.launch) (entKey e.eid) (e.src + st.src) st.len
  have hplan : chunkPlan s.sys s.mach e c st = .ok { data := bs } := by
    unfold chunkPlan
    dsimp only
    rw [harr, hright, hdst]
    dsimp only
    rw [hread]
    dsimp only [CRes.andThen]
    rw [if_neg hred]
  have hlocal : e.localRed s.sys = false := by
    unfold CollEnt.localRed
    rw [beq_false_of_ne hdev, Bool.and_false]
  have hturn : chunkTurn s.sys s.mach e c st = chunkDone s.sys { s.mach with eccSingle := es, secnt := sc } e c st { data := bs } := by
    unfold chunkTurn
    rw [hlocal, if_neg Bool.false_ne_true, hplan]
    dsimp only [CRes.andThen]
    rw [harr, hright]
    dsimp only
    rw [hfix]
  obtain ⟨m', hm', hmem, hout, hone⟩ := turn_sends (s := s) (m := { s.mach with eccSingle := es, secnt := sc }) (c := c) (c1 := c) (st := st)
    bs hcoll hcomm rfl hsend hdev
  rw [harr, hdst] at hone
  refine ⟨m', ?_, hmem, hout, hone⟩
  rw [hturn, chunkDone_sends (m2 := { s.mach with eccSingle := es, secnt := sc }) hsend
    (by unfold CStep.took CStep.stored; rw [harr, hdst]; rfl) hcomm]
  exact hm'

theorem not_local {s : State} {e : CollEnt} (hdev : e.sdev ≠ s.sys.devid) : e.localRed s.sys = false := by
  unfold CollEnt.localRed
  rw [beq_false_of_ne hdev, Bool.and_false]

/-- A chunk of its own that the entry writes to its result and sends. -/
theorem chunkTurn_writes {s : State} {e : CollEnt} {c : Comm} {st : CStep} {t : Nat × Nat × Bool} {bs : List Byte} {o loc attr : Nat}
    (h : HasTurn s e c) (harr : st.arr = none) (hright : st.right = none) (hdst : st.dst = some o) (hsend : st.send = some t)
    (hred : e.red ≠ 4) (hlen : bs.length = st.len) (hmap : s.mach.mapped loc = false) (hrem : isRem loc = false)
    (hread : collRead s.sys s.mach (s.mach.eff e.launch) (entKey e.eid) (e.src + st.src) st.len = .ok bs)
    (hrange : collRange s.sys s.mach (s.mach.eff e.launch) (entKey e.eid) (e.dst + o) st.len .w = .ok [⟨e.dst + o, loc, st.len, attr⟩]) :
    ∃ m', chunkTurn s.sys s.mach e c st = .ok m' ∧ m'.mem = s.mach.mem.put loc bs ∧ m'.out = s.mach.out ++ [chunkMsg s.sys e c t bs] ∧
      OneSent s (s.withMach (m'.unitDone (entKey e.eid))).settle e c 1 1 := by
  obtain ⟨hcoll, hcomm, -, -, -, -, hdev, -⟩ := h
  obtain ⟨es, sc, hfix⟩ := collFix_frame s.sys s.mach (s.mach.eff e.launch) (entKey e.eid) (e.src + st.src) st.len
  have hplan : chunkPlan s.sys s.mach e c st = .ok { data := bs, dst := [⟨e.dst + o, loc, st.len, attr⟩] } := by
    unfold chunkPlan
    dsimp only
    rw [harr, hright, hdst]
    dsimp only
    rw [hread]
    dsimp only [CRes.andThen]
    rw [if_neg hred]
    dsimp only
    rw [hrange]
    dsimp only
    rw [farWrite_near _ _ _ _ _ hmap hrem]
  have hturn : chunkTurn s.sys s.mach e c st =
      chunkDone s.sys { s.mach with eccSingle := es, secnt := sc } e c st { data := bs, dst := [⟨e.dst + o, loc, st.len, attr⟩] } := by
    unfold chunkTurn
    rw [not_local hdev, if_neg Bool.false_ne_true, hplan]
    dsimp only [CRes.andThen]
    rw [harr, hright]
    dsimp only
    rw [hfix]
  obtain ⟨hframe, hmem⟩ := collPutBytes_one (m := { s.mach with eccSingle := es, secnt := sc }) (e.dst + o) attr
    (s.mach.eff e.launch).race e.stamp bs hmap hrem
  have hstored : st.took s.sys (st.stored { s.mach with eccSingle := es, secnt := sc } e
      { data := bs, dst := [⟨e.dst + o, loc, st.len, attr⟩] }) c =
      ({ s.mach with eccSingle := es, secnt := sc } : Mach).collPutBytes [⟨e.dst + o, loc, bs.length, attr⟩]
        (s.mach.eff e.launch).race e.stamp bs := by
    unfold CStep.took CStep.stored
    rw [harr, hdst, hlen]
    rfl
  generalize ({ s.mach with eccSingle := es, secnt := sc } : Mach).collPutBytes [⟨e.dst + o, loc, bs.length, attr⟩]
    (s.mach.eff e.launch).race e.stamp bs = m at hframe hmem hstored
  have hcoll' : m.coll? e.eid = some e := by
    rw [hframe]
    exact hcoll
  have hcomm' : m.comm? e.cid e.rank = some c := by
    rw [hframe]
    exact hcomm
  obtain ⟨m', hm', hmem', hout, hone⟩ := turn_sends (s := s) (c := c) (st := st) bs hcoll' hcomm' rfl hsend hdev
  rw [harr, hdst] at hone
  refine ⟨m', ?_, hmem'.trans hmem, ?_, hone⟩
  · rw [hturn, chunkDone_sends hsend hstored hcomm']
    exact hm'
  · rw [hout, hframe]

/-! ### Partials that arrive -/

/-- A chunk of another device, consumed: its place is free, and its token goes back. -/
theorem consume_far {y : Sys} {m : Mach} {c : Comm} (a : InChunk) (hcomm : m.comm? c.cid c.rank = some c) (hsrc : a.src ≠ y.devid) :
    m.consume y c a = (m.setComm { c with chunks := c.chunks.erase a }).say y a.src 0 0
      (.token c.cid ((c.rank + c.nrank - 1) % c.nrank) c.rank a.c) := by
  unfold Mach.consume
  rw [hcomm]
  dsimp only
  rw [sendTok_far _ _ hsrc, if_pos rfl]
  rfl

/-- An arriving partial of another rank's segment, combined and sent on. -/
theorem chunkTurn_combines {s : State} {e : CollEnt} {c : Comm} {st : CStep} {t : Nat × Nat × Bool} {a : InChunk} {own res : List Byte} {o : Nat}
    (h : HasTurn s e c) (harr : st.arr = some a) (hpark : a.parked = false) (hsrc : a.src ≠ s.sys.devid) (hright : st.right = some o)
    (hdst : st.dst = none) (hsend : st.send = some t)
    (hread : collRead s.sys s.mach (s.mach.eff e.launch) (entKey e.eid) (e.src + o) st.len = .ok own)
    (hcomb : combine e.ty e.red a.bytes own = .ok res) :
    ∃ m', chunkTurn s.sys s.mach e c st = .ok m' ∧ m'.mem = s.mach.mem ∧ m'.out = s.mach.out ++
        [⟨s.sys.devid, a.src, 0, 0, .token e.cid ((e.rank + c.nrank - 1) % c.nrank) e.rank a.c⟩, chunkMsg s.sys e c t res] ∧
      OneSent s (s.withMach (m'.unitDone (entKey e.eid))).settle e c 0 0 := by
  obtain ⟨hcoll, hcomm, -, -, -, -, hdev, -⟩ := h
  obtain ⟨hcid, hrank⟩ := comm?_key hcomm
  obtain ⟨es, sc, hfix⟩ := collFix_frame s.sys s.mach (s.mach.eff e.launch) (entKey e.eid) (e.src + o) st.len
  have hplan : chunkPlan s.sys s.mach e c st = .ok { data := res } := by
    unfold chunkPlan
    dsimp only
    rw [harr, hright, hdst]
    dsimp only
    rw [hpark, if_neg Bool.false_ne_true]
    dsimp only [CRes.andThen]
    rw [hread]
    dsimp only
    rw [hcomb]
  have hturn : chunkTurn s.sys s.mach e c st = chunkDone s.sys { s.mach with eccSingle := es, secnt := sc } e c st { data := res } := by
    unfold chunkTurn
    rw [not_local hdev, if_neg Bool.false_ne_true, hplan]
    dsimp only [CRes.andThen]
    rw [harr, hright]
    dsimp only
    rw [hpark, if_neg Bool.false_ne_true, hfix]
  have htook : st.took s.sys (st.stored { s.mach with eccSingle := es, secnt := sc } e { data := res }) c =
      (({ s.mach with eccSingle := es, secnt := sc } : Mach).setComm { c with chunks := c.chunks.erase a }).say s.sys a.src 0 0
        (.token c.cid ((c.rank + c.nrank - 1) % c.nrank) c.rank a.c) := by
    unfold CStep.took CStep.stored
    rw [harr, hdst]
    exact consume_far a (by rw [hcid, hrank]; exact hcomm) hsrc
  generalize hm : (({ s.mach with eccSingle := es, secnt := sc } : Mach).setComm { c with chunks := c.chunks.erase a }).say s.sys a.src 0 0
    (.token c.cid ((c.rank + c.nrank - 1) % c.nrank) c.rank a.c) = m at htook
  have hcomm' : m.comm? e.cid e.rank = some { c with chunks := c.chunks.erase a } := by
    rw [← hm]
    exact comm?_setComm (m := { s.mach with eccSingle := es, secnt := sc }) hcomm rfl rfl rfl
  obtain ⟨m', hm', hmem', hout, hone⟩ := turn_sends (s := s) (m := m) (c := c) (st := st) res (by rw [← hm]; exact hcoll) hcomm' rfl hsend hdev
  rw [harr, hdst] at hone
  refine ⟨m', ?_, ?_, ?_, hone⟩
  · rw [hturn, chunkDone_sends hsend htook hcomm']
    exact hm'
  · rw [hmem', ← hm]
    rfl
  · rw [hout, ← hm, hcid, hrank]
    exact List.append_assoc _ _ _

/-- An entry whose chunk has arrived, and can go on, serves it. -/
theorem serves_arrived {s : State} {e : CollEnt} {c : Comm} {a : InChunk} {m' : Mach} (h : HasTurn s e c) (hring : isRingOp e.op = true)
    (h14 : e.op ≠ 0x14) (hsend : canSend s.sys s.mach e c = true) (hchunks : c.chunks = [a]) (hseq : a.seq = e.seq)
    (hturn : chunkTurn s.sys s.mach e c (e.arrStep a) = .ok m') : s.mach.serveEnt s.sys e = m'.unitDone (entKey e.eid) := by
  have hop := (isRingOp_iff e.op).1 hring
  have hready : s.mach.readyStep s.sys e c = some (e.arrStep a) := by
    unfold Mach.readyStep
    dsimp only
    have hfirst : c.first e.seq = some a := by
      unfold Comm.first
      rw [hchunks, List.filter_cons, if_pos (by rw [hseq, beq_self_eq_true])]
      rfl
    rw [if_pos hring, hfirst]
    exact if_pos (by rw [hsend, Bool.or_true])
  have hserve : s.mach.turning s.sys e = some (.chunk (.ok m')) := by
    rw [turning_of h (by omega) (by omega), if_neg h14, hready, Option.bind_some]
    unfold chunkTurning
    rw [hturn, if_neg (show ¬(CRes.ok m').waits s.mach = true from Bool.false_ne_true)]
  unfold Mach.serveEnt
  rw [hserve]
  rfl

/-! ### Barrier tokens -/

/-- A barrier entry with its turn takes and sends what it is ready for. -/
theorem serves_token {s : State} {e : CollEnt} {c : Comm} {r : Option Nat × Option Nat} (h : HasTurn s e c) (h14 : e.op = 0x14)
    (hready : s.mach.readyTok s.sys e c = some r ∨ s.mach.readyTok s.sys e c = none) : s.mach.serveEnt s.sys e = s.mach.tokTurn s.sys e c r := by
  have hsome := hasTurn_turning h
  have hturn := turning_of h (by omega) (by omega)
  rw [if_pos h14] at hturn
  have hserve : s.mach.turning s.sys e = some (.tok r) := by
    rcases hready with hr | hr
    · rw [hturn, hr]
      rfl
    · rw [hturn, hr] at hsome
      cases hsome
  unfold Mach.serveEnt
  rw [hserve]
  dsimp only
  rw [h.2.1]

/-- Rank 0 begins a barrier with a token of the first circuit. -/
theorem readyTok_begins {s : State} {e : CollEnt} {c : Comm} (h14 : e.op = 0x14) (hn : 1 < e.nrank) (hrank : e.rank = 0) (htoks : e.toks = 0)
    (hnone : ∀ k ∈ c.toks, k.1 ≠ e.seq) :
    s.mach.readyTok s.sys e c = some (none, some 1) ∨ s.mach.readyTok s.sys e c = none := by
  have hfind : c.toks.find? (fun t => t.1 == e.seq) = none := List.find?_eq_none.2 fun k hk => by simpa using hnone k hk
  unfold Mach.readyTok
  rw [if_neg (by omega), hfind]
  dsimp only
  rw [if_pos ⟨hrank, htoks⟩]
  dsimp only
  split
  · exact .inl rfl
  · exact .inr rfl

/-- A token of the second circuit goes on. -/
theorem readyTok_goesOn {s : State} {e : CollEnt} {c : Comm} (h14 : e.op = 0x14) (hn : 1 < e.nrank) (hrank : e.rank ≠ 0)
    (htoks : c.toks = [(e.seq, 2)]) :
    s.mach.readyTok s.sys e c = some (some 2, some 2) ∨ s.mach.readyTok s.sys e c = none := by
  have hfind : c.toks.find? (fun t => t.1 == e.seq) = some (e.seq, 2) := by
    rw [htoks]
    simp
  unfold Mach.readyTok
  rw [if_neg (by omega), hfind]
  dsimp only
  rw [if_neg (by decide), if_neg hrank]
  dsimp only
  split
  · exact .inl rfl
  · exact .inr rfl

/-! ### The turns of the statement -/

theorem turnOf_put {s : State} {e : CollEnt} {i : Instr}
    (hi : i = .chunkSend e.port ∨ (i = .collPut e.eid ∧ e.op = 0x01) ∨ (i = .collPutr e.eid ∧ e.op = 0x02)) : TurnOf s e i := by
  rcases hi with rfl | ⟨rfl, hop⟩ | ⟨rfl, hop⟩
  · exact .inl rfl
  · exact .inr (by rw [hop]; rfl)
  · exact .inr (by rw [hop]; rfl)

theorem turnOf_reduce {s : State} {e : CollEnt} {i : Instr}
    (hi : i = .chunkSend e.port ∨ (i = .ringReduceScatter e.eid ∧ e.op = 0x10) ∨ (i = .ringAllReduce e.eid ∧ e.op = 0x12)) : TurnOf s e i := by
  rcases hi with rfl | ⟨rfl, hop⟩ | ⟨rfl, hop⟩
  · exact .inl rfl
  · exact .inr (by rw [hop]; rfl)
  · exact .inr (by rw [hop]; rfl)

theorem turnOf_gather {s : State} {e : CollEnt} {i : Instr}
    (hi : i = .chunkSend e.port ∨ (i = .ringAllGather e.eid ∧ e.op = 0x11) ∨ (i = .ringBroadcast e.eid ∧ e.op = 0x13)) : TurnOf s e i := by
  rcases hi with rfl | ⟨rfl, hop⟩ | ⟨rfl, hop⟩
  · exact .inl rfl
  · exact .inr (by rw [hop]; rfl)
  · exact .inr (by rw [hop]; rfl)

theorem turnOf_barrier {s : State} {e : CollEnt} {i : Instr} (hop : e.op = 0x14)
    (hi : i = .chunkSend e.port ∨ i = .ringBarrierToken e.eid) : TurnOf s e i := by
  rcases hi with rfl | rfl
  · exact .inl rfl
  · exact .inr (by rw [hop]; rfl)

/-- The own chunk of a one-sided operation. -/
theorem nextStep_put {e : CollEnt} (hop : e.op = 0x01 ∨ e.op = 0x02) : e.nextStep =
    { src := 4096 * e.own, send := some (0, 4096 * e.own, false), len := min 4096 (e.len - 4096 * e.own) } := by
  have hseg : e.segLen = e.len := if_neg (by omega)
  unfold CollEnt.nextStep CollEnt.ownStep
  dsimp only
  rw [hseg]
  rcases hop with hop | hop <;> rw [hop] <;> rfl

/-- The own chunk of a reduction: of the segment before that of its rank. -/
theorem nextStep_reduce {e : CollEnt} (hop : e.op = 0x10 ∨ e.op = 0x12) (hn : 1 < e.nrank) : e.nextStep =
    { src := (e.rank + e.nrank - 1) % e.nrank * (e.len / e.nrank) + 4096 * e.own
      send := some ((e.rank + e.nrank - 1) % e.nrank, 4096 * e.own, false), len := min 4096 (e.len / e.nrank - 4096 * e.own) } := by
  have hmax : Nat.max 1 e.nrank = e.nrank := Nat.max_eq_right (by omega)
  have hseg : e.segLen = e.len / e.nrank := by
    rw [CollEnt.segLen, if_pos (by omega), hmax]
  unfold CollEnt.nextStep CollEnt.ownStep
  dsimp only
  rw [hseg, hmax]
  have hmany : ¬e.nrank = 1 := by omega
  rcases hop with hop | hop <;> rw [hop] <;> exact if_neg hmany

/-- The own chunk of a gather, or of the root of a broadcast. -/
theorem nextStep_gather {e : CollEnt} (hop : e.op = 0x11 ∨ (e.op = 0x13 ∧ e.rank = e.peer ∧ e.succ ≠ e.peer)) (hn : 1 < e.nrank) :
    let seg := if e.op = 0x11 then e.rank else 0
    let part := if e.op = 0x11 then e.len / e.nrank else e.len
    e.nextStep = { src := 4096 * e.own, dst := some (seg * part + 4096 * e.own), send := some (seg, 4096 * e.own, true)
                   len := min 4096 (part - 4096 * e.own) } := by
  have hmax : Nat.max 1 e.nrank = e.nrank := Nat.max_eq_right (by omega)
  unfold CollEnt.nextStep CollEnt.ownStep
  dsimp only
  rcases hop with hop | ⟨hop, -, hsucc⟩
  · have hseg : e.segLen = e.len / e.nrank := by
      rw [CollEnt.segLen, if_pos (by omega), hmax]
    have hone : (if e.nrank = 1 then none else some (e.rank, chunkBytes * e.own, true)) = some (e.rank, 4096 * e.own, true) :=
      if_neg (by omega)
    rw [hseg, hop, hone]
    rfl
  · have hseg : e.segLen = e.len := if_neg (by omega)
    have hnext : (if e.succ = e.peer then none else some (0, chunkBytes * e.own, true)) = some (0, 4096 * e.own, true) := if_neg hsucc
    have hzero : (0 * e.len + 4096 * e.own) = chunkBytes * e.own := by
      rw [Nat.zero_mul, Nat.zero_add]
      rfl
    rw [hseg, hop, hnext, show (if 0x13 = 0x11 then e.rank else 0) = 0 from rfl,
      show (if 0x13 = 0x11 then e.len / e.nrank else e.len) = e.len from rfl, hzero]
    rfl

/-- A turn whose chunk is served, as a step. -/
theorem chunk_step {s : State} {e : CollEnt} {c : Comm} {i : Instr} {m' : Mach} (h : HasTurn s e c) (hi : TurnOf s e i)
    (hserve : s.mach.serveEnt s.sys e = m'.unitDone (entKey e.eid)) :
    exec i s = .next (s.withMach (m'.unitDone (entKey e.eid))).settle := by
  rw [turn_serves h hi, hserve]

theorem sequencer_put (e : CollEnt) (c : Comm) (bs : List Byte) (i : Instr)
    (hi : i = .chunkSend e.port ∨ (i = .collPut e.eid ∧ e.op = 0x01) ∨ (i = .collPutr e.eid ∧ e.op = 0x02)) : StepsTo i
      (fun s => HasTurn s e c ∧ (e.op = 0x01 ∨ e.op = 0x02) ∧ e.red ≠ 4 ∧ bs.length = min 4096 (e.len - 4096 * e.own) ∧
        collRead s.sys s.mach (s.mach.eff e.launch) (entKey e.eid) (e.src + 4096 * e.own) bs.length = .ok bs)
      fun s t => MemoryKept s t ∧ OneSent s t e c 1 0 ∧ t.mach.out = s.mach.out ++
        let vc := if e.op = 0x01 ∧ e.len ≤ 64 then 0 else c.vc
        [⟨s.sys.devid, e.sdev, if vc = 0 then 0 else 1, vc,
          .put e.cid e.succ e.rank e.eid (look 0 c.sent e.succ) (e.dst + 4096 * e.own) e.red e.ty
            (decide (e.len ≤ 4096 * e.own + bs.length)) e.rsig e.rctr bs⟩] := by
  rintro s - ⟨h, hop, hred, hlen, hread⟩
  have hnext := nextStep_put hop
  rw [hlen] at hread
  obtain ⟨m', hturn, hmem, hout, hone⟩ := chunkTurn_own h (st := e.nextStep) (t := (0, 4096 * e.own, false)) (bs := bs) (by rw [hnext])
    (by rw [hnext]) (by rw [hnext]) (by rw [hnext]) hred (by rw [hnext]; exact hread)
  have hring : isRingOp e.op = false := by rcases hop with hop | hop <;> rw [hop] <;> decide
  have hserve := serves_own h (by omega) (by omega) (by omega) fun hr => by rw [hring] at hr; cases hr
  rw [hturn] at hserve
  refine ⟨_, chunk_step h (turnOf_put hi) hserve, fun a => congrArg (fun mem : Memory => mem.read a) hmem, hone, hout.trans ?_⟩
  unfold chunkMsg CollEnt.vcOf
  rw [hring, if_neg Bool.false_ne_true, if_neg (show ¬e.op = 0x14 by omega)]

theorem sequencer_reduce (e : CollEnt) (c : Comm) (bs : List Byte) (i : Instr)
    (hi : i = .chunkSend e.port ∨ (i = .ringReduceScatter e.eid ∧ e.op = 0x10) ∨ (i = .ringAllReduce e.eid ∧ e.op = 0x12)) :
    let k := (e.rank + e.nrank - 1) % e.nrank
    StepsTo i
      (fun s => HasTurn s e c ∧ (e.op = 0x10 ∨ e.op = 0x12) ∧ 1 < e.nrank ∧ e.red ≠ 4 ∧ (∀ a ∈ c.chunks, a.seq ≠ e.seq) ∧
        bs.length = min 4096 (e.len / e.nrank - 4096 * e.own) ∧
        collRead s.sys s.mach (s.mach.eff e.launch) (entKey e.eid) (e.src + (k * (e.len / e.nrank) + 4096 * e.own)) bs.length = .ok bs)
      fun s t => MemoryKept s t ∧ OneSent s t e c 1 0 ∧ t.mach.out = s.mach.out ++
        [⟨s.sys.devid, e.sdev, 1, c.vc, .chunk e.cid e.succ e.seq (look 0 c.sent e.succ) k (4096 * e.own) false e.red e.ty bs⟩] := by
  rintro k s - ⟨h, hop, hn, hred, hchunks, hlen, hread⟩
  have hnext := nextStep_reduce hop hn
  rw [hlen] at hread
  obtain ⟨m', hturn, hmem, hout, hone⟩ := chunkTurn_own h (st := e.nextStep) (t := (k, 4096 * e.own, false)) (bs := bs) (by rw [hnext])
    (by rw [hnext]) (by rw [hnext]) (by rw [hnext]) hred (by rw [hnext]; exact hread)
  have hring : isRingOp e.op = true := by rcases hop with hop | hop <;> rw [hop] <;> decide
  have hserve := serves_own h (by omega) (by omega) (by omega) fun _ => hchunks
  rw [hturn] at hserve
  refine ⟨_, chunk_step h (turnOf_reduce hi) hserve, fun a => congrArg (fun mem : Memory => mem.read a) hmem, hone, hout.trans ?_⟩
  unfold chunkMsg
  rw [if_pos hring]

theorem sequencer_gather (e : CollEnt) (c : Comm) (bs : List Byte) (loc attr : Nat) (i : Instr)
    (hi : i = .chunkSend e.port ∨ (i = .ringAllGather e.eid ∧ e.op = 0x11) ∨ (i = .ringBroadcast e.eid ∧ e.op = 0x13)) :
    let seg := if e.op = 0x11 then e.rank else 0
    let part := if e.op = 0x11 then e.len / e.nrank else e.len
    StepsTo i
      (fun s => HasTurn s e c ∧ (e.op = 0x11 ∨ (e.op = 0x13 ∧ e.rank = e.peer ∧ e.succ ≠ e.peer)) ∧ 1 < e.nrank ∧ e.red ≠ 4 ∧
        (∀ a ∈ c.chunks, a.seq ≠ e.seq) ∧ bs.length = min 4096 (part - 4096 * e.own) ∧
        collRead s.sys s.mach (s.mach.eff e.launch) (entKey e.eid) (e.src + 4096 * e.own) bs.length = .ok bs ∧
        collRange s.sys s.mach (s.mach.eff e.launch) (entKey e.eid) (e.dst + (seg * part + 4096 * e.own)) bs.length .w =
          .ok [⟨e.dst + (seg * part + 4096 * e.own), loc, bs.length, attr⟩] ∧ s.mach.mapped loc = false ∧ isRem loc = false)
      fun s t => Stored s t loc bs ∧ OneSent s t e c 1 1 ∧ t.mach.out = s.mach.out ++
        [⟨s.sys.devid, e.sdev, 1, c.vc, .chunk e.cid e.succ e.seq (look 0 c.sent e.succ) seg (4096 * e.own) true e.red e.ty bs⟩] := by
  rintro seg part s - ⟨h, hop, hn, hred, hchunks, hlen, hread, hrange, hmap, hrem⟩
  have hnext : e.nextStep = { src := 4096 * e.own, dst := some (seg * part + 4096 * e.own), send := some (seg, 4096 * e.own, true)
                              len := min 4096 (part - 4096 * e.own) } := nextStep_gather hop hn
  have hnextlen : bs.length = e.nextStep.len := by rw [hnext, hlen]
  rw [hnextlen] at hread hrange
  obtain ⟨m', hturn, hmem, hout, hone⟩ := chunkTurn_writes h (st := e.nextStep) (t := (seg, 4096 * e.own, true)) (bs := bs)
    (o := seg * part + 4096 * e.own) (loc := loc) (attr := attr) (by rw [hnext]) (by rw [hnext]) (by rw [hnext]) (by rw [hnext]) hred
    hnextlen hmap hrem (by rw [show e.nextStep.src = 4096 * e.own by rw [hnext]]; exact hread) hrange
  have hring : isRingOp e.op = true := by rcases hop with hop | ⟨hop, -⟩ <;> rw [hop] <;> decide
  have hserve := serves_own h (by omega) (by omega) (by omega) fun _ => hchunks
  rw [hturn] at hserve
  obtain ⟨hin, hother⟩ := put_wf_read loc bs h.2.2.2.2.2.2.2
  refine ⟨_, chunk_step h (turnOf_gather hi) hserve, ⟨fun j hj => ?_, fun b hb => ?_⟩, hone, hout.trans ?_⟩
  · exact (congrArg (fun mem : Memory => mem.read (loc + j)) hmem).trans (hin j hj)
  · exact (congrArg (fun mem : Memory => mem.read b) hmem).trans (hother b hb)
  · unfold chunkMsg
    rw [if_pos hring]

theorem sequencer_combines (e : CollEnt) (c : Comm) (a : InChunk) (own res : List Byte) (i : Instr)
    (hi : i = .chunkSend e.port ∨ (i = .ringReduceScatter e.eid ∧ e.op = 0x10) ∨ (i = .ringAllReduce e.eid ∧ e.op = 0x12)) : StepsTo i
      (fun s => HasTurn s e c ∧ (e.op = 0x10 ∨ e.op = 0x12) ∧ 1 < e.nrank ∧ canSend s.sys s.mach e c = true ∧
        c.chunks = [a] ∧ a.seq = e.seq ∧ a.parked = false ∧ a.gather = false ∧ a.seg ≠ e.rank ∧ a.src ≠ s.sys.devid ∧
        collRead s.sys s.mach (s.mach.eff e.launch) (entKey e.eid) (e.src + (a.seg * (e.len / e.nrank) + a.off)) a.len = .ok own ∧
        combine e.ty e.red a.bytes own = .ok res)
      fun s t => MemoryKept s t ∧ OneSent s t e c 0 0 ∧ t.mach.out = s.mach.out ++
        [⟨s.sys.devid, a.src, 0, 0, .token e.cid ((e.rank + c.nrank - 1) % c.nrank) e.rank a.c⟩,
          ⟨s.sys.devid, e.sdev, 1, c.vc, .chunk e.cid e.succ e.seq (look 0 c.sent e.succ) a.seg a.off false e.red e.ty res⟩] := by
  rintro s - ⟨h, hop, hn, hsend, hchunks, hseq, hpark, hgather, hseg, hsrc, hread, hcomb⟩
  have hlen : e.segLen = e.len / e.nrank := by
    rw [CollEnt.segLen, if_pos (by omega), show Nat.max 1 e.nrank = e.nrank from Nat.max_eq_right (by omega)]
  have harr : e.arrStep a = { arr := some a, right := some (a.seg * (e.len / e.nrank) + a.off), send := some (a.seg, a.off, a.gather), len := a.len } := by
    unfold CollEnt.arrStep
    dsimp only
    rw [if_neg (by omega), if_neg (by rw [hgather]; simp; omega), if_neg hseg, hlen]
  obtain ⟨m', hturn, hmem, hout, hone⟩ := chunkTurn_combines h (st := e.arrStep a) (t := (a.seg, a.off, a.gather)) (a := a) (own := own)
    (res := res) (o := a.seg * (e.len / e.nrank) + a.off) (by rw [harr]) hpark hsrc (by rw [harr]) (by rw [harr]) (by rw [harr])
    (by rw [harr]; exact hread) hcomb
  have hring : isRingOp e.op = true := by rcases hop with hop | hop <;> rw [hop] <;> decide
  have hserve := serves_arrived h hring (by omega) hsend hchunks hseq hturn
  refine ⟨_, chunk_step h (turnOf_reduce hi) hserve, fun b => congrArg (fun mem : Memory => mem.read b) hmem, hone, hout.trans ?_⟩
  unfold chunkMsg
  rw [if_pos hring, hgather]

/-- Two words combined as integers. -/
theorem combine_words (a b : Word) : combine 0 1 (toBytes a.toNat 4) (toBytes b.toNat 4) = .ok (toBytes (a + b).toNat 4) := by
  have hword : ∀ v : Word, wN (ofBytes (toBytes v.toNat 4)) = v := fun v => by
    rw [ofBytes_toBytes]
    unfold wN
    rw [Nat.mod_eq_of_lt (Nat.lt_of_lt_of_le v.isLt (by decide)), BitVec.ofNat_toNat, BitVec.setWidth_eq]
  have htake : ∀ v : Word, (toBytes v.toNat 4).take (elemBytes 0) = toBytes v.toNat 4 := fun v =>
    List.take_of_length_le (by rw [toBytes_length]; decide)
  unfold combine
  rw [toBytes_length, show 4 / elemBytes 0 = 1 from rfl, redBytes, htake, htake]
  unfold redElem
  rw [if_neg (by decide), if_pos (by decide), hword, hword]
  rfl

theorem sequencer_begins (e : CollEnt) (c : Comm) (i : Instr) (hi : i = .chunkSend e.port ∨ i = .ringBarrierToken e.eid) : StepsTo i
    (fun s => HasTurn s e c ∧ e.op = 0x14 ∧ e.rank = 0 ∧ e.toks = 0 ∧ 1 < e.nrank ∧ ∀ k ∈ c.toks, k.1 ≠ e.seq)
    fun s t => MemoryKept s t ∧ (∃ e', t.mach.coll? e.eid = some e' ∧ e'.toks = 1) ∧
      t.mach.out = s.mach.out ++ [⟨s.sys.devid, e.sdev, 0, 0, .ringTok e.cid e.succ e.rank e.seq 1⟩] := by
  rintro s - ⟨h, hop, hrank, htoks, hn, hnone⟩
  obtain ⟨hcoll, hcomm, -, -, -, -, hdev, -⟩ := id h
  obtain ⟨hcid, hcrank⟩ := comm?_key hcomm
  have hserve := serves_token h hop (readyTok_begins hop hn hrank htoks hnone)
  have htok : s.mach.tokTurn s.sys e c (none, some 1) =
      (((s.mach.setComm c).setColl { e with toks := e.toks + 1, served := s.mach.next }).take 1).say s.sys e.sdev 0 0
        (.ringTok e.cid e.succ e.rank e.seq 1) := by
    unfold Mach.tokTurn
    dsimp only
    rw [if_neg (by decide), sendTok_far _ _ hdev, if_neg (show ¬1 = 0 by decide), hcid, hcrank]
    rfl
  refine ⟨_, turn_serves h (turnOf_barrier hop hi), ?_⟩
  rw [hserve, htok]
  refine ⟨fun _ => rfl, ⟨{ e with toks := e.toks + 1, served := s.mach.next }, ?_, by rw [htoks]⟩, rfl⟩
  exact coll?_setColl (m := s.mach.setComm c) hcoll rfl

theorem sequencer_ends (e : CollEnt) (c : Comm) (i : Instr) (hi : i = .chunkSend e.port ∨ i = .ringBarrierToken e.eid) : StepsTo i
    (fun s => HasTurn s e c ∧ e.op = 0x14 ∧ e.rank ≠ 0 ∧ 1 < e.nrank ∧ c.toks = [(e.seq, 2)])
    fun s t => EntryGone s t e 0 ∧ t.mach.out = s.mach.out ++ [⟨s.sys.devid, e.sdev, 0, 0, .ringTok e.cid e.succ e.rank e.seq 2⟩] := by
  rintro s - ⟨h, hop, hrank, hn, htoks⟩
  obtain ⟨-, hcomm, -, -, -, -, hdev, -⟩ := id h
  obtain ⟨hcid, hcrank⟩ := comm?_key hcomm
  have hserve := serves_token h hop (readyTok_goesOn hop hn hrank htoks)
  have htok : s.mach.tokTurn s.sys e c (some 2, some 2) =
      ((s.mach.setComm { c with toks := c.toks.erase (e.seq, 2) }).collEnd e 0).say s.sys e.sdev 0 0
        (.ringTok e.cid e.succ e.rank e.seq 2) := by
    unfold Mach.tokTurn
    dsimp only
    rw [if_pos rfl, sendTok_far _ _ hdev, if_neg (show ¬2 = 0 by decide), hcid, hcrank]
  refine ⟨_, turn_serves h (turnOf_barrier hop hi), ?_⟩
  rw [hserve, htok]
  have hgone : EntryGone s (s.withMach ((s.mach.setComm { c with toks := c.toks.erase (e.seq, 2) }).collEnd e 0)) e 0 :=
    collEnd_gone e 0 (fun _ => rfl) rfl rfl
  have hout : ((s.mach.setComm { c with toks := c.toks.erase (e.seq, 2) }).collEnd e 0).out = s.mach.out := by rw [collEnd_frame]; rfl
  exact ⟨hgone, congrArg (· ++ _) hout⟩

/-- Settles O43, turn by turn. -/
theorem sequencerTurns : Obligations.SequencerTurns := by
  unfold Obligations.SequencerTurns
  exact ⟨sequencer_put, sequencer_reduce, sequencer_gather, sequencer_combines, combine_words, sequencer_begins, sequencer_ends⟩

end Sys2Proof.Machine
end

section
/-! SUPPORT. System calls (spec/02 R83-R87): what `sysc` leaves, the entry that is written, the completion. -/

namespace Sys2Proof.Machine

/-! ### Queues of system calls -/

theorem sysQ_setSysQ (m : Mach) (k j : Nat) (q : SysQ) :
    (m.setSysQ k q).sysQ j = if j = k ∧ k < m.sysqs.length then q else m.sysQ j := by
  unfold Mach.setSysQ Mach.sysQ
  rw [modAt_eq_set]
  by_cases hj : j = k
  · subst hj
    by_cases hlt : j < m.sysqs.length
    · rw [if_pos ⟨rfl, hlt⟩, List.getD_eq_getElem?_getD, List.getElem?_set_self hlt, Option.getD_some]
    · rw [if_neg fun h => hlt h.2, List.set_eq_of_length_le (Nat.not_lt.1 hlt)]
  · rw [if_neg fun h => hj h.1, List.getD_eq_getElem?_getD, List.getElem?_set_ne fun h => hj h.symm, ← List.getD_eq_getElem?_getD]

theorem thr?_setSysQ (m : Mach) (k : Nat) (q : SysQ) (j : Nat) : (m.setSysQ k q).thr? j = m.thr? j := rfl

/-! ### Threads that leave their quarter -/

theorem detach_thr? {m : Mach} {k : Nat} (h : (m.thr? k).isSome) : ∃ i : Thread → Option Nat, ∀ j,
    (m.detach k).thr? j = (m.thr? j).map fun t => if j = k then { t with lastIssue := i t } else t := by
  unfold Mach.detach
  cases m.quarters.find? fun q => q.tids.contains k with
  | none =>
    refine ⟨Thread.lastIssue, fun j => ?_⟩
    show m.thr? j = _
    cases m.thr? j with
    | none => rfl
    | some t =>
      rw [Option.map_some]
      split <;> rfl
  | some q =>
    refine ⟨fun _ => q.lastIssue, fun j => ?_⟩
    exact thr?_modThr m k (fun t => { t with lastIssue := q.lastIssue }) (fun _ => rfl) h j

theorem detach_frame (m : Mach) (k : Nat) : m.detach k = { m with threads := (m.detach k).threads, quarters := (m.detach k).quarters } := by
  unfold Mach.detach
  cases m.quarters.find? fun q => q.tids.contains k <;> rfl

theorem markBusy_frame (m : Mach) (core l : Nat) : m.markBusy core l = { m with cores := (m.markBusy core l).cores } := rfl

theorem detachIssued_frame (m : Mach) (k : Nat) : m.detachIssued k = { m with
    threads := (m.detachIssued k).threads, quarters := (m.detachIssued k).quarters, cores := (m.detachIssued k).cores } := by
  unfold Mach.detachIssued
  rw [markBusy_frame, detach_frame]
  rfl

theorem uncarried_regs (t : Thread) : t.uncarried.regs = t.regs := by
  unfold Thread.uncarried
  split
  · unfold Thread.flagDown
    split <;> rfl
  · rfl

theorem uncarried_id (t : Thread) : t.uncarried.id = t.id := by
  unfold Thread.uncarried
  split
  · unfold Thread.flagDown
    split <;> rfl
  · rfl

/-- A thread that the issuing instruction takes out of its quarter. -/
theorem detachIssued_thr? {m : Mach} {k : Nat} (h : (m.thr? k).isSome) : ∃ i : Thread → Option Nat, ∀ j, (m.detachIssued k).thr? j =
    (m.thr? j).map fun t => if j = k then { Thread.uncarried { t with lastIssue := i t } with lastIssue := some m.cycle } else t := by
  obtain ⟨i, hi⟩ := detach_thr? h
  refine ⟨i, fun j => ?_⟩
  show ((m.detach k).modThr k fun t => { t.uncarried with lastIssue := some m.cycle }).thr? j = _
  rw [thr?_modThr _ k (fun t => { t.uncarried with lastIssue := some m.cycle }) uncarried_id (by rw [hi, Option.isSome_map]; exact h),
    hi, Option.map_map]
  congr 1
  funext t
  simp only [Function.comp]
  split <;> rfl

/-! ### Threads parked for a system call -/

/-- A thread that waits for a slot of queue `k`. -/
def Thread.parkedIn (t : Thread) (k : Nat) (q : Quarter) : Thread :=
  { t.settled with stat := .syscall k none, pc := q.pc, hdr := q.hdr }

def Mach.sysPark (k : Nat) (q : Quarter) (m : Mach) (id : Nat) : Mach := (m.detachIssued id).modThr id fun t => t.parkedIn k q

/-- What parking threads leaves: the threads parked, with their registers, and all the others as they were. -/
structure ParkedAll (m m' : Mach) (ids : List Nat) (k : Nat) (pc : Pc) : Prop where
  frame : m' = { m with threads := m'.threads, quarters := m'.quarters, cores := m'.cores }
  others : ∀ j, j ∉ ids → m'.thr? j = m.thr? j
  parked : ∀ j ∈ ids, (m'.thr? j).isSome ∧ (m'.thr j).stat = .syscall k none ∧ (m'.thr j).pc = pc
  regs : ∀ j, (m'.thr j).regs = (m.thr j).regs

theorem sysPark_parks {m : Mach} {id : Nat} (k : Nat) (q : Quarter) (h : (m.thr? id).isSome) : ParkedAll m (m.sysPark k q id) [id] k q.pc := by
  obtain ⟨i, hi⟩ := detachIssued_thr? h
  have hthr : ∀ j, (m.sysPark k q id).thr? j = (m.thr? j).map fun t =>
      if j = id then Thread.parkedIn { Thread.uncarried { t with lastIssue := i t } with lastIssue := some m.cycle } k q else t := by
    intro j
    show ((m.detachIssued id).modThr id fun t => t.parkedIn k q).thr? j = _
    rw [thr?_modThr _ id (fun t => t.parkedIn k q) (fun _ => rfl) (by rw [hi, Option.isSome_map]; exact h), hi, Option.map_map]
    congr 1
    funext t
    simp only [Function.comp]
    split <;> rfl
  refine ⟨?_, fun j hj => ?_, fun j hj => ?_, fun j => ?_⟩
  · show (m.detachIssued id).modThr id (fun t => t.parkedIn k q) = _
    rw [detachIssued_frame]
    rfl
  · rw [hthr]
    have hne : j ≠ id := fun he => hj (List.mem_singleton.2 he)
    simp only [if_neg hne]
    exact Option.map_id'
  · have hje : j = id := List.mem_singleton.1 hj
    obtain ⟨t, ht⟩ := Option.isSome_iff_exists.1 h
    have hj' := hthr id
    rw [ht, Option.map_some, if_pos rfl] at hj'
    rw [hje, thr_of hj', hj']
    exact ⟨rfl, rfl, rfl⟩
  · unfold Mach.thr
    rw [hthr]
    cases m.thr? j with
    | none => rfl
    | some t =>
      rw [Option.map_some, Option.getD_some, Option.getD_some]
      split
      · exact uncarried_regs _
      · rfl

theorem ParkedAll.refl (m : Mach) (k : Nat) (pc : Pc) : ParkedAll m m [] k pc :=
  ⟨rfl, fun _ _ => rfl, fun _ h => absurd h List.not_mem_nil, fun _ => rfl⟩

theorem ParkedAll.cons {m m' m'' : Mach} {id : Nat} {ids : List Nat} {k : Nat} {pc : Pc} (h : ParkedAll m m' [id] k pc)
    (h' : ParkedAll m' m'' ids k pc) : ParkedAll m m'' (id :: ids) k pc where
  frame := by rw [h'.frame, h.frame]
  others j hj := by
    rw [List.mem_cons, not_or] at hj
    rw [h'.others j hj.2, h.others j fun hin => hj.1 (List.mem_singleton.1 hin)]
  parked j hj := by
    by_cases hin : j ∈ ids
    · exact h'.parked j hin
    · obtain ⟨hsome, hstat, hpc⟩ := h.parked j (List.mem_singleton.2 ((List.mem_cons.1 hj).resolve_right hin))
      have hsame := h'.others j hin
      have hthr : m''.thr j = m'.thr j := by
        unfold Mach.thr
        rw [hsame]
      rw [hsame, hthr]
      exact ⟨hsome, hstat, hpc⟩
  regs j := (h'.regs j).trans (h.regs j)

theorem parkAll_parks (k : Nat) (q : Quarter) (ids : List Nat) : ∀ {m : Mach}, (∀ j ∈ ids, (m.thr? j).isSome) →
    ParkedAll m (ids.foldl (Mach.sysPark k q) m) ids k q.pc := by
  induction ids with
  | nil => exact fun _ => .refl _ _ _
  | cons id ids ih =>
    intro m h
    have hone := sysPark_parks k q (h id List.mem_cons_self)
    refine hone.cons (ih fun j hj => ?_)
    by_cases hje : j = id
    · exact (hone.parked j (List.mem_singleton.2 hje)).1
    · rw [hone.others j fun hin => hje (List.mem_singleton.1 hin)]
      exact h j (List.mem_cons_of_mem _ hj)

theorem ungang_frame (m : Mach) (q : Quarter) : m.ungang q = { m with quarters := (m.ungang q).quarters } := by
  unfold Mach.ungang
  split <;> rfl

theorem sysc_parks (h : Hdr) (n : BitVec 24) {s : State} {q : Quarter} (hr : Running s q) (hplain : ∀ k ∈ q.tids, (s.mach.thr k).isHandler = false)
    (hen : (s.mach.sysQ (s.mach.eff q.launch).sysq).en = true) (hlen : (s.mach.eff q.launch).sysq < s.mach.sysqs.length) :
    ∃ t, exec (.sysc h n) s = .next t ∧ MemoryKept s t ∧ RegistersKept s t ∧
      (t.mach.sysQ (s.mach.eff q.launch).sysq).waiting = (s.mach.sysQ (s.mach.eff q.launch).sysq).waiting ++
        (s.mach.inOrder q.tids).map (fun k => (k, n.toNat, h.flag.toNat)) ∧
      (∀ k ∈ q.tids, (t.mach.thr k).stat = .syscall (s.mach.eff q.launch).sysq none ∧ (t.mach.thr k).pc = q.pc) ∧
      ∀ k, k ∉ q.tids → t.mach.thr? k = s.mach.thr? k := by
  obtain ⟨hcur, -, hthr, hends⟩ := hr
  generalize hk : (s.mach.eff q.launch).sysq = k at hen hlen
  generalize hids : s.mach.inOrder q.tids = ids
  have hmem : ∀ j, j ∈ ids ↔ j ∈ q.tids := fun j => hids ▸ (perm_inOrder s.mach q.tids).mem_iff
  have hstart : ((s.mach.ungang q).take 1).threads = s.mach.threads := by
    rw [ungang_frame]
    rfl
  have hthr0 : ∀ j, ((s.mach.ungang q).take 1).thr? j = s.mach.thr? j := fun j => by
    unfold Mach.thr?
    rw [hstart]
  have hpark := parkAll_parks k q ids (m := (s.mach.ungang q).take 1) fun j hj => by
    rw [hthr0]
    exact hthr j ((hmem j).1 hj)
  generalize hm : ids.foldl (Mach.sysPark k q) ((s.mach.ungang q).take 1) = m at hpark
  have hsysq : m.sysQ k = s.mach.sysQ k := by
    rw [hpark.frame, ungang_frame]
    rfl
  have hmlen : k < m.sysqs.length := by
    rw [hpark.frame, ungang_frame]
    exact hlen
  have hexec : exec (.sysc h n) s = .next (s.withMach (m.setSysQ k { m.sysQ k with
      waiting := (m.sysQ k).waiting ++ ids.map fun id => (id, n.toNat, h.flag.toNat) })).settle := by
    show execSysc h n s = _
    unfold execSysc onMach Mach.withQ
    dsimp only
    rw [hcur]
    dsimp only
    rw [if_neg (by rw [List.any_eq_true]; rintro ⟨j, hj, hh⟩; rw [hplain j hj] at hh; cases hh), hk, hen, if_neg (by decide), hends,
      if_neg (by decide), hids, ← hm]
    rfl
  have hthrt : ∀ j, (m.setSysQ k { m.sysQ k with waiting := (m.sysQ k).waiting ++ ids.map fun id => (id, n.toNat, h.flag.toNat) }).thr j = m.thr j :=
    fun _ => rfl
  refine ⟨_, hexec, fun a => ?_, fun j => ?_, ?_, fun j hj => ?_, fun j hj => ?_⟩
  · show m.mem.read a = _
    rw [hpark.frame, ungang_frame]
    rfl
  · show (m.thr j).regs = _
    rw [hpark.regs j]
    unfold Mach.thr
    rw [hthr0]
  · show ((m.setSysQ k _).sysQ k).waiting = _
    rw [sysQ_setSysQ, if_pos ⟨rfl, hmlen⟩, hsysq]
  · obtain ⟨-, hstat, hpc⟩ := hpark.parked j ((hmem j).2 hj)
    exact ⟨hstat, hpc⟩
  · show m.thr? j = _
    rw [hpark.others j fun hin => hj ((hmem j).1 hin), hthr0]

/-! ### The entry -/

theorem rdN_regs {t : Thread} (fr : Nat) {n : Nat} (h : n ≤ t.regs.length) : t.rdN fr (.v 0) n = t.regs.take n := by
  have hread : t.rdN fr (.v 0) n = (List.range n).map fun j => t.regs.getD j 0 :=
    List.map_congr_left fun j _ => congrArg (t.regs.getD · 0) (Nat.zero_add j)
  rw [hread]
  refine List.ext_getElem ?_ fun i hi hi' => ?_
  · rw [List.length_map, List.length_range, List.length_take, Nat.min_eq_left h]
  · have hn : i < n := by simpa using hi
    rw [List.getElem_map, List.getElem_range, List.getElem_take, List.getD_eq_getElem _ _ (Nat.lt_of_lt_of_le hn h)]

theorem devStore_put {m : Mach} {loc : Nat} (bs : List Byte) (hmap : m.mapped loc = false) : (m.devStore loc bs).mem = m.mem.put loc bs := by
  unfold Mach.devStore
  rw [hmap]
  rfl

theorem sysNext_one {m : Mach} {S : SysQ} {T : Thread} {nr fl : Nat} (hen : S.en = true) (hwait : S.waiting = [(T.id, nr, fl)])
    (hthr : m.thr? T.id = some T) (hgo : m.stopped T.launch = false) (hpend : T.pend = []) (hfly : m.inFlight T.id = false) :
    m.sysNext S = some (T.id, nr, fl) := by
  unfold Mach.sysNext
  rw [hwait, List.find?_cons]
  dsimp only
  rw [thr_of hthr, hen, hgo]
  show Option.filter _ (some (T.id, nr, fl)) = _
  rw [Option.filter_some, if_pos]
  rw [thr_of hthr, hpend, hfly]
  rfl

theorem syscallEntry_written (k : Nat) (T : Thread) (nr fl : Nat) : StepsTo (.syscallEntryWrite k)
    (fun s =>
      let S := s.mach.sysQ k
      k < s.mach.sysqs.length ∧ S.en = true ∧ S.waiting = [(T.id, nr, fl)] ∧ s.mach.thr? T.id = some T ∧ s.mach.stopped T.launch = false ∧
      T.pend = [] ∧ s.mach.inFlight T.id = false ∧ 12 ≤ T.regs.length ∧ (∀ p ∈ S.slots, p.1 ≠ S.tail % 2 ^ S.log2) ∧
      s.mach.mapped (S.base + 64 * (S.tail % 2 ^ S.log2)) = false ∧ s.mach.mem.wf = true)
    fun s t =>
      let S := s.mach.sysQ k
      let slot := S.tail % 2 ^ S.log2
      Stored s t (S.base + 64 * slot) (toBytes (s.mach.launch T.launch).rcb 8 ++ toBytes S.tail 4 ++ toBytes nr 4 ++
        (T.regs.take 12).flatMap fun w => toBytes w.toNat 4) ∧
      (t.mach.thr T.id).stat = .syscall k (some slot) ∧ (t.mach.sysQ k).tail = (S.tail + 1) % 2 ^ 32 ∧
      (t.mach.sysQ k).slots = S.slots ++ [(slot, T.id, fl)] ∧ (t.mach.sysQ k).waiting = [] ∧
      t.sys.irq = s.sys.irq.deliver (128 + k) := by
  rintro s hs ⟨hlen, hen, hwait, hthr, hgo, hpend, hfly, hregs, hfree, hmap, hwf⟩
  dsimp only
  generalize hS : s.mach.sysQ k = S at hen hwait hfree hmap ⊢
  generalize hslot : S.tail % 2 ^ S.log2 = slot at hfree hmap ⊢
  obtain ⟨ws, o, hrel⟩ := release_frame s.mach T 6 (.thread T.id)
  generalize hm0 : ({ s.mach with waves := ws, order := o } : Mach) = m0 at hrel
  have hthr0 : m0.thr? T.id = some T := by
    rw [← hm0]
    exact hthr
  have hmap0 : m0.mapped (S.base + 64 * slot) = false := by
    rw [← hm0]
    exact hmap
  have hentry : syscallEntry (m0.launch T.launch).rcb S.tail nr T = toBytes (s.mach.launch T.launch).rcb 8 ++ toBytes S.tail 4 ++
      toBytes nr 4 ++ (T.regs.take 12).flatMap fun w => toBytes w.toNat 4 := by
    rw [← hm0]
    unfold syscallEntry
    rw [rdN_regs 0 hregs]
    rfl
  generalize hbs : toBytes (s.mach.launch T.launch).rcb 8 ++ toBytes S.tail 4 ++ toBytes nr 4 ++
    ((T.regs.take 12).flatMap fun w => toBytes w.toNat 4) = bs at hentry ⊢
  generalize hm1 : m0.devStore (S.base + 64 * slot) bs = m1
  have hmem1 : m1.mem = s.mach.mem.put (S.base + 64 * slot) bs := by
    rw [← hm1, devStore_put _ hmap0, ← hm0]
  have hthr1 : m1.thr? T.id = some T := by
    rw [← hm1]
    exact hthr0
  have hlen1 : k < m1.sysqs.length := by
    rw [← hm1, ← hm0]
    exact hlen
  generalize hQ : ({ S with tail := (S.tail + 1) % 2 ^ 32, slots := S.slots ++ [(slot, T.id, fl)], waiting := [] } : SysQ) = Q
  generalize hm2 : (m1.modThr T.id fun t => { t with stat := .syscall k (some slot) }).setSysQ k Q = m2
  have hfired : m2.fired = [] ∧ m2.cxlErrs = s.mach.cxlErrs ∧ m2.secnt = s.mach.secnt := by
    rw [← hm2, ← hm1, ← hm0]
    exact ⟨hs.1, rfl, rfl⟩
  have hexec : exec (.syscallEntryWrite k) s = .next (s.withBoth s.sys (m2.fire (128 + k))).settle := by
    show execSyscallEntryWrite k s = _
    unfold execSyscallEntryWrite onMach
    dsimp only
    rw [hS, sysNext_one hen hwait hthr hgo hpend hfly]
    dsimp only
    rw [show sysSlots S = 2 ^ S.log2 from rfl, hslot,
      if_neg (by rw [List.any_eq_true]; rintro ⟨p, hp, hh⟩; exact hfree p hp (by simpa using hh)), thr_of hthr, hrel,
      show S.slotVa slot = S.base + 64 * slot from rfl, hentry, hm1, hwait, List.erase_cons_head, hQ, hm2]
    rfl
  obtain ⟨hin, hother⟩ := put_wf_read (S.base + 64 * slot) bs hwf
  have hmem2 : m2.mem = s.mach.mem.put (S.base + 64 * slot) bs := by
    rw [← hm2]
    exact hmem1
  have hQ2 : m2.sysQ k = Q := by
    rw [← hm2]
    exact (sysQ_setSysQ _ _ _ _).trans (if_pos ⟨rfl, hlen1⟩)
  refine ⟨_, hexec, ⟨fun i hi => ?_, fun a ha => ?_⟩, ?_, ?_, ?_, ?_, ?_⟩
  · exact (congrArg (fun mem : Memory => mem.read (S.base + 64 * slot + i)) hmem2).trans (hin i hi)
  · exact (congrArg (fun mem : Memory => mem.read a) hmem2).trans (hother a ha)
  · show (m2.thr T.id).stat = _
    have hthr2 : m2.thr? T.id = some { T with stat := .syscall k (some slot) } := by
      rw [← hm2, thr?_setSysQ, thr?_modThr m1 T.id (fun t => { t with stat := .syscall k (some slot) }) (fun _ => rfl) (by rw [hthr1]; rfl), hthr1,
        Option.map_some, if_pos rfl]
    rw [thr_of hthr2]
  · show (m2.sysQ k).tail = _
    rw [hQ2, ← hQ]
  · show (m2.sysQ k).slots = _
    rw [hQ2, ← hQ]
  · show (m2.sysQ k).waiting = _
    rw [hQ2, ← hQ]
  · refine (congrArg (fun u : State => u.sys.irq) (settle_both hs (show (m2.fire (128 + k)).cxlErrs = _ from hfired.2.1)
      (show (m2.fire (128 + k)).secnt = _ from hfired.2.2) rfl rfl)).trans ?_
    show ((m2.fired ++ [128 + k]).foldl Irq.deliver s.sys.irq) = _
    rw [hfired.1]
    rfl

/-! ### Completion -/

theorem bits_low (n : Nat) : bits n 0 12 = n % 4096 := by
  simp [bits]

/-- A completion whose slot is the one that is taken, by a thread that is there and whose region runs. -/
theorem sysqCplWrite_applies {s : State} {k : Nat} {v : DWord} {T : Thread} {fl : Nat}
    (hslots : (s.mach.sysQ k).slots = [(v.toNat % 4096, T.id, fl)]) (hthr : s.mach.thr? T.id = some T) (hgo : s.mach.stopped T.launch = false) :
    exec (.sysqCplWrite k v) s = .next (s.withMach (
      let m := s.mach.setSysQ k { s.mach.sysQ k with
        slots := [], kept := (s.mach.sysQ k).kept.filter fun p => p.1 != v.toNat % 4096 }
      if v.getLsbD 63 = true then m.raise T.core T.launch [(0, T.id, 0)] 0x73 T.pc T.hdr fl
      else (((m.acquire T.id 6 (.thread T.id)).dropCopies T.core).modThr T.id fun t =>
        t.wr (.v 0) (bytesWords 4 (m.bytes ((s.mach.sysQ k).base + 64 * (v.toNat % 4096) + 16) 16))).fileAt T.id (T.pc + 8))).settle := by
  have hfind : (s.mach.sysQ k).slots.find? (fun p => p.1 == v.toNat % 4096) = some (v.toNat % 4096, T.id, fl) := by
    rw [hslots]
    simp
  have hdrop : (s.mach.sysQ k).slots.filter (fun p => p.1 != v.toNat % 4096) = [] := by
    rw [hslots]
    simp
  show execSysqCplWrite k v s = _
  unfold execSysqCplWrite onMach Mach.sysqCpl Mach.sysApply
  dsimp only
  rw [bits_low, hfind]
  dsimp only
  rw [thr_of hthr, hgo, if_neg (by simp), hdrop, thr?_setSysQ, hthr, if_neg (by simp), tbit_toNat]
  rfl

theorem sysqCpl_traps (k : Nat) (v : DWord) (T : Thread) (fl : Nat) : StepsTo (.sysqCplWrite k v)
    (fun s => k < s.mach.sysqs.length ∧ (s.mach.sysQ k).slots = [(v.toNat % 4096, T.id, fl)] ∧ s.mach.thr? T.id = some T ∧
      s.mach.stopped T.launch = false ∧ (s.mach.launch T.launch).ending = none ∧ T.stat ≠ .ended ∧ T.isHandler = false ∧
      v.getLsbD 63 = true)
    fun s t => MemoryKept s t ∧ RegistersKept s t ∧ (t.mach.sysQ k).slots = [] ∧ ∃ g ∈ t.mach.traps, g.cause = 0x73 ∧ g.pc = T.pc ∧
      g.members.map (fun m => m.2.1) = [T.id] ∧ (t.mach.thr T.id).stat = .trapping g.id := by
  rintro s - ⟨hlen, hslots, hthr, hgo, hends, hlive, hplain, htrap⟩
  have hexec := sysqCplWrite_applies hslots hthr hgo
  dsimp only at hexec
  rw [if_pos htrap] at hexec
  generalize hm : s.mach.setSysQ k { s.mach.sysQ k with
    slots := [], kept := (s.mach.sysQ k).kept.filter fun p => p.1 != v.toNat % 4096 } = m at hexec
  have hthrm : m.thr? T.id = some T := by
    rw [← hm]
    exact hthr
  have hraised := raise_raised (m := m) (core := T.core) (launch := T.launch) (who := [(0, T.id, 0)]) (cause := 0x73) (pc := T.pc)
    (hdr := T.hdr) (flag := fl) (impr := false) (waitBit := false) (by simp) (by rw [← hm]; exact hends) (fun p hp => by
      rw [List.mem_singleton.1 hp]
      dsimp only
      rw [hthrm, thr_of hthrm]
      exact ⟨rfl, hlive, hplain⟩)
  refine ⟨_, hexec, fun a => ?_, fun j => ?_, ?_, raisedGroup m T.core T.launch [(0, T.id, 0)] 0x73 T.pc T.hdr fl false false, hraised.group,
    rfl, rfl, rfl, ?_⟩
  · show (m.raise T.core T.launch [(0, T.id, 0)] 0x73 T.pc T.hdr fl).mem.read a = _
    rw [hraised.frame, ← hm]
    rfl
  · refine (hraised.regs j).trans ?_
    rw [← hm]
    rfl
  · show ((m.raise T.core T.launch [(0, T.id, 0)] 0x73 T.pc T.hdr fl).sysQ k).slots = []
    have hkept : (m.raise T.core T.launch [(0, T.id, 0)] 0x73 T.pc T.hdr fl).sysQ k = m.sysQ k := by
      rw [hraised.frame]
      rfl
    rw [hkept, ← hm, sysQ_setSysQ, if_pos ⟨rfl, hlen⟩]
  · exact (hraised.member (List.mem_singleton.2 rfl) (by rw [hthrm]; rfl)).1

/-! ### The words that come back -/

theorem memBytes_drop (mem : Memory) : ∀ (k a n : Nat), (mem.bytes a n).drop k = mem.bytes (a + k) (n - k) := by
  intro k
  induction k with
  | zero => intro a n; rfl
  | succ k ih =>
    intro a n
    cases n with
    | zero => rw [Nat.zero_sub]; rfl
    | succ n =>
      rw [Memory.bytes, List.drop_succ_cons, ih, Nat.add_right_comm, Nat.add_sub_add_right]
      rfl

theorem memBytes_take (mem : Memory) : ∀ (k a n : Nat), k ≤ n → (mem.bytes a n).take k = mem.bytes a k := by
  intro k
  induction k with
  | zero => intro a n _; rfl
  | succ k ih =>
    intro a n h
    cases n with
    | zero => omega
    | succ n =>
      rw [Memory.bytes, List.take_succ_cons, ih (a + 1) n (by omega), Memory.bytes]

theorem bytesWords_getD (n : Nat) : ∀ (bs : List Byte) (i : Nat), i < n →
    (bytesWords n bs).getD i 0 = BitVec.ofNat 32 (ofBytes ((bs.drop (4 * i)).take 4)) := by
  induction n with
  | zero => intro bs i h; omega
  | succ n ih =>
    intro bs i h
    cases i with
    | zero => rfl
    | succ i =>
      rw [bytesWords, List.getD_cons_succ, ih _ _ (by omega), List.drop_drop]
      congr 4
      omega

theorem bytesWords_length (n : Nat) : ∀ bs, (bytesWords n bs).length = n := by
  induction n with
  | zero => intro bs; rfl
  | succ n ih => intro bs; rw [bytesWords, List.length_cons, ih]

/-- Words of four bytes that stand one after another. -/
theorem bytes_words {m : Mach} {a i : Nat} (hi : i < 4) (hmap : ∀ j, j < 4 → m.mapped (a + 4 * j) = false) :
    (bytesWords 4 (m.bytes a 16)).getD i 0 = wN (m.num (a + 4 * i) 4) := by
  have hbytes : m.bytes a 16 = m.mem.bytes a 16 := by
    unfold Mach.bytes
    rw [if_neg (by rw [show m.mapped a = false from hmap 0 (by decide)]; decide)]
  have hword : m.num (a + 4 * i) 4 = ofBytes (m.mem.bytes (a + 4 * i) 4) := by
    unfold Mach.num Mach.bytes
    rw [if_neg (by rw [hmap i hi]; decide)]
  rw [bytesWords_getD 4 _ i hi, hbytes, hword, memBytes_drop, memBytes_take _ _ _ _ (by omega)]
  rfl

/-- A thread filed at an address, of a launch that goes on. -/
theorem fileAt_spec {m : Mach} {k : Nat} {t : Thread} (pc : Pc) (ht : m.thr? k = some t) (hends : (m.launch t.launch).ending = none) :
    ∃ u, (m.fileAt k pc).thr? k = some u ∧ u.pc = pc ∧ u.stat = .filing ∧ u.regs = t.regs ∧
      m.fileAt k pc = { m with threads := (m.fileAt k pc).threads, filing := (m.fileAt k pc).filing } := by
  have hfile : m.fileAt k pc = (m.modThr k fun t => { t.boundary with waitSince := none }).enterFiling k { tid := k, pc := pc, reform := false } := by
    unfold Mach.fileAt
    rw [thr_of ht]
    dsimp only
    rw [hends]
    rfl
  have hmid : (m.modThr k fun t => { t.boundary with waitSince := none }).thr? k = some { t.boundary with waitSince := none } := by
    rw [thr?_modThr m k (fun t => { t.boundary with waitSince := none }) (fun _ => rfl) (by rw [ht]; rfl), ht, Option.map_some, if_pos rfl]
  refine ⟨{ { t.boundary with waitSince := none } with stat := .filing, pc := pc }, ?_, rfl, rfl, rfl, ?_⟩
  · rw [hfile]
    show ((m.modThr k fun t => { t.boundary with waitSince := none }).modThr k fun t => { t with stat := .filing, pc := pc }).thr? k = _
    rw [thr?_modThr _ k (fun t => { t with stat := .filing, pc := pc }) (fun _ => rfl) (by rw [hmid]; rfl), hmid, Option.map_some, if_pos rfl]
  · rw [hfile]
    rfl

theorem sysqCpl_returns (k : Nat) (v : DWord) (T : Thread) (fl : Nat) : StepsTo (.sysqCplWrite k v)
    (fun s =>
      let S := s.mach.sysQ k
      k < s.mach.sysqs.length ∧ S.slots = [(v.toNat % 4096, T.id, fl)] ∧ s.mach.thr? T.id = some T ∧
      s.mach.stopped T.launch = false ∧ (s.mach.launch T.launch).ending = none ∧ 4 ≤ T.regs.length ∧ v.getLsbD 63 = false ∧
      ∀ i, i < 4 → s.mach.mapped (S.base + 64 * (v.toNat % 4096) + 16 + 4 * i) = false)
    fun s t =>
      let at_ := (s.mach.sysQ k).base + 64 * (v.toNat % 4096) + 16
      MemoryKept s t ∧ (t.mach.sysQ k).slots = [] ∧ (t.mach.thr T.id).pc = T.pc + 8 ∧
      (∀ i, (t.mach.thr T.id).regs.getD i 0 = if i < 4 then wN (s.mach.num (at_ + 4 * i) 4) else T.regs.getD i 0) ∧
      (∀ c ∈ t.mach.copies, c.core ≠ T.core) ∧ ∀ q, (t.mach.thr T.id).stat ≠ .syscall k q := by
  rintro s - ⟨hlen, hslots, hthr, hgo, hends, hregs, htrap, hmap⟩
  have hexec := sysqCplWrite_applies hslots hthr hgo
  dsimp only at hexec
  rw [if_neg (by rw [htrap]; decide)] at hexec
  dsimp only
  generalize (s.mach.sysQ k).base + 64 * (v.toNat % 4096) + 16 = a at hexec hmap ⊢
  generalize hm : s.mach.setSysQ k { s.mach.sysQ k with
    slots := [], kept := (s.mach.sysQ k).kept.filter fun p => p.1 != v.toNat % 4096 } = m at hexec
  have hret : m.bytes a 16 = s.mach.bytes a 16 := by rw [← hm]; rfl
  rw [hret] at hexec
  generalize hws : bytesWords 4 (s.mach.bytes a 16) = ws at hexec
  have hwslen : ws.length = 4 := by rw [← hws, bytesWords_length]
  have hthrm : m.thr? T.id = some T := by
    rw [← hm]
    exact hthr
  generalize hm1 : ((m.acquire T.id 6 (.thread T.id)).dropCopies T.core).modThr T.id (fun t => t.wr (.v 0) ws) = m1 at hexec
  have hthr1 : m1.thr? T.id = some (T.wr (.v 0) ws) := by
    rw [← hm1, thr?_modThr ((m.acquire T.id 6 (.thread T.id)).dropCopies T.core) T.id (fun t => t.wr (.v 0) ws)
      (fun t => Thread.wr_id t _ _) (by rw [show ((m.acquire T.id 6 (.thread T.id)).dropCopies T.core).thr? T.id = some T from hthrm]; rfl),
      show ((m.acquire T.id 6 (.thread T.id)).dropCopies T.core).thr? T.id = some T from hthrm, Option.map_some, if_pos rfl]
  have hlaunch : (T.wr (.v 0) ws).launch = T.launch := by
    rw [Thread.wr, (wrFrom_frame (.v 0) ws T 0).1]
  obtain ⟨u, hu, hpc, hstat, huregs, hframe⟩ := fileAt_spec (m := m1) (T.pc + 8) hthr1 (by
    rw [hlaunch, ← hm1, ← hm]
    exact hends)
  generalize m1.fileAt T.id (T.pc + 8) = m2 at hexec hu hframe
  refine ⟨_, hexec, fun b => ?_, ?_, ?_, fun i => ?_, fun c hc => ?_, fun q => ?_⟩
  · have hmem1 : m1.mem = m.mem := by
      rw [← hm1]
      rfl
    have hmem : m.mem = s.mach.mem := by
      rw [← hm]
      rfl
    have hmem2 : m2.mem = m1.mem := by rw [hframe]
    exact congrArg (fun mem : Memory => mem.read b) (hmem2.trans (hmem1.trans hmem))
  · show (m2.sysQ k).slots = []
    have hkept : m2.sysQ k = m.sysQ k := by
      rw [hframe, ← hm1]
      rfl
    rw [hkept, ← hm, sysQ_setSysQ, if_pos ⟨rfl, hlen⟩]
  · show (m2.thr T.id).pc = _
    rw [thr_of hu, hpc]
  · show (m2.thr T.id).regs.getD i 0 = _
    rw [thr_of hu, huregs, Thread.wr, (wrFrom_v 0 ws T 0 i (by rw [hwslen]; exact hregs)).1, hwslen]
    have hzero : (0 : BitVec 8).toNat + 0 = 0 := rfl
    rw [hzero, Nat.zero_add, Nat.sub_zero]
    by_cases hi : i < 4
    · rw [if_pos ⟨Nat.zero_le _, hi⟩, if_pos hi, ← hws, bytes_words hi hmap]
    · rw [if_neg fun h => hi h.2, if_neg hi]
  · have hc' : c ∈ m2.copies := hc
    rw [hframe, ← hm1] at hc'
    have hdrop : c ∈ m.copies.filter fun c => c.core != T.core := hc'
    simpa using (List.mem_filter.1 hdrop).2
  · show (m2.thr T.id).stat ≠ _
    rw [thr_of hu, hstat]
    exact fun h => by cases h

/-- Settles O38, step by step. -/
theorem systemCalls : Obligations.SystemCalls := by
  unfold Obligations.SystemCalls
  exact ⟨fun h n s q hr _ hplain hen hlen => sysc_parks h n hr hplain hen hlen, syscallEntry_written, sysqCpl_returns, sysqCpl_traps⟩

end Sys2Proof.Machine
end

section
/-! SUPPORT. The picks of a core and its shuttle (spec/04 R122-R128). -/

namespace Sys2Proof.Machine

theorem coreSt_modCore (m : Mach) (k : Nat) (f : CoreSt → CoreSt) (hf : ∀ c, (f c).core = c.core) : (m.modCore k f).coreSt k = f (m.coreSt k) := by
  unfold Mach.modCore
  rw [coreSt_setCore, hf, coreSt_core, if_pos rfl]

/-! ### What moving quarters keeps -/

/-- Quarters change place, and units of the core; `cs` says that the rest of the machine is the same. -/
structure Moves (m m' : Mach) : Prop where
  frame : m' = { m with
    quarters := m'.quarters, cores := m'.cores, latch := m'.latch, ilines := m'.ilines, farLines := m'.farLines }
  quarter : ∀ k q, m.quarter? k = some q → ∃ q', m'.quarter? k = some q' ∧ q'.pc = q.pc ∧ q'.hdr = q.hdr ∧ q'.slots = q.slots

theorem Moves.refl (m : Mach) : Moves m m := ⟨rfl, fun _ q h => ⟨q, h, rfl, rfl, rfl⟩⟩

theorem Moves.trans {a b c : Mach} (h : Moves a b) (h' : Moves b c) : Moves a c where
  frame := by rw [h'.frame, h.frame]
  quarter k q hq := by
    obtain ⟨q1, hq1, hpc1, hhdr1, hslots1⟩ := h.quarter k q hq
    obtain ⟨q2, hq2, hpc2, hhdr2, hslots2⟩ := h'.quarter k q1 hq1
    exact ⟨q2, hq2, hpc2.trans hpc1, hhdr2.trans hhdr1, hslots2.trans hslots1⟩

/-- A step that moves quarters. -/
theorem Moves.step {f : Sys → Mach → Mach} {s : State} {m : Mach} (h : Moves s.mach m) (hs : Settled s) (hf : f s.sys s.mach = m) :
    onMach f s = .next (s.withMach m) ∧ OnlyMoves s (s.withMach m) := by
  refine ⟨onMach_quiet hs hf ?_ ?_ ?_, ?_, ?_, ?_, rfl, h.quarter⟩
  · rw [h.frame]
  · rw [h.frame]
  · rw [h.frame]
  · show m.threads = _
    rw [h.frame]
  · show m.mem = _
    rw [h.frame]
  · show m.flights = _
    rw [h.frame]

/-- A quarter that is written keeps its place in its thread's code, and stands under its id. -/
theorem setQ_moves {m : Mach} {q q' : Quarter} (hq : m.quarter? q.id = some q) (hid : q'.id = q.id) (hpc : q'.pc = q.pc)
    (hhdr : q'.hdr = q.hdr) (hslots : q'.slots = q.slots) (k : Nat) (f : CoreSt → CoreSt) :
    Moves m ((m.setQ q').modCore k f) ∧ ((m.setQ q').modCore k f).quarter? q.id = some q' ∧
      ∀ j, j ≠ q.id → ((m.setQ q').modCore k f).quarter? j = m.quarter? j := by
  have hset : ∀ j, ((m.setQ q').modCore k f).quarter? j = if q.id = j then (m.quarter? j).map (fun _ => q') else m.quarter? j := by
    intro j
    have h := quarter?_setQ m q' j
    rw [hid] at h
    exact h
  refine ⟨⟨rfl, fun j u hu => ?_⟩, ?_, fun j hj => ?_⟩
  · rw [hset]
    by_cases hj : q.id = j
    · rw [if_pos hj, hu, Option.map_some]
      have hqu : q = u := by
        rw [hj, hu] at hq
        exact (Option.some.inj hq).symm
      rw [← hqu]
      exact ⟨q', rfl, hpc, hhdr, hslots⟩
    · rw [if_neg hj]
      exact ⟨u, hu, rfl, rfl, rfl⟩
  · rw [hset, if_pos rfl, hq, Option.map_some]
  · rw [hset, if_neg fun h => hj h.symm]

/-! ### Picks -/

theorem mem_oldest {m : Mach} {core : Nat} {q : Quarter} (h : q ∈ m.oldest core) : q ∈ m.quarters :=
  (List.mem_filter.1 ((perm_sortBy _ _).mem_iff.1 h)).1

theorem splitGangs_none {m : Mach} (core : Nat) (h : ∀ u ∈ m.quarters, u.gang = none) : m.splitGangs core = m := by
  unfold Mach.splitGangs
  rw [List.filter_eq_nil_iff.2 fun u hu => by simp [h u hu]]
  rfl

theorem pickGang_none {y : Sys} {m : Mach} (core : Nat) (h : ∀ u ∈ m.quarters, u.gang = none) : m.pickGang y core = none := by
  unfold Mach.pickGang
  cases hf : (m.oldest core).find? fun q => m.ready y q && (m.level q || m.lags q) with
  | none => rfl
  | some q =>
    dsimp only
    rw [h q (mem_oldest (List.mem_of_find?_eq_some hf))]
    rfl

theorem find?_congr_mem {α : Type} {p q : α → Bool} (l : List α) (h : ∀ a ∈ l, p a = q a) : l.find? p = l.find? q := by
  induction l with
  | nil => rfl
  | cons a l ih =>
    rw [List.find?_cons, List.find?_cons, h a List.mem_cons_self, ih fun b hb => h b (List.mem_cons_of_mem _ hb)]

/-- Without gangs, the first pick is the oldest ready quarter that is not refused. -/
theorem pickOne_first {y : Sys} {m : Mach} (core : Nat) (h : ∀ u ∈ m.quarters, u.gang = none) :
    m.pickOne y core [] = (m.oldest core).find? fun u => m.ready y u && !m.refused y (m.coreSt core) u := by
  unfold Mach.pickOne
  refine find?_congr_mem _ fun u hu => ?_
  rw [h u (mem_oldest hu)]
  rfl

theorem hold_core (c : CoreSt) (cycle slice : Nat) (port : Option Nat) (wave : Bool) : (c.hold cycle slice port wave).core = c.core := by
  unfold CoreSt.hold
  cases port <;> rfl

theorem pick_moves (y : Sys) (m : Mach) (core : Nat) (q : Quarter) : Moves m (m.pick y core q) ∧
    (m.pick y core q).latch = m.latch ++ [q.id] ∧ ((m.pick y core q).coreSt core).pickedAt = some m.cycle := by
  refine ⟨⟨rfl, fun _ u hu => ⟨u, hu, rfl, rfl, rfl⟩⟩, rfl, ?_⟩
  unfold Mach.pick
  have hat := coreSt_modCore { m.keepLine q with latch := m.latch ++ [q.id] } core
    (fun c => { c.hold m.cycle (q.slice.getD 0) ((m.peek y q).bind portOf) false with pickedAt := some m.cycle })
    fun c => hold_core c _ _ _ _
  rw [hat]

theorem issuePick_picks (core : Nat) (q : Quarter) : StepsTo (.issuePick core)
    (fun s => (∀ u ∈ s.mach.quarters, u.gang = none) ∧ s.mach.issuedAbove core = false ∧ (s.mach.coreSt core).pickedAt = none ∧
      (s.mach.coreSt core).power = .c0 ∧ s.sys.thermtrip = false ∧
      (s.mach.oldest core).find? (fun u => s.mach.ready s.sys u && !s.mach.refused s.sys (s.mach.coreSt core) u) = some q)
    fun s t => OnlyMoves s t ∧ (∃ r, t.mach.latch = s.mach.latch ++ q.id :: r ∧ r.length ≤ 1) ∧
      (t.mach.coreSt core).pickedAt = some s.mach.cycle := by
  rintro s hs ⟨hgang, habove, hpicked, hpower, htrip, hfind⟩
  obtain ⟨hmoves1, hlatch1, hat1⟩ := pick_moves s.sys s.mach core q
  have hcycle : (s.mach.pick s.sys core q).cycle = s.mach.cycle := by rw [hmoves1.frame]
  generalize hm1 : s.mach.pick s.sys core q = m1 at hmoves1 hlatch1 hat1 hcycle
  have hstep : ∀ m2, (match m1.pickOne s.sys core [q.id] with
      | some b => m1.pick s.sys core b
      | none => m1) = m2 → exec (.issuePick core) s = onMach (fun _ _ => m2) s := by
    intro m2 hm2
    show execIssuePick core s = _
    unfold execIssuePick onMach
    dsimp only
    rw [splitGangs_none core hgang, habove, hpicked, hpower, htrip, bne_self_eq_false, Option.any_none, Bool.or_self, Bool.or_self, Bool.or_self, if_neg Bool.false_ne_true, pickGang_none core hgang]
    dsimp only
    rw [pickOne_first core hgang, hfind]
    dsimp only
    rw [hm1, ← hm2] <;> rfl
  show ∃ t, exec (.issuePick core) s = .next t ∧ _
  cases hsecond : m1.pickOne s.sys core [q.id] with
  | none =>
    obtain ⟨hexec, honly⟩ := hmoves1.step (f := fun _ _ => m1) hs rfl
    refine ⟨_, (hstep m1 (by rw [hsecond])).trans hexec, honly, ⟨[], hlatch1, Nat.zero_le _⟩, hat1⟩
  | some b =>
    obtain ⟨hmoves2, hlatch2, hat2⟩ := pick_moves s.sys m1 core b
    obtain ⟨hexec, honly⟩ := (hmoves1.trans hmoves2).step (f := fun _ _ => m1.pick s.sys core b) hs rfl
    refine ⟨_, (hstep (m1.pick s.sys core b) (by rw [hsecond])).trans hexec, honly, ⟨[b.id], ?_, Nat.le_refl _⟩, ?_⟩
    · show (m1.pick s.sys core b).latch = _
      rw [hlatch2, hlatch1, List.append_assoc]
      rfl
    · show ((m1.pick s.sys core b).coreSt core).pickedAt = _
      rw [hat2, hcycle]

/-! ### The shuttle -/

theorem shuttleNext_free {m : Mach} {core : Nat} (h : m.shuttleFree core = true) : m.shuttleNext core = m.cycle := by
  unfold Mach.shuttleFree at h
  unfold Mach.shuttleNext
  rw [List.all_eq_true] at h
  generalize (m.coreSt core).move = l at h
  induction l with
  | nil => rfl
  | cons v l ih =>
    have hv : v.2.2.2 ≤ m.cycle := by simpa using h v List.mem_cons_self
    rw [List.foldl_cons, show Nat.max m.cycle v.2.2.2 = m.cycle from Nat.max_eq_left hv]
    exact ih fun u hu => h u (List.mem_cons_of_mem _ hu)

/-- The quarter as it stands in a slice of the chamber. -/
def Quarter.loaded (q : Quarter) (slice entered : Nat) : Quarter := { q with slice := some slice, entered := entered, fresh := none }

/-- A quarter whose threads stand in the gallery, loaded into a slice. -/
theorem load_moves {m : Mach} {q : Quarter} (slice : Nat) (hq : m.quarter? q.id = some q) (hplace : ∀ k ∈ q.tids, (m.thr k).place = .gallery) :
    Moves m (m.load q slice) ∧ (m.load q slice).quarter? q.id = some (q.loaded slice (m.shuttleNext q.core + (q.bytes + 255) / 256 - 1)) ∧
      (∀ j, j ≠ q.id → (m.load q slice).quarter? j = m.quarter? j) ∧ (m.load q slice).threads = m.threads := by
  have hnone : (q.tids.filter fun t => (m.thr t).place != .gallery) = [] :=
    List.filter_eq_nil_iff.2 fun k hk => by simp [hplace k hk]
  have hload : m.load q slice = (m.setQ (q.loaded slice (m.shuttleNext q.core + (q.bytes + 255) / 256 - 1))).modCore q.core fun c =>
      c.carry m.cycle (m.shuttleNext q.core) q slice := by
    unfold Mach.load
    dsimp only
    rw [hnone]
    rfl
  rw [hload]
  obtain ⟨hmoves, hown, hother⟩ := setQ_moves hq (q' := q.loaded slice (m.shuttleNext q.core + (q.bytes + 255) / 256 - 1)) rfl rfl rfl rfl
    q.core fun c => c.carry m.cycle (m.shuttleNext q.core) q slice
  exact ⟨hmoves, hown, hother, rfl⟩

theorem shuttleLoad_one (core : Nat) (q : Quarter) : StepsTo (.shuttleLoad core)
    (fun s => s.mach.shuttleFree core = true ∧ s.mach.loadNext s.sys core = some q ∧ s.mach.quarter? q.id = some q ∧ q.gang = none ∧
      q.core = core ∧ q.bytes ≤ s.mach.sliceFree core (s.mach.roomiest core) ∧ ∀ k ∈ q.tids, (s.mach.thr k).place = .gallery)
    fun s t => OnlyMoves s t ∧ ∃ q', t.mach.quarter? q.id = some q' ∧ q'.slice = some (s.mach.roomiest core) ∧
      q'.entered = s.mach.cycle + (32 * q.rg + 255) / 256 - 1 := by
  rintro s hs ⟨hfree, hnext, hq, hgang, rfl, hroom, hplace⟩
  obtain ⟨hmoves, hown, -, -⟩ := load_moves (s.mach.roomiest q.core) hq hplace
  obtain ⟨hexec, honly⟩ := hmoves.step (f := fun y m => if !m.shuttleFree q.core then m else match m.loadNext y q.core with
    | none => m
    | some u => if !m.roomFor y u then m else match u.gang with
      | some g => (m.gangOut y g).foldl (fun m p => m.load p.2 p.1) m
      | none => m.load u (m.roomiest q.core)) hs (by
    have hfor : s.mach.roomFor s.sys q = true := by
      unfold Mach.roomFor
      rw [hgang]
      exact decide_eq_true hroom
    rw [hfree, hnext]
    dsimp only
    rw [hfor, hgang]
    rfl)
  refine ⟨_, hexec, honly, _, hown, rfl, ?_⟩
  show s.mach.shuttleNext q.core + _ - 1 = _
  rw [shuttleNext_free hfree]
  rfl

/-- The members of a gang, loaded one after another. -/
theorem loadAll_moves (l : List (Nat × Quarter)) : ∀ {m : Mach}, (l.map fun p => p.2.id).Nodup →
    (∀ p ∈ l, m.quarter? p.2.id = some p.2 ∧ ∀ k ∈ p.2.tids, (m.thr k).place = .gallery) →
    Moves m (l.foldl (fun m p => m.load p.2 p.1) m) ∧
      (∀ p ∈ l, ∃ q', (l.foldl (fun m p => m.load p.2 p.1) m).quarter? p.2.id = some q' ∧ q'.slice = some p.1) ∧
      ∀ j, j ∉ (l.map fun p => p.2.id) → (l.foldl (fun m p => m.load p.2 p.1) m).quarter? j = m.quarter? j := by
  induction l with
  | nil => exact fun {m} _ _ => ⟨.refl m, fun _ h => absurd h List.not_mem_nil, fun _ _ => rfl⟩
  | cons a l ih =>
    intro m hnodup hl
    rw [List.map_cons, List.nodup_cons] at hnodup
    obtain ⟨ha, hrest⟩ := hnodup
    obtain ⟨hq, hplace⟩ := hl a List.mem_cons_self
    obtain ⟨hmoves, hown, hother, hthreads⟩ := load_moves a.1 hq hplace
    have hthr : ∀ k, (m.load a.2 a.1).thr k = m.thr k := fun k => by
      unfold Mach.thr Mach.thr?
      rw [hthreads]
    obtain ⟨hmoves', hown', hother'⟩ := ih (m := m.load a.2 a.1) hrest fun p hp => by
      have hne : p.2.id ≠ a.2.id := fun h => ha (h ▸ List.mem_map_of_mem (f := fun p : Nat × Quarter => p.2.id) hp)
      obtain ⟨hqp, hpp⟩ := hl p (List.mem_cons_of_mem _ hp)
      exact ⟨(hother _ hne).trans hqp, fun k hk => by rw [hthr]; exact hpp k hk⟩
    rw [List.foldl_cons]
    refine ⟨hmoves.trans hmoves', fun p hp => ?_, fun j hj => ?_⟩
    · rcases List.mem_cons.1 hp with rfl | hp
      · exact ⟨_, (hother' _ ha).trans hown, rfl⟩
      · exact hown' p hp
    · rw [List.map_cons, List.mem_cons, not_or] at hj
      exact (hother' j hj.2).trans (hother j hj.1)

theorem shuttleLoad_gang (core g : Nat) (q : Quarter) : StepsTo (.shuttleLoad core)
    (fun s => s.mach.shuttleFree core = true ∧ s.mach.loadNext s.sys core = some q ∧ q.gang = some g ∧ s.mach.roomFor s.sys q = true ∧
      ((s.mach.gangOut s.sys g).map fun p => p.2.id).Nodup ∧ ∀ p ∈ s.mach.gangOut s.sys g, s.mach.quarter? p.2.id = some p.2 ∧
        ∀ k ∈ p.2.tids, (s.mach.thr k).place = .gallery)
    fun s t => OnlyMoves s t ∧ ∀ p ∈ s.mach.gangOut s.sys g, ∃ q', t.mach.quarter? p.2.id = some q' ∧ q'.slice = some p.1 := by
  rintro s hs ⟨hfree, hnext, hgang, hroom, hnodup, hmembers⟩
  obtain ⟨hmoves, hown, -⟩ := loadAll_moves (s.mach.gangOut s.sys g) hnodup hmembers
  obtain ⟨hexec, honly⟩ := hmoves.step (f := fun y m => if !m.shuttleFree core then m else match m.loadNext y core with
    | none => m
    | some u => if !m.roomFor y u then m else match u.gang with
      | some g => (m.gangOut y g).foldl (fun m p => m.load p.2 p.1) m
      | none => m.load u (m.roomiest core)) hs (by
    rw [hfree, hnext]
    dsimp only
    rw [hroom, hgang]
    rfl)
  exact ⟨_, hexec, honly, hown⟩

/-- A quarter that goes to the gallery. -/
theorem evict_moves {m : Mach} {q : Quarter} (hq : m.quarter? q.id = some q) :
    Moves m (m.evict q) ∧ (m.evict q).quarter? q.id = some { q with slice := none, readySince := m.cycle } := by
  obtain ⟨hmoves, hown, -⟩ := setQ_moves hq (q' := { q with slice := none, readySince := m.cycle }) rfl rfl rfl rfl
    q.core fun c => c.carry m.cycle m.cycle q (q.slice.getD 0)
  exact ⟨hmoves, hown⟩

theorem wait_long {w : Wait} (h : w ≠ .flags) : w.long = true := by
  cases w with
  | flags => exact absurd rfl h
  | _ => rfl

theorem shuttleEvict_longWait (core qid : Nat) (q : Quarter) (w : Wait) : StepsTo (.shuttleEvictLongWait core qid)
    (fun s => s.mach.quarter? qid = some q ∧ q.core = core ∧ q.slice ≠ none ∧ q.wait = some w ∧ w ≠ .flags ∧ s.mach.waitOver q = false ∧
      (∀ k ∈ q.tids, s.mach.landing k = false) ∧ s.mach.shuttleFree core = true)
    fun s t => OnlyMoves s t ∧ ∃ q', t.mach.quarter? qid = some q' ∧ q'.slice = none ∧ q'.wait = some w := by
  rintro s hs ⟨hq, hcore, hslice, hwait, hlong, hover, hlanding, hfree⟩
  have hid : q.id = qid := quarter?_id hq
  obtain ⟨hmoves, hown⟩ := evict_moves (m := s.mach) (q := q) (by rw [hid]; exact hq)
  have hland : (q.tids.any s.mach.landing) = false := List.any_eq_false.2 fun k hk => by rw [hlanding k hk]; decide
  have hmay : (decide (q.core = core) && q.slice.isSome && q.wait.any Wait.long && !s.mach.waitOver q && !(q.tids.any s.mach.landing) &&
      s.mach.shuttleFree core) = true := by
    rw [hland, hover, hfree, hwait, Option.isSome_iff_ne_none.2 hslice, decide_eq_true hcore, Option.any_some, wait_long hlong]
    rfl
  obtain ⟨hexec, honly⟩ := hmoves.step (f := fun _ _ => s.mach.evict q) hs rfl
  have hstep : exec (.shuttleEvictLongWait core qid) s = onMach (fun _ _ => s.mach.evict q) s := by
    show execShuttleEvictLongWait core qid s = _
    unfold execShuttleEvictLongWait onMach
    dsimp only
    rw [hq]
    dsimp only
    rw [if_pos hmay]
  refine ⟨_, hstep.trans hexec, honly, { q with slice := none, readySince := s.mach.cycle }, ?_, rfl, hwait⟩
  rw [← hid]
  exact hown

theorem shuttleEvict_forWaiting (core : Nat) (q u : Quarter) : StepsTo (.shuttleEvictForWaiting core)
    (fun s => s.mach.loadNext s.sys core = some q ∧ s.mach.roomFor s.sys q = false ∧ s.mach.shuttleFree core = true ∧
      (s.mach.oldest core).find? (fun u => s.mach.evictable u && s.mach.inTheWay s.sys q u) = some u ∧ s.mach.quarter? u.id = some u)
    fun s t => OnlyMoves s t ∧ ∃ u', t.mach.quarter? u.id = some u' ∧ u'.slice = none := by
  rintro s hs ⟨hnext, hroom, hfree, hfind, hu⟩
  obtain ⟨hmoves, hown⟩ := evict_moves hu
  obtain ⟨hexec, honly⟩ := hmoves.step (f := fun _ _ => s.mach.evict u) hs rfl
  have hstep : exec (.shuttleEvictForWaiting core) s = onMach (fun _ _ => s.mach.evict u) s := by
    show execShuttleEvictForWaiting core s = _
    unfold execShuttleEvictForWaiting onMach
    dsimp only
    rw [hnext]
    dsimp only
    rw [hroom, hfree, if_neg (by decide), hfind]
  exact ⟨_, hstep.trans hexec, honly, _, hown, rfl⟩

/-- Settles O31, step by step. -/
theorem quartersAreScheduled : Obligations.QuartersAreScheduled := by
  unfold Obligations.QuartersAreScheduled
  exact ⟨issuePick_picks, shuttleLoad_one, shuttleLoad_gang, shuttleEvict_longWait, shuttleEvict_forWaiting⟩

end Sys2Proof.Machine
end

section
/-! SUPPORT. Fault queues: entries that are posted, headers that are stored, invalidations (spec/06 R182, R183, R187, R194). -/

namespace Sys2Proof.Machine

/-! ### Numbers that have been stored -/

theorem toBytes_getD (k : Nat) : ∀ n i, i < k → (toBytes n k).getD i 0 = BitVec.ofNat 8 (n / 256 ^ i) := by
  induction k with
  | zero => exact fun _ _ h => absurd h (Nat.not_lt_zero _)
  | succ k ih =>
    intro n i hi
    cases i with
    | zero => rw [toBytes, List.getD_cons_zero, Nat.pow_zero, Nat.div_one]
    | succ i => rw [toBytes, List.getD_cons_succ, ih _ _ (Nat.lt_of_succ_lt_succ hi), Nat.div_div_eq_div_mul, Nat.pow_succ, Nat.mul_comm 256]

theorem ofBytes_lt (bs : List Byte) : ofBytes bs < 256 ^ bs.length := by
  induction bs with
  | nil => exact Nat.one_pos
  | cons b bs ih =>
    have hb : b.toNat < 256 := b.isLt
    rw [ofBytes, List.length_cons, Nat.pow_succ]
    omega

/-- Bytes that stand for a number. -/
theorem memBytes_toBytes {mem : Memory} (len : Nat) : ∀ a x, (∀ i, i < len → mem.read (a + i) = BitVec.ofNat 8 (x / 256 ^ i)) →
    mem.bytes a len = toBytes x len := by
  induction len with
  | zero => exact fun _ _ _ => rfl
  | succ len ih =>
    intro a x h
    rw [Memory.bytes, toBytes, ih (a + 1) (x / 256) fun i hi => ?_]
    · have h0 := h 0 (Nat.succ_pos _)
      rw [Nat.add_zero, Nat.pow_zero, Nat.div_one] at h0
      rw [h0]
    · have hi := h (i + 1) (Nat.succ_lt_succ hi)
      rw [Nat.pow_succ, Nat.mul_comm, ← Nat.div_div_eq_div_mul] at hi
      rw [Nat.add_assoc, Nat.add_comm 1, hi]

/-- A field of a number that stands in memory, as it is read. -/
theorem num_stored {m : Mach} {a n i len size : Nat} (hmap : m.mapped (a + i) = false) (hfit : i + len ≤ size)
    (hread : ∀ j, j < size → m.mem.read (a + j) = BitVec.ofNat 8 (n / 256 ^ j)) : m.num (a + i) len = n / 256 ^ i % 256 ^ len := by
  rw [Mach.num, Mach.bytes, hmap, if_neg Bool.false_ne_true, memBytes_toBytes len (a + i) (n / 256 ^ i) fun j hj => ?_, ofBytes_toBytes]
  rw [Nat.add_assoc, hread _ (by omega), Nat.pow_add, Nat.div_div_eq_div_mul]

theorem onMach_fires {f : Sys → Mach → Mach} {s : State} {m : Mach} {r : Nat} (hs : Settled s) (hf : f s.sys s.mach = m)
    (hfi : m.fired = s.mach.fired ++ [r]) (hc : m.cxlErrs = s.mach.cxlErrs) (hn : m.secnt = s.mach.secnt) :
    onMach f s = .next (s.withBoth { s.sys with irq := s.sys.irq.deliver r } { m with fired := [] }) := by
  rw [onMach, hf]
  refine congrArg _ ((settle_both (y := s.sys) hs hc hn rfl rfl).trans ?_)
  rw [hfi, hs.1]
  rfl

/-! ### Entries of the queue -/

theorem dom?_fdom {m : Mach} {fd : Nat} {d : FaultDom} (h : m.dom? fd = some d) : d.fdom = fd := by
  simpa using List.find?_some h

theorem dom?_setDom (m : Mach) (d : FaultDom) : (m.setDom d).dom? d.fdom = some d := by
  unfold Mach.dom? Mach.setDom
  rw [List.find?_cons, beq_self_eq_true]

/-- The fields of an entry. -/
theorem faultEntry_fields (p : FaultPost) (seq : Nat) :
    let n := faultEntry p seq
    n / 256 ^ 0 % 256 ^ 8 = p.va % 2 ^ 64 ∧ n / 256 ^ 8 % 256 ^ 8 = p.rcb % 2 ^ 64 ∧ n / 256 ^ 16 % 256 ^ 4 = seq % 2 ^ 32 ∧
      n / 256 ^ 20 % 256 ^ 2 = p.core % 2 ^ 16 ∧ n / 256 ^ 22 % 256 ^ 1 % 2 ^ 7 = p.cause % 2 ^ 7 ∧
      n / 256 ^ 24 % 256 ^ 1 = p.nthr % 256 := by
  have hw : ∃ w, w < 2 ∧ (if p.write then 2 ^ 183 else 0) = w * 2 ^ 183 := by
    cases p.write
    · exact ⟨0, by omega, rfl⟩
    · exact ⟨1, by omega, rfl⟩
  have hf : ∃ w, w < 2 ∧ (if p.fetch then 2 ^ 184 else 0) = w * 2 ^ 184 := by
    cases p.fetch
    · exact ⟨0, by omega, rfl⟩
    · exact ⟨1, by omega, rfl⟩
  obtain ⟨w, hw, hwe⟩ := hw
  obtain ⟨f, hf, hfe⟩ := hf
  intro n
  have hn : n = faultEntry p seq := rfl
  rw [faultEntry, hwe, hfe] at hn
  clear_value n
  clear hwe hfe
  refine ⟨?_, ?_, ?_, ?_, ?_, ?_⟩ <;> omega

/-- The machine in which an entry has been written. -/
def Mach.posted (m : Mach) (d : FaultDom) (fd : Nat) (p p' : FaultPost) : Mach :=
  let tail := m.num d.base 4
  let u := m.devStore (d.base + 64 + 32 * (tail % 2 ^ d.log2)) (toBytes (faultEntry p' tail) 32)
  let u := ((u.devStore d.base (toBytes (tail + 1) 4)).setDom { d with stopped := false }).fire fd
  match p.owner with
  | .sump r => { u with
      posts := u.posts.erase p
      sump := u.sump.map fun x => if x.id == r then { x with seq := some tail } else x }
  | _ => { u with posts := u.posts.map fun x => if x == p then { p' with seq := some tail } else x }

/-- What a posted entry leaves, and the memory after it. -/
theorem posted_spec {m : Mach} {d : FaultDom} (fd : Nat) (p p' : FaultPost) (hbase : m.mapped d.base = false)
    (hslot : m.mapped (d.base + 64 + 32 * (m.num d.base 4 % 2 ^ d.log2)) = false) :
    (m.posted d fd p p' = { m with
      mem := (m.posted d fd p p').mem, eccDouble := (m.posted d fd p p').eccDouble, eccSingle := (m.posted d fd p p').eccSingle,
      doms := (m.posted d fd p p').doms, fired := m.fired ++ [fd], posts := (m.posted d fd p p').posts,
      sump := (m.posted d fd p p').sump }) ∧
    (m.posted d fd p p').mem = (m.mem.put (d.base + 64 + 32 * (m.num d.base 4 % 2 ^ d.log2))
      (toBytes (faultEntry p' (m.num d.base 4)) 32)).put d.base (toBytes (m.num d.base 4 + 1) 4) := by
  have hmem := (devStore_put (m := m.devStore (d.base + 64 + 32 * (m.num d.base 4 % 2 ^ d.log2)) (toBytes (faultEntry p' (m.num d.base 4)) 32))
    (toBytes (m.num d.base 4 + 1) 4) hbase).trans (congrArg (fun mem : Memory => mem.put d.base _) (devStore_put _ hslot))
  obtain ⟨mem, e1, e2, hu⟩ : ∃ mem e1 e2, (m.devStore (d.base + 64 + 32 * (m.num d.base 4 % 2 ^ d.log2))
      (toBytes (faultEntry p' (m.num d.base 4)) 32)).devStore d.base (toBytes (m.num d.base 4 + 1) 4) =
      { m with mem := mem, eccDouble := e1, eccSingle := e2 } := ⟨_, _, _, rfl⟩
  rw [hu] at hmem
  rw [← hmem]
  unfold Mach.posted
  dsimp only
  rw [hu]
  cases p.owner <;> exact ⟨rfl, rfl⟩

theorem execFaultEntryPost_eq {s : State} {fd : Nat} {d : FaultDom} {p p' : FaultPost} (hd : s.mach.dom? fd = some d) (hused : d.used = true)
    (hp : s.mach.posts.find? (fun p => p.fdom == fd && p.seq.isNone) = some p) (hp' : s.mach.fresh p = some p')
    (hecc : s.mach.eccDouble = []) :
    exec (.faultEntryPost fd) s = onMach (fun _ m =>
      if (m.num d.base 4 + 2 ^ 32 - d.accepted) % 2 ^ 32 < 2 ^ d.log2 then m.posted d fd p p' else m) s := by
  have hnone : (wordsOf d.base 64).find? s.mach.eccDouble.contains = none := by
    rw [hecc]
    exact List.find?_eq_none.2 fun _ _ => by simp
  show execFaultEntryPost fd s = _
  unfold execFaultEntryPost onMach
  dsimp only
  rw [hd, hp]
  dsimp only
  rw [hp']
  dsimp only
  rw [hnone]
  dsimp only
  rw [if_pos hused]
  dsimp only
  by_cases hroom : (s.mach.num d.base 4 + 2 ^ 32 - d.accepted) % 2 ^ 32 < 2 ^ d.log2
  · rw [if_pos hroom, if_pos hroom]
    refine congrArg (fun m => Host.Outcome.next ({ s with mach := m } : State).settle) ?_
    unfold Mach.posted
    cases p.owner <;> rfl
  · rw [if_neg hroom, if_neg hroom, Option.any_some, if_pos hused]

theorem faultEntryPost_posts (fd : Nat) (d : FaultDom) (p p' : FaultPost) : StepsTo (.faultEntryPost fd)
    (fun s => s.mach.dom? fd = some d ∧ d.used = true ∧ s.mach.posts.find? (fun p => p.fdom == fd && p.seq.isNone) = some p ∧
      s.mach.fresh p = some p' ∧ s.mach.eccDouble = [] ∧ s.mach.mem.wf = true ∧ d.log2 ≤ 32 ∧
      (∀ x, d.base ≤ x → x < d.base + 64 + 32 * 2 ^ d.log2 → s.mach.mapped x = false) ∧ (s.mach.num d.base 4 + 2 ^ 32 - d.accepted) % 2 ^ 32 < 2 ^ d.log2)
    fun s t =>
      let tail := s.mach.num d.base 4
      let at_ := d.base + 64 + 32 * (tail % 2 ^ d.log2)
      t.mach.num d.base 4 = (tail + 1) % 2 ^ 32 ∧ t.mach.num at_ 8 = p'.va % 2 ^ 64 ∧ t.mach.num (at_ + 8) 8 = p'.rcb % 2 ^ 64 ∧
      t.mach.num (at_ + 16) 4 = tail ∧ t.mach.num (at_ + 20) 2 = p'.core % 2 ^ 16 ∧
      bits (t.mach.num (at_ + 22) 1) 0 7 = p'.cause % 2 ^ 7 ∧ t.mach.num (at_ + 24) 1 = p'.nthr % 256 ∧
      (∀ a, (a < d.base ∨ d.base + 4 ≤ a) → (a < at_ ∨ at_ + 32 ≤ a) → t.mach.mem.read a = s.mach.mem.read a) ∧
      t.sys.irq = s.sys.irq.deliver fd ∧ t.mach.threads = s.mach.threads := by
  rintro s hs ⟨hd, hused, hp, hp', hecc, hwf, -, hmap, hroom⟩
  have hslot : s.mach.num d.base 4 % 2 ^ d.log2 < 2 ^ d.log2 := Nat.mod_lt _ (Nat.two_pow_pos _)
  have htail : s.mach.num d.base 4 < 2 ^ 32 := by
    rw [Mach.num, Mach.bytes, hmap _ (Nat.le_refl _) (by omega), if_neg Bool.false_ne_true]
    have hlt := ofBytes_lt (s.mach.mem.bytes d.base 4)
    rwa [memBytes_length] at hlt
  obtain ⟨hframe, hmem⟩ := posted_spec (m := s.mach) (d := d) fd p p' (hmap _ (Nat.le_refl _) (by omega)) (hmap _ (by omega) (by omega))
  have hexec := execFaultEntryPost_eq hd hused hp hp' hecc
  generalize hu : s.mach.posted d fd p p' = u at hframe hmem
  have hstep := onMach_fires (m := u) (r := fd) (f := fun _ m =>
      if (m.num d.base 4 + 2 ^ 32 - d.accepted) % 2 ^ 32 < 2 ^ d.log2 then m.posted d fd p p' else m) hs
    (by rw [if_pos hroom, hu]) (by rw [hframe]) (by rw [hframe]) (by rw [hframe])
  refine ⟨_, hexec.trans hstep, ?_⟩
  have humap : ∀ x, u.mapped x = s.mach.mapped x := fun x => by rw [hframe]; rfl
  have hthreads : u.threads = s.mach.threads := by rw [hframe]
  clear hframe hu hexec hstep
  dsimp only
  generalize s.mach.num d.base 4 = tail at *
  generalize hat : d.base + 64 + 32 * (tail % 2 ^ d.log2) = at_ at *
  obtain ⟨hin1, hout1⟩ := put_wf_read at_ (toBytes (faultEntry p' tail) 32) hwf
  obtain ⟨hin2, hout2⟩ := put_wf_read d.base (toBytes (tail + 1) 4) (Memory.wf_put _ at_ (toBytes (faultEntry p' tail) 32) hwf)
  rw [toBytes_length] at hin1 hout1 hin2 hout2
  rw [← hmem] at hin2 hout2
  have hentry : ∀ j, j < 32 → u.mem.read (at_ + j) = BitVec.ofNat 8 (faultEntry p' tail / 256 ^ j) := fun j hj => by
    rw [hout2 _ (by omega), hin1 j hj, toBytes_getD _ _ _ hj]
  have hfield : ∀ i len, i + len ≤ 32 → 1 ≤ len → u.num (at_ + i) len = faultEntry p' tail / 256 ^ i % 256 ^ len := fun i len hi hlen =>
    num_stored (by rw [humap, hmap _ (by omega) (by omega)]) hi hentry
  have hhead : u.num (d.base + 0) 4 = (tail + 1) / 256 ^ 0 % 256 ^ 4 :=
    num_stored (size := 4) (by rw [humap, hmap _ (by omega) (by omega)]) (Nat.le_refl _) fun j hj => by
      rw [hin2 j hj, toBytes_getD _ _ _ hj]
  obtain ⟨hva, hrcb, hseq, hcore, hcause, hnthr⟩ := faultEntry_fields p' tail
  refine ⟨?_, ?_, ?_, ?_, ?_, ?_, ?_, fun a ha ha' => ?_, rfl, hthreads⟩
  · show u.num d.base 4 = _
    rw [← Nat.add_zero d.base, hhead, Nat.pow_zero, Nat.div_one]
    rfl
  · exact (hfield 0 8 (by omega) (by omega)).trans hva
  · exact (hfield 8 8 (by omega) (by omega)).trans hrcb
  · exact (hfield 16 4 (by omega) (by omega)).trans (hseq.trans (Nat.mod_eq_of_lt htail))
  · exact (hfield 20 2 (by omega) (by omega)).trans hcore
  · show bits (u.num (at_ + 22) 1) 0 7 = _
    rw [hfield 22 1 (by omega) (by omega), bits, Nat.pow_zero, Nat.div_one]
    exact hcause
  · exact (hfield 24 1 (by omega) (by omega)).trans hnthr
  · show u.mem.read a = _
    rw [hout2 _ ha, hout1 _ ha']

theorem faultEntryPost_full (fd : Nat) (d : FaultDom) (p p' : FaultPost) : Steps (.faultEntryPost fd)
    (fun s => s.mach.dom? fd = some d ∧ d.used = true ∧ s.mach.posts.find? (fun p => p.fdom == fd && p.seq.isNone) = some p ∧
      s.mach.fresh p = some p' ∧ s.mach.eccDouble = [] ∧ 2 ^ d.log2 ≤ (s.mach.num d.base 4 + 2 ^ 32 - d.accepted) % 2 ^ 32) fun s => s := by
  rintro s hs ⟨hd, hused, hp, hp', hecc, hfull⟩
  rw [execFaultEntryPost_eq hd hused hp hp' hecc]
  exact onMach_quiet hs (by rw [if_neg (Nat.not_lt.2 hfull)]) rfl rfl rfl

/-! ### Headers that are stored -/

theorem setDom_num (m : Mach) (d : FaultDom) (a len : Nat) : (m.setDom d).num a len = m.num a len := rfl

/-- The answer that an entry of the queue gives. -/
def entryAnswer (e : Nat) : Option Nat :=
  if bits e 200 1 = 0 then none else if 0x20 ≤ bits e 208 7 ∧ bits e 208 7 < 0x40 then some (bits e 208 7) else some 0x22

theorem serve_record {m : Mach} {d : FaultDom} {pos : Nat} {r : SumpRec}
    (hr : let e := m.num (d.base + 64 + 32 * (pos % 2 ^ d.log2)) 32
      m.sump.find? (fun r => r.fdom == d.fdom && r.core == bits e 160 16 && r.seq == some (bits e 128 32) && !r.lock && r.answer.isNone) = some r) :
    m.serve d pos = { m with
      sump := m.sump.filter (fun u => u.id != r.id) ++
        [{ r with answer := some (entryAnswer (m.num (d.base + 64 + 32 * (pos % 2 ^ d.log2)) 32)) }] } := by
  dsimp only at hr
  unfold Mach.serve
  dsimp only
  rw [hr]
  dsimp only
  unfold Mach.answerRec entryAnswer
  rw [apply_ite some (0x20 ≤ bits (m.num (d.base + 64 + 32 * (pos % 2 ^ d.log2)) 32) 208 7 ∧
    bits (m.num (d.base + 64 + 32 * (pos % 2 ^ d.log2)) 32) 208 7 < 0x40)]

/-- The header store of one command, whose entries are `k`, where its INVSEQ is the one that has been seen. -/
theorem headerStore_serves {s : State} {fd seq cmd head : Nat} {d : FaultDom} (hd : s.mach.dom? fd = some d)
    (hseen : d.seen = [(seq, cmd, head)]) (hseq : seq = d.invSeen) (hused : d.used = true)
    (hone : (head + 2 ^ 32 - d.accepted) % 2 ^ 32 = 1) (htail : s.mach.num d.base 4 = head) :
    exec (.faultQueueHeaderStore fd) s = onMach (fun _ m =>
      ((m.setDom { d with seen := [] }).setDom { d with seen := [], accepted := head }).serve { d with seen := [] } (d.accepted % 2 ^ 32)) s := by
  show execFaultQueueHeaderStore fd s = _
  unfold execFaultQueueHeaderStore onMach
  dsimp only
  rw [hd]
  dsimp only
  rw [hseen]
  dsimp only
  rw [decide_eq_true hseq, Bool.true_or, if_pos rfl]
  dsimp only
  rw [setDom_num, htail, hone, if_pos (by rw [hused]; decide)]
  rfl

theorem headerStore_answers (fd : Nat) (d : FaultDom) (r : SumpRec) (seq cmd head : Nat) : StepsTo (.faultQueueHeaderStore fd)
    (fun s => s.mach.dom? fd = some d ∧ d.seen = [(seq, cmd, head)] ∧ seq = d.invSeen ∧ d.used = true ∧
      head = (d.accepted + 1) % 2 ^ 32 ∧ d.accepted < 2 ^ 32 ∧ s.mach.num d.base 4 = head ∧ d.fdom = fd ∧
      (let e := s.mach.num (d.base + 64 + 32 * (d.accepted % 2 ^ d.log2)) 32
       s.mach.sump.find? (fun r => r.fdom == fd && r.core == bits e 160 16 && r.seq == some (bits e 128 32) && !r.lock &&
         r.answer.isNone) = some r))
    fun s t => MemoryKept s t ∧ (∃ d', t.mach.dom? fd = some d' ∧ d'.accepted = head ∧ d'.seen = []) ∧
      t.mach.threads = s.mach.threads ∧ t.mach.sump = s.mach.sump.filter (fun u => u.id != r.id) ++
        [let e := s.mach.num (d.base + 64 + 32 * (d.accepted % 2 ^ d.log2)) 32
         { r with answer := some (if bits e 200 1 = 0 then none
             else if 0x20 ≤ bits e 208 7 ∧ bits e 208 7 < 0x40 then some (bits e 208 7) else some 0x22) }] := by
  rintro s hs ⟨hd, hseen, hseq, hused, hhead, hlt, htail, rfl, hr⟩
  have hexec := headerStore_serves hd hseen hseq hused (by omega) htail
  have hserve := serve_record (m := (s.mach.setDom { d with seen := [] }).setDom { d with seen := [], accepted := head })
    (d := { d with seen := [] }) (pos := d.accepted % 2 ^ 32) (r := r) (by rw [Nat.mod_eq_of_lt hlt]; exact hr)
  rw [Nat.mod_eq_of_lt hlt] at hserve hexec
  refine ⟨_, hexec.trans (onMach_quiet hs hserve rfl rfl rfl), fun _ => rfl, ⟨_, dom?_setDom _ _, rfl, rfl⟩, rfl, rfl⟩

/-- The header store of a command of a new INVSEQ that serves no entry. -/
theorem headerStore_invalidates {s : State} {fd seq cmd head : Nat} {d : FaultDom} (hd : s.mach.dom? fd = some d)
    (hseen : d.seen = [(seq, cmd, head)]) (hseq : seq ≠ d.invSeen) (hnone : (head + 2 ^ 32 - d.accepted) % 2 ^ 32 = 0) :
    exec (.faultQueueHeaderStore fd) s = onMach (fun y m =>
      let r := (m.dropPages fd cmd).1.rcTurn y { d with
        seen := [], invSeen := seq, inv := some (seq, cmd), waits := d.waits ++ (m.dropPages fd cmd).2 } cmd
      r.1.setDom r.2) s := by
  show execFaultQueueHeaderStore fd s = _
  unfold execFaultQueueHeaderStore onMach
  dsimp only
  rw [hd]
  dsimp only
  rw [hseen]
  dsimp only
  rw [decide_eq_false hseq, Bool.false_or, List.any_nil, if_neg Bool.false_ne_true]
  rw [if_neg]
  show ¬ (_ && (head + 2 ^ 32 - d.accepted) % 2 ^ 32 != 0 && _) = true
  rw [hnone]
  simp

theorem headerStore_drops (fd : Nat) (d : FaultDom) (seq cmd head : Nat) : StepsTo (.faultQueueHeaderStore fd)
    (fun s => s.mach.dom? fd = some d ∧ d.fdom = fd ∧ d.seen = [(seq, cmd, head)] ∧ seq ≠ d.invSeen ∧ head = d.accepted ∧
      d.accepted < 2 ^ 32)
    fun s t => MemoryKept s t ∧ (∃ d', t.mach.dom? fd = some d' ∧ d'.inv = some (seq, cmd) ∧ d'.invSeen = seq) ∧
      t.mach.tlbs = s.mach.tlbs.filter (fun x => !(x.fdom == fd && (tbit cmd 63 || bits cmd 0 16 != 0 &&
        overlap (x.page * 2 ^ x.shift) (2 ^ x.shift) (bits cmd 16 41 * 2 ^ 16) (bits cmd 0 16 * 2 ^ 16)))) ∧
      (∀ w ∈ t.mach.walks, w.named fd cmd = false) ∧ (∀ c ∈ t.mach.copies, c.fdom = fd → invNames cmd (c.line * 64) = false) ∧
      ∀ c ∈ t.mach.ilines, c.2.1 = fd → invNames cmd (c.2.2 * 64) = false := by
  rintro s hs ⟨hd, rfl, hseen, hseq, rfl, hlt⟩
  have hexec := headerStore_invalidates hd hseen hseq (by omega)
  have hcopy : ∀ {α : Type} (l : List α) (p q : α → Bool) (c : α), c ∈ l.filter (fun c => !(p c && q c)) → p c = true → q c = false := by
    intro α l p q c hc hp
    have h := (List.mem_filter.1 hc).2
    rw [hp] at h
    simpa using h
  refine ⟨_, hexec.trans (onMach_quiet hs rfl rfl rfl rfl), fun _ => rfl, ⟨_, dom?_setDom _ _, rfl, rfl⟩, rfl, fun w hw => ?_,
    fun c hc hfd => ?_, fun c hc hfd => ?_⟩
  · simpa using (List.mem_filter.1 (show w ∈ s.mach.walks.filter fun w => !w.named d.fdom cmd from hw)).2
  · exact hcopy s.mach.copies (fun c => c.fdom == d.fdom) (fun c => invNames cmd (c.line * 64)) c hc (beq_iff_eq.2 hfd)
  · exact hcopy s.mach.ilines (fun c => c.2.1 == d.fdom) (fun c => invNames cmd (c.2.2 * 64)) c hc (beq_iff_eq.2 hfd)

/-! ### The end of an invalidation -/

theorem invalidationDone_waits (fd : Nat) (d : FaultDom) : Steps (.invalidationDone fd)
    (fun s => s.mach.dom? fd = some d ∧ s.mach.awaits d.waits = true) fun s => s := by
  rintro s hs ⟨hd, hwaits⟩
  show execInvalidationDone fd s = _
  unfold execInvalidationDone
  refine onMach_quiet hs ?_ rfl rfl rfl
  rw [hd]
  dsimp only
  cases d.inv with
  | none => rfl
  | some p => exact if_pos hwaits

theorem clearStamps_frame (keep : List Nat) (l : List (Nat × Nat)) : ∀ m : Mach, ∃ st,
    l.foldl (fun m f => m.clearStamps f.1 f.2 keep) m = { m with stamps := st } := by
  induction l with
  | nil => exact fun m => ⟨m.stamps, rfl⟩
  | cons a l ih =>
    intro m
    obtain ⟨st, hst⟩ := ih (m.clearStamps a.1 a.2 keep)
    exact ⟨st, hst⟩

theorem invalidationDone_acks (fd : Nat) (d : FaultDom) (seq cmd : Nat) : StepsTo (.invalidationDone fd)
    (fun s => s.mach.dom? fd = some d ∧ d.fdom = fd ∧ d.inv = some (seq, cmd) ∧ s.mach.awaits d.waits = false ∧ s.mach.mem.wf = true ∧
      s.mach.mapped (d.base + 28) = false)
    fun s t => t.mach.num (d.base + 28) 4 = seq % 2 ^ 32 ∧
      (∀ a, a < d.base + 28 ∨ d.base + 32 ≤ a → t.mach.mem.read a = s.mach.mem.read a) ∧
      ∃ d', t.mach.dom? fd = some d' ∧ d'.inv = none := by
  rintro s hs ⟨hd, rfl, hinv, hwaits, hwf, hmap⟩
  obtain ⟨st, hst⟩ := clearStamps_frame d.rcKeep d.rcNew (s.mach.devStore (d.base + 28) (toBytes seq 4))
  have hmem := devStore_put (toBytes seq 4) hmap
  have hexec : exec (.invalidationDone d.fdom) s = .next (s.withMach (({ s.mach.devStore (d.base + 28) (toBytes seq 4) with
      stamps := st } : Mach).setDom { d with inv := none, waits := [], rcNew := [], rcKeep := [] })) := by
    show execInvalidationDone d.fdom s = _
    unfold execInvalidationDone
    refine onMach_quiet hs ?_ rfl rfl rfl
    rw [hd]
    dsimp only
    rw [hinv]
    dsimp only
    rw [hwaits, if_neg Bool.false_ne_true, hst]
  obtain ⟨hin, hout⟩ := put_wf_read (d.base + 28) (toBytes seq 4) hwf
  rw [toBytes_length] at hin hout
  rw [← hmem] at hin hout
  refine ⟨_, hexec, ?_, hout, _, dom?_setDom _ _, rfl⟩
  have hnum := num_stored (m := s.mach.devStore (d.base + 28) (toBytes seq 4)) (a := d.base + 28) (n := seq) (i := 0) (len := 4) (size := 4)
    hmap (Nat.le_refl _) fun j hj => by rw [hin j hj, toBytes_getD _ _ _ hj]
  rw [Nat.pow_zero, Nat.div_one] at hnum
  exact hnum

/-! ### Records that are resumed -/

theorem tick_step (s : State) (n : Nat) (rest : List Turn) (hl : s.mach.latch = []) (ha : s.agenda = .tick n :: rest) :
    step s = .next ({ s with agenda := rest, mach := s.mach.resumeServed.tick s.sys n } : State).settle := by
  unfold step stage
  rw [hl, ha]
  rfl

/-- What a cause leaves of the records of the sump and of its own threads, where their launch goes on. -/
theorem raise_shape {m : Mach} {core launch : Nat} {who : List (Nat × Nat × Nat)} {cause : Nat} {pc : Pc} {hdr : Option (Pc × DWord)}
    {flag : Nat} {impr waitBit : Bool} (hne : who ≠ []) (hends : (m.launch launch).ending = none)
    (hwho : ∀ p ∈ who, (m.thr p.2.1).stat ≠ .ended ∧ (m.thr p.2.1).isHandler = false) :
    (m.raise core launch who cause pc hdr flag impr waitBit).threads = (((who.map fun p => p.2.1).foldl Mach.pull m).modAll
      (who.map fun p => p.2.1) fun t => t.trapped (raisedGroup m core launch who cause pc hdr flag impr waitBit)).threads ∧
    (m.raise core launch who cause pc hdr flag impr waitBit).sump = ((who.map fun p => p.2.1).foldl Mach.pull m).sump := by
  have hlive : who.filter (fun p => (m.thr p.2.1).stat != .ended) = who :=
    List.filter_eq_self.2 fun p hp => by simpa using (hwho p hp).1
  have hplain : (who.any fun p => (m.thr p.2.1).isHandler) = false :=
    List.any_eq_false.2 fun p hp => by simp [(hwho p hp).2]
  unfold Mach.raise
  simp only [hlive, if_neg hne, hends, Option.isSome_none, hplain, Bool.false_eq_true, if_false]
  exact ⟨rfl, rfl⟩

theorem pull_sump (m : Mach) (k : Nat) : (m.pull k).sump.map SumpRec.id = m.sump.map SumpRec.id := by
  unfold Mach.pull
  rw [detach_frame]
  exact List.map_map.trans rfl

theorem pullAll_sump (ids : List Nat) : ∀ m : Mach, (ids.foldl Mach.pull m).sump.map SumpRec.id = m.sump.map SumpRec.id := by
  induction ids with
  | nil => exact fun _ => rfl
  | cons k ids ih => exact fun m => (ih (m.pull k)).trans (pull_sump m k)

theorem modAll_stat {m : Mach} {ids : List Nat} {f : Thread → Thread} {st : TStat} (hid : ∀ t, (f t).id = t.id) (hst : ∀ t, (f t).stat = st) :
    ∀ u ∈ (m.modAll ids f).threads, u.id ∈ ids → u.stat = st := by
  intro u hu hk
  obtain ⟨v, -, rfl⟩ := List.mem_map.1 hu
  split
  case isTrue => exact hst v
  case isFalse h =>
    rw [if_neg h] at hk
    exact absurd (List.contains_iff_mem.2 hk) h

/-- A thread that is not held is no handler that replays. -/
theorem not_heldHandler {m : Mach} {k : Nat} (core : Nat) (h : ∀ u ∈ m.threads, u.id = k → u.heldIn = none) : k ∉ m.heldHandlers core := by
  intro hk
  obtain ⟨p, hp, rfl⟩ := List.mem_map.1 hk
  obtain ⟨t, ht, rfl⟩ := List.mem_map.1 ((perm_sortBy _ _).mem_iff.1 hp)
  obtain ⟨hmem, hheld⟩ := List.mem_filter.1 ht
  rw [h t hmem rfl, Option.isSome_none, Bool.and_false] at hheld
  exact Bool.false_ne_true hheld

/-- A machine in which a record that has been answered, for one thread, is gone. -/
def Mach.freed (m : Mach) (r : SumpRec) (order : List SyncStep) : Mach :=
  { m with sump := m.sump.filter (fun u => u.id != r.id), copies := m.copies.filter (fun c => c.core != r.core), order := order }

/-- A record for one thread, once resumed: the thread has been filed or has taken its cause. -/
theorem resumeServed_one {m : Mach} {r : SumpRec} {T : Thread} {ans : Option Nat} (hone : m.sump.filter (fun u => u.answer.isSome) = [r])
    (hans : r.answer = some ans) (hthr : r.threads = [T.id])
    (hheld : ∀ u ∈ (Mach.unpark ((m.freed r m.order).acquire T.id 6 .none) r T.id ans).threads, u.id = T.id → u.heldIn = none) :
    m.resumeServed = Mach.unpark ((m.freed r m.order).acquire T.id 6 .none) r T.id ans := by
  unfold Mach.resumeServed
  rw [hone, List.foldl_cons, List.foldl_nil, hans]
  show Mach.resumeRec m r ans = _
  unfold Mach.resumeRec
  rw [hthr]
  dsimp only
  rw [inOrder_single, List.foldl_cons, List.foldl_nil]
  have hfreed : Mach.dropCopies { m with sump := m.sump.filter fun u => u.id != r.id } r.core = m.freed r m.order := rfl
  rw [hfreed]
  have hback : ((Mach.unpark ((m.freed r m.order).acquire T.id 6 .none) r T.id ans).heldHandlers r.core).filter [T.id].contains = [] := by
    refine List.filter_eq_nil_iff.2 fun k hk hc => ?_
    have hkT : k = T.id := by simpa using hc
    exact not_heldHandler r.core hheld (hkT ▸ hk)
  rw [hback, if_pos (by simp)]

/-- The freed machine in which the thread has acquired. -/
def Mach.freedFor (m : Mach) (r : SumpRec) (k : Nat) : Mach := (m.freed r m.order).acquire k 6 .none

theorem freedFor_thr? (m : Mach) (r : SumpRec) (k j : Nat) : (m.freedFor r k).thr? j = m.thr? j := rfl

theorem freedFor_launch (m : Mach) (r : SumpRec) (k l : Nat) : (m.freedFor r k).launch l = m.launch l := rfl

theorem freedFor_sump {m : Mach} {r : SumpRec} {k : Nat} {l : List SumpRec}
    (hl : l.map SumpRec.id = (m.freedFor r k).sump.map SumpRec.id) : ∀ x ∈ l, x.id ≠ r.id := by
  intro x hx
  have hx := hl ▸ List.mem_map_of_mem (f := SumpRec.id) hx
  obtain ⟨u, hu, hid⟩ := List.mem_map.1 hx
  have hne : u.id ≠ r.id := by simpa using (List.mem_filter.1 hu).2
  exact hid ▸ hne

theorem freedFor_copies {m : Mach} {r : SumpRec} {k : Nat} : ∀ c ∈ (m.freedFor r k).copies, c.core ≠ r.core := by
  intro c hc
  simpa using (List.mem_filter.1 hc).2

/-- A thread that takes its instruction again is filed there. -/
theorem unpark_files {m : Mach} {r : SumpRec} {T : Thread} (hT : m.thr? T.id = some T) (hh : T.isHandler = false)
    (hends : (m.launch T.launch).ending = none) : m.unpark r T.id none =
      (m.modThr T.id fun t => { t with waitSince := none }).enterFiling T.id { tid := T.id, pc := T.pc } := by
  unfold Mach.unpark
  rw [thr_of hT]
  dsimp only
  rw [hh, if_neg Bool.false_ne_true, Mach.fileMid, thr_of hT]
  rw [hends, if_neg (by decide)]

theorem unpark_raises {m : Mach} {r : SumpRec} {T : Thread} {c : Nat} (hT : m.thr? T.id = some T) (hc : c ≠ 0x28) :
    ∃ va fl, m.unpark r T.id (some c) = m.raise r.core T.launch [(0, T.id, va)] c T.pc T.hdr fl := by
  unfold Mach.unpark
  rw [thr_of hT]
  dsimp only
  rw [if_neg hc]
  exact ⟨_, _, rfl⟩

theorem resumeServed_spec (m : Mach) (r : SumpRec) (T : Thread) (ans : Option Nat) :
    m.sump.filter (fun u => u.answer.isSome) = [r] → r.answer = some ans → ans ≠ some 0x28 → r.threads = [T.id] →
    m.thr? T.id = some T → T.isHandler = false → T.stat ≠ .ended → (m.launch T.launch).ending = none →
    let u := m.resumeServed
    (∀ a, u.mem.read a = m.mem.read a) ∧ (∀ k, (u.thr k).regs = (m.thr k).regs) ∧ (∀ x ∈ u.sump, x.id ≠ r.id) ∧
    (∀ c ∈ u.copies, c.core ≠ r.core) ∧ (u.thr T.id).pc = T.pc ∧
    match ans with
    | none => u.traps = m.traps ∧ ∃ f ∈ u.filing, f.tid = T.id ∧ f.pc = T.pc
    | some c => ∃ g ∈ u.traps, g.cause = c ∧ g.pc = T.pc ∧ g.hdr = T.hdr ∧ g.members.map (fun p => p.2.1) = [T.id] ∧
        (u.thr T.id).stat = .trapping g.id := by
  intro hone hans hcause hthr hT hh hlive hends
  have hsome : (m.thr? T.id).isSome := by rw [hT]; rfl
  cases ans with
  | none =>
    have hfile := unpark_files (m := m.freedFor r T.id) (r := r) hT hh hends
    generalize hm1 : (m.freedFor r T.id).modThr T.id (fun t => { t with waitSince := none }) = m1 at hfile
    have hthr1 : ∀ k, m1.thr? k = (m.thr? k).map fun t => if k = T.id then { t with waitSince := none } else t := fun k => by
      rw [← hm1]
      exact thr?_modThr (m.freedFor r T.id) T.id (fun t => { t with waitSince := none }) (fun _ => rfl) hsome k
    have hsome1 : (m1.thr? T.id).isSome := by rw [hthr1, Option.isSome_map]; exact hsome
    have hthr2 : ∀ k, (m1.enterFiling T.id { tid := T.id, pc := T.pc }).thr? k =
        (m1.thr? k).map fun t => if k = T.id then { t with stat := .filing, pc := T.pc } else t := fun k =>
      thr?_modThr m1 T.id (fun t => { t with stat := .filing, pc := T.pc }) (fun _ => rfl) hsome1 k
    have hheld : ∀ u ∈ (m1.enterFiling T.id { tid := T.id, pc := T.pc }).threads, u.id = T.id → u.heldIn = none := by
      intro u hu hid
      obtain ⟨v, -, rfl⟩ := List.mem_map.1 hu
      split
      case isTrue => rfl
      case isFalse h =>
        rw [if_neg h] at hid
        have hid' : (m1.thr T.id).id = T.id := thr_id hsome1
        exact absurd (beq_iff_eq.2 (hid.trans hid'.symm)) h
    have hres : m.resumeServed = m1.enterFiling T.id { tid := T.id, pc := T.pc } :=
      (resumeServed_one hone hans hthr fun u hu => hheld u (hfile ▸ hu)).trans hfile
    have hm1f : m1 = { m.freedFor r T.id with threads := m1.threads } := by rw [← hm1]; rfl
    clear hm1
    intro u
    rw [show u = m1.enterFiling T.id { tid := T.id, pc := T.pc } from hres]
    refine ⟨fun a => ?_, fun k => ?_, ?_, ?_, ?_, ?_, ?_⟩
    · show m1.mem.read a = _
      rw [hm1f]
      rfl
    · rw [Mach.thr, Mach.thr, hthr2, hthr1, Option.map_map]
      cases m.thr? k with
      | none => rfl
      | some t =>
        show (if k = T.id then _ else _ : Thread).regs = t.regs
        split <;> rfl
    · refine freedFor_sump (m := m) (k := T.id) ?_
      show m1.sump.map _ = _
      rw [hm1f]
    · show ∀ c ∈ m1.copies, _
      rw [hm1f]
      exact freedFor_copies (k := T.id)
    · rw [Mach.thr, hthr2, hthr1, hT]
      show (if T.id = T.id then _ else _ : Thread).pc = T.pc
      rw [if_pos rfl]
    · show m1.traps = _
      rw [hm1f]
      rfl
    · exact ⟨_, List.mem_append_right _ List.mem_cons_self, rfl, rfl⟩
  | some c =>
    obtain ⟨va, fl, hunpark⟩ := unpark_raises (m := m.freedFor r T.id) (r := r) (T := T) (c := c) hT fun h => hcause (congrArg some h)
    have hwho : ∀ p ∈ [(0, T.id, va)], ((m.freedFor r T.id).thr? p.2.1).isSome ∧ ((m.freedFor r T.id).thr p.2.1).stat ≠ .ended ∧
        ((m.freedFor r T.id).thr p.2.1).isHandler = false := by
      intro p hp
      rw [List.mem_singleton.1 hp]
      refine ⟨hsome, ?_, ?_⟩
      · rw [show (m.freedFor r T.id).thr T.id = T from thr_of hT]; exact hlive
      · rw [show (m.freedFor r T.id).thr T.id = T from thr_of hT]; exact hh
    have hraised := raise_raised (core := r.core) (cause := c) (pc := T.pc) (hdr := T.hdr) (flag := fl) (impr := false) (waitBit := false)
      (List.cons_ne_nil _ _) (show ((m.freedFor r T.id).launch T.launch).ending = none from hends) hwho
    obtain ⟨hthreads, hsump⟩ := raise_shape (core := r.core) (cause := c) (pc := T.pc) (hdr := T.hdr) (flag := fl) (impr := false)
      (waitBit := false) (List.cons_ne_nil _ _) (show ((m.freedFor r T.id).launch T.launch).ending = none from hends) fun p hp => (hwho p hp).2
    have hheld : ∀ u ∈ (Mach.unpark (m.freedFor r T.id) r T.id (some c)).threads, u.id = T.id → u.heldIn = none := by
      intro u hu hid
      rw [hunpark, hthreads] at hu
      have hst := modAll_stat (trapped_id · _) (fun _ => rfl) u hu (List.mem_singleton.2 hid)
      unfold Thread.heldIn
      rw [hst]
    have hres : m.resumeServed = _ := (resumeServed_one hone hans hthr hheld).trans hunpark
    have hsumpIds := (congrArg (List.map SumpRec.id) hsump).trans (pullAll_sump _ _)
    intro u
    rw [show u = _ from hres]
    refine ⟨fun a => ?_, hraised.regs, freedFor_sump hsumpIds, ?_, (hraised.member (List.mem_singleton.2 rfl) hsome).2,
      _, hraised.group, rfl, rfl, rfl, rfl, (hraised.member (List.mem_singleton.2 rfl) hsome).1⟩
    · rw [hraised.frame]
      rfl
    · rw [hraised.frame]
      exact freedFor_copies (k := T.id)

/-- Settles O33, part by part. -/
theorem faultQueues : Obligations.FaultQueues := by
  unfold Obligations.FaultQueues
  exact ⟨faultEntryPost_posts, faultEntryPost_full, headerStore_answers, tick_step,
    fun m r T ans hone hans hcause hthr hT hh hlive hends _ => resumeServed_spec m r T ans hone hans hcause hthr hT hh hlive hends,
    headerStore_drops, invalidationDone_waits, invalidationDone_acks⟩

end Sys2Proof.Machine
end

section
/-! SUPPORT. Handlers: their return, and the context that they serve (spec/08 R232, spec/17 R430, R432). -/

namespace Sys2Proof.Machine

/-! ### Threads that are filed -/

/-- What a thread keeps when it is filed. -/
def Thread.Same (t u : Thread) : Prop := u.regs = t.regs ∧ u.launch = t.launch ∧ u.role = t.role

theorem Thread.Same.refl (t : Thread) : t.Same t := ⟨rfl, rfl, rfl⟩

theorem Thread.Same.trans {a b c : Thread} (h : a.Same b) (h' : b.Same c) : a.Same c :=
  ⟨h'.1.trans h.1, h'.2.1.trans h.2.1, h'.2.2.trans h.2.2⟩

/-- Some threads are filed, each at its address; the other threads keep theirs. -/
structure Resumed (at_ : Nat → Pc) (ids : List Nat) (m m' : Mach) : Prop where
  frame : m' = { m with threads := m'.threads, filing := m'.filing }
  there : ∀ j, (m'.thr? j).isSome = (m.thr? j).isSome
  same : ∀ j, (m.thr j).Same (m'.thr j)
  pc : ∀ j, (m'.thr j).pc = if j ∈ ids then at_ j else (m.thr j).pc

theorem Resumed.refl (at_ : Nat → Pc) (m : Mach) : Resumed at_ [] m m :=
  ⟨rfl, fun _ => rfl, fun _ => .refl _, fun _ => (if_neg List.not_mem_nil).symm⟩

theorem Resumed.trans {at_ : Nat → Pc} {ids ids' : List Nat} {a b c : Mach} (h : Resumed at_ ids a b) (h' : Resumed at_ ids' b c) :
    Resumed at_ (ids ++ ids') a c where
  frame := by rw [h'.frame, h.frame]
  there j := (h'.there j).trans (h.there j)
  same j := (h.same j).trans (h'.same j)
  pc j := by
    rw [h'.pc, h.pc]
    by_cases hj : j ∈ ids <;> by_cases hj' : j ∈ ids' <;> simp [hj, hj']

theorem Resumed.launch {at_ : Nat → Pc} {ids : List Nat} {m m' : Mach} (h : Resumed at_ ids m m') (l : Nat) : m'.launch l = m.launch l := by
  rw [h.frame]
  rfl

theorem thr_modThr {m : Mach} {i : Nat} {f : Thread → Thread} (hid : ∀ t, (f t).id = t.id) (hi : (m.thr? i).isSome) (j : Nat) :
    (m.modThr i f).thr j = if j = i then f (m.thr j) else m.thr j := by
  rw [Mach.thr, thr?_modThr m i f hid hi]
  by_cases hj : j = i
  · obtain ⟨T, hT⟩ := Option.isSome_iff_exists.1 hi
    rw [hj, Mach.thr, hT, Option.map_some, if_pos rfl, if_pos rfl]
    rfl
  · rw [if_neg hj, Mach.thr]
    cases m.thr? j with
    | none => rfl
    | some T => exact if_neg hj

theorem isSome_modThr {m : Mach} {i : Nat} {f : Thread → Thread} (hid : ∀ t, (f t).id = t.id) (hi : (m.thr? i).isSome) (j : Nat) :
    ((m.modThr i f).thr? j).isSome = (m.thr? j).isSome := by
  rw [thr?_modThr m i f hid hi, Option.isSome_map]

/-- A change of a thread that leaves it where it is. -/
theorem modThr_resumed (at_ : Nat → Pc) {m : Mach} {i : Nat} {f : Thread → Thread} (hi : (m.thr? i).isSome) (hid : ∀ t, (f t).id = t.id)
    (hsame : ∀ t : Thread, t.Same (f t)) (hpc : ∀ t, (f t).pc = t.pc) : Resumed at_ [] m (m.modThr i f) where
  frame := rfl
  there := isSome_modThr hid hi
  same j := by
    rw [thr_modThr hid hi]
    split
    · exact hsame _
    · exact .refl _
  pc j := by
    rw [thr_modThr hid hi, if_neg List.not_mem_nil]
    split
    · exact hpc _
    · rfl

theorem enterFiling_resumed {at_ : Nat → Pc} {m : Mach} {i : Nat} {f : Filing} (hi : (m.thr? i).isSome) (hpc : f.pc = at_ i) :
    Resumed at_ [i] m (m.enterFiling i f) := by
  have hthr : ∀ j, (m.enterFiling i f).thr j = if j = i then { m.thr j with stat := .filing, pc := f.pc } else m.thr j :=
    thr_modThr (f := fun t => { t with stat := .filing, pc := f.pc }) (fun _ => rfl) hi
  refine ⟨rfl, isSome_modThr (f := fun t => { t with stat := .filing, pc := f.pc }) (fun _ => rfl) hi, fun j => ?_, fun j => ?_⟩
  · rw [hthr]
    split
    · exact ⟨rfl, rfl, rfl⟩
    · exact .refl _
  · rw [hthr]
    by_cases hj : j = i
    · rw [if_pos hj, if_pos (List.mem_singleton.2 hj), hj, ← hpc]
    · rw [if_neg hj, if_neg (mt List.mem_singleton.1 hj)]

theorem fileMid_resumed {at_ : Nat → Pc} {m : Mach} {i : Nat} {pc : Pc} (hi : (m.thr? i).isSome)
    (hends : (m.launch (m.thr i).launch).ending = none) (hpc : pc = at_ i) : Resumed at_ [i] m (m.fileMid i pc) := by
  have hmod := modThr_resumed at_ (m := m) (f := fun t => { t with waitSince := none }) hi (fun _ => rfl) (fun _ => ⟨rfl, rfl, rfl⟩) fun _ => rfl
  have hfile := hmod.trans (enterFiling_resumed (f := { tid := i, pc := pc }) (by rw [hmod.there]; exact hi) hpc)
  unfold Mach.fileMid
  dsimp only
  rw [hends, if_neg (by simp)]
  exact hfile

theorem fileAt_resumed {at_ : Nat → Pc} {m : Mach} {i : Nat} {pc : Pc} (hi : (m.thr? i).isSome)
    (hends : (m.launch (m.thr i).launch).ending = none) (hpc : pc = at_ i) : Resumed at_ [i] m (m.fileAt i pc) := by
  have hmod := modThr_resumed at_ (m := m) (f := fun t => { t.boundary with waitSince := none }) hi (fun _ => rfl) (fun _ => ⟨rfl, rfl, rfl⟩)
    fun _ => rfl
  have hfile := hmod.trans (enterFiling_resumed (f := { tid := i, pc := pc }) (by rw [hmod.there]; exact hi) hpc)
  unfold Mach.fileAt
  dsimp only
  rw [hends, if_neg (by simp)]
  exact hfile

theorem Resumed.ending {at_ : Nat → Pc} {ids : List Nat} {m m' : Mach} (h : Resumed at_ ids m m') {i : Nat}
    (hends : (m.launch (m.thr i).launch).ending = none) : (m'.launch (m'.thr i).launch).ending = none := by
  rw [h.launch, (h.same i).2.1]
  exact hends

theorem dropCarry_same (g : TrapGroup) (t : Thread) : t.Same (t.dropCarry g) ∧ (t.dropCarry g).pc = t.pc ∧ (t.dropCarry g).id = t.id := by
  unfold Thread.dropCarry
  rw [(uncarry_frame t g.pc g.flag).1]
  exact ⟨⟨rfl, rfl, rfl⟩, rfl, rfl⟩

/-- Where the threads that a trap's handlers serve resume. -/
def TrapGroup.pcAt (g : TrapGroup) (tid : Nat) : Pc := BitVec.ofNat 57 (g.at_ tid)

theorem resumeAt_resumed {m : Mach} {g : TrapGroup} {i : Nat} (hi : (m.thr? i).isSome) (hends : (m.launch (m.thr i).launch).ending = none) :
    Resumed g.pcAt [i] m (m.resumeAt g i) := by
  have hfiled : ∀ {m' : Mach}, Resumed g.pcAt [i] m m' → Resumed g.pcAt [i] m (m'.modThr i fun t =>
      { t with sender := some { pc := g.pcAt i, hdr := none, x0 := .undef, x1 := .undef, c := [], isTret := true } }) := fun h =>
    h.trans (modThr_resumed g.pcAt (by rw [h.there]; exact hi) (fun _ => rfl) (fun _ => ⟨rfl, rfl, rfl⟩) fun _ => rfl)
  have hmod : ∀ {f : Thread → Thread}, (∀ t, (f t).id = t.id) → (∀ t : Thread, t.Same (f t)) → (∀ t, (f t).pc = t.pc) →
      Resumed g.pcAt [] m (m.modThr i f) := modThr_resumed g.pcAt hi
  unfold Mach.resumeAt
  dsimp only
  refine hfiled ?_
  split
  · have h := hmod (f := fun t => { t with hdr := g.hdr }) (fun _ => rfl) (fun _ => ⟨rfl, rfl, rfl⟩) fun _ => rfl
    exact h.trans (fileMid_resumed (by rw [h.there]; exact hi) (h.ending hends) rfl)
  · split
    · have h := hmod (f := fun t => { (t.dropCarry g) with hdr := g.hdr }) (fun t => (dropCarry_same g t).2.2)
        (fun t => (dropCarry_same g t).1) fun t => (dropCarry_same g t).2.1
      exact h.trans (fileMid_resumed (by rw [h.there]; exact hi) (h.ending hends) rfl)
    · have h := hmod (f := fun t => { (t.dropCarry g) with carry := none }) (fun t => (dropCarry_same g t).2.2)
        (fun t => (dropCarry_same g t).1) fun t => (dropCarry_same g t).2.1
      exact h.trans (fileAt_resumed (by rw [h.there]; exact hi) (h.ending hends) rfl)

theorem served_of_role {t u : Thread} (h : u.role = t.role) : u.served = t.served := by
  unfold Thread.served
  rw [h]

/-- One handler thread gives its served thread back. -/
def Mach.unserve (g : TrapGroup) (m : Mach) (id : Nat) : Mach :=
  match (m.thr id).served with
  | some s =>
    let h := m.thr id
    (m.modThr s fun t => { t with fenceRel := h.fenceRel, readRel := h.readRel }).resumeAt g s
  | none => m

theorem unserve_resumed {m : Mach} {g : TrapGroup} {id sv : Nat} (hserved : (m.thr id).served = some sv) (hi : (m.thr? sv).isSome)
    (hends : (m.launch (m.thr sv).launch).ending = none) : Resumed g.pcAt [sv] m (m.unserve g id) := by
  unfold Mach.unserve
  rw [hserved]
  have h := modThr_resumed g.pcAt (m := m) (f := fun t => { t with fenceRel := (m.thr id).fenceRel, readRel := (m.thr id).readRel }) hi
    (fun _ => rfl) (fun _ => ⟨rfl, rfl, rfl⟩) fun _ => rfl
  exact h.trans (resumeAt_resumed (by rw [h.there]; exact hi) (h.ending hends))

theorem unserveAll_resumed (g : TrapGroup) (ids : List Nat) : ∀ m : Mach,
    (∀ k ∈ ids, ∃ sv, (m.thr k).served = some sv ∧ (m.thr? sv).isSome ∧ (m.launch (m.thr sv).launch).ending = none) →
    Resumed g.pcAt (ids.filterMap fun k => (m.thr k).served) m (ids.foldl (Mach.unserve g) m) := by
  induction ids with
  | nil => exact fun m _ => .refl _ m
  | cons k ids ih =>
    intro m h
    obtain ⟨sv, hserved, hi, hends⟩ := h k List.mem_cons_self
    have hone := unserve_resumed (g := g) hserved hi hends
    have hrole : ∀ j, ((m.unserve g k).thr j).served = (m.thr j).served := fun j => served_of_role (hone.same j).2.2
    have hrest := ih (m.unserve g k) fun j hj => by
      obtain ⟨sv', hserved', hi', hends'⟩ := h j (List.mem_cons_of_mem _ hj)
      exact ⟨sv', (hrole j).trans hserved', by rw [hone.there]; exact hi', hone.ending hends'⟩
    simp only [hrole] at hrest
    rw [List.filterMap_cons, hserved]
    exact hone.trans hrest

/-! ### `tret` -/

theorem removeThreads_thr? {m : Mach} {ids : List Nat} {j : Nat} (h : j ∉ ids) : (m.removeThreads ids).thr? j = m.thr? j := by
  have hmap := find?_map_key Thread.id (m.threads.filter fun t => !ids.contains t.id || t.pend != []) (fun t : Thread =>
    if ids.contains t.id then { t with stat := .ended, bars := [], errs := [], kids := [] } else t) (by intro t; split <;> rfl) j
  have hkept : (m.threads.filter fun t => !ids.contains t.id || t.pend != []).find? (fun t => t.id == j) = m.thr? j := by
    rw [List.find?_filter]
    refine find?_congr_mem _ fun t _ => ?_
    by_cases ht : t.id = j
    · simp [ht, h]
    · simp [ht]
  rw [hkept] at hmap
  refine Eq.trans hmap ?_
  cases ht : m.thr? j with
  | none => rfl
  | some t =>
    have hid : t.id = j := thr?_id ht
    exact congrArg some (if_neg fun hc => h (hid ▸ List.contains_iff_mem.1 hc))

theorem removeThreads_ended {m : Mach} {ids : List Nat} : ∀ U ∈ (m.removeThreads ids).threads, U.id ∈ ids → U.stat = .ended := by
  intro U hU hid
  obtain ⟨t, -, rfl⟩ := List.mem_map.1 hU
  split
  case isTrue => rfl
  case isFalse h =>
    rw [if_neg h] at hid
    exact absurd (List.contains_iff_mem.2 hid) h

theorem inHandler_serving {m : Mach} {q : Quarter} {g : TrapGroup} {x : Nat} (h : Hdr) (f : Quarter → TrapGroup → Mach)
    (hq : m.quarter? m.cur = some q) (hg : m.serves (m.thr q.lowest) = some (g, x)) : m.inHandler h f = f q g := by
  unfold Mach.inHandler Mach.withQ
  rw [hq]
  dsimp only
  rw [hg]

/-- The handlers of a quarter, the last of their trap, leave. -/
theorem leave_spec {m : Mach} {q : Quarter} {g : TrapGroup} (hall : ∀ x ∈ g.handlers, x ∈ g.left ∨ x ∈ q.tids)
    (hserved : ∀ k ∈ q.tids, ∃ sv, (m.thr k).served = some sv ∧ sv ∉ q.tids ∧ (m.thr? sv).isSome ∧
      (m.launch (m.thr sv).launch).ending = none) :
    (m.leave q g).mem = m.mem ∧ ((m.leave q g).coreSt q.core).alcove = none ∧ (∀ u ∈ (m.leave q g).traps, u.id ≠ g.id) ∧
      (∀ U ∈ (m.leave q g).threads, U.id ∈ q.tids → U.stat = .ended) ∧
      ∀ k ∈ q.tids, ∀ sv, (m.thr k).served = some sv →
        ((m.leave q g).thr sv).pc = g.pcAt sv ∧ ((m.leave q g).thr sv).regs = (m.thr sv).regs := by
  have hmem : ∀ k, k ∈ m.inOrder q.tids ↔ k ∈ q.tids := fun k => (perm_inOrder m q.tids).mem_iff
  have hres := unserveAll_resumed g ((m.inOrder q.tids)) (m.dropCopies q.core) fun k hk => by
    obtain ⟨sv, hs, -, hi, hends⟩ := hserved k ((hmem k).1 hk)
    exact ⟨sv, hs, hi, hends⟩
  have hleft : g.handlers.all (g.left ++ q.tids).contains = true := List.all_eq_true.2 fun x hx => by
    rw [List.contains_iff_mem, List.mem_append]
    exact hall x hx
  generalize hm1 : (m.inOrder q.tids).foldl (Mach.unserve g) (m.dropCopies q.core) = m1 at hres
  have hleave : m.leave q g = ({ m1.removeThreads q.tids with traps := (m1.removeThreads q.tids).traps.filter fun u => u.id != g.id } : Mach).modCore
      q.core fun c => { c with alcove := none } := by
    rw [← hm1]
    exact if_pos hleft
  rw [hleave]
  refine ⟨?_, ?_, fun u hu => ?_, removeThreads_ended, fun k hk sv hsv => ?_⟩
  · show m1.mem = _
    rw [hres.frame]
    rfl
  · rw [coreSt_modCore _ q.core (fun c => { c with alcove := none }) fun _ => rfl]
  · simpa using (List.mem_filter.1 hu).2
  · obtain ⟨sv', hs, hout, -, -⟩ := hserved k hk
    obtain rfl : sv = sv' := Option.some.inj (hsv.symm.trans hs)
    have hthr : ((m1.removeThreads q.tids).thr sv) = m1.thr sv := by
      rw [Mach.thr, removeThreads_thr? hout]
      rfl
    have hin : sv ∈ (m.inOrder q.tids).filterMap fun k => ((m.dropCopies q.core).thr k).served :=
      List.mem_filterMap.2 ⟨k, (hmem k).2 hk, hsv⟩
    refine ⟨?_, ?_⟩
    · show ((m1.removeThreads q.tids).thr sv).pc = _
      rw [hthr, hres.pc, if_pos hin]
    · show ((m1.removeThreads q.tids).thr sv).regs = _
      rw [hthr]
      exact (hres.same sv).1

/-! ### The statements -/

/-- The current quarter is one of handlers of a trap; the thread that each serves is not of the quarter. -/
def Serving (s : State) (q : Quarter) (g : TrapGroup) : Prop :=
  Running s q ∧ (∃ x, s.mach.serves (s.mach.thr q.lowest) = some (g, x)) ∧
    ∀ k ∈ q.tids, ∃ sv, (s.mach.thr k).served = some sv ∧ sv ∉ q.tids ∧ (s.mach.thr? sv).isSome

/-- The selector that a thread of the quarter gives. -/
def selector (s : State) (a : Spec) (p : Nat × Nat) : Word := (s.mach.thr p.2).rd (s.mach.fr p.1) a

theorem tret_leaves (h : Hdr) (s : State) (q : Quarter) (g : TrapGroup) (hs : Serving s q g) (hquiet : ∀ k ∈ q.tids, s.mach.quiet (s.mach.thr k) = true)
    (hall : ∀ x ∈ g.handlers, x ∈ g.left ∨ x ∈ q.tids)
    (hends : ∀ k ∈ q.tids, ∀ sv, (s.mach.thr k).served = some sv → (s.mach.launch (s.mach.thr sv).launch).ending = none) :
    ∃ t, exec (.tret h) s = .next t ∧ MemoryKept s t ∧ (t.mach.coreSt q.core).alcove = none ∧
      (∀ u ∈ t.mach.traps, u.id ≠ g.id) ∧ (∀ U ∈ t.mach.threads, U.id ∈ q.tids → U.stat = .ended) ∧
      ∀ k ∈ q.tids, ∀ sv, (s.mach.thr k).served = some sv →
        (t.mach.thr sv).pc = BitVec.ofNat 57 (g.at_ sv) ∧ (t.mach.thr sv).regs = (s.mach.thr sv).regs := by
  obtain ⟨⟨hq, -, -, -⟩, ⟨x, hg⟩, hserved⟩ := hs
  have hstep : (s.mach.inHandler h fun q g => if q.tids.any fun t => !s.mach.quiet (s.mach.thr t) then s.mach.waitQ q .flags else s.mach.leave q g) =
      s.mach.leave q g := by
    rw [inHandler_serving h _ hq hg, if_neg]
    rw [Bool.not_eq_true]
    exact List.any_eq_false.2 fun k hk => by simp [hquiet k hk]
  obtain ⟨hmem, halcove, htraps, hended, hpcs⟩ := leave_spec (m := s.mach) hall fun k hk => by
    obtain ⟨sv, hsv, hout, hi⟩ := hserved k hk
    exact ⟨sv, hsv, hout, hi, hends k hk sv hsv⟩
  refine ⟨_, congrArg (fun m => Host.Outcome.next ({ s with mach := m } : State).settle) hstep, fun a => ?_, halcove, htraps, hended, hpcs⟩
  show (s.mach.leave q g).mem.read a = _
  rw [hmem]

theorem endLaunch_threads {m : Mach} {l cause : Nat} : ∀ U ∈ (m.endLaunch l 7 cause).threads, U.launch = l → U.stat = .ended := by
  have hall : ∀ (m : Mach) (ids : List Nat), (∀ t ∈ m.threads, t.launch = l → t.id ∈ ids) →
      ∀ U ∈ (m.removeThreads ids).threads, U.launch = l → U.stat = .ended := by
    intro m ids hids U hU hl
    obtain ⟨t, ht, rfl⟩ := List.mem_map.1 hU
    split
    case isTrue => rfl
    case isFalse h =>
      rw [if_neg h] at hl
      exact absurd (List.contains_iff_mem.2 (hids t (List.mem_filter.1 ht).1 hl)) h
  have hkeep : ∀ (m : Mach) (ids : List Nat), (∀ t ∈ m.threads, t.launch = l → t.stat = .ended) →
      ∀ U ∈ (m.removeThreads ids).threads, U.launch = l → U.stat = .ended := by
    intro m ids hm U hU hl
    obtain ⟨t, ht, rfl⟩ := List.mem_map.1 hU
    split
    case isTrue => rfl
    case isFalse h =>
      rw [if_neg h] at hl
      exact hm t (List.mem_filter.1 ht).1 hl
  have hmod : ∀ f, (m.modLaunch l f).threads = m.threads := by
    intro f
    unfold Mach.modLaunch
    cases m.launch? l <;> rfl
  unfold Mach.endLaunch
  dsimp only
  rw [if_neg (by simp)]
  refine hkeep _ _ (hall _ _ fun t ht hl => ?_)
  refine List.mem_map_of_mem (f := fun t : Thread => t.id) (List.mem_filter.2 ⟨ht, ?_⟩)
  simp [hl]

theorem tretEnd_ends (h : Hdr) (s : State) (q : Quarter) (g : TrapGroup) (hs : Serving s q g) (hl : (s.mach.launch? q.launch).isSome) :
    ∃ t, exec (.tretEnd h) s = .next t ∧ (t.mach.launch q.launch).ending = some (7, g.cause) ∧
      ∀ U ∈ t.mach.threads, U.launch = q.launch → U.stat = .ended := by
  obtain ⟨⟨hq, -, -, hends⟩, ⟨x, hg⟩, -⟩ := hs
  exact ⟨_, congrArg (fun m => Host.Outcome.next ({ s with mach := m } : State).settle) (inHandler_serving h _ hq hg),
    endLaunch_ending 7 g.cause hl hends, endLaunch_threads⟩

/-- The entry of a thread of a quarter in a table of its threads. -/
theorem look_active {α : Type} {q : Quarter} (d : α) (v : Nat × Nat → α) (hnd : q.tids.Nodup) {p : Nat × Nat} (hp : p ∈ q.active) :
    look d (q.active.map fun p => (p.2, v p)) p.2 = v p := by
  have hnd' : (q.active.map fun p => p.2).Nodup := hnd
  unfold look
  generalize q.active = l at hp hnd'
  induction l with
  | nil => exact absurd hp List.not_mem_nil
  | cons r l ih =>
    rw [List.map_cons, List.nodup_cons] at hnd'
    rcases List.mem_cons.1 hp with rfl | hp
    · simp
    · have hne : ¬r.2 = p.2 := fun e => hnd'.1 (e ▸ List.mem_map_of_mem hp)
      rw [List.map_cons, List.find?_cons_of_neg (by simpa using hne)]
      exact ih hp hnd'.2

/-- The word of a served thread's context that `csave` reads: a register, a flag, the address, or a mode. -/
def ctxWord (g : TrapGroup) (T : Thread) (cls idx : Nat) : Word :=
  let at_ := g.at_ T.id
  if cls = 0 then T.regs.getD idx 0 else if cls = 1 then wN (T.flag idx)
  else if cls = 2 then (if idx = 0 then wN at_ else wN (at_ / 2 ^ 32)) else if idx = 0 then T.fmode else T.tmshape

/-- The selectors that `csave` is said to read. -/
def CtxReadable (T : Thread) (cls idx : Nat) : Prop :=
  (cls = 0 ∧ idx < T.rgv) ∨ (cls = 1 ∧ 1 ≤ idx ∧ idx ≤ 12) ∨ (cls = 2 ∧ idx ≤ 1) ∨ (cls = 3 ∧ idx ≤ 1)

theorem ctxRead_of_readable {y : Sys} {m : Mach} {g : TrapGroup} {T : Thread} {fr cls idx : Nat} (h : CtxReadable T cls idx) :
    m.ctxRead y g T fr ⟨cls, idx⟩ = some (ctxWord g T cls idx) := by
  rcases h with ⟨rfl, h⟩ | ⟨rfl, h⟩ | ⟨rfl, h⟩ | ⟨rfl, h⟩
  · exact if_pos h
  · exact if_pos h
  · rcases Nat.le_one_iff_eq_zero_or_eq_one.1 h with rfl | rfl <;> rfl
  · rcases Nat.le_one_iff_eq_zero_or_eq_one.1 h with rfl | rfl <;> rfl

theorem cSel_of_zero {w : Nat} (h : bits w 16 8 = 0) : cSel w = some ⟨bits w 24 8, bits w 0 16⟩ := if_pos h

/-- What `csave` reads for a thread of the quarter. -/
def csaveVal (y : Sys) (m : Mach) (g : TrapGroup) (a : Spec) (p : Nat × Nat) : Option Word :=
  (cSel ((m.thr p.2).rd (m.fr p.1) a).toNat).bind fun c =>
    (m.thr p.2).served.bind fun s => m.ctxRead y g (m.thr s) (m.fr p.1 + 8) c

theorem csave_reads (h : Hdr) (d a : Spec) (s : State) (q : Quarter) (g : TrapGroup) (hs : Serving s q g)
    (hd : ∀ k ∈ q.tids, DestFits (s.mach.thr k) d 1)
    (hsel : ∀ p ∈ q.active, bits (selector s a p).toNat 16 8 = 0 ∧ ∀ sv, (s.mach.thr p.2).served = some sv →
      CtxReadable (s.mach.thr sv) (bits (selector s a p).toNat 24 8) (bits (selector s a p).toNat 0 16)) :
    ∃ t, exec (.csave h d a) s = .next t ∧ OnlyQuarter s t q ∧ ∀ p ∈ q.active, ∀ sv, (s.mach.thr p.2).served = some sv →
      RegEffect q h d [ctxWord g (s.mach.thr sv) (bits (selector s a p).toNat 24 8) (bits (selector s a p).toNat 0 16)]
        (s.mach.thr p.2) (t.mach.thr p.2) := by
  obtain ⟨hr, ⟨x, hg⟩, hserved⟩ := hs
  have ⟨hq, hnd, hthr, _⟩ := hr
  have hval : ∀ p ∈ q.active, ∀ sv, (s.mach.thr p.2).served = some sv → csaveVal s.sys s.mach g a p =
      some (ctxWord g (s.mach.thr sv) (bits (selector s a p).toNat 24 8) (bits (selector s a p).toNat 0 16)) := by
    intro p hp sv hsv
    obtain ⟨hzero, hread⟩ := hsel p hp
    have hcsel := cSel_of_zero hzero
    unfold csaveVal
    rw [show cSel ((s.mach.thr p.2).rd (s.mach.fr p.1) a).toNat = _ from hcsel, hsv]
    exact ctxRead_of_readable (hread sv hsv)
  have hsome : (q.active.map fun p => (p.2, csaveVal s.sys s.mach g a p)).any (fun v => v.2.isNone) = false := by
    refine List.any_eq_false.2 fun v hv => ?_
    obtain ⟨p, hp, rfl⟩ := List.mem_map.1 hv
    obtain ⟨sv, hsv, -, -⟩ := hserved p.2 (mem_tids hp)
    dsimp only
    rw [hval p hp sv hsv]
    exact Bool.false_ne_true
  have hexec : exec (.csave h d a) s = .next (State.settle { s with mach := (s.mach.withQ fun q => s.mach.onEach q h fun _ _ t =>
    t.put h d [(look none (q.active.map fun p => (p.2, csaveVal s.sys s.mach g a p)) t.id).getD 0]) }) := by
    refine congrArg (fun m => Host.Outcome.next ({ s with mach := m } : State).settle) ?_
    show s.mach.inHandler h _ = _
    rw [inHandler_serving h _ hq hg]
    refine (if_neg (by rw [Bool.not_eq_true]; exact hsome)).trans ?_
    unfold Mach.withQ
    rw [hq]
    rfl
  obtain ⟨honly, hafter⟩ := onEach_only_thr h (fun q _ _ t =>
    t.put h d [(look none (q.active.map fun p => (p.2, csaveVal s.sys s.mach g a p)) t.id).getD 0]) hr (by intros; simp)
  refine ⟨_, hexec, honly, fun p hp sv hsv => ?_⟩
  rw [hafter p hp, Thread.uncarry_id, thr_id (hthr _ (mem_tids hp)), look_active none _ hnd hp, hval p hp sv hsv]
  exact put_effect q h d [_] (s.mach.thr p.2) (hd _ (mem_tids hp))

/-- What a write of a register or of a mode leaves of a served thread. -/
def ctxWritten (T : Thread) (cls idx : Nat) (w : Word) : Thread :=
  if cls = 0 then { T with regs := T.regs.set idx w }
  else if idx = 0 then { T with fmode := w &&& 0x7B } else { T with tmshape := w &&& 0x7FFFF }

theorem ctxWritten_id (T : Thread) (cls idx : Nat) (w : Word) : (ctxWritten T cls idx w).id = T.id := by
  unfold ctxWritten
  split
  · rfl
  · split <;> rfl

theorem ctxWrite_of_writable {g : TrapGroup} {T : Thread} {cls idx : Nat} (w : Word) (h : (cls = 0 ∧ idx < T.rgv) ∨ (cls = 3 ∧ idx ≤ 1)) :
    ctxWrite g T ⟨cls, idx⟩ w = some (ctxWritten T cls idx w, g.at_ T.id) := by
  rcases h with ⟨rfl, h⟩ | ⟨rfl, h⟩
  · exact if_pos h
  · rcases Nat.le_one_iff_eq_zero_or_eq_one.1 h with rfl | rfl <;> rfl

theorem active_of_single {q : Quarter} {k : Nat} (h : q.tids = [k]) : ∃ sl, q.active = [(sl, k)] := by
  obtain ⟨p, hp, hk⟩ := List.map_eq_singleton_iff.1 h
  exact ⟨p.1, by rw [hp, ← hk]⟩

theorem crest_writes (h : Hdr) (a b : Spec) (s : State) (q : Quarter) (g : TrapGroup) (k sv : Nat) (hs : Serving s q g) (hone : q.tids = [k])
    (hsv : (s.mach.thr k).served = some sv) (hzero : bits (selector s a (q.active.headD (0, 0))).toNat 16 8 = 0)
    (hw : (bits (selector s a (q.active.headD (0, 0))).toNat 24 8 = 0 ∧
        bits (selector s a (q.active.headD (0, 0))).toNat 0 16 < (s.mach.thr sv).rgv) ∨
      (bits (selector s a (q.active.headD (0, 0))).toNat 24 8 = 3 ∧ bits (selector s a (q.active.headD (0, 0))).toNat 0 16 ≤ 1)) :
    ∃ t, exec (.crest h a b) s = .next t ∧ MemoryKept s t ∧
      (∀ u, u ≠ sv → u ≠ k → t.mach.thr? u = s.mach.thr? u) ∧ (t.mach.thr k).regs = (s.mach.thr k).regs ∧
      t.mach.thr sv = ctxWritten (s.mach.thr sv) (bits (selector s a (q.active.headD (0, 0))).toNat 24 8)
        (bits (selector s a (q.active.headD (0, 0))).toNat 0 16) ((s.mach.thr k).rd (s.mach.fr (q.active.headD (0, 0)).1 + 8) b) := by
  obtain ⟨⟨hq, hnd, hthr, hends⟩, ⟨x, hg⟩, hserved⟩ := hs
  obtain ⟨sl, hact⟩ := active_of_single hone
  have hk : k ∈ q.tids := by rw [hone]; exact List.mem_singleton.2 rfl
  obtain ⟨sv', hsv', hout, hi⟩ := hserved k hk
  obtain rfl : sv = sv' := Option.some.inj (hsv.symm.trans hsv')
  rw [hact] at hzero hw ⊢
  dsimp only [List.headD_cons] at hzero hw ⊢
  have hwrite := ctxWrite_of_writable (g := g) ((s.mach.thr k).rd (s.mach.fr sl + 8) b) hw
  generalize hU : ctxWritten (s.mach.thr sv) (bits (selector s a (sl, k)).toNat 24 8) (bits (selector s a (sl, k)).toNat 0 16)
    ((s.mach.thr k).rd (s.mach.fr sl + 8) b) = U at hwrite ⊢
  have hUid : U.id = sv := by rw [← hU, ctxWritten_id, thr_id hi]
  generalize hg' : ({ g with resume := put g.resume U.id (g.at_ (s.mach.thr sv).id) } : TrapGroup) = g'
  have hexec : exec (.crest h a b) s = .next (State.settle { s with mach := ((s.mach.setThr U).setTrap g').onEach q h fun _ _ t => t }) := by
    refine congrArg (fun m => Host.Outcome.next ({ s with mach := m } : State).settle) ?_
    show s.mach.inHandler h _ = _
    rw [inHandler_serving h _ hq hg, hact]
    have hval : (cSel ((s.mach.thr k).rd (s.mach.fr sl) a).toNat).bind (fun c => (s.mach.thr k).served.bind fun v =>
        ctxWrite g (s.mach.thr v) c ((s.mach.thr k).rd (s.mach.fr sl + 8) b)) = some (U, g.at_ (s.mach.thr sv).id) := by
      rw [show cSel ((s.mach.thr k).rd (s.mach.fr sl) a).toNat = _ from cSel_of_zero hzero, hsv]
      exact hwrite
    simp only [List.map_cons, List.map_nil]
    rw [hval, ← hg']
    rfl
  have hset : ∀ u, ((s.mach.setThr U).setTrap g').thr? u = if sv = u then (s.mach.thr? u).map (fun _ => U) else s.mach.thr? u := fun u => by
    rw [← hUid]
    exact thr?_setThr s.mach U u
  have hsetk : ((s.mach.setThr U).setTrap g').thr? k = s.mach.thr? k := by
    rw [hset, if_neg (show ¬sv = k from fun e => hout (by rw [e]; exact hk))]
  have hthrk : ((s.mach.setThr U).setTrap g').thr k = s.mach.thr k := by rw [Mach.thr, hsetk, Mach.thr]
  have hmem : ((s.mach.setThr U).setTrap g').mem = s.mach.mem := rfl
  have hends' : (((s.mach.setThr U).setTrap g').launch q.launch).ending = none := hends
  generalize (s.mach.setThr U).setTrap g' = m1 at hexec hset hsetk hthrk hmem hends'
  obtain ⟨hactive, hother, hframe⟩ := onEach_spec m1 q h (fun _ _ t => t) (fun _ _ _ => rfl) hnd
    (fun j hj => by
      rw [hone, List.mem_singleton] at hj
      rw [hj, hsetk]
      exact hthr k hk) hends'
  have hmem2 := (congrArg Mach.mem hframe).trans hmem
  have hafter := thr_of (hactive (sl, k) (by rw [hact]; exact List.mem_singleton.2 rfl))
  generalize m1.onEach q h (fun _ _ t => t) = m2 at hexec hother hmem2 hafter
  refine ⟨_, hexec, fun x => congrArg (fun mem : Memory => mem.read x) hmem2, fun u hu huk => ?_, ?_, ?_⟩
  · refine (hother u ?_).trans ((hset u).trans (if_neg (Ne.symm hu)))
    rw [hone, List.mem_singleton]
    exact huk
  · show (m2.thr k).regs = _
    rw [hafter, moved_regs, uncarry_regs, hthrk]
  · obtain ⟨T, hT⟩ := Option.isSome_iff_exists.1 hi
    refine thr_of ((hother sv hout).trans ((hset sv).trans ?_))
    rw [if_pos rfl, hT, Option.map_some]

/-- Settles O28, instruction by instruction. -/
theorem handlersReturn : Obligations.HandlersReturn := by
  unfold Obligations.HandlersReturn
  exact fun h d a b => ⟨tret_leaves h, tretEnd_ends h, csave_reads h d a, crest_writes h a b⟩

end Sys2Proof.Machine
end

section
/-! SUPPORT. Steps of the copy engine and of the streams (spec/17 R408-R410, R419-R422). -/

namespace Sys2Proof.Machine

/-! ### Stores of engines -/

/-- What a store of an engine leaves as it was. -/
structure Wrote (m m' : Mach) : Prop where
  frame : m' = { m with
    mem := m'.mem, eccDouble := m'.eccDouble, eccSingle := m'.eccSingle, stamps := m'.stamps, doms := m'.doms, relAt := m'.relAt,
    rcOn := m'.rcOn }
  single : m.eccSingle = [] → m'.eccSingle = []
  double : m.eccDouble = [] → m'.eccDouble = []

theorem Wrote.refl (m : Mach) : Wrote m m := ⟨rfl, id, id⟩

theorem Wrote.trans {a b c : Mach} (h : Wrote a b) (h' : Wrote b c) : Wrote a c where
  frame := by rw [h'.frame, h.frame]
  single e := h'.single (h.single e)
  double e := h'.double (h.double e)

theorem Wrote.mapped {m m' : Mach} (h : Wrote m m') (loc : Nat) : m'.mapped loc = m.mapped loc := by
  rw [h.frame]
  rfl

theorem Wrote.away {m m' : Mach} (h : Wrote m m') (loc : Nat) : m'.away loc = m.away loc := by
  rw [h.frame]
  rfl

theorem store_wrote {m : Mach} {loc : Nat} (bs : List Byte) (st : Option Nat) (hmap : m.mapped loc = false) :
    Wrote m (m.store loc bs st) ∧ (m.store loc bs st).mem = m.mem.put loc bs := by
  obtain ⟨hframe, hmem⟩ := store_spec bs st hmap
  have hecc : (m.store loc bs st).eccSingle = (m.devStore loc bs).eccSingle ∧ (m.store loc bs st).eccDouble = (m.devStore loc bs).eccDouble := by
    unfold Mach.store
    cases st with
    | none => exact ⟨rfl, rfl⟩
    | some v =>
      obtain ⟨sts, hst⟩ := stampRange_frame (m.devStore loc bs) loc bs.length v
      dsimp only
      rw [hst]
      exact ⟨rfl, rfl⟩
  have hclear : ∀ l : List Nat, l = [] → l.filter (fun w => !(decide (loc ≤ w) && decide (w + 8 ≤ loc + bs.length))) = [] := by
    rintro l rfl
    rfl
  refine ⟨⟨?_, fun h => hecc.1.trans (hclear _ h), fun h => hecc.2.trans (hclear _ h)⟩, hmem⟩
  have hrc : (m.store loc bs st).rcOn = m.rcOn := by rw [hframe]
  rw [hrc]
  exact hframe

theorem walkFix_sound {m : Mach} (core : Nat) (eff : Eff) (va : Nat) (h : m.eccSingle = []) : m.walkFix core eff va = m := by
  unfold Mach.walkFix
  rw [if_pos (by simp [h])]

theorem eccFix_sound {m : Mach} (core loc len : Nat) (h : m.eccSingle = []) : m.eccFix core loc len = m := by
  unfold Mach.eccFix
  rw [h, if_pos]
  exact List.filter_eq_nil_iff.2 fun _ _ => by simp

theorem locFix_sound {m : Mach} (e : EngOp) (l : ELoc) (len : Nat) (h : m.eccSingle = []) : m.locFix e l len = m := by
  unfold Mach.locFix
  rw [walkFix_sound _ _ _ h, ite_self, eccFix_sound _ _ _ h]

theorem rcNote_wrote (m : Mach) (fd va loc len : Nat) : Wrote m (m.rcNote fd va loc len) ∧ (m.rcNote fd va loc len).mem = m.mem := by
  unfold Mach.rcNote
  split
  · exact ⟨.refl m, rfl⟩
  · exact ⟨⟨rfl, id, id⟩, rfl⟩

/-- A store of an engine to a location of this device. -/
theorem engStore_near {m : Mach} (e : EngOp) (l : ELoc) (bs : List Byte) (hsingle : m.eccSingle = []) (haway : m.away l.1 = false)
    (hmap : m.mapped l.1 = false) : Wrote m (m.engStore e l bs) ∧ (m.engStore e l bs).mem = m.mem.put l.1 bs := by
  have hrem : isRem l.1 = false := (Bool.or_eq_false_iff.1 haway).1
  unfold Mach.engStore
  dsimp only
  rw [haway, if_neg Bool.false_ne_true, hrem, if_neg Bool.false_ne_true, walkFix_sound _ _ _ hsingle, ite_self]
  generalize ((m.eff e.launch).race && raceLoc l.1 l.2.1) = on
  obtain ⟨hstore, hmem⟩ := store_wrote bs (if on then some e.stamp else none) hmap
  generalize m.store l.1 bs (if on then some e.stamp else none) = m1 at hstore hmem
  have hrel : Wrote m (m1.unrelease l.1 bs.length) := hstore.trans ⟨rfl, id, id⟩
  obtain ⟨hnote, hmemn⟩ := rcNote_wrote (m1.unrelease l.1 bs.length) e.fdom (ELoc.va l) l.1 bs.length
  cases on with
  | true => exact ⟨hrel.trans hnote, hmemn.trans hmem⟩
  | false => exact ⟨hrel, hmem⟩

theorem scr_near {m : Mach} {loc : Nat} (h : 2 ^ 66 ≤ loc) : m.away loc = false ∧ m.mapped loc = false := by
  have hscr : isScr loc = true := decide_eq_true h
  have hkind : pkind loc = .other := by
    have h : 73786976294838206464 ≤ loc := h
    simp only [pkind, Config.cavernBase, Config.cavernSize, Config.pcie0Base, Config.pcie1Base, Config.pcieWindow, Config.cxlBase,
      Config.cxlSize, Config.regBase, show ¬loc < 4294967296 + 4294967296 by omega, show ¬loc < 274877906944 + 274877906944 by omega,
      show ¬loc < 549755813888 + 274877906944 by omega, show ¬loc < 2251799813685248 + 281474976710656 by omega,
      show ¬loc < 805306368 + 16777216 by omega, and_false, if_false]
  unfold Mach.away Mach.mapped Mach.inHost isRem
  rw [hscr, hkind]
  simp

/-! ### A step of an operation of this device -/

/-- The engines after a step: what the step knew of lines of other devices is forgotten. -/
def Mach.stepped (m : Mach) (id : Nat) : Mach :=
  { m with far := [], engines := m.engines.map fun (u : EngOp) => if u.id = id then { u with lines := [] } else u }

theorem asked_near {l : List FarReq} {id : Nat} (h : ∀ r ∈ l, r.who ≠ .engine id) : (l.any fun r => r.who == .engine id) = false :=
  List.any_eq_false.2 fun r hr => by simpa using h r hr

theorem engStep_near {y : Sys} {m m' : Mach} {e : EngOp} {f : Mach → EngOp → Mach} (hreqs : ∀ r ∈ m.reqs, r.who ≠ .engine e.id)
    (hf : f m e = m') (hfar : m'.far = []) (hreqs' : ∀ r ∈ m'.reqs, r.who ≠ .engine e.id) : m.engStep y e f = m'.stepped e.id := by
  unfold Mach.engStep
  dsimp only
  refine (if_neg (by rw [asked_near hreqs]; decide)).trans ?_
  rw [hf, hfar]
  exact if_neg (by rw [asked_near hreqs']; decide)

theorem engGate_plain {y : Sys} {m : Mach} {e : EngOp} (f : Mach → EngOp → Mach) (h : e.fault = none) : m.engGate y e f = m.engStep y e f := by
  unfold Mach.engGate
  rw [h]

theorem engine?_stepped (m : Mach) (id k : Nat) :
    (m.stepped id).engine? k = (m.engine? k).map fun u => if u.id = id then { u with lines := [] } else u :=
  find?_map_key EngOp.id m.engines (fun u => if u.id = id then { u with lines := [] } else u) (by intro u; split <;> rfl) k

theorem engine?_setEngine (m : Mach) (e : EngOp) (k : Nat) :
    (m.setEngine e).engine? k = if e.id = k then (m.engine? k).map fun _ => e else m.engine? k :=
  find?_replace EngOp.id m.engines e k

/-- The engine of a step that has been made. -/
theorem stepped_engine {m : Mach} {e u : EngOp} (h : m.engine? e.id = some e) (hid : u.id = e.id) (hlines : u.lines = []) :
    ((m.setEngine u).stepped e.id).engine? e.id = some u := by
  rw [engine?_stepped, engine?_setEngine, if_pos hid, h, Option.map_some, Option.map_some, if_pos hid]
  refine congrArg some ?_
  rw [← hlines]

theorem engGone_engine? (m : Mach) (e : EngOp) : (m.engGone e).engine? e.id = none := by
  refine List.find?_eq_none.2 fun u hu => ?_
  simpa using (List.mem_filter.1 hu).2

theorem copyStep_exec {s : State} {e : EngOp} {ds ss : Bool} {dst src len ctr : Nat} {m' : Mach} (hhead : s.mach.copyHead e.core = some e)
    (hkind : e.kind = .cpy ds ss dst src len ctr) (hfault : e.fault = none)
    (hstep : s.mach.engStep s.sys e (fun m e => m.cpyStep s.sys e ds ss dst src len ctr) = m') :
    exec (.engineStep e.core 0) s = .next (s.withMach m').settle := by
  refine congrArg (fun m => Host.Outcome.next ({ s with mach := m } : State).settle) ?_
  show (match s.mach.copyHead e.core with
    | none => s.mach
    | some e => s.mach.engGate s.sys e fun m e => match e.kind with
      | .cpy ds ss dst src len ctr => m.cpyStep s.sys e ds ss dst src len ctr
      | .cpyp va frame ctr => m.cpypStep s.sys e va frame ctr
      | _ => m) = m'
  rw [hhead]
  dsimp only
  rw [engGate_plain _ hfault, ← hstep]
  unfold Mach.engStep
  dsimp only
  rw [hkind]

/-! ### Copies -/

/-- What the statements say of a copy's next line: both ends are named, and neither is mapped. -/
structure CopyLine? (s : State) (e : EngOp) (ds ss : Bool) (dst src : Nat) (a b : ELoc) : Prop where
  sound : Sound s
  near : NearStep s e
  begun : 0 < e.i
  clean : e.nums = []
  from_ : s.mach.mapped a.1 = false
  to_ : s.mach.mapped b.1 = false
  read : s.mach.cpyEnd s.sys e ss (src + 64 * e.i) .r = .ok a
  write : s.mach.cpyEnd s.sys e ds (dst + 64 * e.i) .w = .ok b

/-- The line that is copied. -/
theorem cpyStep_line {s : State} {e : EngOp} {ds ss : Bool} {dst src : Nat} {a b : ELoc} (len ctr : Nat)
    (h : CopyLine? s e ds ss dst src a b) : s.mach.cpyStep s.sys e ds ss dst src len ctr =
      if 64 * (e.i + 1) < len then (s.mach.engStore e b (s.mach.bytes a.1 64)).setEngine { e with i := e.i + 1 }
      else ((s.mach.engStore e b (s.mach.bytes a.1 64)).setEngine { e with i := e.i + 1 }).engRetire { e with i := e.i + 1 } ctr := by
  have hbegun : ¬e.i = 0 := Nat.ne_of_gt h.begun
  have hgood : badRange s.mach a.1 64 = false := sound_range h.sound h.from_ 64
  unfold Mach.cpyStep
  rw [if_neg hbegun]
  dsimp only
  rw [h.read]
  dsimp only
  rw [h.write]
  dsimp only
  rw [locFix_sound _ _ _ h.sound.2.1, show s.mach.cpyLine e a b = (s.mach.engStore e b (s.mach.bytes a.1 64), false) from
    if_pos (by rw [hgood]; rfl)]
  dsimp only
  rw [if_neg Bool.false_ne_true, h.clean]

theorem copy_near {s : State} {e : EngOp} {ds ss : Bool} {dst src : Nat} {a b : ELoc} (h : CopyLine? s e ds ss dst src a b)
    (haway : s.mach.away b.1 = false) : Wrote s.mach (s.mach.engStore e b (s.mach.bytes a.1 64)) ∧
      (∀ t : State, t.mach.mem = (s.mach.engStore e b (s.mach.bytes a.1 64)).mem → Stored s t b.1 (s.mach.bytes a.1 64)) := by
  obtain ⟨hwrote, hmem⟩ := engStore_near e b (s.mach.bytes a.1 64) h.sound.2.1 haway h.to_
  refine ⟨hwrote, fun t ht => ?_⟩
  rw [hmem] at ht
  unfold Stored
  rw [ht]
  exact put_wf_read b.1 _ h.sound.2.2

theorem engRetire_spec (m : Mach) (e : EngOp) (idx : Nat) :
    (m.engRetire e idx).mem = m.mem ∧ (m.engRetire e idx).threads = m.threads ∧ (m.engRetire e idx).far = m.far ∧
      (m.engRetire e idx).rings = m.rings ∧ (m.engRetire e idx).engines = (m.engGone e).engines ∧
      (m.engRetire e idx).reqs = m.reqs.filter (fun r => r.who != .engine e.id) ∧
      (m.engRetire e idx).ranges = m.ranges.filter (fun r => r.op != e.id) ∧
      (idx ≠ 0xFFFF → ((m.engRetire e idx).ctr e.rcb idx).val = ((m.ctr e.rcb idx).val + 1) % 2 ^ 32) := by
  unfold Mach.engRetire Mach.engAdd
  split
  · exact ⟨rfl, rfl, rfl, rfl, rfl, rfl, rfl, fun h => absurd ‹_› h⟩
  · refine ⟨rfl, rfl, rfl, rfl, rfl, rfl, rfl, fun _ => ?_⟩
    have hset (c : Ctr) (h : c.rcb = e.rcb ∧ c.idx = idx) : ((((m.engGone e).sync e.poster 6 true false (.ctr e.rcb idx)).setCtr c).ctr
        e.rcb idx).val = c.val := congrArg Ctr.val ((ctr_setCtr _ c e.rcb idx).trans (if_pos h))
    unfold Mach.ctrAdd
    dsimp only
    refine (hset _ ?_).trans rfl
    exact ctr_key ((m.engGone e).sync e.poster 6 true false (.ctr e.rcb idx)) e.rcb idx

/-- A copy whose destination is of another device asks it to write the line. -/
theorem copy_asks {s : State} {e : EngOp} {ds ss : Bool} {dst src len ctr : Nat} {a b : ELoc} (h : CopyLine? s e ds ss dst src a b)
    (hrem : isRem b.1 = true) : s.mach.engStep s.sys e (fun m e => m.cpyStep s.sys e ds ss dst src len ctr) =
      s.mach.askFar s.sys (.engine e.id) b.1 (ELoc.va b) 64 true (s.mach.bytes a.1 64) := by
  obtain ⟨hnofar, hreqs, hlines⟩ := h.near
  have haway : s.mach.away b.1 = true := by
    unfold Mach.away
    rw [hrem, Bool.true_or]
  have hstore : (s.mach.engStore e b (s.mach.bytes a.1 64)).far = [(b.1, ELoc.va b, s.mach.bytes a.1 64)] := by
    unfold Mach.engStore
    dsimp only
    rw [if_pos haway, if_pos hrem]
    show s.mach.far ++ _ = _
    rw [hnofar]
    rfl
  have hfar : (s.mach.cpyStep s.sys e ds ss dst src len ctr).far = [(b.1, ELoc.va b, s.mach.bytes a.1 64)] := by
    rw [cpyStep_line len ctr h]
    split
    · exact hstore
    · exact (engRetire_spec _ _ _).2.2.1.trans hstore
  have hnew : ([(b.1, ELoc.va b, s.mach.bytes a.1 64)] : List (Nat × Nat × List Byte)).filter (fun w => (e.farAt w.1 true).isNone) =
      [(b.1, ELoc.va b, s.mach.bytes a.1 64)] := by
    unfold EngOp.farAt
    rw [hlines]
    rfl
  unfold Mach.engStep
  dsimp only
  refine (if_neg (by rw [asked_near hreqs]; decide)).trans ?_
  rw [hfar, hnew]
  dsimp only [List.foldl_cons, List.foldl_nil]
  rw [bytes_length]

/-- The line is written, and the copy goes on or retires. -/
theorem copy_writes {s : State} {e : EngOp} {ds ss : Bool} {dst src len ctr : Nat} {a b : ELoc} (h : CopyLine? s e ds ss dst src a b)
    (haway : s.mach.away b.1 = false) : s.mach.engStep s.sys e (fun m e => m.cpyStep s.sys e ds ss dst src len ctr) =
      (s.mach.cpyStep s.sys e ds ss dst src len ctr).stepped e.id := by
  obtain ⟨hnofar, hreqs, -⟩ := h.near
  obtain ⟨hwrote, -⟩ := copy_near h haway
  have hfar1 : (s.mach.engStore e b (s.mach.bytes a.1 64)).far = [] := by rw [hwrote.frame]; exact hnofar
  have hreqs1 : (s.mach.engStore e b (s.mach.bytes a.1 64)).reqs = s.mach.reqs := by rw [hwrote.frame]
  refine engStep_near hreqs rfl ?_ ?_
  · rw [cpyStep_line len ctr h]
    split
    · exact hfar1
    · exact (engRetire_spec _ _ _).2.2.1.trans hfar1
  · rw [cpyStep_line len ctr h]
    split
    · show ∀ r ∈ (s.mach.engStore e b (s.mach.bytes a.1 64)).reqs, _
      rw [hreqs1]
      exact hreqs
    · obtain ⟨-, -, -, -, -, hr, -⟩ := engRetire_spec ((s.mach.engStore e b (s.mach.bytes a.1 64)).setEngine { e with i := e.i + 1 })
        { e with i := e.i + 1 } ctr
      rw [hr]
      exact fun r hr => hreqs r (hreqs1 ▸ (List.mem_filter.1 hr).1)

/-- The premises of the statements about copies. -/
def CopyOk (e : EngOp) (ds ss : Bool) (dst src len ctr : Nat) (a b : ELoc) (s : State) : Prop :=
  Sound s ∧ NearStep s e ∧ s.mach.copyHead e.core = some e ∧ s.mach.engine? e.id = some e ∧
    e.kind = .cpy ds ss dst src len ctr ∧ e.fault = none ∧ e.nums = [] ∧ 0 < e.i ∧ s.mach.mapped a.1 = false ∧
    s.mach.mapped b.1 = false ∧
    s.mach.cpyEnd s.sys e ss (src + 64 * e.i) .r = .ok a ∧ s.mach.cpyEnd s.sys e ds (dst + 64 * e.i) .w = .ok b

theorem CopyOk.line {e : EngOp} {ds ss : Bool} {dst src len ctr : Nat} {a b : ELoc} {s : State} (h : CopyOk e ds ss dst src len ctr a b s) :
    CopyLine? s e ds ss dst src a b := by
  obtain ⟨hsound, hnear, -, -, -, -, hnums, hi, hfrom, hto, hread, hwrite⟩ := h
  exact ⟨hsound, hnear, hi, hnums, hfrom, hto, hread, hwrite⟩

theorem copyAway (e : EngOp) (ds ss : Bool) (dst src len ctr : Nat) (a b : ELoc) :
    StepsTo (.engineStep e.core 0) (fun s => CopyOk e ds ss dst src len ctr a b s ∧ s.mach.away b.1 = true)
      (fun s t => MemoryKept s t ∧ t.mach.engine? e.id = some e ∧ t.mach.threads = s.mach.threads ∧
        (∃ r ∈ t.mach.reqs, r.who = .engine e.id ∧ r.loc = b.1 ∧ r.write = true) ∧
        if isRem b.1 then ∃ n, t.mach.out.getLast? = some
          ⟨s.sys.devid, remDev b.1, 2, n, .bulkReq s.mach.next (remOff b.1) 64 true (s.mach.bytes a.1 64)⟩
        else t.mach.out = s.mach.out) := by
  rintro s hs ⟨hok, haway⟩
  have hline := hok.line
  have hrem : isRem b.1 = true := by
    have hhost : s.mach.inHost b.1 = false := (Bool.or_eq_false_iff.1 hline.to_).2
    unfold Mach.away at haway
    rwa [hhost, Bool.or_false] at haway
  obtain ⟨-, -, hhead, heng, hkind, hfault, -⟩ := hok
  have hexec := copyStep_exec hhead hkind hfault (copy_asks hline hrem)
  have hask : s.mach.askFar s.sys (.engine e.id) b.1 (ELoc.va b) 64 true (s.mach.bytes a.1 64) =
      { s.mach with
        reqs := s.mach.reqs ++ [⟨s.mach.next, .engine e.id, b.1, ELoc.va b, true, s.sys.ticks⟩], next := s.mach.next + 1
        out := s.mach.out ++ [⟨s.sys.devid, remDev b.1, 2, (s.sys.fport (s.sys.portFor (look {} s.sys.routes (remDev b.1)) 2)).useReq,
          .bulkReq s.mach.next (remOff b.1) 64 true (s.mach.bytes a.1 64)⟩] } := if_pos hrem
  rw [hask] at hexec
  refine ⟨_, hexec, fun _ => rfl, heng, rfl, ⟨_, List.mem_append_right _ List.mem_cons_self, rfl, rfl, rfl⟩, ?_⟩
  rw [if_pos hrem]
  exact ⟨_, List.getLast?_concat⟩

theorem copyGoesOn (e : EngOp) (ds ss : Bool) (dst src len ctr : Nat) (a b : ELoc) :
    StepsTo (.engineStep e.core 0) (fun s => CopyOk e ds ss dst src len ctr a b s ∧ s.mach.away b.1 = false ∧ 64 * (e.i + 1) < len)
      (fun s t => Stored s t b.1 (s.mach.bytes a.1 64) ∧ t.mach.engine? e.id = some { e with i := e.i + 1 } ∧
        t.mach.threads = s.mach.threads) := by
  rintro s hs ⟨hok, haway, hmore⟩
  have hline := hok.line
  obtain ⟨hwrote, hstored⟩ := copy_near hline haway
  obtain ⟨-, ⟨-, -, hlines⟩, hhead, heng, hkind, hfault, -⟩ := hok
  have hexec := copyStep_exec hhead hkind hfault (copy_writes hline haway)
  rw [cpyStep_line len ctr hline, if_pos hmore] at hexec
  generalize s.mach.engStore e b (s.mach.bytes a.1 64) = m1 at hexec hwrote hstored
  have heng1 : m1.engine? e.id = some e := by rw [hwrote.frame]; exact heng
  have hthreads : m1.threads = s.mach.threads := by rw [hwrote.frame]
  exact ⟨_, hexec, hstored _ rfl, stepped_engine heng1 rfl hlines, hthreads⟩

theorem copyRetires (e : EngOp) (ds ss : Bool) (dst src len ctr : Nat) (a b : ELoc) :
    StepsTo (.engineStep e.core 0) (fun s => CopyOk e ds ss dst src len ctr a b s ∧ s.mach.away b.1 = false ∧ len ≤ 64 * (e.i + 1))
      (fun s t => Stored s t b.1 (s.mach.bytes a.1 64) ∧ EngineRetires s t e ctr) := by
  rintro s hs ⟨hok, haway, hlast⟩
  have hline := hok.line
  obtain ⟨hwrote, hstored⟩ := copy_near hline haway
  obtain ⟨-, -, hhead, heng, hkind, hfault, -⟩ := hok
  have hexec := copyStep_exec hhead hkind hfault (copy_writes hline haway)
  rw [cpyStep_line len ctr hline, if_neg (Nat.not_lt.2 hlast)] at hexec
  generalize s.mach.engStore e b (s.mach.bytes a.1 64) = m1 at hexec hwrote hstored
  have hthreads : m1.threads = s.mach.threads := by rw [hwrote.frame]
  have hctr : m1.ctr e.rcb ctr = s.mach.ctr e.rcb ctr := by rw [hwrote.frame]; rfl
  obtain ⟨hmem, hthr, -, -, hengs, -, hranges, hadd⟩ := engRetire_spec (m1.setEngine { e with i := e.i + 1 }) { e with i := e.i + 1 } ctr
  have hgone : ((m1.setEngine { e with i := e.i + 1 }).engRetire { e with i := e.i + 1 } ctr).engine? e.id = none := by
    unfold Mach.engine?
    rw [hengs]
    exact engGone_engine? (m1.setEngine { e with i := e.i + 1 }) { e with i := e.i + 1 }
  generalize (m1.setEngine { e with i := e.i + 1 }).engRetire { e with i := e.i + 1 } ctr = m2 at *
  refine ⟨_, hexec, hstored _ hmem, ?_, fun r hr => ?_, hthr.trans hthreads, fun hc => ?_⟩
  · show (m2.stepped e.id).engine? e.id = none
    rw [engine?_stepped, hgone]
    rfl
  · have hr' : r ∈ m2.ranges := hr
    rw [hranges] at hr'
    simpa using (List.mem_filter.1 hr').2
  · refine (hadd hc).trans ?_
    rw [show (m1.setEngine { e with i := e.i + 1 }).ctr e.rcb ctr = m1.ctr e.rcb ctr from rfl, hctr]

/-! ### The head of a stream queue -/

theorem ring?_setEngine (m : Mach) (e : EngOp) (c n : Nat) : (m.setEngine e).ring? c n = m.ring? c n := rfl

theorem ring?_stepped (m : Mach) (id c n : Nat) : (m.stepped id).ring? c n = m.ring? c n := rfl

theorem streamStep_exec {s : State} {e : EngOp} {k : Nat} {va : Nat} {m' : Mach} (hhead : s.mach.streamHead e.core k = some e)
    (hkind : e.kind = .stream k va) (hstage : e.stage = 0) (hfault : e.fault = none)
    (hstep : s.mach.engStep s.sys e (fun m e => m.streamStart s.sys e va) = m') :
    exec (.engineStep e.core (2 + k)) s = .next (s.withMach m').settle := by
  refine congrArg (fun m => Host.Outcome.next ({ s with mach := m } : State).settle) ?_
  dsimp only
  rw [if_neg (by omega), if_neg (by omega), Nat.add_sub_cancel_left, hhead]
  dsimp only
  rw [if_pos hstage, engGate_plain _ hfault, ← hstep]
  unfold Mach.engStep
  dsimp only
  rw [hkind]

/-- The ring that a record makes. -/
def EngOp.newRing (e : EngOp) (r : TRec) : Ring :=
  { core := e.core, num := r.ring, launch := e.launch, owner := e.wave, drain := r.drain, slotOff := 64 * r.slotoff,
    slotBytes := 64 * r.slotb, nprod := r.nprod, prods := [r.prodnum], slots := List.replicate r.nslot {} }

theorem streamStarts (e : EngOp) (k va n : Nat) (l : ELoc) : StepsTo (.engineStep e.core (2 + k))
    (fun s => Sound s ∧ NearStep s e ∧ s.mach.streamHead e.core k = some e ∧ s.mach.engine? e.id = some e ∧ e.kind = .stream k va ∧
      e.stage = 0 ∧ e.fault = none ∧ va % 64 = 0 ∧ s.mach.engAcc s.sys e va .r = .ok l ∧ s.mach.mapped l.1 = false ∧ n = s.mach.num l.1 64 ∧
      tRecBad n = false ∧ s.mach.ring? e.core (tRec n).ring = none ∧
      64 * (tRec n).slotoff + (tRec n).nslot * (64 * (tRec n).slotb) ≤ e.scrLen)
    fun s t => MemoryKept s t ∧ ∃ g, t.mach.ring? e.core (tRec n).ring = some g ∧ g.launch = e.launch ∧ g.owner = e.wave ∧
      g.slots = List.replicate (tRec n).nslot {} ∧ g.slotBytes = 64 * (tRec n).slotb ∧ g.slotOff = 64 * (tRec n).slotoff ∧
      g.prods = [(tRec n).prodnum] ∧ g.marks = [] ∧ g.closed = false ∧
      ∃ e', t.mach.engine? e.id = some e' ∧ e'.stage = 1 ∧ e'.i = 0 ∧ e'.layout = tRec n := by
  rintro s hs ⟨hsound, ⟨hnofar, hreqs, hlines⟩, hhead, heng, hkind, hstage, hfault, hva, hacc, hmap, hn, hgood, hring, hfits⟩
  generalize hu : ({ e with stage := 1, i := 0, nums := [n, 0, s.mach.cycle] } : EngOp) = u
  have hstart : s.mach.streamStart s.sys e va = (s.mach.setRing (e.newRing (tRec n))).setEngine u := by
    unfold Mach.streamStart
    rw [if_neg (by omega), hacc]
    dsimp only
    rw [sound_range hsound hmap, if_neg Bool.false_ne_true, locFix_sound _ _ _ hsound.2.1, ← hn, hgood, if_neg Bool.false_ne_true, ← hu]
    unfold Mach.ringJoin
    dsimp only
    rw [hring]
    exact if_neg (Nat.not_lt.2 hfits)
  have hexec := streamStep_exec hhead hkind hstage hfault (engStep_near hreqs hstart hnofar hreqs)
  have hid : u.id = e.id := by rw [← hu]
  have hnone : u.lines = [] := by rw [← hu]; exact hlines
  have hring' : (((s.mach.setRing (e.newRing (tRec n))).setEngine u).stepped e.id).ring? e.core (tRec n).ring = some (e.newRing (tRec n)) :=
    ring?_setRing (m := s.mach) (g := e.newRing (tRec n)) rfl rfl
  have heng' := stepped_engine (m := s.mach.setRing (e.newRing (tRec n))) heng hid hnone
  have hmem : (((s.mach.setRing (e.newRing (tRec n))).setEngine u).stepped e.id).mem = s.mach.mem := rfl
  generalize ((s.mach.setRing (e.newRing (tRec n))).setEngine u).stepped e.id = m2 at *
  refine ⟨_, hexec, fun x => congrArg (fun mem : Memory => mem.read x) hmem, e.newRing (tRec n), hring', rfl, rfl, rfl, rfl, rfl, rfl, rfl,
    rfl, u, heng', by rw [← hu], by rw [← hu], by rw [← hu]; rfl⟩

/-! ### Fills -/

theorem fillStep_exec {s : State} {e : EngOp} {k : Nat} {m' : Mach} {f : Mach → EngOp → Mach} (hhead : s.mach.streamHead e.core k = some e)
    (hstage : e.stage = 1) (hdrain : e.layout.drain = false) (hfault : e.fault = none)
    (hf : f = fun m e => match m.ring? e.core e.layout.ring with
      | none => m.engFail e 0x64 0
      | some g => match nth e.nums 1 with
        | i + 1 => m.fillStep s.sys e g i
        | 0 =>
          if m.fillTurn e g then
            (m.setRing { g.setSlot g.fillAt { g.slot g.fillAt with st := .held 0 } with fillAt := g.next g.fillAt }).setEngine
              { e with nums := [nth e.nums 0, g.fillAt + 1, nth e.nums 2] ++ e.nums.drop 3 }
          else m)
    (hstep : s.mach.engStep s.sys e f = m') : exec (.streamFillStep e.core k) s = .next (s.withMach m').settle := by
  refine congrArg (fun m => Host.Outcome.next ({ s with mach := m } : State).settle) ?_
  dsimp only
  rw [hhead]
  dsimp only
  rw [hstage, hdrain, if_neg (by decide), engGate_plain _ hfault, ← hstep, hf] <;> rfl

theorem fillTakes (e : EngOp) (k va : Nat) (g : Ring) : StepsTo (.streamFillStep e.core k)
    (fun s => NearStep s e ∧ s.mach.streamHead e.core k = some e ∧ s.mach.engine? e.id = some e ∧ e.kind = .stream k va ∧ e.stage = 1 ∧
      e.fault = none ∧ e.layout.drain = false ∧ s.mach.ring? e.core e.layout.ring = some g ∧ nth e.nums 1 = 0 ∧
      s.mach.fillTurn e g = true ∧ g.core = e.core ∧ g.num = e.layout.ring ∧ g.fillAt < g.slots.length)
    fun s t => MemoryKept s t ∧ ∃ g' e', t.mach.ring? e.core e.layout.ring = some g' ∧ (g'.slot g.fillAt).st = .held 0 ∧
      (∀ j, j ≠ g.fillAt → g'.slot j = g.slot j) ∧ g'.fillAt = (g.fillAt + 1) % g.slots.length ∧
      t.mach.engine? e.id = some e' ∧ nth e'.nums 1 = g.fillAt + 1 := by
  rintro s hs ⟨⟨hnofar, hreqs, hlines⟩, hhead, heng, -, hstage, hfault, hdrain, hring, hfree, hturn, hcore, hnum, hslot⟩
  generalize hu : ({ e with nums := [nth e.nums 0, g.fillAt + 1, nth e.nums 2] ++ e.nums.drop 3 } : EngOp) = u
  generalize hg : ({ g.setSlot g.fillAt { g.slot g.fillAt with st := .held 0 } with fillAt := g.next g.fillAt } : Ring) = g'
  have hexec := fillStep_exec (m' := ((s.mach.setRing g').setEngine u).stepped e.id) hhead hstage hdrain hfault rfl
    (engStep_near hreqs (by rw [hring]; dsimp only; rw [hfree]; dsimp only; rw [if_pos hturn, hu, hg]) hnofar hreqs)
  have hslots : ∀ j, g'.slot j = if j = g.fillAt then { g.slot g.fillAt with st := .held 0 } else g.slot j := fun j => by
    rw [← hg]
    exact slot_setSlot g g.fillAt _ hslot j
  have hring' : (((s.mach.setRing g').setEngine u).stepped e.id).ring? e.core e.layout.ring = some g' :=
    ring?_setRing (m := s.mach) (by rw [← hg]; exact hcore) (by rw [← hg]; exact hnum)
  have heng' := stepped_engine (m := s.mach.setRing g') (u := u) heng (by rw [← hu]) (by rw [← hu]; exact hlines)
  have hmem : (((s.mach.setRing g').setEngine u).stepped e.id).mem = s.mach.mem := rfl
  generalize ((s.mach.setRing g').setEngine u).stepped e.id = m2 at *
  refine ⟨_, hexec, fun x => congrArg (fun mem : Memory => mem.read x) hmem, g', u, hring', ?_, fun j hj => ?_, by rw [← hg]; rfl, heng',
    by rw [← hu]; rfl⟩
  · rw [hslots, if_pos rfl]
  · rw [hslots, if_neg hj]

/-! ### Bytes that are copied into a slot -/

theorem put_append (xs ys : List Byte) : ∀ (mem : Memory) (a : Nat), mem.put a (xs ++ ys) = (mem.put a xs).put (a + xs.length) ys := by
  induction xs with
  | nil => exact fun _ _ => rfl
  | cons x xs ih =>
    intro mem a
    rw [List.cons_append, Memory.put, ih, Memory.put, List.length_cons, Nat.add_comm xs.length 1, Nat.add_assoc]

/-- Words that are written one after another. -/
theorem engStores_words (e : EngOp) (data : List Byte) (dst : Nat) (hdst : 2 ^ 66 ≤ dst) (n : Nat) : ∀ {m : Mach}, m.eccSingle = [] →
    8 * n ≤ data.length →
    Wrote m ((List.range n).foldl (fun m w => m.engStore e (scrEnd (dst + 8 * w)) ((data.drop (8 * w)).take 8)) m) ∧
      ((List.range n).foldl (fun m w => m.engStore e (scrEnd (dst + 8 * w)) ((data.drop (8 * w)).take 8)) m).mem =
        m.mem.put dst (data.take (8 * n)) := by
  induction n with
  | zero => exact fun _ _ => ⟨.refl _, rfl⟩
  | succ n ih =>
    intro m hsingle hlen
    obtain ⟨hwrote, hmem⟩ := ih hsingle (by omega)
    rw [List.range_succ, List.foldl_append, List.foldl_cons, List.foldl_nil]
    generalize (List.range n).foldl (fun m w => m.engStore e (scrEnd (dst + 8 * w)) ((data.drop (8 * w)).take 8)) m = m1 at hwrote hmem
    obtain ⟨haway, hmap⟩ := scr_near (m := m1) (loc := dst + 8 * n) (by omega)
    obtain ⟨hwrote1, hmem1⟩ := engStore_near e (scrEnd (dst + 8 * n)) ((data.drop (8 * n)).take 8) (hwrote.single hsingle) haway hmap
    refine ⟨hwrote.trans hwrote1, ?_⟩
    have htake : data.take (8 * (n + 1)) = data.take (8 * n) ++ (data.drop (8 * n)).take 8 := List.take_add
    rw [hmem1, hmem, htake, put_append, List.length_take, Nat.min_eq_left (by omega)]
    rfl

theorem range_filter_lt (pos t : Nat) : ∀ k, (List.range k).filter (fun j => decide (pos + j < t)) = List.range (min k (t - pos)) := by
  intro k
  induction k with
  | zero => rw [Nat.zero_min]; rfl
  | succ k ih =>
    rw [List.range_succ, List.filter_append, ih]
    by_cases h : pos + k < t
    · rw [show [k].filter (fun j => decide (pos + j < t)) = [k] by simp [h], show min k (t - pos) = k by omega,
        show min (k + 1) (t - pos) = k + 1 by omega, List.range_succ]
    · rw [show [k].filter (fun j => decide (pos + j < t)) = [] by simp [h], List.append_nil, show min (k + 1) (t - pos) = min k (t - pos) by omega]

/-- The bytes of a step are the first of its 64. -/
theorem stepBytes_eq (r : TRec) (pos : Nat) :
    r.stepBytes pos = (List.range (min 64 (r.total - pos))).map fun j => (j, r.at_ (pos + j)) := by
  unfold TRec.stepBytes
  rw [range_filter_lt]

theorem engAll_length {y : Sys} {m : Mach} {e : EngOp} (parts : List (Nat × Need)) : ∀ {ls : List ELoc}, m.engAll y e parts = .ok ls →
    ls.length = parts.length := by
  induction parts with
  | nil =>
    intro ls h
    cases h
    rfl
  | cons p r ih =>
    intro ls h
    unfold Mach.engAll at h
    split at h
    · cases h
    · split at h
      · cases h
      · cases h
        rw [List.length_cons, List.length_cons, ih ‹_›]

theorem flatMap_read {m : Mach} : ∀ (src : List (Nat × Nat)) (ls : List ELoc), ls.length = src.length → (∀ l ∈ ls, m.mapped l.1 = false) →
    ((src.zip ls).flatMap fun b => m.bytes b.2.1 1) = ls.map fun l => m.mem.read l.1 := by
  intro src
  induction src with
  | nil =>
    intro ls hlen _
    rw [List.length_eq_zero_iff.1 hlen]
    rfl
  | cons p src ih =>
    intro ls hlen hmap
    cases ls with
    | nil => cases hlen
    | cons l ls =>
      have hone : m.bytes l.1 1 = [m.mem.read l.1] := by
        unfold Mach.bytes
        rw [hmap l List.mem_cons_self, if_neg Bool.false_ne_true]
        rfl
      rw [List.zip_cons_cons, List.flatMap_cons, hone, ih ls (Nat.succ.inj hlen) fun x hx => hmap x (List.mem_cons_of_mem _ hx)]
      rfl

/-- A full step of a fill. -/
theorem fillBytes_sound {s : State} (e : EngOp) {dst : Nat} (src : List (Nat × Nat)) {ls : List ELoc} (hsound : Sound s)
    (hdst : 2 ^ 66 ≤ dst) (hlen : ls.length = src.length) (hfull : src.length = 64) (hmap : ∀ l ∈ ls, s.mach.mapped l.1 = false) :
    ∃ m', s.mach.fillBytes e dst src ls = (m', []) ∧ Wrote s.mach m' ∧
      m'.mem = s.mach.mem.put dst (ls.map fun l => s.mach.mem.read l.1) := by
  have hbad : (src.zip ls).filter (fun b => badRange s.mach b.2.1 1) = [] := List.filter_eq_nil_iff.2 fun b hb => by
    rw [sound_range hsound (hmap b.2 (List.of_mem_zip hb).2)]
    exact Bool.false_ne_true
  have hdata := flatMap_read (m := s.mach) src ls hlen hmap
  have hzip : (src.zip ls).length = 64 := by rw [List.length_zip]; omega
  unfold Mach.fillBytes
  dsimp only
  rw [hbad, hdata, hzip, Nat.sub_self, List.replicate_zero, List.append_nil]
  obtain ⟨hwrote, hmem⟩ := engStores_words e (ls.map fun l => s.mach.mem.read l.1) dst hdst 8 hsound.2.1 (by rw [List.length_map]; omega)
  rw [List.take_of_length_le (by rw [List.length_map]; omega)] at hmem
  exact ⟨_, rfl, hwrote, hmem⟩

theorem locFixes_sound (e : EngOp) (ls : List ELoc) {m : Mach} (h : m.eccSingle = []) : ls.foldl (fun m l => m.locFix e l 1) m = m := by
  induction ls with
  | nil => rfl
  | cons l ls ih => rw [List.foldl_cons, locFix_sound e l 1 h, ih]

theorem slotLoc_scr (m : Mach) (g : Ring) (i : Nat) : 2 ^ 66 ≤ m.slotLoc g i := by
  unfold Mach.slotLoc
  have hbase : 2 ^ 66 ≤ ((m.wave? g.owner).map Wave.scrAt).getD (scrLoc g.core 0) := by
    cases m.wave? g.owner with
    | none =>
      show 2 ^ 66 ≤ scrLoc _ _
      unfold scrLoc
      omega
    | some w =>
      show 2 ^ 66 ≤ w.scrAt
      unfold Wave.scrAt scrLoc
      omega
  omega

/-- The step of a fill that has a slot in hand, once its bytes are written. -/
def Mach.filled (m : Mach) (e : EngOp) (g : Ring) (i : Nat) : Mach :=
  if e.i % e.layout.slotb + 1 < e.layout.slotb then m.setEngine { e with i := e.i + 1 }
  else
    let x : RingSlot := { (g.slot i).released (m.relOf e.launch e.wave) with
      st := .full, valid := Nat.min (64 * e.layout.slotb) (e.layout.total - 64 * (e.i + 1 - e.layout.slotb)), prod := e.layout.prodnum,
      last := decide (e.layout.total ≤ 64 * (e.i + 1)) }
    let m := m.sync e.poster 3 true false (.slot g.core g.num i)
    if decide (e.layout.total ≤ 64 * (e.i + 1)) then
      (m.setRing { g.setSlot i x with marks := g.marks ++ [e.layout.prodnum] }).engRetire { e with i := e.i + 1 } 0xFFFF
    else (m.setRing (g.setSlot i x)).setEngine { e with i := e.i + 1, nums := [nth e.nums 0, 0, m.cycle] }

theorem fillStep_eq {s : State} {e : EngOp} {g : Ring} {i : Nat} {ls : List ELoc} {m1 : Mach} (hsingle : s.mach.eccSingle = [])
    (hnums : e.nums.length = 3)
    (hall : s.mach.engAll s.sys e ((e.layout.stepBytes (64 * e.i)).map fun p => (p.2, Need.r)) = .ok ls)
    (hfill : s.mach.fillBytes e (s.mach.slotLoc g i + 64 * (e.i % e.layout.slotb)) (e.layout.stepBytes (64 * e.i)) ls = (m1, [])) :
    s.mach.fillStep s.sys e g i = m1.filled e g i := by
  have hdrop : e.nums.drop 3 = [] := List.drop_eq_nil_of_le (Nat.le_of_eq hnums)
  unfold Mach.fillStep
  dsimp only
  rw [hall]
  dsimp only
  rw [locFixes_sound e ls hsingle, hfill]
  dsimp only
  rw [List.append_nil, hdrop]
  rfl

/-- What is left by a step of a fill that has a slot in hand. -/
theorem filled_spec {m : Mach} {e : EngOp} {g : Ring} {i : Nat} (hring : m.ring? e.core e.layout.ring = some g) (hcore : g.core = e.core)
    (hnum : g.num = e.layout.ring) (heng : m.engine? e.id = some e) (hlines : e.lines = []) (hslot : i < g.slots.length) :
    (m.filled e g i).mem = m.mem ∧ (m.filled e g i).far = m.far ∧ (∀ r ∈ (m.filled e g i).reqs, r ∈ m.reqs) ∧
    ∃ g', ((m.filled e g i).stepped e.id).ring? e.core e.layout.ring = some g' ∧
      (e.i % e.layout.slotb + 1 < e.layout.slotb → g' = g ∧ ((m.filled e g i).stepped e.id).engine? e.id = some { e with i := e.i + 1 }) ∧
      (e.i % e.layout.slotb + 1 = e.layout.slotb → (g'.slot i).st = .full ∧ (g'.slot i).prod = e.layout.prodnum ∧
        (g'.slot i).last = decide (e.layout.total ≤ 64 * (e.i + 1)) ∧
        ((g'.slot i).last = true → ((m.filled e g i).stepped e.id).engine? e.id = none ∧ g'.marks = g.marks ++ [e.layout.prodnum])) := by
  unfold Mach.filled
  split
  case isTrue h => exact ⟨rfl, rfl, fun _ hr => hr, g, hring, fun _ => ⟨rfl, stepped_engine heng rfl hlines⟩, fun h' => by omega⟩
  case isFalse h =>
    generalize hx : ({ (g.slot i).released (m.relOf e.launch e.wave) with
      st := .full, valid := Nat.min (64 * e.layout.slotb) (e.layout.total - 64 * (e.i + 1 - e.layout.slotb)), prod := e.layout.prodnum,
      last := decide (e.layout.total ≤ 64 * (e.i + 1)) } : RingSlot) = x
    dsimp only
    generalize hm : m.sync e.poster 3 true false (.slot g.core g.num i) = m1
    have hst : x.st = .full := by rw [← hx]
    have hprod : x.prod = e.layout.prodnum := by rw [← hx]
    have hlast : x.last = decide (e.layout.total ≤ 64 * (e.i + 1)) := by rw [← hx]
    have hslots := slot_setSlot g i x hslot i
    rw [if_pos rfl] at hslots
    split
    case isTrue hend =>
      generalize hg : ({ g.setSlot i x with marks := g.marks ++ [e.layout.prodnum] } : Ring) = g'
      have hslots' : g'.slot i = x := by rw [← hg]; exact hslots
      obtain ⟨hmem, -, hfar, hrings, hengs, hreqs, -⟩ := engRetire_spec (m1.setRing g') { e with i := e.i + 1 } 0xFFFF
      have hgone : ((m1.setRing g').engRetire { e with i := e.i + 1 } 0xFFFF).engine? e.id = none := by
        unfold Mach.engine?
        rw [hengs]
        exact engGone_engine? (m1.setRing g') { e with i := e.i + 1 }
      have hring' : ((m1.setRing g').engRetire { e with i := e.i + 1 } 0xFFFF).ring? e.core e.layout.ring = some g' := by
        unfold Mach.ring?
        rw [hrings]
        exact ring?_setRing (by rw [← hg]; exact hcore) (by rw [← hg]; exact hnum)
      generalize (m1.setRing g').engRetire { e with i := e.i + 1 } 0xFFFF = m2 at *
      refine ⟨hmem.trans (by rw [← hm]; rfl), hfar.trans (by rw [← hm]; rfl), fun r hr => ?_, g', hring', fun h' => absurd h' h,
        fun _ => ⟨?_, ?_, ?_, fun _ => ⟨?_, by rw [← hg]⟩⟩⟩
      · rw [hreqs] at hr
        have := (List.mem_filter.1 hr).1
        rw [← hm] at this
        exact this
      · rw [hslots', hst]
      · rw [hslots', hprod]
      · rw [hslots', hlast]
      · rw [engine?_stepped, hgone]
        rfl
    case isFalse hend =>
      refine ⟨by rw [← hm]; rfl, by rw [← hm]; rfl, fun r hr => ?_, g.setSlot i x, ring?_setRing hcore hnum, fun h' => absurd h' h,
        fun _ => ⟨by rw [hslots, hst], by rw [hslots, hprod], by rw [hslots, hlast], fun h' => ?_⟩⟩
      · rw [← hm] at hr
        exact hr
      · rw [hslots, hlast] at h'
        exact absurd h' hend

theorem fillCopies (e : EngOp) (k va : Nat) (g : Ring) (i : Nat) (ls : List ELoc) : StepsTo (.streamFillStep e.core k)
    (fun s => Sound s ∧ NearStep s e ∧ s.mach.streamHead e.core k = some e ∧ s.mach.engine? e.id = some e ∧ e.kind = .stream k va ∧
      e.stage = 1 ∧ e.fault = none ∧ e.layout.drain = false ∧ s.mach.ring? e.core e.layout.ring = some g ∧ nth e.nums 1 = i + 1 ∧
      e.nums.length = 3 ∧ g.core = e.core ∧ g.num = e.layout.ring ∧ i < g.slots.length ∧ 1 ≤ e.layout.slotb ∧
      64 * (e.i + 1) ≤ e.layout.total ∧
      s.mach.engAll s.sys e ((e.layout.stepBytes (64 * e.i)).map fun p => (p.2, Need.r)) = .ok ls ∧ ∀ l ∈ ls, s.mach.mapped l.1 = false)
    fun s t =>
      Stored s t (s.mach.slotLoc g i + 64 * (e.i % e.layout.slotb)) (ls.map fun l => s.mach.mem.read l.1) ∧
      ∃ g', t.mach.ring? e.core e.layout.ring = some g' ∧
        (e.i % e.layout.slotb + 1 < e.layout.slotb → g' = g ∧ t.mach.engine? e.id = some { e with i := e.i + 1 }) ∧
        (e.i % e.layout.slotb + 1 = e.layout.slotb → (g'.slot i).st = .full ∧ (g'.slot i).prod = e.layout.prodnum ∧
          (g'.slot i).last = decide (e.layout.total ≤ 64 * (e.i + 1)) ∧
          ((g'.slot i).last = true → t.mach.engine? e.id = none ∧ g'.marks = g.marks ++ [e.layout.prodnum])) := by
  rintro s hs ⟨hsound, ⟨hnofar, hreqs, hlines⟩, hhead, heng, -, hstage, hfault, hdrain, hring, hhand, hnums, hcore, hnum, hslot, -, htotal,
    hall, hmap⟩
  have hfull : (e.layout.stepBytes (64 * e.i)).length = 64 := by
    rw [stepBytes_eq, List.length_map, List.length_range]
    omega
  have hlen : ls.length = (e.layout.stepBytes (64 * e.i)).length := by rw [engAll_length _ hall, List.length_map]
  obtain ⟨m1, hfill, hwrote, hmem⟩ := fillBytes_sound e (dst := s.mach.slotLoc g i + 64 * (e.i % e.layout.slotb)) _ hsound
    (Nat.le_add_right_of_le (slotLoc_scr s.mach g i)) hlen hfull hmap
  have hstep := fillStep_eq hsound.2.1 hnums hall hfill
  have hring1 : m1.ring? e.core e.layout.ring = some g := by rw [hwrote.frame]; exact hring
  have heng1 : m1.engine? e.id = some e := by rw [hwrote.frame]; exact heng
  have hfar1 : m1.far = [] := by rw [hwrote.frame]; exact hnofar
  have hreqs1 : ∀ r ∈ m1.reqs, r.who ≠ .engine e.id := by rw [hwrote.frame]; exact hreqs
  obtain ⟨hmem2, hfar2, hreqs2, hafter⟩ := filled_spec hring1 hcore hnum heng1 hlines hslot
  have hexec := fillStep_exec (m' := (m1.filled e g i).stepped e.id) hhead hstage hdrain hfault rfl
    (engStep_near hreqs (by rw [hring]; dsimp only; rw [hhand]; exact hstep) (hfar2.trans hfar1) fun r hr => hreqs1 r (hreqs2 r hr))
  have hmem3 : ((m1.filled e g i).stepped e.id).mem = s.mach.mem.put (s.mach.slotLoc g i + 64 * (e.i % e.layout.slotb))
      (ls.map fun l => s.mach.mem.read l.1) := hmem2.trans hmem
  generalize (m1.filled e g i).stepped e.id = m3 at *
  refine ⟨_, hexec, ?_, hafter⟩
  unfold Stored
  rw [show ((s.withMach m3).settle).mach.mem = _ from hmem3]
  exact put_wf_read _ _ hsound.2.2

/-! ### Drains -/

theorem drainStep_exec {s : State} {e : EngOp} {k : Nat} {m' : Mach} {f : Mach → EngOp → Mach} (hhead : s.mach.streamHead e.core k = some e)
    (hstage : e.stage = 1) (hdrain : e.layout.drain = true) (hfault : e.fault = none)
    (hf : f = fun m e => match m.ring? e.core e.layout.ring with
      | none => m.engFail e 0x64 0
      | some g => match nth e.nums 1 with
        | i + 1 => m.drainStep s.sys e g i
        | 0 =>
          if (g.slot g.takeAt).st == .full then
            (m.setRing { g.setSlot g.takeAt { g.slot g.takeAt with st := .held 0 } with takeAt := g.next g.takeAt }).setEngine
              { e with nums := [nth e.nums 0, g.takeAt + 1, nth e.nums 2] ++ e.nums.drop 3 }
          else m)
    (hstep : s.mach.engStep s.sys e f = m') : exec (.streamDrainStep e.core k) s = .next (s.withMach m').settle := by
  refine congrArg (fun m => Host.Outcome.next ({ s with mach := m } : State).settle) ?_
  dsimp only
  rw [hhead]
  dsimp only
  rw [hstage, hdrain, if_neg (by decide), engGate_plain _ hfault, ← hstep, hf] <;> rfl

theorem drainTakes (e : EngOp) (k va : Nat) (g : Ring) : StepsTo (.streamDrainStep e.core k)
    (fun s => NearStep s e ∧ s.mach.streamHead e.core k = some e ∧ s.mach.engine? e.id = some e ∧ e.kind = .stream k va ∧ e.stage = 1 ∧
      e.fault = none ∧ e.layout.drain = true ∧ s.mach.ring? e.core e.layout.ring = some g ∧ nth e.nums 1 = 0 ∧
      (g.slot g.takeAt).st = .full ∧ g.core = e.core ∧ g.num = e.layout.ring ∧ g.takeAt < g.slots.length)
    fun s t => MemoryKept s t ∧ ∃ g' e', t.mach.ring? e.core e.layout.ring = some g' ∧ (g'.slot g.takeAt).st = .held 0 ∧
      (∀ j, j ≠ g.takeAt → g'.slot j = g.slot j) ∧ g'.takeAt = (g.takeAt + 1) % g.slots.length ∧
      t.mach.engine? e.id = some e' ∧ nth e'.nums 1 = g.takeAt + 1 := by
  rintro s hs ⟨⟨hnofar, hreqs, hlines⟩, hhead, heng, -, hstage, hfault, hdrain, hring, hfree, hturn, hcore, hnum, hslot⟩
  generalize hu : ({ e with nums := [nth e.nums 0, g.takeAt + 1, nth e.nums 2] ++ e.nums.drop 3 } : EngOp) = u
  generalize hg : ({ g.setSlot g.takeAt { g.slot g.takeAt with st := .held 0 } with takeAt := g.next g.takeAt } : Ring) = g'
  have hexec := drainStep_exec (m' := ((s.mach.setRing g').setEngine u).stepped e.id) hhead hstage hdrain hfault rfl
    (engStep_near hreqs (by rw [hring]; dsimp only; rw [hfree]; dsimp only; rw [if_pos (beq_iff_eq.2 hturn), hu, hg]) hnofar hreqs)
  have hslots : ∀ j, g'.slot j = if j = g.takeAt then { g.slot g.takeAt with st := .held 0 } else g.slot j := fun j => by
    rw [← hg]
    exact slot_setSlot g g.takeAt _ hslot j
  have hring' : (((s.mach.setRing g').setEngine u).stepped e.id).ring? e.core e.layout.ring = some g' :=
    ring?_setRing (m := s.mach) (by rw [← hg]; exact hcore) (by rw [← hg]; exact hnum)
  have heng' := stepped_engine (m := s.mach.setRing g') (u := u) heng (by rw [← hu]) (by rw [← hu]; exact hlines)
  have hmem : (((s.mach.setRing g').setEngine u).stepped e.id).mem = s.mach.mem := rfl
  generalize ((s.mach.setRing g').setEngine u).stepped e.id = m2 at *
  refine ⟨_, hexec, fun x => congrArg (fun mem : Memory => mem.read x) hmem, g', u, hring', ?_, fun j hj => ?_, by rw [← hg]; rfl, heng',
    by rw [← hu]; rfl⟩
  · rw [hslots, if_pos rfl]
  · rw [hslots, if_neg hj]

/-! ### Bytes that are copied out of a slot -/

/-- Bytes written one by one, each at its location. -/
def Memory.scatter (mem : Memory) (xs : List (ELoc × Byte)) : Memory := xs.foldl (fun mem x => mem.write x.1.1 x.2) mem

/-- Writing runs of bytes is writing the bytes. -/
theorem runsOf_scatter (xs : List (ELoc × Byte)) : ∀ mem : Memory,
    (runsOf xs).foldl (fun mem x => mem.put x.1.1 x.2) mem = mem.scatter xs := by
  induction xs with
  | nil => exact fun _ => rfl
  | cons x xs ih =>
    intro mem
    have hih := ih (mem.write x.1.1 x.2)
    obtain ⟨l, b⟩ := x
    unfold runsOf
    cases hruns : runsOf xs with
    | nil =>
      rw [hruns] at hih
      exact hih
    | cons y t =>
      obtain ⟨l', bs⟩ := y
      rw [hruns] at hih
      dsimp only
      split
      case isTrue hnext =>
        refine Eq.trans ?_ hih
        show t.foldl _ ((mem.write l.1 b).put (l.1 + 1) bs) = t.foldl _ ((mem.write l.1 b).put l'.1 bs)
        rw [hnext]
      case isFalse => exact hih

theorem runsOf_heads (xs : List (ELoc × Byte)) : ∀ r ∈ runsOf xs, ∃ x ∈ xs, r.1 = x.1 := by
  induction xs with
  | nil => exact fun _ h => absurd h List.not_mem_nil
  | cons x xs ih =>
    obtain ⟨l, b⟩ := x
    unfold runsOf
    cases hruns : runsOf xs with
    | nil =>
      intro r hr
      rw [List.mem_singleton.1 hr]
      exact ⟨_, List.mem_cons_self, rfl⟩
    | cons y t =>
      rw [hruns] at ih
      have htail : ∀ r ∈ y :: t, ∃ x ∈ (l, b) :: xs, r.1 = x.1 := fun r hr => by
        obtain ⟨x, hx, hrx⟩ := ih r hr
        exact ⟨x, List.mem_cons_of_mem _ hx, hrx⟩
      obtain ⟨l', bs⟩ := y
      dsimp only
      split
      case isTrue =>
        intro r hr
        rcases List.mem_cons.1 hr with rfl | hr
        · exact ⟨_, List.mem_cons_self, rfl⟩
        · exact htail r (List.mem_cons_of_mem _ hr)
      case isFalse =>
        intro r hr
        rcases List.mem_cons.1 hr with rfl | hr
        · exact ⟨_, List.mem_cons_self, rfl⟩
        · exact htail r hr

theorem scatter_wf (xs : List (ELoc × Byte)) : ∀ {mem : Memory}, mem.wf = true → (mem.scatter xs).wf = true := by
  induction xs with
  | nil => exact id
  | cons x xs ih => exact fun h => ih (Memory.wf_write _ _ _ h)

theorem scatter_read_other (xs : List (ELoc × Byte)) : ∀ {mem : Memory} {a : Nat}, mem.wf = true → (∀ x ∈ xs, x.1.1 ≠ a) →
    (mem.scatter xs).read a = mem.read a := by
  induction xs with
  | nil => exact fun _ _ => rfl
  | cons x xs ih =>
    intro mem a hwf h
    refine (ih (Memory.wf_write _ _ _ hwf) fun y hy => h y (List.mem_cons_of_mem _ hy)).trans ?_
    rw [Memory.read_write _ _ _ _ hwf, if_neg fun e => h x List.mem_cons_self e.symm]

theorem scatter_read (xs : List (ELoc × Byte)) : ∀ {mem : Memory}, mem.wf = true → (xs.map fun x => x.1.1).Nodup →
    ∀ x ∈ xs, (mem.scatter xs).read x.1.1 = x.2 := by
  induction xs with
  | nil => exact fun _ _ _ h => absurd h List.not_mem_nil
  | cons y xs ih =>
    intro mem hwf hnd x hx
    rw [List.map_cons, List.nodup_cons] at hnd
    rcases List.mem_cons.1 hx with rfl | hx
    · refine (scatter_read_other xs (Memory.wf_write _ _ _ hwf) fun z hz e => hnd.1 ?_).trans ?_
      · rw [← e]
        exact List.mem_map_of_mem (f := fun x : ELoc × Byte => x.1.1) hz
      · rw [Memory.read_write _ _ _ _ hwf, if_pos rfl]
    · exact ih (Memory.wf_write _ _ _ hwf) hnd.2 x hx

theorem eccBlocks_sound {m : Mach} (loc len : Nat) (h : m.eccDouble = []) : m.eccBlocks loc len = false := by
  unfold Mach.eccBlocks
  rw [h]
  exact List.any_eq_false.2 fun _ _ => by simp

theorem eccBad_sound {m : Mach} (loc len : Nat) (h : m.eccDouble = []) : m.eccBad loc len = false := by
  unfold Mach.eccBad
  rw [h]
  exact List.any_eq_false.2 fun _ _ => by simp

/-- Runs that are stored at locations of this device. -/
theorem engStores_runs (e : EngOp) (runs : List (ELoc × List Byte)) : ∀ {m : Mach}, m.eccSingle = [] → m.eccDouble = [] →
    (∀ x ∈ runs, m.away x.1.1 = false ∧ m.mapped x.1.1 = false) →
    Wrote m (runs.foldl (fun m x => if m.eccBlocks x.1.1 x.2.length then m else m.engStore e x.1 x.2) m) ∧
      (runs.foldl (fun m x => if m.eccBlocks x.1.1 x.2.length then m else m.engStore e x.1 x.2) m).mem =
        runs.foldl (fun mem x => mem.put x.1.1 x.2) m.mem := by
  induction runs with
  | nil => exact fun _ _ _ => ⟨.refl _, rfl⟩
  | cons x runs ih =>
    intro m hsingle hdouble hnear
    obtain ⟨haway, hmap⟩ := hnear x List.mem_cons_self
    obtain ⟨hwrote, hmem⟩ := engStore_near e x.1 x.2 hsingle haway hmap
    obtain ⟨hrest, hmems⟩ := ih (hwrote.single hsingle) (hwrote.double hdouble) fun y hy => by
      rw [hwrote.away, hwrote.mapped]
      exact hnear y (List.mem_cons_of_mem _ hy)
    rw [List.foldl_cons, List.foldl_cons, eccBlocks_sound _ _ hdouble, if_neg Bool.false_ne_true]
    exact ⟨hwrote.trans hrest, by rw [hmems, hmem]⟩

/-- The bytes of a step of a drain, each with its destination. -/
def drainedBytes (m : Mach) (src : Nat) (dst : List (Nat × Nat)) (ls : List ELoc) : List (ELoc × Byte) :=
  (dst.zip ls).map fun b => (b.2, m.mem.read (src + b.1.1))

theorem drainStep_eq {s : State} {e : EngOp} {g : Ring} {i : Nat} {ls : List ELoc} (hsound : Sound s)
    (hmore : e.i % e.layout.slotb + 1 < e.layout.slotb)
    (hall : s.mach.engAll s.sys e ((e.layout.stepBytes (64 * e.i)).map fun p => (p.2, Need.w)) = .ok ls) :
    s.mach.drainStep s.sys e g i =
      ((runsOf (drainedBytes s.mach (s.mach.slotLoc g i + 64 * (e.i % e.layout.slotb)) (e.layout.stepBytes (64 * e.i)) ls)).foldl
        (fun m x => if m.eccBlocks x.1.1 x.2.length then m else m.engStore e x.1 x.2) s.mach).setEngine { e with i := e.i + 1 } := by
  obtain ⟨hdouble, hsingle, -⟩ := hsound
  have hbad : ∀ (l : List ((Nat × Nat) × ELoc × Byte)) (src : Nat), l.filter (fun b => s.mach.eccBad (src + b.1.1) 1) = [] := fun l src =>
    List.filter_eq_nil_iff.2 fun b _ => by rw [eccBad_sound _ _ hdouble]; exact Bool.false_ne_true
  have hgood : ∀ (l : List ((Nat × Nat) × ELoc × Byte)) (src : Nat), l.filter (fun b => !s.mach.eccBad (src + b.1.1) 1) = l := fun l src =>
    List.filter_eq_self.2 fun b _ => by rw [eccBad_sound _ _ hdouble]; rfl
  have hstuck : ∀ l : List (ELoc × List Byte), l.filter (fun x => s.mach.eccBlocks x.1.1 x.2.length) = [] := fun l =>
    List.filter_eq_nil_iff.2 fun b _ => by rw [eccBlocks_sound _ _ hdouble]; exact Bool.false_ne_true
  unfold Mach.drainStep
  dsimp only
  rw [hall]
  dsimp only
  rw [eccFix_sound _ _ _ hsingle, ite_self, hbad, hgood, hstuck, List.map_map]
  rw [if_pos (show (decide (([] : List ((Nat × Nat) × ELoc × Byte)) = []) && decide (([] : List (ELoc × List Byte)) = [])) = true by decide),
    if_pos (show (decide (([] : List ((Nat × Nat) × ELoc × Byte)) = []) && decide (([] : List (ELoc × List Byte)) = [])) = true by decide),
    if_pos hmore, List.append_nil]
  rfl

theorem drainCopies (e : EngOp) (k va : Nat) (g : Ring) (i : Nat) (ls : List ELoc) : StepsTo (.streamDrainStep e.core k)
    (fun s => Sound s ∧ NearStep s e ∧ s.mach.streamHead e.core k = some e ∧ s.mach.engine? e.id = some e ∧ e.kind = .stream k va ∧
      e.stage = 1 ∧ e.fault = none ∧ e.layout.drain = true ∧ s.mach.ring? e.core e.layout.ring = some g ∧ nth e.nums 1 = i + 1 ∧
      e.i % e.layout.slotb + 1 < e.layout.slotb ∧
      s.mach.engAll s.sys e ((e.layout.stepBytes (64 * e.i)).map fun p => (p.2, Need.w)) = .ok ls ∧
      (∀ l ∈ ls, s.mach.away l.1 = false ∧ s.mach.mapped l.1 = false) ∧ (ls.map fun l => l.1).Nodup)
    fun s t => (∀ j l, ls[j]? = some l →
        t.mach.mem.read l.1 = s.mach.mem.read (s.mach.slotLoc g i + 64 * (e.i % e.layout.slotb) + j)) ∧
      (∀ a, (∀ l ∈ ls, l.1 ≠ a) → t.mach.mem.read a = s.mach.mem.read a) ∧
      t.mach.rings = s.mach.rings ∧ t.mach.engine? e.id = some { e with i := e.i + 1 } := by
  rintro s hs ⟨hsound, ⟨hnofar, hreqs, hlines⟩, hhead, heng, -, hstage, hfault, hdrain, hring, hhand, hmore, hall, hnear, hnodup⟩
  have hlen : ls.length = (e.layout.stepBytes (64 * e.i)).length := by rw [engAll_length _ hall, List.length_map]
  have hstep := drainStep_eq (g := g) (i := i) hsound hmore hall
  generalize hsrc : s.mach.slotLoc g i + 64 * (e.i % e.layout.slotb) = src at *
  generalize hxs : drainedBytes s.mach src (e.layout.stepBytes (64 * e.i)) ls = xs at *
  have hlocs : xs.map (fun x => x.1) = ls := by
    rw [← hxs, drainedBytes, List.map_map]
    exact List.map_snd_zip (Nat.le_of_eq hlen)
  obtain ⟨hwrote, hmem⟩ := engStores_runs e (runsOf xs) hsound.2.1 hsound.1 fun r hr => by
    obtain ⟨x, hx, hrx⟩ := runsOf_heads xs r hr
    rw [hrx]
    exact hnear x.1 (hlocs ▸ List.mem_map_of_mem (f := fun x : ELoc × Byte => x.1) hx)
  rw [runsOf_scatter] at hmem
  generalize (runsOf xs).foldl (fun m x => if m.eccBlocks x.1.1 x.2.length then m else m.engStore e x.1 x.2) s.mach = m1 at hstep hwrote hmem
  have hfar1 : m1.far = [] := by rw [hwrote.frame]; exact hnofar
  have hreqs1 : ∀ r ∈ m1.reqs, r.who ≠ .engine e.id := by rw [hwrote.frame]; exact hreqs
  have heng1 : m1.engine? e.id = some e := by rw [hwrote.frame]; exact heng
  have hrings1 : m1.rings = s.mach.rings := by rw [hwrote.frame]
  have hexec := drainStep_exec (m' := (m1.setEngine { e with i := e.i + 1 }).stepped e.id) hhead hstage hdrain hfault rfl
    (engStep_near hreqs (by rw [hring]; dsimp only; rw [hhand]; exact hstep) hfar1 hreqs1)
  have heng2 := stepped_engine (u := { e with i := e.i + 1 }) heng1 rfl hlines
  have hmem2 : ((m1.setEngine { e with i := e.i + 1 }).stepped e.id).mem = s.mach.mem.scatter xs := hmem
  have hrings2 : ((m1.setEngine { e with i := e.i + 1 }).stepped e.id).rings = s.mach.rings := hrings1
  generalize (m1.setEngine { e with i := e.i + 1 }).stepped e.id = m2 at *
  have hread : ∀ a, (s.withMach m2).settle.mach.mem.read a = (s.mach.mem.scatter xs).read a := fun a =>
    congrArg (fun mem : Memory => mem.read a) hmem2
  refine ⟨_, hexec, fun j l hj => ?_, fun a ha => ?_, hrings2, heng2⟩
  · have hbound : j < ls.length := (List.getElem?_eq_some_iff.1 hj).1
    have hx : (l, s.mach.mem.read (src + j)) ∈ xs := by
      rw [← hxs, drainedBytes, List.mem_map]
      refine ⟨((j, e.layout.at_ (64 * e.i + j)), l), ?_, rfl⟩
      refine List.mem_of_getElem? (i := j) ?_
      rw [List.getElem?_zip_eq_some]
      refine ⟨?_, hj⟩
      rw [hlen] at hbound
      rw [stepBytes_eq, List.length_map, List.length_range] at hbound
      rw [stepBytes_eq, List.getElem?_map, List.getElem?_range hbound]
      rfl
    rw [← hlocs, List.map_map] at hnodup
    rw [hread, scatter_read xs hsound.2.2 hnodup _ hx, hsrc]
  · rw [hread, scatter_read_other xs hsound.2.2 fun x hx => ?_]
    exact ha x.1 (hlocs ▸ List.mem_map_of_mem (f := fun x : ELoc × Byte => x.1) hx)

/-- Settles O36, step by step. -/
theorem copiesAndStreamsStep : Obligations.CopiesAndStreamsStep := by
  unfold Obligations.CopiesAndStreamsStep
  exact ⟨fun e ds ss dst src len ctr a b => ⟨copyAway e ds ss dst src len ctr a b, copyGoesOn e ds ss dst src len ctr a b,
    copyRetires e ds ss dst src len ctr a b⟩, streamStarts, fillTakes, fillCopies, drainTakes, drainCopies⟩

end Sys2Proof.Machine
end

section
/-! SUPPORT. Threads that go to their targets (spec/12 R299, R300, R305, R313): which stay as the quarter, and which are filed. -/

namespace Sys2Proof.Machine

/-! ### Threads whose place alone changes -/

/-- Of a thread only its place changes, and it comes to carry no count. -/
def Placed (T U : Thread) : Prop := PlaceOnly T U ∧ (T.carry = none → U.carry = none)

theorem Placed.refl (T : Thread) : Placed T T := ⟨⟨rfl, fun _ => rfl⟩, id⟩

theorem Placed.trans {T U V : Thread} (h : Placed T U) (h' : Placed U V) : Placed T V := by
  obtain ⟨⟨hframe, hflags⟩, hcarry⟩ := h
  obtain ⟨⟨hframe', hflags'⟩, hcarry'⟩ := h'
  refine ⟨⟨?_, fun hT => (hflags' (hcarry hT)).trans (hflags hT)⟩, fun hT => hcarry' (hcarry hT)⟩
  rw [hframe', hframe]

theorem uncarried_placed (t : Thread) : Placed t t.uncarried := by
  unfold Thread.uncarried
  split
  case h_1 c hc =>
    unfold Thread.flagDown
    refine ⟨⟨?_, fun h => ?_⟩, fun _ => rfl⟩
    · split <;> rfl
    · rw [hc] at h
      cases h
  case h_2 => exact .refl t

/-- A thread with another place, other notes of how it came there, and the same flags. -/
theorem placed_of {T U : Thread} (h : U = { T with
    stat := U.stat, pc := U.pc, hdr := U.hdr, x0 := U.x0, x1 := U.x1, c := U.c, clause := U.clause, sender := U.sender,
    waitSince := U.waitSince, carry := U.carry, lastIssue := U.lastIssue }) (hcarry : U.carry = T.carry ∨ U.carry = none) : Placed T U := by
  refine ⟨⟨?_, fun _ => ?_⟩, fun hT => ?_⟩
  · rw [h]
  · rw [h]
  · rcases hcarry with hc | hc
    · exact hc.trans hT
    · exact hc

theorem Placed.role {T U : Thread} (h : Placed T U) : U.role = T.role := by rw [h.1.1]

theorem Placed.launch {T U : Thread} (h : Placed T U) : U.launch = T.launch := by rw [h.1.1]

theorem Placed.handler {T U : Thread} (h : Placed T U) : U.isHandler = T.isHandler := by
  unfold Thread.isHandler
  rw [h.role]

/-! ### Machines in which threads move -/

/-- Threads move between places; nothing else changes but the notes of what issued. -/
structure Moved (m m' : Mach) : Prop where
  frame : m' = { m with
    threads := m'.threads, quarters := m'.quarters, filing := m'.filing, cores := m'.cores, free := m'.free, next := m'.next }
  there : ∀ k, (m'.thr? k).isSome = (m.thr? k).isSome
  thr : ∀ k, Placed (m.thr k) (m'.thr k)
  core : ∀ k, m'.coreSt k = { m.coreSt k with busy := (m'.coreSt k).busy }

theorem Moved.refl (m : Mach) : Moved m m := ⟨rfl, fun _ => rfl, fun _ => .refl _, fun _ => rfl⟩

theorem Moved.trans {a b c : Mach} (h : Moved a b) (h' : Moved b c) : Moved a c where
  frame := by rw [h'.frame, h.frame]
  there k := (h'.there k).trans (h.there k)
  thr k := (h.thr k).trans (h'.thr k)
  core k := by rw [h'.core, h.core]

theorem Moved.launches {m m' : Mach} (h : Moved m m') (l : Nat) : m'.launch l = m.launch l := by
  rw [h.frame]
  rfl

theorem Moved.ending {m m' : Mach} (h : Moved m m') {k : Nat} (hends : (m.launch (m.thr k).launch).ending = none) :
    (m'.launch (m'.thr k).launch).ending = none := by
  rw [h.launches, (h.thr k).launch]
  exact hends

theorem modThr_moved {m : Mach} {i : Nat} {f : Thread → Thread} (hid : ∀ t, (f t).id = t.id) (hf : ∀ t, Placed t (f t))
    (hi : (m.thr? i).isSome) : Moved m (m.modThr i f) where
  frame := rfl
  there := isSome_modThr hid hi
  thr k := by
    rw [thr_modThr hid hi]
    split
    · exact hf _
    · exact .refl _
  core _ := rfl

theorem thr_modAll (m : Mach) (ids : List Nat) {f : Thread → Thread} (hid : ∀ t, (f t).id = t.id) (k : Nat) :
    (m.modAll ids f).thr k = if k ∈ ids ∧ (m.thr? k).isSome then f (m.thr k) else m.thr k := by
  unfold Mach.thr
  rw [thr?_modAll m ids f hid]
  cases m.thr? k with
  | none => simp
  | some t =>
    rw [Option.map_some, Option.getD_some, Option.getD_some]
    by_cases hk : k ∈ ids
    · rw [if_pos (List.contains_iff_mem.2 hk), if_pos ⟨hk, rfl⟩]
    · rw [if_neg fun h => hk (List.contains_iff_mem.1 h), if_neg fun h => hk h.1]

theorem modAll_moved (m : Mach) (ids : List Nat) {f : Thread → Thread} (hid : ∀ t, (f t).id = t.id) (hf : ∀ t, Placed t (f t)) :
    Moved m (m.modAll ids f) where
  frame := rfl
  there k := by rw [thr?_modAll m ids f hid, Option.isSome_map]
  thr k := by
    rw [thr_modAll m ids hid]
    split
    · exact hf _
    · exact .refl _
  core _ := rfl

theorem markBusy_moved (m : Mach) (core l : Nat) : Moved m (m.markBusy core l) where
  frame := rfl
  there _ := rfl
  thr _ := .refl _
  core k := by
    unfold Mach.markBusy Mach.modCore
    rw [coreSt_setCore]
    split
    case isTrue h =>
      have hk : core = k := by
        have hcore : (if (m.coreSt core).busy.contains l then m.coreSt core
            else { m.coreSt core with busy := l :: (m.coreSt core).busy } : CoreSt).core = core := by
          split
          · exact coreSt_core m core
          · exact coreSt_core m core
        exact hcore.symm.trans h
      rw [hk]
      dsimp only
      split <;> rfl
    case isFalse => rfl

theorem quarters_moved (m : Mach) (qs : List Quarter) : Moved m { m with quarters := qs } := ⟨rfl, fun _ => rfl, fun _ => .refl _, fun _ => rfl⟩

theorem detach_moved {m : Mach} {k : Nat} (h : (m.thr? k).isSome) : Moved m (m.detach k) := by
  unfold Mach.detach
  cases m.quarters.find? fun q => q.tids.contains k with
  | none => exact quarters_moved m _
  | some q =>
    exact (modThr_moved (f := fun t => { t with lastIssue := q.lastIssue }) (fun _ => rfl) (fun t => placed_of rfl (.inl rfl)) h).trans
      (quarters_moved _ _)

theorem detachIssued_moved {m : Mach} {k : Nat} (h : (m.thr? k).isSome) : Moved m (m.detachIssued k) := by
  have hdetach := detach_moved h
  have hmod := hdetach.trans (modThr_moved (f := fun t => { t.uncarried with lastIssue := some m.cycle }) uncarried_id
    (fun t => (uncarried_placed t).trans (placed_of rfl (.inl rfl))) (by rw [hdetach.there]; exact h))
  exact hmod.trans (markBusy_moved _ _ _)

theorem settled_placed (t : Thread) : Placed t t.settled := placed_of rfl (.inr rfl)

theorem boundary_placed (t : Thread) : Placed t t.boundary := placed_of rfl (.inl rfl)

theorem fileAt_moved {m : Mach} {i : Nat} {pc : Pc} (reform : Bool) (hi : (m.thr? i).isSome)
    (hends : (m.launch (m.thr i).launch).ending = none) : Moved m (m.fileAt i pc reform) ∧
      ((m.fileAt i pc reform).thr i).pc = pc ∧ ((m.fileAt i pc reform).thr i).hdr = none ∧ (m.fileAt i pc reform).quarters = m.quarters ∧
      ∀ j, j ≠ i → (m.fileAt i pc reform).thr j = m.thr j := by
  have hmod := modThr_moved (m := m) (i := i) (f := fun t => { t.boundary with waitSince := none }) (fun _ => rfl)
    (fun t => (boundary_placed t).trans (placed_of rfl (.inl rfl))) hi
  have hthr1 := thr_modThr (m := m) (i := i) (f := fun t => { t.boundary with waitSince := none }) (fun _ => rfl) hi
  unfold Mach.fileAt
  dsimp only
  rw [hends, if_neg (by simp)]
  generalize hm1 : m.modThr i (fun t => { t.boundary with waitSince := none }) = m1 at hmod hthr1
  have hq1 : m1.quarters = m.quarters := by rw [← hm1]; rfl
  have hi1 : (m1.thr? i).isSome := by rw [hmod.there]; exact hi
  have hthr2 := thr_modThr (m := m1) (i := i) (f := fun t => { t with stat := .filing, pc := pc }) (fun _ => rfl) hi1
  have hfile : Moved m1 (m1.enterFiling i { tid := i, pc := pc, reform := reform }) := by
    have h := modThr_moved (m := m1) (i := i) (f := fun t => { t with stat := .filing, pc := pc }) (fun _ => rfl)
      (fun t => placed_of rfl (.inl rfl)) hi1
    exact ⟨rfl, h.there, h.thr, h.core⟩
  have hentered : ∀ j, (m1.enterFiling i { tid := i, pc := pc, reform := reform }).thr j =
      if j = i then { m1.thr j with stat := .filing, pc := pc } else m1.thr j := hthr2
  refine ⟨hmod.trans hfile, ?_, ?_, hq1, fun j hj => ?_⟩
  · rw [hentered, if_pos rfl]
  · rw [hentered, if_pos rfl, hthr1, if_pos rfl]
    rfl
  · rw [hentered, if_neg hj, hthr1, if_neg hj]

/-! ### Quarters that threads leave -/

theorem active_iff {q : Quarter} {p : Nat × Nat} : p ∈ q.active ↔ q.slots[p.1]? = some (some p.2) := by
  obtain ⟨i, k⟩ := p
  unfold Quarter.active
  rw [List.mem_filterMap]
  constructor
  · rintro ⟨x, hx, hxk⟩
    obtain ⟨t, ht, he⟩ := Option.map_eq_some_iff.1 hxk
    cases he
    rw [← ht]
    exact mem_enum.1 hx
  · exact fun h => ⟨(i, some k), mem_enum.2 h, rfl⟩

theorem mem_tids_active {q : Quarter} {k : Nat} : k ∈ q.tids ↔ ∃ p ∈ q.active, p.2 = k := List.mem_map

/-- The quarter without a thread. -/
def Quarter.without (q : Quarter) (k : Nat) : Quarter := { q with slots := q.slots.map fun s => if s = some k then none else s }

theorem active_without {q : Quarter} {k : Nat} {p : Nat × Nat} : p ∈ (q.without k).active ↔ p ∈ q.active ∧ p.2 ≠ k := by
  rw [active_iff, active_iff]
  show (q.slots.map fun s => if s = some k then none else s)[p.1]? = _ ↔ _
  rw [List.getElem?_map]
  cases q.slots[p.1]? with
  | none => simp
  | some s =>
    rw [Option.map_some]
    constructor
    · intro h
      split at h
      case isTrue => cases h
      case isFalse hs =>
        rw [Option.some.inj h] at hs
        exact ⟨by rw [Option.some.inj h], fun e => hs (by rw [e])⟩
    · rintro ⟨h, hne⟩
      rw [Option.some.inj h, if_neg fun e => hne (Option.some.inj e)]

theorem find?_filter_of {α : Type} (l : List α) (p q : α → Bool) {a : α} (h : l.find? q = some a) (ha : p a = true) :
    (l.filter p).find? q = some a := by
  induction l with
  | nil => cases h
  | cons b l ih =>
    rw [List.find?_cons] at h
    cases hb : q b with
    | true =>
      rw [hb] at h
      cases h
      rw [List.filter_cons_of_pos ha, List.find?_cons, hb]
    | false =>
      rw [hb] at h
      rw [List.filter_cons]
      split
      · rw [List.find?_cons, hb]
        exact ih h
      · exact ih h

/-- The quarter that a thread leaves, where another thread stays. -/
theorem quarter?_detach {m : Mach} {id k : Nat} {q : Quarter} (hq : m.quarter? id = some q) (hstay : ∃ p ∈ q.active, p.2 ≠ k) :
    (m.detach k).quarter? id = some (q.without k) := by
  have hqs : (m.detach k).quarters = (m.quarters.map fun q => q.without k).filter fun q => q.slots.any Option.isSome := by
    unfold Mach.detach
    cases m.quarters.find? fun q => q.tids.contains k <;> rfl
  unfold Mach.quarter?
  rw [hqs]
  refine find?_filter_of _ _ _ ?_ ?_
  · rw [find?_map_key Quarter.id m.quarters (fun q => q.without k) (fun _ => rfl)]
    exact congrArg (Option.map _) hq
  · obtain ⟨p, hp, hne⟩ := hstay
    have hin := active_iff.1 (active_without.2 ⟨hp, hne⟩)
    exact List.any_eq_true.2 ⟨_, List.mem_of_getElem? hin, rfl⟩

/-- What stays of a quarter: its threads but those that have left. -/
structure Rest (q q' : Quarter) (gone : List Nat) : Prop where
  id : q'.id = q.id
  core : q'.core = q.core
  launch : q'.launch = q.launch
  active : ∀ p, p ∈ q'.active ↔ p ∈ q.active ∧ p.2 ∉ gone

theorem Rest.refl (q : Quarter) : Rest q q [] := ⟨rfl, rfl, rfl, fun _ => by simp⟩

theorem Rest.cons {q q' q'' : Quarter} {k : Nat} {gone : List Nat} (h : Rest q q' [k]) (h' : Rest q' q'' gone) : Rest q q'' (k :: gone) where
  id := h'.id.trans h.id
  core := h'.core.trans h.core
  launch := h'.launch.trans h.launch
  active p := by
    rw [h'.active, h.active, List.mem_singleton, List.mem_cons, not_or, and_assoc]

theorem without_rest (q : Quarter) (k : Nat) : Rest q (q.without k) [k] :=
  ⟨rfl, rfl, rfl, fun p => by rw [active_without, List.mem_singleton]⟩

/-- A thread that leaves its quarter for another address. -/
theorem sendAway_spec {m : Mach} {k : Nat} (pc : Pc) (snd : Option Sender) (reform : Bool) (hi : (m.thr? k).isSome)
    (hends : (m.launch (m.thr k).launch).ending = none) : Moved m (m.sendAway k pc snd reform) ∧
      ((m.sendAway k pc snd reform).thr k).pc = pc ∧ ((m.sendAway k pc snd reform).thr k).hdr = none ∧
      (m.sendAway k pc snd reform).quarters = (m.detach k).quarters ∧
      ∀ j, j ≠ k → (m.sendAway k pc snd reform).thr j = m.thr j := by
  have hdet := detachIssued_moved hi
  obtain ⟨i, hthr?⟩ := detachIssued_thr? hi
  have hother : ∀ j, j ≠ k → (m.detachIssued k).thr j = m.thr j := fun j hj => by
    unfold Mach.thr
    rw [hthr?]
    cases m.thr? j with
    | none => rfl
    | some t => exact congrArg (fun t => (some t).getD {}) (if_neg hj)
  have hqs : (m.detachIssued k).quarters = (m.detach k).quarters := rfl
  unfold Mach.sendAway
  generalize m.detachIssued k = m1 at hdet hother hqs
  have hi1 : (m1.thr? k).isSome := by rw [hdet.there]; exact hi
  dsimp only
  split
  case isTrue =>
    have hmod := modThr_moved (m := m1) (i := k) (f := fun t => { t.settled.boundary with stat := .held m1.next, pc := pc, sender := snd })
      (fun _ => rfl) (fun t => ((settled_placed t).trans (boundary_placed _)).trans (placed_of rfl (.inl rfl))) hi1
    have hthr := thr_modThr (m := m1) (i := k) (f := fun t => { t.settled.boundary with stat := .held m1.next, pc := pc, sender := snd })
      (fun _ => rfl) hi1
    refine ⟨hdet.trans hmod, ?_, ?_, hqs, fun j hj => ?_⟩
    · rw [hthr, if_pos rfl]
    · rw [hthr, if_pos rfl]
      rfl
    · rw [hthr, if_neg hj, hother j hj]
  case isFalse =>
    have hmod := modThr_moved (m := m1) (i := k) (f := fun t => { t.settled with sender := snd }) (fun _ => rfl)
      (fun t => (settled_placed t).trans (placed_of rfl (.inl rfl))) hi1
    have hthr := thr_modThr (m := m1) (i := k) (f := fun t => { t.settled with sender := snd }) (fun _ => rfl) hi1
    have hq2 : (m1.modThr k fun t => { t.settled with sender := snd }).quarters = m1.quarters := rfl
    generalize m1.modThr k (fun t => { t.settled with sender := snd }) = m2 at hmod hthr hq2
    obtain ⟨hfile, hpc, hhdr, hq3, hother3⟩ := fileAt_moved (pc := pc) reform (by rw [hmod.there]; exact hi1)
      (hmod.ending (hdet.ending hends))
    refine ⟨(hdet.trans hmod).trans hfile, hpc, hhdr, hq3.trans (hq2.trans hqs), fun j hj => ?_⟩
    rw [hother3 j hj, hthr, if_neg hj, hother j hj]

/-- Threads that leave one after another, each for its own address; the quarter keeps the others. -/
theorem sendAways_spec (tgt : Nat → Pc) (snd : Nat → Pc → Option Sender) (qid : Nat) (ids : List Nat) : ∀ {m : Mach} {q : Quarter}, ids.Nodup →
    m.quarter? qid = some q → (∃ p ∈ q.active, p.2 ∉ ids) →
    (∀ k ∈ ids, (m.thr? k).isSome ∧ (m.launch (m.thr k).launch).ending = none) →
    Moved m (ids.foldl (fun m k => m.sendAway k (tgt k) (snd k (tgt k))) m) ∧
      (∀ k ∈ ids, ((ids.foldl (fun m k => m.sendAway k (tgt k) (snd k (tgt k))) m).thr k).pc = tgt k ∧
        ((ids.foldl (fun m k => m.sendAway k (tgt k) (snd k (tgt k))) m).thr k).hdr = none) ∧
      (∀ j, j ∉ ids → (ids.foldl (fun m k => m.sendAway k (tgt k) (snd k (tgt k))) m).thr j = m.thr j) ∧
      ∃ q', (ids.foldl (fun m k => m.sendAway k (tgt k) (snd k (tgt k))) m).quarter? qid = some q' ∧ Rest q q' ids := by
  induction ids with
  | nil => exact fun {m q} _ hq _ _ => ⟨.refl m, fun _ h => absurd h List.not_mem_nil, fun _ _ => rfl, q, hq, .refl q⟩
  | cons a ids ih =>
    intro m q hnd hq hstay hids
    rw [List.nodup_cons] at hnd
    obtain ⟨ha, hnd⟩ := hnd
    obtain ⟨hi, hends⟩ := hids a List.mem_cons_self
    obtain ⟨hone, hpc, hhdr, hqs, hother⟩ := sendAway_spec (tgt a) (snd a (tgt a)) false hi hends
    obtain ⟨p, hp, hpn⟩ := hstay
    rw [List.mem_cons, not_or] at hpn
    have hq1 : (m.sendAway a (tgt a) (snd a (tgt a))).quarter? qid = some (q.without a) := by
      unfold Mach.quarter?
      rw [hqs]
      exact quarter?_detach hq ⟨p, hp, hpn.1⟩
    obtain ⟨hrest, hpcs, hothers, q', hq', hkept⟩ := ih (m := m.sendAway a (tgt a) (snd a (tgt a))) hnd hq1
      ⟨p, active_without.2 ⟨hp, hpn.1⟩, hpn.2⟩ fun k hk => by
        obtain ⟨hik, hek⟩ := hids k (List.mem_cons_of_mem _ hk)
        exact ⟨by rw [hone.there]; exact hik, hone.ending hek⟩
    rw [List.foldl_cons]
    refine ⟨hone.trans hrest, fun k hk => ?_, fun j hj => ?_, q', hq', (without_rest q a).cons hkept⟩
    · by_cases hkin : k ∈ ids
      · exact hpcs k hkin
      · have hka : k = a := (List.mem_cons.1 hk).resolve_right hkin
        rw [hothers k hkin, hka]
        exact ⟨hpc, hhdr⟩
    · rw [List.mem_cons, not_or] at hj
      rw [hothers j hj.2, hother j hj.1]

theorem sweep_lasting {m : Mach} {l : Nat} (ids : List Nat) (h : (m.launch l).ending = none) : m.sweep ids l = m := by
  unfold Mach.sweep
  rw [h, if_neg (by simp)]

/-- The quarter goes to a clause boundary, with all of its threads. -/
theorem jump_spec {m : Mach} {qid : Nat} {q : Quarter} (pc : Pc) (snd : Nat → Option Sender) (hq : m.quarter? qid = some q)
    (hends : (m.launch q.launch).ending = none) : Moved m (m.jump qid pc snd) ∧
      (∀ j, j ∉ q.tids → (m.jump qid pc snd).thr j = m.thr j) ∧
      ∃ q', (m.jump qid pc snd).quarter? qid = some q' ∧ q'.pc = pc ∧ q'.hdr = none ∧ q'.core = q.core ∧ q'.slots = q.slots := by
  have hmod := modAll_moved (m.take 1) q.tids (f := fun t => { t.uncarried.settled.boundary with sender := snd t.id })
    uncarried_id fun t => (((uncarried_placed t).trans (settled_placed _)).trans (boundary_placed _)).trans (placed_of rfl (.inl rfl))
  have hother : ∀ j, j ∉ q.tids → ((m.take 1).modAll q.tids fun t => { t.uncarried.settled.boundary with sender := snd t.id }).thr j = m.thr j := by
    intro j hj
    rw [thr_modAll (m.take 1) q.tids (f := fun t => { t.uncarried.settled.boundary with sender := snd t.id }) uncarried_id, if_neg fun h => hj h.1]
    rfl
  have hqs : ((m.take 1).modAll q.tids fun t => { t.uncarried.settled.boundary with sender := snd t.id }).quarter? qid = some q := hq
  have hl : (((m.take 1).modAll q.tids fun t => { t.uncarried.settled.boundary with sender := snd t.id }).launch q.launch).ending = none := hends
  have hid : q.id = qid := quarter?_id hq
  unfold Mach.jump
  rw [hq]
  dsimp only
  generalize (m.take 1).modAll q.tids (fun t => { t.uncarried.settled.boundary with sender := snd t.id }) = m1 at hmod hother hqs hl
  generalize hu : ({ q.issued m.cycle m.next with pc := pc, hdr := none, looks := [] } : Quarter) = u
  have huid : u.id = qid := by rw [← hu]; exact hid
  have hset : (m1.setQ u).quarter? qid = some u := by
    rw [quarter?_setQ, if_pos huid, hqs]
    rfl
  rw [sweep_lasting q.tids (show ((m1.setQ u).launch q.launch).ending = none from hl)]
  have htake : Moved m (m.take 1) := ⟨rfl, fun _ => rfl, fun _ => .refl _, fun _ => rfl⟩
  refine ⟨(htake.trans hmod).trans (quarters_moved m1 _), hother, u, hset, ?_, ?_, ?_, ?_⟩ <;> rw [← hu] <;> rfl

/-- The entry of a key in a table that a function gives. -/
theorem look_map {α : Type} (d : α) (v : Nat → α) {l : List Nat} {k : Nat} (hk : k ∈ l) : look d (l.map fun k => (k, v k)) k = v k := by
  unfold look
  induction l with
  | nil => exact absurd hk List.not_mem_nil
  | cons a l ih =>
    rw [List.map_cons, List.find?_cons]
    by_cases ha : a = k
    · rw [show (a == k) = true from beq_iff_eq.2 ha]
      exact congrArg v ha
    · rw [show (a == k) = false from beq_eq_false_iff_ne.2 ha]
      exact ih ((List.mem_cons.1 hk).resolve_left (Ne.symm ha))

theorem ungang_moved (m : Mach) (q : Quarter) : Moved m (m.ungang q) := by
  rw [ungang_frame]
  exact quarters_moved m _

theorem ungang_quarter? {m : Mach} {q : Quarter} (hq : m.quarter? q.id = some q) :
    ∃ q', (m.ungang q).quarter? q.id = some q' ∧ Rest q q' [] := by
  unfold Mach.ungang
  split
  case h_1 => exact ⟨q, hq, .refl q⟩
  case h_2 g _ =>
    have hmap := find?_map_key Quarter.id m.quarters (fun u => if u.gang = some g then { u with gang := none } else u)
      (by intro u; split <;> rfl) q.id
    refine ⟨_, hmap.trans (congrArg (Option.map _) hq), ?_⟩
    dsimp only
    split <;> exact ⟨rfl, rfl, rfl, fun p => by simp [Quarter.active]⟩

/-- THE THREADS OF A QUARTER GO TO THEIR TARGETS, and those that go to the lead's stay. -/
theorem disperse_spec {m : Mach} {q : Quarter} {ids : List Nat} (tgt : Nat → Pc) (lead : Pc) (snd : Nat → Pc → Option Sender)
    (hq : m.quarter? q.id = some q) (hids : ids.Perm q.tids) (hnd : q.tids.Nodup) (hthr : ∀ k ∈ q.tids, (m.thr? k).isSome)
    (hends : (m.launch q.launch).ending = none) (hlast : ∀ k ∈ q.tids, (m.launch (m.thr k).launch).ending = none)
    (hstay : ∃ p ∈ q.active, tgt p.2 = lead) :
    Moved m (m.disperse q (ids.map fun k => (k, tgt k)) lead snd) ∧
      (∃ q', (m.disperse q (ids.map fun k => (k, tgt k)) lead snd).quarter? q.id = some q' ∧ q'.pc = lead ∧ q'.hdr = none ∧ q'.core = q.core ∧
        ∀ p, p ∈ q'.active ↔ p ∈ q.active ∧ tgt p.2 = lead) ∧
      ∀ p ∈ q.active, tgt p.2 ≠ lead → ((m.disperse q (ids.map fun k => (k, tgt k)) lead snd).thr p.2).pc = tgt p.2 ∧
        ((m.disperse q (ids.map fun k => (k, tgt k)) lead snd).thr p.2).hdr = none := by
  generalize haway : (ids.map fun k => (k, tgt k)).filter (fun p => p.2 != lead) = away
  have hkeys : away = (ids.filter fun k => tgt k != lead).map fun k => (k, tgt k) := by
    rw [← haway, List.filter_map]
    rfl
  have hfst : away.map (fun p => p.1) = ids.filter fun k => tgt k != lead := by
    rw [hkeys, List.map_map]
    exact List.map_id _
  obtain ⟨m1, hm1, hgang, q1, hq1, hrest1⟩ : ∃ m1, (if away = [] then m else m.ungang q) = m1 ∧ Moved m m1 ∧
      ∃ q1, m1.quarter? q.id = some q1 ∧ Rest q q1 [] := by
    refine ⟨_, rfl, ?_⟩
    split
    · exact ⟨.refl m, q, hq, .refl q⟩
    · exact ⟨ungang_moved m q, ungang_quarter? hq⟩
  generalize hbs : m1.inOrder (away.map fun p => p.1) = bs
  have hmem : ∀ k, k ∈ bs ↔ k ∈ q.tids ∧ tgt k ≠ lead := fun k => by
    rw [← hbs, (perm_inOrder m1 _).mem_iff, hfst, List.mem_filter, hids.mem_iff]
    simp
  have hbnd : bs.Nodup := by
    rw [← hbs, (perm_inOrder m1 _).nodup_iff, hfst]
    exact (hids.nodup_iff.2 hnd).filter _
  have hlook : ∀ k ∈ bs, look 0 away k = tgt k := fun k hk => by
    rw [hkeys]
    obtain ⟨hk1, hk2⟩ := (hmem k).1 hk
    exact look_map 0 tgt (List.mem_filter.2 ⟨hids.mem_iff.2 hk1, by simpa using hk2⟩)
  obtain ⟨p, hp, hpl⟩ := hstay
  obtain ⟨hsent, hpcs, -, q2, hq2, hrest2⟩ := sendAways_spec tgt snd q.id bs hbnd hq1
    ⟨p, (hrest1.active p).2 ⟨hp, List.not_mem_nil⟩, fun h => ((hmem p.2).1 h).2 hpl⟩ fun k hk => by
      obtain ⟨hk1, -⟩ := (hmem k).1 hk
      exact ⟨by rw [hgang.there]; exact hthr k hk1, hgang.ending (hlast k hk1)⟩
  have hfold : m.disperse q (ids.map fun k => (k, tgt k)) lead snd =
      (bs.foldl (fun m k => m.sendAway k (tgt k) (snd k (tgt k))) m1).jump q.id lead fun id => snd id lead := by
    unfold Mach.disperse
    dsimp only
    rw [haway, hm1, hbs]
    refine congrArg (fun m : Mach => m.jump q.id lead fun id => snd id lead) ?_
    exact List.foldl_ext _ _ _ fun m k hk => by rw [hlook k hk]
  rw [hfold]
  generalize bs.foldl (fun m k => m.sendAway k (tgt k) (snd k (tgt k))) m1 = m2 at hsent hpcs hq2
  have hlaunch2 : (m2.launch q2.launch).ending = none := by
    rw [hsent.launches, hgang.launches, hrest2.launch, hrest1.launch]
    exact hends
  obtain ⟨hjump, hother, q3, hq3, hpc3, hhdr3, hcore3, hslots3⟩ := jump_spec lead (fun id => snd id lead) hq2 hlaunch2
  have hactive : ∀ p, p ∈ q3.active ↔ p ∈ q.active ∧ tgt p.2 = lead := fun p => by
    rw [show q3.active = q2.active by unfold Quarter.active; rw [hslots3], hrest2.active, hrest1.active, hmem]
    constructor
    · rintro ⟨⟨hp, -⟩, hn⟩
      exact ⟨hp, by by_contra hne; exact hn ⟨mem_tids hp, hne⟩⟩
    · rintro ⟨hp, hl⟩
      exact ⟨⟨hp, List.not_mem_nil⟩, fun h => h.2 hl⟩
  refine ⟨(hgang.trans hsent).trans hjump, ⟨q3, hq3, hpc3, hhdr3, hcore3.trans (hrest2.core.trans hrest1.core), hactive⟩,
    fun p hp hne => ?_⟩
  have hgone : p.2 ∉ q2.tids := fun h => by
    obtain ⟨p', hp', he⟩ := mem_tids_active.1 h
    exact ((hrest2.active p').1 hp').2 ((hmem p'.2).2 (by rw [he]; exact ⟨mem_tids hp, hne⟩))
  rw [hother p.2 hgone]
  exact hpcs p.2 ((hmem p.2).2 ⟨mem_tids hp, hne⟩)

/-! ### What the statements say -/

/-- The threads of a quarter are changed by `g`, and nothing else but notes of what issued. -/
structure Begun (m m' : Mach) (ids : List Nat) (g : Thread → Thread) : Prop where
  frame : m' = { m with
    threads := m'.threads, quarters := m'.quarters, filing := m'.filing, cores := m'.cores, free := m'.free, next := m'.next }
  thr : ∀ k, m'.thr k = if k ∈ ids then g (m.thr k) else m.thr k
  core : ∀ k, m'.coreSt k = { m.coreSt k with busy := (m'.coreSt k).busy }

theorem onlyPlaces_of {s : State} {m1 m' : Mach} {q : Quarter} {g : Thread → Thread} (h : Begun s.mach m1 q.tids g) (h' : Moved m1 m') :
    OnlyPlaces s (s.withMach m').settle q g := by
  have hframe : m' = { s.mach with
      threads := m'.threads, quarters := m'.quarters, filing := m'.filing, cores := m'.cores, free := m'.free, next := m'.next } := by
    rw [h'.frame, h.frame]
  have hmem : m'.mem = s.mach.mem := by rw [hframe]
  refine ⟨fun a => congrArg (fun mem : Memory => mem.read a) hmem, fun k hk => ?_, fun k hk => ?_, ?_, fun k => ?_, rfl, settle_sys_eq _⟩
  · have hthr := h.thr k
    rw [if_pos hk] at hthr
    exact hthr ▸ (h'.thr k).1
  · have hthr := h.thr k
    rw [if_neg hk] at hthr
    exact hthr ▸ (h'.thr k).1
  · rw [settle_mach]
    show ({ m' with fired := [], cxlErrs := [] } : Mach) = _
    rw [hframe]
    rfl
  · show m'.coreSt k = { s.mach.coreSt k with busy := (m'.coreSt k).busy }
    rw [h'.core, h.core]

theorem Begun.refl (m : Mach) (ids : List Nat) : Begun m m ids id := ⟨rfl, fun _ => by split <;> rfl, fun _ => rfl⟩

theorem used_moved (m : Mach) : Moved m m.used := ⟨rfl, fun _ => rfl, fun _ => .refl _, fun _ => rfl⟩

theorem mem_of_tids_ne {q : Quarter} (h : q.tids ≠ []) : q.active.headD (0, 0) ∈ q.active := by
  have hne : q.active ≠ [] := fun e => h (by unfold Quarter.tids; rw [e]; rfl)
  cases hq : q.active with
  | nil => exact absurd hq hne
  | cons p l => exact List.mem_cons_self

theorem lowest_eq {q : Quarter} (h : q.tids ≠ []) : q.lowest = (q.active.headD (0, 0)).2 := by
  unfold Quarter.lowest
  cases q.active <;> rfl

/-- A branch, from the targets and the lead that it has. -/
theorem branch_branches {i : Instr} {ok : State → Quarter → Prop} {tgt : State → Quarter → Nat × Nat → Pc} {lead : State → Quarter → Pc}
    (h : ∀ s q, Running s q → q.tids ≠ [] → ok s q → ∃ (want : Nat → Pc) (fall : Bool),
      exec i s = .next (s.withMach (s.mach.branch q want (lead s q) fall)).settle ∧ (∀ p ∈ q.active, want p.2 = tgt s q p) ∧
        ∃ p ∈ q.active, tgt s q p = lead s q) : Branches i ok id tgt lead := by
  intro s q hr hne hlast hok
  obtain ⟨want, fall, hexec, hwant, p, hp, hpl⟩ := h s q hr hne hok
  obtain ⟨hq, hnd, hthr, hends⟩ := hr
  have hid : q.id = s.mach.cur := quarter?_id hq
  obtain ⟨hmoved, ⟨q', hq', hpc, hhdr, hcore, hactive⟩, hpcs⟩ := disperse_spec (m := s.mach.used) (q := q) (ids := q.tids) want (lead s q)
    (fun id pc => s.mach.sentFrom q id pc fall) (by rw [hid]; exact hq) (List.Perm.refl _) hnd hthr hends hlast
    ⟨p, hp, (hwant p hp).trans hpl⟩
  have hbranch : s.mach.branch q want (lead s q) fall = s.mach.used.disperse q (q.tids.map fun k => (k, want k)) (lead s q)
      fun id pc => s.mach.sentFrom q id pc fall := rfl
  rw [hbranch] at hexec
  generalize s.mach.used.disperse q (q.tids.map fun k => (k, want k)) (lead s q) (fun id pc => s.mach.sentFrom q id pc fall) = m' at *
  refine ⟨_, hexec, onlyPlaces_of (.refl s.mach q.tids) ((used_moved s.mach).trans hmoved),
    ⟨q', hq', hpc, hhdr, hcore, fun p hp hl => (hactive p).2 ⟨hp, (hwant p hp).trans hl⟩⟩, fun p hp hne => ?_⟩
  rw [← hwant p hp] at hne ⊢
  exact hpcs p hp hne

theorem exec_withQ {s : State} {q : Quarter} (f : Quarter → Mach) (hr : Running s q) :
    Host.Outcome.next ({ s with mach := s.mach.withQ f } : State).settle =
      (.next (s.withMach (f q)).settle : Host.Outcome State Fault Refusal) := by
  refine congrArg (fun m => Host.Outcome.next ({ s with mach := m } : State).settle) ?_
  unfold Mach.withQ
  rw [hr.1]

theorem bra_branches (h : Hdr) (off : BitVec 33) : Branches (.bra h off) always id (fun _ q _ => target q.pc off) fun _ q => target q.pc off :=
  branch_branches fun s q hr hne _ => ⟨fun _ => target q.pc off, false, exec_withQ _ hr, fun _ _ => rfl, _, mem_of_tids_ne hne, rfl⟩

/-- A conditional branch. -/
theorem cond_branches {i : Instr} (r : Spec) (off : BitVec 33) (takes : Word → Bool) (hexec : ∀ s, exec i s =
    .next ({ s with mach := s.mach.condBranch r off takes } : State).settle) :
    let word (s : State) (p : Nat × Nat) : Word := (s.mach.thr p.2).rd (s.mach.fr p.1) r
    Branches i always id (fun s q p => if takes (word s p) = true then target q.pc off else q.pc + 8)
      fun s q => if ((s.mach.thr (q.active.headD (0, 0)).2).isHandler = true ∧ takes (word s (q.active.headD (0, 0))) = true) ∨
        ∀ p ∈ q.active, takes (word s p) = true then target q.pc off else q.pc + 8 := by
  intro word
  refine branch_branches fun s q hr hne _ => ?_
  have hnd := hr.2.1
  generalize hgo : (q.active.map fun p => (p.2, takes (word s p))) = go
  have hlook : ∀ p ∈ q.active, look false go p.2 = takes (word s p) := fun p hp => by
    rw [← hgo]
    exact look_active false (fun p => takes (word s p)) hnd hp
  have hfirst := mem_of_tids_ne hne
  have hlow := lowest_eq hne
  generalize q.active.headD (0, 0) = p0 at hfirst hlow
  generalize hlead : (if ((s.mach.thr p0.2).isHandler = true ∧ takes (word s p0) = true) ∨ ∀ p ∈ q.active, takes (word s p) = true
    then target q.pc off else q.pc + 8) = lead
  have hmodel : (if (s.mach.thr q.lowest).isHandler then (if look false go q.lowest then target q.pc off else q.pc + 8)
      else if go.any (fun p => !p.2) then q.pc + 8 else target q.pc off) = lead := by
    rw [← hlead, hlow, hlook p0 hfirst]
    have hany : go.any (fun p => !p.2) = true ↔ ¬∀ p ∈ q.active, takes (word s p) = true := by
      rw [← hgo, List.any_map, List.any_eq_true]
      simp
    cases hh : (s.mach.thr p0.2).isHandler with
    | true =>
      rw [if_pos rfl]
      by_cases ht : takes (word s p0) = true
      · rw [if_pos ht, if_pos (.inl ⟨rfl, ht⟩)]
      · rw [if_neg ht, if_neg]
        rintro (⟨-, h⟩ | h)
        · exact ht h
        · exact ht (h p0 hfirst)
    | false =>
      rw [if_neg Bool.false_ne_true]
      by_cases hall : ∀ p ∈ q.active, takes (word s p) = true
      · rw [if_neg (mt hany.1 (not_not_intro hall)), if_pos (.inr hall)]
      · rw [if_pos (hany.2 hall), if_neg]
        rintro (⟨h, -⟩ | h)
        · exact Bool.false_ne_true h
        · exact hall h
  refine ⟨fun id => if look false go id then target q.pc off else q.pc + 8, true, ?_, fun p hp => ?_, ?_⟩
  · refine (hexec s).trans ((exec_withQ _ hr).trans ?_)
    dsimp only
    rw [show (q.active.map fun p => (p.2, takes ((s.mach.thr p.2).rd (s.mach.fr p.1) r))) = go from hgo, hmodel]
  · dsimp only
    rw [hlook p hp]
  · by_cases hall : ∀ p ∈ q.active, takes (word s p) = true
    · refine ⟨p0, hfirst, ?_⟩
      rw [← hlead, if_pos (hall p0 hfirst), if_pos (.inr hall)]
    · by_cases hh : (s.mach.thr p0.2).isHandler = true ∧ takes (word s p0) = true
      · exact ⟨p0, hfirst, by rw [← hlead, if_pos hh.2, if_pos (.inl hh)]⟩
      · obtain ⟨p, hall⟩ := not_forall.1 hall
        obtain ⟨hp, ht⟩ := Classical.not_imp.1 hall
        refine ⟨p, hp, ?_⟩
        rw [← hlead, if_neg ht, if_neg]
        rintro (h | h)
        · exact hh h
        · exact ht (h p hp)

theorem brx_branches (h : Hdr) (r : Spec) : Branches (.brx h r)
    (fun s q => ∀ p ∈ q.active, ((s.mach.thr p.2).rdPair (s.mach.fr p.1) r).toNat < 2 ^ 57) id
    (fun s _ p => ((s.mach.thr p.2).rdPair (s.mach.fr p.1) r).setWidth 57)
    fun s q => ((s.mach.thr (q.active.headD (0, 0)).2).rdPair (s.mach.fr (q.active.headD (0, 0)).1) r).setWidth 57 := by
  refine branch_branches fun s q hr hne hok => ?_
  have hnd := hr.2.1
  have hid : q.id = s.mach.cur := quarter?_id hr.1
  have hlook : ∀ p ∈ q.active, look 0 (s.mach.pairOps q r) p.2 = (s.mach.thr p.2).rdPair (s.mach.fr p.1) r := fun p hp =>
    look_active 0 (fun p => (s.mach.thr p.2).rdPair (s.mach.fr p.1) r) hnd hp
  have hbad : ((s.mach.pairOps q r).filter fun p => badPc p.2).map (fun p => p.1) = [] := by
    rw [List.filter_eq_nil_iff.2 fun x hx => ?_]
    · rfl
    · obtain ⟨p, hp, rfl⟩ := List.mem_map.1 hx
      have := hok p hp
      unfold badPc
      simpa using this
  have hfirst := mem_of_tids_ne hne
  refine ⟨fun id => toPc (look 0 (s.mach.pairOps q r) id), false, (exec_withQ _ hr).trans ?_, fun p hp => ?_, _, hfirst, rfl⟩
  · refine congrArg (fun m => Host.Outcome.next ({ s with mach := m } : State).settle) ?_
    dsimp only
    rw [hbad, if_pos rfl, hid, hr.1]
    dsimp only
    rw [lowest_eq hne, hlook _ hfirst]
    rfl
  · dsimp only
    rw [hlook p hp]
    rfl

/-- Settles O22, instruction by instruction. -/
theorem branchesComplete : Obligations.BranchesComplete := by
  unfold Obligations.BranchesComplete
  intro h off r
  have hzero := cond_branches (i := .brz h r off) r off (fun w => w == 0) fun _ => rfl
  have hnonzero := cond_branches (i := .brnz h r off) r off (fun w => w != 0) fun _ => rfl
  simp only [beq_iff_eq] at hzero
  simp only [bne_iff_ne] at hnonzero
  exact ⟨bra_branches h off, hzero, hnonzero, brx_branches h r⟩

end Sys2Proof.Machine
end

section
/-! SUPPORT. Calls and returns between functions of one width (spec/12 R301, R302, R304, R305). -/

namespace Sys2Proof.Machine

/-! ### Threads that are changed one after another -/

/-- Some threads are changed by `g`, and nothing else. -/
structure Changed (m m' : Mach) (ids : List Nat) (g : Thread → Thread) : Prop where
  frame : m' = { m with threads := m'.threads }
  there : ∀ k, (m'.thr? k).isSome = (m.thr? k).isSome
  thr : ∀ k, m'.thr k = if k ∈ ids then g (m.thr k) else m.thr k

theorem Changed.nil (m : Mach) (g : Thread → Thread) : Changed m m [] g := ⟨rfl, fun _ => rfl, fun _ => (if_neg List.not_mem_nil).symm⟩

theorem Changed.cons {a b c : Mach} {k : Nat} {ids : List Nat} {g : Thread → Thread} (h : Changed a b [k] g) (h' : Changed b c ids g)
    (hk : k ∉ ids) : Changed a c (k :: ids) g where
  frame := by rw [h'.frame, h.frame]
  there j := (h'.there j).trans (h.there j)
  thr j := by
    rw [h'.thr, h.thr]
    by_cases hj : j = k
    · rw [hj, if_neg hk, if_pos (List.mem_singleton.2 rfl), if_pos List.mem_cons_self]
    · rw [if_neg (mt List.mem_singleton.1 hj)]
      by_cases hi : j ∈ ids
      · rw [if_pos hi, if_pos (List.mem_cons_of_mem _ hi)]
      · rw [if_neg hi, if_neg fun h => hi ((List.mem_cons.1 h).resolve_left hj)]

theorem Changed.other {m m' : Mach} {k j : Nat} {g : Thread → Thread} (h : Changed m m' [k] g) (hj : j ≠ k) : m'.thr j = m.thr j := by
  rw [h.thr, if_neg (mt List.mem_singleton.1 hj)]

theorem modThr_changed {m : Mach} {k : Nat} {g : Thread → Thread} (hid : ∀ t, (g t).id = t.id) (hk : (m.thr? k).isSome) :
    Changed m (m.modThr k g) [k] g := by
  refine ⟨rfl, isSome_modThr hid hk, fun j => ?_⟩
  rw [thr_modThr hid hk]
  exact if_congr (List.mem_singleton).symm rfl rfl

theorem Changed.begun {m m' : Mach} {ids ids' : List Nat} {g : Thread → Thread} (h : Changed m m' ids g) (hids : ∀ k, k ∈ ids ↔ k ∈ ids') :
    Begun m m' ids' g := by
  refine ⟨?_, fun k => ?_, fun k => ?_⟩
  · rw [h.frame]
  · rw [h.thr]
    exact if_congr (hids k) rfl rfl
  · rw [h.frame]
    rfl

/-- Threads that are changed in turn. -/
theorem changeAll {step : Mach → Nat → Mach} {g : Thread → Thread} {P : Thread → Prop}
    (hstep : ∀ m k, (m.thr? k).isSome → P (m.thr k) → Changed m (step m k) [k] g) (ids : List Nat) : ∀ {m : Mach}, ids.Nodup →
    (∀ k ∈ ids, (m.thr? k).isSome ∧ P (m.thr k)) → Changed m (ids.foldl step m) ids g := by
  induction ids with
  | nil => exact fun _ _ => .nil _ g
  | cons a ids ih =>
    intro m hnd h
    rw [List.nodup_cons] at hnd
    obtain ⟨ha, hnd⟩ := hnd
    obtain ⟨hi, hp⟩ := h a List.mem_cons_self
    have hone := hstep m a hi hp
    refine hone.cons (ih hnd fun k hk => ?_) ha
    obtain ⟨hik, hpk⟩ := h k (List.mem_cons_of_mem _ hk)
    rw [hone.there, hone.other fun e => ha (e ▸ hk)]
    exact ⟨hik, hpk⟩

/-! ### Calls -/

/-- A caller with its return address pushed. -/
def Thread.called (q : Quarter) (T : Thread) : Thread :=
  { T with rets := { retva := q.pc + 8, kind := 0 } :: T.rets, sameDepth := T.sameDepth + 1 }

theorem tlsPieces_none (y : Sys) (m : Mach) (t : Thread) (va : Nat) : tlsPieces y m t va 0 = [] := rfl

/-- A caller whose stack has room on chip needs no memory. -/
theorem callNeed_zero {m : Mach} {f : FnHdr} {t : Thread} (hkind : f.kind = 0) (h : t.rets.length < 8) : m.callNeed f t = 0 := by
  unfold Mach.callNeed Thread.pushNeed
  rw [if_neg (by rw [hkind]; decide), if_neg (Nat.not_le.2 h)]

theorem callTls_ok {y : Sys} {m : Mach} {f : FnHdr} {t : Thread} (hkind : f.kind = 0) (h : t.rets.length < 8) : callTls y m f t = .ok := by
  unfold callTls
  rw [callNeed_zero hkind h]
  rfl

/-- One caller of a call through a header of the same width. -/
theorem call_changes {y : Sys} {m : Mach} {q : Quarter} {k : Nat} (hk : (m.thr? k).isSome) (h : (m.thr k).rets.length < 8) :
    Changed m ((pushRet y m k { retva := q.pc + 8, kind := 0 }).modThr k fun t => { t with sameDepth := t.sameDepth + 1 }) [k]
      (Thread.called q) := by
  have hpush : pushRet y m k { retva := q.pc + 8, kind := 0 } =
      m.modThr k fun t => { t with rets := { retva := q.pc + 8, kind := 0 } :: t.rets } := if_neg (Nat.not_le.2 h)
  rw [hpush]
  have hone := modThr_changed (g := fun t => { t with rets := { retva := q.pc + 8, kind := 0 } :: t.rets }) (fun _ => rfl) hk
  have htwo := modThr_changed (g := fun t => { t with sameDepth := t.sameDepth + 1 }) (fun _ => rfl) (by rw [hone.there]; exact hk)
  refine ⟨?_, fun j => (htwo.there j).trans (hone.there j), fun j => ?_⟩
  · rw [htwo.frame, hone.frame]
  · rw [htwo.thr, hone.thr]
    split <;> rfl

/-- The callers of a quarter call, and it stands at the entry. -/
theorem callEach_spec {y : Sys} {m : Mach} {q : Quarter} (h : Hdr) {f : FnHdr} (entry : Pc) (hkind : f.kind = 0)
    (hq : m.quarter? q.id = some q) (hnd : q.tids.Nodup) (hthr : ∀ k ∈ q.tids, (m.thr? k).isSome ∧ (m.thr k).rets.length < 8)
    (hends : (m.launch q.launch).ending = none) : ∃ m1, Begun m m1 q.tids (Thread.called q) ∧ Moved m1 (callEach y m q h f entry) ∧
      ∃ q', (callEach y m q h f entry).quarter? q.id = some q' ∧ q'.pc = entry ∧ q'.hdr = none ∧ q'.slots = q.slots := by
  have hperm := perm_inOrder m q.tids
  have hall := changeAll (g := Thread.called q) (P := fun T => T.rets.length < 8)
    (step := fun m id => match callTls y m f (m.thr id) with
      | .ok =>
        if f.kind = 0 then
          (pushRet y m id { retva := q.pc + 8, kind := 0 }).modThr id fun t => { t with sameDepth := t.sameDepth + 1 }
        else if f.kind = 1 then widenCaller y m q f entry id
        else gatherCaller y m q f entry id
      | r => m.tlsFail q id h.flag.toNat r)
    (fun m k hk hroom => by
      rw [callTls_ok hkind hroom]
      dsimp only
      rw [if_pos hkind]
      exact call_changes hk hroom) (m.inOrder q.tids) (hperm.nodup_iff.2 hnd) fun k hk => hthr k (hperm.mem_iff.1 hk)
  have heach : callEach y m q h f entry = ((m.inOrder q.tids).foldl (fun m id => match callTls y m f (m.thr id) with
      | .ok =>
        if f.kind = 0 then
          (pushRet y m id { retva := q.pc + 8, kind := 0 }).modThr id fun t => { t with sameDepth := t.sameDepth + 1 }
        else if f.kind = 1 then widenCaller y m q f entry id
        else gatherCaller y m q f entry id
      | r => m.tlsFail q id h.flag.toNat r) m).jump q.id entry fun _ => none := by
    unfold callEach
    rw [if_pos hkind] <;> rfl
  rw [heach]
  generalize (m.inOrder q.tids).foldl _ m = m1 at hall
  obtain ⟨hjump, -, q', hq', hpc, hhdr, -, hslots⟩ := jump_spec (m := m1) (qid := q.id) (q := q) entry (fun _ => none)
    (by rw [hall.frame]; exact hq) (by rw [hall.frame]; exact hends)
  exact ⟨m1, hall.begun fun k => hperm.mem_iff, hjump, q', hq', hpc, hhdr, hslots⟩

/-- The header of a function of the same width. -/
structure SameWidth (f : FnHdr) : Prop where
  magic : f.magic = 0xFC
  kind : f.kind = 0
  factor : f.factor = 0
  grant : f.grant = 0
  low : f.low = 0
  red : f.red = 0
  least : 16 ≤ f.frame
  most : f.frame ≤ 256

theorem foldl_min_le (n : Nat) (l : List Nat) : ∀ a, n ≤ a → (∀ b ∈ l, n ≤ b) → n ≤ l.foldl Nat.min a := by
  induction l with
  | nil => exact fun _ h _ => h
  | cons b l ih =>
    intro a ha hl
    exact ih _ (Nat.le_min.2 ⟨ha, hl b List.mem_cons_self⟩) fun c hc => hl c (List.mem_cons_of_mem _ hc)

theorem SameWidth.passes {f : FnHdr} (h : SameWidth f) (ver : Nat) {rgs : List Nat} (depths : List Nat) (hrgs : ∀ r ∈ rgs, f.frame ≤ r) :
    f.check ver true rgs depths = none := by
  have hmin := foldl_min_le f.frame rgs 256 h.most hrgs
  have hleast := h.least
  have hmost := h.most
  unfold FnHdr.check
  simp only [h.kind, h.factor, h.grant, h.low, h.red, h.magic]
  simp only [bne_self_eq_false, beq_self_eq_true, Bool.and_false, Nat.reduceBEq, Nat.reduceEqDiff, ne_eq,
    not_true_eq_false, false_and, and_false, if_false, true_and, gt_iff_lt, decide_false, Bool.not_true, Bool.or_self, Bool.false_eq_true]
  rw [if_neg (by omega), if_neg (by omega)]

/-- Callers that may call: no handlers, and quiet, with room on the chip for a return address. -/
def Callers (s : State) (q : Quarter) : Prop :=
  ∀ k ∈ q.tids, (s.mach.thr k).isHandler = false ∧ s.mach.quiet (s.mach.thr k) = true ∧ (s.mach.thr k).rets.length < 8

theorem toNat_wide (pc : Pc) : (pc.setWidth 64).toNat = pc.toNat := by
  rw [BitVec.toNat_setWidth]
  have := pc.isLt
  omega

theorem badPc_wide (pc : Pc) : badPc (pc.setWidth 64) = false := by
  unfold badPc
  rw [toNat_wide]
  have := pc.isLt
  exact decide_eq_false (Nat.not_le.2 this)

theorem toPc_wide (pc : Pc) : toPc (pc.setWidth 64) = pc := by
  unfold toPc
  exact BitVec.setWidth_setWidth_of_le pc (by decide)

theorem callAt_calls {s : State} {q : Quarter} (h : Hdr) {entry : Pc} {f : FnHdr} (hcallers : Callers s q) (hwords : CallWords s q entry f)
    (hf : SameWidth f) (hframe : ∀ k ∈ q.tids, f.frame ≤ (s.mach.thr k).rgv) :
    callAt s.sys s.mach q h (entry.setWidth 64) = callEach s.sys s.mach q h f entry := by
  obtain ⟨w1, w2, w3, x1, x2, x3, hafter, hheader, hbefore, hfn, hentry, hheader3⟩ := hwords
  have hplain : (q.tids.any fun t => (s.mach.thr t).isHandler) = false := List.any_eq_false.2 fun k hk => by simp [(hcallers k hk).1]
  have hquiet : (q.tids.any fun t => !s.mach.quiet (s.mach.thr t)) = false := List.any_eq_false.2 fun k hk => by simp [(hcallers k hk).2.1]
  have hnat := toNat_wide entry
  have hgood := badPc_wide entry
  have hto := toPc_wide entry
  have hcheck := hf.passes (s.mach.launch q.launch).ver (rgs := q.tids.map fun t => (s.mach.thr t).rgv)
    (q.tids.map fun t => (s.mach.thr t).widthDepth) fun r hr => by
      obtain ⟨k, hk, rfl⟩ := List.mem_map.1 hr
      exact hframe k hk
  have htls : ∀ k ∈ q.tids, callTls s.sys s.mach f (s.mach.thr k) = .ok := fun k hk => callTls_ok hf.kind (hcallers k hk).2.2
  have hparks : (q.tids.filterMap fun t => match callTls s.sys s.mach f (s.mach.thr t) with
      | .park p => some p
      | _ => none) = [] := List.filterMap_eq_nil_iff.2 fun k hk => by rw [htls k hk]
  have hheld : (q.tids.any fun t => tlsHeld s.sys s.mach (s.mach.thr t) (s.mach.thr t).tlsTop (s.mach.callNeed f (s.mach.thr t))) = false :=
    List.any_eq_false.2 fun k hk => by
      unfold tlsHeld
      rw [callNeed_zero hf.kind (hcallers k hk).2.2, tlsPieces_none]
      exact Bool.false_ne_true
  rw [← hnat] at hbefore hentry
  unfold callAt
  generalize (entry.setWidth 64).toNat + 2 ^ 57 - 8 = before at hbefore ⊢
  generalize (entry.setWidth 64).toNat = at_ at hentry ⊢
  refine (if_neg (ne_true_of_eq_false hplain)).trans ((if_neg (ne_true_of_eq_false hquiet)).trans ?_)
  rw [hafter]
  refine (if_neg (ne_true_of_eq_false (by rw [hheader]; rfl))).trans ((if_neg (ne_true_of_eq_false hgood)).trans ?_)
  rw [hbefore, hentry]
  rw [← hfn, ← hheader3] at hcheck
  rw [← hfn] at hparks hheld ⊢
  show (match (fnHdr w2).check (s.mach.launch q.launch).ver (isHeader w3) (q.tids.map fun t => (s.mach.thr t).rgv)
    (q.tids.map fun t => (s.mach.thr t).widthDepth) with
    | some c => _
    | none => _) = _
  rw [hcheck]
  refine (if_neg ?_).trans ((if_neg (ne_true_of_eq_false hheld)).trans ?_)
  · rintro ⟨hne, -⟩
    exact hne hparks
  · rw [hto]

/-- What the statement asks of a call of an entry. -/
def CallOk (s : State) (q : Quarter) (entry : Pc) : Prop :=
  Callers s q ∧ ∃ f, CallWords s q entry f ∧ f.magic = 0xFC ∧ f.kind = 0 ∧ f.factor = 0 ∧ f.grant = 0 ∧ f.low = 0 ∧ f.red = 0 ∧
    16 ≤ f.frame ∧ f.frame ≤ 256 ∧ ∀ k ∈ q.tids, f.frame ≤ (s.mach.thr k).rgv

theorem call_moves {s : State} {q : Quarter} (h : Hdr) {entry : Pc} (hr : Running s q) (hok : CallOk s q entry) :
    ∃ m1, Begun s.mach m1 q.tids (Thread.called q) ∧ Moved m1 (callAt s.sys s.mach q h (entry.setWidth 64)) ∧
      ∃ q', (callAt s.sys s.mach q h (entry.setWidth 64)).quarter? q.id = some q' ∧ q'.pc = entry ∧ q'.hdr = none ∧ q'.slots = q.slots := by
  obtain ⟨hq, hnd, hthr, hends⟩ := hr
  obtain ⟨hcallers, f, hwords, hmagic, hkind, hfactor, hgrant, hlow, hred, hleast, hmost, hframe⟩ := hok
  rw [callAt_calls h hcallers hwords ⟨hmagic, hkind, hfactor, hgrant, hlow, hred, hleast, hmost⟩ hframe]
  have hid : q.id = s.mach.cur := quarter?_id hq
  exact callEach_spec h entry hkind (by rw [hid]; exact hq) hnd (fun k hk => ⟨hthr k hk, (hcallers k hk).2.2⟩) hends

theorem callDirect_calls (h : Hdr) (off : BitVec 33) (s : State) (q : Quarter) (hr : Running s q)
    (hok : CallOk s q (target q.pc off)) : ∃ t, exec (.callDirect h off) s = .next t ∧ OnlyPlaces s t q (Thread.called q) ∧
      ∃ q', t.mach.quarter? q.id = some q' ∧ q'.pc = target q.pc off ∧ q'.hdr = none ∧ q'.slots = q.slots := by
  obtain ⟨m1, hbegun, hmoved, hq'⟩ := call_moves h hr hok
  exact ⟨_, exec_withQ _ hr, onlyPlaces_of hbegun hmoved, hq'⟩

theorem callReg_calls (h : Hdr) (a : Spec) (entry : Pc) (s : State) (q : Quarter) (hr : Running s q) (hne : q.tids ≠ [])
    (hok : CallOk s q entry) (hsame : ∀ p ∈ q.active, (s.mach.thr p.2).rdPair (s.mach.fr p.1) a = entry.setWidth 64) :
    ∃ t, exec (.callReg h a) s = .next t ∧ OnlyPlaces s t q (Thread.called q) ∧
      ∃ q', t.mach.quarter? q.id = some q' ∧ q'.pc = entry ∧ q'.hdr = none ∧ q'.slots = q.slots := by
  obtain ⟨m1, hbegun, hmoved, hq'⟩ := call_moves h hr hok
  have hid : q.id = s.mach.cur := quarter?_id hr.1
  have hfirst := mem_of_tids_ne hne
  have hlook : look 0 (s.mach.pairOps q a) q.lowest = entry.setWidth 64 := by
    rw [lowest_eq hne]
    exact (look_active 0 (fun p => (s.mach.thr p.2).rdPair (s.mach.fr p.1) a) hr.2.1 hfirst).trans (hsame _ hfirst)
  have haway : ((s.mach.pairOps q a).filter fun p => p.2 != entry.setWidth 64).map (fun p => p.1) = [] := by
    rw [List.filter_eq_nil_iff.2 fun x hx => ?_]
    · rfl
    · obtain ⟨p, hp, rfl⟩ := List.mem_map.1 hx
      simp [hsame p hp]
  have hplain : (q.tids.any fun t => (s.mach.thr t).isHandler) = false := List.any_eq_false.2 fun k hk => by simp [(hok.1 k hk).1]
  have hexec : exec (.callReg h a) s = .next (s.withMach (callAt s.sys s.mach q h (entry.setWidth 64)).used).settle := by
    refine (exec_withQ _ hr).trans (congrArg (fun m => Host.Outcome.next (s.withMach m).settle) ?_)
    dsimp only
    rw [hlook, haway, hplain, if_neg Bool.false_ne_true, if_pos rfl, show s.mach.inOrder [] = [] from rfl, List.foldl_nil, hid, hr.1]
  exact ⟨_, hexec, onlyPlaces_of hbegun (hmoved.trans (used_moved _)), hq'⟩

/-! ### Returns -/

/-- A thread that has popped its return address. -/
def Thread.popped (T : Thread) : Thread := { T with rets := T.rets.drop 1, sameDepth := T.sameDepth - 1 }

/-- The address that a `ret` pops. -/
def Thread.retPc (T : Thread) : Pc := (T.rets.headD {}).retva

/-- The topmost entry of the thread's return stack is on chip, of a call of the same width. -/
def Thread.pops (T : Thread) : Prop := ∃ e r, T.rets = e :: r ∧ e.kind = 0

theorem retKind_pop {m : Mach} {T : Thread} (h : T.pops) : m.retKind T = .pop := by
  obtain ⟨e, r, hrets, hkind⟩ := h
  unfold Mach.retKind
  rw [hrets]
  exact if_pos hkind

theorem refillAt_none {T : Thread} (h : T.pops) : T.refillAt = none := by
  obtain ⟨e, r, hrets, -⟩ := h
  unfold Thread.refillAt
  rw [hrets]

theorem retRanges_none {m : Mach} {T : Thread} (h : T.pops) : m.retRanges T = [] := by
  unfold Mach.retRanges
  rw [refillAt_none h, retKind_pop h]

theorem retTls_ok {y : Sys} {m : Mach} {T : Thread} (h : T.pops) : retTls y m T = .ok := by
  unfold retTls
  rw [retRanges_none h]
  rfl

/-- Threads whose `ret` touches no stack pass its checks. -/
theorem retStage_passes {y : Sys} {m : Mach} {q : Quarter} (fl : Nat) {ids : List Nat} (k : Mach → List Nat → Mach)
    (h : ∀ t ∈ ids, (m.thr t).pops) : retStage y m q fl ids k = k m ids := by
  have hfails : (ids.map fun t => (t, retTls y m (m.thr t))) = ids.map fun t => (t, TlsRes.ok) :=
    List.map_congr_left fun t ht => by rw [retTls_ok (h t ht)]
  have hheld : (ids.any fun t => (m.retRanges (m.thr t)).any fun r => tlsHeld y m (m.thr t) r.1 r.2.1) = false :=
    List.any_eq_false.2 fun t ht => by
      rw [retRanges_none (h t ht)]
      exact Bool.false_ne_true
  have hfold : ∀ m : Mach, (ids.map fun t => (t, TlsRes.ok)).foldl (fun m p => m.tlsFail q p.1 fl p.2) m = m := by
    intro m
    clear h hfails hheld
    induction ids with
    | nil => rfl
    | cons t ids ih => exact ih
  have hparks : ∀ f : Nat × TlsRes → Option ParkReq, (∀ t, f (t, .ok) = none) → (ids.map fun t => (t, TlsRes.ok)).filterMap f = [] := by
    intro f hf
    refine List.filterMap_eq_nil_iff.2 fun p hp => ?_
    obtain ⟨t, -, rfl⟩ := List.mem_map.1 hp
    exact hf t
  have hoks : (((ids.map fun t => (t, TlsRes.ok)).filter fun p => p.2 == .ok).map fun p => p.1) = ids := by
    rw [List.filter_eq_self.2 fun p hp => ?_, List.map_map]
    · exact List.map_id _
    · obtain ⟨t, -, rfl⟩ := List.mem_map.1 hp
      rfl
  unfold retStage
  dsimp only
  rw [hfails, hheld, if_neg Bool.false_ne_true]
  refine (if_neg ?_).trans ((if_neg ?_).trans ?_)
  · rw [hparks _ fun _ => rfl]
    exact Bool.false_ne_true
  · rintro ⟨hne, -⟩
    exact hne (hparks _ fun _ => rfl)
  · rw [hfold, hoks]

/-- The record that a `ret` leaves of a thread's next address. -/
def retNext (q : Quarter) (k : Nat) (T : Thread) : Nat × Pc × Option Sender := (k, T.retPc, some (senderOf q T (some (undoOf T))))

/-- A thread returns, and its next address is recorded. -/
def retStep (y : Sys) (q : Quarter) (fl : Nat) (r : Mach × List (Nat × Pc × Option Sender)) (id : Nat) :
    Mach × List (Nat × Pc × Option Sender) :=
  let (m, n) := retOne y r.1 q fl id
  (m, match n with
    | some n => r.2 ++ [(id, n)]
    | none => r.2)

/-- The quarter parts, as its threads' next addresses say. -/
def retPart (q : Quarter) (r : Mach × List (Nat × Pc × Option Sender)) : Mach :=
  match r.1.quarter? q.id with
  | none => r.1
  | some q' => r.1.disperse q' (r.2.map fun n => (n.1, n.2.1)) (look 0 (r.2.map fun n => (n.1, n.2.1)) q'.lowest)
      fun id _ => look none (r.2.map fun n => (n.1, n.2.2)) id

theorem retAll_eq (y : Sys) (m : Mach) {q : Quarter} (fl : Nat) (hne : q.tids ≠ []) : retAll y m q fl false q.tids =
    retPart q (((m.markBusy q.core q.launch).inOrder q.tids).foldl (retStep y q fl) (m.markBusy q.core q.launch, [])) := by
  unfold retAll
  rw [if_neg hne] <;> rfl

/-- The returns of a quarter's threads, one after another. -/
theorem retOnes_spec {y : Sys} {q : Quarter} (fl : Nat) (ids : List Nat) : ∀ (m : Mach) (acc : List (Nat × Pc × Option Sender)), ids.Nodup →
    (∀ k ∈ ids, (m.thr? k).isSome ∧ (m.thr k).pops) →
    ∃ m', ids.foldl (retStep y q fl) (m, acc) = (m', acc ++ ids.map fun k => retNext q k (m.thr k)) ∧ Changed m m' ids Thread.popped := by
  induction ids with
  | nil => exact fun m acc _ _ => ⟨m, by rw [List.map_nil, List.append_nil]; rfl, .nil m _⟩
  | cons a ids ih =>
    intro m acc hnd h
    rw [List.nodup_cons] at hnd
    obtain ⟨ha, hnd⟩ := hnd
    obtain ⟨hi, hp⟩ := h a List.mem_cons_self
    have hone := modThr_changed (g := Thread.popped) (fun _ => rfl) hi
    have hret : retOne y m q fl a = (m.modThr a Thread.popped, some ((m.thr a).retPc, some (senderOf q (m.thr a) (some (undoOf (m.thr a)))))) := by
      unfold retOne
      dsimp only
      rw [retKind_pop hp] <;> rfl
    have hkept : ∀ k ∈ ids, (m.modThr a Thread.popped).thr k = m.thr k := fun k hk =>
      hone.other fun e => ha (e ▸ hk)
    obtain ⟨m', hfold, hchanged⟩ := ih (m.modThr a Thread.popped) (acc ++ [retNext q a (m.thr a)]) hnd fun k hk => by
      rw [hone.there, hkept k hk]
      exact h k (List.mem_cons_of_mem _ hk)
    refine ⟨m', ?_, hone.cons hchanged ha⟩
    have hstep : retStep y q fl (m, acc) a = (m.modThr a Thread.popped, acc ++ [retNext q a (m.thr a)]) := by
      unfold retStep
      rw [hret] <;> rfl
    rw [List.foldl_cons, hstep, hfold]
    rw [List.append_assoc, List.map_cons, List.singleton_append, List.map_congr_left fun k hk => by rw [hkept k hk]]

theorem Begun.marked {m m1 m2 : Mach} {ids : List Nat} {g : Thread → Thread} (h : Moved m m1) (hthr : ∀ k, m1.thr k = m.thr k)
    (h' : Begun m1 m2 ids g) : Begun m m2 ids g where
  frame := by rw [h'.frame, h.frame]
  thr k := by rw [h'.thr, hthr]
  core k := by rw [h'.core, h.core]

/-- The threads of a quarter whose returns touch no stack return. -/
theorem retAll_spec {y : Sys} {m : Mach} {q : Quarter} (fl : Nat) (hq : m.quarter? q.id = some q) (hnd : q.tids.Nodup) (hne : q.tids ≠ [])
    (hthr : ∀ k ∈ q.tids, (m.thr? k).isSome ∧ (m.thr k).pops) :
    ∃ m1 snd, Begun m m1 q.tids Thread.popped ∧ m1.quarter? q.id = some q ∧ (∀ k, (m1.thr? k).isSome = (m.thr? k).isSome) ∧
      retAll y m q fl false q.tids = m1.disperse q ((m.inOrder q.tids).map fun k => (k, (m.thr k).retPc))
        (m.thr (q.active.headD (0, 0)).2).retPc snd := by
  have hperm := perm_inOrder m q.tids
  obtain ⟨m1, hfold, hchanged⟩ := retOnes_spec (y := y) (q := q) fl (m.inOrder q.tids) (m.markBusy q.core q.launch) []
    (hperm.nodup_iff.2 hnd) fun k hk => hthr k (hperm.mem_iff.1 hk)
  have hframe := hchanged.frame
  have hq1 : m1.quarter? q.id = some q := by
    rw [hframe]
    exact hq
  have hnexts : (([] ++ (m.inOrder q.tids).map fun k => retNext q k ((m.markBusy q.core q.launch).thr k)).map fun n : Nat × Pc × Option Sender => (n.1, n.2.1)) =
      (m.inOrder q.tids).map fun k => (k, (m.thr k).retPc) := by
    rw [List.nil_append, List.map_map]
    rfl
  have hlook : look 0 ((m.inOrder q.tids).map fun k => (k, (m.thr k).retPc)) q.lowest = (m.thr (q.active.headD (0, 0)).2).retPc := by
    rw [lowest_eq hne]
    exact look_map 0 _ (hperm.mem_iff.2 (mem_tids_active.2 ⟨_, mem_of_tids_ne hne, rfl⟩))
  refine ⟨m1, fun id _ => look none (((m.inOrder q.tids).map fun k => retNext q k (m.thr k)).map fun n => (n.1, n.2.2)) id, .marked (markBusy_moved m q.core q.launch) (fun _ => rfl) (hchanged.begun fun k => hperm.mem_iff), hq1, hchanged.there, ?_⟩
  rw [retAll_eq y m fl hne, show (m.markBusy q.core q.launch).inOrder q.tids = m.inOrder q.tids from rfl, hfold]
  unfold retPart
  rw [hq1]
  dsimp only
  rw [hnexts, hlook]
  rfl

theorem ret_plan {y : Sys} {m : Mach} {q : Quarter} (fl : Nat) (hpops : ∀ k ∈ q.tids, (m.thr k).pops) (hq : m.quarter? q.id = some q) :
    (retStage y m q fl (q.tids.filter fun t => (m.thr t).refillAt.isSome) fun m ok =>
      let m := ok.foldl (fun m id => refill y m id) m
      match m.quarter? q.id with
      | none => m
      | some q =>
        if q.tids.any fun t => m.retWaits (m.thr t) then m.waitQ q .flags
        else
          let late := q.tids.filter fun t => m.retJoins (m.thr t) && m.liveKids (m.thr t)
          let go := q.tids.filter fun t => !late.contains t
          retStage y m q fl go fun m ok =>
            let js := ok.filter fun t => m.retJoins (m.thr t) && (m.thr t).kids != []
            let m := js.foldl (fun m id => m.joinPass q fl id) m
            let m := if js = [] then m else m.dropCopies q.core
            retAll y m q fl (late != []) ok) = retAll y m q fl false q.tids := by
  have hempty : (q.tids.filter fun t => (m.thr t).refillAt.isSome) = [] := List.filter_eq_nil_iff.2 fun k hk => by
    rw [refillAt_none (hpops k hk)]
    exact Bool.false_ne_true
  have hwaits : (q.tids.any fun t => m.retWaits (m.thr t)) = false := List.any_eq_false.2 fun k hk => by
    unfold Mach.retWaits
    rw [retKind_pop (hpops k hk)]
    exact Bool.false_ne_true
  have hjoins : ∀ k ∈ q.tids, m.retJoins (m.thr k) = false := fun k hk => by
    unfold Mach.retJoins
    rw [retKind_pop (hpops k hk)]
  have hlate : (q.tids.filter fun t => m.retJoins (m.thr t) && m.liveKids (m.thr t)) = [] := List.filter_eq_nil_iff.2 fun k hk => by
    rw [hjoins k hk]
    exact Bool.false_ne_true
  have hjs : (q.tids.filter fun t => m.retJoins (m.thr t) && (m.thr t).kids != []) = [] := List.filter_eq_nil_iff.2 fun k hk => by
    rw [hjoins k hk]
    exact Bool.false_ne_true
  have hgo : (q.tids.filter fun t => !([] : List Nat).contains t) = q.tids := List.filter_eq_self.2 fun _ _ => rfl
  rw [hempty, retStage_passes fl _ fun t ht => absurd ht List.not_mem_nil]
  dsimp only
  rw [List.foldl_nil, hq]
  dsimp only
  rw [hwaits, if_neg Bool.false_ne_true, hlate, hgo, retStage_passes fl _ hpops, hjs] <;> rfl

theorem ret_branches (h : Hdr) : Branches (.ret h) (fun s q => ∀ k ∈ q.tids, (s.mach.thr k).pops) Thread.popped
    (fun s _ p => (s.mach.thr p.2).retPc) (fun s q => (s.mach.thr (q.active.headD (0, 0)).2).retPc) := by
  intro s q hr hne hlast hpops
  have hid : q.id = s.mach.cur := quarter?_id hr.1
  have hq : s.mach.quarter? q.id = some q := by rw [hid]; exact hr.1
  obtain ⟨-, hnd, hthr, hends⟩ := id hr
  obtain ⟨m1, snd, hbegun, hq1, hthere, hall⟩ := retAll_spec (y := s.sys) h.flag.toNat hq hnd hne fun k hk => ⟨hthr k hk, hpops k hk⟩
  have hexec : exec (.ret h) s = .next (s.withMach (m1.disperse q ((s.mach.inOrder q.tids).map fun k => (k, (s.mach.thr k).retPc))
      (s.mach.thr (q.active.headD (0, 0)).2).retPc snd)).settle := by
    rw [← hall, ← ret_plan (y := s.sys) h.flag.toNat hpops hq]
    exact exec_withQ _ hr
  have hlaunches : ∀ l, m1.launch l = s.mach.launch l := fun l => by rw [hbegun.frame]; rfl
  obtain ⟨hmoved, ⟨q', hq', hpc, hhdr, hcore, hactive⟩, hpcs⟩ := disperse_spec (m := m1) (q := q) (ids := s.mach.inOrder q.tids)
    (fun k => (s.mach.thr k).retPc) (s.mach.thr (q.active.headD (0, 0)).2).retPc snd hq1 (perm_inOrder _ _) hnd
    (fun k hk => by rw [hthere]; exact hthr k hk) (by rw [hlaunches]; exact hends) (fun k hk => by
      rw [hlaunches, hbegun.thr, if_pos hk]
      exact hlast k hk) ⟨_, mem_of_tids_ne hne, rfl⟩
  generalize m1.disperse q _ _ snd = m2 at *
  exact ⟨_, hexec, onlyPlaces_of hbegun hmoved, ⟨q', hq', hpc, hhdr, hcore, fun p hp hl => (hactive p).2 ⟨hp, hl⟩⟩, hpcs⟩

/-- Settles O23, a call and a return being pushes and pops on the threads' stacks, one thread after another, and a jump or a parting of the
quarter. -/
theorem callsAndReturns : Obligations.CallsAndReturns := by
  unfold Obligations.CallsAndReturns
  refine ⟨⟨fun h off s q hr hne hok => callDirect_calls h off s q hr hok, fun h a entry s q hr hne hok hsame =>
    callReg_calls h a entry s q hr hne hok hsame⟩, ret_branches⟩

end Sys2Proof.Machine
end

section
/-! SUPPORT. The steps of an operation that has performed leave memory and what other threads still have to do. -/

namespace Sys2Proof.Machine

/-! ### Steps that leave memory, and give no thread an operation -/

/-- Memory, its map and the copies of cores stay, and every thread's pending set is a part of one that a thread of its number had. -/
structure Calm (m m' : Mach) : Prop where
  mem : m'.mem = m.mem
  decs : m'.decs = m.decs
  pe0ep : m'.pe0ep = m.pe0ep
  copies : m'.copies = m.copies
  pend : ∀ T ∈ m'.threads, ∃ U ∈ m.threads, U.id = T.id ∧ ∀ u ∈ T.pend, u ∈ U.pend

theorem Calm.refl (m : Mach) : Calm m m := ⟨rfl, rfl, rfl, rfl, fun T hT => ⟨T, hT, rfl, fun _ hu => hu⟩⟩

theorem Calm.trans {a b c : Mach} (h : Calm a b) (h' : Calm b c) : Calm a c where
  mem := h'.mem.trans h.mem
  decs := h'.decs.trans h.decs
  pe0ep := h'.pe0ep.trans h.pe0ep
  copies := h'.copies.trans h.copies
  pend T hT := by
    obtain ⟨U, hU, hid, hpend⟩ := h'.pend T hT
    obtain ⟨V, hV, hid', hpend'⟩ := h.pend U hU
    exact ⟨V, hV, hid'.trans hid, fun u hu => hpend' u (hpend u hu)⟩

/-- A step that leaves memory and the threads. -/
theorem Calm.still {m m' : Mach} (hmem : m'.mem = m.mem) (hdecs : m'.decs = m.decs) (hwin : m'.pe0ep = m.pe0ep)
    (hcopies : m'.copies = m.copies)
    (hthreads : m'.threads = m.threads) : Calm m m' :=
  ⟨hmem, hdecs, hwin, hcopies, fun T hT => ⟨T, hthreads ▸ hT, rfl, fun _ hu => hu⟩⟩

theorem Calm.fold {α : Type} {step : Mach → α → Mach} (hstep : ∀ m a, Calm m (step m a)) (l : List α) : ∀ m, Calm m (l.foldl step m) := by
  induction l with
  | nil => exact Calm.refl
  | cons a l ih => exact fun m => (hstep m a).trans (ih _)

theorem Calm.mapped {m m' : Mach} (h : Calm m m') (loc : Nat) : m'.mapped loc = m.mapped loc := by
  unfold Mach.mapped Mach.inHost
  rw [h.pe0ep]

theorem mem_modAll {m : Mach} {ids : List Nat} {f : Thread → Thread} {T : Thread} (h : T ∈ (m.modAll ids f).threads) :
    ∃ U ∈ m.threads, T = f U ∨ T = U := by
  obtain ⟨U, hU, rfl⟩ := List.mem_map.1 h
  exact ⟨U, hU, by split <;> simp⟩

theorem modAll_calm (m : Mach) (ids : List Nat) {f : Thread → Thread} (hid : ∀ t, (f t).id = t.id)
    (hpend : ∀ t, ∀ u ∈ (f t).pend, u ∈ t.pend) : Calm m (m.modAll ids f) := by
  refine ⟨rfl, rfl, rfl, rfl, fun T hT => ?_⟩
  obtain ⟨U, hU, rfl | rfl⟩ := mem_modAll hT
  · exact ⟨U, hU, (hid U).symm, hpend U⟩
  · exact ⟨T, hU, rfl, fun _ hu => hu⟩

/-- The thread of a number stands in the list, or is the empty one. -/
theorem thr_mem (m : Mach) (k : Nat) : (m.thr k ∈ m.threads ∧ (m.thr k).id = k) ∨ m.thr k = {} := by
  unfold Mach.thr
  cases h : m.thr? k with
  | none => exact .inr rfl
  | some t => exact .inl ⟨List.mem_of_find?_eq_some h, beq_iff_eq.1 (List.find?_some h :)⟩

theorem setThr_calm {m : Mach} {t : Thread} (h : ∀ u ∈ t.pend, ∃ U ∈ m.threads, U.id = t.id ∧ ∀ u ∈ t.pend, u ∈ U.pend) :
    Calm m (m.setThr t) := by
  refine ⟨rfl, rfl, rfl, rfl, fun T hT => ?_⟩
  obtain ⟨U, hU, rfl⟩ := List.mem_map.1 hT
  by_cases hid : U.id = t.id
  · rw [if_pos (beq_iff_eq.2 hid)]
    by_cases hp : t.pend = []
    · exact ⟨U, hU, hid, fun u hu => absurd hu (by rw [hp]; exact List.not_mem_nil)⟩
    · obtain ⟨o, ho⟩ := List.exists_mem_of_ne_nil _ hp
      exact h o ho
  · rw [if_neg (by simpa using hid)]
    exact ⟨U, hU, rfl, fun _ hu => hu⟩

theorem modThr_calm (m : Mach) (k : Nat) {f : Thread → Thread} (hid : ∀ t, (f t).id = t.id)
    (hpend : ∀ t, ∀ u ∈ (f t).pend, u ∈ t.pend) : Calm m (m.modThr k f) := by
  refine setThr_calm fun u hu => ?_
  rcases thr_mem m k with ⟨h, -⟩ | h
  · exact ⟨_, h, (hid _).symm, hpend _⟩
  · rw [h] at hu
    exact absurd (hpend _ u hu) List.not_mem_nil

theorem setFlight_calm (m : Mach) (f : Flight) : Calm m (m.setFlight f) := .still rfl rfl rfl rfl rfl

theorem unlook_calm (m : Mach) (iss : Nat) : Calm m (m.unlook iss) := by
  unfold Mach.unlook
  split
  · exact .refl m
  · exact .still rfl rfl rfl rfl rfl

theorem removeThreads_calm (m : Mach) (ids : List Nat) : Calm m (m.removeThreads ids) := by
  refine ⟨rfl, rfl, rfl, rfl, fun T hT => ?_⟩
  obtain ⟨U, hU, rfl⟩ := List.mem_map.1 hT
  refine ⟨U, (List.mem_filter.1 hU).1, ?_, fun u hu => ?_⟩
  · split <;> rfl
  · split at hu <;> exact hu

theorem freeAlcoves_calm (m : Mach) (l : Nat) : Calm m (m.freeAlcoves l) :=
  (removeThreads_calm m _).trans (.still rfl rfl rfl rfl rfl)

theorem stopThreads_calm (m : Mach) (ids : List Nat) (l : Nat) : Calm m (m.stopThreads ids l) :=
  (removeThreads_calm m ids).trans (freeAlcoves_calm _ l)

theorem modLaunch_calm (m : Mach) (l : Nat) (f : Launch → Launch) : Calm m (m.modLaunch l f) := by
  unfold Mach.modLaunch
  cases m.launch? l with
  | none => exact .refl m
  | some la => exact .still rfl rfl rfl rfl rfl

theorem forgetLaunch_calm (m : Mach) (l : Nat) (runsOn : Bool) : Calm m (m.forgetLaunch l runsOn) := by
  refine (freeAlcoves_calm m l).trans ?_
  unfold Mach.forgetLaunch
  generalize m.freeAlcoves l = m1
  exact .still rfl rfl rfl rfl rfl

theorem endLaunch_calm (m : Mach) (l status cause : Nat) : Calm m (m.endLaunch l status cause) := by
  unfold Mach.endLaunch
  dsimp only
  by_cases hdone : ((m.launch l).ending.isSome && status != 7) = true
  · rw [if_pos hdone]
    exact .refl m
  · rw [if_neg hdone]
    refine (modLaunch_calm m l fun la => { la with ending := some (la.ending.getD (status, cause)) }).trans ?_
    refine Calm.trans ?_ (forgetLaunch_calm _ _ _)
    refine Calm.trans ?_ (removeThreads_calm _ _)
    exact .still rfl rfl rfl rfl rfl

theorem detach_calm (m : Mach) (k : Nat) : Calm m (m.detach k) := by
  unfold Mach.detach
  cases m.quarters.find? fun q => q.tids.contains k with
  | none => exact .still rfl rfl rfl rfl rfl
  | some q =>
    exact (modThr_calm m k (f := fun t => { t with lastIssue := q.lastIssue }) (fun _ => rfl) fun _ _ hu => hu).trans (.still rfl rfl rfl rfl rfl)

theorem pull_calm (m : Mach) (k : Nat) : Calm m (m.pull k) := (detach_calm m k).trans (.still rfl rfl rfl rfl rfl)

theorem raise_calm (m : Mach) (core launch : Nat) (who : List (Nat × Nat × Nat)) (cause : Nat) (pc : Pc) (hdr : Option (Pc × DWord))
    (flag : Nat) (impr waitBit : Bool) : Calm m (m.raise core launch who cause pc hdr flag impr waitBit) := by
  unfold Mach.raise
  dsimp only
  generalize who.filter (fun p => (m.thr p.2.1).stat != .ended) = who
  split
  · exact .refl m
  split
  · exact stopThreads_calm m _ _
  split
  · exact endLaunch_calm m _ _ _
  · refine (Calm.fold pull_calm _ m).trans (Calm.trans (modAll_calm _ _ (fun t => ?_) fun t u hu => ?_) (.still rfl rfl rfl rfl rfl))
    · rw [(carryFlag_frame t pc flag).1]
    · rw [(carryFlag_frame t pc flag).1] at hu
      exact hu

theorem failAll_calm (m : Mach) (fs : List Flight) (cause : Nat) : Calm m (m.failAll fs cause) := by
  unfold Mach.failAll
  cases fs with
  | nil => exact .refl m
  | cons f fs =>
    dsimp only
    generalize hm1 : ({ m with flights := m.flights.filter fun g => !(f :: fs).any fun u => u.uid == g.uid } : Mach) = m1
    have hflights : Calm m m1 := hm1 ▸ .still rfl rfl rfl rfl rfl
    refine (hflights.trans (unlook_calm m1 f.iss)).trans (Calm.trans ?_ (raise_calm _ _ _ _ _ _ _ _ _ _))
    exact modAll_calm _ _ (fun _ => rfl) fun t u hu => (List.mem_filter.1 hu).1

/-- What becomes of an issue gives no thread an operation. -/
theorem settleIssue_calm (m : Mach) (iss : Nat) : Calm m (m.settleIssue iss) := by
  unfold Mach.settleIssue
  dsimp only
  split
  · exact .refl m
  · exact Calm.fold (fun m c => failAll_calm m _ c) _ m

theorem opDone_calm (m : Mach) (t : Thread) (o : PendOp) (got : List Byte) : Calm m (m.opDone t o got) := by
  unfold Mach.opDone
  refine (modThr_calm m t.id (f := fun u => { u with pend := u.pend.filter fun p => p.oid != o.oid }) (fun _ => rfl) fun t u hu =>
    (List.mem_filter.1 hu).1).trans ?_
  dsimp only
  split
  · exact setFlight_calm _ _
  · exact .refl _

theorem memFin_calm (m : Mach) (f : Flight) : Calm m (memFin m f) := by
  unfold memFin
  split
  · exact setFlight_calm _ _
  · exact setFlight_calm _ _
  · exact setFlight_calm _ _
  · exact setFlight_calm _ _
  · exact .refl m

theorem ifDone_calm {m : Mach} {tid uid : Nat} {fin : Mach → Flight → Mach} (hfin : ∀ m f, Calm m (fin m f)) : Calm m (m.ifDone tid uid fin) := by
  unfold Mach.ifDone
  split
  · exact .refl m
  split
  · split
    · exact .refl m
    · exact (setFlight_calm m _).trans (hfin _ _)
  · exact .refl m

/-- An operation that is done stands in no pending set of its thread. -/
theorem opDone_gone (m : Mach) (t : Thread) (o : PendOp) (got : List Byte) : ∀ T ∈ (m.opDone t o got).threads, T.id = t.id →
    ∀ u ∈ T.pend, u.oid ≠ o.oid := by
  have hthreads : (m.opDone t o got).threads =
      (m.modThr t.id fun u => { u with pend := u.pend.filter fun p => p.oid != o.oid }).threads := by
    unfold Mach.opDone
    dsimp only
    split <;> rfl
  intro T hT hid u hu
  rw [hthreads] at hT
  obtain ⟨V, hV, rfl⟩ := List.mem_map.1 hT
  split at hu
  · simpa using (List.mem_filter.1 hu).2
  · rename_i hne
    refine absurd ?_ hne
    rw [if_neg hne] at hid
    have hsome : (m.thr? t.id).isSome := List.find?_isSome.2 ⟨V, hV, beq_iff_eq.2 hid⟩
    exact beq_iff_eq.2 (hid.trans (thr_id hsome).symm)

end Sys2Proof.Machine
end

section
/-! SUPPORT. An issue of accesses whose plans pass their checks, whatever follows it. -/

namespace Sys2Proof.Machine

/-- The flight of one thread whose access passes its checks. -/
theorem planIssue_flies {s : State} {q : Quarter} (h : Hdr) (i : Instr) (shift : Bool) (stat : Option Spec) {g : Nat → Flight → Flight}
    (hg : ∀ k f, (g k f).uid = f.uid ∧ (g k f).instr = f.instr ∧ (g k f).owner = f.owner ∧ (g k f).tids = f.tids ∧ (g k f).flag = f.flag ∧
      (g k f).clauses = f.clauses ∧ (g k f).done = f.done ∧ (g k f).writes = f.writes ∧ (g k f).got = f.got) {m : Mach} {k : Nat} {p : TPlan}
    (hcycle : m.cycle = s.mach.cycle) (hthr : m.thr? k = s.mach.thr? k) (hsome : (m.thr? k).isSome) (hok : p.acc.isOk = true) :
    ∃ f, (FlightOf s h i k p.ops f ∧ f.writes = [] ∧ f.got = []) ∧
      (m.planIssue q h i s.mach.next shift stat g k p).flights = m.flights ++ [f] ∧
      (∀ j, (m.planIssue q h i s.mach.next shift stat g k p).thr? j =
        if j = k then (m.thr? j).map (fun t => t.flown q.pc h.flag.toNat shift f.uid s.mach.cycle p.ops) else m.thr? j) ∧
      Flown m (m.planIssue q h i s.mach.next shift stat g k p) := by
  obtain ⟨l, at_, e, hacc⟩ := isOk_iff.1 hok
  obtain ⟨x, w, b, y, hwalks, hecc⟩ := planWalks_flown m q p e
  generalize hmf : ({ m with tlbs := x, walks := w, eccSingle := b, secnt := y } : Mach) = mf at hwalks
  have hstep : m.planIssue q h i s.mach.next shift stat g k p = mf.addFlight q h i s.mach.next k [k] p.ops shift false (g k) := by
    unfold Mach.planIssue
    simp only [hacc, hwalks]
  obtain ⟨huid, hinstr, howner, htids, hflag, hclauses, hdone, hwrites, hgot⟩ := hg k (flightOf mf q h i s.mach.next k [k] p.ops false)
  have hsame : mf.thr? k = m.thr? k := by rw [← hmf]; rfl
  refine ⟨g k (flightOf mf q h i s.mach.next k [k] p.ops false), ⟨⟨hinstr, howner, htids, hflag, ?_, ?_⟩, hwrites, hgot⟩, ?_, fun j => ?_, ?_⟩
  · obtain ⟨t, ht⟩ := Option.isSome_iff_exists.1 hsome
    rw [hclauses]
    show [(k, (mf.thr k).clause)] = _
    rw [thr_of (hsame.trans ht), thr_of (hthr.symm.trans ht)]
  · rw [hdone]
    simp [flightOf]
  · rw [hstep, ← hmf]
    rfl
  · rw [hstep, huid, ← hcycle, show m.cycle = mf.cycle by rw [← hmf], ← show mf.thr? j = m.thr? j by rw [← hmf]; rfl]
    exact addFlight_thr mf q h i s.mach.next k p.ops shift false (g k) (by rw [hsame]; exact hsome) j
  · rw [hstep]
    refine Flown.trans (b := mf) ?_ (addFlight_flown _ _ _ _ _ _ _ _ _ _ _)
    rw [← hmf]
    exact ⟨rfl, hecc⟩

/-- AN ISSUE OF ACCESSES whose plans pass their checks, none of them judged. -/
theorem memIssue_issued {s : State} {q : Quarter} (h : Hdr) (i : Instr) (shift : Bool) (stat : Option Spec) (plan : Nat → Thread → TPlan)
    (wide : Mach → Thread → Flight → PendOp → Mach) (fin : Mach → Flight → Mach) {g : Nat → Flight → Flight}
    (hg : ∀ k f, (g k f).uid = f.uid ∧ (g k f).instr = f.instr ∧ (g k f).owner = f.owner ∧ (g k f).tids = f.tids ∧ (g k f).flag = f.flag ∧
      (g k f).clauses = f.clauses ∧ (g k f).done = f.done ∧ (g k f).writes = f.writes ∧ (g k f).got = f.got) (hr : Running s q)
    (hok : ∀ p ∈ q.active, (plan (s.mach.fr p.1) (s.mach.thr p.2)).acc.isOk = true ∧
      (plan (s.mach.fr p.1) (s.mach.thr p.2)).judge = []) :
    OnlyIssue s ({ s with mach := s.mach.memIssue s.sys h i shift stat plan wide fin g } : State).settle q ∧
      ∀ p ∈ q.active, ∃ f ∈ (s.mach.memIssue s.sys h i shift stat plan wide fin g).flights,
        FlightOf s h i p.2 (plan (s.mach.fr p.1) (s.mach.thr p.2)).ops f ∧ f.writes = [] ∧ f.got = [] ∧
        Issued q h shift f.uid s.mach.cycle (plan (s.mach.fr p.1) (s.mach.thr p.2)).ops (s.mach.thr p.2)
          ((s.mach.memIssue s.sys h i shift stat plan wide fin g).thr p.2) := by
  obtain ⟨hq, hnd, hthr, hends⟩ := id hr
  have hid := quarter?_id hq
  rw [memIssue_eq h i shift stat plan wide fin g hq hok]
  obtain ⟨hfly, hother, hkept, hflown⟩ := foldl_flights (fun p : Nat × Nat => p.2)
    (fun m p => m.planIssue q h i s.mach.next shift stat g p.2 (plan (s.mach.fr p.1) (s.mach.thr p.2)))
    (fun p uid t => t.flown q.pc h.flag.toNat shift uid s.mach.cycle (plan (s.mach.fr p.1) (s.mach.thr p.2)).ops)
    (fun p _ f => FlightOf s h i p.2 (plan (s.mach.fr p.1) (s.mach.thr p.2)).ops f ∧ f.writes = [] ∧ f.got = []) (s.mach.take 1) q.active
    (fun m p hp hcycle hsame hsome => planIssue_flies h i shift stat hg hcycle hsame hsome (hok p hp).1)
    (s.mach.take 1) rfl (active_nodup hnd) (fun _ _ => rfl) fun p hp => hthr _ (mem_tids hp)
  generalize q.active.foldl _ (s.mach.take 1) = m1 at hfly hother hkept hflown ⊢
  have hm : Flown s.mach m1 := Flown.trans (b := s.mach.take 1) ⟨rfl, fun e => ⟨e, rfl⟩⟩ hflown
  have hq1 : m1.quarter? q.id = some q := by
    rw [hm.1, hid]
    exact hq
  have hgo : m1.goOn q.id s.mach.next h.look.toNat = m1.advanceLook q s.mach.next h.look.toNat := by
    unfold Mach.goOn
    rw [hq1]
  have hends1 : (m1.launch q.launch).ending = none := by
    rw [hm.1]
    exact hends
  rw [hgo]
  refine ⟨issue_only s q _ _ _ hr hother hkept hm, fun p hp => ?_⟩
  obtain ⟨f, hf, ⟨hof, hwrites, hgot⟩, ht⟩ := hfly p hp
  refine ⟨f, ?_, hof, hwrites, hgot, ?_⟩
  · rw [(advanceLook_spec _ q _ _ hq1 hends1).2.2.2]
    exact hf
  · rw [issue_thread s q _ s.mach.next h.look.toNat hr hq1 hends1 p hp _ ht]
    exact flown_issued q h shift f.uid s.mach.cycle _ _

/-! ### Reads that correct errors -/

/-- Single-bit errors are corrected and counted, and nothing else changes. -/
def Corrects (m m' : Mach) : Prop :=
  ∃ x y, m' = { m with eccSingle := x, secnt := y } ∧ (m.eccSingle = [] → x = [] ∧ y = m.secnt)

theorem Corrects.refl (m : Mach) : Corrects m m := ⟨_, _, rfl, fun e => ⟨e, rfl⟩⟩

theorem Corrects.trans {a b c : Mach} (h : Corrects a b) (h' : Corrects b c) : Corrects a c := by
  obtain ⟨x, y, rfl, hn⟩ := h
  obtain ⟨x', y', rfl, hn'⟩ := h'
  exact ⟨x', y', rfl, fun e => by obtain ⟨rfl, rfl⟩ := hn e; exact hn' rfl⟩

theorem eccFix_corrects (m : Mach) (core loc len : Nat) : Corrects m (m.eccFix core loc len) := by
  unfold Mach.eccFix
  dsimp only
  split
  · exact .refl m
  · rename_i hne
    exact ⟨_, _, rfl, fun e => absurd (by rw [e]; simp) hne⟩

theorem walkFix_corrects (m : Mach) (core : Nat) (e : Eff) (va : Nat) : Corrects m (m.walkFix core e va) := walkFix_flown m core e va

theorem Corrects.fold {α : Type} {step : Mach → α → Mach} (hstep : ∀ m a, Corrects m (step m a)) (l : List α) :
    ∀ m, Corrects m (l.foldl step m) := by
  induction l with
  | nil => exact Corrects.refl
  | cons a l ih => exact fun m => (hstep m a).trans (ih _)

/-- The frame of an issue holds of what the reads of the issue have corrected too. -/
theorem OnlyIssue.corrected {s : State} {q : Quarter} {m m' : Mach} (h : OnlyIssue s ({ s with mach := m } : State).settle q)
    (hc : Corrects m m') : OnlyIssue s ({ s with mach := m' } : State).settle q := by
  obtain ⟨x, y, rfl, hn⟩ := hc
  obtain ⟨hmem, hthr, hquarter, hown, hflights, hagenda, hframe, hecc, -⟩ := h
  refine ⟨hmem, hthr, hquarter, hown, hflights, hagenda, ?_, fun e => ?_, settle_sys_eq _⟩
  · rw [settle_mach] at hframe ⊢
    have hall := congrArg (fun m : Mach => { m with eccSingle := x, secnt := y }) hframe
    exact hall
  · have hold : m.eccSingle = [] ∧ m.secnt = s.mach.secnt := hecc e
    obtain ⟨hx, hy⟩ := hn hold.1
    exact ⟨hx, hy.trans hold.2⟩

end Sys2Proof.Machine
end

section
/-! SUPPORT. What a `kstore` issues (spec/17 R426, spec/07 R219). -/

namespace Sys2Proof.Machine

theorem words8_bounds {va len : Nat} {w : Nat × Nat} (h : w ∈ words8 va len) : va ≤ w.1 ∧ w.2 ≤ 8 := by
  unfold words8 at h
  split at h
  · obtain rfl := List.mem_singleton.1 h
    exact ⟨le_rfl, Nat.zero_le _⟩
  · obtain ⟨i, -, rfl⟩ := List.mem_map.1 h
    refine ⟨Nat.le_max_left _ _, ?_⟩
    have hlo : 8 * (va / 8 + i) ≤ Nat.max va (8 * (va / 8 + i)) := Nat.le_max_right _ _
    have hhi : Nat.min (va + len) (8 * (va / 8 + i) + 8) ≤ 8 * (va / 8 + i) + 8 := Nat.min_le_right _ _
    show Nat.min _ _ - Nat.max _ _ ≤ 8
    omega

/-- A range within one line is one piece. -/
theorem linePieces_one {va len : Nat} (n : Nat) (hlen : 0 < len) (hline : va % 64 + len ≤ 64) : linePieces va (n + 2) len = [(va, len)] := by
  unfold linePieces
  dsimp only
  rw [if_neg (by omega), show Nat.min len (64 - va % 64) = len from Nat.min_eq_left (by omega), Nat.sub_self]
  unfold linePieces
  rw [if_pos rfl]

/-- The lines of a key, with their checks. -/
def keyLines (y : Sys) (m : Mach) (t : Thread) (kva len : Nat) : List ((Nat × Nat) × Acc) :=
  (linePieces kva 10 len).map fun p => (p, globalAcc y m t.core (m.eff t.launch) p.1 1 .w false false)

/-- The link of a `kstore`. -/
def linkOp (hva loc : Nat) : PendOp := { oid := 0, uid := 0, kind := .wide, scope := .t, rel := true, va := hva, parts := [(hva, loc, 64)] }

/-- The head descriptor that an address names, as the checks find its location. -/
def keyHead (y : Sys) (m : Mach) (t : Thread) (hva : Nat) : HeadD :=
  headD (m.num (globalAcc y m t.core (m.eff t.launch) hva 1 .rw false false).loc 64)

/-- The key bytes of a `kstore`. -/
def keyBytes (m : Mach) (g : SigSlot) (t : Thread) (off : Nat) : List Byte := m.bytes (scratchAcc m t off (2 * g.d) 64).loc (2 * g.d)

theorem readNow_loc {m : Mach} {t : Thread} {off len algn : Nat} (h : (m.readNow t off len algn).acc.isOk = true) :
    (m.readNow t off len algn).acc = scratchAcc m t off len algn := by
  unfold Mach.readNow at h ⊢
  dsimp only at h ⊢
  by_cases hb : (scratchAcc m t off len algn).isOk && m.eccBad (scratchAcc m t off len algn).loc len
  · rw [if_pos hb] at h
    exact absurd h Bool.false_ne_true
  · rw [if_neg hb]

theorem idxAcc_ok {y : Sys} {m : Mach} {t : Thread} {va len loc attr : Nat} {need : Need} (h : idxAcc y m t va len need = .ok loc attr) :
    ∃ e, globalAcc y m t.core (m.eff t.launch) va 1 need false false = .ok loc attr e := by
  unfold idxAcc at h
  cases hacc : globalAcc y m t.core (m.eff t.launch) va 1 need false false with
  | ok l a e =>
    rw [hacc] at h
    dsimp only at h
    split at h
    · exact absurd h (by simp)
    split at h
    · exact absurd h (by simp)
    · obtain ⟨rfl, rfl⟩ := IdxAcc.ok.inj h
      exact ⟨e, rfl⟩
  | trap | ecc | park | miss =>
    rw [hacc] at h
    exact absurd h (by simp)

theorem idxAcc_not_held (y : Sys) (m : Mach) (t : Thread) (va len : Nat) (need : Need) : idxAcc y m t va len need ≠ .held := by
  unfold idxAcc
  cases globalAcc y m t.core (m.eff t.launch) va 1 need false false with
  | ok l a e =>
    dsimp only
    split
    · simp
    split <;> simp
  | trap | ecc | park | miss => simp

/-- What a thread's `kstore` plans where it passes its checks: the writes of the key, and the link. -/
theorem kPlan_ops {y : Sys} {m : Mach} {g : SigSlot} {t : Thread} {off hva c : Nat} (hown : (m.kPlan y g t off hva c).own = none)
    (hok : (m.kPlan y g t off hva c).plan.acc.isOk = true) : (m.kPlan y g t off hva c).plan.ops =
      m.keyOps t (keyBytes m g t off) ((keyHead y m t hva).kvva + c * (keyHead y m t hva).kstride)
        (keyLines y m t ((keyHead y m t hva).kvva + c * (keyHead y m t hva).kstride) (2 * g.d)) ++
      [linkOp hva (globalAcc y m t.core (m.eff t.launch) hva 1 .rw false false).loc] := by
  have hpass : ∀ as : List Acc, ∀ a ∈ as, a.isOk = false → (accAll as).isOk = true → False := fun as a ha hbad hall => by
    rw [accAll_ok hall a ha] at hbad
    exact Bool.false_ne_true hbad.symm
  have hsecond : ∀ a b : Acc, b ∈ [a, b] := fun a b => List.mem_cons_of_mem _ (List.mem_singleton_self b)
  unfold Mach.kPlan at hown hok ⊢
  dsimp only at hown hok ⊢
  by_cases hline : hva % 64 ≠ 0
  · rw [if_pos hline] at hown
    exact absurd hown (Option.some_ne_none _)
  rw [if_neg hline] at hown hok ⊢
  rcases hidx : idxAcc y m t hva 64 .rw with ⟨loc, attr⟩ | _ | ⟨x, va⟩ | ⟨pa, va⟩ | p
  · rw [hidx] at hown hok
    dsimp only at hown hok ⊢
    obtain ⟨e, hglobal⟩ := idxAcc_ok hidx
    unfold keyHead keyLines
    rw [hglobal]
    dsimp only [Acc.loc]
    split at hown
    · exact absurd hown (Option.some_ne_none _)
    rename_i hgood
    rw [if_neg hgood] at hok ⊢
    split at hown
    · rename_i hread
      rw [if_pos hread] at hok
      simp [hok] at hread
    rename_i hread
    rw [if_neg hread] at hok ⊢
    split at hown
    · exact absurd hown (Option.some_ne_none _)
    rename_i hnear
    rw [if_neg hnear] at hok ⊢
    dsimp only at hok ⊢
    rw [if_pos hok]
    have hacc := readNow_loc (m := m) (t := t) (off := off) (len := 2 * g.d) (algn := 64) (by simpa using hread)
    rw [hacc]
    rfl
  · exact absurd hidx (idxAcc_not_held y m t hva 64 .rw)
  · rw [hidx] at hown hok
    by_cases hx : x = 0x70
    · subst hx
      exact absurd hown (Option.some_ne_none _)
    · refine (hpass _ _ (hsecond (m.readNow t off (2 * g.d) 64).acc (.trap x)) rfl ?_).elim
      split at hok
      all_goals rename_i hcase
      · exact absurd hcase (by simp)
      · exact absurd (IdxAcc.cause.inj hcase).1 hx
      · obtain ⟨rfl, -⟩ := IdxAcc.cause.inj hcase
        exact hok
      all_goals exact absurd hcase (by simp)
  · rw [hidx] at hok
    exact (hpass _ _ (hsecond _ _) rfl hok).elim
  · rw [hidx] at hok
    exact (hpass _ _ (hsecond _ _) rfl hok).elim

/-! ### The writes of a key -/

theorem keyOps_pieces {m : Mach} {t : Thread} {key : List Byte} {kva : Nat} {ps : List ((Nat × Nat) × Acc)} {o : PendOp}
    (h : o ∈ m.keyOps t key kva ps) : o.len ≤ 8 ∧ o.kind = .store ((key.drop (o.va - kva)).take o.len) ∧
      ∃ p ∈ ps, p.1.1 ≤ o.va ∧ o.loc = p.2.loc + (o.va - p.1.1) := by
  obtain ⟨p, hp, ho⟩ := List.mem_flatMap.1 h
  obtain ⟨w, hw, rfl⟩ := List.mem_map.1 ho
  obtain ⟨hva, hlen⟩ := words8_bounds hw
  exact ⟨hlen, rfl, p, hp, hva, rfl⟩

theorem sum_keyOps (m : Mach) (t : Thread) (key : List Byte) (kva : Nat) (ps : List ((Nat × Nat) × Acc)) :
    ((m.keyOps t key kva ps).map fun o => o.len).sum = (ps.map fun p => p.1.2).sum := by
  unfold Mach.keyOps
  induction ps with
  | nil => rfl
  | cons p ps ih =>
    rw [List.flatMap_cons, List.map_append, List.sum_append, ih, List.map_cons, List.sum_cons, List.map_map]
    refine congrArg (· + _) ?_
    exact sum_words8 p.1.1 p.1.2

theorem sum_keyLines (y : Sys) (m : Mach) (t : Thread) (kva : Nat) {len : Nat} (h : len ≤ 512) :
    ((keyLines y m t kva len).map fun p => p.1.2).sum = len := by
  unfold keyLines
  rw [List.map_map]
  refine sum_linePieces 10 kva len (.inr ?_)
  have := Nat.mod_lt kva (show 0 < 64 by decide)
  omega

theorem ownTraps_none (m : Mach) (q : Quarter) (flag : Nat) : m.ownTraps q flag [] = m := rfl

/-- The plan of a thread among those of its quarter. -/
def kOf (ks : List (Nat × KPlan)) (id : Nat) : KPlan := look { plan := { acc := .trap 0x22 } } ks id

/-- The flight of a `kstore` keeps the signature, the number and the address of its thread's plan. -/
def kNums (ks : List (Nat × KPlan)) (id : Nat) (f : Flight) : Flight := { f with nums := [(kOf ks id).sig, (kOf ks id).c, (kOf ks id).hva] }

/-- The accesses that a `kstore` of these operands plans, under a name: the checks then compare the plan by it. -/
def keyPlan (g : SigSlot) (a b c : Spec) (s : State) (fr : Nat) (T : Thread) : TPlan := (kstorePlan g a b c s fr T).plan

theorem keyPlan_fun (g : SigSlot) (a b c : Spec) : keyPlan g a b c = fun s fr T => (kstorePlan g a b c s fr T).plan := rfl

/-- The definition of the plan, found through the functions: the kernel would compare the plans themselves by what they hold. -/
theorem keyPlan_def (g : SigSlot) (a b c : Spec) (s : State) (fr : Nat) (T : Thread) : keyPlan g a b c s fr T =
    (kstorePlan g a b c s fr T).plan := congrFun (congrFun (congrFun (keyPlan_fun g a b c) s) fr) T

theorem kstorePlan_eq (g : SigSlot) (a b c : Spec) (s : State) (fr : Nat) (T : Thread) : kstorePlan g a b c s fr T =
    s.mach.kPlan s.sys g T (T.rd fr a).toNat (T.rdPair (fr + 8) b).toNat (T.rd (fr + 16) c).toNat := rfl

theorem keyPlan_eq (g : SigSlot) (a b c : Spec) (s : State) (fr : Nat) (T : Thread) : keyPlan g a b c s fr T =
    (s.mach.kPlan s.sys g T (T.rd fr a).toNat (T.rdPair (fr + 8) b).toNat (T.rd (fr + 16) c).toNat).plan :=
  (keyPlan_def g a b c s fr T).trans (congrArg KPlan.plan (kstorePlan_eq g a b c s fr T))

/-- What the statement asks of the threads of a `kstore`. -/
def KeysReadable (hs : BitVec 4) (a b c : Spec) (g : SigSlot) (s : State) (q : Quarter) : Prop :=
  AllFree s q ∧ s.mach.sigPending q.core hs.toNat = false ∧ s.mach.sigSlot q.core q.launch hs.toNat = some g ∧
    ∀ p ∈ q.active, (kstorePlan g a b c s (s.mach.fr p.1) (s.mach.thr p.2)).own = none ∧
      s.mach.readHeld (s.mach.thr p.2) ((s.mach.thr p.2).rd (s.mach.fr p.1) a).toNat (2 * g.d) 64 = false

/-- The writes of a key and its link. -/
def KeyOps (g : SigSlot) (a b c : Spec) (s : State) (fr : Nat) (T : Thread) (os : List PendOp) : Prop :=
  ∃ keys link, os = keys ++ [link] ∧ link.kind = .wide ∧ link.rel = true ∧ link.len = 0 ∧
    let H := keyHead s.sys s.mach T (T.rdPair (fr + 8) b).toNat
    let kva := H.kvva + (T.rd (fr + 16) c).toNat * H.kstride
    (∀ o ∈ keys, o.len ≤ 8 ∧ o.kind = .store (((keyBytes s.mach g T (T.rd fr a).toNat).drop (o.va - kva)).take o.len)) ∧
    (g.d ≤ 256 → (keys.map fun o => o.len).sum = 2 * g.d) ∧
    (kva % 64 + 2 * g.d ≤ 64 → 0 < g.d → ∀ o ∈ keys, kva ≤ o.va ∧
      o.loc = (globalAcc s.sys s.mach T.core (s.mach.eff T.launch) kva 1 .w false false).loc + (o.va - kva))

theorem kstore_ops {g : SigSlot} {a b c : Spec} {s : State} {fr : Nat} {T : Thread} (hown : (kstorePlan g a b c s fr T).own = none)
    (hok : (keyPlan g a b c s fr T).acc.isOk = true) : KeyOps g a b c s fr T (keyPlan g a b c s fr T).ops := by
  rw [kstorePlan_eq] at hown
  rw [keyPlan_eq] at hok ⊢
  refine ⟨_, _, kPlan_ops hown hok, rfl, rfl, rfl, fun o ho => ?_, fun hd => ?_, fun hline hd o ho => ?_⟩
  · obtain ⟨hlen, hkind, -⟩ := keyOps_pieces ho
    exact ⟨hlen, hkind⟩
  · rw [sum_keyOps]
    exact sum_keyLines _ _ _ _ (by omega)
  · obtain ⟨-, -, p, hp, hva, hloc⟩ := keyOps_pieces ho
    unfold keyLines at hp
    rw [linePieces_one 8 (by omega) hline] at hp
    obtain rfl := List.mem_singleton.1 hp
    exact ⟨hva, hloc⟩

/-- A `kstore` whose threads all pass their checks. -/
theorem kstore_issues (h : Hdr) (nt : Bool) (sc : Scope) (hs : BitVec 4) (a b c : Spec) (g : SigSlot) :
    IssuesAccesses (.kstore h nt sc hs a b c) h false (KeysReadable hs a b c g) (keyPlan g a b c) (KeyOps g a b c) := by
  rintro s q hr ⟨hfree, hpending, hslot, hgood⟩ hok
  obtain ⟨hq, hnd, hthr, -⟩ := id hr
  have hwait : s.mach.postWaits q.tids = false := List.any_eq_false.2 fun k hk => by simp [(hfree k hk).1]
  have hheld : ((s.mach.offs q a).any fun p => s.mach.readHeld (s.mach.thr p.1) p.2 (2 * g.d) 64) = false :=
    List.any_eq_false.2 fun p hp => by
      obtain ⟨r, hr, rfl⟩ := List.mem_map.1 hp
      simp [(hgood r hr).2]
  generalize hks : (q.active.map fun p =>
    (p.2, s.mach.kPlan s.sys g (s.mach.thr p.2) (look 0 (s.mach.offs q a) p.2) ((s.mach.thr p.2).rdPair (s.mach.fr p.1 + 8) b).toNat
      ((s.mach.thr p.2).rd (s.mach.fr p.1 + 16) c).toNat)) = ks
  have hplan : ks = q.active.map fun p => (p.2, kstorePlan g a b c s (s.mach.fr p.1) (s.mach.thr p.2)) := by
    rw [← hks]
    exact List.map_congr_left fun p hp => by rw [look_offs a hnd hp]; rfl
  have hkof : ∀ p ∈ q.active, kOf ks (s.mach.thr p.2).id =
      kstorePlan g a b c s (s.mach.fr p.1) (s.mach.thr p.2) := fun p hp => by
    rw [hplan, thr_id (hthr _ (mem_tids hp))]
    exact look_active { plan := { acc := .trap 0x22 } } (fun p => kstorePlan g a b c s (s.mach.fr p.1) (s.mach.thr p.2)) hnd hp
  have hown : (ks.filterMap fun k => k.2.own.map fun c => (k.1, c, if c = 0x2C then k.2.hva else 0)) = [] :=
    List.filterMap_eq_nil_iff.2 fun k hk => by
      rw [hplan] at hk
      obtain ⟨p, hp, rfl⟩ := List.mem_map.1 hk
      dsimp only
      rw [(hgood p hp).1]
      rfl
  obtain ⟨honly, hfly⟩ := memIssue_issued h (.kstore h nt sc hs a b c) false none
    (fun _ t => (kOf ks t.id).plan) noWide memFin
    (g := kNums ks) (fun _ _ => ⟨rfl, rfl, rfl, rfl, rfl, rfl, rfl, rfl, rfl⟩) hr fun p hp => by
        rw [hkof p hp, ← keyPlan_def]
        exact hok p hp
  generalize hm1 : s.mach.memIssue s.sys h (.kstore h nt sc hs a b c) false none
    (fun _ t => (kOf ks t.id).plan) noWide memFin (kNums ks) = m1 at honly hfly
  have hcorr : Corrects m1 ((m1.issueOf s.mach.next).foldl (fun m f => m.keyFix q (kOf ks f.owner)) m1) :=
    Corrects.fold (fun m f => Corrects.fold (fun m x => by
      split
      · exact walkFix_corrects _ _ _ _
      · exact eccFix_corrects _ _ _ _) _ m) _ m1
  generalize hm2 : (m1.issueOf s.mach.next).foldl (fun m f => m.keyFix q (kOf ks f.owner)) m1 = m2 at hcorr
  have hexec : exec (.kstore h nt sc hs a b c) s = .next ({ s with mach := m2 } : State).settle := by
    refine congrArg (fun m => Host.Outcome.next ({ s with mach := m } : State).settle) ?_
    unfold Mach.withSlot Mach.withQ
    dsimp only
    rw [hq]
    dsimp only
    rw [hpending, if_neg Bool.false_ne_true, hslot]
    dsimp only
    rw [hwait, hheld, Bool.or_false, if_neg Bool.false_ne_true, hks, hown, ownTraps_none, ite_self, ← hm2, ← hm1]
    rfl
  refine ⟨_, hexec, honly.corrected hcorr, fun p hp => ?_⟩
  obtain ⟨f, hf, hof, hwrites, hgot, hissued⟩ := hfly p hp
  rw [hkof p hp, ← keyPlan_def] at hof hissued
  obtain ⟨x, y, rfl, -⟩ := hcorr
  exact ⟨f, hf, _, hof, hwrites, hgot, kstore_ops (hgood p hp).1 (hok p hp).1, hissued⟩

end Sys2Proof.Machine
end

section
/-! SUPPORT. The link step of a `kstore` (spec/17 R427, spec/07 R219, R220). -/

namespace Sys2Proof.Machine

/-! ### Accesses of the index by an instruction that has issued -/

theorem Corrects.idxAcc {m m' : Mach} (h : Corrects m m') (y : Sys) (t : Thread) (va len : Nat) (need : Need) :
    idxAcc y m' t va len need = Machine.idxAcc y m t va len need := by
  obtain ⟨a, b, rfl, -⟩ := h
  rfl

theorem Corrects.idxHeld {m m' : Mach} (h : Corrects m m') (t : Thread) (o : PendOp) (va loc len : Nat) :
    m'.idxHeld t o va loc len = m.idxHeld t o va loc len := by
  obtain ⟨a, b, rfl, -⟩ := h
  rfl

theorem Corrects.thr {m m' : Mach} (h : Corrects m m') (k : Nat) : m'.thr k = m.thr k := by
  obtain ⟨a, b, rfl, -⟩ := h
  rfl

theorem Corrects.num {m m' : Mach} (h : Corrects m m') (loc len : Nat) : m'.num loc len = m.num loc len := by
  obtain ⟨a, b, rfl, -⟩ := h
  rfl

/-- An access that goes through goes on, with the errors of its reads corrected. -/
theorem idx_passes {y : Sys} {m0 m : Mach} (hc : Corrects m0 m) {f : Flight} {o : PendOp} {va len : Nat} {need : Need} {loc attr : Nat}
    (k : Mach → Nat → Nat → Mach) (hacc : idxAcc y m0 (m0.thr f.owner) va len need = .ok loc attr)
    (hheld : m0.idxHeld (m0.thr f.owner) o va loc len = false) : ∃ m', Corrects m0 m' ∧ m.idx y f o va len need k = k m' loc attr := by
  refine ⟨_, hc.trans ((walkFix_corrects m (m.thr f.owner).core (m.eff (m.thr f.owner).launch) va).trans
    (eccFix_corrects _ (m.thr f.owner).core loc len)), ?_⟩
  unfold Mach.idx
  dsimp only
  rw [hc.thr, hc.idxAcc, hacc]
  dsimp only
  rw [hc.idxHeld, hheld, if_neg Bool.false_ne_true]

/-! ### Writes of the index -/

/-- Bytes are written to memory; its map and the threads stay. -/
structure Puts (m m' : Mach) (mem : Memory) : Prop where
  mem : m'.mem = mem
  pe0ep : m'.pe0ep = m.pe0ep
  threads : m'.threads = m.threads

theorem Puts.mapped {m m' : Mach} {mem : Memory} (h : Puts m m' mem) (loc : Nat) : m'.mapped loc = m.mapped loc := by
  unfold Mach.mapped Mach.inHost
  rw [h.pe0ep]

theorem Puts.trans {a b c : Mach} {mem mem' : Memory} (h : Puts a b mem) (h' : Puts b c mem') : Puts a c mem' :=
  ⟨h'.mem, h'.pe0ep.trans h.pe0ep, h'.threads.trans h.threads⟩

theorem threadStore_puts {m : Mach} {loc : Nat} (t : Thread) (fd : Nat) (o : PendOp) (va : Nat) (bs : List Byte)
    (hmap : m.mapped loc = false) : Puts m (m.threadStore t fd o loc va bs) (m.mem.put loc bs) := by
  unfold Mach.threadStore
  dsimp only
  obtain ⟨hstore, hmem⟩ := store_wrote bs (if o.stampOn then some (m.threadStamp t) else none) hmap
  generalize m.store loc bs (if o.stampOn then some (m.threadStamp t) else none) = m1 at hstore hmem
  have hrel : Puts m (m1.unrelease loc bs.length) (m.mem.put loc bs) := by
    refine ⟨hmem, ?_, ?_⟩
    · show m1.pe0ep = _
      rw [hstore.frame]
    · show m1.threads = _
      rw [hstore.frame]
  obtain ⟨hnote, hmemn⟩ := rcNote_wrote (m1.unrelease loc bs.length) fd va loc bs.length
  have hnoted : Puts m (if o.stampOn then (m1.unrelease loc bs.length).rcNote fd va loc bs.length else m1.unrelease loc bs.length)
      (m.mem.put loc bs) := by
    split
    · exact hrel.trans ⟨hmemn.trans hrel.mem, by rw [hnote.frame], by rw [hnote.frame]⟩
    · exact hrel
  split
  · exact hnoted.trans ⟨hnoted.mem, rfl, rfl⟩
  · exact hnoted

theorem idxStore_puts {m : Mach} {loc : Nat} (t : Thread) (va attr : Nat) (bs : List Byte) (hmap : m.mapped loc = false) :
    Puts m (m.idxStore t va loc attr bs) (m.mem.put loc bs) := threadStore_puts t _ _ va bs hmap

theorem linkRel_puts (m : Mach) (t : Thread) (sc el : Nat) : Puts m (m.linkRel t sc el) m.mem := by
  unfold Mach.linkRel Mach.bump
  split
  · unfold Mach.modWave
    cases (m.sync t.id sc true false (.loc el)).wave? t.wave with
    | none => exact ⟨rfl, rfl, rfl⟩
    | some w => exact ⟨rfl, rfl, rfl⟩
  · exact ⟨rfl, rfl, rfl⟩

theorem putTok_puts {m : Mach} {loc : Nat} (t : Thread) (sc va attr tok : Nat) (hmap : m.mapped loc = false) :
    Puts m (m.putTok t sc va loc attr tok) (m.mem.put loc (toBytes tok 4)) := by
  have hput := idxStore_puts t va attr (toBytes tok 4) hmap
  unfold Mach.putTok
  dsimp only
  split
  · exact hput.trans ⟨hput.mem, rfl, rfl⟩
  · exact hput

/-! ### The link -/

/-- Memory after a link that takes a new node: the node's count and its successor, the next free node, the bucket's first node, and the
node's token. -/
def linkedMem (mem : Memory) (dl el ml free tok : Nat) : Memory :=
  (((mem.put (ml + 56) (toBytes (1 + noNode * 2 ^ 32) 8)).put dl (toBytes (free + 1) 4)).put el (toBytes free 4)).put ml (toBytes tok 4)

/-- An operation that is done, its flight, and the threads of its issue. -/
theorem linked_gone (m : Mach) (t : Thread) (o : PendOp) (iss : Nat) : Calm m ((m.linked t o).settleIssue iss) ∧
    ∀ T ∈ ((m.linked t o).settleIssue iss).threads, T.id = t.id → ∀ u ∈ T.pend, u.oid ≠ o.oid := by
  have hrest : Calm (m.opDone t o []) ((m.linked t o).settleIssue iss) := (ifDone_calm memFin_calm).trans (settleIssue_calm _ iss)
  refine ⟨(opDone_calm m t o []).trans hrest, fun T hT hid u hu => ?_⟩
  obtain ⟨U, hU, hUid, hpend⟩ := hrest.pend T hT
  exact opDone_gone m t o [] U hU (hUid.trans hid) u (hpend u hu)

/-- What the step of a link that takes a new node finds. -/
structure LinkFound (s : State) (tid : Nat) (o : PendOp) (f : Flight) (dl da el ea ml ma : Nat) : Prop where
  own : f.owner = tid
  held1 : s.mach.idxHeld (s.mach.thr tid) o (nth f.nums 2) dl 64 = false
  held2 : s.mach.idxHeld (s.mach.thr tid) o (headEntry (nth f.nums 2) (nth f.nums 0)) el 4 = false
  held3 : s.mach.idxHeld (s.mach.thr tid) o ((headD (s.mach.num dl 64)).node (headD (s.mach.num dl 64)).free) ml 64 = false
  map : ∀ x ∈ [dl, el, ml, ml + 56, ml + 60], s.mach.mapped x = false
  acc1 : idxAcc s.sys s.mach (s.mach.thr tid) (nth f.nums 2) 64 .rw = .ok dl da
  acc2 : idxAcc s.sys s.mach (s.mach.thr tid) (headEntry (nth f.nums 2) (nth f.nums 0)) 4 .rw = .ok el ea
  empty : s.mach.num el 4 = noNode
  room : (headD (s.mach.num dl 64)).free < (headD (s.mach.num dl 64)).npool
  acc3 : idxAcc s.sys s.mach (s.mach.thr tid) ((headD (s.mach.num dl 64)).node (headD (s.mach.num dl 64)).free) 64 .rw = .ok ml ma

/-- The link of an empty bucket. -/
theorem link_takes {s : State} {tid : Nat} {o : PendOp} {f : Flight} {dl da el ea ml ma : Nat} (nt : Bool) (sc : Nat)
    (h : LinkFound s tid o f dl da el ea ml ma) : ∃ m1, s.mach.link s.sys f o nt sc = m1.linked (s.mach.thr tid) o ∧
      Puts s.mach m1 (linkedMem s.mach.mem dl el ml (headD (s.mach.num dl 64)).free (nth f.nums 1)) := by
  obtain ⟨rfl, hheld1, hheld2, hheld3, hmap, hacc1, hacc2, hempty, hroom, hacc3⟩ := h
  unfold Mach.link
  dsimp only
  obtain ⟨m1, hc1, hidx1⟩ := idx_passes (Corrects.refl s.mach) (f := f) (o := o) _ hacc1 hheld1
  rw [hidx1]
  obtain ⟨m2, hc2, hidx2⟩ := idx_passes hc1 (f := f) (o := o) _ hacc2 hheld2
  rw [hidx2, hc2.num, hc2.num, if_pos hempty, if_pos hroom, hempty]
  obtain ⟨m3, hc3, hidx3⟩ := idx_passes hc2 (f := f) (o := o) _ hacc3 hheld3
  rw [hidx3]
  refine ⟨_, rfl, ?_⟩
  have h3 : Puts s.mach m3 s.mach.mem := by
    obtain ⟨a, b, rfl, -⟩ := hc3
    exact ⟨rfl, rfl, rfl⟩
  generalize hT : s.mach.thr f.owner = T
  generalize hH : headD (s.mach.num dl 64) = H
  have h4 := h3.trans (linkRel_puts m3 T sc el)
  generalize m3.linkRel T sc el = m4 at h4
  have h5 := h4.trans (idxStore_puts (m := m4) (loc := ml + 56) T (H.node H.free + 56) ma (toBytes (1 + noNode * 2 ^ 32) 8)
    (by rw [h4.mapped]; exact hmap _ (by simp)))
  generalize m4.idxStore T (H.node H.free + 56) (ml + 56) ma (toBytes (1 + noNode * 2 ^ 32) 8) = m5 at h5 ⊢
  have h6 := h5.trans (idxStore_puts (m := m5) (loc := dl) T (nth f.nums 2) da (toBytes (H.free + 1) 4)
    (by rw [h5.mapped]; exact hmap _ (by simp)))
  generalize m5.idxStore T (nth f.nums 2) dl da (toBytes (H.free + 1) 4) = m6 at h6 ⊢
  have h7 := h6.trans (idxStore_puts (m := m6) (loc := el) T (headEntry (nth f.nums 2) (nth f.nums 0)) ea (toBytes H.free 4)
    (by rw [h6.mapped]; exact hmap _ (by simp)))
  generalize m6.idxStore T (headEntry (nth f.nums 2) (nth f.nums 0)) el ea (toBytes H.free 4) = m7 at h7 ⊢
  have h8 := h7.trans (putTok_puts (m := m7) (loc := ml) T sc (H.node H.free) ma (nth f.nums 1)
    (by rw [h7.mapped]; exact hmap _ (by simp)))
  rw [h7.mem, h6.mem, h5.mem, h4.mem, h3.mem] at h8
  exact h8

/-! ### What memory holds after the link -/

theorem linkedMem_read {mem : Memory} (dl el ml free tok : Nat) (hwf : mem.wf = true) (x : Nat) :
    (linkedMem mem dl el ml free tok).read x = if ml ≤ x ∧ x < ml + 4 then (toBytes tok 4).getD (x - ml) 0
      else if el ≤ x ∧ x < el + 4 then (toBytes free 4).getD (x - el) 0
      else if dl ≤ x ∧ x < dl + 4 then (toBytes (free + 1) 4).getD (x - dl) 0
      else if ml + 56 ≤ x ∧ x < ml + 64 then (toBytes (1 + noNode * 2 ^ 32) 8).getD (x - (ml + 56)) 0 else mem.read x := by
  have h1 := Memory.wf_put mem (ml + 56) (toBytes (1 + noNode * 2 ^ 32) 8) hwf
  have h2 := Memory.wf_put _ dl (toBytes (free + 1) 4) h1
  have h3 := Memory.wf_put _ el (toBytes free 4) h2
  unfold linkedMem
  rw [Memory.read_put _ _ _ _ h3, Memory.read_put _ _ _ _ h2, Memory.read_put _ _ _ _ h1, Memory.read_put _ _ _ _ hwf, toBytes_length,
    toBytes_length, toBytes_length, toBytes_length]

/-- A number that has been put into memory is read again. -/
theorem num_put {m : Mach} {a n i len size : Nat} (hmap : m.mapped (a + i) = false) (hfit : i + len ≤ size)
    (hread : ∀ j, j < size → m.mem.read (a + j) = (toBytes n size).getD j 0) : m.num (a + i) len = n / 256 ^ i % 256 ^ len :=
  num_stored hmap hfit fun j hj => by rw [hread j hj, toBytes_getD size n j hj]

/-- What the link leaves in memory. -/
theorem linked_words {m : Mach} {mem : Memory} {dl el ml free tok : Nat} (hwf : mem.wf = true) (hmem : m.mem = linkedMem mem dl el ml free tok)
    (hmap : ∀ x ∈ [dl, el, ml, ml + 56, ml + 60], m.mapped x = false) (hfree : free < 2 ^ 32)
    (h1 : ml + 64 ≤ dl ∨ dl + 64 ≤ ml) (h2 : el + 4 ≤ dl ∨ dl + 64 ≤ el) (h3 : el + 4 ≤ ml ∨ ml + 64 ≤ el) :
    m.num el 4 = free ∧ m.num dl 4 = (free + 1) % 2 ^ 32 ∧ m.num ml 4 = tok % 2 ^ 32 ∧ m.num (ml + 56) 4 = 1 ∧
      m.num (ml + 60) 4 = 0xFFFFFFFF ∧ ∀ x, (x < dl ∨ dl + 4 ≤ x) → (x < el ∨ el + 4 ≤ x) → (x < ml ∨ ml + 4 ≤ x) →
        (x < ml + 56 ∨ ml + 64 ≤ x) → m.mem.read x = mem.read x := by
  have hread := linkedMem_read dl el ml free tok hwf
  rw [← hmem] at hread
  refine ⟨?_, ?_, ?_, ?_, ?_, fun x hd he hm hn => ?_⟩
  · refine (num_put (a := el) (i := 0) (n := free) (size := 4) (hmap _ (by simp)) (by decide) fun j hj => ?_).trans ?_
    · rw [hread, if_neg (by omega), if_pos (by omega), Nat.add_sub_cancel_left]
    · rw [Nat.pow_zero, Nat.div_one, Nat.mod_eq_of_lt (by omega)]
  · refine (num_put (a := dl) (i := 0) (n := free + 1) (size := 4) (hmap _ (by simp)) (by decide) fun j hj => ?_).trans ?_
    · rw [hread, if_neg (by omega), if_neg (by omega), if_pos (by omega), Nat.add_sub_cancel_left]
    · rw [Nat.pow_zero, Nat.div_one]
      rfl
  · refine (num_put (a := ml) (i := 0) (n := tok) (size := 4) (hmap _ (by simp)) (by decide) fun j hj => ?_).trans ?_
    · rw [hread, if_pos (by omega), Nat.add_sub_cancel_left]
    · rw [Nat.pow_zero, Nat.div_one]
      rfl
  · refine (num_put (a := ml + 56) (i := 0) (n := 1 + noNode * 2 ^ 32) (size := 8) (hmap _ (by simp)) (by decide) fun j hj => ?_).trans rfl
    rw [hread, if_neg (by omega), if_neg (by omega), if_neg (by omega), if_pos (by omega), Nat.add_sub_cancel_left]
  · refine (num_put (a := ml + 56) (i := 4) (n := 1 + noNode * 2 ^ 32) (size := 8) (hmap _ (by simp)) (by decide) fun j hj => ?_).trans rfl
    rw [hread, if_neg (by omega), if_neg (by omega), if_neg (by omega), if_pos (by omega), Nat.add_sub_cancel_left]
  · rw [hread, if_neg (by omega), if_neg (by omega), if_neg (by omega), if_neg (by omega)]

theorem free_lt (n : Nat) (h : (headD n).free < (headD n).npool) : (headD n).free < 2 ^ 32 :=
  Nat.lt_trans h (Nat.mod_lt _ (by decide))

/-- Settles O16, a `kstore` being an issue of accesses whose reads correct errors, and its link the writes of four words. -/
theorem keyIndexWrites : Obligations.KeyIndexWrites := by
  unfold Obligations.KeyIndexWrites
  intro h nt sc hs a b c
  refine ⟨fun g => kstore_issues h nt sc hs a b c g, fun tid oid o f dl da el ea ml ma s _ hfound => ?_⟩
  obtain ⟨hsome, hfind, hflight, hinstr, hown, hkind, hmay, hfirst, hheld1, hheld2, hheld3, hmap, hacc1, hacc2, hempty, hroom, hacc3, -, hwf,
    h1, h2, h3⟩ := hfound
  obtain ⟨m1, hlink, hputs⟩ := link_takes nt sc.code ⟨hown, hheld1, hheld2, hheld3, hmap, hacc1, hacc2, hempty, hroom, hacc3⟩
  obtain ⟨hcalm, hgone⟩ := linked_gone m1 (s.mach.thr tid) o f.iss
  rw [← hlink] at hcalm hgone
  have hexec : exec (.kstoreLinkStep tid oid) s =
      .next ({ s with mach := (s.mach.link s.sys f o nt sc.code).settleIssue f.iss } : State).settle := by
    refine congrArg (fun m => Host.Outcome.next ({ s with mach := m } : State).settle) ?_
    dsimp only
    rw [hfind]
    dsimp only
    rw [hflight]
    dsimp only
    rw [hinstr]
    dsimp only
    rw [hfirst, hkind, hmay]
    exact if_neg (by simp)
  have hid : (s.mach.thr tid).id = tid := thr_id hsome
  have hleft : ∀ u ∈ (((s.mach.link s.sys f o nt sc.code).settleIssue f.iss).thr tid).pend, u.oid ≠ o.oid := fun u hu => by
    rcases thr_mem ((s.mach.link s.sys f o nt sc.code).settleIssue f.iss) tid with ⟨hmem, hthr⟩ | hnone
    · exact hgone _ hmem (hthr.trans hid.symm) u hu
    · rw [hnone] at hu
      exact absurd hu List.not_mem_nil
  generalize (s.mach.link s.sys f o nt sc.code).settleIssue f.iss = m2 at hexec hcalm hleft
  have hoid : o.oid = oid := beq_iff_eq.1 (List.find?_some hfind :)
  obtain ⟨hel, hdl, hml, hcount, hnext, hrest⟩ := linked_words hwf (hcalm.mem.trans hputs.mem)
    (fun x hx => by rw [hcalm.mapped, hputs.mapped]; exact hmap x hx) (free_lt _ hroom) h1 h2 h3
  refine ⟨_, hexec, hel, hdl, hml, hcount, hnext, hrest, fun u hu => ?_⟩
  rw [← hoid]
  exact hleft u hu

end Sys2Proof.Machine
end

section
/-! SUPPORT. What follows an operation that performs: results, tile operations, withdrawals (spec/07 R203, spec/16 R387, spec/06 R179). -/

namespace Sys2Proof.Machine

/-! ### What follows leaves memory -/

theorem finStep_calm (m : Mach) (f : Flight) : Calm m (finStep m f) := by
  have htopk : Calm m (topkFin m f) := by
    unfold topkFin
    split
    · exact setFlight_calm _ _
    · exact .refl m
  have hnarrow : Calm m (narrowFin m f) := by
    unfold narrowFin
    split
    · exact setFlight_calm _ _
    · exact setFlight_calm _ _
    · exact setFlight_calm _ _
    · exact .refl m
  unfold finStep
  split
  · exact htopk
  · exact htopk
  · exact hnarrow
  · exact hnarrow
  · exact hnarrow
  · unfold fibldFin
    split
    · exact .still rfl rfl rfl rfl rfl
    · exact .refl m
  · unfold tmldFin
    split
    · split
      · exact .still rfl rfl rfl rfl rfl
      · exact failAll_calm m _ _
    · exact .refl m
  · exact setFlight_calm _ _
  · exact setFlight_calm _ _
  · exact setFlight_calm _ _
  · unfold qsigFin
    split
    · exact setFlight_calm _ _
    · exact .refl m
  · exact memFin_calm m f

theorem unissue_calm (m : Mach) (iss : Nat) : Calm m (m.unissue iss) := by
  unfold Mach.unissue
  dsimp only
  cases m.groupOf iss with
  | nil => exact .refl m
  | cons f fs =>
    refine Calm.trans (b := { m with flights := m.flights.filter fun g => g.iss != iss }) (.still rfl rfl rfl rfl rfl)
      (modAll_calm _ _ (fun t => ?_) fun t u hu => ?_)
    · split <;> rfl
    · split at hu <;> exact (List.mem_filter.1 hu).1

theorem failGroup_calm (m : Mach) (iss cause va : Nat) (waitBit : Bool) : Calm m (m.failGroup iss cause va waitBit) := by
  unfold Mach.failGroup
  cases m.groupOf iss with
  | nil => exact .refl m
  | cons f fs => exact (unissue_calm m iss).trans (raise_calm _ _ _ _ _ _ _ _ _ _)

theorem matEffect_calm (m : Mach) (f : Flight) (t : Nat) : Calm m (m.matEffect f t) := by
  unfold Mach.matEffect
  dsimp only
  split
  · exact failGroup_calm m _ _ _ _
  · split
    · exact failGroup_calm m _ _ _ _
    · exact .still rfl rfl rfl rfl rfl

theorem tileEffect_calm (m : Mach) (f : Flight) : Calm m (m.tileEffect f) := by
  unfold Mach.tileEffect
  split
  · exact .still rfl rfl rfl rfl rfl
  · exact .still rfl rfl rfl rfl rfl
  · exact matEffect_calm m f _
  · exact matEffect_calm m f _
  · exact .refl m

theorem tilePump_calm (core n : Nat) : ∀ m : Mach, Calm m (m.tilePump core n) := by
  induction n with
  | zero => exact Calm.refl
  | succ n ih =>
    intro m
    unfold Mach.tilePump
    split
    · exact .refl m
    · exact (tileEffect_calm m _).trans (ih _)

theorem closeShares_calm (m : Mach) : Calm m m.closeShares := by
  unfold Mach.closeShares
  dsimp only
  split
  · exact .refl m
  · exact (Calm.fold (step := fun (m : Mach) (w : Wave) => m.withdrawn w.id) (fun m w => .still rfl rfl rfl rfl rfl) _ m).trans (.still rfl rfl rfl rfl rfl)

/-! ### An operation that performs alone -/

/-- What follows the act of an operation: the end of its flight, the causes of its issue, the tile operations of its core, and the withdrawals
that waited for it. -/
def Mach.acted (m : Mach) (tid uid iss core : Nat) : Mach :=
  (((m.ifDone tid uid finStep).settleIssue iss).pump core).closeShares

theorem acted_calm (m : Mach) (tid uid iss core : Nat) : Calm m (m.acted tid uid iss core) :=
  (((ifDone_calm finStep_calm).trans (settleIssue_calm _ iss)).trans (tilePump_calm core _ _)).trans (closeShares_calm _)

/-- The cores that are woken. -/
theorem wakeAt_cores (locs : List Nat) : ∀ m : Mach, ∃ c, locs.foldl Mach.wakeAt m = { m with cores := c } := by
  induction locs with
  | nil => exact fun m => ⟨m.cores, rfl⟩
  | cons l locs ih =>
    intro m
    have hone : ∃ c, m.wakeAt l = { m with cores := c } := by
      unfold Mach.wakeAt Mach.wakeCore
      split
      · split
        · exact ⟨_, rfl⟩
        · exact ⟨_, rfl⟩
        · exact ⟨m.cores, rfl⟩
      · exact ⟨m.cores, rfl⟩
    obtain ⟨c, hc⟩ := hone
    obtain ⟨c', hc'⟩ := ih (m.wakeAt l)
    exact ⟨c', by rw [List.foldl_cons, hc', hc]⟩

/-- Some cores are woken, and nothing else happens. -/
def Woken (m m0 : Mach) : Prop := ∃ c, m0 = { m with cores := c }

/-- AN OPERATION PERFORMS, alone and on this device: it acts, and what follows leaves memory. -/
theorem perform_acts {s : State} {tid oid : Nat} {o : PendOp} {f : Flight} (ins : Bool) (hoid : o.oid = oid) (h : PerformsNext s tid o f) :
    ∃ m0, Woken s.mach m0 ∧ exec (.accessPerform tid oid ins) s = .next (s.withMach
      ((m0.act (s.mach.thr tid) o ins (wideStep s.sys)).acted tid o.uid f.iss (s.mach.thr tid).core)).settle := by
  obtain ⟨hsome, hfind, hflight, hmay, hcomb, -, -, -, hremote, hhost, -, -⟩ := h
  rw [hoid] at hfind
  obtain ⟨c, hc⟩ := wakeAt_cores (o.loc :: o.loc2 :: o.parts.map fun (p : Nat × Nat × Nat) => p.2.1) s.mach
  refine ⟨_, ⟨c, rfl⟩, congrArg (fun m => Host.Outcome.next ({ s with mach := m } : State).settle) ?_⟩
  show s.mach.perform s.sys tid oid ins = _
  unfold Mach.perform Mach.acted
  dsimp only
  rw [hfind]
  dsimp only
  rw [hc]
  refine congrArg (fun m : Mach => (m.pump (s.mach.thr tid).core).closeShares) ?_
  unfold Mach.performOp
  rw [show ({ s.mach with cores := c } : Mach).thr tid = s.mach.thr tid from rfl, hfind]
  dsimp only
  rw [show ({ s.mach with cores := c } : Mach).combined tid o = s.mach.combined tid o from rfl, hcomb,
    show ({ s.mach with cores := c } : Mach).flight? o.uid = s.mach.flight? o.uid from rfl, hflight]
  refine (if_neg ?_).trans ?_
  · rw [List.any_cons, List.any_nil, Bool.or_false, show ({ s.mach with cores := c } : Mach).mayPerform tid o = s.mach.mayPerform tid o from rfl,
      hmay]
    exact Bool.false_ne_true
  · rw [hremote, Bool.false_and, if_neg Bool.false_ne_true, List.foldl_cons, List.foldl_nil]
    refine congrArg (fun m : Mach => (m.ifDone tid o.uid finStep).settleIssue f.iss) ?_
    unfold Mach.performOne
    refine if_pos ?_
    rw [hremote, show ({ s.mach with cores := c } : Mach).toHost o = s.mach.toHost o from rfl, hhost]
    rfl

/-! ### Operations that are done -/

/-- An act that ends with its operation done leaves it in no pending set of its thread, whatever follows. -/
theorem acted_gone (m : Mach) (t : Thread) (o : PendOp) (got : List Byte) (tid uid iss core : Nat) :
    Calm m ((m.opDone t o got).acted tid uid iss core) ∧
    ∀ u ∈ (((m.opDone t o got).acted tid uid iss core).thr t.id).pend, u.oid ≠ o.oid := by
  have hrest := acted_calm (m.opDone t o got) tid uid iss core
  refine ⟨(opDone_calm m t o got).trans hrest, fun u hu => ?_⟩
  rcases thr_mem ((m.opDone t o got).acted tid uid iss core) t.id with ⟨hmem, hid⟩ | hnone
  · obtain ⟨U, hU, hUid, hpend⟩ := hrest.pend _ hmem
    exact opDone_gone m t o got U hU (hUid.trans hid) u (hpend u hu)
  · rw [hnone] at hu
    exact absurd hu List.not_mem_nil

/-- The steps of an operation up to where it is done: what memory then holds, and that flights stay. -/
structure Aside (m m' : Mach) (mem : Memory) : Prop where
  mem : m'.mem = mem
  pe0ep : m'.pe0ep = m.pe0ep
  flights : m'.flights = m.flights

theorem Aside.refl (m : Mach) : Aside m m m.mem := ⟨rfl, rfl, rfl⟩

theorem Aside.trans {a b c : Mach} {mem mem' : Memory} (h : Aside a b mem) (h' : Aside b c mem') : Aside a c mem' :=
  ⟨h'.mem, h'.pe0ep.trans h.pe0ep, h'.flights.trans h.flights⟩

theorem Aside.mapped {m m' : Mach} {mem : Memory} (h : Aside m m' mem) (loc : Nat) : m'.mapped loc = m.mapped loc := by
  unfold Mach.mapped Mach.inHost
  rw [h.pe0ep]

theorem Wrote.aside {m m' : Mach} (h : Wrote m m') : Aside m m' m'.mem := by
  refine ⟨rfl, ?_, ?_⟩
  · rw [h.frame]
  · rw [h.frame]

theorem threadStore_aside {m : Mach} {loc : Nat} (t : Thread) (fd : Nat) (o : PendOp) (va : Nat) (bs : List Byte)
    (hmap : m.mapped loc = false) : Aside m (m.threadStore t fd o loc va bs) (m.mem.put loc bs) := by
  have hput := threadStore_puts t fd o va bs hmap
  refine ⟨hput.mem, hput.pe0ep, ?_⟩
  unfold Mach.threadStore
  dsimp only
  obtain ⟨hstore, -⟩ := store_wrote bs (if o.stampOn then some (m.threadStamp t) else none) hmap
  generalize m.store loc bs (if o.stampOn then some (m.threadStamp t) else none) = m1 at hstore
  have h1 : (m1.unrelease loc bs.length).flights = m.flights := by
    show m1.flights = _
    rw [hstore.frame]
  have h2 : (if o.stampOn then (m1.unrelease loc bs.length).rcNote fd va loc bs.length else m1.unrelease loc bs.length).flights =
      m.flights := by
    split
    · rw [(rcNote_wrote (m1.unrelease loc bs.length) fd va loc bs.length).1.frame]
      exact h1
    · exact h1
  split
  · exact h2
  · exact h2

theorem devStore_aside {m : Mach} {loc : Nat} (bs : List Byte) (hmap : m.mapped loc = false) :
    Aside m (m.devStore loc bs) (m.mem.put loc bs) := ⟨devStore_put bs hmap, rfl, rfl⟩

/-! ### What memory holds after a store -/

/-- Bytes put at a location stand there, and others stay. -/
theorem stored_put {s t : State} {loc : Nat} {bs : List Byte} (hwf : s.mach.mem.wf = true) (hmem : t.mach.mem = s.mach.mem.put loc bs) :
    Stored s t loc bs := by
  refine ⟨fun i hi => ?_, fun a ha => ?_⟩
  · rw [hmem, Memory.read_put _ _ _ _ hwf, if_pos (by omega), Nat.add_sub_cancel_left]
  · rw [hmem, Memory.read_put _ _ _ _ hwf, if_neg (by omega)]

theorem near_unmapped {m : Mach} {o : PendOp} (hhost : m.toHost o = false) (hcxl : pkind o.loc ≠ .cxl) : m.mapped o.loc = false := by
  have hin : m.inHost o.loc = false := (Bool.or_eq_false_iff.1 hhost).1
  unfold Mach.mapped
  rw [hin, Bool.or_false]
  exact beq_eq_false_iff_ne.2 hcxl

theorem badWrite_sound {m : Mach} {loc : Nat} (len : Nat) (hdouble : m.eccDouble = []) (hmap : m.mapped loc = false) :
    badWrite m loc len = false := by
  unfold badWrite
  rw [eccBlocks_sound _ _ hdouble, hmap]
  rfl

theorem badRange_sound {m : Mach} {loc : Nat} (len : Nat) (hdouble : m.eccDouble = []) (hmap : m.mapped loc = false) :
    badRange m loc len = false := by
  unfold badRange
  rw [eccBad_sound _ _ hdouble, hmap]
  rfl

/-- A machine after it has woken cores for an operation that performs next. -/
structure Ready (s : State) (o : PendOp) (m : Mach) : Prop where
  mem : m.mem = s.mach.mem
  pe0ep : m.pe0ep = s.mach.pe0ep
  flights : m.flights = s.mach.flights
  copies : m.copies = s.mach.copies
  single : m.eccSingle = []
  double : m.eccDouble = []
  near : m.toHost o = false

theorem Woken.ready {s : State} {tid : Nat} {o : PendOp} {f : Flight} {m : Mach} (hw : Woken s.mach m) (h : PerformsNext s tid o f) :
    Ready s o m := by
  obtain ⟨-, -, -, -, -, -, hdouble, hsingle, -, hhost, -, -⟩ := h
  obtain ⟨c, rfl⟩ := hw
  exact ⟨rfl, rfl, rfl, rfl, hsingle, hdouble, hhost⟩

/-- What such a step leaves in memory, and that its operation is gone: `m1` is what the act leaves before the operation is done. -/
theorem perform_leaves {s : State} {tid oid : Nat} {o : PendOp} {f : Flight} {ins : Bool} {mem : Memory} {got : List Byte}
    (P : List CopyLine → Prop) (hoid : o.oid = oid) (h : PerformsNext s tid o f) (hact : ∀ m0, Woken s.mach m0 → ∃ m1 : Mach,
      Aside m0 m1 mem ∧ P m1.copies ∧ m0.act (s.mach.thr tid) o ins (wideStep s.sys) = m1.opDone (s.mach.thr tid) o got) :
    ∃ t, exec (.accessPerform tid oid ins) s = .next t ∧ t.mach.mem = mem ∧ t.mach.pe0ep = s.mach.pe0ep ∧ P t.mach.copies ∧
      Gone t tid oid := by
  obtain ⟨m0, hw, hexec⟩ := perform_acts ins hoid h
  obtain ⟨m1, haside, hcopies, hacts⟩ := hact m0 hw
  rw [hacts] at hexec
  obtain ⟨hcalm, hgone⟩ := acted_gone m1 (s.mach.thr tid) o got tid o.uid f.iss (s.mach.thr tid).core
  rw [hoid, thr_id h.1] at hgone
  generalize (m1.opDone (s.mach.thr tid) o got).acted tid o.uid f.iss (s.mach.thr tid).core = m2 at *
  exact ⟨_, hexec, hcalm.mem.trans haside.mem, hcalm.pe0ep.trans (haside.pe0ep.trans (hw.ready h).pe0ep),
    hcalm.copies ▸ hcopies, hgone⟩

/-! ### Results of operations -/

theorem flight?_setFlight (m : Mach) (g : Flight) (k : Nat) :
    (m.setFlight g).flight? k = if g.uid = k then (m.flight? k).map fun _ => g else m.flight? k := find?_replace Flight.uid m.flights g k

/-- No flight has failed, no tile operation waits on the core, and the flight holds what it has read. -/
structure HasGot (m : Mach) (uid core : Nat) (i : Instr) (got : List (Nat × List Byte)) : Prop where
  failed : ∀ g ∈ m.flights, g.failed = none
  waits : m.tileWaits core = []
  flight : ∃ g, m.flight? uid = some g ∧ g.got = got ∧ g.instr = i

theorem HasGot.set {m : Mach} {uid core : Nat} {i : Instr} {got : List (Nat × List Byte)} (h : HasGot m uid core i got) {g : Flight}
    {got' : List (Nat × List Byte)} (hfailed : g.failed = none) (huid : g.uid = uid) (hinstr : g.instr = i) (hgot : g.got = got')
    (hi : tileOf? i = none) : HasGot (m.setFlight g) uid core i got' where
  failed u hu := by
    obtain ⟨v, hv, rfl⟩ := List.mem_map.1 hu
    split
    · exact hfailed
    · exact h.failed v hv
  waits := by
    have hwaits := h.waits
    unfold Mach.tileWaits at hwaits ⊢
    rw [List.filter_eq_nil_iff] at hwaits ⊢
    intro u hu
    obtain ⟨v, hv, rfl⟩ := List.mem_map.1 hu
    split
    · rw [hinstr, hi]
      simp
    · exact hwaits v hv
  flight := by
    obtain ⟨v, hv, -⟩ := h.flight
    exact ⟨g, by rw [flight?_setFlight, if_pos huid, hv, Option.map_some], hgot, hinstr⟩

/-- An instruction whose end is its result. -/
def Answers (i : Instr) : Prop :=
  tileOf? i = none ∧ ∀ m (f : Flight), f.instr = i → ∃ ws xs, finStep m f = m.setFlight { f with writes := ws, xres := xs }

theorem HasGot.done {m : Mach} {uid core : Nat} {i : Instr} {got : List (Nat × List Byte)} (h : HasGot m uid core i got) (hi : Answers i)
    (tid : Nat) : HasGot (m.ifDone tid uid finStep) uid core i got := by
  obtain ⟨g, hg, hgot, hinstr⟩ := h.flight
  have hfailed := h.failed g (List.mem_of_find?_eq_some hg)
  have huid : g.uid = uid := flight?_id hg
  unfold Mach.ifDone
  rw [hg]
  dsimp only
  split
  · exact h
  · split
    · exact h
    · obtain ⟨ws, xs, hfin⟩ := hi.2 (m.setFlight { g with done := true }) { g with done := true } hinstr
      rw [hfin]
      exact (h.set (g := { g with done := true }) hfailed huid hinstr hgot hi.1).set hfailed huid hinstr hgot hi.1

theorem settleIssue_none {m : Mach} (iss : Nat) (h : ∀ g ∈ m.flights, g.failed = none) : m.settleIssue iss = m := by
  have hbad : (m.flights.filter fun f => f.iss == iss).filter (fun f => f.failed.isSome) = [] := List.filter_eq_nil_iff.2 fun g hg => by
    rw [h g (List.mem_filter.1 hg).1]
    exact Bool.false_ne_true
  unfold Mach.settleIssue
  dsimp only
  rw [hbad]
  exact if_pos rfl

theorem pump_none {m : Mach} {core : Nat} (h : m.tileWaits core = []) : m.pump core = m := by
  unfold Mach.pump
  rw [h]
  unfold Mach.tilePump
  rw [h]
  rfl

theorem closeShares_flights (m : Mach) : m.closeShares.flights = m.flights := by
  unfold Mach.closeShares
  dsimp only
  split
  · rfl
  · show (List.foldl (fun (m : Mach) (w : Wave) => m.withdrawn w.id) m _).flights = _
    rename_i hne
    clear hne
    generalize m.waves.filter _ = ws
    induction ws generalizing m with
    | nil => rfl
    | cons w ws ih => exact ih (m.withdrawn w.id)

theorem HasGot.acted {m : Mach} {uid core : Nat} {i : Instr} {got : List (Nat × List Byte)} (h : HasGot m uid core i got) (hi : Answers i)
    (tid iss : Nat) : ∃ g, (m.acted tid uid iss core).flight? uid = some g ∧ g.got = got := by
  have hdone := h.done hi tid
  obtain ⟨g, hg, hgot, -⟩ := hdone.flight
  refine ⟨g, ?_, hgot⟩
  unfold Mach.acted
  rw [settleIssue_none _ hdone.failed, pump_none hdone.waits]
  unfold Mach.flight? at hg ⊢
  rw [closeShares_flights]
  exact hg

/-- What a load or an atomic brings to its flight. -/
theorem perform_brings {s : State} {tid oid : Nat} {o : PendOp} {f : Flight} {ins : Bool} {mem : Memory} {got : List Byte}
    (P : List CopyLine → Prop) (hoid : o.oid = oid) (h : PerformsNext s tid o f) (hi : Answers f.instr)
    (hact : ∀ m0, Woken s.mach m0 → ∃ m1 : Mach, Aside m0 m1 mem ∧ P m1.copies ∧
      m0.act (s.mach.thr tid) o ins (wideStep s.sys) = m1.opDone (s.mach.thr tid) o got) :
    ∃ t, exec (.accessPerform tid oid ins) s = .next t ∧ t.mach.mem = mem ∧ t.mach.pe0ep = s.mach.pe0ep ∧ P t.mach.copies ∧
      Gone t tid oid ∧ ∃ g, t.mach.flight? o.uid = some g ∧ g.got = f.got ++ [(o.tag, got)] := by
  obtain ⟨m0, hw, hexec⟩ := perform_acts ins hoid h
  obtain ⟨m1, haside, hcopies, hacts⟩ := hact m0 hw
  rw [hacts] at hexec
  obtain ⟨hcalm, hgone⟩ := acted_gone m1 (s.mach.thr tid) o got tid o.uid f.iss (s.mach.thr tid).core
  rw [hoid, thr_id h.1] at hgone
  have hready := hw.ready h
  obtain ⟨-, -, hflight, -, -, hfailed, -, -, -, -, -, hwaits⟩ := h
  have hflights : m1.flights = s.mach.flights := haside.flights.trans hready.flights
  have hbrings : HasGot (m1.opDone (s.mach.thr tid) o got) o.uid (s.mach.thr tid).core f.instr (f.got ++ [(o.tag, got)]) := by
    generalize hm2 : m1.modThr (s.mach.thr tid).id (fun u => { u with pend := u.pend.filter fun p => p.oid != o.oid }) = m2
    have hflights2 : m2.flights = s.mach.flights := by rw [← hm2]; exact hflights
    have hf2 : m2.flight? o.uid = some f := by
      unfold Mach.flight? at hflight ⊢
      rw [hflights2]
      exact hflight
    have hold : HasGot m2 o.uid (s.mach.thr tid).core f.instr f.got :=
      ⟨hflights2 ▸ hfailed, by unfold Mach.tileWaits at hwaits ⊢; rw [hflights2]; exact hwaits, f, hf2, rfl, rfl⟩
    have hdone : m1.opDone (s.mach.thr tid) o got = m2.setFlight { f with got := f.got ++ [(o.tag, got)] } := by
      unfold Mach.opDone
      rw [hm2]
      dsimp only
      rw [hf2]
    rw [hdone]
    exact hold.set (hfailed f (List.mem_of_find?_eq_some hflight)) (show f.uid = o.uid from flight?_id hflight) rfl rfl hi.1
  obtain ⟨g, hg, hgot⟩ := hbrings.acted hi tid f.iss
  generalize (m1.opDone (s.mach.thr tid) o got).acted tid o.uid f.iss (s.mach.thr tid).core = m2 at *
  exact ⟨_, hexec, hcalm.mem.trans haside.mem, hcalm.pe0ep.trans (haside.pe0ep.trans hready.pe0ep), hcalm.copies ▸ hcopies, hgone, g, hg, hgot⟩

end Sys2Proof.Machine
end

section
/-! SUPPORT. What one operation of memory does when it performs (spec/07 R203-R206, spec/15 R365, R369-R372). -/

namespace Sys2Proof.Machine

/-! ### Stores, loads and fences -/

theorem store_act {m : Mach} {T : Thread} {o : PendOp} {bs : List Byte} (ins : Bool) (wide : Mach → Thread → Flight → PendOp → Mach)
    (hkind : o.kind = .store bs) (hdouble : m.eccDouble = []) (hmap : m.mapped o.loc = false) :
    ∃ m1 : Mach, Aside m m1 (m.mem.put o.loc bs) ∧ m.act T o ins wide = m1.opDone T o [] := by
  refine ⟨m.threadStore T (m.eff T.launch).fdom o o.loc o.va bs, threadStore_aside T _ o o.va bs hmap, ?_⟩
  unfold Mach.act
  rw [hkind]
  refine if_neg ?_
  rw [badWrite_sound o.len hdouble hmap]
  exact Bool.false_ne_true

theorem load_act {m : Mach} {T : Thread} {o : PendOp} (ins : Bool) (wide : Mach → Thread → Flight → PendOp → Mach)
    (hkind : o.kind = .load false) (hsingle : m.eccSingle = []) (hgood : badRange m o.loc o.len = false) :
    m.act T o ins wide = m.opDone T o (m.bytes o.loc o.len) := by
  unfold Mach.act
  rw [hkind]
  dsimp only
  rw [Bool.false_and, if_neg Bool.false_ne_true, hgood, if_neg Bool.false_ne_true, eccFix_sound _ _ _ hsingle, if_neg Bool.false_ne_true]

/-- A load that finds a copy reads it. -/
theorem copied_act {m : Mach} {T : Thread} {o : PendOp} {c : CopyLine} (ins : Bool) (wide : Mach → Thread → Flight → PendOp → Mach)
    (hkind : o.kind = .load true) (herr : c.err = 0) (hcopy : m.copyAt T.core (m.eff T.launch).fdom (o.va / 64) = some c) :
    m.act T o ins wide = m.opDone T o ((c.bytes.drop (o.va % 64)).take o.len) := by
  have hread : m.readCached T.core (m.eff T.launch).fdom o.va o.loc o.len false = (m, (c.bytes.drop (o.va % 64)).take o.len) := by
    have hfix : m.copyFix T.core (m.eff T.launch).fdom (o.va / 64) = m := by
      unfold Mach.copyFix
      rw [hcopy]
      exact if_pos herr
    unfold Mach.readCached
    dsimp only
    rw [hfix, hcopy]
  unfold Mach.act
  rw [hkind]
  dsimp only
  rw [hcopy]
  refine (if_pos ?_).trans ?_
  · rw [Option.any_some, herr]
    rfl
  · rw [hread]

theorem learn_aside (m : Mach) (b a q : Nat) : ∃ w, m.learn b a q = { m with waves := w } := by
  have hwave : ∀ (k : Nat) (g : Wave → Wave), ∃ w, m.modWave k g = { m with waves := w } := fun k g => by
    unfold Mach.modWave
    cases m.wave? k with
    | none => exact ⟨m.waves, rfl⟩
    | some w => exact ⟨_, rfl⟩
  unfold Mach.learn
  split
  · exact ⟨m.waves, rfl⟩
  · split
    · exact hwave _ _
    · exact hwave _ _

theorem learnAll_aside (t : Thread) (scope : Nat) (l : List Rel) : ∀ m : Mach, ∃ w, m.learnAll t scope l = { m with waves := w } := by
  induction l with
  | nil => exact fun m => ⟨m.waves, rfl⟩
  | cons r l ih =>
    intro m
    obtain ⟨w, hw⟩ : ∃ w, (match m.wave? r.wave with
      | some wa => if scopePair r.scope scope (wa.core.getD 0) t.core then m.learn t.wave r.wave r.ph else m
      | none => if 6 ≤ r.scope ∧ 6 ≤ scope then m.learn t.wave r.wave r.ph else m) = { m with waves := w } := by
      cases m.wave? r.wave with
      | none =>
        dsimp only
        split
        · exact learn_aside m _ _ _
        · exact ⟨m.waves, rfl⟩
      | some wa =>
        dsimp only
        split
        · exact learn_aside m _ _ _
        · exact ⟨m.waves, rfl⟩
    obtain ⟨w', hw'⟩ := ih ({ m with waves := w } : Mach)
    refine ⟨w', ?_⟩
    unfold Mach.learnAll at hw' ⊢
    rw [List.foldl_cons]
    refine Eq.trans (congrArg (fun m : Mach => l.foldl _ m) ?_) hw'
    exact hw

theorem bump_aside (m : Mach) (t : Thread) (scope : Nat) : ∃ w, m.bump t scope = { m with waves := w } := by
  unfold Mach.bump Mach.modWave
  split
  · cases m.wave? t.wave with
    | none => exact ⟨m.waves, rfl⟩
    | some w => exact ⟨_, rfl⟩
  · exact ⟨m.waves, rfl⟩

/-- A synchronisation touches the order, the waves, what has been released, and what threads know of it. -/
def Synced (m m' : Mach) : Prop := ∃ x w r t, m' = { m with order := x, waves := w, relAt := r, threads := t }

theorem Synced.refl (m : Mach) : Synced m m := ⟨_, _, _, _, rfl⟩

theorem Synced.trans {a b c : Mach} (h : Synced a b) (h' : Synced b c) : Synced a c := by
  obtain ⟨x, w, r, t, rfl⟩ := h
  obtain ⟨x', w', r', t', rfl⟩ := h'
  exact ⟨x', w', r', t', rfl⟩

theorem bump_synced (m : Mach) (t : Thread) (scope : Nat) : Synced m (m.bump t scope) := by
  obtain ⟨w, hw⟩ := bump_aside m t scope
  exact ⟨_, _, _, _, hw⟩

theorem learnAll_synced (m : Mach) (t : Thread) (scope : Nat) (l : List Rel) : Synced m (m.learnAll t scope l) := by
  obtain ⟨w, hw⟩ := learnAll_aside t scope l m
  exact ⟨_, _, _, _, hw⟩

theorem Synced.fold {α : Type} {step : Mach → α → Mach} (hstep : ∀ m a, Synced m (step m a)) (l : List α) : ∀ m, Synced m (l.foldl step m) := by
  induction l with
  | nil => exact Synced.refl
  | cons a l ih => exact fun m => (hstep m a).trans (ih _)

theorem syncFence_synced (m : Mach) (t : Thread) (scope : Nat) (rel acq : Bool) : Synced m (m.syncFence t scope rel acq) := by
  have hsync : Synced m (m.sync t.id scope rel acq .none) := ⟨_, _, _, _, rfl⟩
  unfold Mach.syncFence
  dsimp only
  split
  · exact hsync
  · have hrel : Synced m (if rel then ((m.sync t.id scope rel acq .none).bump t scope).modThr t.id fun u =>
        { u with fenceRel := addRel u.fenceRel ⟨t.wave, ((m.sync t.id scope rel acq .none).bump t scope).phase t.wave, scope, true⟩ }
      else m.sync t.id scope rel acq .none) := by
      split
      · exact hsync.trans ((bump_synced _ t scope).trans ⟨_, _, _, _, rfl⟩)
      · exact hsync
    split
    · exact hrel.trans (learnAll_synced _ _ _ _)
    · exact hrel

theorem syncAtomic_synced (m : Mach) (t : Thread) (scope loc len : Nat) (acquire : Bool) : Synced m (m.syncAtomic t scope loc len acquire) := by
  have hsync : Synced m (m.sync t.id scope true acquire (.loc loc)) := ⟨_, _, _, _, rfl⟩
  unfold Mach.syncAtomic
  dsimp only
  split
  · exact hsync
  · refine Synced.trans ?_ (Synced.fold (fun m w => ⟨_, _, _, _, rfl⟩) _ _)
    split
    · exact (hsync.trans (bump_synced _ t scope)).trans ((learnAll_synced _ _ _ _).trans ⟨_, _, _, _, rfl⟩)
    · exact hsync.trans (bump_synced _ t scope)

theorem Synced.aside {m m' : Mach} (h : Synced m m') : Aside m m' m.mem := by
  obtain ⟨x, w, r, t, rfl⟩ := h
  exact ⟨rfl, rfl, rfl⟩

theorem fence_act {m : Mach} {T : Thread} {o : PendOp} {rel acq : Bool} (ins : Bool) (wide : Mach → Thread → Flight → PendOp → Mach)
    (hkind : o.kind = .fence rel acq) : ∃ m1 : Mach, Aside m m1 m.mem ∧
      (acq = true → scopeK o.scope = true → ∀ c ∈ m1.copies, c.core ≠ T.core) ∧ m.act T o ins wide = m1.opDone T o [] := by
  have hsync := (syncFence_synced m T o.scope.code rel acq).aside
  generalize hm1 : m.syncFence T o.scope.code rel acq = m1 at hsync
  refine ⟨if acq && scopeK o.scope then m1.dropCopies T.core else m1, ?_, fun hacq hscope c hc => ?_, ?_⟩
  · split
    · exact hsync.trans ⟨hsync.mem, rfl, rfl⟩
    · exact hsync
  · rw [hacq, hscope] at hc
    have hdropped : c ∈ (m1.dropCopies T.core).copies := hc
    simpa using (List.mem_filter.1 hdropped).2
  · unfold Mach.act
    rw [hkind, ← hm1]

/-! ### Atomics -/

theorem atomStore_aside {m : Mach} (T : Thread) (fd : Nat) {o : PendOp} (bs : List Byte) (hmap : m.mapped o.loc = false) :
    Aside m (m.atomStore T fd o bs) (m.mem.put o.loc bs) := by
  unfold Mach.atomStore
  dsimp only
  obtain ⟨hstore, hmem⟩ := store_wrote bs (if o.stampOn then some (m.threadStamp T) else none) hmap
  generalize m.store o.loc bs (if o.stampOn then some (m.threadStamp T) else none) = m1 at hstore hmem
  obtain ⟨hnote, hmemn⟩ := rcNote_wrote m1 fd o.va o.loc bs.length
  have h1 : Aside m m1 (m.mem.put o.loc bs) := hmem ▸ hstore.aside
  split
  · exact hmem ▸ hmemn ▸ h1.trans hnote.aside
  · exact h1

/-- What the act of an atomic is, before its operation is done. -/
theorem atomic_act {m : Mach} {T : Thread} {o : PendOp} (acquire : Bool) (f : Nat → Nat) (hmap : m.mapped o.loc = false) :
    ∃ m1 : Mach, Aside m m1 (m.mem.put o.loc (toBytes (f (m.num o.loc o.len)) o.len)) ∧
      ((m.syncAtomic T o.scope.code o.loc o.len acquire).atomStore T (m.eff T.launch).fdom o
        (toBytes (f ((m.syncAtomic T o.scope.code o.loc o.len acquire).num o.loc o.len)) o.len)).atomDone T o acquire
        (toBytes ((m.syncAtomic T o.scope.code o.loc o.len acquire).num o.loc o.len) o.len) =
        m1.opDone T o (if acquire then toBytes (m.num o.loc o.len) o.len else []) := by
  have hsync := syncAtomic_synced m T o.scope.code o.loc o.len acquire
  have hold : (m.syncAtomic T o.scope.code o.loc o.len acquire).num o.loc o.len = m.num o.loc o.len := by
    obtain ⟨x, w, r, t, he⟩ := hsync
    rw [he]
    rfl
  rw [hold]
  have h1 := hsync.aside
  generalize m.syncAtomic T o.scope.code o.loc o.len acquire = m1 at h1
  have h2 := h1.trans (atomStore_aside (m := m1) T (m.eff T.launch).fdom (toBytes (f (m.num o.loc o.len)) o.len)
    (by rw [h1.mapped]; exact hmap))
  rw [h1.mem] at h2
  generalize m1.atomStore T (m.eff T.launch).fdom o (toBytes (f (m.num o.loc o.len)) o.len) = m2 at h2
  generalize hm3 : (if acquire && scopeK o.scope then m2.dropCopies T.core else m2) = m3
  have h3 : Aside m m3 (m.mem.put o.loc (toBytes (f (m.num o.loc o.len)) o.len)) := by
    rw [← hm3]
    split
    · exact h2.trans ⟨h2.mem, rfl, rfl⟩
    · exact h2
  refine ⟨m3.dropCopy T.core (m3.eff T.launch).fdom (o.va / 64), h3.trans ⟨h3.mem, rfl, rfl⟩, ?_⟩
  rw [← hm3]
  rfl

theorem atom_act {m : Mach} {T : Thread} {o : PendOp} {op : AOp} {ty : AType} {b cmp : Nat} (ins : Bool)
    (wide : Mach → Thread → Flight → PendOp → Mach) (hkind : o.kind = .atom op ty b cmp) (hsingle : m.eccSingle = [])
    (hdouble : m.eccDouble = []) (hmap : m.mapped o.loc = false) :
    ∃ m1 : Mach, Aside m m1 (m.mem.put o.loc (toBytes (atomNew op ty (m.num o.loc o.len) b cmp) o.len)) ∧
      m.act T o ins wide = m1.opDone T o (toBytes (m.num o.loc o.len) o.len) := by
  obtain ⟨m1, haside, hact⟩ := atomic_act (T := T) true (fun old => atomNew op ty old b cmp) hmap
  refine ⟨m1, haside, ?_⟩
  unfold Mach.act
  rw [hkind]
  refine (if_neg ?_).trans ?_
  · rw [badRange_sound o.len hdouble hmap]
    exact Bool.false_ne_true
  · rw [eccFix_sound _ _ _ hsingle]
    exact hact

theorem red_act {m : Mach} {T : Thread} {o : PendOp} {op : AOp} {ty : AType} {b : Nat} (ins : Bool)
    (wide : Mach → Thread → Flight → PendOp → Mach) (hkind : o.kind = .red op ty b) (hsingle : m.eccSingle = [])
    (hdouble : m.eccDouble = []) (hmap : m.mapped o.loc = false) :
    ∃ m1 : Mach, Aside m m1 (m.mem.put o.loc (toBytes (atomNew op ty (m.num o.loc o.len) b 0) o.len)) ∧
      m.act T o ins wide = m1.opDone T o [] := by
  obtain ⟨m1, haside, hact⟩ := atomic_act (T := T) false (fun old => atomNew op ty old b 0) hmap
  refine ⟨m1, haside, ?_⟩
  unfold Mach.act
  rw [hkind]
  refine (if_neg ?_).trans ?_
  · rw [badRange_sound o.len hdouble hmap]
    exact Bool.false_ne_true
  · rw [eccFix_sound _ _ _ hsingle]
    exact hact

/-! ### Moves of tiles -/

/-- A store of no bytes writes nothing, wherever it is. -/
theorem threadStore_nothing (m : Mach) (T : Thread) (fd : Nat) (o : PendOp) (loc va : Nat) :
    Aside m (m.threadStore T fd o loc va []) (m.mem.put loc []) := by
  have hdev : Aside m (m.devStore loc []) m.mem := by
    refine ⟨?_, rfl, rfl⟩
    unfold Mach.devStore
    dsimp only
    split <;> rfl
  have hstore : Aside m (m.store loc [] (if o.stampOn then some (m.threadStamp T) else none)) m.mem := by
    unfold Mach.store
    split
    · next v _ =>
      obtain ⟨sts, hst⟩ := stampRange_frame (m.devStore loc []) loc 0 v
      show Aside m (((m.devStore loc []).stampRange loc 0 v).observe loc 0) m.mem
      rw [hst]
      exact hdev.trans ⟨hdev.mem, rfl, rfl⟩
    · exact hdev.trans ⟨hdev.mem, rfl, rfl⟩
  unfold Mach.threadStore
  dsimp only
  generalize m.store loc [] (if o.stampOn then some (m.threadStamp T) else none) = m1 at hstore
  have hrel : Aside m (m1.unrelease loc ([] : List Byte).length) m.mem := hstore.trans ⟨hstore.mem, rfl, rfl⟩
  obtain ⟨hnote, hmemn⟩ := rcNote_wrote (m1.unrelease loc ([] : List Byte).length) fd va loc ([] : List Byte).length
  have hnoted : Aside m (if o.stampOn then (m1.unrelease loc ([] : List Byte).length).rcNote fd va loc ([] : List Byte).length
      else m1.unrelease loc ([] : List Byte).length) m.mem := by
    split
    · exact hrel.trans ⟨hmemn.trans hrel.mem, hnote.aside.pe0ep, hnote.aside.flights⟩
    · exact hrel
  split
  · exact hnoted.trans ⟨hnoted.mem, rfl, rfl⟩
  · exact hnoted

/-- A move copies its sector; it gives up its hold of the tile first. -/
theorem move_act {m : Mach} {T : Thread} {o : PendOp} (ins : Bool) (wide : Mach → Thread → Flight → PendOp → Mach) (hkind : o.kind = .move)
    (hsingle : m.eccSingle = []) (hdouble : m.eccDouble = []) (hmap : m.mapped o.loc = false) (hlen : o.len2 = o.len) (hmap2 : o.len = 0 ∨ m.mapped o.loc2 = false) {m0 : Mach}
    {mem : Memory} (hhold : Aside m m0 mem ∧ m0.eccSingle = []) (hgives : m0 = (o.metaLoc o.va).elim m fun ml => m.unholdTile o ml) :
    ∃ m1 : Mach, Aside m m1 (mem.put o.loc2 (mem.bytes o.loc o.len)) ∧ m.act T o ins wide = m1.opDone T o [] := by
  obtain ⟨haside, hsingle0⟩ := hhold
  have hbytes : m0.bytes o.loc o.len = mem.bytes o.loc o.len := by
    unfold Mach.bytes
    rw [haside.mapped, hmap, if_neg Bool.false_ne_true, haside.mem]
  have hstore : Aside m0 (m0.threadStore T (m.eff T.launch).fdom o o.loc2 o.va (mem.bytes o.loc o.len))
      (m0.mem.put o.loc2 (mem.bytes o.loc o.len)) := by
    rcases hmap2 with hzero | hmap2
    · rw [hzero]
      exact threadStore_nothing m0 T _ o o.loc2 o.va
    · exact threadStore_aside T _ o o.va _ (by rw [haside.mapped]; exact hmap2)
  rw [haside.mem] at hstore
  replace hstore := haside.trans hstore
  refine ⟨_, hstore, ?_⟩
  unfold Mach.act
  rw [hkind]
  refine (if_neg ?_).trans ((if_neg ?_).trans ?_)
  · rw [badRange_sound o.len hdouble hmap]
    exact Bool.false_ne_true
  · have hgood : badWrite m o.loc2 o.len2 = false := by
      rcases hmap2 with hzero | hmap2
      · unfold badWrite
        rw [eccBlocks_sound _ _ hdouble, hlen, hzero]
        exact Bool.and_false _
      · exact badWrite_sound o.len2 hdouble hmap2
    rw [hgood]
    exact Bool.false_ne_true
  · dsimp only
    cases hml : o.metaLoc o.va with
    | none =>
      rw [hml, Option.elim_none] at hgives
      rw [← hgives, eccFix_sound _ _ _ hsingle0, hbytes, hgives]
    | some ml =>
      rw [hml, Option.elim_some] at hgives
      dsimp only
      rw [eccBad_sound _ _ hdouble, if_neg Bool.false_ne_true, eccFix_sound _ _ _ hsingle, ← hgives, eccFix_sound _ _ _ hsingle0, hbytes]

/-! ### The words that atomics leave -/

theorem atomNew_read {op : AOp} {ty : AType} {old b cmp : Nat} (hold : old < 2 ^ (8 * ty.bytes)) (hb : b < 2 ^ (8 * ty.bytes))
    (hcmp : cmp < 2 ^ (8 * ty.bytes)) : AtomNew op ty old b cmp (atomNew op ty old b cmp % 2 ^ (8 * ty.bytes)) := by
  have hlt : ∀ n, n < 2 ^ (8 * ty.bytes) → n % 2 ^ (8 * ty.bytes) = n := fun n hn => Nat.mod_eq_of_lt hn
  cases op with
  | add =>
    intro hty
    cases ty with
    | f32 => exact absurd rfl hty
    | i32 | n32 | b64 => exact Nat.mod_mod _ _
  | xchg => cases ty <;> exact hlt b hb
  | cas =>
    have hcas : (if old = cmp then b else old) % 2 ^ (8 * ty.bytes) = if old = cmp then b else old := hlt _ (by split <;> assumption)
    cases ty <;> exact hcas
  | and =>
    have hand := hlt (old &&& b) (Nat.and_lt_two_pow _ hb)
    cases ty <;> exact fun _ => hand
  | or =>
    have hor := hlt (old ||| b) (Nat.or_lt_two_pow hold hb)
    cases ty <;> exact fun _ => hor
  | xor =>
    have hxor := hlt (old ^^^ b) (Nat.xor_lt_two_pow hold hb)
    cases ty <;> exact fun _ => hxor
  | min =>
    cases ty with
    | n32 | b64 => exact ⟨fun _ => hlt _ (Nat.lt_of_le_of_lt (Nat.min_le_left _ _) hold), nofun⟩
    | i32 => exact ⟨nofun, fun _ => hlt _ (by unfold atomNew; dsimp only; split <;> assumption)⟩
    | f32 => exact ⟨nofun, nofun⟩
  | max =>
    cases ty with
    | n32 | b64 => exact ⟨fun _ => hlt _ (Nat.max_lt.2 ⟨hold, hb⟩), nofun⟩
    | i32 => exact ⟨nofun, fun _ => hlt _ (by unfold atomNew; dsimp only; split <;> assumption)⟩
    | f32 => exact ⟨nofun, nofun⟩

/-- What an atomic leaves at its location. -/
theorem atomic_reads {s t : State} {o : PendOp} {op : AOp} {ty : AType} {b cmp : Nat} (hwf : s.mach.mem.wf = true)
    (hmap : s.mach.mapped o.loc = false) (hlen : o.len = ty.bytes) (hb : b < 2 ^ (8 * ty.bytes)) (hcmp : cmp < 2 ^ (8 * ty.bytes))
    (hpe : t.mach.pe0ep = s.mach.pe0ep)
    (hmem : t.mach.mem = s.mach.mem.put o.loc (toBytes (atomNew op ty (s.mach.num o.loc o.len) b cmp) o.len)) :
    AtomNew op ty (s.mach.num o.loc o.len) b cmp (t.mach.num o.loc o.len) ∧
      ∀ x, x < o.loc ∨ o.loc + o.len ≤ x → t.mach.mem.read x = s.mach.mem.read x := by
  have hmapt : t.mach.mapped o.loc = false := by
    unfold Mach.mapped Mach.inHost at hmap ⊢
    rw [hpe]
    exact hmap
  have hnum : t.mach.num o.loc o.len = atomNew op ty (s.mach.num o.loc o.len) b cmp % 256 ^ o.len := by
    refine (num_put (a := o.loc) (i := 0) (n := atomNew op ty (s.mach.num o.loc o.len) b cmp) (size := o.len) hmapt (by omega)
      fun j hj => ?_).trans ?_
    · rw [hmem, Memory.read_put _ _ _ _ hwf, toBytes_length, if_pos (by omega), Nat.add_sub_cancel_left]
    · rw [Nat.pow_zero, Nat.div_one]
  have hold : s.mach.num o.loc o.len < 2 ^ (8 * ty.bytes) := by
    have h := ofBytes_lt (s.mach.bytes o.loc o.len)
    rw [bytes_length, hlen] at h
    unfold Mach.num
    rw [Nat.pow_mul, hlen]
    exact h
  refine ⟨?_, fun x hx => ?_⟩
  · have hpow : 256 ^ o.len = 2 ^ (8 * ty.bytes) := by rw [hlen, Nat.pow_mul]
    rw [hnum, hpow]
    exact atomNew_read hold hb hcmp
  · rw [hmem, Memory.read_put _ _ _ _ hwf, toBytes_length, if_neg (by omega)]

theorem ld_answers (h : Hdr) (sz : MSize) (tm : Bool) (sc : Scope) (d a : Spec) (off : BitVec 15) : Answers (.ld h sz tm sc d a off) := by
  refine ⟨rfl, fun m f hf => ⟨(f.answer f.owner d (loadWords sz f.bytes) (statZero tm sz d)).writes,
    (f.answer f.owner d (loadWords sz f.bytes) (statZero tm sz d)).xres, ?_⟩⟩
  show finStep m f = m.setFlight (f.answer f.owner d (loadWords sz f.bytes) (statZero tm sz d))
  unfold finStep memFin
  rw [hf]

theorem atom_answers (h : Hdr) (op : AOp) (ty : AType) (sc : Scope) (d a b : Spec) : Answers (.atom h op ty sc d a b) := by
  refine ⟨rfl, fun m f hf => ⟨(f.answer f.owner d (bytesWords ty.regs f.bytes) []).writes,
    (f.answer f.owner d (bytesWords ty.regs f.bytes) []).xres, ?_⟩⟩
  show finStep m f = m.setFlight (f.answer f.owner d (bytesWords ty.regs f.bytes) [])
  unfold finStep memFin
  rw [hf]

theorem read_kept {s t : State} (h : t.mach.mem = s.mach.mem) : MemoryKept s t := fun a => by rw [h]

theorem Ready.unmapped {s : State} {o : PendOp} {m : Mach} (h : Ready s o m) (hcxl : pkind o.loc ≠ .cxl) : m.mapped o.loc = false :=
  near_unmapped h.near hcxl

/-- The second location of a move lies in memory of this device, or the move has no bytes there. -/
theorem unmapped_second {s : State} {o : PendOp} (hhost : s.mach.toHost o = false) (hcxl : pkind o.loc2 ≠ .cxl) (hlen : o.len2 ≠ 0) :
    s.mach.mapped o.loc2 = false := by
  have hin : s.mach.inHost o.loc2 = false := by
    have hsecond := (Bool.or_eq_false_iff.1 hhost).2
    rwa [bne_iff_ne.2 hlen, Bool.and_true] at hsecond
  unfold Mach.mapped
  rw [hin, Bool.or_false]
  exact beq_eq_false_iff_ne.2 hcxl

/-! ### Moves at their second location -/

theorem Ready.second {s : State} {o : PendOp} {m : Mach} (h : Ready s o m) (hcxl : pkind o.loc2 ≠ .cxl) (hlen : o.len2 = o.len) :
    o.len = 0 ∨ m.mapped o.loc2 = false := by
  rcases Nat.eq_zero_or_pos o.len with hzero | hpos
  · exact .inl hzero
  · have hin := (Bool.or_eq_false_iff.1 h.near).2
    rw [hlen, bne_iff_ne.2 (Nat.ne_of_gt hpos), Bool.and_true] at hin
    refine .inr ?_
    unfold Mach.mapped
    rw [hin, Bool.or_false]
    exact beq_eq_false_iff_ne.2 hcxl

theorem mapped_kept {s t : State} (hpe : t.mach.pe0ep = s.mach.pe0ep) (loc : Nat) : t.mach.mapped loc = s.mach.mapped loc := by
  unfold Mach.mapped Mach.inHost
  rw [hpe]

theorem bytes_unmapped {m : Mach} {loc : Nat} (len : Nat) (hmap : m.mapped loc = false) : m.bytes loc len = m.mem.bytes loc len := by
  unfold Mach.bytes
  rw [hmap]
  exact if_neg Bool.false_ne_true

theorem memBytes_congr {mem mem' : Memory} (len : Nat) : ∀ a, (∀ i, i < len → mem.read (a + i) = mem'.read (a + i)) →
    mem.bytes a len = mem'.bytes a len := by
  induction len with
  | zero => exact fun _ _ => rfl
  | succ n ih =>
    intro a h
    refine congrArg₂ List.cons (h 0 (Nat.succ_pos n)) (ih (a + 1) fun i hi => ?_)
    rw [show a + 1 + i = a + (i + 1) by omega]
    exact h (i + 1) (Nat.succ_lt_succ hi)

theorem memBytes_list {mem : Memory} (bs : List Byte) : ∀ a, (∀ i, i < bs.length → mem.read (a + i) = bs.getD i 0) →
    mem.bytes a bs.length = bs := by
  induction bs with
  | nil => exact fun _ _ => rfl
  | cons b bs ih =>
    intro a h
    refine congrArg₂ List.cons (h 0 (Nat.succ_pos _)) (ih (a + 1) fun i hi => ?_)
    rw [show a + 1 + i = a + (i + 1) by omega]
    exact h (i + 1) (Nat.succ_lt_succ hi)

/-- Bytes put at a location are read back there. -/
theorem bytes_put {m : Mach} {mem : Memory} {loc : Nat} {bs : List Byte} (hwf : mem.wf = true) (hmap : m.mapped loc = false)
    (hmem : m.mem = mem.put loc bs) : m.bytes loc bs.length = bs := by
  rw [bytes_unmapped _ hmap, hmem]
  refine memBytes_list bs loc fun i hi => ?_
  rw [Memory.read_put _ _ _ _ hwf, if_pos (by omega), Nat.add_sub_cancel_left]

/-- Bytes that a put does not reach are read as before. -/
theorem bytes_put_apart {mem : Memory} {loc a len : Nat} {bs : List Byte} (hwf : mem.wf = true) (h : a + len ≤ loc ∨ loc + bs.length ≤ a) :
    (mem.put loc bs).bytes a len = mem.bytes a len := by
  refine memBytes_congr len a fun i hi => ?_
  rw [Memory.read_put _ _ _ _ hwf, if_neg (by omega)]

theorem PerformsNext.memWf {s : State} {tid : Nat} {o : PendOp} {f : Flight} (h : PerformsNext s tid o f) : s.mach.mem.wf = true := by
  obtain ⟨-, -, -, -, -, -, -, -, -, -, hwf, -⟩ := h
  exact hwf

theorem PerformsNext.notHost {s : State} {tid : Nat} {o : PendOp} {f : Flight} (h : PerformsNext s tid o f) : s.mach.toHost o = false := by
  obtain ⟨-, -, -, -, -, -, -, -, -, hhost, -, -⟩ := h
  exact hhost

/-- Settles O29, clause by clause: an operation that performs next acts alone, and what follows its act leaves memory and its flight's bytes. -/
theorem accessesPerform : Obligations.AccessesPerform := by
  unfold Obligations.AccessesPerform
  intro tid oid ins o f
  refine ⟨?_, ?_, ?_, ?_, ?_, ?_, ?_, ?_⟩
  · rintro bs s - ⟨hoid, hnext, hkind, -, hcxl⟩
    have hwf := hnext.memWf
    obtain ⟨t, hexec, hmem, -, -, hgone⟩ := perform_leaves (ins := ins) (fun _ => True) hoid hnext fun m0 hw => by
      have hr := hw.ready hnext
      obtain ⟨m1, haside, hact⟩ := store_act (T := s.mach.thr tid) ins (wideStep s.sys) hkind hr.double (hr.unmapped hcxl)
      rw [hr.mem] at haside
      exact ⟨m1, haside, trivial, hact⟩
    exact ⟨t, hexec, stored_put hwf hmem, hgone⟩
  · rintro h sz tm sc d a off s - ⟨hoid, hnext, hkind, hinstr, hgood⟩
    obtain ⟨t, hexec, hmem, -, -, hgone, hbrings⟩ := perform_brings (ins := ins) (got := s.mach.bytes o.loc o.len) (fun _ => True) hoid hnext
      (hinstr ▸ ld_answers h sz tm sc d a off) fun m0 hw => by
        have hr := hw.ready hnext
        obtain ⟨c, rfl⟩ := hw
        exact ⟨_, Aside.refl _, trivial, load_act ins (wideStep s.sys) hkind hr.single hgood⟩
    exact ⟨t, hexec, ⟨read_kept hmem, hbrings⟩, hgone⟩
  · rintro h sz tm sc d a off c s - ⟨hoid, hnext, hkind, hinstr, herr, hcopy⟩
    obtain ⟨t, hexec, hmem, -, hcopies, hgone, hbrings⟩ := perform_brings (ins := ins) (fun cs => cs = s.mach.copies) hoid hnext
      (hinstr ▸ ld_answers h sz tm sc d a off) fun m0 hw => by
        obtain ⟨cores, rfl⟩ := hw
        exact ⟨_, Aside.refl _, rfl, copied_act ins (wideStep s.sys) hkind herr hcopy⟩
    exact ⟨t, hexec, ⟨read_kept hmem, hbrings, hcopies⟩, hgone⟩
  · rintro op ty b cmp h sc d a c s - ⟨hoid, hnext, hkind, hlen, hb, hcmp, hcxl, hinstr⟩
    have hwf := hnext.memWf
    have hmap := near_unmapped hnext.notHost hcxl
    obtain ⟨t, hexec, hmem, hpe, -, hgone, hbrings⟩ := perform_brings (ins := ins)
      (mem := s.mach.mem.put o.loc (toBytes (atomNew op ty (s.mach.num o.loc o.len) b cmp) o.len))
      (got := toBytes (s.mach.num o.loc o.len) o.len) (fun _ => True) hoid hnext
      (hinstr ▸ atom_answers h op ty sc d a c) fun m0 hw => by
        have hr := hw.ready hnext
        obtain ⟨cores, rfl⟩ := hw
        obtain ⟨m1, haside, hact⟩ := atom_act (T := s.mach.thr tid) ins (wideStep s.sys) hkind hr.single hr.double (hr.unmapped hcxl)
        exact ⟨m1, haside, trivial, hact⟩
    obtain ⟨hnew, hrest⟩ := atomic_reads hwf hmap hlen hb hcmp hpe hmem
    exact ⟨t, hexec, ⟨hnew, hrest, hbrings⟩, hgone⟩
  · rintro op ty b s - ⟨hoid, hnext, hkind, hlen, hb, -, hcxl⟩
    have hwf := hnext.memWf
    have hmap := near_unmapped hnext.notHost hcxl
    obtain ⟨t, hexec, hmem, hpe, -, hgone⟩ := perform_leaves (ins := ins)
      (mem := s.mach.mem.put o.loc (toBytes (atomNew op ty (s.mach.num o.loc o.len) b 0) o.len)) (fun _ => True) hoid hnext fun m0 hw => by
      have hr := hw.ready hnext
      obtain ⟨cores, rfl⟩ := hw
      obtain ⟨m1, haside, hact⟩ := red_act (T := s.mach.thr tid) ins (wideStep s.sys) hkind hr.single hr.double (hr.unmapped hcxl)
      exact ⟨m1, haside, trivial, hact⟩
    exact ⟨t, hexec, atomic_reads hwf hmap hlen hb (Nat.two_pow_pos _) hpe hmem, hgone⟩
  · rintro rel acq s - ⟨hoid, hnext, hkind⟩
    obtain ⟨t, hexec, hmem, -, hcopies, hgone⟩ := perform_leaves (ins := ins)
      (fun cs => acq = true → scopeK o.scope = true → ∀ c ∈ cs, c.core ≠ (s.mach.thr tid).core) hoid hnext fun m0 hw => by
        have hr := hw.ready hnext
        obtain ⟨m1, haside, hdropped, hact⟩ := fence_act (T := s.mach.thr tid) ins (wideStep s.sys) hkind (m := m0)
        rw [hr.mem] at haside
        exact ⟨m1, haside, hdropped, hact⟩
    exact ⟨t, hexec, ⟨read_kept hmem, hcopies⟩, hgone⟩
  · rintro s - ⟨hoid, hnext, hkind, hlen, hcxl, hcxl2, hhold⟩
    have hwf := hnext.memWf
    have hmap := near_unmapped hnext.notHost hcxl
    obtain ⟨t, hexec, hmem, -, -, hgone⟩ := perform_leaves (ins := ins) (fun _ => True) hoid hnext fun m0 hw => by
      have hr := hw.ready hnext
      obtain ⟨m1, haside, hact⟩ := move_act (T := s.mach.thr tid) ins (wideStep s.sys) hkind hr.single hr.double (hr.unmapped hcxl) hlen
        (hr.second hcxl2 hlen) (m0 := m0) ⟨Aside.refl m0, hr.single⟩ (by
          cases hml : o.metaLoc o.va with
          | none => rfl
          | some ml =>
            have htries : ¬8 ≤ o.tries := Nat.not_le.2 (hhold.resolve_left (by rw [hml]; exact nofun))
            exact (if_neg htries).symm)
      rw [hr.mem, ← bytes_unmapped o.len hmap] at haside
      exact ⟨m1, haside, trivial, hact⟩
    exact ⟨t, hexec, stored_put hwf hmem, hgone⟩
  · rintro ml s - ⟨hoid, hnext, hkind, hlen, hcxl, hcxl2, hml, htries, hmapm, hapart, hapart2⟩
    have hwf := hnext.memWf
    have hmap := near_unmapped hnext.notHost hcxl
    have hwf4 := Memory.wf_put _ (ml + 4) (toBytes 0 4) hwf
    obtain ⟨t, hexec, hmem, hpe, -, hgone⟩ := perform_leaves (ins := ins) (fun _ => True) hoid hnext
      (mem := (s.mach.mem.put (ml + 4) (toBytes 0 4)).put o.loc2 (s.mach.bytes o.loc o.len)) fun m0 hw => by
      have hr := hw.ready hnext
      have hunhold : Aside m0 (m0.devStore (ml + 4) (toBytes 0 4)) (m0.mem.put (ml + 4) (toBytes 0 4)) := devStore_aside _ (by
        unfold Mach.mapped Mach.inHost at hmapm ⊢
        rw [hr.pe0ep]
        exact hmapm)
      obtain ⟨m1, haside, hact⟩ := move_act (T := s.mach.thr tid) ins (wideStep s.sys) hkind hr.single hr.double (hr.unmapped hcxl) hlen
        (hr.second hcxl2 hlen) (m0 := m0.devStore (ml + 4) (toBytes 0 4)) ⟨hunhold, by
          unfold Mach.devStore Mach.eccClear
          dsimp only
          rw [hr.single]
          rfl⟩ (by
          rw [hml, Option.elim_some]
          exact (if_pos htries).symm)
      rw [hr.mem, bytes_put_apart hwf (by rw [toBytes_length]; omega), ← bytes_unmapped o.len hmap] at haside
      exact ⟨m1, haside, trivial, hact⟩
    have hblen : (s.mach.bytes o.loc o.len).length = o.len := bytes_length _ _ _
    refine ⟨t, hexec, ⟨?_, ?_, fun x hx hxm => ?_⟩, hgone⟩
    · rcases Nat.eq_zero_or_pos o.len with hzero | hpos
      · exact (List.length_eq_zero_iff.1 ((bytes_length _ _ _).trans hzero)).trans (List.length_eq_zero_iff.1 (hblen.trans hzero)).symm
      · have hmap2 := unmapped_second hnext.notHost hcxl2 (by omega)
        have hread := bytes_put hwf4 (by rw [mapped_kept hpe]; exact hmap2) hmem
        rwa [hblen] at hread
    · refine (num_put (a := ml + 4) (i := 0) (n := 0) (size := 4) (by rw [mapped_kept hpe]; exact hmapm) (by omega) fun j hj => ?_).trans rfl
      rw [hmem, Memory.read_put _ _ _ _ hwf4, hblen, if_neg (by omega), Memory.read_put _ _ _ _ hwf, toBytes_length, if_pos (by omega),
        Nat.add_sub_cancel_left]
    · rw [hmem, Memory.read_put _ _ _ _ hwf4, hblen, if_neg (by omega), Memory.read_put _ _ _ _ hwf, toBytes_length, if_neg (by omega)]

end Sys2Proof.Machine
end

section
/-! SUPPORT. Launches: their posts, their acceptance, their end (spec/03 R95-R98, R105-R108; spec/04 R114-R117). -/

namespace Sys2Proof.Machine

/-! ### Ports and counters -/

theorem lport_setLport {m : Mach} {p : Nat} (x : LPort) (hp : p < m.lports.length) : (m.setLport p x).lport p = x := by
  unfold Mach.lport Mach.setLport
  rw [modAt_eq_set, List.getD_eq_getElem?_getD, List.getElem?_set_self hp, Option.getD_some]

theorem lport_setLport_ne (m : Mach) {p k : Nat} (x : LPort) (hk : k ≠ p) : (m.setLport p x).lport k = m.lport k := by
  unfold Mach.lport Mach.setLport
  rw [modAt_eq_set, List.getD_eq_getElem?_getD, List.getElem?_set_ne (Ne.symm hk), List.getD_eq_getElem?_getD]

/-- The binding of counters changes what is bound, and counters of blocks that were not. -/
theorem bind_spec (m : Mach) (rcb : Nat) (e : Eff) : ∃ b c, m.bind rcb e = { m with bound := b, ctrs := c } ∧ ∀ x ∈ m.bound, x ∈ b := by
  unfold Mach.bind
  split
  · exact ⟨m.bound, m.ctrs, rfl, fun _ hx => hx⟩
  · exact ⟨_, _, rfl, fun x hx => List.mem_append_left _ hx⟩

/-- A binding keeps the counters of other blocks, and of blocks that are bound. -/
theorem bind_ctr {m : Mach} {rcb k : Nat} (e : Eff) (idx : Nat) (h : k ≠ rcb ∨ ∃ x ∈ m.bound, x.1 = k) :
    (m.bind rcb e).ctr k idx = m.ctr k idx := by
  unfold Mach.bind
  split
  · rfl
  · next hnew =>
    have hne : k ≠ rcb := h.elim id fun ⟨x, hx, hk⟩ hnone => hnew (List.any_eq_true.2 ⟨x, hx, beq_iff_eq.2 (hk.trans hnone)⟩)
    unfold Mach.ctr Mach.ctr?
    dsimp only
    rw [List.find?_filter]
    refine congrArg (fun o : Option Ctr => o.getD _) (find?_congr_mem _ fun c _ => ?_)
    by_cases hc : c.rcb = k
    · rw [hc, bne_iff_ne.2 hne]
      simp only [true_and, Bool.decide_eq_true]
    · simp [hc]

/-- The record at the head of a port binds. -/
def bindHead (m : Mach) (l : LPort) : Mach :=
  match l.queue with
  | [] => m
  | r :: _ =>
    match m.region (recRcb (ofBytes r)) with
    | some (c :: _) => if recCtrs c.2 (ofBytes r) then m.bind (recRcb (ofBytes r)) c.2 else m
    | _ => m

theorem bindHeads_eq (m : Mach) : m.bindHeads = m.lports.foldl bindHead m := rfl

/-- It binds the block of the record, or nothing. -/
theorem bindHead_cases (m : Mach) (l : LPort) : bindHead m l = m ∨
    ∃ r ∈ l.queue, ∃ e, bindHead m l = m.bind (recRcb (ofBytes r)) e := by
  unfold bindHead
  split
  · exact .inl rfl
  · next r rest hq =>
    split
    · next c up hchain =>
      split
      · exact .inr ⟨r, hq ▸ List.mem_cons_self, c.2, rfl⟩
      · exact .inl rfl
    · exact .inl rfl

theorem bindHead_spec (m : Mach) (l : LPort) : ∃ b c, bindHead m l = { m with bound := b, ctrs := c } ∧ ∀ x ∈ m.bound, x ∈ b := by
  rcases bindHead_cases m l with h | ⟨r, -, e, h⟩
  · rw [h]
    exact ⟨m.bound, m.ctrs, rfl, fun _ hx => hx⟩
  · rw [h]
    exact bind_spec m _ e

theorem foldl_bindHead (ls : List LPort) : ∀ m : Mach, ∃ b c, ls.foldl bindHead m = { m with bound := b, ctrs := c } := by
  induction ls with
  | nil => exact fun m => ⟨m.bound, m.ctrs, rfl⟩
  | cons l ls ih =>
    intro m
    obtain ⟨b, c, hone, -⟩ := bindHead_spec m l
    obtain ⟨b', c', hrest⟩ := ih (bindHead m l)
    exact ⟨b', c', by rw [List.foldl_cons, hrest, hone]⟩

theorem bindHeads_spec (m : Mach) : ∃ b c, m.bindHeads = { m with bound := b, ctrs := c } := foldl_bindHead m.lports m

/-- The counters of a block that is bound, or that no queued record names. -/
theorem bindHeads_ctr {m : Mach} {k : Nat} (idx : Nat)
    (h : (∃ x ∈ m.bound, x.1 = k) ∨ ∀ l ∈ m.lports, ∀ r ∈ l.queue, recRcb (ofBytes r) ≠ k) : m.bindHeads.ctr k idx = m.ctr k idx := by
  rw [bindHeads_eq]
  generalize m.lports = ls at h
  induction ls generalizing m with
  | nil => rfl
  | cons l ls ih =>
    obtain ⟨b, c, hone, hin⟩ := bindHead_spec m l
    rw [List.foldl_cons, ih ?_]
    · rcases bindHead_cases m l with hnone | ⟨r, hr, e, hbind⟩
      · rw [hnone]
      · rw [hbind]
        exact bind_ctr e idx (h.symm.imp (fun hother => (hother l List.mem_cons_self r hr).symm) id)
    · refine h.imp (fun ⟨x, hx, hk⟩ => ⟨x, ?_, hk⟩) fun hother u hu => hother u (List.mem_cons_of_mem _ hu)
      rw [hone]
      exact hin x hx

/-! ### Posts and LP_KILL -/

theorem lpPost_joins (p : Nat) : StepsTo (.lpPost p) (fun s => p < s.mach.lports.length ∧ (s.mach.lport p).queue.length < 32) fun s t =>
    MemoryKept s t ∧ t.mach.threads = s.mach.threads ∧ t.mach.lport p = { s.mach.lport p with
      queue := (s.mach.lport p).queue ++ [(s.mach.lport p).staged], posted := ((s.mach.lport p).posted + 1) % 2 ^ 32 } ∧
    ∀ k, k ≠ p → t.mach.lport k = s.mach.lport k := by
  rintro s - ⟨hp, hroom⟩
  have hpost : s.mach.lpPost p = ((s.mach.sync 0 6 true false .none).setLport p { s.mach.lport p with
      queue := (s.mach.lport p).queue ++ [(s.mach.lport p).staged], posted := ((s.mach.lport p).posted + 1) % 2 ^ 32 }).bindHeads :=
    if_neg (Nat.not_le.2 hroom)
  obtain ⟨b, c, hbound⟩ := bindHeads_spec ((s.mach.sync 0 6 true false .none).setLport p { s.mach.lport p with
      queue := (s.mach.lport p).queue ++ [(s.mach.lport p).staged], posted := ((s.mach.lport p).posted + 1) % 2 ^ 32 })
  refine ⟨_, congrArg (fun m => Host.Outcome.next ({ s with mach := m } : State).settle) (hpost.trans hbound), fun _ => rfl, rfl,
    lport_setLport (m := s.mach) _ hp, fun k hk => lport_setLport_ne s.mach _ hk⟩

theorem lpPost_full (p : Nat) : Steps (.lpPost p) (fun s => 32 ≤ (s.mach.lport p).queue.length) fun s =>
    s.withMach (s.mach.setLport p { s.mach.lport p with full := true }) := by
  intro s hs hfull
  have hpost : s.mach.lpPost p = s.mach.setLport p { s.mach.lport p with full := true } := if_pos hfull
  exact (congrArg (fun m => Host.Outcome.next ({ s with mach := m } : State).settle) hpost).trans
    (congrArg Host.Outcome.next (settle_both_quiet hs rfl rfl rfl rfl rfl))

theorem lpSts_clears (p : Nat) : Steps (.lpStsFullClear p) (fun _ => True) fun s =>
    s.withMach (s.mach.setLport p { s.mach.lport p with full := false }) := by
  rintro s hs -
  have hclear : s.mach.lpSts p (2 ^ 39) = s.mach.setLport p { s.mach.lport p with full := false } := if_pos (by decide)
  exact (congrArg (fun m => Host.Outcome.next ({ s with mach := m } : State).settle) hclear).trans
    (congrArg Host.Outcome.next (settle_both_quiet hs rfl rfl rfl rfl rfl))

/-- Threads that stay when others are removed: those removed have ended. -/
theorem removeThreads_stays {m : Mach} {ids : List Nat} : ∀ U ∈ (m.removeThreads ids).threads,
    U.stat = .ended ∨ U.id ∉ ids ∧ U ∈ m.threads := by
  intro U hU
  obtain ⟨t, ht, rfl⟩ := List.mem_map.1 hU
  split
  case isTrue => exact .inl rfl
  case isFalse h => exact .inr ⟨fun hmem => h (List.contains_iff_mem.2 hmem), (List.mem_filter.1 ht).1⟩

/-- A thread of a quarter that runs to the end of its clause. -/
theorem mem_goingOn {c : Prop} [Decidable c] {qs : List Quarter} {l k : Nat}
    (hk : k ∈ (if c then (qs.filter fun q => q.launch == l && q.hdr.isSome && q.wait.all Wait.goesOn).flatMap Quarter.tids else [])) :
    ∃ q ∈ qs, q.hdr.isSome ∧ q.wait.all Wait.goesOn = true ∧ k ∈ q.tids := by
  split at hk
  · obtain ⟨q, hq, hkq⟩ := List.mem_flatMap.1 hk
    obtain ⟨hmem, hon⟩ := List.mem_filter.1 hq
    rw [Bool.and_eq_true, Bool.and_eq_true] at hon
    exact ⟨q, hmem, hon.1.2, hon.2, hkq⟩
  · exact absurd hk List.not_mem_nil

/-- LP_KILL: what is left of the threads of a launch. -/
theorem killed_threads {m : Mach} {l : Nat} (hends : (m.launch l).ending = none) : ∀ T ∈ (m.endLaunch l 8 0).threads, T.launch = l →
    let on (k : Nat) : Prop := ∃ q ∈ m.quarters, q.hdr.isSome ∧ q.wait.all Wait.goesOn = true ∧ k ∈ q.tids
    T.stat = .ended ∨ on T.id ∨ ∃ g ∈ m.traps, T.id ∈ g.members.map (fun p => p.2.1) ∧ ∃ k ∈ g.handlers, on k := by
  intro T hT hlaunch on
  have hmod : ∀ f, (m.modLaunch l f).threads = m.threads ∧ (m.modLaunch l f).quarters = m.quarters ∧ (m.modLaunch l f).traps = m.traps := by
    intro f
    unfold Mach.modLaunch
    cases m.launch? l <;> exact ⟨rfl, rfl, rfl⟩
  unfold Mach.endLaunch at hT
  dsimp only at hT
  rw [if_neg (by simp [hends]), (hmod _).1, (hmod _).2.1, (hmod _).2.2] at hT
  rcases removeThreads_stays T hT with hend | ⟨-, hstays⟩
  · exact .inl hend
  · rcases removeThreads_stays T hstays with hend | ⟨hout, hmem⟩
    · exact .inl hend
    · refine .inr ?_
      have hin := mt (fun h => List.mem_map_of_mem (f := fun t : Thread => t.id) (List.mem_filter.2 ⟨hmem, h⟩)) hout
      simp only [hlaunch, beq_self_eq_true, Bool.true_and, Bool.not_eq_true', Bool.not_eq_false, List.contains_iff_mem] at hin
      rcases List.mem_append.1 hin with hin | hin
      · exact .inl (mem_goingOn hin)
      · obtain ⟨g, hg, hmember⟩ := List.mem_flatMap.1 hin
        obtain ⟨htrap, hserves⟩ := List.mem_filter.1 hg
        obtain ⟨k, hk, hkon⟩ := List.any_eq_true.1 hserves
        exact .inr ⟨g, htrap, hmember, k, hk, mem_goingOn (List.contains_iff_mem.1 hkon)⟩

theorem launch?_single {m : Mach} {l : Launch} (h : m.launches = [l]) : m.launch? l.id = some l := by
  unfold Mach.launch?
  rw [h, List.find?_cons, beq_self_eq_true]

theorem launch_of {m : Mach} {i : Nat} {l : Launch} (h : m.launch? i = some l) : m.launch i = l := by
  unfold Mach.launch
  rw [h]
  rfl

theorem modLaunch_single {m : Mach} {l : Launch} {f : Launch → Launch} (h : m.launches = [l]) (hid : (f l).id = l.id) :
    (m.modLaunch l.id f).launches = [f l] := by
  have hset : m.modLaunch l.id f = m.setLaunch (f l) := by
    unfold Mach.modLaunch
    rw [launch?_single h]
  rw [hset]
  unfold Mach.setLaunch
  rw [h]
  exact congrArg (fun u => [u]) (if_pos (beq_iff_eq.2 hid.symm))

theorem live_going {l : Launch} (hret : l.retired = false) (hends : l.ending = none) : l.live = true := by
  unfold Launch.live
  rw [hret, hends]
  rfl

/-- The launch that LP_KILL names. -/
theorem lpKill_ends (p : Nat) (tag : DWord) (l : Launch) : StepsTo (.lpKill p tag)
    (fun s => s.mach.launches = [l] ∧ l.port = p ∧ l.tag = tag ∧ l.ending = none ∧ l.retired = false ∧ s.mach.allExited l.id = false)
    fun s t => MemoryKept s t ∧ (∃ u, t.mach.launches = [u] ∧ u.ending = some (8, 0)) ∧
      let on (k : Nat) : Prop := ∃ q ∈ s.mach.quarters, q.hdr.isSome ∧ q.wait.all Wait.goesOn = true ∧ k ∈ q.tids
      ∀ T ∈ t.mach.threads, T.launch = l.id → T.stat = .ended ∨ on T.id ∨
        ∃ g ∈ s.mach.traps, T.id ∈ g.members.map (fun p => p.2.1) ∧ ∃ k ∈ g.handlers, on k := by
  rintro s - ⟨hlaunches, hport, htag, hends, hret, hexited⟩
  have hl := launch?_single hlaunches
  have hkill : s.mach.lpKill p tag = (s.mach.endLaunch l.id 8 0).preemptEnd := by
    have hone : (s.mach.live.filter fun l => l.port == p && l.tag == tag && l.ending.isNone && !s.mach.allExited l.id) = [l] := by
      unfold Mach.live
      rw [hlaunches, List.filter_cons, if_pos (live_going hret hends), List.filter_nil, List.filter_cons, hport, htag, hends, hexited,
        beq_self_eq_true, beq_self_eq_true, List.filter_nil]
      rfl
    unfold Mach.lpKill
    rw [hone]
    rfl
  have hnone : (s.mach.launch l.id).ending = none := by
    rw [launch_of hl]
    exact hends
  have hset : (s.mach.endLaunch l.id 8 0).launches = [{ l with ending := some (8, 0) }] := by
    unfold Mach.endLaunch
    dsimp only
    rw [if_neg (by rw [hnone]; exact Bool.false_ne_true), forgetLaunch_launches, removeThreads_launches]
    refine (modLaunch_single hlaunches rfl).trans ?_
    rw [hends]
    rfl
  refine ⟨_, congrArg (fun m => Host.Outcome.next ({ s with mach := m } : State).settle) hkill, fun a => ?_, ⟨_, hset, rfl⟩,
    killed_threads hnone⟩
  show (s.mach.endLaunch l.id 8 0).mem.read a = _
  rw [endLaunch_mem]

theorem lpKill_none (p : Nat) (tag : DWord) : Steps (.lpKill p tag)
    (fun s => s.mach.preempts = [] ∧ ∀ l ∈ s.mach.launches, l.port ≠ p ∨ l.tag ≠ tag) fun s => s := by
  rintro s hs ⟨hpre, hother⟩
  have hkill : s.mach.lpKill p tag = s.mach := by
    have hnone : (s.mach.live.filter fun l => l.port == p && l.tag == tag && l.ending.isNone && !s.mach.allExited l.id) = [] := by
      refine List.filter_eq_nil_iff.2 fun l hl => ?_
      rcases hother l (List.mem_filter.1 hl).1 with h | h
      · simp [h]
      · simp [h]
    unfold Mach.lpKill
    rw [hnone]
    show s.mach.preemptEnd = s.mach
    unfold Mach.preemptEnd
    rw [hpre, List.filter_nil, ← hpre]
  exact (congrArg (fun m => Host.Outcome.next ({ s with mach := m } : State).settle) hkill).trans
    (congrArg Host.Outcome.next (settle_both_quiet hs rfl rfl rfl rfl rfl))

/-! ### Acceptance -/

/-- What the units note beside the launch itself: errors that they log or correct, answers used up, domains opened, counters bound. -/
def Noted (m m' : Mach) : Prop := ∃ e o x f l d k n b c, m' = { m with
  errLog := e, errOver := o, cxlErrs := x, fired := f, farLines := l, doms := d, eccSingle := k, secnt := n, bound := b, ctrs := c }

theorem Noted.refl (m : Mach) : Noted m m := ⟨_, _, _, _, _, _, _, _, _, _, rfl⟩

theorem Noted.trans {a b c : Mach} (h : Noted a b) (h' : Noted b c) : Noted a c := by
  obtain ⟨_, _, _, _, _, _, _, _, _, _, rfl⟩ := h
  obtain ⟨_, _, _, _, _, _, _, _, _, _, rfl⟩ := h'
  exact ⟨_, _, _, _, _, _, _, _, _, _, rfl⟩

theorem Noted.fold {α : Type} {step : Mach → α → Mach} (hstep : ∀ m a, Noted m (step m a)) (l : List α) : ∀ m, Noted m (l.foldl step m) := by
  induction l with
  | nil => exact Noted.refl
  | cons a l ih => exact fun m => (hstep m a).trans (ih _)

theorem logErr_noted (m : Mach) (cause unit pa : Nat) : Noted m (m.logErr cause unit pa) := by
  unfold Mach.logErr
  dsimp only
  split
  · split
    · exact ⟨_, _, _, _, _, _, _, _, _, _, rfl⟩
    · exact ⟨_, _, _, _, _, _, _, _, _, _, rfl⟩
  · split
    · exact ⟨_, _, _, _, _, _, _, _, _, _, rfl⟩
    · exact ⟨_, _, _, _, _, _, _, _, _, _, rfl⟩

theorem unitDone_noted (m : Mach) (key : Nat) : Noted m (m.unitDone key) := ⟨_, _, _, _, _, _, _, _, _, _, rfl⟩

theorem openDom_noted (m : Mach) (e : Eff) : Noted m (m.openDom e) := by
  unfold Mach.openDom
  dsimp only
  split
  · exact .refl m
  · exact ⟨_, _, _, _, _, _, _, _, _, _, rfl⟩

theorem eccFix_noted (m : Mach) (core loc len : Nat) : Noted m (m.eccFix core loc len) := by
  unfold Mach.eccFix
  dsimp only
  split
  · exact .refl m
  · exact ⟨_, _, _, _, _, _, _, _, _, _, rfl⟩

theorem hintsLog_noted (m : Mach) (l : List HintByte) : Noted m (m.hintsLog l) := Noted.fold (fun m _ => logErr_noted m _ _ _) _ m

theorem chainFix_noted (m : Mach) (chain : List (Nat × Eff)) : Noted m (m.chainFix chain) := Noted.fold (fun m _ => eccFix_noted m _ _ _) _ m

theorem bind_noted (m : Mach) (rcb : Nat) (e : Eff) : Noted m (m.bind rcb e) := by
  obtain ⟨b, c, h, -⟩ := bind_spec m rcb e
  rw [h]
  exact ⟨_, _, _, _, _, _, _, _, _, _, rfl⟩

theorem bindHeads_noted (m : Mach) : Noted m m.bindHeads := by
  obtain ⟨b, c, h⟩ := bindHeads_spec m
  rw [h]
  exact ⟨_, _, _, _, _, _, _, _, _, _, rfl⟩

/-- The record has left its queue, with a launch and its waves in its place. -/
structure Admitted (m m' : Mach) (p : Nat) (l : Launch) (ws : List Wave) : Prop where
  mem : m'.mem = m.mem
  threads : m'.threads = m.threads
  launches : m'.launches = m.launches ++ [l]
  waves : m'.waves = m.waves ++ ws
  queue : (m'.lport p).queue = (m.lport p).queue.drop 1

theorem Noted.admitted {m m1 m2 m3 : Mach} {p : Nat} {l : Launch} {ws : List Wave} {k : Nat} (hp : p < m.lports.length) (h : Noted m m1)
    (h' : Noted (m1.lpTake p) m2) (h'' : Noted ({ m2 with launches := m2.launches ++ [l], waves := m2.waves ++ ws, next := k } : Mach) m3) :
    Admitted m m3 p l ws := by
  obtain ⟨_, _, _, _, _, _, _, _, _, _, rfl⟩ := h
  obtain ⟨_, _, _, _, _, _, _, _, _, _, rfl⟩ := h'
  obtain ⟨_, _, _, _, _, _, _, _, _, _, rfl⟩ := h''
  exact ⟨rfl, rfl, rfl, rfl, congrArg LPort.queue (lport_setLport (m := m) _ hp)⟩

theorem launchAccept_rejects {sys : Sys} {m : Mach} {p st : Nat} {r : List Byte} {rest : List (List Byte)} (hp : p < m.lports.length)
    (hq : (m.lport p).queue = r :: rest) (hregion : m.region (recRcb (ofBytes r)) = none) (hfault : (m.lport p).fault = none)
    (hv : lpVerdict sys m p none (ofBytes r) ((m.lport p).answer.filter fun a => a != 0) = .reject st 0) :
    Admitted m (m.launchAccept sys p) p (launchOf m p (ofBytes r) 0 [] (some (st, 0))) [] := by
  unfold Mach.launchAccept
  dsimp only
  rw [hq]
  dsimp only
  rw [hregion, hfault, if_neg (by simp), if_neg (by simp), hv]
  dsimp only
  rw [if_neg (by decide), Option.isNone_none, if_pos rfl, Option.getD_none]
  have hdone : ∀ m1 : Mach, Noted m m1 →
      Admitted m ({ (m1.lpTake p).unitDone p with
        launches := ((m1.lpTake p).unitDone p).launches ++ [launchOf m1 p (ofBytes r) 0 [] (some (st, 0))],
        next := ((m1.lpTake p).unitDone p).next + 1 } : Mach).bindHeads p (launchOf m p (ofBytes r) 0 [] (some (st, 0))) [] := fun m1 h => by
    have hlaunch : launchOf m1 p (ofBytes r) 0 [] (some (st, 0)) = launchOf m p (ofBytes r) 0 [] (some (st, 0)) := by
      obtain ⟨_, _, _, _, _, _, _, _, _, _, rfl⟩ := h
      rfl
    rw [hlaunch]
    exact h.admitted (k := m1.next + 1) hp (unitDone_noted _ p) (Noted.trans (by rw [List.append_nil]; exact .refl _) (bindHeads_noted _))
  split
  · exact hdone _ (logErr_noted m _ _ _)
  · exact hdone _ (.refl m)

theorem launchAccept_noRegion (p : Nat) (r : List Byte) (rest : List (List Byte)) : StepsTo (.launchAccept p)
    (fun s => p < s.mach.lports.length ∧ (s.mach.lport p).queue = r :: rest ∧ (s.mach.lport p).fault = none ∧
      s.mach.region (bits (ofBytes r) 0 64) = none)
    fun s t => MemoryKept s t ∧ t.mach.waves = s.mach.waves ∧ (t.mach.lport p).queue = rest ∧
      ∃ l, t.mach.launches = s.mach.launches ++ [l] ∧ l.port = p ∧ l.tag = BitVec.ofNat 64 (bits (ofBytes r) 320 64) ∧
        l.ending = some (if recBad (ofBytes r) = true then 1 else 2, 0) := by
  rintro s - ⟨hp, hq, hfault, hregion⟩
  have hv : lpVerdict s.sys s.mach p none (ofBytes r) ((s.mach.lport p).answer.filter fun a => a != 0) =
      .reject (if recBad (ofBytes r) = true then 1 else 2) 0 := by
    unfold lpVerdict
    split <;> rfl
  have h := launchAccept_rejects hp hq hregion hfault hv
  refine ⟨_, rfl, fun a => congrArg (fun mem : Memory => mem.read a) h.mem, h.waves.trans (List.append_nil _), ?_, _, h.launches, rfl, rfl, rfl⟩
  refine h.queue.trans ?_
  rw [hq]
  rfl

theorem profOpen_none {sys : Sys} {m : Mach} {l : Nat} (h : (m.launch l).profva = 0) : m.profOpen sys l = m := if_pos h

theorem Noted.opened {sys : Sys} {m m1 m2 : Mach} {p : Nat} {l : Launch} {ws : List Wave} {k rcb : Nat} {e : Eff} (hp : p < m.lports.length)
    (hfresh : ∀ u ∈ m.launches, u.id ≠ l.id) (hprof : l.profva = 0) (h : Noted m m1) (h' : Noted (m1.lpTake p) m2) : Admitted m
      ((({ m2 with launches := m2.launches ++ [l], waves := m2.waves ++ ws, next := k } : Mach).bind rcb e).profOpen sys l.id).bindHeads p l ws := by
  have hbind := bind_noted ({ m2 with launches := m2.launches ++ [l], waves := m2.waves ++ ws, next := k } : Mach) rcb e
  have hadmit := h.admitted hp h' hbind
  have hfind : (({ m2 with launches := m2.launches ++ [l], waves := m2.waves ++ ws, next := k } : Mach).bind rcb e).launch l.id = l := by
    refine launch_of ?_
    unfold Mach.launch?
    rw [hadmit.launches, List.find?_append, List.find?_eq_none.2 fun u hu => by simp [hfresh u hu], Option.none_or, List.find?_cons,
      beq_self_eq_true]
  rw [profOpen_none (by rw [hfind]; exact hprof)]
  exact h.admitted hp h' (hbind.trans (bindHeads_noted _))

theorem launchAccept_admits {sys : Sys} {m : Mach} {p kh a : Nat} {r : List Byte} {rest : List (List Byte)} {e : Eff} {up : List (Nat × Eff)}
    (hp : p < m.lports.length) (hq : (m.lport p).queue = r :: rest) (hfault : (m.lport p).fault = none) (hanswer : (m.lport p).answer = none)
    (hregion : m.region (recRcb (ofBytes r)) = some ((a, e) :: up)) (hruns : targetRuns sys e.groves = true)
    (harmed : m.armed e (ofBytes r) = true) (hv : lpVerdict sys m p (some ((a, e) :: up)) (ofBytes r) none = .accept kh)
    (hprof : bits (ofBytes r) 512 64 = 0) (hhints : hintsAsk (hintBytes sys m (launchOf m p (ofBytes r) kh ((a, e) :: up) none)) = none)
    (hfresh : ∀ l ∈ m.launches, l.id ≠ m.next) :
    let la := launchOf m p (ofBytes r) kh ((a, e) :: up) none
    Admitted m (m.launchAccept sys p) p la ((List.range la.nwaves).map (rootWave sys m la)) := by
  intro la
  unfold Mach.launchAccept
  dsimp only
  rw [hq]
  dsimp only
  rw [hregion, Option.getD_some, List.headD_cons, hruns, harmed, if_neg (by simp), hfault, if_neg (by simp), hanswer, Option.filter_none, hv]
  dsimp only
  have hask : profAsk sys m la = none := if_pos hprof
  rw [hhints, Option.none_or, hask]
  dsimp only
  have hm1 := (hintsLog_noted m (hintBytes sys m la)).trans (chainFix_noted _ la.chain)
  have hm2 := (unitDone_noted (((m.hintsLog (hintBytes sys m la)).chainFix la.chain).lpTake p) p).trans (openDom_noted _ e)
  exact hm1.opened hp hfresh hprof hm2

theorem launchAccept_launch (p : Nat) (r : List Byte) (rest : List (List Byte)) (a : Nat) (e : Eff) (up : List (Nat × Eff)) (kh : Nat) :
    StepsTo (.launchAccept p)
    (fun s =>
      let n := ofBytes r
      p < s.mach.lports.length ∧ (s.mach.lport p).queue = r :: rest ∧ (s.mach.lport p).fault = none ∧ (s.mach.lport p).answer = none ∧
      s.mach.region (bits n 0 64) = some ((a, e) :: up) ∧ targetRuns s.sys e.groves = true ∧ s.mach.armed e n = true ∧
      lpVerdict s.sys s.mach p (some ((a, e) :: up)) n none = .accept kh ∧ bits n 512 64 = 0 ∧
      hintsAsk (hintBytes s.sys s.mach (launchOf s.mach p n kh ((a, e) :: up) none)) = none ∧
      ∀ l ∈ s.mach.launches, l.id ≠ s.mach.next)
    fun s t =>
      let n := ofBytes r
      MemoryKept s t ∧ t.mach.threads = s.mach.threads ∧ (t.mach.lport p).queue = rest ∧
      ∃ l ws, t.mach.launches = s.mach.launches ++ [l] ∧ t.mach.waves = s.mach.waves ++ ws ∧ l.ending = none ∧ l.retired = false ∧
        l.tag = BitVec.ofNat 64 (bits n 320 64) ∧ l.eff = e ∧ l.regs = bits kh 40 6 ∧ l.entry = bits n 64 64 + bits kh 64 32 ∧
        l.nwaves = bits n 384 32 ∧ ws.length = l.nwaves ∧
        ∀ i w, ws[i]? = some w → w.launch = l.id ∧ w.number = i ∧ w.core = none ∧ w.baseTid = i * (8 * (l.qpw + 1)) ∧
          w.live = 8 * (l.qpw + 1) ∧ w.entry.toNat = l.entry % 2 ^ 57 ∧ w.arg = BitVec.ofNat 64 (bits n 128 64) := by
  rintro s - ⟨hp, hq, hfault, hanswer, hregion, hruns, harmed, hv, hprof, hhints, hfresh⟩
  have h := launchAccept_admits hp hq hfault hanswer hregion hruns harmed hv hprof hhints hfresh
  refine ⟨_, rfl, fun x => congrArg (fun mem : Memory => mem.read x) h.mem, h.threads, ?_, _, _, h.launches, h.waves, rfl, rfl, rfl, rfl, rfl, rfl,
    rfl, by rw [List.length_map, List.length_range], fun i w hw => ?_⟩
  · refine h.queue.trans ?_
    rw [hq]
    rfl
  · rw [List.getElem?_map] at hw
    obtain ⟨j, hj, rfl⟩ := Option.map_eq_some_iff.1 hw
    obtain ⟨-, rfl⟩ := List.getElem?_eq_some_iff.1 hj
    rw [List.getElem_range]
    exact ⟨rfl, rfl, rfl, by simp only [rootWave]; ring, rfl, rfl, rfl⟩

end Sys2Proof.Machine
end

section
/-! SUPPORT. Launches: their retirement (spec/03 R106) and the entry of waves (spec/04 R114-R117, spec/03 R108). -/

namespace Sys2Proof.Machine

/-! ### Retirement -/

/-- What a retirement writes besides memory: order, stamps and releases. -/
def Written (m m' : Mach) : Prop := ∃ d e s o r n q, m' = { m with
  mem := m'.mem, eccDouble := d, eccSingle := e, stamps := s, doms := o, relAt := r, rcOn := n, order := q }

theorem Wrote.written {m m' : Mach} (h : Wrote m m') : Written m m' := ⟨_, _, _, _, _, _, _, h.frame⟩

theorem Written.trans {a b c : Mach} (h : Written a b) (h' : Written b c) : Written a c := by
  obtain ⟨_, _, _, _, _, _, _, hb⟩ := h
  obtain ⟨d, e, s, o, r, n, q, hc⟩ := h'
  exact ⟨d, e, s, o, r, n, q, by rw [hc, hb]⟩

theorem writeRecord_spec {m : Mach} (la : Launch) {loc : Nat} (hmap : m.mapped loc = false) (hmap8 : m.mapped (loc + 8) = false) :
    Written m (m.writeRecord la loc) ∧
    (m.writeRecord la loc).mem = (m.mem.put (loc + 8) (toBytes la.tag.toNat 8)).put loc la.word := by
  unfold Mach.writeRecord
  dsimp only
  obtain ⟨htag, hmem⟩ := store_wrote (toBytes la.tag.toNat 8) (some clearStamp) hmap8
  generalize m.store (loc + 8) (toBytes la.tag.toNat 8) (some clearStamp) = m1 at *
  have hsync : Written m1 (m1.sync 0 6 true false (.loc loc)) := ⟨_, _, _, _, _, _, _, rfl⟩
  obtain ⟨hword, hmem'⟩ := store_wrote (m := m1.sync 0 6 true false (.loc loc)) la.word (some clearStamp)
    ((htag.mapped loc).trans hmap)
  generalize (m1.sync 0 6 true false (.loc loc)).store loc la.word (some clearStamp) = m2 at *
  have h2 := (htag.written.trans hsync).trans hword.written
  have hmem2 : m2.mem = (m.mem.put (loc + 8) (toBytes la.tag.toNat 8)).put loc la.word := by
    rw [hmem']
    show m1.mem.put loc la.word = _
    rw [hmem]
  split
  · exact ⟨h2, hmem2⟩
  · exact ⟨h2.trans ⟨_, _, _, _, _, _, _, rfl⟩, hmem2⟩

/-! ### The end of a launch -/

/-- Counters, and what waits for them. -/
def Counted (m m' : Mach) : Prop := ∃ q c p, m' = { m with order := q, ctrs := c, qpairs := p }

theorem Counted.trans {a b c : Mach} (h : Counted a b) (h' : Counted b c) : Counted a c := by
  obtain ⟨_, _, _, rfl⟩ := h
  obtain ⟨_, _, _, rfl⟩ := h'
  exact ⟨_, _, _, rfl⟩

theorem setCtr_counted (m : Mach) (c : Ctr) : Counted m (m.setCtr c) := ⟨_, _, _, rfl⟩

/-- The releases of waves on a counter leave its value. -/
theorem ctrReleases_counted (rcb idx : Nat) (rs : List (Nat × Nat)) : ∀ m : Mach,
    Counted m (rs.foldl (fun m r => m.ctrRelease rcb idx r) m) ∧
    ((rs.foldl (fun m r => m.ctrRelease rcb idx r) m).ctr rcb idx).val = (m.ctr rcb idx).val := by
  induction rs with
  | nil => exact fun m => ⟨⟨_, _, _, rfl⟩, rfl⟩
  | cons r rs ih =>
    intro m
    obtain ⟨hrest, hval⟩ := ih (m.ctrRelease rcb idx r)
    refine ⟨(setCtr_counted m _).trans hrest, ?_⟩
    rw [List.foldl_cons, hval]
    unfold Mach.ctrRelease
    rw [ctr_setCtr]
    obtain ⟨hrcb, hidx⟩ := ctr_key m rcb idx
    rw [if_pos (And.intro hrcb hidx)]

/-- What a launch that has not failed adds to its counter. -/
theorem retireCount_spec (m : Mach) (la : Launch) (rs : List (Nat × Nat)) :
    let m1 := rs.foldl (fun m r => m.ctrRelease la.rcb la.donectr r)
      ((m.sync 0 6 true false (.ctr la.rcb la.donectr)).ctrAdd la.rcb la.donectr 1 none)
    Counted m m1 ∧ (m1.ctr la.rcb la.donectr).val = ((m.ctr la.rcb la.donectr).val + 1) % 2 ^ 32 := by
  intro m1
  have hsync : Counted m (m.sync 0 6 true false (.ctr la.rcb la.donectr)) := ⟨_, _, _, rfl⟩
  have hadd : Counted m ((m.sync 0 6 true false (.ctr la.rcb la.donectr)).ctrAdd la.rcb la.donectr 1 none) :=
    hsync.trans (setCtr_counted _ _)
  obtain ⟨hrest, hval⟩ := ctrReleases_counted la.rcb la.donectr rs
    ((m.sync 0 6 true false (.ctr la.rcb la.donectr)).ctrAdd la.rcb la.donectr 1 none)
  refine ⟨hadd.trans hrest, hval.trans ?_⟩
  obtain ⟨hrcb, hidx⟩ := ctr_key m la.rcb la.donectr
  unfold Mach.ctrAdd
  rw [ctr_setCtr]
  exact congrArg Ctr.val (if_pos ⟨hrcb, hidx⟩)

theorem modLaunch_frame (m : Mach) (k : Nat) (f : Launch → Launch) : ∃ ls, m.modLaunch k f = { m with launches := ls } := by
  unfold Mach.modLaunch
  cases m.launch? k with
  | none => exact ⟨m.launches, rfl⟩
  | some l => exact ⟨_, rfl⟩

/-- A launch is gone from the machine `m`, which becomes `m'`: the route entry of its port fires, its launch is retired, its threads are none. -/
structure Left (m m' : Mach) (la : Launch) : Prop where
  mem : m'.mem = m.mem
  fired : m'.fired = m.fired ++ [176 + la.port]
  cxlErrs : m'.cxlErrs = m.cxlErrs
  secnt : m'.secnt = m.secnt
  lports : m'.lports = m.lports
  ctrs : ∀ k idx, (∃ x ∈ m.bound, x.1 = k) → m'.ctr k idx = m.ctr k idx
  launches : ∀ u ∈ m'.launches, u.retired = true
  threads : ∀ T ∈ m'.threads, T.launch ≠ la.id

/-- Blocks that are named stay bound, so the counters of a block that was bound stay. -/
theorem unbind_ctr {m : Mach} {k : Nat} (idx : Nat) (h : ∃ x ∈ m.bound, x.1 = k) : m.unbind.bindHeads.ctr k idx = m.ctr k idx := by
  refine (bindHeads_ctr idx ?_).trans rfl
  by_cases hnamed : ∃ l ∈ m.lports, ∃ r ∈ l.queue, recRcb (ofBytes r) = k
  · obtain ⟨x, hx, hk⟩ := h
    obtain ⟨l, hl, r, hr, hrcb⟩ := hnamed
    refine .inl ⟨x, List.mem_filter.2 ⟨hx, ?_⟩, hk⟩
    exact Bool.or_eq_true_iff.2 (.inr (List.any_eq_true.2 ⟨l, hl, List.any_eq_true.2 ⟨r, hr, beq_iff_eq.2 (hrcb.trans hk.symm)⟩⟩))
  · exact .inr fun l hl r hr hrcb => hnamed ⟨l, hl, r, hr, hrcb⟩

/-- What the end of a launch leaves of the machine besides its threads and units. -/
structure Cleared (m m' : Mach) (l : Nat) : Prop where
  mem : m'.mem = m.mem
  fired : m'.fired = m.fired
  cxlErrs : m'.cxlErrs = m.cxlErrs
  secnt : m'.secnt = m.secnt
  lports : m'.lports = m.lports
  ctrs : m'.ctrs = m.ctrs
  bound : m'.bound = m.bound
  launches : m'.launches = m.launches
  threads : ∀ T ∈ m'.threads, T.launch ≠ l

theorem launchGone_cleared (m : Mach) (l : Nat) : Cleared m (m.launchGone l) l := by
  have hout : ∀ T ∈ (m.launchGone l).threads, T.launch ≠ l := fun _ hT => bne_iff_ne.1 (List.mem_filter.1 hT).2
  refine ⟨?_, ?_, ?_, ?_, ?_, ?_, ?_, ?_, hout⟩
  · rfl
  · rfl
  · rfl
  · rfl
  · rfl
  · rfl
  · rfl
  · rfl

theorem launch_leaves {m : Mach} {la : Launch} (h : m.launches = [la]) : Left m
    ((((m.launchGone la.id).fire (176 + la.port)).modLaunch la.id fun l => { l with retired := true }).purge.unbind.bindHeads) la := by
  have hgone := launchGone_cleared m la.id
  generalize m.launchGone la.id = m0 at hgone
  obtain ⟨ls, hmod⟩ := modLaunch_frame (m0.fire (176 + la.port)) la.id fun l => { l with retired := true }
  have hset := modLaunch_single (m := m0.fire (176 + la.port)) (f := fun l => { l with retired := true }) (hgone.launches.trans h) rfl
  rw [hmod] at hset ⊢
  have hctrs : ∀ k idx, (∃ x ∈ m0.bound, x.1 = k) →
      ({ m0.fire (176 + la.port) with launches := ls } : Mach).purge.unbind.bindHeads.ctr k idx = m0.ctr k idx := fun k idx hk =>
    (unbind_ctr (m := ({ m0.fire (176 + la.port) with launches := ls } : Mach).purge) idx hk).trans rfl
  obtain ⟨b, c, hbind⟩ := bindHeads_spec ({ m0.fire (176 + la.port) with launches := ls } : Mach).purge.unbind
  refine ⟨?_, ?_, ?_, ?_, ?_, fun k idx hk => (hctrs k idx (hgone.bound ▸ hk)).trans ?_, fun u hu => ?_, fun T hT => ?_⟩
  · rw [hbind]; exact hgone.mem
  · rw [hbind]; exact congrArg (fun l => l ++ [176 + la.port]) hgone.fired
  · rw [hbind]; exact hgone.cxlErrs
  · rw [hbind]; exact hgone.secnt
  · rw [hbind]; exact hgone.lports
  · unfold Mach.ctr Mach.ctr?
    rw [hgone.ctrs]
  · rw [hbind] at hu
    have hmem : u ∈ ls := (List.mem_filter.1 hu).1
    rw [show ls = [{ la with retired := true }] from hset, List.mem_singleton] at hmem
    rw [hmem]
  · rw [hbind] at hT
    exact hgone.threads T hT

/-- The last steps of a retirement, once its counter has been told. -/
def leaveLaunch (m : Mach) (la : Launch) : Mach :=
  ((((m.setLport la.port { m.lport la.port with retired := ((m.lport la.port).retired + 1) % 2 ^ 32 }).launchGone la.id).fire
    (176 + la.port)).modLaunch la.id fun l => { l with retired := true }).purge.unbind.bindHeads

theorem retireEnd_eq {m : Mach} {la : Launch} (hends : la.ending = none) (hctr : la.donectr ≠ 0xFFFF) :
    m.retireEnd la = leaveLaunch ((m.waveRels la).foldl (fun m r => m.ctrRelease la.rcb la.donectr r)
      ((m.sync 0 6 true false (.ctr la.rcb la.donectr)).ctrAdd la.rcb la.donectr 1 none)) la := by
  refine congrArg (fun m => leaveLaunch m la) (if_pos ?_)
  rw [hends, bne_iff_ne.2 hctr]
  rfl

theorem retireEnd_leaves {m : Mach} {la : Launch} (hends : la.ending = none) (hctr : la.donectr ≠ 0xFFFF) (h : m.launches = [la])
    (hport : la.port < m.lports.length) (hbound : ∃ x ∈ m.bound, x.1 = la.rcb) :
    (m.retireEnd la).mem = m.mem ∧ (m.retireEnd la).fired = m.fired ++ [176 + la.port] ∧ (m.retireEnd la).cxlErrs = m.cxlErrs ∧
    (m.retireEnd la).secnt = m.secnt ∧ ((m.retireEnd la).lport la.port).retired = ((m.lport la.port).retired + 1) % 2 ^ 32 ∧
    ((m.retireEnd la).ctr la.rcb la.donectr).val = ((m.ctr la.rcb la.donectr).val + 1) % 2 ^ 32 ∧
    (∀ u ∈ (m.retireEnd la).launches, u.retired = true) ∧ ∀ T ∈ (m.retireEnd la).threads, T.launch ≠ la.id := by
  obtain ⟨⟨q, c, p, hcount⟩, hval⟩ := retireCount_spec m la (m.waveRels la)
  rw [retireEnd_eq hends hctr]
  generalize (m.waveRels la).foldl (fun m r => m.ctrRelease la.rcb la.donectr r)
    ((m.sync 0 6 true false (.ctr la.rcb la.donectr)).ctrAdd la.rcb la.donectr 1 none) = m1 at *
  have hlports : m1.lports = m.lports := by rw [hcount]
  have hlport : m1.lport la.port = m.lport la.port := by rw [hcount]; rfl
  obtain ⟨hmem, hfired, hcxl, hsecnt, hports, hctrs, hret, hthr⟩ := launch_leaves
    (m := m1.setLport la.port { m1.lport la.port with retired := ((m1.lport la.port).retired + 1) % 2 ^ 32 }) (la := la)
    (by rw [hcount]; exact h)
  refine ⟨hmem.trans (by rw [hcount]; rfl), hfired.trans (by rw [hcount]; rfl), hcxl.trans (by rw [hcount]; rfl),
    hsecnt.trans (by rw [hcount]; rfl), ?_, ?_, hret, hthr⟩
  · have hset := lport_setLport (m := m1) { m1.lport la.port with retired := ((m1.lport la.port).retired + 1) % 2 ^ 32 }
      (by rw [hlports]; exact hport)
    have hkept : (leaveLaunch m1 la).lport la.port =
        (m1.setLport la.port { m1.lport la.port with retired := ((m1.lport la.port).retired + 1) % 2 ^ 32 }).lport la.port :=
      congrArg (fun l : List LPort => l.getD la.port {}) hports
    rw [hkept, hset, ← hlport]
  · exact (congrArg Ctr.val (hctrs la.rcb la.donectr (by rw [hcount]; exact hbound))).trans hval

theorem launchRetire_completes (l : Launch) (loc : Nat) : StepsTo (.launchRetire l.id)
    (fun s => s.mach.launches = [l] ∧ l.retired = false ∧ l.ending = none ∧ s.mach.allExited l.id = true ∧ l.profva = 0 ∧
      cplDo s.sys s.mach l = .write loc ∧ s.mach.mapped loc = false ∧ s.mach.mapped (loc + 8) = false ∧ s.mach.mem.wf = true ∧
      l.port < s.mach.lports.length ∧ l.donectr ≠ 0xFFFF ∧ ∃ b ∈ s.mach.bound, b.1 = l.rcb)
    fun s t => Stored s t loc (List.replicate 8 0 ++ toBytes l.tag.toNat 8) ∧
      (t.mach.lport l.port).retired = ((s.mach.lport l.port).retired + 1) % 2 ^ 32 ∧
      (t.mach.ctr l.rcb l.donectr).val = ((s.mach.ctr l.rcb l.donectr).val + 1) % 2 ^ 32 ∧
      t.sys.irq = s.sys.irq.deliver (176 + l.port) ∧ (∀ u ∈ t.mach.launches, u.retired = true) ∧
      ∀ T ∈ t.mach.threads, T.launch ≠ l.id := by
  rintro s hs ⟨hl, hret, hends, hexited, hprof, hdo, hmap, hmap8, hwf, hport, hctr, hbound⟩
  have hfind := launch?_single hl
  have hretirable : s.mach.retirable l = true := by
    unfold Mach.retirable
    rw [hret, hends, live_going hret hends, Option.isSome_none, if_neg Bool.false_ne_true, hexited]
    rfl
  have hflush : s.mach.profFlush s.sys l.id = s.mach := if_pos (by rw [launch_of hfind]; exact hprof)
  have hstep : s.mach.launchRetire s.sys l.id =
      (((s.mach.writeRecord l loc).unitDone (tagKey l.id)).unitDone (wordKey l.id)).retireEnd l := by
    unfold Mach.launchRetire
    rw [hfind]
    dsimp only
    rw [hretirable, hflush, ite_self, hdo]
    rfl
  obtain ⟨⟨d, e, s', o, r, n, q, hframe⟩, hmem⟩ := writeRecord_spec l hmap hmap8
  generalize s.mach.writeRecord l loc = m1 at *
  have hkept : m1.launches = s.mach.launches ∧ m1.lports = s.mach.lports ∧ m1.bound = s.mach.bound ∧ m1.fired = s.mach.fired ∧
      m1.cxlErrs = s.mach.cxlErrs ∧ m1.secnt = s.mach.secnt ∧ m1.ctrs = s.mach.ctrs := by
    rw [hframe]
    exact ⟨rfl, rfl, rfl, rfl, rfl, rfl, rfl⟩
  obtain ⟨hlaunches, hlports, hboundKept, hfired, hcxl, hsecnt, hctrs⟩ := hkept
  obtain ⟨hmem', hfired', hcxl', hsecnt', hretired, hval, hret', hthr⟩ := retireEnd_leaves (la := l)
    (m := (m1.unitDone (tagKey l.id)).unitDone (wordKey l.id)) hends hctr (hlaunches.trans hl) (by
      show l.port < m1.lports.length
      rw [hlports]
      exact hport) (by
      show ∃ x ∈ m1.bound, x.1 = l.rcb
      rw [hboundKept]
      exact hbound)
  generalize ((m1.unitDone (tagKey l.id)).unitDone (wordKey l.id)).retireEnd l = m2 at *
  have hexec : exec (.launchRetire l.id) s = .next (s.withBoth { s.sys with irq := s.sys.irq.deliver (176 + l.port) } { m2 with fired := [] }) :=
    onMach_fires (f := fun sys m => m.launchRetire sys l.id) hs hstep (hfired'.trans (congrArg (fun f => f ++ [176 + l.port]) hfired))
      (hcxl'.trans hcxl) (hsecnt'.trans hsecnt)
  refine ⟨_, hexec, ?_, hretired.trans ?_, hval.trans ?_, rfl, hret', hthr⟩
  · have hword : l.word = List.replicate 8 0 := by
      unfold Launch.word
      rw [hends]
      rfl
    have hput : m2.mem = (s.mach.mem.put (loc + 8) (toBytes l.tag.toNat 8)).put loc (List.replicate 8 0) :=
      hmem'.trans (hmem.trans (by rw [hword]))
    have hwf' := Memory.wf_put _ (loc + 8) (toBytes l.tag.toNat 8) hwf
    have hlen : (List.replicate 8 (0 : Byte) ++ toBytes l.tag.toNat 8).length = 16 := by rw [List.length_append, toBytes_length, List.length_replicate]
    refine ⟨fun i hi => ?_, fun a ha => ?_⟩
    · show m2.mem.read _ = _
      rw [hput, Memory.read_put _ _ _ _ hwf', List.length_replicate]
      by_cases hlow : i < 8
      · rw [if_pos (by omega), Nat.add_sub_cancel_left, List.getD_append _ _ _ _ (by rw [List.length_replicate]; exact hlow)]
      · rw [if_neg (by omega), Memory.read_put _ _ _ _ hwf, toBytes_length, if_pos (by omega),
          List.getD_append_right _ _ _ _ (by rw [List.length_replicate]; omega), List.length_replicate,
          show loc + i - (loc + 8) = i - 8 by omega]
    · show m2.mem.read _ = _
      rw [hlen] at ha
      rw [hput, Memory.read_put _ _ _ _ hwf', List.length_replicate, if_neg (by omega), Memory.read_put _ _ _ _ hwf, toBytes_length,
        if_neg (by omega)]
  · exact congrArg (fun ls : List LPort => ((ls.getD l.port {}).retired + 1) % 2 ^ 32) hlports
  · exact congrArg (fun cs : List Ctr => (((cs.find? fun c => c.rcb == l.rcb && c.idx == l.donectr).getD
      { rcb := l.rcb, idx := l.donectr, val := 0 }).val + 1) % 2 ^ 32) hctrs

/-! ### Waves that enter -/

/-- A thread `j` of a wave as it enters a core (spec/03 R108). -/
structure Entrant (w : Wave) (core j : Nat) (T : Thread) : Prop where
  tid : T.tid = w.baseTid + j
  wave : T.wave = w.id
  core : T.core = core
  pc : T.pc = w.entry
  homeQ : T.homeQ = j / 8
  arg : T.regs.take 2 = [w.arg.setWidth 32, (w.arg >>> 32).setWidth 32]
  length : T.regs.length = 8 * w.regs
  zero : ∀ k, 4 ≤ k → T.regs.getD k 0 = 0
  flags : T.flags = List.replicate 12 0
  rets : T.rets = []
  pend : T.pend = []
  launch : T.launch = w.launch

theorem entryThread_entrant (m : Mach) {w : Wave} (core j : Nat) (hregs : 1 ≤ w.regs) : Entrant w core j (entryThread m w core j) := by
  refine ⟨rfl, rfl, rfl, rfl, rfl, rfl, ?_, fun k hk => ?_, rfl, rfl, rfl, rfl⟩
  · show (_ ++ List.replicate (8 * w.regs - 4) (0 : Word)).length = _
    rw [List.length_append, List.length_replicate]
    show 4 + (8 * w.regs - 4) = _
    omega
  · show (_ ++ List.replicate (8 * w.regs - 4) (0 : Word)).getD k 0 = 0
    rw [List.getD_append_right _ _ _ _ hk, List.getD_eq_getElem?_getD, List.getElem?_replicate]
    split <;> rfl

/-- Threads that enter move about: they stay entrants of their wave. -/
structure Enters (w : Wave) (core : Nat) (m m' : Mach) : Prop where
  mem : m'.mem = m.mem
  waves : m'.waves = m.waves
  launches : m'.launches = m.launches
  length : m'.threads.length = m.threads.length
  stay : ∀ k j T, m.thr? k = some T → Entrant w core j T → ∃ U, m'.thr? k = some U ∧ Entrant w core j U

theorem Enters.refl {w : Wave} {core : Nat} (m : Mach) : Enters w core m m := ⟨rfl, rfl, rfl, rfl, fun _ _ T h hT => ⟨T, h, hT⟩⟩

theorem Enters.trans {w : Wave} {core : Nat} {a b c : Mach} (h : Enters w core a b) (h' : Enters w core b c) : Enters w core a c where
  mem := h'.mem.trans h.mem
  waves := h'.waves.trans h.waves
  launches := h'.launches.trans h.launches
  length := h'.length.trans h.length
  stay k j T hk hT := by
    obtain ⟨U, hU, hent⟩ := h.stay k j T hk hT
    exact h'.stay k j U hU hent

theorem modThr_enters {w : Wave} {core : Nat} {m : Mach} {i : Nat} {f : Thread → Thread} (hi : (m.thr? i).isSome) (hid : ∀ t, (f t).id = t.id)
    (hf : ∀ j t, Entrant w core j t → Entrant w core j (f t)) : Enters w core m (m.modThr i f) where
  mem := rfl
  waves := rfl
  launches := rfl
  length := List.length_map _
  stay k j T hk hT := by
    rw [thr?_modThr m i f hid hi, hk, Option.map_some]
    refine ⟨_, rfl, ?_⟩
    split
    · exact hf j T hT
    · exact hT

theorem fileAt_enters {w : Wave} {core : Nat} {m : Mach} {i j : Nat} {T : Thread} (hi : m.thr? i = some T) (hT : Entrant w core j T)
    (hends : (m.launch w.launch).ending = none) : Enters w core m (m.fileAt i w.entry true) := by
  have hfile : m.fileAt i w.entry true = (m.modThr i fun t => { t.boundary with waitSince := none }).enterFiling i
      { tid := i, pc := w.entry, reform := true } := by
    unfold Mach.fileAt
    dsimp only
    rw [thr_of hi, hT.launch, hends]
    rfl
  rw [hfile]
  have hsome : (m.thr? i).isSome := by rw [hi]; rfl
  have hmid : Enters w core m (m.modThr i fun t => { t.boundary with waitSince := none }) := modThr_enters hsome (fun _ => rfl)
    fun j t h => ⟨h.tid, h.wave, h.core, h.pc, h.homeQ, h.arg, h.length, h.zero, h.flags, h.rets, h.pend, h.launch⟩
  obtain ⟨U, hU, -⟩ := hmid.stay i j T hi hT
  have hend : Enters w core (m.modThr i fun t => { t.boundary with waitSince := none })
      ((m.modThr i fun t => { t.boundary with waitSince := none }).modThr i fun t => { t with stat := .filing, pc := w.entry }) :=
    modThr_enters (by rw [hU]; rfl) (fun _ => rfl)
      fun j t h => ⟨h.tid, h.wave, h.core, rfl, h.homeQ, h.arg, h.length, h.zero, h.flags, h.rets, h.pend, h.launch⟩
  exact hmid.trans (hend.trans ⟨rfl, rfl, rfl, rfl, fun _ _ T h hT => ⟨T, h, hT⟩⟩)

theorem enterFiled_enters {w : Wave} {core : Nat} (ids : List Nat) : ∀ {m : Mach}, (m.launch w.launch).ending = none →
    (∀ i ∈ ids, ∃ j T, m.thr? i = some T ∧ Entrant w core j T) → Enters w core m (ids.foldl (fun m id => m.fileAt id w.entry true) m) := by
  induction ids with
  | nil => exact fun _ _ => .refl _
  | cons i ids ih =>
    intro m hends hall
    obtain ⟨j, T, hi, hT⟩ := hall i List.mem_cons_self
    have hone := fileAt_enters hi hT hends
    refine hone.trans (ih ?_ fun k hk => ?_)
    · unfold Mach.launch Mach.launch? at hends ⊢
      rw [hone.launches]
      exact hends
    · obtain ⟨j', T', hk', hT'⟩ := hall k (List.mem_cons_of_mem _ hk)
      exact ⟨j', hone.stay k j' T' hk' hT'⟩

theorem modAll_enters {w : Wave} {core : Nat} (ids : List Nat) {f : Thread → Thread} (hid : ∀ t, (f t).id = t.id)
    (hf : ∀ j t, Entrant w core j t → Entrant w core j (f t)) (m : Mach) : Enters w core m (m.modAll ids f) where
  mem := rfl
  waves := rfl
  launches := rfl
  length := List.length_map _
  stay k j T hk hT := by
    rw [thr?_modAll m ids f hid, hk, Option.map_some]
    refine ⟨_, rfl, ?_⟩
    split
    · exact hf j T hT
    · exact hT

theorem enterGang_enters {w : Wave} {core : Nat} (m : Mach) (ids : List Nat) : Enters w core m (m.enterGang w core ids) := by
  have hall : ∀ (qs : List Quarter) (m : Mach), Enters w core m
      (qs.foldl (fun m q => m.modAll q.tids fun t => { t with stat := .run q.id }) m) := by
    intro qs
    induction qs with
    | nil => exact Enters.refl
    | cons q qs ih =>
      intro m
      rw [List.foldl_cons]
      exact (modAll_enters q.tids (f := fun t => { t with stat := .run q.id }) (fun _ => rfl) (fun j t h =>
        ⟨h.tid, h.wave, h.core, h.pc, h.homeQ, h.arg, h.length, h.zero, h.flags, h.rets, h.pend, h.launch⟩) m).trans (ih (m.modAll q.tids fun t => { t with stat := .run q.id }))
  unfold Mach.enterGang
  dsimp only
  exact (hall _ m).trans ⟨rfl, rfl, rfl, rfl, fun _ _ T h hT => ⟨T, h, hT⟩⟩

/-- The threads of a wave are found by their keys. -/
theorem placed_thr? {m : Mach} {w : Wave} {core n j : Nat} (hfresh : ∀ T ∈ m.threads, T.id < m.next) (hj : j < n) :
    (m.threads ++ (List.range n).map (entryThread m w core)).find? (fun t => t.id == m.next + j) = some (entryThread m w core j) := by
  have hold : m.threads.find? (fun t => t.id == m.next + j) = none := List.find?_eq_none.2 fun T hT => by
    have hlt := hfresh T hT
    simp only [beq_iff_eq]
    omega
  have hnew : (List.range n).find? ((fun t : Thread => t.id == m.next + j) ∘ entryThread m w core) = some j :=
    List.find?_range_eq_some.2 ⟨by simp [entryThread], by simpa using hj, fun i hi => by simp [entryThread]; omega⟩
  rw [List.find?_append, hold, Option.none_or, List.find?_map, hnew]
  rfl

theorem wakeCore_frame (m : Mach) (core : Nat) : ∃ c, m.wakeCore core = { m with cores := c } := by
  unfold Mach.wakeCore
  split
  · exact ⟨_, rfl⟩
  · exact ⟨_, rfl⟩
  · exact ⟨m.cores, rfl⟩

/-- A wave on its core. -/
def Wave.seated (w : Wave) (core base : Nat) : Wave := { w with core := some core, scrBase := base }

/-- The machine with a wave on its core and its threads in the table, before they are filed or ganged. -/
def Mach.seated (m : Mach) (w : Wave) (core base : Nat) : Mach :=
  { ((m.setWave (w.seated core base)).stampRange (w.seated core base).scrAt (w.seated core base).scrBytes clearStamp).dropCopies core with
    threads := m.threads ++ (List.range (8 * (w.qpw + 1))).map (entryThread m w core)
    next := m.next + ((List.range (8 * (w.qpw + 1))).map (entryThread m w core)).length
    dispatchAt := put m.dispatchAt (coreGrove core) m.cycle }

/-- The keys of the threads of a wave that enters. -/
def entryIds (m : Mach) (w : Wave) (core : Nat) : List Nat :=
  ((List.range (8 * (w.qpw + 1))).map (entryThread m w core)).map fun t => t.id

theorem place_eq (m : Mach) (w : Wave) (core base : Nat) : m.place w core base =
    (if w.qpw = 3 then (m.seated w core base).enterGang (w.seated core base) core (entryIds m w core)
      else (m.seated w core base).enterFiled (w.seated core base) (entryIds m w core)).wakeCore core := by
  obtain ⟨st, hst⟩ := stampRange_frame (m.setWave (w.seated core base)) (w.seated core base).scrAt (w.seated core base).scrBytes clearStamp
  unfold Mach.place Mach.seated
  dsimp only
  unfold Wave.seated at *
  rw [hst]
  rfl

theorem seated_spec {m : Mach} {w : Wave} {base : Nat} (core : Nat) (hwave : m.wave? w.id = some w) (hregs : 1 ≤ w.regs)
    (hfresh : ∀ T ∈ m.threads, T.id < m.next) :
    (m.seated w core base).mem = m.mem ∧ (m.seated w core base).launches = m.launches ∧
    (m.seated w core base).wave? w.id = some (w.seated core base) ∧
    (m.seated w core base).threads.length = m.threads.length + 8 * (w.qpw + 1) ∧
    ∀ i, i < 8 * (w.qpw + 1) → ∃ T, (m.seated w core base).thr? (m.next + i) = some T ∧ Entrant (w.seated core base) core i T := by
  obtain ⟨st, hst⟩ := stampRange_frame (m.setWave (w.seated core base)) (w.seated core base).scrAt (w.seated core base).scrBytes clearStamp
  refine ⟨?_, ?_, ?_, ?_, fun i hi => ⟨_, placed_thr? hfresh hi, ?_⟩⟩
  · unfold Mach.seated
    rw [hst]
    rfl
  · unfold Mach.seated
    rw [hst]
    rfl
  · have hset := find?_replace Wave.id m.waves (w.seated core base) w.id
    rw [if_pos (show (w.seated core base).id = w.id from rfl)] at hset
    unfold Mach.seated
    rw [hst]
    refine Eq.trans hset ?_
    exact congrArg (Option.map fun _ => w.seated core base) hwave
  · show (m.threads ++ _).length = _
    rw [List.length_append, List.length_map, List.length_range]
  · exact entryThread_entrant m (w := w.seated core base) core i hregs

/-- A wave that is placed on a core: the wave and its threads. -/
theorem place_enters {m : Mach} {w : Wave} {base : Nat} (core : Nat) (hwave : m.wave? w.id = some w) (hends : (m.launch w.launch).ending = none)
    (hregs : 1 ≤ w.regs) (hfresh : ∀ T ∈ m.threads, T.id < m.next) :
    (m.place w core base).mem = m.mem ∧ (m.place w core base).wave? w.id = some (w.seated core base) ∧
    (m.place w core base).threads.length = m.threads.length + 8 * (w.qpw + 1) ∧
    ∀ i, i < 8 * (w.qpw + 1) → ∃ T ∈ (m.place w core base).threads, Entrant (w.seated core base) core i T := by
  obtain ⟨hmem, hlaunches, hseat, hlength, hthr⟩ := seated_spec (base := base) core hwave hregs hfresh
  have hends' : ((m.seated w core base).launch (w.seated core base).launch).ending = none := by
    unfold Mach.launch Mach.launch? at hends ⊢
    rw [hlaunches]
    exact hends
  have hids : ∀ k ∈ entryIds m w core, ∃ j T, (m.seated w core base).thr? k = some T ∧ Entrant (w.seated core base) core j T := by
    intro k hk
    obtain ⟨T, hT, rfl⟩ := List.mem_map.1 hk
    obtain ⟨i, hi, rfl⟩ := List.mem_map.1 hT
    exact ⟨i, hthr i (List.mem_range.1 hi)⟩
  have henter : Enters (w.seated core base) core (m.seated w core base) (m.place w core base) := by
    rw [place_eq]
    have hin : Enters (w.seated core base) core (m.seated w core base)
        (if w.qpw = 3 then (m.seated w core base).enterGang (w.seated core base) core (entryIds m w core)
          else (m.seated w core base).enterFiled (w.seated core base) (entryIds m w core)) := by
      split
      · exact enterGang_enters _ _
      · exact enterFiled_enters _ hends' hids
    refine hin.trans ?_
    generalize (if w.qpw = 3 then (m.seated w core base).enterGang (w.seated core base) core (entryIds m w core)
      else (m.seated w core base).enterFiled (w.seated core base) (entryIds m w core)) = m1
    obtain ⟨c, hc⟩ := wakeCore_frame m1 core
    rw [hc]
    exact ⟨rfl, rfl, rfl, rfl, fun _ _ T h hT => ⟨T, h, hT⟩⟩
  refine ⟨henter.mem.trans hmem, ?_, henter.length.trans hlength, fun i hi => ?_⟩
  · unfold Mach.wave? at hseat ⊢
    rw [henter.waves]
    exact hseat
  · obtain ⟨T, hT, hent⟩ := hthr i hi
    obtain ⟨U, hU, hentU⟩ := henter.stay _ i T hT hent
    exact ⟨U, List.mem_of_find?_eq_some hU, hentU⟩

theorem waveDispatch_enters (core : Nat) (w : Wave) (base : Nat) : StepsTo (.waveDispatch core)
    (fun s => s.mach.choose s.sys core = some w ∧ s.mach.wave? w.id = some w ∧ scrFit (s.mach.scrHeld core) w.scrBytes = some base ∧
      s.mach.dispatchAt = [] ∧ (s.mach.launch w.launch).ending = none ∧ 1 ≤ w.regs ∧
      ∀ T ∈ s.mach.threads, T.id < s.mach.next)
    fun s t => MemoryKept s t ∧ (∃ w', t.mach.wave? w.id = some w' ∧ w'.core = some core ∧ w'.scrBase = base) ∧
      t.mach.threads.length = s.mach.threads.length + 8 * (w.qpw + 1) ∧
      ∀ i, i < 8 * (w.qpw + 1) → ∃ T ∈ t.mach.threads, T.tid = w.baseTid + i ∧ T.wave = w.id ∧ T.core = core ∧ T.pc = w.entry ∧
        T.homeQ = i / 8 ∧ T.regs.take 2 = [w.arg.setWidth 32, (w.arg >>> 32).setWidth 32] ∧ T.regs.length = 8 * w.regs ∧
        (∀ k, 4 ≤ k → T.regs.getD k 0 = 0) ∧ T.flags = List.replicate 12 0 ∧ T.rets = [] ∧ T.pend = [] := by
  rintro s - ⟨hchoose, hwave, hfit, hat, hends, hregs, hfresh⟩
  have hstep : s.mach.dispatch s.sys core = s.mach.place w core base := by
    unfold Mach.dispatch
    rw [hat, if_neg (by simp), hchoose]
    dsimp only
    rw [hfit]
  obtain ⟨hmem, hwaves, hlength, hthr⟩ := place_enters (base := base) core hwave hends hregs hfresh
  refine ⟨_, congrArg (fun m => Host.Outcome.next ({ s with mach := m } : State).settle) hstep, fun a => ?_, ⟨_, hwaves, rfl, rfl⟩, hlength,
    fun i hi => ?_⟩
  · show (s.mach.place w core base).mem.read a = _
    rw [hmem]
  · obtain ⟨T, hT, h⟩ := hthr i hi
    exact ⟨T, hT, h.tid, h.wave, h.core, h.pc, h.homeQ, h.arg, h.length, h.zero, h.flags, h.rets, h.pend⟩

/-- Settles O34, clause by clause. -/
theorem launchesRun : Obligations.LaunchesRun := by
  unfold Obligations.LaunchesRun
  exact ⟨lpPost_joins, lpPost_full, lpSts_clears, lpKill_ends, lpKill_none, launchAccept_noRegion, launchAccept_launch, launchRetire_completes,
    waveDispatch_enters⟩

end Sys2Proof.Machine
end

section
/-! SUPPORT. Pre-emption of a region: requests, drains, sweeps, the save and the resume (spec/04 R134-R143). -/

namespace Sys2Proof.Machine

/-! ### Writes of the save area -/

/-- What a write of the device's own tables touches. -/
def Headed (m m' : Mach) : Prop := ∃ a d s r n o e v x f k, m' = { m with
  mem := a, eccDouble := d, eccSingle := s, reqs := r, next := n, out := o, errLog := e, errOver := v, cxlErrs := x, fired := f, free := k }

theorem Headed.refl (m : Mach) : Headed m m := ⟨_, _, _, _, _, _, _, _, _, _, _, rfl⟩

theorem Headed.trans {a b c : Mach} (h : Headed a b) (h' : Headed b c) : Headed a c := by
  obtain ⟨_, _, _, _, _, _, _, _, _, _, _, rfl⟩ := h
  obtain ⟨_, _, _, _, _, _, _, _, _, _, _, rfl⟩ := h'
  exact ⟨_, _, _, _, _, _, _, _, _, _, _, rfl⟩

theorem Headed.fold {α : Type} {step : Mach → α → Mach} (hstep : ∀ m a, Headed m (step m a)) (l : List α) : ∀ m, Headed m (l.foldl step m) := by
  induction l with
  | nil => exact Headed.refl
  | cons a l ih => exact fun m => (hstep m a).trans (ih _)

theorem logErr_headed (m : Mach) (cause unit pa : Nat) : Headed m (m.logErr cause unit pa) := by
  unfold Mach.logErr
  dsimp only
  split
  · split
    · exact ⟨_, _, _, _, _, _, _, _, _, _, _, rfl⟩
    · exact ⟨_, _, _, _, _, _, _, _, _, _, _, rfl⟩
  · split
    · exact ⟨_, _, _, _, _, _, _, _, _, _, _, rfl⟩
    · exact ⟨_, _, _, _, _, _, _, _, _, _, _, rfl⟩

theorem askFar_headed (y : Sys) (m : Mach) (who : FarFor) (loc va len : Nat) (write : Bool) (bs : List Byte) :
    Headed m (m.askFar y who loc va len write bs) := by
  unfold Mach.askFar
  dsimp only
  split
  · exact ⟨_, _, _, _, _, _, _, _, _, _, _, rfl⟩
  · exact ⟨_, _, _, _, _, _, _, _, _, _, _, rfl⟩

theorem devStore_headed (m : Mach) (loc : Nat) (bs : List Byte) : Headed m (m.devStore loc bs) := ⟨_, _, _, _, _, _, _, _, _, _, _, rfl⟩

theorem saveHead_headed (y : Sys) (m : Mach) (e : Eff) (off : Nat) (bs : List Byte) : Headed m (m.saveHead y e off bs) := by
  unfold Mach.saveHead Mach.devWriteVa
  split
  · split
    · exact (devStore_headed m _ _).trans (askFar_headed y _ _ _ _ _ _ _)
    · split
      · exact logErr_headed m _ _ _
      · exact devStore_headed m _ _
  · exact .refl m

theorem saveSlot_headed (y : Sys) (m : Mach) (e : Eff) (k : Nat) : Headed m (m.saveSlot y e k) := by
  unfold Mach.saveSlot
  dsimp only
  exact (Headed.fold (fun m _ => saveHead_headed y m e _ _) _ m).trans ⟨_, _, _, _, _, _, _, _, _, _, _, rfl⟩

/-! ### Requests -/

theorem preempt?_setPreempt (m : Mach) (p : Preempt) : (m.setPreempt p).preempt? p.rcb = some p := by
  unfold Mach.preempt? Mach.setPreempt
  rw [List.find?_cons, beq_self_eq_true]

/-- A request that nothing forbids makes the region's record, and writes its header. -/
theorem requestPreempt_marks {y : Sys} {m : Mach} {rcb : Nat} (reason : Nat) {l : Launch} {ls : List Launch}
    (hl : m.regionLaunches rcb = l :: ls) (hsave : l.eff.saveva ≠ 0) (hnone : m.preempt? rcb = none) :
    (m.requestPreempt y rcb reason).threads = m.threads ∧ (m.requestPreempt y rcb reason).quarters = m.quarters ∧
    (m.requestPreempt y rcb reason).preempt? rcb = some { rcb := rcb, reason := reason, since := m.cycle, saveva := l.eff.saveva } := by
  have hreq : m.requestPreempt y rcb reason =
      (m.setPreempt { rcb := rcb, reason := reason, since := m.cycle, saveva := l.eff.saveva }).saveHead y l.eff 0 (toBytes 1 4) := by
    unfold Mach.requestPreempt
    rw [hl]
    dsimp only
    rw [if_neg hsave, hnone]
  obtain ⟨_, _, _, _, _, _, _, _, _, _, _, hhead⟩ := saveHead_headed y
    (m.setPreempt { rcb := rcb, reason := reason, since := m.cycle, saveva := l.eff.saveva }) l.eff 0 (toBytes 1 4)
  rw [hreq, hhead]
  exact ⟨rfl, rfl, preempt?_setPreempt m _⟩

theorem preemptWrite_marks (v : DWord) (l : Launch) (ls : List Launch) : StepsTo (.preemptWrite v)
    (fun s => v.toNat % 128 = 0 ∧ s.mach.regionLaunches v.toNat = l :: ls ∧ l.eff.saveva ≠ 0 ∧ s.mach.preempt? v.toNat = none)
    fun s t => t.mach.threads = s.mach.threads ∧ t.mach.quarters = s.mach.quarters ∧ ∃ p, t.mach.preempt? v.toNat = some p ∧
      p.stage = 1 ∧ p.reason = 2 ∧ p.since = s.mach.cycle ∧ p.drained = [] := by
  rintro s - ⟨halign, hl, hsave, hnone⟩
  have hstep : s.mach.preemptReg s.sys v.toNat = s.mach.requestPreempt s.sys v.toNat 2 := if_pos halign
  obtain ⟨hthr, hq, hp⟩ := requestPreempt_marks (y := s.sys) 2 hl hsave hnone
  exact ⟨_, congrArg (fun m => Host.Outcome.next ({ s with mach := m } : State).settle) hstep, hthr, hq, _, hp, rfl, rfl, rfl, rfl⟩

/-- A step that changes nothing of the machine. -/
theorem settle_same {s : State} (hs : Settled s) : ({ s with mach := s.mach } : State).settle = s :=
  settle_both_quiet hs rfl rfl rfl rfl rfl

theorem preemptWrite_ignored (v : DWord) : Steps (.preemptWrite v)
    (fun s => v.toNat % 128 ≠ 0 ∨ (∀ l ∈ s.mach.regionLaunches v.toNat, l.eff.saveva = 0) ∨ s.mach.preempt? v.toNat ≠ none)
    fun s => s := by
  intro s hs hno
  have hstep : s.mach.preemptReg s.sys v.toNat = s.mach := by
    unfold Mach.preemptReg
    split
    · next halign =>
      unfold Mach.requestPreempt
      split
      · rfl
      · next l ls hl =>
        split
        · rfl
        · next hsave =>
          rcases hno with h | h | h
          · exact absurd halign h
          · exact absurd (h l (hl ▸ List.mem_cons_self)) hsave
          · split
            · exact if_neg fun hc => absurd hc.2 (by decide)
            · next hnone => exact absurd hnone h
    · rfl
  exact (congrArg (fun m => Host.Outcome.next ({ s with mach := m } : State).settle) hstep).trans (congrArg Host.Outcome.next (settle_same hs))

/-! ### The victim of a dispatcher -/

/-- What is least of all in an order is what `minBy` finds. -/
theorem minBy_least {α : Type} {lt : α → α → Bool} {v : α} (l : List α) (hv : v ∈ l)
    (hless : ∀ u ∈ l, u ≠ v → lt v u = true ∧ lt u v = false) : minBy lt l = some v := by
  induction l with
  | nil => exact absurd hv List.not_mem_nil
  | cons a r ih =>
    unfold minBy
    by_cases hr : v ∈ r
    · rw [ih hr fun u hu => hless u (List.mem_cons_of_mem _ hu)]
      dsimp only
      by_cases ha : a = v
      · rw [ha, ite_self]
      · rw [if_pos (hless a List.mem_cons_self ha).1]
    · have hav : a = v := (List.mem_cons.1 hv).resolve_right hr |>.symm
      cases hm : minBy lt r with
      | none => exact congrArg some hav
      | some b =>
        have hb : b ∈ r := minBy_mem r hm
        dsimp only
        rw [hav, if_neg]
        rw [(hless b (List.mem_cons_of_mem _ hb) fun h => hr (h ▸ hb)).2]
        exact Bool.false_ne_true

theorem lexLt_pair (a b c d : Nat) : lexLt [a, b] [c, d] = decide (a < c ∨ a = c ∧ b < d) := by
  unfold lexLt lexLt lexLt
  split
  · next h =>
    subst h
    split
    · next h => subst h; simp
    · simp
  · next h => simp [h]

theorem dispatch_requests (g : Nat) (w : Wave) (v l : Launch) (ls : List Launch) : StepsTo (.dispatchPreemptRequest g)
    (fun s =>
      let P := (s.mach.launch w.launch).eff
      s.mach.topWaiting g = some w ∧ w.since + 16384 ≤ s.mach.cycle ∧ s.mach.roomSome s.sys w = false ∧
      (∀ p ∈ s.mach.preempts, p.reason ≠ 1 ∨ p.stage ≠ 1) ∧ v ∈ s.mach.live ∧ v.eff.prio < P.prio ∧ s.mach.holdsIn v P.groves = true ∧
      (∀ u ∈ s.mach.live, u.order < s.mach.next ∧ (u ≠ v → u.eff.prio < P.prio → s.mach.holdsIn u P.groves = true →
        v.eff.prio < u.eff.prio ∨ (v.eff.prio = u.eff.prio ∧ u.order < v.order))) ∧
      s.mach.regionLaunches v.rcb = l :: ls ∧ l.eff.saveva ≠ 0 ∧ s.mach.preempt? v.rcb = none)
    fun s t => t.mach.threads = s.mach.threads ∧ ∃ p, t.mach.preempt? v.rcb = some p ∧ p.reason = 1 ∧ p.stage = 1 ∧
      p.since = s.mach.cycle := by
  rintro s - ⟨htop, hsince, hroom, hpre, hlive, hprio, hholds, hleast, hl, hsave, hnone⟩
  have hvictim : minBy (fun a b : Launch => lexLt [a.eff.prio, s.mach.next - a.order] [b.eff.prio, s.mach.next - b.order])
      (s.mach.live.filter fun l => decide (l.eff.prio < (s.mach.launch w.launch).eff.prio) &&
        s.mach.holdsIn l (s.mach.launch w.launch).eff.groves) = some v := by
    refine minBy_least _ (List.mem_filter.2 ⟨hlive, by rw [decide_eq_true hprio, hholds]; rfl⟩) fun u hu hne => ?_
    obtain ⟨hulive, hcond⟩ := List.mem_filter.1 hu
    obtain ⟨hup, huh⟩ := Bool.and_eq_true_iff.1 hcond
    obtain ⟨hord, hless⟩ := hleast u hulive
    have hvord := (hleast v hlive).1
    have h := hless hne (of_decide_eq_true hup) huh
    rw [lexLt_pair, lexLt_pair, decide_eq_true_eq, decide_eq_false_iff_not]
    omega
  have hstep : s.mach.dispatchRequest s.sys g = s.mach.requestPreempt s.sys v.rcb 1 := by
    unfold Mach.dispatchRequest
    rw [htop]
    dsimp only
    rw [hroom, hvictim, if_neg]
    have hany : (s.mach.preempts.any fun p => p.reason == 1 && p.stage == 1) = false := List.any_eq_false.2 fun p hp => by
      have h := hpre p hp
      simp only [Bool.and_eq_true, beq_iff_eq]
      omega
    rw [hany]
    simp
    omega
  obtain ⟨hthr, -, hp⟩ := requestPreempt_marks (y := s.sys) 1 hl hsave hnone
  exact ⟨_, congrArg (fun m => Host.Outcome.next ({ s with mach := m } : State).settle) hstep, hthr, _, hp, rfl, rfl, rfl⟩

/-! ### Quiescence -/

/-- A launch of a region that is being saved, and has not drained. -/
def Asked (l : Launch) (p : Preempt) (s : State) : Prop := s.mach.launch? l.id = some l ∧ l.retired = false ∧ l.ending = none ∧
  s.mach.preempt? l.rcb = some p ∧ p.stage = 1 ∧ l.id ∉ p.drained

theorem drainDetect_asked {s : State} {l : Launch} {p : Preempt} (h : Asked l p s) : s.mach.drainDetect s.sys l.id =
    (s.mach.lane? l.id).elim (if s.mach.lanes.length < 4 then { s.mach with lanes := s.mach.lanes ++ [{ launch := l.id }] } else s.mach)
      fun x => if s.mach.laneTrue s.sys x && (s.mach.sweepOf s.sys l.id).isNone then s.mach.declare l.id else s.mach := by
  obtain ⟨hl, hret, hends, hp, hstage, hout⟩ := h
  unfold Mach.drainDetect
  rw [launch_of hl, hp]
  dsimp only
  rw [live_going hret hends, if_neg (by simp [hstage, hout])]
  cases s.mach.lane? l.id <;> rfl

theorem quiescence_binds (l : Launch) (p : Preempt) : Steps (.quiescenceDrainDetect l.id)
    (fun s => Asked l p s ∧ s.mach.lane? l.id = none ∧ s.mach.lanes.length < 4)
    (fun s => s.withMach { s.mach with lanes := s.mach.lanes ++ [{ launch := l.id }] }) := by
  rintro s hs ⟨hasked, hlane, hroom⟩
  have hstep : s.mach.drainDetect s.sys l.id = { s.mach with lanes := s.mach.lanes ++ [{ launch := l.id }] } := by
    rw [drainDetect_asked hasked, hlane, Option.elim_none, if_pos hroom]
  exact (congrArg (fun m => Host.Outcome.next ({ s with mach := m } : State).settle) hstep).trans
    (congrArg Host.Outcome.next (settle_both_quiet hs rfl rfl rfl rfl rfl))

theorem tbit_zero (k : Nat) : tbit 0 k = false := by
  unfold tbit
  simp

/-- A launch that names no domain barrier has none to sweep. -/
theorem sweepOf_none {y : Sys} {m : Mach} {l : Nat} (h : (m.launch l).dombar = 0) : m.sweepOf y l = none := by
  unfold Mach.sweepOf
  rw [h, List.find?_eq_none.2 fun b _ => by rw [tbit_zero]; simp]
  rfl

theorem declare_eq {m : Mach} {l : Nat} {p : Preempt} (h : m.preempt? (m.launch l).rcb = some p) : m.declare l =
    ({ m with lanes := m.lanes.filter fun x => x.launch != l } : Mach).setPreempt { p with drained := p.drained ++ [l] } := by
  have hpre : ({ m with lanes := m.lanes.filter fun x => x.launch != l } : Mach).preempt?
      (({ m with lanes := m.lanes.filter fun x => x.launch != l } : Mach).launch l).rcb = some p := h
  unfold Mach.declare
  dsimp only at hpre ⊢
  rw [hpre]

theorem quiescence_declares (l : Launch) (p : Preempt) (x : Lane) (c : Nat) : Steps (.quiescenceDrainDetect l.id)
    (fun s => Asked l p s ∧ s.mach.lane? l.id = some x ∧ x.launch = l.id ∧ x.since = some c ∧ c + 96 ≤ s.mach.cycle ∧
      s.mach.idle s.sys l.id = true ∧ l.dombar = 0 ∧ p.rcb = l.rcb)
    (fun s => s.withMach { s.mach with
      lanes := s.mach.lanes.filter fun y => y.launch != l.id
      preempts := { p with drained := p.drained ++ [l.id] } :: s.mach.preempts.filter fun u => u.rcb != l.rcb }) := by
  rintro s hs ⟨hasked, hlane, hx, hsince, hage, hidle, hdom, hrcb⟩
  have hl := launch_of hasked.1
  obtain ⟨-, -, -, hp, -, -⟩ := id hasked
  have htrue : s.mach.laneTrue s.sys x = true := by
    unfold Mach.laneTrue
    rw [hx, hidle, hsince]
    simpa using hage
  have hdeclare : s.mach.declare l.id = { s.mach with
      lanes := s.mach.lanes.filter fun y => y.launch != l.id
      preempts := { p with drained := p.drained ++ [l.id] } :: s.mach.preempts.filter fun u => u.rcb != l.rcb } := by
    rw [declare_eq (by rw [hl]; exact hp)]
    unfold Mach.setPreempt
    rw [hrcb]
  have hstep : s.mach.drainDetect s.sys l.id = s.mach.declare l.id := by
    rw [drainDetect_asked hasked, hlane, Option.elim_some, htrue, sweepOf_none (by rw [hl]; exact hdom)]
    rfl
  rw [hdeclare] at hstep
  exact (congrArg (fun m => Host.Outcome.next ({ s with mach := m } : State).settle) hstep).trans
    (congrArg Host.Outcome.next (settle_both_quiet hs rfl rfl rfl rfl rfl))

/-! ### Sweeps -/

theorem inDrop_limits (y : Sys) (n vc : Nat) : (y.inDrop n vc).seThr = y.seThr ∧ (y.inDrop n vc).seFired = y.seFired := by
  unfold Sys.inDrop
  dsimp only
  split
  · exact ⟨rfl, rfl⟩
  · exact ⟨rfl, rfl⟩

theorem token_passes (l n num : Nat) (all : Bool) (d : Nat) (r : List Nat) : Steps (.drainSweepToken l)
    (fun s => s.sys.tokenAt = some (n, num, all, d :: r))
    fun s => s.withBoth (s.sys.inDrop n 0) { s.mach with
      out := s.mach.out ++ [⟨s.sys.devid, d, 0, 0, .drainToken num (all && s.mach.drainedHere s.sys num) r⟩] } := by
  intro s hs htoken
  show execDrainSweepToken l s = _
  unfold execDrainSweepToken
  refine onAll_quiet hs ?_ rfl rfl rfl (inDrop_limits s.sys n 0).1 (inDrop_limits s.sys n 0).2
  rw [htoken]
  rfl

theorem setLane_find {m : Mach} {l : Nat} {x y : Lane} (hx : m.lane? l = some x) (hy : y.launch = x.launch) :
    (m.setLane y).lane? l = some y := by
  have hl : x.launch = l := by simpa using List.find?_some hx
  refine (find?_replace Lane.launch m.lanes y l).trans ?_
  rw [if_pos (hy.trans hl)]
  exact congrArg (Option.map fun _ => y) hx

theorem sweep_begins (l num d : Nat) (r : List Nat) (x : Lane) : StepsTo (.drainSweepToken l)
    (fun s => s.sys.tokenAt = none ∧ s.mach.lane? l = some x ∧ x.sweep = false ∧ s.mach.laneTrue s.sys x = true ∧
      s.mach.sweepOf s.sys l = some (num, d :: r))
    fun s t => MemoryKept s t ∧ (∃ y, t.mach.lane? l = some y ∧ y.sweep = true) ∧
      t.mach.out = s.mach.out ++ [⟨s.sys.devid, d, 0, 0, .drainToken num true (r ++ [s.sys.devid])⟩] := by
  rintro s hs ⟨htoken, hlane, hsweep, htrue, hof⟩
  have hexec : exec (.drainSweepToken l) s = .next (s.withBoth s.sys { s.mach.setLane { x with sweep := true } with
      out := s.mach.out ++ [⟨s.sys.devid, d, 0, 0, .drainToken num true (r ++ [s.sys.devid])⟩] }) := by
    show execDrainSweepToken l s = _
    unfold execDrainSweepToken
    refine onAll_quiet hs ?_ rfl rfl rfl rfl rfl
    rw [htoken]
    dsimp only
    rw [hlane, hof]
    dsimp only
    rw [hsweep, htrue]
    rfl
  exact ⟨_, hexec, fun _ => rfl, ⟨_, setLane_find (m := s.mach) hlane rfl, rfl⟩, rfl⟩

/-! ### The save -/

theorem withdrawTiles_none {m : Mach} {mine : Nat → Bool}
    (h : ∀ q ∈ m.quarters, mine q.launch = true → ∀ x, q.wait ≠ some (.tile x) ∧ q.wait ≠ some (.mmaj x)) : m.withdrawTiles mine = m := by
  have hnone : ∀ f : Quarter → Bool, (∀ q ∈ m.quarters, f q = false) → m.quarters.filter f = [] := fun f hf =>
    List.filter_eq_nil_iff.2 fun q hq => by rw [hf q hq]; exact Bool.false_ne_true
  unfold Mach.withdrawTiles
  dsimp only
  rw [hnone]
  · have hflights : (m.flights.filter fun f => ([] : List Quarter).any fun q => q.id == f.qid) = [] :=
      List.filter_eq_nil_iff.2 fun _ _ => Bool.false_ne_true
    rw [hflights]
    rfl
  · intro q hq
    cases hmine : mine q.launch with
    | false => rfl
    | true =>
      have hwait := h q hq hmine
      rw [Bool.true_and]
      split
      · next x hx => exact absurd hx (hwait x).1
      · next x hx => exact absurd hx (hwait x).2
      · rfl

/-- What the save of a region leaves of the machine before its record is set: `mine` names the launches of the region. -/
structure Saved (m m' : Mach) (mine : Nat → Bool) : Prop where
  threads : m'.threads = m.threads
  launches : m'.launches = m.launches
  quarters : ∃ c, m'.quarters = m.quarters.map fun q => if mine q.launch then { q with slice := none, readySince := c } else q
  engines : m'.engines = m.engines.filter fun o => !mine o.launch
  rings : m'.rings = m.rings.filter fun r => !mine r.launch

/-- What the record of a saved region holds. -/
structure Record (m : Mach) (p p' : Preempt) (mine : Nat → Bool) : Prop where
  rcb : p'.rcb = p.rcb
  stage : p'.stage = 2
  savedAt : p'.savedAt = m.cycle
  rings : p'.rings = m.rings.filter fun r => mine r.launch
  bars : p'.bars = m.bars.filter fun b => decide (b.level ≤ 3) && mine b.launch
  tiles : p'.tiles = m.tiles.filter fun t => t.holder.any mine
  engines : p'.engines = (m.engines.filter fun o => mine o.launch).map fun o => { o with fault := none, answer := none }

theorem Headed.saved {m m0 m1 : Mach} {mine : Nat → Bool} (h : Headed m0 m1) (h0 : Saved m m0 mine) : Saved m m1 mine := by
  obtain ⟨_, _, _, _, _, _, _, _, _, _, _, rfl⟩ := h
  exact ⟨h0.threads, h0.launches, h0.quarters, h0.engines, h0.rings⟩

theorem save_spec {y : Sys} {m : Mach} {p : Preempt} (h : m.withdrawTiles (fun l => ((m.regionLaunches p.rcb).map fun l => l.id).contains l) = m) :
    ∃ m1 p', m.save y p = (m1.setPreempt p').preemptEnd ∧
      Saved m m1 (fun l => ((m.regionLaunches p.rcb).map fun l => l.id).contains l) ∧
      Record m p p' (fun l => ((m.regionLaunches p.rcb).map fun l => l.id).contains l) := by
  unfold Mach.save
  dsimp only
  rw [h]
  refine ⟨_, _, rfl, ?_, ⟨rfl, rfl, rfl, rfl, rfl, rfl, rfl⟩⟩
  refine Headed.saved (Headed.trans (Headed.trans (Headed.fold (fun m k => saveSlot_headed y m _ _) _ _) (saveHead_headed y _ _ _ _))
    (saveHead_headed y _ _ _ _)) ?_
  exact ⟨rfl, rfl, ⟨_, rfl⟩, rfl, rfl⟩

theorem mem_mine {m : Mach} {rcb l : Nat} : ((m.regionLaunches rcb).map fun l => l.id).contains l = true ↔ ∃ u ∈ m.regionLaunches rcb, u.id = l := by
  rw [List.contains_iff_mem, List.mem_map]

theorem preemptSave_saves (rcb : Nat) (p : Preempt) : StepsTo (.preemptSave rcb)
    (fun s => s.mach.preempt? rcb = some p ∧ p.rcb = rcb ∧ p.stage = 1 ∧ s.mach.regionLaunches rcb ≠ [] ∧
      (∀ l ∈ s.mach.regionLaunches rcb, l.id ∈ p.drained) ∧
      ∀ q ∈ s.mach.quarters, (∃ u ∈ s.mach.regionLaunches rcb, u.id = q.launch) → ∀ x, q.wait ≠ some (.tile x) ∧ q.wait ≠ some (.mmaj x))
    fun s t =>
      let mine (l : Nat) : Prop := ∃ u ∈ s.mach.regionLaunches rcb, u.id = l
      t.mach.threads = s.mach.threads ∧
      (∀ k q, s.mach.quarter? k = some q → mine q.launch → ∃ q', t.mach.quarter? k = some q' ∧ q'.slice = none ∧ q'.pc = q.pc ∧
        q'.hdr = q.hdr ∧ q'.slots = q.slots) ∧
      (∀ o ∈ t.mach.engines, ¬ mine o.launch) ∧ (∀ r ∈ t.mach.rings, ¬ mine r.launch) ∧
      ∃ p', t.mach.preempt? rcb = some p' ∧ p'.stage = 2 ∧ p'.savedAt = s.mach.cycle ∧
        (∀ r, r ∈ p'.rings ↔ r ∈ s.mach.rings ∧ mine r.launch) ∧
        (∀ b, b ∈ p'.bars ↔ b ∈ s.mach.bars ∧ b.level ≤ 3 ∧ mine b.launch) ∧
        (∀ x, x ∈ p'.tiles ↔ x ∈ s.mach.tiles ∧ ∃ l, x.holder = some l ∧ mine l) ∧
        ∀ o, o ∈ s.mach.engines → mine o.launch → { o with fault := none, answer := none } ∈ p'.engines := by
  rintro s - ⟨hp, hrcb, hstage, hsome, hdrained, hwaits⟩
  subst hrcb
  have hcalm := withdrawTiles_none (m := s.mach) (mine := fun l => ((s.mach.regionLaunches p.rcb).map fun l => l.id).contains l)
    fun q hq hmine => hwaits q hq (mem_mine.1 hmine)
  obtain ⟨m1, p', hsave, hleft, hrec⟩ := save_spec (y := s.sys) hcalm
  have hguard : (decide (p.stage = 1) && (s.mach.regionLaunches p.rcb).all fun l => p.drained.contains l.id) = true := by
    rw [hstage, List.all_eq_true.2 fun l hl => List.contains_iff_mem.2 (hdrained l hl)]
    rfl
  have hexec : exec (.preemptSave p.rcb) s = .next ({ s with mach := (m1.setPreempt p').preemptEnd } : State).settle := by
    show execPreemptSave p.rcb s = _
    unfold execPreemptSave onMach
    dsimp only
    rw [hp]
    exact congrArg (fun m => Host.Outcome.next ({ s with mach := m } : State).settle) ((if_pos hguard).trans hsave)
  have hkept : (m1.setPreempt p').preemptEnd.preempt? p.rcb = some p' := by
    have hlive : (m1.live.any fun l => l.rcb == p'.rcb && l.ending.isNone) = true := by
      obtain ⟨l, hl⟩ := List.exists_mem_of_ne_nil _ hsome
      obtain ⟨hmem, hcond⟩ := List.mem_filter.1 hl
      unfold Mach.live at hmem ⊢
      rw [hleft.launches, hrec.rcb]
      exact List.any_eq_true.2 ⟨l, hmem, hcond⟩
    unfold Mach.preempt?
    show ((p' :: m1.preempts.filter fun u => u.rcb != p'.rcb).filter fun p => m1.live.any fun l => l.rcb == p.rcb && l.ending.isNone).find?
      (fun q => q.rcb == p.rcb) = _
    rw [List.filter_cons, if_pos hlive, List.find?_cons, hrec.rcb, beq_self_eq_true]
  obtain ⟨c, hquarters⟩ := hleft.quarters
  refine ⟨_, hexec, hleft.threads, fun k q hq hmine => ?_, fun o ho hmine => ?_, fun r hr hmine => ?_, p', hkept, hrec.stage, hrec.savedAt,
    fun r => ?_, fun b => ?_, fun x => ?_, fun o ho hmine => ?_⟩
  · refine ⟨{ q with slice := none, readySince := c }, ?_, rfl, rfl, rfl, rfl⟩
    show m1.quarters.find? (fun u => u.id == k) = _
    rw [hquarters, find?_map_key Quarter.id _ _ (by intro u; split <;> rfl)]
    refine (congrArg _ hq).trans ?_
    rw [Option.map_some, if_pos (mem_mine.2 hmine)]
  · have hmem : o ∈ m1.engines := ho
    rw [hleft.engines, List.mem_filter, mem_mine.2 hmine] at hmem
    exact Bool.false_ne_true hmem.2
  · have hmem : r ∈ m1.rings := hr
    rw [hleft.rings, List.mem_filter, mem_mine.2 hmine] at hmem
    exact Bool.false_ne_true hmem.2
  · rw [hrec.rings, List.mem_filter, mem_mine]
  · rw [hrec.bars, List.mem_filter, Bool.and_eq_true, decide_eq_true_eq, mem_mine]
  · rw [hrec.tiles, List.mem_filter, Option.any_eq_true]
    simp only [mem_mine]
  · rw [hrec.engines]
    exact List.mem_map.2 ⟨o, List.mem_filter.2 ⟨ho, mem_mine.2 hmine⟩, rfl⟩

/-! ### The resume -/

/-- Threads keep their registers, and what the save of a region takes stays as it is. -/
structure Stayed (m m' : Mach) : Prop where
  there : ∀ k, (m'.thr? k).isSome = (m.thr? k).isSome
  regs : ∀ k, (m'.thr k).regs = (m.thr k).regs
  rings : m'.rings = m.rings
  bars : m'.bars = m.bars
  engines : m'.engines = m.engines
  tiles : m'.tiles = m.tiles
  preempts : m'.preempts = m.preempts

theorem Stayed.refl (m : Mach) : Stayed m m := ⟨fun _ => rfl, fun _ => rfl, rfl, rfl, rfl, rfl, rfl⟩

theorem Stayed.trans {a b c : Mach} (h : Stayed a b) (h' : Stayed b c) : Stayed a c where
  there k := (h'.there k).trans (h.there k)
  regs k := (h'.regs k).trans (h.regs k)
  rings := h'.rings.trans h.rings
  bars := h'.bars.trans h.bars
  engines := h'.engines.trans h.engines
  tiles := h'.tiles.trans h.tiles
  preempts := h'.preempts.trans h.preempts

theorem Stayed.fold {α : Type} {step : Mach → α → Mach} (hstep : ∀ m a, Stayed m (step m a)) (l : List α) : ∀ m, Stayed m (l.foldl step m) := by
  induction l with
  | nil => exact Stayed.refl
  | cons a l ih => exact fun m => (hstep m a).trans (ih _)

/-- No thread is touched. -/
theorem Stayed.still {m m' : Mach} (ht : m'.threads = m.threads) (hr : m'.rings = m.rings) (hb : m'.bars = m.bars)
    (he : m'.engines = m.engines) (hti : m'.tiles = m.tiles) (hp : m'.preempts = m.preempts) : Stayed m m' := by
  refine ⟨fun k => ?_, fun k => ?_, hr, hb, he, hti, hp⟩
  · unfold Mach.thr?
    rw [ht]
  · unfold Mach.thr Mach.thr?
    rw [ht]

/-- Every thread keeps its key and its registers. -/
theorem Stayed.map {m m' : Mach} {f : Thread → Thread} (ht : m'.threads = m.threads.map f) (hid : ∀ t, (f t).id = t.id)
    (hregs : ∀ t, (f t).regs = t.regs) (hr : m'.rings = m.rings) (hb : m'.bars = m.bars) (he : m'.engines = m.engines)
    (hti : m'.tiles = m.tiles) (hp : m'.preempts = m.preempts) : Stayed m m' := by
  have hfind : ∀ k, m'.thr? k = (m.thr? k).map f := fun k => by
    unfold Mach.thr?
    rw [ht]
    exact find?_map_key Thread.id _ _ hid k
  refine ⟨fun k => ?_, fun k => ?_, hr, hb, he, hti, hp⟩
  · rw [hfind, Option.isSome_map]
  · unfold Mach.thr
    rw [hfind]
    cases m.thr? k with
    | none => rfl
    | some t => exact hregs t

theorem Headed.stayed {m m' : Mach} (h : Headed m m') : Stayed m m' := by
  obtain ⟨_, _, _, _, _, _, _, _, _, _, _, rfl⟩ := h
  exact .still rfl rfl rfl rfl rfl rfl

theorem modWave_stayed (m : Mach) (k : Nat) (f : Wave → Wave) : Stayed m (m.modWave k f) := by
  obtain ⟨ws, h⟩ := modWave_frame m k f
  rw [h]
  exact .still rfl rfl rfl rfl rfl rfl

/-- An item of the region moves: a frame is that of a thread that is there. -/
theorem scrMove_stayed {m : Mach} {x : ScrItem × Nat} (hx : ∀ t, x.1 = .frame t → (m.thr? t).isSome) : Stayed m (m.scrMove x) := by
  unfold Mach.scrMove
  split
  · exact modWave_stayed m _ _
  · next t ht =>
    have hthere := hx t ht
    refine ⟨fun k => isSome_modThr (f := fun t => { t with place := .scratch x.2 }) (fun _ => rfl) hthere k, fun k => ?_, rfl, rfl, rfl, rfl, rfl⟩
    exact (thr_modThr_regs m t (fun t => { t with place := .scratch x.2 }) (fun _ => rfl) (fun _ => rfl) hthere).1 k
  · split
    · exact .still rfl rfl rfl rfl rfl rfl
    · exact .refl m

theorem scrMoves_stayed (ps : List (ScrItem × Nat)) : ∀ {m : Mach}, (∀ x ∈ ps, ∀ t, x.1 = .frame t → (m.thr? t).isSome) →
    Stayed m (ps.foldl Mach.scrMove m) := by
  induction ps with
  | nil => exact fun _ => .refl _
  | cons x ps ih =>
    intro m h
    have hone := scrMove_stayed (h x List.mem_cons_self)
    exact hone.trans (ih fun u hu t ht => (hone.there t).trans (h u (List.mem_cons_of_mem _ hu) t ht))

theorem slotCheck_stayed (y : Sys) (m : Mach) (e : Eff) (ls : List Nat) (core : Nat) : Stayed m (m.slotCheck y e ls core) := by
  unfold Mach.slotCheck
  split
  · exact .refl m
  · next w _ =>
    obtain ⟨_, _, _, _, _, _, _, _, _, _, _, h⟩ := logErr_headed m 0x30 core w
    dsimp only
    rw [h]
    exact .map rfl (fun t => by split <;> rfl) (fun t => by split <;> rfl) rfl rfl rfl rfl rfl

theorem setStamps_stayed (a : Nat) (l : List (Nat × Nat)) (m : Mach) : Stayed m (l.foldl (fun m x => m.setStamp (a + x.1) x.2) m) :=
  Stayed.fold (step := fun m (x : Nat × Nat) => m.setStamp (a + x.1) x.2) (fun _ _ => .still rfl rfl rfl rfl rfl rfl) l m

theorem scrBack_stayed (m : Mach) (p : Preempt) (w : Wave) : Stayed m (m.scrBack p w) := by
  unfold Mach.scrBack
  split
  · exact .refl m
  · next s _ =>
    dsimp only
    have h := setStamps_stayed (w.scrAt / 64) (enum s.stamps) { m with mem := m.mem.put w.scrAt s.bytes }
    generalize (enum s.stamps).foldl (fun m x => m.setStamp (w.scrAt / 64 + x.1) x.2) { m with mem := m.mem.put w.scrAt s.bytes } = m1 at h
    exact ⟨h.there, h.regs, h.rings, h.bars, h.engines, h.tiles, h.preempts⟩

theorem shiftTimes_stayed (m : Mach) (ids : List Nat) (d : Nat) : Stayed m (m.shiftTimes ids d) :=
  .map rfl (fun t => by split <;> rfl) (fun t => by split <;> rfl) rfl rfl rfl rfl rfl

theorem formQuarter_stayed (y : Sys) (m : Mach) (g : Glade) : Stayed m (m.formQuarter y g) := by
  have hgang : ∀ (m : Mach) (core launch rg : Nat) (pc : Pc) (limit : Nat), Stayed m (m.gangFresh core launch rg pc limit) := by
    intro m core launch rg pc limit
    unfold Mach.gangFresh
    dsimp only
    split
    · exact .refl m
    · exact .still rfl rfl rfl rfl rfl rfl
  unfold Mach.formQuarter
  dsimp only
  split
  · refine Stayed.trans ?_ (hgang _ _ _ _ _ _)
    exact .map rfl (fun t => by split <;> rfl) (fun t => by split <;> rfl) rfl rfl rfl rfl rfl
  · exact .map rfl (fun t => by split <;> rfl) (fun t => by split <;> rfl) rfl rfl rfl rfl rfl

theorem formGroup_stayed (m : Mach) (g : Glade) : Stayed m (m.formGroup g) := by
  unfold Mach.formGroup
  dsimp only
  split
  · exact .still rfl rfl rfl rfl rfl rfl
  · exact .map rfl (fun t => by split <;> rfl) (fun t => by split <;> rfl) rfl rfl rfl rfl rfl

theorem freeGlade_stayed (y : Sys) (m : Mach) (core : Nat) : Stayed m (m.freeGlade y core) := by
  have hfresh : ∀ (m : Mach) (core launch rg : Nat) (pc : Pc), Stayed m (m.leaveFresh core launch rg pc) :=
    fun m _ _ _ _ => .still rfl rfl rfl rfl rfl rfl
  have hyield : ∀ (m : Mach) (g : Glade), Stayed m (m.yieldGlade y g) := by
    intro m g
    unfold Mach.yieldGlade
    split
    · exact formGroup_stayed m g
    · exact formQuarter_stayed y m g
  unfold Mach.freeGlade
  dsimp only
  split
  · exact .refl m
  · split
    · next g _ =>
      split
      · exact hyield m g
      · exact (hyield m g).trans (hfresh _ _ _ _ _)
    · split
      · exact .refl m
      · exact hfresh m _ _ _ _

theorem trimGlades_stayed (y : Sys) (m : Mach) (core : Nat) : Stayed m (m.trimGlades y core) := by
  unfold Mach.trimGlades
  split
  · exact .refl m
  · exact freeGlade_stayed y m core

/-- The items that get places are those that ask for them. -/
theorem scrPlaces_items {m : Mach} (l : List (Nat × Nat × Nat × ScrItem)) : ∀ {done ps}, scrPlaces m l done = some ps →
    ∀ x ∈ ps, ∃ i ∈ l, i.2.2.2 = x.1 := by
  induction l with
  | nil =>
    intro done ps h x hx
    cases h
    exact absurd hx List.not_mem_nil
  | cons i l ih =>
    intro done ps h x hx
    obtain ⟨k, la, n, it⟩ := i
    unfold scrPlaces at h
    split at h
    · cases h
    · next b _ =>
      obtain ⟨ps', hps', rfl⟩ := Option.map_eq_some_iff.1 h
      rcases List.mem_cons.1 hx with rfl | hx
      · exact ⟨_, List.mem_cons_self, rfl⟩
      · obtain ⟨u, hu, he⟩ := ih hps' x hx
        exact ⟨u, List.mem_cons_of_mem _ hu, he⟩

/-- A frame that asks for a place is that of a thread that is there. -/
theorem scrItems_frame {m : Mach} {rcb : Nat} {i : Nat × Nat × Nat × ScrItem} {t : Nat} (hi : i ∈ m.scrItems rcb) (ht : i.2.2.2 = .frame t) :
    (m.thr? t).isSome := by
  unfold Mach.scrItems at hi
  dsimp only at hi
  rcases List.mem_append.1 hi with hi | hi
  · rcases List.mem_append.1 hi with hi | hi
    · obtain ⟨w, -, rfl⟩ := List.mem_map.1 hi
      cases ht
    · obtain ⟨T, hT, hsome⟩ := List.mem_filterMap.1 hi
      split at hsome
      · cases hsome
        cases ht
        exact List.find?_isSome.2 ⟨T, (List.mem_filter.1 hT).1, beq_self_eq_true _⟩
      · cases hsome
  · obtain ⟨c, -, hsome⟩ := List.mem_filterMap.1 hi
    split at hsome
    · cases hsome
      cases ht
    · cases hsome

/-- The restore of a region: what was taken stands before or after what the machine has. -/
structure Restored (m m' : Mach) (p : Preempt) : Prop where
  regs : ∀ k, (m'.thr k).regs = (m.thr k).regs
  rings : m'.rings = p.rings ++ m.rings
  bars : m'.bars = m.bars ++ p.bars
  engines : m'.engines = m.engines ++ p.engines
  tiles : ∀ x ∈ p.tiles, x ∈ m'.tiles

theorem Stayed.restored {m m0 m1 m' : Mach} {p : Preempt} (h : Stayed m m0) (ht : m1.threads = m0.threads) (hr : m1.rings = p.rings ++ m0.rings)
    (hb : m1.bars = m0.bars ++ p.bars) (he : m1.engines = m0.engines ++ p.engines) (hti : ∀ x ∈ p.tiles, x ∈ m1.tiles) (h' : Stayed m1 m') :
    Restored m m' p where
  regs k := by
    refine (h'.regs k).trans (Eq.trans ?_ (h.regs k))
    unfold Mach.thr Mach.thr?
    rw [ht]
  rings := h'.rings.trans (hr.trans (by rw [h.rings]))
  bars := h'.bars.trans (hb.trans (by rw [h.bars]))
  engines := h'.engines.trans (he.trans (by rw [h.engines]))
  tiles x hx := by
    rw [h'.tiles]
    exact hti x hx

theorem Restored.ends {m m1 m' : Mach} {p : Preempt} (h : Restored m m1 p) (h' : Stayed (m1.setPreempt { p with stage := 3 }) m') :
    Restored m m' p ∧ m'.preempt? p.rcb = some { p with stage := 3 } := by
  refine ⟨⟨fun k => (h'.regs k).trans (h.regs k), h'.rings.trans h.rings, h'.bars.trans h.bars, h'.engines.trans h.engines,
    fun x hx => h'.tiles ▸ h.tiles x hx⟩, ?_⟩
  have hpre := preempt?_setPreempt m1 { p with stage := 3 }
  unfold Mach.preempt? at hpre ⊢
  rw [h'.preempts]
  exact hpre

/-- The first steps of a restore: items take their places, the header and the slots are read, and waves' scratch is written back. -/
def Mach.unslot (y : Sys) (m : Mach) (p : Preempt) (ps : List (ScrItem × Nat)) : Mach :=
  let m1 := (((m.regionWaves p.rcb).filterMap fun w => w.core).eraseDups).foldl
    (fun m1 k => m1.slotCheck y ((m.regionLaunches p.rcb).headD {}).eff ((m.regionLaunches p.rcb).map fun l => l.id) k)
    ((ps.foldl Mach.scrMove m).saveHead y ((m.regionLaunches p.rcb).headD {}).eff 0 (toBytes 3 4))
  (m1.regionWaves p.rcb).foldl (fun m w => m.scrBack p w) m1

theorem unslot_stayed {y : Sys} {m : Mach} {p : Preempt} {ps : List (ScrItem × Nat)} (hps : ∀ x ∈ ps, ∀ t, x.1 = .frame t → (m.thr? t).isSome) :
    Stayed m (m.unslot y p ps) :=
  (((scrMoves_stayed ps hps).trans (saveHead_headed y _ _ _ _).stayed).trans (Stayed.fold (fun m k => slotCheck_stayed y m _ _ k) _ _)).trans
    (Stayed.fold (fun m w => scrBack_stayed m p w) _ _)

theorem restore_spec {y : Sys} {m : Mach} {p : Preempt} {ps : List (ScrItem × Nat)} (hps : ∀ x ∈ ps, ∀ t, x.1 = .frame t → (m.thr? t).isSome) :
    Restored m (m.restore y p ps) p ∧ (m.restore y p ps).preempt? p.rcb = some { p with stage := 3 } := by
  unfold Mach.restore
  dsimp only
  refine Restored.ends ?_ (Stayed.fold (fun m k => Stayed.fold (fun m _ => trimGlades_stayed y m k) _ m) _ _)
  refine Stayed.restored (m0 := m.unslot y p ps) (unslot_stayed hps) ?_ ?_ ?_ ?_ ?_ (Stayed.trans
    (Stayed.fold (step := fun m (a : Nat × Nat) => m.modCore a.1 fun c => { c with alcove := some a.2 })
      (fun _ _ => .still rfl rfl rfl rfl rfl rfl) _ _)
    (Stayed.trans (shiftTimes_stayed _ _ _) (Stayed.fold (step := Mach.dropCopies) (fun _ _ => .still rfl rfl rfl rfl rfl rfl) _ _)))
  · rfl
  · rfl
  · rfl
  · rfl
  · exact fun x hx => List.mem_append_left _ hx

theorem regionResume_restores (rcb : Nat) (p : Preempt) (ps : List (ScrItem × Nat)) : StepsTo (.regionResume rcb)
    (fun s => s.mach.preempt? rcb = some p ∧ p.rcb = rcb ∧ p.stage = 2 ∧ s.mach.roomBack p = true ∧ s.mach.outranked p = false ∧
      scrPlaces s.mach (s.mach.scrItems rcb) [] = some ps)
    fun s t => RegistersKept s t ∧ t.mach.rings = p.rings ++ s.mach.rings ∧ t.mach.bars = s.mach.bars ++ p.bars ∧
      t.mach.engines = s.mach.engines ++ p.engines ∧ (∀ x ∈ p.tiles, x ∈ t.mach.tiles) ∧
      ∃ p', t.mach.preempt? rcb = some p' ∧ p'.stage = 3 := by
  rintro s - ⟨hp, hrcb, hstage, hroom, hrank, hplaces⟩
  have hexec : exec (.regionResume rcb) s = .next ({ s with mach := s.mach.restore s.sys p ps } : State).settle := by
    show execRegionResume rcb s = _
    unfold execRegionResume onMach
    dsimp only
    rw [hp]
    dsimp only
    rw [if_neg (by omega), hstage, hroom, hrank, if_neg (by decide), hplaces]
  obtain ⟨h, hpre⟩ := restore_spec (y := s.sys) (m := s.mach) (p := p) (ps := ps) fun x hx t ht => by
    obtain ⟨i, hi, he⟩ := scrPlaces_items _ hplaces x hx
    exact scrItems_frame hi (he.trans ht)
  rw [hrcb] at hpre
  exact ⟨_, hexec, h.regs, h.rings, h.bars, h.engines, h.tiles, _, hpre, rfl⟩

theorem keptBack_none {m : Mach} (ids : List Nat) (h : ∀ q ∈ m.sysqs, q.kept = []) : m.keptBack ids = m := by
  have hall : ∀ (step : Mach → Nat × SysQ → Mach) (l : List (Nat × SysQ)), (∀ m, ∀ q ∈ l, step m q = m) → ∀ m, l.foldl step m = m := by
    intro step l
    induction l with
    | nil => exact fun _ _ => rfl
    | cons q l ih =>
      intro hstep m
      rw [List.foldl_cons, hstep m q List.mem_cons_self]
      exact ih (fun m u hu => hstep m u (List.mem_cons_of_mem _ hu)) m
  refine hall _ _ (fun m' q hq => ?_) m
  rw [h q.2 (List.mem_of_getElem? (mem_enum.1 hq))]
  rfl

theorem regionResume_ends (rcb : Nat) (p : Preempt) : StepsTo (.regionResume rcb)
    (fun s => s.mach.preempt? rcb = some p ∧ p.rcb = rcb ∧ p.stage = 3 ∧ p.sump = [] ∧ p.again = false ∧
      ∀ q ∈ s.mach.sysqs, q.kept = [])
    fun s t => RegistersKept s t ∧ t.mach.quarters = s.mach.quarters ∧ t.mach.preempt? rcb = none := by
  rintro s - ⟨hp, hrcb, hstage, hsump, hagain, hkept⟩
  subst hrcb
  have hnone : ({ s.mach with preempts := s.mach.preempts.filter fun u => u.rcb != p.rcb } : Mach).preempt? p.rcb = none :=
    List.find?_eq_none.2 fun u hu => by
      have hne := (List.mem_filter.1 hu).2
      simpa using hne
  have hresume : ∃ m1, Headed ({ s.mach with preempts := s.mach.preempts.filter fun u => u.rcb != p.rcb } : Mach) m1 ∧
      s.mach.resume s.sys p = m1 := by
    refine ⟨_, saveHead_headed s.sys _ ((s.mach.regionLaunches p.rcb).headD {}).eff 0 (toBytes 0 4), ?_⟩
    unfold Mach.resume
    dsimp only
    have hback := keptBack_none (m := ({ s.mach with preempts := s.mach.preempts.filter fun u => u.rcb != p.rcb } : Mach))
      ((s.mach.regionLaunches p.rcb).map fun l => l.id) hkept
    dsimp only at hback
    rw [hsump, hagain, List.foldl_nil, hback]
    rfl
  obtain ⟨m1, hheaded, hm1⟩ := hresume
  have hexec : exec (.regionResume p.rcb) s = .next ({ s with mach := m1 } : State).settle := by
    show execRegionResume p.rcb s = _
    unfold execRegionResume onMach
    dsimp only
    rw [hp]
    dsimp only
    rw [if_pos hstage, hm1]
  obtain ⟨_, _, _, _, _, _, _, _, _, _, _, rfl⟩ := hheaded
  exact ⟨_, hexec, fun _ => rfl, rfl, hnone⟩

/-- Settles O35, clause by clause. -/
theorem regionsPreempted : Obligations.RegionsPreempted := by
  unfold Obligations.RegionsPreempted
  exact ⟨preemptWrite_marks, preemptWrite_ignored, fun l p => ⟨quiescence_binds l p, quiescence_declares l p⟩, token_passes, sweep_begins,
    dispatch_requests, preemptSave_saves, regionResume_restores, regionResume_ends⟩

end Sys2Proof.Machine
end
